-- ==== Sys2Proof/Word.lean ====
section
/-!
DEFINITION. The words of the device: bit vectors of the widths the registers, descriptors and
packets have (00_scope.md R15), and bytes.
-/
namespace Sys2Proof

abbrev Byte := BitVec 8
abbrev U16 := BitVec 16
abbrev U32 := BitVec 32
abbrev U64 := BitVec 64
abbrev Bytes := List Byte

end Sys2Proof
end

