-- ==== Sys2Proof/Syntax.lean ====
section
/-!
DEFINITION. The commands of the block: one constructor of `Instr` for each row of
spec/opcode_table.json, with the operands the command carries, and the plain data the operands are
made of (descriptors, packets, notices, flits, the parsed Glofer image, sensor readings).
Numbers of units (facets, queues, links, ports) are `Nat`; `Instr.wf` bounds them.
-/
namespace Sys2Proof

/-- A descriptor: eight little-endian 64-bit words (02_work_queues.md, Descriptor formats). -/
structure Desc where
  w0 : U64
  w1 : U64
  w2 : U64
  w3 : U64
  w4 : U64
  w5 : U64
  w6 : U64
  w7 : U64
deriving DecidableEq, Repr, Inhabited

/-- Which kind of ring a command names: submission queue, receive queue or event ring. -/
inductive QKind where
  | sq
  | rq
  | evr
deriving DecidableEq, Repr, Inhabited

/-- The three parts of the family (00_scope.md, The variants). -/
inductive Variant where
  | dn7240
  | dn7232
  | dn7216
deriving DecidableEq, Repr, Inhabited

/-- The ZRT base header, field by field (R97); `rsv` gathers its reserved bits in ascending order. -/
structure Bth where
  ver : BitVec 4
  typ : BitVec 4
  first : Bool
  last : Bool
  ackreq : Bool
  ce : Bool
  ciph : Bool
  resent : Bool
  imm : Bool
  lineage : BitVec 4
  psn : U32
  dstEp : BitVec 27
  srcEp : BitVec 27
  dstQpn : BitVec 20
  plen : BitVec 13
  ctag : U32
  msn : U32
  rsv : BitVec 54
deriving DecidableEq, Repr, Inhabited

/-- The extension headers of R97 and the CXH of the collective packets (R181's chapter); `rsv`
fields gather the reserved bits of each header in ascending order. -/
inductive Ext where
  | reth (roff : U64) (rkey msgLen : U32) (rseg : Byte) (rsv : BitVec 24) (readOff : U32)
  | seth (msgOff msgLen ssn immv : U32)
  | rrh (msgOff rsv : U32)
  | aeth (ackPsn : U32) (syndrome ceEcho : Byte) (rsv0 : U16) (scomp : U32) (truncMap : Byte)
      (rsv1 : BitVec 24) (sack : U64) (nakPsn rsv2 : U32)
  | cmeh (initPsn ownCtag : U32) (srcQpn : BitVec 20) (rqEn cipher : Bool) (pmtuExp : BitVec 3)
      (winExp : BitVec 4) (rsv0 : BitVec 3) (reason : Byte) (rsv1 : BitVec 24)
  | cxh (gid : BitVec 12) (sub : BitVec 4) (srcMember dstMember : U16) (level : BitVec 2)
      (broken : Bool) (rsv : BitVec 13) (chunk sig : U32) (pkt step : U16) (arg : U32)
  | none
deriving DecidableEq, Repr, Inhabited

/-- The route header of a packet on a link (R234). -/
structure RouteHdr where
  dst : BitVec 24
  tc : BitVec 2
  dl : Bool
  dim : BitVec 2
  dir : Bool
  alt : Bool
  altSeen : Bool
  echoAlt : Bool
  fixRail : Bool
  rail : BitVec 2
  toGw : Bool
  gwPos : BitVec 12
  notice : Bool
  hops : BitVec 7
  src : BitVec 24
deriving DecidableEq, Repr, Inhabited

/-- What the route header that a gateway left out of a frame held (R234, R241): ALT_SEEN, ECHO_ALT and FIXRAIL. The
frame of R364 has no field for them; the far gateway carries them over. -/
structure FarBits where
  altSeen : Bool
  echoAlt : Bool
  fixRail : Bool
deriving DecidableEq, Repr, Inhabited

/-- The cipher header and tag of a ciphered packet (R344). -/
structure Cph where
  cseq : BitVec 63
  kphase : Bool
  tag : BitVec 128
deriving DecidableEq, Repr, Inhabited

/-- A ZRT or collective packet with the route header it travels under. -/
structure Packet where
  rh : RouteHdr
  bth : Bth
  ext : Ext
  cph : Option Cph
  data : Bytes
  icrc : U32
deriving DecidableEq, Repr, Inhabited

/-- A fabric notice: its route header and its two body words (R255). -/
structure Notice where
  rh : RouteHdr
  w0 : U64
  w1 : U64
deriving DecidableEq, Repr, Inhabited

/-- What SETUP carries: the attributes, the member list and the programs of a group (R155). -/
structure GroupAttr where
  gid : Nat
  gtag : U32
  format : Nat
  mode : Bool
  winopt : BitVec 4
  plan : Nat
  maxChunk : Nat
  holdExp : Nat
  row : Nat
  members : List U64
  send : List U64
  reduce : List U64
  recv : List U64
deriving DecidableEq, Repr, Inhabited

/-- Who makes an access of a register page, a push group or local memory: a processor through PF0's BARs, or through those
of VF `f` (R292), or agent `a` from the Lantern core it runs on, through that core's own address map (R418). -/
inductive Source where
  | bar
  | vf (f : Nat)
  | agent (a : Nat)
deriving DecidableEq, Repr, Inhabited

/-- A stream of accesses, which parks alone (R269). -/
inductive Stream where
  | source (qpn : Nat)
  | responder (qpn : Nat)
  | readResp (qpn : Nat)
  | coll (gid member : Nat)
  | mover (ch : Nat)
  | desc (q : Nat)
  | raw
deriving DecidableEq, Repr, Inhabited

/-- What a source read serves (R103, R110, R168, R309, R374): a packet of a QP, a READ_RESP, a chunk of a member, a
mover channel's next element, the next frame of the ETH_SEND of an SQ of facet 0. -/
inductive ReadFor where
  | packet (qpn : Nat) (psn : U32)
  | readResp (qpn : Nat) (psn : U32)
  | chunk (gid member chunk : Nat)
  | mover (ch : Nat)
  | frame (q : Nat)
deriving DecidableEq, Repr, Inhabited

/-- One of the two ends of a Mirror write that completes (R107, R119, R346, R453, R315, R375). -/
inductive MirrorKey where
  | qpE (qpn : Nat)                 -- the responder's E (R107)
  | qpSend (qpn : Nat)              -- SCOMP and the truncation bits of the oldest complete send (R111)
  | qpFirst (qpn : Nat) (psn : U32) -- a started descriptor's first PSN and MSN (R119)
  | cseq (qpn : Nat)                -- CSEQ_BOUND (R346)
  | done (f : Nat) (rq : Bool) (q : Nat) (idx : U32) -- a completion record (R453)
  | burst (ch : Nat)                -- a confirmed burst of a paced MOVE (R315)
  | frame (f q : Nat)               -- the number of an ETH_SEND frame (R375)
deriving DecidableEq, Repr, Inhabited

/-- The kind of read a port read error meets (R295). -/
inductive ReadKind where
  | fetch (f : Nat) (rq : Bool) (q : Nat)
  | source (qpn : Nat) (psn : U32)
  | readServe (qpn : Nat)
  | coll (gid member : Nat)
  | flush
  | moverRead (ch : Nat)
  | cipher (f : Nat)
  | ethSend (f q : Nat)
  | desc (f q : Nat)                -- what a descriptor reads as it starts: an auxiliary area, lists, a record
deriving DecidableEq, Repr, Inhabited

/-- The fields of a flit control word (R232). -/
structure Fcw where
  fseq : BitVec 12
  vc : BitVec 3
  idle : Bool
  firstPkt : Byte
  replay : Bool
  nak : Bool
  ackSeq : BitVec 12
  crVc : BitVec 3
  crCnt : BitVec 12
  dropSeq : BitVec 12
  dropValid : Bool
  dropDone : BitVec 12
  doneValid : Bool
deriving DecidableEq, Repr, Inhabited

/-- The wake inputs of the always-on domain (R432). -/
inductive WakeKind where
  | wakeDn (k : Nat)
  | perstUp
  | pattern (p : Nat)
deriving DecidableEq, Repr, Inhabited

/-- The readings of the sensors at a cooling period or a sample cycle (R432, R439): six diodes and the
junction sensor in 1/16 °C, the level switch (closed or open), four tachometers in rpm, and the four
supplies watched in Glimmer (VDD_AON, VDD_MEM, VDD_MEMQ, VDD_ETH) in mV. -/
structure Readings where
  temps : List (BitVec 16)
  levelClosed : Bool
  rpms : List U16
  supplies : List Nat
deriving DecidableEq, Repr, Inhabited

/-- One entry of the REGS list (R413). -/
structure RegEntry where
  off : Nat
  wide : Bool
  value : U64
deriving DecidableEq, Repr, Inhabited

/-- The MEM section (R414), sizes in MiB and the data rate in MT/s. -/
structure MemSection where
  rate : Nat
  mirror : Nat
  tilepool : Nat
  spill : Nat
  lantern : Nat
deriving DecidableEq, Repr, Inhabited

/-- One FACETS entry (R415): STATE, HOLDER, AGENT and the 16 words of its resource record. -/
structure FacetEntry where
  on : Bool
  agentHeld : Bool
  agent : Nat
  record : List U64
deriving DecidableEq, Repr, Inhabited

/-- One schedule record of a topology plan (R416): at a step and level, the value of a tree node moves from one adapter to
another in a direction (0 to 5, as R232 numbers them). Tree nodes are numbered in the order in which R153 forms them, the
leaves first. -/
structure SchedRec where
  level : Nat
  step : Nat
  node : Nat
  src : Nat
  dst : Nat
  dirn : Nat
deriving DecidableEq, Repr, Inhabited

/-- One topology plan (R416): its header and its schedule records. -/
structure PlanEntry where
  id : Nat
  levels : Nat
  pods : U64
  ringX : U16
  ringZ : U16
  sched : List SchedRec
deriving DecidableEq, Repr, Inhabited

/-- One AGENTS entry (R417); `passes` is the outcome of its verification (R357). -/
structure AgentEntry where
  index : Nat
  prefCore : Nat
  memMib : Nat
  wdogMs : Nat
  facets : BitVec 128
  passes : Bool
  digest : BitVec 512
  object : Bytes
deriving DecidableEq, Repr, Inhabited

/-- A Glofer image as the device reads it (R408): the header's fields and the parsed sections. -/
structure Image where
  gen : U32
  ownId : BitVec 24
  reqUnits : U64
  warmKey : BitVec 256
  ucodeVer : U16
  planVer : U16
  regs : List RegEntry
  mem : MemSection
  facets : List FacetEntry
  plans : List PlanEntry
  agents : List AgentEntry
  thermal : List U64
  fwDigest : BitVec 512
  digest : BitVec 512
deriving DecidableEq, Repr, Inhabited

/-- What reading one bank of the NVM yields (R409): whether its header reads and is consistent, whether the
owner's and the firmware's signatures verify, whether its sections are well placed, and the image. -/
structure Bank where
  headerOk : Bool
  ownerSigOk : Bool
  fwSigOk : Bool
  sectionsOk : Bool
  image : Image
deriving DecidableEq, Repr, Inhabited

/-- What a boot stage meets outside the device: the NVM's banks and the fitted memory (R282, R407, R411). -/
structure BootInfo where
  bankA : Bank
  bankB : Bank
  channels : Nat
  chMib : Nat
  trained : Bool
  keyMatches : Bool
deriving DecidableEq, Repr, Inhabited

/-- R282: 4 channels for each of 4 to 8 packages, of 2, 4 or 8 GiB each. -/
def BootInfo.fits (b : BootInfo) : Bool :=
  decide (b.channels % 4 = 0 ∧ 16 ≤ b.channels ∧ b.channels ≤ 32) && [2048, 4096, 8192].contains b.chMib

/-- Whose configuration space a write reaches: a downstream bridge's (R291), the upstream port's, PF0's or the VFs', which
PF0's SR-IOV capability holds (R292, R298). -/
inductive ConfigPlace where
  | bridge (b : Nat)
  | upstream
  | pf0
  | vfs
deriving DecidableEq, Repr, Inhabited

/-- What a configuration write writes, and how its two values hold it: secondary and subordinate bus number (bits 7..0 of
each), first and last address of the memory window, ACS controls and egress control vector (bits 7..0 of each), Secondary
Bus Reset (bit 0 of the first), BAR 2k (the first), VF Enable (bit 0 of the first) (R291, R292, R297 to R299). -/
inductive ConfigReg where
  | busNumbers
  | window
  | acs
  | secondaryReset
  | bar (k : Nat)
  | vfEnable
deriving DecidableEq, Repr, Inhabited

/-- An access of a facet's register page or push pages: who makes it, and the facet whose pages it names. -/
structure PageAccess where
  src : Source
  f : Nat
deriving DecidableEq, Repr, Inhabited

/-- An access through a window on local memory: who makes it, and the offset in the window, or an agent core's address. -/
structure WindowAccess where
  src : Source
  off : Nat
deriving DecidableEq, Repr, Inhabited

/-- Where a request from below or above the switch goes: an address, already translated or not, or a bus number by which
it is routed (R291). -/
structure PeerDest where
  addr : U64
  bus : Option Nat
  translated : Bool
deriving DecidableEq, Repr, Inhabited

/-- ALT_SEEN and ECHO_ALT of the route header that a gateway left out of a frame (R234, R241). -/
structure AltBits where
  altSeen : Bool
  echoAlt : Bool
deriving DecidableEq, Repr, Inhabited

/-- The commands, one constructor per row of spec/opcode_table.json, in its order. -/
inductive Instr where
  | porstN (low : Bool) (samples : Nat)
  | adpRstN (low : Bool) (samples : Nat)
  | powerLoss
  | umbraResetHoldEnd
  | deviceReset (f q : Nat)
  | bootStageDone (info : BootInfo)
  | registerWrite (page : PageAccess) (off width : Nat) (value : U64)
  | fetchGrant
  | fetchReadDone (f : Nat) (rq : Bool) (q : Nat) (slots : List Desc)
  | reread (f : Nat) (rq : Bool) (q : Nat)
  | queSqDoorbell (f q : Nat) (v : U32)
  | push (page : PageAccess) (q off len : Nat) (descs : List Desc)
  | descriptorAccept (f : Nat) (rq : Bool) (q : Nat)
  | progressRecord (f : Nat) (rq : Bool) (q : Nat)
  | eventEntry (f : Nat) (rq : Bool) (q : Nat)
  | msixHoldExpiry (f e : Nat)
  | queEvrCons (f e : Nat) (v : U32)
  | queEvrConsArm (f e : Nat) (v : U32)
  | queRqDoorbell (f q : Nat) (v : U32)
  | queueCreate (f : Nat) (k : QKind) (q : Nat)
  | queueDestroy (f : Nat) (k : QKind) (q : Nat)
  | queueRestart (f : Nat) (k : QKind) (q : Nat)
  | nop (f q : Nat)
  | write (f q : Nat)
  | read (f q : Nat)
  | send (f q : Nat)
  | recv (f q : Nat)
  | qpCreate (f : Nat)
  | qpConnect (f : Nat)
  | qpDestroy (f : Nat)
  | qpQuery (f : Nat)
  | connect (p : Packet)
  | accept (p : Packet)
  | reject (p : Packet)
  | connectRetry (qpn : Nat)
  | writePacket (p : Packet)
  | sendPacket (p : Packet)
  | readReq (p : Packet)
  | readResp (p : Packet)
  | ack (p : Packet)
  | nakRnr (p : Packet)
  | nakWait (p : Packet)
  | nakHold (p : Packet)
  | holdClear (p : Packet)
  | nakAccess (p : Packet)
  | nakNoConn (p : Packet)
  | contextFetchDone (qpn : Nat)
  | packetSend (qpn : Nat)
  | sourceReadDone (w : ReadFor) (bytes : Bytes)
  | flushReadCompletion (port : Nat) (halfB : Bool)
  | memWriteComplete
  | mirrorWriteDone (k : MirrorKey)
  | resendTimeout (qpn : Nat)
  | rnrBackoffEnd (qpn : Nat)
  | nakWaitResend (qpn : Nat)
  | holdResend (qpn : Nat)
  | holdLimit (qpn : Nat)
  | ratePeriod (qpn : Nat)
  | wheelSlot
  | groupCreate (f q : Nat) (members send reduce recv : List U64)
  | groupDestroy (f q : Nat)
  | groupQuery (f q : Nat)
  | groupSetupResend (gid : Nat)
  | setupExpiry (gid : Nat)
  | teardownResend (gid : Nat)
  | barrier (f q : Nat)
  | allreduce (f q : Nat)
  | reduce (f q : Nat)
  | reduceScatter (f q : Nat)
  | broadcast (f q : Nat)
  | allgather (f q : Nat)
  | gather (f q : Nat)
  | scatter (f q : Nat)
  | alltoall (f q : Nat)
  | gatherv (f q : Nat) (aux : Bytes)
  | alltoallv (f q : Nat) (aux : Bytes)
  | expertDispatch (f q : Nat) (aux : Bytes)
  | expertCombine (f q : Nat) (aux : Bytes)
  | cdata (p : Packet)
  | counts (p : Packet)
  | capacityFlag (p : Packet)
  | anchorPass (p : Packet)
  | cconf (p : Packet)
  | ccommit (p : Packet)
  | resend (p : Packet)
  | abort (p : Packet)
  | rollback (p : Packet)
  | gone (p : Packet)
  | held (p : Packet)
  | setup (p : Packet) (attr : GroupAttr)
  | setupOk (p : Packet)
  | refuse (p : Packet)
  | activate (p : Packet)
  | activeOk (p : Packet)
  | teardown (p : Packet)
  | confResend (gid : Nat)
  | chunkResendRequest (gid chunk : Nat)
  | collHoldLimit (gid : Nat)
  | prismChunkDone (gid chunk : Nat)
  | residueError (cluster lane slice : Nat) (other : Bool)
  | residueWindow
  | signalDetect (n : Nat)
  | detectProbe (n : Nat)
  | equalizationDone (n : Nat)
  | trainTimeout (n : Nat)
  | lockAndDeskew (n : Nat)
  | alignTimeout (n : Nat)
  | farLinkWord (n : Nat) (lw : BitVec 40)
  | exchangeTimeout (n : Nat)
  | lossOfLock (n : Nat)
  | svlLnkCtrlRetrain (n : Nat)
  | miswireHoldEnd (n : Nat)
  | lpreqRequestSleep (n : Nat)
  | lpreqGrantSleep (n : Nat)
  | lpreqWake (n : Nat) (sent : Bool)
  | flit (n uncorrectable corrected : Nat) (fields : BitVec 96) (fcrc : U32) (payload : Bytes)
  | replayTimer (n : Nat)
  | fecWindow (n : Nat)
  | ring (m : Notice)
  | ringRefresh
  | noroute (m : Notice)
  | gwShunExpiry (pod : Nat)
  | segmentWrite (f : Nat)
  | segmentInvalidate (f : Nat)
  | segmentRead (f : Nat)
  | translationMissDone (st : Stream)
  | faultReraise
  | fltResume (f : Nat) (v : U32)
  | fltCfgWrite (f : Nat) (v : U64)
  | fltCons (f : Nat) (v : U32)
  | fltArm (f : Nat) (v : U32)
  | tileMigrate (f q : Nat)
  | tileMap (f q : Nat)
  | migrationBegin
  | migrationDrained (facet seg tile : Nat)
  | migrationCopyDone (facet seg tile : Nat) (bytes : Bytes)
  | channelCopyDone
  | portDown (port : Nat) (halfB : Bool)
  | dlUp (port : Nat) (halfB : Bool) (speed width : Nat) (flit : Bool)
  | pcxAttachEpoch (f : Nat)
  | pcxDevPort (f p : Nat)
  | pcxDevPortB (f k : Nat)
  | busMasterEnable (f : Nat) (on : Bool)
  | upstreamReset
  | bridgeConfigWrite (place : ConfigPlace) (r : ConfigReg) (lo hi : U64)
  | flr (f : Nat)
  | portReadError (port : Nat) (halfB : Bool) (kind : Nat) (addr : U64) (what : ReadKind)
  | flushRetry (port : Nat) (halfB : Bool)
  | move (f q : Nat)
  | moveChannelGrant
  | dmaReq (n : Nat) (rising : Bool)
  | movFacReq (f : Nat) (v : U32)
  | movFacPendClear (f : Nat) (v : U32)
  | movBuserr (port : Nat) (halfB : Bool) (kind : Nat) (addr : U64)
  | movDevCtrlResume (f : Nat)
  | movDevCtrlAbort (f : Nat)
  | facetResize (f q : Nat) (record : List U64)
  | facetReset (f q : Nat)
  | facetResetAdvance (f : Nat)
  | cipKeyLoad (f : Nat)
  | cipKeyClear (f : Nat)
  | cipKeySwitch (f : Nat)
  | cipKeyQuery (f : Nat)
  | cbcEncrypt (f : Nat) (v : U32)
  | cbcDecrypt (f : Nat) (v : U32)
  | ctr (f : Nat) (v : U32)
  | cipherJobDone (core : Nat) (bytes : Bytes)
  | trustAttReport (f : Nat)
  | trustAttCertificate (f : Nat)
  | reportSigned
  | trustDevExtCmd (f : Nat) (v : U32)
  | entropyReady
  | drbgReseed
  | maskRekey (core : Nat)
  | ethFrame (port sub : Nat) (fcsOk fixRail : Bool) (alt : AltBits) (frame : Bytes)
  | ethLinkUp (port sub : Nat)
  | ethLinkDown (port sub : Nat)
  | ethSend (f q : Nat) (header : Bytes)
  | ethFrameSent (f q : Nat) (idx : U32)
  | errorEvent (source unit : Nat) (info0 : U64) (facet : Option Nat)
  | self
  | errDevForce (f : Nat) (v : U64)
  | unitFence (f q : Nat)
  | unitUnfence (f q : Nat)
  | fenceWindow
  | dumpWritten
  | hostCopyDone (ok : Bool)
  | aglSel (f : Nat) (v : U32)
  | agentWatchdog (a : Nat)
  | agentTrap (a : Nat)
  | lanDevKick (core : Option Nat) (v : U32)
  | restIdle
  | restEntryStep
  | holdActiveWrite (f : Nat) (v : U32)
  | glimmerIdle
  | glimmerEntryDone
  | wakeInput (w : WakeKind)
  | sampleCycle (r : Readings)
  | wakeUpTimeout
  | powerGood (rail : Nat)
  | railTimeout (rail : Nat)
  | railOff (rail : Nat)
  | avsTrim (vcore vsram : Nat) (coreOk sramOk : Bool)
  | coolingPeriod (r : Readings)
  | powerOn (part : Variant)
  | railSequenceRetry
  | prismPowerUp
  | channelUnfenceCopyDone
  | scanTestEntry
  | msixEnable (f : Nat)
  | peerRequest (port : Nat) (halfB : Bool) (reqBus : Nat) (dest : PeerDest) (isWrite : Bool) (bytes : Bytes)
  | windowWrite (w : WindowAccess) (bytes : Bytes)
deriving DecidableEq, Repr, Inhabited

end Sys2Proof
end

