-- ==== Sys2Proof/WellFormed.lean ====
section
/-!
DEFINITION. Which operands a command may carry: the numbers of facets, queues, QPs, links, ports and units within
the limits the spec gives them (R12, R13, R149, R282, R290 and the limits table of 02_work_queues.md), and lists
of the lengths the units have.
-/
namespace Sys2Proof

/-- A ring's number is within its kind's limit. -/
def QKind.numberOk (k : QKind) (q : Nat) : Bool :=
  match k with
  | .sq => decide (q < 256)
  | .rq => decide (q < 256)
  | .evr => decide (q < 64)

/-- A stream names a QP, a group and member, a mover channel, or an SQ of facet 0 that can exist. -/
def Stream.wf (st : Stream) : Bool :=
  match st with
  | .source n => decide (n < 1048576)
  | .responder n => decide (n < 1048576)
  | .readResp n => decide (n < 1048576)
  | .coll g m => decide (g < 4096) && decide (m < 65536)
  | .mover c => decide (c < 32)
  | .desc q => decide (q < 256)
  | .raw => true

/-- A source read serves a QP, a member's chunk or a mover channel that can exist. -/
def ReadFor.wf (w : ReadFor) : Bool :=
  match w with
  | .packet n _ => decide (n < 1048576)
  | .readResp n _ => decide (n < 1048576)
  | .chunk g m _ => decide (g < 4096) && decide (m < 65536)
  | .mover c => decide (c < 32)
  | .frame q => decide (q < 256)

/-- A VF or an agent that exists (R290, R417). -/
def Source.wf (x : Source) : Bool :=
  match x with
  | .bar => true
  | .vf f => decide (1 ≤ f) && decide (f < 128)
  | .agent a => decide (a < 6)

/-- The registers that a place of configuration space holds: bridges 0 to 7, three BARs of PF0 and of the VFs (R290 to R292,
R297 to R299). -/
def ConfigPlace.holds (p : ConfigPlace) (r : ConfigReg) : Bool :=
  match p, r with
  | .bridge b, .busNumbers | .bridge b, .window | .bridge b, .acs | .bridge b, .secondaryReset => decide (b < 8)
  | .upstream, .busNumbers | .upstream, .window | .vfs, .vfEnable => true
  | .pf0, .bar k | .vfs, .bar k => decide (k < 3)
  | _, _ => false

/-- The offsets that a source may write through BAR4 (R292, R293), or from an agent core (R418). -/
def Source.offOk (x : Source) (off : Nat) : Bool :=
  match x with
  | .bar => decide (off < 0x8000000)
  | .vf _ => decide (off < 0x10000)
  | .agent _ => decide (off < 2 ^ 64)

/-- A wake input of R432 that exists. -/
def WakeKind.wf (w : WakeKind) : Bool :=
  match w with
  | .wakeDn k => decide (k < 4)
  | .perstUp => true
  | .pattern p => decide (p < 2)

/-- Readings carry six diodes and the junction sensor, four tachometers and four supplies. -/
def Readings.wf (r : Readings) : Bool :=
  decide (r.temps.length = 7) && decide (r.rpms.length = 4) && decide (r.supplies.length = 4)

/-- The operands of a command are within the spec's limits. -/
def Instr.wf (i : Instr) : Bool :=
  match i with
  | .porstN _ _ => true
  | .adpRstN _ _ => true
  | .powerLoss => true
  | .umbraResetHoldEnd => true
  | .deviceReset f q => decide (f < 128) && decide (q < 256)
  | .bootStageDone info => info.fits
  | .registerWrite page off _ _ => page.src.wf && decide (page.f < 128) && decide (off < 65536)
  | .fetchGrant => true
  | .fetchReadDone f _ q _ => decide (f < 128) && decide (q < 256)
  | .reread f _ q => decide (f < 128) && decide (q < 256)
  | .queSqDoorbell f q _ => decide (f < 128) && decide (q < 256)
  | .push page q off _ _ => page.src.wf && decide (page.f < 128) && decide (q < 256) && decide (off < 4096)
  | .descriptorAccept f _ q => decide (f < 128) && decide (q < 256)
  | .progressRecord f _ q => decide (f < 128) && decide (q < 256)
  | .eventEntry f _ q => decide (f < 128) && decide (q < 256)
  | .msixHoldExpiry f e => decide (f < 128) && decide (e < 64)
  | .queEvrCons f e _ => decide (f < 128) && decide (e < 64)
  | .queEvrConsArm f e _ => decide (f < 128) && decide (e < 64)
  | .queRqDoorbell f q _ => decide (f < 128) && decide (q < 256)
  | .queueCreate f k q => decide (f < 128) && QKind.numberOk k q
  | .queueDestroy f k q => decide (f < 128) && QKind.numberOk k q
  | .queueRestart f k q => decide (f < 128) && QKind.numberOk k q
  | .nop f q => decide (f < 128) && decide (q < 256)
  | .write f q => decide (f < 128) && decide (q < 256)
  | .read f q => decide (f < 128) && decide (q < 256)
  | .send f q => decide (f < 128) && decide (q < 256)
  | .recv f q => decide (f < 128) && decide (q < 256)
  | .qpCreate f => decide (f < 128)
  | .qpConnect f => decide (f < 128)
  | .qpDestroy f => decide (f < 128)
  | .qpQuery f => decide (f < 128)
  | .connect _ => true
  | .accept _ => true
  | .reject _ => true
  | .connectRetry qpn => decide (qpn < 1048576)
  | .writePacket _ => true
  | .sendPacket _ => true
  | .readReq _ => true
  | .readResp _ => true
  | .ack _ => true
  | .nakRnr _ => true
  | .nakWait _ => true
  | .nakHold _ => true
  | .holdClear _ => true
  | .nakAccess _ => true
  | .nakNoConn _ => true
  | .contextFetchDone qpn => decide (qpn < 1048576)
  | .packetSend qpn => decide (qpn < 1048576)
  | .sourceReadDone w _ => ReadFor.wf w
  | .flushReadCompletion port _ => decide (port < 5)
  | .memWriteComplete => true
  | .mirrorWriteDone _ => true
  | .resendTimeout qpn => decide (qpn < 1048576)
  | .rnrBackoffEnd qpn => decide (qpn < 1048576)
  | .nakWaitResend qpn => decide (qpn < 1048576)
  | .holdResend qpn => decide (qpn < 1048576)
  | .holdLimit qpn => decide (qpn < 1048576)
  | .ratePeriod qpn => decide (qpn < 1048576)
  | .wheelSlot => true
  | .groupCreate f q _ _ _ _ => decide (f < 128) && decide (q < 256)
  | .groupDestroy f q => decide (f < 128) && decide (q < 256)
  | .groupQuery f q => decide (f < 128) && decide (q < 256)
  | .groupSetupResend gid => decide (gid < 4096)
  | .setupExpiry gid => decide (gid < 4096)
  | .teardownResend gid => decide (gid < 4096)
  | .barrier f q => decide (f < 128) && decide (q < 256)
  | .allreduce f q => decide (f < 128) && decide (q < 256)
  | .reduce f q => decide (f < 128) && decide (q < 256)
  | .reduceScatter f q => decide (f < 128) && decide (q < 256)
  | .broadcast f q => decide (f < 128) && decide (q < 256)
  | .allgather f q => decide (f < 128) && decide (q < 256)
  | .gather f q => decide (f < 128) && decide (q < 256)
  | .scatter f q => decide (f < 128) && decide (q < 256)
  | .alltoall f q => decide (f < 128) && decide (q < 256)
  | .gatherv f q _ => decide (f < 128) && decide (q < 256)
  | .alltoallv f q _ => decide (f < 128) && decide (q < 256)
  | .expertDispatch f q _ => decide (f < 128) && decide (q < 256)
  | .expertCombine f q _ => decide (f < 128) && decide (q < 256)
  | .cdata _ => true
  | .counts _ => true
  | .capacityFlag _ => true
  | .anchorPass _ => true
  | .cconf _ => true
  | .ccommit _ => true
  | .resend _ => true
  | .abort _ => true
  | .rollback _ => true
  | .gone _ => true
  | .held _ => true
  | .setup _ _ => true
  | .setupOk _ => true
  | .refuse _ => true
  | .activate _ => true
  | .activeOk _ => true
  | .teardown _ => true
  | .confResend gid => decide (gid < 4096)
  | .chunkResendRequest gid _ => decide (gid < 4096)
  | .collHoldLimit gid => decide (gid < 4096)
  | .prismChunkDone gid _ => decide (gid < 4096)
  | .residueError cluster lane slice _ => decide (cluster < 8) && decide (lane < 32) && decide (slice < 16)
  | .residueWindow => true
  | .signalDetect n => decide (n < 24)
  | .detectProbe n => decide (n < 24)
  | .equalizationDone n => decide (n < 24)
  | .trainTimeout n => decide (n < 24)
  | .lockAndDeskew n => decide (n < 24)
  | .alignTimeout n => decide (n < 24)
  | .farLinkWord n _ => decide (n < 24)
  | .exchangeTimeout n => decide (n < 24)
  | .lossOfLock n => decide (n < 24)
  | .svlLnkCtrlRetrain n => decide (n < 24)
  | .miswireHoldEnd n => decide (n < 24)
  | .lpreqRequestSleep n => decide (n < 24)
  | .lpreqGrantSleep n => decide (n < 24)
  | .lpreqWake n _ => decide (n < 24)
  | .flit n _ _ _ _ bs => decide (n < 24) && decide (bs.length ≤ 240)
  | .replayTimer n => decide (n < 24)
  | .fecWindow n => decide (n < 24)
  | .ring _ => true
  | .ringRefresh => true
  | .noroute _ => true
  | .gwShunExpiry pod => decide (pod < 64)
  | .segmentWrite f => decide (f < 128)
  | .segmentInvalidate f => decide (f < 128)
  | .segmentRead f => decide (f < 128)
  | .translationMissDone st => Stream.wf st
  | .faultReraise => true
  | .fltResume f _ => decide (f < 128)
  | .fltCfgWrite f _ => decide (f < 128)
  | .fltCons f _ => decide (f < 128)
  | .fltArm f _ => decide (f < 128)
  | .tileMigrate f q => decide (f < 128) && decide (q < 256)
  | .tileMap f q => decide (f < 128) && decide (q < 256)
  | .migrationBegin => true
  | .migrationDrained facet seg tile => decide (facet < 128) && decide (seg < 256) && decide (tile < 8388608)
  | .migrationCopyDone facet seg tile _ => decide (facet < 128) && decide (seg < 256) && decide (tile < 8388608)
  | .channelCopyDone => true
  | .portDown port _ => decide (port < 5)
  | .dlUp port _ speed width _ => decide (port < 5 ∧ 1 ≤ speed ∧ speed ≤ 6) && [1, 2, 4, 8, 16].contains width
  | .pcxAttachEpoch f => decide (f < 128)
  | .pcxDevPort f p => decide (f < 128) && decide (p < 5)
  | .pcxDevPortB f k => decide (f < 128) && decide (k < 4)
  | .busMasterEnable f _ => decide (f < 128)
  | .upstreamReset => true
  | .bridgeConfigWrite place r _ _ => place.holds r
  | .flr f => decide (f < 128)
  | .portReadError port _ kind _ _ => decide (port < 5) && decide (1 ≤ kind ∧ kind ≤ 5)
  | .flushRetry port _ => decide (port < 5)
  | .move f q => decide (f < 128) && decide (q < 256)
  | .moveChannelGrant => true
  | .dmaReq n _ => decide (n < 8)
  | .movFacReq f _ => decide (f < 128)
  | .movFacPendClear f _ => decide (f < 128)
  | .movBuserr port _ kind _ => decide (port < 6) && decide (1 ≤ kind ∧ kind ≤ 5)
  | .movDevCtrlResume f => decide (f < 128)
  | .movDevCtrlAbort f => decide (f < 128)
  | .facetResize f q record => decide (f < 128) && decide (q < 256) && decide (record.length = 16)
  | .facetReset f q => decide (f < 128) && decide (q < 256)
  | .facetResetAdvance f => decide (f < 128)
  | .cipKeyLoad f => decide (f < 128)
  | .cipKeyClear f => decide (f < 128)
  | .cipKeySwitch f => decide (f < 128)
  | .cipKeyQuery f => decide (f < 128)
  | .cbcEncrypt f _ => decide (f < 128)
  | .cbcDecrypt f _ => decide (f < 128)
  | .ctr f _ => decide (f < 128)
  | .cipherJobDone core _ => decide (core < 8)
  | .trustAttReport f => decide (f < 128)
  | .trustAttCertificate f => decide (f < 128)
  | .reportSigned => true
  | .trustDevExtCmd f _ => decide (f < 128)
  | .entropyReady => true
  | .drbgReseed => true
  | .maskRekey core => decide (core < 8)
  | .ethFrame port sub _ _ _ _ => decide (port < 2) && decide (sub < 4)
  | .ethLinkUp port sub => decide (port < 2) && decide (sub < 4)
  | .ethLinkDown port sub => decide (port < 2) && decide (sub < 4)
  | .ethSend f q _ => decide (f < 128) && decide (q < 256)
  | .ethFrameSent f q _ => decide (f < 128) && decide (q < 256)
  | .errorEvent source unit _ facet => decide (source < 64) && decide (unit < 256) && facet.all (fun f => decide (f < 128))
  | .self => true
  | .errDevForce f _ => decide (f < 128)
  | .unitFence f q => decide (f < 128) && decide (q < 256)
  | .unitUnfence f q => decide (f < 128) && decide (q < 256)
  | .fenceWindow => true
  | .dumpWritten => true
  | .hostCopyDone _ => true
  | .aglSel f _ => decide (f < 128)
  | .agentWatchdog a => decide (a < 6)
  | .agentTrap a => decide (a < 6)
  | .lanDevKick core _ => core.all (fun c => decide (c < 8))
  | .restIdle => true
  | .restEntryStep => true
  | .holdActiveWrite f _ => decide (f < 128)
  | .glimmerIdle => true
  | .glimmerEntryDone => true
  | .wakeInput w => WakeKind.wf w
  | .sampleCycle r => Readings.wf r
  | .wakeUpTimeout => true
  | .powerGood rail => decide (rail < 8)
  | .railTimeout rail => decide (rail < 8)
  | .railOff rail => decide (rail < 8)
  | .avsTrim _ _ _ _ => true
  | .coolingPeriod r => Readings.wf r
  | .powerOn _ => true
  | .railSequenceRetry => true
  | .prismPowerUp => true
  | .channelUnfenceCopyDone => true
  | .scanTestEntry => true
  | .msixEnable f => decide (f < 128)
  | .peerRequest port _ reqBus dest _ _ => decide (port < 5 ∧ reqBus < 256) && decide (dest.bus.getD 0 < 256)
  | .windowWrite w _ => w.src.wf && w.src.offOk w.off

end Sys2Proof
end

