-- ==== Sys2Proof/Decode.lean ====
section
/-!
DEFINITION. The table's words: spec/opcode_table.json gives no row of this block any bits, so no word spells a
command.
-/
namespace Sys2Proof

/-- The command that the `nbits` low bits of `w` spell by the table's bits: none, since no row of the table has any. -/
def decodeTableWord (_nbits _w : Nat) : Option Instr := none

end Sys2Proof
end

