-- ==== Sys2Proof/Machine/Bits.lean ====
section
/-!
DEFINITION. Bit fields, little-endian bytes, lists cut into equal parts, and the cyclic redundancy check
of packets and flits. Everything a test could show wrong about how a word is cut stands here.
-/
namespace Sys2Proof.Machine

/-- The field `[hi:lo]` of a word, as a number (R15). -/
def fld {n : Nat} (w : BitVec n) (hi lo : Nat) : Nat := (w.toNat >>> lo) % 2 ^ (hi + 1 - lo)

/-- Bit `[i]` of a word. -/
def bit {n : Nat} (w : BitVec n) (i : Nat) : Bool := w.toNat.testBit i

/-- A number `v` put into the field that starts at bit `lo`. -/
def put (n : Nat) (v lo : Nat) : BitVec n := BitVec.ofNat n (v <<< lo)

/-- 0 or 1. -/
def b2n (b : Bool) : Nat := if b then 1 else 0

/-- The low `n` bytes of a number, least significant first (R15). -/
def toLE : Nat → Nat → Bytes
  | 0, _ => []
  | n + 1, v => BitVec.ofNat 8 v :: toLE n (v / 256)

/-- The number that little-endian bytes spell (R15). -/
def ofLE : Bytes → Nat
  | [] => 0
  | b :: bs => b.toNat + 256 * ofLE bs

/-- The low `n` bytes of a number, most significant first. -/
def toBE (n v : Nat) : Bytes := (toLE n v).reverse

/-- The number that big-endian bytes spell. -/
def ofBE (bs : Bytes) : Nat := ofLE bs.reverse

/-- A list cut into parts of `n`, the last perhaps shorter; `fuel` bounds their number. -/
def chop {α : Type} (n : Nat) : Nat → List α → List (List α)
  | 0, _ => []
  | _ + 1, [] => []
  | fuel + 1, l => l.take n :: chop n fuel (l.drop n)

/-- The parts of `n` elements of a list. -/
def chunksOf {α : Type} (n : Nat) (l : List α) : List (List α) := chop n l.length l

/-- How many of the low `n` bits of a number are set. -/
def popCount (n v : Nat) : Nat := ((List.range n).filter (fun i => v.testBit i)).length

/-- The positions of the set bits among the low `n`, ascending. -/
def setBits (n v : Nat) : List Nat := (List.range n).filter (fun i => v.testBit i)

/-- The number whose set bits are the listed positions. -/
def ofBits (l : List Nat) : Nat := l.foldl (fun a i => a ||| (1 <<< i)) 0

/-- `a` rounded up to a multiple of `b`, in units of `b`. -/
def ceilDiv (a b : Nat) : Nat := (a + b - 1) / b

/-- A list of bytes made `n` long: cut, or filled with zeros. -/
def padTo (n : Nat) (bs : Bytes) : Bytes := bs.take n ++ List.replicate (n - bs.length) 0

/-- Element `i` of a list with another element in its place. -/
def listSet {α : Type} (l : List α) (i : Nat) (a : α) : List α := l.set i a

/-- The k-th number that is not among ascending used ones. -/
def nthFree (k : Nat) (used : List Nat) : Nat := used.foldl (fun k u => if u ≤ k then k + 1 else k) k

/-- One bit step of CRC-32C (reflected polynomial 0x82F63B78; PRESUMED, log entry 6). -/
def crcStep (c : Nat) : Nat := if c.testBit 0 then (c / 2) ^^^ 0x82F63B78 else c / 2

/-- One byte step of CRC-32C. -/
def crcByte (c : Nat) (b : Byte) : Nat :=
  crcStep (crcStep (crcStep (crcStep (crcStep (crcStep (crcStep (crcStep (c ^^^ b.toNat))))))))

/-- CRC-32C of a list of bytes (R99, R231). -/
def crc32c (bs : Bytes) : U32 := BitVec.ofNat 32 ((bs.foldl crcByte 0xFFFFFFFF) ^^^ 0xFFFFFFFF)

/-- The 64 bytes of a descriptor (02_work_queues.md, Descriptor formats). -/
def Desc.words (d : Desc) : List U64 := [d.w0, d.w1, d.w2, d.w3, d.w4, d.w5, d.w6, d.w7]

/-- The descriptor of eight words. -/
def descOf (l : List U64) : Desc :=
  { w0 := l.getD 0 0, w1 := l.getD 1 0, w2 := l.getD 2 0, w3 := l.getD 3 0,
    w4 := l.getD 4 0, w5 := l.getD 5 0, w6 := l.getD 6 0, w7 := l.getD 7 0 }

/-- Words as little-endian bytes. -/
def wordBytes (l : List U64) : Bytes := l.flatMap (fun w => toLE 8 w.toNat)

/-- Bytes as little-endian 64-bit words. -/
def bytesWords (bs : Bytes) : List U64 := (chunksOf 8 bs).map (fun c => BitVec.ofNat 64 (ofLE c))

/-- The 64 bytes of a descriptor, word `w` at bytes 8w to 8w + 7. -/
def descBytes (d : Desc) : Bytes := wordBytes (Desc.words d)

/-- The descriptor that 64 bytes spell. -/
def bytesDesc (bs : Bytes) : Desc := descOf (bytesWords bs)

end Sys2Proof.Machine
end

