-- ==== Sys2Proof/Machine/Float.lean ====
section
/-!
DEFINITION. Exact binary arithmetic and rounding (06_prism_reduction_arithmetic.md): values as sign, integer and power of two, the
element formats, conversion into and out of them (R185, R188, R189, R222), IEEE binary32 operations (R190, R191, R219),
and the comparisons of R193 and R223.
-/
namespace Sys2Proof.Machine

/-- A working value: NaN, an infinity, or exactly (−1)^neg × m × 2^e (R185). -/
inductive Val where
  | nan
  | inf (neg : Bool)
  | num (neg : Bool) (m : Nat) (e : Int)
deriving DecidableEq, Repr, Inhabited

/-- How the largest exponent codes of a format are used: infinities and NaNs, one NaN only, or numbers only. -/
inductive Top where
  | ieee | oneNan | finite
deriving DecidableEq, Repr, Inhabited

/-- An element format with sign, exponent and mantissa bits. -/
structure Fmt where
  eb : Nat
  mb : Nat
  bias : Nat
  top : Top
deriving DecidableEq, Repr, Inhabited

/-- Width in bits. -/
def Fmt.w (f : Fmt) : Nat := 1 + f.eb + f.mb

/-- The element formats by the codes 0 to 7 of FCVT, FENC and FDEC. -/
def fmtOf : Nat → Fmt
  | 0 => ⟨8, 23, 127, .ieee⟩
  | 1 => ⟨8, 7, 127, .ieee⟩
  | 2 => ⟨5, 10, 15, .ieee⟩
  | 3 => ⟨4, 3, 7, .oneNan⟩
  | 4 => ⟨5, 2, 15, .ieee⟩
  | 5 => ⟨2, 3, 1, .finite⟩
  | 6 => ⟨3, 2, 3, .finite⟩
  | _ => ⟨2, 1, 1, .finite⟩

/-- FP32. -/
def fp32 : Fmt := fmtOf 0

/-- The width of an element format code; code 8 is the MXINT8 element. -/
def codeWidth (c : Nat) : Nat := if c = 8 then 8 else (fmtOf c).w

/-- The largest finite magnitude's bits. -/
def Fmt.maxBits (f : Fmt) : Nat :=
  match f.top with
  | .ieee => (2 ^ f.eb - 1) * 2 ^ f.mb - 1
  | .oneNan => 2 ^ (f.eb + f.mb) - 2
  | .finite => 2 ^ (f.eb + f.mb) - 1

/-- The value that the low bits of a number encode (R185). -/
def decodeF (f : Fmt) (x : Nat) : Val :=
  let neg := x.testBit (f.eb + f.mb)
  let mag := x % 2 ^ (f.eb + f.mb)
  let ex := mag / 2 ^ f.mb
  let man := mag % 2 ^ f.mb
  if f.maxBits < mag then
    (if f.top = .ieee ∧ man = 0 then .inf neg else .nan)
  else if ex = 0 then .num neg man (1 - (f.bias + f.mb : Nat))
  else .num neg (man + 2 ^ f.mb) ((ex : Int) - (f.bias + f.mb : Nat))

/-- Bit length of a number. -/
def bitLen (m : Nat) : Nat := if m = 0 then 0 else Nat.log2 m + 1

/-- m × 2^−k as an integer: rounded to nearest, ties to even, or toward zero. -/
def shiftRound (rz : Bool) (m k : Nat) : Nat :=
  let q := m >>> k
  if rz || k = 0 then q
  else
    let half := (m >>> (k - 1)) % 2
    let rest := decide (m % 2 ^ (min k (bitLen m + 1) - 1) ≠ 0)
    if half = 1 && (rest || q % 2 = 1) then q + 1 else q

/-- m × 2^e as an integer, rounded. -/
def toInteger (rz : Bool) (m : Nat) (e : Int) : Nat :=
  if 0 ≤ e then m <<< e.toNat else shiftRound rz m (-e).toNat

/-- The magnitude bits of a non-zero m × 2^e rounded into a format of unbounded exponent range above; `none` beyond any
format's range. -/
def magBits (f : Fmt) (rz : Bool) (m : Nat) (e : Int) : Option Nat :=
  let top := e + (bitLen m : Int) - 1
  let qmin : Int := 1 - (f.bias + f.mb : Nat)
  let qe := max (top - f.mb) qmin
  if 300 < top then none
  else some ((qe - qmin).toNat * 2 ^ f.mb + toInteger rz m (e - qe))

/-- The bits of a format's sign. -/
def signBits (f : Fmt) (neg : Bool) : Nat := b2n neg * 2 ^ (f.eb + f.mb)

/-- The canonical NaN of a format (R188); 0 where it has none (R222). -/
def Fmt.nanBits (f : Fmt) : Nat :=
  match f.top with
  | .ieee => (2 ^ f.eb - 1) * 2 ^ f.mb + 2 ^ (f.mb - 1)
  | .oneNan => 2 ^ (f.eb + f.mb) - 1
  | .finite => 0

/-- An infinity written in a format (R188, R222). -/
def Fmt.infBits (f : Fmt) (neg : Bool) : Nat :=
  match f.top with
  | .ieee => (2 ^ f.eb - 1) * 2 ^ f.mb + signBits f neg
  | .oneNan => f.nanBits
  | .finite => f.maxBits + signBits f neg

/-- A finite value beyond the largest magnitude (R188): infinity where the format has one, under RNE and without
saturation; otherwise the largest magnitude. -/
def Fmt.overBits (f : Fmt) (rz sat neg : Bool) : Nat :=
  if decide (f.top = .ieee) && !rz && !sat then f.infBits neg else f.maxBits + signBits f neg

/-- A value written in a format, rounded once (R188, R222). -/
def encodeF (f : Fmt) (rz sat : Bool) : Val → Nat
  | .nan => f.nanBits
  | .inf neg => f.infBits neg
  | .num neg m e =>
    if m = 0 then signBits f neg
    else match magBits f rz m e with
      | none => f.overBits rz sat neg
      | some b => if f.maxBits < b then f.overBits rz sat neg else b + signBits f neg

/-- The MXINT8 element: the integer nearest the value × 2^6, saturated to −127 to 127; as 8 bits (R189, R222). -/
def encodeInt8 (rz : Bool) : Val → Nat
  | .nan => 0
  | .inf neg => if neg then 129 else 127
  | .num neg m e =>
    let n := if 300 < e + (bitLen m : Int) then 127 else min 127 (toInteger rz m (e + 6))
    if neg && n ≠ 0 then 256 - n else n

/-- A value written in the element format of a code. -/
def encodeCode (c : Nat) (rz sat : Bool) (v : Val) : Nat := if c = 8 then encodeInt8 rz v else encodeF (fmtOf c) rz sat v

/-- A two's-complement byte times 2^−6. -/
def decodeInt8 (x : Nat) : Val :=
  let x := x % 256
  if 128 ≤ x then .num true (256 - x) (-6) else .num false x (-6)

/-- The value that bits encode in the element format of a code. -/
def decodeCode (c x : Nat) : Val := if c = 8 then decodeInt8 x else decodeF (fmtOf c) (x % 2 ^ (fmtOf c).w)

/-- A value times a power of two. -/
def Val.scale (k : Int) : Val → Val
  | .num neg m e => .num neg m (e + k)
  | v => v

/-! ### Exact arithmetic -/

/-- The signed integer of a number at exponent `e0`, which is at most its own. -/
def signedAt (neg : Bool) (m : Nat) (e e0 : Int) : Int :=
  let n : Int := (m <<< (e - e0).toNat : Nat)
  if neg then -n else n

/-- The value of a signed integer times 2^e; zero is +0. -/
def ofSigned (n : Int) (e : Int) : Val := .num (decide (n < 0)) n.natAbs e

/-- Exact sum of working values under the rules of R191. -/
def addV : Val → Val → Val
  | .nan, _ => .nan
  | _, .nan => .nan
  | .inf a, .inf b => if a = b then .inf a else .nan
  | .inf a, .num _ _ _ => .inf a
  | .num _ _ _, .inf b => .inf b
  | .num a m e, .num b n g =>
    if m = 0 ∧ n = 0 then .num (a && b) 0 0
    else if m = 0 then .num b n g
    else if n = 0 then .num a m e
    else
      let e0 := min e g
      ofSigned (signedAt a m e e0 + signedAt b n g e0) e0

/-- Exact product of working values; 0 × infinity is NaN. -/
def mulV : Val → Val → Val
  | .nan, _ => .nan
  | _, .nan => .nan
  | .inf a, .inf b => .inf (a != b)
  | .inf a, .num b n _ => if n = 0 then .nan else .inf (a != b)
  | .num a m _, .inf b => if m = 0 then .nan else .inf (a != b)
  | .num a m e, .num b n g => .num (a != b) (m * n) (e + g)

/-- The sign bit of a value inverted. -/
def negV : Val → Val
  | .nan => .nan
  | .inf a => .inf (!a)
  | .num a m e => .num (!a) m e

/-- A value rounded into FP32 and taken back (R190, R219). -/
def round32 (rz : Bool) (v : Val) : Val := decodeF fp32 (encodeF fp32 rz false v)

/-- One binary32 addition (R190, R191). -/
def fadd (rz : Bool) (a b : Val) : Val := round32 rz (addV a b)

/-- ⌊log2⌋ of the magnitude of a non-zero number. -/
def floorLog (m : Nat) (e : Int) : Int := e + (bitLen m : Int) - 1

/-- Comparison of two values that are not NaN: −1, 0 or 1; zeros are equal. -/
def cmpV : Val → Val → Int
  | .inf a, .inf b => if a = b then 0 else if a then -1 else 1
  | .inf a, _ => if a then -1 else 1
  | _, .inf b => if b then 1 else -1
  | .num a m e, .num b n g =>
    let e0 := min e g
    let x := signedAt a m e e0 - signedAt b n g e0
    if x < 0 then -1 else if 0 < x then 1 else 0
  | _, _ => 0

/-- The sign of a value. -/
def Val.neg : Val → Bool
  | .inf a => a
  | .num a _ _ => a
  | .nan => false

/-- R193's order: by value, −0 below +0. -/
def lessV (a b : Val) : Bool := decide (cmpV a b < 0) || (decide (cmpV a b = 0) && a.neg && !b.neg)

/-- MAX under R193. -/
def maxV (a b : Val) : Val := if a = .nan ∨ b = .nan then .nan else if lessV a b then b else a

/-- MIN under R193. -/
def minV (a b : Val) : Val := if a = .nan ∨ b = .nan then .nan else if lessV b a then b else a

/-- Is a value not a number? -/
def Val.isNan : Val → Bool
  | .nan => true
  | _ => false

/-- Is a value infinite? -/
def Val.isInf : Val → Bool
  | .inf _ => true
  | _ => false

/-! ### Integers -/

/-- A 32-bit pattern as a signed integer. -/
def sint32 (x : Nat) : Int := if x % 2 ^ 32 < 2 ^ 31 then (x % 2 ^ 32 : Nat) else (x % 2 ^ 32 : Nat) - 2 ^ 32

/-- A signed integer as a 32-bit pattern, modulo 2^32. -/
def pat32 (n : Int) : Nat := (n % 2 ^ 32).toNat

/-- An integer saturated to a range. -/
def clampInt (lo hi n : Int) : Int := max lo (min hi n)

/-- A signed byte. -/
def sint8 (x : Nat) : Int := if x % 256 < 128 then (x % 256 : Nat) else (x % 256 : Nat) - 256

/-- A value rounded to an integer and saturated to INT32; NaN gives 0 (R194, F2I). -/
def toInt32 (rz : Bool) : Val → Int
  | .nan => 0
  | .inf neg => if neg then -2 ^ 31 else 2 ^ 31 - 1
  | .num neg m e =>
    let n : Int := if 300 < e + (bitLen m : Int) then 2 ^ 32 else (toInteger rz m e : Nat)
    clampInt (-2 ^ 31) (2 ^ 31 - 1) (if neg then -n else n)

/-- The value of an integer. -/
def ofInt (n : Int) : Val := ofSigned n 0

end Sys2Proof.Machine
end

