-- ==== Sys2Proof/Config.lean ====
section
/-!
DEFINITION. What one part fixes and the spec does not number, and the values the spec leaves free.
Every opaque constant here has no body: no proof can see its value.
-/
namespace Sys2Proof.Config

/-- CAP_ID.STEPPING, fixed in the mask set of each stepping (R458): its value is the part's. -/
opaque stepping : Byte

/-- The `k`-th 32-bit draw from the on-chip entropy source (R88, R150, R351): a free value. -/
opaque entropy : Nat → U32

/-- The `k`-th 256-bit draw from the entropy source: the context-wrap key (R341). -/
opaque entropyKey : Nat → BitVec 256

/-- Which free QPN a CREATE picks among the free ones (R88): any index, taken modulo their number. -/
opaque pickQpn : Nat → Nat

/-- Which free fault record a fault opens (R272): any index among the free ones, taken modulo their number. -/
opaque pickRecord : Nat → Nat

/-- Which of the chunks that a cluster holds a residue error of it strikes (R205): any index, taken modulo their
number. -/
opaque pickChunk : Nat → Nat

/-- A byte of a destination or a value that the spec calls undefined (R33, R34, R161, R349): a free value. -/
opaque freeByte : Nat → Byte

/-- Whether an on-chip SRAM bank holds state of a collective or a QP: which bank holds what the spec does not say
(R170, R287, R383). Free value `k`, the bank, and the GID or QPN. -/
opaque inBank : (k bank unit : Nat) → Bool

/-- AES (FIPS 197) on one block under a 256-bit key; the standard's text is outside the manual
(00_scope.md, What this manual covers). The key's second half is zero for a 128-bit key, which the flag says. -/
opaque aesEncrypt : (long : Bool) → (key : BitVec 256) → (block : BitVec 128) → BitVec 128

/-- The inverse cipher of `aesEncrypt` (FIPS 197). -/
opaque aesDecrypt : (long : Bool) → (key : BitVec 256) → (block : BitVec 128) → BitVec 128

/-- The GCM tag (NIST SP 800-38D) of a ciphertext and its additional data under a key and an IV (R345). -/
opaque gcmTag : (key : BitVec 256) → (iv : BitVec 96) → (aad : Bytes) → (cipher : Bytes) → BitVec 128

/-- GCM's keystream encipherment of a payload (NIST SP 800-38D); deciphering applies it again (R345). -/
opaque gcmCrypt : (key : BitVec 256) → (iv : BitVec 96) → (text : Bytes) → Bytes

/-- SHAKE256 (FIPS 202) with `n` bits of output. -/
opaque shake256 : (n : Nat) → Bytes → BitVec n

/-- The Falcon-1024 signature of a message under the device key in padded format (R356, R359): 1,280 bytes. -/
opaque falconSign : (boot : Nat) → Bytes → Bytes

/-- SERIAL of the device certificate in the NVM, written at manufacture (R355). -/
opaque certSerial : U64

/-- DEVICE_KEY of the device certificate, 1,793 bytes (R355). -/
opaque certKey : Bytes

/-- ISSUER of the device certificate, 64 bytes (R355). -/
opaque certIssuer : Bytes

/-- SIGNATURE of the device certificate, 1,280 bytes (R355). -/
opaque certSignature : Bytes

/-- NEXT of the LIVE capability (R300). -/
opaque nextCapability : BitVec 12

/-- The owner record of the NVM, 4 KiB (R406). -/
opaque ownerRecord : Bytes

/-- What the dump holds of a Lantern core: its register file, trap CSRs and firmware log, whose layout the spec does not
give (R398). Free value `k`, the core. -/
opaque coreDump : (k core : Nat) → Bytes

end Sys2Proof.Config
end

