-- ==== Sys2Proof/Machine/State.lean ====
section
/-!
DEFINITION. The state of one adapter as plain data, the faults and refusals, and the state after reset.
Tables with many possible entries are `Assoc` lists keyed by number, in ascending order of key; an
unlisted key holds the entry's reset value. A structure's default field values are its reset values.
-/
namespace Sys2Proof.Machine

/-- A sparse table: pairs in strictly ascending key order. -/
abbrev Assoc (α : Type) := List (Nat × α)

/-- Reasons a command stops the machine. None is raised at present: every command of the table has an effect. -/
inductive Fault where
  /-- Raised by no command: the spec names no condition that leaves the block without a next state. Safe. -/
  | impossible
deriving DecidableEq, Repr

/-- Reasons a command has no meaning in the model. -/
inductive Refusal where
  /-- Raised by a dispatch arm whose command has no meaning yet. Safe: the machine stops. -/
  | notModelled (mnemonic : String)
deriving DecidableEq, Repr

/-- A status word: STATUS, DEGRADED and DETAIL (02_work_queues.md, word 0). -/
structure Status where
  code : BitVec 15 := 0
  degraded : Bool := false
  detail : U16 := 0
deriving DecidableEq, Repr, Inhabited

/-- A posted write: target (0 upstream, 1 to 4 downstream, 5 LPDDR5X), half B, facet, address, bytes and Relaxed Ordering
(R294). -/
structure PWrite where
  target : Nat
  halfB : Bool := false
  facet : Nat := 0
  addr : U64
  bytes : Bytes
  ro : Bool := false
deriving DecidableEq, Repr, Inhabited

/-- What leaves the device, in the order it leaves; the model's own record of it. -/
inductive Output where
  | pwrite (w : PWrite)
  | pread (target : Nat) (halfB : Bool) (facet : Nat) (addr : U64) (len : Nat)
  | flush (target : Nat) (halfB : Bool)
  | msix (facet vec : Nat) (addr : U64) (data : U32)
  | packet (p : Packet)
  | setupTo (adapter : BitVec 24) (attr : GroupAttr)
  | notice (m : Notice)
  | deliver (bytes : Bytes) (rh : RouteHdr)
  | flit (link : Nat) (ctrl : BitVec 128) (bytes : Bytes)
  | linkWord (link : Nat) (word : BitVec 40)
  | frame (port sub : Nat) (far : FarBits) (bytes : Bytes)
  | pin (name : String) (level : Bool)
  | regulator (addr : Nat) (on : Bool)
  | avs (rail mv : Nat)
  | peer (port : Nat) (halfB : Bool) (addr : U64) (isWrite : Bool) (bytes : Bytes)
  | unsupported (port : Nat)
  | readValue (facet off : Nat) (value : U64)
  | sched (core : Nat) (suspended : Bool)
deriving DecidableEq, Repr, Inhabited

/-! ### Arbiters (R142 to R146) -/

/-- A deficit round robin: the queue visited, whether its quantum has been added in this visit, the deficits, and the
last scavenger served. -/
structure Drr where
  pos : Nat := 0
  fresh : Bool := true
  deficit : Assoc Nat := []
  scav : Nat := 0
deriving DecidableEq, Repr, Inhabited

/-- A packet queued at an output: its queue (VC or traffic class), input group and rail, charged length, LINEAGE,
route header and the bytes after it. -/
structure OutPkt where
  vc : Nat
  group : Nat
  rail : Nat
  charge : Nat
  lineage : Nat
  rh : RouteHdr
  bytes : Bytes
  plain : Option (Nat × U32) := none -- a plain frame: SQ and index of its ETH_SEND (R373)
deriving DecidableEq, Repr, Inhabited

/-- An output: its queued packets, its egress arbiter, the transit arbiter of each queue, and the rail served last in
each group of each queue. -/
structure OutQ where
  pkts : List OutPkt := []
  drr : Drr := {}
  arb : Assoc Drr := []
  rails : Assoc Nat := []
deriving DecidableEq, Repr, Inhabited

/-! ### Work queues (02_work_queues.md) -/

inductive QState where
  | disabled | active | error | restarting | draining
deriving DecidableEq, Repr, Inhabited

/-- An accepted descriptor from acceptance to the move of H past it. -/
structure Item where
  idx : U32
  desc : Desc
  started : Bool := false
  done : Option Status := none
  recorded : Bool := false   -- its completion record is in both Mirror copies (R453)
  wbIssued : Bool := false
  wbSeen : Bool := false     -- its write-back is visible (R66)
  seq : Nat := 0             -- its place in the order of acceptance of all queues (R279, R307)
deriving DecidableEq, Repr, Inhabited

/-- A descriptor fetch read in flight: first index and slots; `held`: it waits for the port of its ring, which went down
while the read was in flight (R70, R302). -/
structure Fetch where
  first : U32
  count : Nat
  held : Bool := false
deriving DecidableEq, Repr, Inhabited

/-- A wait for a re-read (R58): the first not-ready slot, the slots discarded from it on, and the re-reads issued
for it. -/
structure Reread where
  first : U32
  count : Nat
  tries : Nat
deriving DecidableEq, Repr, Inhabited

/-- A descriptor taken and not yet accepted; `pushed`: it still counts in the staging pool (R55). -/
structure Taken where
  idx : U32
  desc : Desc
  pushed : Bool
deriving DecidableEq, Repr, Inhabited

/-- An SQ or RQ: its registers, indices and descriptors (R41, R80, R82). -/
structure Queue where
  ringOff : U64 := 0
  progOff : U64 := 0
  cfg : U64 := 0
  start : U32 := 0
  st : QState := .disabled
  evtPending : Bool := false
  err : U16 := 0
  errIdx : U32 := 0
  pDev : U32 := 0
  acc : U32 := 0
  head : U32 := 0
  pubAcc : U32 := 0
  pubHead : U32 := 0
  next : U32 := 0                       -- the next index to be taken by a grant (R72)
  staged : List (U32 × Desc) := []      -- pushed, in the staging pool, not taken
  taken : List Taken := []              -- taken, not accepted
  items : List Item := []               -- accepted, H not past
  fetch : Option Fetch := none
  rr : Option Reread := none
  lastRead : U64 := 0
  dirtyAt : Option U64 := none          -- time of the first unpublished change (R68)
  recFlight : Bool := false             -- the last record is not known to be visible: on its way, or lost (R76)
  evOwed : Bool := false
  evErrOwed : Bool := false
  born : Bool := false                  -- it has been created (R63)
  bound : Option Nat := none            -- RQ: the QP bound to it (R96)
deriving DecidableEq, Repr, Inhabited

/-- An unconsumed event entry as the ring rules see it: which queue it names and its ERR bit (R74). -/
structure EvNote where
  rq : Bool
  q : Nat
  err : Bool
  wrote : U64               -- when it was written (R79)
deriving DecidableEq, Repr, Inhabited

/-- An event ring (R73 to R80). -/
structure EvRing where
  ringOff : U64 := 0
  cfg : U64 := 0
  cons : U32 := 0
  prod : U32 := 0
  start : U32 := 0
  active : Bool := false
  armed : Bool := false
  err : U16 := 0
  notes : List EvNote := []
  armAt : U64 := 0
deriving DecidableEq, Repr, Inhabited

structure FacetQue where
  sqs : Assoc Queue := []
  rqs : Assoc Queue := []
  evrs : Assoc EvRing := []
  pushDiscard : U32 := 0
  staleDb : U32 := 0
  refetch : U32 := 0
  pubHold : Byte := 0
deriving DecidableEq, Repr, Inhabited

/-! ### Facet blocks of the other chapters -/

/-- The QP command block and the counters of a facet (R126). -/
structure FacetZrt where
  busy : Bool := false
  state : BitVec 3 := 0
  holdWhy : BitVec 3 := 0
  result : U16 := 0
  qpn : BitVec 20 := 0
  peer : U64 := 0
  attr : U64 := 0
  segs : U64 := 0
  info : U64 := 0
  conn : Option Nat := none    -- the QP whose CONNECT runs (R87)
  waiting : Bool := false      -- a CREATE waits for the entropy source (R352)
  resend : U32 := 0
  dup : U32 := 0
  rnrSent : U32 := 0
  rnrRcvd : U32 := 0
  wait : U32 := 0
  ce : U32 := 0
deriving DecidableEq, Repr, Inhabited

/-- RATE_FAC_CFG, the facet's counters and its place in the calendar wheel (R137, R138, R148). -/
structure FacetRate where
  cap : BitVec 22 := 0
  lineage : BitVec 4 := 0
  profile : BitVec 4 := 0
  dec : U32 := 0
  wheel : U32 := 0
  nxt : U64 := 0
  laps : Byte := 0
  slot : Option Nat := none
  lastQp : Nat := 0            -- the QP served last at stage 2 (R140)
  lastColl : Bool := false     -- the facet's last turn sent a collective packet
  collQ : List Packet := []    -- collective packets waiting for injection
deriving DecidableEq, Repr, Inhabited

structure FacetGrp where
  done : U32 := 0
  fail : U32 := 0
  degraded : U32 := 0
deriving DecidableEq, Repr, Inhabited

/-- A segment entry (R259). -/
structure Seg where
  valid : Bool := false
  target : BitVec 3 := 0
  base : U64 := 0
  limit : BitVec 44 := 0
  lrd : Bool := false
  lwr : Bool := false
  rrd : Bool := false
  rwr : Bool := false
  pin : Bool := false
  key : U32 := 0
deriving DecidableEq, Repr, Inhabited

/-- The segment table, command block, windows and tile allotment of a facet (R259 to R261, R288). -/
structure FacetXlt where
  segs : Assoc Seg := []
  result : U16 := 0
  num : Byte := 0
  attr : BitVec 10 := 0
  key : U32 := 0
  base : U64 := 0
  limit : BitVec 44 := 0
  winBase : Assoc U64 := []      -- target 1 to 5; unlisted: 0xFFFF_FFFF_FFFF_F000
  winLim : Assoc U64 := []       -- unlisted: 0xFFF
  tilesAllot : U32 := 0
  faults : U32 := 0
  busy : Nat := 0                -- a WRITE (1) or INVALIDATE (2) that waits for pieces of the old entry (R264)
deriving DecidableEq, Repr, Inhabited

/-- What a set of posted writes on a port serves (R105, R173, R66). -/
inductive PlaceFor where
  | packet (qpn : Nat) (psn : U32)
  | readResp (qpn : Nat) (psn : U32)
  | chunk (gid chunk member : Nat)
  | counts (gid member : Nat)
  | after (f q : Nat) (idx : U32)
  | writeBack (f : Nat) (rq : Bool) (q : Nat) (idx : U32)
  | mover (ch kd : Nat)
  | mig (facet seg tile : Nat)
  | raw (idx : U32)
  | record (f : Nat) (rq : Bool) (q : Nat)
  | event (f e : Nat)
  | void
  | other
deriving DecidableEq, Repr, Inhabited

/-- Work held for a port (R302, R305): placements with what they serve, records and event entries. -/
inductive Held where
  | place (what : PlaceFor) (w : PWrite)
  | record (f : Nat) (rq : Bool) (q : Nat)
deriving DecidableEq, Repr, Inhabited

/-- An MSI-X table entry (R292): address, data and the Mask bit, set at reset (PRESUMED: PCI Local Bus layout, log
entry 70). -/
structure MsixEntry where
  addr : U64 := 0
  data : U32 := 0
  control : U32 := 1
deriving DecidableEq, Repr, Inhabited

/-- The PCIe function of a facet (R302 to R305): Bus Master Enable, MSI-X Enable, the epoch read since DL_Up,
its held upstream work and its pending-bit array. -/
structure FacetPcx where
  bme : Bool := false
  msixOn : Bool := false
  table : Assoc MsixEntry := []  -- the MSI-X table (R292)
  roOn : Bool := true            -- Enable Relaxed Ordering (R294; PRESUMED reset value, log entry 70)
  epochRead : Bool := false
  held : List Held := []
  pba : List Nat := []
deriving DecidableEq, Repr, Inhabited

/-- A request source of the mover (R311). -/
structure ReqSource where
  pending : U16 := 0
  overrun : Bool := false
  overAt : Option U64 := none    -- when OVERRUN was last set (R20)
  lost : Nat := 0                -- the requests lost in that cycle, which a take in it still makes room for (R311)
  overWas : Bool := false        -- OVERRUN before that cycle
  bound : Option Nat := none     -- the channel of the MOVE bound to it
deriving DecidableEq, Repr, Inhabited

structure FacetMov where
  req : ReqSource := {}
  done : U32 := 0
deriving DecidableEq, Repr, Inhabited

/-- A key of the cipher engine and its salt (R337): 256 bits, byte 0 highest; a 128-bit key with zeros after it. -/
structure Key where
  long : Bool
  key : BitVec 256
  salt : U32
deriving DecidableEq, Repr, Inhabited

/-- A running compatibility command (R349, R350). -/
structure CmpRun where
  op : Nat
  pad : Nat
  slot : Nat
  len : Nat
  pos : Nat := 0
  chain : BitVec 128 := 0      -- the block that the next piece chains from: a ciphertext block or a counter
deriving DecidableEq, Repr, Inhabited

/-- The key page and the compatibility block of a facet (R337, R349, R360). -/
structure FacetCip where
  keyOp : Nat := 0             -- the key command that waits for its QP's context, 0 none (R85, R337)
  keyReason : BitVec 4 := 0
  keyResult : U16 := 0
  target : U32 := 0
  salt : U32 := 0
  data : Assoc U64 := []
  info : U64 := 0
  slots : Assoc Key := []
  cmpBusy : Bool := false
  cmpReason : BitVec 4 := 0
  cmpResult : U16 := 0
  cmpSegs : U32 := 0
  cmpLen : U32 := 0
  cmpSoff : U64 := 0
  cmpDoff : U64 := 0
  iv : BitVec 128 := 0
  outLen : U64 := 0
  run : Option CmpRun := none
  authFail : U32 := 0
deriving DecidableEq, Repr, Inhabited

/-- The attestation block of a facet (R359, R360). -/
structure FacetAtt where
  busy : Bool := false
  reason : BitVec 4 := 0
  result : U16 := 0
  seg : Byte := 0
  doff : U64 := 0
  nonce : Assoc U64 := []
deriving DecidableEq, Repr, Inhabited

inductive FState where
  | off | on | resetting
deriving DecidableEq, Repr, Inhabited

/-- A facet: its state, allotments and the blocks of its register page (R318, R321, R332). -/
structure Facet where
  st : FState := .off
  shrink : Bool := false
  offAfter : Bool := false
  aSq : Nat := 0
  aRq : Nat := 0
  aEvr : Nat := 0
  aQp : Nat := 0
  resets : U32 := 0
  rstep : Nat := 0
  joined : List (Nat × U32) := []   -- FACET_RESETs that joined: SQ of facet 0 and index
  que : FacetQue := {}
  zrt : FacetZrt := {}
  rate : FacetRate := {}
  grp : FacetGrp := {}
  xlt : FacetXlt := {}
  pcx : FacetPcx := {}
  mov : FacetMov := {}
  cip : FacetCip := {}
  att : FacetAtt := {}
deriving DecidableEq, Repr, Inhabited

/-! ### Queue pairs (03_reliable_transport.md, 04_rates_and_arbitration.md, 12_cipher_and_trust.md) -/

inductive QpState where
  | free | init | connecting | rts | hold | error | draining
deriving DecidableEq, Repr, Inhabited

/-- A started descriptor of a QP (R93, R96, R109). -/
structure QDesc where
  q : Nat
  idx : U32
  op : Nat                -- 2 WRITE, 3 READ, 4 SEND
  psn : U32               -- first PSN
  n : Nat                 -- PSNs consumed
  msn : U32
  sendNo : U32 := 0
  len : Nat
  lseg : Nat
  loff : U64
  rseg : Byte := 0
  roff : U64 := 0
  rkey : U32 := 0
  imm : Option U32 := none
  degraded : Bool := false
  scomped : Bool := false
  truncated : Bool := false
  recorded : Bool := false -- its first PSN and MSN are in Mirror (R119)
deriving DecidableEq, Repr, Inhabited

/-- A source read in flight: the PSN it serves, whether it is a resend, and the places read. -/
structure Pull where
  psn : U32
  resent : Bool
  places : List (Nat × U64 × Nat)
deriving DecidableEq, Repr, Inhabited

/-- The requester side of a QP. -/
structure ReqSide where
  next : U32 := 0         -- next PSN
  ack : U32 := 0          -- ACK_PSN
  hi : U32 := 0           -- one past the highest sent PSN
  conf : List U32 := []   -- PSNs known confirmed beyond ack, read PSNs included
  descs : List QDesc := []
  msn : U32 := 0
  sendNo : U32 := 0
  timeouts : Nat := 0
  timer : U64 := 0
  resend : List U32 := []     -- PSNs queued for resend, in order
  pulls : List Pull := []     -- packets whose source read is in flight
  fast : List (U32 × U32) := [] -- fast-resent PSN and the highest sent PSN at its resend (R114)
  placing : List U32 := []    -- read PSNs whose READ_RESP is placed and not confirmed
  rnr : List (U32 × U32 × U64) := [] -- back-offs: send, NAK_PSN, start (R117)
  rnrCount : Assoc Nat := []         -- per send
  waitAt : List (U32 × U64) := []        -- NAK_WAITs: PSN and time (R112)
  lone : List U32 := []                  -- PSNs queued by fast resend, each resent alone (R114, R457)
  altResp : List U32 := []               -- read PSNs whose READ_RESP came with ALT_SEEN and is placed (R123)
  holdAt : U64 := 0
  holdSent : U64 := 0
  conSends : Nat := 0
  conAt : U64 := 0
deriving DecidableEq, Repr, Inhabited

/-- A send being received (R96, R111). -/
structure SendRx where
  s : U32
  lastPsn : Option U32 := none
  lastOk : Bool := false    -- the bytes of its last packet are placed
  msgLen : Nat := 0
  imm : Option U32 := none
  long : Bool := false      -- it was truncated
  wb : Bool := false        -- its write-back has been issued
  wbSeen : Bool := false
  mirrored : Bool := false
deriving DecidableEq, Repr, Inhabited

/-- A READ_RESP owed: its PSN, source and place in its READ (R110, R457). -/
structure RespOne where
  psn : U32
  seg : Nat
  off : U64
  len : Nat
  msgOff : Nat
  msn : U32
  first : Bool
  last : Bool
  req : U32 := 0              -- first PSN of its READ_REQ
deriving DecidableEq, Repr, Inhabited

/-- The responder side of a QP. -/
structure RspSide where
  e : U32 := 0
  held : List U32 := []
  conf : List U32 := []
  r0 : U32 := 0
  scomp : U32 := 0
  trunc : Byte := 0          -- TRUNC_MAP of the last 8 sends
  since : Nat := 0           -- packets confirmed since the last ACK
  ce : Byte := 0
  mirWrite : Option U32 := none -- a Mirror write of E in flight
  sends : List SendRx := []
  ackreq : List U32 := []
  noHold : List U32 := []    -- PSNs with no payload to confirm (R105)
  holding : List Nat := []   -- ports for which NAK_HOLD was sent (R120)
  alt : List U32 := []       -- PSNs that arrived with ALT_SEEN and are not yet answered (R254)
  stall : List Packet := []  -- packets behind a translation miss of the stream
  pulls : List Pull := []    -- READ_RESPs whose source read is in flight
  reads : List Packet := []  -- READ_REQs that E has not reached
  resp : List RespOne := []  -- READ_RESPs owed, in order
  sent : List RespOne := []  -- READ_RESPs whose source read is in flight
  owed : List Packet := []   -- answers waiting for Mirror to hold E (R107)
deriving DecidableEq, Repr, Inhabited

/-- The rate and credit of a QP (R130 to R134). -/
structure QpRate where
  profile : Nat := 0
  r : U32 := 0
  rt : U32 := 0
  stage : BitVec 4 := 0
  tDec : U64 := 0
  tInc : U64 := 0
  line : U32 := 0
  credit : Int := 0
  t : U64 := 0
  idleSince : U64 := 0
deriving DecidableEq, Repr, Inhabited

/-- The keys and counters of a CIPHER QP (R337, R345, R346). -/
structure QpCip where
  tx0 : Option Key := none
  tx1 : Option Key := none
  rx0 : Option Key := none
  rx1 : Option Key := none
  phase : Bool := false
  cseq : BitVec 63 := 0
  bound : BitVec 63 := 0
  waiting : List Packet := []   -- packets waiting for a key or for CSEQ_BOUND (R346, R348)
  handed : U32 := 0             -- the PSN after the highest that has been handed to the engine (R348)
deriving DecidableEq, Repr, Inhabited

/-- A queue pair (R84 to R91). -/
structure Qp where
  st : QpState := .free
  facet : Nat := 0
  holdWhy : BitVec 3 := 0
  localEp : BitVec 27 := 0
  localNo : Nat := 0
  remoteEp : BitVec 27 := 0
  remoteQpn : BitVec 20 := 0
  attr : U64 := 0
  segs : U64 := 0
  pmtuExp : Nat := 0
  winExp : Nat := 0
  ctag : U32 := 0
  initPsn : U32 := 0
  peerCtag : Option U32 := none
  peerRq : Bool := false
  req : ReqSide := {}
  rsp : RspSide := {}
  rate : QpRate := {}
  cip : QpCip := {}
deriving DecidableEq, Repr, Inhabited

/-- What Mirror holds of a QP (R107, R111, R119, R346). -/
structure QpMirror where
  ack : U32 := 0
  next : U32 := 0
  e : U32 := 0
  scomp : U32 := 0
  trunc : Byte := 0
  bound : BitVec 63 := 0
deriving DecidableEq, Repr, Inhabited

/-- The device-wide transport state (R85, R86, R126). -/
structure ZrtDev where
  icrc : U32 := 0
  badHdr : U32 := 0
  missFull : U32 := 0
  resident : List Nat := []           -- least recently used first
  missBuf : List (Nat × Packet) := [] -- packets waiting for a context, in arrival order
  fetching : List Nat := []
deriving DecidableEq, Repr, Inhabited

/-! ### Groups and collectives (05_collective_operations.md) -/

inductive GState where
  | free | setup | active | broken | draining
deriving DecidableEq, Repr, Inhabited

/-- A block of a member's source stream: the member it goes to (none: every one), its elements, and the element
of the source at which it begins. -/
structure Blk where
  dst : Option Nat
  len : Nat
  mem : Nat
deriving DecidableEq, Repr, Inhabited

/-- A collective descriptor at one member, with the auxiliary area it read and its source stream. -/
structure CollMember where
  member : Nat
  f : Nat
  q : Nat
  idx : U32
  csn : U32
  desc : Desc
  aux : Bytes := []
  blks : List Blk := []
deriving DecidableEq, Repr, Inhabited

/-- A chunk of a running collective at this adapter (R168, R174). A stream of a chunk goes from one member to one
member; `Stm.key` numbers it. -/
structure Chunk where
  started : Bool := false
  reading : Assoc (List (Nat × U64 × Nat)) := [] -- local members whose source read is in flight
  raw : Assoc Bytes := []        -- source bytes by local member, before the send program
  own : Assoc Bytes := []        -- retained inputs by local member, in the group's format
  parts : Assoc Bytes := []      -- packets by stream key * 65536 + PKT
  lasts : Assoc Nat := []        -- PKT of the LAST packet by stream key
  anchors : Option Bytes := none -- combined anchor bytes (R196)
  sums : Assoc Bytes := []       -- values of tree nodes combined here, by inner node (R190, R198)
  result : Option Bytes := none  -- the reduction's result in the group's format, at its root
  home : Option Nat := none      -- the cluster that the chunk was given to (R184)
  cluster : Option Nat := none   -- that cluster, while it works on the chunk
  ran : List Nat := []           -- stream keys whose bytes the receive program has run on
  handed : List Nat := []        -- local members whose part is handed on: 2m its anchors, 2m + 1 its data
  sent : List Nat := []          -- stream keys handed on
  placed : List Nat := []        -- stream keys whose bytes are placed
  progress : U64 := 0            -- time of the last progress
  asked : Assoc U64 := []        -- time of the last RESEND sent, by producing adapter
  broken : Bool := false
  resent : Bool := false
deriving DecidableEq, Repr, Inhabited

/-- The running collective of a group at this adapter. -/
structure Coll where
  op : Nat
  csn : U32
  sig : U32
  members : List CollMember := []
  chunkBytes : Nat
  chunks : Option Nat := none    -- known after the count exchange for variable kinds
  state : Assoc Chunk := []
  got : Assoc Nat := []          -- elements of committed chunks by stream key
  tails : Assoc Bytes := []      -- bytes of a block that straddles into the first uncommitted chunk, by stream key (R187)
  outs : Assoc (Nat × Bool) := [] -- EXPERT_COMBINE's rows computed here, by row * 65536 + member: chunk, and placed
  bufs : Nat := 0
  held : Nat := 0                -- on-chip scratch held, in bytes
  spilled : Bool := false
  counts : Assoc Nat := []       -- counts: key = receiving local member * 65536 + source
  srcMax : Nat := 0
  counted : List Nat := []       -- local members whose counts are written
  flags : Assoc Bool := []       -- capacity flags by member (R165)
  data : Bool := false           -- data may move
  commit : Nat := 0
  own : Nat := 0                 -- this adapter's cumulative confirmed index
  conf : Nat := 0                -- its subtree's, as last sent
  childConf : Assoc Nat := []    -- by child adapter
  tCommit : U64 := 0
  tConf : U64 := 0
  heldBy : List Nat := []        -- adapters reporting a port down (R177)
  heldAt : Option U64 := none
  told : Bool := false           -- this adapter has reported HELD
  degraded : Bool := false
  echo : Bool := false           -- a packet of it took a reversing detour, or ECHO_ALT was seen (R254)
deriving DecidableEq, Repr, Inhabited

/-- A collective that ended without commit: its CSN, status and the reason its ABORT carries. -/
structure Aborted where
  csn : U32
  reason : Nat
  member : Nat
  st : Status
  flags : Assoc Bool := []       -- the capacity flags of a collective that ended by capacity (R166)
deriving DecidableEq, Repr, Inhabited

/-- A group on this adapter (R149 to R158). -/
structure Group where
  st : GState := .free
  attr : GroupAttr := default
  planVer : U16 := 0
  ucodeVer : U16 := 0
  digest : BitVec 256 := 0
  planId : Nat := 0
  levels : Nat := 1
  sched : List SchedRec := []    -- the schedule of its topology plan (R154, R416)
  spillKib : Nat := 0
  done : U32 := 0
  degraded : U32 := 0
  csn : Assoc U32 := []          -- next CSN by local member (R161)
  endCsn : U32 := 0              -- CSN of the next collective to run here (R162)
  lastBroken : Bool := false     -- the collective before it was DEGRADED
  lastEcho : Bool := false       -- and carried ECHO_ALT
  since : U64 := 0
  waiting : List CollMember := []
  aborts : List Aborted := []
  run : Option Coll := none
deriving DecidableEq, Repr, Inhabited

/-- A GROUP_CREATE or GROUP_DESTROY in progress on this adapter (R155, R157). -/
structure GroupCmd where
  destroy : Bool
  q : Nat
  idx : U32
  attr : GroupAttr
  adapters : List Nat        -- member adapters still to answer in this phase
  all : List Nat
  activating : Bool := false
  start : U64
  sent : U64
deriving DecidableEq, Repr, Inhabited

/-- Group and collective device state (R183). -/
structure GrpDev where
  resend : U32 := 0
  recompute : U32 := 0
  rollback : U32 := 0
  broken : U32 := 0
  sigFail : U32 := 0
  poolKib : Nat := 0
  cmds : List GroupCmd := []
  lost : List (Nat × Nat) := [] -- chunks sent over a link that failed (R175): GID and chunk
deriving DecidableEq, Repr, Inhabited

/-- The Prism clusters and the element-program unit (R209, R226, R227). -/
structure Prism where
  fenced : Byte := 0
  resCnt : Assoc U32 := []
  winCnt : Assoc Nat := []
  log : U64 := 0
  logAt : Option U64 := none       -- when the log's VALID was last set (R20)
  wbytes : Assoc U64 := []
  vecs : Assoc U64 := []
  rr : Nat := 7                    -- the cluster that took the last chunk (R184)
  winAt : U64 := 0
  powered : Bool := true
  assigning : Bool := true
  powering : Bool := false
  ucode : U16 := 0
  store : List (List U64 × Nat) := [] -- program and number of users
deriving DecidableEq, Repr, Inhabited

/-! ### Svays links and the fabric (08_svays_fabric.md) -/

inductive LState where
  | disabled | detect | train | align | exchange | active | retrain | sleep | miswired | fenced
deriving DecidableEq, Repr, Inhabited

/-- A non-idle flit kept until acknowledged (R245, R247). -/
structure TxFlit where
  fseq : BitVec 12
  vc : Nat
  bytes : Bytes
  first : Byte := 255
deriving DecidableEq, Repr, Inhabited

/-- A flit that has not left yet: its payload so far, FIRST_PKT, and the packets whose delimiters start in it (R233,
R250). -/
structure OpenFlit where
  bytes : Bytes := []
  first : Byte := 255
  begins : List OutPkt := []
deriving DecidableEq, Repr, Inhabited

/-- The sender of a link (R239, R245, R247). -/
structure LinkTx where
  fseq : BitVec 12 := 0
  unacked : List TxFlit := []
  replays : Nat := 0
  replayFrom : Option (BitVec 12) := none
  timer : U64 := 0
  sent : Assoc (BitVec 12) := []
  adj : Assoc (BitVec 12) := []
  crSeen : Assoc (BitVec 12) := []
  q : OutQ := {}
  ready : Assoc (List OpenFlit) := []   -- per VC: flits formed and not sent
  crTurn : Nat := 0                     -- the VC whose credit count the next flit returns
  dropApplied : Option (BitVec 12) := none
deriving DecidableEq, Repr, Inhabited

/-- The receiver of a link (R245 to R247). -/
structure LinkRx where
  expect : BitVec 12 := 0
  nak : Bool := false
  skip : Bool := false                    -- discarding until a replay arrives
  drops : List (BitVec 12) := []
  freed : Assoc (BitVec 12) := []
  parts : Assoc Bytes := []               -- partial packet bytes per VC
  resync : Assoc Bool := []
  counted : Assoc Bool := []              -- per VC in resynchronisation: its lost packet is counted (R246)
deriving DecidableEq, Repr, Inhabited

/-- A Svays link (R248, R258). -/
structure Link where
  st : LState := .disabled
  since : U64 := 0
  far : U32 := 0
  lwAt : U64 := 0
  fecCorr : U64 := 0
  txFlits : U64 := 0
  fecUnc : U32 := 0
  crcErr : U32 := 0
  replay : U32 := 0
  drop : U32 := 0
  down : U32 := 0
  ceMark : U32 := 0
  winUnc : Nat := 0
  fecAt : U64 := 0
  colls : List (Nat × Nat) := []          -- chunks of this adapter sent over the link (R175): GID and chunk
  farUp : Bool := false                   -- the far end has reported ACTIVE since EXCHANGE
  asked : Bool := false
  granted : Bool := false
  tx : LinkTx := {}
  rx : LinkRx := {}
deriving DecidableEq, Repr, Inhabited

/-- The last RING notice applied from one sender of one ring (R252). -/
structure RingMark where
  nseq : Byte
  below : Bool
  above : Bool
  heard : U64
deriving DecidableEq, Repr, Inhabited

/-- The fabric state of the adapter (R252 to R258). -/
structure Fabric where
  links : Assoc Link := []
  miswire : BitVec 24 := 0
  noroute : U32 := 0
  breakdrop : U32 := 0
  notices : U32 := 0
  railPtr : Assoc Nat := []
  marks : Assoc RingMark := []     -- key = dimension * 16 + coordinate
  nseq : Byte := 0
  refreshAt : U64 := 0
  shun : Assoc U64 := []           -- pod -> time of the NOROUTE
  unreach : List Nat := []         -- unreachable adapters
  told : Assoc (Bool × Bool) := [] -- per dimension: BELOW and ABOVE last announced
deriving DecidableEq, Repr, Inhabited

/-! ### Translation, faults and migration (09_translation_and_local_memory.md) -/

/-- A tile record (R265). -/
structure Tile where
  present : Bool := true
  loc : BitVec 3 := 0
  addr : U64 := 0
  count : Byte := 0
  epoch : U16 := 0
  hot : Bool := false
  migrating : Bool := false
  poolCount : Byte := 0       -- COUNT, EPOCH and HOT as the record pool last took them (R268, R452)
  poolEpoch : U16 := 0
  poolHot : Bool := false
deriving DecidableEq, Repr, Inhabited

/-- One piece a stream waits to have translated or is parked on (R266, R269). -/
structure Piece where
  stream : Stream
  facet : Nat
  seg : Nat
  off : U64
  isWrite : Bool
  psn : U32 := 0              -- of the packet that the piece serves
deriving DecidableEq, Repr, Inhabited

/-- A stream that waits for a tile record (R268). -/
structure Miss where
  piece : Piece
  flying : Bool
deriving DecidableEq, Repr, Inhabited

/-- An open fault record (R272, R275). -/
structure FltRec where
  facet : Nat
  seg : Nat
  tile : Nat
  waiters : List Piece
deriving DecidableEq, Repr, Inhabited

/-- A TILE_MIGRATE or TILE_MAP waiting or running (R279, R280). -/
structure Mig where
  q : Nat
  idx : U32
  isMap : Bool
  facet : Nat
  seg : Nat
  tile : Nat
  loc : BitVec 3
  addr : U64
  present : Bool
  phase : Nat := 0            -- 0 waiting, 2 draining, 4 reading the copy, 5 writing it
  ch : Nat := 0               -- the mover channel of the copy (R307)
  parked : List Piece := []
  seq : Nat := 0              -- its place in the order of acceptance
  asked : Bool := false       -- the copy's reads are issued
deriving DecidableEq, Repr, Inhabited

/-- The translation unit, the fault queue and the local memory's channels (R266 to R288). -/
structure Xlt where
  tiles : Assoc Tile := []        -- key = (facet * 256 + seg) * 2^23 + tile
  cache : List Nat := []          -- resident tile records, least recently used first
  misses : List Miss := []
  miss : U32 := 0
  parkDrop : U32 := 0
  migrated : U32 := 0
  poison : U32 := 0
  migs : List Mig := []
  gens : Assoc (BitVec 19) := []
  recs : Assoc FltRec := []
  heldFaults : List Piece := []
  missPtr : Nat := 0             -- the stream granted a waiting miss last (R268)
  begun : List Piece := []       -- per stream, the piece at which its access waits: those before it are counted (R270)
  fltCfg : U64 := 0
  fltOff : U64 := 0
  fltProd : U32 := 0
  fltCons : U32 := 0
  fltArmed : Bool := false
  fltOverflow : U32 := 0
deriving DecidableEq, Repr, Inhabited

/-- The LPDDR5X channels and the layout boot made (R282 to R286). -/
structure MemCfg where
  channels : Nat := 0
  rate : Nat := 0
  chMib : Nat := 0
  regions : List Nat := []
  visible : Nat := 0
  poolTiles : Nat := 0
  fenced : Option Nat := none
  copying : Bool := false
  copyRow : Nat := 0
  poisoned : List Nat := []       -- local line numbers
  paired : List Nat := []         -- S' of each paired region (R284)
  unfencing : Option (Nat × U32) := none
deriving DecidableEq, Repr, Inhabited

/-! ### Ports and mover (10_host_and_accelerator_ports.md) -/

/-- A posted write that no flush has confirmed yet; `covered`: issued before the flush in flight. -/
structure Unconf where
  what : PlaceFor
  write : PWrite
  covered : Bool := false
deriving DecidableEq, Repr, Inhabited

/-- A non-posted request of the device that waits to be answered (R294, R295): a descriptor fetch, a source read, a flush
read, a read of the cipher engine, or the copy of a tile. -/
inductive NpFor where
  | fetch (f : Nat) (rq : Bool) (q : Nat)
  | source (w : ReadFor)
  | flush
  | cipher (f : Nat)
  | mig (facet seg tile : Nat)
deriving DecidableEq, Repr, Inhabited

/-- A transaction queued at a PCIe port's egress (R144): its queue (0 PEER, 1 XFER, 2 MOVER, 3 QUE), charged length, what
leaves, what a non-posted one serves, and whether it is a posted write without or with Relaxed Ordering. -/
structure Tlp where
  cls : Nat
  charge : Nat
  out : Output
  np : Option NpFor := none
  posted : Bool := false
  ro : Bool := false
deriving DecidableEq, Repr, Inhabited

/-- A PCIe port or half (R301 to R303). -/
structure Port where
  up : Bool := false
  speed : Nat := 0
  width : Nat := 0
  flit : Bool := false
  epoch : U32 := 0
  epochRead : Bool := false
  rderr : U32 := 0
  flushing : Bool := false
  flushFails : Nat := 0
  flushFailAt : Option U64 := none
  unconf : List Unconf := []
  held : List Held := []
  egress : List Tlp := []               -- transactions that have not left, oldest first
  drr : Drr := {}
  budget : Nat := 0                     -- bytes it may still send now
  reads : List (NpFor × U64) := []      -- non-posted requests that have left unanswered, and when
deriving DecidableEq, Repr, Inhabited

/-- A downstream bridge's bus number and memory window (R291, R299). -/
structure Bridge where
  sec : Nat := 0              -- secondary and subordinate bus number: the range of buses below it
  sub : Nat := 0
  lo : U64 := 0xFFFFFFFFFFFFFFFF
  hi : U64 := 0
  old : List (U64 × U64) := []  -- the windows that earlier writes replaced (R299)
  oldBus : List (Nat × Nat) := []
  acs : Byte := 0             -- its ACS controls: bit 0 source validation, 1 translation blocking, 2 request redirect,
                              -- 4 upstream forwarding, 5 egress control, 6 direct translated (PRESUMED, log entry 77)
  vector : Byte := 0          -- its egress control vector, by device number of the bridge it leaves by
deriving DecidableEq, Repr, Inhabited

/-- A write of a push page that stays at its port because the staging pool has no room (R55), or that came behind one on
the same page (R54). -/
inductive StuckWrite where
  | push (f q off len : Nat) (descs : List Desc)
  | bell (f q : Nat) (v : U32)
deriving DecidableEq, Repr, Inhabited

/-- The ports (key p for port p or its half A, 4 + p for half B of port p) and the internal switch. -/
structure Pcx where
  stuck : List StuckWrite := []   -- oldest first
  ports : Assoc Port := []
  bridges : Assoc Bridge := []
  up : Bridge := {}               -- the upstream port's own bus numbers and window (R298)
  bars : List U64 := [0, 0, 0]    -- BAR0, BAR2 and BAR4 of PF0 (R292)
  vfBars : List U64 := [0, 0, 0]  -- those of VF 1, in the SR-IOV capability
  vfOn : Bool := false            -- VF Enable (R298)
  live : Byte := 0
  attachEpoch : U32 := 0
deriving DecidableEq, Repr, Inhabited

inductive ChState where
  | idle | run | waitReq | parked | stopped
deriving DecidableEq, Repr, Inhabited

/-- A bus error of the mover: its cycle and the failing request (R313). -/
structure MovErr where
  at_ : U64
  port : Nat
  halfB : Bool
  kind : Nat
  addr : U64
deriving DecidableEq, Repr, Inhabited

/-- A mover channel (R307 to R314). -/
structure Channel where
  st : ChState := .idle
  f : Nat := 0
  q : Nat := 0
  idx : U32 := 0
  desc : Option Desc := none
  ks : Nat := 0
  kd : Nat := 0
  hold : Bytes := []
  skip : Nat := 0             -- bytes of the next source element that lie before destination element kd (R314)
  tookAt : Nat := 0           -- source element up to which requests have been taken
  reading : Option (List (Nat × U64 × Nat)) := none -- the element read in flight: its places
  bursts : Nat := 0           -- bursts whose Mirror record is issued
  mirrored : Nat := 0         -- bursts recorded in Mirror (R315)
deriving DecidableEq, Repr, Inhabited

/-- A MOVE that waits for a channel or a binding, in acceptance order. -/
structure MoveWait where
  f : Nat
  q : Nat
  idx : U32
  desc : Desc
  mirrored : Nat := 0         -- bursts recorded before a warm reset, and how far requests were taken (R315)
  tookAt : Nat := 0
  seq : Nat := 0              -- its place in the order of acceptance (R307)
deriving DecidableEq, Repr, Inhabited

/-- A DMA_REQ pin (R311, R312). -/
structure DmaPin where
  facet : BitVec 7 := 0
  en : Bool := false
  falling : Bool := false
  req : ReqSource := {}
deriving DecidableEq, Repr, Inhabited

/-- The bulk mover (R307 to R317). -/
structure Mover where
  chans : Assoc Channel := []
  waiting : List MoveWait := []
  replay : List MoveWait := []   -- MOVEs that a warm reset left unfinished (R315)
  pins : Assoc DmaPin := []
  stopped : Bool := false
  errAddr : U64 := 0
  errPort : BitVec 3 := 0
  errHalf : Bool := false
  errKind : BitVec 3 := 0
  errValid : Bool := false
  errAt : Option U64 := none     -- when VALID was last set (R20)
  later : U16 := 0
  last : Option MovErr := none   -- the latest later error, which a RESUME in its cycle captures (R314)
deriving DecidableEq, Repr, Inhabited

/-! ### Cipher engine, trust, Ethernet -/

/-- A job of a cipher core (R333): packet `id` of a QP, sent or received, or the next piece of facet f's
compatibility command. -/
inductive Job where
  | packet (id qpn : Nat) (urgent tx : Bool) (p : Packet)
  | piece (f : Nat)
deriving DecidableEq, Repr, Inhabited

/-- A running job, the key it began with (R339), and the blocks that were still to feed at a time (R335). -/
structure Run where
  job : Job
  key : Option Key
  left : Nat
  since : U64
deriving DecidableEq, Repr, Inhabited

structure Core where
  run : Option Run := none
  suspended : Option Run := none
deriving DecidableEq, Repr, Inhabited

/-- A packet inside the engine, in the order in which it reached it (R336); `out`: what the engine hands on. -/
structure InEngine where
  id : Nat
  qpn : Nat
  tx : Bool
  at_ : U64                    -- when it was handed to the engine
  out : Option Packet := none
deriving DecidableEq, Repr, Inhabited

/-- The cipher engine (R333 to R336, R341, R360). -/
structure Cip where
  cores : Assoc Core := []
  nextId : Nat := 0
  flow : List InEngine := []
  qU : List Job := []
  qTx : List Job := []
  qRx : List Job := []
  rr : Nat := 0
  cmpRr : Nat := 0
  authFail : U32 := 0
  suspends : U32 := 0
  bytes : U64 := 0
  wrapKey : Option (BitVec 256) := none
  rekeys : Assoc Nat := []
  scan : Bool := false
deriving DecidableEq, Repr, Inhabited

/-- A report or certificate request waiting at the trust unit (R359). -/
structure AttReq where
  f : Nat
  cert : Bool
  meas : List (BitVec 512)
  at_ : U64                    -- when the trust unit read the measurements
deriving DecidableEq, Repr, Inhabited

/-- The trust unit and the entropy source (R351 to R360). -/
structure Trust where
  idOk : Bool := false
  bankB : Bool := false
  boots : U32 := 0
  meas : Assoc (BitVec 512) := []
  extData : Assoc U64 := []
  ent : BitVec 2 := 0
  entFails : Byte := 0
  failTimes : List U64 := []
  drbgCount : Nat := 0
  drbgAt : U64 := 0
  reqs : List AttReq := []
  keyErased : Bool := false
deriving DecidableEq, Repr, Inhabited

/-- An Ethernet port's counters and sub-ports (R361 to R377). -/
structure EthPort where
  up : BitVec 4 := 0
  txFrames : U64 := 0
  rxFrames : U64 := 0
  rxFull : U32 := 0
  rxDrop : U32 := 0
  rxBad : U32 := 0
  rxNotMine : U32 := 0
  rxNoBuf : U32 := 0
  rxPause : U32 := 0
  ceMark : U32 := 0
  wakes : U32 := 0
  txDiscard : U32 := 0
  queues : Assoc OutQ := []      -- per sub-port
  budget : Assoc Nat := []       -- bytes a sub-port may still send now
  leaving : Assoc OutPkt := []   -- the plain frame that is leaving a sub-port
deriving DecidableEq, Repr, Inhabited

/-- An ETH_SEND in progress (R373 to R375): its frames, those whose numbers Mirror holds, those handed to the sub-port or
discarded there, and those that have left or were discarded. -/
structure EthSend where
  q : Nat
  idx : U32
  desc : Desc
  header : Bytes
  frames : Nat
  recorded : Nat := 0
  formed : Nat := 0
  gone : Nat := 0
  pulled : Bool := false      -- the payload reads of the next frame are issued
deriving DecidableEq, Repr, Inhabited

/-- A raw frame on its way into its RECV buffer (R372): the RECV's index, its status and BYTE_COUNT, and the bytes that
wait for their tiles. -/
structure RawRecv where
  idx : U32
  st : Status
  count : Nat
  bytes : Bytes := []
deriving DecidableEq, Repr, Inhabited

structure Eth where
  ports : Assoc EthPort := []
  sends : List EthSend := []
  raws : List RawRecv := []
  rawRq : Byte := 0
  rawEn : Bool := false
deriving DecidableEq, Repr, Inhabited

/-! ### Faults, boot, power (14 to 16) -/

/-- An Afterglow event (R396). -/
structure AglEvent where
  w0 : U64
  w1 : U64
  w2 : U64
  w3 : U64
deriving DecidableEq, Repr, Inhabited

/-- Afterglow (R380, R396, R397). -/
structure Agl where
  next : U32 := 0
  events : List (U32 × AglEvent) := []  -- oldest first, at most 8,192
  sel : U32 := 0
  suppressed : U32 := 0
  lastCe : Assoc U64 := []              -- source -> time of its last recorded CE event
  supp : List Nat := []                 -- sources with an event suppressed since
deriving DecidableEq, Repr, Inhabited

inductive Mode where
  | normal | penumbra | umbra
deriving DecidableEq, Repr, Inhabited

/-- The fault collector (R379 to R401). -/
structure Err where
  mode : Mode := .normal
  self : Bool := false
  dumpDone : Bool := false
  hostDone : Bool := false
  hostFail : Bool := false
  ftSrc : BitVec 6 := 0
  ftSeq : U32 := 0
  ftTime : U64 := 0
  lan : Byte := 0                -- fenced Lantern cores
  banks : List Nat := []         -- fenced SRAM banks
  cnt : Assoc U32 := []
  win : Assoc Nat := []          -- key = source * 256 + unit: events in this window
  winAt : U64 := 0
  injections : List (Nat × Nat) := [] -- (source, unit) waiting for the next operation of the unit
  faultAt : Assoc U64 := []        -- when a fault last fenced a unit, or struck it fenced, by fence source × 256 + unit (R390)
  copying : Bool := false
deriving DecidableEq, Repr, Inhabited

inductive RunState where
  | off          -- VDD_AON absent
  | porst        -- PORST_N asserted
  | rails        -- power-on rail sequence
  | retryWait    -- a rail failed; retry after 1 s
  | adpReset     -- ADP_RST_N low or a device reset, before stage 0
  | boot         -- a boot stage runs
  | hold         -- boot hold
  | running
deriving DecidableEq, Repr, Inhabited

inductive ResetKind where
  | cold | warm | umbra
deriving DecidableEq, Repr, Inhabited

/-- An agent (R388, R417, R419). -/
structure Agent where
  st : BitVec 3 := 0
  core : Nat := 0
  restarts : U32 := 0
  kickAt : U64 := 0
  entry : AgentEntry := default
deriving DecidableEq, Repr, Inhabited

/-- Boot, image and Lantern (R402 to R422). -/
structure Boot where
  run : RunState := .boot
  stage : Nat := 0
  kind : ResetKind := .cold
  glimmer : Bool := false          -- this boot is a Glimmer exit (R434)
  last : ResetKind := .cold
  bankB : Bool := false
  fallback : Bool := false
  failA : Nat := 0
  failB : Nat := 0
  holdWhy : Nat := 0
  runGen : U32 := 0
  otherGen : U32 := 0
  time : U64 := 0
  locked : Bool := false
  nvmFree : Bool := false
  warmKey : BitVec 256 := 0
  image : Image := default
  resetWait : Option (Nat × U32 × Bool) := none -- SQ, index and cold of a DEVICE_RESET
  heldWarm : Option U64 := none    -- a warm reset held in Umbra (R404)
  warmAfter : Bool := false        -- a warm reset waits for Glimmer entry's end (R404)
  laid : Bool := false             -- a facet table has been applied, and the bank ran, since the last cold start
  ranB : Bool := false             -- the bank that ran before the reset was B (R407)
  perst : Bool := true             -- the downstream PERST outputs are asserted (R403, R410)
  adpLow : Bool := false           -- ADP_RST_N is taken as low (R450)
  agents : Assoc Agent := []
deriving DecidableEq, Repr, Inhabited

inductive PState where
  | active | restEntry | rest | glimmerEntry | glimmer
deriving DecidableEq, Repr, Inhabited

/-- Power states and rails (R424 to R438, R442). -/
structure Pwr where
  st : PState := .active
  idleAt : U64 := 0                -- since when R425 has held
  entryAt : U64 := 0               -- when Rest entry's step 2, Rest, or the wait after a rail's failure began
  asked : List Nat := []           -- the links on which step 2 of Rest entry asked for sleep (R427)
  holdActive : Bool := false
  wake : BitVec 12 := 0
  latch : BitVec 12 := 0
  sampleAt : U64 := 0
  railPg : Byte := 0
  railOn : Byte := 0
  railAt : U64 := 0
  seqDown : Option Nat := none     -- power-down: the rail whose off report is awaited
  vcore : BitVec 12 := 0
  vsram : BitVec 12 := 0
  avsAt : U64 := 0
  rests : U32 := 0
  aborts : U32 := 0
  glimmers : U32 := 0
  saved : Option (Agl × Assoc U32) := none
  wakeUp : Option U64 := none      -- WAKE_UP_N asserted since
deriving DecidableEq, Repr, Inhabited

/-- The cooling loop (R439 to R442). -/
structure Thm where
  u : U16 := 0xFFFF
  i : Int := 1048560
  fresh : Bool := true             -- the first period after stage 5 or Glimmer exit
  levelLow : Bool := false
  tachSlow : BitVec 4 := 0
  diodeBad : BitVec 6 := 0
  hot : Bool := false
  forced : Bool := false
  temps : List (BitVec 16) := []
  rpms : List U16 := []
  duties : List Nat := [100, 100, 100, 100]
  at_ : U64 := 0
deriving DecidableEq, Repr, Inhabited

/-- Mirror's per-queue part: accepted descriptors and their completion records (R29, R453); the descriptors
themselves are the queues' items, which a warm reset keeps. -/
structure Mirror where
  qps : Assoc QpMirror := []
  pendDone : List MirrorKey := []     -- Mirror writes issued and not complete
  frames : Assoc Nat := []            -- SQ of facet 0 -> frames of its ETH_SEND recorded
deriving DecidableEq, Repr, Inhabited

/-- The fetch arbiter (R72): the members of the round not yet visited and the grants left of the visit. -/
structure Arb where
  round : List (Nat × Nat) := []
  grants : Nat := 0
  inj : Nat := 0             -- the facet served last at stage 3 (R140)
  accepted : Nat := 0        -- descriptors accepted so far
deriving DecidableEq, Repr, Inhabited

/-- The state of the adapter. -/
structure State where
  pending : List Instr := []
  part : Variant := .dn7240
  now : U64 := 0
  free : Nat := 0
  out : List Output := []
  mem : List Host.Cell := []
  regs : Assoc U64 := []          -- device registers with no behaviour of their own, by offset
  facets : Assoc Facet := []
  arb : Arb := {}
  qps : Assoc Qp := []
  zrt : ZrtDev := {}
  wheel : Nat := 0
  mirror : Mirror := {}
  groups : Assoc Group := []
  grp : GrpDev := {}
  prism : Prism := {}
  fab : Fabric := {}
  xlt : Xlt := {}
  memc : MemCfg := {}
  pcx : Pcx := {}
  mov : Mover := {}
  cip : Cip := {}
  trust : Trust := {}
  eth : Eth := {}
  agl : Agl := {}
  err : Err := {}
  boot : Boot := {}
  pwr : Pwr := {}
  thm : Thm := {}
deriving DecidableEq, Repr, Inhabited

/-- The adapter right after a cold reset, as boot stage 0 begins: every register at its reset value, no command
waiting, facet 0 ON as it always is (R318). The part is a DN-7240 (log entry 1). -/
def State.reset : State :=
  { facets := [(0, { st := .on })], pwr := { railPg := 0xFF, railOn := 0xFF } }

end Sys2Proof.Machine
end

