-- ==== Sys2Proof/Machine/Prism.lean ====
section
/-!
DEFINITION. Prism arithmetic (06_prism_reduction_arithmetic.md): group formats (R152, R186), conversion of streams into working
values and back (R185, R188, R189), the plan tree (R153, R190 to R193), anchored sums (R195 to R198), wire expansion
(R200), and the scale-and-accumulate of EXPERT_COMBINE (R194). A working value is its FP32 bit pattern; an integer
element is its INT32 bit pattern.
-/
namespace Sys2Proof.Machine

/-! ### Group formats (R152, R186) -/

/-- An MX format. -/
def isMx (fmt : Nat) : Bool := decide (5 ≤ fmt ∧ fmt ≤ 10)
/-- INT32 or INT8. -/
def isInt (fmt : Nat) : Bool := decide (fmt = 11 ∨ fmt = 12)
/-- A floating-point or MX format. -/
def isFloat (fmt : Nat) : Bool := decide (fmt ≤ 10)
/-- The element format code of a group format. -/
def elemCode (fmt : Nat) : Nat := if fmt ≤ 4 then fmt else if fmt ≤ 10 then fmt - 2 else 0
/-- Bytes of an element, or of a block of 32 in an MX format. -/
def unitBytes : Nat → Nat
  | 0 => 4 | 1 => 2 | 2 => 2 | 3 => 1 | 4 => 1 | 5 => 33 | 6 => 33 | 7 => 25 | 8 => 25 | 9 => 17 | 10 => 33
  | 11 => 4 | _ => 1
/-- Elements of a unit: 32 in an MX format, else 1. -/
def unitElems (fmt : Nat) : Nat := if isMx fmt then 32 else 1
/-- B(n): bytes of n elements. -/
def bytesOf (fmt n : Nat) : Nat := n / unitElems fmt * unitBytes fmt

/-! ### Streams of elements -/

/-- The FP32 pattern of a value (R185). -/
def pat (v : Val) : Nat := encodeF fp32 false false v
/-- The value of an FP32 pattern. -/
def valOf (p : Nat) : Val := decodeF fp32 p

/-- The 32 elements of an MX block with its scale byte (R185, R186). -/
def mxBlock (fmt : Nat) (bs : Bytes) : List (Nat × Nat) :=
  let c := elemCode fmt
  let w := codeWidth c
  let scale := (bs.headD 0).toNat
  let all := ofLE bs.tail
  (List.range 32).map (fun j =>
    (if scale = 255 then pat .nan
     else pat ((decodeCode c (all / 2 ^ (w * j) % 2 ^ w)).scale ((scale : Int) - 127)), scale))

/-- The elements of a stream as 32-bit patterns, each with its block's scale byte (R185, R213). -/
def elemsOf (fmt : Nat) (bs : Bytes) : List (Nat × Nat) :=
  let units := chunksOf (unitBytes fmt) bs
  if isMx fmt then units.flatMap (mxBlock fmt)
  else if fmt = 12 then units.map (fun u => (pat32 (sint8 (ofLE u)), 0))
  else if 11 ≤ fmt then units.map (fun u => (ofLE u, 0))
  else units.map (fun u => (pat (decodeCode (elemCode fmt) (ofLE u)), 0))

/-- WINOPT.RZ and WINOPT.FTZ of a final conversion, and R197's rule that a zero result is +0; all 0 in native mode. -/
structure Conv where
  rz : Bool := false
  ftz : Bool := false
  pz : Bool := false
deriving DecidableEq, Repr, Inhabited

/-- A value in a scalar format, subnormal results as +0 under FTZ and zero results as +0 in anchored mode (R188,
R197). -/
def scalarBits (cv : Conv) (f : Fmt) (v : Val) : Nat :=
  let b := encodeF f cv.rz false v
  let mag := b % 2 ^ (f.eb + f.mb)
  if cv.ftz && decide (mag < 2 ^ f.mb ∧ mag ≠ 0) then 0 else if cv.pz && decide (mag = 0) then 0 else b

/-- emax of an MX element format (R189). -/
def emaxOf (fmt : Nat) : Int := match fmt with | 5 => 8 | 6 => 15 | 7 => 2 | 8 => 4 | 9 => 2 | _ => 0

/-- The largest magnitude among values, as a value. -/
def maxMag (l : List Val) : Val :=
  l.foldl (fun a v => match v with | .num _ m e => maxV a (.num false m e) | _ => a) (.num false 0 0)

/-- Element codes packed after a scale byte (R186). -/
def packBlock (fmt scale : Nat) (codes : List Nat) : Bytes :=
  let w := codeWidth (elemCode fmt)
  toLE 1 scale ++ toLE (unitBytes fmt - 1)
    ((codes.zipIdx.map (fun (c, j) => c % 2 ^ w * 2 ^ (w * j))).foldl (· + ·) 0)

/-- An element code in a block; with `pz` a zero is +0 (R197). -/
def mxCode (fmt : Nat) (pz : Bool) (v : Val) : Nat :=
  let c := encodeCode (elemCode fmt) false true v
  if pz && decide (c % 2 ^ (codeWidth (elemCode fmt) - 1) = 0) then 0 else c

/-- R189: a block of 32 values in an MX format. -/
def mxEncode (fmt : Nat) (pz : Bool) (l : List Val) : Bytes :=
  if l.any (fun v => v.isNan || v.isInf) then packBlock fmt 255 (List.replicate 32 0)
  else match maxMag l with
    | .num _ m e =>
      if m = 0 then packBlock fmt 0 (List.replicate 32 0)
      else
        let x := clampInt (-127) 127 (floorLog m e - emaxOf fmt)
        packBlock fmt (x + 127).toNat (l.map (fun v => mxCode fmt pz (v.scale (-x))))
    | _ => []

/-- Values written in a floating-point or MX format (R188, R189, R197); an MX format goes through FP32. -/
def writeVals (fmt : Nat) (cv : Conv) (l : List Val) : Bytes :=
  if isMx fmt then
    (chunksOf 32 (l.map (fun v => decodeF fp32 (scalarBits cv fp32 v)))).flatMap (mxEncode fmt cv.pz)
  else
    let f := fmtOf (elemCode fmt)
    l.flatMap (fun v => toLE (unitBytes fmt) (scalarBits cv f v))

/-- INT32 patterns written in an integer format: unchanged, or saturated to INT8 (R192). -/
def writeInts (fmt : Nat) (l : List Nat) : Bytes :=
  l.flatMap (fun p => if fmt = 12 then toLE 1 (pat32 (clampInt (-128) 127 (sint32 p))) else toLE (unitBytes fmt) p)

/-- Patterns written in a format. -/
def writePats (fmt : Nat) (cv : Conv) (l : List Nat) : Bytes :=
  if isFloat fmt then writeVals fmt cv (l.map valOf) else writeInts fmt l

/-! ### The plan tree (R153, R190 to R193) -/

/-- R153: the value of the plan over a list, each level folded by `node` in groups of f, and every node but the root
rounded by `part`; `fuel` bounds the levels. -/
def planValue {α : Type} (f : Nat) (node : List α → α) (part : α → α) (d : α) : Nat → List α → α
  | 0, l => l.headD d
  | k + 1, l =>
    match l with
    | [] => d
    | [a] => a
    | _ => if l.length ≤ f then node l
      else planValue f node part d k ((chunksOf f l).map (fun g => part (node g)))

/-- A left fold of a non-empty list. -/
def foldNode {α : Type} (op : α → α → α) (d : α) : List α → α
  | [] => d
  | a :: l => l.foldl op a

/-- The partial format of a group format and OP (R200). BF16 does not hold every value of an MX format; so that MAX and MIN
are the extreme of their inputs whatever the plan (R193, R203), their partials of MX formats are FP32 (DEDUCED, log entry
72). -/
def partFmt (fmt op : Nat) : Nat :=
  if isInt fmt then 11 else if fmt = 0 ∨ (isMx fmt ∧ op ≠ 0) then 0 else if fmt = 2 then 2 else 1

/-- A value rounded into a floating-point partial format (R190). -/
def partVal (pf : Nat) (v : Val) : Val := decodeF (fmtOf pf) (encodeF (fmtOf pf) false false v)

/-- The operation of a floating-point reduction: 0 SUM, 1 MAX, 2 MIN. -/
def floatOp (op : Nat) : Val → Val → Val := if op = 0 then fadd false else if op = 1 then maxV else minV

/-- One native reduction of working values over the whole plan tree (R190, R193). -/
def reduceFloat (fmt plan op : Nat) (l : List Val) : Val :=
  planValue (2 ^ (plan + 1)) (foldNode (floatOp op) (.num false 0 0)) (partVal (partFmt fmt op)) (.num false 0 0) 17 l

/-- One reduction of integers (R192). -/
def reduceInt (op : Nat) (l : List Nat) : Nat :=
  let o : Nat → Nat → Nat := fun a b =>
    if op = 0 then (a + b) % 2 ^ 32
    else if op = 1 then (if sint32 a < sint32 b then b else a)
    else if sint32 b < sint32 a then b else a
  foldNode o 0 l

/-! ### Anchored sums (R195 to R198) -/

/-- The word width: 64 bits for FP32, for products and with WIDE (R195). -/
def wordBits (fmt : Nat) (winopt : BitVec 4) (products : Bool) : Nat :=
  if fmt = 0 ∨ products ∨ bit winopt 0 then 64 else 32

/-- ⌈log2 n⌉. -/
def ceilLog (n : Nat) : Nat := if n ≤ 1 then 0 else Nat.log2 (n - 1) + 1

/-- The headroom h of n contributions (R195). -/
def headroom (winopt : BitVec 4) (n : Nat) : Nat := if bit winopt 1 then 16 else ceilLog n

/-- anchor_byte of R196. -/
def anchorByte : Val → Nat
  | .nan => 255
  | .inf _ => 255
  | .num _ m e => if m = 0 then 0 else (max (floorLog m e) (-126) + 127).toNat

/-- flags of R196. -/
def anchorFlags : Val → Nat
  | .nan => 4
  | .inf neg => if neg then 2 else 1
  | .num _ _ _ => 0

/-- The word of a contribution: f bits, headroom h, anchor byte `anc` (R196, R198). -/
def wordOf (f h anc : Nat) (v : Val) : Nat :=
  if anc = 255 then anchorFlags v
  else match v with
    | .num neg m e =>
      if anc = 0 then 0
      else
        let q := toInteger true m (e + ((f - 1 - h : Nat) : Int) - ((anc : Int) - 127) - 1)
        if neg ∧ q ≠ 0 then 2 ^ f - q else q
    | _ => 0

/-- Words of one position combined: added, or their flags united (R198). -/
def addWords (f anc : Nat) (a b : Nat) : Nat := if anc = 255 then a ||| b else (a + b) % 2 ^ f

/-- The exact value of a combined word (R196, R197). -/
def wordVal (f h anc w : Nat) : Val :=
  if anc = 0 then .num false 0 0
  else if anc = 255 then
    (if w.testBit 2 || (w.testBit 0 && w.testBit 1) then .nan else .inf (!w.testBit 0))
  else
    let s : Int := if w < 2 ^ (f - 1) then (w : Nat) else (w : Nat) - (2 ^ f : Nat)
    ofSigned s ((anc : Int) - 127 + 1 - ((f - 1 - h : Nat) : Int))

/-- The anchored sum of a list of values (R196). -/
def anchoredSum (f h : Nat) (l : List Val) : Val :=
  let anc := (l.map anchorByte).foldl max 0
  wordVal f h anc ((l.map (wordOf f h anc)).foldl (addWords f anc) 0)

/-! ### Wire forms (R200) -/

/-- The wire bytes of a reduction's data per unit of source: the numerator over `unitBytes`. -/
def wireUnit (fmt : Nat) (anchored : Bool) (winopt : BitVec 4) : Nat :=
  let n := unitElems fmt
  if anchored then n * (1 + wordBits fmt winopt false / 8)
  else if fmt = 3 ∨ fmt = 4 then 2 * n else if isMx fmt then 64 else if fmt = 12 then 4 else unitBytes fmt

/-- Bytes of one scratch buffer: ⌈C × E / 64⌉ × 64 (R200). -/
def bufferBytes (c fmt : Nat) (anchored : Bool) (winopt : BitVec 4) : Nat :=
  ceilDiv (c * wireUnit fmt anchored winopt) (unitBytes fmt * 64) * 64

/-- The largest buffer of a group over every kind its format allows (R200). -/
def spillBytes (c fmt : Nat) (mode : Bool) (winopt : BitVec 4) : Nat :=
  max (bufferBytes c fmt false winopt) (max (ceilDiv c 64 * 64) (if mode then bufferBytes c fmt true winopt else 0))

/-! ### EXPERT_COMBINE (R194) -/

/-- gate × row element, formed exactly and rounded into FP32. -/
def product (gate row : Val) : Val := round32 false (mulV gate row)

/-- The sum of the products of one element: a fold in ascending k, or anchored (R194). -/
def sumProducts (mode : Bool) (winopt : BitVec 4) (n : Nat) (l : List Val) : Val :=
  if mode then anchoredSum 64 (headroom winopt n) l
  else foldNode (fadd false) (.num false 0 0) l

end Sys2Proof.Machine
end

