-- ==== Sys2Proof/Machine/Eprg.lean ====
section
/-!
DEFINITION. Element programs (07_element_programs.md): the instruction word and its check (R215, R217, R218), the
vector machine (R213, R219 to R223), its entry and exit (R213, R214), and a program run over a stream (R212).
A lane is a 32-bit pattern.
-/
namespace Sys2Proof.Machine

/-! ### The instruction word -/

def insOp (w : U64) : Nat := fld w 7 0
def insVd (w : U64) : Nat := fld w 11 8
def insVa (w : U64) : Nat := fld w 15 12
def insVb (w : U64) : Nat := fld w 19 16
def insVc (w : U64) : Nat := fld w 23 20
/-- BI: operand B is IMM in every lane. -/
def insBi (w : U64) : Bool := bit w 24
def insRz (w : U64) : Bool := bit w 25
def insSat (w : U64) : Bool := bit w 26
def insImm (w : U64) : Nat := fld w 63 32

/-- The fields the instruction table lists for an opcode: VD, VA, VB, VC, whether BI is allowed, whether IMM is used
for a purpose of its own, RZ and SAT (R217, R221). -/
structure InsUses where
  vd : Bool := false
  va : Bool := false
  vb : Bool := false
  vc : Bool := false
  bi : Bool := false
  imm : Bool := false
  rz : Bool := false
  sat : Bool := false
deriving DecidableEq, Repr, Inhabited

/-- The row of R221's table; none for an opcode not in it. -/
def insUses (op : Nat) : Option InsUses :=
  let ab : InsUses := { vd := true, va := true, vb := true, bi := true }
  let a : InsUses := { vd := true, va := true }
  match op with
  | 0x01 => some {}
  | 0x02 => some { imm := true }
  | 0x03 => some { vd := true, imm := true }
  | 0x04 => some a
  | 0x05 => some { vd := true }
  | 0x06 => some { vd := true }
  | 0x07 => some { a with imm := true }
  | 0x10 => some { ab with rz := true }
  | 0x11 => some { ab with rz := true }
  | 0x12 => some { ab with rz := true }
  | 0x13 => some { ab with vc := true, rz := true }
  | 0x14 => some ab
  | 0x15 => some ab
  | 0x16 => some a
  | 0x17 => some a
  | 0x18 => some { ab with vc := true, bi := false }
  | 0x19 => some { ab with rz := true }
  | 0x1A => some a
  | 0x1B => some a
  | 0x20 => some { a with imm := true, rz := true, sat := true }
  | 0x21 => some { a with imm := true, rz := true }
  | 0x22 => some { a with imm := true }
  | 0x23 => some { a with rz := true }
  | 0x24 => some { a with rz := true }
  | 0x30 => some { ab with sat := true }
  | 0x31 => some { ab with sat := true }
  | 0x32 => some { ab with sat := true }
  | 0x40 => some { ab with vc := true }
  | 0x41 => some { ab with vc := true }
  | 0x42 => some { ab with vc := true, bi := false }
  | 0x43 => some a
  | _ => if 0x33 ≤ op ∧ op ≤ 0x3A then some ab else none

/-- R217: every field the table does not list is zero, VB is zero under BI, and the reserved bits are zero. -/
def fieldsOk (u : InsUses) (w : U64) : Bool :=
  (u.vd || insVd w == 0) && (u.va || insVa w == 0) && (u.vb || insVb w == 0) && (u.vc || insVc w == 0) &&
  (u.bi || !insBi w) && (!insBi w || insVb w == 0) && (u.rz || !insRz w) && (u.sat || !insSat w) &&
  (u.imm || insBi w || insImm w == 0) && fld w 31 27 == 0

/-- The values of IMM and VC that an opcode allows: a defined format or condition code, a lane number, FMT's rules
(R215, R221, R223). `i`: the instruction's index; `red`: the program is the reduce program. -/
def valuesOk (red : Bool) (i : Nat) (w : U64) : Bool :=
  let m := insImm w
  match insOp w with
  | 0x02 => decide (i = 0) && decide (m < 64) && (if m.testBit 4 then !red && decide (m % 16 < 13) else decide (m % 16 = 0))
  | 0x07 => decide (m < 32)
  | 0x20 => decide (m < 9)
  | 0x21 => decide (m < 9)
  | 0x22 => decide (m < 9)
  | 0x40 => decide (insVc w < 7)
  | 0x41 => decide (insVc w < 7)
  | _ => true

/-- R218: an instruction passes the check of GROUP_CREATE. -/
def insOk (red : Bool) (i : Nat) (w : U64) : Bool :=
  match insUses (insOp w) with
  | some u => fieldsOk u w && valuesOk red i w
  | none => false

/-- The index of the lowest failing instruction of a program; every program fails on RAW8 (R218). -/
def progFault (fmt : Nat) (red : Bool) (prog : List U64) : Option Nat :=
  if fmt = 13 then (if prog = [] then none else some 0)
  else (prog.zipIdx.find? (fun x => !insOk red x.2 x.1)).map Prod.snd

/-- R218: DETAIL of the first failing program, none if all three pass. -/
def programsFault (fmt : Nat) (send reduce recv : List U64) : Option Nat :=
  match progFault fmt false send with
  | some i => some (2 ^ 14 + i)
  | none => match progFault fmt true reduce with
    | some i => some (2 * 2 ^ 14 + i)
    | none => (progFault fmt false recv).map (fun i => 3 * 2 ^ 14 + i)

/-! ### Declared formats (R214, R215) -/

/-- IMM of a program's FMT instruction; 0 without one. -/
def progFmt (prog : List U64) : Nat :=
  match prog with
  | w :: _ => if insOp w = 0x02 then insImm w else 0
  | [] => 0

/-- The format that replaces the group's for a member's source or destination (R215). -/
def declFmt (prog : List U64) (fmt : Nat) : Nat :=
  let m := progFmt prog
  if m.testBit 4 then m % 16 else fmt

/-- Exit mode DIRECT (R214). -/
def progDirect (prog : List U64) : Bool := (progFmt prog).testBit 5

/-- L: instructions other than FMT (R225). -/
def progLen (prog : List U64) : Nat := (prog.filter (fun w => decide (insOp w ≠ 0x02))).length

/-! ### Lane operations (R219 to R223) -/

/-- A sum, difference or product of INT32, wrapped or saturated (R220). -/
def intResult (sat : Bool) (n : Int) : Nat := pat32 (if sat then clampInt (-2 ^ 31) (2 ^ 31 - 1) n else n)

/-- FEXP of a pattern. -/
def expOf (a : Nat) : Int :=
  match valOf a with
  | .num _ m e => if m = 0 then -150 else floorLog m e
  | _ => 128

/-- FSCALE: va × 2^k, rounded once; beyond ±1,000 the result no longer changes. -/
def scaleOf (rz : Bool) (a : Nat) (k : Int) : Nat :=
  match valOf a with
  | .num neg m e => encodeF fp32 rz false (.num neg m (e + clampInt (-1000) 1000 k))
  | _ => a

/-- The condition of FCMP (R223). -/
def fcond (c : Nat) (a b : Val) : Bool :=
  if a.isNan || b.isNan then decide (c = 5 ∨ c = 6)
  else
    let x := cmpV a b
    match c with
    | 0 => decide (x = 0)
    | 1 => decide (x < 0)
    | 2 => decide (x ≤ 0)
    | 3 => decide (0 < x)
    | 4 => decide (0 ≤ x)
    | 5 => decide (x ≠ 0)
    | _ => false

/-- The condition of ICMP (R223). -/
def icond (c a b : Nat) : Bool :=
  let x := sint32 a
  let y := sint32 b
  match c with
  | 0 => decide (x = y)
  | 1 => decide (x < y)
  | 2 => decide (x ≤ y)
  | 3 => decide (y < x)
  | 4 => decide (y ≤ x)
  | 5 => decide (x ≠ y)
  | _ => decide (a < b)

/-- CLASS of a pattern. -/
def classOf (a : Nat) : Nat :=
  let mag := a % 2 ^ 31
  b2n (decide (0x7F800000 < mag)) + 2 * b2n (decide (mag = 0x7F800000)) + 4 * b2n (decide (mag = 0)) +
    8 * b2n (decide (0 < mag ∧ mag < 2 ^ 23)) + 16 * b2n (a.testBit 31)

/-- All ones or zero. -/
def mask32 (b : Bool) : Nat := if b then 0xFFFFFFFF else 0

/-- The result of an instruction in one lane, from operands A, B and C of that lane (R221). `c` is 0 for an
instruction without VC; the condition of a compare is its VC field. -/
def laneOp (w : U64) (a b c : Nat) : Nat :=
  let rz := insRz w
  let f := insImm w % 16
  match insOp w with
  | 0x04 => a
  | 0x10 => encodeF fp32 rz false (addV (valOf a) (valOf b))
  | 0x11 => encodeF fp32 rz false (addV (valOf a) (negV (valOf b)))
  | 0x12 => encodeF fp32 rz false (mulV (valOf a) (valOf b))
  | 0x13 => encodeF fp32 rz false (addV (mulV (valOf a) (valOf b)) (valOf c))
  | 0x14 => pat (maxV (valOf a) (valOf b))
  | 0x15 => pat (minV (valOf a) (valOf b))
  | 0x16 => a % 2 ^ 31
  | 0x17 => a ^^^ 2 ^ 31
  | 0x18 => pat (minV (maxV (valOf a) (valOf b)) (valOf c))
  | 0x19 => scaleOf rz a (sint32 b)
  | 0x1A => pat32 (expOf a)
  | 0x20 => pat (decodeCode f (encodeCode f rz (insSat w || decide (5 ≤ f)) (valOf a)))
  | 0x21 => encodeCode f rz true (valOf a)
  | 0x22 => pat (decodeCode f a)
  | 0x23 => encodeF fp32 rz false (ofInt (sint32 a))
  | 0x24 => pat32 (toInt32 rz (valOf a))
  | 0x30 => intResult (insSat w) (sint32 a + sint32 b)
  | 0x31 => intResult (insSat w) (sint32 a - sint32 b)
  | 0x32 => intResult (insSat w) (sint32 a * sint32 b)
  | 0x33 => if sint32 a < sint32 b then b else a
  | 0x34 => if sint32 b < sint32 a then b else a
  | 0x35 => a &&& b
  | 0x36 => a ||| b
  | 0x37 => a ^^^ b
  | 0x38 => a * 2 ^ (b % 32) % 2 ^ 32
  | 0x39 => a / 2 ^ (b % 32)
  | 0x3A => pat32 (sint32 a / 2 ^ (b % 32))
  | 0x40 => mask32 (fcond (insVc w) (valOf a) (valOf b))
  | 0x41 => mask32 (icond (insVc w) a b)
  | 0x42 => if c ≠ 0 then a else b
  | 0x43 => classOf a
  | _ => 0

/-! ### The vector machine -/

/-- Register r of the sixteen. -/
def vreg (v : List (List Nat)) (r : Nat) : List Nat := v.getD r (List.replicate 32 0)

/-- AMAX over the active lanes. -/
def amaxOf (active : Nat) (l : List Nat) : Nat :=
  let vs := (l.take active).map valOf
  if vs.any Val.isNan then pat .nan
  else ((l.take active).map (fun a => a % 2 ^ 31)).foldl max 0

/-- One instruction on the registers; `active`: active lanes, which are lanes 0 up. -/
def vecStep (active : Nat) (v : List (List Nat)) (w : U64) : List (List Nat) :=
  let a := vreg v (insVa w)
  let b := if insBi w then List.replicate 32 (insImm w) else vreg v (insVb w)
  let c := vreg v (insVc w)
  let set : List Nat → List (List Nat) := fun l => listSet v (insVd w) l
  match insOp w with
  | 0x01 => v
  | 0x02 => v
  | 0x03 => set (List.replicate 32 (insImm w))
  | 0x05 => set (List.range 32)
  | 0x06 => set ((List.range 32).map (fun j => mask32 (decide (j < active))))
  | 0x07 => set (List.replicate 32 (a.getD (insImm w % 32) 0))
  | 0x1B => set (List.replicate 32 (amaxOf active a))
  | _ => set ((List.range 32).map (fun j => laneOp w (a.getD j 0) (b.getD j 0) (c.getD j 0)))

/-- The registers at the start of a vector (R213): elements with their scale bytes; `mx`: an MX input. -/
def vecStart (mx : Bool) (l : List (Nat × Nat)) : List (List Nat) :=
  let v0 := (List.range 32).map (fun j => (l.getD j (0, 0)).1)
  let v1 := List.replicate 32 (if mx then pat32 (((l.headD (0, 0)).2 : Int) - 127) else 0)
  v0 :: v1 :: List.replicate 14 (List.replicate 32 0)

/-- The exit stage (R214): the active lanes of V0 in the output format. -/
def vecExit (direct : Bool) (fmt : Nat) (cv : Conv) (active : Nat) (v : List (List Nat)) : Bytes :=
  let l := (vreg v 0).take active
  if direct then
    if isMx fmt then packBlock fmt ((vreg v 1).headD 0 % 256) l
    else l.flatMap (fun x => toLE (unitBytes fmt) x)
  else writePats fmt cv l

/-- One vector through a program. -/
def runVector (prog : List U64) (mx : Bool) (fout : Nat) (cv : Conv) (l : List (Nat × Nat)) : Bytes :=
  vecExit (progDirect prog) fout cv l.length (prog.foldl (vecStep l.length) (vecStart mx l))

/-- A stream of elements in format `fin` through a send or receive program, written in `fout`; vectors count from the
stream's start (R212). A program of length 0 is the identity (R210). -/
def runStream (prog : List U64) (fin fout : Nat) (bs : Bytes) : Bytes :=
  if prog = [] then bs
  else (chunksOf 32 (elemsOf fin bs)).flatMap (runVector prog (isMx fin) fout {})

/-- Working values, as patterns, through the reduce program, written in the group's format (R211). -/
def runReduce (prog : List U64) (fmt : Nat) (cv : Conv) (l : List Nat) : Bytes :=
  (chunksOf 32 (l.map (fun p => (p, 0)))).flatMap (runVector prog false fmt cv)

/-- Vectors that a program of L ≥ 1 instructions runs over n elements, for EPRG_DEV_VECS (R227). -/
def vectorsOf (prog : List U64) (n : Nat) : Nat := if prog = [] then 0 else ceilDiv n 32

end Sys2Proof.Machine
end

