-- ==== Sys2Proof/Machine/Flags.lean ====
section
/-!
DEFINITION. Status words (02_work_queues.md, word 0, R46, R49) and the status codes of every chapter's table.
-/
namespace Sys2Proof.Machine

/-- A status word with a code alone. -/
def stat (code : Nat) : Status := { code := BitVec.ofNat 15 code }

/-- A status word with a code and DETAIL. -/
def statD (code detail : Nat) : Status := { code := BitVec.ofNat 15 code, detail := BitVec.ofNat 16 detail }

/-- Word 0 of a descriptor with a status word filled in (R46, R66). -/
def withStatus (w0 : U64) (st : Status) : U64 :=
  BitVec.ofNat 64 (fld w0 31 0 + st.code.toNat * 2 ^ 32 + b2n st.degraded * 2 ^ 47 + st.detail.toNat * 2 ^ 48)

/-- A status word other than all zero asks for a write-back (R66). -/
def Status.nonzero (st : Status) : Bool := decide (st ≠ {})

def stOk : Status := {}
def cTRUNCATED : Nat := 0x1
def cREMOTE_TRUNCATED : Nat := 0x2
def cUNIT_ABSENT : Nat := 0x3
def cBAD_OPCODE : Nat := 0x4
def cBAD_FIELD : Nat := 0x5
def cBAD_DEPENDENCY : Nat := 0x6
def cDEP_FAILED : Nat := 0x7
def cACCESS_DENIED : Nat := 0x8
def cRNR_EXCEEDED : Nat := 0x9
def cBAD_SIZE : Nat := 0x20
def cOVERFLOW : Nat := 0x21
def cPUSH_ORDER : Nat := 0x22
def cDOORBELL_AHEAD : Nat := 0x23
def cNO_RESOURCE : Nat := 0x24
def cIN_USE : Nat := 0x25
def cQP_INVALID : Nat := 0x101
def cFLUSHED : Nat := 0x102
def cREMOTE_LOST : Nat := 0x103
def cTIMEOUT : Nat := 0x104
def cNO_REMOTE_RQ : Nat := 0x105
def cCONNECT_TIMEOUT : Nat := 0x106
def cCONNECT_REJECTED : Nat := 0x107
def cRQ_BUSY : Nat := 0x108
def cBAD_STATE : Nat := 0x109
def cQP_NO_RESOURCE : Nat := 0x10A
def cSHRINK_PENDING : Nat := 0x401
def cRESET_FLUSHED : Nat := 0x402
def cFAC_BUSY : Nat := 0x403
def cFAC_NO_RESOURCE : Nat := 0x404
def cGROUP_INVALID : Nat := 0x201
def cNOT_MEMBER : Nat := 0x202
def cCOLL_MISMATCH : Nat := 0x203
def cCOLL_CAPACITY : Nat := 0x204
def cCOLL_ABORTED : Nat := 0x205
def cCOLL_TIMEOUT : Nat := 0x206
def cCOLL_MEMBER_LOST : Nat := 0x207
def cCOLL_BAD_ROUTE : Nat := 0x208
def cGRP_BUSY : Nat := 0x210
def cGRP_NO_RESOURCE : Nat := 0x211
def cGRP_UNREACHABLE : Nat := 0x212
def cPLAN_ABSENT : Nat := 0x213
def cGRP_STATE : Nat := 0x214
def cMOVE_BUSERR : Nat := 0x301
def cMOVE_CANCELLED : Nat := 0x302
def cPORT_ERROR : Nat := 0x303

end Sys2Proof.Machine
end

