-- ==== Sys2Proof/Machine/Operands.lean ====
section
/-!
DEFINITION. The operand forms of the commands: opcodes, the reserved bits of every descriptor layout (R45), the
index check of a slot (R47), dependencies (R61, R62), receive write-backs, and the byte form of the ZRT base
header, its extension headers and the route header (R97, R234).
-/
namespace Sys2Proof.Machine

/-- OPCODE of a descriptor. -/
def Desc.op (d : Desc) : Nat := fld d.w0 7 0
/-- FENCE. -/
def Desc.fence (d : Desc) : Bool := bit d.w0 8
/-- EVT. -/
def Desc.evt (d : Desc) : Bool := bit d.w0 9

/-- Every bit of a word. -/
def allOnes : Nat := 0xFFFFFFFFFFFFFFFF

/-- The bits `[hi:lo]` as a mask. -/
def bits (hi lo : Nat) : Nat := (2 ^ (hi + 1 - lo) - 1) * 2 ^ lo

/-- A mask if the condition holds. -/
def maskIf (c : Bool) (m : Nat) : Nat := if c then m else 0

/-- Reserved bits of words 2 to 7 of WRITE, READ and SEND (transfer layout). -/
def resTransfer (d : Desc) : List Nat :=
  let send := decide (Desc.op d = 4)
  [bits 23 21 ||| bits 63 40 ||| maskIf (!send) (bits 20 20) ||| maskIf send (bits 39 32),
   bits 63 32, 0, maskIf send allOnes,
   maskIf send (bits 31 0) ||| maskIf (!(send && bit d.w2 20)) (bits 63 32), 0]

/-- Whether a collective's descriptor acts for the ROOT it names (R159, "Elsewhere —"). -/
def atRoot (d : Desc) : Bool := decide (fld d.w2 31 16 = fld d.w2 55 40)

/-- Which of COUNT, source, destination, AUX, OP, ROOT and K_M1 a collective kind uses (R159). -/
structure CollUses where
  count : Bool
  src : Bool
  dst : Bool
  aux : Bool
  op : Bool
  root : Bool
  k : Bool
deriving DecidableEq, Repr, Inhabited

/-- The row of R159's table for an opcode; `r`: the descriptor acts for ROOT. -/
def collUses (op : Nat) (r : Bool) : CollUses :=
  match op with
  | 0x10 => ⟨false, false, false, false, false, false, false⟩
  | 0x11 => ⟨true, true, true, false, true, false, false⟩
  | 0x12 => ⟨true, true, r, false, true, true, false⟩
  | 0x13 => ⟨true, true, true, false, true, false, false⟩
  | 0x14 => ⟨true, r, true, false, false, true, false⟩
  | 0x15 => ⟨true, true, true, false, false, false, false⟩
  | 0x16 => ⟨true, true, r, false, false, true, false⟩
  | 0x17 => ⟨true, r, true, false, false, true, false⟩
  | 0x18 => ⟨true, true, true, false, false, false, false⟩
  | 0x19 => ⟨true, true, r, r, false, true, false⟩
  | 0x1A => ⟨true, true, true, true, false, false, false⟩
  | 0x1B => ⟨true, true, true, true, false, false, true⟩
  | _ => ⟨true, true, true, true, false, false, true⟩

/-- Reserved bits of words 2 to 7 of a collective descriptor. -/
def resColl (d : Desc) : List Nat :=
  let u := collUses (Desc.op d) (atRoot d)
  [bits 15 12 ||| bits 63 59 ||| maskIf (!u.op) (bits 35 32) ||| maskIf (!u.root) (bits 55 40) |||
     maskIf (!u.k) (bits 58 56),
   maskIf (!u.count) (bits 39 0) ||| maskIf (!u.src) (bits 47 40) ||| maskIf (!u.dst) (bits 55 48) |||
     maskIf (!u.aux) (bits 63 56),
   maskIf (!u.src) allOnes, maskIf (!u.dst) allOnes, maskIf (!u.aux) allOnes, 0]

/-- Reserved bits of words 2 to 7 of an SQ descriptor, by opcode. -/
def resWords (d : Desc) : List Nat :=
  match Desc.op d with
  | 0x01 => [allOnes, allOnes, allOnes, allOnes, allOnes, 0]
  | 0x02 => resTransfer d
  | 0x03 => resTransfer d
  | 0x04 => resTransfer d
  | 0x20 => [bits 27 26, bits 63 60, 0, 0, 0, 0]
  | 0x30 => [bits 15 12 ||| bits 63 51 ||| maskIf (!bit d.w2 36) (bits 40 37),
             bits 39 39 ||| bits 47 47 ||| bits 63 55, 0, 0, allOnes, 0]
  | 0x31 => [bits 63 12, allOnes, allOnes, allOnes, allOnes, 0]
  | 0x32 => [bits 63 12, bits 63 8, 0, allOnes, allOnes, 0]
  | 0x33 => [bits 7 7 ||| bits 63 42, bits 11 0, allOnes, allOnes, allOnes, 0]
  | 0x34 => [bits 7 7 ||| bits 63 43, bits 11 0, allOnes, allOnes, allOnes, 0]
  | 0x35 => [bits 63 7, bits 63 8, 0, allOnes, allOnes, 0]
  | 0x36 => [bits 63 8, allOnes, allOnes, allOnes, allOnes, 0]
  | 0x37 => [bits 63 25, bits 63 35, 0, 0, allOnes, 0]
  | 0x38 => [bits 63 11, allOnes, allOnes, allOnes, allOnes, 0]
  | 0x39 => [bits 63 11, allOnes, allOnes, allOnes, allOnes, 0]
  | 0x3A => [bits 63 2, allOnes, allOnes, allOnes, allOnes, 0]
  | _ => resColl d

/-- The reserved-bit masks of the eight words of a descriptor in an SQ or an RQ (R45). -/
def resMasks (rq : Bool) (d : Desc) : List Nat :=
  if rq then [bits 15 13, allOnes, bits 63 8, 0, 0, 0, bits 31 0, 0]
  else (bits 15 13) :: (bits 15 8 ||| bits 47 40) :: resWords d

/-- The position, 0 to 511, of the lowest reserved bit that is set (R45). -/
def badBit (rq : Bool) (d : Desc) : Option Nat :=
  (((Desc.words d).zip (resMasks rq d)).zipIdx.flatMap
    (fun ((w, m), i) => (setBits 64 (w.toNat &&& m)).map (fun b => 64 * i + b))).head?

/-- The opcodes of an SQ (R48); `mgmt`: the management facet. -/
def sqOpcode (mgmt : Bool) (op : Nat) : Bool :=
  decide (1 ≤ op ∧ op ≤ 4) || decide (0x10 ≤ op ∧ op ≤ 0x1C) || decide (op = 0x20) ||
    (mgmt && decide (0x30 ≤ op ∧ op ≤ 0x3A))

/-- R48: whether an opcode is one of its queue. -/
def opcodeOk (mgmt rq : Bool) (op : Nat) : Bool := if rq then decide (op = 0x40) else sqOpcode mgmt op

/-- R47: SEQ_TAG and SEQ_PHASE equal bits [16:0] of the index. -/
def seqOk (d : Desc) (idx : U32) : Bool :=
  decide (fld d.w0 31 16 + 2 ^ 16 * fld d.w0 12 12 = fld idx 16 0)

/-- R57: a fetched slot is ready. -/
def slotReady (d : Desc) (idx : U32) : Bool := decide (Desc.op d ≠ 0) && seqOk d idx

/-- Dependency `n` of a descriptor: its SQ and the low half of its index, if in force. -/
def Desc.dep (d : Desc) (n : Nat) : Option (Nat × U16) :=
  if n = 0 then (if bit d.w0 10 then some (fld d.w1 7 0, BitVec.ofNat 16 (fld d.w1 31 16)) else none)
  else (if bit d.w0 11 then some (fld d.w1 39 32, BitVec.ofNat 16 (fld d.w1 63 48)) else none)

/-- R61: H has passed the named descriptor. -/
def depSatisfied (head : U32) (dep : U16) : Bool :=
  decide (0x8000 ≤ (dep - BitVec.ofNat 16 head.toNat).toNat)

/-- R62: a dependency on the descriptor's own SQ at its own index or a later one. -/
def depOnSelf (idx : U32) (dep : U16) : Bool :=
  let x := (BitVec.ofNat 16 idx.toNat - dep).toNat
  decide (x = 0) || decide (0x8000 ≤ x)

/-- R62 and R454 step 3: some enabled dependency names the descriptor itself or a later one of SQ `q`. -/
def badDependency (q : Nat) (idx : U32) (d : Desc) : Bool :=
  [0, 1].any (fun n => match Desc.dep d n with
    | some (sq, x) => decide (sq = q) && depOnSelf idx x
    | none => false)

/-- The 64 bytes of a slot as written back, status word filled in (R66). -/
def writeBackBytes (d : Desc) (st : Status) : Bytes := descBytes { d with w0 := withStatus d.w0 st }

/-- What a RECV's write-back carries beside its status word (R66, receive layout). -/
structure RecvResult where
  count : U32 := 0
  srcQpn : BitVec 20 := 0
  srcEp : BitVec 27 := 0
  imm : Option U32 := none
deriving DecidableEq, Repr, Inhabited

/-- A RECV descriptor with the device's fields filled in. -/
def recvFilled (d : Desc) (r : RecvResult) : Desc :=
  { d with
    w3 := BitVec.ofNat 64 (fld d.w3 31 0 + r.count.toNat * 2 ^ 32)
    w5 := BitVec.ofNat 64 (r.srcQpn.toNat + r.srcEp.toNat * 2 ^ 32 + b2n r.imm.isSome * 2 ^ 59)
    w6 := BitVec.ofNat 64 (fld d.w6 31 0 + (r.imm.getD 0).toNat * 2 ^ 32) }

end Sys2Proof.Machine
end

