-- ==== Sys2Proof/Machine/RegSpec.lean ====
section
/-!
DEFINITION. The device registers that hold no behaviour of their own: offset, width, writable bits, whether the
boot lock covers them (RWL), and reset value, from the register tables of every chapter (R18). All of them lie in
the management facet's page.
-/
namespace Sys2Proof.Machine

/-- How a 64-bit register may be accessed (R19): in halves; read in one access; read and written in one access. -/
inductive RegAcc where
  | halves | readOne | one
deriving DecidableEq, Repr, Inhabited

/-- One row, or array of rows, of the register tables. -/
structure RegSpec where
  base : Nat
  cnt : Nat := 1
  stride : Nat := 8
  wide : Bool := true
  mask : Nat
  rwl : Bool := true
  reset : Nat := 0
  acc : RegAcc := .readOne
deriving DecidableEq, Repr, Inhabited

/-- RATE registers (04_rates_and_arbitration.md, R148). -/
def rateRegs : List RegSpec :=
  [{ base := 0xC100, wide := false, mask := 0xFFFFFFFF, reset := 0x185A4618 },
   { base := 0xC104, wide := false, mask := 0x3FFFFFF },
   { base := 0xC200, cnt := 16, stride := 0x10, mask := 0x1FFFFFFFFFFFF, acc := .halves },
   { base := 0xC208, cnt := 16, stride := 0x10, mask := 0xFFFFFFFFFFFFF, acc := .halves },
   { base := 0xC300, cnt := 26, mask := 0xFFFFFFFFFFFFFFFF, reset := 0x0004004000100040, acc := .halves },
   { base := 0xC3D0, cnt := 5, mask := 0xFFFFFFFFFFFFFFFF, reset := 0x0010002000400040, acc := .halves },
   { base := 0xC500, cnt := 26, mask := 0xFFFFFFFFF, acc := .halves }]

/-- GRP and PRISM configuration (R183, R209). -/
def collRegs : List RegSpec :=
  [{ base := 0xD080, wide := false, mask := 0xF, reset := 2 },
   { base := 0xD404, wide := false, mask := 0xFFF, reset := 0xA03 }]

/-- SVL configuration (R258); SVL_LNK_EXPECT of link n resets to n mod 4, see `regReset`. -/
def svlRegs : List RegSpec :=
  [{ base := 0xE000, mask := 0x1FFFFFFFFFFFF, reset := 0xFFF000000000 },
   { base := 0xE008, wide := false, mask := 0xFFFFFFFF,
     reset := 0x40 + 3 * 2 ^ 10 + 8 * 2 ^ 14 + 10 * 2 ^ 18 + 0x10 * 2 ^ 22 },
   { base := 0xE010, mask := 0xFFFFFFFFFFFFFFFF, reset := 0x0808181808081818 },
   { base := 0xE100, cnt := 12, stride := 4, wide := false, mask := 0x0F0F0F0F },
   { base := 0xE200, cnt := 64, mask := 0x3FFFFFF },
   { base := 0xE40C, cnt := 24, stride := 0x40, wide := false, mask := 3 }]

/-- XLT, PCX and MOV configuration (R288, R317). -/
def portRegs : List RegSpec :=
  [{ base := 0xF100, wide := false, mask := 0x1FFF, reset := 0xC0 },
   { base := 0xF480, wide := false, mask := 0x3FFF, reset := 4 * 2 ^ 10 },
   { base := 0xF4B0, mask := 0xFFFFFFFFFC000000, rwl := false }]

/-- The compatibility scheduler register (R360). -/
def cipRegs : List RegSpec :=
  [{ base := 0xF8C0, wide := false, mask := 0x1F, reset := 0x12 }]

/-- The block of one Ethernet port (R377). -/
def ethPortRegs (b : Nat) : List RegSpec :=
  [{ base := b, mask := 0x3FFFFFF, reset := 0x100 * 2 ^ 16, acc := .one },
   { base := b + 0x10, cnt := 8, mask := 0x1FFFFFFFFFFFF, acc := .one },
   { base := b + 0x50, mask := 0xFFFFFFFFFFFFFFFF, rwl := false, acc := .one },
   { base := b + 0x58, wide := false, mask := 0xFF, rwl := false },
   { base := b + 0x60, cnt := 8, mask := 0xFFFFFFFFFFFFFFFF, rwl := false, acc := .one }]

/-- ETH configuration (R377). -/
def ethRegs : List RegSpec :=
  [{ base := 0x500, mask := 0xFFFFFF7FFFFFFF,
     reset := 0x5A52 + 0x2328 * 2 ^ 17 + 0xA * 2 ^ 32 + 0x2E * 2 ^ 38 + 0x12 * 2 ^ 44 + 0x30 * 2 ^ 50, acc := .one },
   { base := 0x510, cnt := 2, mask := 0xFFFFFFFFFFFFFFFF, acc := .one }] ++
  ethPortRegs 0x540 ++ ethPortRegs 0x640 ++
  [{ base := 0x800, cnt := 64, stride := 0x20, mask := 0x7FFFFFFFFFFFF, acc := .one },
   { base := 0x808, cnt := 64, stride := 0x20, mask := 0xFFFFFFFFFFFFFFFF, acc := .one },
   { base := 0x810, cnt := 64, stride := 0x20, mask := 0xFFFFFFFFFFFFFFFF, acc := .one }]

/-- ERR configuration (R401). -/
def errRegs : List RegSpec :=
  [{ base := 0xFC20, wide := false, mask := 1 },
   { base := 0xFC24, wide := false, mask := 0xFFFFFFF, reset := 0xA + 8 * 2 ^ 4 + 0x10 * 2 ^ 12 + 4 * 2 ^ 20 },
   { base := 0xFC28, wide := false, mask := 0xFF, rwl := false },
   { base := 0xFC38, wide := false, mask := 0x1FF, rwl := false },
   { base := 0xFC40, mask := 0xFFFFFFFFFFFFF000, rwl := false, acc := .one }]

/-- PWR and THM configuration (R442). -/
def pwrRegs : List RegSpec :=
  [{ base := 0x100, mask := 0x7FF, reset := 6 * 4 + 10 * 2 ^ 6, acc := .one },
   { base := 0x108, mask := 0xFFFFFF, reset := 0x3E8 + 0x46 * 2 ^ 14 + 3 * 2 ^ 22, acc := .one },
   { base := 0x200, mask := 0xFFFFFFFFFFFFFFFF,
     reset := 0x2D0 + 0x800 * 2 ^ 12 + 0x100 * 2 ^ 28 + 0x51F * 2 ^ 44 + 2 * 2 ^ 60, acc := .one },
   { base := 0x208, mask := 0x1FFFF3F, reset := 1 + 0x50 * 2 ^ 8 + 0x73 * 2 ^ 16, acc := .one },
   { base := 0x210, cnt := 4, mask := 0x3FFFFFFFFFFF,
     reset := 0x14 + 0x64 * 2 ^ 7 + 0x14 * 2 ^ 14 + 0x64 * 2 ^ 21 + 2 ^ 28, acc := .one },
   { base := 0x230, cnt := 6, mask := 0x1FFFF, reset := 0x50 * 2, acc := .one }]

/-- Every device register of the register file. -/
def regTable : List RegSpec :=
  rateRegs ++ collRegs ++ svlRegs ++ portRegs ++ cipRegs ++ ethRegs ++ errRegs ++ pwrRegs

/-- Whether a row covers the register that starts at `off`. -/
def RegSpec.covers (r : RegSpec) (off : Nat) : Bool :=
  decide (r.base ≤ off) && decide ((off - r.base) % r.stride = 0) && decide ((off - r.base) / r.stride < r.cnt)

/-- The row of the register that starts at `off`. -/
def regAt (off : Nat) : Option RegSpec := regTable.find? (fun r => r.covers off)

/-- The reset value of the register at `off`. -/
def regReset (off : Nat) : U64 :=
  if 0xE40C ≤ off ∧ off < 0xEA0C ∧ (off - 0xE40C) % 0x40 = 0 then BitVec.ofNat 64 ((off - 0xE40C) / 0x40 % 4)
  else match regAt off with
    | some r => BitVec.ofNat 64 r.reset
    | none => 0

end Sys2Proof.Machine
end

