-- ==== Sys2Proof/Machine/Ops.lean ====
section
/-!
DEFINITION. The named operations over the state that every meaning is built from: sparse tables, time, the
register file, facets and queues, units and ports, LPDDR5X bytes, what leaves the device, posted writes and their
confirmation by flush reads.
-/
namespace Sys2Proof.Machine

/-! ### Sparse tables -/

/-- The entry of key `k`, or the default. -/
def aget {α : Type} (d : α) (k : Nat) (l : Assoc α) : α := ((l.find? (fun p => p.1 == k)).map Prod.snd).getD d

/-- The entry of key `k`, if listed. -/
def agetq {α : Type} (k : Nat) (l : Assoc α) : Option α := (l.find? (fun p => p.1 == k)).map Prod.snd

/-- The table with entry `k` set. -/
def aset {α : Type} (k : Nat) (v : α) : Assoc α → Assoc α
  | [] => [(k, v)]
  | (k', v') :: r => if k < k' then (k, v) :: (k', v') :: r
    else if k = k' then (k, v) :: r else (k', v') :: aset k v r

/-- The table without entry `k`. -/
def adel {α : Type} (k : Nat) (l : Assoc α) : Assoc α := l.filter (fun p => p.1 != k)

/-- The table with entry `k` changed. -/
def amod {α : Type} (d : α) (k : Nat) (g : α → α) (l : Assoc α) : Assoc α := aset k (g (aget d k l)) l

/-- The table with every listed entry changed. -/
def amap {α : Type} (g : Nat → α → α) (l : Assoc α) : Assoc α := l.map (fun p => (p.1, g p.1 p.2))

/-! ### Time (R22, R23) -/

/-- CLK_SVC cycles of a number of microseconds. -/
def us (n : Nat) : Nat := 250 * n

/-- CLK_SVC cycles of a number of milliseconds. -/
def ms (n : Nat) : Nat := 250000 * n

/-- At least `c` cycles have passed since `t` (R22: an interval never ends early). -/
def elapsed (s : State) (t : U64) (c : Nat) : Bool := decide (c ≤ (s.now - t).toNat)

/-! ### Device registers -/

/-- The value of a device register of the register file. -/
def reg (s : State) (off : Nat) : U64 := aget (regReset off) off s.regs

/-- A field of a device register. -/
def regf (s : State) (off hi lo : Nat) : Nat := fld (reg s off) hi lo

/-! ### Units of the part (R1, R9) -/

/-- CAP_UNITS of each variant (R9). -/
def capUnits : Variant → U64
  | .dn7240 => 0x00FF01FFFFFFFFFF
  | .dn7232 => 0x00FF01F5FFFFFFFF
  | .dn7216 => 0x00FF01F00F333333

/-- Link SVLn is present. -/
def hasLink (s : State) (n : Nat) : Bool := decide (n < 24) && bit (capUnits s.part) n
/-- Cluster PRISMk is present. -/
def hasPrism (s : State) (k : Nat) : Bool := decide (k < 8) && bit (capUnits s.part) (24 + k)
/-- The element-program unit is present. -/
def hasEprg (s : State) : Bool := bit (capUnits s.part) 32
/-- The cipher engine is present. -/
def hasCip (s : State) : Bool := bit (capUnits s.part) 33
/-- PCIe port p is present: CAP_UNITS.PCX. -/
def hasPort (s : State) (p : Nat) : Bool := decide (p < 5) && bit (capUnits s.part) (36 + p)
/-- Ethernet port p is present. -/
def hasEth (s : State) (p : Nat) : Bool := decide (p < 2) && bit (capUnits s.part) (34 + p)

/-! ### Facets and queues -/

/-- Facet f. -/
def getF (s : State) (f : Nat) : Facet := aget {} f s.facets
/-- The state with facet f changed. -/
def modF (f : Nat) (g : Facet → Facet) (s : State) : State := { s with facets := amod {} f g s.facets }

/-- SQ or RQ q of facet f. -/
def getQ (s : State) (f : Nat) (rq : Bool) (q : Nat) : Queue :=
  aget {} q (if rq then (getF s f).que.rqs else (getF s f).que.sqs)

/-- The QUE block of a facet with a queue changed. -/
def FacetQue.mod (rq : Bool) (q : Nat) (g : Queue → Queue) (x : FacetQue) : FacetQue :=
  if rq then { x with rqs := amod {} q g x.rqs } else { x with sqs := amod {} q g x.sqs }

/-- The state with a queue changed. -/
def modQ (f : Nat) (rq : Bool) (q : Nat) (g : Queue → Queue) (s : State) : State :=
  modF f (fun x => { x with que := FacetQue.mod rq q g x.que }) s

/-- Event ring e of facet f. -/
def getE (s : State) (f e : Nat) : EvRing := aget {} e (getF s f).que.evrs
/-- The state with an event ring changed. -/
def modE (f e : Nat) (g : EvRing → EvRing) (s : State) : State :=
  modF f (fun x => { x with que := { x.que with evrs := amod {} e g x.que.evrs } }) s

/-- QP qpn. -/
def getQp (s : State) (n : Nat) : Qp := aget {} n s.qps
/-- The state with a QP changed. -/
def modQp (n : Nat) (g : Qp → Qp) (s : State) : State := { s with qps := amod {} n g s.qps }

/-- Group gid. -/
def getG (s : State) (g : Nat) : Group := aget {} g s.groups
/-- The state with a group changed. -/
def modG (g : Nat) (h : Group → Group) (s : State) : State := { s with groups := amod {} g h s.groups }

/-! ### What leaves the device -/

/-- An output appended. -/
def emit (o : Output) (s : State) : State := { s with out := s.out ++ [o] }

/-- Outputs appended in order. -/
def emits (l : List Output) (s : State) : State := { s with out := s.out ++ l }

/-! ### LPDDR5X bytes (R283) -/

/-- What a byte of LPDDR5X that nothing has written reads as (DESIGN CHOICE, log entry 5). -/
def memUnlisted : Byte := 0

/-- One byte of the local address space. -/
def memByte (m : List Host.Cell) (a : Nat) : Byte := ((m.find? (fun c => c.1 == a)).map Prod.snd).getD memUnlisted

/-- The memory without address `a`. -/
def memDrop (a : Nat) (m : List Host.Cell) : List Host.Cell := m.filter (fun c => c.1 != a)

/-- A cell put in its place among rising addresses. -/
def memInsert (a : Nat) (b : Byte) : List Host.Cell → List Host.Cell
  | [] => [(a, b)]
  | c :: r => if a < c.1 then (a, b) :: c :: r else c :: memInsert a b r

/-- One byte written, the canonical form kept. -/
def memSet (a : Nat) (b : Byte) (m : List Host.Cell) : List Host.Cell :=
  if b = memUnlisted then memDrop a m else memInsert a b (memDrop a m)

/-- Bytes written at consecutive addresses. -/
def memWrite : Nat → Bytes → List Host.Cell → List Host.Cell
  | _, [], m => m
  | a, b :: bs, m => memWrite (a + 1) bs (memSet a b m)

/-- `n` bytes read from consecutive addresses. -/
def memRead (m : List Host.Cell) (a n : Nat) : Bytes := (List.range n).map (fun i => memByte m (a + i))

/-- The canonical form: addresses strictly rising, no cell equal to what an unlisted address reads as. -/
def memWf (m : List Host.Cell) : Bool :=
  decide (List.Pairwise (fun a b => a.1 < b.1) m) && m.all (fun c => decide (c.2 ≠ memUnlisted))

/-! ### Ports (R289 to R304) -/

/-- A port by key: 0 upstream, 1 to 4 downstream or its half A, 4 + p half B of port p. -/
def getP (s : State) (k : Nat) : Port := aget {} k s.pcx.ports
/-- The state with a port changed. -/
def modP (k : Nat) (g : Port → Port) (s : State) : State :=
  { s with pcx := { s.pcx with ports := amod {} k g s.pcx.ports } }

/-- Downstream port p (1 to 4) is split into halves (PCX_DEV_PORTCFG.BIFUR). -/
def bifurcated (s : State) (p : Nat) : Bool := decide (1 ≤ p ∧ p ≤ 4) && bit (reg s 0xF480) p

/-- An address lies in a bridge's memory window. -/
def inBridge (s : State) (dev : Nat) (a : U64) : Bool :=
  let b := aget {} dev s.pcx.bridges
  decide (b.lo ≤ a ∧ a ≤ b.hi)

/-- R291: the half of a bifurcated port that an address of the device's own request goes to. -/
def toHalfB (s : State) (target : Nat) (a : U64) : Bool :=
  bifurcated s target && !inBridge s (2 * (target - 1)) a && inBridge s (2 * (target - 1) + 1) a

/-- R291: an address of a bifurcated port in neither half's window. -/
def noHalf (s : State) (target : Nat) (a : U64) : Bool :=
  bifurcated s target && !inBridge s (2 * (target - 1)) a && !inBridge s (2 * (target - 1) + 1) a

/-- The port key of a half. -/
def portKey (target : Nat) (halfB : Bool) : Nat := if halfB then 4 + target else target

/-- The pseudo-port of LPDDR5X, whose writes the memory controllers confirm (R105). -/
def lpddr : Nat := 9

/-- The port key that a request of the device goes to. -/
def keyFor (s : State) (target : Nat) (a : U64) : Nat :=
  if target = 5 then lpddr else portKey target (toHalfB s target a)

/-- R302, R304: work of facet f for a port is released: the port is up and, upstream, Bus Master Enable is set and
the epoch has been read through the facet's page; downstream, the management facet has read the port's epoch. -/
def released (s : State) (f k : Nat) : Bool :=
  if k = lpddr then true
  else if k = 0 then (getP s 0).up && (getF s f).pcx.bme && (getF s f).pcx.epochRead
  else (getP s k).up && (getP s k).epochRead

/-! ### Posted writes and flush reads (R105, R294, R302) -/

/-- A write of `n` bytes of LPDDR5X at `a` clears the poison of every line it covers whole (R286). -/
def clearPoison (a n : Nat) (s : State) : State :=
  { s with memc := { s.memc with poisoned := s.memc.poisoned.filter (fun l => !(decide (a ≤ l * 256) &&
      decide (l * 256 + 256 ≤ a + n))) } }

/-- A write of LPDDR5X. -/
def memStore (a : Nat) (bs : Bytes) (s : State) : State :=
  clearPoison a bs.length { s with mem := memWrite a bs s.mem }

/-- The lowest byte of agent a's part of the Lantern and agent memory region (R418; log entry 71). -/
def agentBase (s : State) (a : Nat) : Nat := s.memc.regions.getD 5 0 + a * (s.boot.image.mem.lantern / 6) * 2 ^ 20

/-- The agent's verified object is copied to its part of the memory (R417, R388, R419), as far as its MEM_MIB go (log
entry 71). -/
def copyAgent (e : AgentEntry) (s : State) : State :=
  memStore (agentBase s e.index) (e.object.take (e.memMib * 2 ^ 20)) s

/-- OVH_PCX (R128). -/
def ovhPcx (s : State) : Nat := regf s 0xC100 31 24

/-- The port or bifurcated port that a port key belongs to. -/
def portOf (k : Nat) : Nat := if k ≤ 4 then k else k - 4

/-- A transaction joins its queue at port k's egress, charged its data payload and OVH_PCX (R127, R144). -/
def sendTlp (k cls len : Nat) (out : Output) (np : Option NpFor) (posted ro : Bool) (s : State) : State :=
  modP k (fun p => { p with egress := p.egress ++ [{
    cls := cls, charge := len + ovhPcx s, out := out, np := np, posted := posted, ro := ro }] }) s

/-- The egress queue of a posted write: QUE for write-backs, records, events and fault queue entries, MOVER for the bulk
mover, XFER for transport and collective placements (R144). -/
def PlaceFor.cls : PlaceFor → Nat
  | .mover _ _ => 2
  | .mig _ _ _ => 2
  | .writeBack _ _ _ _ => 3
  | .record _ _ _ => 3
  | .event _ _ => 3
  | .other => 3
  | _ => 1

/-- The placements on which Relaxed Ordering may be set: data and mover destinations (R294). -/
def PlaceFor.data : PlaceFor → Bool
  | .writeBack _ _ _ _ => false
  | .record _ _ _ => false
  | .event _ _ => false
  | .other => false
  | _ => true

/-- A write is put on its way: LPDDR5X is written, a port's egress gets the posted write, and it waits for
confirmation; one in neither half's window of a bifurcated port goes nowhere (DESIGN CHOICE, log entry 76). -/
def issue (k : Nat) (what : PlaceFor) (w : PWrite) (s : State) : State :=
  let s := if w.target = 5 then memStore w.addr.toNat w.bytes s
    else if noHalf s w.target w.addr then s
    else sendTlp k what.cls w.bytes.length (.pwrite w) none true w.ro s
  modP k (fun p => { p with unconf := p.unconf ++ [{ what := what, write := w }] }) s

/-- A flush read is issued on a port that has unconfirmed writes and no flush in flight (R105); it leaves behind them. -/
def flushNow (k : Nat) (s : State) : State :=
  let p := getP s k
  if k = lpddr || p.flushing || p.flushFailAt.isSome || p.unconf.isEmpty || !p.up then s
  else sendTlp k 1 0 (.flush (portOf k) (decide (4 < k))) (some .flush) false false
    (modP k (fun p => { p with flushing := true, unconf := p.unconf.map (fun u => { u with covered := true }) }) s)

/-- Work held for a port: in the facet for the upstream port, in the port otherwise (R302, R304). -/
def hold (f k : Nat) (h : Held) (s : State) : State :=
  if k = 0 then modF f (fun x => { x with pcx := { x.pcx with held := x.pcx.held ++ [h] } }) s
  else modP k (fun p => { p with held := p.held ++ [h] }) s

/-- One posted write of the device on behalf of facet f: issued with a flush behind it, or held for its port. -/
def postOne (f : Nat) (what : PlaceFor) (target : Nat) (a : U64) (bs : Bytes) (s : State) : State :=
  let k := keyFor s target a
  let ro := what.data && bit (reg s 0xF480) (5 + target) && (getF s f).pcx.roOn
  let w : PWrite := { target := target, halfB := decide (4 < k ∧ k ≠ lpddr), facet := f, addr := a, bytes := bs, ro := ro }
  if released s f k then flushNow k (issue k what w s) else hold f k (.place what w) s

/-- Writes at translated places, in order. -/
def postAll (f : Nat) (what : PlaceFor) (ws : List (Nat × U64 × Bytes)) (s : State) : State :=
  ws.foldl (fun s w => postOne f what w.1 w.2.1 w.2.2 s) s

/-- Some write of this work is neither confirmed nor off the hold lists. -/
def stillOut (s : State) (what : PlaceFor) : Bool :=
  s.pcx.ports.any (fun p => p.2.unconf.any (fun u => decide (u.what = what)) ||
    p.2.held.any (fun h => match h with | .place x _ => decide (x = what) | _ => false)) ||
  s.facets.any (fun x => x.2.pcx.held.any (fun h => match h with | .place y _ => decide (y = what) | _ => false))

/-- Writes that are void, behind whatever port: those on their way confirm nothing any more, held ones are dropped
(R105, R120). -/
def voidWrites (ws : List PlaceFor) (s : State) : State :=
  let keep : List Held → List Held := fun l => l.filter (fun h => match h with | .place x _ => !ws.contains x | _ => true)
  { s with
    pcx := { s.pcx with ports := amap (fun _ p => { p with
      unconf := p.unconf.map (fun u => if ws.contains u.what then { u with what := .void } else u)
      held := keep p.held }) s.pcx.ports }
    facets := amap (fun _ x => { x with pcx := { x.pcx with held := keep x.pcx.held } }) s.facets }

/-- The egress queue of a read (R144). -/
def NpFor.cls : NpFor → Nat
  | .fetch _ _ _ => 3
  | .source (.mover _) => 2
  | .mig _ _ _ => 2
  | _ => 1

/-- A read that the device issues (R294); `np`: what its completion serves, none where the command that issues it carries
what it returns. One in neither half's window of a bifurcated port reaches no device and fails (R291). -/
def readOut (np : Option NpFor) (f target : Nat) (a : U64) (len : Nat) (s : State) : State :=
  if target = 5 || noHalf s target a then s
  else sendTlp (keyFor s target a) ((np.map NpFor.cls).getD 1) 0 (.pread target (toHalfB s target a) f a len) np false
    false s

/-- The reads for one piece of work are answered, or wanted no more. -/
def readsEnd (np : NpFor) (s : State) : State :=
  { s with pcx := { s.pcx with ports := amap (fun _ p => { p with
      reads := p.reads.filter (fun r => decide (r.1 ≠ np))
      egress := p.egress.filter (fun x => decide (x.np ≠ some np)) }) s.pcx.ports } }

/-! ### MSI-X (R292, R302) -/

/-- Entry `vec` of function f's MSI-X table. -/
def msixEntry (s : State) (f vec : Nat) : MsixEntry := aget {} vec (getF s f).pcx.table

/-- One byte of an MSI-X table at a byte offset: address, data, and the Mask bit of Vector Control. -/
def msixByte (off : Nat) (b : Byte) (t : Assoc MsixEntry) : Assoc MsixEntry :=
  let put := fun (i x : Nat) => x - x / 2 ^ (8 * i) % 256 * 2 ^ (8 * i) + b.toNat * 2 ^ (8 * i)
  amod {} (off / 16) (fun m =>
    let i := off % 16
    if i < 8 then { m with addr := BitVec.ofNat 64 (put i m.addr.toNat) }
    else if i < 12 then { m with data := BitVec.ofNat 32 (put (i - 8) m.data.toNat) }
    else if i = 12 then { m with control := BitVec.ofNat 32 (b.toNat % 2) }
    else m) t

/-- The vector waits in the function's PBA. -/
def msixWaits (f vec : Nat) (s : State) : State :=
  modF f (fun x => { x with pcx := { x.pcx with pba := if x.pcx.pba.contains vec then x.pcx.pba
    else x.pcx.pba ++ [vec] } }) s

/-- A facet's MSI-X message goes out, or waits in its PBA while its port is held, MSI-X is disabled or the vector is
masked. -/
def sendMsix (f vec : Nat) (s : State) : State :=
  let m := msixEntry s f vec
  if released s f 0 && (getF s f).pcx.msixOn && !bit m.control 0 then
    sendTlp 0 3 4 (.msix f vec m.addr m.data) none true false s
  else msixWaits f vec s

/-- The messages pending in a facet's PBA are sent, one per vector, as far as they may. -/
def sendPba (f : Nat) (s : State) : State :=
  ((getF s f).pcx.pba).foldl (fun s v => sendMsix f v s) (modF f (fun x => { x with pcx := { x.pcx with pba := [] } }) s)

/-! ### Mirror (R29, R107, R119, R346, R453, R315, R375) -/

/-- A Mirror write is issued; MIRROR_WRITE_DONE completes it. -/
def mirrorIssue (k : MirrorKey) (s : State) : State :=
  if s.mirror.pendDone.contains k then s
  else { s with mirror := { s.mirror with pendDone := s.mirror.pendDone ++ [k] } }

/-- `k` draws from the entropy source are taken: free values, and requests of the DRBG (R351). -/
def drew (k : Nat) (s : State) : State :=
  { s with free := s.free + k, trust := { s.trust with drbgCount := s.trust.drbgCount + k } }

/-- A count of a facet or device counter, which wraps. -/
def inc32 (c : U32) : U32 := c + 1

/-- Neither Umbra nor Glimmer nor scan test stops the device (R341, R393, R428). -/
def awake (s : State) : Bool :=
  decide (s.err.mode ≠ .umbra) && decide (s.pwr.st ≠ .glimmer) && decide (s.pwr.st ≠ .glimmerEntry) && !s.cip.scan

/-- The device runs: boot is over, or its stages 8 and 9 run, in which restored work already proceeds (R410). -/
def running (s : State) : Bool :=
  (decide (s.boot.run = .running) || (decide (s.boot.run = .boot) && decide (8 ≤ s.boot.stage))) && awake s

/-- The links have left DISABLED: boot stage 6 is over (R248, R410). -/
def fabricUp (s : State) : Bool :=
  (decide (s.boot.run = .running) || (decide (s.boot.run = .boot) && decide (7 ≤ s.boot.stage))) && awake s

/-! ### Who reaches a facet's page (R292, R418) -/

/-- What an address of an agent core names: a place of a facet's page, of a page of its push group, or of the agent's own
memory. -/
inductive CoreAddr where
  | page (f off : Nat)
  | push (f q off : Nat)
  | own (off : Nat)
deriving DecidableEq, Repr

/-- The address map of an agent core (R418). -/
def coreAddr (memMib addr : Nat) : Option CoreAddr :=
  if 0x10000000 ≤ addr ∧ addr < 0x10000000 + 128 * 0x10000 then
    some (.page ((addr - 0x10000000) / 0x10000) ((addr - 0x10000000) % 0x10000))
  else if 0x20000000 ≤ addr ∧ addr < 0x20000000 + 128 * 0x100000 then
    some (.push ((addr - 0x20000000) / 0x100000) ((addr - 0x20000000) % 0x100000 / 0x1000) ((addr - 0x20000000) % 0x1000))
  else if 0x80000000 ≤ addr ∧ addr < 0x80000000 + memMib * 2 ^ 20 then some (.own (addr - 0x80000000))
  else none

/-- What a running agent's access of a core address reaches: a page or push group only of a facet it holds. -/
def agentReach (s : State) (a addr : Nat) : Option CoreAddr :=
  let x : Agent := aget {} a s.boot.agents
  let holds := fun (f : Nat) => bit x.entry.facets f
  if x.st ≠ 1 then none
  else match coreAddr x.entry.memMib addr with
    | some (.page f off) => if holds f then some (.page f off) else none
    | some (.push f q off) => if holds f then some (.push f q off) else none
    | some (.own off) => some (.own off)
    | none => none

/-- The register page and offset that an access of offset `off` of facet f's page reaches, if any (R2, R292, R418). -/
def pageReach (s : State) (src : Source) (f off : Nat) : Option (Nat × Nat) :=
  match src with
  | .bar => some (f, off)
  | .vf g => if g = f then some (f, off) else none
  | .agent a => match agentReach s a (0x10000000 + f * 0x10000 + off) with
    | some (.page f o) => some (f, o)
    | _ => none

/-- The push page and offset that an access of offset `off` of push page q of facet f reaches, if any. -/
def pushReach (s : State) (src : Source) (f q off : Nat) : Option (Nat × Nat × Nat) :=
  match src with
  | .bar => some (f, q, off)
  | .vf g => if g = f then some (f, q, off) else none
  | .agent a => match agentReach s a (0x20000000 + f * 0x100000 + q * 0x1000 + off) with
    | some (.push f q o) => some (f, q, o)
    | _ => none

/-- A meaning's effect if the guard holds, and none otherwise. -/
def when (c : Bool) (g : State → State) (s : State) : State := if c then g s else s

/-- R425 held until now: the idle interval of Rest begins again. -/
def noteBusy (s : State) : State := { s with pwr := { s.pwr with idleAt := s.now } }

/-- OWN_ID. -/
def ownId (s : State) : BitVec 24 := BitVec.ofNat 24 (regf s 0xE000 23 0)
/-- HOP_RETRY. -/
def hopRetry (s : State) : Bool := bit (reg s 0xE000) 48

/-- The link word that link n sends, with this side's values (R231). -/
def linkWord (s : State) (lstate lpreq n : Nat) : Output :=
  .linkWord n (BitVec.ofNat 40 (lstate + lpreq * 2 ^ 4 + (ownId s).toNat * 2 ^ 6 + n / 4 * 2 ^ 30 + n % 4 * 2 ^ 33 +
    b2n (hopRetry s) * 2 ^ 35))

/-- An abandoned Rest entry (R427): every link that step 2 put to SLEEP is sent LPREQ 3, requests not granted lapse,
and collective control assigns chunks again. -/
def abandonRest (s : State) : State :=
  let slept := s.pwr.asked.filter (fun n => decide ((aget {} n s.fab.links).st = .sleep))
  let s := emits (slept.map (linkWord s 3 3)) s
  let links := amap (fun n l =>
      if slept.contains n then { l with st := .align, since := s.now }
      else if s.pwr.asked.contains n then { l with asked := false, granted := false }
      else l) s.fab.links
  { s with
    fab := { s.fab with links := links }
    pwr := { s.pwr with st := .active, idleAt := s.now, asked := [], aborts := s.pwr.aborts + 1 }
    prism := { s.prism with assigning := true } }

/-- A Rest wake (R424, R426, R427): step 2 of Rest entry is abandoned at once; in Rest collective control assigns
chunks again and the Prism clusters power up. -/
def restWake (s : State) : State :=
  match s.pwr.st with
  | .restEntry => abandonRest s
  | .rest => { s with
      pwr := { s.pwr with st := .active, idleAt := s.now }, prism := { s.prism with assigning := true, powering := true } }
  | .active => noteBusy s
  | .glimmerEntry => s
  | .glimmer => s

end Sys2Proof.Machine
end

