-- ==== Sys2Proof/Machine/Segs.lean ====
section
/-!
DEFINITION. Segments and tiles: the range check (R262), the permissions of each use (R263), access pieces and
their translation (R265 to R270), the fault queue and its records (R271 to R275), parked streams (R269).
-/
namespace Sys2Proof.Machine

/-- The four kinds of access (R262). -/
inductive Acc where
  | lrd | lwr | rrd | rwr
deriving DecidableEq, Repr, Inhabited

/-- The permission bit of a kind. -/
def Seg.perm (g : Seg) : Acc → Bool
  | .lrd => g.lrd
  | .lwr => g.lwr
  | .rrd => g.rrd
  | .rwr => g.rwr

/-- Segment n of facet f. -/
def getSeg (s : State) (f n : Nat) : Seg := aget {} n (getF s f).xlt.segs

/-- R262's range_ok, for len at least 1. -/
def rangeOk (off len limit : Nat) : Bool := decide (off ≤ limit) && decide (len - 1 ≤ limit - off)

/-- R262: the range check of an access; an access of length 0 is never checked. -/
def rangeCheck (s : State) (f seg : Nat) (off : U64) (len : Nat) (k : Acc) (rkey : Option U32) : Bool :=
  let g := getSeg s f seg
  decide (len = 0) || (g.valid && Seg.perm g k && rangeOk off.toNat len g.limit.toNat &&
    (match rkey with | some key => decide (key = g.key) | none => true))

/-- R263: a use that needs a PIN segment with given permissions over its whole extent. -/
def pinCheck (s : State) (f seg : Nat) (off : U64) (len : Nat) (ks : List Acc) : Bool :=
  (getSeg s f seg).pin && ks.all (fun k => rangeCheck s f seg off len k none)

/-- A piece of a PIN segment: its target and address. -/
def pinPlace (s : State) (f seg : Nat) (off : U64) : Nat × U64 :=
  let g := getSeg s f seg
  (g.target.toNat, g.base + off)

/-- The device's own write into a PIN segment of facet f: rings, records, entries, write-backs. -/
def postPin (f seg : Nat) (off : U64) (what : PlaceFor) (bs : Bytes) (s : State) : State :=
  let (t, a) := pinPlace s f seg off
  postOne f what t a bs s

/-- The port key of a place in a PIN segment. -/
def pinKey (s : State) (f seg : Nat) (off : U64) : Nat :=
  let (t, a) := pinPlace s f seg off
  keyFor s t a

/-! ### Access pieces and tiles -/

/-- An access cut at 4 KiB boundaries of segment offset (R266): offsets and lengths. -/
def cutPieces : Nat → Nat → Nat → List (Nat × Nat)
  | 0, _, _ => []
  | fuel + 1, off, len => if len = 0 then [] else
    let n := min len (4096 - off % 4096)
    (off, n) :: cutPieces fuel (off + n) (len - n)

/-- The pieces of an access. -/
def piecesOf (off len : Nat) : List (Nat × Nat) := cutPieces (len / 4096 + 2) off len

/-- The bytes of a tile (2 MiB). -/
def tileBytes : Nat := 2097152

/-- The key of a tile record. -/
def tileKey (f seg t : Nat) : Nat := (f * 256 + seg) * 2 ^ 23 + t

/-- The record that a segment WRITE gives tile t (R265). -/
def freshTile (g : Seg) (t : Nat) : Tile := { loc := g.target, addr := g.base + BitVec.ofNat 64 (t * tileBytes) }

/-- The record of tile t. -/
def getTile (s : State) (f seg t : Nat) : Tile := aget (freshTile (getSeg s f seg) t) (tileKey f seg t) s.xlt.tiles

/-- The state with a tile record set. -/
def setTile (f seg t : Nat) (x : Tile) (s : State) : State :=
  { s with xlt := { s.xlt with tiles := aset (tileKey f seg t) x s.xlt.tiles } }

/-- The number of tiles of a segment. -/
def segTiles (g : Seg) : Nat := if g.valid then g.limit.toNat / tileBytes + 1 else 0

/-- The length of tile t: the last tile ends at LIMIT. -/
def tileLen (g : Seg) (t : Nat) : Nat := min tileBytes (g.limit.toNat + 1 - t * tileBytes)

/-- XLT_FAC_TILES.USED. -/
def tilesUsed (s : State) (f : Nat) : Nat := ((getF s f).xlt.segs.map (fun x => segTiles x.2)).foldl (· + ·) 0

/-! ### The fault queue (R271) -/

/-- FLT_CFG.EN. -/
def fltEn (s : State) : Bool := bit s.xlt.fltCfg 20

/-- Free slots of the fault queue. -/
def fltFree (s : State) : Nat := 4096 - (s.xlt.fltProd - s.xlt.fltCons).toNat

/-- FLT_ARM's rule: armed, enabled and not empty sends the vector and disarms. -/
def fltSignal (s : State) : State :=
  if bit s.xlt.fltCfg 19 && s.xlt.fltArmed && decide (s.xlt.fltProd ≠ s.xlt.fltCons) then
    sendMsix 0 (fld s.xlt.fltCfg 18 8) { s with xlt := { s.xlt with fltArmed := false } }
  else s

/-- One entry of 32 bytes written at PROD. -/
def fltWrite (w0 w1 w2 src : Nat) (s : State) : State :=
  let i := s.xlt.fltProd
  let seg := fld s.xlt.fltCfg 7 0
  let off := s.xlt.fltOff + BitVec.ofNat 64 (i.toNat % 4096 * 32)
  let bs := toLE 8 w0 ++ toLE 8 w1 ++ toLE 8 w2 ++ toLE 8 (i.toNat + src * 2 ^ 32)
  let s := postPin 0 seg off .other bs s
  fltSignal { s with xlt := { s.xlt with fltProd := i + 1 } }

/-- Word 0 of an entry. -/
def fltWord0 (kind : Nat) (wr : Bool) (f seg t : Nat) (loc : BitVec 3) : Nat :=
  kind + b2n wr * 2 ^ 4 + f * 2 ^ 5 + seg * 2 ^ 12 + t * 2 ^ 20 + loc.toNat * 2 ^ 43

/-- R266's count_piece on a record; the flag says that a hot entry is due. -/
def countPiece (s : State) (x : Tile) : Tile × Bool :=
  let e : U16 := BitVec.ofNat 16 (s.now.toNat / (250000 * 2 ^ regf s 0xF100 11 8))
  let k := (e - x.epoch).toNat
  let c := if 8 ≤ k then 0 else x.count.toNat / 2 ^ k
  let c := if c < 255 then c + 1 else c
  ({ x with count := BitVec.ofNat 8 c, epoch := e },
   decide (regf s 0xF100 12 12 = 1) && !x.hot && decide (regf s 0xF100 7 0 ≤ c))

/-- A counted piece of a present tile (R266, R267). -/
def countTile (f seg t : Nat) (s : State) : State :=
  let (x, due) := countPiece s (getTile s f seg t)
  if due && fltEn s && decide (256 ≤ fltFree s) then
    fltWrite (fltWord0 2 false f seg t x.loc) 0 (t * tileBytes) 0 (setTile f seg t { x with hot := true } s)
  else setTile f seg t x s

/-! ### The translation cache (R268) -/

/-- A tile record is in the cache. -/
def resident (s : State) (key : Nat) : Bool := s.xlt.cache.contains key

/-- The cached copies of an evicted record go back to the pool. -/
def evictTile (s : State) (key : Nat) : State :=
  { s with xlt := { s.xlt with tiles := s.xlt.tiles.map (fun p => if p.1 = key then
      (p.1, { p.2 with poolCount := p.2.count, poolEpoch := p.2.epoch, poolHot := p.2.hot }) else p) } }

/-- A record enters the cache; the least recently used leaves when 16,384 are held. -/
def makeResident (key : Nat) (s : State) : State :=
  let c := s.xlt.cache.filter (· ≠ key)
  if 16384 ≤ c.length then
    let s := evictTile s (c.headD 0)
    { s with xlt := { s.xlt with cache := c.tail ++ [key] } }
  else { s with xlt := { s.xlt with cache := c ++ [key] } }

/-- A hit makes the record the most recently used. -/
def touchTile (key : Nat) (s : State) : State :=
  { s with xlt := { s.xlt with cache := s.xlt.cache.filter (· ≠ key) ++ [key] } }

/-- Misses now in flight. -/
def missesFlying (s : State) : Nat := (s.xlt.misses.filter (·.flying)).length

/-- A stream's miss: in flight while fewer than 64 are, otherwise waiting for one (R268). -/
def addMiss (p : Piece) (s : State) : State :=
  if s.xlt.misses.any (fun m => decide (m.piece.stream = p.stream)) then s
  else { s with xlt := { s.xlt with
    miss := s.xlt.miss + 1
    misses := s.xlt.misses ++ [{ piece := p, flying := decide (missesFlying s < 64) }] } }

/-! ### Faults and parked streams (R269 to R275) -/

/-- The place of a stream in R269's table, 1 to 5. A descriptor of facet 0 that accesses memory itself and the raw RQ
are in none of its rows (DESIGN CHOICE, log entry 74). -/
def streamNo : Stream → Option Nat
  | .source _ => some 1
  | .responder _ => some 2
  | .readResp _ => some 3
  | .coll _ _ => some 4
  | .mover _ => some 5
  | .desc _ => none
  | .raw => none

/-- The place of a stream in the round robin of waiting misses (DESIGN CHOICE, log entry 75). -/
def streamKey : Stream → Nat
  | .source n => n * 8 + 1
  | .responder n => n * 8 + 2
  | .readResp n => n * 8 + 3
  | .coll gid m => (gid * 65536 + m) * 8 + 4
  | .mover c => c * 8 + 5
  | .desc q => q * 8 + 6
  | .raw => 7

/-- A stream that waits on a fault record, holds a fault, or waits for a migration. -/
def parkedStream (s : State) (st : Stream) : Bool :=
  s.xlt.recs.any (fun r => r.2.waiters.any (fun p => decide (p.stream = st))) ||
  s.xlt.heldFaults.any (fun p => decide (p.stream = st)) ||
  s.xlt.migs.any (fun m => m.parked.any (fun p => decide (p.stream = st)))

/-- A stream that waits for a tile record or is parked. -/
def streamBusy (s : State) (st : Stream) : Bool :=
  parkedStream s st || s.xlt.misses.any (fun m => decide (m.piece.stream = st))

/-- A stream whose operation has ended waits for nothing any more. -/
def dropWaits (st : Stream) (s : State) : State :=
  { s with xlt := { s.xlt with
    misses := s.xlt.misses.filter (fun m => decide (m.piece.stream ≠ st))
    recs := amap (fun _ r => { r with waiters := r.waiters.filter (fun p => decide (p.stream ≠ st)) }) s.xlt.recs
    heldFaults := s.xlt.heldFaults.filter (fun p => decide (p.stream ≠ st))
    begun := s.xlt.begun.filter (fun p => decide (p.stream ≠ st))
    migs := s.xlt.migs.map (fun m => { m with parked := m.parked.filter (fun p => decide (p.stream ≠ st)) }) } }

/-- The tile of a piece. -/
def Piece.tile (p : Piece) : Nat := p.off.toNat / tileBytes

/-- The open record of a piece's tile. -/
def openRec (s : State) (p : Piece) : Option Nat :=
  (s.xlt.recs.find? (fun r => r.2.facet = p.facet ∧ r.2.seg = p.seg ∧ r.2.tile = Piece.tile p)).map Prod.fst

/-- A free record number, if there is one: which one is a free value (R272). -/
def freeRec (s : State) : Option Nat :=
  if s.xlt.recs.length < 4096 then
    some (nthFree (Config.pickRecord s.free % (4096 - s.xlt.recs.length)) (s.xlt.recs.map Prod.fst))
  else none

/-- The generation of record k (R272). -/
def recGen (s : State) (k : Nat) : BitVec 19 := aget 0 k s.xlt.gens

/-- A record is freed and its generation incremented (R272). -/
def dropRec (k : Nat) (s : State) : State :=
  { s with xlt := { s.xlt with recs := adel k s.xlt.recs, gens := aset k (recGen s k + 1) s.xlt.gens } }

/-- Pieces whose streams hold their faults (R272). -/
def holdFaults (ps : List Piece) (s : State) : State :=
  { s with xlt := { s.xlt with
    heldFaults := s.xlt.heldFaults ++ ps, fltOverflow := s.xlt.fltOverflow + BitVec.ofNat 32 ps.length } }

/-- Pieces that fault on the tile of `p`, the first of them, in one cycle: they join its open record, open one with one
FAULT entry, or hold their faults (R272, R276). -/
def raiseFaults (p : Piece) (ps : List Piece) (s : State) : State :=
  match openRec s p with
  | some k => { s with xlt := { s.xlt with
      recs := amod default k (fun r => { r with waiters := r.waiters ++ ps }) s.xlt.recs } }
  | none =>
    match freeRec s with
    | some k =>
      if fltEn s && decide (0 < fltFree s) then
        let t := Piece.tile p
        let x := getTile s p.facet p.seg t
        let tag := k + (recGen s k).toNat * 2 ^ 12
        let src := (streamNo p.stream).getD ((Config.freeByte (s.free + 1)).toNat % 16)
        let s := { s with
          free := s.free + 2
          xlt := { s.xlt with recs := aset k { facet := p.facet, seg := p.seg, tile := t, waiters := ps } s.xlt.recs } }
        fltWrite (fltWord0 1 p.isWrite p.facet p.seg t x.loc) (tag + min 65535 ps.length * 2 ^ 32) p.off.toNat src s
      else holdFaults ps s
    | none => holdFaults ps s

/-- Pieces of one tile that fault are counted in their facet (XLT_FAC_FAULTS) and raised. -/
def takeFaults (ps : List Piece) (s : State) : State :=
  match ps with
  | [] => s
  | p :: _ => raiseFaults p ps (modF p.facet (fun x => { x with xlt := { x.xlt with
      faults := x.xlt.faults + BitVec.ofNat 32 ps.length } }) s)

/-- A piece of a tile that migrates parks on the migration (R270). -/
def parkOnMig (p : Piece) (s : State) : State :=
  { s with xlt := { s.xlt with migs := s.xlt.migs.map (fun m =>
      if m.facet = p.facet ∧ m.seg = p.seg ∧ m.tile = Piece.tile p ∧ 1 ≤ m.phase then
        { m with parked := m.parked ++ [p] } else m) } }

/-- What translating an access gives: the places of its pieces in order, as far as they go; how many of them an earlier
attempt issued; and whether no piece waits. -/
structure Trans where
  places : List (Nat × U64 × Nat) := []
  old : Nat := 0
  full : Bool := true
deriving DecidableEq, Repr, Inhabited

/-- The pieces to be issued now (R270). -/
def Trans.fresh (t : Trans) : List (Nat × U64 × Nat) := t.places.drop t.old

/-- The stream's access has no piece behind it. -/
def clearBegun (st : Stream) (s : State) : State :=
  { s with xlt := { s.xlt with begun := s.xlt.begun.filter (fun p => decide (p.stream ≠ st)) } }

/-- The stream's access waits at a piece: those before it have been translated and counted (R270). -/
def markBegun (p : Piece) (s : State) : State :=
  { s with xlt := { s.xlt with begun := s.xlt.begun.filter (fun x => decide (x.stream ≠ p.stream)) ++ [p] } }

/-- Where an access goes on that waited at one of its pieces: the offset of that piece. -/
def begunAt (s : State) (p : Piece) (len : Nat) : Nat :=
  match s.xlt.begun.find? (fun x => decide (x.stream = p.stream ∧ x.facet = p.facet ∧ x.seg = p.seg ∧ x.isWrite = p.isWrite)) with
  | some x => if p.off.toNat ≤ x.off.toNat ∧ x.off.toNat < p.off.toNat + len then x.off.toNat else 0
  | none => 0

/-- The pieces of an access translated in order (R266, R268, R270); those below `done` were translated and issued before
the stream waited. A piece whose record is not resident misses, one of a migrating tile parks, one of a tile not present
faults. -/
def transPieces (st : Stream) (psn : U32) (f seg : Nat) (wr : Bool) (done : Nat) :
    List (Nat × Nat) → Trans → State → State × Trans
  | [], t, s => (clearBegun st s, t)
  | (o, n) :: r, t, s =>
    let k := o / tileBytes
    let x := getTile s f seg k
    let p : Piece := { stream := st, facet := f, seg := seg, off := BitVec.ofNat 64 o, isWrite := wr, psn := psn }
    if !resident s (tileKey f seg k) then (addMiss p (markBegun p s), { t with full := false })
    else if x.migrating then (parkOnMig p (markBegun p s), { t with full := false })
    else if !x.present then (takeFaults [p] (markBegun p s), { t with full := false })
    else
      let s := touchTile (tileKey f seg k) (if o < done then s else countTile f seg k s)
      transPieces st psn f seg wr done r { t with
        places := t.places ++ [(x.loc.toNat, x.addr + BitVec.ofNat 64 (o % tileBytes), n)]
        old := t.old + (if o < done then 1 else 0) } s

/-- One range of an access translated behind what `t` holds; its pieces below `done` were issued before. -/
def transRange (st : Stream) (psn : U32) (f seg : Nat) (off : U64) (len : Nat) (wr : Bool) (done : Nat) (t : Trans)
    (s : State) : State × Trans :=
  let g := getSeg s f seg
  let ps := piecesOf off.toNat len
  if g.pin then
    (s, { t with
      places := t.places ++ ps.map (fun (o, n) => (g.target.toNat, g.base + BitVec.ofNat 64 o, n))
      old := t.old + (ps.filter (fun x => decide (x.1 < done))).length })
  else transPieces st psn f seg wr done ps t s

/-- An access of a stream translated (R265 to R270). -/
def translate (st : Stream) (psn : U32) (f seg : Nat) (off : U64) (len : Nat) (wr : Bool) (s : State) : State × Trans :=
  let p : Piece := { stream := st, facet := f, seg := seg, off := off, isWrite := wr, psn := psn }
  transRange st psn f seg off len wr (begunAt s p len) {} s

/-- The ranges (segment, offset, length) of an access translated in order, each with what was issued of it before. -/
def transAll (st : Stream) (f : Nat) (wr : Bool) : List ((Nat × U64 × Nat) × Nat) → Trans → State → State × Trans
  | [], t, s => (s, t)
  | ((seg, off, len), done) :: r, t, s =>
    match transRange st 0 f seg off len wr done t s with
    | (s, t) => if t.full then transAll st f wr r t s else (s, t)

/-- An access made of several ranges translated: those before the one at which it waited were issued whole. -/
def transRanges (st : Stream) (f : Nat) (wr : Bool) (l : List (Nat × U64 × Nat)) (s : State) : State × Trans :=
  let at_ := l.map (fun (seg, off, len) =>
    begunAt s { stream := st, facet := f, seg := seg, off := off, isWrite := wr } len)
  let behind := if at_.all (fun d => decide (d = 0)) then 0 else at_.findIdx (fun d => decide (d ≠ 0))
  transAll st f wr ((l.zip at_).zipIdx.map (fun (x, i) => (x.1, if i < behind then 2 ^ 64 else x.2))) {} s

/-- Parked pieces of one tile translated again as their record or migration lets them go (R274, R275): on a tile still
not present they fault again, in one cycle. -/
def retranslate (ps : List Piece) (s : State) : State :=
  match ps with
  | [] => s
  | p :: _ =>
    let x := getTile s p.facet p.seg (Piece.tile p)
    if x.migrating then ps.foldl (fun s p => parkOnMig p s) s else if !x.present then takeFaults ps s else s

/-- Bytes dealt to translated places in order. -/
def dealBytes : List (Nat × U64 × Nat) → Bytes → List (Nat × U64 × Bytes)
  | [], _ => []
  | (t, a, n) :: r, bs => (t, a, bs.take n) :: dealBytes r (bs.drop n)

/-- Reads of translated places, issued in order. -/
def readAll (np : Option NpFor) (f : Nat) (l : List (Nat × U64 × Nat)) (s : State) : State :=
  l.foldl (fun s x => readOut np f x.1 x.2.1 x.2.2 s) s

/-- The writes of an access's pieces that are due now. -/
def Trans.writes (t : Trans) (bs : Bytes) : List (Nat × U64 × Bytes) := (dealBytes t.places bs).drop t.old

/-- What the source read of translated places returns: LPDDR5X from memory, the rest from the bytes supplied. -/
def gather : List (Nat × U64 × Nat) → Bytes → List Host.Cell → Bytes
  | [], _, _ => []
  | (t, a, n) :: r, bs, m =>
    if t = 5 then memRead m a.toNat n ++ gather r bs m
    else padTo n (bs.take n) ++ gather r (bs.drop n) m

/-- The places of an access that waits for nothing: base address of a PIN segment, the records' locations otherwise. -/
def placesAt (s : State) (f seg : Nat) (off : U64) (len : Nat) : List (Nat × U64 × Nat) :=
  let g := getSeg s f seg
  (piecesOf off.toNat len).map (fun (o, n) =>
    if g.pin then (g.target.toNat, g.base + BitVec.ofNat 64 o, n)
    else
      let x := getTile s f seg (o / tileBytes)
      (x.loc.toNat, x.addr + BitVec.ofNat 64 (o % tileBytes), n))

/-- All the port keys of translated places are released for facet f. -/
def placesReleased (s : State) (f : Nat) (l : List (Nat × U64 × Nat)) : Bool :=
  l.all (fun x => released s f (keyFor s x.1 x.2.1))

/-- The LOC, PRESENT of a tile made final: releases the parked pieces and fault record (R275, R279 step 6). -/
def releaseTile (f seg t : Nat) (parked : List Piece) (s : State) : State :=
  let ks := (s.xlt.recs.filter (fun r => r.2.facet = f ∧ r.2.seg = seg ∧ r.2.tile = t)).map Prod.fst
  let ws := (s.xlt.recs.filter (fun r => r.2.facet = f ∧ r.2.seg = seg ∧ r.2.tile = t)).flatMap (fun r => r.2.waiters)
  retranslate (parked ++ ws) (ks.foldl (fun s k => dropRec k s) s)

end Sys2Proof.Machine
end

