-- ==== Sys2Proof/Machine/Queues.lean ====
section
/-!
DEFINITION. The queue engine (02_work_queues.md): indices, doorbells and pushes, fetch arbitration, acceptance,
start checks, completion, progress records, event rings and interrupts.
-/
namespace Sys2Proof.Machine

/-! ### Fields of a queue's configuration (R82) -/

def Queue.ringSeg (x : Queue) : Nat := fld x.cfg 7 0
def Queue.progSeg (x : Queue) : Nat := fld x.cfg 15 8
/-- WEIGHT; 0 counts as 1. -/
def Queue.weight (x : Queue) : Nat := max 1 (fld x.cfg 19 16)
/-- BURST; 0 counts as 1, 17 to 31 as 16. -/
def Queue.burst (x : Queue) : Nat := max 1 (min 16 (fld x.cfg 24 20))
def Queue.size (x : Queue) : Nat := fld x.cfg 48 32
def Queue.evr (x : Queue) : Nat := fld x.cfg 55 50
def Queue.mode (x : Queue) : Nat := fld x.cfg 57 56
/-- The ring offset of the slot of an index (R39). -/
def Queue.slotOff (x : Queue) (i : U32) : U64 := x.ringOff + BitVec.ofNat 64 (i.toNat % x.size * 64)

def EvRing.ringSeg (x : EvRing) : Nat := fld x.cfg 7 0
def EvRing.vec (x : EvRing) : Nat := fld x.cfg 18 8
/-- MSIX_CNT; 0 counts as 1. -/
def EvRing.cnt (x : EvRing) : Nat := max 1 (fld x.cfg 31 24)
def EvRing.size (x : EvRing) : Nat := fld x.cfg 48 32
def EvRing.holdUs (x : EvRing) : Nat := fld x.cfg 61 52
def EvRing.en (x : EvRing) : Bool := bit x.cfg 62

/-- R38: a power of two from 16 to 65,536. -/
def sizeOk (n : Nat) : Bool := decide (16 ≤ n ∧ n ≤ 65536) && decide (popCount 17 n = 1)

/-- A facet is ON. -/
def facetOn (s : State) (f : Nat) : Bool := decide ((getF s f).st = .on)

/-- The first unpublished change of a queue starts its hold (R68). -/
def Queue.changed (now : U64) (x : Queue) : Queue :=
  { x with dirtyAt := match x.dirtyAt with | some t => some t | none => some now }

/-! ### Shrinking (R325) -/

/-- The window of facet f on target t: base and limit (R261). -/
def window (s : State) (f t : Nat) : U64 × U64 :=
  (aget 0xFFFFFFFFFFFFF000 t (getF s f).xlt.winBase, aget 0xFFF t (getF s f).xlt.winLim)

/-- A range of addresses on target t lies inside the facet's window; the upstream port is not windowed. -/
def inWindow (s : State) (f t lo hi : Nat) : Bool :=
  decide (t = 0) || (decide ((window s f t).1.toNat ≤ lo) && decide (hi ≤ (window s f t).2.toNat))

/-- QPs of facet f that are not free (FAC_USE.QP). -/
def qpUse (s : State) (f : Nat) : Nat := (s.qps.filter (fun x => x.2.facet = f ∧ x.2.st ≠ .free)).length

/-- Queues of a table that are not DISABLED. -/
def notDisabled (l : Assoc Queue) : List Nat := (l.filter (fun x => x.2.st ≠ .disabled)).map Prod.fst

/-- Event rings that are ACTIVE. -/
def activeRings (l : Assoc EvRing) : List Nat := (l.filter (fun x => x.2.active)).map Prod.fst

/-- R325: some use of facet f exceeds its values. -/
def shrinkDue (s : State) (f : Nat) : Bool :=
  let x := getF s f
  (notDisabled x.que.sqs).any (fun q => x.aSq ≤ q) || (notDisabled x.que.rqs).any (fun q => x.aRq ≤ q) ||
  (activeRings x.que.evrs).any (fun e => x.aEvr ≤ e) || decide (x.aQp < qpUse s f) ||
  decide (x.xlt.tilesAllot.toNat < tilesUsed s f) ||
  x.xlt.segs.any (fun g => g.2.valid && !inWindow s f g.2.target.toNat g.2.base.toNat
    (g.2.base.toNat + g.2.limit.toNat)) ||
  s.xlt.tiles.any (fun t => decide (t.1 / 2 ^ 31 = f) && (getSeg s f (t.1 / 2 ^ 23 % 256)).valid &&
    !inWindow s f t.2.loc.toNat t.2.addr.toNat
      (t.2.addr.toNat + tileLen (getSeg s f (t.1 / 2 ^ 23 % 256)) (t.1 % 2 ^ 23) - 1))

/-- SHRINK_PENDING clears when the last excess ends. -/
def shrinkEval (f : Nat) (s : State) : State :=
  if (getF s f).shrink && !shrinkDue s f then modF f (fun x => { x with shrink := false }) s else s

/-! ### Errors and events -/

/-- R80: a queue enters ERROR; what the accepted index has not passed is discarded. -/
def enterError (f : Nat) (rq : Bool) (q code : Nat) (idx : U32) (s : State) : State :=
  modQ f rq q (fun x => if x.st = .active then { x with
      st := .error, err := BitVec.ofNat 16 code, errIdx := idx, staged := [], taken := [], fetch := none, rr := none
      evErrOwed := decide (x.mode ≠ 0) } else x) s

/-- A descriptor that H passed asks for an event under the queue's mode (R73). -/
def eventDue (x : Queue) (i : Item) : Bool :=
  match x.mode with
  | 0 => false
  | 1 => true
  | 2 => Desc.evt i.desc
  | _ => match i.done with | some st => Status.nonzero st | none => false

/-! ### Interrupts of an event ring (R79) -/

/-- R79, R76: an armed ring whose condition holds sends its vector once its entries are visible. -/
def msixCheck (f e : Nat) (s : State) : State :=
  let x := getE s f e
  match x.notes with
  | [] => s
  | n :: _ =>
    let since := if n.wrote.toNat < x.armAt.toNat then x.armAt else n.wrote
    let vis := decide (pinKey s f x.ringSeg x.ringOff = 0) || !stillOut s (.event f e)
    if x.en && x.armed && vis && (decide (x.cnt ≤ x.notes.length) || elapsed s since (us x.holdUs)) then
      sendMsix f x.vec (modE f e (fun x => { x with armed := false }) s)
    else s

/-- One event entry of 16 bytes (R75). -/
def entryBytes (rq err fromPending : Bool) (q : Nat) (head acc idx : U32) : Bytes :=
  toLE 8 (b2n rq + b2n err * 2 + b2n fromPending * 4 + q * 2 ^ 8 + head.toNat * 2 ^ 32) ++
    toLE 8 (acc.toNat + idx.toNat * 2 ^ 32)

/-- An entry written into a ring that has space; HEAD and ACC are those of the last record written (R67, R76). -/
def writeEntry (f e : Nat) (rq : Bool) (q : Nat) (err fromPending : Bool) (s : State) : State :=
  let r := getE s f e
  let x := getQ s f rq q
  let off := r.ringOff + BitVec.ofNat 64 (r.prod.toNat % r.size * 16)
  let s := postPin f r.ringSeg off (.event f e) (entryBytes rq err fromPending q x.pubHead x.pubAcc r.prod) s
  msixCheck f e (modE f e (fun r => { r with
    prod := r.prod + 1, notes := r.notes ++ [{ rq := rq, q := q, err := err, wrote := s.now }] }) s)

/-- The ring has no space (R77). -/
def EvRing.full (r : EvRing) : Bool := decide ((r.prod - r.cons).toNat = r.size)

/-- An unconsumed entry names the queue; with `err`, one with ERR. -/
def EvRing.names (r : EvRing) (rq : Bool) (q : Nat) (err : Bool) : Bool :=
  r.notes.any (fun n => decide (n.rq = rq ∧ n.q = q) && (!err || n.err))

/-- The queue's last record is visible to a reader of ring e: confirmed, or ahead of the entry on the same port (R76). -/
def recordVisible (s : State) (f : Nat) (rq : Bool) (q e : Nat) : Bool :=
  let x := getQ s f rq q
  !x.recFlight || decide (pinKey s f x.progSeg x.progOff = pinKey s f (getE s f e).ringSeg (getE s f e).ringOff)

/-- A pending queue meets space in its ring (R77): its entry is written, or withheld because an unconsumed entry
leads to it. -/
def pendingOne (f e : Nat) (rq : Bool) (q : Nat) (s : State) : State :=
  let r := getE s f e
  let inErr := decide ((getQ s f rq q).st = .error)
  let s := modQ f rq q (fun x => { x with evtPending := false }) s
  if r.names rq q false && !(inErr && !r.names rq q true) then s
  else writeEntry f e rq q inErr true s

/-- The numbers of the queues of a table that wait for space in ring e (R77), in ascending order. -/
def waiters (e : Nat) (l : Assoc Queue) : List Nat :=
  (l.filter (fun p => p.2.evtPending && decide (p.2.evr = e ∧ p.2.mode ≠ 0))).map Prod.fst

/-- The queues that wait for space in ring e: all SQs before all RQs. -/
def waiting (s : State) (f e : Nat) : List (Bool × Nat) :=
  (waiters e (getF s f).que.sqs).map (fun q => (false, q)) ++ (waiters e (getF s f).que.rqs).map (fun q => (true, q))

/-- R77: the entries of pending queues in their order, while the ring has space; one whose record is not yet visible
(R76) holds back those behind it. -/
def pendingRun (f e : Nat) : List (Bool × Nat) → State → State
  | [], s => s
  | (rq, q) :: r, s =>
    if (getE s f e).full || !recordVisible s f rq q e then s else pendingRun f e r (pendingOne f e rq q s)

/-- R77: one entry per pending queue of ring e. -/
def pendingEntries (f e : Nat) (s : State) : State := pendingRun f e (waiting s f e) s

/-! ### Fetching -/

/-- Slots of a ring read by one fetch read, cut where the ring wraps: offset and length. -/
def fetchRuns (x : Queue) (first : U32) (count : Nat) : List (U64 × Nat) :=
  let a := first.toNat % x.size
  let n := min count (x.size - a)
  if n = count then [(x.slotOff first, 64 * count)]
  else [(x.slotOff first, 64 * n), (x.ringOff, 64 * (count - n))]

/-- A read of slots goes out and is noted as the queue's one read in flight. -/
def readSlots (f : Nat) (rq : Bool) (q : Nat) (first : U32) (count : Nat) (s : State) : State :=
  let x := getQ s f rq q
  let s := (fetchRuns x first count).foldl (fun s r =>
    let (t, a) := pinPlace s f x.ringSeg r.1
    readOut (some (.fetch f rq q)) f t a r.2 s) s
  modQ f rq q (fun x => { x with fetch := some { first := first, count := count }, lastRead := s.now }) s

/-- A fetch read of the next slots to be taken: they are being taken from now on (R72). -/
def issueFetch (f : Nat) (rq : Bool) (q : Nat) (first : U32) (count : Nat) (s : State) : State :=
  modQ f rq q (fun x => { x with next := first + BitVec.ofNat 32 count }) (readSlots f rq q first count s)

/-- The port of a queue's ring is released to the device. -/
def ringReleased (s : State) (f : Nat) (rq : Bool) (q : Nat) : Bool :=
  let x := getQ s f rq q
  released s f (pinKey s f x.ringSeg x.ringOff)

/-- The receive path fetches RQ slots on demand, up to 16 beyond H (02_work_queues.md, before Fetch arbitration). -/
def rqFetch (f q : Nat) (s : State) : State :=
  let x := getQ s f true q
  let ahead := (x.next - x.head).toNat
  let n := min (x.pDev - x.next).toNat (16 - ahead)
  if x.st = .active ∧ x.rr = none ∧ x.fetch = none ∧ 0 < n ∧ ahead < 16 ∧ ringReleased s f true q then
    issueFetch f true q x.next n s
  else s

/-! ### Completion (R65, R66, R453) -/

/-- An item of a queue changed by index. -/
def modItem (f : Nat) (rq : Bool) (q : Nat) (idx : U32) (g : Item → Item) (s : State) : State :=
  modQ f rq q (fun x => { x with items := x.items.map (fun i => if i.idx = idx then g i else i) }) s

/-- The accepted descriptor at an index, H not past it. -/
def getItem (s : State) (f : Nat) (rq : Bool) (q : Nat) (idx : U32) : Option Item :=
  (getQ s f rq q).items.find? (fun i => i.idx = idx)

/-- GRP_FAC_DONE, FAIL and DEGRADED count a collective descriptor's completion (R183), MOV_FAC_DONE a MOVE's (R317). -/
def countDone (f : Nat) (d : Desc) (st : Status) (s : State) : State :=
  if Desc.op d = 0x20 then modF f (fun x => { x with mov := { x.mov with done := x.mov.done + 1 } }) s
  else if 0x10 ≤ Desc.op d ∧ Desc.op d ≤ 0x1C then
    modF f (fun x => { x with grp := {
      done := x.grp.done + 1
      fail := x.grp.fail + (if st.code ≠ 0 then 1 else 0)
      degraded := x.grp.degraded + (if st.degraded then 1 else 0) } }) s
  else s

/-- A descriptor completes: its completion is journalled (R453) and, with a nonzero status word, its slot is written
back (R66). A descriptor completes once. -/
def completeItem (f q : Nat) (idx : U32) (st : Status) (s : State) : State :=
  match getItem s f false q idx with
  | none => s
  | some i =>
    if i.done.isSome then s
    else
      let x := getQ s f false q
      let s := countDone f i.desc st (mirrorIssue (.done f false q idx)
        (modItem f false q idx (fun i => { i with started := true, done := some st }) s))
      if Status.nonzero st then
        postPin f x.ringSeg (x.slotOff idx) (.writeBack f false q idx) (writeBackBytes i.desc st)
          (modItem f false q idx (fun i => { i with wbIssued := true }) s)
      else s

/-- A RECV completes: always written back, with its status word and result (R66). -/
def completeRecv (f q : Nat) (idx : U32) (st : Status) (r : RecvResult) (s : State) : State :=
  match getItem s f true q idx with
  | none => s
  | some i =>
    if i.done.isSome then s
    else
      let x := getQ s f true q
      let d := recvFilled i.desc r
      let s := mirrorIssue (.done f true q idx) (modItem f true q idx (fun i => { i with
        started := true, done := some st, desc := d, wbIssued := true }) s)
      postPin f x.ringSeg (x.slotOff idx) (.writeBack f true q idx) (writeBackBytes d st) s

/-- H passes the completed descriptors at the front of a queue, each journalled and its write-back visible. -/
def passItems : Queue → List Item → Queue
  | x, [] => { x with items := [] }
  | x, i :: r =>
    if i.done.isSome && i.recorded && (!i.wbIssued || i.wbSeen) then
      passItems { x with head := x.head + 1, evOwed := x.evOwed || eventDue x i } r
    else { x with items := i :: r }

/-- R80: what H reaching A ends: RESTARTING or DRAINING. -/
def endStates (x : Queue) : Queue :=
  if x.head = x.acc then
    if x.st = .restarting then { x with
      st := .active, pDev := x.acc, next := x.acc, err := 0, errIdx := 0 }
    else if x.st = .draining then { x with
      st := .disabled, evtPending := false, err := 0, errIdx := 0 }
    else x
  else x

/-- H moves as far as it may (R65), and the queue's state follows. -/
def advance (f : Nat) (rq : Bool) (s : State) (q : Nat) : State :=
  let x := getQ s f rq q
  let y := passItems x x.items
  let y := if y.head = x.head then y else Queue.changed s.now y
  let s := modQ f rq q (fun _ => endStates y) s
  if rq then rqFetch f q s else s

/-! ### Start checks (R454) -/

/-- R63: a dependency that can never be satisfied. Of queues that depend on each other in a cycle, one that is destroyed
never has its H at its A, so that R63's test does not fail for the rest, which R64 says complete (log entry 60). -/
def depFailed (s : State) (f : Nat) (d : Nat × U16) : Bool :=
  let x := getQ s f false d.1
  !x.born || (decide (x.st ≠ .active ∧ x.st ≠ .restarting) && decide (x.head = x.acc) && !depSatisfied x.head d.2)

/-- R61: a dependency is satisfied; an SQ that was never created satisfies none. -/
def depOk (s : State) (f : Nat) (d : Nat × U16) : Bool :=
  (getQ s f false d.1).born && depSatisfied (getQ s f false d.1).head d.2

/-- The enabled dependencies of a descriptor. -/
def Desc.deps (d : Desc) : List (Nat × U16) := (Desc.dep d 0).toList ++ (Desc.dep d 1).toList

/-- Steps 1 to 3 of R454 on a descriptor of a queue. -/
def earlyCheck (f : Nat) (rq : Bool) (q : Nat) (i : Item) : Option Status :=
  if !opcodeOk (f == 0) rq (Desc.op i.desc) then some (stat cBAD_OPCODE)
  else match badBit rq i.desc with
    | some b => some (statD cBAD_FIELD b)
    | none => if !rq && badDependency q i.idx i.desc then some (stat cBAD_DEPENDENCY) else none

/-- Step 4's failures: FENCE satisfied and a dependency failed (R63). -/
def lateFail (s : State) (f q : Nat) (i : Item) : Bool :=
  (!Desc.fence i.desc || decide ((getQ s f false q).head = i.idx)) && (Desc.deps i.desc).any (depFailed s f)

/-- The first accepted descriptor of a queue that has not started. R29 lets execution start before A moves; here a
descriptor starts only once it is accepted (DESIGN CHOICE, log entry 58). -/
def nextStart (s : State) (f : Nat) (rq : Bool) (q : Nat) : Option Item :=
  (getQ s f rq q).items.find? (fun i => !i.started)

/-- The descriptor whose early checks are due: the next of an SQ; of an RQ, whose descriptors wait for nothing, the first
that fails them (R454). -/
def nextCheck (s : State) (f : Nat) (rq : Bool) (q : Nat) : Option Item :=
  if rq then (getQ s f rq q).items.find? (fun i => !i.started && (earlyCheck f rq q i).isSome) else nextStart s f rq q

/-- Descriptors that fail their early checks complete at once, in order (R454); `fuel` bounds the items. -/
def rejectStarts : Nat → Nat → Bool → Nat → State → State
  | 0, _, _, _, s => s
  | n + 1, f, rq, q, s =>
    match nextCheck s f rq q with
    | none => s
    | some i =>
      match earlyCheck f rq q i with
      | some st => rejectStarts n f rq q
          (if rq then completeRecv f q i.idx st {} s else completeItem f q i.idx st s)
      | none =>
        if !rq && lateFail s f q i then rejectStarts n f rq q (completeItem f q i.idx (stat cDEP_FAILED) s)
        else s

/-- The early checks of a queue's unstarted descriptors. -/
def rejectAll (f : Nat) (rq : Bool) (s : State) (q : Nat) : State :=
  rejectStarts (getQ s f rq q).items.length f rq q s

/-- What follows inside facet f from a change of its queues: heads move, states end, descriptors that fail their checks
complete, a pending shrink ends. -/
def settleQueues (f : Nat) (s : State) : State :=
  let x := getF s f
  let s := (x.que.sqs.map Prod.fst).foldl (advance f false) s
  let s := (x.que.rqs.map Prod.fst).foldl (advance f true) s
  let s := (x.que.sqs.map Prod.fst).foldl (rejectAll f false) s
  let s := (x.que.rqs.map Prod.fst).foldl (rejectAll f true) s
  shrinkEval f s

/-! ### Doorbells and pushes (R44, R51 to R56) -/

/-- R51: a doorbell of value v. -/
def doorbell (f : Nat) (rq : Bool) (q : Nat) (v : U32) (s : State) : State :=
  let x := getQ s f rq q
  if !(facetOn s f && decide (x.st = .active)) then s
  else if v = x.pDev then s
  else if 0x80000000 ≤ (v - x.pDev).toNat then
    modF f (fun y => { y with que := { y.que with staleDb := y.que.staleDb + 1 } }) s
  else if x.size < (v - x.head).toNat then
    settleQueues f (enterError f rq q cOVERFLOW (x.head + BitVec.ofNat 32 x.size) s)
  else
    let s := modQ f rq q (fun x => { x with pDev := v }) s
    if rq then rqFetch f q s else s

/-- R52: the shape of a push: one to four descriptors inside one window. -/
def pushShape (off len : Nat) : Bool :=
  decide (off < 0x800) && decide (off % 64 = 0) && decide (len % 64 = 0) && decide (64 ≤ len) &&
    decide (off % 256 + len ≤ 256)

/-- R55: descriptors of one SQ in the staging pool. -/
def Queue.stagedCount (x : Queue) : Nat := x.staged.length + (x.taken.filter (fun t => t.pushed)).length

/-- R55: descriptors in the staging pool. -/
def stagedTotal (s : State) : Nat :=
  (s.facets.flatMap (fun f => f.2.que.sqs.map (fun q => q.2.stagedCount))).foldl (· + ·) 0

/-- A push is discarded and counted. -/
def discardPush (f : Nat) (s : State) : State :=
  modF f (fun y => { y with que := { y.que with pushDiscard := y.que.pushDiscard + 1 } }) s

/-- The descriptors of a push before the first whose SEQ_TAG or SEQ_PHASE does not match (R53), with their indices. -/
def pushGood : U32 → List Desc → List (U32 × Desc)
  | _, [] => []
  | i, d :: r => if seqOk d i then (i, d) :: pushGood (i + 1) r else []

/-- A push of n descriptors into SQ q would exceed a limit of the staging pool (R55). -/
def noRoom (s : State) (f q n : Nat) : Bool :=
  decide (16 < (getQ s f false q).stagedCount + n ∨ 32768 < stagedTotal s + n)

/-- A push that the pool has room for (R52, R53, R56). -/
def takePush (f q n : Nat) (descs : List Desc) (s : State) : State :=
  let x := getQ s f false q
  let good := pushGood x.pDev ((descs ++ List.replicate n default).take n)
  let p := x.pDev + BitVec.ofNat 32 good.length
  let s := modQ f false q (fun x => { x with pDev := p, staged := x.staged ++ good }) s
  if good.length < n then settleQueues f (enterError f false q cPUSH_ORDER p s) else s

/-- R52 to R56: one write of `len` bytes into a window of the push page of SQ q. -/
def windowPush (f q off len : Nat) (descs : List Desc) (s : State) : State :=
  let x := getQ s f false q
  let n := len / 64
  if !pushShape off len || !(facetOn s f && decide (x.st = .active)) then discardPush f s
  else if x.size < (x.pDev - x.head).toNat + n then
    settleQueues f (enterError f false q cOVERFLOW (x.head + BitVec.ofNat 32 x.size) s)
  else takePush f q n descs s

/-- A write of a push page that finds a queue for it and no room in the staging pool (R55). -/
def mustWait (s : State) (f q off len : Nat) : Bool :=
  let x := getQ s f false q
  pushShape off len && facetOn s f && decide (x.st = .active) &&
    decide ((x.pDev - x.head).toNat + len / 64 ≤ x.size) && noRoom s f q (len / 64)

/-- The push page that a stuck write is for. -/
def StuckWrite.page : StuckWrite → Nat × Nat
  | .push f q _ _ _ => (f, q)
  | .bell f q _ => (f, q)

/-- A write of the push page of SQ q stays at its port (R55). -/
def stick (w : StuckWrite) (s : State) : State :=
  { s with pcx := { s.pcx with stuck := s.pcx.stuck ++ [w] } }

/-- A write of SQ q's push page is stuck: a later one of the same page waits behind it (R54). -/
def pageStuck (s : State) (f q : Nat) : Bool := s.pcx.stuck.any (fun w => decide (w.page = (f, q)))

/-- A stuck write acts, unless it must go on waiting. -/
def tryStuck (s : State) (w : StuckWrite) : State :=
  if pageStuck s w.page.1 w.page.2 then stick w s
  else match w with
    | .push f q off len descs => if mustWait s f q off len then stick w s else windowPush f q off len descs s
    | .bell f q v => doorbell f false q v s

/-- The stuck writes, oldest first: those that find room act (R55). -/
def retryStuck (s : State) : State := s.pcx.stuck.foldl tryStuck { s with pcx := { s.pcx with stuck := [] } }

/-- Everything that follows by itself from a change of facet f's queues; the room it makes in the staging pool lets stuck
pushes in. -/
def settle (f : Nat) (s : State) : State := retryStuck (settleQueues f s)

/-- A write of QUE_SQ_DOORBELL, behind the writes of its page that are stuck (R54). -/
def sqDoorbell (f q : Nat) (v : U32) (s : State) : State := tryStuck s (.bell f q v)

/-- One write of `len` bytes at `off` of the push page of SQ q (R50): a push, a doorbell of 32 or 64 bits, or nothing. -/
def pushInto (f q off len : Nat) (descs : List Desc) (s : State) : State :=
  if (getF s f).st = .off then s
  else if off < 0x800 then tryStuck s (.push f q off len descs)
  else if off = 0x800 ∧ (len = 4 ∨ len = 8) then sqDoorbell f q ((descs.headD default).w0.setWidth 32) s
  else s

/-- R60, R61, R64, R454: the descriptor that starts next in SQ q, if it has the given opcode and waits for nothing. -/
def ready (s : State) (f q op : Nat) : Option Item :=
  match nextStart s f false q with
  | none => none
  | some i =>
    if decide (Desc.op i.desc = op) && (earlyCheck f false q i).isNone &&
      (!Desc.fence i.desc || decide ((getQ s f false q).head = i.idx)) &&
      (Desc.deps i.desc).all (depOk s f) && running s
    then some i else none

/-- A descriptor is marked as started. -/
def startItem (f q : Nat) (idx : U32) (s : State) : State :=
  modItem f false q idx (fun i => { i with started := true }) s

/-- A descriptor command: it acts on the next descriptor of SQ q if that has its opcode and may start. -/
def startWith (f q op : Nat) (g : Item → State → State) (s : State) : State :=
  match ready s f q op with
  | some i => settle f (g i (startItem f q i.idx s))
  | none => s

/-! ### Fetch arbitration (R72) -/

/-- An SQ that a round takes in. -/
def eligible (s : State) (f q : Nat) : Bool :=
  let x := getQ s f false q
  decide (x.st = .active) && x.rr.isNone && decide (x.next ≠ x.pDev)

/-- The members of a round that starts now, in ascending order of facet and number. -/
def roundMembers (s : State) : List (Nat × Nat) :=
  s.facets.flatMap (fun x => (x.2.que.sqs.map Prod.fst).filterMap
    (fun q => if eligible s x.1 q then some (x.1, q) else none))

/-- The staged pushes at consecutive indices from `i`, at most `n` of them. -/
def stagedRun : Nat → U32 → List (U32 × Desc) → List (U32 × Desc)
  | 0, _, _ => []
  | n + 1, i, l => match l.find? (fun p => p.1 = i) with
    | some p => p :: stagedRun n (i + 1) l
    | none => []

/-- The fetch-eligible slots from `i` before the next staged index and P_dev, at most `n`. -/
def slotRun : Nat → U32 → U32 → List (U32 × Desc) → Nat
  | 0, _, _, _ => 0
  | n + 1, i, p, l => if i = p || l.any (fun x => decide (x.1 = i)) then 0 else slotRun n (i + 1) p l + 1

/-- A visit can make a grant: something is left to take, and it is not a slot behind a read in flight. -/
def grantable (s : State) (f q : Nat) : Bool :=
  let x := getQ s f false q
  let staged := x.staged.any (fun p => decide (p.1 = x.next))
  decide (x.st = .active) && x.rr.isNone && decide (x.next ≠ x.pDev) &&
    (staged || (x.fetch.isNone && ringReleased s f false q))

/-- One grant to SQ q: staged pushes first, then one run of slots by one read. -/
def grant (f q : Nat) (s : State) : State :=
  let x := getQ s f false q
  let pushed := stagedRun x.burst x.next x.staged
  let nxt := x.next + BitVec.ofNat 32 pushed.length
  let n := slotRun (x.burst - pushed.length) nxt x.pDev x.staged
  let s := modQ f false q (fun x => { x with
    next := nxt, staged := x.staged.filter (fun p => !pushed.contains p)
    taken := x.taken ++ pushed.map (fun p => { idx := p.1, desc := p.2, pushed := true }) }) s
  if 0 < n ∧ x.fetch.isNone ∧ ringReleased s f false q then issueFetch f false q nxt n s else s

/-- The arbiter's next grant: visits end early when nothing can be taken; an exhausted round is followed by the next.
`fuel` bounds the visits it passes over. -/
def arbitrate : Nat → State → State
  | 0, s => s
  | n + 1, s =>
    match s.arb.round with
    | [] =>
      let l := roundMembers s
      match l with
      | [] => s
      | (f, q) :: _ => arbitrate n { s with arb := { round := l, grants := (getQ s f false q).weight } }
    | (f, q) :: r =>
      if s.arb.grants = 0 || !grantable s f q then
        arbitrate n { s with arb := { round := r, grants := match r with
          | [] => 0
          | (f', q') :: _ => (getQ s f' false q').weight } }
      else grant f q { s with arb := { s.arb with grants := s.arb.grants - 1 } }

/-! ### Fetch reads (R57, R58) -/

/-- The ready slots before the first not-ready one. -/
def readyRun : U32 → List Desc → List Taken
  | _, [] => []
  | i, d :: r => if slotReady d i then { idx := i, desc := d, pushed := false } :: readyRun (i + 1) r else []

/-- The slots a fetch read of a ring in LPDDR5X returns. -/
def ringSlots (s : State) (f : Nat) (x : Queue) (first : U32) (count : Nat) : List Desc :=
  (List.range count).map (fun i =>
    bytesDesc (memRead s.mem (pinPlace s f x.ringSeg (x.slotOff (first + BitVec.ofNat 32 i))).2.toNat 64))

/-- R57, R58: a fetch read returns. -/
def fetchDone (f : Nat) (rq : Bool) (q : Nat) (slots : List Desc) (s : State) : State :=
  let x := getQ s f rq q
  match x.fetch.filter (fun r => !r.held) with
  | none => s
  | some r =>
    let ds := if (pinPlace s f x.ringSeg x.ringOff).1 = 5 then ringSlots s f x r.first r.count
      else (slots ++ List.replicate r.count default).take r.count
    let got := readyRun r.first ds
    let n := got.length
    let tries := match x.rr with | some w => if n = 0 then w.tries else 0 | none => 0
    let nxt := r.first + BitVec.ofNat 32 n
    let s := modQ f rq q (fun x => { x with
      fetch := none, taken := x.taken ++ got
      rr := if n = r.count then none else
        some { first := nxt, count := r.count - n, tries := tries } }) s
    if n < r.count ∧ 8 ≤ tries then settle f (enterError f rq q cDOORBELL_AHEAD nxt s)
    else if rq then rqFetch f q s else s

/-- R58: one re-read, 1 µs after the previous read. -/
def rereadSlot (f : Nat) (rq : Bool) (q : Nat) (s : State) : State :=
  let x := getQ s f rq q
  match x.rr with
  | none => s
  | some w =>
    if x.st = .active ∧ x.fetch = none ∧ elapsed s x.lastRead (us 1) ∧ ringReleased s f rq q then
      let s := modQ f rq q (fun x => { x with rr := some { w with tries := w.tries + 1 } }) s
      let s := modF f (fun y => { y with que := { y.que with refetch := y.que.refetch + 1 } }) s
      readSlots f rq q w.first w.count s
    else s

/-- Descriptors accepted and not completed across the device (R399). -/
def openItems (s : State) : Nat :=
  (s.facets.flatMap (fun x => (x.2.que.sqs ++ x.2.que.rqs).map
    (fun q => (q.2.items.filter (fun i => i.done.isNone)).length))).foldl (· + ·) 0

/-- R59, R399: the taken descriptor of the next index is accepted, in index order; A moves past it. -/
def acceptNext (f : Nat) (rq : Bool) (q : Nat) (s : State) : State :=
  let x := getQ s f rq q
  match x.taken.find? (fun t => decide (t.idx = x.acc)) with
  | none => s
  | some t =>
    if x.st ≠ .active ∨ 524288 ≤ openItems s then s
    else settle f (modQ f rq q (fun x => Queue.changed s.now { x with
      taken := x.taken.erase t, acc := x.acc + 1
      items := x.items ++ [{ idx := t.idx, desc := t.desc, seq := s.arb.accepted }] })
      { s with arb := { s.arb with accepted := s.arb.accepted + 1 } })

/-! ### Progress records and event entries (R67, R68, R76) -/

/-- The record's 8 bytes: A low, H high (R67). -/
def recordBytes (x : Queue) : Bytes := toLE 4 x.acc.toNat ++ toLE 4 x.head.toNat

/-- The progress record is written with the current A and H, or held for its port. -/
def writeRecord (f : Nat) (rq : Bool) (q : Nat) (s : State) : State :=
  let x := getQ s f rq q
  let k := pinKey s f x.progSeg x.progOff
  if released s f k then
    let s := modQ f rq q (fun x => { x with
      pubAcc := x.acc, pubHead := x.head, dirtyAt := none, recFlight := true }) s
    postPin f x.progSeg x.progOff (.record f rq q) (recordBytes x) s
  else
    let l := if k = 0 then (getF s f).pcx.held else (getP s k).held
    if l.contains (.record f rq q) then s else hold f k (.record f rq q) s

/-- R68: a record is due. -/
def recordDue (s : State) (f : Nat) (rq : Bool) (q : Nat) : Bool :=
  let x := getQ s f rq q
  match x.dirtyAt with
  | none => false
  | some t => !x.recFlight && elapsed s t ((getF s f).que.pubHold.toNat * 25)

/-- R73, R74, R77: the event a queue owes is written, withheld or made pending, once its record shows A and H. An event
that comes with a queue's entry to ERROR and one for its head that are owed together are one entry, with ERR (log entry 57).
Pending entries of the ring come first; a queue that is DISABLED by now takes no EVT_PENDING (R80). -/
def eventEntry (f : Nat) (rq : Bool) (q : Nat) (s : State) : State :=
  let x := getQ s f rq q
  let e := x.evr
  let r := getE s f e
  if !(x.evOwed || x.evErrOwed) || !r.active || x.pubHead ≠ x.head || x.pubAcc ≠ x.acc || x.dirtyAt.isSome ||
    !recordVisible s f rq q e || (!r.full && !(waiting s f e).isEmpty) then s
  else
    let s := modQ f rq q (fun x => { x with evOwed := false, evErrOwed := false }) s
    if r.names rq q x.evErrOwed then s
    else if r.full then modQ f rq q (fun x => { x with evtPending := decide (x.st ≠ .disabled) }) s
    else writeEntry f e rq q x.evErrOwed false s

/-- R78: a consumer index write; the flag arms the ring. -/
def writeCons (f e : Nat) (v : U32) (arm : Bool) (s : State) : State :=
  let r := getE s f e
  if (r.prod - r.cons).toNat < (v - r.cons).toNat then s
  else
    let s := modE f e (fun r => { r with
      cons := v, notes := r.notes.drop (v - r.cons).toNat
      armed := r.armed || arm, armAt := if arm then s.now else r.armAt }) s
    msixCheck f e (pendingEntries f e s)

/-! ### Creating and destroying (R80) -/

/-- The block of a queue beyond the facet's allotment is reachable only while the queue is not DISABLED (R82, R322). -/
def queueOpen (s : State) (f : Nat) (rq : Bool) (q : Nat) : Bool :=
  decide (q < if rq then (getF s f).aRq else (getF s f).aSq) || decide ((getQ s f rq q).st ≠ .disabled)

/-- The same of an event ring. -/
def ringOpen (s : State) (f e : Nat) : Bool := decide (e < (getF s f).aEvr) || (getE s f e).active

/-- How many queues of the kind the device holds not DISABLED. -/
def deviceUse (s : State) (k : QKind) : Nat :=
  (s.facets.map (fun x => match k with
    | .sq => (notDisabled x.2.que.sqs).length
    | .rq => (notDisabled x.2.que.rqs).length
    | .evr => (activeRings x.2.que.evrs).length)).foldl (· + ·) 0

/-- The CREATE rows of R80 for an SQ or RQ: 0, or the status code. -/
def createCode (s : State) (f : Nat) (rq : Bool) (q : Nat) : Nat :=
  let x := getQ s f rq q
  if !sizeOk x.size then cBAD_SIZE
  else if (if rq then (getF s f).aRq else (getF s f).aSq) ≤ q ∨ 8192 ≤ deviceUse s (if rq then .rq else .sq) then
    cNO_RESOURCE
  else if pinCheck s f x.ringSeg x.ringOff (x.size * 64) [.lrd, .lwr] && pinCheck s f x.progSeg x.progOff 8 [.lwr] &&
    (decide (x.mode = 0) || (getE s f x.evr).active) then 0
  else cBAD_FIELD

/-- CREATE of an SQ or RQ (R80). Before the first record is written, the published A and H read START (DESIGN CHOICE, log
entry 63). -/
def createQueue (f : Nat) (rq : Bool) (q : Nat) (s : State) : State :=
  let x := getQ s f rq q
  if x.st ≠ .disabled then s
  else
    let c := createCode s f rq q
    if c = 0 then modQ f rq q (fun x => { ringOff := x.ringOff, progOff := x.progOff, cfg := x.cfg, start := x.start
                                          st := .active, pDev := x.start, acc := x.start, head := x.start
                                          pubAcc := x.start, pubHead := x.start, next := x.start, born := true }) s
    else modQ f rq q (fun x => { x with err := BitVec.ofNat 16 c }) s

/-- CREATE of an event ring (R80); it is not ARMED (DESIGN CHOICE, log entry 62). -/
def createRing (f e : Nat) (s : State) : State :=
  let r := getE s f e
  if r.active then s
  else
    let c := if !sizeOk r.size then cBAD_SIZE
      else if (getF s f).aEvr ≤ e ∨ 1024 ≤ deviceUse s .evr then cNO_RESOURCE
      else if pinCheck s f r.ringSeg r.ringOff (r.size * 16) [.lwr] then 0 else cBAD_FIELD
    if c = 0 then modE f e (fun r => { r with
      active := true, prod := r.start, cons := r.start, notes := [], armed := false, err := 0 }) s
    else modE f e (fun r => { r with err := BitVec.ofNat 16 c }) s

/-- R73: a queue that is not DISABLED names ring e. -/
def ringNamed (s : State) (f e : Nat) : Bool :=
  let x := (getF s f).que
  let names := fun (p : Nat × Queue) => decide (p.2.st ≠ .disabled ∧ p.2.mode ≠ 0 ∧ p.2.evr = e)
  x.sqs.any names || x.rqs.any names

/-- DESTROY of an event ring (R80); it is no longer ARMED (DESIGN CHOICE, log entry 62). -/
def destroyRing (f e : Nat) (s : State) : State :=
  if !(getE s f e).active then s
  else if ringNamed s f e then modE f e (fun r => { r with err := BitVec.ofNat 16 cIN_USE }) s
  else modE f e (fun r => { r with active := false, notes := [], armed := false, err := 0 }) s

/-- R80: an RQ that may not be destroyed. -/
def rqInUse (s : State) (f q : Nat) : Bool :=
  (getQ s f true q).bound.isSome || (decide (f = 0) && s.eth.rawEn && decide (s.eth.rawRq.toNat = q))

/-- R80: the queue discards what is not accepted and drains. -/
def drainQueue (f : Nat) (rq : Bool) (q : Nat) (s : State) : State :=
  modQ f rq q (fun x => if x.st = .disabled ∨ x.st = .draining then x else { x with
    st := .draining, staged := [], taken := [], fetch := none, rr := none }) s

/-! ### The meanings -/

/-- A meaning that acts only while the device runs. -/
def live (g : State → State) (s : State) : Host.Outcome State Fault Refusal := .next (when (running s) g s)

/-- FETCH_GRANT (R72). -/
def execFetchGrant (s : State) : Host.Outcome State Fault Refusal :=
  live (fun s => arbitrate (2 * (s.arb.round.length + (roundMembers s).length) + 2) s) s

/-- REREAD (R58). -/
def execReread (f : Nat) (rq : Bool) (q : Nat) (s : State) : Host.Outcome State Fault Refusal :=
  live (rereadSlot f rq q) s

/-- QUE_SQ_DOORBELL (R51). -/
def execQueSqDoorbell (f q : Nat) (v : U32) (s : State) : Host.Outcome State Fault Refusal :=
  live (sqDoorbell f q v) s

/-- QUE_RQ_DOORBELL (R51). -/
def execQueRqDoorbell (f q : Nat) (v : U32) (s : State) : Host.Outcome State Fault Refusal :=
  live (doorbell f true q v) s

/-- PUSH (R52). -/
def execPush (page : PageAccess) (q off len : Nat) (descs : List Desc) (s : State) :
    Host.Outcome State Fault Refusal :=
  live (fun s => match pushReach s page.src page.f q off with
    | some (f, q, off) => pushInto f q off len descs s
    | none => s) s

/-- DESCRIPTOR_ACCEPT (R59). -/
def execDescriptorAccept (f : Nat) (rq : Bool) (q : Nat) (s : State) : Host.Outcome State Fault Refusal :=
  live (acceptNext f rq q) s

/-- PROGRESS_RECORD (R68). -/
def execProgressRecord (f : Nat) (rq : Bool) (q : Nat) (s : State) : Host.Outcome State Fault Refusal :=
  live (fun s => when (recordDue s f rq q) (writeRecord f rq q) s) s

/-- EVENT_ENTRY (R76). -/
def execEventEntry (f : Nat) (rq : Bool) (q : Nat) (s : State) : Host.Outcome State Fault Refusal :=
  live (eventEntry f rq q) s

/-- MSIX_HOLD_EXPIRY (R79). -/
def execMsixHoldExpiry (f e : Nat) (s : State) : Host.Outcome State Fault Refusal := live (msixCheck f e) s

/-- QUE_EVR_CONS (R78). -/
def execQueEvrCons (f e : Nat) (v : U32) (s : State) : Host.Outcome State Fault Refusal :=
  live (fun s => when (facetOn s f && ringOpen s f e) (writeCons f e v false) s) s

/-- QUE_EVR_CONS_ARM (R78). -/
def execQueEvrConsArm (f e : Nat) (v : U32) (s : State) : Host.Outcome State Fault Refusal :=
  live (fun s => when (facetOn s f && ringOpen s f e) (writeCons f e v true) s) s

/-- QUEUE_CREATE (R80). -/
def execQueueCreate (f : Nat) (k : QKind) (q : Nat) (s : State) : Host.Outcome State Fault Refusal :=
  live (fun s => when (facetOn s f) (fun s => match k with
    | .sq => settle f (createQueue f false q s)
    | .rq => settle f (createQueue f true q s)
    | .evr => createRing f q s) s) s

/-- QUEUE_RESTART (R80); an event ring has no RESTART. -/
def execQueueRestart (f : Nat) (k : QKind) (q : Nat) (s : State) : Host.Outcome State Fault Refusal :=
  live (fun s => when (facetOn s f && decide (k ≠ .evr)) (fun s =>
    settle f (modQ f (decide (k = .rq)) q (fun x => if x.st = .error then { x with st := .restarting } else x) s)) s) s

/-- NOP (R48): starts and completes with no effect. -/
def execNop (f q : Nat) (s : State) : Host.Outcome State Fault Refusal :=
  .next (startWith f q 0x01 (fun i s => completeItem f q i.idx stOk s) s)

end Sys2Proof.Machine
end

