-- ==== Sys2Proof/Machine/Collect.lean ====
section
/-!
DEFINITION. The fault collector's record of events: counters, Afterglow (R379, R380, R396), fence events (R387),
and entering Penumbra and Umbra (R391, R393).
-/
namespace Sys2Proof.Machine

def clsINFO : Nat := 0
def clsCE : Nat := 1
def clsUC : Nat := 2
def clsFT : Nat := 3

/-- The words of an Afterglow event (R396). -/
def aglWords (now : U64) (seq : U32) (src cls unit : Nat) (forced again : Bool) (info0 : U64) (info1 action : Nat)
    (facet : Option Nat) : AglEvent :=
  { w0 := now
    w1 := BitVec.ofNat 64 (seq.toNat + src * 2 ^ 32 + cls * 2 ^ 38 + b2n forced * 2 ^ 40 + b2n again * 2 ^ 41 +
      unit % 256 * 2 ^ 48 + facet.getD 0 % 128 * 2 ^ 56 + b2n facet.isSome * 2 ^ 63)
    w2 := info0
    w3 := BitVec.ofNat 64 (info1 + action * 2 ^ 32) }

/-- An event enters the ring of 8,192 (R396). -/
def recordRaw (src cls unit : Nat) (forced again : Bool) (info0 : U64) (info1 action : Nat) (facet : Option Nat)
    (s : State) : State :=
  let e := aglWords s.now s.agl.next src cls unit forced again info0 info1 action facet
  let l := s.agl.events ++ [(s.agl.next, e)]
  { s with agl := { s.agl with next := s.agl.next + 1, events := l.drop (l.length - 8192) } }

/-- R380: a CE event within 1 ms of the last recorded one of its source is only counted. -/
def suppressed (s : State) (src cls : Nat) : Bool :=
  decide (cls = clsCE) && (match agetq src s.agl.lastCe with | some t => !elapsed s t (ms 1) | none => false)

/-- R380: an event is recorded, or a CE event is suppressed. -/
def recordEvent (src cls unit : Nat) (forced : Bool) (info0 : U64) (info1 action : Nat) (facet : Option Nat)
    (s : State) : State :=
  if suppressed s src cls then
    { s with agl := { s.agl with
        suppressed := s.agl.suppressed + 1
        supp := if s.agl.supp.contains src then s.agl.supp else s.agl.supp ++ [src] } }
  else if cls = clsCE then
    let s' := recordRaw src cls unit forced (s.agl.supp.contains src) info0 info1 action facet s
    { s' with agl := { s'.agl with
        lastCe := aset src s.now s'.agl.lastCe, supp := s'.agl.supp.filter (fun x => x ≠ src) } }
  else recordRaw src cls unit forced false info0 info1 action facet s

/-- R379 steps 1 and 2: an event of a source is counted and recorded; in Umbra its ACTION is 8. -/
def collect (src cls unit : Nat) (forced : Bool) (info0 : U64) (info1 action : Nat) (facet : Option Nat)
    (s : State) : State :=
  recordEvent src cls unit forced info0 info1 (if s.err.mode = .umbra then 8 else action) facet
    { s with err := { s.err with cnt := amod 0 src (fun c => c + 1) s.err.cnt } }

/-- An INFO event (source 0x38), which no counter of a detection counts (R387, R391, R398, R400). It is an event of
its source all the same (R379). -/
def infoEvent (subtype unit action : Nat) (info0 : U64) (s : State) : State :=
  collect 0x38 clsINFO unit false info0 subtype action none s

/-- R392: an event of a unit is counted in the current window of a threshold. -/
def countWindow (src unit : Nat) (s : State) : State :=
  { s with err := { s.err with win := amod 0 (src * 256 + unit) (fun c => c + 1) s.err.win } }

/-- The count of a unit's events in the current window. -/
def windowCount (s : State) (src unit : Nat) : Nat := aget 0 (src * 256 + unit) s.err.win

/-- Svays link n is fenced. -/
def linkFenced (s : State) (n : Nat) : Bool := decide ((aget {} n s.fab.links).st = .fenced)

/-- Some unit is fenced (R391). -/
def anyFenced (s : State) : Bool :=
  decide (s.prism.fenced ≠ 0) || decide (s.err.lan ≠ 0) || s.fab.links.any (fun l => decide (l.2.st = .fenced)) ||
    s.memc.fenced.isSome || decide (s.err.banks ≠ [])

/-- The fence of a unit has taken effect: its INFO event, and Penumbra with the first fence (R387, R391). `src`: the
unit's fence source. -/
def noteFence (src unit : Nat) (s : State) : State :=
  let first := decide (s.err.mode = .normal)
  let s := infoEvent 3 unit (if first then 6 else 5) (BitVec.ofNat 64 src) s
  if first then { s with err := { s.err with mode := .penumbra } } else s

/-- A fault fences a unit, or strikes one that is fenced, in this cycle (R390). -/
def faultNow (src unit : Nat) (s : State) : State :=
  { s with err := { s.err with faultAt := aset (src * 256 + unit) s.now s.err.faultAt } }

/-- The unfence of a unit has taken effect; the last one leaves Penumbra (R387, R391). -/
def noteUnfence (src unit : Nat) (s : State) : State :=
  let s := infoEvent 4 unit 0 (BitVec.ofNat 64 src) s
  if decide (s.err.mode = .penumbra) && !anyFenced s then
    infoEvent 5 0 0 0 { s with err := { s.err with mode := .normal } }
  else s

/-- R393, R395: Umbra is entered: LSTATE 9 on every ACTIVE link, the source and the SEQ kept. -/
def enterUmbra (src : Nat) (self : Bool) (seq : U32) (s : State) : State :=
  let s := emits ((s.fab.links.filter (fun l => decide (l.2.st = .active))).map (fun l => linkWord s 9 0 l.1)) s
  { s with err := { s.err with
      mode := .umbra, self := self, ftSrc := BitVec.ofNat 6 src, ftSeq := seq, ftTime := s.now } }

/-- R393: an FT event takes the device to Umbra. FT_SEQ is the SEQ of the event, which this records. -/
def fatal (src unit : Nat) (forced : Bool) (info0 : U64) (facet : Option Nat) (s : State) : State :=
  if s.err.mode = .umbra then collect src clsFT unit forced info0 0 8 facet s
  else enterUmbra src false s.agl.next (collect src clsFT unit forced info0 0 7 facet s)

end Sys2Proof.Machine
end

