-- ==== Sys2Proof/Machine/Packets.lean ====
section
/-!
DEFINITION. Packets as words and bytes: the ZRT base header and its extension headers (R97), the CXH of collective
packets (R181's chapter), the cipher header (R344), the route header (R234) and fabric notices (R255); the ICRC
(R99), FLOWHASH (R365), and the header checks of an arriving packet (R97).
-/
namespace Sys2Proof.Machine

/-- A flag as a number at a bit position. -/
def flag (b : Bool) (i : Nat) : Nat := b2n b * 2 ^ i

/-- A field of a word as a bit vector of its width. -/
def cut (n : Nat) (w : U64) (lo : Nat) : BitVec n := BitVec.ofNat n (w.toNat / 2 ^ lo)

/-! ### The base header (R97) -/

/-- The four words of a base header; its reserved bits lie in `rsv` in ascending order. -/
def packBth (b : Bth) : List U64 :=
  let r := b.rsv.toNat
  [BitVec.ofNat 64 (b.ver.toNat + b.typ.toNat * 2 ^ 4 + flag b.first 8 + flag b.last 9 + flag b.ackreq 10 +
     flag b.ce 11 + flag b.ciph 12 + flag b.resent 13 + flag b.imm 14 + r % 2 * 2 ^ 15 + b.lineage.toNat * 2 ^ 16 +
     r / 2 % 2 ^ 12 * 2 ^ 20 + b.psn.toNat * 2 ^ 32),
   BitVec.ofNat 64 (b.dstEp.toNat + r / 2 ^ 13 % 2 ^ 5 * 2 ^ 27 + b.srcEp.toNat * 2 ^ 32 +
     r / 2 ^ 18 % 2 ^ 5 * 2 ^ 59),
   BitVec.ofNat 64 (b.dstQpn.toNat + r / 2 ^ 23 % 2 ^ 12 * 2 ^ 20 + b.plen.toNat * 2 ^ 32 + r / 2 ^ 35 * 2 ^ 45),
   BitVec.ofNat 64 (b.ctag.toNat + b.msn.toNat * 2 ^ 32)]

/-- The base header that four words spell. -/
def unpackBth (l : List U64) : Bth :=
  let w0 := l.getD 0 0
  let w1 := l.getD 1 0
  let w2 := l.getD 2 0
  let w3 := l.getD 3 0
  { ver := cut 4 w0 0, typ := cut 4 w0 4, first := bit w0 8, last := bit w0 9, ackreq := bit w0 10, ce := bit w0 11
    ciph := bit w0 12, resent := bit w0 13, imm := bit w0 14, lineage := cut 4 w0 16, psn := cut 32 w0 32
    dstEp := cut 27 w1 0, srcEp := cut 27 w1 32, dstQpn := cut 20 w2 0, plen := cut 13 w2 32
    ctag := cut 32 w3 0, msn := cut 32 w3 32
    rsv := BitVec.ofNat 54 (fld w0 15 15 + fld w0 31 20 * 2 + fld w1 31 27 * 2 ^ 13 + fld w1 63 59 * 2 ^ 18 +
      fld w2 31 20 * 2 ^ 23 + fld w2 63 45 * 2 ^ 35) }

/-! ### Extension headers -/

/-- The words of an extension header. -/
def packExt : Ext → List U64
  | .reth roff rkey msgLen rseg rsv readOff =>
    [roff, BitVec.ofNat 64 (rkey.toNat + msgLen.toNat * 2 ^ 32),
     BitVec.ofNat 64 (rseg.toNat + rsv.toNat * 2 ^ 8 + readOff.toNat * 2 ^ 32)]
  | .seth msgOff msgLen ssn immv =>
    [BitVec.ofNat 64 (msgOff.toNat + msgLen.toNat * 2 ^ 32), BitVec.ofNat 64 (ssn.toNat + immv.toNat * 2 ^ 32)]
  | .rrh msgOff rsv => [BitVec.ofNat 64 (msgOff.toNat + rsv.toNat * 2 ^ 32)]
  | .aeth ackPsn syndrome ceEcho rsv0 scomp truncMap rsv1 sack nakPsn rsv2 =>
    [BitVec.ofNat 64 (ackPsn.toNat + syndrome.toNat * 2 ^ 32 + ceEcho.toNat * 2 ^ 40 + rsv0.toNat * 2 ^ 48),
     BitVec.ofNat 64 (scomp.toNat + truncMap.toNat * 2 ^ 32 + rsv1.toNat * 2 ^ 40),
     sack, BitVec.ofNat 64 (nakPsn.toNat + rsv2.toNat * 2 ^ 32)]
  | .cmeh initPsn ownCtag srcQpn rqEn cipher pmtuExp winExp rsv0 reason rsv1 =>
    [BitVec.ofNat 64 (initPsn.toNat + ownCtag.toNat * 2 ^ 32),
     BitVec.ofNat 64 (srcQpn.toNat + flag rqEn 20 + flag cipher 21 + pmtuExp.toNat * 2 ^ 22 + winExp.toNat * 2 ^ 25 +
       rsv0.toNat * 2 ^ 29 + reason.toNat * 2 ^ 32 + rsv1.toNat * 2 ^ 40)]
  | .cxh gid sub srcMember dstMember level broken rsv chunk sig pkt step arg =>
    [BitVec.ofNat 64 (gid.toNat + sub.toNat * 2 ^ 12 + srcMember.toNat * 2 ^ 16 + dstMember.toNat * 2 ^ 32 +
       level.toNat * 2 ^ 48 + flag broken 50 + rsv.toNat * 2 ^ 51),
     BitVec.ofNat 64 (chunk.toNat + sig.toNat * 2 ^ 32),
     BitVec.ofNat 64 (pkt.toNat + step.toNat * 2 ^ 16 + arg.toNat * 2 ^ 32)]
  | .none => []

/-- The words of the extension header of a packet type. -/
def extWords (typ : Nat) : Nat :=
  if typ < 3 then 2 else if typ = 3 ∨ typ = 5 then 3 else if typ = 4 then 2 else if typ = 6 then 1
  else if typ = 7 then 4 else if typ < 12 then 3 else 0

/-- The extension header that words spell for a packet type. -/
def unpackExt (typ : Nat) (l : List U64) : Ext :=
  let w0 := l.getD 0 0
  let w1 := l.getD 1 0
  let w2 := l.getD 2 0
  let w3 := l.getD 3 0
  if typ < 3 then .cmeh (cut 32 w0 0) (cut 32 w0 32) (cut 20 w1 0) (bit w1 20) (bit w1 21) (cut 3 w1 22) (cut 4 w1 25)
    (cut 3 w1 29) (cut 8 w1 32) (cut 24 w1 40)
  else if typ = 3 ∨ typ = 5 then .reth w0 (cut 32 w1 0) (cut 32 w1 32) (cut 8 w2 0) (cut 24 w2 8) (cut 32 w2 32)
  else if typ = 4 then .seth (cut 32 w0 0) (cut 32 w0 32) (cut 32 w1 0) (cut 32 w1 32)
  else if typ = 6 then .rrh (cut 32 w0 0) (cut 32 w0 32)
  else if typ = 7 then .aeth (cut 32 w0 0) (cut 8 w0 32) (cut 8 w0 40) (cut 16 w0 48) (cut 32 w1 0) (cut 8 w1 32)
    (cut 24 w1 40) w2 (cut 32 w3 0) (cut 32 w3 32)
  else if typ < 12 then .cxh (cut 12 w0 0) (cut 4 w0 12) (cut 16 w0 16) (cut 16 w0 32) (cut 2 w0 48) (bit w0 50)
    (cut 13 w0 51) (cut 32 w1 0) (cut 32 w1 32) (cut 16 w2 0) (cut 16 w2 16) (cut 32 w2 32)
  else .none

/-- An extension header is the one its packet type carries (R97's type table). -/
def extOf (typ : Nat) (e : Ext) : Bool :=
  match e with
  | .cmeh .. => decide (typ < 3)
  | .reth .. => decide (typ = 3 ∨ typ = 5)
  | .seth .. => decide (typ = 4)
  | .rrh .. => decide (typ = 6)
  | .aeth .. => decide (typ = 7)
  | .cxh .. => decide (8 ≤ typ ∧ typ < 12)
  | .none => decide (12 ≤ typ)

/-! ### The route header (R234) and notices (R255) -/

/-- The two words of a route header. -/
def packRh (r : RouteHdr) : List U64 :=
  [BitVec.ofNat 64 (r.dst.toNat + r.tc.toNat * 2 ^ 24 + flag r.dl 26 + r.dim.toNat * 2 ^ 27 + flag r.dir 29 +
     flag r.alt 30 + flag r.altSeen 31 + flag r.echoAlt 32 + flag r.fixRail 33 + r.rail.toNat * 2 ^ 34 +
     flag r.toGw 36 + r.gwPos.toNat * 2 ^ 37 + flag r.notice 49 + r.hops.toNat * 2 ^ 50),
   BitVec.ofNat 64 r.src.toNat]

/-- The route header that two words spell. -/
def unpackRh (l : List U64) : RouteHdr :=
  let w := l.getD 0 0
  { dst := cut 24 w 0, tc := cut 2 w 24, dl := bit w 26, dim := cut 2 w 27, dir := bit w 29, alt := bit w 30
    altSeen := bit w 31, echoAlt := bit w 32, fixRail := bit w 33, rail := cut 2 w 34, toGw := bit w 36
    gwPos := cut 12 w 37, notice := bit w 49, hops := cut 7 w 50, src := cut 24 (l.getD 1 0) 0 }

/-! ### The flit control word and the link word (R231, R232) -/

/-- The low 96 bits of a flit control word. -/
def packFcw (c : Fcw) : Nat :=
  c.fseq.toNat + c.vc.toNat * 2 ^ 12 + flag c.idle 15 + c.firstPkt.toNat * 2 ^ 16 + flag c.replay 24 + flag c.nak 25 +
    c.ackSeq.toNat * 2 ^ 26 + c.crVc.toNat * 2 ^ 38 + c.crCnt.toNat * 2 ^ 41 + c.dropSeq.toNat * 2 ^ 53 +
    flag c.dropValid 65 + c.dropDone.toNat * 2 ^ 66 + flag c.doneValid 78

/-- FCRC: the CRC over bytes 0 to 251 of a flit. -/
def fcrc (low : Nat) (payload : Bytes) : U32 := crc32c (padTo 240 payload ++ toLE 12 low)

/-- A whole flit control word, FCRC included. -/
def flitCtrl (c : Fcw) (payload : Bytes) : BitVec 128 :=
  BitVec.ofNat 128 (packFcw c + (fcrc (packFcw c) payload).toNat * 2 ^ 96)

/-- The fields of a received flit control word. -/
def unpackFcw (w : BitVec 128) : Fcw :=
  { fseq := BitVec.ofNat 12 (fld w 11 0), vc := BitVec.ofNat 3 (fld w 14 12), idle := bit w 15
    firstPkt := BitVec.ofNat 8 (fld w 23 16), replay := bit w 24, nak := bit w 25
    ackSeq := BitVec.ofNat 12 (fld w 37 26), crVc := BitVec.ofNat 3 (fld w 40 38)
    crCnt := BitVec.ofNat 12 (fld w 52 41), dropSeq := BitVec.ofNat 12 (fld w 64 53), dropValid := bit w 65
    dropDone := BitVec.ofNat 12 (fld w 77 66), doneValid := bit w 78 }

/-- FCRC of a received flit matches. -/
def fcrcOk (w : BitVec 128) (payload : Bytes) : Bool :=
  decide (fld w 127 96 = (fcrc (w.toNat % 2 ^ 96) payload).toNat)

/-! ### Whole packets -/

/-- The cipher header: CSEQ and KPHASE (R344). -/
def packCph (c : Cph) : U64 := BitVec.ofNat 64 (c.cseq.toNat + flag c.kphase 63)

/-- The cipher header of a packet as bytes; none without one. -/
def cphBytes (p : Packet) : Bytes := match p.cph with | some c => toLE 8 (packCph c).toNat | none => []
/-- The tag of a packet as bytes, most significant byte first; none without one. -/
def tagBytes (p : Packet) : Bytes := match p.cph with | some c => toBE 16 c.tag.toNat | none => []

/-- Base header, extension header and cipher header with CE taken as zero: the AAD of R345. -/
def aadBytes (p : Packet) : Bytes :=
  wordBytes (packBth { p.bth with ce := false } ++ packExt p.ext) ++ cphBytes p

/-- The ICRC of a packet (R99, R344). -/
def icrcOf (p : Packet) : U32 := crc32c (aadBytes p ++ p.data ++ tagBytes p)

/-- The packet with its ICRC computed. -/
def sealed (p : Packet) : Packet := { p with icrc := icrcOf p }

/-- A packet's bytes, route header excluded. -/
def packetBytes (p : Packet) : Bytes :=
  wordBytes (packBth p.bth ++ packExt p.ext) ++ cphBytes p ++ p.data ++ tagBytes p ++ toLE 4 p.icrc.toNat

/-- The length of a packet, route header excluded, without forming it (R127). -/
def packetLen (p : Packet) : Nat :=
  32 + 8 * extWords p.bth.typ.toNat + (if p.cph.isSome then 24 else 0) + p.data.length + 4

/-- The base header of a packet's bytes. -/
def bthOf (bs : Bytes) : Bth := unpackBth (bytesWords (bs.take 32))

/-- A packet's bytes read back under a route header. -/
def parsePacket (rh : RouteHdr) (bs : Bytes) : Packet :=
  let b := bthOf bs
  let n := extWords b.typ.toNat
  let e := unpackExt b.typ.toNat (bytesWords ((bs.drop 32).take (8 * n)))
  let r := bs.drop (32 + 8 * n)
  let c := BitVec.ofNat 64 (ofLE (r.take 8))
  let len := b.plen.toNat
  if b.ciph then
    { rh := rh, bth := b, ext := e, data := (r.drop 8).take len
      cph := some { cseq := cut 63 c 0, kphase := bit c 63, tag := BitVec.ofNat 128 (ofBE ((r.drop (8 + len)).take 16)) }
      icrc := BitVec.ofNat 32 (ofLE ((r.drop (24 + len)).take 4)) }
  else { rh := rh, bth := b, ext := e, cph := none, data := r.take len
         icrc := BitVec.ofNat 32 (ofLE ((r.drop len).take 4)) }

/-- FLOWHASH: CRC-32C over SRC_EP, DST_EP and DST_QPN, each as 4 little-endian bytes; DST_QPN is 0 in collective
packets (R365). -/
def flowHash (b : Bth) : U32 :=
  crc32c (toLE 4 b.srcEp.toNat ++ toLE 4 b.dstEp.toNat ++ toLE 4 (if 8 ≤ b.typ.toNat then 0 else b.dstQpn.toNat))

/-- CHUNK of a collective packet. -/
def chunkOf (e : Ext) : Nat := match e with | .cxh _ _ _ _ _ _ _ chunk _ _ _ _ => chunk.toNat | _ => 0

/-! ### Header checks (R97) -/

/-- The reserved bits of an extension header are zero. -/
def extRsvOk (typ : Nat) (e : Ext) : Bool :=
  match e with
  | .reth _ _ _ _ rsv readOff => decide (rsv = 0) && (decide (typ = 5) || decide (readOff = 0))
  | .seth .. => true
  | .rrh _ rsv => decide (rsv = 0)
  | .aeth _ _ _ rsv0 _ _ rsv1 _ _ rsv2 => decide (rsv0 = 0) && decide (rsv1 = 0) && decide (rsv2 = 0)
  | .cmeh _ _ _ _ _ _ _ rsv0 _ rsv1 => decide (rsv0 = 0) && decide (rsv1 = 0)
  | .cxh _ _ _ _ _ _ rsv _ _ _ _ _ => decide (rsv = 0)
  | .none => true

/-- A SUB that its collective TYPE assigns (05_collective_operations.md, Subtypes). -/
def subOk (typ : Nat) (e : Ext) : Bool :=
  match e with
  | .cxh _ sub .. => decide (if typ = 8 then sub.toNat < 4 else if typ = 11 then sub.toNat < 11 else sub = 0)
  | _ => true

/-- A header passes R97: VER, an assigned TYPE, every reserved bit zero; and PLEN is the payload's length. A
collective packet with CIPH 1 fails (R343), and so does an unassigned subtype or SYNDROME. -/
def headerOk (p : Packet) : Bool :=
  let b := p.bth
  let t := b.typ.toNat
  decide (b.ver = 1) && decide (t < 12) && decide (b.rsv = 0) && extOf t p.ext && extRsvOk t p.ext && subOk t p.ext &&
    (decide (t ≠ 7) || decide (b.psn = 0)) &&
    (decide (t < 8) || (!b.ackreq && !b.imm && decide (b.psn = 0) && decide (b.dstQpn = 0) && !b.ciph)) &&
    decide (b.plen.toNat = p.data.length ∧ p.data.length ≤ 4096) && (b.ciph == p.cph.isSome) &&
    (match p.ext with | .aeth _ syn .. => decide (syn.toNat < 7) | _ => true)

/-- The SYNDROME of an answer. -/
def syndromeOf (e : Ext) : Option Nat := match e with | .aeth _ syn .. => some syn.toNat | _ => none

/-- The SUB of a collective packet. -/
def subOf (e : Ext) : Option Nat := match e with | .cxh _ sub .. => some sub.toNat | _ => none

/-- The GID of a collective packet. -/
def gidOf (e : Ext) : Nat := match e with | .cxh gid .. => gid.toNat | _ => 0

/-- The ARG of a collective packet. -/
def argOf (e : Ext) : Nat := match e with | .cxh _ _ _ _ _ _ _ _ _ _ _ arg => arg.toNat | _ => 0

/-- The SRC_MEMBER of a collective packet. -/
def srcMemberOf (e : Ext) : Nat := match e with | .cxh _ _ m .. => m.toNat | _ => 0

/-- The DST_MEMBER of a collective packet. -/
def dstMemberOf (e : Ext) : Nat := match e with | .cxh _ _ _ m .. => m.toNat | _ => 0

/-- The SIG of a collective packet. -/
def sigOf (e : Ext) : U32 := match e with | .cxh _ _ _ _ _ _ _ _ sig _ _ _ => sig | _ => 0

/-- The adapter of an endpoint (R13). -/
def epAdapter (ep : BitVec 27) : BitVec 24 := BitVec.ofNat 24 ep.toNat

/-- The endpoint of an adapter that LOCAL names: 0 the host, 1 to 4 downstream ports 0 to 3 (R13, R88). -/
def endpointOf (adapter : BitVec 24) (loc : Nat) : BitVec 27 :=
  BitVec.ofNat 27 (adapter.toNat + (if loc = 0 then 2 ^ 26 else (loc - 1) % 4 * 2 ^ 24))

/-- An endpoint ID that R13 allows. -/
def endpointOk (ep : BitVec 27) : Bool := !(bit ep 26) || decide (fld ep 25 24 = 0)

end Sys2Proof.Machine
end

