-- ==== Sys2Proof/Machine/Arbiters.lean ====
section
/-!
DEFINITION. The deficit round robin of egress and transit arbitration (R142, R145, R146), the queues of an output,
and the charged length of a packet (R127).
-/
namespace Sys2Proof.Machine

/-- The deficit of a queue. -/
def Drr.deficitOf (d : Drr) (q : Nat) : Nat := aget 0 q d.deficit

/-- The next queue's visit begins. -/
def Drr.advance (n : Nat) (d : Drr) : Drr := { d with pos := (d.pos + 1) % n, fresh := true }

/-- The round ends with no queue of a quantum eligible: every empty queue it visits loses its deficit, and the next round
begins at queue 0. -/
def Drr.endRound (head : Nat → Option Nat) (d : Drr) : Drr :=
  { d with pos := 0, fresh := true, deficit := d.deficit.filter (fun x => (head x.1).isSome) }

/-- The queue just served is empty: its visit ends and its deficit is 0. -/
def Drr.emptied (n q : Nat) (d : Drr) : Drr :=
  if d.pos = q ∧ d.fresh = false then { d with deficit := aset q 0 d.deficit }.advance n else d

/-- The scavenger served next: the first eligible queue of quantum 0 after the last one, round robin (R146). -/
def scavenger (n : Nat) (quantum : Nat → Nat) (elig : Nat → Bool) (d : Drr) : Option Nat :=
  ((List.range n).map (fun i => (d.scav + 1 + i) % n)).find? (fun q => decide (quantum q = 0) && elig q)

/-- R145: the next packet's queue. `head q` is the charged length of the first packet of queue q, none if it is
empty; `elig` adds the credit test; `fuel` bounds the visits. -/
def drrPick (n : Nat) (quantum : Nat → Nat) (head : Nat → Option Nat) (elig : Nat → Bool) :
    Nat → Drr → Drr × Option Nat
  | 0, d => (d, none)
  | fuel + 1, d =>
    if !((List.range n).any (fun q => decide (0 < quantum q) && elig q)) then
      match scavenger n quantum elig d with
      | some q => ({ d.endRound head with scav := q }, some q)
      | none => (d.endRound head, none)
    else
      let q := d.pos
      match head q with
      | none => drrPick n quantum head elig fuel ({ d with deficit := aset q 0 d.deficit }.advance n)
      | some len =>
        if quantum q = 0 ∨ (d.fresh ∧ elig q = false) then drrPick n quantum head elig fuel (d.advance n)
        else
          let have_ := d.deficitOf q + (if d.fresh then quantum q else 0)
          if elig q ∧ len ≤ have_ then
            ({ d with fresh := false, deficit := aset q (have_ - len) d.deficit }, some q)
          else drrPick n quantum head elig fuel ({ d with deficit := aset q have_ d.deficit }.advance n)

/-- Visits enough for the longest packet at the smallest quantum. -/
def drrFuel : Nat := 2000

/-! ### The queues of an output -/

/-- The packets of queue v of input group g. -/
def OutQ.ofGroup (x : OutQ) (v g : Nat) : List OutPkt := x.pkts.filter (fun p => decide (p.vc = v ∧ p.group = g))

/-- The first packet of queue v in group g: its rails are served round robin (R142). -/
def OutQ.groupHead (x : OutQ) (v g : Nat) : Option OutPkt :=
  let l := x.ofGroup v g
  let last := aget 3 (v * 16 + g) x.rails
  match ((List.range 4).map (fun i => (last + 1 + i) % 4)).find? (fun r => l.any (fun p => decide (p.rail = r))) with
  | some r => l.find? (fun p => decide (p.rail = r))
  | none => none

/-- The lineage units of a packet: ⌈16 × charged length / (LINEAGE + 1)⌉ (R142). -/
def lineageUnits (p : OutPkt) : Nat := ceilDiv (16 * p.charge) (p.lineage + 1)

/-- The transit arbiter's choice for queue v of output o (R142): its next state and the packet. -/
def OutQ.transit (s : State) (o v : Nat) (x : OutQ) : Drr × Option OutPkt :=
  let lw := bit (reg s 0xC104) o
  let quantum := fun g => if lw then (regf s (0xC500 + 8 * o) (4 * g + 3) (4 * g) + 1) * 65536 else 0
  let (d, g) := drrPick 9 quantum (fun g => (x.groupHead v g).map lineageUnits) (fun g => (x.groupHead v g).isSome)
    drrFuel (aget {} v x.arb)
  (d, match g with | some g => x.groupHead v g | none => none)

/-- The egress arbiter's next packet among n queues, and the output after it has left its queue. `ok v p` is the
credit test of packet p on queue v. -/
def OutQ.pick (s : State) (o n : Nat) (quantum : Nat → Nat) (ok : Nat → OutPkt → Bool) (x : OutQ) :
    OutQ × Option OutPkt :=
  let head := fun v => (x.transit s o v).2
  let (d, v) := drrPick n quantum (fun v => (head v).map (fun p => p.charge))
    (fun v => match head v with | some p => ok v p | none => false) drrFuel x.drr
  match v with
  | none => ({ x with drr := d }, none)
  | some v =>
    match x.transit s o v with
    | (a, some p) =>
      let r := x.pkts.erase p
      let d := if r.any (fun y => decide (y.vc = v)) then d else d.emptied n v
      let a := if r.any (fun y => decide (y.vc = v ∧ y.group = p.group)) then a else a.emptied 9 p.group
      ({ x with pkts := r, drr := d, arb := aset v a x.arb, rails := aset (v * 16 + p.group) p.rail x.rails }, some p)
    | (_, none) => ({ x with drr := d }, none)

/-- The quanta of an output's DRR register, class c (R144), in bytes. -/
def classQuantum (s : State) (off c : Nat) : Nat := regf s off (16 * c + 15) (16 * c) * 64

/-- OVH_SVL, OVH_ETH4 or OVH_ETH6 of RATE_DEV_OVH (R128). -/
def ovhSvl (s : State) : Nat := regf s 0xC100 7 0
/-- The overhead of an Ethernet port: over IPv6 when ETH_DEV_CFG.V6 is 1. -/
def ovhEth (s : State) : Nat := if regf s 0x500 16 16 = 1 then regf s 0xC100 23 16 else regf s 0xC100 15 8

/-! ### This adapter (R12, R229) -/

/-- The pod of an adapter ID. -/
def podOf (a : BitVec 24) : Nat := fld a 23 18
/-- The position of an adapter ID. -/
def posOf (a : BitVec 24) : Nat := fld a 11 0
/-- This adapter's position. -/
def ownPos (s : State) : Nat := posOf (ownId s)
/-- The coordinate of a position in dimension d. -/
def coord (t d : Nat) : Nat := t / 2 ^ (4 * d) % 16
/-- The ring size of dimension d. -/
def ringSize (s : State) (d : Nat) : Nat := regf s 0xE000 (24 + 4 * d + 3) (24 + 4 * d) + 1
/-- The LINEAGE of facet f. -/
def lineageOf (s : State) (f : Nat) : BitVec 4 := (getF s f).rate.lineage

end Sys2Proof.Machine
end

