-- ==== Sys2Proof/Machine/EthOut.lean ====
section
/-!
DEFINITION. The Ethernet egress of a gateway (13_ethernet_ports.md, ZRT in UDP): sub-ports, frames, sub-port choice
(R364, R365), the queues of a sub-port and their draining (R361, R366, R368).
-/
namespace Sys2Proof.Machine

/-- The base of port p's register block (R377). -/
def ethBase (p : Nat) : Nat := 0x540 + 0x100 * p
/-- ETH_DEV_CFG.V6. -/
def ethV6 (s : State) : Bool := bit (reg s 0x500) 16
/-- ETH_DEV_CFG.MTU, from 1,280 to 9,216. -/
def ethMtu (s : State) : Nat := max 1280 (min 9216 (regf s 0x500 30 17))
/-- SPLIT of port p. -/
def ethSplit (s : State) (p : Nat) : Nat := regf s (ethBase p) 1 0
/-- The number of sub-ports of port p (R361). -/
def subPorts (s : State) (p : Nat) : Nat :=
  if !hasEth s p then 0 else match ethSplit s p with | 0 => 1 | 1 => 2 | 2 => 4 | _ => 0
/-- The rate of a sub-port of port p in MB/s (R361). -/
def subRate (s : State) (p : Nat) : Nat := match ethSplit s p with | 0 => 100000 | 1 => 50000 | 2 => 25000 | _ => 0

/-- Port p. -/
def getEth (s : State) (p : Nat) : EthPort := aget {} p s.eth.ports
/-- The state with an Ethernet port changed. -/
def modEth (p : Nat) (g : EthPort → EthPort) (s : State) : State :=
  { s with eth := { s.eth with ports := amod {} p g s.eth.ports } }

/-- Sub-port b of port p is live (R362). -/
def subLive (s : State) (p b : Nat) : Bool := decide (b < subPorts s p) && bit (getEth s p).up b

/-- The live sub-ports of the ports in a mask, in ascending (port, sub-port) order (R365). -/
def liveSubs (s : State) (mask : Nat) : List (Nat × Nat) :=
  (setBits 2 mask).flatMap (fun p => ((List.range 4).filter (subLive s p)).map (fun b => (p, b)))

/-- PMASK of the gateway entry of pod q. -/
def gwMask (s : State) (q : Nat) : Nat := regf s (0x800 + 0x20 * q) 50 49

/-- VALID of the gateway entry of pod q. -/
def gwValid (s : State) (q : Nat) : Bool := bit (reg s (0x800 + 0x20 * q)) 48

/-- The sub-port of a packet (R365); none where the gateway has no route to the pod (R367). -/
def chooseSub (s : State) (q : Nat) (rh : RouteHdr) (bs : Bytes) : Option (Nat × Nat) :=
  let l := liveSubs s (gwMask s q)
  let b := bthOf bs
  let chunk := ofLE ((bs.drop 40).take 4)
  let x := if b.typ.toNat < 8 then (if rh.fixRail then 0 else b.psn.toNat % 4)
    else if b.typ.toNat = 8 then chunk % 4 else 0
  if gwValid s q && decide (l ≠ []) then l[((flowHash b).toNat % 65536 + x) % l.length]? else none

/-! ### Frames (R364) -/

/-- The ones-complement sum of big-endian 16-bit words. -/
def sum16 : Bytes → Nat
  | [] => 0
  | [a] => a.toNat * 256
  | a :: b :: r => a.toNat * 256 + b.toNat + sum16 r

/-- A ones-complement sum folded to 16 bits. -/
def fold16 (n : Nat) : Nat := if n = 0 then 0 else (n - 1) % 65535 + 1

/-- The Internet checksum of bytes. -/
def inetSum (bs : Bytes) : Nat := 65535 - fold16 (sum16 bs)

/-- A UDP checksum, where a computed zero is sent as all ones. -/
def udpSum (pseudo bs : Bytes) : Nat := let c := 65535 - fold16 (sum16 pseudo + sum16 bs); if c = 0 then 65535 else c

/-- A byte sequence of a register: byte j of the value is byte j mod 8 of word j div 8 (R377). -/
def regBytes (s : State) (off n : Nat) : Bytes :=
  (wordBytes ((List.range (ceilDiv n 8)).map (fun i => reg s (off + 8 * i)))).take n

/-- One bit step of the IEEE 802.3 CRC-32. -/
def fcsStep (c : Nat) : Nat := if c.testBit 0 then (c / 2) ^^^ 0xEDB88320 else c / 2

/-- One byte step of the IEEE 802.3 CRC-32. -/
def fcsByte (c : Nat) (b : Byte) : Nat :=
  fcsStep (fcsStep (fcsStep (fcsStep (fcsStep (fcsStep (fcsStep (fcsStep (c ^^^ b.toNat))))))))

/-- The FCS of a frame, in wire order. -/
def fcsOf (bs : Bytes) : Bytes := toLE 4 ((bs.foldl fcsByte 0xFFFFFFFF) ^^^ 0xFFFFFFFF)

/-- A frame padded to 60 bytes and its FCS. -/
def closeFrame (bs : Bytes) : Bytes :=
  let b := if bs.length < 60 then padTo 60 bs else bs
  b ++ fcsOf b

/-- DSCP of traffic class c (R366). -/
def dscpOf (s : State) (c : Nat) : Nat := regf s 0x500 (37 + 6 * c) (32 + 6 * c)

/-- The IPv4 header of R364 over a payload of n bytes. -/
def ip4Header (tos n : Nat) (src dst : Bytes) : Bytes :=
  let h := fun (c : Nat) => [BitVec.ofNat 8 0x45, BitVec.ofNat 8 tos] ++ toBE 2 (20 + n) ++ toBE 2 0 ++ toBE 2 0x4000 ++
    [BitVec.ofNat 8 64, BitVec.ofNat 8 17] ++ toBE 2 c ++ src ++ dst
  h (inetSum (h 0))

/-- The IPv6 header of R364 over a payload of n bytes. -/
def ip6Header (tos flow n : Nat) (src dst : Bytes) : Bytes :=
  toBE 4 (6 * 2 ^ 28 + tos * 2 ^ 20 + flow % 2 ^ 20) ++ toBE 2 n ++ [BitVec.ofNat 8 17, BitVec.ofNat 8 64] ++ src ++ dst

/-- The pseudo-header of a UDP checksum over IPv6. -/
def pseudo6 (src dst : Bytes) (n : Nat) : Bytes := src ++ dst ++ toBE 4 n ++ toBE 4 17

/-- The UDP source port of a packet (R100, R364). -/
def udpSport (rh : RouteHdr) (bs : Bytes) : Nat :=
  let b := bthOf bs
  let x := if 8 ≤ b.typ.toNat then ofLE ((bs.drop 40).take 4) % 4 else if rh.fixRail then 0 else b.psn.toNat % 4
  0xC000 + ((flowHash b).toNat % 0x4000 ^^^ x * 0x1000)

/-- The frame that carries a packet to pod q by a sub-port, FCS included; `ce`: IP ECN is CE (R368). -/
def zrtFrame (s : State) (q p b : Nat) (ce : Bool) (rh : RouteHdr) (bs : Bytes) : Bytes :=
  let v6 := ethV6 s
  let n := if v6 then 16 else 4
  let src := regBytes s 0x510 n
  let dst := regBytes s (0x808 + 0x20 * q) n
  let udpLen := 8 + bs.length
  let udp := fun (c : Nat) => toBE 2 (udpSport rh bs) ++ toBE 2 (regf s 0x500 15 0) ++ toBE 2 udpLen ++ toBE 2 c ++ bs
  let tos := dscpOf s rh.tc.toNat * 4 + (if ce then 3 else 2)
  let mac := regBytes s (0x800 + 0x20 * q) 6 ++ regBytes s (ethBase p + 0x10 + 8 * b) 6
  let tag := if bit (reg s (ethBase p)) 3 then toBE 2 0x8100 ++ toBE 2 (regf s (ethBase p) 15 4) else []
  let ip := if v6 then toBE 2 0x86DD ++ ip6Header tos (flowHash (bthOf bs)).toNat udpLen src dst ++
      udp (udpSum (pseudo6 src dst udpLen) (udp 0))
    else toBE 2 0x0800 ++ ip4Header tos udpLen src dst ++ udp 0
  closeFrame (mac ++ tag ++ ip)

/-! ### The queues of a sub-port -/

/-- The output of sub-port b of port p. -/
def ethQ (s : State) (p b : Nat) : OutQ := aget {} b (getEth s p).queues

/-- Bytes queued in a traffic class of a sub-port. -/
def ethQueued (s : State) (p b c : Nat) : Nat :=
  ((ethQ s p b).pkts.filter (fun x => decide (x.vc = c))).foldl (fun n x => n + x.bytes.length) 0

/-- A packet enters its class queue of a sub-port, as a frame (R366, R368). -/
def ethEnqueue (q p b group rail : Nat) (rh : RouteHdr) (bs : Bytes) (s : State) : State :=
  let c := rh.tc.toNat
  let kib := regf s (ethBase p) 25 16
  let ce := decide (kib ≠ 0) && decide (kib * 1024 ≤ ethQueued s p b c)
  let x : OutPkt := { vc := c, group := group, rail := rail, charge := bs.length + ovhEth s, rh := rh
                      lineage := (bthOf bs).lineage.toNat, bytes := zrtFrame s q p b ce rh bs }
  modEth p (fun e => { e with
    ceMark := e.ceMark + (if ce then 1 else 0)
    queues := amod {} b (fun y => { y with pkts := y.pkts ++ [x] }) e.queues }) s

/-- A frame leaves a sub-port. -/
def sendFrame (p b : Nat) (far : FarBits) (bs : Bytes) (s : State) : State :=
  emit (.frame p b far bs) (modEth p (fun e => { e with txFrames := e.txFrames + 1 }) s)

/-- A sub-port sends queued frames while its byte budget lasts, by egress DRR (R145); a plain frame is on its way until
ETH_FRAME_SENT; `fuel` bounds them. -/
def drainSub : Nat → Nat → Nat → State → State
  | 0, _, _, s => s
  | n + 1, p, b, s =>
    match (ethQ s p b).pick s (24 + p) 4 (classQuantum s (0xC3C0 + 8 * p)) (fun _ _ => true) with
    | (y, some x) =>
      let need := x.bytes.length + 20
      let have_ := aget 0 b (getEth s p).budget
      if have_ < need then s
      else if x.plain.isSome then modEth p (fun e => { e with
        queues := aset b y e.queues, budget := adel b e.budget, leaving := aset b x e.leaving }) s
      else drainSub n p b (sendFrame p b ⟨x.rh.altSeen, x.rh.echoAlt, x.rh.fixRail⟩ x.bytes (modEth p (fun e => { e with
        queues := aset b y e.queues, budget := aset b (have_ - need) e.budget }) s))
    | (_, none) => modEth p (fun e => { e with budget := adel b e.budget }) s

/-- One CLK_SVC cycle of a sub-port with frames queued: its rate adds bytes to its budget (DESIGN CHOICE, log
entry 17), and whole frames leave. -/
def tickSub (p : Nat) (s : State) (b : Nat) : State :=
  if (ethQ s p b).pkts = [] || (agetq b (getEth s p).leaving).isSome then s
  else drainSub (ethQ s p b).pkts.length p b (modEth p (fun e => { e with
    budget := amod 0 b (fun n => n + subRate s p / 250) e.budget }) s)

/-- One cycle of the live sub-ports of every port. -/
def tickEth (s : State) : State := (liveSubs s 3).foldl (fun s x => tickSub x.1 s x.2) s

end Sys2Proof.Machine
end

