-- ==== Sys2Proof/Machine/Links.lean ====
section
/-!
DEFINITION. Svays links and routing (08_svays_fabric.md): credits and the sender of a link (R233, R239, R245, R247),
the break map (R252), dimension-order routing (R241), the rail choice (R242), injection, notices (R255), and a link
that leaves ACTIVE (R250).
-/
namespace Sys2Proof.Machine

/-- Link n. -/
def getL (s : State) (n : Nat) : Link := aget {} n s.fab.links
/-- The state with a link changed. -/
def modL (n : Nat) (g : Link → Link) (s : State) : State :=
  { s with fab := { s.fab with links := amod {} n g s.fab.links } }

/-- A link is live: ACTIVE (a fenced link is FENCED) (R229). -/
def linkLive (s : State) (n : Nat) : Bool := hasLink s n && decide ((getL s n).st = .active)

/-- The live rails of a direction. -/
def liveRails (s : State) (dirn : Nat) : List Nat := (List.range 4).filter (fun r => linkLive s (4 * dirn + r))

/-! ### The break map (R252) -/

/-- The adapter sees the hop in direction dirn broken: none of its four links is live. -/
def ownBroken (s : State) (dirn : Nat) : Bool := decide (liveRails s dirn = [])

/-- The last applied notice of coordinate c of dimension d. -/
def markOf (s : State) (d c : Nat) : Option RingMark := agetq (d * 16 + c) s.fab.marks

/-- Bit h of the break map of dimension d. -/
def breakBit (s : State) (d h : Nat) : Bool :=
  let k := ringSize s d
  let own := coord (ownPos s) d
  let fromMark := fun (c : Nat) (above : Bool) => match markOf s d c with
    | some m => if above then m.above else m.below
    | none => false
  let fromEnd := fun (c : Nat) (above : Bool) =>
    if c = own then ownBroken s (2 * d + (if above then 0 else 1)) else fromMark c above
  decide (2 ≤ k) && decide (h < k) && (fromEnd h true || fromEnd ((h + 1) % k) false)

/-- The hops walked from coordinate c to t in direction minus or plus; `fuel` bounds the ring. -/
def walkHops (k : Nat) (minus : Bool) : Nat → Nat → Nat → List Nat
  | 0, _, _ => []
  | fuel + 1, c, t =>
    if c = t then [] else
      if minus then ((c + k - 1) % k) :: walkHops k minus fuel ((c + k - 1) % k) t
      else c :: walkHops k minus fuel ((c + 1) % k) t

/-- R241's clear: no broken hop on the way. -/
def clearWay (s : State) (d t : Nat) (minus : Bool) : Bool :=
  (walkHops (ringSize s d) minus 16 (coord (ownPos s) d) t).all (fun h => !breakBit s d h)

/-! ### The routing decision (R241) -/

/-- The routing table entry of dimension d for coordinate c: PRI and ALT (R240). -/
def rtabEntry (s : State) (d c : Nat) : Nat × Nat :=
  let w := reg s (0xE100 + 0x10 * d + 4 * (c / 4))
  (fld w (8 * (c % 4) + 1) (8 * (c % 4)), fld w (8 * (c % 4) + 3) (8 * (c % 4) + 2))

/-- The dateline hop of dimension d (R238). -/
def dateline (s : State) (d : Nat) : Nat := min (ringSize s d - 1) (regf s 0xE000 (39 + 4 * d) (36 + 4 * d))

/-- The hop that direction minus or plus takes from this adapter. -/
def nextHop (s : State) (d : Nat) (minus : Bool) : Nat :=
  let c := coord (ownPos s) d
  if minus then (c + ringSize s d - 1) % ringSize s d else c

/-- What routing decides for a packet. -/
inductive Route where
  | deliver
  | noroute (target : Nat) (rh : RouteHdr)
  | broken (dirn : Nat)
  | out (dirn : Nat) (rh : RouteHdr)
deriving DecidableEq, Repr, Inhabited

/-- A way of an entry that may be taken: 1 plus, 2 minus, and no broken hop on it. -/
def wayOk (s : State) (d t w : Nat) : Bool := decide (w = 1 ∨ w = 2) && clearWay s d t (decide (w = 2))

/-- A packet enters dimension d toward coordinate t: its direction chosen, or no route. -/
def enterDim (s : State) (d t : Nat) (rh : RouteHdr) : Option RouteHdr :=
  let e := rtabEntry s d t
  let r := { rh with dim := BitVec.ofNat 2 d, dl := false, alt := false }
  if wayOk s d t e.1 then some { r with dir := decide (e.1 = 2) }
  else if wayOk s d t e.2 then some { r with dir := decide (e.2 = 2), alt := true, altSeen := true }
  else none

/-- R240, R255: the gateway of a pod: GW1 while GW0 is shunned. -/
def gatewayFor (s : State) (pod : Nat) : Nat :=
  let e := reg s (0xE200 + 8 * pod)
  if bit e 24 && (agetq pod s.fab.shun).isSome then fld e 23 12 else fld e 11 0

/-- R241's route, as a decision. -/
def decideRoute (s : State) (rh : RouteHdr) : Route :=
  let pod := podOf rh.dst
  let foreign := !rh.notice && decide (pod ≠ podOf (ownId s)) && !rh.toGw
  if foreign && !bit (reg s (0xE200 + 8 * pod)) 25 then .noroute (posOf rh.dst) rh
  else
    let rh := if foreign then { rh with toGw := true, gwPos := BitVec.ofNat 12 (gatewayFor s pod) } else rh
    let t := if rh.toGw then rh.gwPos.toNat else posOf rh.dst
    match [0, 1, 2].find? (fun d => decide (coord t d ≠ coord (ownPos s) d)) with
    | none => .deliver
    | some d =>
      match (if rh.dim.toNat = d then some rh else enterDim s d (coord t d) rh) with
      | none => .noroute t rh
      | some r =>
        let dirn := 2 * d + b2n r.dir
        if liveRails s dirn = [] then .broken dirn
        else .out dirn { r with
          dl := r.dl || decide (nextHop s d r.dir = dateline s d)
          hops := BitVec.ofNat 7 (min (r.hops.toNat + 1) 127) }

/-! ### Credits and flits (R233, R239, R245, R247) -/

/-- The allocation of VC v in flits: SVL_DEV_VCBUF, or its reset value where that is not allowed (R239). -/
def vcAlloc (s : State) (v : Nat) : Nat :=
  let w := reg s 0xE010
  let l := (List.range 8).map (fun i => 4 * fld w (8 * i + 7) (8 * i))
  let l := if 512 < l.foldl (· + ·) 0 ∨ 0 ∈ l then [96, 96, 32, 32, 96, 96, 32, 32] else l
  l.getD v 0

/-- credit(v) of a link (R239). -/
def credit (l : Link) (v : Nat) : Nat :=
  match agetq v l.tx.crSeen with
  | none => 0
  | some c => (c - aget 0 v l.tx.sent + aget 0 v l.tx.adj).toNat

/-- The flits that carry n bytes of packets. -/
def flitsOf (n : Nat) : Nat := ceilDiv n 240

/-- The bytes of a packet on a link: delimiter, route header, packet (R233). -/
def wireLen (p : OutPkt) : Nat := 24 + p.bytes.length

/-- The flits queued on VC v of a link. -/
def queuedFlits (l : Link) (v : Nat) : Nat :=
  ((l.tx.q.pkts.filter (fun p => decide (p.vc = v))).map (fun p => flitsOf (wireLen p))).foldl (· + ·) 0 +
    (aget [] v l.tx.ready).length

/-- ACK_SEQ that a receiver reports (R232, R247). -/
def ackSeqOf (s : State) (l : Link) : BitVec 12 := if hopRetry s then l.rx.expect else l.rx.drops.headD l.rx.expect

/-- The flit control word of the next flit of link n. -/
def nextFcw (s : State) (l : Link) (vc : Nat) (idle : Bool) (fseq : BitVec 12) (first : Byte) (replay : Bool) : Fcw :=
  { fseq := fseq, vc := BitVec.ofNat 3 vc, idle := idle, firstPkt := first, replay := replay, nak := l.rx.nak
    ackSeq := ackSeqOf s l, crVc := BitVec.ofNat 3 l.tx.crTurn
    crCnt := BitVec.ofNat 12 (vcAlloc s l.tx.crTurn) + aget 0 l.tx.crTurn l.rx.freed
    dropSeq := l.rx.drops.headD 0, dropValid := !l.rx.drops.isEmpty
    dropDone := l.tx.dropApplied.getD 0, doneValid := l.tx.dropApplied.isSome }

/-- The credit count of the next VC goes into the next flit. -/
def turnCredit (l : Link) : Link := { l with tx := { l.tx with crTurn := (l.tx.crTurn + 1) % 8 } }

/-- A flit leaves link n. -/
def putFlit (n : Nat) (fcw : Fcw) (bs : Bytes) (s : State) : State :=
  emit (.flit n (flitCtrl fcw bs) bs) (modL n turnCredit s)

/-- A new non-idle flit leaves on VC v and is kept until acknowledged. -/
def newFlit (n v : Nat) (bs : Bytes) (first : Byte) (s : State) : State :=
  let l := getL s n
  let f := l.tx.fseq
  let s := noteBusy (putFlit n (nextFcw s l v false f first false) bs s)
  modL n (fun l => { l with
    txFlits := l.txFlits + 1
    tx := { l.tx with
      fseq := f + 1
      unacked := List.drop (if hopRetry s then 0 else l.tx.unacked.length + 1 - 256)
        (l.tx.unacked ++ [{ fseq := f, vc := v, bytes := bs, first := first }])
      timer := if l.tx.unacked.isEmpty then s.now else l.tx.timer
      sent := amod 0 v (fun x => x + 1) l.tx.sent } }) s

/-- New flits may leave: with hop retry on, the replay buffer of 256 flits has room (R245). -/
def bufferRoom (s : State) (l : Link) : Bool := !hopRetry s || decide (l.tx.unacked.length < 256)

/-- The formed flits of VC v leave while credits and the replay buffer admit them, the last one padded (R233);
`fuel` bounds them. -/
def sendReady : Nat → Nat → State → Nat → State
  | 0, _, s, _ => s
  | fuel + 1, n, s, v =>
    let l := getL s n
    match aget [] v l.tx.ready with
    | [] => s
    | x :: r =>
      if decide (l.st = .active) && decide (0 < credit l v) && bufferRoom s l then
        sendReady fuel n (newFlit n v (padTo 240 x.bytes) x.first (modL n (fun l => { l with
          tx := { l.tx with ready := aset v r l.tx.ready } }) s)) v
      else s

/-- A packet's delimiter, route header and bytes (R233). -/
def wireBytes (p : OutPkt) : Bytes :=
  let d := toLE 4 (16 + p.bytes.length)
  let r := wordBytes (packRh p.rh)
  d ++ toLE 4 (crc32c (d ++ r)).toNat ++ r ++ p.bytes

/-- A packet in flits: it starts in the given one while 8 bytes of payload remain, and else at byte 0 of the next
(R233). -/
def layPacket (p : OutPkt) (x : OpenFlit) : List OpenFlit :=
  let fits := decide (x.bytes.length ≤ 232)
  let y : OpenFlit := if fits then x else {}
  let first := if y.first = 255 then BitVec.ofNat 8 y.bytes.length else y.first
  let flits := (chunksOf 240 (y.bytes ++ wireBytes p)).zipIdx.map (fun (b, i) =>
    if i = 0 then { bytes := b, first := first, begins := y.begins ++ [p] } else { bytes := b : OpenFlit })
  if fits then flits else x :: flits

/-- Packets put into flits after the formed ones of their VC; the last flit stays open until it leaves (R233). -/
def layFlits (formed : List OpenFlit) (l : List OutPkt) : List OpenFlit :=
  l.foldl (fun x p => x.dropLast ++ layPacket p (x.getLastD {})) formed

/-- The next packet of link n behind the run `acc` of VC v, with what then waits: the one that the port's round picks among
the VCs with credit for their flits, if it is of the run's VC (R145, R233). -/
def pickNext (s : State) (n : Nat) (v : Option Nat) (acc : List OutPkt) : Option (OutQ × OutPkt) :=
  let l := getL s n
  let ok := fun (w : Nat) (p : OutPkt) =>
    let flits := layFlits (aget [] w l.tx.ready) ((if v = some w then acc else []) ++ [p])
    decide (min flits.length (vcAlloc s w) ≤ credit l w)
  match l.tx.q.pick s n 8 (fun w => classQuantum s (0xC300 + 8 * n) (w / 2)) ok with
  | (_, none) => none
  | (q, some p) => if decide (v = none) || decide (v = some p.vc) then some (q, p) else none

/-- Packets picked in a row on one VC until the arbiter's next pick is another VC's; `fuel` bounds them. -/
def pickRun : Nat → Nat → Option Nat → List OutPkt → State → State × List OutPkt
  | 0, _, _, acc, s => (s, acc)
  | fuel + 1, n, v, acc, s =>
    match pickNext s n v acc with
    | none => (s, acc)
    | some (q, p) =>
      pickRun fuel n (some p.vc) (acc ++ [p]) (modL n (fun l => { l with tx := { l.tx with q := q } }) s)

/-- Formed flits of every VC of a link leave. -/
def sendAllReady (n : Nat) (s : State) : State :=
  (List.range 8).foldl (fun s v => sendReady (aget [] v (getL s n).tx.ready).length n s v) s

/-- Packets picked in a row on VC v become flits that wait to be sent. -/
def layPicked (n v : Nat) (l : List OutPkt) (s : State) : State :=
  modL n (fun x => { x with tx := { x.tx with
    ready := amod [] v (fun y => layFlits y l) x.tx.ready } }) s

/-- The next packets that the arbiters pick for link n become flits. -/
def layNext (n : Nat) (s : State) : State :=
  if (getL s n).st ≠ .active then s
  else
    match pickRun (getL s n).tx.q.pkts.length n none [] s with
    | (s, []) => s
    | (s, p :: r) => layPicked n p.vc (p :: r) s

/-- One turn of link n's sender: formed flits leave, and the next packets picked become flits (R145, R233, R239). -/
def pumpTurn (n : Nat) (s : State) : State := layNext n (sendAllReady n s)

/-- The sender of link n sends what it can: turns enough for every queued packet. -/
def pump (n : Nat) (s : State) : State :=
  (List.range ((getL s n).tx.q.pkts.length + 2)).foldl (fun s _ => pumpTurn n s) s

/-! ### Enqueueing (R236, R242) -/

/-- The pressure of a rail for VC v (R242). -/
def pressure (s : State) (n v : Nat) : Nat := queuedFlits (getL s n) v + vcAlloc s v - credit (getL s n) v

/-- The rail of a packet in a direction with a live rail (R242). -/
def chooseRail (s : State) (dirn : Nat) (rh : RouteHdr) (v : Nat) : Nat :=
  let live := liveRails s dirn
  if rh.fixRail then
    (((List.range 4).map (fun i => (rh.rail.toNat + i) % 4)).find? (fun r => live.contains r)).getD 0
  else
    let least := (live.map (fun r => pressure s (4 * dirn + r) v)).foldl min (10 ^ 6)
    let ptr := aget 0 dirn s.fab.railPtr
    (((List.range 4).map (fun i => (ptr + i) % 4)).find?
      (fun r => live.contains r && decide (pressure s (4 * dirn + r) v = least))).getD 0

/-- CE set in a packet's bytes: bit 11 of the base header (R97, R236). -/
def setCe (bs : Bytes) : Bytes := bs.modify 1 (fun b => b ||| 8)

/-- A wake restarts the lanes of a sleeping link (R248). -/
def wakeLink (n : Nat) (s : State) : State :=
  if (getL s n).st = .sleep then
    emit (linkWord s 3 3 n) (modL n (fun l => { l with st := .align, since := s.now }) s)
  else s

/-- The rails of a direction whose links sleep. -/
def sleepRails (s : State) (dirn : Nat) : List Nat :=
  (List.range 4).filter (fun r => hasLink s (4 * dirn + r) && decide ((getL s (4 * dirn + r)).st = .sleep))

/-- A flit waits for a direction none of whose links is live: it wakes the first that sleeps (R426; log entry 18). -/
def wakeRail (dirn : Nat) (s : State) : State :=
  match liveRails s dirn, sleepRails s dirn with
  | [], r :: _ => wakeLink (4 * dirn + r) s
  | _, _ => s

/-- A packet found no route toward position t: the first direction that its routing entry names and that only sleeps
is woken (R426; log entry 18). -/
def wakeFor (t : Nat) (rh : RouteHdr) (s : State) : State :=
  if !rh.toGw && !rh.notice && decide (podOf rh.dst ≠ podOf (ownId s)) then s
  else
    match [0, 1, 2].find? (fun d => decide (coord t d ≠ coord (ownPos s) d)) with
    | none => s
    | some d =>
      let e := rtabEntry s d (coord t d)
      match [e.1, e.2].find? (fun w => decide (w = 1 ∨ w = 2) && decide (liveRails s (2 * d + (w - 1)) = []) &&
          decide (sleepRails s (2 * d + (w - 1)) ≠ [])) with
      | none => s
      | some w => wakeRail (2 * d + (w - 1)) s

/-- The group and chunk of a CDATA packet's bytes. -/
def chunkName (bs : Bytes) : Nat × Nat := (ofLE ((bs.drop 32).take 2) % 4096, ofLE ((bs.drop 40).take 4))

/-- A CDATA packet of this adapter is noted at the link that carries it (R175). -/
def noteChunk (group n : Nat) (rh : RouteHdr) (bs : Bytes) (s : State) : State :=
  if decide (group = 8) && !rh.notice && decide ((bthOf bs).typ = 8) then modL n (fun l => { l with
    colls := if l.colls.contains (chunkName bs) then l.colls else l.colls ++ [chunkName bs] }) s
  else s

/-- A packet enters an output queue: its rail chosen, CE set under credit pressure, and the link's sender runs. -/
def enqueueOut (dirn group rail : Nat) (rh : RouteHdr) (bs : Bytes) (s : State) : State :=
  let v := 2 * rh.tc.toNat + b2n rh.dl
  let r := chooseRail s dirn rh v
  let n := 4 * dirn + r
  let thr := regf s 0xE008 9 0
  let mark := !rh.notice && decide (thr ≠ 0) && decide (thr ≤ queuedFlits (getL s n) v)
  let x : OutPkt := { vc := v, group := group, rail := rail, charge := bs.length + ovhSvl s, rh := rh
                      lineage := if rh.notice then (lineageOf s 0).toNat else (bthOf bs).lineage.toNat
                      bytes := if mark then setCe bs else bs }
  let ptr := if rh.fixRail then s.fab.railPtr else amod 0 dirn (fun p => (p + 1) % 4) s.fab.railPtr
  let s := noteBusy (noteChunk group n rh bs { s with fab := { s.fab with railPtr := ptr } })
  pump n (modL n (fun l => { l with
    ceMark := l.ceMark + (if mark then 1 else 0)
    tx := { l.tx with q := { l.tx.q with pkts := l.tx.q.pkts ++ [x] } } }) s)

/-! ### Notices and discards (R253, R255) -/

/-- The words of a notice as bytes. -/
def noticeBytes (m : Notice) : Bytes := wordBytes [m.w0, m.w1]

/-- A packet is discarded at a break (R253). -/
def breakDrop (s : State) : State := { s with fab := { s.fab with breakdrop := s.fab.breakdrop + 1 } }

/-- A NOROUTE notice travels on, arrives here, or is discarded silently (R255). -/
def routeNotice (group rail : Nat) (m : Notice) (s : State) : State :=
  match decideRoute s m.rh with
  | .deliver => emit (.notice m) s
  | .noroute t r => wakeFor t r s
  | .broken dirn => breakDrop (wakeRail dirn s)
  | .out dirn rh => enqueueOut dirn group rail rh (noticeBytes m) s

/-- The route header of a notice that this adapter sends. -/
def noticeRh (s : State) (dst : BitVec 24) : RouteHdr :=
  { dst := dst, tc := 3, dl := false, dim := 3, dir := false, alt := false, altSeen := false, echoAlt := false
    fixRail := false, rail := 0, toGw := false, gwPos := 0, notice := true, hops := 0, src := ownId s }

/-- A packet without a route is discarded and answered by NOROUTE (R255). -/
def sendNoroute (target : Nat) (gw : Bool) (rh : RouteHdr) (s : State) : State :=
  let s := { s with fab := { s.fab with noroute := s.fab.noroute + 1 } }
  routeNotice 8 0 { rh := noticeRh s rh.src, w0 := 1
                    w1 := BitVec.ofNat 64 (target + flag gw 12 + rh.dst.toNat * 2 ^ 13) } s

/-! ### Routing (R241, R367) -/

/-- A packet for a gateway that this adapter is leaves the pod, or is discarded with NOROUTE (R8, R364, R367). -/
def toEthernet (group rail : Nat) (rh : RouteHdr) (bs : Bytes) (s : State) : State :=
  match chooseSub s (podOf rh.dst) rh bs with
  | some (p, b) => ethEnqueue (podOf rh.dst) p b group rail rh bs s
  | none => sendNoroute rh.gwPos.toNat true rh s

/-- Every arriving or injected packet of KIND 0 (R241). -/
def routePacket (group rail : Nat) (rh : RouteHdr) (bs : Bytes) (s : State) : State :=
  match decideRoute s rh with
  | .deliver =>
    if rh.toGw || decide (podOf rh.dst ≠ podOf (ownId s)) then toEthernet group rail { rh with
        toGw := true, gwPos := BitVec.ofNat 12 (ownPos s) } bs s
    else emit (.deliver bs rh) s
  | .noroute t r => sendNoroute t r.toGw r (wakeFor t r s)
  | .broken dirn => breakDrop (wakeRail dirn s)
  | .out dirn r => enqueueOut dirn group rail r bs s

/-- A packet of this adapter enters transit arbitration as local injection (group 8), sealed with its ICRC. -/
def inject (p : Packet) (s : State) : State :=
  let p := sealed p
  routePacket 8 0 p.rh (packetBytes p) (emit (.packet p) s)

/-- The route header of a packet that this adapter injects (R241, R242). -/
def localRh (s : State) (dst : BitVec 24) (tc : Nat) (single : Bool) (hash : U32) (echoAlt : Bool) : RouteHdr :=
  { dst := dst, tc := BitVec.ofNat 2 tc, dl := false, dim := 3, dir := false, alt := false, altSeen := false
    echoAlt := echoAlt, fixRail := single, rail := if single then BitVec.ofNat 2 hash.toNat else 0, toGw := false
    gwPos := 0, notice := false, hops := 0, src := ownId s }

/-- A packet to this adapter's own pod, or to another pod through a gateway that is this adapter, is charged with the
overhead of its first hop's medium (R127). -/
def charged (s : State) (p : Packet) : Nat :=
  let pod := podOf p.rh.dst
  let eth := decide (pod ≠ podOf (ownId s)) && decide (gatewayFor s pod = ownPos s)
  packetLen p + (if eth then ovhEth s else ovhSvl s)

/-! ### RING notices (R252) -/

/-- A RING notice leaves in a direction, if a live rail continues there. -/
def sendRing (dirn group rail : Nat) (m : Notice) (hops : Nat) (s : State) : State :=
  let d := dirn / 2
  let minus := decide (dirn % 2 = 1)
  if liveRails s dirn = [] then s
  else enqueueOut dirn group rail { m.rh with
    dim := BitVec.ofNat 2 d, dir := minus, hops := BitVec.ofNat 7 hops
    dl := m.rh.dl || decide (nextHop s d minus = dateline s d) } (noticeBytes m) s

/-- BELOW and ABOVE of dimension d as this adapter sees them. -/
def ownHops (s : State) (d : Nat) : Bool × Bool := (ownBroken s (2 * d + 1), ownBroken s (2 * d))

/-- One RING notice of dimension d, sent in both directions. -/
def originate (s : State) (d : Nat) : State :=
  let h := ownHops s d
  let q := s.fab.nseq + 1
  let m : Notice := { rh := { noticeRh s 0 with dim := BitVec.ofNat 2 d }, w1 := 0
                      w0 := BitVec.ofNat 64 (2 + d * 2 ^ 4 + coord (ownPos s) d * 2 ^ 6 + flag h.1 10 + flag h.2 11 +
                        q.toNat * 2 ^ 12) }
  let s := { s with fab := { s.fab with nseq := q, told := aset d h s.fab.told } }
  sendRing (2 * d + 1) 8 0 m 1 (sendRing (2 * d) 8 0 m 1 s)

/-- The hops of link n's ring at this adapter, as told by its last RING notice; a change is told at once (R252). -/
def tellHops (n : Nat) (s : State) : State :=
  let d := n / 8
  if decide (2 ≤ ringSize s d) && decide (aget (false, false) d s.fab.told ≠ ownHops s d) then originate s d else s

/-! ### A link that leaves ACTIVE (R250) -/

/-- A packet queued for a link that left ACTIVE takes another rail of its direction, or is discarded. -/
def requeue (dirn : Nat) (s : State) (p : OutPkt) : State :=
  if liveRails s dirn = [] then breakDrop (wakeRail dirn s)
  else enqueueOut dirn p.group p.rail p.rh p.bytes s

/-- The packets of a link that have not begun to leave: those of flits that have not left, in the order of the VCs, and
then the queued ones. -/
def notBegun (l : Link) : List OutPkt :=
  (List.range 8).flatMap (fun v => (aget [] v l.tx.ready).flatMap OpenFlit.begins) ++ l.tx.q.pkts

/-- R250: link n leaves ACTIVE for another state: its buffers are emptied, the packets that have not begun to leave
re-railed, and a broken hop told to the ring (R252). -/
def linkQuit (n : Nat) (dst : LState) (s : State) : State :=
  let left := notBegun (getL s n)
  let s := modL n (fun l => { l with
    st := dst, since := s.now, tx := {}, rx := {}, winUnc := 0, asked := false, granted := false, colls := [] }) s
  tellHops n (left.foldl (requeue (n / 4)) s)

/-- A link fails: the chunks it carried are noted as lost (R175). -/
def linkLeave (n : Nat) (dst : LState) (s : State) : State :=
  linkQuit n dst { s with grp := { s.grp with lost := s.grp.lost ++ (getL s n).colls } }

/-- A link changes state outside ACTIVE. -/
def linkTo (n : Nat) (dst : LState) (s : State) : State := modL n (fun l => { l with st := dst, since := s.now }) s

/-- A link that fails to come back returns to DETECT (R248). -/
def linkDetect (n : Nat) (s : State) : State := linkLeave n .detect s

/-- The fence of a link (R248): its lanes in electrical idle. -/
def fenceLink (n : Nat) (s : State) : State :=
  if (getL s n).st = .disabled ∨ (getL s n).st = .fenced then s
  else
    let clear := { s with fab := { s.fab with miswire := s.fab.miswire &&& ~~~(BitVec.ofNat 24 (2 ^ n)) } }
    noteFence 0x17 n (linkLeave n .fenced clear)

/-- A fault-driven fence of a link: its event with ACTION 5, then the fence (R387). -/
def faultFenceLink (n : Nat) (forced : Bool) (s : State) : State :=
  if (getL s n).st = .fenced then s else fenceLink n (faultNow 0x17 n (collect 0x17 clsUC n forced 0 0 5 none s))

/-- An SVL_DOWN event of link n, counted toward its fence (R248, R392). -/
def svlDownEvent (n : Nat) (forced : Bool) (s : State) : State :=
  let s := countWindow 0x15 n (collect 0x15 clsUC n forced 0 0 0 none s)
  if regf s 0xFC24 11 4 < windowCount s 0x15 n then faultFenceLink n forced s else s

/-- A failure takes link n from ACTIVE to RETRAIN, counted and reported (R248, R250). -/
def linkDownBy (n : Nat) (forced : Bool) (s : State) : State :=
  if (getL s n).st ≠ .active then s
  else svlDownEvent n forced (linkLeave n .retrain (modL n (fun l => { l with down := l.down + 1 }) s))

/-- A failure that was not injected. -/
def linkDown (n : Nat) (s : State) : State := linkDownBy n false s

end Sys2Proof.Machine
end

