-- ==== Sys2Proof/Machine/Rates.lean ====
section
/-!
DEFINITION. Rates (04_rates_and_arbitration.md): a QP's rate and credit (R129 to R136), and the facet calendar wheel
(R137 to R139).
-/
namespace Sys2Proof.Machine

/-! ### Profiles (R148) -/

def profA (s : State) (p hi lo : Nat) : Nat := regf s (0xC200 + 0x10 * p) hi lo
def profB (s : State) (p hi lo : Nat) : Nat := regf s (0xC208 + 0x10 * p) hi lo
def rMax (s : State) (p : Nat) : Nat := profA s p 21 0
def ccEn (s : State) (p : Nat) : Bool := decide (profA s p 48 48 = 1)
/-- The period of profile p in CLK_SVC cycles (R131). -/
def ratePeriod (s : State) (p : Nat) : Nat := us (2 ^ profB s p 15 12)
/-- The decrease hold in CLK_SVC cycles (R131). -/
def rateHold (s : State) (p : Nat) : Nat := us (2 ^ profB s p 11 8)

/-- *top* of R130. -/
def rateTop (s : State) (r : QpRate) : Nat :=
  if rMax s r.profile = 0 then r.line.toNat else min (rMax s r.profile) r.line.toNat
/-- *floor* of R130. -/
def rateFloor (s : State) (r : QpRate) : Nat := min (rateTop s r) (1024 / 2 ^ min (profA s r.profile 47 44) 10)
/-- The starting rate of R130. -/
def rateStart (s : State) (r : QpRate) : Nat :=
  let x := profA s r.profile 43 22
  if x ≠ 0 ∧ x ≤ rateTop s r then x else rateTop s r

/-- *line* of R130 for a destination adapter: the rails of the first hop's direction, or the rate of the port split; four
rails where there is no first hop (DESIGN CHOICE, log entry 68). -/
def lineRate (s : State) (dst : BitVec 24) (single : Bool) : Nat :=
  let foreign := decide (podOf dst ≠ podOf (ownId s))
  if foreign && decide (gatewayFor s (podOf dst) = ownPos s) then
    match liveSubs s (gwMask s (podOf dst)) with
    | (p, _) :: _ => subRate s p
    | [] => ((setBits 2 (gwMask s (podOf dst))).map (subRate s)).headD 0
  else if single then 64000
  else match decideRoute s (localRh s dst 0 false 0 false) with
    | .out dirn _ => 64000 * ((List.range 4).filter (fun r => hasLink s (4 * dirn + r) && !linkFenced s (4 * dirn + r))).length
    | _ => 64000 * 4

/-- at_rts of R131 and R134. -/
def rateAtRts (s : State) (line : Nat) (profile : Nat) : QpRate :=
  let r : QpRate := { profile := profile, line := BitVec.ofNat 32 line }
  { r with
    r := BitVec.ofNat 32 (rateStart s r), rt := BitVec.ofNat 32 (rateTop s r)
    tDec := s.now - BitVec.ofNat 64 (rateHold s profile), tInc := s.now, credit := 0, t := s.now, idleSince := s.now }

/-- The rate that limits a QP; none is unlimited (R131, R136). -/
def rateLimit (s : State) (r : QpRate) : Option Nat :=
  if ccEn s r.profile then some r.r.toNat else if rMax s r.profile = 0 then none else some (rMax s r.profile)

/-- update of R134, credit in units of 1/250 byte. -/
def creditUpdate (s : State) (rate : Nat) (r : QpRate) : QpRate :=
  let cap : Int := profB s r.profile 51 42 * 256 * 250
  { r with credit := min (r.credit + (rate : Int) * ((s.now - r.t).toNat : Int)) cap, t := s.now }

/-- update of R134 at the rate that has held until now: it comes before every change of the rate. An update between two
others at one rate changes nothing, so the test of eligible need not store its own. -/
def creditTo (s : State) (r : QpRate) : QpRate :=
  match rateLimit s r with
  | none => r
  | some x => creditUpdate s x r

/-- on_congestion of R131; the flag says that the rate was cut. -/
def rateCut (s : State) (r : QpRate) : QpRate × Bool :=
  let dec := profB s r.profile 7 0
  if !ccEn s r.profile ∨ dec = 0 ∨ !elapsed s r.tDec (rateHold s r.profile) then (r, false)
  else
    let r := creditTo s r
    let cut := r.r.toNat * dec / 256
    ({ r with
      rt := r.r, r := BitVec.ofNat 32 (max (rateFloor s r) (r.r.toNat - cut)), stage := 0, tDec := s.now
      tInc := s.now }, true)

/-- on_period of R131. -/
def rateStep (s : State) (r : QpRate) : QpRate :=
  let r := creditTo s r
  let stage := if r.stage.toNat < 15 then r.stage + 1 else r.stage
  let rt := if profB s r.profile 19 16 < stage.toNat then min (r.rt.toNat + profB s r.profile 41 20) (rateTop s r)
    else r.rt.toNat
  { r with
    tInc := r.tInc + BitVec.ofNat 64 (ratePeriod s r.profile), stage := stage, rt := BitVec.ofNat 32 rt
    r := BitVec.ofNat 32 ((r.r.toNat + rt) / 2) }

/-- eligible of R134. -/
def creditOk (s : State) (r : QpRate) : Bool :=
  match rateLimit s r with
  | none => true
  | some x => decide (0 ≤ (creditUpdate s x r).credit)

/-- on_send of R134. -/
def creditSpend (s : State) (len : Nat) (r : QpRate) : QpRate :=
  match rateLimit s r with
  | none => r
  | some x => let r := creditUpdate s x r
    { r with credit := r.credit - (len : Int) * 250 }

/-- A congestion signal on QP n (R129, R131), counted in RATE_FAC_DEC when it cuts the rate. -/
def congest (n : Nat) (s : State) : State :=
  let q := getQp s n
  let (r, cut) := rateCut s q.rate
  let s := modQp n (fun q => { q with rate := r }) s
  if cut then modF q.facet (fun f => { f with rate := { f.rate with dec := f.rate.dec + 1 } }) s else s

/-- R133: a QP idle for 16 periods returns to the starting rate when its next packet becomes ready. -/
def rateWake (s : State) (r : QpRate) : QpRate :=
  if ccEn s r.profile && elapsed s r.idleSince (16 * ratePeriod s r.profile) then
    { creditTo s r with r := BitVec.ofNat 32 (rateStart s r), rt := BitVec.ofNat 32 (rateTop s r), stage := 0 }
  else r

/-! ### The wheel (R137 to R139) -/

/-- A facet is released by the wheel. -/
def wheelFree (s : State) (f : Nat) : Bool := decide ((getF s f).rate.slot = none)

/-- on_facet_send of R138; time in units of 1/1,024 cycle. -/
def facetCharge (f len : Nat) (s : State) : State :=
  let x := (getF s f).rate
  let cap := x.cap.toNat
  if cap = 0 then s
  else
    let now := s.now.toNat * 1024
    let nxt := max x.nxt.toNat (now - 16384) + len * 256000 / cap
    let slot := (nxt + 16383) / 16384
    modF f (fun y => { y with rate := { y.rate with
      nxt := BitVec.ofNat 64 nxt
      wheel := y.rate.wheel + (if now < nxt then 1 else 0)
      slot := if now < nxt then some (slot % 1024) else y.rate.slot
      laps := if now < nxt then BitVec.ofNat 8 ((slot - s.wheel) / 1024) else y.rate.laps } }) s

end Sys2Proof.Machine
end

