-- ==== Sys2Proof/Machine/CipCore.lean ====
section
/-!
DEFINITION. The cipher engine's scheduler (R333 to R336, R339) and the wire form of ciphered packets (R343 to R348).
-/
namespace Sys2Proof.Machine

def Qp.cipher (q : Qp) : Bool := bit q.attr 9

/-- Effective PMTU in bytes (R89, R102). -/
def Qp.pmtu (q : Qp) : Nat := 256 * 2 ^ q.pmtuExp

/-- A key of a QP by direction and phase. -/
def QpCip.keyOf (c : QpCip) (tx phase : Bool) : Option Key :=
  if tx then (if phase then c.tx1 else c.tx0) else (if phase then c.rx1 else c.rx0)

/-- The key a job uses: the one its phase or slot holds when it begins (R339). -/
def jobKey (s : State) : Job → Option Key
  | .packet _ n _ tx p => (getQp s n).cip.keyOf tx (match p.cph with | some c => c.kphase | none => false)
  | .piece f => match (getF s f).cip.run with
    | some r => agetq r.slot (getF s f).cip.slots
    | none => none

/-- CMP_MAX: 0 counts as 1, 9 to 15 as 8 (R334). -/
def cmpMax (s : State) : Nat := max 1 (min 8 (regf s 0xF8C0 3 0))

/-- A core runs a compatibility piece. -/
def Core.runsPiece (c : Core) : Bool :=
  match c.run.map Run.job with | some (.piece _) => true | _ => false

/-- Cores that run C jobs. -/
def cmpBusy (s : State) : Nat := ((List.range 8).filter (fun k => (aget {} k s.cip.cores).runsPiece)).length

/-- A facet's command has a piece on a core, running or suspended. -/
def pieceOut (s : State) (f : Nat) : Bool :=
  s.cip.cores.any (fun c => decide ((c.2.run.map (fun r => r.job)) = some (.piece f)) ||
    decide ((c.2.suspended.map (fun r => r.job)) = some (.piece f)))

/-- The facet whose command offers the next piece, round robin after the last (R334). -/
def nextPiece (s : State) : Option Nat :=
  ((List.range 128).map (fun i => (s.cip.cmpRr + 1 + i) % 128)).find?
    (fun f => (getF s f).cip.run.isSome && !pieceOut s f)

/-- The next D or C job: TX, RX and CMP in round robin, skipping an empty queue (R334). -/
def nextShared (s : State) : Option (Nat × Job) :=
  ((List.range 3).map (fun i => (s.cip.rr + 1 + i) % 3)).findSome? (fun k =>
    if k = 0 then s.cip.qTx.head?.map (fun j => (0, j))
    else if k = 1 then s.cip.qRx.head?.map (fun j => (1, j))
    else if cmpBusy s < cmpMax s then (nextPiece s).map (fun f => (2, .piece f)) else none)

/-- The bytes of the next piece of facet f's command: at most 4 KiB (R333). -/
def pieceLen (r : CmpRun) : Nat := min 4096 (r.len - r.pos)

/-- The source read of the next piece of facet f's command (R349). -/
def readPiece (f : Nat) (s : State) : State :=
  let x := (getF s f).cip
  match x.run with
  | none => s
  | some r =>
    if pieceLen r = 0 then s
    else
      let (t, a) := pinPlace s f (fld x.cmpSegs 7 0) (x.cmpSoff + BitVec.ofNat 64 r.pos)
      readOut (some (.cipher f)) f t a (pieceLen r) s

/-- AES blocks of a job: the payload's and J0, or those of a piece of 4 KiB. -/
def jobBlocks : Job → Nat
  | .packet _ _ _ _ p => ceilDiv p.data.length 16 + 1
  | .piece _ => 256

/-- Blocks of a running job still to feed (R335): in one cycle of CLK_SVC, 4.5 cycles of CLK_MEM, a core feeds 3 a cycle. -/
def Run.toFeed (now : U64) (r : Run) : Nat := r.left - 27 * (now - r.since).toNat / 2

/-- Core c begins a job with the key held now. -/
def beginJob (c : Nat) (j : Job) (s : State) : State :=
  let s := match j with | .piece f => readPiece f s | _ => s
  { s with cip := { s.cip with cores := amod {} c (fun x => { x with
      run := some { job := j, key := jobKey s j, left := jobBlocks j, since := s.now } }) s.cip.cores } }

/-- An idle core takes the oldest U job, else the next shared one (R334). -/
def takeJob (c : Nat) (s : State) : State :=
  match s.cip.qU with
  | j :: r => beginJob c j { s with cip := { s.cip with qU := r } }
  | [] => match nextShared s with
    | none => s
    | some (k, j) => beginJob c j { s with cip := { s.cip with
        rr := k, qTx := if k = 0 then s.cip.qTx.tail else s.cip.qTx
        qRx := if k = 1 then s.cip.qRx.tail else s.cip.qRx
        cmpRr := match j with | .piece f => f | _ => s.cip.cmpRr } }

/-- A running job that a U job may suspend (R335): not urgent, on a core that holds no suspended job. -/
def suspendable (s : State) (c : Nat) : Bool :=
  let x : Core := aget {} c s.cip.cores
  x.suspended.isNone && (match x.run.map Run.job with
    | some (.packet _ _ urgent _ _) => !urgent
    | some (.piece _) => true
    | none => false)

/-- The core whose job is suspended: a C job if one runs, else the D job with the most blocks left (R335). -/
def suspendChoice (s : State) : Option Nat :=
  let l := (List.range 8).filter (suspendable s)
  match l.find? (fun c => (aget {} c s.cip.cores).runsPiece) with
  | some c => some c
  | none =>
    let blocks := fun (c : Nat) => match (aget {} c s.cip.cores : Core).run with | some r => r.toFeed s.now | none => 0
    let most := (l.map blocks).foldl max 0
    l.find? (fun c => blocks c = most)

/-- Idle cores of a list take jobs in its order (R334). -/
def fillCores (l : List Nat) (s : State) : State :=
  l.foldl (fun s c =>
    if (aget {} c s.cip.cores).run.isNone && (aget {} c s.cip.cores).suspended.isNone then takeJob c s else s) s

/-- A waiting U job with no idle core suspends one running job (R335). -/
def suspendOne (s : State) : State :=
  if decide (s.cip.qU ≠ []) && bit (reg s 0xF8C0) 4 then
    match suspendChoice s with
    | some c => takeJob c { s with cip := { s.cip with
        suspends := s.cip.suspends + 1
        cores := amod {} c (fun x => { x with
          run := none, suspended := x.run.map (fun r => { r with left := r.toFeed s.now }) }) s.cip.cores } }
    | none => s
  else s

/-- Idle cores take jobs; a waiting U job with no idle core suspends one running job (R334, R335). -/
def schedule (s : State) : State := suspendOne (fillCores (List.range 8) s)

/-- A packet reaches the engine. -/
def toEngine (n : Nat) (tx : Bool) (p : Packet) (s : State) : State :=
  let urgent := decide (p.rh.tc = 1)
  let j : Job := .packet s.cip.nextId n urgent tx p
  schedule { s with cip := { s.cip with
    nextId := s.cip.nextId + 1
    flow := s.cip.flow ++ [{ id := s.cip.nextId, qpn := n, tx := tx, at_ := s.now }]
    qU := if urgent then s.cip.qU ++ [j] else s.cip.qU
    qTx := if !urgent && tx then s.cip.qTx ++ [j] else s.cip.qTx
    qRx := if !urgent && !tx then s.cip.qRx ++ [j] else s.cip.qRx } }

/-- The PSN after those of a request packet that consumes PSNs; none for the others. -/
def psnEnd (q : Qp) (p : Packet) : Option U32 :=
  match p.bth.typ.toNat, p.ext with
  | 3, _ => some (p.bth.psn + 1)
  | 4, _ => some (p.bth.psn + 1)
  | 5, .reth _ _ len _ _ _ => some (p.bth.psn + BitVec.ofNat 32 (max 1 (ceilDiv len.toNat q.pmtu)))
  | _, _ => none

/-- Some PSN of the QP is in flight: at a CIPHER QP one that has been handed to the engine (R348). -/
def Qp.inFlight (q : Qp) : Bool :=
  let d := (q.cip.handed - q.req.ack).toNat
  decide (q.req.hi ≠ q.req.ack) && (!q.cipher || decide (0 < d ∧ d < 2 ^ 31))

/-- A request packet is handed to the engine; with nothing in flight until then, the resend timer starts (R348). -/
def markHanded (now : U64) (p : Packet) (q : Qp) : Qp :=
  match psnEnd q p with
  | none => q
  | some e =>
    let later := decide ((e - q.cip.handed).toNat < 2 ^ 31)
    { q with
      req := { q.req with timer := if q.inFlight then q.req.timer else now }
      cip := { q.cip with handed := if later then e else q.cip.handed } }

/-- Waiting packets of QP n that its key and CSEQ_BOUND admit are handed to the engine (R346, R348); `fuel` bounds
them. -/
def cipDrain : Nat → Nat → State → State
  | 0, _, s => s
  | k + 1, n, s =>
    let c := (getQp s n).cip
    match c.waiting with
    | [] => s
    | p :: r =>
      if (c.keyOf true c.phase).isNone then s
      else if c.bound.toNat ≤ c.cseq.toNat then mirrorIssue (.cseq n) s
      else
        let s := modQp n (fun q => markHanded s.now p
          { q with cip := { q.cip with cseq := q.cip.cseq + 1, waiting := r } }) s
        cipDrain k n (toEngine n true { p with cph := some { cseq := c.cseq, kphase := c.phase, tag := 0 } } s)

/-- Every packet of QP n that waits for the engine goes on as far as it may. -/
def cipGo (n : Nat) (s : State) : State := cipDrain (getQp s n).cip.waiting.length n s

/-- A packet of QP n leaves: a CIPHER QP's through the engine, except CONNECT, ACCEPT and REJECT (R336, R343). -/
def sendQp (n : Nat) (p : Packet) (s : State) : State :=
  if bit (getQp s n).attr 9 && decide (3 ≤ p.bth.typ.toNat) then
    let p := { p with bth := { p.bth with ciph := true } }
    cipGo n (modQp n (fun q => { q with cip := { q.cip with waiting := q.cip.waiting ++ [p] } }) s)
  else inject p s

/-- The IV of R345. -/
def gcmIv (k : Key) (c : Cph) : BitVec 96 := BitVec.ofNat 96 (k.salt.toNat * 2 ^ 64 + c.cseq.toNat)

/-- A packet enciphered under a key (R345). -/
def encipher (k : Key) (p : Packet) : Packet :=
  match p.cph with
  | none => p
  | some c =>
    let text := Config.gcmCrypt k.key (gcmIv k c) p.data
    { p with data := text, cph := some { c with tag := Config.gcmTag k.key (gcmIv k c) (aadBytes p) text } }

/-- A packet authenticated and deciphered under a key (R347); none if its tag does not verify. -/
def decipher (k : Key) (p : Packet) : Option Packet :=
  match p.cph with
  | none => none
  | some c =>
    if Config.gcmTag k.key (gcmIv k c) (aadBytes p) p.data = c.tag then
      some { p with data := Config.gcmCrypt k.key (gcmIv k c) p.data }
    else none

end Sys2Proof.Machine
end

