-- ==== Sys2Proof/Machine/ZrtCore.lean ====
section
/-!
DEFINITION. What requester and responder of the transport share (03_reliable_transport.md): sequence arithmetic, the
attributes of a QP (R126), packets of a QP, contexts (R85, R86), the QP command block's results (R87) and QPs that
end (R91).
-/
namespace Sys2Proof.Machine

/-! ### Sequence arithmetic -/

/-- `a` lies behind `b`, modulo 2^32 (R104). -/
def psnBefore (a b : U32) : Bool := decide (0x80000000 ≤ (a - b).toNat)
/-- `a` lies in the half-open range from `b` of n PSNs. -/
def psnIn (a b : U32) (n : Nat) : Bool := decide ((a - b).toNat < n)
/-- The PSNs from `a` up to but not including `b`, at most 65,536. -/
def psnRange (a b : U32) : List U32 :=
  if psnBefore a b then (List.range (min 65536 (b - a).toNat)).map (fun i => a + BitVec.ofNat 32 i) else []

/-! ### Attributes (R126) -/

def Qp.rq (q : Qp) : Nat := fld q.attr 7 0
def Qp.rqEn (q : Qp) : Bool := bit q.attr 8
/-- The resend interval in CLK_SVC cycles (R113). -/
def Qp.interval (q : Qp) : Nat := us (8 * 2 ^ fld q.attr 22 20)
def Qp.retryLim (q : Qp) : Nat := fld q.attr 25 23
/-- The RNR back-off in cycles (R117). -/
def Qp.backoff (q : Qp) : Nat := us (2 ^ fld q.attr 29 26)
/-- The hold limit in cycles (R116). -/
def Qp.holdLimit (q : Qp) : Nat := ms (2 ^ fld q.attr 33 30)
def Qp.rnrLimit (q : Qp) : Nat := fld q.attr 41 34
/-- The window W in packets (R102). -/
def Qp.win (q : Qp) : Nat := min (16384 * 2 ^ q.winExp / q.pmtu) 1024
/-- A single-path QP (R118). -/
def Qp.single (q : Qp) : Bool := decide (q.winExp < 2)
/-- A segment is one of the QP's enabled SEGk (R95). -/
def Qp.hasSeg (q : Qp) (seg : Nat) : Bool :=
  (List.range 8).any (fun k => bit q.attr (42 + k) && decide (fld q.segs (8 * k + 7) (8 * k) = seg))
/-- RTS or HOLD. -/
def Qp.connected (q : Qp) : Bool := decide (q.st = .rts ∨ q.st = .hold)
/-- PSNs that transfer of `len` bytes consumes (R93). -/
def psnsOf (op len pmtu : Nat) : Nat := if op = 4 then max 1 (ceilDiv len pmtu) else ceilDiv len pmtu

/-! ### Packets of a QP -/

/-- The base header of a packet of QP q with a type, PSN and MSN. -/
def qpBth (s : State) (q : Qp) (typ : Nat) (psn msn : U32) : Bth :=
  { ver := 1, typ := BitVec.ofNat 4 typ, first := false, last := false, ackreq := false, ce := false, ciph := false
    resent := false, imm := false, lineage := lineageOf s q.facet, psn := psn, dstEp := q.remoteEp, srcEp := q.localEp
    dstQpn := q.remoteQpn, plen := 0, ctag := q.peerCtag.getD 0, msn := msn, rsv := 0 }

/-- A packet of QP q: its class is management for the management facet's QPs, else data or, for acknowledgements and
connection packets, control (R144, R235). -/
def qpPacket (s : State) (q : Qp) (b : Bth) (e : Ext) (echoAlt : Bool) (bs : Bytes) : Packet :=
  let t := b.typ.toNat
  let tc := if q.facet = 0 then 3 else if t < 3 ∨ t = 7 then 1 else 0
  { rh := localRh s (epAdapter q.remoteEp) tc q.single (flowHash b) echoAlt, bth := { b with
      plen := BitVec.ofNat 13 bs.length }, ext := e, cph := none, data := bs, icrc := 0 }

/-- A packet as the limiter and the wheel charge it: with the cipher header and tag of a CIPHER QP (R127, R344). -/
def qpCharge (s : State) (q : Qp) (typ len : Nat) : Nat :=
  let eth := decide (podOf (epAdapter q.remoteEp) ≠ podOf (ownId s)) &&
    decide (gatewayFor s (podOf (epAdapter q.remoteEp)) = ownPos s)
  32 + 8 * extWords typ + len + 4 + (if q.cipher then 24 else 0) + (if eth then ovhEth s else ovhSvl s)

/-! ### Mirror's record of a QP (R107, R111, R119) -/

def getMir (s : State) (n : Nat) : QpMirror := aget {} n s.mirror.qps
def modMir (n : Nat) (g : QpMirror → QpMirror) (s : State) : State :=
  { s with mirror := { s.mirror with qps := amod {} n g s.mirror.qps } }

/-! ### Contexts (R85, R86) -/

/-- Contexts the cache holds: 65,536, less 2,730 for each fenced bank of it (R385; log entry 19 on which banks). -/
def ctxSlots (s : State) : Nat := 65536 - 2730 * (s.err.banks.filter (fun b => decide (64 ≤ b ∧ b < 88))).length

/-- QP n has a packet inside the transport pipeline. -/
def inPipe (s : State) (n : Nat) : Bool :=
  let q := getQp s n
  decide (q.req.pulls ≠ []) || decide (q.rsp.pulls ≠ []) || decide (q.rsp.stall ≠ []) || decide (q.cip.waiting ≠ []) ||
    s.cip.flow.any (fun x => decide (x.qpn = n))

/-- A context becomes resident as the most recently used; the least recently used idle one is evicted when the cache is
full. Where every resident context has a packet in the pipeline, one more becomes resident (DESIGN CHOICE, log entry
66). -/
def makeCtx (n : Nat) (s : State) : State :=
  let l := s.zrt.resident.filter (fun x => x ≠ n)
  let l := if ctxSlots s ≤ l.length then
      match l.find? (fun x => !inPipe s x) with
      | some v => l.filter (fun x => x ≠ v)
      | none => l
    else l
  { s with zrt := { s.zrt with resident := l ++ [n] } }

/-- Bytes in the arrival miss buffer. -/
def missBytes (s : State) : Nat := (s.zrt.missBuf.map (fun x => packetLen x.2)).foldl (· + ·) 0

/-! ### The command block (R87) -/

/-- STATE of ZRT_QPC_STATUS. -/
def qpStateNo : QpState → Nat
  | .free => 0 | .init => 1 | .connecting => 2 | .rts => 3 | .hold => 4 | .error => 5 | .draining => 6

/-- A QP command ends with a result, on QP n; STATE and HOLD_WHY show QP n as it stands, whoever owns it (DESIGN CHOICE,
log entry 67). -/
def endQpc (f n code : Nat) (s : State) : State :=
  let q := getQp s n
  modF f (fun x => { x with zrt := { x.zrt with
    busy := false, waiting := false, conn := none, result := BitVec.ofNat 16 code
    state := BitVec.ofNat 3 (qpStateNo q.st), holdWhy := q.holdWhy } }) s

/-- A CONNECT of QP n that the facet's block waits for ends (R87, R455). -/
def endConnect (n code : Nat) (s : State) : State :=
  let f := (getQp s n).facet
  if (getF s f).zrt.conn = some n then endQpc f n code s else s

/-! ### Descriptors of a QP that end -/

/-- A started descriptor that has met its completion condition (R109). -/
def descDone (q : Qp) (d : QDesc) : Bool :=
  match d.op with
  | 3 => (List.range d.n).all (fun i => let p := d.psn + BitVec.ofNat 32 i
      psnBefore p q.req.ack || q.req.conf.contains p)
  | 4 => !psnBefore q.req.ack (d.psn + BitVec.ofNat 32 d.n) && d.scomped
  | _ => !psnBefore q.req.ack (d.psn + BitVec.ofNat 32 d.n)

/-- The status a completed descriptor earns (R109, R123). -/
def descStatus (d : QDesc) : Status :=
  { (if d.op = 4 ∧ d.truncated then stat cREMOTE_TRUNCATED else stOk) with degraded := d.degraded }

/-- The descriptors of QP n that have met their condition complete and leave (R109, R117). -/
def completeDescs (n : Nat) (s : State) : State :=
  let q := getQp s n
  let done := q.req.descs.filter (descDone q)
  let s := modQp n (fun q => { q with req := { q.req with
    descs := q.req.descs.filter (fun d => !descDone q d)
    rnrCount := q.req.rnrCount.filter (fun x => !(done.any (fun d => decide (d.op = 4 ∧ d.sendNo.toNat = x.1))))
    rnr := q.req.rnr.filter (fun x => !(done.any (fun d => decide (d.op = 4 ∧ d.sendNo = x.1)))) } }) s
  done.foldl (fun s d => completeItem q.facet d.q d.idx (descStatus d) s) s

/-- A QP has no packet waiting and none in flight (R133). -/
def Qp.quiet (q : Qp) : Bool := decide (q.req.next = q.req.ack) && decide (q.rsp.resp = []) && decide (q.rsp.sent = [])

/-- QP n changed; where it falls quiet, its idle time begins (R133). -/
def modBusy (n : Nat) (g : Qp → Qp) (s : State) : State :=
  modQp n (fun q =>
    let x := g q
    if !q.quiet && x.quiet then { x with rate := { x.rate with idleSince := s.now } } else x) s

/-- The rate of a QP as its next packet becomes ready (R133). -/
def Qp.woken (s : State) (q : Qp) : QpRate := if q.quiet then rateWake s q.rate else q.rate

/-- R91: QP n enters ERROR; each started descriptor that has not met its condition completes as `pick` says, DEGRADED as
it stands (R123). -/
def failQp (n : Nat) (pick : QDesc → Status) (s : State) : State :=
  let s := dropWaits (.source n) (dropWaits (.responder n) (dropWaits (.readResp n) (completeDescs n s)))
  let q := getQp s n
  let s := modQp n (fun q => { q with
    st := .error, holdWhy := 0
    req := { q.req with
      descs := [], resend := [], pulls := [], rnr := [], rnrCount := [], waitAt := [], fast := [], lone := []
      placing := [], altResp := [] }
    rsp := { q.rsp with reads := [], resp := [], pulls := [], stall := [] } }) s
  settle q.facet (q.req.descs.foldl (fun s d =>
    completeItem q.facet d.q d.idx { pick d with degraded := d.degraded } s) s)

/-- Some placement of QP n waits for its confirmation. -/
def qpPlacing (s : State) (n : Nat) : Bool :=
  let mine : PlaceFor → Bool := fun w => match w with
    | .packet m _ => decide (m = n)
    | .readResp m _ => decide (m = n)
    | _ => false
  s.pcx.ports.any (fun p => p.2.unconf.any (fun u => mine u.what)) ||
    s.facets.any (fun x => x.2.pcx.held.any (fun h => match h with | .place y _ => mine y | _ => false))

/-- R91: a DRAINING QP with no packet left in the device is freed: its QPN, context, keys and RQ (R96, R342). -/
def tryFreeQp (n : Nat) (s : State) : State :=
  let q := getQp s n
  if decide (q.st = .draining) && !inPipe s n && !qpPlacing s n && !s.zrt.missBuf.any (fun x => decide (x.1 = n)) then
    let s := dropWaits (.source n) (dropWaits (.responder n) (dropWaits (.readResp n) s))
    let s := { s with
      qps := adel n s.qps
      zrt := { s.zrt with resident := s.zrt.resident.filter (fun x => x ≠ n) }
      mirror := { s.mirror with qps := adel n s.mirror.qps } }
    let s := if q.rqEn then modQ q.facet true q.rq (fun x => { x with bound := none }) s else s
    settle q.facet s
  else s

end Sys2Proof.Machine
end

