-- ==== Sys2Proof/Machine/Turns.lean ====
section
/-!
DEFINITION. Whose packet leaves next (04_rates_and_arbitration.md, stages 2 and 3): the next packet of a QP (R102, R115,
R117), the QP of a facet and the facet whose turn it is, and the collective packets that share a facet's turns (R140).
-/
namespace Sys2Proof.Machine

/-! ### The next packet (R102, R115, R117) -/

/-- The started descriptor that holds a PSN. -/
def descAt (q : Qp) (p : U32) : Option QDesc := q.req.descs.find? (fun d => psnIn p d.psn d.n)

/-- A PSN is known to be confirmed. -/
def confirmedTx (q : Qp) (p : U32) : Bool := psnBefore p q.req.ack || q.req.conf.contains p

/-- A PSN is not held back by a receiver-not-ready back-off (R117). -/
def rnrFree (q : Qp) (p : U32) : Bool := q.req.rnr.all (fun x => psnBefore p x.2.1)

/-- The next PSN to send and whether it is a resend: resends first, then new packets the window admits. In HOLD only
resends, and with HOLD_WHY 4 nothing (R115, R116). -/
def nextPsn (q : Qp) : Option (U32 × Bool) :=
  if !q.connected || decide (q.st = .hold ∧ q.holdWhy = 4) then none
  else match q.req.resend.find? (fun p => !psnBefore p q.req.ack && (descAt q p).isSome && rnrFree q p) with
    | some p => some (p, true)
    | none =>
      let h := q.req.hi
      if decide (q.st = .rts) && decide (h ≠ q.req.next) && decide ((h - q.req.ack).toNat < q.win) && rnrFree q h &&
        (descAt q h).isSome then some (h, false) else none

/-- The byte offset of a PSN in its descriptor and the bytes it carries. -/
def pieceOf (q : Qp) (d : QDesc) (p : U32) : Nat × Nat :=
  let off := (p - d.psn).toNat * q.pmtu
  (off, min q.pmtu (d.len - off))

/-- What a QP sends at its turn: a READ_RESP it owes, or a PSN and whether it is a resend. -/
inductive Turn where
  | resp
  | req (p : U32) (resent : Bool)
deriving DecidableEq, Repr

/-- The packet of a PSN can leave now: one that reads no source waits for Mirror to hold its descriptor's first PSN and
MSN, once that write is on its way (R119). -/
def recordFree (s : State) (n : Nat) (p : U32) : Bool :=
  let q := getQp s n
  match descAt q p with
  | none => true
  | some d => d.recorded || !(decide (d.op = 3) || decide ((pieceOf q d p).2 = 0)) ||
      !s.mirror.pendDone.contains (.qpFirst n d.psn)

/-- What QP n sends next, where its streams let it: resends, then READ_RESPs owed, then new packets (R115, R140, R141,
R269). -/
def nextTurn (s : State) (n : Nat) : Option Turn :=
  let q := getQp s n
  let req := (nextPsn q).filter (fun x => !streamBusy s (.source n) && recordFree s n x.1)
  match req with
  | some (p, true) => some (.req p true)
  | r => if decide (q.rsp.resp ≠ []) && !streamBusy s (.responder n) then some .resp
    else r.map (fun x => .req x.1 x.2)

/-- QP n has a packet to send that its streams, window and limiter admit (R134, R140). -/
def sendable (s : State) (n : Nat) : Bool :=
  (getQp s n).connected && creditOk s (getQp s n).rate && (nextTurn s n).isSome

/-- The first of a list of numbers after `last`, in cyclic order. -/
def nextAfter (last : Nat) (l : List Nat) : Option Nat :=
  match l.find? (fun x => decide (last < x)) with | some x => some x | none => l.head?

/-- The QPs of facet f that are sendable, ascending. -/
def facetReady (s : State) (f : Nat) : List Nat :=
  (s.qps.filter (fun x => decide (x.2.facet = f) && sendable s x.1)).map Prod.fst

/-- The released facets with a packet (R140). -/
def turnFacets (s : State) : List Nat :=
  (s.facets.map Prod.fst).filter (fun g => wheelFree s g &&
    (decide (facetReady s g ≠ []) || decide ((getF s g).rate.collQ ≠ [])))

/-- Facet f's next turn is its collective packets': they and its QP packets take turns. -/
def collTurn (s : State) (f : Nat) : Bool :=
  decide ((getF s f).rate.collQ ≠ []) && (decide (facetReady s f = []) || !(getF s f).rate.lastColl)

/-- QP n takes the turn: next of its facet's ready QPs, and its facet next of the released facets with a packet. -/
def hasTurn (s : State) (n : Nat) : Bool :=
  let f := (getQp s n).facet
  decide (nextAfter s.arb.inj (turnFacets s) = some f) && !collTurn s f &&
    decide (nextAfter (getF s f).rate.lastQp (facetReady s f) = some n)

/-- A collective packet of facet f is injected and charged (R137), and the turn passed on. -/
def sendColl (f : Nat) (p : Packet) (s : State) : State :=
  let s := inject p (facetCharge f (charged s p) s)
  modF f (fun y => { y with rate := { y.rate with lastColl := true } }) { s with arb := { s.arb with inj := f } }

/-- Turns of injection that fall to collective packets, up to one that falls to a QP; `fuel` bounds them (R140). -/
def collTurns : Nat → State → State
  | 0, s => s
  | n + 1, s =>
    match (nextAfter s.arb.inj (turnFacets s)).filter (collTurn s) with
    | none => s
    | some f => match (getF s f).rate.collQ with
      | [] => s
      | p :: r => collTurns n (sendColl f p (modF f (fun y => { y with rate := { y.rate with collQ := r } }) s))

/-- The collective packets whose turn it is leave. -/
def takeTurns (s : State) : State :=
  collTurns ((s.facets.map (fun x => x.2.rate.collQ.length)).foldl (· + ·) 0) s

/-- A collective packet joins those of its facet that wait for a turn. -/
def collOut (f : Nat) (p : Packet) (s : State) : State :=
  takeTurns (modF f (fun y => { y with rate := { y.rate with collQ := y.rate.collQ ++ [p] } }) s)

end Sys2Proof.Machine
end

