-- ==== Sys2Proof/Machine/Groups.lean ====
section
/-!
DEFINITION. Groups (05_collective_operations.md): member lists (R151), the commit tree (R173), topology plans (R169, R416),
reservations (R149, R171, R226), collective packets and their classes, the group record (R157), and the management
commands' shared steps (R155 to R158).
-/
namespace Sys2Proof.Machine

/-! ### Members -/

/-- EP of a member entry. -/
def memEp (w : U64) : BitVec 27 := BitVec.ofNat 27 (fld w 26 0)
/-- FACET of a member entry. -/
def memFacet (w : U64) : Nat := fld w 38 32
/-- Number of the adapter of a member entry. -/
def memAdapter (w : U64) : Nat := (epAdapter (memEp w)).toNat
/-- N of a group. -/
def attrN (a : GroupAttr) : Nat := a.members.length
/-- Entry of member i. -/
def attrMember (a : GroupAttr) (i : Nat) : U64 := a.members.getD i 0
/-- The adapter of member i. -/
def adapterOf (a : GroupAttr) (i : Nat) : Nat := memAdapter (attrMember a i)
/-- The member adapters in ascending order of their lowest member index. -/
def adaptersOf (a : GroupAttr) : List Nat := (a.members.map memAdapter).eraseDups
/-- The lowest member index on an adapter. -/
def lowestOn (a : GroupAttr) (x : Nat) : Nat := (a.members.findIdx? (fun w => memAdapter w = x)).getD 0
/-- The members on an adapter. -/
def membersOn (a : GroupAttr) (x : Nat) : List Nat :=
  (a.members.zipIdx.filter (fun m => memAdapter m.1 = x)).map Prod.snd
/-- This adapter's number. -/
def me (s : State) : Nat := (ownId s).toNat
/-- The members on this adapter. -/
def localMembers (s : State) (a : GroupAttr) : List Nat := membersOn a (me s)
/-- Member i lies on this adapter. -/
def isLocal (s : State) (a : GroupAttr) (i : Nat) : Bool := decide (i < attrN a ∧ adapterOf a i = me s)
/-- The facet that this adapter's packets of the group are charged to (R162); facet 0 where it has no member. -/
def chargeFacet (s : State) (a : GroupAttr) : Nat :=
  match localMembers s a with
  | i :: _ => memFacet (attrMember a i)
  | [] => 0

/-- R151: a member list with a reserved bit, an invalid endpoint or two equal entries. -/
def badMembers (l : List U64) : Bool :=
  l.any (fun w => decide (fld w 31 27 ≠ 0 ∨ fld w 63 39 ≠ 0) || !endpointOk (memEp w)) ||
    decide ((l.map (fun w => (memEp w, memFacet w))).eraseDups.length ≠ l.length)

/-! ### The commit tree (R173) -/

/-- This adapter's place among the member adapters. -/
def treeIndex (s : State) (a : GroupAttr) : Nat := ((adaptersOf a).findIdx? (fun x => x = me s)).getD 0
/-- The parent adapter; none at the root. -/
def treeParent (s : State) (a : GroupAttr) : Option Nat :=
  let k := treeIndex s a
  if k = 0 then none else some ((adaptersOf a).getD ((k - 1) / 16) 0)
/-- The child adapters. -/
def treeChildren (s : State) (a : GroupAttr) : List Nat :=
  ((adaptersOf a).drop (16 * treeIndex s a + 1)).take 16
/-- This adapter is the commit root. -/
def isRoot (s : State) (a : GroupAttr) : Bool := decide (adapterOf a 0 = me s)
/-- The adapter that combines the nodes of chunk c for which the plan has no record: the member adapters in turn, but the
first one for MX formats, whose blocks may straddle chunks (R187; DESIGN CHOICE, log entry 20). -/
def chunkRoot (a : GroupAttr) (c : Nat) : Nat :=
  let l := adaptersOf a
  if isMx a.format then l.headD 0 else l.getD (c % l.length) 0

/-! ### Chunk sizes, plans and reservations -/

/-- The chunk size that a CHUNK_EXP or MAXCHUNK_EXP selects (R168). -/
def chunkSize (e : Nat) : Nat := if e = 0 then 65536 else 4096 * 2 ^ (e - 1)

/-- A plan covers an adapter (R416). -/
def planCovers (p : PlanEntry) (x : Nat) : Bool :=
  let w := BitVec.ofNat 24 x
  p.pods.toNat.testBit (podOf w) && p.ringX.toNat.testBit (coord (posOf w) 1) && p.ringZ.toNat.testBit (coord (posOf w) 2)

/-- The plan of a group: the covering plan of lowest LEVELS, then of lowest PLAN_ID (R416). -/
def findPlan (s : State) (a : GroupAttr) : Option PlanEntry :=
  (s.boot.image.plans.filter (fun p => (adaptersOf a).all (planCovers p))).foldl (fun b p => match b with
    | none => some p
    | some x => if p.levels < x.levels ∨ (p.levels = x.levels ∧ p.id < x.id) then some p else some x) none

/-- Groups of this adapter that are not free. -/
def groupsUsed (s : State) : List (Nat × Group) := s.groups.filter (fun g => g.2.st ≠ .free)
/-- GRP_DEV_USE.ENTRIES. -/
def entriesUsed (s : State) : Nat := ((groupsUsed s).map (fun g => attrN g.2.attr)).foldl (· + ·) 0
/-- GRP_DEV_SPILL.RESV_KIB. -/
def spillUsed (s : State) : Nat := ((groupsUsed s).map (fun g => g.2.spillKib)).foldl (· + ·) 0
/-- The spill reservation of a group in KiB (R171). -/
def spillOf (a : GroupAttr) : Nat :=
  ceilDiv (8 * spillBytes (chunkSize a.maxChunk) a.format a.mode a.winopt) 1024
/-- The distinct programs of length 1 or more of a group (R226). -/
def programsOf (a : GroupAttr) : List (List U64) := ([a.send, a.reduce, a.recv].filter (fun p => p ≠ [])).eraseDups
/-- Programs of a group that are not stored yet. -/
def newPrograms (s : State) (a : GroupAttr) : List (List U64) :=
  (programsOf a).filter (fun p => !s.prism.store.any (fun x => decide (x.1 = p)))
/-- A group takes its slots of the program store (R226). -/
def storePrograms (a : GroupAttr) (s : State) : State :=
  (programsOf a).foldl (fun s p => { s with prism := { s.prism with
    store := if s.prism.store.any (fun x => decide (x.1 = p)) then
        s.prism.store.map (fun x => if x.1 = p then (x.1, x.2 + 1) else x)
      else s.prism.store ++ [(p, 1)] } }) s
/-- A group gives its slots back. -/
def dropPrograms (a : GroupAttr) (s : State) : State :=
  (programsOf a).foldl (fun s p => { s with prism := { s.prism with
    store := (s.prism.store.map (fun x => if x.1 = p then (x.1, x.2 - 1) else x)).filter (fun x => x.2 ≠ 0) } }) s
/-- DIGEST (R157). -/
def digestOf (a : GroupAttr) : BitVec 256 :=
  Config.shake256 256 ([a.send, a.reduce, a.recv].flatMap (fun p => toLE 1 p.length ++ wordBytes p))

/-- R155 step 3 and R226: the first failing reason of a SETUP; 0 if it passes. -/
def setupCode (s : State) (a : GroupAttr) : Nat :=
  if programsOf a ≠ [] ∧ !hasEprg s then cUNIT_ABSENT
  else if (getG s a.gid).st ≠ .free then cGRP_BUSY
  else if 4096 ≤ (groupsUsed s).length ∨ 262144 < entriesUsed s + attrN a ∨
    s.grp.poolKib < spillUsed s + spillOf a ∨ 1024 < s.prism.store.length + (newPrograms s a).length then cGRP_NO_RESOURCE
  else if (findPlan s a).isNone then cPLAN_ABSENT
  else 0

/-! ### Collective packets -/

/-- What distinguishes one collective packet: TYPE, SUB, the member indices and the fields of its CXH. -/
structure Cx where
  typ : Nat := 11
  sub : Nat := 0
  src : Nat := 0
  dst : Nat := 0
  chunk : Nat := 0
  pkt : Nat := 0
  arg : Nat := 0
  step : Nat := 0
  level : Option Nat := none     -- LEVEL of the plan's record; by the destination where there is none
  first : Bool := false
  last : Bool := false
  resent : Bool := false
  broken : Bool := false
  echo : Bool := false
  data : Bytes := []
deriving DecidableEq, Repr, Inhabited

/-- LEVEL of a packet: 0 on one ring, 1 in one pod, 2 between pods. -/
def levelTo (s : State) (x : Nat) : Nat :=
  let d := BitVec.ofNat 24 x
  if podOf d ≠ podOf (ownId s) then 2
  else if ([0, 1, 2].filter (fun k => decide (coord (posOf d) k ≠ coord (ownPos s) k))).length ≤ 1 then 0 else 1

/-- A packet of a chunk that runs the broken-ring schedule: its ring is a line, so that it goes the way that does not cross
the break from the start (R179). -/
def lineRh (s : State) (rh : RouteHdr) : RouteHdr :=
  let t := posOf rh.dst
  match [0, 1, 2].find? (fun d => decide (coord t d ≠ coord (ownPos s) d)) with
  | none => rh
  | some d =>
    let e := rtabEntry s d (coord t d)
    match [e.1, e.2].find? (wayOk s d (coord t d)) with
    | some w => if podOf rh.dst = podOf (ownId s) then { rh with dim := BitVec.ofNat 2 d, dir := decide (w = 2) } else rh
    | none => rh

/-- A collective packet of a group between two endpoints. GTAG is zero in SETUP. -/
def collPacket (s : State) (a : GroupAttr) (sep dep : BitVec 27) (csn sig : U32) (x : Cx) : Packet :=
  let mgmt := decide (x.typ = 11 ∧ 5 ≤ x.sub)
  let b : Bth := { ver := 1, typ := BitVec.ofNat 4 x.typ, first := x.first, last := x.last, ackreq := false, ce := false
                   ciph := false, resent := x.resent, imm := false, lineage := lineageOf s (chargeFacet s a), psn := 0
                   dstEp := dep, srcEp := sep, dstQpn := 0, plen := BitVec.ofNat 13 x.data.length
                   ctag := if x.typ = 11 ∧ x.sub = 5 then 0 else a.gtag, msn := if mgmt then 0 else csn, rsv := 0 }
  let rh := localRh s (epAdapter dep) (if mgmt then 3 else 2) false 0 x.echo
  { rh := if x.broken && decide (x.typ = 8) then lineRh s rh else rh, bth := b
    ext := .cxh (BitVec.ofNat 12 a.gid) (BitVec.ofNat 4 x.sub) (BitVec.ofNat 16 x.src) (BitVec.ofNat 16 x.dst)
      (BitVec.ofNat 2 (x.level.getD (levelTo s (epAdapter dep).toNat))) x.broken 0 (BitVec.ofNat 32 x.chunk) sig
      (BitVec.ofNat 16 x.pkt) (BitVec.ofNat 16 x.step) (BitVec.ofNat 32 x.arg)
    cph := none, data := x.data, icrc := 0 }

/-- The endpoint that stands for this adapter in a group: its lowest member's, or its host's. -/
def ownEp (s : State) (a : GroupAttr) : BitVec 27 :=
  match localMembers s a with
  | i :: _ => memEp (attrMember a i)
  | [] => endpointOf (ownId s) 0

/-- The lowest local member index; 0 where there is none. -/
def ownLow (s : State) (a : GroupAttr) : Nat := (localMembers s a).headD 0

/-- A packet from member x.src to member x.dst of a group. -/
def toMember (a : GroupAttr) (csn sig : U32) (x : Cx) (s : State) : State :=
  collOut (chargeFacet s a) (collPacket s a (memEp (attrMember a x.src)) (memEp (attrMember a x.dst)) csn sig x) s

/-- A packet of this adapter to another member adapter, each named by its lowest member. -/
def toAdapter (a : GroupAttr) (csn sig : U32) (y : Nat) (x : Cx) (s : State) : State :=
  let d := lowestOn a y
  collOut (chargeFacet s a) (collPacket s a (ownEp s a) (memEp (attrMember a d)) csn sig
    { x with src := ownLow s a, dst := d }) s

/-- A packet of this adapter to an endpoint that need not be a member: the creator of a group. -/
def toEndpoint (a : GroupAttr) (ep : BitVec 27) (x : Cx) (s : State) : State :=
  collOut (chargeFacet s a) (collPacket s a (ownEp s a) ep 0 0 { x with src := ownLow s a }) s

/-- A packet to every member adapter of a list. -/
def toAdapters (a : GroupAttr) (csn sig : U32) (l : List Nat) (x : Cx) (s : State) : State :=
  l.foldl (fun s y => toAdapter a csn sig y x s) s

/-- The member adapters other than this one. -/
def otherAdapters (s : State) (a : GroupAttr) : List Nat := (adaptersOf a).filter (fun x => x ≠ me s)

/-! ### Places of the management facet's operands -/

/-- Words of the management facet's memory: LPDDR5X's own, the rest as supplied. -/
def wordsAt (s : State) (f seg : Nat) (off : U64) (n : Nat) (given : List U64) : List U64 :=
  bytesWords (gather (placesAt s f seg off (8 * n)) (padTo (8 * n) (wordBytes given)) s.mem)

/-- A descriptor of SQ q of facet 0 accesses ranges of memory as it starts: it waits while a piece misses, faults or is
parked, or a port is not released, and goes on with what the translation gives (R266 to R270; log entry 74). -/
def startAccess (q : Nat) (wr : Bool) (l : List (Nat × U64 × Nat)) (go : Trans → State → State) (s : State) : State :=
  if streamBusy s (.desc q) then s
  else
    let (t, x) := transRanges (.desc q) 0 wr l s
    if !placesReleased s 0 x.places then s
    else if x.full then go x t
    else if wr then t else readAll none 0 x.fresh t

/-! ### Group states (R158) -/

/-- STATE of a group record. -/
def groupStateNo : GState → Nat
  | .free => 0 | .setup => 1 | .active => 2 | .broken => 3 | .draining => 4

/-- The group record of R157. -/
def groupRecord (g : Group) : List U64 :=
  if g.st = .free then List.replicate 8 0
  else
    let a := g.attr
    [BitVec.ofNat 64 (groupStateNo g.st + (attrN a - 1) * 2 ^ 16 + g.planVer.toNat * 2 ^ 32 + g.ucodeVer.toNat * 2 ^ 48),
     BitVec.ofNat 64 (a.format + b2n a.mode * 2 ^ 4 + a.winopt.toNat * 2 ^ 5 + a.plan * 2 ^ 9 + a.maxChunk * 2 ^ 11 +
       a.send.length * 2 ^ 15 + a.reduce.length * 2 ^ 22 + a.recv.length * 2 ^ 29)] ++
    (List.range 4).map (fun k => BitVec.ofNat 64 (g.digest.toNat / 2 ^ (64 * k))) ++
    [BitVec.ofNat 64 a.gtag.toNat, BitVec.ofNat 64 (g.done.toNat + g.degraded.toNat * 2 ^ 32)]

/-- A group is released on this adapter. -/
def releaseGroup (gid : Nat) (s : State) : State :=
  let a := (getG s gid).attr
  dropPrograms a { s with groups := adel gid s.groups }

/-- A DRAINING group with no collective running here is released (R158). -/
def releaseIfDrained (gid : Nat) (s : State) : State :=
  if (getG s gid).st = .draining ∧ (getG s gid).run = none then releaseGroup gid s else s

/-- Descriptors of a group that wait for their turn complete with a status. -/
def dropWaiting (gid : Nat) (st : Status) (s : State) : State :=
  let l := (getG s gid).waiting
  l.foldl (fun s m => settle m.f (completeItem m.f m.q m.idx st s)) (modG gid (fun g => { g with waiting := [] }) s)

/-- TEARDOWN, or a local GROUP_DESTROY (R158). -/
def tearDown (gid : Nat) (s : State) : State :=
  match (getG s gid).st with
  | .setup => releaseGroup gid s
  | .active => releaseIfDrained gid (dropWaiting gid (stat cGROUP_INVALID) (modG gid (fun g => { g with st := .draining }) s))
  | .broken => releaseIfDrained gid (dropWaiting gid (stat cGROUP_INVALID) (modG gid (fun g => { g with st := .draining }) s))
  | _ => s

/-- A SETUP that passed its checks reserves the group (R155, R158). -/
def reserveGroup (a : GroupAttr) (s : State) : State :=
  let p := (findPlan s a).getD default
  storePrograms a (modG a.gid (fun _ => {
    st := .setup, attr := a, planVer := s.boot.image.planVer, ucodeVer := s.prism.ucode
    digest := digestOf a, planId := p.id, levels := p.levels, sched := p.sched, spillKib := spillOf a, since := s.now }) s)

/-! ### Packets for the creator and the members -/

/-- SETUP to an adapter, with what it carries. -/
def sendSetup (a : GroupAttr) (s : State) (y : Nat) : State :=
  emit (.setupTo (BitVec.ofNat 24 y) a) (toAdapter a 0 0 y { sub := 5 } s)

/-- One packet to each listed adapter in the command's phase. -/
def sendPhase (c : GroupCmd) (l : List Nat) (s : State) : State :=
  if c.destroy then toAdapters c.attr 0 0 l { sub := 10 } s
  else if c.activating then toAdapters c.attr 0 0 l { sub := 8 } s
  else l.foldl (sendSetup c.attr) s

/-- A management command of a group ends. -/
def endGroupCmd (c : GroupCmd) (st : Status) (s : State) : State :=
  let s := { s with grp := { s.grp with cmds := s.grp.cmds.filter (fun x => !(x.q == c.q && x.idx == c.idx)) } }
  settle 0 (completeItem 0 c.q c.idx st s)

/-- A GROUP_CREATE fails: TEARDOWN to every member adapter, then its status (R155). -/
def failCreate (c : GroupCmd) (st : Status) (s : State) : State :=
  endGroupCmd c st (toAdapters c.attr 0 0 c.all { sub := 10 } s)

/-- A command's record changed. -/
def modCmd (c : GroupCmd) (g : GroupCmd → GroupCmd) (s : State) : State :=
  { s with grp := { s.grp with cmds := s.grp.cmds.map (fun x => if x.q = c.q ∧ x.idx = c.idx then g x else x) } }

/-- A member adapter has answered the command's phase; the last answer ends it (R155, R157). -/
def answered (c : GroupCmd) (y : Nat) (s : State) : State :=
  let l := c.adapters.filter (fun x => x ≠ y)
  if l ≠ [] then modCmd c (fun c => { c with adapters := l }) s
  else if c.destroy || c.activating then endGroupCmd c stOk s
  else
    let c' := { c with activating := true, adapters := c.all, start := s.now, sent := s.now }
    sendPhase c' c.all (modCmd c (fun _ => c') s)

/-- The running command that a packet of a group refers to. -/
def cmdFor (s : State) (destroy : Bool) (gid : Nat) (gtag : U32) : Option GroupCmd :=
  s.grp.cmds.find? (fun c => decide (c.destroy = destroy ∧ c.attr.gid = gid ∧ c.attr.gtag = gtag))

end Sys2Proof.Machine
end

