-- ==== Sys2Proof/Machine/Coll.lean ====
section
/-!
DEFINITION. Collective descriptors (R159 to R163) and the geometry of their data: source streams as blocks, the cut of a
stream into chunks (R168, R187, R212, R215), streams from member to member, scratch (R170), and the start checks of
R160.
-/
namespace Sys2Proof.Machine

/-! ### Fields of a collective descriptor -/

def cGid (d : Desc) : Nat := fld d.w2 11 0
def cMember (d : Desc) : Nat := fld d.w2 31 16
def cOp (d : Desc) : Nat := fld d.w2 35 32
def cChunkExp (d : Desc) : Nat := fld d.w2 39 36
def cRoot (d : Desc) : Nat := fld d.w2 55 40
/-- Experts per token. -/
def cK (d : Desc) : Nat := fld d.w2 58 56 + 1
def cCount (d : Desc) : Nat := fld d.w3 39 0
def cSseg (d : Desc) : Nat := fld d.w3 47 40
def cDseg (d : Desc) : Nat := fld d.w3 55 48
def cAseg (d : Desc) : Nat := fld d.w3 63 56
/-- ROW of a group. -/
def rowLen (a : GroupAttr) : Nat := a.row

/-- A fixed-size reduction. -/
def isRed (op : Nat) : Bool := decide (0x11 ≤ op ∧ op ≤ 0x13)
/-- A kind with a count exchange. -/
def isVar (op : Nat) : Bool := decide (0x19 ≤ op ∧ op ≤ 0x1C)
/-- A kind with a ROOT. -/
def hasRoot (op : Nat) : Bool := (collUses op false).root
/-- EXPERT_COMBINE. -/
def isCombine (op : Nat) : Bool := decide (op = 0x1C)
/-- An anchored SUM of a fixed-size reduction (R193, R196). -/
def isAnchored (a : GroupAttr) (d : Desc) : Bool := isRed (Desc.op d) && a.mode && decide (cOp d = 0)

/-- The format of sources (R215). -/
def srcFmt (a : GroupAttr) : Nat := declFmt a.send a.format
/-- The format of destinations (R215). -/
def dstFmt (a : GroupAttr) : Nat := declFmt a.recv a.format

/-- R161: the signature; the byte form of its inputs is the model's (DESIGN CHOICE, log entry 21). -/
def collSig (d : Desc) : U32 :=
  let op := Desc.op d
  crc32c (toLE 1 op ++ toLE 1 (cOp d) ++ toLE 1 (cChunkExp d) ++ toLE 2 (cRoot d) ++ toLE 1 (cK d - 1) ++
    (if 0x11 ≤ op ∧ op ≤ 0x18 then toLE 5 (cCount d) else []))

/-! ### Auxiliary areas (R163) -/

/-- A u64 of the auxiliary area. -/
def aux64 (aux : Bytes) (off : Nat) : Nat := ofLE ((aux.drop off).take 8)
/-- RC of an expert collective. -/
def auxRc (d : Desc) : Nat := 8 + 8 * ((cCount d * cK d + 1) / 2)
/-- The route entries. -/
def routes (d : Desc) (aux : Bytes) : List U32 :=
  (List.range (cCount d * cK d)).map (fun e => BitVec.ofNat 32 (ofLE ((aux.drop (8 + 4 * e)).take 4)))
/-- A route entry's destination, if it is used. -/
def routeDest (w : U32) : Option Nat := if bit w 31 then none else some (fld w 15 0)
/-- A route entry that R163 rejects: a used one with DEST beyond N, or any with a reserved bit set. -/
def badRoute (n : Nat) (w : U32) : Bool := (!bit w 31 && decide (n ≤ fld w 15 0)) || decide (fld w 30 16 ≠ 0)
/-- Gate weight (t, k) as an FP32 pattern. -/
def gateOf (n : Nat) (d : Desc) (aux : Bytes) (e : Nat) : Nat := ofLE ((aux.drop (auxRc d + 8 * n + 4 * e)).take 4)

/-- The bytes of the area that the device reads at start, and where it writes its counts, if it does: offset and length. -/
def auxShape (n : Nat) (d : Desc) : Nat × Option (Nat × Nat) :=
  match Desc.op d with
  | 0x19 => if atRoot d then (8, some (8, 8 * n)) else (0, none)
  | 0x1A => (8 * n, some (8 * n, 8 * n))
  | 0x1B => (8 + 4 * (cCount d * cK d), some (auxRc d, 8 * n))
  | 0x1C => (auxRc d + 8 * n + 4 * (cCount d * cK d), none)
  | _ => (0, none)

/-! ### Source and destination -/

/-- n blocks of m elements, one for each member. -/
def evenBlks (n m : Nat) : List Blk := (List.range n).map (fun k => { dst := some k, len := m, mem := k * m })

/-- Blocks of given lengths packed one after another, block k for member k. -/
def packBlks : Nat → Nat → List Nat → List Blk
  | _, _, [] => []
  | k, m, l :: r => { dst := some k, len := l, mem := m } :: packBlks (k + 1) (m + l) r

/-- The source stream of member cMember d as blocks (R159, R163, R164). -/
def sourceBlks (a : GroupAttr) (d : Desc) (aux : Bytes) : List Blk :=
  let n := attrN a
  let c := cCount d
  let row := rowLen a
  match Desc.op d with
  | 0x11 => [{ dst := none, len := c, mem := 0 }]
  | 0x12 => [{ dst := some (cRoot d), len := c, mem := 0 }]
  | 0x13 => evenBlks n c
  | 0x14 => if atRoot d then [{ dst := none, len := c, mem := 0 }] else []
  | 0x15 => [{ dst := none, len := c, mem := 0 }]
  | 0x16 => [{ dst := some (cRoot d), len := c, mem := 0 }]
  | 0x17 => if atRoot d then evenBlks n c else []
  | 0x18 => evenBlks n c
  | 0x19 => [{ dst := some (cRoot d), len := c, mem := 0 }]
  | 0x1A => packBlks 0 0 ((List.range n).map (fun j => aux64 aux (8 * j)))
  | 0x1B => ((routes d aux).zipIdx.filterMap (fun (w, e) =>
      (routeDest w).map (fun j => { dst := some j, len := row, mem := e / cK d * row })))
  | 0x1C => ((List.range n).flatMap (fun i => List.replicate (aux64 aux (auxRc d + 8 * i)) i)).zipIdx.map
      (fun (i, r) => { dst := some i, len := row, mem := r * row })
  | _ => []

/-- Elements of a source stream. -/
def blkTotal (l : List Blk) : Nat := (l.map (fun b => b.len)).foldl (· + ·) 0

/-- The elements of member i's destination; of a variable kind, its capacity (R159, R166). -/
def destElems (a : GroupAttr) (d : Desc) (aux : Bytes) : Nat :=
  let n := attrN a
  let c := cCount d
  match Desc.op d with
  | 0x11 => c
  | 0x12 => if atRoot d then c else 0
  | 0x13 => c
  | 0x14 => c
  | 0x15 => n * c
  | 0x16 => if atRoot d then n * c else 0
  | 0x17 => c
  | 0x18 => n * c
  | 0x19 => if atRoot d then aux64 aux 0 else 0
  | 0x1A => c
  | 0x1B => aux64 aux 0 * rowLen a
  | 0x1C => c * rowLen a
  | _ => 0

/-- Member i of a collective of this descriptor's parameters writes a destination. -/
def hasDest (d : Desc) (i : Nat) : Bool :=
  match Desc.op d with
  | 0x10 => false
  | 0x12 => decide (i = cRoot d)
  | 0x16 => decide (i = cRoot d)
  | 0x19 => decide (i = cRoot d)
  | _ => true

/-- The members whose sources reach member i's destination, in member order. -/
def sourcesOf (a : GroupAttr) (d : Desc) : List Nat :=
  match Desc.op d with
  | 0x14 => [cRoot d]
  | 0x17 => [cRoot d]
  | _ => List.range (attrN a)

/-- The count that a member sends to member j in the count exchange (R165). -/
def sendCount (m : CollMember) (j : Nat) : Nat :=
  match Desc.op m.desc with
  | 0x19 => if j = cRoot m.desc then cCount m.desc else 0
  | 0x1A => aux64 m.aux (8 * j)
  | 0x1B => ((routes m.desc m.aux).filter (fun w => routeDest w = some j)).length
  | 0x1C => aux64 m.aux (auxRc m.desc + 8 * j)
  | _ => 0

/-! ### Chunks of a stream (R168, R187, R212) -/

/-- Elements that a cut must keep together: a vector of 32 with a program or an MX format (R187, R212). -/
def cutStep (a : GroupAttr) : Nat := if isMx a.format ∨ a.send ≠ [] ∨ a.reduce ≠ [] ∨ a.recv ≠ [] then 32 else 1

/-- Elements of a block that lies at stream element b0 which belong to chunks below c: whole units that end there. -/
def belowChunk (a : GroupAttr) (cb b0 len c : Nat) : Nat :=
  let p := c * cb / unitBytes a.format * unitElems a.format
  if p ≤ b0 then 0 else if b0 + len ≤ p then len else (p - b0) / cutStep a * cutStep a

/-- The pieces of a stream that belong to chunk c: block, first element in the block, elements. -/
def chunkPieces (a : GroupAttr) (cb c : Nat) : Nat → List Blk → List (Blk × Nat × Nat)
  | _, [] => []
  | b0, b :: r =>
    let lo := belowChunk a cb b0 b.len c
    let hi := belowChunk a cb b0 b.len (c + 1)
    if lo < hi then (b, lo, hi - lo) :: chunkPieces a cb c (b0 + b.len) r else chunkPieces a cb c (b0 + b.len) r

/-- MX sources without a send program travel as they lie, cut at the chunk's bytes: a block may straddle two chunks (R168,
R187). -/
def sliced (a : GroupAttr) : Bool := isMx a.format && decide (a.send = [])

/-- The bytes of a sliced stream that belong to chunk c: block, where they lie in the source, how many. -/
def byteSlices (a : GroupAttr) (cb c : Nat) : Nat → List Blk → List (Blk × Nat × Nat)
  | _, [] => []
  | b0, b :: r =>
    let len := bytesOf a.format b.len
    let lo := min len (c * cb - b0)
    let hi := min len ((c + 1) * cb - b0)
    if lo < hi then (b, bytesOf a.format b.mem + lo, hi - lo) :: byteSlices a cb c (b0 + len) r
    else byteSlices a cb c (b0 + len) r

/-- What chunk c reads of a source: block, offset and length in bytes of the source's format. -/
def readSpans (a : GroupAttr) (cb c : Nat) (l : List Blk) : List (Blk × Nat × Nat) :=
  if sliced a then byteSlices a cb c 0 l
  else (chunkPieces a cb c 0 l).map (fun (b, lo, n) => (b, bytesOf (srcFmt a) (b.mem + lo), bytesOf (srcFmt a) n))

/-- The parts of a chunk's input in the group's format: block and bytes. -/
def ownSpans (a : GroupAttr) (cb c : Nat) (l : List Blk) : List (Blk × Nat) :=
  if sliced a then (byteSlices a cb c 0 l).map (fun (b, _, n) => (b, n))
  else (chunkPieces a cb c 0 l).map (fun (b, _, n) => (b, bytesOf a.format n))

/-- The bytes of a chunk's stream, in the group's format, that go to member i. -/
def piecesTo (i : Nat) : List (Blk × Nat) → Bytes → Bytes
  | [], _ => []
  | (b, k) :: r, bs => (if b.dst = none ∨ b.dst = some i then bs.take k else []) ++ piecesTo i r (bs.drop k)

/-- A source stream's bytes, in the source's format, through the send program (R212, R216). -/
def sendPieces (a : GroupAttr) : List (Blk × Nat × Nat) → Bytes → Bytes
  | [], _ => []
  | (_, _, n) :: r, bs =>
    let k := bytesOf (srcFmt a) n
    runStream a.send (srcFmt a) a.format (bs.take k) ++ sendPieces a r (bs.drop k)

/-- A stream's key: what it carries, from member, to member. 0 leaves, words and moved data; 1 results; 2 combined
anchors; 3 anchors; 4 the value of an inner tree node, which stands in the place of the member it comes from; 6 a member's
own input. -/
def Stm.key (kind src dst : Nat) : Nat := (kind * 65536 + src) * 65536 + dst

/-- Every packet up to a stream's LAST has arrived. -/
def streamDone (c : Chunk) (key : Nat) : Bool :=
  match agetq key c.lasts with
  | none => false
  | some l => (List.range (l + 1)).all (fun p => (agetq (key * 65536 + p) c.parts).isSome)

/-- The bytes of a complete stream. -/
def streamBytes (c : Chunk) (key : Nat) : Bytes :=
  match agetq key c.lasts with
  | none => []
  | some l => (List.range (l + 1)).flatMap (fun p => aget [] (key * 65536 + p) c.parts)

/-! ### Scratch (R170, R200, R385) -/

/-- The Prism scratch in bytes, less its fenced banks. -/
def scratchPool (s : State) : Nat := (64 - (s.err.banks.filter (fun b => decide (b < 64))).length) * 2097152
/-- Scratch held by collectives. -/
def scratchUsed (s : State) : Nat :=
  (s.groups.map (fun g => match g.2.run with | some r => r.held | none => 0)).foldl (· + ·) 0

/-- The scratch that a collective takes at start: buffers, bytes held on chip, spilled (R170). -/
def takeScratch (s : State) (a : GroupAttr) (levels : Nat) (d : Desc) : Nat × Nat × Bool :=
  let c := chunkSize (cChunkExp d)
  let b := if isRed (Desc.op d) then bufferBytes c a.format (isAnchored a d) a.winopt else ceilDiv c 64 * 64
  let free := (scratchPool s - scratchUsed s) / b
  let want := min 64 (16 * levels)
  if want ≤ free then (want, want * b, false) else if 8 ≤ free then (free, free * b, false) else (8, 0, true)

/-! ### Start checks (R160) -/

/-- Whether a declared or group format is MX and a count is not whole blocks. -/
def mxBroken (a : GroupAttr) (n : Nat) : Bool :=
  (isMx a.format || isMx (srcFmt a) || isMx (dstFmt a)) && decide (n % 32 ≠ 0)

/-- Step 3 before the auxiliary area is read; true if a field is out of range. -/
def fieldsBad (a : GroupAttr) (d : Desc) : Bool :=
  let op := Desc.op d
  (isRed op && decide (3 ≤ cOp d)) || decide (10 ≤ cChunkExp d) || ((isRed op || isCombine op) && decide (a.format = 13)) ||
  (hasRoot op && decide (attrN a ≤ cRoot d)) ||
  (decide ((0x11 ≤ op ∧ op ≤ 0x19)) && mxBroken a (cCount d)) || (decide (0x1B ≤ op) && mxBroken a (rowLen a)) ||
  decide (chunkSize a.maxChunk < chunkSize (cChunkExp d)) ||
  (isVar op && (collUses op (atRoot d)).aux && decide (d.w6.toNat % 8 ≠ 0))

/-- 1 TiB − 1. -/
def maxBytes : Nat := 2 ^ 40 - 1

/-- Step 3 after it: the sizes, and the counts of an ALLTOALLV. -/
def sizesBad (a : GroupAttr) (d : Desc) (aux : Bytes) : Bool :=
  let blks := sourceBlks a d aux
  decide (maxBytes < bytesOf (srcFmt a) (blkTotal blks)) || decide (maxBytes < bytesOf (dstFmt a) (destElems a d aux)) ||
  (decide (Desc.op d = 0x1A) && blks.any (fun b => mxBroken a b.len))

/-- A member of a group checked and its auxiliary area read, a failure, or a wait for the area. -/
inductive Started where
  | good (m : CollMember)
  | bad (st : Status)
  | wait
deriving DecidableEq, Repr, Inhabited

/-- Bounds that an area or operand too long for any segment fails before its contents are formed. -/
def auxTooLong (s : State) (f : Nat) (d : Desc) (n : Nat) : Bool :=
  let (r, w) := auxShape n d
  !rangeCheck s f (cAseg d) d.w6 r .lrd none ||
    (match w with | some (o, l) => !rangeCheck s f (cAseg d) (d.w6 + BitVec.ofNat 64 o) l .lwr none | none => false)

/-- The auxiliary area's bytes, as the stream of the member reads them; none while it waits. -/
def readAux (f : Nat) (a : GroupAttr) (d : Desc) (given : Bytes) (s : State) : State × Option Bytes :=
  let n := (auxShape (attrN a) d).1
  let st := Stream.coll (cGid d) (cMember d)
  if n = 0 then (s, some [])
  else if streamBusy s st || !placesReleased s f (placesAt s f (cAseg d) d.w6 n) then (s, none)
  else
    let (s', t) := translate st 0 f (cAseg d) d.w6 n false s
    (readAll none f t.fresh s', if t.full then some (gather t.places (padTo n given) s.mem) else none)

/-- Steps 3 and 4 of R160 on a member's descriptor, the area's contents as `given` (R160, R163). -/
def startChecks (f q : Nat) (idx : U32) (csn : U32) (a : GroupAttr) (d : Desc) (given : Bytes) (s : State) :
    State × Started :=
  if fieldsBad a d then (s, .bad (stat cBAD_FIELD))
  else if isVar (Desc.op d) && auxTooLong s f d (attrN a) then (s, .bad (stat cACCESS_DENIED))
  else match readAux f a d given s with
    | (s, none) => (s, .wait)
    | (s, some aux) =>
      if decide (0x1B ≤ Desc.op d) && (routes d aux).any (badRoute (attrN a)) then (s, .bad (stat cCOLL_BAD_ROUTE))
      else if sizesBad a d aux then (s, .bad (stat cBAD_FIELD))
      else
        let blks := sourceBlks a d aux
        if rangeCheck s f (cSseg d) d.w4 (bytesOf (srcFmt a) (blkTotal blks)) .lrd none &&
          rangeCheck s f (cDseg d) d.w5 (bytesOf (dstFmt a) (destElems a d aux)) .lwr none then
          (s, .good { member := cMember d, f := f, q := q, idx := idx, csn := csn, desc := d, aux := aux, blks := blks })
        else (s, .bad (stat cACCESS_DENIED))

end Sys2Proof.Machine
end

