-- ==== Sys2Proof/Machine/Tree.lean ====
section
/-!
DEFINITION. The reduction tree of a group as it lies on adapters (R153, R154, R169, R416): its inner nodes, where each is
combined, the step and level of each transfer, and the value of a node from its inputs (R190 to R193, R196 to R198).
-/
namespace Sys2Proof.Machine

/-! ### The tree (R153) -/

/-- The lengths of the rows of inner nodes over n nodes, lowest first; at least one. `fuel` bounds the rows. -/
def upRows : Nat → Nat → Nat → List Nat
  | 0, _, _ => []
  | k + 1, f, n => let m := ceilDiv n f; m :: (if m ≤ 1 then [] else upRows k f m)

/-- The fan-in of a group's plan. -/
def fanIn (a : GroupAttr) : Nat := 2 ^ (a.plan + 1)

/-- The rows of inner nodes of a group's tree. -/
def treeRows (a : GroupAttr) : List Nat := upRows 17 (fanIn a) (attrN a)

/-- The number of inner nodes; they are numbered row by row, and the last one is the root. -/
def treeSize (a : GroupAttr) : Nat := (treeRows a).foldl (· + ·) 0

/-- The root of the tree. -/
def topNode (a : GroupAttr) : Nat := treeSize a - 1

/-- The row of inner node k and its place in it. -/
def nodePlace : List Nat → Nat → Nat × Nat
  | [], k => (0, k)
  | m :: r, k => if k < m then (0, k) else ((nodePlace r (k - m)).1 + 1, (nodePlace r (k - m)).2)

/-- The first inner node of a row. -/
def rowStart (a : GroupAttr) (h : Nat) : Nat := ((treeRows a).take h).foldl (· + ·) 0

/-- The inputs of inner node k from left to right: kind of stream and number: 0 a leaf, 4 an inner node. -/
def nodeInputs (a : GroupAttr) (k : Nat) : List (Nat × Nat) :=
  let (h, j) := nodePlace (treeRows a) k
  let below := if h = 0 then attrN a else (treeRows a).getD (h - 1) 0
  ((List.range (fanIn a)).filter (fun i => decide (fanIn a * j + i < below))).map (fun i =>
    if h = 0 then (0, fanIn a * j + i) else (4, rowStart a (h - 1) + fanIn a * j + i))

/-- The inner node that leaf j enters. -/
def leafParent (a : GroupAttr) (j : Nat) : Nat := j / fanIn a

/-- The inner node that inner node k enters. -/
def nodeParent (a : GroupAttr) (k : Nat) : Nat :=
  let (h, j) := nodePlace (treeRows a) k
  rowStart a (h + 1) + j / fanIn a

/-! ### Where and when (R154, R416) -/

/-- The plan's record for a tree node: leaf j is node j, inner node k node N + k. -/
def recordOf (g : Group) (node : Nat) : Option SchedRec :=
  g.sched.find? (fun r => decide (r.node = node) && (adaptersOf g.attr).contains r.src)

/-- The adapter that combines inner node k for chunk c: the source of the plan's record for it. -/
def nodeHome (g : Group) (c k : Nat) : Nat :=
  match recordOf g (attrN g.attr + k) with
  | some r => r.src
  | none => chunkRoot g.attr c

/-- The adapter that combines the root for chunk c. -/
def rootHome (g : Group) (c : Nat) : Nat := nodeHome g c (topNode g.attr)

/-- STEP of the transfer of inner node k: its record's, else its number and one. -/
def nodeStep (g : Group) (k : Nat) : Nat :=
  match recordOf g (attrN g.attr + k) with
  | some r => r.step
  | none => k + 1

/-- STEP of the transfer of leaf j: its record's, else 0. -/
def leafStep (g : Group) (j : Nat) : Nat :=
  match recordOf g j with
  | some r => r.step
  | none => 0

/-- STEP of the results, which come back after every node: one more than the last. -/
def resultStep (g : Group) : Nat := ((List.range (treeSize g.attr)).map (nodeStep g)).foldl max 0 + 1

/-- LEVEL of a node's transfer, where the plan gives it. -/
def nodeLevel (g : Group) (node : Nat) : Option Nat := (recordOf g node).map (fun r => r.level)

/-- The inner node whose value a packet of chunk c with a STEP brings from adapter x to adapter y. -/
def nodeFrom (g : Group) (c step x y : Nat) : Option Nat :=
  (List.range (topNode g.attr)).find? (fun k => decide (nodeStep g k = step) && decide (nodeHome g c k = x) &&
    decide (nodeHome g c (nodeParent g.attr k) = y))

/-! ### The value of a node -/

/-- The lists of the same positions of several lists. -/
def columns {α : Type} (d : α) (ls : List (List α)) : List (List α) :=
  (List.range (ls.headD []).length).map (fun p => ls.map (fun l => l.getD p d))

/-- The final conversion of an anchored group: WINOPT.RZ, WINOPT.FTZ and zeros as +0 (R197). -/
def convOf (a : GroupAttr) : Conv := if a.mode then { rz := bit a.winopt 2, ftz := bit a.winopt 3, pz := true } else {}

/-- The exit conversion of a reduce program: what it leaves keeps its sign (R211). -/
def exitConv (a : GroupAttr) : Conv := { convOf a with pz := false }

/-- Working values written as the result: through the reduce program if there is one (R211). -/
def closeVals (a : GroupAttr) (cv : Conv) (l : List Val) : Bytes :=
  if a.reduce = [] then writeVals a.format cv l
  else runReduce a.reduce a.format (exitConv a) (l.map (fun v => encodeF fp32 cv.rz false v))

/-- INT32 totals written as the result. -/
def closeInts (a : GroupAttr) (l : List Nat) : Bytes :=
  if a.reduce = [] then writeInts a.format l else runReduce a.reduce a.format {} l

/-- A list cut into parts of the given lengths; what is left over is a last part. -/
def cutBy {α : Type} : List Nat → List α → List (List α)
  | [], l => if l.isEmpty then [] else [l]
  | n :: r, l => l.take n :: cutBy r (l.drop n)

/-- The patterns of a node's input: a leaf in the group's format, a partial in its own (R190, R200). -/
def inputPats (a : GroupAttr) (op : Nat) (x : Nat × Bytes) : List Nat :=
  (elemsOf (if x.1 = 0 then a.format else partFmt a.format op) x.2).map Prod.fst

/-- A node of a native reduction from its inputs in order (R190, R192, R193): a partial, or at the root the result. `lens`:
the elements of each member block in the chunk, which no vector of the reduce program spans (R212). -/
def foldNative (a : GroupAttr) (op : Nat) (top : Bool) (lens : List Nat) (ins : List (Nat × Bytes)) : Bytes :=
  let pf := partFmt a.format op
  let cols := columns 0 (ins.map (inputPats a op))
  if isInt a.format then
    let l := cols.map (reduceInt op)
    if top then (cutBy lens l).flatMap (closeInts a) else writeInts pf l
  else
    let l := cols.map (fun c => foldNode (floatOp op) (.num false 0 0) (c.map valOf))
    if top then (cutBy lens l).flatMap (closeVals a {}) else writeVals pf {} l

/-- A node of an anchored SUM from words (R196 to R198): their sum, or at the root the result. -/
def foldWords (a : GroupAttr) (anchors : Bytes) (top : Bool) (lens : List Nat) (words : List Bytes) : Bytes :=
  let f := wordBits a.format a.winopt false
  let h := headroom a.winopt (attrN a)
  let sums := ((columns 0 (words.map (fun b => (chunksOf (f / 8) b).map ofLE))).zip anchors).map
    (fun (l, k) => (l.foldl (addWords f k.toNat) 0, k))
  if top then (cutBy lens (sums.map (fun (w, k) => wordVal f h k.toNat w))).flatMap (closeVals a (convOf a))
  else sums.flatMap (fun (w, _) => toLE (f / 8) w)

end Sys2Proof.Machine
end

