-- ==== Sys2Proof/Machine/CollRun.lean ====
section
/-!
DEFINITION. A collective as it runs on this adapter (R162, R165 to R180): streams handed on, the combining of a chunk on
a Prism cluster (R184, R190 to R198, R211), placements, confirmations and commits, the count exchange, recovery, and
the ends of a collective.
-/
namespace Sys2Proof.Machine

/-! ### The running collective -/

/-- The running collective of a group. -/
def getRun (s : State) (gid : Nat) : Option Coll := (getG s gid).run
/-- It changed. -/
def modRun (gid : Nat) (g : Coll → Coll) (s : State) : State := modG gid (fun x => { x with run := x.run.map g }) s
/-- A chunk of it. -/
def getCh (r : Coll) (c : Nat) : Chunk := aget {} c r.state
/-- A chunk changed. -/
def modCh (gid c : Nat) (g : Chunk → Chunk) (s : State) : State :=
  modRun gid (fun r => { r with state := amod {} c g r.state }) s
/-- The descriptor whose parameters the collective has. -/
def runDesc (r : Coll) : Desc := match r.members with | m :: _ => m.desc | [] => default
/-- A local member's part in it. -/
def memberIn (r : Coll) (i : Nat) : Option CollMember := r.members.find? (fun m => m.member = i)
/-- Every local member has joined. -/
def allJoined (s : State) (a : GroupAttr) (r : Coll) : Bool := decide (r.members.length = (localMembers s a).length)

/-! ### Streams handed on (R174) -/

/-- CDATA's SUB of a stream kind. -/
def subOfKind (kind : Nat) : Nat := if kind = 2 ∨ kind = 3 then 3 else 0

/-- A stream arrives whole at a local member. -/
def landStream (gid c key : Nat) (bs : Bytes) (s : State) : State :=
  modCh gid c (fun x => { x with
    parts := aset (key * 65536) bs x.parts, lasts := aset key 0 x.lasts, progress := s.now }) s

/-- The adapter that sends a stream of chunk c. -/
def keyAdapter (g : Group) (c key : Nat) : Nat :=
  let n := key / 65536 % 65536
  if key / 4294967296 = 4 then nodeHome g c n else adapterOf g.attr n

/-- STEP and LEVEL of a stream's packets (R154, R416). -/
def streamStep (g : Group) (red : Bool) (kind src : Nat) : Nat × Option Nat :=
  match kind with
  | 0 => if red then (leafStep g src, nodeLevel g src) else (0, none)
  | 1 => (resultStep g, none)
  | 4 => (nodeStep g src, nodeLevel g (attrN g.attr + src))
  | _ => (0, none)

/-- A stream's bytes go to a member: to a local one at once, to another adapter in packets of 4,096 bytes whose last
one is LAST (R174). -/
def putStream (gid c kind src dst : Nat) (resent : Bool) (bs : Bytes) (s : State) : State :=
  let g := getG s gid
  match g.run with
  | none => s
  | some r =>
    let x := getCh r c
    let key := Stm.key kind src dst
    let s := modCh gid c (fun x => { x with sent := if x.sent.contains key then x.sent else x.sent ++ [key] }) s
    if isLocal s g.attr dst then landStream gid c key bs s
    else
      let ps := if bs = [] then [[]] else chunksOf 4096 bs
      let (step, level) := streamStep g (isRed r.op) kind src
      ps.zipIdx.foldl (fun s p => toMember g.attr r.csn r.sig {
        typ := 8, sub := subOfKind kind, src := if kind = 4 then ownLow s g.attr else src, dst := dst, chunk := c, pkt := p.2
        step := step, level := level, first := decide (p.2 = 0), last := decide (p.2 + 1 = ps.length)
        resent := resent || x.resent, broken := x.broken, data := p.1 } s) s

/-! ### Blocks that straddle chunks (R187) -/

/-- What stream `key` holds back of a block that straddles into the chunk n above the commit index; none while it is not
known. -/
def tailFrom (a : GroupAttr) (r : Coll) (key : Nat) : Nat → Option Bytes
  | 0 => some (aget [] key r.tails)
  | n + 1 =>
    let x := getCh r (r.commit + n)
    if streamDone x key then
      (tailFrom a r key n).map (fun t =>
        let b := t ++ streamBytes x key
        b.drop (b.length / unitBytes a.format * unitBytes a.format))
    else none

/-- The bytes of stream `key` that chunk c completes: whole blocks where the stream is sliced. -/
def wholeOf (a : GroupAttr) (r : Coll) (c key : Nat) : Option Bytes :=
  let bs := streamBytes (getCh r c) key
  if sliced a then
    (tailFrom a r key (c - r.commit)).map (fun t => (t ++ bs).take ((t ++ bs).length / unitBytes a.format * unitBytes a.format))
  else some bs

/-- The elements that chunk c completes of a stream. -/
def streamElems (a : GroupAttr) (r : Coll) (c key : Nat) : Option Nat :=
  (wholeOf a r c key).map (fun b => b.length / unitBytes a.format * unitElems a.format)

/-- The whole blocks of member m's own input that chunk c completes. -/
def ownUnits (a : GroupAttr) (r : Coll) (c m : Nat) : Option Bytes :=
  let x := getCh r c
  if sliced a then (if (agetq m x.own).isSome then wholeOf a r c (Stm.key 6 m m) else none) else agetq m x.own

/-- Member m's input of chunk c is known; a sliced one is kept as a stream of its own. -/
def noteOwn (gid c m : Nat) (bs : Bytes) (s : State) : State :=
  let s := modCh gid c (fun x => { x with own := aset m bs x.own }) s
  if sliced (getG s gid).attr then landStream gid c (Stm.key 6 m m) bs s else s

/-! ### Values of a chunk (R196 to R198, R211) -/

/-- The anchor bytes of a stream of leaves. -/
def anchorsOf (fmt : Nat) (bs : Bytes) : Bytes := (elemsOf fmt bs).map (fun x => BitVec.ofNat 8 (anchorByte (valOf x.1)))

/-- Anchor bytes combined by MAX. -/
def maxBytesOf (l : List Bytes) : Bytes :=
  match l with
  | [] => []
  | h :: r => r.foldl (fun a b => List.zipWith (fun x y => if x.toNat < y.toNat then y else x) a b) h

/-- The words of a stream of leaves under the chunk's anchors (R198). -/
def wordsOf (a : GroupAttr) (anchors bs : Bytes) : Bytes :=
  let f := wordBits a.format a.winopt false
  let h := headroom a.winopt (attrN a)
  ((elemsOf a.format bs).zip anchors).flatMap (fun (x, k) => toLE (f / 8) (wordOf f h k.toNat (valOf x.1)))

/-- One element of EXPERT_COMBINE's output: the gates and row elements of its choices (R194). -/
def combineElem (a : GroupAttr) (k : Nat) (l : List (Nat × Nat)) : Val :=
  sumProducts a.mode a.winopt k (l.map (fun (g, x) =>
    product (valOf g) (if isInt a.format then ofInt (sint32 x) else valOf x)))

/-- A row of EXPERT_COMBINE's output in the group's format, from its used choices' gates and rows. -/
def combineRow (a : GroupAttr) (k : Nat) (l : List (Nat × List Nat)) : Bytes :=
  let vals := (List.range (rowLen a)).map (fun e => combineElem a k (l.map (fun (g, r) => (g, r.getD e 0))))
  if isInt a.format then closeInts a (vals.map (fun v => pat32 (toInt32 false v)))
  else closeVals a (convOf a) vals

/-! ### Reading and sending sources (R168, R216) -/

/-- The pieces of a member's source that chunk c holds, in elements. -/
def memberPieces (a : GroupAttr) (r : Coll) (c : Nat) (m : CollMember) : List (Blk × Nat × Nat) :=
  chunkPieces a r.chunkBytes c 0 m.blks

/-- What chunk c reads of member m's source, in bytes. -/
def memberSpans (a : GroupAttr) (r : Coll) (c : Nat) (m : CollMember) : List (Blk × Nat × Nat) :=
  readSpans a r.chunkBytes c m.blks

/-- The members a source stream's chunk goes to. -/
def destsOf (a : GroupAttr) (m : CollMember) : List Nat :=
  match Desc.op m.desc with
  | 0x14 => List.range (attrN a)
  | 0x15 => List.range (attrN a)
  | 0x16 => [cRoot m.desc]
  | 0x19 => [cRoot m.desc]
  | _ => List.range (attrN a)

/-- A member contributes a source to this collective. -/
def isSource (m : CollMember) : Bool :=
  match Desc.op m.desc with
  | 0x10 => false
  | 0x14 => atRoot m.desc
  | 0x17 => atRoot m.desc
  | _ => true

/-- An adapter is the one that a resend goes to, or there is no such one. -/
def wantsTo (only : Option Nat) (y : Nat) : Bool := match only with | some z => decide (y = z) | none => true

/-- Member m's anchors of chunk c go to the adapter that combines its root (R196). -/
def sendAnchors (gid c : Nat) (resent : Bool) (only : Option Nat) (m : CollMember) (s : State) : State :=
  let g := getG s gid
  match g.run with
  | none => s
  | some r =>
    let y := rootHome g c
    match ownUnits g.attr r c m.member with
    | none => s
    | some us =>
      if isAnchored g.attr m.desc && wantsTo only y then
        putStream gid c 3 m.member (lowestOn g.attr y) resent (anchorsOf g.attr.format us) s
      else s

/-- Member m's data of chunk c is handed on: moved data to each destination, a leaf, or once the anchors are known its
words, to the adapter that combines the node it enters (R165, R190, R198). -/
def sendData (gid c : Nat) (resent : Bool) (only : Option Nat) (m : CollMember) (s : State) : State :=
  let g := getG s gid
  match g.run with
  | none => s
  | some r =>
    let a := g.attr
    let x := getCh r c
    match agetq m.member x.own with
    | none => s
    | some bs =>
      if isRed (Desc.op m.desc) then
        let y := nodeHome g c (leafParent a m.member)
        if !wantsTo only y then s
        else if isAnchored a m.desc then
          match x.anchors, ownUnits a r c m.member with
          | some k, some us => putStream gid c 0 m.member (lowestOn a y) resent (wordsOf a k us) s
          | _, _ => s
        else putStream gid c 0 m.member (lowestOn a y) resent bs s
      else
        let ps := ownSpans a r.chunkBytes c m.blks
        (destsOf a m).foldl (fun s i =>
          if wantsTo only (adapterOf a i) then putStream gid c 0 m.member i resent (piecesTo i ps bs) s else s) s

/-- What member m's input of chunk c allows to be handed on now: its anchors, and its data. -/
def handDue (a : GroupAttr) (r : Coll) (c : Nat) (m : CollMember) : Bool × Bool :=
  let x := getCh r c
  let anch := isAnchored a m.desc
  let known := (agetq m.member x.own).isSome && (!anch || (ownUnits a r c m.member).isSome)
  (known && anch && !x.handed.contains (2 * m.member),
   known && (!anch || x.anchors.isSome) && !x.handed.contains (2 * m.member + 1))

/-- Member m's part of chunk c is handed on as far as it can be. -/
def handOwn (gid c : Nat) (s : State) (m : CollMember) : State :=
  let g := getG s gid
  match g.run with
  | none => s
  | some r =>
    let (anchors, data) := handDue g.attr r c m
    let s := if anchors then sendAnchors gid c false none m
        (modCh gid c (fun x => { x with handed := x.handed ++ [2 * m.member] }) s)
      else s
    if data then sendData gid c false none m (modCh gid c (fun x => { x with handed := x.handed ++ [2 * m.member + 1] }) s)
    else s

/-- Spans of a member's source as ranges of its segment. -/
def spanRanges (m : CollMember) (l : List (Blk × Nat × Nat)) : List (Nat × U64 × Nat) :=
  l.map (fun (_, o, n) => (cSseg m.desc, m.desc.w4 + BitVec.ofNat 64 o, n))

/-- The ports of some spans of a source are released. -/
def spansReleased (s : State) (m : CollMember) (l : List (Blk × Nat × Nat)) : Bool :=
  placesReleased s m.f ((spanRanges m l).flatMap (fun (g, o, n) => placesAt s m.f g o n))

/-- The read of member m's part of chunk c is issued, as far as its stream, its tiles and its ports let it; an empty part
is known at once. -/
def readChunk (gid c : Nat) (s : State) (m : CollMember) : State :=
  let g := getG s gid
  let st := Stream.coll gid m.member
  match g.run with
  | none => s
  | some r =>
    let x := getCh r c
    if (agetq m.member x.reading).isSome || (agetq m.member x.raw).isSome || (agetq m.member x.own).isSome ||
      streamBusy s st then s
    else match memberSpans g.attr r c m with
      | [] => noteOwn gid c m.member [] s
      | ps =>
        if !spansReleased s m ps then s
        else
          let (s, t) := transRanges st m.f false (spanRanges m ps) s
          let s := if t.full then modCh gid c (fun x => { x with reading := aset m.member t.places x.reading }) s else s
          readAll (some (.source (.chunk gid m.member c))) m.f t.fresh s

/-- Some hop of a ring that the group's packets from here use is broken (R179). -/
def ringBroken (s : State) (a : GroupAttr) : Bool :=
  [0, 1, 2].any (fun d => (otherAdapters s a).any (fun y =>
      let w := BitVec.ofNat 24 y
      decide (podOf w = podOf (ownId s) ∧ coord (posOf w) d ≠ coord (ownPos s) d)) &&
    (List.range (ringSize s d)).any (breakBit s d))

/-- Chunk c starts here: it runs the broken-ring schedule if a hop is broken (R179, R180). -/
def startChunk (gid c : Nat) (s : State) : State :=
  match getRun s gid with
  | none => s
  | some r =>
    if (getCh r c).started then s
    else
      let b := ringBroken s (getG s gid).attr
      let s := modCh gid c (fun x => { x with started := true, broken := b, progress := s.now }) s
      if b then modRun gid (fun r => { r with degraded := true })
        { s with grp := { s.grp with broken := s.grp.broken + 1 } }
      else s

/-- The chunks that may be worked on: from the commit index, as many as there are buffers (R170, R172). -/
def openChunks (r : Coll) : List Nat :=
  match r.chunks with
  | none => []
  | some n => (List.range (min r.bufs (n - r.commit))).map (fun i => r.commit + i)

/-- The collective moves no data: its sources are all empty (R167, R168). -/
def noData (r : Coll) : Bool := decide (r.srcMax = 0)

/-- Sources of the open chunks are read, chunk by chunk, and handed on. -/
def startChunks (gid : Nat) (s : State) : State :=
  match getRun s gid with
  | none => s
  | some r =>
    if !r.data || noData r then s
    else (openChunks r).foldl (fun s c => r.members.foldl (fun s m =>
      if isSource m then handOwn gid c (readChunk gid c s m) m else s) (startChunk gid c s)) s

/-! ### The nodes of a chunk that are combined here (R154, R184, R190, R196) -/

/-- Unfenced clusters of the part, ascending. -/
def liveClusters (s : State) : List Nat :=
  (List.range 8).filter (fun k => hasPrism s k && !bit s.prism.fenced k)

/-- The cluster after k in ascending order, wrapping. -/
def clusterAfter (s : State) (k : Nat) : Option Nat :=
  let l := liveClusters s
  match l.find? (fun x => k < x) with
  | some x => some x
  | none => l.head?

/-- The inputs of inner node k of chunk c, from left to right, once all are here. -/
def nodeIns (s : State) (g : Group) (r : Coll) (c k : Nat) : Option (List (Nat × Bytes)) :=
  let words := isAnchored g.attr (runDesc r)
  (nodeInputs g.attr k).mapM (fun (kind, i) =>
    let key := Stm.key kind i (ownLow s g.attr)
    if !streamDone (getCh r c) key then none
    else if kind = 0 && !words then (wholeOf g.attr r c key).map (fun b => (kind, b))
    else some (kind, streamBytes (getCh r c) key))

/-- Inner node k of chunk c is combined. -/
def nodeKnown (a : GroupAttr) (x : Chunk) (k : Nat) : Bool :=
  if k = topNode a then x.result.isSome else (agetq k x.sums).isSome

/-- Inner node k of chunk c is combined here, its inputs are here and its value is not. -/
def nodeDue (s : State) (g : Group) (r : Coll) (c k : Nat) : Bool :=
  let x := getCh r c
  isRed r.op && !nodeKnown g.attr x k && decide (nodeHome g c k = me s) &&
    (!isAnchored g.attr (runDesc r) || x.anchors.isSome) && (nodeIns s g r c k).isSome

/-- Some node of chunk c is due here. -/
def combineDue (s : State) (g : Group) (r : Coll) (c : Nat) : Bool :=
  (List.range (treeSize g.attr)).any (nodeDue s g r c)

/-- The anchors of every member for chunk c are here, where its root is combined (R196). -/
def anchorsDue (s : State) (g : Group) (r : Coll) (c : Nat) : Bool :=
  let x := getCh r c
  isAnchored g.attr (runDesc r) && x.anchors.isNone && decide (rootHome g c = me s) &&
    (List.range (attrN g.attr)).all (fun j => streamDone x (Stm.key 3 j (ownLow s g.attr)))

/-! ### Placing (R173) -/

/-- Where member i's block of the source of member j begins in its destination, in elements (R159, R163). -/
def destBase (a : GroupAttr) (r : Coll) (i j : Nat) : Nat :=
  let d := runDesc r
  let before := ((List.range j).map (fun k => aget 0 (i * 65536 + k) r.counts)).foldl (· + ·) 0
  match r.op with
  | 0x14 => 0
  | 0x17 => 0
  | 0x19 => before
  | 0x1A => before
  | 0x1B => before * rowLen a
  | _ => j * cCount d

/-- The stream keys that bring chunk c to local member i. -/
def keysTo (g : Group) (r : Coll) (c i : Nat) : List Nat :=
  let a := g.attr
  let d := runDesc r
  if noData r || !hasDest d i then []
  else if isRed r.op then [Stm.key 1 (lowestOn a (rootHome g c)) i]
  else (sourcesOf a d).map (fun j => Stm.key 0 j i)

/-- Elements of a stream in the chunks before c; none while one of them is not complete. -/
def elemsBefore (a : GroupAttr) (r : Coll) (c key : Nat) : Option Nat :=
  (List.range (c - r.commit)).foldl (fun n i => match n with
    | none => none
    | some n => if streamDone (getCh r (r.commit + i)) key then (streamElems a r (r.commit + i) key).map (fun e => n + e)
      else none) (some (aget 0 key r.got))

/-- A complete stream of chunk c not yet placed whose place is known. -/
def placeDue (a : GroupAttr) (r : Coll) (c key : Nat) : Bool :=
  let x := getCh r c
  streamDone x key && !x.placed.contains key && (wholeOf a r c key).isSome &&
    (isRed r.op || (elemsBefore a r c key).isSome)

/-- Streams of chunk c that may be placed at joined local members. -/
def duePlaces (s : State) (g : Group) (r : Coll) (c : Nat) : List (Nat × Nat) :=
  if isCombine r.op then []
  else (localMembers s g.attr).flatMap (fun i => if (memberIn r i).isNone then []
    else ((keysTo g r c i).filter (placeDue g.attr r c)).map (fun k => (k, i)))

/-- Those of them that the receive program has still to run on. -/
def dueRuns (s : State) (g : Group) (r : Coll) (c : Nat) : List (Nat × Nat) :=
  if g.attr.recv = [] then [] else (duePlaces s g r c).filter (fun x => !(getCh r c).ran.contains x.1)

/-- Bytes cut where rows end, the first one `left` elements away. -/
def cutRows (a : GroupAttr) : Nat → Nat → Bytes → List Bytes
  | 0, _, _ => []
  | n + 1, left, bs =>
    if bs = [] then [] else
      let k := bytesOf a.format left
      bs.take k :: cutRows a n (rowLen a) (bs.drop k)

/-- The parts of a stream that no vector of the receive program spans: the rows of an expert collective (R212). -/
def recvParts (a : GroupAttr) (r : Coll) (before : Nat) (bs : Bytes) : List Bytes :=
  if r.op = 0x1B ∨ r.op = 0x1C then cutRows a (bs.length + 1) (rowLen a - before % rowLen a) bs else [bs]

/-- A stream's bytes through the receive program. -/
def recvBytes (a : GroupAttr) (r : Coll) (before : Nat) (bs : Bytes) : Bytes :=
  if a.recv = [] then bs else (recvParts a r before bs).flatMap (runStream a.recv a.format (dstFmt a))

/-- The vectors that this takes (R227). -/
def recvVectors (a : GroupAttr) (r : Coll) (before : Nat) (bs : Bytes) : Nat :=
  ((recvParts a r before bs).map (fun p => vectorsOf a.recv (p.length / unitBytes a.format * unitElems a.format))).foldl
    (· + ·) 0

/-- Bytes in the destination's format are placed at an element of member i's destination for chunk c; `mark` notes it.
A stream that must wait is tried again when it goes on. -/
def placeOut (gid c : Nat) (mark : State → State) (m : CollMember) (elem : Nat) (bs : Bytes) (s : State) : State :=
  let a := (getG s gid).attr
  if bs = [] then mark s
  else if streamBusy s (.coll gid m.member) then s
  else
    let off := m.desc.w5 + BitVec.ofNat 64 (bytesOf (dstFmt a) elem)
    let (s, t) := translate (.coll gid m.member) 0 m.f (cDseg m.desc) off bs.length true s
    let s := postAll m.f (.chunk gid c m.member) (t.writes bs) s
    if t.full then mark s else s

/-- A stream of chunk c is placed. -/
def markPlaced (gid c key : Nat) (s : State) : State :=
  modCh gid c (fun x => { x with placed := x.placed ++ [key], progress := s.now }) s

/-- The first element of member i's destination that chunk c of a reduction gives it. -/
def resultElem (a : GroupAttr) (r : Coll) (c : Nat) (i : Nat) : Nat :=
  let n := cCount (runDesc r)
  if r.op = 0x13 then belowChunk a r.chunkBytes (i * n) n c else belowChunk a r.chunkBytes 0 n c

/-- A due stream of chunk c is placed at member i. -/
def placeStream (gid c : Nat) (s : State) (ki : Nat × Nat) : State :=
  let g := getG s gid
  match g.run with
  | none => s
  | some r =>
    match memberIn r ki.2, wholeOf g.attr r c ki.1 with
    | some m, some bs =>
      let put := placeOut gid c (markPlaced gid c ki.1) m
      if isRed r.op then put (resultElem g.attr r c ki.2) (recvBytes g.attr r 0 bs) s
      else match elemsBefore g.attr r c ki.1 with
        | none => s
        | some e => put (destBase g.attr r ki.2 (ki.1 / 65536 % 65536) + e) (recvBytes g.attr r e bs) s
    | _, _ => s

/-! ### EXPERT_COMBINE's rows (R164, R173) -/

/-- The bytes of the rows from member j that have reached local member i, chunk by chunk from the first on. -/
def rowBytes (r : Coll) (i j : Nat) : List Bytes :=
  let key := Stm.key 0 j i
  ((List.range (r.chunks.getD 0)).takeWhile (fun c => streamDone (getCh r c) key)).map (fun c => streamBytes (getCh r c) key)

/-- The part of a list of parts that holds byte b. -/
def partWith : List Bytes → Nat → Option Nat
  | [], _ => none
  | p :: r, b => if b < p.length then some 0 else (partWith r (b - p.length)).map (· + 1)

/-- The rows that local member m's output row t is made of: gate pattern, member they come from, and place among its rows
(R163, R164). -/
def rowRefs (a : GroupAttr) (m : CollMember) (t : Nat) : List (Nat × Nat × Nat) :=
  let ds := (routes m.desc m.aux).map routeDest
  let k := cK m.desc
  (List.range k).filterMap (fun x => (ds.getD (t * k + x) none).map (fun j =>
    (gateOf (attrN a) m.desc m.aux (t * k + x), j, ((ds.take (t * k + x)).filter (fun y => y = some j)).length)))

/-- The chunks in which a row of member j for member i begins and ends, as far as they have arrived. -/
def rowChunks (a : GroupAttr) (r : Coll) (i j n : Nat) : Option Nat × Option Nat :=
  let len := bytesOf a.format (rowLen a)
  (partWith (rowBytes r i j) (n * len), partWith (rowBytes r i j) ((n + 1) * len - 1))

/-- The chunk with which output row t of member m can be computed: the last one that brings a part of it, chunk 0 for a row
of no rows; none while something is missing. -/
def rowReady (a : GroupAttr) (r : Coll) (m : CollMember) (t : Nat) : Option Nat :=
  (rowRefs a m t).foldl (fun acc x => match acc, (rowChunks a r m.member x.2.1 x.2.2).2 with
    | some c, some d => some (max c d)
    | _, _ => none) (some 0)

/-- The mark of an output row. -/
def outKey (i t : Nat) : Nat := t * 65536 + i

/-- Output rows of local member m that chunk c completes and that are not computed. -/
def rowsDue (a : GroupAttr) (r : Coll) (c : Nat) (m : CollMember) : List Nat :=
  if !isCombine r.op || noData r then []
  else (List.range (cCount m.desc)).filter (fun t => (agetq (outKey m.member t) r.outs).isNone &&
    decide (rowReady a r m t = some c))

/-- Output row t of member m in the destination's format. -/
def combineOut (a : GroupAttr) (r : Coll) (m : CollMember) (t : Nat) : Bytes :=
  let len := bytesOf a.format (rowLen a)
  runStream a.recv a.format (dstFmt a) (combineRow a (cK m.desc) ((rowRefs a m t).map (fun (g, j, n) =>
    (g, (elemsOf a.format ((((rowBytes r m.member j).flatten).drop (n * len)).take len)).map Prod.fst))))

/-- A computed output row is placed. -/
def placeRow (gid : Nat) (m : CollMember) (s : State) (x : Nat × Nat) : State :=
  let g := getG s gid
  match g.run with
  | none => s
  | some r => placeOut gid x.2 (modRun gid (fun r => { r with outs := aset (outKey m.member x.1) (x.2, true) r.outs })) m
      (x.1 * rowLen g.attr) (combineOut g.attr r m x.1) s

/-- Computed output rows of member m that are not placed: row and chunk. -/
def rowsToPlace (r : Coll) (m : CollMember) : List (Nat × Nat) :=
  (r.outs.filter (fun x => decide (x.1 % 65536 = m.member) && !x.2.2)).map (fun x => (x.1 / 65536, x.2.1))

/-- Output row t of member m is placed and confirmed. -/
def rowVisible (s : State) (gid : Nat) (r : Coll) (i t : Nat) : Bool :=
  match agetq (outKey i t) r.outs with
  | some (c, placed) => placed && !stillOut s (.chunk gid c i)
  | none => false

/-- Output row t of member m waits for a row that no open chunk brings: to wait for it would hold every buffer (R172), so
what it has is retained and does not hold back a confirmation (DEDUCED, log entry 20). -/
def rowDeferred (a : GroupAttr) (r : Coll) (m : CollMember) (t : Nat) : Bool :=
  (rowRefs a m t).any (fun x => (rowChunks a r m.member x.2.1 x.2.2).2.isNone &&
    (openChunks r).all (fun c => streamDone (getCh r c) (Stm.key 0 x.2.1 m.member)))

/-- Chunk c brings a part of output row t of member m. -/
def rowUses (a : GroupAttr) (r : Coll) (c : Nat) (m : CollMember) (t : Nat) : Bool :=
  match rowRefs a m t with
  | [] => decide (c = 0)
  | l => l.any (fun x => match rowChunks a r m.member x.2.1 x.2.2 with
    | (some b, some e) => decide (b ≤ c ∧ c ≤ e)
    | (some b, none) => decide (b ≤ c)
    | _ => false)

/-- Every output row of local member i that chunk c brings a part of is placed and confirmed, or deferred. -/
def rowsConfirmed (s : State) (gid : Nat) (a : GroupAttr) (r : Coll) (c i : Nat) : Bool :=
  match memberIn r i with
  | none => false
  | some m => (List.range (cCount m.desc)).all (fun t =>
      !rowUses a r c m t || rowVisible s gid r i t || rowDeferred a r m t)

/-! ### Clusters (R184) -/

/-- Chunk c needs a cluster: a send program, anchors, a node, a combine's rows, or a receive program. -/
def needsCluster (s : State) (g : Group) (r : Coll) (c : Nat) : Bool :=
  decide ((getCh r c).raw ≠ []) || anchorsDue s g r c || combineDue s g r c || decide (dueRuns s g r c ≠ []) ||
    r.members.any (fun m => decide (rowsDue g.attr r c m ≠ []))

/-- Collective control gives chunk c to the next unfenced cluster, which it keeps for all its work (R184); clusters that
are powered down are asked to power up (R426). -/
def assignCluster (gid : Nat) (s : State) (c : Nat) : State :=
  match getRun s gid with
  | none => s
  | some r =>
    let x := getCh r c
    if x.cluster.isSome || !needsCluster s (getG s gid) r c || !s.prism.assigning then s
    else if !s.prism.powered then { s with prism := { s.prism with powering := true } }
    else match x.home.filter (fun k => (liveClusters s).contains k) with
      | some k => modCh gid c (fun x => { x with cluster := some k }) s
      | none => match clusterAfter s s.prism.rr with
        | none => s
        | some k => modCh gid c (fun x => { x with home := some k, cluster := some k })
            { s with prism := { s.prism with rr := k } }

/-- Streams of the open chunks that need no cluster any more are placed, and computed rows. -/
def placePlain (gid : Nat) (s : State) : State :=
  match getRun s gid with
  | none => s
  | some r =>
    let s := (openChunks r).foldl (fun s c => match getRun s gid with
      | none => s
      | some r =>
        let g := getG s gid
        ((duePlaces s g r c).filter (fun x => decide (g.attr.recv = []) || (getCh r c).ran.contains x.1)).foldl
          (placeStream gid c) s) s
    r.members.foldl (fun s m => match getRun s gid with
      | none => s
      | some r => (rowsToPlace r m).foldl (placeRow gid m) s) s

/-! ### Anchors (R196) and results (R190, R198) -/

/-- The outcome of chunk c's anchor pass has arrived from the adapter that combines its root. -/
def anchorsArrive (gid : Nat) (s : State) (c : Nat) : State :=
  let g := getG s gid
  match g.run with
  | none => s
  | some r =>
    let x := getCh r c
    let key := Stm.key 2 (lowestOn g.attr (rootHome g c)) (ownLow s g.attr)
    if isAnchored g.attr (runDesc r) && x.anchors.isNone && streamDone x key then
      modCh gid c (fun x => { x with anchors := some (streamBytes x key) }) s
    else s

/-- Chunk c's result goes to every member that receives a part of it; `only`: the adapter it goes to. -/
def sendResult (gid c : Nat) (resent : Bool) (only : Option Nat) (s : State) : State :=
  let g := getG s gid
  match g.run with
  | none => s
  | some r =>
    let a := g.attr
    match (getCh r c).result with
    | none => s
    | some bs =>
      let d := runDesc r
      let ps := match r.members with
        | m :: _ => (memberPieces a r c m).map (fun p => (p.1, bytesOf a.format p.2.2))
        | [] => []
      ((List.range (attrN a)).filter (fun i => hasDest d i && wantsTo only (adapterOf a i))).foldl
        (fun s i => putStream gid c 1 (ownLow s a) i resent (piecesTo i ps bs) s) s

/-- The value of inner node k goes to the adapter that combines the node it enters. -/
def sendNode (gid c k : Nat) (resent : Bool) (only : Option Nat) (s : State) : State :=
  let g := getG s gid
  match g.run with
  | none => s
  | some r =>
    let y := nodeHome g c (nodeParent g.attr k)
    match agetq k (getCh r c).sums with
    | none => s
    | some bs => if wantsTo only y then putStream gid c 4 k (lowestOn g.attr y) resent bs s else s

/-! ### A cluster's work (R184, R209, R227) -/

/-- Bytes combined and vectors run are counted for a cluster (R209, R227). -/
def countWork (k bytes vecs : Nat) (s : State) : State :=
  { s with prism := { s.prism with
    wbytes := amod 0 k (fun n => n + BitVec.ofNat 64 bytes) s.prism.wbytes
    vecs := amod 0 k (fun n => n + BitVec.ofNat 64 vecs) s.prism.vecs } }

/-- The send program runs on the inputs of chunk c. -/
def finishSends (gid c k : Nat) (s : State) : State :=
  let g := getG s gid
  match g.run with
  | none => s
  | some r => (getCh r c).raw.foldl (fun s y => match memberIn r y.1 with
      | none => s
      | some m =>
        let ps := memberPieces g.attr r c m
        let vs := (ps.map (fun p => vectorsOf g.attr.send p.2.2)).foldl (· + ·) 0
        countWork k 0 vs (noteOwn gid c y.1 (sendPieces g.attr ps y.2)
          (modCh gid c (fun x => { x with raw := adel y.1 x.raw }) s))) s

/-- The anchors of chunk c are combined, and their outcome goes to every other member adapter (R196). -/
def finishAnchors (gid c k : Nat) (s : State) : State :=
  let g := getG s gid
  match g.run with
  | none => s
  | some r =>
    if !anchorsDue s g r c then s
    else
      let a := g.attr
      let ins := (List.range (attrN a)).map (fun j => streamBytes (getCh r c) (Stm.key 3 j (ownLow s a)))
      let out := maxBytesOf ins
      (otherAdapters s a).foldl (fun s y => putStream gid c 2 (ownLow s a) (lowestOn a y) false out s)
        (countWork k ((ins.map List.length).foldl (· + ·) 0) 0 (modCh gid c (fun x => { x with anchors := some out }) s))

/-- Inner node n of chunk c is combined, if it is due. -/
def finishNode (gid c k : Nat) (s : State) (n : Nat) : State :=
  let g := getG s gid
  match g.run with
  | none => s
  | some r =>
    match (nodeIns s g r c n).filter (fun _ => nodeDue s g r c n) with
    | none => s
    | some ins =>
      let a := g.attr
      let top := decide (n = topNode a)
      let lens := match r.members with
        | m :: _ => (memberPieces a r c m).map (fun p => p.2.2)
        | [] => []
      let out := match (getCh r c).anchors with
        | some anc => foldWords a anc top lens (ins.map Prod.snd)
        | none => foldNative a (cOp (runDesc r)) top lens ins
      let s := countWork k ((ins.map (fun x => x.2.length)).foldl (· + ·) 0)
        (if top then (lens.map (vectorsOf a.reduce)).foldl (· + ·) 0 else 0) s
      if top then sendResult gid c false none (modCh gid c (fun x => { x with result := some out }) s)
      else sendNode gid c n false none (modCh gid c (fun x => { x with sums := aset n out x.sums }) s)

/-- The nodes of chunk c that are due here are combined, rows from the lowest up. -/
def finishNodes (gid c k : Nat) (s : State) : State :=
  (List.range (treeSize (getG s gid).attr)).foldl (finishNode gid c k) s

/-- The receive program runs on the due streams of chunk c. -/
def finishRuns (gid c k : Nat) (s : State) : State :=
  let g := getG s gid
  match g.run with
  | none => s
  | some r =>
    let due := dueRuns s g r c
    let vs := (due.map (fun x => recvVectors g.attr r ((elemsBefore g.attr r c x.1).getD 0)
      ((wholeOf g.attr r c x.1).getD []))).foldl (· + ·) 0
    countWork k 0 vs (modCh gid c (fun x => { x with ran := x.ran ++ due.map Prod.fst }) s)

/-- EXPERT_COMBINE's scale-and-accumulate runs on the rows of member m that chunk c completes. -/
def finishRows (gid c k : Nat) (s : State) (m : CollMember) : State :=
  let g := getG s gid
  match g.run with
  | none => s
  | some r =>
    let a := g.attr
    let ts := rowsDue a r c m
    let bytes := (ts.map (fun t => (rowRefs a m t).length * bytesOf a.format (rowLen a))).foldl (· + ·) 0
    countWork k bytes (ts.length * (vectorsOf a.reduce (rowLen a) + vectorsOf a.recv (rowLen a)))
      (modRun gid (fun r => { r with outs := ts.foldl (fun o t => aset (outKey m.member t) (c, false) o) r.outs }) s)

/-- Everything that chunk c has cluster k do now. -/
def clusterWork (gid c k : Nat) (s : State) : State :=
  let s := finishRuns gid c k (finishNodes gid c k (finishAnchors gid c k (finishSends gid c k s)))
  match getRun s gid with
  | none => s
  | some r => r.members.foldl (finishRows gid c k) s

/-! ### Confirming and committing (R173, R174, R176) -/

/-- Chunk c is confirmed at this adapter. -/
def confirmedHere (s : State) (gid : Nat) (g : Group) (r : Coll) (c : Nat) : Bool :=
  let x := getCh r c
  allJoined s g.attr r && r.data && (localMembers s g.attr).all (fun i =>
    !stillOut s (.chunk gid c i) &&
    (if isCombine r.op then
      noData r || ((keysTo g r c i).all (streamDone x) && rowsConfirmed s gid g.attr r c i)
     else (keysTo g r c i).all (fun k => x.placed.contains k)))

/-- The cumulative confirmed index from `n` on; `fuel` bounds the chunks. -/
def confirmFrom (s : State) (gid : Nat) (g : Group) (r : Coll) : Nat → Nat → Nat
  | 0, n => n
  | k + 1, n => if decide (n < r.chunks.getD 0) && confirmedHere s gid g r n then confirmFrom s gid g r k (n + 1) else n

/-- The cumulative index of this adapter's subtree. -/
def subtreeIndex (s : State) (a : GroupAttr) (r : Coll) : Nat :=
  (treeChildren s a).foldl (fun n y => min n (aget 0 y r.childConf)) r.own

/-- CONF to the parent, with ECHO_ALT once seen (R254), and BROKEN once a chunk was degraded (R180; that bit is DESIGN
CHOICE, log entry 20). -/
def sendConf (gid : Nat) (s : State) : State :=
  let g := getG s gid
  match g.run, treeParent s g.attr with
  | some r, some y => toAdapter g.attr r.csn r.sig y { typ := 9, arg := r.conf, broken := r.degraded, echo := r.echo }
      (modRun gid (fun r => { r with tConf := s.now }) s)
  | _, _ => s

/-- COMMIT to child adapters. -/
def sendCommit (gid : Nat) (l : List Nat) (s : State) : State :=
  let g := getG s gid
  match g.run with
  | some r => toAdapters g.attr r.csn r.sig l { typ := 10, arg := r.commit, broken := r.degraded, echo := r.echo } s
  | none => s

/-- Committed chunks are dropped; what they delivered stays counted, and the part of a block that straddles out of them is
kept. EXPERT_COMBINE keeps its rows to the end. -/
def dropChunks (a : GroupAttr) (n : Nat) (r : Coll) : Coll :=
  if isCombine r.op then { r with commit := n }
  else
    let old := r.state.filter (fun x => x.1 < n)
    let keys := (old.flatMap (fun x => x.2.lasts.map Prod.fst)).eraseDups
    { r with
      commit := n
      got := old.foldl (fun g x => x.2.lasts.foldl (fun g k =>
        amod 0 k.1 (fun e => e + (streamElems a r x.1 k.1).getD 0) g) g) r.got
      tails := if sliced a then keys.foldl (fun t k => aset k ((tailFrom a r k (n - r.commit)).getD []) t) r.tails else r.tails
      state := r.state.filter (fun x => n ≤ x.1) }

/-- The members of a collective complete. -/
def completeMembers (l : List CollMember) (st : CollMember → Status) (s : State) : State :=
  l.foldl (fun s m => settle m.f (completeItem m.f m.q m.idx (st m) s)) s

/-! ### The next collective of a group (R161, R162) -/

/-- CSNs that ended before they ran here are passed over; `fuel` bounds them. -/
def skipEnded (gid : Nat) : Nat → State → State
  | 0, s => s
  | n + 1, s => if (getG s gid).aborts.any (fun b => decide (b.csn = (getG s gid).endCsn)) then
      skipEnded gid n (modG gid (fun g => { g with endCsn := g.endCsn + 1 }) s)
    else s

/-- The next collective begins here with a descriptor's parameters (R168, R170). -/
def beginRun (gid : Nat) (m : CollMember) (s : State) : State :=
  let g := getG s gid
  let d := m.desc
  let (bufs, held, spilled) := takeScratch s g.attr g.levels d
  let cb := chunkSize (cChunkExp d)
  let var := isVar (Desc.op d)
  let n := cCount d
  let elems := if Desc.op d = 0x10 then 0 else if Desc.op d = 0x13 ∨ Desc.op d = 0x17 ∨ Desc.op d = 0x18 then attrN g.attr * n
    else n
  let size := bytesOf g.attr.format elems
  modG gid (fun g => { g with run := some {
    op := Desc.op d, csn := m.csn, sig := collSig d, chunkBytes := cb, bufs := bufs, held := held, spilled := spilled
    chunks := if var then none else some (max 1 (ceilDiv size cb)), srcMax := if var then 0 else size, data := !var
    tCommit := s.now, tConf := s.now } }) s

/-- The collective at this adapter is over: its scratch is free, its members are complete, the group goes on. -/
def closeRun (gid : Nat) (degraded : Bool) (s : State) : State :=
  let s := modG gid (fun g => { g with
    run := none, endCsn := g.endCsn + 1, lastBroken := degraded
    lastEcho := (match g.run with | some r => r.echo | none => false)
    done := g.done + 1, degraded := g.degraded + (if degraded then 1 else 0) }) s
  noteBusy (releaseIfDrained gid (skipEnded gid (getG s gid).aborts.length s))

/-- The collective ends at this adapter without commit; descriptors of it that come later complete the same way. -/
def endRun (gid : Nat) (b : Aborted) (s : State) : State :=
  let g := getG s gid
  let s := modG gid (fun g => { g with aborts := g.aborts ++ [b] }) s
  match g.run with
  | none => skipEnded gid (g.aborts.length + 1) s
  | some r =>
    if r.csn = b.csn then closeRun gid false (r.members.foldl (fun s m => dropWaits (.coll gid m.member) s)
      (completeMembers r.members (fun _ => b.st) s))
    else s

/-- An ABORT that this adapter learns of or decides (R158, R160, R161). -/
def abortHere (gid : Nat) (b : Aborted) (s : State) : State :=
  let g := getG s gid
  if g.aborts.any (fun x => decide (x.csn = b.csn)) || decide (0x80000000 ≤ (b.csn - g.endCsn).toNat) then s
  else
    let mine := g.waiting.filter (fun m => m.csn = b.csn)
    let s := modG gid (fun g => { g with waiting := g.waiting.filter (fun m => m.csn ≠ b.csn) }) s
    endRun gid b (completeMembers mine (fun _ => b.st) s)

/-- ABORT to every other member adapter; SRC_MEMBER is the member it concerns. -/
def sendAbort (gid : Nat) (csn : U32) (reason member : Nat) (s : State) : State :=
  let a := (getG s gid).attr
  (otherAdapters s a).foldl (fun s y => toMember a csn 0
    { typ := 11, sub := 1, src := member, dst := lowestOn a y, arg := reason } s) s

/-- The status of a collective that a reason ends (R158, R160, R161). -/
def reasonStatus (reason member : Nat) : Status :=
  match reason with
  | 1 => statD cCOLL_ABORTED member
  | 2 => stat cCOLL_MISMATCH
  | 3 => stat cCOLL_TIMEOUT
  | _ => stat cCOLL_MEMBER_LOST

/-- An ACTIVE group becomes BROKEN: the running collective ends with a reason, the rest of the group's descriptors with
COLL_MEMBER_LOST (R158, R177). R158's table lists these events in no other state, so they do nothing there. -/
def breakGroup (gid reason : Nat) (s : State) : State :=
  let g := getG s gid
  if g.st ≠ .active then s
  else
    let st := reasonStatus reason 0
    let s := dropWaiting gid (stat cCOLL_MEMBER_LOST) (modG gid (fun g => { g with st := .broken }) s)
    match g.run with
    | none => s
    | some r => endRun gid { csn := r.csn, reason := reason, member := 0, st := st } s

/-- A signature or count check failed here (R161, R165): ABORT with reason 2. -/
def mismatch (gid : Nat) (s : State) : State :=
  match getRun s gid with
  | none => s
  | some r =>
    let s := sendAbort gid r.csn 2 (ownLow s (getG s gid).attr) s
    abortHere gid { csn := r.csn, reason := 2, member := 0, st := reasonStatus 2 0 } s

/-! ### Progress -/

/-- A placement of the collective, or the next source it reads, is held for a port that is down (R177). -/
def heldByPort (s : State) (gid : Nat) : Bool :=
  let g := getG s gid
  let mine : Held → Bool := fun h => match h with
    | .place (.chunk x _ _) _ => decide (x = gid)
    | .place (.counts x _) _ => decide (x = gid)
    | _ => false
  match g.run with
  | none => false
  | some r =>
    s.pcx.ports.any (fun p => p.2.held.any mine) || s.facets.any (fun f => f.2.pcx.held.any mine) ||
    (openChunks r).any (fun c => r.members.any (fun m => isSource m &&
      (agetq m.member (getCh r c).reading).isNone && (agetq m.member (getCh r c).raw).isNone &&
      (agetq m.member (getCh r c).own).isNone && !noData r &&
      !spansReleased s m (memberSpans g.attr r c m)))

/-- The root learns that an adapter's port is down or back: held time does not count (R177). -/
def takeHeld (gid y : Nat) (on : Bool) (s : State) : State :=
  modRun gid (fun r =>
    let l := r.heldBy.filter (fun x => x ≠ y) ++ (if on then [y] else [])
    if r.heldBy = [] ∧ l ≠ [] then { r with heldBy := l, heldAt := some s.now }
    else if r.heldBy ≠ [] ∧ l = [] then { r with
      heldBy := [], heldAt := none, tCommit := r.tCommit + (s.now - r.heldAt.getD s.now) }
    else { r with heldBy := l }) s

/-- HELD to the root when this adapter's report changes (R177). -/
def reportHeld (gid : Nat) (s : State) : State :=
  let g := getG s gid
  match g.run with
  | none => s
  | some r =>
    let on := heldByPort s gid
    if on = r.told then s
    else
      let s := modRun gid (fun r => { r with told := on }) s
      if isRoot s g.attr then takeHeld gid (me s) on s
      else toAdapter g.attr r.csn r.sig (adapterOf g.attr 0) { typ := 11, sub := 4, arg := b2n on } s

/-- The commit index reaches n here: chunks below it are dropped, children told, and at the chunk count the members
complete (R173, R176, R180). -/
def commitTo (gid n : Nat) (s : State) : State :=
  let g := getG s gid
  match g.run with
  | none => s
  | some r =>
    if n ≤ r.commit then s
    else
      let s := modRun gid (fun r => { dropChunks g.attr n r with
        tCommit := s.now
        own := max r.own n
        heldAt := if r.heldBy = [] then none else some s.now }) s
      let s := sendCommit gid (treeChildren s g.attr) s
      if r.chunks = some n then
        closeRun gid r.degraded (completeMembers r.members (fun _ => { stOk with degraded := r.degraded }) s)
      else s

/-- Confirmations advance: CONF to the parent, or at the root a new commit index (R173). -/
def confirmStep (gid : Nat) (s : State) : State :=
  let g := getG s gid
  match g.run with
  | none => s
  | some r =>
    let own := confirmFrom s gid g r (r.chunks.getD 0 - r.own) r.own
    let s := modRun gid (fun r => { r with own := own }) s
    let n := subtreeIndex s g.attr { r with own := own }
    if n ≤ r.conf then s
    else
      let s := modRun gid (fun r => { r with conf := n }) s
      if isRoot s g.attr then commitTo gid n s else sendConf gid s

/-- One round of everything that follows by itself for a group's collective. -/
def pushRound (gid : Nat) (s : State) : State :=
  let s := startChunks gid s
  let s := match getRun s gid with | some r => (openChunks r).foldl (anchorsArrive gid) s | none => s
  let s := placePlain gid s
  let s := match getRun s gid with | some r => (openChunks r).foldl (assignCluster gid) s | none => s
  reportHeld gid (confirmStep gid s)

/-- Everything that follows by itself: rounds until nothing changes; `fuel` bounds them. -/
def pushColl : Nat → Nat → State → State
  | 0, _, s => s
  | n + 1, gid, s =>
    let before := getRun s gid
    let s := pushRound gid s
    if getRun s gid = before then s else pushColl n gid s

/-- Rounds enough for one event's consequences. -/
def pushFuel : Nat := 16

/-! ### The count exchange (R165 to R167) -/

/-- Member m sends its counts: to local members at once, to the others as CDATA SUB 1; `only`: the adapter they go
to. The payload is the count and the sender's source size in bytes, 8 bytes each (DESIGN CHOICE, log entry 20). -/
def sendCounts (gid : Nat) (only : Option Nat) (m : CollMember) (s : State) : State :=
  let g := getG s gid
  match g.run with
  | none => s
  | some r =>
    let a := g.attr
    let size := bytesOf a.format (blkTotal m.blks)
    (List.range (attrN a)).foldl (fun s j =>
      if isLocal s a j then modRun gid (fun r => { r with
        counts := aset (j * 65536 + m.member) (sendCount m j) r.counts, srcMax := max r.srcMax size }) s
      else if (match only with | some y => decide (adapterOf a j = y) | none => true) then
        toMember a r.csn r.sig { typ := 8, sub := 1, src := m.member, dst := j, first := true, last := true
                                 data := toLE 8 (sendCount m j) ++ toLE 8 size } s
      else s) s

/-- A member's capacity flag goes to every other adapter; `only`: one of them. -/
def sendFlag (gid : Nat) (only : Option Nat) (csn sig : U32) (i : Nat) (ov : Bool) (s : State) : State :=
  let a := (getG s gid).attr
  ((otherAdapters s a).filter (fun y => match only with | some z => decide (y = z) | none => true)).foldl (fun s y =>
    toMember a csn sig { typ := 8, sub := 2, src := i, dst := lowestOn a y, first := true, last := true
                         data := toLE 1 (b2n ov) } s) s

/-- All counts that reach member i are known. -/
def countsHere (a : GroupAttr) (r : Coll) (i : Nat) : Bool :=
  (List.range (attrN a)).all (fun j => (agetq (i * 65536 + j) r.counts).isSome)

/-- Member m receives more than its capacity (R166). -/
def overCapacity (a : GroupAttr) (r : Coll) (m : CollMember) : Bool :=
  let got := ((List.range (attrN a)).map (fun j => aget 0 (m.member * 65536 + j) r.counts)).foldl (· + ·) 0
  match r.op with
  | 0x19 => atRoot m.desc && decide (aux64 m.aux 0 < got)
  | 0x1A => decide (cCount m.desc < got)
  | 0x1B => decide (aux64 m.aux 0 < got)
  | _ => false

/-- Every flag is known: data may move, or every member completes COLL_CAPACITY (R165, R166). -/
def flagsKnown (gid : Nat) (s : State) : State :=
  let g := getG s gid
  match g.run with
  | none => s
  | some r =>
    if r.data ∨ r.flags.length < attrN g.attr then s
    else match r.flags.find? (fun x => x.2) with
      | some (i, _) =>
        endRun gid { csn := r.csn, reason := 5, member := i, st := statD cCOLL_CAPACITY i, flags := r.flags } s
      | none => pushColl pushFuel gid (modRun gid (fun r => { r with
          data := true, chunks := some (max 1 (ceilDiv r.srcMax r.chunkBytes)) }) s)

/-- A local member's counts are written: its flag is sent (R165). -/
def countsWritten (gid i : Nat) (s : State) : State :=
  let g := getG s gid
  match g.run with
  | none => s
  | some r =>
    match memberIn r i with
    | none => s
    | some m =>
      if (agetq i r.flags).isSome || !r.counted.contains i || stillOut s (.counts gid i) then s
      else
        let ov := overCapacity g.attr r m
        flagsKnown gid (sendFlag gid none r.csn r.sig i ov (modRun gid (fun r => { r with
          flags := aset i ov r.flags }) s))

/-- The bytes of the counts a member received. -/
def countBytes (a : GroupAttr) (r : Coll) (i : Nat) : Bytes :=
  (List.range (attrN a)).flatMap (fun j => toLE 8 (aget 0 (i * 65536 + j) r.counts))

/-- All counts of a joined local member have arrived: checked against a combine's own routes, and written into its
auxiliary area (R165). -/
def countStep (gid : Nat) (s : State) (i : Nat) : State :=
  let g := getG s gid
  match g.run with
  | none => s
  | some r =>
    match memberIn r i with
    | none => s
    | some m =>
      if !isVar r.op || !countsHere g.attr r i || r.counted.contains i then s
      else if isCombine r.op && (List.range (attrN g.attr)).any (fun j =>
          decide (aget 0 (i * 65536 + j) r.counts ≠ ((routes m.desc m.aux).filter (fun w => routeDest w = some j)).length))
        then mismatch gid s
      else match (auxShape (attrN g.attr) m.desc).2 with
        | none => countsWritten gid i (modRun gid (fun r => { r with counted := r.counted ++ [i] }) s)
        | some (o, n) =>
          if streamBusy s (.coll gid i) then s
          else
            let (s, t) := translate (.coll gid i) 0 m.f (cAseg m.desc) (m.desc.w6 + BitVec.ofNat 64 o) n true s
            let s := postAll m.f (.counts gid i) (t.writes (countBytes g.attr r i)) s
            if t.full then countsWritten gid i (modRun gid (fun r => { r with counted := r.counted ++ [i] }) s) else s

/-- The count exchange goes on at every local member. -/
def countSteps (gid : Nat) (s : State) : State :=
  (localMembers s (getG s gid).attr).foldl (fun s i => countsWritten gid i (countStep gid s i)) s

/-- What follows for a group's running collective. -/
def wakeColl (gid : Nat) (s : State) : State :=
  match getRun s gid with
  | none => s
  | some _ => pushColl pushFuel gid (countSteps gid s)

/-! ### Joining (R161, R162) -/

/-- A member joins the running collective; its signature must match its neighbours' (R161). -/
def joinRun (gid : Nat) (m : CollMember) (s : State) : State :=
  match getRun s gid with
  | none => s
  | some r =>
    let s := modRun gid (fun r => { r with members := r.members ++ [m] }) s
    if collSig m.desc ≠ r.sig then mismatch gid { s with grp := { s.grp with sigFail := s.grp.sigFail + 1 } }
    else if isVar r.op then sendCounts gid none m s else s

/-- Members waiting for the collective that is next here join it; `fuel` bounds the collectives. -/
def startNext (gid : Nat) : Nat → State → State
  | 0, s => s
  | n + 1, s =>
    let g := getG s gid
    match g.waiting.find? (fun m => m.csn = g.endCsn) with
    | none => s
    | some m =>
      let s := if g.run.isNone then beginRun gid m s else s
      let s := modG gid (fun g => { g with waiting := g.waiting.erase m }) s
      startNext gid n (joinRun gid m s)

/-- Waiting members start, and the collective goes on, until no next one starts; `fuel` bounds the collectives. -/
def runLoop (gid : Nat) : Nat → State → State
  | 0, s => s
  | n + 1, s =>
    let s := wakeColl gid (startNext gid ((getG s gid).waiting.length) s)
    if (getG s gid).run.isNone && decide ((getG s gid).waiting ≠ []) then runLoop gid n s else s

/-- Everything that follows for a group after an event. -/
def runGroup (gid : Nat) (s : State) : State := runLoop gid ((getG s gid).waiting.length + 1) s

/-- Everything that follows for every group: a port is back, a stream goes on, a cluster can take chunks. -/
def wakeColls (s : State) : State := (s.groups.map Prod.fst).foldl (fun s g => runGroup g s) s

/-! ### Recovery (R175, R178) -/

/-- All that this adapter holds of chunk c goes again, to one adapter or to all others, with RESENT. -/
def resendChunk (gid c : Nat) (only : Option Nat) (s : State) : State :=
  match getRun s gid with
  | none => s
  | some r =>
    let g := getG s gid
    let a := g.attr
    let x := getCh r c
    if x.sent = [] then s
    else
      let ys := match only with | some y => [y] | none => otherAdapters s a
      let s := { s with grp := { s.grp with resend := s.grp.resend + 1 } }
      ys.foldl (fun s y =>
        let s := r.members.foldl (fun s m => sendData gid c true (some y) m (sendAnchors gid c true (some y) m s)) s
        let s := match x.anchors.filter (fun _ => decide (rootHome g c = me s)) with
          | some k => putStream gid c 2 (ownLow s a) (lowestOn a y) true k s
          | none => s
        let s := x.sums.foldl (fun s k => sendNode gid c k.1 true (some y) s) s
        sendResult gid c true (some y) s) s

/-- R175: chunks that went over a link that failed are sent again at once. -/
def resendLost (s : State) : State :=
  s.grp.lost.foldl (fun s x => resendChunk x.1 x.2 none s) { s with grp := { s.grp with lost := [] } }

/-- The streams of chunk c that this adapter waits for (R175). -/
def awaited (s : State) (g : Group) (r : Coll) (c : Nat) : List Nat :=
  let a := g.attr
  let x := getCh r c
  let low := ownLow s a
  let here := (localMembers s a).flatMap (keysTo g r c)
  let nodes := if isRed r.op then
      ((List.range (treeSize a)).filter (fun k => decide (nodeHome g c k = me s) && !nodeKnown a x k)).flatMap
        (fun k => (nodeInputs a k).map (fun i => Stm.key i.1 i.2 low))
    else []
  let anchors := if !isAnchored a (runDesc r) || x.anchors.isSome then []
    else if rootHome g c = me s then (List.range (attrN a)).map (fun j => Stm.key 3 j low)
    else [Stm.key 2 (lowestOn a (rootHome g c)) low]
  ((if anchors ≠ [] then anchors else if nodes ≠ [] then nodes else here).filter (fun k => !streamDone x k)).eraseDups

/-- The adapters that owe this adapter a stream of chunk c. -/
def owing (s : State) (g : Group) (r : Coll) (c : Nat) : List Nat :=
  (((awaited s g r c).map (keyAdapter g c)).filter (fun y => y ≠ me s)).eraseDups

/-- The resend-request interval (R175). -/
def rqInterval (s : State) : Nat := us (2 * 2 ^ regf s 0xD080 3 0)

/-- RESEND for chunk c may go to a producing adapter: at most one in each interval. -/
def mayAsk (s : State) (x : Chunk) (y : Nat) : Bool :=
  match agetq y x.asked with
  | some t => elapsed s t (rqInterval s)
  | none => true

/-- RESEND for chunk c to producing adapters. -/
def askChunk (gid c : Nat) (ys : List Nat) (s : State) : State :=
  let g := getG s gid
  match g.run with
  | none => s
  | some r =>
    let ys := ys.filter (mayAsk s (getCh r c))
    toAdapters g.attr r.csn r.sig ys { typ := 11, sub := 0, chunk := c, arg := c }
      (modCh gid c (fun x => { x with asked := ys.foldl (fun l y => aset y s.now l) x.asked }) s)

/-- RESEND to the adapters whose counts or flags have not arrived. -/
def askCounts (gid : Nat) (s : State) : State :=
  let g := getG s gid
  match g.run with
  | none => s
  | some r =>
    let a := g.attr
    let js := (List.range (attrN a)).filter (fun j => (agetq j r.flags).isNone ||
      (localMembers s a).any (fun i => (agetq (i * 65536 + j) r.counts).isNone))
    askChunk gid 0 (((js.map (adapterOf a)).eraseDups).filter (fun y => y ≠ me s)) s

/-- A collective at commit index n, its work on uncommitted chunks discarded; what chunks below n delivered is counted
first (R178). -/
def rolledBack (a : GroupAttr) (n : Nat) (r : Coll) : Coll :=
  let r := dropChunks a (max r.commit n) r
  { r with
    state := if isCombine r.op then r.state.filter (fun x => x.1 < n) else []
    outs := r.outs.filter (fun x => x.2.1 < n), own := n, conf := n, childConf := [] }

/-- R178: the collective restarts from commit index n. -/
def rollBack (gid n : Nat) (s : State) : State :=
  let s := { s with grp := { s.grp with rollback := s.grp.rollback + 1 } }
  match getRun s gid with
  | none => s
  | some _ => runGroup gid (modRun gid (rolledBack (getG s gid).attr n) s)

/-- The root tells every member adapter to roll back to its commit index, and does so itself (R178). -/
def rollAll (gid : Nat) (s : State) : State :=
  let g := getG s gid
  match g.run with
  | none => s
  | some r => rollBack gid r.commit (toAdapters g.attr r.csn r.sig (otherAdapters s g.attr)
      { typ := 11, sub := 2, arg := r.commit } s)

end Sys2Proof.Machine
end

