-- ==== Sys2Proof/Machine/Svays.lean ====
section
/-!
DEFINITION. The commands of the Svays links (08_svays_fabric.md): training (R248, R249), sleep (R427), flits, hop
retry and drops (R245 to R247), RING notices (R252) and the gateway shun (R255).
-/
namespace Sys2Proof.Machine

/-- A meaning that acts on a present link once the links have left DISABLED; chunks sent over a link that fails are
sent again at once (R175). -/
def onLink (n : Nat) (g : State → State) (s : State) : Host.Outcome State Fault Refusal :=
  .next (when (fabricUp s && hasLink s n) (fun s => resendLost (g s)) s)

/-- A link in a given state moves on. -/
def fromState (n : Nat) (l : List LState) (g : State → State) (s : State) : State :=
  when (l.contains (getL s n).st) g s

/-- SIGNAL_DETECT (R248). -/
def execSignalDetect (n : Nat) (s : State) : Host.Outcome State Fault Refusal :=
  onLink n (fromState n [.detect] (linkTo n .train)) s

/-- DETECT_PROBE (R248): no signal, so the link probes again every 1 ms. -/
def execDetectProbe (n : Nat) (s : State) : Host.Outcome State Fault Refusal :=
  onLink n (fromState n [.detect] (fun s => when (elapsed s (getL s n).since (ms 1)) (linkTo n .detect) s)) s

/-- EQUALIZATION_DONE (R248). -/
def execEqualizationDone (n : Nat) (s : State) : Host.Outcome State Fault Refusal :=
  onLink n (fromState n [.train] (linkTo n .align)) s

/-- TRAIN_TIMEOUT (R248). -/
def execTrainTimeout (n : Nat) (s : State) : Host.Outcome State Fault Refusal :=
  onLink n (fromState n [.train] (fun s => when (elapsed s (getL s n).since (ms 20)) (linkTo n .detect) s)) s

/-- LOCK_AND_DESKEW (R248): link words are sent from EXCHANGE on. -/
def execLockAndDeskew (n : Nat) (s : State) : Host.Outcome State Fault Refusal :=
  onLink n (fromState n [.align, .retrain] (fun s =>
    emit (linkWord s 4 0 n) (modL n (fun l => { l with lwAt := s.now }) (linkTo n .exchange s)))) s

/-- ALIGN_TIMEOUT (R248). -/
def execAlignTimeout (n : Nat) (s : State) : Host.Outcome State Fault Refusal :=
  onLink n (fromState n [.align, .retrain] (fun s => when (elapsed s (getL s n).since (ms 1)) (linkDetect n) s)) s

/-- EXCHANGE_TIMEOUT (R248). -/
def execExchangeTimeout (n : Nat) (s : State) : Host.Outcome State Fault Refusal :=
  onLink n (fromState n [.exchange] (fun s => when (elapsed s (getL s n).lwAt (ms 1)) (linkDetect n) s)) s

/-- LOSS_OF_LOCK (R250). -/
def execLossOfLock (n : Nat) (s : State) : Host.Outcome State Fault Refusal := onLink n (linkDown n) s

/-- SVL_LNK_CTRL_RETRAIN: OP RETRAIN takes an ACTIVE link to RETRAIN (R248). -/
def execSvlLnkCtrlRetrain (n : Nat) (s : State) : Host.Outcome State Fault Refusal := onLink n (linkDown n) s

/-- MISWIRE_HOLD_END (R248). -/
def execMiswireHoldEnd (n : Nat) (s : State) : Host.Outcome State Fault Refusal :=
  onLink n (fromState n [.miswired] (fun s => when (elapsed s (getL s n).since (ms 1000)) (fun s =>
    linkTo n .detect { s with fab := { s.fab with
      miswire := s.fab.miswire &&& ~~~(BitVec.ofNat 24 (2 ^ n)) } }) s)) s

/-! ### The far link word (R248, R249) -/

/-- The adapter at the far end of link n: coordinate (own ± 1) mod K of the link's dimension (R249). -/
def farAdapter (s : State) (n : Nat) : BitVec 24 :=
  let dirn := n / 4
  let d := dirn / 2
  let k := ringSize s d
  let c := coord (ownPos s) d
  let c' := if dirn % 2 = 0 then (c + 1) % k else (c + k - 1) % k
  ownId s - BitVec.ofNat 24 (c * 2 ^ (4 * d)) + BitVec.ofNat 24 (c' * 2 ^ (4 * d))

/-- R249: a far link word passes. -/
def farPasses (s : State) (n : Nat) (lw : BitVec 40) : Bool :=
  decide (BitVec.ofNat 24 (fld lw 29 6) = farAdapter s n) && decide (fld lw 32 30 = (n / 4) ^^^ 1) &&
    decide (fld lw 34 33 = regf s (0xE40C + 0x40 * n) 1 0) && decide (bit lw 35 = hopRetry s)

/-- An idle flit of link n with the counts it returns (R232, R239). -/
def idleFlit (n : Nat) (s : State) : State :=
  let l := getL s n
  putFlit n (nextFcw s l 0 true l.tx.fseq 255 false) (padTo 240 []) s

/-- The link enters ACTIVE: FSEQ, credits, ADJ, drops and the replay buffer are reset, and idle flits return the
credit count of every VC; a hop that is no longer broken is told to the ring (R252). -/
def activate (n : Nat) (farActive : Bool) (s : State) : State :=
  let s := emit (linkWord s 5 0 n) (modL n (fun l => { l with
    st := .active, since := s.now, tx := {}, rx := {}, winUnc := 0, farUp := farActive }) s)
  tellHops n ((List.range 8).foldl (fun s _ => idleFlit n s) s)

/-- A far link word in EXCHANGE or ACTIVE. -/
def farWord (n : Nat) (lw : BitVec 40) (s : State) : State :=
  let st := fld lw 3 0
  match (getL s n).st with
  | .exchange =>
    let far := BitVec.ofNat 32 (fld lw 35 6 + 2 ^ 30)
    let s := modL n (fun l => { l with far := far, lwAt := s.now }) s
    if !farPasses s n lw then
      collect 0x16 clsUC n false 0 0 0 none (linkTo n .miswired { s with fab := { s.fab with
        miswire := s.fab.miswire ||| BitVec.ofNat 24 (2 ^ n) } })
    else if st = 4 ∨ st = 5 then activate n (decide (st = 5)) s
    else s
  | .active =>
    if st = 5 then modL n (fun l => { l with farUp := true }) s
    else if (getL s n).farUp ∨ st ≠ 4 then linkDown n s
    else s
  | _ => s

/-- FAR_LINK_WORD (R248, R249). -/
def execFarLinkWord (n : Nat) (lw : BitVec 40) (s : State) : Host.Outcome State Fault Refusal :=
  onLink n (farWord n lw) s

/-! ### Sleep (R248, R427) -/

/-- A link that may sleep does so once every sent flit is acknowledged; it leaves ACTIVE (R250). -/
def maySleep (n : Nat) (s : State) : State :=
  let l := getL s n
  if l.st = .active ∧ l.granted ∧ l.tx.unacked = [] then
    emit (linkWord s 7 0 n) (linkQuit n .sleep s)
  else s

/-- LPREQ_REQUEST_SLEEP: a received request is granted if the output queue toward the link is empty (R427). -/
def execLpreqRequestSleep (n : Nat) (s : State) : Host.Outcome State Fault Refusal :=
  onLink n (fromState n [.active] (fun s =>
    let l := getL s n
    when (decide (l.tx.q.pkts = []) && (List.range 8).all (fun v => decide (aget [] v l.tx.ready = []))) (fun s =>
      maySleep n (emit (linkWord s 5 2 n) (modL n (fun l => { l with granted := true }) s))) s)) s

/-- LPREQ_GRANT_SLEEP: a grant of this side's request (R248, R427). -/
def execLpreqGrantSleep (n : Nat) (s : State) : Host.Outcome State Fault Refusal :=
  onLink n (fromState n [.active] (fun s => when (getL s n).asked (fun s =>
    maySleep n (modL n (fun l => { l with granted := true }) s)) s)) s

/-- LPREQ_WAKE: a wake sent or received (R248). -/
def execLpreqWake (n : Nat) (sent : Bool) (s : State) : Host.Outcome State Fault Refusal :=
  onLink n (fromState n [.sleep] (fun s => if sent then wakeLink n s else linkTo n .align s)) s

/-! ### The sender's reaction to a received flit (R239, R245, R247) -/

/-- An FSEQ lies before another (modulo 4,096). -/
def seqBefore (a b : BitVec 12) : Bool := decide (2048 ≤ (a - b).toNat)

/-- ACK_SEQ releases the flits before it. -/
def ackFlits (n : Nat) (ack : BitVec 12) (s : State) : State :=
  modL n (fun l =>
    let rest := l.tx.unacked.dropWhile (fun f => seqBefore f.fseq ack)
    if rest.length = l.tx.unacked.length then l
    else { l with tx := { l.tx with
      unacked := rest, replays := 0, replayFrom := none, timer := s.now } }) s

/-- The flits of a replay, REPLAY set on the first. -/
def replayFlits (n : Nat) : Bool → List TxFlit → State → State
  | _, [], s => s
  | first, f :: r, s =>
    replayFlits n false r (putFlit n (nextFcw s (getL s n) f.vc false f.fseq f.first first) f.bytes
      (modL n (fun l => { l with txFlits := l.txFlits + 1 }) s))

/-- R245: every unacknowledged flit is replayed, or the link leaves ACTIVE after REPLAY_LIM replays without
progress. -/
def replay (n : Nat) (s : State) : State :=
  let l := getL s n
  match l.tx.unacked with
  | [] => s
  | f :: _ =>
    if max 1 (regf s 0xE008 17 14) ≤ l.tx.replays then linkDown n s
    else replayFlits n true l.tx.unacked (modL n (fun l => { l with
      replay := l.replay + 1
      tx := { l.tx with
        replays := l.tx.replays + 1, replayFrom := some f.fseq, timer := s.now } }) s)

/-- Credits, acknowledgement, NAK and drop fields of a good flit (R239, R245, R247). -/
def takeFcw (n : Nat) (c : Fcw) (s : State) : State :=
  let s := modL n (fun l => { l with tx := { l.tx with crSeen := aset c.crVc.toNat c.crCnt l.tx.crSeen } }) s
  let s := if hopRetry s || !c.dropValid then s
    else modL n (fun l =>
      match l.tx.unacked.find? (fun f => f.fseq = c.dropSeq) with
      | some f => if l.tx.dropApplied = some c.dropSeq then l
        else { l with tx := { l.tx with
          adj := amod 0 f.vc (fun x => x + 1) l.tx.adj, dropApplied := some c.dropSeq } }
      | none => l) s
  let s := if hopRetry s || !c.doneValid then s
    else modL n (fun l => if l.rx.drops.head? = some c.dropDone then
      { l with rx := { l.rx with drops := l.rx.drops.tail } } else l) s
  let s := ackFlits n c.ackSeq s
  if hopRetry s && c.nak && decide ((getL s n).tx.replayFrom ≠ some c.ackSeq) then replay n s else s

/-! ### The receiver (R233, R245 to R247) -/

/-- What the bytes of a VC yield: complete packets (route header and the rest), the unfinished bytes, and whether the
VC goes into resynchronisation. -/
structure Cut where
  done : List (RouteHdr × Bytes) := []
  rest : Bytes := []
  resync : Bool := false
deriving DecidableEq, Repr, Inhabited

/-- LEN and the reserved bits of a delimiter that R233 allows. -/
def delimLen (bs : Bytes) : Bool := decide (32 ≤ ofLE (bs.take 4) ∧ ofLE (bs.take 4) ≤ 4196)

/-- A delimiter that R233 allows, with its route header's DCRC. -/
def delimOk (bs : Bytes) : Bool :=
  delimLen bs &&
    decide (ofLE ((bs.drop 4).take 4) = (crc32c (bs.take 4 ++ (bs.drop 8).take 16)).toNat)

/-- The packets in the bytes of a VC: an unfinished packet continues, an all-zero delimiter ends the flit (R233);
`fuel` bounds the packets. -/
def cutPackets : Nat → Bytes → Cut → Cut
  | 0, _, c => c
  | fuel + 1, bs, c =>
    if bs.length < 8 ∨ bs.take 8 = List.replicate 8 0 then c
    else if bs.length < 24 ∧ delimLen bs then { c with rest := bs }
    else if !delimOk bs then { c with resync := true }
    else
      let n := 8 + ofLE (bs.take 4)
      if bs.length < n then { c with rest := bs }
      else cutPackets fuel (bs.drop n) { c with
        done := c.done ++ [(unpackRh (bytesWords ((bs.drop 8).take 16)), (bs.take n).drop 24)] }

/-- A complete arriving packet or notice (R241, R252, R255): RING and own NOROUTE notices reach their own commands;
notices of another NTYPE are discarded. -/
def arrive (n : Nat) (s : State) (p : RouteHdr × Bytes) : State :=
  let (rh, bs) := p
  if rh.notice then
    let w := bytesWords bs
    let m : Notice := { rh := rh, w0 := w.getD 0 0, w1 := w.getD 1 0 }
    match fld m.w0 3 0 with
    | 1 => routeNotice (n / 4) (n % 4) m s
    | 2 => emit (.notice m) s
    | _ => s
  else routePacket (n / 4) (n % 4) rh bs s

/-- VC v discards bytes in resynchronisation: the packet they end is counted once (R246). -/
def noteLost (n v : Nat) (s : State) : State :=
  modL n (fun l => if hopRetry s || aget false v l.rx.counted then l
    else { l with drop := l.drop + 1, rx := { l.rx with counted := aset v true l.rx.counted } }) s

/-- The payload of a taken flit of VC v. -/
def takePayload (n v : Nat) (first : Byte) (bs : Bytes) (s : State) : State :=
  let l := getL s n
  let sync := aget false v l.rx.resync
  let s := modL n (fun l => { l with rx := { l.rx with freed := amod 0 v (fun x => x + 1) l.rx.freed } }) s
  let s := if sync ∧ first ≠ 0 then noteLost n v s else s
  if sync ∧ first = 255 then s
  else
    let all := if sync then bs.drop first.toNat else aget [] v l.rx.parts ++ bs
    let c := cutPackets 32 all {}
    let s := modL n (fun l => { l with rx := { l.rx with
      parts := aset v c.rest l.rx.parts, resync := aset v c.resync l.rx.resync
      counted := aset v false l.rx.counted } }) s
    c.done.foldl (arrive n) (if c.resync then noteLost n v s else s)

/-- The FSEQs from one to another, both modulo 4,096, at most 17. -/
def seqRange (a b : BitVec 12) : List (BitVec 12) :=
  (List.range (min 17 (b - a).toNat)).map (fun i => a + BitVec.ofNat 12 i)

/-- A flit that is not good (R245, R246): with hop retry off, the unfinished packet of every VC is discarded and
counted. A packet that lies wholly in the flit shows nowhere at this end and is not counted (log entry 73). -/
def badFlit (n : Nat) (s : State) : State :=
  if hopRetry s then modL n (fun l => { l with
    crcErr := l.crcErr + 1, rx := { l.rx with nak := true, skip := true } }) s
  else modL n (fun l => { l with
    crcErr := l.crcErr + 1
    drop := l.drop + BitVec.ofNat 32 (l.rx.parts.filter (fun p => p.2 ≠ [])).length
    rx := { l.rx with
      parts := [], resync := (List.range 8).map (fun v => (v, true))
      counted := (List.range 8).map (fun v =>
        (v, aget false v l.rx.counted || decide (aget [] v l.rx.parts ≠ []))) } }) s

/-- A good flit's sequence number with hop retry on: whether its payload is taken (R245). -/
def retrySeq (n : Nat) (c : Fcw) (s : State) : State × Bool :=
  let l := getL s n
  if c.idle then (s, false)
  else if c.fseq = l.rx.expect && (!l.rx.skip || c.replay) then
    (modL n (fun l => { l with rx := { l.rx with expect := l.rx.expect + 1, nak := false, skip := false } }) s, true)
  else (modL n (fun l => { l with rx := { l.rx with nak := true, skip := true } }) s, false)

/-- A good flit's sequence number with hop retry off: missing FSEQs become drops (R247). -/
def dropSeq (n : Nat) (c : Fcw) (s : State) : State × Bool :=
  let l := getL s n
  let drops := l.rx.drops ++ seqRange l.rx.expect c.fseq
  (modL n (fun l => { l with rx := { l.rx with
    drops := drops, expect := if c.idle then c.fseq else c.fseq + 1 } }) s, !c.idle)

/-- A received flit (R232, R245 to R247, R248). -/
def recvFlit (n unc corr : Nat) (forced : Bool) (ctrl : BitVec 128) (bs : Bytes) (s : State) : State :=
  let c := unpackFcw ctrl
  let s := modL n (fun l => { l with
    fecCorr := l.fecCorr + BitVec.ofNat 64 corr, fecUnc := l.fecUnc + BitVec.ofNat 32 unc, winUnc := l.winUnc + unc }) s
  let s := if unc = 0 then s else collect 0x14 clsCE n forced 0 0 2 none s
  let thr := regf s 0xE008 31 22
  if thr ≠ 0 ∧ thr ≤ (getL s n).winUnc then linkDown n s
  else if unc ≠ 0 ∨ !fcrcOk ctrl bs then idleFlit n (badFlit n s)
  else
    let (s, take) := if hopRetry s then retrySeq n c s else dropSeq n c s
    if 16 < (getL s n).rx.drops.length then linkDown n s
    else
      let s := takeFcw n c s
      let s := if take && linkLive s n then takePayload n c.vc.toNat c.firstPkt (padTo 240 bs) s else s
      if !linkLive s n then s
      else
        let before := (getL s n).txFlits
        let s := maySleep n (pump n s)
        if (getL s n).txFlits = before ∧ linkLive s n then idleFlit n s else s

/-- A flit on a link: an injected uncorrectable codeword that waits for the link strikes it (R381). -/
def onFlit (n unc corr : Nat) (ctrl : BitVec 128) (bs : Bytes) (s : State) : State :=
  if s.err.injections.contains (0x14, n) then recvFlit n (max 1 unc) corr true ctrl bs
    { s with err := { s.err with injections := s.err.injections.erase (0x14, n) } }
  else recvFlit n unc corr false ctrl bs s

/-- FLIT (R245): its control word is FCRC above the fields of bits 95..0 (R232). -/
def execFlit (n unc corr : Nat) (fields : BitVec 96) (fcrc : U32) (payload : Bytes) (s : State) :
    Host.Outcome State Fault Refusal :=
  onLink n (fun s => when (linkLive s n) (onFlit n unc corr (fcrc ++ fields) payload) s) s

/-- REPLAY_TIMER (R245). -/
def execReplayTimer (n : Nat) (s : State) : Host.Outcome State Fault Refusal :=
  onLink n (fun s => when (linkLive s n && hopRetry s && decide ((getL s n).tx.unacked ≠ []) &&
    elapsed s (getL s n).tx.timer (64 * 2 ^ regf s 0xE008 13 10)) (replay n) s) s

/-- FEC_WINDOW (R248). -/
def execFecWindow (n : Nat) (s : State) : Host.Outcome State Fault Refusal :=
  onLink n (fun s => when (elapsed s (getL s n).fecAt (us (2 ^ regf s 0xE008 21 18)))
    (modL n (fun l => { l with winUnc := 0, fecAt := s.now })) s) s

/-! ### RING notices (R252) -/

/-- An arriving RING notice is applied if its NSEQ lies 1 to 127 ahead or its sender was silent for 2 ms, and
forwarded until K − 1 hops. -/
def takeRing (m : Notice) (s : State) : State :=
  let d := fld m.w0 5 4
  let c := fld m.w0 9 6
  let nseq : Byte := BitVec.ofNat 8 (fld m.w0 19 12)
  let key := d * 16 + c
  let k := ringSize s d
  if fld m.w0 3 0 ≠ 2 ∨ 3 ≤ d ∨ k ≤ c then s
  else
    let fresh := match agetq key s.fab.marks with
      | none => true
      | some o => decide (1 ≤ (nseq - o.nseq).toNat ∧ (nseq - o.nseq).toNat ≤ 127) || elapsed s o.heard (ms 2)
    let s := if fresh then
        { s with fab := { s.fab with
          notices := s.fab.notices + 1
          marks := aset key { nseq := nseq, below := bit m.w0 10, above := bit m.w0 11, heard := s.now } s.fab.marks } }
      else { s with fab := { s.fab with marks := amod default key (fun o => { o with heard := s.now }) s.fab.marks } }
    let h := m.rh.hops.toNat
    if h < k - 1 then sendRing (2 * d + b2n m.rh.dir) (2 * d + b2n (!m.rh.dir)) 0 m (h + 1) s else s

/-- RING (R252). -/
def execRing (m : Notice) (s : State) : Host.Outcome State Fault Refusal := .next (when (fabricUp s) (takeRing m) s)

/-- RING_REFRESH: every dimension each 1 ms, and at once a dimension whose own hops changed (R252). -/
def refreshRings (s : State) : State :=
  let due := elapsed s s.fab.refreshAt (ms 1)
  let dims := [0, 1, 2].filter (fun d => decide (2 ≤ ringSize s d) &&
    (due || decide (aget (false, false) d s.fab.told ≠ ownHops s d)))
  let s := if due then { s with fab := { s.fab with refreshAt := s.now } } else s
  dims.foldl originate s

/-- RING_REFRESH (R252). -/
def execRingRefresh (s : State) : Host.Outcome State Fault Refusal := .next (when (fabricUp s) refreshRings s)

/-- GW_SHUN_EXPIRY (R255). -/
def execGwShunExpiry (pod : Nat) (s : State) : Host.Outcome State Fault Refusal :=
  .next (match agetq pod s.fab.shun with
    | some t => when (elapsed s t (ms 100)) (fun s => { s with fab := { s.fab with shun := adel pod s.fab.shun } }) s
    | none => s)

end Sys2Proof.Machine
end

