-- ==== Sys2Proof/Machine/ZrtTx.lean ====
section
/-!
DEFINITION. The requester (03_reliable_transport.md): starting transfers (R93 to R96), the next packet a QP may send
(R102, R108, R115, R117), source reads (R103), what answers confirm (R109, R112 to R114, R123), HOLD (R116, R121).
-/
namespace Sys2Proof.Machine

/-! ### Starting a transfer (R84, R93 to R95) -/

/-- Fields of the transfer layout. -/
def trQpn (d : Desc) : Nat := fld d.w2 19 0
def trLseg (d : Desc) : Nat := fld d.w2 31 24
def trLen (d : Desc) : Nat := fld d.w3 31 0

/-- R94: one more descriptor of the kind may start. -/
def startRoom (q : Qp) (op : Nat) : Bool :=
  decide (q.req.descs.length < 65536) &&
    (decide (op = 2) || decide ((q.req.descs.filter (fun d => d.op = op)).length < 8))

/-- The checks of a transfer at its start, in order: the status that ends it, or none (R84, R91, R95). -/
def startCheck (s : State) (f : Nat) (d : Desc) : Option Status :=
  let q := getQp s (trQpn d)
  let op := Desc.op d
  let k : Acc := if op = 3 then .lwr else .lrd
  if q.st = .free ∨ q.facet ≠ f ∨ q.st = .init ∨ q.st = .connecting then some (stat cQP_INVALID)
  else if q.st = .error ∨ q.st = .draining then some (stat cFLUSHED)
  else if trLen d ≠ 0 ∧ !(q.hasSeg (trLseg d) && rangeCheck s f (trLseg d) d.w4 (trLen d) k none) then
    some (statD cACCESS_DENIED 0)
  else if op = 4 ∧ !q.peerRq then some (stat cNO_REMOTE_RQ)
  else if op ≠ 4 ∧ trLen d = 0 then some stOk
  else none

/-- A transfer that passed its checks takes its PSNs, MSN and send number (R93, R96, R119). -/
def takePsns (f q idx : Nat) (d : Desc) (s : State) : State :=
  let n := trQpn d
  modQp n (fun x =>
    let op := Desc.op d
    let k := psnsOf op (trLen d) x.pmtu
    let e : QDesc := { q := q, idx := BitVec.ofNat 32 idx, op := op, psn := x.req.next, n := k, msn := x.req.msn
                       sendNo := x.req.sendNo, len := trLen d, lseg := trLseg d, loff := d.w4
                       rseg := BitVec.ofNat 8 (fld d.w2 39 32), roff := d.w5
                       rkey := BitVec.ofNat 32 (fld d.w6 31 0)
                       imm := if op = 4 && bit d.w2 20 then some (BitVec.ofNat 32 (fld d.w6 63 32)) else none }
    { x with
      facet := f
      rate := if k = 0 then x.rate else x.woken s
      req := { x.req with
        next := x.req.next + BitVec.ofNat 32 k, msn := x.req.msn + 1
        sendNo := if op = 4 then x.req.sendNo + 1 else x.req.sendNo, descs := x.req.descs ++ [e] } }) s

/-- WRITE, READ or SEND starts (R454 step 5), or waits under R94. -/
def startTransfer (f q op : Nat) (s : State) : State :=
  match ready s f q op with
  | none => s
  | some i =>
    match startCheck s f i.desc with
    | some st => settle f (completeItem f q i.idx st (startItem f q i.idx s))
    | none =>
      if startRoom (getQp s (trQpn i.desc)) op then settle f (takePsns f q i.idx.toNat i.desc (startItem f q i.idx s))
      else s

/-! ### Forming packets -/

/-- ACKREQ of R108: the LAST packet, every resent one, and each that brings the packets in flight, `upto` past the last,
to W / 2 or more. -/
def wantsAck (q : Qp) (upto : U32) (last resent : Bool) : Bool :=
  last || resent || decide (q.win ≤ 2 * (upto - q.req.ack).toNat)

/-- The WRITE or SEND packet of a PSN with its payload (R93, R97). -/
def dataPacket (s : State) (q : Qp) (d : QDesc) (p : U32) (resent : Bool) (bs : Bytes) : Packet :=
  let (off, _) := pieceOf q d p
  let first := decide (p = d.psn)
  let last := decide (p + 1 = d.psn + BitVec.ofNat 32 d.n)
  let imm := last && d.imm.isSome
  let b := { qpBth s q (if d.op = 4 then 4 else 3) p d.msn with
    first := first, last := last, ackreq := wantsAck q (p + 1) last resent, resent := resent, imm := imm }
  let e : Ext := if d.op = 4 then .seth (BitVec.ofNat 32 off) (BitVec.ofNat 32 d.len) d.sendNo (if imm then d.imm.getD 0 else 0)
    else .reth (d.roff + BitVec.ofNat 64 off) d.rkey (BitVec.ofNat 32 d.len) d.rseg 0 0
  qpPacket s q b e false bs

/-- The READ_REQ that requests `k` PSNs from p (R457). -/
def readReqPacket (s : State) (q : Qp) (d : QDesc) (p : U32) (k : Nat) (resent : Bool) : Packet :=
  let (off, _) := pieceOf q d p
  let last := decide (p + BitVec.ofNat 32 k = d.psn + BitVec.ofNat 32 d.n)
  let b := { qpBth s q 5 p d.msn with
    first := decide (p = d.psn), last := last, ackreq := wantsAck q (p + BitVec.ofNat 32 k) last resent, resent := resent }
  qpPacket s q b (.reth (d.roff + BitVec.ofNat 64 off) d.rkey (BitVec.ofNat 32 (min (k * q.pmtu) (d.len - off))) d.rseg 0
    (BitVec.ofNat 32 off)) false []

/-- The PSNs of a READ that one READ_REQ from p covers: the one PSN of a fast resend, a run of other unconfirmed resends, or
what the window admits (R457). -/
def readRun (q : Qp) (d : QDesc) (p : U32) (resent : Bool) : Nat :=
  let rest := d.n - (p - d.psn).toNat
  if resent && q.req.lone.contains p then 1
  else if resent then
    ((List.range rest).takeWhile (fun i => let x := p + BitVec.ofNat 32 i
      q.req.resend.contains x && !q.req.lone.contains x && !confirmedTx q x)).length
  else min rest (q.win - (p - q.req.ack).toNat)

/-! ### HOLD (R91, R116, R121) -/

/-- The PSNs from p to the highest sent that are not confirmed are queued for resend. -/
def resendFrom (n : Nat) (p : U32) (s : State) : State :=
  modQp n (fun q => { q with req := { q.req with
    resend := q.req.resend ++ (psnRange p q.req.hi).filter (fun x => !confirmedTx q x && !q.req.resend.contains x) } }) s

/-- QP n enters HOLD; with HOLD_WHY 1 or 2 the packet at ACK_PSN is resent at entry (R116). -/
def enterHold (n why : Nat) (s : State) : State :=
  let q := getQp s n
  if q.st ≠ .rts then s
  else modQp n (fun q => { q with
    st := .hold, holdWhy := BitVec.ofNat 3 why
    req := { q.req with
      resend := if why ≤ 2 ∧ q.req.hi ≠ q.req.ack then [q.req.ack] else [], holdAt := s.now, holdSent := s.now
      waitAt := [], lone := [] } }) s

/-- QP n leaves HOLD for RTS and resends from ACK_PSN (R91). -/
def leaveHold (n : Nat) (s : State) : State :=
  if (getQp s n).st = .hold then
    let s := modQp n (fun q => { q with
      st := .rts, holdWhy := 0, req := { q.req with resend := [], lone := [], timer := s.now } }) s
    resendFrom n (getQp s n).req.ack s
  else s

/-- Some byte of the source or target of a started descriptor of QP n lies behind a local port whose work is not released
(R91, R121). -/
def sourceHeld (s : State) (n : Nat) : Bool :=
  let q := getQp s n
  q.req.descs.any (fun d => decide (d.len ≠ 0) && !placesReleased s q.facet (placesAt s q.facet d.lseg d.loff d.len))

/-! ### PACKET_SEND and SOURCE_READ_DONE -/

/-- A packet of QP n is admitted: charged to the limiter and the wheel, the turn passed on (R134, R137, R140). -/
def admitted (n typ len : Nat) (s : State) : State :=
  let q := getQp s n
  let c := qpCharge s q typ len
  let s := facetCharge q.facet c (modQp n (fun q => { q with rate := creditSpend s c q.rate }) s)
  let s := modF q.facet (fun f => { f with rate := { f.rate with lastQp := n, lastColl := false } }) s
  { s with arb := { s.arb with inj := q.facet } }

/-- PSNs p to p + k − 1 leave: they are in flight from now, and no longer queued for resend; a resend is the last one of
its PSNs (R114). -/
def markSent (n : Nat) (p : U32) (k : Nat) (resent : Bool) (s : State) : State :=
  let q := getQp s n
  let s := modQp n (fun q => { q with req := { q.req with
    hi := if resent then q.req.hi else p + BitVec.ofNat 32 k
    resend := q.req.resend.filter (fun x => !psnIn x p k)
    lone := q.req.lone.filter (fun x => !psnIn x p k)
    fast := if resent then q.req.fast.map (fun x => if psnIn x.1 p k then (x.1, q.req.hi) else x) else q.req.fast
    timer := if q.req.hi = q.req.ack ∧ !resent then s.now else q.req.timer } }) s
  if resent then modF q.facet (fun f => { f with zrt := { f.zrt with resend := f.zrt.resend + 1 } }) s else s

/-- The descriptor's first PSN and MSN are on their way to Mirror (R119). -/
def recordFirst (n : Nat) (d : QDesc) (s : State) : State :=
  if d.recorded then s else mirrorIssue (.qpFirst n d.psn) s

/-- The next packet of the requester: its source read is issued, or it leaves at once if it reads no source. -/
def sendNext (n : Nat) (p : U32) (resent : Bool) (s : State) : State :=
  let q := getQp s n
  match descAt q p with
  | none => s
  | some d =>
    let (off, len) := pieceOf q d p
    if d.op = 3 then
      let k := readRun q d p resent
      let l := placesAt s q.facet d.lseg (d.loff + BitVec.ofNat 64 off) (min (k * q.pmtu) (d.len - off))
      if !placesReleased s q.facet l then enterHold n 4 s
      else if d.recorded then
        let s := markSent n p k resent (admitted n 5 0 s)
        sendQp n (readReqPacket s (getQp s n) d p k resent) s
      else recordFirst n d s
    else if len = 0 then
      if d.recorded then
        let s := markSent n p 1 resent (admitted n 4 0 s)
        sendQp n (dataPacket s (getQp s n) d p resent []) s
      else recordFirst n d s
    else
      let (s, t) := translate (.source n) p q.facet d.lseg (d.loff + BitVec.ofNat 64 off) len false s
      let read := readAll (some (.source (.packet n p))) q.facet t.fresh
      if !placesReleased s q.facet t.places then enterHold n 4 s
      else if !t.full then read s
      else
        let s := markSent n p 1 resent (admitted n (if d.op = 4 then 4 else 3) len (recordFirst n d s))
        read (modQp n (fun q => { q with req := { q.req with
          pulls := q.req.pulls ++ [{ psn := p, resent := resent, places := t.places }] } }) s)

/-! ### What answers confirm (R109, R112 to R114) -/

/-- A PSN belongs to a started READ. -/
def isReadPsn (q : Qp) (p : U32) : Bool :=
  match descAt q p with | some d => decide (d.op = 3) | none => false

/-- ACK_PSN passes every confirmed PSN; `fuel` bounds them. -/
def passAck : Nat → U32 → List U32 → U32 × List U32
  | 0, a, l => (a, l)
  | n + 1, a, l => if l.contains a then passAck n (a + 1) (l.filter (fun x => x ≠ a)) else (a, l)

/-- PSNs become confirmed at the requester: ACK_PSN moves, the timer and its count restart, HOLD ends when ACK_PSN
advances, descriptors complete (R91, R109, R113). `alt`: the evidence of R254; a READ_RESP carries its own (R123). -/
def confirmTx (n : Nat) (ps : List U32) (alt : Bool) (s : State) : State :=
  let q := getQp s n
  let fresh := ps.filter (fun p => !confirmedTx q p && psnIn p q.req.ack (q.req.hi - q.req.ack).toNat)
  let (a, conf) := passAck (fresh.length + q.req.conf.length) q.req.ack (q.req.conf ++ fresh)
  let moved := decide (a ≠ q.req.ack)
  let marked := if alt then fresh else fresh.filter (fun p => q.req.altResp.contains p)
  let s := modBusy n (fun q => { q with req := { q.req with
    ack := a, conf := conf, resend := q.req.resend.filter (fun p => !fresh.contains p)
    lone := q.req.lone.filter (fun p => !fresh.contains p)
    altResp := q.req.altResp.filter (fun p => !fresh.contains p)
    timeouts := if moved then 0 else q.req.timeouts, timer := if moved then s.now else q.req.timer
    descs := q.req.descs.map (fun d => if marked.any (fun p => psnIn p d.psn d.n) then
      { d with degraded := true } else d) } }) s
  let s := if moved then modMir n (fun m => { m with ack := a }) s else s
  let s := if moved then leaveHold n s else s
  settle q.facet (completeDescs n s)

/-- The PSNs an answer reports confirmed: those before ACK_PSN and those of SACK (R106, R112); a read PSN is never
among them (R457). -/
def reported (q : Qp) (ackPsn : U32) (sack : U64) : List U32 :=
  let w := (q.req.hi - q.req.ack).toNat
  let upto := if (ackPsn - q.req.ack).toNat ≤ w then psnRange q.req.ack ackPsn else []
  let above := (setBits 64 sack.toNat).map (fun i => ackPsn + 1 + BitVec.ofNat 32 i)
  (upto ++ above).filter (fun p => psnIn p q.req.ack w && !isReadPsn q p)

/-- R114: every PSN that an answer shows missing while at least 16 higher PSNs are confirmed is resent once, and again
only on an answer that newly confirms a PSN first sent after its last resend. -/
def fastResend (n : Nat) (newly : List U32) (s : State) : State :=
  let q := getQp s n
  let gaps := (psnRange q.req.ack q.req.hi).filter (fun p => !confirmedTx q p &&
    decide (16 ≤ (q.req.conf.filter (fun x => psnBefore p x)).length))
  let due := gaps.filter (fun p => match q.req.fast.find? (fun x => x.1 = p) with
    | none => true
    | some (_, hi) => newly.any (fun x => !psnBefore x hi))
  modQp n (fun q => { q with req := { q.req with
    resend := q.req.resend ++ due.filter (fun p => !q.req.resend.contains p)
    lone := q.req.lone ++ due.filter (fun p => !q.req.resend.contains p)
    fast := q.req.fast.filter (fun x => !due.contains x.1 && !confirmedTx q x.1) ++ due.map (fun p => (p, q.req.hi)) } }) s

/-- SCOMP and TRUNC_MAP of an answer (R106, R109). -/
def takeScomp (n : Nat) (scomp : U32) (trunc : Byte) (s : State) : State :=
  modQp n (fun q => { q with req := { q.req with
    descs := q.req.descs.map (fun d =>
      if d.op = 4 ∧ psnBefore d.sendNo scomp ∧ !d.scomped then
        let i := 8 - (scomp - d.sendNo).toNat
        { d with scomped := true, truncated := decide ((scomp - d.sendNo).toNat ≤ 8) && bit trunc i }
      else d) } }) s

/-- ACK_PSN, SACK, SCOMP, TRUNC_MAP and CE_ECHO of an answer, taken before its syndrome (R112, R129). -/
def takeAnswer (n : Nat) (ackPsn : U32) (ceEcho : Byte) (scomp : U32) (trunc : Byte) (sack : U64) (alt : Bool)
    (s : State) : State :=
  let q := getQp s n
  let rep := (reported q ackPsn sack).filter (fun p => !confirmedTx q p)
  let s := takeScomp n scomp trunc s
  let s := confirmTx n rep alt s
  let s := fastResend n rep s
  if ceEcho = 0 then s
  else congest n (modF q.facet (fun f => { f with zrt := { f.zrt with
    ce := f.zrt.ce + BitVec.ofNat 32 ceEcho.toNat } }) s)

/-! ### Timers of the requester -/

/-- RESEND_TIMEOUT (R113, R129). -/
def resendTimeout (n : Nat) (s : State) : State :=
  let q := getQp s n
  if q.st = .rts && q.inFlight && elapsed s q.req.timer q.interval then
    let s := congest n (modQp n (fun q => { q with req := { q.req with
      timeouts := q.req.timeouts + 1, timer := s.now } }) s)
    if q.req.timeouts + 1 < q.retryLim + 1 then
      modQp n (fun q => { q with req := { q.req with
        resend := (psnRange q.req.ack q.req.hi).filter (fun p => !(isReadPsn q p && confirmedTx q p)), lone := [] } }) s
    else enterHold n 1 s
  else s

/-- RNR_BACKOFF_END (R117). -/
def rnrEnd (n : Nat) (s : State) : State :=
  let q := getQp s n
  let ended := q.req.rnr.filter (fun x => elapsed s x.2.2 q.backoff)
  let s := modQp n (fun q => { q with req := { q.req with
    rnr := q.req.rnr.filter (fun x => !ended.contains x) } }) s
  ended.foldl (fun s x => resendFrom n x.2.1 s) s

/-- NAK_WAIT_RESEND: 2 µs after each NAK_WAIT, from its NAK_PSN (R112). -/
def waitResend (n : Nat) (s : State) : State :=
  let ended := (getQp s n).req.waitAt.filter (fun x => elapsed s x.2 (us 2))
  let s := modQp n (fun q => { q with req := { q.req with waitAt := q.req.waitAt.filter (fun x => !ended.contains x) } }) s
  ended.foldl (fun s x => resendFrom n x.1 s) s

/-- HOLD_RESEND: the packet at ACK_PSN, once per resend interval or per 1 ms (R116). -/
def holdResend (n : Nat) (s : State) : State :=
  let q := getQp s n
  if q.st = .hold && decide (q.holdWhy ≠ 4) && decide (q.req.hi ≠ q.req.ack) &&
      elapsed s q.req.holdSent (if q.holdWhy = 3 then ms 1 else q.interval) then
    modQp n (fun q => { q with req := { q.req with resend := [q.req.ack], lone := [], holdSent := s.now } }) s
  else s

/-- HOLD_LIMIT: HOLD_WHY 1 or 2 for the hold limit (R116). -/
def holdLimitEnd (n : Nat) (s : State) : State :=
  let q := getQp s n
  if q.st = .hold && decide (q.holdWhy = 1 ∨ q.holdWhy = 2) && elapsed s q.req.holdAt q.holdLimit then
    failQp n (fun _ => stat cTIMEOUT) s
  else s

end Sys2Proof.Machine
end

