-- ==== Sys2Proof/Machine/ZrtRx.lean ====
section
/-!
DEFINITION. The responder and the arrival of packets (03_reliable_transport.md): answers (R106, R107, R112), confirmed
packets and E (R104, R105), sends (R96, R110, R111), READ_REQs and READ_RESPs (R110, R457), the arrival miss buffer
(R86), authentication (R347), and what each syndrome does at the requester (R112, R117).
-/
namespace Sys2Proof.Machine

/-! ### Answers (R106, R107, R254) -/

/-- SACK of an answer: bit i set when E + 1 + i is confirmed (R97). -/
def sackOf (q : Qp) : U64 :=
  BitVec.ofNat 64 (ofBits ((List.range 64).filter (fun i => q.rsp.conf.contains (q.rsp.e + 1 + BitVec.ofNat 32 i))))

/-- A PSN is confirmed at the responder. -/
def confirmedRx (q : Qp) (p : U32) : Bool := psnBefore p q.rsp.e || q.rsp.conf.contains p

/-- The answer of QP n with a SYNDROME and NAK_PSN, as the QP stands; ECHO_ALT when it confirms a packet that came with
ALT_SEEN (R254). -/
def answerPacket (s : State) (n syndrome : Nat) (nakPsn : U32) : Packet :=
  let q := getQp s n
  qpPacket s q (qpBth s q 7 0 0)
    (.aeth q.rsp.e (BitVec.ofNat 8 syndrome) q.rsp.ce 0 q.rsp.scomp q.rsp.trunc 0 (sackOf q) nakPsn 0)
    (q.rsp.alt.any (confirmedRx q)) []

/-- Answers whose ACK_PSN Mirror holds leave; others wait for a Mirror write of E (R107). -/
def sendOwed (n : Nat) (s : State) : State :=
  let e := (getMir s n).e
  let late : Packet → Bool := fun p => match p.ext with | .aeth a .. => psnBefore e a | _ => false
  let q := getQp s n
  let s := modQp n (fun q => { q with rsp := { q.rsp with owed := q.rsp.owed.filter late } }) s
  let s := (q.rsp.owed.filter (fun p => !late p)).foldl (fun s p => sendQp n p s) s
  if q.rsp.owed.any late && q.rsp.mirWrite.isNone then
    mirrorIssue (.qpE n) (modQp n (fun q => { q with rsp := { q.rsp with mirWrite := some q.rsp.e } }) s)
  else s

/-- QP n answers: the counts that start again with each answer do so, and the answer leaves under R107. -/
def answer (n syndrome : Nat) (nakPsn : U32) (s : State) : State :=
  if (getQp s n).peerCtag.isNone then s
  else
    let p := answerPacket s n syndrome nakPsn
    sendOwed n (modQp n (fun q => { q with rsp := { q.rsp with
      owed := q.rsp.owed ++ [p], ce := 0, since := 0, alt := q.rsp.alt.filter (fun x => !confirmedRx q x) } }) s)

/-- A NAK_NO_CONN for a refused packet (R456): formed from that packet alone. -/
def sendNoConn (p : Packet) (s : State) : State :=
  let b := p.bth
  let h : Bth := { b with
    ver := 1, typ := 7, first := false, last := false, ackreq := false, ce := false, ciph := false, resent := false
    imm := false, lineage := lineageOf s 0, psn := 0, dstEp := b.srcEp, srcEp := b.dstEp, plen := 0, msn := 0, rsv := 0 }
  inject { rh := localRh s (epAdapter b.srcEp) 1 false 0 false, bth := h, cph := none, data := [], icrc := 0
           ext := .aeth b.psn 6 0 0 0 0 0 0 b.psn 0 } s

/-- A packet that is no answer and gets none: an ACK packet, ACCEPT or REJECT (R456). -/
def unanswerable (p : Packet) : Bool := decide (p.bth.typ.toNat = 7 ∨ p.bth.typ.toNat = 1 ∨ p.bth.typ.toNat = 2)

/-- NAK_NO_CONN, unless the packet may not be answered. -/
def refuse (p : Packet) (s : State) : State := if unanswerable p then s else sendNoConn p s

/-- R91, R98: an arriving packet failed its access check. -/
def accessFail (n : Nat) (p : U32) (s : State) : State := failQp n (fun _ => stat cFLUSHED) (answer n 5 p s)

/-- A packet discarded under R104, counted in its facet. -/
def countDup (n : Nat) (s : State) : State :=
  modF (getQp s n).facet (fun f => { f with zrt := { f.zrt with dup := f.zrt.dup + 1 } }) s

/-! ### Sends (R96, R111) -/

/-- The oldest send whose bytes are placed and whose last PSN E has reached (R110). -/
def readySend (q : Qp) : Option SendRx :=
  q.rsp.sends.find? (fun x => x.lastOk && !x.wb && decide (x.lastPsn = some q.rsp.e))

/-- The result written back into a RECV for a complete send. -/
def recvResult (q : Qp) (d : Desc) (x : SendRx) : RecvResult :=
  { count := BitVec.ofNat 32 (min x.msgLen (fld d.w3 31 0)), srcQpn := q.remoteQpn, srcEp := q.remoteEp, imm := x.imm }

/-- The receive write-back of the oldest complete send is issued, with the Mirror write of SCOMP beside it (R111). -/
def trySend (n : Nat) (s : State) : State :=
  let q := getQp s n
  match readySend q with
  | none => s
  | some x =>
    let idx := q.rsp.r0 + x.s
    match getItem s q.facet true q.rq idx with
    | none => s
    | some i =>
      let long := decide (fld i.desc.w3 31 0 < x.msgLen)
      let s := modQp n (fun q => { q with rsp := { q.rsp with
        sends := q.rsp.sends.map (fun y => if y.s = x.s then { y with wb := true, long := long } else y) } }) s
      mirrorIssue (.qpSend n) (completeRecv q.facet q.rq idx (if long then stat cTRUNCATED else stOk)
        (recvResult q i.desc x) s)

/-! ### Confirmed packets and E (R104, R105, R110) -/

/-- E passes every confirmed PSN; `fuel` bounds them. -/
def moveE : Nat → RspSide → RspSide
  | 0, r => r
  | k + 1, r =>
    if r.conf.contains r.e then
      moveE k { r with e := r.e + 1, conf := r.conf.filter (fun x => x ≠ r.e), held := r.held.filter (fun x => x ≠ r.e) }
    else r

/-- PSN p is the last of a send that is not complete. -/
def endsSend (r : RspSide) (p : U32) : Bool := r.sends.any (fun x => decide (x.lastPsn = some p))

/-- One PSN is confirmed; the last packet of a send waits for its send (R111). -/
def confOne (r : RspSide) (p : U32) : RspSide :=
  if psnBefore p r.e || r.conf.contains p then r
  else if endsSend r p then { r with
    noHold := r.noHold.filter (fun x => x ≠ p)
    sends := r.sends.map (fun x => if x.lastPsn = some p then { x with lastOk := true } else x) }
  else { r with
    conf := r.conf ++ [p], noHold := r.noHold.filter (fun x => x ≠ p), since := r.since + 1 }

/-- A PSN without payload is confirmed with the packet before it in PSN order, or at once if none is held (R105). -/
def freeNoHold (r : RspSide) (p : U32) : Bool :=
  let before := r.held.filter (fun x => decide ((x - r.e).toNat < (p - r.e).toNat))
  let last := (before.map (fun x => (x - r.e).toNat)).foldl max 0
  before.isEmpty || r.conf.contains (r.e + BitVec.ofNat 32 last)

/-- Every PSN without payload that may be confirmed is; `fuel` bounds the passes. -/
def settleNoHold : Nat → RspSide → RspSide
  | 0, r => r
  | k + 1, r =>
    match r.noHold.find? (freeNoHold r) with
    | none => r
    | some p => settleNoHold k (moveE 1024 (confOne r p))

/-- NAK_HOLD for a packet whose target port is down: its PSN is free again and the port is noted (R120). -/
def nakHoldFor (n : Nat) (p : U32) (keys : List Nat) (s : State) : State :=
  answer n 3 p (modQp n (fun q => { q with rsp := { q.rsp with
    held := q.rsp.held.filter (fun x => x ≠ p)
    holding := q.rsp.holding ++ keys.filter (fun k => !q.rsp.holding.contains k) } }) s)

/-- The port keys of translated places that are not released for facet f. -/
def heldKeys (s : State) (f : Nat) (l : List (Nat × U64 × Nat)) : List Nat :=
  ((l.map (fun x => keyFor s x.1 x.2.1)).filter (fun k => !released s f k)).dedup

/-- The READ_RESPs that a READ_REQ asks for (R457): one for each of its PSNs. -/
def respsOf (q : Qp) (p : Packet) : List RespOne :=
  match p.ext with
  | .reth roff _ msgLen rseg _ readOff =>
    let k := ceilDiv msgLen.toNat q.pmtu
    (List.range k).map (fun i => {
      psn := p.bth.psn + BitVec.ofNat 32 i, seg := rseg.toNat, off := roff + BitVec.ofNat 64 (i * q.pmtu)
      len := min q.pmtu (msgLen.toNat - i * q.pmtu), msgOff := readOff.toNat + i * q.pmtu, msn := p.bth.msn
      first := p.bth.first && decide (i = 0), last := p.bth.last && decide (i + 1 = k), req := p.bth.psn })
  | _ => []

/-- A READ_REQ is served (R110, R457), or answered NAK_HOLD while its source lies behind a port that is down; its PSNs
are then free again (R120). -/
def serveRead (n : Nat) (p : Packet) (s : State) : State :=
  let q := getQp s n
  let l := respsOf q p
  match heldKeys s q.facet (l.flatMap (fun r => placesAt s q.facet r.seg r.off r.len)) with
  | [] => modQp n (fun q => { q with
      rate := if l = [] then q.rate else q.woken s
      rsp := { q.rsp with
        resp := q.rsp.resp ++ l.filter (fun r => !(q.rsp.resp ++ q.rsp.sent).any (fun x => x.psn = r.psn)) } }) s
  | ks =>
    nakHoldFor n p.bth.psn ks (modQp n (fun q => { q with rsp := { q.rsp with
      held := q.rsp.held.filter (fun x => !l.any (fun r => r.psn = x)) } }) s)

/-- The waiting READ_REQ that E has reached is served. -/
def serveReached (n : Nat) (s : State) : State :=
  let q := getQp s n
  match q.rsp.reads.find? (fun p => decide (p.bth.psn = q.rsp.e)) with
  | some p => serveRead n p (modQp n (fun q => { q with rsp := { q.rsp with reads := q.rsp.reads.erase p } }) s)
  | none => s

/-- An acknowledgement is due: a confirmed packet asked for one, or 16 are confirmed (R106). -/
def ackIfDue (n : Nat) (s : State) : State :=
  let q := getQp s n
  let asked := q.rsp.ackreq.any (confirmedRx q)
  if asked || decide (16 ≤ q.rsp.since) then
    answer n 0 0 (modQp n (fun q => { q with rsp := { q.rsp with
      ackreq := q.rsp.ackreq.filter (fun x => !confirmedRx q x) } }) s)
  else s

/-- PSNs are confirmed at the responder: E moves, reads it reaches are served, the oldest send completes, an
acknowledgement leaves if due. -/
def confirmRx (n : Nat) (ps : List U32) (s : State) : State :=
  let s := modQp n (fun q =>
    let r := moveE 1024 (ps.foldl confOne q.rsp)
    { q with rsp := settleNoHold (r.noHold.length + 1) r }) s
  ackIfDue n (trySend n (serveReached n s))

/-- A send is complete once its write-back is visible and Mirror holds it: SCOMP passes it and its last packet is
confirmed (R111). -/
def finishSend (n : Nat) (s : State) : State :=
  let q := getQp s n
  match q.rsp.sends.find? (fun x => x.wb && x.wbSeen && x.mirrored) with
  | none => s
  | some x =>
    let m := getMir s n
    let s := modQp n (fun q => { q with rsp := { q.rsp with
      scomp := q.rsp.scomp + 1, trunc := m.trunc, sends := q.rsp.sends.filter (fun y => y.s ≠ x.s) } }) s
    confirmRx n (x.lastPsn.toList) s

/-- The send whose write-back in RQ slot `idx` became visible. -/
def sendVisible (n : Nat) (idx : U32) (s : State) : State :=
  finishSend n (modQp n (fun q => { q with rsp := { q.rsp with
    sends := q.rsp.sends.map (fun x => if x.wb ∧ q.rsp.r0 + x.s = idx then { x with wbSeen := true } else x) } }) s)

/-- Mirror holds the oldest complete send: SCOMP + 1 and the truncation bits with its own shifted in at bit 7 (R97,
R111). -/
def sendMirrored (n : Nat) (s : State) : State :=
  let q := getQp s n
  match q.rsp.sends.find? (fun x => x.wb && !x.mirrored) with
  | none => s
  | some x =>
    let s := modMir n (fun m => { m with
      scomp := q.rsp.scomp + 1, trunc := (q.rsp.trunc >>> 1) ||| (if x.long then 0x80 else 0) }) s
    finishSend n (modQp n (fun q => { q with rsp := { q.rsp with
      sends := q.rsp.sends.map (fun y => if y.s = x.s then { y with mirrored := true } else y) } }) s)

/-! ### Placement -/

/-- A packet waits behind its stream's miss. -/
def stallPacket (n : Nat) (p : Packet) (s : State) : State :=
  modQp n (fun q => { q with rsp := { q.rsp with stall := q.rsp.stall ++ [p] } }) s

/-- A packet discarded because its stream is parked (R269). -/
def parkDiscard (s : State) : State := { s with xlt := { s.xlt with parkDrop := s.xlt.parkDrop + 1 } }

/-- The PSNs that a packet occupies: those a READ_REQ requests, its own otherwise. -/
def psnsHeld (q : Qp) (p : Packet) : List U32 :=
  if p.bth.typ.toNat = 5 then (respsOf q p).map (fun r => r.psn) else [p.bth.psn]

/-- A packet whose placement parked is discarded: its PSN is free again, and its pieces confirm nothing (R269). -/
def discardTaken (n : Nat) (p : Packet) (s : State) : State :=
  let gone := psnsHeld (getQp s n) p
  clearBegun (.responder n) (voidWrites [.packet n p.bth.psn] (parkDiscard (modQp n (fun q => { q with rsp := { q.rsp with
    held := q.rsp.held.filter (fun x => !gone.contains x), ackreq := q.rsp.ackreq.filter (fun x => !gone.contains x)
    alt := q.rsp.alt.filter (fun x => !gone.contains x) } }) s)))

/-- Bytes of an accepted packet go to a segment, piece by piece; a packet whose stream misses waits, one whose stream
parks is discarded (R269, R270). -/
def placeData (n : Nat) (p : Packet) (seg : Nat) (off : U64) (bs : Bytes) (s : State) : State :=
  let f := (getQp s n).facet
  let psn := p.bth.psn
  if parkedStream s (.responder n) then discardTaken n p s
  else if streamBusy s (.responder n) then stallPacket n p s
  else
    let (s, t) := translate (.responder n) psn f seg off bs.length true s
    match heldKeys s f t.fresh with
    | [] =>
      let s := postAll f (.packet n psn) (t.writes bs) s
      if t.full then s else if parkedStream s (.responder n) then discardTaken n p s else stallPacket n p s
    | ks => nakHoldFor n psn ks (clearBegun (.responder n) (voidWrites [.packet n psn] s))

/-- A packet with nothing to place is confirmed with the one before it (R105). -/
def placeNothing (n : Nat) (p : U32) (s : State) : State :=
  confirmRx n [] (modQp n (fun q => { q with rsp := { q.rsp with noHold := q.rsp.noHold ++ [p] } }) s)

/-- check_and_place of a WRITE packet (R98). -/
def placeWrite (n : Nat) (p : Packet) (s : State) : State :=
  let q := getQp s n
  match p.ext with
  | .reth roff rkey _ rseg _ _ =>
    if !(q.hasSeg rseg.toNat && rangeCheck s q.facet rseg.toNat roff p.data.length .rwr (some rkey)) then
      accessFail n p.bth.psn s
    else if p.data = [] then placeNothing n p.bth.psn s
    else placeData n p rseg.toNat roff p.data s
  | _ => s

/-- The receive write-back of a send whose buffer fails the range check (R263). -/
def denyRecv (n : Nat) (idx : U32) (s : State) : State :=
  let q := getQp s n
  completeRecv q.facet q.rq idx (statD cACCESS_DENIED 0) { srcQpn := q.remoteQpn, srcEp := q.remoteEp } s

/-- What a SEND packet adds to the record of its send. -/
def noteSend (p : Packet) (ssn : U32) (msgLen : Nat) (imm : Option U32) (l : List SendRx) : List SendRx :=
  let l := if l.any (fun x => x.s = ssn) then l else l ++ [{ s := ssn, msgLen := msgLen }]
  l.map (fun x => if x.s = ssn ∧ p.bth.last then { x with lastPsn := some p.bth.psn, imm := imm } else x)

/-- The part of a SEND packet's bytes that its buffer takes (R111). -/
def sendPart (len msgOff : Nat) (bs : Bytes) : Bytes := bs.take (len - msgOff)

/-- check_and_place of a SEND packet whose RQ slot A has passed (R98, R111, R263). -/
def placeSend (n : Nat) (p : Packet) (s : State) : State :=
  let q := getQp s n
  match p.ext with
  | .seth msgOff msgLen ssn immv =>
    if psnBefore ssn q.rsp.scomp then placeNothing n p.bth.psn s
    else match getItem s q.facet true q.rq (q.rsp.r0 + ssn) with
    | some ⟨idx, d, _, none, _, _, _, _⟩ =>
      let len := fld d.w3 31 0
      let seg := fld d.w2 7 0
      if !rangeCheck s q.facet seg d.w4 (min len msgLen.toNat) .lwr none then
        accessFail n p.bth.psn (denyRecv n idx s)
      else
        let s := modQp n (fun q => { q with rsp := { q.rsp with
          sends := noteSend p ssn msgLen.toNat (if p.bth.imm then some immv else none) q.rsp.sends } }) s
        match sendPart len msgOff.toNat p.data with
        | [] => placeNothing n p.bth.psn s
        | bs => placeData n p seg (d.w4 + BitVec.ofNat 64 msgOff.toNat) bs s
    | _ => accessFail n p.bth.psn s
  | _ => s

/-- A stalled packet of the responder stream is placed. -/
def placeAgain (n : Nat) (p : Packet) (s : State) : State :=
  if p.bth.typ.toNat = 4 then placeSend n p s else placeWrite n p s

/-! ### Arrival at a responder (R104, R457) -/

/-- A packet needs its stream: it places bytes or reads a source (R269). -/
def needsStream (q : Qp) (s : State) (p : Packet) : Bool :=
  match p.ext with
  | .seth msgOff _ ssn _ => (match getItem s q.facet true q.rq (q.rsp.r0 + ssn) with
      | some i => decide (sendPart (fld i.desc.w3 31 0) msgOff.toNat p.data ≠ [])
      | none => false)
  | .reth .. => decide (p.bth.typ = 5) || decide (p.data ≠ [])
  | _ => false

/-- A SEND whose RQ slot R0 + s the RQ's A has not passed (NAK_RNR). -/
def notReady (s : State) (q : Qp) (p : Packet) : Bool :=
  match p.ext with
  | .seth _ _ ssn _ => !psnBefore (q.rsp.r0 + ssn) (getQ s q.facet true q.rq).acc
  | _ => false

/-- CE_ECHO with one more packet that the responder takes (R101). -/
def ceCount (p : Packet) (c : Byte) : Byte := if p.bth.ce ∧ c ≠ 255 then c + 1 else c

/-- A packet is taken: its PSNs held, its marks noted (R101, R104, R106, R254). -/
def takePacket (n : Nat) (p : Packet) (s : State) : State :=
  modQp n (fun q => { q with rsp := { q.rsp with
    held := q.rsp.held ++ psnsHeld q p
    ce := ceCount p q.rsp.ce
    ackreq := if p.bth.ackreq then q.rsp.ackreq ++ ((psnsHeld q p).getLast?).toList else q.rsp.ackreq
    alt := if p.rh.altSeen then q.rsp.alt ++ psnsHeld q p else q.rsp.alt } }) s

/-- on_packet of R104 for a WRITE or SEND packet. -/
def onPacket (n : Nat) (p : Packet) (s : State) : State :=
  let q := getQp s n
  let psn := p.bth.psn
  let d := (psn - q.rsp.e).toNat
  if 0x80000000 ≤ d then answer n 0 0 (countDup n s)
  else if q.win ≤ d then countDup n s
  else if q.rsp.held.contains psn then countDup n s
  else if p.bth.typ.toNat = 4 ∧ !q.rqEn then accessFail n psn s
  else if p.bth.typ.toNat = 4 ∧ notReady s q p then
    answer n 1 psn (modF q.facet (fun f => { f with zrt := { f.zrt with rnrSent := f.zrt.rnrSent + 1 } }) s)
  else if needsStream q s p && parkedStream s (.responder n) then parkDiscard s
  else
    let s := takePacket n p s
    if p.bth.typ.toNat = 4 then placeSend n p s else placeWrite n p s

/-- The access check of a READ_REQ (R98). -/
def readAllowed (s : State) (q : Qp) (p : Packet) : Bool :=
  match p.ext with
  | .reth roff rkey msgLen rseg _ _ =>
    q.hasSeg rseg.toNat && rangeCheck s q.facet rseg.toNat roff msgLen.toNat .rrd (some rkey)
  | _ => false

/-- A READ_REQ arrives (R104, R110, R457): behind E it is served again, otherwise it waits for E. One that asks for more
than W PSNs, or whose last PSN lies at or beyond E + W, is discarded whole (DESIGN CHOICE, log entry 65). -/
def onReadReq (n : Nat) (p : Packet) (s : State) : State :=
  let q := getQp s n
  let psn := p.bth.psn
  let d := (psn - q.rsp.e).toNat
  let behind := decide (0x80000000 ≤ d)
  let k := match p.ext with | .reth _ _ msgLen _ _ _ => ceilDiv msgLen.toNat q.pmtu | _ => 0
  if decide (q.win < k) || (!behind && decide (q.win < d + k)) then countDup n s
  else if !behind && q.rsp.held.contains psn then countDup n s
  else if parkedStream s (.responder n) then parkDiscard s
  else if !readAllowed s q p then accessFail n psn s
  else if behind then
    serveRead n p (modQp n (fun q => { q with rsp := { q.rsp with ce := ceCount p q.rsp.ce } }) s)
  else serveReached n (modQp n (fun q => { q with rsp := { q.rsp with reads := q.rsp.reads ++ [p] } })
    (takePacket n p s))

/-! ### READ_RESP at the requester (R105, R457) -/

/-- READ_RESP p is awaited again: its pieces confirm nothing. -/
def dropResp (n : Nat) (p : U32) (s : State) : State :=
  clearBegun (.readResp n) (voidWrites [.readResp n p] (modQp n (fun q => { q with req := { q.req with
    placing := q.req.placing.filter (fun x => x ≠ p), altResp := q.req.altResp.filter (fun x => x ≠ p) } }) s))

/-- The bytes of a READ_RESP go to the READ's destination; one whose stream parks is discarded (R269). -/
def placeResp (n : Nat) (p : Packet) (s : State) : State :=
  let q := getQp s n
  let psn := p.bth.psn
  match descAt q psn with
  | none => s
  | some d =>
    let (off, len) := pieceOf q d psn
    let bs := p.data.take len
    if parkedStream s (.readResp n) then parkDiscard (dropResp n psn s)
    else if streamBusy s (.readResp n) then stallPacket n p s
    else
      let (s, t) := translate (.readResp n) psn q.facet d.lseg (d.loff + BitVec.ofNat 64 off) bs.length true s
      if !placesReleased s q.facet t.fresh then dropResp n psn s
      else
        let s := postAll q.facet (.readResp n psn) (t.writes bs) s
        if t.full then (if p.rh.altSeen then modQp n (fun q => { q with req := { q.req with
          altResp := q.req.altResp ++ [psn] } }) s else s)
        else if parkedStream s (.readResp n) then parkDiscard (dropResp n psn s)
        else stallPacket n p s

/-- A READ_RESP arrives: one that is not awaited is a duplicate. -/
def onReadResp (n : Nat) (p : Packet) (s : State) : State :=
  let q := getQp s n
  let psn := p.bth.psn
  if !isReadPsn q psn || !psnBefore psn q.req.hi || confirmedTx q psn || q.req.placing.contains psn then countDup n s
  else if parkedStream s (.readResp n) then parkDiscard s
  else placeResp n p (modQp n (fun q => { q with req := { q.req with placing := q.req.placing ++ [psn] } }) s)

/-! ### Streams that go on -/

/-- The stalled packets of a QP's stream go on in order until one misses again; `fuel` bounds them. -/
def unstall : Nat → Stream → Nat → Bool → State → State
  | 0, _, _, _, s => s
  | k + 1, st, n, resp, s =>
    match (getQp s n).rsp.stall.find? (fun p => decide (p.bth.typ.toNat = 6) == resp) with
    | none => s
    | some p =>
      if s.xlt.misses.any (fun m => decide (m.piece.stream = st)) then s
      else
        let s := modQp n (fun q => { q with rsp := { q.rsp with stall := q.rsp.stall.erase p } }) s
        let s := if resp then placeResp n p s else placeAgain n p s
        if s.xlt.misses.any (fun m => decide (m.piece.stream = st)) then
          modQp n (fun q => { q with rsp := { q.rsp with stall := p :: q.rsp.stall.erase p } }) s
        else unstall k st n resp s

/-- The stalled packets of a QP's responder or READ_RESP stream go on. -/
def goOnQp (st : Stream) (n : Nat) (resp : Bool) (s : State) : State := unstall (getQp s n).rsp.stall.length st n resp s

/-! ### Sending: READ_RESPs and the turn (R110, R140, R457) -/

/-- The READ_REQ that READ_RESP r belongs to is discarded because the stream parked: what is left of it is not owed any
more, and its PSNs are free again (R269). -/
def discardReq (n : Nat) (r : RespOne) (s : State) : State :=
  clearBegun (.responder n) (parkDiscard (modQp n (fun q =>
    let gone := (q.rsp.resp.filter (fun x => x.req = r.req)).map (fun x => x.psn)
    { q with rsp := { q.rsp with
      resp := q.rsp.resp.filter (fun x => x.req ≠ r.req), held := q.rsp.held.filter (fun x => !gone.contains x)
      ackreq := q.rsp.ackreq.filter (fun x => !gone.contains x), alt := q.rsp.alt.filter (fun x => !gone.contains x) } }) s))

/-- The next READ_RESP that QP n owes: its source read is issued, or NAK_HOLD is answered while its port is down (R110,
R121). -/
def respNext (n : Nat) (s : State) : State :=
  let q := getQp s n
  match q.rsp.resp with
  | [] => s
  | r :: rest =>
    let (s, t) := translate (.responder n) r.psn q.facet r.seg r.off r.len false s
    let read := readAll (some (.source (.readResp n r.psn))) q.facet t.fresh
    match heldKeys s q.facet t.places with
    | [] =>
      if t.full then
        read (modQp n (fun q => { q with rsp := { q.rsp with
          pulls := q.rsp.pulls ++ [{ psn := r.psn, resent := false, places := t.places }] } }) (admitted n 6 r.len
            (modQp n (fun q => { q with rsp := { q.rsp with resp := rest, sent := q.rsp.sent ++ [r] } }) s)))
      else if parkedStream s (.responder n) then discardReq n r (read s)
      else read s
    | ks => nakHoldFor n r.psn ks (clearBegun (.responder n) (modQp n (fun q => { q with rsp := { q.rsp with
        resp := [], held := q.rsp.held.filter (fun x => !q.rsp.resp.any (fun y => y.psn = x)) } }) s))

/-- PACKET_SEND (R102, R103, R140): one packet of QP n at its turn. -/
def packetSend (n : Nat) (s : State) : State :=
  if !hasTurn s n then s
  else
    takeTurns (match nextTurn s n with
      | some .resp => respNext n (makeCtx n s)
      | some (.req p resent) => sendNext n p resent (makeCtx n s)
      | none => s)

/-- The source read of a packet returns: it leaves with the bytes read (R103, R119). -/
def packetRead (n : Nat) (psn : U32) (bs : Bytes) (s : State) : State :=
  let q := getQp s n
  match q.req.pulls.find? (fun x => x.psn = psn) with
  | none => s
  | some x =>
    match descAt q psn with
    | none => modQp n (fun q => { q with req := { q.req with pulls := q.req.pulls.erase x } }) s
    | some d =>
      if !d.recorded then s
      else
        let s := modQp n (fun q => { q with req := { q.req with pulls := q.req.pulls.erase x } }) s
        tryFreeQp n (sendQp n (dataPacket s q d psn x.resent (gather x.places bs s.mem)) s)

/-- The READ_RESP packet of a response (R97, R457). -/
def respPacket (s : State) (q : Qp) (r : RespOne) (bs : Bytes) : Packet :=
  qpPacket s q { qpBth s q 6 r.psn r.msn with first := r.first, last := r.last }
    (.rrh (BitVec.ofNat 32 r.msgOff) 0) false bs

/-- The source read of a READ_RESP returns: it leaves, and E moves past its PSN (R457). -/
def respRead (n : Nat) (psn : U32) (bs : Bytes) (s : State) : State :=
  let q := getQp s n
  match q.rsp.pulls.find? (fun x => x.psn = psn), q.rsp.sent.find? (fun r => r.psn = psn) with
  | some x, some r =>
    let s := modBusy n (fun q => { q with rsp := { q.rsp with pulls := q.rsp.pulls.erase x, sent := q.rsp.sent.erase r } }) s
    let s := sendQp n (respPacket s q r (gather x.places bs s.mem)) s
    tryFreeQp n (confirmRx n [psn] s)
  | _, _ => s

/-! ### Syndromes at the requester (R91, R112, R117) -/

/-- NAK_RNR (R117). -/
def takeRnr (n : Nat) (nakPsn : U32) (s : State) : State :=
  let q := getQp s n
  let s := modF q.facet (fun f => { f with zrt := { f.zrt with rnrRcvd := f.zrt.rnrRcvd + 1 } }) s
  match descAt q nakPsn with
  | none => s
  | some d =>
    if d.op ≠ 4 || q.req.rnr.any (fun x => decide (x.1 = d.sendNo)) then s
    else
      let c := aget 0 d.sendNo.toNat q.req.rnrCount + 1
      if q.rnrLimit ≠ 0 ∧ q.rnrLimit ≤ c then
        failQp n (fun x => if x.psn = d.psn ∧ x.op = 4 then stat cRNR_EXCEEDED else stat cFLUSHED) s
      else modQp n (fun q => { q with req := { q.req with
        rnr := q.req.rnr ++ [(d.sendNo, nakPsn, s.now)], rnrCount := aset d.sendNo.toNat c q.req.rnrCount } }) s

/-- NAK_WAIT (R112, R113). -/
def takeWait (n : Nat) (nakPsn : U32) (s : State) : State :=
  let f := (getQp s n).facet
  modF f (fun x => { x with zrt := { x.zrt with wait := x.zrt.wait + 1 } })
    (modQp n (fun q => { q with req := { q.req with timer := s.now, timeouts := 0, waitAt := q.req.waitAt ++ [(nakPsn, s.now)] } }) s)

/-- NAK_ACCESS at PSN p (R91). -/
def takeAccess (n : Nat) (p : U32) (s : State) : State :=
  failQp n (fun d => if psnIn p d.psn d.n then statD cACCESS_DENIED 1 else stat cFLUSHED) s

/-- An answer is taken by a requester in RTS or HOLD: ACK_PSN and SACK first, then the syndrome (R112). -/
def takeAeth (n : Nat) (p : Packet) (s : State) : State :=
  match p.ext with
  | .aeth ackPsn syn ceEcho _ scomp trunc _ sack nakPsn _ =>
    if !(getQp s n).connected then s
    else if syn.toNat = 6 then failQp n (fun _ => stat cREMOTE_LOST) s
    else
      let s := takeAnswer n ackPsn ceEcho scomp trunc sack (p.rh.altSeen || p.rh.echoAlt) s
      if !(getQp s n).connected then s
      else match syn.toNat with
        | 1 => takeRnr n nakPsn s
        | 2 => takeWait n nakPsn s
        | 3 => enterHold n 3 s
        | 4 => leaveHold n s
        | 5 => takeAccess n nakPsn s
        | _ => s
  | _ => s

/-! ### Arrival (R86, R91, R92, R97, R99, R347) -/

/-- A packet that passed the checks and its authentication reaches the transport of QP n, unless the QP has left RTS and
HOLD since (R91, R98). -/
def rxTake (n : Nat) (p : Packet) (s : State) : State :=
  if (getQp s n).st = .error then refuse p s
  else if !(getQp s n).connected then s
  else match p.bth.typ.toNat with
  | 3 => onPacket n p s
  | 4 => onPacket n p s
  | 5 => onReadReq n p s
  | 6 => onReadResp n p s
  | _ => takeAeth n p s

/-- A packet that fails authentication (R347). -/
def authFail (n : Nat) (s : State) : State :=
  let s := modF (getQp s n).facet (fun f => { f with cip := { f.cip with authFail := f.cip.authFail + 1 } }) s
  { s with cip := { s.cip with authFail := s.cip.authFail + 1 } }

/-- Step 3 of R347: a ciphered packet goes through the engine, one whose CIPH is not what its QP asks for fails. -/
def rxAuth (n : Nat) (p : Packet) (s : State) : State :=
  let q := getQp s n
  let noConn := decide (syndromeOf p.ext = some 6)
  if p.bth.ciph then (if q.cipher then toEngine n false p s else authFail n s)
  else if q.cipher && !noConn then authFail n s
  else rxTake n p s

/-- Step 2 of R347 with the context resident: CTAG and the QP's state (R91, R92, R456). -/
def rxChecks (n : Nat) (p : Packet) (s : State) : State :=
  let q := getQp s n
  if p.bth.ctag ≠ q.ctag ∨ q.st = .error then refuse p s
  else if !q.connected then s
  else rxAuth n p s

/-- The contexts are still being restored from Mirror (R122, R410). -/
def restoring (s : State) : Bool := decide (s.boot.run = .boot) && decide (s.boot.stage = 7)

/-- NAK_WAIT can be sent for a packet: to the sender that a CONNECT names, else to the peer of QP n (R86, R456). -/
def canWait (s : State) (n : Nat) (p : Packet) : Bool :=
  !unanswerable p && (decide (p.bth.typ = 0) || (getQp s n).peerCtag.isSome)

/-- The NAK_WAIT for a CONNECT, formed from that packet alone: its QP may know no peer yet. -/
def connectWait (s : State) (p : Packet) (ctag : U32) (srcQpn : BitVec 20) : Packet :=
  let b := p.bth
  let h : Bth := { b with
    ver := 1, typ := 7, first := false, last := false, ackreq := false, ce := false, ciph := false, resent := false
    imm := false, lineage := lineageOf s 0, psn := 0, dstEp := b.srcEp, srcEp := b.dstEp, dstQpn := srcQpn, ctag := ctag
    plen := 0, msn := 0, rsv := 0 }
  { rh := localRh s (epAdapter b.srcEp) 1 false 0 false, bth := h, cph := none, data := [], icrc := 0
    ext := .aeth b.psn 2 0 0 0 0 0 0 b.psn 0 }

/-- NAK_WAIT for a packet that is not taken (R86, R122). -/
def nakWaitFor (n : Nat) (p : Packet) (s : State) : State :=
  if !canWait s n p then s
  else match p.ext with
    | .cmeh _ ctag srcQpn .. => inject (connectWait s p ctag srcQpn) s
    | _ => answer n 2 p.bth.psn s

/-- A packet for an existing QP meets its context: it waits in the arrival miss buffer while the context is fetched
(R86), and then goes on with `go`. -/
def withContext (n : Nat) (p : Packet) (go : State → State) (s : State) : State :=
  if restoring s then nakWaitFor n p s
  else if s.zrt.resident.contains n then go (makeCtx n s)
  else if 524288 < missBytes s + packetLen p then
    nakWaitFor n p (if canWait s n p then { s with zrt := { s.zrt with missFull := s.zrt.missFull + 1 } } else s)
  else { s with zrt := { s.zrt with
    missBuf := s.zrt.missBuf ++ [(n, p)]
    fetching := if s.zrt.fetching.contains n then s.zrt.fetching else s.zrt.fetching ++ [n] } }

/-- Any packet from an adapter shows that it is reachable: QPs toward it leave HOLD_WHY 2 (R255). -/
def noteArrival (src : BitVec 24) (s : State) : State :=
  if s.fab.unreach.contains src.toNat then
    let s := { s with fab := { s.fab with unreach := s.fab.unreach.filter (fun x => x ≠ src.toNat) } }
    (s.qps.map Prod.fst).foldl (fun s n =>
      if (getQp s n).holdWhy = 2 ∧ epAdapter (getQp s n).remoteEp = src then leaveHold n s else s) s
  else s

/-- Step 1 of R347 for every arriving packet: ICRC, then the header. -/
def arriveAs (mine : Packet → Bool) (go : Packet → State → State) (p : Packet) (s : State) : State :=
  if p.icrc ≠ icrcOf p then { s with zrt := { s.zrt with icrc := s.zrt.icrc + 1 } }
  else if !headerOk p then { s with zrt := { s.zrt with badHdr := s.zrt.badHdr + 1 } }
  else
    let s := noteArrival (epAdapter p.bth.srcEp) s
    if mine p then go p s else s

/-- A packet other than CONNECT, ACCEPT and REJECT and NAK_NO_CONN: its QP is the one DST_QPN names. -/
def toQp (p : Packet) (s : State) : State :=
  let n := p.bth.dstQpn.toNat
  if (getQp s n).st = .free then refuse p s
  else withContext n p (rxChecks n p) s

/-- The QP that a NAK_NO_CONN refers to (R456). -/
def noConnQp (s : State) (p : Packet) : Option Nat :=
  (s.qps.find? (fun x => decide (x.2.st ≠ .free ∧ x.2.remoteEp = p.bth.srcEp ∧ x.2.remoteQpn = p.bth.dstQpn ∧
    x.2.peerCtag = some p.bth.ctag))).map Prod.fst

/-- A NAK_NO_CONN is taken by the QP it matches, and discarded when it matches none (R456). -/
def toNoConn (p : Packet) (s : State) : State :=
  match noConnQp s p with
  | some n => rxAuth n p s
  | none => s

/-- A packet of one of the transport's types 3 to 6. -/
def isType (t : Nat) (p : Packet) : Bool := decide (p.bth.typ.toNat = t)
/-- An answer of a SYNDROME. -/
def isAnswer (syn : Nat) (p : Packet) : Bool := isType 7 p && decide (syndromeOf p.ext = some syn)

/-- Packets act while the fabric is up. -/
def onArrival (g : State → State) (s : State) : Host.Outcome State Fault Refusal := .next (when (fabricUp s) g s)

end Sys2Proof.Machine
end

