-- ==== Sys2Proof/Machine/Zrt.lean ====
section
/-!
DEFINITION. The commands of the transport: WRITE, READ, SEND, RECV, the QP command block (R87 to R91), CONNECT, ACCEPT
and REJECT, arriving packets, timers, rate periods and the calendar wheel (R131, R138), and NOROUTE (R255).
-/
namespace Sys2Proof.Machine

/-! ### Descriptors -/

/-- WRITE (R93 to R95). -/
def execWrite (f q : Nat) (s : State) : Host.Outcome State Fault Refusal := live (startTransfer f q 2) s
/-- READ (R93 to R95, R457). -/
def execRead (f q : Nat) (s : State) : Host.Outcome State Fault Refusal := live (startTransfer f q 3) s
/-- SEND (R93 to R96). -/
def execSend (f q : Nat) (s : State) : Host.Outcome State Fault Refusal := live (startTransfer f q 4) s

/-- The next descriptor of RQ q is posted: a send may fill it (R96, R111). FENCE, DEP0_EN and DEP1_EN of a RECV do not
act (DESIGN CHOICE, log entry 61). -/
def postRecv (f q : Nat) (s : State) : State :=
  match nextStart s f true q with
  | some i => settle f (modItem f true q i.idx (fun i => { i with started := true }) s)
  | none => s

/-- RECV (R111). -/
def execRecv (f q : Nat) (s : State) : Host.Outcome State Fault Refusal := live (postRecv f q) s

/-! ### The QP command block (R87, R88) -/

/-- QPNs in use. -/
def usedQpns (s : State) : List Nat := (s.qps.filter (fun x => x.2.st ≠ .free)).map Prod.fst

/-- CREATE's checks: 0 or the result (R88). -/
def createQpCode (s : State) (f : Nat) : Nat :=
  let x := (getF s f).zrt
  let a := x.attr
  if bit a 9 && !hasCip s then cUNIT_ABSENT
  else if 4 < fld a 12 10 ∨ 8 < fld a 19 16 ∨ 4 < fld a 52 50 ∨ !endpointOk (BitVec.ofNat 27 x.peer.toNat) ||
    (List.range 8).any (fun k => bit a (42 + k) && !(getSeg s f (fld x.segs (8 * k + 7) (8 * k))).valid) then cBAD_FIELD
  else if bit a 8 && (decide ((getQ s f true (fld a 7 0)).st ≠ .active) || (getQ s f true (fld a 7 0)).bound.isSome) then
    cRQ_BUSY
  else if (getF s f).aQp ≤ qpUse s f ∨ 1048576 ≤ (usedQpns s).length then cQP_NO_RESOURCE
  else 0

/-- A valid CREATE: QPN, CTAG and initial PSN drawn, RQ bound, the QP in INIT and in Mirror (R88, R96). -/
def makeQp (f : Nat) (s : State) : State :=
  let x := (getF s f).zrt
  let a := x.attr
  let n := nthFree (Config.pickQpn s.free % (1048576 - (usedQpns s).length)) (usedQpns s)
  let q : Qp := { st := .init, facet := f, localEp := endpointOf (ownId s) (fld a 52 50), localNo := n
                  remoteEp := BitVec.ofNat 27 x.peer.toNat, remoteQpn := cut 20 x.peer 32, attr := a, segs := x.segs
                  pmtuExp := fld a 12 10, winExp := fld a 19 16, ctag := Config.entropy s.free
                  initPsn := Config.entropy (s.free + 1), cip := { handed := Config.entropy (s.free + 1) } }
  let s := drew 2 { s with qps := aset n q s.qps, mirror := { s.mirror with qps := aset n {} s.mirror.qps } }
  let s := if bit a 8 then modQ f true (fld a 7 0) (fun y => { y with bound := some n }) s else s
  endQpc f n 0 (makeCtx n (modF f (fun y => { y with zrt := { y.zrt with qpn := BitVec.ofNat 20 n } }) s))

/-- CREATE once the entropy source has output (R88, R352): its checks, then the QP. -/
def createQp (f : Nat) (s : State) : State :=
  let c := createQpCode s f
  if c ≠ 0 then modF f (fun x => { x with zrt := { x.zrt with
    busy := false, waiting := false, state := 0, holdWhy := 0, result := BitVec.ofNat 16 c } }) s
  else if s.trust.ent ≠ 1 then modF f (fun x => { x with zrt := { x.zrt with busy := true, waiting := true } }) s
  else makeQp f s

/-- A QP command of facet f begins, unless one runs (R87). `late`: it is one that a RESETTING facet's page still
takes (R320). -/
def qpCommand (f : Nat) (late : Bool) (g : Nat → State → State) (s : State) : State :=
  let x := (getF s f).zrt
  if !(facetOn s f || (late && decide ((getF s f).st = .resetting))) || x.busy then s
  else g x.qpn.toNat (modF f (fun y => { y with zrt := { y.zrt with busy := true } }) s)

/-- The QP exists and belongs to facet f. -/
def ownsQp (s : State) (f n : Nat) : Bool := decide ((getQp s n).st ≠ .free ∧ (getQp s n).facet = f)

/-- A CONNECT, ACCEPT or REJECT of QP q with a CTAG (R97). -/
def cmPacket (s : State) (q : Qp) (typ : Nat) (ctag : U32) : Packet :=
  qpPacket s q { qpBth s q typ 0 0 with ctag := ctag }
    (.cmeh q.initPsn q.ctag (BitVec.ofNat 20 q.localNo) q.rqEn q.cipher (BitVec.ofNat 3 (fld q.attr 12 10))
      (BitVec.ofNat 4 (fld q.attr 19 16)) 0 0 0) false []

/-- QP n sends CONNECT; the send counts toward the limit (R91). -/
def sendConnect (n : Nat) (s : State) : State :=
  let s := modQp n (fun q => { q with req := { q.req with conSends := q.req.conSends + 1, conAt := s.now } }) s
  inject (cmPacket s (getQp s n) 0 0) s

/-- CONNECT (R91). -/
def connectQp (f n : Nat) (s : State) : State :=
  if ownsQp s f n && decide ((getQp s n).st = .init) then
    sendConnect n (modF f (fun x => { x with zrt := { x.zrt with conn := some n } })
      (modQp n (fun q => { q with st := .connecting, req := { q.req with conSends := 0 } }) s))
  else endQpc f n cBAD_STATE s

/-- Accepted descriptors of facet f that name QP n and have not completed are FLUSHED (R91). -/
def flushNamed (f n : Nat) (s : State) : State :=
  (getF s f).que.sqs.foldl (fun s x => x.2.items.foldl (fun s i =>
    if i.done.isNone && decide (2 ≤ Desc.op i.desc ∧ Desc.op i.desc ≤ 4) && decide (trQpn i.desc = n) &&
      (earlyCheck f false x.1 i).isNone then completeItem f x.1 i.idx (stat cFLUSHED) s else s) s) s

/-- QP n stops sending and drains (R91). -/
def drainQp (f n : Nat) (s : State) : State :=
  let s := failQp n (fun _ => stat cFLUSHED) s
  let s := modQp n (fun q => { q with st := .draining, rsp := { q.rsp with owed := [] } }) s
  settle f (flushNamed f n s)

/-- DESTROY (R87, R91). -/
def destroyQp (f n : Nat) (s : State) : State :=
  if !ownsQp s f n then endQpc f n cBAD_STATE s else tryFreeQp n (endQpc f n 0 (drainQp f n s))

/-- QUERY (R89): the QPC registers take the QP's values. -/
def queryQp (f n : Nat) (s : State) : State :=
  if !ownsQp s f n then endQpc f n cBAD_STATE s
  else
    let q := getQp s n
    let attr := BitVec.ofNat 64 (q.attr.toNat - fld q.attr 12 10 * 2 ^ 10 - fld q.attr 19 16 * 2 ^ 16 +
      q.pmtuExp * 2 ^ 10 + q.winExp * 2 ^ 16)
    endQpc f n 0 (modF f (fun x => { x with zrt := { x.zrt with
      peer := BitVec.ofNat 64 (q.remoteEp.toNat + q.remoteQpn.toNat * 2 ^ 32), attr := attr, segs := q.segs
      info := BitVec.ofNat 64 (q.req.ack.toNat + q.req.next.toNat * 2 ^ 32) } }) s)

/-- QP_CREATE (R88). -/
def execQpCreate (f : Nat) (s : State) : Host.Outcome State Fault Refusal := live (qpCommand f false (fun _ => createQp f)) s
/-- QP_CONNECT (R91). -/
def execQpConnect (f : Nat) (s : State) : Host.Outcome State Fault Refusal := live (qpCommand f false (connectQp f)) s
/-- QP_DESTROY (R91). -/
def execQpDestroy (f : Nat) (s : State) : Host.Outcome State Fault Refusal := live (qpCommand f true (destroyQp f)) s
/-- QP_QUERY (R89). -/
def execQpQuery (f : Nat) (s : State) : Host.Outcome State Fault Refusal := live (qpCommand f true (queryQp f)) s

/-! ### CONNECT, ACCEPT and REJECT (R89 to R91) -/

/-- The largest PMTU_EXP that an Ethernet frame holds (R369). -/
def ethPmtuExp (s : State) (cipher : Bool) : Nat :=
  let room := ethMtu s - (if ethV6 s then 40 else 20) - 8 - 32 - 24 - 4 - (if cipher then 24 else 0)
  ((List.range 5).filter (fun k => decide (256 * 2 ^ k ≤ room))).foldl max 0

/-- The peer's CTAG, initial PSN and attributes are recorded, the parameters settled (R89). -/
def recordPeer (n : Nat) (psn ctag : U32) (rqEn : Bool) (pmtu win : Nat) (s : State) : State :=
  let far := decide (podOf (epAdapter (getQp s n).remoteEp) ≠ podOf (ownId s))
  let s := modQp n (fun q =>
    let e := min (fld q.attr 12 10) pmtu
    { q with
      peerCtag := some ctag, peerRq := rqEn, winExp := min (fld q.attr 19 16) win
      pmtuExp := if far then min e (ethPmtuExp s q.cipher) else e
      rsp := { q.rsp with e := psn } }) s
  modMir n (fun m => { m with e := psn }) s

/-- QP n enters RTS: sequence numbers at their initial values, R0 at the RQ's H, its rate at the start (R91, R96, R119,
R131). -/
def enterRts (n : Nat) (s : State) : State :=
  let q := getQp s n
  let line := lineRate s (epAdapter q.remoteEp) q.single
  let s := modQp n (fun q => { q with
    st := .rts, rate := rateAtRts s line (getF s q.facet).rate.profile.toNat
    req := { q.req with next := q.initPsn, ack := q.initPsn, hi := q.initPsn, msn := 0, sendNo := 0, timer := s.now }
    rsp := { q.rsp with r0 := if q.rqEn then (getQ s q.facet true q.rq).head else 0 } }) s
  modMir n (fun m => { m with ack := q.initPsn, next := q.initPsn, scomp := 0, trunc := 0 }) s

/-- A REJECT of a CONNECT (R90, R97). -/
def rejectPacket (s : State) (p : Packet) (psn ctag : U32) (srcQpn : BitVec 20) (reason : Nat) : Packet :=
  let b : Bth := { p.bth with
    ver := 1, typ := 2, first := false, last := false, ackreq := false, ce := false, ciph := false, resent := false
    imm := false, lineage := lineageOf s 0, psn := 0, dstEp := p.bth.srcEp, srcEp := p.bth.dstEp, dstQpn := srcQpn
    plen := 0, ctag := ctag, msn := 0, rsv := 0 }
  { rh := localRh s (epAdapter p.bth.srcEp) 1 false 0 false, bth := b, cph := none, data := [], icrc := 0
    ext := .cmeh psn 0 p.bth.dstQpn false false 0 0 0 (BitVec.ofNat 8 reason) 0 }

/-- QP n answers a matching CONNECT with ACCEPT (R91). -/
def sendAccept (n : Nat) (s : State) : State :=
  let q := getQp s n
  inject (cmPacket s q 1 (q.peerCtag.getD 0)) s

/-- A CONNECT for an existing QP (R89 to R91). One whose CIPHER differs is refused with UNIT_ABSENT where it asks for the
engine and this part has none, with MISMATCH otherwise: no field tells what units the asker has (DESIGN CHOICE, log entry
69). -/
def takeConnect (n : Nat) (p : Packet) (s : State) : State :=
  match p.ext with
  | .cmeh psn ctag srcQpn rqEn cipher pmtu win _ _ _ =>
    let q := getQp s n
    let no := fun (r : Nat) => inject (rejectPacket s p 0 ctag srcQpn r) s
    if q.st ≠ .init ∧ q.st ≠ .connecting ∧ q.st ≠ .rts then no 1
    else if p.bth.srcEp ≠ q.remoteEp ∨ srcQpn ≠ q.remoteQpn then no 2
    else if q.st = .rts then (if q.peerCtag = some ctag then sendAccept n s else s)
    else if cipher ≠ q.cipher then no (if cipher && !hasCip s then 3 else 2)
    else
      let s := recordPeer n psn ctag rqEn pmtu.toNat win.toNat s
      sendAccept n (if q.st = .init then enterRts n s else s)
  | _ => s

/-- A packet for a free QPN (R90, R92): REJECT NOT_READY to a CONNECT, NAK_NO_CONN to what may be answered. -/
def freeQpn (p : Packet) (s : State) : State :=
  match p.ext with
  | .cmeh _ ctag srcQpn .. => if p.bth.typ = 0 then inject (rejectPacket s p 0 ctag srcQpn 1) s else s
  | _ => refuse p s

/-- A CONNECT arrives (R90). -/
def onConnect (p : Packet) (s : State) : State :=
  let n := p.bth.dstQpn.toNat
  if (getQp s n).st = .free then freeQpn p s else withContext n p (takeConnect n p) s

/-- A QP in CONNECTING matches an ACCEPT or REJECT by its far endpoint and QPN. -/
def awaits (s : State) (n : Nat) (p : Packet) (srcQpn : BitVec 20) : Bool :=
  let q := getQp s n
  decide (q.st = .connecting ∧ p.bth.srcEp = q.remoteEp ∧ srcQpn = q.remoteQpn)

/-- An ACCEPT for an existing QP (R91). -/
def takeAccept (n : Nat) (p : Packet) (s : State) : State :=
  match p.ext with
  | .cmeh psn ctag srcQpn rqEn _ pmtu win _ _ _ =>
    if awaits s n p srcQpn then endConnect n 0 (enterRts n (recordPeer n psn ctag rqEn pmtu.toNat win.toNat s)) else s
  | _ => s

/-- QP n fails to connect (R91). -/
def connectFail (n code : Nat) (s : State) : State := endConnect n code (modQp n (fun q => { q with st := .error }) s)

/-- CONNECT again, or CONNECT_TIMEOUT at the send limit of 16 × (RETRY_LIM + 1) (R91). -/
def connectAgain (n : Nat) (s : State) : State :=
  let q := getQp s n
  if q.req.conSends < 16 * (q.retryLim + 1) then sendConnect n s else connectFail n cCONNECT_TIMEOUT s

/-- A REJECT for an existing QP (R91). -/
def takeReject (n : Nat) (p : Packet) (s : State) : State :=
  match p.ext with
  | .cmeh _ _ srcQpn _ _ _ _ _ reason _ =>
    if !awaits s n p srcQpn then s
    else match reason.toNat with
      | 1 => connectAgain n s
      | 3 => connectFail n cUNIT_ABSENT s
      | _ => connectFail n cCONNECT_REJECTED s
  | _ => s

/-- An ACCEPT or REJECT for the QP that DST_QPN names; it gets no answer (R456). -/
def onCm (go : Nat → Packet → State → State) (p : Packet) (s : State) : State :=
  let n := p.bth.dstQpn.toNat
  if (getQp s n).st = .free then s else withContext n p (go n p) s

/-- CONNECT (R90). -/
def execConnect (p : Packet) (s : State) : Host.Outcome State Fault Refusal := onArrival (arriveAs (isType 0) onConnect p) s
/-- ACCEPT (R91). -/
def execAccept (p : Packet) (s : State) : Host.Outcome State Fault Refusal :=
  onArrival (arriveAs (isType 1) (onCm takeAccept) p) s
/-- REJECT (R91). -/
def execReject (p : Packet) (s : State) : Host.Outcome State Fault Refusal :=
  onArrival (arriveAs (isType 2) (onCm takeReject) p) s

/-- CONNECT_RETRY (R91). -/
def execConnectRetry (n : Nat) (s : State) : Host.Outcome State Fault Refusal :=
  live (fun s => when (decide ((getQp s n).st = .connecting) && elapsed s (getQp s n).req.conAt (getQp s n).interval)
    (connectAgain n) s) s

/-! ### Arriving packets -/

/-- WRITE_PACKET (R98, R104). -/
def execWritePacket (p : Packet) (s : State) : Host.Outcome State Fault Refusal := onArrival (arriveAs (isType 3) toQp p) s
/-- SEND_PACKET (R104, R111). -/
def execSendPacket (p : Packet) (s : State) : Host.Outcome State Fault Refusal := onArrival (arriveAs (isType 4) toQp p) s
/-- READ_REQ (R457). -/
def execReadReq (p : Packet) (s : State) : Host.Outcome State Fault Refusal := onArrival (arriveAs (isType 5) toQp p) s
/-- READ_RESP (R457). -/
def execReadResp (p : Packet) (s : State) : Host.Outcome State Fault Refusal := onArrival (arriveAs (isType 6) toQp p) s
/-- ACK (R112). -/
def execAck (p : Packet) (s : State) : Host.Outcome State Fault Refusal := onArrival (arriveAs (isAnswer 0) toQp p) s
/-- NAK_RNR (R117). -/
def execNakRnr (p : Packet) (s : State) : Host.Outcome State Fault Refusal := onArrival (arriveAs (isAnswer 1) toQp p) s
/-- NAK_WAIT (R112). -/
def execNakWait (p : Packet) (s : State) : Host.Outcome State Fault Refusal := onArrival (arriveAs (isAnswer 2) toQp p) s
/-- NAK_HOLD (R91). -/
def execNakHold (p : Packet) (s : State) : Host.Outcome State Fault Refusal := onArrival (arriveAs (isAnswer 3) toQp p) s
/-- HOLD_CLEAR (R91). -/
def execHoldClear (p : Packet) (s : State) : Host.Outcome State Fault Refusal := onArrival (arriveAs (isAnswer 4) toQp p) s
/-- NAK_ACCESS (R91). -/
def execNakAccess (p : Packet) (s : State) : Host.Outcome State Fault Refusal := onArrival (arriveAs (isAnswer 5) toQp p) s
/-- NAK_NO_CONN (R456). -/
def execNakNoConn (p : Packet) (s : State) : Host.Outcome State Fault Refusal := onArrival (arriveAs (isAnswer 6) toNoConn p) s

/-- A packet that waited in the arrival miss buffer goes on by its type (R86). -/
def goOnPacket (n : Nat) (p : Packet) (s : State) : State :=
  match p.bth.typ.toNat with
  | 0 => takeConnect n p s
  | 1 => takeAccept n p s
  | 2 => takeReject n p s
  | _ => rxChecks n p s

/-- The packets that waited for a context proceed in arrival order (R86). -/
def contextDone (n : Nat) (s : State) : State :=
  if !s.zrt.fetching.contains n then s
  else
    let l := s.zrt.missBuf.filter (fun x => x.1 = n)
    let s := makeCtx n { s with zrt := { s.zrt with
      missBuf := s.zrt.missBuf.filter (fun x => x.1 ≠ n), fetching := s.zrt.fetching.filter (fun x => x ≠ n) } }
    tryFreeQp n (l.foldl (fun s x => if (getQp s n).st = .free then freeQpn x.2 s else goOnPacket n x.2 s) s)

/-- PACKET_SEND (R102, R140). -/
def execPacketSend (n : Nat) (s : State) : Host.Outcome State Fault Refusal := live (packetSend n) s

/-! ### Timers -/

/-- RESEND_TIMEOUT (R113). -/
def execResendTimeout (n : Nat) (s : State) : Host.Outcome State Fault Refusal := live (resendTimeout n) s
/-- RNR_BACKOFF_END (R117). -/
def execRnrBackoffEnd (n : Nat) (s : State) : Host.Outcome State Fault Refusal := live (rnrEnd n) s
/-- NAK_WAIT_RESEND (R112). -/
def execNakWaitResend (n : Nat) (s : State) : Host.Outcome State Fault Refusal := live (waitResend n) s
/-- HOLD_RESEND (R116). -/
def execHoldResend (n : Nat) (s : State) : Host.Outcome State Fault Refusal := live (holdResend n) s
/-- HOLD_LIMIT (R116). -/
def execHoldLimit (n : Nat) (s : State) : Host.Outcome State Fault Refusal := live (holdLimitEnd n) s

/-- RATE_PERIOD (R131). -/
def execRatePeriod (n : Nat) (s : State) : Host.Outcome State Fault Refusal :=
  live (fun s => when ((getQp s n).connected && ccEn s (getQp s n).rate.profile &&
      elapsed s (getQp s n).rate.tInc (ratePeriod s (getQp s n).rate.profile))
    (modQp n (fun q => { q with rate := rateStep s q.rate })) s) s

/-- on_slot of R138 for one facet: one of the slot is released or keeps to its lap. -/
def slotFacet (s : State) (f : Nat) : State :=
  let x := (getF s f).rate
  if x.slot ≠ some (s.wheel % 1024) then s
  else if x.laps = 0 then modF f (fun y => { y with rate := { y.rate with slot := none } }) s
  else modF f (fun y => { y with rate := { y.rate with laps := y.rate.laps - 1 } }) s

/-- The wheel reaches its next slot, 64 ns after the last (R138). -/
def wheelStep (s : State) : State :=
  if (s.wheel + 1) * 16 ≤ s.now.toNat then
    let s := { s with wheel := s.wheel + 1 }
    takeTurns ((s.facets.map Prod.fst).foldl slotFacet s)
  else s

/-- WHEEL_SLOT (R138). -/
def execWheelSlot (s : State) : Host.Outcome State Fault Refusal := live wheelStep s

/-! ### NOROUTE (R255) -/

/-- An adapter becomes unreachable: QPs toward it enter HOLD with HOLD_WHY 2 (R91, R255). -/
def unreachable (a : BitVec 24) (s : State) : State :=
  let s := { s with fab := { s.fab with
    unreach := if s.fab.unreach.contains a.toNat then s.fab.unreach else s.fab.unreach ++ [a.toNat] } }
  (s.qps.map Prod.fst).foldl (fun s n => if epAdapter (getQp s n).remoteEp = a then enterHold n 2 s else s) s

/-- A NOROUTE notice: the gateway it names is shunned where GW1 stands in for it, or its adapter is unreachable. -/
def takeNoroute (m : Notice) (s : State) : State :=
  let a : BitVec 24 := cut 24 m.w1 13
  let pod := podOf a
  let e := reg s (0xE200 + 8 * pod)
  if fld m.w0 3 0 ≠ 1 then s
  else if bit m.w1 12 && bit e 25 && bit e 24 && decide (fld e 11 0 = fld m.w1 11 0) then
    { s with fab := { s.fab with shun := aset pod s.now s.fab.shun } }
  else unreachable a s

/-- NOROUTE (R255). -/
def execNoroute (m : Notice) (s : State) : Host.Outcome State Fault Refusal := .next (when (fabricUp s) (takeNoroute m) s)

end Sys2Proof.Machine
end

