-- ==== Sys2Proof/Machine/Cipher.lean ====
section
/-!
DEFINITION. The cipher engine's commands and the trust unit's (12_cipher_and_trust.md): keys, compatibility
commands, jobs that end, the entropy source, measurements, reports and the certificate.
-/
namespace Sys2Proof.Machine

/-! ### Keys (R337 to R339) -/

def ktKind (x : FacetCip) : Nat := fld x.target 1 0
def ktQpn (x : FacetCip) : Nat := fld x.target 21 2
/-- DIR of CIP_KEY_TARGET: receive. -/
def ktRx (x : FacetCip) : Bool := bit x.target 22
def ktPhase (x : FacetCip) : Bool := bit x.target 23
def ktSlot (x : FacetCip) : Nat := fld x.target 25 24
def ktLong (x : FacetCip) : Bool := bit x.target 26

/-- The key that CIP_KEY_DATA and CIP_KEY_SALT hold (R360). -/
def keyOfRegs (x : FacetCip) : Key :=
  let bs := (List.range 4).flatMap (fun w => toLE 8 (aget 0 w x.data).toNat)
  { long := ktLong x, salt := x.salt
    key := BitVec.ofNat 256 (ofBE (if ktLong x then bs else bs.take 16 ++ List.replicate 16 0)) }

/-- A key command ends: RESULT and REASON are set, CIP_KEY_DATA and CIP_KEY_SALT cleared (R337). -/
def keyEnd (f code reason : Nat) (s : State) : State :=
  modF f (fun y => { y with cip := { y.cip with
    keyOp := 0, keyReason := BitVec.ofNat 4 reason, keyResult := BitVec.ofNat 16 code, data := [], salt := 0 } }) s

/-- Checks 1 to 3 of R338 on the target QP: 0, or the REASON. -/
def keyQpReason (s : State) (f : Nat) (x : FacetCip) : Nat :=
  let q := getQp s (ktQpn x)
  if q.st = .free ∨ q.facet ≠ f then 1
  else if ¬ q.cipher then 2
  else if q.st = .error ∨ q.st = .draining then 3
  else 0

/-- Check 4: the target is the current transmit phase, and it holds a key. -/
def keyCurrent (s : State) (x : FacetCip) : Bool :=
  let c := (getQp s (ktQpn x)).cip
  !ktRx x && decide (ktPhase x = c.phase) && (c.keyOf true c.phase).isSome

/-- A running compatibility command uses the slot (IN_USE 7). -/
def slotUsed (x : FacetCip) : Bool := match x.run with | some r => decide (r.slot = ktSlot x) | none => false

/-- A key of a QP set or erased. -/
def setQpKey (x : FacetCip) (k : Option Key) (c : QpCip) : QpCip :=
  if ktRx x then (if ktPhase x then { c with rx1 := k } else { c with rx0 := k })
  else if ktPhase x then { c with tx1 := k } else { c with tx0 := k }

/-- LOAD and CLEAR (R338): `k` is the key, or none. -/
def keySet (f : Nat) (k : Option Key) (s : State) : State :=
  let x := (getF s f).cip
  if ktKind x = 2 then
    if slotUsed x then keyEnd f cIN_USE 7 s
    else keyEnd f 0 0 (modF f (fun y => { y with cip := { y.cip with
      slots := match k with | some k => aset (ktSlot x) k y.cip.slots | none => adel (ktSlot x) y.cip.slots } }) s)
  else if ktKind x = 1 then
    let r := keyQpReason s f x
    if r ≠ 0 then keyEnd f cBAD_FIELD r s
    else if k.isSome ∧ ¬ ktLong x then keyEnd f cBAD_FIELD 6 s
    else if keyCurrent s x then keyEnd f cBAD_FIELD 4 s
    else cipGo (ktQpn x) (keyEnd f 0 0 (modQp (ktQpn x) (fun q => { q with cip := setQpKey x k q.cip }) s))
  else keyEnd f cBAD_FIELD 1 s

/-- The transmit phase of QP n becomes p. A packet handed to the engine in this very cycle uses it too, and its job, if it
has begun, the phase's key (R339). -/
def newPhase (n : Nat) (p : Bool) (s : State) : State :=
  let s := modQp n (fun q => { q with cip := { q.cip with phase := p } }) s
  let now := fun (id : Nat) => s.cip.flow.any (fun e => decide (e.id = id ∧ e.qpn = n ∧ e.at_ = s.now) && e.tx)
  let job : Job → Job := fun j => match j with
    | .packet id m u true x => if now id then
        .packet id m u true { x with cph := x.cph.map (fun c => { c with kphase := p }) } else j
    | j => j
  let run : Run → Run := fun r => if job r.job = r.job then r else { r with job := job r.job, key := jobKey s (job r.job) }
  { s with cip := { s.cip with
    qU := s.cip.qU.map job, qTx := s.cip.qTx.map job
    cores := amap (fun _ c => { c with run := c.run.map run, suspended := c.suspended.map run }) s.cip.cores } }

/-- SWITCH (R338); its target is a QP. -/
def keySwitch (f : Nat) (s : State) : State :=
  let x := (getF s f).cip
  if ktKind x ≠ 1 then keyEnd f cBAD_FIELD 1 s
  else
    let r := keyQpReason s f x
    if r ≠ 0 then keyEnd f cBAD_FIELD r s
    else if ((getQp s (ktQpn x)).cip.keyOf true (ktPhase x)).isNone then keyEnd f cBAD_FIELD 5 s
    else cipGo (ktQpn x) (keyEnd f 0 0 (newPhase (ktQpn x) (ktPhase x) s))

/-- QUERY (R338): CIP_KEY_INFO. A slot has no transmit or receive phases; a query of one shows them as zero. -/
def keyQuery (f : Nat) (s : State) : State :=
  let x := (getF s f).cip
  let q := getQp s (ktQpn x)
  if ktKind x ≠ 1 ∧ ktKind x ≠ 2 ∨ ktKind x = 1 ∧ (q.st = .free ∨ q.facet ≠ f) then keyEnd f cBAD_FIELD 1 s
  else
    let c := if ktKind x = 1 then q.cip else {}
    let v := b2n c.tx0.isSome + b2n c.tx1.isSome * 2 + b2n c.rx0.isSome * 4 + b2n c.rx1.isSome * 8 + b2n c.phase * 16 +
      ofBits (x.slots.map Prod.fst) * 256
    keyEnd f 0 0 (modF f (fun y => { y with cip := { y.cip with info := BitVec.ofNat 64 v } }) s)

/-- What a key operation does. -/
def keyRun (f op : Nat) (s : State) : State :=
  match op with
  | 1 => keySet f (some (keyOfRegs (getF s f).cip)) s
  | 2 => keySet f none s
  | 3 => keySwitch f s
  | _ => keyQuery f s

/-- The keys of the target lie in a QP's context that is not on chip (R85, R341). -/
def keyAway (s : State) (f : Nat) : Bool :=
  let x := (getF s f).cip
  let q := getQp s (ktQpn x)
  decide (ktKind x = 1 ∧ q.st ≠ .free ∧ q.facet = f) && !s.zrt.resident.contains (ktQpn x)

/-- A key command: it runs at once, or BUSY, once the context of its QP has been fetched. -/
def keyCommand (f op : Nat) (s : State) : State :=
  let n := ktQpn (getF s f).cip
  if (getF s f).cip.keyOp ≠ 0 then s
  else if !keyAway s f then keyRun f op s
  else modF f (fun x => { x with cip := { x.cip with keyOp := op } }) { s with zrt := { s.zrt with
    fetching := if s.zrt.fetching.contains n then s.zrt.fetching else s.zrt.fetching ++ [n] } }

/-- The key commands that waited for the context of QP n run. -/
def keysGo (n : Nat) (s : State) : State :=
  (s.facets.map Prod.fst).foldl (fun s f =>
    let x := (getF s f).cip
    if x.keyOp ≠ 0 ∧ ktKind x = 1 ∧ ktQpn x = n then keyRun f x.keyOp s else s) s

/-- CONTEXT_FETCH_DONE (R86): what waited for the context goes on. -/
def execContextFetchDone (n : Nat) (s : State) : Host.Outcome State Fault Refusal :=
  onArrival (fun s => keysGo n (contextDone n s)) s

/-- A command of a block of the cipher engine: the part has one and the facet is ON. -/
def cipCommand (f : Nat) (g : State → State) (s : State) : Host.Outcome State Fault Refusal :=
  live (fun s => when (hasCip s && facetOn s f) g s) s

/-- CIP_KEY_LOAD (R338). -/
def execCipKeyLoad (f : Nat) (s : State) : Host.Outcome State Fault Refusal := cipCommand f (keyCommand f 1) s
/-- CIP_KEY_CLEAR (R338). -/
def execCipKeyClear (f : Nat) (s : State) : Host.Outcome State Fault Refusal := cipCommand f (keyCommand f 2) s
/-- CIP_KEY_SWITCH (R338). -/
def execCipKeySwitch (f : Nat) (s : State) : Host.Outcome State Fault Refusal := cipCommand f (keyCommand f 3) s
/-- CIP_KEY_QUERY (R338). -/
def execCipKeyQuery (f : Nat) (s : State) : Host.Outcome State Fault Refusal := cipCommand f (keyCommand f 4) s

/-! ### Compatibility commands (R349, R350) -/

/-- Blocks of 16 bytes, the first byte highest. -/
def blocksOf (bs : Bytes) : List (BitVec 128) := (chunksOf 16 bs).map (fun c => BitVec.ofNat 128 (ofBE (padTo 16 c)))

/-- CBC encryption of blocks from a chaining block. -/
def cbcEnc (k : Key) : BitVec 128 → List (BitVec 128) → List (BitVec 128)
  | _, [] => []
  | c, b :: r => let e := Config.aesEncrypt k.long k.key (b ^^^ c); e :: cbcEnc k e r

/-- CBC decryption of blocks from a chaining block. -/
def cbcDec (k : Key) : BitVec 128 → List (BitVec 128) → List (BitVec 128)
  | _, [] => []
  | c, b :: r => (Config.aesDecrypt k.long k.key b ^^^ c) :: cbcDec k b r

/-- CTR on parts of at most 16 bytes: the leading bytes of each keystream block (R350). -/
def ctrBytes (k : Key) : BitVec 128 → List Bytes → Bytes
  | _, [] => []
  | c, b :: r => (b.zip (toBE 16 (Config.aesEncrypt k.long k.key c).toNat)).map (fun (x, y) => x ^^^ y) ++ ctrBytes k (c + 1) r

/-- The bytes of blocks. -/
def blockBytes (l : List (BitVec 128)) : Bytes := l.flatMap (fun b => toBE 16 b.toNat)

/-- What CBC encryption appends to the last bytes of a source of `len` bytes (R350). -/
def cbcPad (pad len : Nat) : Bytes :=
  let n := 16 - len % 16
  match pad with
  | 0 => List.replicate n (BitVec.ofNat 8 n)
  | 1 => if len % 16 = 0 then [] else List.replicate n 0
  | _ => []

/-- PKCS#7: the pad's length if the last block's last bytes are a pad. -/
def padLen (bs : Bytes) : Option Nat :=
  let n := (bs.getLastD 0).toNat
  if 1 ≤ n ∧ n ≤ 16 ∧ (bs.drop (bs.length - n)).all (fun b => decide (b.toNat = n)) then some n else none

/-- A LEN that R350 does not allow. -/
def cmpLenBad (op pad len : Nat) : Bool :=
  match op, pad with
  | 1, 2 => decide (len % 16 ≠ 0)
  | 2, 0 => decide (len = 0 ∨ len % 16 ≠ 0)
  | 2, _ => decide (len % 16 ≠ 0)
  | _, _ => false

/-- The longest output of a command (R350); a PKCS#7 decryption removes at least one byte. -/
def cmpOutMax (op pad len : Nat) : Nat :=
  match op, pad with
  | 1, p => len + (cbcPad p len).length
  | 2, 0 => len - 1
  | _, _ => len

/-- A segment that is valid and has PIN. -/
def hasPin (s : State) (f n : Nat) : Bool := (getSeg s f n).valid && (getSeg s f n).pin

/-- The command ends with a result. -/
def cmpEnd (f code reason : Nat) (s : State) : State :=
  let gone := fun (r : Option Run) => match r.map Run.job with
    | some (.piece g) => if g = f then none else r
    | _ => r
  let s := { s with cip := { s.cip with cores := amap (fun _ c => { c with
    run := gone c.run, suspended := gone c.suspended }) s.cip.cores } }
  schedule (modF f (fun y => { y with cip := { y.cip with
    cmpBusy := false, cmpReason := BitVec.ofNat 4 reason, cmpResult := BitVec.ofNat 16 code, run := none } }) s)

/-- The source and destination of facet f's command lie behind port k. -/
def cmpOnPort (s : State) (f k : Nat) : Bool :=
  let x := (getF s f).cip
  x.run.isSome && (decide (pinKey s f (fld x.cmpSegs 7 0) x.cmpSoff = k) || decide (pinKey s f (fld x.cmpSegs 15 8) x.cmpDoff = k))

/-- A port read error, or a port that goes down under the command (R349). -/
def cmpPortError (f : Nat) (s : State) : State := if (getF s f).cip.run.isSome then cmpEnd f cPORT_ERROR 6 s else s

/-- The command has moved every byte: OUTLEN and CIP_CMP_IV are set (R350). -/
def cmpDone (f code reason out : Nat) (iv : BitVec 128) (s : State) : State :=
  cmpEnd f code reason (modF f (fun y => { y with cip := { y.cip with iv := iv, outLen := BitVec.ofNat 64 out } }) s)

/-- A port that a command would use is not released to its facet. -/
def cmpHeld (s : State) (f : Nat) : Bool :=
  let x := (getF s f).cip
  !(released s f (pinKey s f (fld x.cmpSegs 7 0) x.cmpSoff) && released s f (pinKey s f (fld x.cmpSegs 15 8) x.cmpDoff))

/-- A compatibility command begins (R349). -/
def cmpStart (f op : Nat) (v : U32) (s : State) : State :=
  let x := (getF s f).cip
  let pad := fld v 3 2
  let slot := fld v 5 4
  let len := x.cmpLen.toNat
  let out := cmpOutMax op pad len
  let no := fun (code reason : Nat) => modF f (fun y => { y with cip := { y.cip with
    cmpReason := BitVec.ofNat 4 reason, cmpResult := BitVec.ofNat 16 code } }) s
  if x.cmpBusy then s
  else if (agetq slot x.slots).isNone then no cBAD_FIELD 1
  else if op ≠ 3 ∧ pad = 3 then no cBAD_FIELD 5
  else if cmpLenBad op pad len then no cBAD_FIELD 3
  else if !hasPin s f (fld x.cmpSegs 7 0) || !hasPin s f (fld x.cmpSegs 15 8) then no cBAD_FIELD 2
  else if !rangeCheck s f (fld x.cmpSegs 7 0) x.cmpSoff len .lrd none ||
    !rangeCheck s f (fld x.cmpSegs 15 8) x.cmpDoff out .lwr none then no cACCESS_DENIED 2
  else if len = 0 ∧ out = 0 then cmpDone f 0 0 0 x.iv s
  else if cmpHeld s f then no cPORT_ERROR 6
  else schedule (modF f (fun y => { y with cip := { y.cip with
    cmpBusy := true, run := some { op := op, pad := pad, slot := slot, len := len, chain := x.iv } } }) s)

/-- CBC_ENCRYPT (R350). -/
def execCbcEncrypt (f : Nat) (v : U32) (s : State) : Host.Outcome State Fault Refusal := cipCommand f (cmpStart f 1 v) s
/-- CBC_DECRYPT (R350). -/
def execCbcDecrypt (f : Nat) (v : U32) (s : State) : Host.Outcome State Fault Refusal := cipCommand f (cmpStart f 2 v) s
/-- CTR (R350). -/
def execCtr (f : Nat) (v : U32) (s : State) : Host.Outcome State Fault Refusal := cipCommand f (cmpStart f 3 v) s

/-- What one piece gives: the bytes it writes and the block the next piece chains from; `more`: pieces follow. -/
def pieceResult (r : CmpRun) (k : Key) (bs : Bytes) (more : Bool) : Bytes × BitVec 128 :=
  match r.op with
  | 1 =>
    let l := cbcEnc k r.chain (blocksOf (bs ++ if more then [] else cbcPad r.pad r.len))
    (blockBytes l, l.getLastD r.chain)
  | 2 =>
    let l := blocksOf bs
    (blockBytes (cbcDec k r.chain l), l.getLastD r.chain)
  | _ => (ctrBytes k r.chain (chunksOf 16 bs), r.chain + BitVec.ofNat 128 (ceilDiv bs.length 16))

/-- The core ends a piece of facet f's command: its bytes are written, and the command ends with its last piece. -/
def pieceDone (f : Nat) (k : Option Key) (bytes : Bytes) (s : State) : State :=
  let x := (getF s f).cip
  match x.run, k with
  | some r, some k =>
    let n := pieceLen r
    let dseg := fld x.cmpSegs 15 8
    let (t, a) := pinPlace s f (fld x.cmpSegs 7 0) (x.cmpSoff + BitVec.ofNat 64 r.pos)
    let bs := gather [(t, a, n)] bytes s.mem
    let more := decide (r.pos + n < r.len)
    let (o, c) := pieceResult r k bs more
    let put := fun (o : Bytes) (s : State) => if o = [] then s else
      postPin f dseg (x.cmpDoff + BitVec.ofNat 64 r.pos) .other o s
    let s := { s with cip := { s.cip with bytes := s.cip.bytes + BitVec.ofNat 64 n } }
    if more then schedule (modF f (fun y => { y with cip := { y.cip with
      run := some { r with pos := r.pos + n, chain := c } } }) (put o s))
    else if r.op = 2 ∧ r.pad = 0 then
      match padLen o with
      | some m => cmpDone f 0 0 (r.len - m) c (put (o.take (n - m)) s)
      | none => cmpDone f cBAD_FIELD 4 (r.len - 16) c (put (o.take (n - 16)) s)
    else cmpDone f 0 0 (r.pos + o.length) c (put o s)
  | _, _ => s

/-! ### Jobs that end (R333 to R336, R347) -/

/-- The packets that QP n's engine path may hand on in order; `fuel` bounds them. -/
def engineOut : Nat → Nat → Bool → State → State
  | 0, _, _, s => s
  | m + 1, n, tx, s =>
    match s.cip.flow.find? (fun e => decide (e.qpn = n ∧ e.tx = tx)) with
    | none => s
    | some e => match e.out with
      | none => s
      | some p =>
        let s := { s with cip := { s.cip with flow := s.cip.flow.filter (fun y => decide (y.id ≠ e.id)) } }
        let s := if tx then inject p s else if (getQp s n).st = .free then s else rxTake n p s
        engineOut m n tx s

/-- A packet leaves the engine's order without being handed on. -/
def engineDrop (id : Nat) (s : State) : State :=
  { s with cip := { s.cip with flow := s.cip.flow.filter (fun y => decide (y.id ≠ id)) } }

/-- A packet's job ends: enciphered, or authenticated and deciphered. A packet whose phase holds no key is discarded. -/
def packetDone (id n : Nat) (tx : Bool) (p : Packet) (k : Option Key) (s : State) : State :=
  let s := { s with cip := { s.cip with bytes := s.cip.bytes + BitVec.ofNat 64 ((aadBytes p).length + p.data.length) } }
  let got := match k with | none => none | some k => if tx then some (encipher k p) else decipher k p
  let s := match got with
    | some x => { s with cip := { s.cip with flow := s.cip.flow.map (fun e => if e.id = id then { e with out := some x } else e) } }
    | none => engineDrop id (if tx then s else authFail n s)
  tryFreeQp n (engineOut (s.cip.flow.length + 1) n tx s)

/-- A core whose job has ended or is lost goes on with its suspended one (R335). -/
def Core.resumed (now : U64) (x : Core) : Core :=
  { run := x.suspended.map (fun r => { r with since := now }), suspended := none }

/-- Core c's job ends, and the core resumes its suspended job or takes the next. No core works while the entropy
source has no output (R352). -/
def jobDone (c : Nat) (bytes : Bytes) (s : State) : State :=
  if s.trust.ent ≠ 1 then s
  else
    let x : Core := aget {} c s.cip.cores
    match x.run with
    | none => s
    | some r =>
      let s := { s with cip := { s.cip with cores := aset c (x.resumed s.now) s.cip.cores } }
      schedule (match r.job with
        | .packet id n _ tx p => packetDone id n tx p r.key s
        | .piece f => pieceDone f r.key bytes s)

/-- R386: a duplicate-compare mismatch in core c: a C job runs again from its first block, on another
core if one is idle; the packet of a D or U job
is discarded. -/
def coreMismatch (c : Nat) (s : State) : State :=
  let x : Core := aget {} c s.cip.cores
  match x.run with
  | none => s
  | some r =>
    let s := { s with cip := { s.cip with cores := aset c (x.resumed s.now) s.cip.cores } }
    match r.job with
    | .packet id n _ tx _ => schedule (tryFreeQp n (engineOut (s.cip.flow.length + 1) n tx (engineDrop id s)))
    | .piece _ => schedule (fillCores ((List.range 8).filter (fun k => k ≠ c)) s)

/-! ### Entropy (R351 to R353) -/

/-- The facets whose CREATE waits for the entropy source. -/
def waitingCreates (s : State) : List Nat := (s.facets.filter (fun x => x.2.zrt.waiting)).map Prod.fst

/-- The source has output: the context-wrap key is drawn at a cold start, and what waits for a draw goes on (R341, R352). -/
def entropyReady (s : State) : State :=
  if s.trust.ent = 1 ∨ s.trust.ent = 3 then s
  else
    let s := { s with trust := { s.trust with ent := 1, drbgCount := 0, drbgAt := s.now } }
    let s := if s.cip.wrapKey.isNone && hasCip s then
        drew 1 { s with cip := { s.cip with wrapKey := some (Config.entropyKey s.free) } }
      else s
    schedule ((waitingCreates s).foldl (fun s f => createQp f s) s)

/-- ENTROPY_READY (R352): the source runs from boot on. -/
def execEntropyReady (s : State) : Host.Outcome State Fault Refusal :=
  .next (when (awake s && decide (s.boot.run = .running ∨ s.boot.run = .boot ∨ s.boot.run = .hold)) entropyReady s)

/-- DRBG_RESEED (R351): due after 2^16 requests or 10 ms. -/
def execDrbgReseed (s : State) : Host.Outcome State Fault Refusal :=
  .next (when (decide (s.trust.ent = 1) && (decide (65536 ≤ s.trust.drbgCount) || elapsed s s.trust.drbgAt (ms 10)))
    (fun s => { s with trust := { s.trust with drbgCount := 0, drbgAt := s.now } }) s)

/-- MASK_REKEY (R353): the mask generator of a core takes a new key from the DRBG. -/
def execMaskRekey (core : Nat) (s : State) : Host.Outcome State Fault Refusal :=
  .next (when (decide (s.trust.ent = 1) && hasCip s && decide (core < 8)) (fun s =>
    drew 1 { s with cip := { s.cip with rekeys := amod 0 core (fun n => n + 1) s.cip.rekeys } }) s)

/-- SCAN_TEST_ENTRY (R341): the key store, the context-wrap key and the device key are erased; the device does nothing
more until a cold reset. -/
def execScanTestEntry (s : State) : Host.Outcome State Fault Refusal :=
  .next { s with
    facets := amap (fun _ x => { x with cip := { x.cip with slots := [] } }) s.facets
    cip := { s.cip with wrapKey := none, scan := true }
    trust := { s.trust with keyErased := true } }

/-! ### Measurements and reports (R356 to R359) -/

/-- extend (R358), on the byte strings of 64 bytes each. -/
def extend (m d : BitVec 512) : BitVec 512 := Config.shake256 512 (toLE 64 m.toNat ++ toLE 64 d.toNat)

/-- The measurements as they stand. -/
def measNow (s : State) : List (BitVec 512) := (List.range 8).map (fun k => aget 0 k s.trust.meas)

/-- Measurement register k is extended; a report that reads the measurements in this very cycle takes the extend first
(R359). -/
def extendM (k : Nat) (d : BitVec 512) (s : State) : State :=
  let s := { s with trust := { s.trust with meas := amod 0 k (fun m => extend m d) s.trust.meas } }
  match s.trust.reqs with
  | r :: l => if r.at_ = s.now then { s with trust := { s.trust with reqs := { r with meas := measNow s } :: l } } else s
  | [] => s

/-- The digest that TRUST_DEV_EXT_DATA holds. -/
def extDigest (s : State) : BitVec 512 :=
  BitVec.ofNat 512 (ofLE ((List.range 8).flatMap (fun w => toLE 8 (aget 0 w s.trust.extData).toNat)))

/-- TRUST_DEV_EXT_CMD (R358): only M4 to M7. -/
def execTrustDevExtCmd (f : Nat) (v : U32) (s : State) : Host.Outcome State Fault Refusal :=
  live (fun s => when (decide (f = 0 ∧ 4 ≤ fld v 2 0)) (extendM (fld v 2 0) (extDigest s)) s) s

/-- A request to the trust unit (R359). A refused request's REASON is not stated: it is a free value. -/
def attRequest (f : Nat) (cert : Bool) (s : State) : State :=
  let x := (getF s f).att
  let seg := x.seg.toNat
  let g := getSeg s f seg
  let n := if cert then 3200 else 2048
  let no := fun (code : Nat) => modF f (fun y => { y with att := { y.att with
    result := BitVec.ofNat 16 code, reason := BitVec.ofNat 4 (Config.freeByte s.free).toNat } }) { s with free := s.free + 1 }
  if x.busy then s
  else if !(g.valid && g.pin && g.lwr) then no cBAD_FIELD
  else if !rangeCheck s f seg x.doff n .lwr none then no cACCESS_DENIED
  else
    let r : AttReq := { f := f, cert := cert, meas := if s.trust.reqs = [] then measNow s else [], at_ := s.now }
    modF f (fun y => { y with att := { y.att with busy := true } }) { s with trust := { s.trust with reqs := s.trust.reqs ++ [r] } }

/-- TRUST_ATT_REPORT (R359). -/
def execTrustAttReport (f : Nat) (s : State) : Host.Outcome State Fault Refusal :=
  live (fun s => when (facetOn s f) (attRequest f false) s) s
/-- TRUST_ATT_CERTIFICATE (R359). -/
def execTrustAttCertificate (f : Nat) (s : State) : Host.Outcome State Fault Refusal :=
  live (fun s => when (facetOn s f) (attRequest f true) s) s

/-- CAP_ID.PART (R8). -/
def partId : Variant → Nat
  | .dn7240 => 0x7240
  | .dn7232 => 0x7232
  | .dn7216 => 0x7216

/-- The device certificate, 3,200 bytes, in the NVM: PART and STEPPING as CAP_ID reads (R10, R355, R458). -/
def certificate (s : State) : Bytes :=
  toLE 4 0x43455254 ++ toLE 2 1 ++ toLE 2 0 ++ toLE 8 Config.certSerial.toNat ++ toLE 2 (partId s.part) ++
  [Config.stepping] ++ padTo 13 [] ++ padTo 1793 Config.certKey ++ padTo 31 [] ++ padTo 64 Config.certIssuer ++
  padTo 1280 Config.certSignature

/-- Bytes 0 to 711 of a report (R359). -/
def reportHead (s : State) (r : AttReq) : Bytes :=
  let x := (getF s r.f).att
  toLE 4 0x41545354 ++ toLE 2 1 ++ toLE 1 r.f ++
  toLE 1 (b2n s.boot.locked + b2n (decide (s.err.mode = .penumbra)) * 2 + b2n s.boot.bankB * 4) ++
  toLE 4 1992 ++ toLE 2 (if s.trust.idOk then 1280 else 0) ++ toLE 2 0 ++ toLE 2 (partId s.part) ++
  [Config.stepping, 0] ++ toLE 4 s.trust.boots.toNat ++ toLE 8 (capUnits s.part).toNat ++
  (List.range 4).flatMap (fun w => toLE 8 (aget 0 w x.nonce).toNat) ++
  r.meas.flatMap (fun m => toLE 64 m.toNat) ++
  toLE 64 (Config.shake256 512 (certificate s)).toNat ++
  toLE 64 (Config.shake256 512 (padTo 4096 Config.ownerRecord)).toNat ++ toLE 8 0

/-- The 1,992 bytes of a report; without the device key it carries no signature. -/
def reportBytes (s : State) (r : AttReq) : Bytes :=
  let h := reportHead s r
  h ++ (if s.trust.idOk then
    padTo 1280 (Config.falconSign s.free (4 :: toLE 64 (Config.shake256 512 h).toNat))
  else List.replicate 1280 0)

/-- The trust unit ends the oldest request, and begins the next. -/
def reportDone (s : State) : State :=
  match s.trust.reqs with
  | [] => s
  | r :: rest =>
    let x := (getF s r.f).att
    let bs := if r.cert then certificate s else reportBytes s r
    let rest := match rest with | y :: l => { y with meas := measNow s, at_ := s.now } :: l | [] => []
    let s := { s with free := s.free + 1, trust := { s.trust with reqs := rest } }
    modF r.f (fun y => { y with att := { y.att with busy := false, reason := 0, result := 0 } })
      (postPin r.f x.seg.toNat x.doff .other bs s)

/-- REPORT_SIGNED (R359). -/
def execReportSigned (s : State) : Host.Outcome State Fault Refusal := live reportDone s

end Sys2Proof.Machine
end

