-- ==== Sys2Proof/Machine/Ethernet.lean ====
section
/-!
DEFINITION. Ethernet ports (13_ethernet_ports.md): sub-ports that come and go (R362), arriving frames (R370 to
R372), plain frames (R373 to R375).
-/
namespace Sys2Proof.Machine

/-! ### Frames of ETH_SEND that leave (R373, R375) -/

/-- The ETH_SEND of SQ q that sends now: the oldest. -/
def sendOf (s : State) (q : Nat) : Option EthSend := s.eth.sends.find? (fun x => x.q = q)

/-- The ETH_SEND of SQ q changed. -/
def modSend (x : EthSend) (g : EthSend → EthSend) (s : State) : State :=
  { s with eth := { s.eth with sends := s.eth.sends.map (fun y => if y = x then g y else y) } }

/-- An ETH_SEND ends: its frames that have not left are taken out of their sub-port's queue. -/
def endSend (x : EthSend) (st : Status) (s : State) : State :=
  settle 0 (completeItem 0 x.q x.idx st { s with
    eth := { s.eth with
      sends := s.eth.sends.erase x
      ports := amap (fun _ e => { e with queues := amap (fun _ y => { y with
        pkts := y.pkts.filter (fun z => decide (z.plain ≠ some (x.q, x.idx))) }) e.queues }) s.eth.ports } })

/-- A frame of an ETH_SEND, by its SQ and index, has left, or is discarded; the last one completes the descriptor (R373,
R375). -/
def frameGone (k : Nat × U32) (s : State) : State :=
  match s.eth.sends.find? (fun x => decide ((x.q, x.idx) = k)) with
  | none => s
  | some x =>
    if x.frames ≤ x.gone + 1 then endSend { x with gone := x.gone + 1 } stOk (modSend x (fun y => { y with gone := y.gone + 1 }) s)
    else modSend x (fun y => { y with gone := y.gone + 1 }) s

/-! ### Sub-ports (R361, R362) -/

/-- A sub-port's PCS reports link up. -/
def ethUp (p b : Nat) (s : State) : State :=
  if hasEth s p ∧ b < subPorts s p then modEth p (fun e => { e with up := e.up ||| BitVec.ofNat 4 (2 ^ b) }) s else s

/-- A sub-port stops being live: every frame queued for it is discarded and counted. -/
def ethDown (p b : Nat) (s : State) : State :=
  if bit (getEth s p).up b then
    let out := (ethQ s p b).pkts ++ (agetq b (getEth s p).leaving).toList
    let s := modEth p (fun e => { e with
      up := e.up &&& ~~~ BitVec.ofNat 4 (2 ^ b), txDiscard := e.txDiscard + BitVec.ofNat 32 out.length
      queues := adel b e.queues, budget := adel b e.budget, leaving := adel b e.leaving }) s
    (out.filterMap (fun x => x.plain)).foldl (fun s k => frameGone k s) s
  else s

/-- ETH_LINK_UP (R362). -/
def execEthLinkUp (port sub : Nat) (s : State) : Host.Outcome State Fault Refusal :=
  .next (when (fabricUp s) (ethUp port sub) s)

/-- ETH_LINK_DOWN (R362). -/
def execEthLinkDown (port sub : Nat) (s : State) : Host.Outcome State Fault Refusal := .next (ethDown port sub s)

/-! ### The parts of a frame -/

/-- Big-endian bytes at a place of a frame. -/
def at16 (bs : Bytes) (i : Nat) : Nat := ofBE ((bs.drop i).take 2)

/-- The frame carries an 802.1Q tag. -/
def tagged (bs : Bytes) : Bool := decide (at16 bs 12 = 0x8100)

/-- Where the frame's network header begins. -/
def ipAt (bs : Bytes) : Nat := if tagged bs then 18 else 14

/-- The frame's EtherType, behind its tag. -/
def etherType (bs : Bytes) : Nat := at16 bs (ipAt bs - 2)

/-- The length of the network header: IPv4 with IHL 5 and UDP, or IPv6 with next header 17; none for another frame. -/
def ipLen (bs : Bytes) : Option Nat :=
  let h := bs.drop (ipAt bs)
  if etherType bs = 0x0800 ∧ h.headD 0 = 0x45 ∧ h.getD 9 0 = 17 then some 20
  else if etherType bs = 0x86DD ∧ (h.headD 0).toNat / 16 = 6 ∧ h.getD 6 0 = 17 then some 40
  else none

/-- R370's destination IP and UDP port tests: the frame is a ZRT frame. -/
def isZrtFrame (s : State) (bs : Bytes) : Bool :=
  match ipLen bs with
  | none => false
  | some n =>
    let h := bs.drop (ipAt bs)
    let dst := if n = 20 then (h.drop 16).take 4 else (h.drop 24).take 16
    decide (n = if ethV6 s then 40 else 20) && decide (dst = regBytes s 0x510 dst.length) &&
      decide (at16 (h.drop n) 2 = regf s 0x500 15 0) && decide (n + 8 ≤ h.length)

/-- The UDP datagram of a ZRT frame, by its UDP length. -/
def udpOf (bs : Bytes) (n : Nat) : Bytes := let u := (bs.drop (ipAt bs)).drop n; u.take (at16 u 4)

/-- The pseudo-header of an IPv4 UDP checksum. -/
def pseudo4 (src dst : Bytes) (n : Nat) : Bytes := src ++ dst ++ toBE 2 17 ++ toBE 2 n

/-- The checks of a ZRT frame that count in RX_BAD (R370). -/
def zrtBad (bs : Bytes) (n : Nat) : Bool :=
  let h := bs.drop (ipAt bs)
  let u := h.drop n
  let len := at16 u 4
  let ok := fun (pseudo : Bytes) => decide (fold16 (sum16 pseudo + sum16 (u.take len)) = 65535)
  decide (len < 8 + 32) || decide (u.length < len) ||
  (if n = 20 then
    decide (fold16 (sum16 (h.take 20)) ≠ 65535) || decide (at16 h 6 % 0x4000 ≠ 0) ||
      (decide (at16 u 6 ≠ 0) && !ok (pseudo4 ((h.drop 12).take 4) ((h.drop 16).take 4) len))
  else decide (at16 u 6 = 0) || !ok (pseudo6 ((h.drop 8).take 16) ((h.drop 24).take 16) len))

/-- The DSCP and ECN byte of a frame. -/
def tosOf (bs : Bytes) (n : Nat) : Nat :=
  let h := bs.drop (ipAt bs)
  if n = 20 then (h.getD 1 0).toNat else ofBE (h.take 2) / 16 % 256

/-- R366: the lowest TC whose DSCP field equals the frame's, or 0. -/
def tcOfDscp (s : State) (d : Nat) : Nat := ((List.range 4).find? (fun c => decide (dscpOf s c = d))).getD 0

/-- The filter of a port (R371). -/
def passesFilter (s : State) (p : Nat) (bs : Bytes) : Bool :=
  let d := bs.take 6
  (List.range 8).any (fun e => let o := ethBase p + 0x10 + 8 * e
    bit (reg s o) 48 && decide (d = regBytes s o 6)) ||
  (bit (reg s (ethBase p)) 2 && decide (d = List.replicate 6 0xFF))

/-- A tagged frame under VLAN_EN carries VLAN_ID (R370). -/
def vlanOk (s : State) (p : Nat) (bs : Bytes) : Bool :=
  !bit (reg s (ethBase p)) 3 || !tagged bs || decide (at16 bs 14 % 4096 = regf s (ethBase p) 15 4)

/-- R370, R241: a ZRT frame enters the crossbar with a route header of this gateway. -/
def enterPod (p b n : Nat) (far : FarBits) (bs : Bytes) (s : State) : State :=
  let pkt := (udpOf bs n).drop 8
  let tos := tosOf bs n
  let pkt := if tos % 4 = 3 then setCe pkt else pkt
  let h := bthOf pkt
  let rh := localRh s (epAdapter h.dstEp) (tcOfDscp s (tos / 4)) far.fixRail (flowHash h) far.echoAlt
  if podOf (epAdapter h.dstEp) ≠ podOf (ownId s) then modEth p (fun e => { e with rxNotMine := e.rxNotMine + 1 }) s
  else routePacket (6 + p) b { rh with altSeen := far.altSeen } pkt s

/-- The RECV that the next raw frame takes: the first accepted one that has not started (R372). -/
def rawRecv (s : State) : Option Item :=
  if s.eth.rawEn then (getQ s 0 true s.eth.rawRq.toNat).items.find? (fun i => !i.started && i.done.isNone) else none

/-- The first raw frame that waits for its buffer's tiles. -/
def rawWaiting (s : State) : Option RawRecv := s.eth.raws.find? (fun r => decide (r.bytes ≠ []))

/-- A raw frame's record changed. -/
def modRaw (idx : U32) (g : RawRecv → RawRecv) (s : State) : State :=
  { s with eth := { s.eth with raws := s.eth.raws.map (fun r => if r.idx = idx then g r else r) } }

/-- The first waiting raw frame is placed, piece by piece; the flag says that another may follow (log entry 74). -/
def placeRaw (s : State) : State × Bool :=
  match rawWaiting s with
  | none => (s, false)
  | some r =>
    match getItem s 0 true s.eth.rawRq.toNat r.idx with
    | none => (modRaw r.idx (fun r => { r with bytes := [] }) s, true)
    | some i =>
      if streamBusy s .raw then (s, false)
      else
        let (s, t) := translate .raw 0 0 (fld i.desc.w2 7 0) i.desc.w4 r.bytes.length true s
        let s := postAll 0 (.raw r.idx) (t.writes r.bytes) s
        (if t.full then modRaw r.idx (fun r => { r with bytes := [] }) s else s, t.full)

/-- The raw frames that wait are placed in order; `fuel` bounds them. -/
def placeRaws : Nat → State → State
  | 0, s => s
  | n + 1, s => match placeRaw s with
    | (s, true) => placeRaws n s
    | (s, false) => s

/-- The raw stream goes on. -/
def rawGo (s : State) : State := placeRaws s.eth.raws.length s

/-- R372: a frame that is not a ZRT frame goes to the raw RQ. -/
def toRaw (p b : Nat) (bs : Bytes) (s : State) : State :=
  match rawRecv s with
  | none => modEth p (fun e => { e with rxNoBuf := e.rxNoBuf + 1 }) s
  | some i =>
    let q := s.eth.rawRq.toNat
    let len := fld i.desc.w3 31 0
    let n := min bs.length len
    let det := BitVec.ofNat 16 (4 * p + b)
    let s := modItem 0 true q i.idx (fun i => { i with started := true }) s
    if !rangeCheck s 0 (fld i.desc.w2 7 0) i.desc.w4 n .lwr none then
      settle 0 (completeRecv 0 q i.idx (statD cACCESS_DENIED 0) {} s)
    else
      let st : Status := { (if len < bs.length then stat cTRUNCATED else stOk) with detail := det }
      if n = 0 then settle 0 (completeRecv 0 q i.idx st {} s)
      else rawGo { s with eth := { s.eth with raws := s.eth.raws ++ [{
        idx := i.idx, st := st, count := n, bytes := bs.take n }] } }

/-- A raw frame's RECV is written back. -/
def endRaw (r : RawRecv) (st : Status) (count : Nat) (s : State) : State :=
  settle 0 (completeRecv 0 s.eth.rawRq.toNat r.idx st { count := BitVec.ofNat 32 count }
    { s with eth := { s.eth with raws := s.eth.raws.erase r } })

/-- A raw frame's bytes are confirmed: its RECV is written back. -/
def rawPlaced (idx : U32) (s : State) : State :=
  match s.eth.raws.find? (fun r => r.idx = idx) with
  | none => s
  | some r => if stillOut s (.raw idx) ∨ r.bytes ≠ [] then s else endRaw r r.st r.count s

/-- R274's outcome for the raw stream: the RECV of the frame that waits is written back as denied (log entry 74). -/
def abortRaw (s : State) : State :=
  match rawWaiting s with
  | none => s
  | some r => rawGo (endRaw r (statD cACCESS_DENIED 2) 0 (voidWrites [.raw r.idx] s))

/-- Bytes of the receive buffer of port p in use: packets that came by it wait for their output, raw frames for their
buffers (R363; DESIGN CHOICE, log entry 79). -/
def rxHeld (s : State) (p : Nat) : Nat :=
  let here := fun (y : OutQ) => (y.pkts.filter (fun x => decide (x.group = 6 + p))).map (fun x => x.bytes.length)
  let raw := s.eth.raws.map (fun r => if r.st.detail.toNat / 4 = p then r.bytes.length else 0)
  ((List.range 24).flatMap (fun n => here (getL s n).tx.q) ++
    s.eth.ports.flatMap (fun x => x.2.queues.flatMap (fun y => here y.2)) ++ raw).foldl (· + ·) 0

/-- An arriving frame, FCS removed, while the device runs (R370). -/
def rxFrame (p b : Nat) (fcsOk : Bool) (far : FarBits) (bs : Bytes) (s : State) : State :=
  if !subLive s p b then s
  else
    let s := modEth p (fun e => { e with rxFrames := e.rxFrames + 1 }) s
    if 2097152 < rxHeld s p + bs.length + 4 then modEth p (fun e => { e with rxFull := e.rxFull + 1 }) s
    else if !fcsOk then modEth p (fun e => { e with rxBad := e.rxBad + 1 }) s
    else if at16 bs 12 = 0x8808 then modEth p (fun e => { e with rxPause := e.rxPause + 1 }) s
    else if !passesFilter s p bs || !vlanOk s p bs then modEth p (fun e => { e with rxDrop := e.rxDrop + 1 }) s
    else match ipLen bs with
      | some n =>
        if !isZrtFrame s bs then toRaw p b bs s
        else if zrtBad bs n then modEth p (fun e => { e with rxBad := e.rxBad + 1 }) s
        else enterPod p b n far bs s
      | none => toRaw p b bs s

/-! ### ETH_SEND (R373 to R375) -/

def esPort (d : Desc) : Nat := fld d.w2 0 0
def esSub (d : Desc) : Nat := fld d.w2 2 1
def esSeg (d : Desc) : Bool := bit d.w2 3
def esHlen (d : Desc) : Nat := fld d.w2 10 4
def esMss (d : Desc) : Nat := fld d.w2 24 11
def esHseg (d : Desc) : Nat := fld d.w3 7 0
def esPseg (d : Desc) : Nat := fld d.w3 15 8
def esLen (d : Desc) : Nat := fld d.w3 34 16

/-- The fields of an ETH_SEND that R373 refuses without reading the template. -/
def sendFieldsBad (s : State) (d : Desc) : Bool :=
  decide (subPorts s (esPort d) ≤ esSub d) || decide (esHlen d < 14 ∨ 126 < esHlen d ∨ 262144 < esLen d) ||
  (!esSeg d && decide (ethMtu s + 18 < esHlen d + esLen d)) || (esSeg d && decide (esMss d = 0))

/-- A template of SEG 1: Ethernet, one optional tag, IP and UDP, of exactly its length; and MSS fits the MTU (R373). -/
def templateOk (s : State) (d : Desc) (h : Bytes) : Bool :=
  match ipLen h with
  | none => false
  | some n => decide (esHlen d = ipAt h + n + 8) && decide (esMss d + n + 8 ≤ ethMtu s)

/-- The template's bytes: the local memory's own, the rest as supplied. -/
def templateOf (s : State) (d : Desc) (given : Bytes) : Bytes :=
  gather (placesAt s 0 (esHseg d) d.w4 (esHlen d)) (padTo (esHlen d) given) s.mem

/-- Both segments pass the range check (R373). -/
def sendRanges (s : State) (d : Desc) : Bool :=
  rangeCheck s 0 (esHseg d) d.w4 (esHlen d) .lrd none && rangeCheck s 0 (esPseg d) d.w5 (esLen d) .lrd none

/-- Frames of an ETH_SEND (R374). -/
def sendFrames (d : Desc) : Nat := if esSeg d then max 1 (ceilDiv (esLen d) (esMss d)) else 1

/-- R373, in order: the status of an ETH_SEND that does not start. -/
def sendCheck (s : State) (d : Desc) (h : Bytes) : Option Status :=
  if !hasEth s (esPort d) then some (stat cUNIT_ABSENT)
  else if sendFieldsBad s d then some (stat cBAD_FIELD)
  else if sendRanges s d && esSeg d && !templateOk s d h then some (stat cBAD_FIELD)
  else if !sendRanges s d then some (stat cACCESS_DENIED)
  else none

/-! What Mirror holds of an ETH_SEND's frames, by descriptor. -/

/-- The key of a descriptor of facet 0 in the frame records. -/
def frameKey (q : Nat) (idx : U32) : Nat := q * 2 ^ 32 + idx.toNat

/-- Mirror holds the completion of a descriptor: its frame record serves no more (R453). -/
def dropFrames (f q : Nat) (idx : U32) (s : State) : State :=
  if f = 0 then { s with mirror := { s.mirror with frames := adel (frameKey q idx) s.mirror.frames } } else s

/-- The record of the next frame's number goes to Mirror (R375). -/
def recordFrame (q : Nat) (s : State) : State := mirrorIssue (.frame 0 q) s

/-- The checks that refuse an ETH_SEND without an access to its template (R3, R373). -/
def refusedEarly (s : State) (d : Desc) : Bool := !hasEth s (esPort d) || sendFieldsBad s d || !sendRanges s d

/-- ETH_SEND with its template read: checked, and resumed at its first unrecorded frame. -/
def ethStart (f q : Nat) (i : Item) (h : Bytes) (t : Trans) (s : State) : State :=
  let d := i.desc
  match sendCheck s d h with
  | some st => settle f (completeItem f q i.idx st (startItem f q i.idx (readAll none 0 t.fresh s)))
  | none =>
    let n := aget 0 (frameKey q i.idx) s.mirror.frames
    let x : EthSend := { q := q, idx := i.idx, desc := d, header := h, frames := sendFrames d
                         recorded := n, formed := n, gone := n }
    let s := startItem f q i.idx (readAll none 0 t.fresh { s with eth := { s.eth with sends := s.eth.sends ++ [x] } })
    if sendFrames d ≤ n then endSend x stOk s else recordFrame q s

/-- ETH_SEND starts: one that is refused without an access to its template waits for none (R373). -/
def ethSend (f q : Nat) (header : Bytes) (s : State) : State :=
  match ready s f q 0x37 with
  | none => s
  | some i =>
    let d := i.desc
    if refusedEarly s d then ethStart f q i header {} s
    else if s.eth.sends.any (fun x => decide (x.q = q)) then s
    else startAccess q false [(esHseg d, d.w4, esHlen d)] (fun t x => ethStart f q i (templateOf x d header) t x) s

/-- ETH_SEND (R373). -/
def execEthSend (f q : Nat) (header : Bytes) (s : State) : Host.Outcome State Fault Refusal :=
  live (ethSend f q header) s

/-- Offset and length of the payload of frame k (R374). -/
def framePart (d : Desc) (k : Nat) : Nat × Nat :=
  let off := if esSeg d then k * esMss d else 0
  (off, if esSeg d then min (esMss d) (esLen d - off) else esLen d)

/-- The places of the payload of frame k. -/
def framePlaces (s : State) (d : Desc) (k : Nat) : List (Nat × U64 × Nat) :=
  placesAt s 0 (esPseg d) (d.w5 + BitVec.ofNat 64 (framePart d k).1) (framePart d k).2

/-- The payload of the next frame is read, once its number is in Mirror, as far as its tiles and its port let it. -/
def readFrame (q : Nat) (s : State) : State :=
  match sendOf s q with
  | none => s
  | some x =>
    let part := framePart x.desc x.formed
    if x.recorded ≠ x.formed + 1 ∨ x.pulled ∨ streamBusy s (.desc q) ∨
      placesReleased s 0 (framePlaces s x.desc x.formed) = false then s
    else
      let (s, t) := translate (.desc q) 0 0 (esPseg x.desc) (x.desc.w5 + BitVec.ofNat 64 part.1) part.2 false s
      let s := readAll (some (.source (.frame q))) 0 t.fresh s
      if t.full then modSend x (fun y => { y with pulled := true }) s else s

/-- The frame's number is in Mirror: its payload is read (R375). -/
def frameRecorded (q : Nat) (s : State) : State :=
  match sendOf s q with
  | none => s
  | some x => readFrame q (modSend x (fun y => { y with recorded := y.formed + 1 }) { s with
      mirror := { s.mirror with frames := aset (frameKey q x.idx) (x.formed + 1) s.mirror.frames } })

/-- Bytes written over part of a list. -/
def overwrite (l : Bytes) (i : Nat) (bs : Bytes) : Bytes := l.take i ++ bs ++ l.drop (i + bs.length)

/-- Datagram k of a segmented send: the template with the fields of R374 set, and its payload. -/
def datagram (t : Bytes) (k : Nat) (pay : Bytes) : Bytes :=
  match ipLen t with
  | none => t ++ pay
  | some n =>
    let i := ipAt t
    let u := i + n
    let len := 8 + pay.length
    let sum := at16 t (u + 6)
    let t := overwrite t (u + 4) (toBE 2 len)
    let t := overwrite t (u + 6) [0, 0]
    let udp := t.drop u ++ pay
    if n = 20 then
      let t := overwrite t (i + 2) (toBE 2 (20 + len))
      let t := overwrite t (i + 4) (toBE 2 (at16 t (i + 4) + k))
      let t := overwrite t (i + 10) [0, 0]
      let t := overwrite t (i + 10) (toBE 2 (inetSum ((t.drop i).take 20)))
      let c := udpSum (pseudo4 ((t.drop (i + 12)).take 4) ((t.drop (i + 16)).take 4) len) udp
      (if sum = 0 then t else overwrite t (u + 6) (toBE 2 c)) ++ pay
    else
      let t := overwrite t (i + 4) (toBE 2 len)
      let c := udpSum (pseudo6 ((t.drop (i + 8)).take 16) ((t.drop (i + 24)).take 16) len) udp
      overwrite t (u + 6) (toBE 2 c) ++ pay

/-- A frame enters the management class queue of its sub-port (R373); its bytes end with the FCS. -/
def plainEnqueue (k : Nat × U32) (p b : Nat) (fr : Bytes) (s : State) : State :=
  let x : OutPkt := { vc := 3, group := 8, rail := 0, charge := fr.length + ovhEth s, lineage := (lineageOf s 0).toNat
                      rh := localRh s (ownId s) 3 false 0 false, bytes := fr, plain := some k }
  modEth p (fun e => { e with queues := amod {} b (fun y => { y with pkts := y.pkts ++ [x] }) e.queues }) s

/-- The payload of a frame whose number Mirror holds returns: the frame is formed and handed to its sub-port, or discarded
where that is not live, and the next frame's number goes to Mirror (R373 to R375). -/
def framePayload (q : Nat) (payload : Bytes) (s : State) : State :=
  match sendOf s q with
  | none => s
  | some x =>
    let d := x.desc
    let k := x.formed
    let l := framePlaces s d k
    if !x.pulled then s
    else
      let pay := gather l (padTo (framePart d k).2 payload) s.mem
      let fr := closeFrame (if esSeg d then datagram x.header k pay else x.header ++ pay)
      let s := modSend x (fun y => { y with formed := k + 1, pulled := false }) s
      let s := if k + 1 < x.frames then recordFrame q s else s
      if subLive s (esPort d) (esSub d) then plainEnqueue (q, x.idx) (esPort d) (esSub d) fr s
      else frameGone (q, x.idx) (modEth (esPort d) (fun e => { e with txDiscard := e.txDiscard + 1 }) s)

/-- The sub-port that a frame of an ETH_SEND is leaving. -/
def leavingOf (s : State) (k : Nat × U32) : Option (Nat × Nat) :=
  (liveSubs s 3).find? (fun x => match agetq x.2 (getEth s x.1).leaving with
    | some y => decide (y.plain = some k)
    | none => false)

/-- A frame of an ETH_SEND has left its port (R375). -/
def frameSent (k : Nat × U32) (s : State) : State :=
  match leavingOf s k with
  | none => s
  | some (p, b) =>
    match agetq b (getEth s p).leaving with
    | none => s
    | some x => frameGone k (sendFrame p b ⟨false, false, false⟩ x.bytes (modEth p (fun e => { e with
        leaving := adel b e.leaving }) s))

/-- A port read error on an ETH_SEND's reads (R373): frames not yet sent are not sent. -/
def sendReadError (q port : Nat) (s : State) : State :=
  match sendOf s q with
  | none => s
  | some x => endSend x (statD cPORT_ERROR port) s

end Sys2Proof.Machine
end

