-- ==== Sys2Proof/Machine/PcxOut.lean ====
section
/-!
DEFINITION. The egress of the PCIe ports (R144 to R146, R294): the queues PEER, XFER, MOVER and QUE of a port, what may
leave it, and its draining.
-/
namespace Sys2Proof.Machine

/-- The quanta of a port's RATE_DEV_PCX_DRR, by queue, in bytes. -/
def pcxQuantum (s : State) (k c : Nat) : Nat := classQuantum s (0xC3D0 + 8 * portOf k) c

/-- The place of the first transaction of queue c. -/
def Port.headAt (p : Port) (c : Nat) : Option Nat := p.egress.findIdx? (fun x => decide (x.cls = c))

/-- The transaction at a place may leave: a request without Relaxed Ordering never passes an earlier posted write, and at
most 1,024 non-posted requests are unanswered (R294); in Umbra (`umbra`) only peer traffic leaves (R393). -/
def Port.mayLeave (umbra : Bool) (p : Port) (i : Nat) : Bool :=
  match p.egress[i]? with
  | none => false
  | some x => (!umbra || decide (x.cls = 0)) &&
      (x.ro || !(p.egress.take i).any (fun y => y.posted && (!umbra || decide (y.cls = 0)))) &&
      (x.np.isNone || decide (p.reads.length < 1024))

/-- The egress arbiter's next transaction of port k: its next state and the transaction's place. -/
def pcxPick (s : State) (k : Nat) : Drr × Option Nat :=
  let p := getP s k
  let (d, c) := drrPick 4 (pcxQuantum s k)
    (fun c => (p.headAt c).bind (fun i => p.egress[i]?.map (fun x => x.charge)))
    (fun c => match p.headAt c with | some i => p.mayLeave (decide (s.err.mode = .umbra)) i | none => false) drrFuel p.drr
  match c.bind p.headAt with
  | none => (d, none)
  | some i =>
    let rest := p.egress.eraseIdx i
    (match c with | some c => if rest.any (fun x => decide (x.cls = c)) then d else d.emptied 4 c | none => d, some i)

/-- Bytes that a port moves in one CLK_SVC cycle of 4 ns: a lane moves 2^(speed - 1) bytes (DESIGN CHOICE, log entry 17). -/
def portBytes (p : Port) : Nat := 2 ^ (p.speed - 1) * p.width

/-- The internal switch works, except in Umbra by its own fault (R393). -/
def forwards (s : State) : Bool := !(decide (s.err.mode = .umbra) && decide (s.err.ftSrc = 0x1E))

/-- Port k sends queued transactions while its byte budget lasts, by egress DRR (R145); `fuel` bounds them. -/
def drainPort : Nat → Nat → State → State
  | 0, _, s => s
  | n + 1, k, s =>
    match pcxPick s k with
    | (d, none) => modP k (fun p => { p with drr := d, budget := 0 }) s
    | (d, some i) =>
      match (getP s k).egress[i]? with
      | none => s
      | some x =>
        if (getP s k).budget < x.charge then s
        else drainPort n k (emit x.out (modP k (fun p => { p with
          drr := d, budget := p.budget - x.charge, egress := p.egress.eraseIdx i
          reads := match x.np with | some w => p.reads ++ [(w, s.now)] | none => p.reads }) s))

/-- One CLK_SVC cycle of a port that is up and has transactions queued. -/
def tickPort (s : State) (k : Nat) : State :=
  let p := getP s k
  if p.egress = [] || !p.up then s
  else drainPort (p.egress.length + 1) k (modP k (fun p => { p with budget := p.budget + portBytes p }) s)

/-- One cycle of every port. -/
def tickPcx (s : State) : State := if forwards s then (List.range 9).foldl tickPort s else s

end Sys2Proof.Machine
end

