-- ==== Sys2Proof/Machine/PrismUnit.lean ====
section
/-!
DEFINITION. The Prism clusters as units (06_prism_reduction_arithmetic.md): a chunk that is done (R174), residue errors (R205, R224),
count windows (R206), fences (R207, R208).
-/
namespace Sys2Proof.Machine

/-- The chunks that cluster k holds: group and chunk. -/
def chunksOn (s : State) (k : Nat) : List (Nat × Nat) :=
  s.groups.flatMap (fun g => match g.2.run with
    | some r => (r.state.filter (fun x => x.2.cluster = some k)).map (fun x => (g.1, x.1))
    | none => [])

/-- PRISM_DEV_STATE.BUSY. -/
def prismBusy (s : State) : Nat := ofBits ((List.range 8).filter (fun k => decide (chunksOn s k ≠ [])))

/-- A chunk that cluster k stopped is recomputed: a send program's inputs are read again (R224), the rest combined again
from retained inputs on the next unfenced cluster after k, and it is sent whole with RESENT set (R175, R205). -/
def recomputeChunk (k : Nat) (s : State) (x : Nat × Nat) : State :=
  let s := modCh x.1 x.2 (fun c => { c with cluster := none, home := clusterAfter s k, raw := [], resent := true }) s
  { s with grp := { s.grp with recompute := s.grp.recompute + 1, resend := s.grp.resend + 1 } }

/-- The work that cluster k was doing for a chunk counts, although it is done again (R209, R227). -/
def countRun (k : Nat) (x : Nat × Nat) (s : State) : State :=
  let t := clusterWork x.1 x.2 k s
  { s with prism := { s.prism with wbytes := t.prism.wbytes, vecs := t.prism.vecs } }

/-- A cluster is fenced: its chunks move, Penumbra is entered; the last one takes the device to Umbra (R207, R208).
`fault`: the fence is a detection, with its event. -/
def fencePrism (k : Nat) (fault forced : Bool) (s : State) : State :=
  if !hasPrism s k || bit s.prism.fenced k then s
  else
    let s := { s with prism := { s.prism with fenced := s.prism.fenced ||| BitVec.ofNat 8 (2 ^ k) } }
    let held := chunksOn s k
    if liveClusters s = [] then noteFence 0x11 k (fatal 0x11 k forced 0 none s)
    else
      let s := if fault then faultNow 0x11 k (collect 0x11 clsUC k forced 0 0 5 none s) else s
      wakeColls (held.foldl (recomputeChunk k) (noteFence 0x11 k s))

/-- The unfence of a cluster (R208, R387). -/
def unfencePrism (k : Nat) (s : State) : State :=
  if !bit s.prism.fenced k then s
  else wakeColls (noteUnfence 0x11 k { s with prism := { s.prism with
    fenced := s.prism.fenced &&& ~~~(BitVec.ofNat 8 (2 ^ k)) } })

/-- PRISM_DEV_RESLOG of an error. -/
def resLog (k lane slice : Nat) (other : Bool) (x : Nat × Nat) : U64 :=
  BitVec.ofNat 64 (k + lane * 2 ^ 3 + slice * 2 ^ 8 + b2n other * 2 ^ 10 + 2 ^ 11 + x.1 * 2 ^ 16 + x.2 * 2 ^ 32)

/-- The chunk of a cluster that an error strikes: which of several is a free value. -/
def struckChunk (s : State) (k : Nat) : Option (Nat × Nat) :=
  match chunksOn s k with
  | [] => none
  | [x] => some x
  | x :: r => some ((x :: r).getD (Config.pickChunk s.free % (r.length + 1)) x)

/-- R205: a residue error of cluster k, which holds a chunk. -/
def residue (k lane slice : Nat) (other forced : Bool) (s : State) : State :=
  match struckChunk s k with
  | none => s
  | some x =>
    let s := countRun k x { s with free := s.free + 1 }
    let n := aget 0 k s.prism.winCnt + 1
    let s := { s with prism := { s.prism with
      resCnt := amod 0 k (fun c => c + 1) s.prism.resCnt, winCnt := aset k n s.prism.winCnt
      log := resLog k lane slice other x, logAt := some s.now } }
    let s := collect 0x10 clsUC k forced (BitVec.ofNat 64 (x.1 + x.2 * 2 ^ 32)) (lane + slice * 2 ^ 5) 2
      (some (chargeFacet s (getG s x.1).attr)) s
    if regf s 0xD404 7 0 < n then fencePrism k true forced s
    else runGroup x.1 (recomputeChunk k s x)

/-- PRISM_CHUNK_DONE: what cluster k worked on for the chunk is finished and checked (R174); an injected residue error
waiting for the cluster strikes instead (R381). -/
def chunkDone (gid c : Nat) (s : State) : State :=
  match getRun s gid with
  | none => s
  | some r =>
    match (getCh r c).cluster with
    | none => s
    | some k =>
      if s.err.injections.contains (0x10, k) then
        residue k 0 0 false true { s with err := { s.err with injections := s.err.injections.erase (0x10, k) } }
      else
        runGroup gid (modCh gid c (fun x => { x with cluster := none }) (clusterWork gid c k s))

/-- PRISM_CHUNK_DONE (R174). -/
def execPrismChunkDone (gid chunk : Nat) (s : State) : Host.Outcome State Fault Refusal := live (chunkDone gid chunk) s

/-- RESIDUE_ERROR (R205). -/
def execResidueError (cluster lane slice : Nat) (other : Bool) (s : State) : Host.Outcome State Fault Refusal :=
  live (residue cluster lane slice other false) s

/-- RESIDUE_WINDOW (R206): the counts of every cluster restart. -/
def execResidueWindow (s : State) : Host.Outcome State Fault Refusal :=
  .next (when (awake s && elapsed s s.prism.winAt (ms (2 ^ regf s 0xD404 11 8)))
    (fun s => { s with prism := { s.prism with winCnt := [], winAt := s.now } }) s)

end Sys2Proof.Machine
end

