-- ==== Sys2Proof/Machine/Colls.lean ====
section
/-!
DEFINITION. The commands of groups and collectives (05_collective_operations.md): the management descriptors (R155 to
R157), the collective descriptors (R159, R160), the collective packets (R165 to R181) and their timers.
-/
namespace Sys2Proof.Machine

/-! ### Group management descriptors (R155 to R157) -/

/-- The attributes that a GROUP_CREATE names. -/
def createAttr (d : Desc) (gtag : U32) (members send reduce recv : List U64) : GroupAttr :=
  { gid := fld d.w2 11 0, gtag := gtag, format := fld d.w2 35 32, mode := bit d.w2 36
    winopt := BitVec.ofNat 4 (fld d.w2 40 37), plan := fld d.w2 42 41, maxChunk := fld d.w2 46 43, holdExp := fld d.w2 50 47
    row := fld d.w3 31 16 + 1, members := members, send := send, reduce := reduce, recv := recv }

/-- Lengths of the three programs. -/
def createLens (d : Desc) : Nat × Nat × Nat := (fld d.w3 38 32, fld d.w3 46 40, fld d.w3 54 48)

/-- Some program has a length above 0. -/
def createProgs (d : Desc) : Bool := decide (createLens d ≠ (0, 0, 0))

/-- R155 step 1, fields and alignments. -/
def createFieldsBad (d : Desc) : Bool :=
  let (a, b, c) := createLens d
  let fmt := fld d.w2 35 32
  decide (64 < a ∨ 64 < b ∨ 64 < c) || decide (9 < fld d.w2 46 43) || decide (14 ≤ fmt) ||
    (bit d.w2 36 && decide (11 ≤ fmt)) || (isMx fmt && decide ((fld d.w3 31 16 + 1) % 32 ≠ 0)) ||
    decide (d.w4.toNat % 8 ≠ 0) || (createProgs d && decide (d.w5.toNat % 8 ≠ 0))

/-- R155 step 1, range checks of the member list and of each program. -/
def createRanges (s : State) (d : Desc) : Bool :=
  let (a, b, c) := createLens d
  let ps := fld d.w3 15 8
  rangeCheck s 0 (fld d.w3 7 0) d.w4 (8 * (fld d.w2 31 16 + 1)) .lrd none && rangeCheck s 0 ps d.w5 (8 * a) .lrd none &&
    rangeCheck s 0 ps (d.w5 + 512) (8 * b) .lrd none && rangeCheck s 0 ps (d.w5 + 1024) (8 * c) .lrd none

/-- The ranges that GROUP_CREATE reads. -/
def createSpans (d : Desc) : List (Nat × U64 × Nat) :=
  let (a, b, c) := createLens d
  let ps := fld d.w3 15 8
  [(fld d.w3 7 0, d.w4, 8 * (fld d.w2 31 16 + 1)), (ps, d.w5, 8 * a), (ps, d.w5 + 512, 8 * b), (ps, d.w5 + 1024, 8 * c)]

/-- The group that a GROUP_CREATE describes, its operands read. -/
def createRead (s : State) (d : Desc) (gtag : U32) (members send reduce recv : List U64) : GroupAttr :=
  let (a, b, c) := createLens d
  let ps := fld d.w3 15 8
  createAttr d gtag (wordsAt s 0 (fld d.w3 7 0) d.w4 (fld d.w2 31 16 + 1) members) (wordsAt s 0 ps d.w5 a send)
    (wordsAt s 0 ps (d.w5 + 512) b reduce) (wordsAt s 0 ps (d.w5 + 1024) c recv)

/-- R155 step 1's failures, in its order: 0, or the status. -/
def createCheck (s : State) (d : Desc) (x : GroupAttr) : Option Status :=
  if createProgs d && !hasEprg s then some (stat cUNIT_ABSENT)
  else if createFieldsBad d then some (stat cBAD_FIELD)
  else if !createRanges s d then some (stat cACCESS_DENIED)
  else match programsFault x.format x.send x.reduce x.recv with
    | some k => some (statD cBAD_FIELD k)
    | none => if badMembers x.members then some (stat cBAD_FIELD) else none

/-- A GROUP_CREATE that is refused without a read: an absent unit (R3, R5), a bad field or a range (R155 step 1). -/
def createRefused (s : State) (d : Desc) : Bool :=
  (createProgs d && !hasEprg s) || createFieldsBad d || !createRanges s d

/-- GROUP_CREATE with the group that it describes: a refusal, or GTAG drawn and SETUP to every member adapter. It waits
for the entropy source (R352), and then leaves `back`. A GID that a command of this adapter is creating is busy (R156). -/
def groupCreated (f q : Nat) (i : Item) (x : GroupAttr) (t : Trans) (back s : State) : State :=
  match createCheck s i.desc x with
  | some st => settle f (completeItem f q i.idx st (startItem f q i.idx (readAll none 0 t.fresh s)))
  | none =>
    if s.grp.cmds.any (fun c => !c.destroy && decide (c.attr.gid = x.gid)) then
      settle f (completeItem f q i.idx (stat cGRP_BUSY) (startItem f q i.idx (readAll none 0 t.fresh s)))
    else if s.trust.ent ≠ 1 then back
    else
      let c : GroupCmd := { destroy := false, q := q, idx := i.idx, attr := x, adapters := adaptersOf x
                            all := adaptersOf x, start := s.now, sent := s.now }
      let s := readAll none 0 t.fresh (startItem f q i.idx s)
      settle f (sendPhase c c.all (drew 1 { s with grp := { s.grp with cmds := s.grp.cmds ++ [c] } }))

/-- R155 on the creating adapter; a GROUP_CREATE that is refused without a read waits for none. -/
def groupCreate (f q : Nat) (members send reduce recv : List U64) (s : State) : State :=
  match ready s f q 0x30 with
  | none => s
  | some i =>
    let d := i.desc
    if createRefused s d then groupCreated f q i (createAttr d 0 [] [] [] []) {} s s
    else startAccess q false (createSpans d) (fun t x =>
      groupCreated f q i (createRead x d (Config.entropy s.free) members send reduce recv) t s x) s

/-- R157: GROUP_DESTROY. -/
def groupDestroy (f q : Nat) (i : Item) (s : State) : State :=
  let gid := fld i.desc.w2 11 0
  let g := getG s gid
  if g.st = .free then completeItem f q i.idx (stat cGRP_STATE) s
  else
    let c : GroupCmd := { destroy := true, q := q, idx := i.idx, attr := g.attr, adapters := adaptersOf g.attr
                          all := adaptersOf g.attr, start := s.now, sent := s.now }
    sendPhase c c.all (tearDown gid { s with grp := { s.grp with cmds := s.grp.cmds ++ [c] } })

/-- R157: GROUP_QUERY writes the group record, and completes when it is placed. -/
def groupQuery (f q : Nat) (s : State) : State :=
  match ready s f q 0x32 with
  | none => s
  | some i =>
    let d := i.desc
    let seg := fld d.w3 7 0
    let ends := fun (st : Status) => settle f (completeItem f q i.idx st (startItem f q i.idx s))
    if d.w4.toNat % 64 ≠ 0 then ends (stat cBAD_FIELD)
    else if !rangeCheck s 0 seg d.w4 64 .lwr none then ends (stat cACCESS_DENIED)
    else startAccess q true [(seg, d.w4, 64)] (fun t x =>
      settle f (postAll 0 (.after f q i.idx) (t.writes (wordBytes (groupRecord (getG x (fld d.w2 11 0)))))
        (startItem f q i.idx x))) s

/-- GROUP_DESTROY (R157). -/
def execGroupDestroy (f q : Nat) (s : State) : Host.Outcome State Fault Refusal :=
  live (startWith f q 0x31 (groupDestroy f q)) s

/-- GROUP_QUERY (R157). -/
def execGroupQuery (f q : Nat) (s : State) : Host.Outcome State Fault Refusal :=
  live (groupQuery f q) s

/-- A creating command whose answers are late: resent each 1 ms, given up 100 ms after its phase began (R155). -/
def createLate (s : State) (c : GroupCmd) : State :=
  if elapsed s c.start (ms 100) then failCreate c (stat cGRP_UNREACHABLE) s
  else if elapsed s c.sent (ms 1) then sendPhase c c.adapters (modCmd c (fun c => { c with sent := s.now }) s)
  else s

/-- GROUP_SETUP_RESEND (R155). -/
def execGroupSetupResend (gid : Nat) (s : State) : Host.Outcome State Fault Refusal :=
  live (fun s => (s.grp.cmds.filter (fun c => !c.destroy && decide (c.attr.gid = gid))).foldl createLate s) s

/-- SETUP_EXPIRY (R158). -/
def execSetupExpiry (gid : Nat) (s : State) : Host.Outcome State Fault Refusal :=
  live (fun s => when (decide ((getG s gid).st = .setup) && elapsed s (getG s gid).since (ms 200)) (releaseGroup gid) s) s

/-- A destroying command whose confirmations are late: resent each 1 ms, complete after 100 ms (R157). -/
def destroyLate (s : State) (c : GroupCmd) : State :=
  if elapsed s c.start (ms 100) then endGroupCmd c stOk s
  else if elapsed s c.sent (ms 1) then sendPhase c c.adapters (modCmd c (fun c => { c with sent := s.now }) s)
  else s

/-- TEARDOWN_RESEND (R157). -/
def execTeardownResend (gid : Nat) (s : State) : Host.Outcome State Fault Refusal :=
  live (fun s => (s.grp.cmds.filter (fun c => c.destroy && decide (c.attr.gid = gid))).foldl destroyLate s) s

/-! ### Collective descriptors (R158, R160, R161) -/

/-- The member's next CSN is taken (R161). -/
def takeCsn (gid m : Nat) (s : State) : State := modG gid (fun g => { g with csn := amod 0 m (fun c => c + 1) g.csn }) s

/-- A member fails its start checks: its own status, ABORT with reason 1, COLL_ABORTED for the others (R160). -/
def failMember (gid m : Nat) (csn : U32) (s : State) : State :=
  runGroup gid (abortHere gid { csn := csn, reason := 1, member := m, st := reasonStatus 1 m } (sendAbort gid csn 1 m s))

/-- A collective descriptor of an opcode meets its group (R158, R160): it fails, waits for its auxiliary area, or
takes its place in the group's order. -/
def collCommand (f q op : Nat) (aux : Bytes) (s0 : State) : State :=
  match ready s0 f q op with
  | none => s0
  | some i =>
    let s := restWake s0
    let d := i.desc
    let gid := cGid d
    let m := cMember d
    let g := getG s gid
    let fin := fun (st : Status) => settle f (completeItem f q i.idx st (startItem f q i.idx s))
    if g.st = .broken then fin (stat cCOLL_MEMBER_LOST)
    else if g.st ≠ .active then fin (stat cGROUP_INVALID)
    else if !isLocal s g.attr m || decide (memFacet (attrMember g.attr m) ≠ f) then fin (stat cNOT_MEMBER)
    else
      let csn := aget 0 m g.csn
      match startChecks f q i.idx csn g.attr d aux s with
      | (s', .wait) => s'
      | (s', .bad st) =>
        let s := takeCsn gid m (completeItem f q i.idx st (startItem f q i.idx s'))
        settle f (failMember gid m csn s)
      | (s', .good x) =>
        let s := takeCsn gid m (startItem f q i.idx s')
        match g.aborts.find? (fun b => decide (b.csn = csn)) with
        | some b => settle f (completeItem f q i.idx b.st s)
        | none => settle f (runGroup gid (modG gid (fun g => { g with waiting := g.waiting ++ [x] }) s))

/-- BARRIER (R159). -/
def execBarrier (f q : Nat) (s : State) : Host.Outcome State Fault Refusal := live (collCommand f q 0x10 []) s
/-- ALLREDUCE (R159). -/
def execAllreduce (f q : Nat) (s : State) : Host.Outcome State Fault Refusal := live (collCommand f q 0x11 []) s
/-- REDUCE (R159). -/
def execReduce (f q : Nat) (s : State) : Host.Outcome State Fault Refusal := live (collCommand f q 0x12 []) s
/-- REDUCE_SCATTER (R159). -/
def execReduceScatter (f q : Nat) (s : State) : Host.Outcome State Fault Refusal := live (collCommand f q 0x13 []) s
/-- BROADCAST (R159). -/
def execBroadcast (f q : Nat) (s : State) : Host.Outcome State Fault Refusal := live (collCommand f q 0x14 []) s
/-- ALLGATHER (R159). -/
def execAllgather (f q : Nat) (s : State) : Host.Outcome State Fault Refusal := live (collCommand f q 0x15 []) s
/-- GATHER (R159). -/
def execGather (f q : Nat) (s : State) : Host.Outcome State Fault Refusal := live (collCommand f q 0x16 []) s
/-- SCATTER (R159). -/
def execScatter (f q : Nat) (s : State) : Host.Outcome State Fault Refusal := live (collCommand f q 0x17 []) s
/-- ALLTOALL (R159). -/
def execAlltoall (f q : Nat) (s : State) : Host.Outcome State Fault Refusal := live (collCommand f q 0x18 []) s
/-- The auxiliary area that the next collective descriptor of SQ q, of opcode `op`, would read now (R163, R165). -/
def auxPlaces (s0 : State) (f q op : Nat) : List (Nat × U64 × Nat) :=
  match ready s0 f q op with
  | none => []
  | some i =>
    let s := restWake s0
    let d := i.desc
    let g := getG s (cGid d)
    let n := (auxShape (attrN g.attr) d).1
    let st := Stream.coll (cGid d) (cMember d)
    if decide (g.st = .active) && isLocal s g.attr (cMember d) && decide (memFacet (attrMember g.attr (cMember d)) = f) &&
      !fieldsBad g.attr d && isVar op && !auxTooLong s f d (attrN g.attr) && decide (n ≠ 0) && !streamBusy s st then
      let t := (translate st 0 f (cAseg d) d.w6 n false s).2
      if t.full && placesReleased s f t.places then t.places else []
    else []

/-- Its auxiliary read fails (R295): PORT_ERROR for the member, ABORT with reason 1. -/
def auxFailed (f q op port : Nat) (s0 : State) : State :=
  match ready s0 f q op with
  | none => s0
  | some i =>
    let s := restWake s0
    let d := i.desc
    let g := getG s (cGid d)
    let csn := aget 0 (cMember d) g.csn
    let s := (readAux f g.attr d [] s).1
    settle f (failMember (cGid d) (cMember d) csn (takeCsn (cGid d) (cMember d)
      (completeItem f q i.idx (statD cPORT_ERROR port) (startItem f q i.idx s))))

/-- A management descriptor's read of its lists or record fails: it completes PORT_ERROR and does nothing else. -/
def descFails (f q op port : Nat) (s : State) : State :=
  startWith f q op (fun i s => completeItem f q i.idx (statD cPORT_ERROR port) s) s

/-- A port read error on member m's source read (R295): PORT_ERROR for it, ABORT with reason 1. -/
def collReadError (gid m port : Nat) (s : State) : State :=
  match getRun s gid with
  | none => s
  | some r => match memberIn r m with
    | none => s
    | some x =>
      let s := completeItem x.f x.q x.idx (statD cPORT_ERROR port) s
      settle x.f (failMember gid m r.csn s)

/-- The source read of member m's chunk returns (R168): its bytes wait for the send program, or are the retained
input at once. -/
def chunkRead (gid m c : Nat) (bs : Bytes) (s : State) : State :=
  match getRun s gid with
  | none => s
  | some r =>
    match agetq m (getCh r c).reading, memberIn r m with
    | some places, some _ =>
      let got := gather places bs s.mem
      let s := modCh gid c (fun y => { y with reading := adel m y.reading, progress := s.now }) s
      if (getG s gid).attr.send = [] then runGroup gid (noteOwn gid c m got s)
      else runGroup gid (modCh gid c (fun y => { y with raw := aset m got y.raw }) s)
    | _, _ => s

/-! ### Collective packets -/

/-- GONE answers a packet for a group that is not here (R181). -/
def sendGone (p : Packet) (s : State) : State :=
  toEndpoint { (default : GroupAttr) with gid := gidOf p.ext, gtag := p.bth.ctag } p.bth.srcEp { typ := 11, sub := 3 } s

/-- A packet of a TYPE and SUB. -/
def isColl (typ sub : Nat) (p : Packet) : Bool := isType typ p && decide (subOf p.ext = some sub)

/-- A packet of a group on this adapter is taken; of another group, it is answered with GONE (R181). -/
def inGroup (go : Nat → Packet → State → State) (p : Packet) (s : State) : State :=
  let gid := gidOf p.ext
  let g := getG s gid
  if restoring s then s
  else if g.st = .free ∨ g.attr.gtag ≠ p.bth.ctag then sendGone p s
  else go gid p s

/-- A packet that took a reversing detour, or says that one did, marks the running collective (R180, R254). -/
def seeAlt (gid : Nat) (p : Packet) (s : State) : State :=
  if p.rh.altSeen || p.rh.echoAlt then modRun gid (fun r => { r with degraded := true, echo := true }) s else s

/-- A packet of the running collective: its CSN is the running one, and its signature agrees, or it is a mismatch
(R161). -/
def ofRun (check : Bool) (go : Coll → State → State) (gid : Nat) (p : Packet) (s : State) : State :=
  match getRun s gid with
  | none => s
  | some r =>
    if r.csn ≠ p.bth.msn then s
    else if check && decide (sigOf p.ext ≠ r.sig) then
      runGroup gid (mismatch gid { s with grp := { s.grp with sigFail := s.grp.sigFail + 1 } })
    else runGroup gid (go r (seeAlt gid p s))

/-- A chunk that is seen to lack packets is asked for at once, at most once in each interval of each producer (R175). -/
def askGap (gid c key : Nat) (s : State) : State :=
  let g := getG s gid
  match g.run with
  | none => s
  | some r => if streamDone (getCh r c) key then s else askChunk gid c [keyAdapter g c key] s

/-- The stream of a CDATA packet at this adapter. SUB 3: anchors where the chunk's root is combined, their outcome elsewhere.
SUB 0 of a reduction: by STEP the result, the value of an inner node, or a leaf or its words; of other kinds moved data. -/
def dataKey (s : State) (g : Group) (r : Coll) (anchor : Bool) (c step src dst : Nat) : Nat :=
  if anchor then Stm.key (if rootHome g c = me s then 3 else 2) src dst
  else if !isRed r.op then Stm.key 0 src dst
  else if step = resultStep g then Stm.key 1 src dst
  else match nodeFrom g c step (adapterOf g.attr src) (me s) with
    | some k => Stm.key 4 k dst
    | none => Stm.key 0 src dst

/-- A CDATA packet of a stream enters its chunk: a later copy that differs replaces the earlier (R175). -/
def takeData (gid : Nat) (anchor : Bool) (p : Packet) (r : Coll) (s : State) : State :=
  match p.ext with
  | .cxh _ _ src dst _ brk _ chunk _ pkt step _ =>
    let g := getG s gid
    let a := g.attr
    let c := chunk.toNat
    let key := dataKey s g r anchor c step.toNat src.toNat dst.toNat
    let gone := decide (c < r.commit) || (match r.chunks with | some n => decide (n ≤ c) | none => false)
    if gone || !isLocal s a dst.toNat || decide (attrN a ≤ src.toNat) then s
    else if parkedStream s (.coll gid dst.toNat) then parkDiscard s
    else
      let pk := key * 65536 + pkt.toNat
      let x := getCh r c
      let same := decide (agetq pk x.parts = some p.data)
      let s := modRun gid (fun r => { r with degraded := r.degraded || brk }) s
      let s := modCh gid c (fun x => { x with
        parts := aset pk p.data x.parts
        lasts := if p.bth.last then aset key pkt.toNat x.lasts else x.lasts
        placed := if same then x.placed else x.placed.filter (fun k => k ≠ key)
        ran := if same then x.ran else x.ran.filter (fun k => k ≠ key)
        progress := s.now }) s
      let gap := p.bth.last || (decide (0 < pkt.toNat) && (agetq (pk - 1) x.parts).isNone)
      if gap then askGap gid c key s else s
  | _ => s

/-- CDATA with SUB 0 (R175). -/
def onData (gid : Nat) (p : Packet) (s : State) : State :=
  ofRun true (takeData gid false p) gid p s

/-- CDATA with SUB 3 (R196). -/
def onAnchor (gid : Nat) (p : Packet) (s : State) : State :=
  ofRun true (fun r s => if isAnchored (getG s gid).attr (runDesc r) then takeData gid true p r s else s) gid p s

/-- CDATA with SUB 1: a member's count (R165). -/
def onCounts (gid : Nat) (p : Packet) (s : State) : State :=
  ofRun true (fun r s =>
    if isVar r.op && isLocal s (getG s gid).attr (dstMemberOf p.ext) then
      modRun gid (fun r => { r with
        counts := aset (dstMemberOf p.ext * 65536 + srcMemberOf p.ext) (ofLE (p.data.take 8)) r.counts
        srcMax := max r.srcMax (ofLE ((p.data.drop 8).take 8)) }) s
    else s) gid p s

/-- CDATA with SUB 2: a member's capacity flag (R165, R166). -/
def onFlag (gid : Nat) (p : Packet) (s : State) : State :=
  ofRun true (fun r s =>
    if isVar r.op && decide (srcMemberOf p.ext < attrN (getG s gid).attr) then
      flagsKnown gid (modRun gid (fun r => { r with
        flags := aset (srcMemberOf p.ext) (decide (p.data.headD 0 ≠ 0)) r.flags }) s)
    else s) gid p s

/-- The adapter a packet comes from. -/
def fromAdapter (s : State) (gid : Nat) (p : Packet) : Nat := adapterOf (getG s gid).attr (srcMemberOf p.ext)

/-- A packet about a collective that has ended here: its ABORT, its flags, or a COMMIT, again. -/
def answerEnded (gid : Nat) (commit : Option Nat) (p : Packet) (s : State) : State :=
  let g := getG s gid
  let y := fromAdapter s gid p
  match g.aborts.find? (fun b => decide (b.csn = p.bth.msn)) with
  | some b =>
    if b.reason = 5 then ((localMembers s g.attr).foldl (fun s i =>
      sendFlag gid (some y) b.csn (sigOf p.ext) i (aget false i b.flags) s) s)
    else toMember g.attr b.csn 0 { typ := 11, sub := 1, src := if b.reason = 1 then b.member else ownLow s g.attr
                                   dst := lowestOn g.attr y, arg := b.reason } s
  | none => match commit with
    | some n =>
      if 0x80000000 ≤ (p.bth.msn - g.endCsn).toNat then toAdapter g.attr p.bth.msn (sigOf p.ext) y
        { typ := 10, arg := n, broken := g.lastBroken, echo := g.lastEcho } s
      else s
    | none => s

/-- BROKEN of a collective packet. -/
def brokenOf (e : Ext) : Bool := match e with | .cxh _ _ _ _ _ b .. => b | _ => false

/-- CONF (R173, R174): a child's index advances, or a repeated one is answered with COMMIT. -/
def onConf (gid : Nat) (p : Packet) (s : State) : State :=
  match getRun s gid with
  | some r =>
    if r.csn ≠ p.bth.msn then answerEnded gid (some (argOf p.ext)) p s
    else
      let y := fromAdapter s gid p
      let n := argOf p.ext
      ofRun true (fun r s =>
        let s := modRun gid (fun r => { r with degraded := r.degraded || brokenOf p.ext }) s
        match agetq y r.childConf with
        | some old => if n ≤ old then sendCommit gid [y] s else modRun gid (fun r => { r with
            childConf := aset y n r.childConf }) s
        | none => modRun gid (fun r => { r with childConf := aset y n r.childConf }) s) gid p s
  | none => answerEnded gid (some (argOf p.ext)) p s

/-- COMMIT (R173, R176). -/
def onCommit (gid : Nat) (p : Packet) (s : State) : State :=
  ofRun false (fun r s => commitTo gid (min (argOf p.ext) (r.chunks.getD 0))
    (modRun gid (fun r => { r with degraded := r.degraded || brokenOf p.ext }) s)) gid p s

/-- RESEND (R175): the chunk goes again to the adapter that asks, and with chunk 0 the counts and flags; one for a chunk
that is committed here is stale (R176). -/
def onResend (gid : Nat) (p : Packet) (s : State) : State :=
  match getRun s gid with
  | some r =>
    if r.csn ≠ p.bth.msn then answerEnded gid none p s
    else if argOf p.ext < r.commit then s
    else
      let y := fromAdapter s gid p
      let c := argOf p.ext
      let s := if isVar r.op && decide (c = 0) then
          let s := r.members.foldl (fun s m => sendCounts gid (some y) m s) s
          (r.flags.filter (fun x => isLocal s (getG s gid).attr x.1)).foldl
            (fun s x => sendFlag gid (some y) r.csn r.sig x.1 x.2 s) s
        else s
      resendChunk gid c (some y) s
  | none => answerEnded gid none p s

/-- ABORT (R158, R160, R161, R177). -/
def onAbort (gid : Nat) (p : Packet) (s : State) : State :=
  let r := argOf p.ext
  if r = 1 ∨ r = 2 then
    runGroup gid (abortHere gid { csn := p.bth.msn, reason := r, member := srcMemberOf p.ext
                                  st := reasonStatus r (srcMemberOf p.ext) } s)
  else if r = 3 ∨ r = 4 then breakGroup gid r s else s

/-- ROLLBACK (R178): from the root it restarts the collective here; to the root it asks for a rollback. -/
def onRollback (gid : Nat) (p : Packet) (s : State) : State :=
  ofRun false (fun _ s => if isRoot s (getG s gid).attr then rollAll gid s else rollBack gid (argOf p.ext) s) gid p s

/-- HELD (R177). -/
def onHeld (gid : Nat) (p : Packet) (s : State) : State :=
  ofRun false (fun _ s => if isRoot s (getG s gid).attr then
    takeHeld gid (fromAdapter s gid p) (decide (argOf p.ext = 1)) s else s) gid p s

/-- GONE (R157, R158): a member adapter has lost the group, or confirms its release. -/
def onGone (p : Packet) (s : State) : State :=
  let gid := gidOf p.ext
  let y := (epAdapter p.bth.srcEp).toNat
  let s := match cmdFor s true gid p.bth.ctag with
    | some c => answered c y s
    | none => s
  let g := getG s gid
  if g.st = .active ∧ g.attr.gtag = p.bth.ctag ∧ y ≠ me s ∧ y ∈ adaptersOf g.attr then
    let csn := match g.run with | some r => r.csn | none => g.endCsn
    breakGroup gid 4 (sendAbort gid csn 4 (ownLow s g.attr) s)
  else s

/-- SETUP (R155, R158). -/
def onSetup (a : GroupAttr) (p : Packet) (s : State) : State :=
  let g := getG s a.gid
  if (g.st = .setup ∨ g.st = .active) ∧ g.attr = a then toEndpoint a p.bth.srcEp { typ := 11, sub := 6 } s
  else
    let c := setupCode s a
    if c = 0 then toEndpoint a p.bth.srcEp { typ := 11, sub := 6 } (reserveGroup a s)
    else toEndpoint a p.bth.srcEp { typ := 11, sub := 7, arg := c } s

/-- An answer to a creating command, or GONE where none of that group runs here (R155, R181). -/
def onAnswer (go : GroupCmd → Nat → State → State) (p : Packet) (s : State) : State :=
  let s := restWake s
  match cmdFor s false (gidOf p.ext) p.bth.ctag with
  | some c => go c (epAdapter p.bth.srcEp).toNat s
  | none => inGroup (fun _ _ s => s) p s

/-- ACTIVATE (R155, R158). -/
def onActivate (gid : Nat) (p : Packet) (s : State) : State :=
  let g := getG s gid
  if g.st = .setup ∨ g.st = .active then
    toEndpoint g.attr p.bth.srcEp { typ := 11, sub := 9 } (modG gid (fun g => { g with st := .active }) s)
  else s

/-- TEARDOWN (R157, R158): the group is released once it is free here, and GONE confirms it. -/
def onTeardown (gid : Nat) (p : Packet) (s : State) : State :=
  let s := tearDown gid s
  if (getG s gid).st = .free then sendGone p s else s

/-- The packet commands: R347's checks of every packet, then the group's. -/
def collPkt (typ sub : Nat) (go : Nat → Packet → State → State) (p : Packet) (s : State) :
    Host.Outcome State Fault Refusal := onArrival (arriveAs (isColl typ sub) (fun p s => inGroup go p (restWake s)) p) s

/-- CDATA (R175). -/
def execCdata (p : Packet) (s : State) : Host.Outcome State Fault Refusal := collPkt 8 0 onData p s
/-- COUNTS (R165). -/
def execCounts (p : Packet) (s : State) : Host.Outcome State Fault Refusal := collPkt 8 1 onCounts p s
/-- CAPACITY_FLAG (R166). -/
def execCapacityFlag (p : Packet) (s : State) : Host.Outcome State Fault Refusal := collPkt 8 2 onFlag p s
/-- ANCHOR_PASS (R196). -/
def execAnchorPass (p : Packet) (s : State) : Host.Outcome State Fault Refusal := collPkt 8 3 onAnchor p s
/-- CCONF (R173). -/
def execCconf (p : Packet) (s : State) : Host.Outcome State Fault Refusal :=
  collPkt 9 0 (fun gid p s => runGroup gid (onConf gid p s)) p s
/-- CCOMMIT (R176). -/
def execCcommit (p : Packet) (s : State) : Host.Outcome State Fault Refusal := collPkt 10 0 onCommit p s
/-- RESEND (R175). -/
def execResend (p : Packet) (s : State) : Host.Outcome State Fault Refusal := collPkt 11 0 onResend p s
/-- ABORT (R158). -/
def execAbort (p : Packet) (s : State) : Host.Outcome State Fault Refusal := collPkt 11 1 onAbort p s
/-- ROLLBACK (R178). -/
def execRollback (p : Packet) (s : State) : Host.Outcome State Fault Refusal := collPkt 11 2 onRollback p s
/-- GONE (R158, R181). -/
def execGone (p : Packet) (s : State) : Host.Outcome State Fault Refusal :=
  onArrival (arriveAs (isColl 11 3) (fun p s => if restoring s then s else onGone p (restWake s)) p) s
/-- HELD (R177). -/
def execHeld (p : Packet) (s : State) : Host.Outcome State Fault Refusal := collPkt 11 4 onHeld p s
/-- SETUP (R155, R158). -/
def execSetup (p : Packet) (attr : GroupAttr) (s : State) : Host.Outcome State Fault Refusal :=
  onArrival (arriveAs (isColl 11 5) (fun p s => if restoring s || decide (gidOf p.ext ≠ attr.gid) then s else onSetup attr p (restWake s)) p) s
/-- SETUP_OK (R155). -/
def execSetupOk (p : Packet) (s : State) : Host.Outcome State Fault Refusal :=
  onArrival (arriveAs (isColl 11 6) (onAnswer (fun c y s => if c.activating then s else answered c y s)) p) s
/-- REFUSE (R155). -/
def execRefuse (p : Packet) (s : State) : Host.Outcome State Fault Refusal :=
  onArrival (arriveAs (isColl 11 7) (onAnswer (fun c _ s => failCreate c (statD (argOf p.ext) (srcMemberOf p.ext)) s)) p) s
/-- ACTIVATE (R155, R158). -/
def execActivate (p : Packet) (s : State) : Host.Outcome State Fault Refusal := collPkt 11 8 onActivate p s
/-- ACTIVE_OK (R155). -/
def execActiveOk (p : Packet) (s : State) : Host.Outcome State Fault Refusal :=
  onArrival (arriveAs (isColl 11 9) (onAnswer (fun c y s => if c.activating then answered c y s else s)) p) s
/-- TEARDOWN (R158). -/
def execTeardown (p : Packet) (s : State) : Host.Outcome State Fault Refusal := collPkt 11 10 onTeardown p s

/-! ### Timers -/

/-- CONF_RESEND (R174). -/
def execConfResend (gid : Nat) (s : State) : Host.Outcome State Fault Refusal :=
  live (fun s => match getRun s gid with
    | some r => when (decide (r.commit < r.conf) && elapsed s r.tConf (rqInterval s)) (sendConf gid) s
    | none => s) s

/-- CHUNK_RESEND_REQUEST (R175). -/
def execChunkResendRequest (gid chunk : Nat) (s : State) : Host.Outcome State Fault Refusal :=
  live (fun s => match getRun s gid with
    | some r =>
      if !r.data then when (decide (chunk = 0) && elapsed s r.tCommit (rqInterval s)) (askCounts gid) s
      else when ((openChunks r).contains chunk && elapsed s (getCh r chunk).progress (rqInterval s))
        (fun s => askChunk gid chunk (owing s (getG s gid) r chunk) s) s
    | none => s) s

/-- COLL_HOLD_LIMIT (R177). -/
def execCollHoldLimit (gid : Nat) (s : State) : Host.Outcome State Fault Refusal :=
  live (fun s =>
    let g := getG s gid
    match g.run with
    | some r =>
      let lim := ms (2 ^ g.attr.holdExp)
      if isRoot s g.attr then
        when (decide (r.heldBy = []) && elapsed s r.tCommit lim)
          (fun s => breakGroup gid 3 (sendAbort gid r.csn 3 (ownLow s g.attr) s)) s
      else when (elapsed s r.tCommit (2 * lim)) (breakGroup gid 3) s
    | none => s) s

end Sys2Proof.Machine
end

