-- ==== Sys2Proof/Machine/MoverCore.lean ====
section
/-!
DEFINITION. The bulk mover's channels (10_host_and_accelerator_ports.md): a MOVE's layout and checks (R307, R308),
the serial procedure and its confirmed position (R309, R310, R314), request sources (R311), parking, cancelling and
the bus-error stop (R313).
-/
namespace Sys2Proof.Machine

/-! ### The MOVE descriptor -/

def mvSseg (d : Desc) : Nat := fld d.w2 7 0
def mvDseg (d : Desc) : Nat := fld d.w2 15 8
/-- SW, the source element width in bytes. -/
def mvSw (d : Desc) : Nat := 2 ^ fld d.w2 18 16
/-- DW, the destination element width in bytes. -/
def mvDw (d : Desc) : Nat := 2 ^ fld d.w2 21 19
def mvPace (d : Desc) : Nat := fld d.w2 25 22
def mvDLines (d : Desc) : Nat := fld d.w2 47 28
/-- Source elements per request. -/
def mvBurst (d : Desc) : Nat := fld d.w2 63 48 + 1
def mvSLine (d : Desc) : Nat := fld d.w3 19 0
def mvSLines (d : Desc) : Nat := fld d.w3 39 20
def mvDLine (d : Desc) : Nat := fld d.w3 59 40
def mvSStride (d : Desc) : Int := (BitVec.ofNat 32 (fld d.w6 31 0)).toInt
def mvDStride (d : Desc) : Int := (BitVec.ofNat 32 (fld d.w6 63 32)).toInt

/-- Bytes that a MOVE moves. -/
def mvTotal (d : Desc) : Nat := mvDLine d * mvDLines d * mvDw d

/-- Offset of element k of a side (R309); it wraps modulo 2^64. -/
def elemAt (off : U64) (line : Nat) (stride : Int) (w k : Nat) : U64 :=
  off + BitVec.ofInt 64 ((k / line : Nat) * stride) + BitVec.ofNat 64 (k % line * w)

def srcElem (d : Desc) (k : Nat) : U64 := elemAt d.w4 (mvSLine d) (mvSStride d) (mvSw d) k
def dstElem (d : Desc) (k : Nat) : U64 := elemAt d.w5 (mvDLine d) (mvDStride d) (mvDw d) k

/-- The lowest and highest offset of a side's span (R308). -/
def sideSpan (off : U64) (line lines w : Nat) (stride : Int) : Int × Int :=
  let far : Int := ((lines - 1 : Nat) : Int) * stride
  (off.toNat + min 0 far, off.toNat + max 0 far + ((line * w : Nat) : Int) - 1)

/-- The span of a side passes the range check with one permission. -/
def spanOk (s : State) (f seg : Nat) (sp : Int × Int) (k : Acc) : Bool :=
  decide (0 ≤ sp.1) && rangeCheck s f seg (BitVec.ofInt 64 sp.1) (sp.2 - sp.1 + 1).toNat k none

/-- PACE names a pin that the facet does not own (R308). -/
def pinDenied (s : State) (f pace : Nat) : Bool :=
  let p := aget {} (pace - 1) s.mov.pins
  decide (1 ≤ pace ∧ pace ≤ 8) && (!p.en || decide (p.facet.toNat ≠ f))

/-- The checks of R308 at the start of a MOVE: the status it completes with at once, if any. -/
def moveCheck (s : State) (f : Nat) (d : Desc) : Option Status :=
  if mvSLine d = 0 ∨ mvSLines d = 0 ∨ mvDLine d = 0 ∨ mvDLines d = 0 then some stOk
  else if fld d.w2 18 16 = 7 ∨ fld d.w2 21 19 = 7 ∨ 9 < mvPace d ∨ pinDenied s f (mvPace d) = true ∨
      mvSLine d * mvSLines d * mvSw d ≠ mvTotal d ∨ d.w4.toNat % mvSw d ≠ 0 ∨ mvSStride d % (mvSw d : Int) ≠ 0 ∨
      d.w5.toNat % mvDw d ≠ 0 ∨ mvDStride d % (mvDw d : Int) ≠ 0 then some (stat cBAD_FIELD)
  else if spanOk s f (mvSseg d) (sideSpan d.w4 (mvSLine d) (mvSLines d) (mvSw d) (mvSStride d)) .lrd &&
      spanOk s f (mvDseg d) (sideSpan d.w5 (mvDLine d) (mvDLines d) (mvDw d) (mvDStride d)) .lwr then none
  else some (stat cACCESS_DENIED)

/-! ### Request sources (R311) -/

/-- The request source that a PACE names for a facet. -/
def reqSrc (s : State) (f pace : Nat) : ReqSource :=
  if pace = 9 then (getF s f).mov.req else (aget {} (pace - 1) s.mov.pins).req

/-- A request source changed. -/
def modSrc (f pace : Nat) (g : ReqSource → ReqSource) (s : State) : State :=
  if pace = 9 then modF f (fun x => { x with mov := { x.mov with req := g x.mov.req } }) s
  else { s with mov := { s.mov with pins := amod {} (pace - 1) (fun p => { p with req := g p.req }) s.mov.pins } }

/-- A request arrives in the cycle `now`: counted, or lost at 65,535. -/
def addReq (now : U64) (r : ReqSource) : ReqSource :=
  if r.pending ≠ 65535 then { r with pending := r.pending + 1 }
  else
    let again := decide (r.overAt = some now ∧ 0 < r.lost)
    { r with overrun := true, overAt := some now, lost := if again then r.lost + 1 else 1
             overWas := if again then r.overWas else r.overrun }

/-- take_request() in the cycle `now`. A take comes before a request of the same cycle, so a request lost in it is counted
after all (R311). -/
def takeReq (now : U64) (r : ReqSource) : ReqSource :=
  if r.overAt = some now ∧ 0 < r.lost then
    { r with lost := r.lost - 1, overrun := if r.lost = 1 then r.overWas else r.overrun }
  else { r with pending := r.pending - 1 }

/-- A 1 is written to a source's OVERRUN: it clears, unless this very cycle set it (R20). -/
def clearOver (now : U64) (r : ReqSource) : ReqSource :=
  { r with overrun := r.overrun && decide (r.overAt = some now) }

/-! ### Channels -/

/-- Channel c. -/
def getCh10 (s : State) (c : Nat) : Channel := aget {} c s.mov.chans
/-- The state with a channel changed. -/
def modChan (c : Nat) (g : Channel → Channel) (s : State) : State :=
  { s with mov := { s.mov with chans := amod {} c g s.mov.chans } }

/-- The destination elements of channel c whose writes are not confirmed. -/
def movePending (s : State) (c : Nat) : List Nat :=
  let mine : PlaceFor → Option Nat := fun w => match w with
    | .mover c' kd => if c' = c then some kd else none
    | _ => none
  let held : List Held → List Nat := fun l => l.filterMap (fun h => match h with | .place x _ => mine x | _ => none)
  s.pcx.ports.flatMap (fun p => p.2.unconf.filterMap (fun u => mine u.what) ++ held p.2.held) ++
    s.facets.flatMap (fun x => held x.2.pcx.held)

/-- The confirmed position: the first destination element not confirmed. -/
def confirmedAt (s : State) (c : Nat) : Nat := (movePending s c).foldl min (getCh10 s c).kd

/-- The writes of channel c are forgotten. -/
def dropMoveWrites (c : Nat) (s : State) : State :=
  let mine : PlaceFor → Bool := fun w => match w with | .mover c' _ => decide (c' = c) | _ => false
  let keep : List Held → List Held := fun l => l.filter (fun h => match h with | .place x _ => !mine x | _ => true)
  { s with
    pcx := { s.pcx with ports := amap (fun _ p => { p with
      unconf := p.unconf.filter (fun u => !mine u.what), held := keep p.held }) s.pcx.ports }
    facets := amap (fun _ x => { x with pcx := { x.pcx with held := keep x.pcx.held } }) s.facets }

/-- A paced MOVE ends: until Mirror holds its completion, a warm reset goes on behind the bursts that Mirror holds for it
(R315, R453). -/
def keepBursts (w : MoveWait) (s : State) : State :=
  if mvPace w.desc = 0 ∨ (w.mirrored = 0 ∧ w.tookAt = 0) then s
  else { s with mov := { s.mov with replay := s.mov.replay ++ [w] } }

/-- Mirror holds the completion of a descriptor: what it held of the descriptor's steps serves no more. -/
def dropBursts (f q : Nat) (idx : U32) (s : State) : State :=
  { s with mov := { s.mov with replay := s.mov.replay.filter (fun w => !decide (w.f = f ∧ w.q = q ∧ w.idx = idx)) } }

/-- What Mirror holds of a channel's MOVE. -/
def Channel.kept (x : Channel) (d : Desc) : MoveWait :=
  { f := x.f, q := x.q, idx := x.idx, desc := d, mirrored := x.mirrored, tookAt := x.tookAt }

/-- The channel's MOVE ends: the channel is free, its source unbound, its descriptor completes. -/
def endMove (c : Nat) (st : Status) (s : State) : State :=
  let x := getCh10 s c
  match x.desc with
  | none => modChan c (fun _ => {}) s
  | some d =>
    let s := modChan c (fun _ => { st := if s.mov.stopped then .stopped else .idle }) (dropMoveWrites c s)
    let s := if mvPace d = 0 then s else modSrc x.f (mvPace d) (fun r => { r with bound := none }) s
    let s := keepBursts (x.kept d) { s with
      mirror := { s.mirror with pendDone := s.mirror.pendDone.filter (fun k => k ≠ .burst c) } }
    settle x.f (completeItem x.f x.q x.idx st s)

/-- Bursts all of whose destination elements are confirmed (R315). -/
def burstsDone (s : State) (c : Nat) (d : Desc) : Nat :=
  let b := confirmedAt s c * mvDw d
  if mvTotal d ≤ b then ceilDiv (mvSLine d * mvSLines d) (mvBurst d) else b / (mvBurst d * mvSw d)

/-- R315: a paced MOVE records each confirmed burst in Mirror. -/
def recordBursts (c : Nat) (s : State) : State :=
  let x := getCh10 s c
  match x.desc with
  | none => s
  | some d =>
    let n := burstsDone s c d
    if mvPace d ≠ 0 ∧ x.bursts < n ∧ ¬ s.mirror.pendDone.contains (.burst c) then
      mirrorIssue (.burst c) (modChan c (fun x => { x with bursts := n }) s)
    else s

/-- A channel's position for a restart at destination element kd (R314): the matching source element and the bytes
of it that lie before. -/
def restartAt (d : Desc) (kd : Nat) (x : Channel) : Channel :=
  { x with kd := kd, ks := kd * mvDw d / mvSw d, skip := kd * mvDw d % mvSw d, hold := [], reading := none }

/-- The SQ of a channel's MOVE drains, so that the MOVE waits for no further request. -/
def queueGoing (s : State) (x : Channel) : Bool := decide ((getQ s x.f false x.q).st = .draining)

/-- An access of a channel that cannot go on: it is parked, or waits for a tile record. -/
def parkChan (c : Nat) (s : State) : State :=
  if parkedStream s (.mover c) then modChan c (fun x => { x with st := .parked }) s else s

/-- One action of the serial procedure of R309; the flag says that another may follow at once. -/
def moveStep (c : Nat) (s : State) : State × Bool :=
  let x := getCh10 s c
  match x.desc with
  | none => (s, false)
  | some d =>
    if x.st ≠ .run ∨ x.reading.isSome ∨ streamBusy s (.mover c) then (s, false)
    else if mvDLine d * mvDLines d ≤ x.kd then
      (if movePending s c = [] then endMove c stOk s else s, false)
    else if mvDw d ≤ x.hold.length then
      let (s, t) := translate (.mover c) 0 x.f (mvDseg d) (dstElem d x.kd) (mvDw d) true s
      if !t.full then (parkChan c s, false)
      else if !placesReleased s x.f t.places then (modChan c (fun x => { x with st := .parked }) s, false)
      else (postAll x.f (.mover c x.kd) (dealBytes t.places (x.hold.take (mvDw d)))
        (modChan c (fun x => { x with kd := x.kd + 1, hold := x.hold.drop (mvDw d) }) s), true)
    else if mvPace d ≠ 0 ∧ x.ks % mvBurst d = 0 ∧ x.tookAt ≤ x.ks then
      if (reqSrc s x.f (mvPace d)).pending = 0 then
        (if queueGoing s x then endMove c (stat cMOVE_CANCELLED) s
         else modChan c (fun x => { x with st := .waitReq }) s, false)
      else (modSrc x.f (mvPace d) (takeReq s.now)
        (modChan c (fun x => { x with tookAt := x.ks + mvBurst d }) s), true)
    else
      let (s, t) := translate (.mover c) 0 x.f (mvSseg d) (srcElem d x.ks) (mvSw d) false s
      if !t.full then (parkChan c s, false)
      else if !placesReleased s x.f t.places then (modChan c (fun x => { x with st := .parked }) s, false)
      else (readAll (some (.source (.mover c))) x.f t.places (modChan c (fun x => { x with
        reading := some t.places }) s), false)

/-- A channel goes on until it waits; `fuel` bounds its actions. -/
def moveLoop : Nat → Nat → State → State
  | 0, _, s => s
  | n + 1, c, s =>
    match moveStep c s with
    | (s, true) => moveLoop n c s
    | (s, false) => s

/-- Channel c goes on (R309): between two reads it writes at most 64 elements and takes one request. -/
def moveGo (c : Nat) (s : State) : State := moveLoop 130 c s

/-- The element that channel c reads returns. -/
def moveRead (c : Nat) (bs : Bytes) (s : State) : State :=
  let x := getCh10 s c
  match x.reading with
  | none => s
  | some l =>
    let got := gather l bs s.mem
    moveGo c (modChan c (fun x => { x with
      reading := none, ks := x.ks + 1, skip := 0, hold := x.hold ++ got.drop x.skip }) s)

/-- A destination write of channel c is confirmed (R310). -/
def moveConfirmed (c : Nat) (s : State) : State := moveGo c (recordBursts c s)

/-- A parked channel goes on once its fault, migration or port lets it. -/
def wakeMover (c : Nat) (s : State) : State :=
  let x := getCh10 s c
  if x.st = .parked ∧ ¬ parkedStream s (.mover c) then moveGo c (modChan c (fun x => { x with st := .run }) s)
  else moveGo c s

/-- Every channel that can go on does. -/
def wakeMovers (s : State) : State := (s.mov.chans.map Prod.fst).foldl (fun s c => wakeMover c s) s

/-- A request source has a request: the MOVE bound to it takes a burst if it waits for one (R311). -/
def serveReq (f pace : Nat) (s : State) : State :=
  match (reqSrc s f pace).bound with
  | none => s
  | some c =>
    if (getCh10 s c).st = .waitReq ∧ (reqSrc s f pace).pending ≠ 0 then
      moveGo c (modChan c (fun x => { x with st := .run }) s)
    else s

/-- The entry with the least number, the first of several. -/
def leastBy {α : Type} (key : α → Nat) : List α → Option α
  | [] => none
  | x :: r => match leastBy key r with
    | none => some x
    | some y => if key y < key x then some y else some x

/-- The waiting MOVE that takes a channel next: of those not paced, or paced by a source that is not bound, the one
accepted first (R307, R311). -/
def nextMove (s : State) : Option MoveWait :=
  leastBy MoveWait.seq (s.mov.waiting.filter (fun w =>
    decide (mvPace w.desc = 0) || (reqSrc s w.f (mvPace w.desc)).bound.isNone))

/-- The lowest free channel of a range. -/
def freeChan (s : State) (lo n : Nat) : Option Nat :=
  ((List.range n).map (· + lo)).find? (fun c => decide ((getCh10 s c).desc = none) &&
    !s.xlt.migs.any (fun m => decide (4 ≤ m.phase ∧ m.ch = c)))

/-- R307: a waiting MOVE takes the lowest free channel and begins; a stopped mover takes none (R313). -/
def grantMove (s : State) : State :=
  if s.mov.stopped then s
  else match nextMove s, freeChan s 0 24 with
    | some w, some c =>
      let d := w.desc
      let b := mvBurst d * mvSw d
      let x : Channel := { st := .run, f := w.f, q := w.q, idx := w.idx, desc := some d,
                           bursts := w.mirrored, mirrored := w.mirrored, tookAt := w.tookAt }
      let s := { s with mov := { s.mov with waiting := s.mov.waiting.erase w } }
      let s := if mvPace d = 0 then s else modSrc w.f (mvPace d) (fun r => { r with bound := some c }) s
      moveGo c (modChan c (fun _ => restartAt d (ceilDiv (w.mirrored * b) (mvDw d)) x) s)
    | _, _ => s

/-! ### Cancelling (the state table before R313) -/

/-- The MOVEs of one SQ that wait for a request, a channel or a binding end MOVE_CANCELLED. -/
def cancelMoves (f q : Nat) (s : State) : State :=
  let ws := s.mov.waiting.filter (fun w => decide (w.f = f ∧ w.q = q ∧ mvPace w.desc ≠ 0))
  let s := { s with mov := { s.mov with waiting := s.mov.waiting.filter (fun w => !ws.contains w) } }
  let s := ws.foldl (fun s w => completeItem w.f w.q w.idx (stat cMOVE_CANCELLED) (keepBursts w s)) s
  let cs := (s.mov.chans.filter (fun c => decide (c.2.desc ≠ none ∧ c.2.f = f ∧ c.2.q = q ∧ c.2.st = .waitReq))).map Prod.fst
  settle f (cs.foldl (fun s c => endMove c (stat cMOVE_CANCELLED) s) s)

/-! ### The bus-error stop (R313, R314) -/

/-- A channel enters STOPPED_BUSERR: it keeps its confirmed position. -/
def stopChan (s : State) (c : Nat) : State :=
  let x := getCh10 s c
  match x.desc with
  | none => modChan c (fun x => { x with st := .stopped }) s
  | some d =>
    let kd := confirmedAt s c
    modChan c (fun x => { restartAt d kd x with st := .stopped }) (dropMoveWrites c s)

/-- MOV_DEV_ERRADDR and MOV_DEV_ERRINFO take an error. -/
def capture (r : MovErr) (s : State) : State :=
  { s with mov := { s.mov with
    errAddr := r.addr, errPort := BitVec.ofNat 3 r.port, errHalf := r.halfB
    errKind := BitVec.ofNat 3 r.kind, errValid := true, errAt := some r.at_ } }

/-- R313: the mover stops, the first failing request captured, of two in one cycle the one of the lower port; a later one
only counts. -/
def stopMover (port : Nat) (halfB : Bool) (kind : Nat) (addr : U64) (forced : Bool) (s : State) : State :=
  let r : MovErr := { at_ := s.now, port := port, halfB := halfB, kind := kind, addr := addr }
  let s := collect 0x20 clsUC port forced addr 0 0 none s
  if !s.mov.stopped then (List.range 32).foldl stopChan (capture r { s with mov := { s.mov with stopped := true } })
  else if s.mov.errAt = some s.now then when (decide (port < s.mov.errPort.toNat)) (capture r) s
  else { s with mov := { s.mov with
    last := some r, later := if s.mov.later = 65535 then s.mov.later else s.mov.later + 1 } }

/-- The bus error of this very cycle (R314). -/
def errorNow (s : State) : Option MovErr := s.mov.last.filter (fun r => decide (r.at_ = s.now))

/-- RESUME (R314): each stopped channel restarts from its confirmed position, unless a bus error came in this very cycle:
the mover then stays stopped with that error captured. -/
def resumeMover (s : State) : State :=
  if !s.mov.stopped || decide (s.mov.errAt = some s.now) then s
  else if let some r := errorNow s then capture r { s with mov := { s.mov with later := 0, last := none } }
  else
    let s := { s with mov := { s.mov with stopped := false, later := 0, last := none } }
    wakeMovers ((List.range 32).foldl (fun s c => modChan c (fun x => { x with
      st := if x.desc = none then .idle else .run }) s) s)

/-- ABORT (R314): every MOVE held by a channel completes MOVE_BUSERR. -/
def abortMover (s : State) : State :=
  if !s.mov.stopped then s
  else
    let s := { s with mov := { s.mov with stopped := false, later := 0, last := none } }
    let s := (List.range 32).foldl (fun s c => if (getCh10 s c).desc = none then s
      else endMove c (stat cMOVE_BUSERR) (dropWaits (.mover c) s)) s
    { s with mov := { s.mov with chans := amap (fun _ x => { x with st := .idle }) s.mov.chans } }

end Sys2Proof.Machine
end

