-- ==== Sys2Proof/Machine/Xlt.lean ====
section
/-!
DEFINITION. The commands of translation (09_translation_and_local_memory.md): segment commands, misses, the fault
queue, resuming and aborting faults, migration and remapping of tiles.
-/
namespace Sys2Proof.Machine

/-! ### Streams that go on -/

/-- A stream that waits no more goes on; a requester's source stream does so at its QP's next turn. -/
def goOn (st : Stream) (s : State) : State :=
  if streamBusy s st then s
  else match st with
    | .source _ => s
    | .responder n => goOnQp st n false s
    | .readResp n => goOnQp st n true s
    | .coll gid _ => runGroup gid s
    | .mover c => wakeMover c s
    | .desc q => readFrame q s
    | .raw => rawGo s

/-- The streams of pieces go on. -/
def goOnAll (l : List Piece) (s : State) : State := l.foldl (fun s p => goOn p.stream s) s

/-! ### Segment commands (R260, R264, R452) -/

/-- The BAD_FIELD row of R260. -/
def segBad (s : State) (f : Nat) (x : FacetXlt) : Bool :=
  let t := fld x.attr 2 0
  let top := x.base.toNat + x.limit.toNat
  decide (6 ≤ t) || (decide (t ≠ 5) && !hasPort s t) || decide (2 ^ 64 ≤ top) ||
    !inWindow s f t x.base.toNat top

/-- The IN_USE row of R260. -/
def segInUse (s : State) (f n : Nat) : Bool :=
  let q := (getF s f).que
  let names := fun (x : Nat × Queue) => decide (x.2.st ≠ .disabled ∧ (x.2.ringSeg = n ∨ x.2.progSeg = n))
  q.sqs.any names || q.rqs.any names || q.evrs.any (fun e => e.2.active && decide (e.2.ringSeg = n)) ||
    (decide (f = 0) && fltEn s && decide (fld s.xlt.fltCfg 7 0 = n)) ||
    s.xlt.migs.any (fun m => decide (m.facet = f ∧ m.seg = n ∧ 1 ≤ m.phase)) ||
    s.xlt.recs.any (fun r => decide (r.2.facet = f ∧ r.2.seg = n))

/-- The segment command ends with a result. -/
def segResult (f code : Nat) (s : State) : State :=
  modF f (fun x => { x with xlt := { x.xlt with result := BitVec.ofNat 16 code, busy := 0 } }) s

/-- The tile records of a segment and their cached copies are discarded. -/
def dropTiles (f n : Nat) (s : State) : State :=
  let mine := fun (k : Nat) => decide (k / 2 ^ 23 = f * 256 + n)
  { s with xlt := { s.xlt with tiles := s.xlt.tiles.filter (fun t => !mine t.1), cache := s.xlt.cache.filter (fun k => !mine k) } }

/-- The entry that the registers of the block spell. -/
def segOf (x : FacetXlt) : Seg :=
  { valid := true, target := BitVec.ofNat 3 (fld x.attr 2 0), base := x.base, limit := x.limit
    lrd := bit x.attr 3, lwr := bit x.attr 4, rrd := bit x.attr 5, rwr := bit x.attr 6, pin := bit x.attr 7, key := x.key }

/-- A place lies in a tile's old location. -/
def inTile (x : Tile) (l : Nat × U64 × Nat) : Bool :=
  decide (l.1 = x.loc.toNat ∧ x.addr.toNat ≤ l.2.1.toNat ∧ l.2.1.toNat < x.addr.toNat + tileBytes)

/-- The places of every source read in flight. -/
def flyingPlaces (s : State) : List (Nat × U64 × Nat) :=
  s.qps.flatMap (fun q => (q.2.req.pulls ++ q.2.rsp.pulls).flatMap (fun p => p.places)) ++
  s.groups.flatMap (fun g => match g.2.run with
    | some r => r.state.flatMap (fun c => c.2.reading.flatMap (fun m => m.2))
    | none => []) ++
  s.mov.chans.flatMap (fun c => c.2.reading.getD []) ++
  s.eth.sends.flatMap (fun x => if x.pulled then framePlaces s x.desc x.formed else [])

/-- No access piece at the places that `hit` tells is unfinished: no read in flight, no write unconfirmed or held. -/
def finished (s : State) (hit : Nat × U64 × Nat → Bool) : Bool :=
  let wrote := fun (w : PWrite) => hit (w.target, w.addr, w.bytes.length)
  let held := fun (l : List Held) => l.any (fun h => match h with | .place _ w => wrote w | _ => false)
  !(flyingPlaces s).any hit && !s.pcx.ports.any (fun p => p.2.unconf.any (fun u => wrote u.write) || held p.2.held) &&
    !s.facets.any (fun y => held y.2.pcx.held)

/-- A place lies where the entry of segment n of facet f leads. -/
def segPlace (s : State) (f n : Nat) (l : Nat × U64 × Nat) : Bool :=
  let g := getSeg s f n
  decide (l.1 = g.target.toNat ∧ g.base.toNat ≤ l.2.1.toNat ∧ l.2.1.toNat ≤ g.base.toNat + g.limit.toNat) ||
    s.xlt.tiles.any (fun t => decide (t.1 / 2 ^ 23 = f * 256 + n) && inTile t.2 l)

/-- Every access piece translated through the entry of segment n has finished (R264). -/
def segQuiet (s : State) (f n : Nat) : Bool := !(getSeg s f n).valid || finished s (segPlace s f n)

/-- A segment command takes effect once the pieces of the old entry have finished; until then it is BUSY (R260, R264). -/
def segEffect (f n op : Nat) (g : FacetXlt → FacetXlt) (s : State) : State :=
  if segQuiet s f n then settle f (segResult f 0 (dropTiles f n (modF f (fun y => { y with xlt := g y.xlt }) s)))
  else modF f (fun y => { y with xlt := { y.xlt with busy := op } }) s

/-- WRITE (R260): the entry is created or replaced with its tile records. -/
def segWrite (f : Nat) (s : State) : State :=
  let x := (getF s f).xlt
  let n := x.num.toNat
  let g := segOf x
  if segBad s f x then segResult f cBAD_FIELD s
  else if segInUse s f n then segResult f cIN_USE s
  else if x.tilesAllot.toNat + segTiles (getSeg s f n) < tilesUsed s f + segTiles g then segResult f cNO_RESOURCE s
  else segEffect f n 1 (fun y => { y with segs := aset n g y.segs }) s

/-- INVALIDATE (R260). -/
def segInvalidate (f : Nat) (s : State) : State :=
  let n := (getF s f).xlt.num.toNat
  if segInUse s f n then segResult f cIN_USE s
  else if (getSeg s f n).valid then
    segEffect f n 2 (fun y => { y with segs := amod {} n (fun g => { g with valid := false }) y.segs }) s
  else segResult f 0 s

/-- A command that is BUSY looks again whether it may take effect. -/
def segAgain (s : State) (f : Nat) : State :=
  match (getF s f).xlt.busy with
  | 1 => segWrite f s
  | 2 => segInvalidate f s
  | _ => s

/-- Every facet's segment command that is BUSY goes on. -/
def segsGo (s : State) : State := (s.facets.map Prod.fst).foldl segAgain s

/-- No segment command of facet f is BUSY (R260). -/
def segIdle (s : State) (f : Nat) : Bool := facetOn s f && decide ((getF s f).xlt.busy = 0)

/-- READ (R260): the registers are loaded from the entry; KEY is left as it is. -/
def segRead (f : Nat) (s : State) : State :=
  let n := (getF s f).xlt.num.toNat
  let g := getSeg s f n
  let mig := s.xlt.migs.any (fun m => decide (m.facet = f ∧ m.seg = n ∧ 1 ≤ m.phase))
  segResult f 0 (modF f (fun y => { y with xlt := { y.xlt with
    attr := BitVec.ofNat 10 (g.target.toNat + b2n g.lrd * 8 + b2n g.lwr * 16 + b2n g.rrd * 32 + b2n g.rwr * 64 +
      b2n g.pin * 128 + b2n g.valid * 256 + b2n mig * 512)
    base := g.base
    limit := g.limit } }) s)

/-- SEGMENT_WRITE (R260). -/
def execSegmentWrite (f : Nat) (s : State) : Host.Outcome State Fault Refusal :=
  live (fun s => when (segIdle s f) (segWrite f) s) s

/-- SEGMENT_INVALIDATE (R260). -/
def execSegmentInvalidate (f : Nat) (s : State) : Host.Outcome State Fault Refusal :=
  live (fun s => when (segIdle s f) (segInvalidate f) s) s

/-- SEGMENT_READ (R260). -/
def execSegmentRead (f : Nat) (s : State) : Host.Outcome State Fault Refusal :=
  live (fun s => when (segIdle s f) (segRead f) s) s

/-! ### Misses (R268) -/

/-- The next of the streams that wait for a miss is granted one, round robin. -/
def grantMiss (s : State) : State :=
  let key := fun (m : Miss) => streamKey m.piece.stream
  let wait := s.xlt.misses.filter (fun m => !m.flying)
  match (leastBy key (wait.filter (fun m => decide (s.xlt.missPtr < key m)))).or (leastBy key wait) with
  | none => s
  | some x => { s with xlt := { s.xlt with
      missPtr := key x, misses := s.xlt.misses.map (fun m => if m = x then { m with flying := true } else m) } }

/-- The tile record of a stream's miss returns: it is cached, and the stream's piece is translated. -/
def missDone (st : Stream) (s : State) : State :=
  match s.xlt.misses.find? (fun m => decide (m.piece.stream = st) && m.flying) with
  | none => s
  | some m =>
    let p := m.piece
    let s := grantMiss { s with xlt := { s.xlt with
      misses := s.xlt.misses.filter (fun x => decide (x.piece.stream ≠ st)) } }
    goOn st (makeResident (tileKey p.facet p.seg (Piece.tile p)) s)

/-- TRANSLATION_MISS_DONE (R268). -/
def execTranslationMissDone (st : Stream) (s : State) : Host.Outcome State Fault Refusal := live (missDone st) s

/-! ### The fault queue (R263, R271 to R274) -/

/-- A held fault can be raised again: a record and a slot are free (R273). -/
def canRaise (s : State) : Bool := fltEn s && decide (0 < fltFree s) && (freeRec s).isSome

/-- R273: the streams that hold faults raise them again one at a time in order, each as R272 stands then: it joins an
open record of its tile, opens one, or goes on holding its fault. -/
def reraise : List Piece → State → State
  | [], s => s
  | p :: r, s =>
    let t := { s with xlt := { s.xlt with heldFaults := s.xlt.heldFaults.erase p } }
    let x := getTile s p.facet p.seg (Piece.tile p)
    if x.migrating then reraise r (parkOnMig p t)
    else if x.present then reraise r (goOn p.stream t)
    else if (openRec s p).isSome || canRaise s then reraise r (raiseFaults p [p] t)
    else reraise r s

/-- FAULT_RERAISE (R273): once a record and a ring slot are both free. -/
def execFaultReraise (s : State) : Host.Outcome State Fault Refusal :=
  live (fun s => when (canRaise s) (reraise s.xlt.heldFaults) s) s

/-- R274: the operation of an aborted piece fails. -/
def abortPiece (p : Piece) (s : State) : State :=
  let fails := fun (n : Nat) => failQp n (fun d =>
    if psnIn p.psn d.psn d.n then statD cACCESS_DENIED 2 else stat cFLUSHED) s
  match p.stream with
  | .source n => if (descAt (getQp s n) p.psn).isSome then fails n else s
  | .responder n => if (getQp s n).connected then accessFail n p.psn s else s
  | .readResp n => if (descAt (getQp s n) p.psn).isSome then fails n else s
  | .coll gid m =>
    match getRun s gid with
    | none => s
    | some r => match memberIn r m with
      | none => s
      | some x => settle x.f (failMember gid m r.csn (completeItem x.f x.q x.idx (statD cACCESS_DENIED 2) s))
  | .mover c => endMove c (statD cACCESS_DENIED 2) s
  | .desc q => match sendOf s q, nextStart s 0 false q with
    | some x, _ => endSend x (statD cACCESS_DENIED 2) s
    | none, some i => settle 0 (completeItem 0 q i.idx (statD cACCESS_DENIED 2) (startItem 0 q i.idx s))
    | none, none => s
  | .raw => abortRaw s

/-- R274: a tag resumes or aborts every operation parked on its open record. -/
def resumeFault (v : U32) (s : State) : State :=
  let k := fld v 11 0
  match agetq k s.xlt.recs with
  | none => s
  | some r =>
    if (recGen s k).toNat ≠ fld v 30 12 then s
    else if bit v 31 then r.waiters.foldl (fun s p => abortPiece p (clearBegun p.stream s)) (dropRec k s)
    else goOnAll r.waiters (retranslate r.waiters (dropRec k s))

/-- A write of a register that the management facet's page alone carries; it works while that facet resets (R319). -/
def mgmtWrite (f : Nat) (g : State → State) (s : State) : State := when (decide (f = 0)) g s

/-- FLT_RESUME (R274). -/
def execFltResume (f : Nat) (v : U32) (s : State) : Host.Outcome State Fault Refusal :=
  live (mgmtWrite f (resumeFault v)) s

/-- A write of FLT_CFG: RING_SEG is ignored while EN is 1; EN is set only over a segment that passes R263. -/
def writeFltCfg (v : U64) (s : State) : State :=
  let was := fltEn s
  let seg := if was then fld s.xlt.fltCfg 7 0 else fld v 7 0
  let en := bit v 20 && (was || pinCheck s 0 seg s.xlt.fltOff (4096 * 32) [.lwr])
  fltSignal { s with xlt := { s.xlt with
    fltCfg := BitVec.ofNat 64 (seg + fld v 19 8 * 2 ^ 8 + b2n en * 2 ^ 20) } }

/-- FLT_CFG_WRITE (R263). -/
def execFltCfgWrite (f : Nat) (v : U64) (s : State) : Host.Outcome State Fault Refusal :=
  live (mgmtWrite f (writeFltCfg v)) s

/-- A write of FLT_CONS (R288). -/
def writeFltCons (v : U32) (s : State) : State :=
  if (v - s.xlt.fltCons).toNat ≤ (s.xlt.fltProd - s.xlt.fltCons).toNat then
    { s with xlt := { s.xlt with fltCons := v } }
  else s

/-- FLT_CONS (R271). -/
def execFltCons (f : Nat) (v : U32) (s : State) : Host.Outcome State Fault Refusal :=
  live (mgmtWrite f (writeFltCons v)) s

/-- A write of FLT_ARM (R288). -/
def writeFltArm (v : U32) (s : State) : State :=
  if bit v 0 then fltSignal { s with xlt := { s.xlt with fltArmed := true } } else s

/-- FLT_ARM (R271). -/
def execFltArm (f : Nat) (v : U32) (s : State) : Host.Outcome State Fault Refusal :=
  live (mgmtWrite f (writeFltArm v)) s

/-! ### Migration (R278 to R281) -/

/-- The migration a TILE_MIGRATE or TILE_MAP descriptor asks for. -/
def migOf (q : Nat) (isMap : Bool) (i : Item) : Mig :=
  { q := q, idx := i.idx, isMap := isMap
    facet := fld i.desc.w2 6 0, seg := fld i.desc.w2 15 8, tile := fld i.desc.w2 38 16
    loc := BitVec.ofNat 3 (fld i.desc.w2 41 39), addr := i.desc.w3
    present := !isMap || bit i.desc.w2 42, seq := i.seq }

/-- R278: the command completes BAD_FIELD. -/
def migBad (s : State) (m : Mig) : Bool :=
  let g := getSeg s m.facet m.seg
  let l := m.loc.toNat
  !g.valid || g.pin || decide (segTiles g ≤ m.tile) || decide (6 ≤ l) || (decide (l ≠ 5) && !hasPort s l) ||
    !inWindow s m.facet l m.addr.toNat (m.addr.toNat + tileLen g m.tile - 1) ||
    (!m.isMap && !(getTile s m.facet m.seg m.tile).present)

/-- A TILE_MIGRATE or TILE_MAP starts: checked, and queued. -/
def startMig (f q op : Nat) (isMap : Bool) (s : State) : State :=
  startWith f q op (fun i s =>
    let m := migOf q isMap i
    if migBad s m then completeItem f q i.idx (stat cBAD_FIELD) s
    else { s with xlt := { s.xlt with migs := s.xlt.migs ++ [m] } }) s

/-- TILE_MIGRATE (R279). -/
def execTileMigrate (f q : Nat) (s : State) : Host.Outcome State Fault Refusal := live (startMig f q 0x33 false) s

/-- TILE_MAP (R280). -/
def execTileMap (f q : Nat) (s : State) : Host.Outcome State Fault Refusal := live (startMig f q 0x34 true) s

/-- Two commands name one tile. -/
def Mig.same (a b : Mig) : Bool := decide (a.facet = b.facet ∧ a.seg = b.seg ∧ a.tile = b.tile)

/-- The command leaves the list with a status. -/
def endMig (m : Mig) (st : Status) (s : State) : State :=
  let s := { s with xlt := { s.xlt with migs := s.xlt.migs.filter (fun x => decide (x.q ≠ m.q ∨ x.idx ≠ m.idx)) } }
  let s := if !m.isMap ∧ st = stOk then { s with xlt := { s.xlt with migrated := s.xlt.migrated + 1 } } else s
  settle 0 (completeItem 0 m.q m.idx st s)

/-- A migration in the list changed. -/
def modMig (m : Mig) (g : Mig → Mig) (s : State) : State :=
  { s with xlt := { s.xlt with migs := s.xlt.migs.map (fun x => if x.q = m.q ∧ x.idx = m.idx then g x else x) } }

/-- Steps 1 and 2 of R279 for the command that waits and was accepted first. -/
def beginMig (s : State) : State :=
  match leastBy Mig.seq (s.xlt.migs.filter (fun m => decide (m.phase = 0))) with
  | none => s
  | some m =>
    let run := s.xlt.migs.filter (fun x => decide (1 ≤ x.phase))
    if run.any (Mig.same m) || decide (8 ≤ (run.filter (fun x => !x.isMap)).length) then s
    else if migBad s m then endMig m (stat cBAD_FIELD) s
    else
      let x := getTile s m.facet m.seg m.tile
      if !m.isMap ∧ x.loc = m.loc ∧ x.addr = m.addr then endMig m stOk s
      else modMig m (fun m => { m with phase := 2 }) (setTile m.facet m.seg m.tile { x with migrating := true } s)

/-- MIGRATION_BEGIN (R279). -/
def execMigrationBegin (s : State) : Host.Outcome State Fault Refusal := live beginMig s

/-- Step 3 of R279: nothing translated to the tile's old location is unfinished. -/
def drained (s : State) (x : Tile) : Bool := finished s (inTile x)

/-- The parked pieces and the tile's fault record are released, and their streams go on (step 6 of R279). -/
def releaseAll (m : Mig) (parked : List Piece) (s : State) : State :=
  let ws := (s.xlt.recs.filter (fun r => r.2.facet = m.facet ∧ r.2.seg = m.seg ∧ r.2.tile = m.tile)).flatMap
    (fun r => r.2.waiters)
  goOnAll (parked ++ ws) (releaseTile m.facet m.seg m.tile parked s)

/-- The record a finished migration or TILE_MAP leaves. -/
def newTile (m : Mig) : Tile := { present := m.present, loc := m.loc, addr := m.addr }

/-- Steps 5 and 6 of R279, and R280: the record takes its new place, and the pieces parked on it go on. -/
def finishMig (m : Mig) (s : State) : State :=
  let x := getTile s m.facet m.seg m.tile
  let s := setTile m.facet m.seg m.tile { newTile m with epoch := x.epoch, poolEpoch := x.poolEpoch } s
  let s := shrinkEval m.facet (endMig m stOk s)
  if m.present then releaseAll m m.parked s
  else goOnAll m.parked (retranslate m.parked s)

/-- The command on a tile that is in a phase. -/
def migIn (s : State) (f seg t phase : Nat) : Option Mig :=
  s.xlt.migs.find? (fun m => decide (m.facet = f ∧ m.seg = seg ∧ m.tile = t ∧ m.phase = phase))

/-- The old location of the tile of a migration, as the copy reads it. -/
def migSource (s : State) (m : Mig) : List (Nat × U64 × Nat) :=
  let x := getTile s m.facet m.seg m.tile
  [(x.loc.toNat, x.addr, tileLen (getSeg s m.facet m.seg) m.tile)]

/-- The reads of a copy are issued once the port of the old location is released. -/
def askMig (s : State) (m : Mig) : State :=
  if m.phase = 4 ∧ m.asked = false ∧ placesReleased s 0 (migSource s m) then
    readAll (some (.mig m.facet m.seg m.tile)) 0 (migSource s m) (modMig m (fun m => { m with asked := true }) s)
  else s

/-- Every copy whose reads wait for a port is looked at. -/
def askMigs (s : State) : State := s.xlt.migs.foldl askMig s

/-- Step 3 of R279 ends: a TILE_MAP is done, a migration takes a channel for its copy unless the mover is stopped. -/
def migDrained (f seg t : Nat) (s : State) : State :=
  match migIn s f seg t 2 with
  | none => s
  | some m =>
    if !drained s (getTile s f seg t) then s
    else if m.isMap then finishMig m s
    else if s.mov.stopped then s
    else match freeChan s 24 8 with
      | some c => askMigs (modMig m (fun m => { m with phase := 4, ch := c }) s)
      | none => s

/-- MIGRATION_DRAINED (R279, R280). -/
def execMigrationDrained (f seg t : Nat) (s : State) : Host.Outcome State Fault Refusal := live (migDrained f seg t) s

/-- The copy's reads have returned: its bytes are written at the new location (step 4 of R279). -/
def migCopied (m : Mig) (bytes : Bytes) (s : State) : State :=
  postAll 0 (.mig m.facet m.seg m.tile) [(m.loc.toNat, m.addr, gather (migSource s m) bytes s.mem)]
    (modMig m (fun m => { m with phase := 5 }) s)

/-- The copy's writes are confirmed: steps 5 and 6. -/
def migPlaced (f seg t : Nat) (s : State) : State :=
  match migIn s f seg t 5 with
  | none => s
  | some m => finishMig m s

/-- R281: the copy of a migration ends with a bus error. -/
def migBusError (s : State) (m : Mig) : State :=
  let x := getTile s m.facet m.seg m.tile
  let s := voidWrites [.mig m.facet m.seg m.tile] (readsEnd (.mig m.facet m.seg m.tile) s)
  let s := endMig m (stat cMOVE_BUSERR) (setTile m.facet m.seg m.tile { x with migrating := false } s)
  releaseAll m m.parked s

/-- R313: a bus error of the mover stops it and ends every migration copy. -/
def busError (port : Nat) (halfB : Bool) (kind : Nat) (addr : U64) (forced : Bool) (s : State) : State :=
  let s := stopMover port halfB kind addr forced s
  (s.xlt.migs.filter (fun m => decide (4 ≤ m.phase))).foldl migBusError s

end Sys2Proof.Machine
end

