-- ==== Sys2Proof/Machine/Ports.lean ====
section
/-!
DEFINITION. Host and accelerator ports (10_host_and_accelerator_ports.md, R289 to R306), the confirmation of
placements (R105), source reads and Mirror writes that complete, and the mover's commands (R307 to R315).
-/
namespace Sys2Proof.Machine

/-! ### Confirmation (R105) -/

/-- A RECV's or descriptor's write-back is visible (R66). -/
def wbVisible (f : Nat) (rq : Bool) (q : Nat) (idx : U32) (s : State) : State :=
  let s := settle f (modItem f rq q idx (fun i => { i with wbSeen := true }) s)
  match (getQ s f rq q).bound with
  | some n => if rq then sendVisible n idx s else s
  | none => s

/-- A progress record is visible (R68, R76, R77). -/
def recordSeen (f : Nat) (rq : Bool) (q : Nat) (s : State) : State :=
  let s := modQ f rq q (fun x => { x with recFlight := false }) s
  let e := (getQ s f rq q).evr
  if (getQ s f rq q).mode ≠ 0 ∧ (getE s f e).active then pendingEntries f e s else s

/-- A packet waits behind its stream's miss: not all of its bytes are placed. -/
def stalled (s : State) (n : Nat) (resp : Bool) (psn : U32) : Bool :=
  (getQp s n).rsp.stall.any (fun p => decide (p.bth.typ.toNat = 6) == resp && decide (p.bth.psn = psn))

/-- The writes of one piece of work are confirmed. -/
def confirmed (s : State) (w : PlaceFor) : State :=
  if stillOut s w then s
  else match w with
    | .packet n psn => if stalled s n false psn then s else tryFreeQp n (confirmRx n [psn] s)
    | .readResp n psn => if stalled s n true psn then s else tryFreeQp n (confirmTx n [psn] false (modQp n (fun q => { q with req := { q.req with
        placing := q.req.placing.filter (fun x => x ≠ psn) } }) s))
    | .chunk gid _ _ => runGroup gid s
    | .counts gid m => runGroup gid (countsWritten gid m s)
    | .after f q idx => settle f (completeItem f q idx stOk s)
    | .writeBack f rq q idx => wbVisible f rq q idx s
    | .mover c _ => moveConfirmed c s
    | .raw idx => rawPlaced idx s
    | .record f rq q => recordSeen f rq q s
    | .event f e => msixCheck f e s
    | .mig f seg t => migPlaced f seg t s
    | .void => s
    | .other => s

/-- What confirmed writes served, each piece of work once, in order. -/
def confirmAll (l : List Unconf) (s : State) : State := ((l.map (fun u => u.what)).dedup).foldl confirmed s

/-- A flush read of the port has left it and is not answered. -/
def Port.flushOut (p : Port) : Bool := p.flushing && p.egress.all (fun x => decide (x.np ≠ some .flush))

/-- The flush read of a port returns: what was issued before it is confirmed, and the next flush goes out. -/
def flushReturned (k : Nat) (s : State) : State :=
  let p := getP s k
  if !p.flushOut then s
  else
    let s := modP k (fun p => { p with
      flushing := false, flushFails := 0, unconf := p.unconf.filter (fun u => !u.covered)
      reads := p.reads.filter (fun r => decide (r.1 ≠ .flush)) }) s
    confirmAll (p.unconf.filter (fun u => u.covered)) (flushNow k s)

/-- FLUSH_RETRY (R295): 1 µs after a failed flush read. -/
def execFlushRetry (port : Nat) (halfB : Bool) (s : State) : Host.Outcome State Fault Refusal :=
  let k := portKey port halfB
  live (fun s => match (getP s k).flushFailAt with
    | some t => if elapsed s t (us 1) then flushNow k (modP k (fun p => { p with flushFailAt := none }) s) else s
    | none => s) s

/-! ### Source reads and Mirror writes that complete -/

/-- A Mirror write is in both copies (R29, R107). -/
def mirrored (k : MirrorKey) (s : State) : State :=
  match k with
  | .qpE n =>
    match (getQp s n).rsp.mirWrite with
    | none => s
    | some e => sendOwed n (modMir n (fun m => { m with e := e }) (modQp n (fun q => { q with
        rsp := { q.rsp with mirWrite := none } }) s))
  | .qpSend n => sendMirrored n s
  | .qpFirst n psn =>
    let s := match (getQp s n).req.descs.find? (fun d => decide (d.psn = psn)) with
      | some d => modMir n (fun m =>
        let e := psn + BitVec.ofNat 32 d.n
        { m with next := if psnBefore m.next e then e else m.next }) s
      | none => s
    modQp n (fun q => { q with req := { q.req with
      descs := q.req.descs.map (fun d => if d.psn = psn then { d with recorded := true } else d) } }) s
  | .cseq n =>
    let b := (getQp s n).cip.bound + BitVec.ofNat 63 (2 ^ 20)
    cipGo n (modMir n (fun m => { m with bound := b }) (modQp n (fun q => { q with cip := { q.cip with bound := b } }) s))
  | .done f rq q idx =>
    let s := if rq then s else dropFrames f q idx (dropBursts f q idx s)
    settle f (modItem f rq q idx (fun i => { i with recorded := true }) s)
  | .burst c => recordBursts c (modChan c (fun x => { x with mirrored := x.bursts }) s)
  | .frame _ q => frameRecorded q s

/-- MIRROR_WRITE_DONE (R107): of a write that is in flight. -/
def execMirrorWriteDone (k : MirrorKey) (s : State) : Host.Outcome State Fault Refusal :=
  live (fun s => if s.mirror.pendDone.contains k then
    mirrored k { s with mirror := { s.mirror with pendDone := s.mirror.pendDone.erase k } } else s) s

/-! ### A port goes down (R301, R302) -/

/-- A place lies behind port k. -/
def behind (s : State) (k : Nat) (l : List (Nat × U64 × Nat)) : Bool :=
  l.any (fun x => decide (keyFor s x.1 x.2.1 = k))

/-- What becomes of a write that no flush confirmed: records are held as records, placements of packets and READ_RESPs
are sent again by their sources, everything else is held. -/
def heldOf (u : Unconf) : Option Held :=
  match u.what with
  | .packet _ _ => none
  | .readResp _ _ => none
  | .void => none
  | .record f rq q => some (.record f rq q)
  | w => some (.place w u.write)

/-- An unconfirmed write joins the work held for its port, ahead of what is held already. -/
def holdBack (k : Nat) (l : List Unconf) (s : State) : State :=
  l.reverse.foldl (fun s u => match heldOf u with
    | none => s
    | some h =>
      if k = 0 then modF u.write.facet (fun x => { x with pcx := { x.pcx with held := h :: x.pcx.held.filter (fun y => y ≠ h) } }) s
      else modP k (fun p => { p with held := h :: p.held.filter (fun y => y ≠ h) }) s) s

/-- R120: a responder's unconfirmed placements behind the port are void; NAK_HOLD names the lowest. -/
def voidPackets (k : Nat) (ps : List U32) (n : Nat) (s : State) : State :=
  if ps = [] then s
  else
    let e := (getQp s n).rsp.e
    let low := ps.foldl (fun a p => if (p - e).toNat < (a - e).toNat then p else a) (ps.headD e)
    nakHoldFor n low [k] (modQp n (fun q => { q with rsp := { q.rsp with
      held := q.rsp.held.filter (fun x => !ps.contains x) } }) s)

/-- The reads and placements of QP n behind port k are gone, and it holds (R120, R121). -/
def qpPortDown (k : Nat) (l : List Unconf) (s : State) (n : Nat) : State :=
  let q := getQp s n
  let psns := l.filterMap (fun u => match u.what with | .packet m p => if m = n then some p else none | _ => none)
  let back := l.filterMap (fun u => match u.what with | .readResp m p => if m = n then some p else none | _ => none)
  let reads := (q.rsp.pulls.filter (fun p => behind s k p.places)).map (fun p => p.psn)
  let s := voidWrites (psns.map (.packet n) ++ back.map (.readResp n)) s
  let s := modQp n (fun q => { q with
    req := { q.req with
      pulls := q.req.pulls.filter (fun p => !behind s k p.places)
      placing := q.req.placing.filter (fun p => !back.contains p)
      altResp := q.req.altResp.filter (fun p => !back.contains p) }
    rsp := { q.rsp with
      pulls := q.rsp.pulls.filter (fun p => !reads.contains p.psn)
      sent := q.rsp.sent.filter (fun r => !reads.contains r.psn) } }) s
  let s := if q.connected then voidPackets k (psns ++ reads) n s else s
  tryFreeQp n (if sourceHeld s n then enterHold n 4 s else s)

/-- A queue's fetch read behind the port will not return: it waits for the port (R70, R302). -/
def holdFetch (k f : Nat) (rq : Bool) (s : State) (q : Nat) : State :=
  let x := getQ s f rq q
  if pinKey s f x.ringSeg x.ringOff = k then
    modQ f rq q (fun x => { x with fetch := x.fetch.map (fun r => { r with held := true }) }) s
  else s

/-- The same of every queue of facet f. -/
def holdFetches (k f : Nat) (s : State) : State :=
  let s := ((getF s f).que.sqs.map Prod.fst).foldl (holdFetch k f false) s
  ((getF s f).que.rqs.map Prod.fst).foldl (holdFetch k f true) s

/-- A held fetch read whose port is released goes out again. -/
def freeFetch (f : Nat) (rq : Bool) (s : State) (q : Nat) : State :=
  match (getQ s f rq q).fetch.filter (fun r => r.held && ringReleased s f rq q) with
  | some r => readSlots f rq q r.first r.count s
  | none => s

/-- The same of every queue of facet f. -/
def freeFetches (s : State) (f : Nat) : State :=
  let s := ((getF s f).que.sqs.map Prod.fst).foldl (freeFetch f false) s
  ((getF s f).que.rqs.map Prod.fst).foldl (freeFetch f true) s

/-- Collective source reads behind the port are discarded (R302). -/
def dropCollReads (k : Nat) (s : State) : State :=
  { s with groups := amap (fun _ g => { g with run := g.run.map (fun r => { r with
    state := amap (fun _ c => { c with reading := c.reading.filter (fun m => !behind s k m.2) }) r.state }) }) s.groups }

/-- Channels that read from or wrote to the port park (R312's state table). -/
def parkChans (k : Nat) (l : List Unconf) (s : State) : State :=
  let wrote := fun (c : Nat) => l.any (fun u => match u.what with | .mover c' _ => decide (c' = c) | _ => false)
  { s with mov := { s.mov with chans := amap (fun c x =>
      if x.st = .run ∧ (wrote c ∨ behind s k (x.reading.getD [])) then { x with
        st := .parked, reading := if behind s k (x.reading.getD []) then none else x.reading } else x) s.mov.chans } }

/-- Reads of ETH_SEND payloads and of migration copies behind the port are issued again when it is released (R302). -/
def dropAsked (k : Nat) (s : State) : State :=
  { s with
    eth := { s.eth with sends := s.eth.sends.map (fun x =>
      if behind s k (framePlaces s x.desc x.formed) then { x with pulled := false } else x) }
    xlt := { s.xlt with migs := s.xlt.migs.map (fun m =>
      if m.phase = 4 ∧ behind s k (migSource s m) then { m with asked := false } else m) } }

/-- MSI-X messages that have not left a port that goes down are recorded in their functions' PBAs (R302). -/
def pendMsix (p : Port) (s : State) : State :=
  p.egress.foldl (fun s x => match x.out with
    | .msix f v _ _ => msixWaits f v s
    | _ => s) s

/-- R302: port k goes down. -/
def portDown (k : Nat) (s : State) : State :=
  let p := getP s k
  if !p.up then s
  else
    let l := p.unconf
    let s := parkChans k l (dropCollReads k (modP k (fun p => { p with
      up := false, speed := 0, width := 0, flit := false, flushing := false, flushFails := 0, flushFailAt := none
      unconf := [], egress := [], drr := {}, budget := 0, reads := [] }) (pendMsix p s)))
    let s := (s.facets.map Prod.fst).foldl (fun s f => holdFetches k f s) (holdBack k l s)
    let s := dropAsked k ((s.qps.map Prod.fst).foldl (qpPortDown k l) s)
    let s := (s.facets.map Prod.fst).foldl (fun s f => if cmpOnPort s f k then cmpPortError f s else s) s
    wakeColls s

/-- PORT_DOWN (R302). -/
def execPortDown (port : Nat) (halfB : Bool) (s : State) : Host.Outcome State Fault Refusal :=
  .next (portDown (portKey port halfB) s)

/-! ### Release (R304, R305) -/

/-- One piece of held work goes out again. -/
def reissue (k : Nat) (s : State) (h : Held) : State :=
  match h with
  | .place what w => issue k what w s
  | .record _ _ _ => s

/-- The held records of a list are written with the queues' current indices. -/
def reissueRecords (l : List Held) (s : State) : State :=
  l.foldl (fun s h => match h with | .record f rq q => writeRecord f rq q s | _ => s) s

/-- An event entry. -/
def isEvent : Held → Bool
  | .place (.event _ _) _ => true
  | _ => false

/-- HOLD_CLEAR on every QP that NAK_HOLD was sent on for the port; a requester whose sources are released leaves HOLD
(R120, R121). -/
def clearHolds (k : Nat) (s : State) (n : Nat) : State :=
  let q := getQp s n
  if !released s q.facet k then s
  else
    let s := if q.rsp.holding.contains k then
        answer n 4 0 (modQp n (fun q => { q with rsp := { q.rsp with holding := q.rsp.holding.filter (fun x => x ≠ k) } }) s)
      else s
    if q.st = .hold ∧ q.holdWhy = 4 ∧ ¬ sourceHeld s n then leaveHold n s else s

/-- R305: held work goes out: placements in the order in which they were issued, then records, then event entries. -/
def releaseList (k : Nat) (l : List Held) (s : State) : State :=
  let s := (l.filter (fun h => !isEvent h)).foldl (reissue k) s
  let s := (l.filter isEvent).foldl (reissue k) (reissueRecords l s)
  flushNow k s

/-- The event rings of facet f behind port k are evaluated under R79 once their work is released. -/
def recheckRings (k : Nat) (s : State) (f : Nat) : State :=
  ((getF s f).que.evrs.map Prod.fst).foldl (fun s e =>
    let x := getE s f e
    if x.active && decide (pinKey s f x.ringSeg x.ringOff = k) && released s f k then msixCheck f e s else s) s

/-- Everything that waits for port k and is released now goes on. -/
def afterRelease (k : Nat) (s : State) : State :=
  let s := (s.qps.map Prod.fst).foldl (clearHolds k) s
  let s := (s.facets.map Prod.fst).foldl (recheckRings k) s
  let s := (s.facets.map Prod.fst).foldl freeFetches s
  let s := (s.facets.map Prod.fst).foldl (fun s f => settle f s) s
  let s := (s.eth.sends.map (fun x => x.q)).foldl (fun s q => readFrame q s) s
  askMigs (wakeMovers (wakeColls (rawGo s)))

/-- The held upstream work of facet f is released if R304's conditions hold. -/
def releaseFacet (f : Nat) (s : State) : State :=
  if released s f 0 then
    let l := (getF s f).pcx.held
    sendPba f (afterRelease 0 (releaseList 0 l (modF f (fun x => { x with pcx := { x.pcx with held := [] } }) s)))
  else s

/-- The held work of a downstream port or half is released if R304's conditions hold. -/
def releasePort (k : Nat) (s : State) : State :=
  if released s 0 k then
    let l := (getP s k).held
    afterRelease k (releaseList k l (modP k (fun p => { p with held := [] }) s))
  else s

/-- WAKE_UP_N is deasserted (R433). -/
def wakeUpEnd (s : State) : State :=
  if s.pwr.wakeUp.isSome then emit (.pin "WAKE_UP_N" true) { s with pwr := { s.pwr with wakeUp := none } } else s

/-- The width that PCX_DEV_PORTCFG fixes (R289): half of a port's sixteen lanes where it is split, or upstream by UP_X8. -/
def maxWidth (s : State) (k : Nat) : Nat :=
  if (if k = 0 then bit (reg s 0xF480) 0 else bifurcated s (portOf k)) then 8 else 16

/-- DL_Up of a port or half, no wider than its configuration and in FLIT mode at 64 GT/s (R289, R303); the upstream port's ends WAKE_UP_N (R433). -/
def dlUp (k speed width : Nat) (flit : Bool) (s : State) : State :=
  if (getP s k).up then s
  else
    let s := if k = 0 then wakeUpEnd s else s
    let s := modP k (fun p => { p with
      up := true, speed := speed, width := min width (maxWidth s k), flit := flit || decide (speed = 6), epoch := p.epoch + 1, epochRead := false }) s
    if k = 0 then { s with
      pcx := { s.pcx with attachEpoch := s.pcx.attachEpoch + 1 }
      facets := amap (fun _ x => { x with pcx := { x.pcx with epochRead := false } }) s.facets }
    else s

/-- DL_UP (R303); half B exists where the port is split. -/
def execDlUp (port : Nat) (halfB : Bool) (speed width : Nat) (flit : Bool) (s : State) :
    Host.Outcome State Fault Refusal :=
  .next (when (!halfB || bifurcated s port) (dlUp (portKey port halfB) speed width flit) s)

/-- PCX_DEV_PORT[p] (R317). -/
def portValue (s : State) (p : Nat) : U64 :=
  let a := getP s p
  let held := if p = 0 then s.facets.any (fun x => decide (x.2.pcx.held ≠ [])) else decide (a.held ≠ [])
  BitVec.ofNat 64 (b2n a.up + b2n (bifurcated s p && (getP s (4 + p)).up) * 2 + a.speed * 4 + b2n a.flit * 32 +
    a.width * 64 + b2n held * 2048 + (if p = 0 then s.pcx.attachEpoch else a.epoch).toNat * 2 ^ 32)

/-- PCX_DEV_PORT_B[k] (R317). -/
def portBValue (s : State) (k : Nat) : U64 :=
  let b := getP s (5 + k)
  if bifurcated s (k + 1) then
    BitVec.ofNat 64 (b2n b.up + b.speed * 2 + b2n b.flit * 16 + b.width * 32 + b2n (decide (b.held ≠ [])) * 1024 +
      b.epoch.toNat * 2 ^ 32)
  else 0

/-- A read of PCX_ATTACH_EPOCH through a facet's page (R304). -/
def readEpoch (f : Nat) (s : State) : State :=
  if (getF s f).st = .off then emit (.readValue f 0xF400 0) s
  else releaseFacet f (emit (.readValue f 0xF400 (BitVec.ofNat 64 s.pcx.attachEpoch.toNat))
    (modF f (fun x => { x with pcx := { x.pcx with epochRead := true } }) s))

/-- PCX_ATTACH_EPOCH (R304). -/
def execPcxAttachEpoch (f : Nat) (s : State) : Host.Outcome State Fault Refusal := live (readEpoch f) s

/-- A read of PCX_DEV_PORT[p] (R304): through the management facet's page it takes part in release. -/
def readPort (f p : Nat) (s : State) : State :=
  if f ≠ 0 then emit (.readValue f (0xF488 + 8 * p) 0) s
  else
    let s := emit (.readValue f (0xF488 + 8 * p) (portValue s p)) s
    if 1 ≤ p ∧ p ≤ 4 then releasePort p (modP p (fun x => { x with epochRead := true }) s) else s

/-- PCX_DEV_PORT (R304). -/
def execPcxDevPort (f p : Nat) (s : State) : Host.Outcome State Fault Refusal := live (readPort f p) s

/-- A read of PCX_DEV_PORT_B[k] (R304). -/
def readPortB (f k : Nat) (s : State) : State :=
  if f ≠ 0 then emit (.readValue f (0xF4E0 + 8 * k) 0) s
  else
    let s := emit (.readValue f (0xF4E0 + 8 * k) (portBValue s k)) s
    if k < 4 ∧ bifurcated s (k + 1) = true then releasePort (5 + k) (modP (5 + k) (fun x => { x with epochRead := true }) s) else s

/-- PCX_DEV_PORT_B (R304). -/
def execPcxDevPortB (f k : Nat) (s : State) : Host.Outcome State Fault Refusal := live (readPortB f k) s

/-- Bus Master Enable of a facet's function is written (R304). -/
def busMaster (f : Nat) (on : Bool) (s : State) : State :=
  releaseFacet f (modF f (fun x => { x with pcx := { x.pcx with bme := on } }) s)

/-- BUS_MASTER_ENABLE (R304). -/
def execBusMasterEnable (f : Nat) (on : Bool) (s : State) : Host.Outcome State Fault Refusal := live (busMaster f on) s

/-- MSIX_ENABLE (R305): the messages held in the PBA are sent. -/
def execMsixEnable (f : Nat) (s : State) : Host.Outcome State Fault Refusal :=
  live (fun s => sendPba f (modF f (fun x => { x with pcx := { x.pcx with msixOn := true } }) s)) s

/-! ### Resets and the switch (R290, R291, R297 to R300) -/

/-- The downstream bridges that exist: device 2k, and 2k + 1 where port k is split (R290). -/
def bridgesHere (s : State) : List Nat :=
  (List.range 8).filter (fun b => decide (b % 2 = 0) || bifurcated s (b / 2 + 1))

/-- A queue that a host reset affects forgets what A has not passed (R35, R71, R80). -/
def forget (x : Queue) : Queue :=
  { x with pDev := x.acc, next := x.acc, staged := [], taken := [], fetch := none, rr := none }

/-- The queues that a host reset affects: those whose ring lies behind the upstream port (DESIGN CHOICE, log entry 59). -/
def hostQueue (s : State) (f : Nat) (x : Queue) : Bool :=
  decide (x.st ≠ .disabled) && decide (pinKey s f x.ringSeg x.ringOff = 0)

/-- R35: after a host reset every affected queue's P_dev equals its A, and pushes for it that are stuck are forgotten. -/
def forgetHost (s : State) : State :=
  let stays : StuckWrite → Bool := fun w => !hostQueue s w.page.1 (getQ s w.page.1 false w.page.2)
  let s' := { s with pcx := { s.pcx with stuck := s.pcx.stuck.filter stays } }
  { s' with facets := amap (fun f x => { x with que := { x.que with
      sqs := amap (fun _ y => if hostQueue s f y then forget y else y) x.que.sqs
      rqs := amap (fun _ y => if hostQueue s f y then forget y else y) x.que.rqs } }) s'.facets }

/-- A function's configuration space at its reset values (R298, R319). -/
def Facet.resetFunction (x : Facet) : Facet := { x with pcx := { x.pcx with bme := false, msixOn := false, roOn := true } }

/-- PF0's BARs and its SR-IOV capability at their reset values. -/
def resetBars (s : State) : State :=
  { s with pcx := { s.pcx with bars := [0, 0, 0], vfBars := [0, 0, 0], vfOn := false } }

/-- R298: the upstream configuration and every function's are reset; facets and downstream bridges keep theirs. -/
def upstreamReset (s : State) : State :=
  let s := retryStuck (forgetHost (portDown 0 s))
  let s := resetBars { s with facets := amap (fun _ x => x.resetFunction) s.facets }
  { s with pcx := { s.pcx with up := {}, live := BitVec.ofNat 8 (ofBits (bridgesHere s)) } }

/-- UPSTREAM_RESET (R298). -/
def execUpstreamReset (s : State) : Host.Outcome State Fault Refusal := .next (upstreamReset s)

/-- A write to bridge b of its bus numbers or window (R299): the values replaced are kept, and its LIVE bit ends. -/
def bridgeSet (b : Nat) (g : Bridge → Bridge) (s : State) : State :=
  { s with pcx := { s.pcx with
    bridges := amod {} b (fun x => { g x with old := (x.lo, x.hi) :: x.old, oldBus := (x.sec, x.sub) :: x.oldBus }) s.pcx.bridges
    live := s.pcx.live &&& ~~~ BitVec.ofNat 8 (2 ^ b) } }

/-- R297, R301: the Secondary Bus Reset bit of bridge b: set, it takes the link below down; the reset output of its port
follows it, that of a split port only for half A (DESIGN CHOICE, log entry 76). -/
def bridgeReset (b : Nat) (on : Bool) (s : State) : State :=
  let s := if on then portDown (portKey (b / 2 + 1) (decide (b % 2 = 1))) s else s
  if b % 2 = 0 then emit (.pin ("PERST_DN" ++ toString (b / 2) ++ "_N") (!on)) s else s

/-- R291, R297 to R299: what a configuration write of a downstream bridge does. -/
def bridgeWrite (b : Nat) (r : ConfigReg) (lo hi : U64) (s : State) : State :=
  match r with
  | .busNumbers => bridgeSet b (fun x => { x with sec := fld lo 7 0, sub := fld hi 7 0 }) s
  | .window => bridgeSet b (fun x => { x with lo := lo, hi := hi }) s
  | .acs => { s with pcx := { s.pcx with
      bridges := amod {} b (fun x => { x with acs := lo.setWidth 8, vector := hi.setWidth 8 }) s.pcx.bridges } }
  | .secondaryReset => bridgeReset b (bit lo 0) s
  | _ => s

/-- What a configuration write does: of a bridge that exists, of the upstream port or of the functions (R292, R298); of a
register that the place does not hold, nothing. -/
def configWrite (p : ConfigPlace) (r : ConfigReg) (lo hi : U64) (s : State) : State :=
  match p, r with
  | .bridge b, r => when ((bridgesHere s).contains b) (bridgeWrite b r lo hi) s
  | .upstream, .busNumbers => { s with pcx := { s.pcx with up := { s.pcx.up with sec := fld lo 7 0, sub := fld hi 7 0 } } }
  | .upstream, .window => { s with pcx := { s.pcx with up := { s.pcx.up with lo := lo, hi := hi } } }
  | .pf0, .bar k => { s with pcx := { s.pcx with bars := s.pcx.bars.set k lo } }
  | .vfs, .bar k => { s with pcx := { s.pcx with vfBars := s.pcx.vfBars.set k lo } }
  | .vfs, .vfEnable => { s with pcx := { s.pcx with vfOn := bit lo 0 } }
  | _, _ => s

/-- BRIDGE_CONFIG_WRITE (R291, R297 to R299); the table has one row for a write of configuration space (DESIGN CHOICE, log
entry 76). -/
def execBridgeConfigWrite (place : ConfigPlace) (r : ConfigReg) (lo hi : U64) (s : State) :
    Host.Outcome State Fault Refusal :=
  .next (configWrite place r lo hi s)

/-- A BAR of `size` bytes at `base`, where one has been assigned, contains an address. -/
def inBar (base : U64) (size : Nat) (a : U64) : Bool :=
  decide (base ≠ 0 ∧ base.toNat ≤ a.toNat ∧ a.toNat < base.toNat + size)

/-- The adapter endpoint, device 8, claims an address: one of PF0's BARs or, with VF Enable, of the 127 VFs' (R290,
R292). -/
def inEndpoint (s : State) (a : U64) : Bool :=
  let any := fun (l : List U64) (z : List Nat) => (l.zip z).any (fun x => inBar x.1 x.2 a)
  any s.pcx.bars [0x800000, 0x8000000, 0x8000000] ||
  (s.pcx.vfOn && any s.pcx.vfBars [127 * 0x10000, 127 * 0x100000, 127 * 0x10000])

/-- Where the switch sends a request: out of a port and half, to the adapter endpoint itself, or nowhere. -/
inductive PeerTo where
  | out (port : Nat) (halfB : Bool)
  | endpoint
  | none
deriving DecidableEq, Repr

/-- The bridge routes a request to address `a`, or to bus `n`, to its secondary side. -/
def Bridge.claims (x : Bridge) (a : U64) : Option Nat → Bool
  | some n => decide (x.sec ≤ n ∧ n ≤ x.sub ∧ n ≠ 0)
  | none => decide (x.lo ≤ a ∧ a ≤ x.hi)

/-- One of the bridge's earlier windows or bus ranges does (R299). -/
def Bridge.claimed (x : Bridge) (a : U64) : Option Nat → Bool
  | some n => x.oldBus.any (fun w => decide (w.1 ≤ n ∧ n ≤ w.2 ∧ n ≠ 0))
  | none => x.old.any (fun w => decide (w.1 ≤ a ∧ a ≤ w.2))

/-- R291, R299: a request goes to the bridge that claims it, to the endpoint, or, from below, upstream where nothing
below claims it, does not lie in an old window and does not belong to the upstream port's own range. -/
def peerTarget (s : State) (port : Nat) (a : U64) (bus : Option Nat) : PeerTo :=
  let get := fun (b : Nat) => (aget {} b s.pcx.bridges : Bridge)
  match (bridgesHere s).find? (fun b => (get b).claims a bus) with
  | some b => .out (b / 2 + 1) (decide (b % 2 = 1))
  | none =>
    if bus.isNone && inEndpoint s a then .endpoint
    else if port = 0 || (bridgesHere s).any (fun b => (get b).claimed a bus) || s.pcx.up.claims a bus then .none
    else .out 0 false

/-- R291: the ACS controls of the bridge that a request enters through (PRESUMED: PCI Express, log entry 77): the source's
bus and translated addresses are checked, and a request for another bridge goes there, upstream, or nowhere. -/
def acsTarget (s : State) (port : Nat) (halfB : Bool) (reqBus : Nat) (translated : Bool) (t : PeerTo) : PeerTo :=
  let x : Bridge := aget {} (2 * (port - 1) + (if halfB then 1 else 0)) s.pcx.bridges
  let on := fun (i : Nat) => bit x.acs i
  if port = 0 then t
  else if on 0 && !decide (x.sec ≤ reqBus ∧ reqBus ≤ x.sub) || on 1 && translated then .none
  else match t with
    | .out p h =>
      if p = 0 then t
      else if (p, h) = (port, halfB) then (if on 4 then .out 0 false else .none)
      else if on 6 && translated then t
      else if on 5 && !bit x.vector (2 * (p - 1) + (if h then 1 else 0)) then t
      else if on 2 then .out 0 false
      else if on 5 then .none
      else t
    | t => t

/-- A request that enters one port for another (R291, R299); one for the adapter endpoint is its own access, which other
rows state. -/
def peerRequest (port : Nat) (halfB : Bool) (reqBus : Nat) (translated : Bool) (a : U64) (bus : Option Nat)
    (isWrite : Bool) (bytes : Bytes) (s : State) : State :=
  if !(getP s (portKey port halfB)).up || !forwards s then s
  else match acsTarget s port halfB reqBus translated (peerTarget s port a bus) with
    | .out p h =>
      if (p, h) = (port, halfB) ∨ ¬ (getP s (portKey p h)).up then emit (.unsupported port) s
      else sendTlp (portKey p h) 0 bytes.length (.peer p h a isWrite bytes) none isWrite false s
    | .endpoint => s
    | .none => emit (.unsupported port) s

/-- PEER_REQUEST (R291). -/
def execPeerRequest (port : Nat) (halfB : Bool) (reqBus : Nat) (dest : PeerDest) (isWrite : Bool) (bytes : Bytes)
    (s : State) : Host.Outcome State Fault Refusal :=
  .next (peerRequest port halfB reqBus dest.translated dest.addr dest.bus isWrite bytes s)

/-! ### The LIVE capability (R300) -/

/-- The capability's word at an offset. -/
def liveCapability (s : State) (off : Nat) : U32 :=
  if off = 0 then BitVec.ofNat 32 (0x0001000B + Config.nextCapability.toNat * 2 ^ 20)
  else if off = 4 then 0x01010D72
  else if off = 8 then s.pcx.live.zeroExtend 32
  else 0

/-! ### Port read errors (R295) -/

/-- R295: the error is counted and reported. -/
def countReadError (port : Nat) (a : U64) (facet : Option Nat) (forced : Bool) (s : State) : State :=
  collect 0x1D clsUC port forced a 0 0 facet (modP port (fun p => { p with rderr := p.rderr + 1 }) s)

/-- The facet of the operation that a failed read served. -/
def readFacet (s : State) : ReadKind → Option Nat
  | .fetch f _ _ => some f
  | .source n _ => some (getQp s n).facet
  | .readServe n => some (getQp s n).facet
  | .coll gid m => (getRun s gid).bind (fun r => (memberIn r m).map (fun x => x.f))
  | .flush => none
  | .moverRead c => if (getCh10 s c).desc.isSome then some (getCh10 s c).f else none
  | .cipher f => some f
  | .ethSend f _ => some f
  | .desc f _ => some f

/-- A failed flush read (R295): again after 1 µs; after the eighth failure the port is treated as down. One that also
confirms mover writes is a bus error of the mover (R313). -/
def flushFailed (port : Nat) (halfB : Bool) (kind : Nat) (a : U64) (s : State) : State :=
  let k := portKey port halfB
  let p := getP s k
  if !p.flushOut then s
  else
    let mover := p.unconf.any (fun u => u.covered && (match u.what with | .mover _ _ => true | .mig _ _ _ => true | _ => false))
    let s := modP k (fun p => { p with
      flushing := false, flushFails := p.flushFails + 1, flushFailAt := some s.now
      unconf := p.unconf.map (fun u => { u with covered := false }) }) s
    let s := if mover then busError port halfB kind a false s else s
    if 8 ≤ (getP s k).flushFails then portDown k s else s

/-- FACET_RESIZE's record: its place in the management facet's segment. -/
def resizeSpan (d : Desc) : List (Nat × U64 × Nat) := [(fld d.w3 7 0, d.w4, 128)]

/-- What the next descriptor of SQ q reads as it starts, where it would start now: its auxiliary area, GROUP_CREATE's
lists (R155), or FACET_RESIZE's record (R323). -/
def descPlaces (s : State) (f q : Nat) : List (Nat × U64 × Nat) :=
  match nextStart s f false q with
  | none => []
  | some i =>
    let d := i.desc
    let reads := fun (l : List (Nat × U64 × Nat)) =>
      let t := (transRanges (.desc q) 0 false l s).2
      if (ready s f q (Desc.op d)).isSome && !streamBusy s (.desc q) && t.full && placesReleased s 0 t.places then t.places
      else []
    if Desc.op d = 0x30 then if createRefused s d then [] else reads (createSpans d)
    else if Desc.op d = 0x35 then
      if rangeCheck s 0 (fld d.w3 7 0) d.w4 128 .lrd none then reads (resizeSpan d) else []
    else auxPlaces s f q (Desc.op d)

/-- That read fails. -/
def descReadFailed (f q port : Nat) (s : State) : State :=
  match nextStart s f false q with
  | none => s
  | some i =>
    let op := Desc.op i.desc
    if (descPlaces s f q).isEmpty then s
    else if op = 0x30 ∨ op = 0x35 then descFails f q op port s
    else auxFailed f q op port s

/-- What a port read error does to the read's user (R295, R313, R349, R373). -/
def readFailed (port : Nat) (halfB : Bool) (kind : Nat) (a : U64) (what : ReadKind) (s : State) : State :=
  match what with
  | .fetch f rq q =>
    match (getQ s f rq q).fetch.filter (fun r => !r.held) with
    | some r => settle f (enterError f rq q cPORT_ERROR r.first s)
    | none => s
  | .source n psn =>
    if (getQp s n).req.pulls.any (fun p => p.psn = psn) then
      failQp n (fun d => if psnIn psn d.psn d.n then statD cPORT_ERROR port else stat cFLUSHED) s
    else s
  | .readServe n =>
    match (getQp s n).rsp.pulls with
    | p :: _ => accessFail n p.psn s
    | [] => s
  | .coll gid m => collReadError gid m port s
  | .flush => flushFailed port halfB kind a s
  | .moverRead _ => busError port halfB kind a false s
  | .cipher f => cmpPortError f s
  | .ethSend _ q => sendReadError q port s
  | .desc f q => descReadFailed f q port s

/-- A non-posted request belongs to a read that a port read error meets. -/
def readOwns (k : ReadKind) (w : NpFor) : Bool :=
  match k, w with
  | .fetch f rq q, .fetch f' rq' q' => decide (f = f' ∧ rq = rq' ∧ q = q')
  | .source n p, .source (.packet n' p') => decide (n = n' ∧ p = p')
  | .readServe n, .source (.readResp n' _) => decide (n = n')
  | .coll g m, .source (.chunk g' m' _) => decide (g = g' ∧ m = m')
  | .flush, .flush => true
  | .moverRead c, .source (.mover c') => decide (c = c')
  | .moverRead c, .mig _ _ _ => decide (24 ≤ c)
  | .cipher f, .cipher f' => decide (f = f')
  | .ethSend _ q, .source (.frame q') => decide (q = q')
  | _, _ => false

/-- The completion timeout in CLK_SVC cycles: 1 ms × 2^CTO_EXP (R295, R317). -/
def ctoLimit (s : State) : Nat := ms (2 ^ regf s 0xF480 13 10)

/-- A port read error of a kind may come now: kind 4 only of a read that left the port a completion timeout ago. What a
descriptor reads as it starts is answered with the command that starts it, and its wait is not held. -/
def mayFail (s : State) (port : Nat) (halfB : Bool) (kind : Nat) (what : ReadKind) : Bool :=
  decide (kind ≠ 4) ||
    (match what with
    | .desc _ _ => true
    | w => (getP s (portKey port halfB)).reads.any (fun r => readOwns w r.1 && elapsed s r.2 (ctoLimit s)))

/-- The requests of a read that failed wait for nothing any more: a flush read's on its port, another's on every port. -/
def dropReads (key : Nat) (what : ReadKind) (s : State) : State :=
  { s with pcx := { s.pcx with ports := amap (fun k p => if what = .flush ∧ k ≠ key then p else
      { p with reads := p.reads.filter (fun r => !readOwns what r.1) }) s.pcx.ports } }

/-- PORT_READ_ERROR (R295). -/
def execPortReadError (port : Nat) (halfB : Bool) (kind : Nat) (addr : U64) (what : ReadKind) (s : State) :
    Host.Outcome State Fault Refusal :=
  live (when (mayFail s port halfB kind what) (fun s =>
    dropReads (portKey port halfB) what (readFailed port halfB kind addr what (countReadError port addr (readFacet s what) false s)))) s

/-! ### The mover's commands (R307 to R314) -/

/-- A MOVE that a warm reset interrupted goes on after its recorded bursts (R315). -/
def moveWait (s : State) (f q : Nat) (i : Item) : MoveWait :=
  match s.mov.replay.find? (fun w => decide (w.f = f ∧ w.q = q ∧ w.idx = i.idx)) with
  | some w => w
  | none => { f := f, q := q, idx := i.idx, desc := i.desc, seq := i.seq }

/-- MOVE (R308): checked, then it waits for a channel and, if paced, a binding. -/
def execMove (f q : Nat) (s : State) : Host.Outcome State Fault Refusal :=
  live (startWith f q 0x20 (fun i s =>
    match moveCheck s f i.desc with
    | some st => completeItem f q i.idx st s
    | none =>
      let w := moveWait s f q i
      { s with mov := { s.mov with waiting := s.mov.waiting ++ [w], replay := s.mov.replay.erase w } })) s

/-- MOVE_CHANNEL_GRANT (R307). -/
def execMoveChannelGrant (s : State) : Host.Outcome State Fault Refusal := live grantMove s

/-- DMA_REQ (R311, R312): an edge on a pin. -/
def execDmaReq (n : Nat) (rising : Bool) (s : State) : Host.Outcome State Fault Refusal :=
  live (fun s =>
    let p : DmaPin := aget {} n s.mov.pins
    if n < 8 ∧ p.en ∧ rising = !p.falling then serveReq 0 (n + 1) (modSrc 0 (n + 1) (addReq s.now) s) else s) s

/-- MOV_FAC_REQ (R311). -/
def execMovFacReq (f : Nat) (v : U32) (s : State) : Host.Outcome State Fault Refusal :=
  live (fun s => when (facetOn s f && bit v 0) (fun s => serveReq f 9 (modSrc f 9 (addReq s.now) s)) s) s

/-- A write of MOV_FAC_PEND (R317): CLEAR, and OVERRUN cleared by writing 1. -/
def writePend (f : Nat) (v : U32) (s : State) : State :=
  modSrc f 9 (fun r => { (if bit v 16 then clearOver s.now r else r) with
    pending := if bit v 31 then 0 else r.pending }) s

/-- MOV_FAC_PEND_CLEAR (R311). -/
def execMovFacPendClear (f : Nat) (v : U32) (s : State) : Host.Outcome State Fault Refusal :=
  live (fun s => when (facetOn s f) (writePend f v) s) s

/-- MOV_DEV_CTRL_RESUME (R314). -/
def execMovDevCtrlResume (f : Nat) (s : State) : Host.Outcome State Fault Refusal := live (mgmtWrite f resumeMover) s

/-- MOV_DEV_CTRL_ABORT (R314). -/
def execMovDevCtrlAbort (f : Nat) (s : State) : Host.Outcome State Fault Refusal := live (mgmtWrite f abortMover) s

/-! ### Queues destroyed (R80, R312's state table) -/

/-- DESTROY of an SQ or RQ. -/
def destroyQueue (f : Nat) (rq : Bool) (q : Nat) (s : State) : State :=
  if rq && rqInUse s f q then
    modQ f rq q (fun x => if x.st = .disabled ∨ x.st = .draining then x else { x with err := BitVec.ofNat 16 cIN_USE }) s
  else
    let st := (getQ s f rq q).st
    let s := drainQueue f rq q s
    settle f (if rq || decide (st = .disabled ∨ st = .draining) then s else cancelMoves f q s)

/-- QUEUE_DESTROY (R80). -/
def execQueueDestroy (f : Nat) (k : QKind) (q : Nat) (s : State) : Host.Outcome State Fault Refusal :=
  live (fun s => when (facetOn s f) (fun s => match k with
    | .sq => destroyQueue f false q s
    | .rq => destroyQueue f true q s
    | .evr => shrinkEval f (destroyRing f q s)) s) s

end Sys2Proof.Machine
end

