-- ==== Sys2Proof/Machine/Facets.lean ====
section
/-!
DEFINITION. Facets (11_facets.md): resource records and resizing (R321 to R326), the facet reset procedure (R327) and
the function-level reset (R319).
-/
namespace Sys2Proof.Machine

/-! ### The resource record -/

def recSq (r : List U64) : Nat := fld (r.getD 0 0) 8 0
def recRq (r : List U64) : Nat := fld (r.getD 0 0) 17 9
def recEvr (r : List U64) : Nat := fld (r.getD 0 0) 24 18
def recQp (r : List U64) : Nat := fld (r.getD 0 0) 45 25
def recTiles (r : List U64) : Nat := fld (r.getD 1 0) 31 0
def recCap (r : List U64) : Nat := fld (r.getD 1 0) 53 32
def recLineage (r : List U64) : Nat := fld (r.getD 1 0) 57 54
def recProfile (r : List U64) : Nat := fld (r.getD 1 0) 61 58
/-- WIN_BASE of target t, low bits 0x000. -/
def recBase (r : List U64) (t : Nat) : U64 := BitVec.ofNat 64 (fld (r.getD (2 * t) 0) 63 12 * 4096)
/-- WIN_LIM of target t, low bits 0xFFF. -/
def recLim (r : List U64) (t : Nat) : U64 := BitVec.ofNat 64 (fld (r.getD (2 * t + 1) 0) 63 12 * 4096 + 4095)

/-- The reserved bits of the 16 words. -/
def recReserved : List Nat :=
  [bits 63 46, bits 63 62] ++ List.replicate 10 (bits 11 0) ++ List.replicate 4 allOnes

/-- Where the facet memory region begins (R285). -/
def facetMemBase (s : State) : Nat := s.memc.regions.getD 6 0

/-- A target-5 window that admits something and does not lie wholly inside the facet memory region. -/
def winOutside (s : State) (lo hi : U64) : Bool :=
  decide (lo ≤ hi) && !(decide (facetMemBase s ≤ lo.toNat) && decide (hi.toNat < s.memc.visible))

/-- The positions of the record's offending bits (R323 step 2): reserved bits that are set, and the lowest bit of each
field beyond its limit or of the target-5 window. -/
def recFaults (s : State) (r : List U64) : List Nat :=
  ((padWords r).zip recReserved).zipIdx.flatMap (fun ((w, m), i) => (setBits 64 (w.toNat &&& m)).map (fun b => 64 * i + b)) ++
  (if 256 < recSq r then [0] else []) ++ (if 256 < recRq r then [9] else []) ++
  (if 64 < recEvr r then [18] else []) ++ (if 1048576 < recQp r then [25] else []) ++
  (if winOutside s (recBase r 5) (recLim r 5) then [652] else [])
where
  /-- The record as 16 words. -/
  padWords (r : List U64) : List U64 := (r ++ List.replicate 16 0).take 16

/-- The lowest offending bit, if any. -/
def recBad (s : State) (r : List U64) : Option Nat :=
  match recFaults s r with
  | [] => none
  | a :: l => some (l.foldl min a)

/-- The sum of an allotment over the other facets. -/
def sumOthers (s : State) (f : Nat) (g : Facet → Nat) : Nat :=
  ((s.facets.filter (fun x => x.1 ≠ f)).map (fun x => g x.2)).foldl (· + ·) 0

/-- A target-5 window overlaps the one of another facet that is not OFF. -/
def winOverlaps (s : State) (f : Nat) (lo hi : U64) : Bool :=
  decide (lo ≤ hi) && s.facets.any (fun x => decide (x.1 ≠ f ∧ x.2.st ≠ .off) &&
    (let w := window s x.1 5; decide (w.1 ≤ w.2) && decide (w.1 ≤ hi ∧ lo ≤ w.2)))

/-- R323 step 4: the resource that lacks room, 1 to 6, or 0. -/
def recLacks (s : State) (f : Nat) (r : List U64) : Nat :=
  if 8192 < sumOthers s f (fun x => x.aSq) + recSq r then 1
  else if 8192 < sumOthers s f (fun x => x.aRq) + recRq r then 2
  else if 1024 < sumOthers s f (fun x => x.aEvr) + recEvr r then 3
  else if 1048576 < sumOthers s f (fun x => x.aQp) + recQp r then 4
  else if s.memc.poolTiles < sumOthers s f (fun x => x.xlt.tilesAllot.toNat) + recTiles r then 5
  else if winOverlaps s f (recBase r 5) (recLim r 5) then 6
  else 0

/-- A cap change (R139): from a cap to none it releases the facet at once. -/
def setCap (f cap : Nat) (s : State) : State :=
  let was := (getF s f).rate.cap
  let s := modF f (fun x => { x with rate := { x.rate with cap := BitVec.ofNat 22 cap } }) s
  if was ≠ 0 ∧ cap = 0 then
    let s := modF f (fun x => { x with rate := { x.rate with slot := none, laps := 0 } }) s
    takeTurns s
  else s

/-- Every field of a record goes into the facet's registers, and the facet is ON (R323 step 5, R415). -/
def applyRecord (f : Nat) (r : List U64) (s : State) : State :=
  let s := setCap f (recCap r) s
  let s := modF f (fun x => { x with
    st := .on, aSq := recSq r, aRq := recRq r, aEvr := recEvr r, aQp := recQp r
    rate := { x.rate with lineage := BitVec.ofNat 4 (recLineage r), profile := BitVec.ofNat 4 (recProfile r) }
    xlt := { x.xlt with
      tilesAllot := BitVec.ofNat 32 (recTiles r)
      winBase := [1, 2, 3, 4, 5].map (fun t => (t, recBase r t))
      winLim := [1, 2, 3, 4, 5].map (fun t => (t, recLim r t)) } }) s
  modF f (fun x => { x with shrink := shrinkDue s f }) s

/-- R323: the status of a FACET_RESIZE that changes nothing. -/
def resizeCheck (s : State) (f : Nat) (r : List U64) : Option Status :=
  match recBad s r with
  | some b => some (statD cBAD_FIELD (1024 + b))
  | none =>
    if (getF s f).st = .resetting then some (stat cFAC_BUSY)
    else if recLacks s f r ≠ 0 then some (statD cFAC_NO_RESOURCE (recLacks s f r))
    else none

/-- FACET_RESIZE with the words that its record read returned. -/
def facetResize (q : Nat) (record : List U64) (i : Item) (s : State) : State :=
  let d := i.desc
  let f := fld d.w2 6 0
  if !rangeCheck s 0 (fld d.w3 7 0) d.w4 128 .lrd none then completeItem 0 q i.idx (statD cACCESS_DENIED 0) s
  else
    let r := wordsAt s 0 (fld d.w3 7 0) d.w4 16 record
    match resizeCheck s f r with
    | some st => completeItem 0 q i.idx st s
    | none =>
      let s := applyRecord f r s
      completeItem 0 q i.idx (if (getF s f).shrink then stat cSHRINK_PENDING else stOk) s

/-! ### The facet reset procedure (R327) -/

/-- Step 1: the facet's SQs drain, its RQs take no further RECV, what is not accepted is discarded, and its waiting
paced MOVEs are cancelled. -/
def resetBegin (f : Nat) (offAfter : Bool) (s : State) : State :=
  let s := modF f (fun x => { x with st := .resetting, rstep := 2, offAfter := offAfter }) s
  let sqs := (getF s f).que.sqs.map Prod.fst
  let s := sqs.foldl (fun s q => drainQueue f false q s) s
  let s := ((getF s f).que.rqs.map Prod.fst).foldl (fun s q => modQ f true q (fun x =>
    if x.st = .disabled then x else { x with pDev := x.acc, next := x.acc, staged := [], taken := [], fetch := none
                                             rr := none }) s) s
  settle f (sqs.foldl (fun s q => cancelMoves f q s) s)

/-- QPs of facet f that are not free. -/
def facetQps (s : State) (f : Nat) : List Nat := (s.qps.filter (fun x => x.2.facet = f ∧ x.2.st ≠ .free)).map Prod.fst

/-- A queue's last record and event entry have been written. -/
def lastWritten (s : State) (f : Nat) (x : Queue) : Bool :=
  x.dirtyAt.isNone && !((x.evOwed || x.evErrOwed) && (getE s f x.evr).active)

/-- The waiting step of the procedure has ended. The erasure of the key page waits for the facet's running compatibility
command (R342), and for its report request and the migrations of its tiles. -/
def resetStepEnded (s : State) (f : Nat) : Bool :=
  let x := getF s f
  match x.rstep with
  | 2 => decide (notDisabled x.que.sqs = [])
  | 3 => decide (facetQps s f = []) && !x.zrt.waiting
  | 4 => decide (notDisabled x.que.rqs = [])
  | 5 => x.que.sqs.all (fun q => lastWritten s f q.2) && x.que.rqs.all (fun q => lastWritten s f q.2)
  | 6 => !x.cip.cmpBusy && !x.att.busy && !s.xlt.migs.any (fun m => decide (m.facet = f ∧ 1 ≤ m.phase))
  | _ => false

/-- Step 3: every QP of the facet is destroyed. -/
def resetQps (f : Nat) (s : State) : State :=
  (facetQps s f).foldl (fun s n => tryFreeQp n (if (getQp s n).st = .draining then s else drainQp f n s)) s

/-- Step 4 for one RQ: its accepted RECVs complete RESET_FLUSHED. -/
def resetRq (f : Nat) (s : State) (q : Nat) : State :=
  let s := drainQueue f true q s
  (getQ s f true q).items.foldl (fun s i => completeRecv f q i.idx (stat cRESET_FLUSHED) {} s) s

/-- Step 4: the raw RQ is given up, the RQs drain. -/
def resetRqs (f : Nat) (s : State) : State :=
  let l := notDisabled (getF s f).que.rqs
  let s := if f = 0 ∧ s.eth.rawRq.toNat ∈ l then { s with eth := { s.eth with rawEn := false, raws := [] } } else s
  settle f (l.foldl (resetRq f) s)

/-- Step 6: segments, tiles, fault records, keys, requests and the page's registers. -/
def resetPage (f : Nat) (s : State) : State :=
  let mine := fun (k : Nat) => decide (k / 2 ^ 31 = f)
  let s := ((s.xlt.recs.filter (fun r => r.2.facet = f)).map Prod.fst).foldl (fun s k => dropRec k s) s
  let s := { s with xlt := { s.xlt with
    tiles := s.xlt.tiles.filter (fun t => !mine t.1), cache := s.xlt.cache.filter (fun k => !mine k)
    heldFaults := s.xlt.heldFaults.filter (fun p => decide (p.facet ≠ f))
    begun := s.xlt.begun.filter (fun p => decide (p.facet ≠ f))
    misses := s.xlt.misses.filter (fun m => decide (m.piece.facet ≠ f)) } }
  modF f (fun x => { x with
    que := {}, zrt := {}, grp := {}, mov := {}, cip := {}, att := {}
    rate := { x.rate with dec := 0, wheel := 0 }
    xlt := { winBase := x.xlt.winBase, winLim := x.xlt.winLim, tilesAllot := x.xlt.tilesAllot } }) s

/-- What a facet that turns OFF gives up (R327 step 7). -/
def turnOff (f : Nat) (s : State) : State :=
  modF f (fun x => { x with
    st := .off, aSq := 0, aRq := 0, aEvr := 0, aQp := 0
    rate := { x.rate with cap := 0, lineage := 0, profile := 0, slot := none, laps := 0 }
    xlt := { x.xlt with tilesAllot := 0, winBase := [], winLim := [] } }) s

/-- Step 7: the reset ends, and every FACET_RESET that joined completes. -/
def resetEnd (f : Nat) (s : State) : State :=
  let x := getF s f
  let s := modF f (fun y => { y with
    st := .on, shrink := false, rstep := 0, offAfter := false, joined := [], resets := y.resets + 1 }) s
  let s := if x.offAfter then turnOff f s else modF f (fun y => { y with shrink := shrinkDue s f }) s
  settle 0 (x.joined.foldl (fun s j => completeItem 0 j.1 j.2 stOk s) s)

/-- The procedure goes on from a waiting step that has ended. -/
def resetNext (f : Nat) (s : State) : State :=
  let set := fun (n : Nat) (s : State) => modF f (fun x => { x with rstep := n }) s
  match (getF s f).rstep with
  | 2 => resetQps f (set 3 s)
  | 3 => resetRqs f (set 4 s)
  | 4 => set 5 s
  | 5 => modF f (fun x => { x with que := { x.que with evrs := amap (fun _ e => { e with
      active := false, notes := [], armed := false, err := 0 }) x.que.evrs } }) (set 6 s)
  | 6 => resetEnd f (resetPage f s)
  | _ => s

/-- The procedure runs on to a waiting step that has not ended; `fuel` bounds the steps. -/
def resetRun : Nat → Nat → State → State
  | 0, _, s => s
  | n + 1, f, s =>
    if (getF s f).st = .resetting ∧ resetStepEnded s f then resetRun n f (resetNext f s)
    else if (getF s f).st = .resetting ∧ (getF s f).rstep = 3 then resetQps f s
    else s

/-- FACET_RESET_ADVANCE (R327). -/
def execFacetResetAdvance (f : Nat) (s : State) : Host.Outcome State Fault Refusal := live (resetRun 5 f) s

/-- A reset of facet f begins, or joins the one in progress (R318). -/
def facetReset (f : Nat) (off : Bool) (s : State) : State :=
  match (getF s f).st with
  | .off => s
  | .on => resetBegin f off s
  | .resetting => if off then modF f (fun x => { x with offAfter := true }) s else s

/-- FACET_RESET (R318, R323, R327). -/
def execFacetReset (f q : Nat) (s : State) : Host.Outcome State Fault Refusal :=
  live (startWith f q 0x36 (fun i s =>
    let t := fld i.desc.w2 6 0
    if t = 0 then completeItem 0 q i.idx (stat cBAD_FIELD) s
    else if (getF s t).st = .off then completeItem 0 q i.idx stOk s
    else modF t (fun x => { x with joined := x.joined ++ [(q, i.idx)] }) (facetReset t (bit i.desc.w2 7) s))) s

/-- FLR (R319): the function's configuration space is reset at once, and the facet resets. -/
def execFlr (f : Nat) (s : State) : Host.Outcome State Fault Refusal :=
  let s := modF f Facet.resetFunction s
  let s := if f = 0 then resetBars s else s
  .next (when (running s) (facetReset f false) s)

end Sys2Proof.Machine
end

