-- ==== Sys2Proof/Machine/Restore.lean ====
section
/-!
DEFINITION. Restoring from Mirror what one unit or the whole device has lost: a QP's context (R122, R383, R455), and
a collective that must be redone from its commit index (R178, R383).
-/
namespace Sys2Proof.Machine

/-- The started descriptors up to the last one whose first PSN and MSN Mirror holds (R119). -/
def keptDescs (l : List QDesc) : List QDesc := (l.reverse.dropWhile (fun d => !d.recorded)).reverse

/-- The requester side after a restore: uncompleted descriptors keep their recorded PSNs, MSNs and send numbers and are
resent from ACK_PSN; timeouts in a row start at 0 (R119, R122, R455). -/
def restoreReq (m : QpMirror) (now : U64) (r : ReqSide) : ReqSide :=
  let kept := keptDescs r.descs
  let lost := r.descs.drop kept.length
  let next := match lost with | d :: _ => d.psn | [] => r.next
  let hi := if psnBefore next r.hi then next else r.hi
  { next := next, ack := m.ack, hi := hi, descs := kept
    msn := match lost with | d :: _ => d.msn | [] => r.msn
    sendNo := match lost.find? (fun d => decide (d.op = 4)) with | some d => d.sendNo | none => r.sendNo
    timer := now, resend := psnRange m.ack hi, conAt := now }

/-- The oldest complete send whose RECV's completion Mirror holds while it does not yet hold the send (R111, R453). -/
def sendAhead (s : State) (q : Qp) (m : QpMirror) : Option SendRx :=
  q.rsp.sends.find? (fun x => x.wb && decide (x.s = m.scomp) &&
    (match getItem s q.facet true q.rq (q.rsp.r0 + x.s) with | some i => i.done.isSome && i.recorded | none => true))

/-- Mirror's record of SCOMP and the truncation bits, which stands with the RECV completions it holds (R111). -/
def settleSends (n : Nat) (s : State) : State :=
  let q := getQp s n
  match sendAhead s q (getMir s n) with
  | some x => modMir n (fun m => { m with
      scomp := m.scomp + 1, trunc := (m.trunc >>> 1) ||| (if x.long then 0x80 else 0) }) s
  | none => s

/-- The responder side after a restore: E, SCOMP and the truncation bits (R122). In `warm`, everything that was in
progress is gone; otherwise write-backs under way stay. -/
def restoreRsp (warm : Bool) (m : QpMirror) (r : RspSide) : RspSide :=
  { e := m.e, r0 := r.r0, holding := r.holding
    scomp := if warm then m.scomp else r.scomp
    trunc := if warm then m.trunc else r.trunc
    sends := if warm then [] else r.sends.filter (fun x => x.wb) }

/-- The descriptors of QP n that Mirror does not know are to start again (R453). -/
def restartLost (n : Nat) (s : State) : State :=
  let q := getQp s n
  (q.req.descs.drop (keptDescs q.req.descs).length).foldl (fun s d =>
    modItem q.facet false d.q d.idx (fun i => { i with started := false }) s) s

/-- A restored QP's state (R455): RTS and HOLD become RTS, every other state stays. -/
def restoreState (q : Qp) : Qp := if q.st = .hold then { q with st := .rts, holdWhy := 0 } else q

/-- QP n is restored from its backing and its Mirror progress record (R122, R383, R346, R455). -/
def restoreQp (warm : Bool) (n : Nat) (s : State) : State :=
  if (getQp s n).st = .free then s
  else
    let s := dropWaits (.source n) (dropWaits (.responder n) (dropWaits (.readResp n) (restartLost n s)))
    let s := if warm then settleSends n s else s
    let m := getMir s n
    let s := modQp n (fun q => { restoreState q with
      req := if q.connected then restoreReq m s.now q.req else { q.req with conSends := 0 }
      rsp := if q.connected then restoreRsp warm m q.rsp else { q.rsp with owed := [], stall := [], pulls := [] }
      cip := { q.cip with cseq := m.bound, bound := m.bound, waiting := [] } }) s
    let s := if (getQp s n).st = .connecting then sendConnect n s else s
    tryFreeQp n s

/-- A collective of group gid must be redone from its commit index: the root sends ROLLBACK, any other adapter asks it
to (R178, R383). -/
def askRollback (gid : Nat) (s : State) : State :=
  let g := getG s gid
  match g.run with
  | none => s
  | some r =>
    if isRoot s g.attr then rollAll gid s
    else toAdapters g.attr r.csn r.sig [adapterOf g.attr 0] { typ := 11, sub := 2, arg := r.commit } s

end Sys2Proof.Machine
end

