-- ==== Sys2Proof/Machine/Inject.lean ====
section
/-!
DEFINITION. The channels of local memory (R282 to R286), a channel's fence (R286, R389, R392), and reads that
return: one that meets a poisoned line (R286) or an injected detection that waits for an operation (R381) fails as
its chapter states.
-/
namespace Sys2Proof.Machine

/-! ### Channels (R283, R286) -/

/-- T, the rows of a channel. -/
def chRows (s : State) : Nat := s.memc.chMib * 4096
/-- P, its spare rows. -/
def spareRows (n t : Nat) : Nat := ceilDiv t (n - 4)
/-- R, its visible rows. -/
def visibleRows (s : State) : Nat := chRows s - spareRows s.memc.channels (chRows s)

/-- The channels to which the rows of fenced channel f are relocated: without f and its twin's controller. -/
def homeChannels (n f : Nat) : List Nat := (List.range n).filter (fun c => decide (c ≠ f ∧ c / 4 ≠ ((f + n / 2) % n) / 4))

/-- locate() of R283: the channel and offset of a local address, f the fenced channel. -/
def locate (s : State) (f : Option Nat) (a : Nat) : Nat × Nat :=
  let n := s.memc.channels
  let c := (a / 256) % n
  let row := (a / 256) / n
  if some c ≠ f then (c, row * 256 + a % 256)
  else ((homeChannels n c).getD (row % (n - 5)) 0, (visibleRows s + row / (n - 5)) * 256 + a % 256)

/-- The channel that serves a local address now: rows of the fenced channel at or above the copy pointer are still
in it (R286). -/
def channelOf (s : State) (a : Nat) : Nat :=
  let n := s.memc.channels
  match s.memc.fenced with
  | some f =>
    if s.memc.copying && decide ((a / 256) % n = f ∧ s.memc.copyRow ≤ (a / 256) / n) then f else (locate s (some f) a).1
  | none => (locate s none a).1

/-- The other copy of a line of a paired region (R284): copy A lies at the region's base, copy B behind it, half the
channels further. -/
def twinLine (s : State) (line : Nat) : Option Nat :=
  [0, 1, 2].findSome? (fun k =>
    let b := s.memc.regions.getD k 0 / 256
    let off := s.memc.paired.getD k 0 / 256 + s.memc.channels / 2
    if b ≤ line ∧ line < b + s.memc.paired.getD k 0 / 256 then some (line + off)
    else if b + off ≤ line ∧ line < b + off + s.memc.paired.getD k 0 / 256 then some (line - off) else none)

/-- The copy pointer of a fenced channel goes on, one row in four cycles (DESIGN CHOICE, log entry 42): rows below it are at
their new homes, paired lines from their twins; past the last visible row recovery is finished (R286). -/
def copyRows (s : State) : State :=
  if s.memc.copying && decide (s.now.toNat % 4 = 0) then
    let r := s.memc.copyRow + 1
    { s with memc := { s.memc with copyRow := min r (visibleRows s), copying := decide (r < visibleRows s) } }
  else s

/-- A channel's fence: its rows are copied; a second fenced channel is fatal (R286, R389). -/
def fenceChannel (ch : Nat) (fault forced : Bool) (s : State) : State :=
  match s.memc.fenced with
  | some f => if f = ch then s else fatal 0x0C ch forced 0 none s
  | none =>
    let s := if fault then faultNow 0x0C ch (collect 0x0C clsUC ch forced 0 0 5 none s) else s
    noteFence 0x0C ch { s with memc := { s.memc with fenced := some ch, copying := true, copyRow := 0 } }

/-- An uncorrectable read of a channel counts toward its fence (R392). -/
def countChannel (ch : Nat) (s : State) : State :=
  let s := countWindow 0x0C ch s
  if regf s 0xFC24 19 12 < windowCount s 0x0C ch then fenceChannel ch true false s else s

/-! ### Reads in flight -/

/-- The places of the frame payload that the ETH_SEND of SQ q reads (R374). -/
def sendPlaces (s : State) (q : Nat) : List (Nat × U64 × Nat) :=
  match sendOf s q with
  | none => []
  | some x => if x.pulled then framePlaces s x.desc x.formed else []

/-- The places of the source read that a ReadFor names. -/
def readPlacesOf (s : State) : ReadFor → List (Nat × U64 × Nat)
  | .packet n psn => ((getQp s n).req.pulls.find? (fun x => x.psn = psn)).elim [] (fun x => x.places)
  | .readResp n psn => ((getQp s n).rsp.pulls.find? (fun x => x.psn = psn)).elim [] (fun x => x.places)
  | .chunk gid m c => (getRun s gid).elim [] (fun r => aget [] m (getCh r c).reading)
  | .mover c => (getCh10 s c).reading.getD []
  | .frame q => sendPlaces s q

/-- How R295 names what a ReadFor serves. -/
def kindOf : ReadFor → ReadKind
  | .packet n psn => .source n psn
  | .readResp n _ => .readServe n
  | .chunk gid m _ => .coll gid m
  | .mover c => .moverRead c
  | .frame q => .ethSend 0 q

/-- The places of a queue's fetch read in flight. -/
def fetchPlaces (s : State) (f : Nat) (rq : Bool) (q : Nat) : List (Nat × U64 × Nat) :=
  let x := getQ s f rq q
  match x.fetch.filter (fun r => !r.held) with
  | some r => (fetchRuns x r.first r.count).map (fun o => let (t, a) := pinPlace s f x.ringSeg o.1; (t, a, o.2))
  | none => []

/-- The place of the compatibility piece that core c reads (R349). -/
def piecePlaces (s : State) (f : Nat) : List (Nat × U64 × Nat) :=
  let x := (getF s f).cip
  match x.run with
  | some r => let (t, a) := pinPlace s f (fld x.cmpSegs 7 0) (x.cmpSoff + BitVec.ofNat 64 r.pos); [(t, a, pieceLen r)]
  | none => []

/-- Every read in flight of a stream, a queue, the mover or the cipher engine, with its places. -/
def readsNow (s : State) : List (ReadKind × List (Nat × U64 × Nat)) :=
  s.qps.flatMap (fun q => q.2.req.pulls.map (fun p => (.source q.1 p.psn, p.places)) ++
    q.2.rsp.pulls.map (fun p => (.readServe q.1, p.places))) ++
  s.groups.flatMap (fun g => match g.2.run with
    | some r => r.state.flatMap (fun c => c.2.reading.map (fun m => (.coll g.1 m.1, m.2)))
    | none => []) ++
  s.mov.chans.flatMap (fun c => match c.2.reading with | some l => [(.moverRead c.1, l)] | none => []) ++
  s.facets.flatMap (fun f => f.2.que.sqs.map (fun q => (.fetch f.1 false q.1, fetchPlaces s f.1 false q.1)) ++
    f.2.que.rqs.map (fun q => (.fetch f.1 true q.1, fetchPlaces s f.1 true q.1)) ++
    (if pieceOut s f.1 then [(.cipher f.1, piecePlaces s f.1)] else [])) ++
  s.eth.sends.map (fun x => (.ethSend 0 x.q, sendPlaces s x.q))

/-- A place of local memory takes in a line. -/
def onLine (line : Nat) (l : Nat × U64 × Nat) : Bool :=
  decide (l.1 = 5 ∧ 0 < l.2.2 ∧ l.2.1.toNat / 256 ≤ line ∧ line ≤ (l.2.1.toNat + l.2.2 - 1) / 256)

/-! ### Reads that fail (R286, R295, R313, R381) -/

/-- Why a returning read fails: an unreadable local line; a port read error, injected or of an
address in neither half's window (R291); an injected mover bus error. -/
inductive Hurt where
  | line (ch : Nat) (addr : Nat) (forced : Bool)
  | port (p : Nat) (halfB : Bool) (addr : U64) (forced : Bool)
  | mover (p : Nat) (halfB : Bool) (addr : U64)
deriving DecidableEq, Repr

/-- The read belongs to the mover. -/
def isMoverRead : ReadKind → Bool | .moverRead _ => true | _ => false

/-- A detection injected at a unit waits for its next operation. -/
def injected (s : State) (src unit : Nat) : Bool := s.err.injections.contains (src, unit)

/-- It has struck. -/
def dropInjection (src unit : Nat) (s : State) : State :=
  { s with err := { s.err with injections := s.err.injections.erase (src, unit) } }

/-- What fails a read of one place. -/
def hurtAt (s : State) (k : ReadKind) (l : Nat × U64 × Nat) : Option Hurt :=
  let a := l.2.1.toNat
  let half := toHalfB s l.1 l.2.1
  match s.memc.poisoned.find? (fun x => onLine x l) with
  | some x => some (.line (channelOf s (x * 256)) (x * 256) false)
  | none =>
    if l.1 = 5 then
      if injected s 0x0A (channelOf s a) && (twinLine s (a / 256)).isNone then some (.line (channelOf s a) (a / 256 * 256) true)
      else if isMoverRead k && injected s 0x20 5 then some (.mover 5 false l.2.1) else none
    else if injected s 0x1D l.1 then some (.port l.1 half l.2.1 true)
    else if noHalf s l.1 l.2.1 then some (.port l.1 half l.2.1 false)
    else if isMoverRead k && injected s 0x20 l.1 then some (.mover l.1 half l.2.1) else none

/-- An injected error's kind (MOV_DEV_ERRINFO.KIND), which nothing states: 1 to 4, a free value. -/
def anyKind (s : State) : Nat := 1 + (Config.freeByte s.free).toNat % 4

/-- A read fails for a reason: its event, the reaction of its user, and a channel's count. -/
def failRead (k : ReadKind) (h : Hurt) (s : State) : State :=
  match h with
  | .line ch a forced =>
    let s := collect 0x0A clsUC ch forced (BitVec.ofNat 64 a) 0 0 (readFacet s k) (if forced then dropInjection 0x0A ch s else s)
    countChannel ch (readFailed 5 false 5 (BitVec.ofNat 64 a) k s)
  | .port p b a forced =>
    let kind := anyKind s
    let s := { s with free := s.free + 1 }
    readFailed p b kind a k (countReadError p a (readFacet s k) forced (if forced then dropInjection 0x1D p s else s))
  | .mover p b a =>
    let kind := if p = 5 then 5 else anyKind s
    busError p b kind a true (dropInjection 0x20 p { s with free := s.free + 1 })

/-- A read of `l` for `k` returns: it fails, or goes on as `go` says. -/
def readBack (k : ReadKind) (l : List (Nat × U64 × Nat)) (go : State → State) (s : State) : State :=
  match l.findSome? (hurtAt s k) with
  | some h => failRead k h s
  | none => go s

/-- FETCH_READ_DONE (R57). -/
def execFetchReadDone (f : Nat) (rq : Bool) (q : Nat) (slots : List Desc) (s : State) :
    Host.Outcome State Fault Refusal :=
  live (fun s => readBack (.fetch f rq q) (fetchPlaces s f rq q) (fetchDone f rq q slots) (readsEnd (.fetch f rq q) s)) s

/-- SOURCE_READ_DONE (R103, R110, R168, R309). -/
def execSourceReadDone (w : ReadFor) (bytes : Bytes) (s : State) : Host.Outcome State Fault Refusal :=
  live (fun s => readBack (kindOf w) (readPlacesOf s w) (fun s => match w with
    | .packet n psn => packetRead n psn bytes s
    | .readResp n psn => respRead n psn bytes s
    | .chunk gid m c => chunkRead gid m c bytes s
    | .mover c => moveRead c bytes s
    | .frame q => framePayload q bytes s) (readsEnd (.source w) s)) s

/-- A core's job ends; an injected mismatch that waits for the core strikes instead (R381, R386). -/
def coreDone (core : Nat) (bytes : Bytes) (s : State) : State :=
  match (aget {} core s.cip.cores).run with
  | none => s
  | some r =>
    if injected s 0x28 core then
      coreMismatch core (collect 0x28 clsUC core true 0 0 (match r.job with | .piece _ => 2 | _ => 0) none
        (dropInjection 0x28 core s))
    else match r.job with
      | .piece f => readBack (.cipher f) (piecePlaces s f) (jobDone core bytes) (readsEnd (.cipher f) s)
      | _ => jobDone core bytes s

/-- CIPHER_JOB_DONE (R333). -/
def execCipherJobDone (core : Nat) (bytes : Bytes) (s : State) : Host.Outcome State Fault Refusal :=
  live (fun s => when (decide (s.trust.ent = 1)) (coreDone core bytes) s) s

/-- ETH_FRAME_SENT (R375). -/
def execEthFrameSent (f q : Nat) (idx : U32) (s : State) : Host.Outcome State Fault Refusal :=
  live (when (decide (f = 0)) (frameSent (q, idx))) s

/-- MIGRATION_COPY_DONE (R279): the copy's reads return; a line that cannot be read is a bus error of the mover (R281,
R313). -/
def execMigrationCopyDone (f seg t : Nat) (bytes : Bytes) (s : State) : Host.Outcome State Fault Refusal :=
  live (fun s => match migIn s f seg t 4 with
    | none => s
    | some m => if m.asked then readBack (.moverRead m.ch) (migSource s m) (migCopied m bytes) (readsEnd (.mig f seg t) s)
      else s) s

/-! ### What a descriptor reads as it starts -/

/-- Why the read that the next descriptor of SQ q makes as it starts would fail. -/
def descHurt (s : State) (f q : Nat) : Option Hurt := (descPlaces s f q).findSome? (hurtAt s (.desc f q))

/-- Such a read fails for a reason: its event, `react`, and a channel's count. -/
def failDesc (f : Nat) (react : Nat → State → State) (h : Hurt) (s : State) : State :=
  match h with
  | .line ch a forced =>
    countChannel ch (react 5 (collect 0x0A clsUC ch forced (BitVec.ofNat 64 a) 0 0 (some f)
      (if forced then dropInjection 0x0A ch s else s)))
  | .port p _ a forced => react p (countReadError p a (some f) forced (if forced then dropInjection 0x1D p s else s))
  | .mover .. => s

/-- A descriptor of an opcode that reads as it starts: its read fails, or it goes on. -/
def descBack (f q op : Nat) (react : Nat → State → State) (go : State → State) (s : State) : State :=
  match ready s f q op with
  | none => s
  | some _ =>
    match descHurt s f q with
    | some h => failDesc f react h s
    | none => go s

/-- GROUP_CREATE (R155). -/
def execGroupCreate (f q : Nat) (members send reduce recv : List U64) (s : State) : Host.Outcome State Fault Refusal :=
  live (descBack f q 0x30 (descFails f q 0x30) (groupCreate f q members send reduce recv)) s

/-- A collective descriptor with an auxiliary area. -/
def auxCommand (f q op : Nat) (aux : Bytes) (s : State) : State :=
  descBack f q op (auxFailed f q op) (collCommand f q op aux) s

/-- GATHERV (R159, R165). -/
def execGatherv (f q : Nat) (aux : Bytes) (s : State) : Host.Outcome State Fault Refusal := live (auxCommand f q 0x19 aux) s
/-- ALLTOALLV (R159, R165). -/
def execAlltoallv (f q : Nat) (aux : Bytes) (s : State) : Host.Outcome State Fault Refusal := live (auxCommand f q 0x1A aux) s
/-- EXPERT_DISPATCH (R163). -/
def execExpertDispatch (f q : Nat) (aux : Bytes) (s : State) : Host.Outcome State Fault Refusal :=
  live (auxCommand f q 0x1B aux) s
/-- EXPERT_COMBINE (R164). -/
def execExpertCombine (f q : Nat) (aux : Bytes) (s : State) : Host.Outcome State Fault Refusal :=
  live (auxCommand f q 0x1C aux) s

/-- FACET_RESIZE (R323) with its record read. -/
def resizeStart (f q : Nat) (record : List U64) (s : State) : State :=
  match ready s f q 0x35 with
  | none => s
  | some i =>
    let d := i.desc
    let go := startWith f q 0x35 (facetResize q record)
    if !rangeCheck s 0 (fld d.w3 7 0) d.w4 128 .lrd none then go s
    else startAccess q false (resizeSpan d) (fun t x => go (readAll none 0 t.fresh x)) s

/-- FACET_RESIZE (R323). -/
def execFacetResize (f q : Nat) (record : List U64) (s : State) : Host.Outcome State Fault Refusal :=
  live (descBack f q 0x35 (descFails f q 0x35) (resizeStart f q record)) s

end Sys2Proof.Machine
end

