-- ==== Sys2Proof/Machine/Errors.lean ====
section
/-!
DEFINITION. The fault collector's reactions (14_faults_and_afterglow.md, R378 to R395, R401), the fence and unfence
commands (R387), Lantern cores and their agents (R388, R389, R419), and writes through the BAR4 window (R293).
-/
namespace Sys2Proof.Machine

/-- The collector runs from boot stage 0 on, but not in Glimmer (R379, R432). -/
def collectorRuns (s : State) : Bool :=
  decide (s.boot.run = .boot ∨ s.boot.run = .hold ∨ s.boot.run = .running) &&
    decide (s.pwr.st ≠ .glimmer ∧ s.pwr.st ≠ .glimmerEntry) && !s.cip.scan

/-! ### Sources (R382) -/

/-- A unit of a source is one that the part has; banks by area as log entry 19 numbers them. Sources whose unit column
reads — take any. -/
def unitOk (s : State) (src u : Nat) : Bool :=
  if src = 0x01 ∨ src = 0x05 then decide (u ≤ 96)
  else if src = 0x02 then decide (u < 64)
  else if src = 0x03 then decide (64 ≤ u ∧ u < 88)
  else if src = 0x04 then decide (88 ≤ u ∧ u ≤ 96)
  else if 0x08 ≤ src ∧ src ≤ 0x0C then decide (u < s.memc.channels)
  else if src = 0x10 ∨ src = 0x11 then hasPrism s u
  else if 0x14 ≤ src ∧ src ≤ 0x17 then hasLink s u
  else if 0x1C ≤ src ∧ src ≤ 0x1E then hasPort s u
  else if src = 0x20 then hasPort s u || decide (u = 5)
  else if src = 0x24 then decide (u < 8)
  else if src = 0x28 then decide (u < 8) && hasCip s
  else if src = 0x31 then decide (u < 8)
  else if src = 0x32 then decide (u < 7)
  else decide (src ∈ [0x18, 0x2C, 0x2D, 0x2E, 0x30, 0x38])

/-- Sources without a unit. -/
def noUnit (src : Nat) : Bool := decide (src ∈ [0x18, 0x2C, 0x2D, 0x2E, 0x30, 0x38, 0x3F])

/-- The class of a source where no circumstance changes it (R382). -/
def srcClass (src : Nat) : Nat :=
  if src ∈ [0x01, 0x04, 0x08, 0x09, 0x14, 0x18, 0x1C, 0x2E] then clsCE
  else if src ∈ [0x0B, 0x1E, 0x2D, 0x30, 0x31, 0x32, 0x3F] then clsFT
  else if src = 0x38 then clsINFO else clsUC

/-! ### On-chip SRAM (R383 to R385) -/

/-- Every running collective that holds a buffer in a bank of Prism scratch rolls back (R383). -/
def scratchLost (bank : Nat) (s : State) : State :=
  let k := s.free
  let hit := s.groups.filter (fun g => (match g.2.run with | some r => decide (0 < r.held) | none => false) &&
    Config.inBank k bank g.1)
  hit.foldl (fun s g => askRollback g.1 s) { s with free := s.free + 1 }

/-- Contexts beyond the cache's size leave it, the least recently used idle ones first. -/
def trimCtx (s : State) : State :=
  let l := s.zrt.resident
  let out := (l.filter (fun n => !inPipe s n)).take (l.length - ctxSlots s)
  { s with zrt := { s.zrt with resident := l.filter (fun n => !out.contains n) } }

/-- A fenced bank of the context cache: its contexts are restored, and the cache shrinks (R385). -/
def ctxBankLost (bank : Nat) (s : State) : State :=
  let k := s.free
  let hit := s.zrt.resident.filter (fun n => Config.inBank k bank n)
  trimCtx (hit.foldl (fun s n => restoreQp false n s) { s with free := s.free + 1 })

/-- A bank is fenced by a fault: its area goes on without it (R384, R385). -/
def fenceBank (bank : Nat) (forced : Bool) (s : State) : State :=
  let l := s.err.banks.filter (fun b => decide (b < bank)) ++ bank :: s.err.banks.filter (fun b => decide (bank < b))
  let s := noteFence 0x05 bank (collect 0x05 clsUC bank forced 0 0 5 none { s with err := { s.err with banks := l } })
  if bank < 64 then scratchLost bank s else if bank < 88 then ctxBankLost bank s else s

/-- An uncorrectable word of a bank counts toward its fence (R392). -/
def countBank (bank : Nat) (s : State) : State :=
  let s := countWindow 0x05 bank s
  if regf s 0xFC24 27 20 < windowCount s 0x05 bank ∧ bank ∉ s.err.banks then fenceBank bank false s else s

/-! ### Lantern cores and agents (R388, R389, R417, R419) -/

/-- Core c is fenced. -/
def coreFenced (s : State) (c : Nat) : Bool := bit s.err.lan c

/-- An agent runs, or restarts, on core c. -/
def agentOn (s : State) (c : Nat) : Bool :=
  s.boot.agents.any (fun a => decide ((a.2.st = 1 ∨ a.2.st = 2) ∧ a.2.core = c))

/-- The lowest unfenced agent core that runs no agent (R388). -/
def freeCore (s : State) : Option Nat :=
  [2, 3, 4, 5, 6, 7].find? (fun c => !coreFenced s c && !agentOn s c)

def getAgent (s : State) (a : Nat) : Agent := aget {} a s.boot.agents
def modAgent (a : Nat) (g : Agent → Agent) (s : State) : State :=
  { s with boot := { s.boot with agents := amod {} a g s.boot.agents } }

/-- Agent a is loaded again on core c and started: M3 is extended, an INFO event with subtype 8 recorded (R388,
R419). -/
def restartAgent (a c : Nat) (s : State) : State :=
  let s := modAgent a (fun x => { x with st := 1, core := c, restarts := x.restarts + 1, kickAt := s.now }) s
  infoEvent 8 0 0 0 (extendM 3 (getAgent s a).entry.digest (copyAgent (getAgent s a).entry s))

/-- An agent whose core was fenced: onto a free core, or it waits (R388). -/
def moveAgent (a : Nat) (s : State) : State :=
  match freeCore s with
  | some c => restartAgent a c s
  | none => modAgent a (fun x => { x with st := 3 }) s

/-- Core c leaves service: an agent on it moves (R388). -/
def coreGone (c : Nat) (s : State) : State :=
  let l := (s.boot.agents.filter (fun a => decide ((a.2.st = 1 ∨ a.2.st = 2) ∧ a.2.core = c))).map Prod.fst
  let s := { s with err := { s.err with lan := s.err.lan ||| BitVec.ofNat 8 (2 ^ c) } }
  l.foldl (fun s a => moveAgent a s) (noteFence 0x24 c s)

/-- A fault of core c (R388); of the last unfenced firmware core it is fatal, and that core is fenced all the same
(R389). -/
def faultCore (c : Nat) (forced : Bool) (s : State) : State :=
  let s := faultNow 0x24 c s
  if c < 2 ∧ coreFenced s (1 - c) then coreGone c (fatal 0x24 c forced 0 none s)
  else coreGone c (collect 0x24 clsUC c forced 0 0 5 none s)

/-- Core c is unfenced: an agent that waits takes it (R388). -/
def unfenceCore (c : Nat) (s : State) : State :=
  let s := noteUnfence 0x24 c { s with err := { s.err with lan := s.err.lan &&& ~~~(BitVec.ofNat 8 (2 ^ c)) } }
  match s.boot.agents.find? (fun a => decide (a.2.st = 3)), freeCore s with
  | some a, some k => restartAgent a.1 k s
  | _, _ => s

/-! ### Detections (R379, R381, R382) -/

/-- An uncorrectable line of a fenced channel's unpaired rows, met while they are copied, is poisoned at its new home
(R286). -/
def poisonLine (a : Nat) (s : State) : State :=
  let line := a / 256
  let inCopy := s.memc.copying && decide (s.memc.fenced = some (line % s.memc.channels) ∧
    s.memc.copyRow ≤ line / s.memc.channels)
  if inCopy && !s.memc.poisoned.contains line then { s with
    memc := { s.memc with poisoned := s.memc.poisoned ++ [line] }, xlt := { s.xlt with poison := s.xlt.poison + 1 } }
  else s

/-- An uncorrectable read of a channel: of a paired line its twin is used and the line rewritten (MEM_UE_PAIRED, R284); of
another every read in flight of the line fails (MEM_UE). -/
def memUe (ch : Nat) (info0 : U64) (facet : Option Nat) (s : State) : State :=
  let line := info0.toNat / 256
  if (twinLine s line).isSome then countChannel ch (collect 0x09 clsCE ch false info0 0 1 none s)
  else
  let s := poisonLine info0.toNat (collect 0x0A clsUC ch false info0 0 0 facet s)
  let hit := ((readsNow s).filter (fun r => r.2.any (onLine line))).map Prod.fst
  countChannel ch (hit.foldl (fun s k => readFailed 5 false 5 info0 k s) s)

/-- The third failure of the entropy source within 1 s is fatal; before, it discards its pool and tests again
(R352). -/
def entHealth (forced : Bool) (s : State) : State :=
  let l := s.trust.failTimes.filter (fun t => !elapsed s t (ms 1000)) ++ [s.now]
  let s := collect 0x2C clsUC 0 forced 0 0 0 none { s with trust := { s.trust with
    ent := 2, failTimes := l, entFails := if s.trust.entFails = 255 then 255 else s.trust.entFails + 1 } }
  if 3 ≤ l.length then fatal 0x2D 0 forced 0 none { s with trust := { s.trust with ent := 3 } } else s

/-- A detection waits for the next operation of its unit (R381). -/
def waitInjection (src u : Nat) (s : State) : State :=
  if injected s src u then s else { s with err := { s.err with injections := s.err.injections ++ [(src, u)] } }

/-- A detection that cannot apply to its unit's state is recorded only (R381). -/
def recordOnly (src u : Nat) (forced : Bool) (info0 : U64) (facet : Option Nat) (s : State) : State :=
  collect src (srcClass src) u forced info0 0 8 facet s

/-- Detections of on-chip SRAM (R383 to R385). -/
def detectSram (src u : Nat) (forced : Bool) (info0 : U64) (s : State) : State :=
  match src with
  | 0x01 => collect src clsCE u forced 0 0 1 none s
  | 0x02 => countBank u (scratchLost u (collect src clsUC u forced 0 0 3 none s))
  | 0x03 =>
    let n := if forced then s.zrt.resident.getLast? else some (fld info0 19 0)
    match n with
    | some n => countBank u (restoreQp false n (collect src clsUC u forced (BitVec.ofNat 64 n) 0 4
        (if (getQp s n).st = .free then none else some (getQp s n).facet) s))
    | none => recordOnly src u forced 0 none s
  | 0x04 => countBank u (collect src clsCE u forced 0 0 1 none s)
  | _ => if u ∈ s.err.banks then recordOnly src u forced 0 none s else fenceBank u forced s

/-- Detections of LPDDR5X (R286, R392). -/
def detectMem (src u : Nat) (forced : Bool) (info0 : U64) (facet : Option Nat) (s : State) : State :=
  match src with
  | 0x08 => collect src clsCE u forced info0 0 0 none s
  | 0x09 => countChannel u (collect src clsCE u forced info0 0 1 none s)
  | 0x0A => if forced then waitInjection src u s else memUe u info0 facet s
  | 0x0B => fatal src u forced info0 none s
  | _ => if s.memc.fenced = some u then faultNow src u (recordOnly src u forced 0 none s) else fenceChannel u true forced s

/-- Detections of Prism clusters (R205, R206). A real residue error's lane and slice come with RESIDUE_ERROR; here they
are free values. -/
def detectPrism (src u : Nat) (forced : Bool) (s : State) : State :=
  if bit s.prism.fenced u then when (decide (src = 0x11)) (faultNow src u) (recordOnly src u forced 0 none s)
  else if src = 0x11 then fencePrism u true forced s
  else if forced then waitInjection src u s
  else residue u ((Config.freeByte s.free).toNat % 32) ((Config.freeByte (s.free + 1)).toNat % 4) false false
    { s with free := s.free + 2 }

/-- Detections of Svays links (R245, R248, R249). -/
def detectLink (src u : Nat) (forced : Bool) (s : State) : State :=
  let st := (getL s u).st
  match src with
  | 0x14 =>
    if st ≠ .active then recordOnly src u forced 0 none s
    else if forced then waitInjection src u s
    else recvFlit u 1 0 false 0 [] s
  | 0x15 => if st ≠ .active then recordOnly src u forced 0 none s else linkDownBy u forced s
  | 0x16 => if st ≠ .exchange then recordOnly src u forced 0 none s
    else collect src clsUC u forced 0 0 0 none (linkTo u .miswired { s with fab := { s.fab with
      miswire := s.fab.miswire ||| BitVec.ofNat 24 (2 ^ u) } })
  | _ => if st = .fenced ∨ st = .disabled then faultNow src u (recordOnly src u forced 0 none s) else faultFenceLink u forced s

/-- Detections of ports and the mover (R295, R313): an injected one waits for the next read of the port. -/
def detectPort (src u : Nat) (forced : Bool) (info0 : U64) (facet : Option Nat) (s : State) : State :=
  let down := decide (u ≠ 5) && !((getP s u).up || (bifurcated s u && (getP s (4 + u)).up))
  match src with
  | 0x1C => collect src clsCE u forced info0 0 0 none s
  | 0x1D => if forced then (if down then recordOnly src u forced info0 none s else waitInjection src u s)
    else countReadError u info0 facet false s
  | 0x1E => fatal src u forced info0 none s
  | _ => if forced then (if down then recordOnly src u forced info0 none s else waitInjection src u s)
    else busError u false (if u = 5 then 5 else anyKind s) info0 false { s with free := s.free + 1 }

/-- Detections of cores, the cipher engine, the trust unit and the device (R352, R386, R388). -/
def detectOther (src u : Nat) (forced : Bool) (info0 : U64) (facet : Option Nat) (s : State) : State :=
  match src with
  | 0x24 => if coreFenced s u then faultNow src u (recordOnly src u forced 0 none s) else faultCore u forced s
  | 0x28 => if forced then waitInjection src u s
    else
      let piece := (aget {} u s.cip.cores : Core).runsPiece
      coreMismatch u (collect src clsUC u forced 0 0 (if piece then 2 else 0) none s)
  | 0x2C => entHealth forced s
  | 0x18 => collect src clsCE 0 forced 0 0 1 none s
  | 0x2E => collect src clsCE 0 forced 0 0 0 none s
  | 0x38 => collect src clsINFO 0 forced info0 0 0 facet s
  | 0x2D => fatal src 0 forced 0 none { s with trust := { s.trust with ent := 3 } }
  | _ => fatal src u forced 0 none s

/-- R395: a parity mismatch in a collector register. -/
def selfEvent (forced : Bool) (s : State) : State :=
  if s.err.mode = .umbra then recordRaw 0x3F clsFT 0 forced false 0 0 8 none s
  else enterUmbra 0x3F true s.agl.next (recordRaw 0x3F clsFT 0 forced false 0 0 7 none s)

/-- One detection of a source at a unit, real or injected (R379, R381). Chunks sent over a link that fails are sent
again (R175). -/
def detect (src u : Nat) (info0 : U64) (facet : Option Nat) (forced : Bool) (s : State) : State :=
  let u := if noUnit src then 0 else u
  if src = 0x3F then selfEvent forced s
  else if !unitOk s src u then s
  else if s.err.mode = .umbra then recordOnly src u forced info0 facet s
  else if src ≤ 0x05 then detectSram src u forced info0 s
  else if src ≤ 0x0C then detectMem src u forced info0 facet s
  else if src ≤ 0x11 then detectPrism src u forced s
  else if src ≤ 0x17 then resendLost (detectLink src u forced s)
  else if 0x1C ≤ src ∧ src ≤ 0x20 then detectPort src u forced info0 facet s
  else detectOther src u forced info0 facet s

/-- ERROR_EVENT (R379). -/
def execErrorEvent (source unit : Nat) (info0 : U64) (facet : Option Nat) (s : State) : Host.Outcome State Fault Refusal :=
  .next (when (collectorRuns s) (detect source unit info0 facet false) s)

/-- SELF (R395). -/
def execSelf (s : State) : Host.Outcome State Fault Refusal := .next (when (collectorRuns s) (selfEvent false) s)

/-- A write of ERR_DEV_FORCE (R381): one detection for each set bit, ascending. -/
def writeForce (v : U64) (s : State) : State :=
  if bit (reg s 0xFC20) 0 then
    (setBits 64 v.toNat).foldl (fun s src => detect src (regf s 0xFC28 7 0) 0 none true s) s
  else s

/-- ERR_DEV_FORCE (R381). -/
def execErrDevForce (f : Nat) (v : U64) (s : State) : Host.Outcome State Fault Refusal :=
  live (mgmtWrite f (writeForce v)) s

/-- FENCE_WINDOW (R392): the counts of every unit restart at each window. -/
def execFenceWindow (s : State) : Host.Outcome State Fault Refusal :=
  .next (when (collectorRuns s && elapsed s s.err.winAt (ms (2 ^ regf s 0xFC24 3 0)))
    (fun s => { s with err := { s.err with win := [], winAt := s.now } }) s)

/-! ### The fence commands (R387) -/

/-- KIND, INDEX of a fence descriptor. -/
def fenceKind (d : Desc) : Nat := fld d.w2 2 0
def fenceIdx (d : Desc) : Nat := fld d.w2 10 3

/-- How many units a KIND numbers. -/
def kindCount (k : Nat) : Nat := match k with | 1 => 8 | 2 => 8 | 3 => 24 | 4 => 32 | _ => 0

/-- The part has the unit. -/
def kindHas (s : State) (k i : Nat) : Bool :=
  match k with
  | 1 => hasPrism s i
  | 2 => decide (i < 8)
  | 3 => hasLink s i
  | _ => decide (i < s.memc.channels)

/-- The unit is fenced. -/
def kindFenced (s : State) (k i : Nat) : Bool :=
  match k with
  | 1 => bit s.prism.fenced i
  | 2 => coreFenced s i
  | 3 => linkFenced s i
  | _ => decide (s.memc.fenced = some i)

/-- The fence source of a KIND's units (R387). -/
def kindSource (k : Nat) : Nat := match k with | 1 => 0x11 | 2 => 0x24 | 3 => 0x17 | _ => 0x0C

/-- A fault fenced the unit in this very cycle: a command of the cycle is taken first, so that the unit ends fenced and
an unfence of it has no effect (R390). -/
def faultedNow (s : State) (k i : Nat) : Bool := decide (agetq (kindSource k * 256 + i) s.err.faultAt = some s.now)

/-- The status that a fence or unfence command completes with at once: reason 1, an absent unit, or a unit that is in
the asked state already. -/
def fenceEarly (s : State) (k i : Nat) (fence : Bool) : Option Status :=
  if kindCount k ≤ i then some (statD cBAD_FIELD 1)
  else if !kindHas s k i then some (stat cUNIT_ABSENT)
  else if kindFenced s k i = fence || (!fence && faultedNow s k i) then some stOk
  else none

/-- Reasons 2 and 4 of a fence; 0: none. -/
def fenceReason (s : State) (k i : Nat) : Nat :=
  match k with
  | 1 => if (liveClusters s).filter (fun c => c ≠ i) = [] then 2 else 0
  | 2 => if i < 2 ∧ coreFenced s (1 - i) then 2 else 0
  | 3 => if (getL s i).st = .disabled then 4 else 0
  | _ => if s.memc.fenced.isSome then 2 else 0

/-- The fence of a unit by command. -/
def fenceUnit (k i : Nat) (s : State) : State :=
  match k with
  | 1 => fencePrism i false false s
  | 2 => coreGone i s
  | 3 => resendLost (fenceLink i s)
  | _ => fenceChannel i false false s

/-- UNIT_FENCE (R387). -/
def unitFence (q : Nat) (i : Item) (s : State) : State :=
  let k := fenceKind i.desc
  let u := fenceIdx i.desc
  match fenceEarly s k u true with
  | some st => completeItem 0 q i.idx st s
  | none =>
    if fenceReason s k u ≠ 0 then completeItem 0 q i.idx (statD cBAD_FIELD (fenceReason s k u)) s
    else completeItem 0 q i.idx stOk (fenceUnit k u (restWake s))

/-- UNIT_FENCE (R387). -/
def execUnitFence (f q : Nat) (s : State) : Host.Outcome State Fault Refusal :=
  live (startWith f q 0x38 (unitFence q)) s

/-- R387 reason 3: some queue other than SQ q of facet 0 has H ≠ A, or a collective or migration runs. -/
def deviceBusy (s : State) (q : Nat) : Bool :=
  s.facets.any (fun x => x.2.que.sqs.any (fun y => decide (¬(x.1 = 0 ∧ y.1 = q) ∧ y.2.head ≠ y.2.acc)) ||
    x.2.que.rqs.any (fun y => decide (y.2.head ≠ y.2.acc))) ||
  s.groups.any (fun g => g.2.run.isSome) || decide (s.xlt.migs ≠ [])

/-- The unfence of a cluster, a core or a link. -/
def unfenceUnit (k i : Nat) (s : State) : State :=
  match k with
  | 1 => unfencePrism i s
  | 2 => unfenceCore i s
  | _ => noteUnfence 0x17 i (linkTo i .detect s)

/-- UNIT_UNFENCE (R387): a channel's completes when its relocated rows are copied back. -/
def unitUnfence (q : Nat) (i : Item) (s : State) : State :=
  let k := fenceKind i.desc
  let u := fenceIdx i.desc
  match fenceEarly s k u false with
  | some st => completeItem 0 q i.idx st s
  | none =>
    if k = 4 then
      if deviceBusy s q then completeItem 0 q i.idx (statD cBAD_FIELD 3) s
      else
        let s := restWake s
        { s with memc := { s.memc with unfencing := some (q, i.idx) } }
    else completeItem 0 q i.idx stOk (unfenceUnit k u (restWake s))

/-- UNIT_UNFENCE (R387). -/
def execUnitUnfence (f q : Nat) (s : State) : Host.Outcome State Fault Refusal :=
  live (startWith f q 0x39 (unitUnfence q)) s

/-- CHANNEL_COPY_DONE (R286): the copy pointer passes the last visible row. -/
def execChannelCopyDone (s : State) : Host.Outcome State Fault Refusal :=
  live (fun s => when s.memc.copying (fun s => { s with memc := { s.memc with
    copying := false, copyRow := visibleRows s } }) s) s

/-- The relocated rows are back in the channel: it is unfenced, and the command completes (R387). -/
def channelBack (s : State) : State :=
  match s.memc.unfencing, s.memc.fenced with
  | some (q, idx), some ch =>
    let s := { s with memc := { s.memc with fenced := none, copying := false, copyRow := 0, unfencing := none } }
    settle 0 (completeItem 0 q idx stOk (noteUnfence 0x0C ch s))
  | _, _ => s

/-- CHANNEL_UNFENCE_COPY_DONE (R387). -/
def execChannelUnfenceCopyDone (s : State) : Host.Outcome State Fault Refusal := live channelBack s

/-! ### Agents (R417 to R419) -/

/-- AGENT_WATCHDOG (R419): the agent has not kicked within WDOG_MS. -/
def execAgentWatchdog (a : Nat) (s : State) : Host.Outcome State Fault Refusal :=
  live (fun s =>
    let x := getAgent s a
    when (decide (x.st = 1 ∧ x.entry.wdogMs ≠ 0) && elapsed s x.kickAt (ms x.entry.wdogMs)) (restartAgent a x.core) s) s

/-- AGENT_TRAP (R419). -/
def execAgentTrap (a : Nat) (s : State) : Host.Outcome State Fault Refusal :=
  live (fun s => when (decide ((getAgent s a).st = 1)) (restartAgent a (getAgent s a).core) s) s

/-- LAN_DEV_KICK (R419): a write of 1 from an agent's core restarts its watchdog; one from elsewhere is ignored. -/
def execLanDevKick (core : Option Nat) (v : U32) (s : State) : Host.Outcome State Fault Refusal :=
  live (fun s => match core with
    | none => s
    | some c => when (bit v 0) (fun s => { s with boot := { s.boot with agents := amap (fun _ x =>
        if x.st = 1 ∧ x.core = c then { x with kickAt := s.now } else x) s.boot.agents } }) s) s

/-! ### Other register commands -/

/-- A write of AGL_SEL (R397). -/
def writeAglSel (v : U32) (s : State) : State := { s with agl := { s.agl with sel := v } }

/-- AGL_SEL (R397). -/
def execAglSel (f : Nat) (v : U32) (s : State) : Host.Outcome State Fault Refusal := live (mgmtWrite f (writeAglSel v)) s

/-- MOV_BUSERR (R313): a port's failed read is a port read error too (R295), LPDDR5X's an uncorrectable read. -/
def movBusErr (port : Nat) (halfB : Bool) (kind : Nat) (addr : U64) (s : State) : State :=
  if port = 5 then
    let ch := channelOf s addr.toNat
    busError 5 false 5 addr false (countChannel ch (collect 0x0A clsUC ch false addr 0 0 none s))
  else busError port halfB kind addr false (countReadError port addr none false s)

/-- MOV_BUSERR (R313). -/
def execMovBuserr (port : Nat) (halfB : Bool) (kind : Nat) (addr : U64) (s : State) : Host.Outcome State Fault Refusal :=
  live (movBusErr port halfB kind addr) s

/-- PRISM_POWER_UP (R424, R426): the clusters have power, and waiting chunks go on. -/
def execPrismPowerUp (s : State) : Host.Outcome State Fault Refusal :=
  live (fun s => when s.prism.powering (fun s => wakeColls { s with prism := { s.prism with
    powered := true, powering := false } }) s) s

/-! ### The BAR4 window (R293) -/

/-- The bytes of a window write that fall where it may write: the Lantern and agent memory and facet memory. -/
def windowBytes (s : State) (a : Nat) (bs : Bytes) : List (Nat × Byte) :=
  (bs.zipIdx.map (fun (b, i) => (a + i, b))).filter (fun x =>
    decide (s.memc.regions.getD 5 0 ≤ x.1 ∧ x.1 < s.memc.visible))

/-- Bytes of local memory written where the window may write. -/
def windowStore (a : Nat) (bs : Bytes) (s : State) : State :=
  match windowBytes s a bs with
  | [] => s
  | x :: r => memStore x.1 ((x :: r).map Prod.snd) s

/-- A write of bytes at an offset of function f's MSI-X table; the PBA behind it is read-only (R292). -/
def writeMsix (f off : Nat) (bs : Bytes) (s : State) : State :=
  sendPba f (modF f (fun x => { x with pcx := { x.pcx with
    table := bs.zipIdx.foldl (fun t (b, i) => if off + i < 0x8000 then msixByte (off + i) b t else t) x.pcx.table } }) s)

/-- A write through BAR4 of PF0 or of VF f (R292, R293), or by an agent core to a core address (R418). -/
def windowWrite (src : Source) (off : Nat) (bs : Bytes) (s : State) : State :=
  match src with
  | .bar => if off < 0x4000000 then windowStore ((reg s 0xF4B0).toNat + off) bs s
    else writeMsix 0 (off - 0x4000000) bs s
  | .vf f => writeMsix f off bs s
  | .agent a => match agentReach s a off with
    | some (.own o) => memStore (agentBase s a + o) bs s
    | _ => s

/-- What a read of PF0's BAR4 window returns (R293): the bytes, zero outside the dump region and the two regions of
Lantern, agent and facet memory, and EP where a line it reads is poisoned. -/
def windowRead (s : State) (off n : Nat) : Bytes × Bool :=
  let a := (reg s 0xF4B0).toNat + off
  let g := fun (i : Nat) => s.memc.regions.getD i 0
  let open_ := fun (x : Nat) => decide (g 3 ≤ x ∧ x < g 4) || decide (g 5 ≤ x ∧ x < s.memc.visible)
  ((List.range n).map (fun i => if open_ (a + i) then memByte s.mem (a + i) else 0),
    (List.range n).any (fun i => open_ (a + i) && s.memc.poisoned.contains ((a + i) / 256)))

/-- WINDOW_WRITE (R293). -/
def execWindowWrite (w : WindowAccess) (bytes : Bytes) (s : State) : Host.Outcome State Fault Refusal :=
  live (windowWrite w.src w.off bytes) s

end Sys2Proof.Machine
end

