-- ==== Sys2Proof/Machine/RegView.lean ====
section
/-!
DEFINITION. What every register of a facet's page reads (the register tables of 00_scope.md and of every chapter,
R2, R18, R19, R320, R330). A WO field and an RSVD bit read zero.
-/
namespace Sys2Proof.Machine

/-- A register as its page shows it: its value, whether it is 64 bits wide, and how it may be accessed (R19). -/
structure RegView where
  val : U64
  wide : Bool := false
  acc : RegAcc := .halves
deriving DecidableEq, Repr, Inhabited

/-- A 32-bit register. -/
def r32 (v : Nat) : Option RegView := some { val := BitVec.ofNat 64 v }
/-- A 64-bit register. -/
def r64 (acc : RegAcc) (v : Nat) : Option RegView := some { val := BitVec.ofNat 64 v, wide := true, acc := acc }

/-- The index of an offset in an array of registers. -/
def slot (base stride cnt off : Nat) : Option Nat :=
  if base ≤ off ∧ (off - base) % stride = 0 ∧ (off - base) / stride < cnt then some ((off - base) / stride) else none

/-- CAP registers (R1, R9, R458). -/
def capView (s : State) (off : Nat) : Option RegView :=
  match off with
  | 0x0 => r32 (1 + Config.stepping.toNat * 2 ^ 8 + partId s.part * 2 ^ 16)
  | 0x8 => r64 .halves (capUnits s.part).toNat
  | _ => none

/-! ### QUE (R82) -/

/-- STATE of QUE_SQ_STATUS. -/
def qStateNo : QState → Nat
  | .disabled => 0 | .active => 1 | .error => 2 | .restarting => 3 | .draining => 4

/-- DEP_WAIT: the next descriptor to start waits on a dependency. -/
def depWait (s : State) (f : Nat) (rq : Bool) (q : Nat) : Bool :=
  match nextStart s f rq q with
  | some i => !rq && !(Desc.deps i.desc).all (depOk s f)
  | none => false

/-- One register of the block of an SQ or RQ. -/
def queueView (s : State) (f : Nat) (rq : Bool) (q o : Nat) : Option RegView :=
  let x := getQ s f rq q
  match o with
  | 0x00 => r64 .halves x.ringOff.toNat
  | 0x08 => r64 .halves x.progOff.toNat
  | 0x10 => r64 .halves x.cfg.toNat
  | 0x18 => r32 x.start.toNat
  | 0x1C => r32 0
  | 0x20 => r32 (qStateNo x.st + b2n x.evtPending * 8 + b2n (depWait s f rq q) * 16 + x.err.toNat * 2 ^ 16)
  | 0x24 => r32 x.errIdx.toNat
  | 0x28 => r32 x.pubAcc.toNat
  | 0x2C => r32 x.pubHead.toNat
  | 0x30 => r32 x.pDev.toNat
  | 0x34 => if rq then r32 0 else none
  | _ => none

/-- One register of the block of an event ring. -/
def ringView (s : State) (f e o : Nat) : Option RegView :=
  let r := getE s f e
  match o with
  | 0x00 => r64 .halves r.ringOff.toNat
  | 0x08 => r64 .halves r.cfg.toNat
  | 0x10 => r32 r.cons.toNat
  | 0x14 => r32 0
  | 0x18 => r32 r.prod.toNat
  | 0x1C => r32 r.start.toNat
  | 0x20 => r32 0
  | 0x24 => r32 (b2n r.active + b2n r.armed * 2 + r.err.toNat * 2 ^ 16)
  | _ => none

/-- QUE registers (R82). -/
def queView (s : State) (f off : Nat) : Option RegView :=
  let x := (getF s f).que
  if off < 0x5000 then
    let q := (off - 0x1000) / 0x40
    if queueOpen s f false q then queueView s f false q (off % 0x40) else none
  else if off < 0x9000 then
    let q := (off - 0x5000) / 0x40
    if queueOpen s f true q then queueView s f true q (off % 0x40) else none
  else if off < 0xA000 then
    let e := (off - 0x9000) / 0x40
    if ringOpen s f e then ringView s f e (off % 0x40) else none
  else match off with
    | 0xA000 => r32 x.pushDiscard.toNat
    | 0xA004 => r32 x.staleDb.toNat
    | 0xA008 => r32 x.refetch.toNat
    | 0xA00C => r32 x.pubHold.toNat
    | _ => none

/-! ### ZRT, RATE, GRP, PRISM, EPRG (R126, R148, R183, R209, R227) -/

/-- ZRT registers (R126). -/
def zrtView (s : State) (f off : Nat) : Option RegView :=
  let x := (getF s f).zrt
  let dev := fun (v : Nat) => if f = 0 then r32 v else none
  match off with
  | 0xB000 => r32 0
  | 0xB004 => r32 (b2n x.busy + x.state.toNat * 2 + x.holdWhy.toNat * 16 + x.result.toNat * 2 ^ 16)
  | 0xB008 => r32 x.qpn.toNat
  | 0xB010 => r64 .halves x.peer.toNat
  | 0xB018 => r64 .halves x.attr.toNat
  | 0xB020 => r64 .halves x.segs.toNat
  | 0xB028 => r64 .halves x.info.toNat
  | 0xB040 => r32 x.resend.toNat
  | 0xB044 => r32 x.dup.toNat
  | 0xB048 => r32 x.rnrSent.toNat
  | 0xB04C => r32 x.rnrRcvd.toNat
  | 0xB050 => r32 x.wait.toNat
  | 0xB054 => r32 x.ce.toNat
  | 0xB080 => dev s.zrt.icrc.toNat
  | 0xB084 => dev s.zrt.badHdr.toNat
  | 0xB088 => dev s.zrt.missFull.toNat
  | 0xB08C => dev s.zrt.resident.length
  | _ => none

/-- RATE and GRP registers of every facet (R148, R183). -/
def rateView (s : State) (f off : Nat) : Option RegView :=
  let x := (getF s f).rate
  let g := (getF s f).grp
  match off with
  | 0xC000 => r64 .halves (x.cap.toNat + x.lineage.toNat * 2 ^ 22 + x.profile.toNat * 2 ^ 26)
  | 0xC008 => r32 x.dec.toNat
  | 0xC00C => r32 x.wheel.toNat
  | 0xD000 => r32 g.done.toNat
  | 0xD004 => r32 g.fail.toNat
  | 0xD008 => r32 g.degraded.toNat
  | _ => none

/-- Collectives that run spilled. -/
def spilledRuns (s : State) : Nat :=
  (s.groups.filter (fun g => match g.2.run with | some r => r.spilled | none => false)).length

/-- GRP_DEV registers (R183). -/
def grpView (s : State) (off : Nat) : Option RegView :=
  match off with
  | 0xD084 => r32 ((groupsUsed s).length + entriesUsed s * 2 ^ 13)
  | 0xD088 => r32 (ceilDiv (scratchUsed s) 1024 + spilledRuns s * 2 ^ 18)
  | 0xD090 => r64 .halves (s.grp.poolKib + spillUsed s * 2 ^ 32)
  | 0xD098 => r32 s.grp.resend.toNat
  | 0xD09C => r32 s.grp.recompute.toNat
  | 0xD0A0 => r32 s.grp.rollback.toNat
  | 0xD0A4 => r32 s.grp.broken.toNat
  | 0xD0A8 => r32 s.grp.sigFail.toNat
  | _ => none

/-- PRISM and EPRG registers (R209, R227); those of an absent cluster or unit read zero. -/
def prismView (s : State) (off : Nat) : Option RegView :=
  let arr := fun (base stride : Nat) (g : Nat → Option RegView) =>
    match slot base stride 8 off with | some k => if hasPrism s k then g k else none | none => none
  match off with
  | 0xD400 => r32 s.prism.ucode.toNat
  | 0xD408 => r32 (prismBusy s + s.prism.fenced.toNat * 2 ^ 8)
  | 0xD430 => r64 .readOne s.prism.log.toNat
  | 0xD500 => if hasEprg s then r32 (1 + 0x40 * 2 ^ 8 + 0x10 * 2 ^ 16) else none
  | 0xD504 => if hasEprg s then r32 (s.prism.store.length + 0x400 * 2 ^ 16) else none
  | _ => (arr 0xD410 4 (fun k => r32 (aget 0 k s.prism.resCnt).toNat)).orElse fun _ =>
    (arr 0xD440 8 (fun k => r64 .readOne (aget 0 k s.prism.wbytes).toNat)).orElse fun _ =>
    if hasEprg s then arr 0xD510 8 (fun k => r64 .readOne (aget 0 k s.prism.vecs).toNat) else none

/-! ### SVL (R258) -/

/-- STATE of SVL_LNK_STATUS. -/
def lStateNo : LState → Nat
  | .disabled => 0 | .detect => 1 | .train => 2 | .align => 3 | .exchange => 4 | .active => 5 | .retrain => 6
  | .sleep => 7 | .miswired => 8 | .fenced => 9

/-- The links in a state. -/
def linksIn (s : State) (st : LState) : Nat := ofBits ((List.range 24).filter (fun n => decide ((getL s n).st = st)))

/-- The break map of dimension d. -/
def breakMap (s : State) (d : Nat) : Nat := ofBits ((List.range 16).filter (fun h => breakBit s d h))

/-- SVL_LNK_STATUS of link n. -/
def linkStatus (s : State) (n : Nat) : Nat := lStateNo (getL s n).st + (getL s n).rx.drops.length % 256 * 16

/-- One register of a link block. -/
def linkView (s : State) (n o : Nat) : Option RegView :=
  let l := getL s n
  match o with
  | 0x00 => r32 0
  | 0x04 => r32 (linkStatus s n)
  | 0x08 => r32 l.far.toNat
  | 0x10 => r64 .readOne l.fecCorr.toNat
  | 0x18 => r64 .readOne l.txFlits.toNat
  | 0x20 => r32 l.fecUnc.toNat
  | 0x24 => r32 l.crcErr.toNat
  | 0x28 => r32 l.replay.toNat
  | 0x2C => r32 l.drop.toNat
  | 0x30 => r32 l.down.toNat
  | 0x34 => r32 l.ceMark.toNat
  | _ => none

/-- SVL registers (R258). -/
def svlView (s : State) (off : Nat) : Option RegView :=
  if 0xE400 ≤ off then
    let n := (off - 0xE400) / 0x40
    if hasLink s n then linkView s n (off % 0x40) else none
  else match off with
    | 0xE018 => r32 (linksIn s .active)
    | 0xE01C => r32 (linksIn s .fenced)
    | 0xE020 => r32 s.fab.miswire.toNat
    | 0xE028 => r64 .readOne (breakMap s 0 + breakMap s 1 * 2 ^ 16 + breakMap s 2 * 2 ^ 32)
    | 0xE030 => r32 s.fab.noroute.toNat
    | 0xE034 => r32 s.fab.breakdrop.toNat
    | 0xE038 => r32 s.fab.notices.toNat
    | _ => none

/-! ### XLT and FLT (R288) -/

/-- XLT_SEG and XLT_FAC registers. -/
def xltView (s : State) (f off : Nat) : Option RegView :=
  let x := (getF s f).xlt
  match off with
  | 0xF000 => r32 0
  | 0xF004 => r32 (b2n (decide (x.busy ≠ 0)) + x.result.toNat * 2 ^ 16)
  | 0xF008 => r32 x.num.toNat
  | 0xF00C => r32 x.attr.toNat
  | 0xF010 => r32 x.key.toNat
  | 0xF018 => r64 .readOne x.base.toNat
  | 0xF020 => r64 .readOne x.limit.toNat
  | 0xF090 => r64 .readOne (x.tilesAllot.toNat + tilesUsed s f * 2 ^ 32)
  | 0xF098 => r32 x.faults.toNat
  | _ => match slot 0xF040 0x10 5 off, slot 0xF048 0x10 5 off with
    | some t, _ => r64 .readOne (window s f (t + 1)).1.toNat
    | _, some t => r64 .readOne (window s f (t + 1)).2.toNat
    | _, _ => none

/-- XLT_DEV_MEM_STATE. -/
def memState (s : State) : Nat :=
  s.memc.fenced.getD 0 + b2n s.memc.fenced.isSome * 2 ^ 6 + b2n s.memc.copying * 2 ^ 7

/-- XLT_DEV and FLT registers. -/
def xltDevView (s : State) (off : Nat) : Option RegView :=
  match off with
  | 0xF108 => r32 s.xlt.miss.toNat
  | 0xF10C => r32 s.xlt.parkDrop.toNat
  | 0xF110 => r32 s.xlt.migrated.toNat
  | 0xF114 => r32 s.xlt.poison.toNat
  | 0xF120 => r64 .readOne (s.memc.channels + s.memc.rate * 2 ^ 8 + s.memc.chMib * 2 ^ 32)
  | 0xF128 => r32 (memState s)
  | 0xF130 => r64 .readOne s.memc.copyRow
  | 0xF138 => r64 .readOne s.memc.visible
  | 0xF200 => r64 .readOne s.xlt.fltCfg.toNat
  | 0xF208 => r64 .readOne s.xlt.fltOff.toNat
  | 0xF210 => r32 s.xlt.fltProd.toNat
  | 0xF214 => r32 s.xlt.fltCons.toNat
  | 0xF218 => r32 0
  | 0xF21C => r32 0
  | 0xF220 => r32 (b2n s.xlt.fltArmed + s.xlt.recs.length * 2 ^ 16)
  | 0xF224 => r32 s.xlt.fltOverflow.toNat
  | 0xF228 => r32 ((s.xlt.heldFaults.map (fun p => p.stream)).dedup).length
  | _ => match slot 0xF140 8 7 off with
    | some k => r64 .readOne (s.memc.regions.getD k 0)
    | none => none

/-! ### PCX and MOV (R317) -/

/-- PCX and MOV registers of every facet. -/
def pcxView (s : State) (f off : Nat) : Option RegView :=
  let x := getF s f
  match off with
  | 0xF400 => r32 s.pcx.attachEpoch.toNat
  | 0xF404 => r32 (b2n (decide (x.pcx.held ≠ [])) + b2n x.pcx.bme * 2 + b2n x.pcx.epochRead * 4)
  | 0xF600 => r32 0
  | 0xF604 => r32 (x.mov.req.pending.toNat + b2n x.mov.req.overrun * 2 ^ 16)
  | 0xF608 => r32 x.mov.done.toNat
  | _ => none

/-- Channels that hold a MOVE or a migration copy. -/
def busyChans (s : State) : Nat := ofBits ((List.range 32).filter (fun c =>
  (getCh10 s c).desc.isSome || s.xlt.migs.any (fun m => decide (4 ≤ m.phase ∧ m.ch = c))))

/-- MOV_DEV_ERRINFO. -/
def errInfo (m : Mover) : Nat :=
  m.errPort.toNat + b2n m.errHalf * 8 + m.errKind.toNat * 16 + b2n m.errValid * 128 + m.later.toNat * 2 ^ 8

/-- MOV_DEV_PIN[n]. -/
def pinValue (p : DmaPin) : Nat :=
  p.facet.toNat + b2n p.en * 2 ^ 7 + b2n p.falling * 2 ^ 8 + b2n p.req.overrun * 2 ^ 9 + p.req.pending.toNat * 2 ^ 16

/-- PCX_DEV and MOV_DEV registers. -/
def pcxDevView (s : State) (off : Nat) : Option RegView :=
  match off with
  | 0xF680 => r64 .readOne (busyChans s + b2n s.mov.stopped * 2 ^ 32)
  | 0xF688 => r32 0
  | 0xF690 => r64 .readOne s.mov.errAddr.toNat
  | 0xF698 => r32 (errInfo s.mov)
  | _ => (match slot 0xF488 8 5 off with | some p => r64 .readOne (portValue s p).toNat | none => none).orElse fun _ =>
    (match slot 0xF4C0 4 5 off with | some p => r32 (getP s p).rderr.toNat | none => none).orElse fun _ =>
    (match slot 0xF4E0 8 4 off with | some k => r64 .readOne (portBValue s k).toNat | none => none).orElse fun _ =>
    match slot 0xF6A0 4 8 off with | some n => r32 (pinValue (aget {} n s.mov.pins)) | none => none

/-! ### FAC (R332) -/

/-- STATE of FAC_STATE. -/
def fStateNo : FState → Nat
  | .off => 0 | .on => 1 | .resetting => 2

/-- Queues, rings and QPs packed as in FAC_ALLOT. -/
def facPack (sq rq evr qp : Nat) : Nat := sq + rq * 2 ^ 9 + evr * 2 ^ 18 + qp * 2 ^ 25

/-- FAC registers of every facet. -/
def facView (s : State) (f off : Nat) : Option RegView :=
  let x := getF s f
  match off with
  | 0x400 => r32 (fStateNo x.st + b2n x.shrink * 4 + b2n x.offAfter * 8 + f * 2 ^ 8)
  | 0x408 => r64 .readOne (facPack x.aSq x.aRq x.aEvr x.aQp)
  | 0x410 => r64 .readOne (facPack (notDisabled x.que.sqs).length (notDisabled x.que.rqs).length
      (activeRings x.que.evrs).length (qpUse s f))
  | 0x418 => r32 x.resets.toNat
  | _ => none

/-- The facets of one word that have a property. -/
def facetBits (s : State) (w : Nat) (p : Facet → Bool) : Nat :=
  ofBits ((List.range 64).filter (fun b => p (getF s (64 * w + b))))

/-- The sum of an allotment over every facet. -/
def sumAll (s : State) (g : Facet → Nat) : Nat := (s.facets.map (fun x => g x.2)).foldl (· + ·) 0

/-- FAC_DEV registers. -/
def facDevView (s : State) (off : Nat) : Option RegView :=
  match off with
  | 0x480 => r64 .readOne (facetBits s 0 (fun x => decide (x.st ≠ .off)))
  | 0x488 => r64 .readOne (facetBits s 1 (fun x => decide (x.st ≠ .off)))
  | 0x490 => r64 .readOne (facetBits s 0 (fun x => x.shrink))
  | 0x498 => r64 .readOne (facetBits s 1 (fun x => x.shrink))
  | 0x4A0 => r64 .readOne ((8192 - sumAll s (fun x => x.aSq)) + (8192 - sumAll s (fun x => x.aRq)) * 2 ^ 14 +
      (1024 - sumAll s (fun x => x.aEvr)) * 2 ^ 28 + (1048576 - sumAll s (fun x => x.aQp)) * 2 ^ 39)
  | 0x4A8 => r32 (s.memc.poolTiles - sumAll s (fun x => x.xlt.tilesAllot.toNat))
  | _ => none

/-! ### CIP and TRUST (R360) -/

/-- A status word: BUSY, REASON and RESULT. -/
def statusWord (busy : Bool) (reason : BitVec 4) (result : U16) : Nat :=
  b2n busy + reason.toNat * 16 + result.toNat * 2 ^ 16

/-- 64-bit word w of a string of bytes. -/
def word (w : Nat) (bs : Bytes) : Nat := ofLE ((bs.drop (8 * w)).take 8)

/-- CIP registers of every facet, on a part that has the engine. -/
def cipView (s : State) (f off : Nat) : Option RegView :=
  let x := (getF s f).cip
  match off with
  | 0xF800 => r32 0
  | 0xF804 => r32 (statusWord (decide (x.keyOp ≠ 0)) x.keyReason x.keyResult)
  | 0xF808 => r32 x.target.toNat
  | 0xF80C => r32 0
  | 0xF810 => r64 .one 0
  | 0xF818 => r64 .one 0
  | 0xF820 => r64 .one 0
  | 0xF828 => r64 .one 0
  | 0xF830 => r64 .one x.info.toNat
  | 0xF840 => r32 0
  | 0xF844 => r32 (statusWord x.cmpBusy x.cmpReason x.cmpResult)
  | 0xF848 => r32 x.cmpSegs.toNat
  | 0xF84C => r32 x.cmpLen.toNat
  | 0xF850 => r64 .one x.cmpSoff.toNat
  | 0xF858 => r64 .one x.cmpDoff.toNat
  | 0xF860 => r64 .one (word 0 (toBE 16 x.iv.toNat))
  | 0xF868 => r64 .one (word 1 (toBE 16 x.iv.toNat))
  | 0xF870 => r64 .one x.outLen.toNat
  | 0xF880 => r32 x.authFail.toNat
  | _ => none

/-- Cores that run a job, or hold a suspended one. -/
def coreBits (s : State) (p : Core → Bool) : Nat := ofBits ((List.range 8).filter (fun c => p (aget {} c s.cip.cores)))

/-- CIP_DEV registers. -/
def cipDevView (s : State) (off : Nat) : Option RegView :=
  match off with
  | 0xF8C4 => r32 (coreBits s (fun c => c.run.isSome) + coreBits s (fun c => c.suspended.isSome) * 2 ^ 8)
  | 0xF8C8 => r32 s.cip.authFail.toNat
  | 0xF8CC => r32 s.cip.suspends.toNat
  | 0xF8D0 => r64 .one s.cip.bytes.toNat
  | _ => none

/-- TRUST registers that every facet reads. -/
def trustView (s : State) (f off : Nat) : Option RegView :=
  let x := (getF s f).att
  match off with
  | 0xF900 => r32 0
  | 0xF904 => r32 (statusWord x.busy x.reason x.result)
  | 0xF908 => r32 x.seg.toNat
  | 0xF910 => r64 .one x.doff.toNat
  | 0xF940 => r32 (b2n s.trust.idOk + b2n s.boot.locked * 2 + b2n s.boot.bankB * 4)
  | 0xF944 => r32 s.trust.boots.toNat
  | _ => (match slot 0xF920 8 4 off with | some w => r64 .one (aget 0 w x.nonce).toNat | none => none).orElse fun _ =>
    match slot 0xFA00 8 64 off with
    | some k => r64 .one (word (k % 8) (toLE 64 (aget 0 (k / 8) s.trust.meas).toNat))
    | none => none

/-- TRUST_DEV registers. -/
def trustDevView (s : State) (off : Nat) : Option RegView :=
  match off with
  | 0xF980 => r32 0
  | 0xF988 => r32 (s.trust.ent.toNat + s.trust.entFails.toNat * 2 ^ 8)
  | _ => match slot 0xF9C0 8 8 off with | some _ => r64 .one 0 | none => none

/-! ### ETH (R377) -/

/-- One counter or the link state of port p. -/
def ethPortView (s : State) (p o : Nat) : Option RegView :=
  let x : EthPort := aget {} p s.eth.ports
  match o with
  | 0x08 => r32 x.up.toNat
  | 0xA0 => r64 .one x.txFrames.toNat
  | 0xA8 => r64 .one x.rxFrames.toNat
  | 0xB0 => r32 x.rxFull.toNat
  | 0xB4 => r32 x.rxDrop.toNat
  | 0xB8 => r32 x.rxBad.toNat
  | 0xBC => r32 x.rxNotMine.toNat
  | 0xC0 => r32 x.rxNoBuf.toNat
  | 0xC4 => r32 x.rxPause.toNat
  | 0xC8 => r32 x.ceMark.toNat
  | 0xCC => r32 x.wakes.toNat
  | 0xD0 => r32 x.txDiscard.toNat
  | _ => none

/-- ETH registers that hold more than a value written. -/
def ethView (s : State) (off : Nat) : Option RegView :=
  if off = 0x508 then r32 (s.eth.rawRq.toNat + b2n s.eth.rawEn * 2 ^ 8)
  else if 0x540 ≤ off ∧ off < 0x740 then ethPortView s ((off - 0x540) / 0x100) ((off - 0x540) % 0x100)
  else none

/-- The part has the unit that an ETH offset belongs to: a port block is its port's. -/
def ethHere (s : State) (off : Nat) : Bool :=
  if 0x540 ≤ off ∧ off < 0x740 then hasEth s ((off - 0x540) / 0x100) else hasEth s 0 || hasEth s 1

/-! ### ERR and AGL (R401), BOOT and LAN (R422), PWR and THM (R442) -/

/-- MODE of ERR_STATUS. -/
def modeNo : Mode → Nat
  | .normal => 0 | .penumbra => 1 | .umbra => 2

/-- ERR_STATUS. -/
def errStatus (s : State) : Nat :=
  modeNo s.err.mode + b2n s.err.self * 4 + b2n s.err.dumpDone * 8 + b2n s.err.hostDone * 16 + b2n s.err.hostFail * 32 +
    s.err.ftSrc.toNat * 2 ^ 8

/-- ERR_DEV_FENCED. -/
def errFenced (s : State) : Nat :=
  s.prism.fenced.toNat + s.err.lan.toNat * 2 ^ 8 + linksIn s .fenced * 2 ^ 16 + s.memc.fenced.getD 0 * 2 ^ 40 +
    b2n s.memc.fenced.isSome * 2 ^ 45

/-- The Afterglow event that AGL_SEL selects, if it is held (R397). -/
def selected (s : State) : Option AglEvent :=
  (s.agl.events.find? (fun e => decide (e.1 = s.agl.sel))).map Prod.snd

/-- ERR registers. -/
def errView (s : State) (off : Nat) : Option RegView :=
  match off with
  | 0xFC00 => r32 (errStatus s)
  | 0xFC04 => r32 s.err.ftSeq.toNat
  | 0xFC08 => r64 .one (errFenced s)
  | 0xFC10 => r64 .one (ofBits (s.err.banks.filter (fun b => decide (b < 64))))
  | 0xFC18 => r64 .one (ofBits ((s.err.banks.filter (fun b => decide (64 ≤ b))).map (fun b => b - 64)))
  | 0xFC30 => r64 .one 0
  | _ => match slot 0xFD00 4 64 off with | some k => r32 (aget 0 k s.err.cnt).toNat | none => none

/-- AGL registers. -/
def aglView (s : State) (off : Nat) : Option RegView :=
  let w := fun (g : AglEvent → U64) => r64 .one (match selected s with | some e => (g e).toNat | none => 0)
  match off with
  | 0xFE00 => r32 s.agl.next.toNat
  | 0xFE04 => r32 s.agl.sel.toNat
  | 0xFE08 => r32 (b2n (selected s).isSome)
  | 0xFE10 => w (fun e => e.w0)
  | 0xFE18 => w (fun e => e.w1)
  | 0xFE20 => w (fun e => e.w2)
  | 0xFE28 => w (fun e => e.w3)
  | 0xFE30 => r32 s.agl.suppressed.toNat
  | _ => none

/-- STAGE of BOOT_DEV_STATUS. -/
def stageNo (s : State) : Nat :=
  match s.boot.run with
  | .running => 10
  | .hold => 15
  | _ => s.boot.stage

/-- LAST_RESET of BOOT_DEV_STATUS. -/
def resetNo : ResetKind → Nat
  | .cold => 0 | .warm => 1 | .umbra => 2

/-- BOOT_DEV_STATUS. -/
def bootStatus (s : State) : Nat :=
  let b := s.boot
  stageNo s + resetNo b.last * 16 + b2n b.bankB * 64 + b2n b.fallback * 128 + b.failA * 2 ^ 8 + b.failB * 2 ^ 12 +
    b.holdWhy * 2 ^ 16

/-- Firmware has started on the firmware cores: boot stage 3 is over (R410). -/
def firmwareRuns (s : State) : Bool := decide (s.boot.run = .running) || decide (s.boot.run = .boot ∧ 4 ≤ s.boot.stage)

/-- Cores that run firmware or an agent: unfenced firmware cores, and those an agent is on (R388). -/
def runningCores (s : State) : Nat := ofBits ((List.range 8).filter (fun c =>
  !coreFenced s c && ((decide (c < 2) && firmwareRuns s) || s.boot.agents.any (fun a => decide (a.2.st = 1 ∧ a.2.core = c)))))

/-- BOOT and LAN registers. -/
def bootView (s : State) (off : Nat) : Option RegView :=
  let b := s.boot
  match off with
  | 0xFF00 => r32 (bootStatus s)
  | 0xFF08 => r64 .readOne (b.runGen.toNat + b.otherGen.toNat * 2 ^ 32)
  | 0xFF10 => r64 .readOne b.time.toNat
  | 0xFF80 => r32 (runningCores s + s.err.lan.toNat * 2 ^ 8)
  | 0xFFC0 => r32 0
  | _ => match slot 0xFF88 8 6 off with
    | some a => let x := getAgent s a; r64 .readOne (x.st.toNat + x.core * 8 + x.restarts.toNat * 2 ^ 32)
    | none => none

/-- STATE of PWR_DEV_STATUS; the states of Glimmer are never read. -/
def pStateNo : PState → Nat
  | .active => 0 | .restEntry => 1 | .rest => 2 | .glimmerEntry => 2 | .glimmer => 2

/-- PWR and THM registers. -/
def pwrView (s : State) (off : Nat) : Option RegView :=
  let p := s.pwr
  let t := s.thm
  match off with
  | 0x110 => r32 (b2n p.holdActive)
  | 0x114 => r32 (pStateNo p.st + p.railPg.toNat * 4)
  | 0x118 => r32 p.wake.toNat
  | 0x120 => r32 (p.vcore.toNat + p.vsram.toNat * 2 ^ 16)
  | 0x128 => r32 p.rests.toNat
  | 0x12C => r32 p.aborts.toNat
  | 0x130 => r32 p.glimmers.toNat
  | 0x260 => r32 (b2n t.levelLow + t.tachSlow.toNat * 2 + t.diodeBad.toNat * 2 ^ 5 + b2n t.hot * 2 ^ 11 +
      b2n t.forced * 2 ^ 12)
  | 0x284 => r32 t.u.toNat
  | _ => (match slot 0x268 4 7 off with | some d => r32 (t.temps.getD d 0).toNat | none => none).orElse fun _ =>
    match slot 0x288 4 4 off with
    | some k => r32 ((t.rpms.getD k 0).toNat + t.duties.getD k 100 * 2 ^ 16)
    | none => none

/-! ### The page of a facet -/

/-- A register that holds what was last written (RW and RWL fields only). -/
def fileView (s : State) (off : Nat) : Option RegView :=
  match regAt off with
  | some r => some { val := reg s off, wide := r.wide, acc := r.acc }
  | none => none

/-- Registers that every facet's page has. -/
def facetView (s : State) (f off : Nat) : Option RegView :=
  if off < 0x40 then capView s off
  else if 0x400 ≤ off ∧ off < 0x480 then facView s f off
  else if 0x1000 ≤ off ∧ off < 0xB000 then queView s f off
  else if 0xB000 ≤ off ∧ off < 0xB100 then zrtView s f off
  else if 0xC000 ≤ off ∧ off < 0xD080 then rateView s f off
  else if 0xF000 ≤ off ∧ off < 0xF100 then xltView s f off
  else if 0xF400 ≤ off ∧ off < 0xF680 then pcxView s f off
  else if 0xF800 ≤ off ∧ off < 0xF8C0 then (if hasCip s then cipView s f off else none)
  else if 0xF900 ≤ off ∧ off < 0xFC00 then trustView s f off
  else none

/-- Registers with behaviour of their own that only the management facet's page has. -/
def devView (s : State) (off : Nat) : Option RegView :=
  if off < 0x400 then pwrView s off
  else if off < 0x500 then facDevView s off
  else if off < 0x1000 then (if ethHere s off then ethView s off else none)
  else if off < 0xD100 then grpView s off
  else if off < 0xE000 then prismView s off
  else if off < 0xF000 then svlView s off
  else if off < 0xF400 then xltDevView s off
  else if off < 0xF800 then pcxDevView s off
  else if off < 0xF900 then (if hasCip s then cipDevView s off else none)
  else if off < 0xFC00 then trustDevView s off
  else if off < 0xFE00 then errView s off
  else if off < 0xFF00 then aglView s off
  else bootView s off

/-- The unit of a register of the register file is there (R2). -/
def fileHere (s : State) (off : Nat) : Bool :=
  if 0x500 ≤ off ∧ off < 0x1000 then ethHere s off
  else if 0xE400 ≤ off ∧ off < 0xEA00 then hasLink s ((off - 0xE400) / 0x40)
  else if 0xF800 ≤ off ∧ off < 0xF900 then hasCip s
  else true

/-- The register that starts at an offset of facet f's page, if there is one. -/
def view (s : State) (f off : Nat) : Option RegView :=
  (facetView s f off).orElse fun _ =>
    if f = 0 then (if fileHere s off then fileView s off else none).orElse fun _ => devView s off else none

/-- What a page shows now: in Umbra ERR_STATUS alone (R393); in boot hold the CAP registers and BOOT_DEV_STATUS of
facet 0 (R411); of an OFF facet the CAP registers (R320); nothing before the upstream port is configured (R411). -/
def shown (s : State) (f off : Nat) : Bool :=
  if s.err.mode = .umbra then decide (f = 0 ∧ off = 0xFC00)
  else if s.boot.run = .hold then decide (f = 0 ∧ (off < 0x40 ∨ off = 0xFF00))
  else if !running s then false
  else decide (off < 0x40 ∨ (getF s f).st ≠ .off)

/-- A 32-bit read: a register, or a half of one that may be read in halves; anything else reads zero. -/
def read32 (s : State) (f off : Nat) : Nat :=
  if !shown s f off then 0
  else match view s f off with
    | some r => if r.wide then (if r.acc = .halves then r.val.toNat % 2 ^ 32 else 0) else r.val.toNat
    | none => match view s f (off - 4) with
      | some r => if r.wide ∧ r.acc = .halves ∧ off % 8 = 4 then r.val.toNat / 2 ^ 32 else 0
      | none => 0

/-- A read of `width` bytes at an offset of SQ q's push page: zero anywhere (R50). -/
def readPushPage (_s : State) (_f _q _off _width : Nat) : U64 := 0

/-- A read of `width` bytes at an offset of facet f's page (R19, R330). -/
def readReg (s : State) (f off width : Nat) : U64 :=
  if width = 4 ∧ off % 4 = 0 then BitVec.ofNat 64 (read32 s f off)
  else if width = 8 ∧ off % 8 = 0 then
    match view s f off with
    | some r => if shown s f off then (if r.wide then r.val else BitVec.ofNat 64 (read32 s f off + read32 s f (off + 4) * 2 ^ 32))
      else 0
    | none => BitVec.ofNat 64 (read32 s f off + read32 s f (off + 4) * 2 ^ 32)
  else 0

end Sys2Proof.Machine
end

