-- ==== Sys2Proof/Machine/Regs.lean ====
section
/-!
DEFINITION. Writes of registers (R2, R18, R19, R81, R320, R330): how an access reaches registers, and what a write of
each register does. A write of a command register runs the same operation as the register's own command.
-/
namespace Sys2Proof.Machine

/-! ### The register file -/

/-- A register of the file is written: RWL fields only before the boot lock. -/
def fileWrite (off : Nat) (v : U64) (s : State) : State :=
  match regAt off with
  | none => s
  | some r => if r.rwl && s.boot.locked then s
    else { s with regs := aset off (v &&& BitVec.ofNat 64 r.mask) s.regs }

/-! ### Registers of every facet -/

/-- The writable bits of QUE_SQ_CFG, QUE_RQ_CFG and QUE_EVR_CFG (R82). -/
def sqCfgMask : U64 := 0x03FDFFFF01FFFFFF
def rqCfgMask : U64 := 0x03FDFFFF0000FFFF
def evrCfgMask : U64 := 0x7FF1FFFFFF07FFFF

/-- OP of a CTRL register acts on a queue. -/
def queueCtrl (f : Nat) (rq : Bool) (q : Nat) (v : U64) (s : State) : State :=
  match fld v 2 0 with
  | 1 => settle f (createQueue f rq q s)
  | 2 => destroyQueue f rq q s
  | 3 => settle f (modQ f rq q (fun x => if x.st = .error then { x with st := .restarting } else x) s)
  | _ => s

/-- A write in the block of an SQ or RQ (R81, R82). -/
def queueWrite (f : Nat) (rq : Bool) (q o : Nat) (v : U64) (s : State) : State :=
  let cfg := fun (g : Queue → Queue) => modQ f rq q (fun x => if x.st = .disabled then g x else x) s
  match o with
  | 0x00 => cfg (fun x => { x with ringOff := v &&& 0xFFFFFFFFFFFFFFC0 })
  | 0x08 => cfg (fun x => { x with progOff := v &&& 0xFFFFFFFFFFFFFFF8 })
  | 0x10 => cfg (fun x => { x with cfg := v &&& (if rq then rqCfgMask else sqCfgMask) })
  | 0x18 => cfg (fun x => { x with start := v.setWidth 32 })
  | 0x1C => queueCtrl f rq q v s
  | 0x34 => if rq then doorbell f true q (v.setWidth 32) s else s
  | _ => s

/-- A write in the block of an event ring (R78, R81). -/
def ringWrite (f e o : Nat) (v : U64) (s : State) : State :=
  let cfg := fun (g : EvRing → EvRing) => modE f e (fun x => if x.active then x else g x) s
  match o with
  | 0x00 => cfg (fun x => { x with ringOff := v &&& 0xFFFFFFFFFFFFFFC0 })
  | 0x08 => cfg (fun x => { x with cfg := v &&& evrCfgMask })
  | 0x10 => writeCons f e (v.setWidth 32) false s
  | 0x14 => writeCons f e (v.setWidth 32) true s
  | 0x1C => cfg (fun x => { x with start := v.setWidth 32 })
  | 0x20 => match fld v 2 0 with
    | 1 => createRing f e s
    | 2 => shrinkEval f (destroyRing f e s)
    | _ => s
  | _ => s

/-- A write of a QUE register (R82). -/
def queWrite (f off : Nat) (v : U64) (s : State) : State :=
  if off < 0x5000 then queueWrite f false ((off - 0x1000) / 0x40) (off % 0x40) v s
  else if off < 0x9000 then queueWrite f true ((off - 0x5000) / 0x40) (off % 0x40) v s
  else if off < 0xA000 then ringWrite f ((off - 0x9000) / 0x40) (off % 0x40) v s
  else if off = 0xA00C then modF f (fun x => { x with que := { x.que with pubHold := v.setWidth 8 } }) s
  else s

/-- A write of a ZRT register (R126). -/
def zrtWrite (f off : Nat) (v : U64) (s : State) : State :=
  let free := fun (g : FacetZrt → FacetZrt) => modF f (fun x => if x.zrt.busy then x else { x with zrt := g x.zrt }) s
  match off with
  | 0xB000 => match fld v 2 0 with
    | 1 => qpCommand f false (fun _ => createQp f) s
    | 2 => qpCommand f false (connectQp f) s
    | 3 => qpCommand f true (destroyQp f) s
    | 4 => qpCommand f true (queryQp f) s
    | _ => s
  | 0xB008 => modF f (fun x => { x with zrt := { x.zrt with qpn := v.setWidth 20 } }) s
  | 0xB010 => free (fun z => { z with peer := v &&& 0x000FFFFF07FFFFFF })
  | 0xB018 => free (fun z => { z with attr := v &&& 0x001FFFFFFFFF1FFF })
  | 0xB020 => free (fun z => { z with segs := v })
  | _ => s

/-- A write of an XLT_SEG register (R288). -/
def xltWrite (f off : Nat) (v : U64) (s : State) : State :=
  let set := fun (g : FacetXlt → FacetXlt) => modF f (fun x => { x with xlt := g x.xlt }) s
  if (getF s f).xlt.busy ≠ 0 then s
  else match off with
  | 0xF000 => match fld v 1 0 with
    | 1 => segWrite f s
    | 2 => segInvalidate f s
    | 3 => segRead f s
    | _ => s
  | 0xF008 => set (fun x => { x with num := v.setWidth 8 })
  | 0xF00C => set (fun x => { x with attr := (x.attr &&& 0x300) ||| BitVec.ofNat 10 (fld v 7 0) })
  | 0xF010 => set (fun x => { x with key := v.setWidth 32 })
  | 0xF018 => set (fun x => { x with base := v &&& 0xFFFFFFFFFFFFF000 })
  | 0xF020 => set (fun x => { x with limit := v.setWidth 44 })
  | _ => s

/-- A write of a MOV_FAC register (R317). -/
def movWrite (f off : Nat) (v : U64) (s : State) : State :=
  match off with
  | 0xF600 => if bit v 0 then serveReq f 9 (modSrc f 9 (addReq s.now) s) else s
  | 0xF604 => writePend f (v.setWidth 32) s
  | _ => s

/-- IV word w replaced, byte 0 of the IV the highest of the block. -/
def ivWrite (w : Nat) (v : U64) (iv : BitVec 128) : BitVec 128 :=
  let bs := toBE 16 iv.toNat
  let n := toLE 8 v.toNat
  BitVec.ofNat 128 (ofBE (if w = 0 then n ++ bs.drop 8 else bs.take 8 ++ n))

/-- A write of a CIP register (R337, R349, R360). -/
def cipWrite (f off : Nat) (v : U64) (s : State) : State :=
  let key := fun (g : FacetCip → FacetCip) => modF f (fun x => if x.cip.keyOp ≠ 0 then x else { x with cip := g x.cip }) s
  let cmp := fun (g : FacetCip → FacetCip) => modF f (fun x => if x.cip.cmpBusy then x else { x with cip := g x.cip }) s
  match off with
  | 0xF800 => if 1 ≤ fld v 2 0 ∧ fld v 2 0 ≤ 4 then keyCommand f (fld v 2 0) s else s
  | 0xF808 => key (fun x => { x with target := v.setWidth 32 &&& 0x07FFFFFF })
  | 0xF80C => key (fun x => { x with salt := v.setWidth 32 })
  | 0xF840 => if fld v 1 0 = 0 then s else cmpStart f (fld v 1 0) (v.setWidth 32) s
  | 0xF848 => cmp (fun x => { x with cmpSegs := v.setWidth 32 &&& 0xFFFF })
  | 0xF84C => cmp (fun x => { x with cmpLen := v.setWidth 32 })
  | 0xF850 => cmp (fun x => { x with cmpSoff := v })
  | 0xF858 => cmp (fun x => { x with cmpDoff := v })
  | 0xF860 => cmp (fun x => { x with iv := ivWrite 0 v x.iv })
  | 0xF868 => cmp (fun x => { x with iv := ivWrite 1 v x.iv })
  | _ => match slot 0xF810 8 4 off with
    | some w => key (fun x => { x with data := aset w v x.data })
    | none => s

/-- A write of a TRUST_ATT register (R359, R360). -/
def attWrite (f off : Nat) (v : U64) (s : State) : State :=
  let set := fun (g : FacetAtt → FacetAtt) => modF f (fun x => if x.att.busy then x else { x with att := g x.att }) s
  match off with
  | 0xF900 => match fld v 1 0 with
    | 1 => attRequest f false s
    | 2 => attRequest f true s
    | _ => s
  | 0xF908 => set (fun x => { x with seg := v.setWidth 8 })
  | 0xF910 => set (fun x => { x with doff := v &&& 0xFFFFFFFFFFFFFFF8 })
  | _ => match slot 0xF920 8 4 off with
    | some w => set (fun x => { x with nonce := aset w v x.nonce })
    | none => s

/-- A write of a register that every facet's page has. -/
def facetWrite (f off : Nat) (v : U64) (s : State) : State :=
  if 0x1000 ≤ off ∧ off < 0xB000 then queWrite f off v s
  else if off < 0xB100 then zrtWrite f off v s
  else if off < 0xF100 then xltWrite f off v s
  else if off < 0xF680 then movWrite f off v s
  else if off < 0xF8C0 then cipWrite f off v s
  else attWrite f off v s

/-! ### Registers of the management facet -/

/-- A write of PWR_DEV_CTRL: setting HOLD_ACTIVE is a Rest wake (R426). -/
def writeHold (v : U32) (s : State) : State :=
  let s' := { s with pwr := { s.pwr with holdActive := bit v 0 } }
  if bit v 0 ∧ ¬ s.pwr.holdActive then restWake s'
  else if ¬ bit v 0 ∧ s.pwr.holdActive then noteBusy s'
  else s'

/-- A write of MOV_DEV_PIN[n] (R317): OVERRUN is cleared by writing 1. -/
def writePin (n : Nat) (v : U64) (s : State) : State :=
  { s with mov := { s.mov with pins := amod {} n (fun p => { p with
      facet := BitVec.ofNat 7 (fld v 6 0), en := bit v 7, falling := bit v 8
      req := if bit v 9 then clearOver s.now p.req else p.req }) s.mov.pins } }

/-- A write of ETH_DEV_RAW: RQ is ignored while EN is 1 (R372). -/
def writeRaw (v : U64) (s : State) : State :=
  { s with eth := { s.eth with rawRq := if s.eth.rawEn then s.eth.rawRq else v.setWidth 8, rawEn := bit v 8 } }

/-- A 1 is written to PRISM_DEV_LOG.VALID: it clears, unless this very cycle set it (R20, R209). -/
def clearLog (s : State) : State :=
  if s.prism.logAt = some s.now then s
  else { s with prism := { s.prism with log := s.prism.log &&& ~~~(0x800 : U64) } }

/-- A 1 is written to MOV_DEV_ERRINFO.VALID: it clears, unless this very cycle set it (R20, R317). -/
def clearErr (s : State) : State :=
  { s with mov := { s.mov with errValid := s.mov.errValid && decide (s.mov.errAt = some s.now) } }

/-- A write of a register with behaviour of its own in the management facet's page. -/
def devWrite (off : Nat) (v : U64) (s : State) : State :=
  match off with
  | 0x110 => writeHold (v.setWidth 32) s
  | 0x508 => writeRaw v s
  | 0xD430 => when (bit v 11) clearLog s
  | 0xF200 => writeFltCfg v s
  | 0xF208 => if fltEn s then s else { s with xlt := { s.xlt with fltOff := v &&& 0xFFFFFFFFFFFFF000 } }
  | 0xF214 => writeFltCons (v.setWidth 32) s
  | 0xF218 => writeFltArm (v.setWidth 32) s
  | 0xF21C => resumeFault (v.setWidth 32) s
  | 0xF688 => match fld v 1 0 with
    | 1 => resumeMover s
    | 2 => abortMover s
    | _ => s
  | 0xF698 => when (bit v 7) clearErr s
  | 0xF980 => if 4 ≤ fld v 2 0 then extendM (fld v 2 0) (extDigest s) s else s
  | 0xFC30 => writeForce v s
  | 0xFE04 => writeAglSel (v.setWidth 32) s
  | _ => match slot 0xF6A0 4 8 off, slot 0xF9C0 8 8 off, slot 0xE400 0x40 24 off with
    | some n, _, _ => writePin n v s
    | _, some w, _ => { s with trust := { s.trust with extData := aset w v s.trust.extData } }
    | _, _, some n => if fld v 1 0 = 1 then resendLost (linkDown n s) else s
    | _, _, _ => s

/-! ### Accesses -/

/-- A register is written whole, through facet f's page. -/
def writeWhole (f off : Nat) (v : U64) (s : State) : State :=
  if (facetView s f off).isSome then facetWrite f off v s
  else if f = 0 then (if (regAt off).isSome then fileWrite off v s else devWrite off v s) else s

/-- A register's page takes a write of it: the facet is ON; it is RESETTING and R320 excepts the write; or the register
is the management facet's and keeps working (R319). A CREATE of a queue that lies beyond the allotment reaches its CTRL
register all the same and fails there (R322). -/
def takes (s : State) (f off : Nat) (v : U64) : Bool :=
  match (getF s f).st with
  | .off => false
  | .on => true
  | .resetting => decide (off = 0xB008) || (decide (off = 0xB000) && decide (fld v 2 0 = 3 ∨ fld v 2 0 = 4)) ||
      (decide (f = 0) && (facetView s f off).isNone)

/-- The CTRL register of a queue or ring, in any facet's QUE area. -/
def isCtrl (off : Nat) : Bool :=
  decide (0x1000 ≤ off ∧ off < 0x9000 ∧ off % 0x40 = 0x1C) || decide (0x9000 ≤ off ∧ off < 0xA000 ∧ off % 0x40 = 0x20)

/-- One 32-bit write: a register, or a half of a 64-bit one that may be written in halves. The other half of an RW
register keeps its value; a write of one half clears no bit of the other. -/
def write32 (f off : Nat) (v : U64) (s : State) : State :=
  let v := v &&& 0xFFFFFFFF
  match view s f off, view s f (off - 4) with
  | some r, _ =>
    if !r.wide then when (takes s f off v) (writeWhole f off v) s
    else if r.acc = .one then s
    else when (takes s f off v) (writeWhole f off ((if off = 0xD430 then 0 else r.val &&& 0xFFFFFFFF00000000) ||| v)) s
  | none, some r =>
    if r.wide ∧ r.acc ≠ .one ∧ off % 8 = 4 then
      when (takes s f (off - 4) v) (writeWhole f (off - 4)
        ((if off = 0xD434 then 0 else r.val &&& 0xFFFFFFFF) ||| (v <<< 32))) s
    else s
  | none, none => if isCtrl off then when (takes s f off v) (queWrite f off v) s else s

/-- A write of `width` bytes (R19): a 64-bit access where no 64-bit register lies is two 32-bit ones, the lower first. -/
def writeReg (f off width : Nat) (v : U64) (s : State) : State :=
  if width = 4 ∧ off % 4 = 0 then write32 f off v s
  else if width = 8 ∧ off % 8 = 0 then
    match view s f off with
    | some r => if r.wide then when (takes s f off v) (writeWhole f off v) s
      else write32 f (off + 4) (v >>> 32) (write32 f off v s)
    | none => write32 f (off + 4) (v >>> 32) (write32 f off v s)
  else s

/-- REGISTER_WRITE (R18). -/
def execRegisterWrite (page : PageAccess) (off width : Nat) (value : U64) (s : State) :
    Host.Outcome State Fault Refusal :=
  live (fun s => match pageReach s page.src page.f off with
    | some (f, off) => writeReg f off width value s
    | none => s) s

/-- HOLD_ACTIVE_WRITE (R426). -/
def execHoldActiveWrite (f : Nat) (v : U32) (s : State) : Host.Outcome State Fault Refusal :=
  live (mgmtWrite f (writeHold v)) s

end Sys2Proof.Machine
end

