-- ==== Sys2Proof/Machine/Dump.lean ====
section
/-!
DEFINITION. The dump that Umbra writes to local memory, and its copy to the host (14_faults_and_afterglow.md, R37,
R394, R398 to R400).
-/
namespace Sys2Proof.Machine

/-- A section of the dump: its offset, its size and its contents as pieces in rising order; bytes of no piece are
zero. -/
structure Section where
  off : Nat
  size : Nat
  pieces : List (Nat × Bytes)
deriving DecidableEq, Repr, Inhabited

/-- A value as 8 bytes. -/
def b8 (v : Nat) : Bytes := toLE 8 v

/-- The offsets of the collector section's registers, in register-offset order. -/
def dumpRegs : List Nat :=
  [0x0, 0x8, 0xD408] ++ (List.range 24).map (fun n => 0xE404 + 0x40 * n) ++ [0xF128, 0xF130] ++
  [0xFC00, 0xFC04, 0xFC08, 0xFC10, 0xFC18, 0xFC20, 0xFC24, 0xFC28, 0xFC30, 0xFC38, 0xFC40] ++
  (List.range 64).map (fun k => 0xFD00 + 4 * k)

/-- Section 1. -/
def collectorSection (s : State) : Section :=
  { off := 0x1000, size := 0xF000
    pieces := [(0, dumpRegs.flatMap (fun o => match view s 0 o with | some r => b8 r.val.toNat | none => b8 0))] }

/-- Section 2. -/
def afterglowSection (s : State) : Section :=
  { off := 0x10000, size := 0x40000
    pieces := [(0, s.agl.events.flatMap (fun e => wordBytes [e.2.w0, e.2.w1, e.2.w2, e.2.w3]))] }

/-- Section 3. -/
def lanternSection (s : State) : Section :=
  { off := 0x50000, size := 0x100000
    pieces := (List.range 8).map (fun c => (0x20000 * c, (Config.coreDump s.free c).take 0x20000)) }

/-- The group record of a dump: word 7 holds the CSN of the running collective and its commit index. -/
def dumpGroup (g : Group) : Bytes :=
  wordBytes ((groupRecord g).take 7 ++ [match g.run with
    | some r => BitVec.ofNat 64 (r.csn.toNat + r.commit * 2 ^ 32)
    | none => 0])

/-- Section 4. -/
def groupSection (s : State) : Section :=
  { off := 0x150000, size := 0x40000, pieces := s.groups.map (fun g => (64 * g.1, dumpGroup g.2)) }

/-- The queues of a kind that are not DISABLED, by facet and number. -/
def dumpQueues (s : State) (rq : Bool) : List (Nat × Nat × Queue) :=
  s.facets.flatMap (fun x => ((if rq then x.2.que.rqs else x.2.que.sqs).filter (fun q => q.2.st ≠ .disabled)).map
    (fun q => (x.1, q.1, q.2)))

/-- A queue record; `first`: the position of its first descriptor. -/
def queueRecord (f q : Nat) (rq : Bool) (x : Queue) (first : Nat) : Bytes :=
  b8 (f + b2n rq * 2 ^ 7 + q * 2 ^ 8 + qStateNo x.st * 2 ^ 16) ++ b8 (x.acc.toNat + x.head.toNat * 2 ^ 32) ++
  b8 (first + (x.acc - x.head).toNat * 2 ^ 32) ++ b8 0

/-- Queue records in order, from a first position. -/
def queueRecords (rq : Bool) : Nat → List (Nat × Nat × Queue) → Bytes
  | _, [] => []
  | k, (f, q, x) :: r => queueRecord f q rq x k ++ queueRecords rq (k + (x.acc - x.head).toNat) r

/-- The descriptors of a list of queues. -/
def queueDescs (l : List (Nat × Nat × Queue)) : List Desc := l.flatMap (fun x => x.2.2.items.map (fun i => i.desc))

/-- Section 5. -/
def queueSection (s : State) : Section :=
  let sq := dumpQueues s false
  { off := 0x190000, size := 0x80000
    pieces := [(0, queueRecords false 0 sq ++ queueRecords true (queueDescs sq).length (dumpQueues s true))] }

/-- A QP record. -/
def qpRecord (q : Qp) : Bytes :=
  b8 (qpStateNo q.st + q.holdWhy.toNat * 8 + q.facet * 2 ^ 6) ++ b8 (q.req.ack.toNat + q.req.next.toNat * 2 ^ 32)

/-- Section 6; a free QPN has a record of zeros. -/
def qpSection (s : State) : Section :=
  { off := 0x210000, size := 0x1000000
    pieces := (s.qps.filter (fun q => q.2.st ≠ .free)).map (fun q => (16 * q.1, qpRecord q.2)) }

/-- Every descriptor that the dump lists (R37, R399). -/
def dumpDescs (s : State) : List Desc := queueDescs (dumpQueues s false) ++ queueDescs (dumpQueues s true)

/-- Section 7. -/
def descSection (s : State) : Section :=
  { off := 0x1210000, size := 0x2000000, pieces := [(0, (dumpDescs s).flatMap descBytes)] }

/-! ### The header -/

/-- `n` zero bytes through the CRC. -/
def crcZeros (n c : Nat) : Nat := Nat.repeat (fun c => crcByte c 0) n c

/-- The CRC register after a section's bytes. -/
def crcPieces (size : Nat) : Nat → Nat → List (Nat × Bytes) → Nat
  | k, c, [] => crcZeros (size - k) c
  | k, c, (o, bs) :: r => crcPieces size (o + bs.length) (bs.foldl crcByte (crcZeros (o - k) c)) r

/-- CRC-32C of a section (SECCRC). -/
def sectionCrc (x : Section) : Nat := crcPieces x.size 0 0xFFFFFFFF x.pieces ^^^ 0xFFFFFFFF

/-- The sections written: `full`, all seven; otherwise the first two (R394). -/
def dumpSections (full : Bool) (s : State) : List Section :=
  [collectorSection s, afterglowSection s] ++
  (if full then [lanternSection s, groupSection s, queueSection s, qpSection s, descSection s] else [])

/-- The header of the dump. -/
def dumpHeader (full : Bool) (s : State) : Bytes :=
  let n := fun (k : Nat) => toLE 4 (if full then k else 0)
  toLE 4 0x44554D50 ++ toLE 2 1 ++ toLE 1 (b2n full + b2n (!full) * 2 + b2n s.err.self * 4) ++ toLE 1 s.err.ftSrc.toNat ++
  toLE 4 s.err.ftSeq.toNat ++ toLE 4 s.trust.boots.toNat ++ b8 s.err.ftTime.toNat ++ b8 (capUnits s.part).toNat ++
  toLE 2 (partId s.part) ++ [Config.stepping] ++ toLE 1 (b2n s.boot.bankB) ++ n (dumpDescs s).length ++
  n (dumpQueues s false).length ++ n (dumpQueues s true).length ++ List.replicate 16 0 ++
  (dumpSections full s).flatMap (fun x => b8 (sectionCrc x))

/-- Memory with `n` bytes from `a` on cleared. -/
def memClear (a n : Nat) (m : List Host.Cell) : List Host.Cell := m.filter (fun c => !(decide (a ≤ c.1) && decide (c.1 < a + n)))

/-- A section is written to the dump region. -/
def writeSection (base : Nat) (m : List Host.Cell) (x : Section) : List Host.Cell :=
  x.pieces.foldl (fun m p => memWrite (base + x.off + p.1) p.2 m) (memClear (base + x.off) x.size m)

/-- The dump is written by a firmware core whole, or by the dump sequencer in part (R394, R395). -/
def dumpByFirmware (s : State) : Bool := !s.err.self && !(coreFenced s 0 && coreFenced s 1)

/-- The dump region after the dump (R398); what lies beyond the last section is zero in a whole dump. -/
def dumpMem (s : State) : List Host.Cell :=
  let base := s.memc.regions.getD 3 0
  let full := dumpByFirmware s
  let m := if full then memClear base 0x4000000 s.mem else s.mem
  let m := (dumpSections full s).foldl (writeSection base) m
  memWrite base (dumpHeader full s) (memClear base 0x1000 m)

/-! ### The host copy (R400) -/

/-- Bytes copied to the host. -/
def hostCopyLen : Nat := 0x3210000

/-- The copy may be made: the segment passes R400's checks, and its port is up. -/
def hostCopyOk (s : State) : Bool :=
  let seg := regf s 0xFC38 7 0
  let off := reg s 0xFC40
  pinCheck s 0 seg off hostCopyLen [.lwr] && (decide (pinKey s 0 seg off = lpddr) || (getP s (pinKey s 0 seg off)).up)

/-- The dump is complete: its INFO event, and the host copy begins or is refused (R398, R400). -/
def dumpWritten (s : State) : State :=
  if s.err.mode ≠ .umbra ∨ s.err.dumpDone ∨ s.memc.regions = [] then s
  else
    let m := dumpMem s
    let full := dumpByFirmware s
    let s := clearPoison (s.memc.regions.getD 3 0) (if full then 0x4000000 else 0x50000) { s with mem := m, free := s.free + 1 }
    let s := infoEvent 6 0 0 0 { s with err := { s.err with dumpDone := true } }
    if bit (reg s 0xFC38) 8 then
      { s with err := { s.err with copying := hostCopyOk s, hostFail := !hostCopyOk s } }
    else s

/-- The copy of the dump ends (R400). -/
def hostCopyDone (ok : Bool) (s : State) : State :=
  if s.err.mode ≠ .umbra ∨ ¬ s.err.copying then s
  else
    let s := { s with err := { s.err with copying := false } }
    if ok && hostCopyOk s then
      let (t, a) := pinPlace s 0 (regf s 0xFC38 7 0) (reg s 0xFC40)
      let bs := memRead s.mem (s.memc.regions.getD 3 0) hostCopyLen
      let s := if t = 5 then memStore a.toNat bs s
        else emit (.pwrite { target := t, halfB := toHalfB s t a, facet := 0, addr := a, bytes := bs }) s
      infoEvent 7 0 0 0 { s with err := { s.err with hostDone := true } }
    else { s with err := { s.err with hostFail := true } }

/-- DUMP_WRITTEN (R398). -/
def execDumpWritten (s : State) : Host.Outcome State Fault Refusal := .next (when (!s.cip.scan) dumpWritten s)

/-- HOST_COPY_DONE (R400). -/
def execHostCopyDone (ok : Bool) (s : State) : Host.Outcome State Fault Refusal := .next (when (!s.cip.scan) (hostCopyDone ok) s)

end Sys2Proof.Machine
end

