-- ==== Sys2Proof/Machine/Loss.lean ====
section
/-!
DEFINITION. What each reset keeps and loses (15_boot_and_configuration_image.md, R402 to R405), and a warm reset's restore
from Mirror (R30, R122, R452, R453, R455).
-/
namespace Sys2Proof.Machine

/-! ### Cold and Umbra resets (R403) -/

/-- Pins: the four downstream PERST outputs at a level. -/
def perstPins (high : Bool) (s : State) : State :=
  emits [.pin "PERST_DN0_N" high, .pin "PERST_DN1_N" high, .pin "PERST_DN2_N" high, .pin "PERST_DN3_N" high] s

/-- Every adapter reset begins: NVM_FREE falls (R446); a cold or Umbra reset asserts the downstream PERST outputs. -/
def resetPins (perst : Bool) (s : State) : State :=
  let s := if s.boot.nvmFree then emit (.pin "NVM_FREE" false) s else s
  if perst ∧ ¬ s.boot.perst then perstPins false s else s

/-- What a cold reset leaves: everything at its reset value, the rails as they are. -/
def coldLoss (s : State) : State :=
  let s := resetPins true s
  { State.reset with
    pending := s.pending, part := s.part, free := s.free, out := s.out
    pwr := { railPg := s.pwr.railPg, railOn := s.pwr.railOn, railAt := s.pwr.railAt }
    boot := { adpLow := s.boot.adpLow } }

/-- The local memory that an Umbra reset keeps: the dump region. -/
def dumpOnly (s : State) : List Host.Cell :=
  let b := s.memc.regions.getD 3 0
  if s.memc.regions = [] then [] else s.mem.filter (fun c => decide (b ≤ c.1) && decide (c.1 < b + 0x4000000))

/-- What an Umbra reset leaves: as a cold reset, but the dump region, Afterglow, AGL_NEXT and the local counter stay
(R394, R403). -/
def umbraLoss (s : State) : State :=
  let c := coldLoss s
  { c with
    now := s.now, wheel := s.now.toNat / 16, mem := dumpOnly s, agl := { next := s.agl.next, events := s.agl.events }
    boot := { c.boot with kind := .umbra, last := .umbra } }

/-! ### Warm reset (R403, R452, R453) -/

/-- Held upstream or downstream work that outlives a warm reset: event entries and writes that nothing replays. Records
are published again, and everything else is placed again by what it serves (R453). -/
def keptHeld (h : Held) : Bool :=
  match h with
  | .place (.event _ _) _ => true
  | .place .other _ => true
  | _ => false

/-- The unconfirmed writes of a port that outlive a warm reset, as held work. -/
def keptUnconf (l : List Unconf) : List Held := (l.map (fun u => Held.place u.what u.write)).filter keptHeld

/-- A port after a warm reset: down, its epoch kept (R303, R412). -/
def warmPort (k : Nat) (p : Port) : Port :=
  { epoch := p.epoch, held := if k = 0 ∨ k = lpddr then [] else keptUnconf p.unconf ++ p.held.filter keptHeld }

/-- A queue after a warm reset: its registers and accepted descriptors (R452, R453); what was not accepted is forgotten
(R35, R71). A published index never moves back (R36); its record is written again at stage 7 (`restoreQueue`), and until
then it is not known to be visible. -/
def warmQueue (x : Queue) : Queue :=
  { x with pDev := x.acc, next := x.acc, staged := [], taken := [], fetch := none, rr := none, dirtyAt := none
           recFlight := decide (x.st ≠ .disabled) }

/-- The writes of facet f that the upstream port had not confirmed and that outlive a warm reset. -/
def upstreamHeld (s : State) (f : Nat) : List Held :=
  keptUnconf ((getP s 0).unconf.filter (fun u => decide (u.write.facet = f)))

/-- A facet after a warm reset: its holdings (R452), its compatibility slots (R342) and its PENDING counter (R311). -/
def warmFacet (s : State) (f : Nat) (x : Facet) : Facet :=
  { st := x.st, shrink := x.shrink, offAfter := x.offAfter, aSq := x.aSq, aRq := x.aRq, aEvr := x.aEvr, aQp := x.aQp
    rstep := x.rstep, joined := x.joined
    que := { sqs := amap (fun _ q => warmQueue q) x.que.sqs, rqs := amap (fun _ q => warmQueue q) x.que.rqs
             evrs := x.que.evrs }
    rate := { cap := x.rate.cap, lineage := x.rate.lineage, profile := x.rate.profile }
    xlt := { segs := x.xlt.segs, winBase := x.xlt.winBase, winLim := x.xlt.winLim, tilesAllot := x.xlt.tilesAllot }
    pcx := { held := upstreamHeld s f ++ x.pcx.held.filter keptHeld }
    mov := { req := { pending := x.mov.req.pending } }
    cip := { slots := x.cip.slots } }

/-- A paced MOVE that ran or waited, with its recorded bursts (R315). -/
def pacedMoves (m : Mover) : List MoveWait :=
  m.chans.filterMap (fun c => match c.2.desc with
    | some d => if mvPace d ≠ 0 then some (c.2.kept d) else none
    | none => none) ++
  m.waiting.filter (fun w => decide (w.mirrored ≠ 0 ∨ w.tookAt ≠ 0)) ++ m.replay

/-- The mover after a warm reset. -/
def warmMover (m : Mover) : Mover :=
  { replay := pacedMoves m, pins := amap (fun _ p => { req := { pending := p.req.pending } }) m.pins }

/-- Translation after a warm reset: tile records without MIGRATING, with the COUNT, EPOCH and HOT of the pool (R452);
migrations from step 1 (R279); the fault queue's indices and FLT_CFG, every record freed (R275, R277). -/
def warmXlt (x : Xlt) : Xlt :=
  { tiles := amap (fun _ t => { t with
      count := t.poolCount, epoch := t.poolEpoch, hot := t.poolHot, migrating := false }) x.tiles
    migs := x.migs.map (fun m => { m with phase := 0, ch := 0, parked := [] })
    gens := x.recs.foldl (fun g r => amod 0 r.1 (fun v => v + 1) g) x.gens
    fltCfg := x.fltCfg, fltProd := x.fltProd, fltCons := x.fltCons }

/-- The links after a warm reset: DISABLED, or still FENCED (R391). -/
def warmLinks (l : Assoc Link) : Assoc Link := (l.filter (fun x => decide (x.2.st = .fenced))).map (fun x => (x.1, { st := .fenced }))

/-- Some unit's fence is kept (R391). -/
def warmMode (s : State) : Mode := if anyFenced s then .penumbra else .normal

/-- What a warm reset leaves (R403). -/
def warmLoss (s : State) : State :=
  let s := resetPins false s
  { s with
    regs := []
    facets := amap (warmFacet s) s.facets
    arb := {}, zrt := {}, wheel := s.now.toNat / 16
    qps := amap (fun n q => { q with rsp := { q.rsp with e := (getMir s n).e, mirWrite := none, owed := [] } }) s.qps
    mirror := { s.mirror with pendDone := [] }
    grp := { cmds := s.grp.cmds.map (fun c => { c with start := s.now, sent := s.now }) }
    prism := { fenced := s.prism.fenced, store := s.prism.store }
    fab := { links := warmLinks s.fab.links }
    xlt := warmXlt s.xlt
    memc := { s.memc with unfencing := none }
    pcx := { ports := amap warmPort s.pcx.ports, bridges := s.pcx.bridges, attachEpoch := s.pcx.attachEpoch }
    mov := warmMover s.mov
    cip := { nextId := s.cip.nextId, wrapKey := s.cip.wrapKey }
    trust := { boots := if s.trust.boots = 0xFFFFFFFF then s.trust.boots else s.trust.boots + 1 }
    eth := {}
    agl := { next := s.agl.next, events := s.agl.events }
    err := { mode := warmMode s, lan := s.err.lan, banks := s.err.banks, winAt := s.now }
    boot := { adpLow := s.boot.adpLow, perst := s.boot.perst, laid := s.boot.laid, ranB := s.boot.ranB
              warmKey := s.boot.warmKey, image := s.boot.image, kind := .warm, last := .warm }
    pwr := { railPg := s.pwr.railPg, railOn := s.pwr.railOn, railAt := s.pwr.railAt
             idleAt := s.now, saved := s.pwr.saved, wakeUp := s.pwr.wakeUp }
    thm := {} }

/-! ### Restore from Mirror at boot stage 7 (R453, R455) -/

/-- Descriptors that run again whole when Mirror does not hold their completion: NOP, MOVE, GROUP_QUERY, ETH_SEND. A paced
MOVE and an ETH_SEND go on behind the bursts and frames that Mirror holds for them (R315, R375). -/
def runsAgain (op : Nat) : Bool := decide (op ∈ [0x01, 0x20, 0x32, 0x37])

/-- Started descriptors without a completion that begin again: MOVE, GROUP_QUERY, ETH_SEND, UNIT_UNFENCE. Transfers,
collectives and the commands that journal their steps go on from what Mirror holds for them. -/
def beginsAgain (op : Nat) : Bool := decide (op ∈ [0x20, 0x32, 0x37, 0x39])

/-- The item as if it had not started. -/
def Item.fresh (i : Item) : Item := { idx := i.idx, desc := i.desc, seq := i.seq }

/-- An accepted descriptor of an SQ after a warm reset (R453). -/
def warmItem (i : Item) : Item :=
  match i.done with
  | some _ => if !i.recorded && runsAgain (Desc.op i.desc) then Item.fresh i else { i with wbSeen := false }
  | none => if beginsAgain (Desc.op i.desc) then Item.fresh i else i

/-- The number of an RQ's descriptors whose sends are complete, by index (R96, R111). -/
def sendPassed (s : State) (x : Queue) (idx : U32) : Bool :=
  match x.bound with
  | some n => let r := (getQp s n).rsp; decide ((idx - r.r0).toNat < (r.scomp).toNat)
  | none => true

/-- A RECV after a warm reset: complete where Mirror holds its completion or its send, or where its queue drained it;
otherwise its send comes again. -/
def warmRecv (s : State) (x : Queue) (i : Item) : Item :=
  match i.done with
  | some _ => if i.recorded || sendPassed s x i.idx || decide (x.st = .draining) then { i with wbSeen := false } else Item.fresh i
  | none => Item.fresh i

/-- A completion's Mirror record and write-back are made again (R453). -/
def redone (f : Nat) (rq : Bool) (q : Nat) (s : State) (i : Item) : State :=
  match i.done with
  | none => s
  | some st =>
    let x := getQ s f rq q
    let s := if i.recorded then s else mirrorIssue (.done f rq q i.idx) s
    if i.wbIssued then
      postPin f x.ringSeg (x.slotOff i.idx) (.writeBack f rq q i.idx) (writeBackBytes i.desc st) s
    else s

/-- A queue is restored: its completions, their write-backs, and its progress record. -/
def restoreQueue (f : Nat) (rq : Bool) (s : State) (q : Nat) : State :=
  let s := modQ f rq q (fun x => { x with items := x.items.map (if rq then warmRecv s x else warmItem) }) s
  let s := (getQ s f rq q).items.foldl (redone f rq q) s
  if (getQ s f rq q).st = .disabled then s else writeRecord f rq q s

/-- The queues of a facet are restored. -/
def restoreFacet (s : State) (f : Nat) : State :=
  let s := ((getF s f).que.sqs.map Prod.fst).foldl (restoreQueue f false) s
  ((getF s f).que.rqs.map Prod.fst).foldl (restoreQueue f true) s

/-- A chunk that was confirmed here: what it delivered stays known until it is committed or rolled back. -/
def Chunk.delivered (x : Chunk) : Chunk := { parts := x.parts, lasts := x.lasts, placed := x.placed, ran := x.ran }

/-- A running collective keeps its commit index and the counts that Mirror holds; its work on chunks that are not confirmed
here is gone (R178). -/
def restoreColl (r : Coll) : Coll :=
  { r with
    state := (r.state.filter (fun x => x.1 < r.own)).map (fun x => (x.1, if x.1 < r.commit then x.2 else x.2.delivered))
    counted := r.counted.filter (fun i => (agetq i r.flags).isSome)
    own := r.commit, conf := r.commit, told := false }

/-- A group is restored: its running collective is redone from its commit index. -/
def restoreGroup (s : State) (gid : Nat) : State :=
  askRollback gid (modG gid (fun g => { g with run := g.run.map restoreColl, since := s.now }) s)

/-- Everything that a warm reset restores from Mirror (R122, R178, R453, R455). -/
def restoreAll (s : State) : State :=
  let s := (s.qps.map Prod.fst).foldl (fun s n => restoreQp true n s) s
  let s := (s.facets.map Prod.fst).foldl restoreFacet s
  let s := (s.groups.map Prod.fst).foldl restoreGroup s
  (s.facets.map Prod.fst).foldl (fun s f => settle f s) s

end Sys2Proof.Machine
end

