-- ==== Sys2Proof/Machine/Image.lean ====
section
/-!
DEFINITION. The Glofer image (15_boot_and_configuration_image.md, R407 to R409, R413 to R417, R441): which bank passes and
which is chosen, the layout of local memory (R282 to R285), and the sections as they are applied.
-/
namespace Sys2Proof.Machine

/-! ### Local memory (R282 to R285) -/

def mib : Nat := 1048576

/-- A size rounded up to a multiple. -/
def alignUp (a b : Nat) : Nat := ceilDiv a b * b

/-- The bytes a paired region of logical size `sz` takes on n channels (R284, R285). -/
def pairedSize (n sz : Nat) : Nat := alignUp (2 * alignUp sz (n * 256) + n / 2 * 256) (2 * mib)

/-- V of n channels of q MiB (R283). -/
def visibleBytes (n q : Nat) : Nat := let t := q * 4096; n * (t - ceilDiv t (n - 4)) * 256

/-- Where the seven regions begin (R285). -/
def layRegions (n : Nat) (m : MemSection) : List Nat :=
  let backing := pairedSize n (m.mirror * mib)
  let pool := backing + pairedSize n (768 * mib)
  let dump := alignUp (pool + pairedSize n (m.tilepool * mib)) (64 * mib)
  let spill := dump + 64 * mib
  let lantern := alignUp (spill + m.spill * mib) (2 * mib)
  let facet := alignUp (lantern + m.lantern * mib) (2 * mib)
  [0, backing, pool, dump, spill, lantern, facet]

/-- The memory that boot lays out; a kept fence and its copy stand. -/
def layMemory (info : BootInfo) (m : MemSection) (s : State) : State :=
  { s with
    memc := { s.memc with
      channels := info.channels, rate := m.rate, chMib := info.chMib
      regions := layRegions info.channels m, visible := visibleBytes info.channels info.chMib
      poolTiles := m.tilepool * mib / 16
      paired := [m.mirror, 768, m.tilepool].map (fun z => alignUp (z * mib) (info.channels * 256)) }
    grp := { s.grp with poolKib := m.spill * 1024 } }

/-! ### Which bank passes (R409) -/

/-- REQ_UNITS, and no gateway on a part without Ethernet (R8, R409 item 3). -/
def unitsOk (s : State) (im : Image) : Bool :=
  decide (im.reqUnits &&& ~~~(capUnits s.part) = 0) &&
  (hasEth s 0 || hasEth s 1 || im.regs.all (fun r =>
    !(decide (0xE200 ≤ r.off ∧ r.off < 0xE400) && bit r.value 25 &&
      (decide (fld r.value 11 0 = posOf im.ownId) || (bit r.value 24 && decide (fld r.value 23 12 = posOf im.ownId))))))

/-- The MEM section's checks (R414). -/
def memOk (info : BootInfo) (im : Image) : Bool :=
  let m := im.mem
  info.fits && decide (m.rate ∈ [6400, 7500, 8533, 9600]) && decide (64 ≤ m.mirror) &&
  decide (6 * (im.agents.map (fun a => a.memMib)).foldl max 0 ≤ m.lantern) &&
  decide ((layRegions info.channels m).getD 6 0 ≤ visibleBytes info.channels info.chMib)

/-- Entry f of the FACETS section is ON: entry 0 always is (R415). -/
def entryOn (im : Image) (f : Nat) : Bool := decide (f = 0) || (im.facets.getD f default).on

/-- The facets of an image, with their resource records applied. -/
def applyFacets (im : Image) (s : State) : State :=
  (List.range 128).foldl (fun s f => if entryOn im f then applyRecord f (im.facets.getD f default).record s else s) s

/-- The FACETS section's checks, against the memory that its image lays out (R415). -/
def facetsOk (s : State) (info : BootInfo) (im : Image) : Bool :=
  let t := applyFacets im { (layMemory info im.mem s) with facets := [] }
  decide (im.facets.length = 128) && (List.range 128).all (fun f =>
    let e := im.facets.getD f default
    (if entryOn im f then decide (recBad t e.record = none) && decide (recLacks t f e.record = 0)
      else e.record.all (fun w => decide (w = 0))) &&
    (!e.agentHeld || im.agents.any (fun a => decide (a.index = e.agent))))

/-- The PLANS section's checks (R416). -/
def plansOk (im : Image) : Bool :=
  decide (im.plans.length ≤ 4096) && im.plans.all (fun p => decide (1 ≤ p.levels ∧ p.levels ≤ 3))

/-- The AGENTS section's checks (R417). -/
def agentsOk (im : Image) : Bool :=
  decide (im.agents.length ≤ 6) && decide ((im.agents.map (fun a => a.index)).Nodup) &&
  im.agents.all (fun a => decide (a.index < 6) && decide (2 ≤ a.prefCore ∧ a.prefCore ≤ 7)) &&
  (List.range 128).all (fun f =>
    let n := (im.agents.filter (fun a => bit a.facets f)).length
    decide (n ≤ 1) && (decide (n = 0) || (im.facets.getD f default).agentHeld))

/-- The registers that the words of the THERMAL section are written to (R441). -/
def thermalRegs : List Nat :=
  [0x100, 0x108, 0x200, 0x208, 0x210, 0x218, 0x220, 0x228, 0x230, 0x238, 0x240, 0x248, 0x250, 0x258]

/-- The THERMAL section's checks (R441). -/
def thermalOk (im : Image) : Bool :=
  decide (im.thermal.length = 14) && (im.thermal.zip thermalRegs).all (fun x => match regAt x.2 with
    | some r => decide (x.1 &&& ~~~(BitVec.ofNat 64 r.mask) = 0)
    | none => false)

/-- Why a bank does not pass: FAIL of BOOT_DEV_STATUS, or 0. `key`: at a warm reset, the WARM_KEY it must have (R407). -/
def bankFail (s : State) (info : BootInfo) (key : Option (BitVec 256)) (b : Bank) : Nat :=
  let im := b.image
  if !b.headerOk then 1
  else if !b.ownerSigOk then 2
  else if !b.fwSigOk then 3
  else if !unitsOk s im then 4
  else if !b.sectionsOk then 5
  else if !memOk info im then 6
  else if !facetsOk s info im then 7
  else if !plansOk im then 8
  else if !agentsOk im then 9
  else if key.isSome ∧ key ≠ some im.warmKey then 10
  else if !thermalOk im then 11
  else 0

/-! ### The choice (R407) -/

/-- GEN of a bank's header; an unreadable one has none. -/
def bankGen (b : Bank) : Nat := if b.headerOk then b.image.gen.toNat else 0

/-- A warm reset that restores what an earlier boot laid out. -/
def restores (s : State) : Bool := decide (s.boot.kind = .warm) && s.boot.laid

/-- Bank B is tried first. -/
def firstB (s : State) (info : BootInfo) : Bool :=
  if restores s then
    let ran := if s.boot.ranB then info.bankB else info.bankA
    let other := if s.boot.ranB then info.bankA else info.bankB
    if bankGen ran < bankGen other ∧ other.image.warmKey = s.boot.warmKey then !s.boot.ranB else s.boot.ranB
  else decide (bankGen info.bankA < bankGen info.bankB)

/-- The bank chosen: some true for B; with FAIL_A, FAIL_B and FALLBACK. -/
def chooseBank (s : State) (info : BootInfo) : Option Bool × Nat × Nat × Bool :=
  let key := if restores s then some s.boot.warmKey else none
  let fail := fun (isB : Bool) => bankFail s info key (if isB then info.bankB else info.bankA)
  let first := firstB s info
  let f1 := fail first
  if f1 = 0 then (some first, 0, 0, false)
  else
    let f2 := fail (!first)
    let a := if first then f2 else f1
    let b := if first then f1 else f2
    if f2 = 0 then (some (!first), a, b, true) else (none, a, b, true)

/-! ### Applying -/

/-- The REGS list, as writes of the management facet (R413). -/
def applyRegs (im : Image) (s : State) : State :=
  im.regs.foldl (fun s r => writeReg 0 r.off (if r.wide then 8 else 4) r.value s) s

/-- The THERMAL section (R441). -/
def applyThermal (im : Image) (s : State) : State :=
  (im.thermal.zip thermalRegs).foldl (fun s x => fileWrite x.2 x.1 s) s

end Sys2Proof.Machine
end

