-- ==== Sys2Proof/Machine/Boot.lean ====
section
/-!
DEFINITION. Adapter resets and the boot sequence (15_boot_and_configuration_image.md, R404, R405, R410 to R412, R417,
R420), and the confirmations of placements that a DEVICE_RESET waits for (R105).
-/
namespace Sys2Proof.Machine

/-! ### Resets that begin (R404, R405) -/

/-- The device leaves its reset: boot stage 0 begins, or it stays in reset while ADP_RST_N is low (R450). -/
def leaveReset (s : State) : State :=
  { s with boot := { s.boot with run := if s.boot.adpLow then .adpReset else .boot, stage := 0 } }

/-- A cold reset that keeps its rails: DEVICE_RESET with KIND 2, or the end of the power-on sequence. -/
def coldReset (s : State) : State := leaveReset (coldLoss s)

/-- An Umbra reset (R394). -/
def umbraReset (s : State) : State := leaveReset (umbraLoss s)

/-- A warm reset of a device that is neither in Umbra nor in Glimmer. -/
def warmBegin (s : State) : State := leaveReset (warmLoss s)

/-- A warm reset held in Umbra may run: the dump is complete, or 100 ms have passed (R404). -/
def holdOver (s : State) (t : U64) : Bool := s.err.dumpDone || elapsed s t (ms 100)

/-- A warm reset in Umbra: held, or an Umbra reset (R394, R404). -/
def warmInUmbra (s : State) : State :=
  if s.err.dumpDone then umbraReset s
  else if s.boot.heldWarm.isSome then s
  else { s with boot := { s.boot with heldWarm := some s.now } }

/-- UMBRA_RESET_HOLD_END (R404). -/
def execUmbraResetHoldEnd (s : State) : Host.Outcome State Fault Refusal :=
  .next (match s.boot.heldWarm with
    | some t => when (decide (s.err.mode = .umbra) && holdOver s t) umbraReset s
    | none => s)

/-! ### DEVICE_RESET (R405) -/

/-- The progress record that shows H past index idx is visible. -/
def recordPast (s : State) (q : Nat) (idx : U32) : Bool :=
  let x := getQ s 0 false q
  decide ((x.pubHead - (idx + 1)).toNat < 2 ^ 31) && !x.recFlight

/-- A DEVICE_RESET whose record is visible takes effect. -/
def deviceResetDue (s : State) : State :=
  match s.boot.resetWait with
  | none => s
  | some (q, idx, cold) =>
    if recordPast s q idx then (if cold then coldReset s else warmBegin s) else s

/-- DEVICE_RESET (R405). -/
def deviceReset (q : Nat) (i : Item) (s : State) : State :=
  let k := fld i.desc.w2 1 0
  if k = 0 ∨ k = 3 then completeItem 0 q i.idx (stat cBAD_FIELD) s
  else
    let s := completeItem 0 q i.idx stOk s
    if s.boot.resetWait.isSome then s
    else { s with boot := { s.boot with resetWait := some (q, i.idx, decide (k = 2)) } }

/-- DEVICE_RESET (R405); in any other facet it is BAD_OPCODE (R48). -/
def execDeviceReset (f q : Nat) (s : State) : Host.Outcome State Fault Refusal :=
  live (startWith f q 0x3A (deviceReset q)) s

/-! ### Confirmations (R105) -/

/-- A flush read returns, or fails by an injected port read error (R295, R381). -/
def flushBack (port : Nat) (halfB : Bool) (s : State) : State :=
  if (getP s (portKey port halfB)).flushing && injected s 0x1D port then
    let kind := anyKind s
    flushFailed port halfB kind 0 (countReadError port 0 none true (dropInjection 0x1D port { s with free := s.free + 1 }))
  else deviceResetDue (flushReturned (portKey port halfB) s)

/-- FLUSH_READ_COMPLETION (R105). -/
def execFlushReadCompletion (port : Nat) (halfB : Bool) (s : State) : Host.Outcome State Fault Refusal :=
  live (flushBack port halfB) s

/-- Writes of LPDDR5X are complete at the memory controllers. -/
def memComplete (s : State) : State :=
  deviceResetDue (confirmAll (getP s lpddr).unconf (modP lpddr (fun p => { p with unconf := [] }) s))

/-- MEM_WRITE_COMPLETE (R105). -/
def execMemWriteComplete (s : State) : Host.Outcome State Fault Refusal := live memComplete s

/-! ### Boot stages (R410) -/

/-- Boot hold (R411): NVM_FREE is asserted, and the device waits for its next reset. -/
def bootHold (why : Nat) (s : State) : State :=
  let s := if s.boot.nvmFree then s else emit (.pin "NVM_FREE" true) s
  { s with boot := { s.boot with run := .hold, holdWhy := why, nvmFree := true } }

/-- The next stage begins. -/
def toStage (n : Nat) (s : State) : State := { s with boot := { s.boot with stage := n } }

/-- Stage 1 ends: the device key is derived (R354), M1 is extended. -/
def stage1 (info : BootInfo) (s : State) : State :=
  let s := extendM 1 (Config.shake256 512 (padTo 4096 Config.ownerRecord)) s
  if info.keyMatches then { s with trust := { s.trust with idOk := true } }
  else collect 0x2E clsCE 0 false 0 0 0 none s

/-- Stage 2 ends: a bank is chosen, M0 and M2 are extended, or no bank passes (R407, R409). -/
def stage2 (info : BootInfo) (s : State) : State :=
  let (c, fa, fb, fall) := chooseBank s info
  let s := { s with boot := { s.boot with failA := fa, failB := fb, fallback := fall } }
  match c with
  | none => bootHold 1 s
  | some isB =>
    let b := if isB then info.bankB else info.bankA
    let other := if isB then info.bankA else info.bankB
    let im := b.image
    let s := extendM 2 im.digest (extendM 0 im.fwDigest s)
    toStage 3 { s with
      trust := { s.trust with bankB := isB }
      boot := { s.boot with
        bankB := isB, ranB := isB, image := im, warmKey := im.warmKey
        runGen := im.gen, otherGen := BitVec.ofNat 32 (bankGen other) } }

/-- Stage 3 ends: firmware starts on an unfenced firmware core, and NVM_FREE is asserted. -/
def stage3 (s : State) : State :=
  if coreFenced s 0 && coreFenced s 1 then bootHold 3 s
  else toStage 4 (emit (.pin "NVM_FREE" true) { s with
    boot := { s.boot with nvmFree := true }, prism := { s.prism with ucode := s.boot.image.ucodeVer } })

/-- Stage 4 ends: LPDDR5X is trained and laid out. -/
def stage4 (info : BootInfo) (s : State) : State :=
  if info.trained then toStage 5 (layMemory info s.boot.image.mem s) else bootHold 2 s

/-- The allocations of SVL_DEV_VCBUF are valid (R239). -/
def vcbufOk (s : State) : Bool :=
  let l := (List.range 8).map (fun v => regf s 0xE010 (8 * v + 7) (8 * v))
  l.all (fun a => decide (a ≠ 0)) && decide (4 * l.foldl (· + ·) 0 ≤ 512)

/-- Glimmer exit's step 4: firmware restores Afterglow, AGL_NEXT and the collector's counters (R434). -/
def restoreSaved (s : State) : State :=
  match s.pwr.saved with
  | some (a, c) => { s with
      agl := { s.agl with next := a.next, events := a.events }, err := { s.err with cnt := c }, pwr := { s.pwr with saved := none } }
  | none => s

/-- Stage 5 ends: the REGS list and the THERMAL section are applied, and the entropy source has passed its start-up
tests (R352, R413, R441). -/
def stage5 (s : State) : State :=
  let s := applyThermal s.boot.image (applyRegs s.boot.image s)
  let s := if vcbufOk s then s else collect 0x18 clsCE 0 false 0 0 1 none s
  let s := if s.trust.ent = 0 then entropyReady s else s
  let s := { s with thm := { s.thm with fresh := true, at_ := s.now }, pwr := { s.pwr with avsAt := s.now } }
  toStage 6 (restoreSaved s)

/-- The links leave DISABLED for DETECT: those present and not fenced, but not those of a dimension of size 1 (R229,
R248). -/
def linksDetect (s : State) : State :=
  (List.range 24).foldl (fun s n =>
    if hasLink s n && decide ((getL s n).st = .disabled) && decide (ringSize s (n / 8) ≠ 1) then linkTo n .detect s else s) s

/-- Stage 6 ends: the facet table and the switch hierarchy are set up, PERST is released on a cold boot, the links go to
DETECT; the kept bridges have their LIVE bits (R298, R412). -/
def stage6 (s : State) : State :=
  let s := if s.boot.laid then
      { s with pcx := { s.pcx with live := BitVec.ofNat 8 (ofBits (bridgesHere s)) } }
    else applyFacets s.boot.image s
  let s := if s.boot.perst then perstPins true s else s
  let s := linksDetect { s with boot := { s.boot with laid := true, perst := false } }
  toStage (if s.boot.kind = .warm then 7 else 8) s

/-- The free agent core an agent starts on: PREF_CORE, or the lowest free one (R417). -/
def agentCore (s : State) (e : AgentEntry) : Option Nat :=
  let free := fun (c : Nat) => !coreFenced s c && !s.boot.agents.any (fun a => decide (a.2.st = 2 ∧ a.2.core = c))
  if free e.prefCore then some e.prefCore else [2, 3, 4, 5, 6, 7].find? free

/-- One agent is verified and copied, and gets a core (R417); it starts at stage 9. -/
def loadAgent (s : State) (e : AgentEntry) : State :=
  if !e.passes then modAgent e.index (fun _ => { st := 4, entry := e }) s
  else match agentCore s e with
    | some c => extendM 3 e.digest (modAgent e.index (fun _ => { st := 2, core := c, entry := e }) (copyAgent e s))
    | none => modAgent e.index (fun _ => { st := 3, entry := e }) (copyAgent e s)

/-- Stage 8 ends: agents are loaded, and the boot lock is set (R420). -/
def stage8 (s : State) : State :=
  let s := s.boot.image.agents.foldl loadAgent s
  toStage 9 { s with boot := { s.boot with locked := true } }

/-- The INFO subtype of a boot. -/
def bootSubtype : ResetKind → Nat
  | .cold => 1 | .warm => 2 | .umbra => 9

/-- Firmware reads PCX_DEV_PORT and PCX_DEV_PORT_B of every downstream port that is up, which releases their work
(R412). -/
def releaseDown (s : State) : State :=
  [1, 2, 3, 4, 5, 6, 7, 8].foldl (fun s k =>
    if (getP s k).up then releasePort k (modP k (fun x => { x with epochRead := true }) s) else s) s

/-- Stage 9 ends: agents start, the boot is recorded, and the device runs. -/
def stage9 (s : State) : State :=
  let s := { s with boot := { s.boot with
    run := .running, time := s.now
    agents := amap (fun _ a => if a.st = 2 then { a with st := 1, kickAt := s.now } else a) s.boot.agents } }
  releaseDown (noteBusy (infoEvent (bootSubtype s.boot.kind) 0 0 0 s))

/-- The running boot stage ends (R410). -/
def stageDone (info : BootInfo) (s : State) : State :=
  match s.boot.stage with
  | 0 => toStage 1 s
  | 1 => toStage 2 (stage1 info s)
  | 2 => stage2 info s
  | 3 => stage3 s
  | 4 => stage4 info s
  | 5 => stage5 s
  | 6 => stage6 s
  | 7 => restoreAll (toStage 8 s)
  | 8 => stage8 s
  | _ => stage9 s

/-- BOOT_STAGE_DONE (R410). -/
def execBootStageDone (info : BootInfo) (s : State) : Host.Outcome State Fault Refusal :=
  .next (when (decide (s.boot.run = .boot) && awake s) (stageDone info) s)

end Sys2Proof.Machine
end

