-- ==== Sys2Proof/Machine/Power.lean ====
section
/-!
DEFINITION. Power states, rails and the cooling loop (16_power_thermal_glimmer.md), the reset pins (R446 to R450), and
Ethernet frames, which in Glimmer are wake inputs (R376).
-/
namespace Sys2Proof.Machine

/-! ### Rails (R435 to R437, R447, R448); rail r has order r + 1 -/

/-- The part needs rail r (R448). -/
def needsRail (s : State) (r : Nat) : Bool := decide (r < 7) || hasEth s 0 || hasEth s 1

/-- WAKE_EN of an Ethernet port that the part has (R376). -/
def wakeEn (s : State) (p : Nat) : Bool := hasEth s p && bit (reg s (ethBase p + 0x58)) 7

/-- Rails that stay on in Glimmer (R435). -/
def glimmerRail (s : State) (r : Nat) : Bool := decide (r = 3 ∨ r = 4) || (decide (r = 7) && (wakeEn s 0 || wakeEn s 1))

/-- A power-down of Glimmer entry or exit skips the rails that stay on (R437). -/
def keptRail (s : State) (r : Nat) : Bool :=
  (decide (s.pwr.st = .glimmerEntry) || s.boot.glimmer) && glimmerRail s r

/-- The bit of a rail. -/
def railBit (r : Nat) : Byte := BitVec.ofNat 8 (2 ^ r)

/-- OPERATION of rail r's regulator (R435). -/
def command (r : Nat) (on : Bool) (s : State) : State :=
  emit (.regulator (0x40 + r) on) { s with pwr := { s.pwr with
    railOn := if on then s.pwr.railOn ||| railBit r else s.pwr.railOn &&& ~~~railBit r, railAt := s.now } }

/-- The power-down goes on with the highest rail that is on and does not stay on (R437). -/
def railDown (s : State) : State :=
  match [7, 6, 5, 4, 3, 2, 1, 0].find? (fun r => bit s.pwr.railOn r && !keptRail s r) with
  | some r => let s := command r false s
      { s with pwr := { s.pwr with seqDown := some r } }
  | none => { s with pwr := { s.pwr with seqDown := none } }

/-- A power-down begins, unless one is under way. -/
def powerDown (s : State) : State := if s.pwr.seqDown.isSome then s else railDown s

/-- The next rail that is needed and off is switched on; after the last, boot stage 0 begins (R436). -/
def railUp (s : State) : State :=
  match (List.range 8).find? (fun r => needsRail s r && !bit s.pwr.railOn r) with
  | some r => command r true s
  | none => leaveReset s

/-- R447: every regulator is commanded off, the highest first. -/
def allOff (s : State) : State :=
  ([7, 6, 5, 4, 3, 2, 1, 0].filter (needsRail s)).foldl (fun s r => command r false s)
    { s with pwr := { s.pwr with railPg := 0, seqDown := none } }

/-- A rail awaits its POWER_GOOD. -/
def railAwaits (s : State) (r : Nat) : Bool :=
  decide (s.boot.run = .rails) && decide (r < 8) && bit s.pwr.railOn r && !bit s.pwr.railPg r

/-- POWER_GOOD (R436). -/
def powerGood (r : Nat) (s : State) : State :=
  if railAwaits s r then railUp { s with pwr := { s.pwr with railPg := s.pwr.railPg ||| railBit r } } else s

/-- POWER_GOOD (R436). -/
def execPowerGood (rail : Nat) (s : State) : Host.Outcome State Fault Refusal := .next (powerGood rail s)

/-- The PWM outputs at one duty. -/
def allDuty (k : Nat) (s : State) : State := { s with thm := { s.thm with duties := [k, k, k, k] } }

/-- RAIL_TIMEOUT: every rail is switched off, and the outputs are held at 100 % (R436). -/
def railTimeout (r : Nat) (s : State) : State :=
  if railAwaits s r && elapsed s s.pwr.railAt (ms 10) then
    powerDown (allDuty 100 { s with boot := { s.boot with run := .retryWait }, pwr := { s.pwr with entryAt := s.now } })
  else s

/-- RAIL_TIMEOUT (R436). -/
def execRailTimeout (rail : Nat) (s : State) : Host.Outcome State Fault Refusal := .next (railTimeout rail s)

/-- RAIL_SEQUENCE_RETRY (R436). -/
def execRailSequenceRetry (s : State) : Host.Outcome State Fault Refusal :=
  .next (when (decide (s.boot.run = .retryWait) && s.pwr.seqDown.isNone && elapsed s s.pwr.entryAt (ms 1000))
    (fun s => railUp { s with boot := { s.boot with run := .rails } }) s)

/-- RAIL_OFF: the rail reports off, or 2 ms have passed, and the next one below follows (R437). -/
def execRailOff (rail : Nat) (s : State) : Host.Outcome State Fault Refusal :=
  .next (when (decide (s.pwr.seqDown = some rail))
    (fun s => railDown { s with pwr := { s.pwr with railPg := s.pwr.railPg &&& ~~~railBit rail } }) s)

/-- The 2 ms after R447's commands are over: VDD_IO is switched on. -/
def railsBegin (s : State) : State :=
  if s.boot.run = .rails ∧ s.pwr.railOn = 0 ∧ elapsed s s.pwr.railAt (ms 2) = true then railUp s else s

/-! ### Glimmer exit (R433, R434) -/

/-- Wake bits that assert WAKE_UP_N: WAKE_DN and PATTERN (R433). -/
def wakesHost (w : BitVec 12) : Bool := decide (w &&& 0x6F ≠ 0)

/-- Glimmer exit: the rails are switched on, and the boot then runs as a warm reset. The registers of the exit are
written after the reset's own losses. -/
def glimmerExit (wake : BitVec 12) (s : State) : State :=
  let s := warmLoss { s with pwr := { s.pwr with st := .active } }
  let s := { s with
    boot := { s.boot with run := .rails, glimmer := true }
    pwr := { s.pwr with wake := wake, glimmers := s.pwr.glimmers + 1 } }
  railUp (if wakesHost wake then emit (.pin "WAKE_UP_N" false) { s with
    pwr := { s.pwr with wakeUp := some s.now } } else s)

/-- WAKE_UP_TIMEOUT (R433). -/
def execWakeUpTimeout (s : State) : Host.Outcome State Fault Refusal :=
  .next (match s.pwr.wakeUp with
    | some t => when (elapsed s t (ms 1000)) wakeUpEnd s
    | none => s)

/-! ### The reset pins and the supply (R402, R404, R450) -/

/-- PORST_N is taken low: every rail is switched off, the PWM outputs are released, and everything is lost. -/
def porstLow (s : State) : State :=
  if s.boot.run = .off ∨ s.boot.run = .porst then s
  else
    let c := coldLoss s
    powerDown { c with boot := { c.boot with run := .porst }, pwr := { c.pwr with seqDown := s.pwr.seqDown } }

/-- PORST_N is taken high: the power-on sequence begins (R436, R447). -/
def porstHigh (s : State) : State :=
  if s.boot.run = .porst then allOff { s with boot := { s.boot with run := .rails } } else s

/-- PORST_N (R450): a level held for 5 samples is taken. -/
def execPorstN (low : Bool) (samples : Nat) (s : State) : Host.Outcome State Fault Refusal :=
  .next (when (decide (5 ≤ samples)) (if low then porstLow else porstHigh) s)

/-- A warm reset by pin (R404): held in Umbra, taken through the exit in Glimmer, waiting during Glimmer entry. -/
def pinWarm (s : State) : State :=
  if s.err.mode = .umbra then warmInUmbra s
  else match s.pwr.st with
    | .glimmerEntry => { s with boot := { s.boot with warmAfter := true } }
    | .glimmer => glimmerExit 0 s
    | .active => warmBegin s
    | .restEntry => warmBegin s
    | .rest => warmBegin s

/-- The device is out of its power-on sequence, and not in the scan test that only a cold reset leaves (R341). -/
def takesWarm (s : State) : Bool :=
  decide (s.boot.run = .adpReset ∨ s.boot.run = .boot ∨ s.boot.run = .hold ∨ s.boot.run = .running) && !s.cip.scan

/-- ADP_RST_N is taken low. -/
def adpLow (s : State) : State :=
  if s.boot.adpLow ∨ s.boot.run = .off then s
  else
    let s := { s with boot := { s.boot with adpLow := true } }
    if takesWarm s then pinWarm s else s

/-- ADP_RST_N is taken high: boot stage 0 begins. -/
def adpHigh (s : State) : State :=
  { s with boot := { s.boot with adpLow := false, run := if s.boot.run = .adpReset then .boot else s.boot.run } }

/-- ADP_RST_N (R450). -/
def execAdpRstN (low : Bool) (samples : Nat) (s : State) : Host.Outcome State Fault Refusal :=
  .next (when (decide (5 ≤ samples)) (if low then adpLow else adpHigh) s)

/-- VDD_AON is gone: the device is Off, and everything is lost (R402, R424, R431). -/
def powerLoss (s : State) : State :=
  let s := coldLoss s
  { s with pwr := {}, boot := { s.boot with run := .off, adpLow := false } }

/-- POWER_LOSS (R402). -/
def execPowerLoss (s : State) : Host.Outcome State Fault Refusal := .next (powerLoss s)

/-- POWER_ON: the variant bumps are read, and PORST_N is low (R402, R450). They are set when the device is assembled
(R10), so a command that names another part's bumps is no event of this device (DESIGN CHOICE, log entry 1). -/
def execPowerOn (part : Variant) (s : State) : Host.Outcome State Fault Refusal :=
  .next (when (decide (s.boot.run = .off ∧ part = s.part)) (fun s => { s with now := 0, boot := { s.boot with run := .porst } }) s)

/-! ### Rest (R425 to R427) -/

/-- No collective runs on the adapter, and no cluster holds a chunk. -/
def collsIdle (s : State) : Bool :=
  s.groups.all (fun g => g.2.run.isNone) && (List.range 8).all (fun k => decide (chunksOn s k = []))

/-- No Svays output queue holds a flit. -/
def linksEmpty (s : State) : Bool :=
  s.fab.links.all (fun l => decide (l.2.tx.q.pkts = []) && l.2.tx.ready.all (fun r => decide (r.2 = [])))

/-- R425. -/
def mayRest (s : State) : Bool :=
  bit (reg s 0x100) 0 && !s.pwr.holdActive && collsIdle s && linksEmpty s && decide (s.boot.run = .running) && awake s

/-- Rest entry's steps 1 and 2 begin: chunks are no longer assigned, and every ACTIVE link is asked for sleep. -/
def restBegin (s : State) : State :=
  let l := (List.range 24).filter (linkLive s)
  let s := emits (l.map (linkWord s 5 1)) s
  { s with
    fab := { s.fab with links := amap (fun n x => if l.contains n then { x with asked := true } else x) s.fab.links }
    pwr := { s.pwr with st := .restEntry, entryAt := s.now, asked := l }
    prism := { s.prism with assigning := false } }

/-- REST_IDLE: where R425 fails, the interval begins again. -/
def restIdle (s : State) : State :=
  if s.pwr.st ≠ .active then s
  else if !mayRest s then noteBusy s
  else if elapsed s s.pwr.idleAt (us (2 ^ regf s 0x100 5 2)) then restBegin s
  else s

/-- REST_IDLE (R424, R425). -/
def execRestIdle (s : State) : Host.Outcome State Fault Refusal := live restIdle s

/-- Every link asked in step 2 has answered. -/
def allAnswered (s : State) : Bool :=
  s.pwr.asked.all (fun n => let l := getL s n
    decide (l.st ≠ .active) || l.granted)

/-- REST_ENTRY_STEP: step 2 ends; links not granted stay ACTIVE; step 3 gates Prism. -/
def restStep (s : State) : State :=
  if s.pwr.st = .restEntry ∧ (allAnswered s = true ∨ elapsed s s.pwr.entryAt (us 10) = true) then { s with
    fab := { s.fab with links := amap (fun _ l => if l.asked && !l.granted then { l with asked := false } else l) s.fab.links }
    pwr := { s.pwr with st := .rest, entryAt := s.now, asked := [], rests := s.pwr.rests + 1 }
    prism := { s.prism with powered := false } }
  else s

/-- REST_ENTRY_STEP (R427). -/
def execRestEntryStep (s : State) : Host.Outcome State Fault Refusal := live restStep s

/-! ### The sensors (R432, R439, R442) -/

/-- Diode d is fitted and read. -/
def diodeEn (s : State) (d : Nat) : Bool := bit (reg s (0x230 + 8 * d)) 0

/-- THM_DEV_TEMP[d] of a reading: OFFSET applied; a diode that is not read shows 0. -/
def tempOf (s : State) (r : Readings) (d : Nat) : BitVec 16 :=
  if d = 6 then r.temps.getD 6 0
  else if diodeEn s d then r.temps.getD d 0 + (BitVec.ofNat 8 (regf s (0x230 + 8 * d) 16 9)).signExtend 16
  else 0

/-- A temperature lies above a limit in °C. -/
def above (t : BitVec 16) (c : Nat) : Bool := decide ((16 * c : Int) < t.toInt)

/-- The critical limit of sensor d in °C. -/
def critOf (s : State) (d : Nat) : Nat := if d = 6 then regf s 0x208 23 16 else regf s (0x230 + 8 * d) 8 1

/-- The level switch reads low (LVL_POL). -/
def levelLow (s : State) (r : Readings) : Bool := if bit (reg s 0x208) 24 then r.levelClosed else !r.levelClosed

/-- Output k's tachometer is below TACH_MIN. -/
def tachSlow (s : State) (r : Readings) (k : Nat) : Bool :=
  let m := regf s (0x210 + 8 * k) 45 30
  decide (m ≠ 0) && decide ((r.rpms.getD k 0).toNat < m)

/-! ### Glimmer (R428 to R434) -/

/-- Every SQ and RQ has H equal to A. -/
def queuesEmpty (s : State) : Bool :=
  s.facets.all (fun f => f.2.que.sqs.all (fun q => decide (q.2.items = [])) && f.2.que.rqs.all (fun q => decide (q.2.items = [])))

/-- TJ_MAX in °C. -/
def tjMax (s : State) : Nat := regf s 0x108 21 14

/-- The junction sensor and every enabled diode read below TJ_MAX. -/
def cool (s : State) : Bool :=
  (List.range 7).all (fun d => decide ((s.thm.temps.getD d 0).toInt < (16 * tjMax s : Int)) || (decide (d < 6) && !diodeEn s d))

/-- R429. -/
def mayGlimmer (s : State) : Bool :=
  bit (reg s 0x100) 1 && !s.pwr.holdActive && s.pcx.ports.all (fun p => decide (p.1 = lpddr) || !p.2.up) && queuesEmpty s &&
    s.groups.all (fun g => g.2.run.isNone) && decide (s.xlt.migs = []) && decide (s.xlt.recs = []) && cool s

/-- Glimmer entry's steps 1 to 4 begin: Afterglow and the collector's counters are saved, every link is stopped,
NVM_FREE falls (R446), and the first rail is switched off. -/
def glimmerBegin (s : State) : State :=
  let s := resetPins false s
  powerDown { s with
    fab := { s.fab with links := warmLinks s.fab.links }
    boot := { s.boot with nvmFree := false }
    pwr := { s.pwr with st := .glimmerEntry, latch := 0, saved := some (s.agl, s.err.cnt) } }

/-- GLIMMER_IDLE: where R429 fails at the interval's end, another interval begins. -/
def glimmerIdle (s : State) : State :=
  if s.pwr.st ≠ .rest ∨ elapsed s s.pwr.entryAt (ms (2 ^ regf s 0x100 9 6)) = false then s
  else if mayGlimmer s then glimmerBegin s
  else { s with pwr := { s.pwr with entryAt := s.now } }

/-- GLIMMER_IDLE (R429). -/
def execGlimmerIdle (s : State) : Host.Outcome State Fault Refusal :=
  .next (when (decide (s.boot.run = .running) && awake s) glimmerIdle s)

/-- A duty in %, at most 100. -/
def percent (n : Nat) : Nat := min n 100

/-- The four outputs hold their GLIM_DUTY (R439). -/
def glimDuties (s : State) : List Nat := [0, 1, 2, 3].map (fun k => percent (regf s (0x210 + 8 * k) 20 14))

/-- GLIMMER_ENTRY_DONE: a warm reset or a latched wake that waited starts the exit at once; otherwise the device
sleeps (R404, R430). -/
def glimmerAsleep (s : State) : State :=
  if s.pwr.st ≠ .glimmerEntry ∨ s.pwr.seqDown.isSome = true then s
  else if s.boot.warmAfter then glimmerExit 0 s
  else if s.pwr.latch ≠ 0 then glimmerExit (s.pwr.latch ||| 0x800) s
  else { s with pwr := { s.pwr with st := .glimmer, sampleAt := s.now }, thm := { s.thm with duties := glimDuties s } }

/-- GLIMMER_ENTRY_DONE (R430). -/
def execGlimmerEntryDone (s : State) : Host.Outcome State Fault Refusal := .next (glimmerAsleep s)

/-- The bit of a wake input in PWR_DEV_WAKE. -/
def wakeBit : WakeKind → Nat
  | .wakeDn k => k
  | .perstUp => 4
  | .pattern p => 5 + p

/-- A wake input is latched (R430, R432). -/
def latchWake (w : WakeKind) (s : State) : State :=
  if s.pwr.st = .glimmer ∨ s.pwr.st = .glimmerEntry then
    { s with pwr := { s.pwr with latch := s.pwr.latch ||| BitVec.ofNat 12 (2 ^ wakeBit w) } }
  else s

/-- WAKE_INPUT (R432). -/
def execWakeInput (w : WakeKind) (s : State) : Host.Outcome State Fault Refusal :=
  .next (when (WakeKind.wf w) (latchWake w) s)

/-- A supply reading in mV outside ±8 % of nominal. -/
def offNominal (mv nominal : Nat) : Bool := decide (100 * mv < 92 * nominal) || decide (108 * nominal < 100 * mv)

/-- R432 step 3: a supply that is watched is outside its window. -/
def supplyBad (s : State) (r : Readings) : Bool :=
  offNominal (r.supplies.getD 0 0) 1800 || offNominal (r.supplies.getD 1 0) 1050 || offNominal (r.supplies.getD 2 0) 500 ||
    (bit s.pwr.railOn 7 && offNominal (r.supplies.getD 3 0) 850)

/-- R432 step 2: a temperature limit is exceeded. -/
def sampleHot (s : State) (r : Readings) : Bool :=
  above (tempOf s r 6) (tjMax s) || (List.range 6).any (fun d => diodeEn s d && above (tempOf s r d) (critOf s d))

/-- The wake conditions that a sample cycle finds (R432). -/
def sample (s : State) (r : Readings) : BitVec 12 :=
  s.pwr.latch ||| BitVec.ofNat 12 (b2n (sampleHot s r) * 2 ^ 7 + b2n (supplyBad s r) * 2 ^ 8 +
    b2n (bit (reg s 0x108) 22 && levelLow s r) * 2 ^ 9 +
    b2n (bit (reg s 0x108) 23 && (List.range 4).any (tachSlow s r)) * 2 ^ 10)

/-- The sample period in ms (R442). -/
def samplePeriod (s : State) : Nat := min (max (regf s 0x108 13 0) 1) 10000

/-- SAMPLE_CYCLE. -/
def sampleCycle (r : Readings) (s : State) : State :=
  if s.pwr.st = .glimmer ∧ (s.pwr.latch ≠ 0 ∨ elapsed s s.pwr.sampleAt (ms (samplePeriod s)) = true) then
    let w := sample s r
    if w = 0 then { s with pwr := { s.pwr with sampleAt := s.now } } else glimmerExit w s
  else s

/-- SAMPLE_CYCLE (R432). -/
def execSampleCycle (r : Readings) (s : State) : Host.Outcome State Fault Refusal := .next (sampleCycle r s)

/-! ### AVS (R438) -/

/-- Boot stage 5 is over, and the device is neither in Glimmer nor on its way there, nor in scan test. -/
def stage5Past (s : State) : Bool :=
  (decide (s.boot.run = .running) || (decide (s.boot.run = .boot) && decide (6 ≤ s.boot.stage))) &&
    decide (s.pwr.st ≠ .glimmer) && decide (s.pwr.st ≠ .glimmerEntry) && !s.cip.scan

/-- A voltage called for, in steps of 5 mV within a range. -/
def avsStep (lo hi mv : Nat) : Nat := min hi (max lo ((mv + 4) / 5 * 5))

/-- One rail is set over AVSBus; a transaction that fails leaves it as it is. -/
def avsSet (r : Nat) (mv : Nat) (ok : Bool) (s : State) : State :=
  if !ok then s
  else
    let s := emit (.avs r mv) s
    if r = 2 then { s with pwr := { s.pwr with vcore := BitVec.ofNat 12 mv } }
    else { s with pwr := { s.pwr with vsram := BitVec.ofNat 12 mv } }

/-- AVS_TRIM (R438): rail 2 is VDD_CORE, rail 1 VDD_SRAM. -/
def execAvsTrim (vcore vsram : Nat) (coreOk sramOk : Bool) (s : State) : Host.Outcome State Fault Refusal :=
  .next (when (stage5Past s && bit (reg s 0x100) 10 && elapsed s s.pwr.avsAt (ms 10)) (fun s =>
    avsSet 1 (avsStep 750 850 vsram) sramOk (avsSet 2 (avsStep 700 800 vcore) coreOk
      { s with pwr := { s.pwr with avsAt := s.now } })) s)

/-! ### The cooling loop (R439, R440) -/

/-- A diode is ok: it is read, and its reading lies from −40 °C to 150 °C. -/
def diodeOk (s : State) (r : Readings) (d : Nat) : Bool :=
  diodeEn s d && decide (-640 ≤ (tempOf s r d).toInt) && decide ((tempOf s r d).toInt ≤ 2400)

/-- The loop's input: the largest of the ok diodes of PV_MASK. -/
def loopInput (s : State) (r : Readings) : Option Int :=
  (((List.range 6).filter (fun d => bit (reg s 0x208) d && diodeOk s r d)).map (fun d => (tempOf s r d).toInt)).max?

/-- A value held within bounds. -/
def within (lo hi x : Int) : Int := max lo (min hi x)

/-- The loop's next u and i for an input t; while the level is low, the integrator is held. -/
def loopNext (s : State) (t : Int) (held : Bool) : U16 × Int :=
  let e := t - (regf s 0x200 11 0 : Int)
  let i := if held then s.thm.i else within 0 1048560 (s.thm.i + (regf s 0x200 43 28 : Int) * e)
  let want := within 0 65535 (((regf s 0x200 27 12 : Int) * e + i) / 16)
  let slew : Int := regf s 0x200 59 44
  let u : Int := s.thm.u.toNat
  (BitVec.ofInt 16 (u + within (-slew) slew (want - u)), i)

/-- duty(k) of R439. -/
def dutyOf (s : State) (u : U16) (k : Nat) : Nat :=
  let o := 0x210 + 8 * k
  let lo : Int := percent (regf s o 6 0)
  let hi : Int := percent (regf s o 13 7)
  (lo + (hi - lo) * u.toNat / 65536).toNat

/-- The temperatures above their critical limits are FT events of THERM (R440). -/
def thermEvents (r : Readings) (s : State) : State :=
  ((List.range 7).filter (fun d => (decide (d = 6) || diodeEn s d) && above (tempOf s r d) (critOf s d))).foldl
    (fun s d => fatal 0x32 d false 0 none s) s

/-- One period of the loop (R439), which also reads the sensors that THM_DEV_STATUS shows. -/
def loopPeriod (r : Readings) (s : State) : State :=
  let low := levelLow s r
  let t := loopInput s r
  let (u, i) := if s.thm.fresh then ((0xFFFF : U16), (1048560 : Int)) else match t with
    | some t => loopNext s t low
    | none => (0xFFFF, s.thm.i)
  let hot := match t with
    | some t => decide ((regf s 0x200 11 0 + regf s 0x208 15 8 : Int) < t)
    | none => false
  let s' := { s with thm := { s.thm with
    u := u, i := i, fresh := false, levelLow := low, hot := hot, forced := low || t.isNone
    tachSlow := BitVec.ofNat 4 (ofBits ((List.range 4).filter (tachSlow s r)))
    diodeBad := BitVec.ofNat 6 (ofBits ((List.range 6).filter (fun d => diodeEn s d && !diodeOk s r d)))
    temps := (List.range 7).map (tempOf s r), rpms := (List.range 4).map (fun k => r.rpms.getD k 0)
    duties := (List.range 4).map (fun k => if low then percent (regf s (0x210 + 8 * k) 27 21) else dutyOf s u k)
    at_ := s.now } }
  thermEvents r s'

/-- COOLING_PERIOD (R439). -/
def execCoolingPeriod (r : Readings) (s : State) : Host.Outcome State Fault Refusal :=
  .next (when (stage5Past s && elapsed s s.thm.at_ (ms (25 * 2 ^ regf s 0x200 63 60))) (loopPeriod r) s)

/-! ### Ethernet frames (R370, R376) -/

/-- A frame of port p with a good FCS matches the port's wake pattern. -/
def wakeMatch (s : State) (p : Nat) (bs : Bytes) : Bool :=
  let o := ethBase p
  let n := min (regf s (o + 0x58) 6 0) 64
  let fr := bs ++ fcsOf bs
  decide (n ≠ 0) && (List.range n).all (fun i => !bit (reg s (o + 0x50)) i ||
    decide (fr[i]? = some (BitVec.ofNat 8 (regf s (o + 0x60 + 8 * (i / 8)) (8 * (i % 8) + 7) (8 * (i % 8))))))

/-- A frame that arrives in Glimmer or on the way there: a match is counted and is a wake input; the frame is
discarded (R376). -/
def wakeFrame (p b : Nat) (fcsOk : Bool) (bs : Bytes) (s : State) : State :=
  if (s.pwr.st = .glimmer ∨ s.pwr.st = .glimmerEntry) ∧ b = 0 ∧ fcsOk = true ∧ wakeEn s p = true ∧ wakeMatch s p bs = true then
    latchWake (.pattern p) (modEth p (fun e => { e with wakes := e.wakes + 1 }) s)
  else s

/-- An arriving frame; where no port runs it is discarded. -/
def ethFrame (p b : Nat) (fcsOk : Bool) (far : FarBits) (bs : Bytes) (s : State) : State :=
  if fabricUp s then rxFrame p b fcsOk far bs s else wakeFrame p b fcsOk bs s

/-- ETH_FRAME (R370, R376). -/
def execEthFrame (port sub : Nat) (fcsOk fixRail : Bool) (alt : AltBits) (frame : Bytes) (s : State) :
    Host.Outcome State Fault Refusal :=
  .next (ethFrame port sub fcsOk ⟨alt.altSeen, alt.echoAlt, fixRail⟩ frame s)

end Sys2Proof.Machine
end

