-- ==== Sys2Proof/Machine/Clock.lean ====
section
/-!
DEFINITION. What an idle cycle of the block does: the local counter (R23), frames and transactions that leave the Ethernet
and PCIe ports (R145, log entry 17), and the end of the wait before the rails are switched on (R447); collective packets whose turn has come leave (R140).
-/
namespace Sys2Proof.Machine

/-- One cycle of the clock the local counter runs on: CLK_SVC, or in Glimmer the 1 MHz oscillator, which adds 250;
without VDD_AON nothing counts (R23). -/
def count (s : State) : State :=
  { s with now := s.now + (if s.boot.run = .off then 0 else if s.pwr.st = .glimmer then 250 else 1) }

/-- An idle cycle. -/
def tick (s : State) : State :=
  railsBegin (tickPcx (when (fabricUp s) (fun s => tickEth (takeTurns s)) (when (awake s) (fun s => segsGo (copyRows s)) (count s))))

end Sys2Proof.Machine
end

