-- ==== Sys2Proof/Machine/Dispatch.lean ====
section
/-!
DEFINITION. The meaning of each command: one arm per constructor of Instr, each arm one direct call.
-/
namespace Sys2Proof.Machine

def exec (i : Instr) (s : State) : Host.Outcome State Fault Refusal :=
  match i with
  | .porstN low samples => Sys2Proof.Machine.execPorstN low samples s
  | .adpRstN low samples => Sys2Proof.Machine.execAdpRstN low samples s
  | .powerLoss => Sys2Proof.Machine.execPowerLoss s
  | .umbraResetHoldEnd => Sys2Proof.Machine.execUmbraResetHoldEnd s
  | .deviceReset f q => Sys2Proof.Machine.execDeviceReset f q s
  | .bootStageDone info => Sys2Proof.Machine.execBootStageDone info s
  | .registerWrite page off width value => Sys2Proof.Machine.execRegisterWrite page off width value s
  | .fetchGrant => Sys2Proof.Machine.execFetchGrant s
  | .fetchReadDone f rq q slots => Sys2Proof.Machine.execFetchReadDone f rq q slots s
  | .reread f rq q => Sys2Proof.Machine.execReread f rq q s
  | .queSqDoorbell f q v => Sys2Proof.Machine.execQueSqDoorbell f q v s
  | .push page q off len descs => Sys2Proof.Machine.execPush page q off len descs s
  | .descriptorAccept f rq q => Sys2Proof.Machine.execDescriptorAccept f rq q s
  | .progressRecord f rq q => Sys2Proof.Machine.execProgressRecord f rq q s
  | .eventEntry f rq q => Sys2Proof.Machine.execEventEntry f rq q s
  | .msixHoldExpiry f e => Sys2Proof.Machine.execMsixHoldExpiry f e s
  | .queEvrCons f e v => Sys2Proof.Machine.execQueEvrCons f e v s
  | .queEvrConsArm f e v => Sys2Proof.Machine.execQueEvrConsArm f e v s
  | .queRqDoorbell f q v => Sys2Proof.Machine.execQueRqDoorbell f q v s
  | .queueCreate f k q => Sys2Proof.Machine.execQueueCreate f k q s
  | .queueDestroy f k q => Sys2Proof.Machine.execQueueDestroy f k q s
  | .queueRestart f k q => Sys2Proof.Machine.execQueueRestart f k q s
  | .nop f q => Sys2Proof.Machine.execNop f q s
  | .write f q => Sys2Proof.Machine.execWrite f q s
  | .read f q => Sys2Proof.Machine.execRead f q s
  | .send f q => Sys2Proof.Machine.execSend f q s
  | .recv f q => Sys2Proof.Machine.execRecv f q s
  | .qpCreate f => Sys2Proof.Machine.execQpCreate f s
  | .qpConnect f => Sys2Proof.Machine.execQpConnect f s
  | .qpDestroy f => Sys2Proof.Machine.execQpDestroy f s
  | .qpQuery f => Sys2Proof.Machine.execQpQuery f s
  | .connect p => Sys2Proof.Machine.execConnect p s
  | .accept p => Sys2Proof.Machine.execAccept p s
  | .reject p => Sys2Proof.Machine.execReject p s
  | .connectRetry qpn => Sys2Proof.Machine.execConnectRetry qpn s
  | .writePacket p => Sys2Proof.Machine.execWritePacket p s
  | .sendPacket p => Sys2Proof.Machine.execSendPacket p s
  | .readReq p => Sys2Proof.Machine.execReadReq p s
  | .readResp p => Sys2Proof.Machine.execReadResp p s
  | .ack p => Sys2Proof.Machine.execAck p s
  | .nakRnr p => Sys2Proof.Machine.execNakRnr p s
  | .nakWait p => Sys2Proof.Machine.execNakWait p s
  | .nakHold p => Sys2Proof.Machine.execNakHold p s
  | .holdClear p => Sys2Proof.Machine.execHoldClear p s
  | .nakAccess p => Sys2Proof.Machine.execNakAccess p s
  | .nakNoConn p => Sys2Proof.Machine.execNakNoConn p s
  | .contextFetchDone qpn => Sys2Proof.Machine.execContextFetchDone qpn s
  | .packetSend qpn => Sys2Proof.Machine.execPacketSend qpn s
  | .sourceReadDone w bytes => Sys2Proof.Machine.execSourceReadDone w bytes s
  | .flushReadCompletion port halfB => Sys2Proof.Machine.execFlushReadCompletion port halfB s
  | .memWriteComplete => Sys2Proof.Machine.execMemWriteComplete s
  | .mirrorWriteDone k => Sys2Proof.Machine.execMirrorWriteDone k s
  | .resendTimeout qpn => Sys2Proof.Machine.execResendTimeout qpn s
  | .rnrBackoffEnd qpn => Sys2Proof.Machine.execRnrBackoffEnd qpn s
  | .nakWaitResend qpn => Sys2Proof.Machine.execNakWaitResend qpn s
  | .holdResend qpn => Sys2Proof.Machine.execHoldResend qpn s
  | .holdLimit qpn => Sys2Proof.Machine.execHoldLimit qpn s
  | .ratePeriod qpn => Sys2Proof.Machine.execRatePeriod qpn s
  | .wheelSlot => Sys2Proof.Machine.execWheelSlot s
  | .groupCreate f q members send reduce recv => Sys2Proof.Machine.execGroupCreate f q members send reduce recv s
  | .groupDestroy f q => Sys2Proof.Machine.execGroupDestroy f q s
  | .groupQuery f q => Sys2Proof.Machine.execGroupQuery f q s
  | .groupSetupResend gid => Sys2Proof.Machine.execGroupSetupResend gid s
  | .setupExpiry gid => Sys2Proof.Machine.execSetupExpiry gid s
  | .teardownResend gid => Sys2Proof.Machine.execTeardownResend gid s
  | .barrier f q => Sys2Proof.Machine.execBarrier f q s
  | .allreduce f q => Sys2Proof.Machine.execAllreduce f q s
  | .reduce f q => Sys2Proof.Machine.execReduce f q s
  | .reduceScatter f q => Sys2Proof.Machine.execReduceScatter f q s
  | .broadcast f q => Sys2Proof.Machine.execBroadcast f q s
  | .allgather f q => Sys2Proof.Machine.execAllgather f q s
  | .gather f q => Sys2Proof.Machine.execGather f q s
  | .scatter f q => Sys2Proof.Machine.execScatter f q s
  | .alltoall f q => Sys2Proof.Machine.execAlltoall f q s
  | .gatherv f q aux => Sys2Proof.Machine.execGatherv f q aux s
  | .alltoallv f q aux => Sys2Proof.Machine.execAlltoallv f q aux s
  | .expertDispatch f q aux => Sys2Proof.Machine.execExpertDispatch f q aux s
  | .expertCombine f q aux => Sys2Proof.Machine.execExpertCombine f q aux s
  | .cdata p => Sys2Proof.Machine.execCdata p s
  | .counts p => Sys2Proof.Machine.execCounts p s
  | .capacityFlag p => Sys2Proof.Machine.execCapacityFlag p s
  | .anchorPass p => Sys2Proof.Machine.execAnchorPass p s
  | .cconf p => Sys2Proof.Machine.execCconf p s
  | .ccommit p => Sys2Proof.Machine.execCcommit p s
  | .resend p => Sys2Proof.Machine.execResend p s
  | .abort p => Sys2Proof.Machine.execAbort p s
  | .rollback p => Sys2Proof.Machine.execRollback p s
  | .gone p => Sys2Proof.Machine.execGone p s
  | .held p => Sys2Proof.Machine.execHeld p s
  | .setup p attr => Sys2Proof.Machine.execSetup p attr s
  | .setupOk p => Sys2Proof.Machine.execSetupOk p s
  | .refuse p => Sys2Proof.Machine.execRefuse p s
  | .activate p => Sys2Proof.Machine.execActivate p s
  | .activeOk p => Sys2Proof.Machine.execActiveOk p s
  | .teardown p => Sys2Proof.Machine.execTeardown p s
  | .confResend gid => Sys2Proof.Machine.execConfResend gid s
  | .chunkResendRequest gid chunk => Sys2Proof.Machine.execChunkResendRequest gid chunk s
  | .collHoldLimit gid => Sys2Proof.Machine.execCollHoldLimit gid s
  | .prismChunkDone gid chunk => Sys2Proof.Machine.execPrismChunkDone gid chunk s
  | .residueError cluster lane slice other => Sys2Proof.Machine.execResidueError cluster lane slice other s
  | .residueWindow => Sys2Proof.Machine.execResidueWindow s
  | .signalDetect n => Sys2Proof.Machine.execSignalDetect n s
  | .detectProbe n => Sys2Proof.Machine.execDetectProbe n s
  | .equalizationDone n => Sys2Proof.Machine.execEqualizationDone n s
  | .trainTimeout n => Sys2Proof.Machine.execTrainTimeout n s
  | .lockAndDeskew n => Sys2Proof.Machine.execLockAndDeskew n s
  | .alignTimeout n => Sys2Proof.Machine.execAlignTimeout n s
  | .farLinkWord n lw => Sys2Proof.Machine.execFarLinkWord n lw s
  | .exchangeTimeout n => Sys2Proof.Machine.execExchangeTimeout n s
  | .lossOfLock n => Sys2Proof.Machine.execLossOfLock n s
  | .svlLnkCtrlRetrain n => Sys2Proof.Machine.execSvlLnkCtrlRetrain n s
  | .miswireHoldEnd n => Sys2Proof.Machine.execMiswireHoldEnd n s
  | .lpreqRequestSleep n => Sys2Proof.Machine.execLpreqRequestSleep n s
  | .lpreqGrantSleep n => Sys2Proof.Machine.execLpreqGrantSleep n s
  | .lpreqWake n sent => Sys2Proof.Machine.execLpreqWake n sent s
  | .flit n uncorrectable corrected fields fcrc payload => Sys2Proof.Machine.execFlit n uncorrectable corrected fields fcrc payload s
  | .replayTimer n => Sys2Proof.Machine.execReplayTimer n s
  | .fecWindow n => Sys2Proof.Machine.execFecWindow n s
  | .ring m => Sys2Proof.Machine.execRing m s
  | .ringRefresh => Sys2Proof.Machine.execRingRefresh s
  | .noroute m => Sys2Proof.Machine.execNoroute m s
  | .gwShunExpiry pod => Sys2Proof.Machine.execGwShunExpiry pod s
  | .segmentWrite f => Sys2Proof.Machine.execSegmentWrite f s
  | .segmentInvalidate f => Sys2Proof.Machine.execSegmentInvalidate f s
  | .segmentRead f => Sys2Proof.Machine.execSegmentRead f s
  | .translationMissDone st => Sys2Proof.Machine.execTranslationMissDone st s
  | .faultReraise => Sys2Proof.Machine.execFaultReraise s
  | .fltResume f v => Sys2Proof.Machine.execFltResume f v s
  | .fltCfgWrite f v => Sys2Proof.Machine.execFltCfgWrite f v s
  | .fltCons f v => Sys2Proof.Machine.execFltCons f v s
  | .fltArm f v => Sys2Proof.Machine.execFltArm f v s
  | .tileMigrate f q => Sys2Proof.Machine.execTileMigrate f q s
  | .tileMap f q => Sys2Proof.Machine.execTileMap f q s
  | .migrationBegin => Sys2Proof.Machine.execMigrationBegin s
  | .migrationDrained facet seg tile => Sys2Proof.Machine.execMigrationDrained facet seg tile s
  | .migrationCopyDone facet seg tile bytes => Sys2Proof.Machine.execMigrationCopyDone facet seg tile bytes s
  | .channelCopyDone => Sys2Proof.Machine.execChannelCopyDone s
  | .portDown port halfB => Sys2Proof.Machine.execPortDown port halfB s
  | .dlUp port halfB speed width flit => Sys2Proof.Machine.execDlUp port halfB speed width flit s
  | .pcxAttachEpoch f => Sys2Proof.Machine.execPcxAttachEpoch f s
  | .pcxDevPort f p => Sys2Proof.Machine.execPcxDevPort f p s
  | .pcxDevPortB f k => Sys2Proof.Machine.execPcxDevPortB f k s
  | .busMasterEnable f on => Sys2Proof.Machine.execBusMasterEnable f on s
  | .upstreamReset => Sys2Proof.Machine.execUpstreamReset s
  | .bridgeConfigWrite place r lo hi => Sys2Proof.Machine.execBridgeConfigWrite place r lo hi s
  | .flr f => Sys2Proof.Machine.execFlr f s
  | .portReadError port halfB kind addr what => Sys2Proof.Machine.execPortReadError port halfB kind addr what s
  | .flushRetry port halfB => Sys2Proof.Machine.execFlushRetry port halfB s
  | .move f q => Sys2Proof.Machine.execMove f q s
  | .moveChannelGrant => Sys2Proof.Machine.execMoveChannelGrant s
  | .dmaReq n rising => Sys2Proof.Machine.execDmaReq n rising s
  | .movFacReq f v => Sys2Proof.Machine.execMovFacReq f v s
  | .movFacPendClear f v => Sys2Proof.Machine.execMovFacPendClear f v s
  | .movBuserr port halfB kind addr => Sys2Proof.Machine.execMovBuserr port halfB kind addr s
  | .movDevCtrlResume f => Sys2Proof.Machine.execMovDevCtrlResume f s
  | .movDevCtrlAbort f => Sys2Proof.Machine.execMovDevCtrlAbort f s
  | .facetResize f q record => Sys2Proof.Machine.execFacetResize f q record s
  | .facetReset f q => Sys2Proof.Machine.execFacetReset f q s
  | .facetResetAdvance f => Sys2Proof.Machine.execFacetResetAdvance f s
  | .cipKeyLoad f => Sys2Proof.Machine.execCipKeyLoad f s
  | .cipKeyClear f => Sys2Proof.Machine.execCipKeyClear f s
  | .cipKeySwitch f => Sys2Proof.Machine.execCipKeySwitch f s
  | .cipKeyQuery f => Sys2Proof.Machine.execCipKeyQuery f s
  | .cbcEncrypt f v => Sys2Proof.Machine.execCbcEncrypt f v s
  | .cbcDecrypt f v => Sys2Proof.Machine.execCbcDecrypt f v s
  | .ctr f v => Sys2Proof.Machine.execCtr f v s
  | .cipherJobDone core bytes => Sys2Proof.Machine.execCipherJobDone core bytes s
  | .trustAttReport f => Sys2Proof.Machine.execTrustAttReport f s
  | .trustAttCertificate f => Sys2Proof.Machine.execTrustAttCertificate f s
  | .reportSigned => Sys2Proof.Machine.execReportSigned s
  | .trustDevExtCmd f v => Sys2Proof.Machine.execTrustDevExtCmd f v s
  | .entropyReady => Sys2Proof.Machine.execEntropyReady s
  | .drbgReseed => Sys2Proof.Machine.execDrbgReseed s
  | .maskRekey core => Sys2Proof.Machine.execMaskRekey core s
  | .ethFrame port sub fcsOk fixRail alt frame => Sys2Proof.Machine.execEthFrame port sub fcsOk fixRail alt frame s
  | .ethLinkUp port sub => Sys2Proof.Machine.execEthLinkUp port sub s
  | .ethLinkDown port sub => Sys2Proof.Machine.execEthLinkDown port sub s
  | .ethSend f q header => Sys2Proof.Machine.execEthSend f q header s
  | .ethFrameSent f q idx => Sys2Proof.Machine.execEthFrameSent f q idx s
  | .errorEvent source unit info0 facet => Sys2Proof.Machine.execErrorEvent source unit info0 facet s
  | .self => Sys2Proof.Machine.execSelf s
  | .errDevForce f v => Sys2Proof.Machine.execErrDevForce f v s
  | .unitFence f q => Sys2Proof.Machine.execUnitFence f q s
  | .unitUnfence f q => Sys2Proof.Machine.execUnitUnfence f q s
  | .fenceWindow => Sys2Proof.Machine.execFenceWindow s
  | .dumpWritten => Sys2Proof.Machine.execDumpWritten s
  | .hostCopyDone ok => Sys2Proof.Machine.execHostCopyDone ok s
  | .aglSel f v => Sys2Proof.Machine.execAglSel f v s
  | .agentWatchdog a => Sys2Proof.Machine.execAgentWatchdog a s
  | .agentTrap a => Sys2Proof.Machine.execAgentTrap a s
  | .lanDevKick core v => Sys2Proof.Machine.execLanDevKick core v s
  | .restIdle => Sys2Proof.Machine.execRestIdle s
  | .restEntryStep => Sys2Proof.Machine.execRestEntryStep s
  | .holdActiveWrite f v => Sys2Proof.Machine.execHoldActiveWrite f v s
  | .glimmerIdle => Sys2Proof.Machine.execGlimmerIdle s
  | .glimmerEntryDone => Sys2Proof.Machine.execGlimmerEntryDone s
  | .wakeInput w => Sys2Proof.Machine.execWakeInput w s
  | .sampleCycle r => Sys2Proof.Machine.execSampleCycle r s
  | .wakeUpTimeout => Sys2Proof.Machine.execWakeUpTimeout s
  | .powerGood rail => Sys2Proof.Machine.execPowerGood rail s
  | .railTimeout rail => Sys2Proof.Machine.execRailTimeout rail s
  | .railOff rail => Sys2Proof.Machine.execRailOff rail s
  | .avsTrim vcore vsram coreOk sramOk => Sys2Proof.Machine.execAvsTrim vcore vsram coreOk sramOk s
  | .coolingPeriod r => Sys2Proof.Machine.execCoolingPeriod r s
  | .powerOn part => Sys2Proof.Machine.execPowerOn part s
  | .railSequenceRetry => Sys2Proof.Machine.execRailSequenceRetry s
  | .prismPowerUp => Sys2Proof.Machine.execPrismPowerUp s
  | .channelUnfenceCopyDone => Sys2Proof.Machine.execChannelUnfenceCopyDone s
  | .scanTestEntry => Sys2Proof.Machine.execScanTestEntry s
  | .msixEnable f => Sys2Proof.Machine.execMsixEnable f s
  | .peerRequest port halfB reqBus dest isWrite bytes => Sys2Proof.Machine.execPeerRequest port halfB reqBus dest isWrite bytes s
  | .windowWrite w bytes => Sys2Proof.Machine.execWindowWrite w bytes s

end Sys2Proof.Machine
end

