-- ==== Sys2Proof/Safety.lean ====
section
/-!
DEFINITION. What statements say about states: the parts of the state, which parts two states agree on, when a state is
sound, and when a command completes.
-/
namespace Sys2Proof.Machine

/-- The parts of the adapter's state: the fields of `State`. -/
inductive Part where
  | pending | part | now | free | out | mem | regs | facets | arb | qps | zrt | wheel | mirror | groups | grp | prism
  | fab | xlt | memc | pcx | mov | cip | trust | eth | agl | err | boot | pwr | thm
deriving DecidableEq, Repr

/-- Two states agree on a part. -/
def Same (p : Part) (s t : State) : Prop :=
  match p with
  | .pending => t.pending = s.pending
  | .part => t.part = s.part
  | .now => t.now = s.now
  | .free => t.free = s.free
  | .out => t.out = s.out
  | .mem => t.mem = s.mem
  | .regs => t.regs = s.regs
  | .facets => t.facets = s.facets
  | .arb => t.arb = s.arb
  | .qps => t.qps = s.qps
  | .zrt => t.zrt = s.zrt
  | .wheel => t.wheel = s.wheel
  | .mirror => t.mirror = s.mirror
  | .groups => t.groups = s.groups
  | .grp => t.grp = s.grp
  | .prism => t.prism = s.prism
  | .fab => t.fab = s.fab
  | .xlt => t.xlt = s.xlt
  | .memc => t.memc = s.memc
  | .pcx => t.pcx = s.pcx
  | .mov => t.mov = s.mov
  | .cip => t.cip = s.cip
  | .trust => t.trust = s.trust
  | .eth => t.eth = s.eth
  | .agl => t.agl = s.agl
  | .err => t.err = s.err
  | .boot => t.boot = s.boot
  | .pwr => t.pwr = s.pwr
  | .thm => t.thm = s.thm

/-- `t` differs from `s` at most in the parts `ps`: every part that is not listed is what it was. -/
def Only (ps : List Part) (s t : State) : Prop := ∀ p, p ∉ ps → Same p s t

/-- Every listed part of `t` is what it was in `s`. -/
def Kept (ps : List Part) (s t : State) : Prop := ∀ p, p ∈ ps → Same p s t

/-- A state is sound: its memory has the canonical form (addresses strictly rising, no cell that holds what an unlisted
address reads as). -/
def Sound (s : State) : Prop := memWf s.mem = true

/-- The command completes: it answers a next state. -/
def Completes (c : Instr) (s : State) : Prop := ∃ t, exec c s = .next t

/-- A packet arrives whole: its ICRC is right and its header passes (R99, R347). -/
def Whole (p : Packet) : Prop := p.icrc = icrcOf p ∧ headerOk p = true

/-- A whole packet reaches QP n in the clear: the QP is connected, its context is resident, the connection tag is its
own, and neither it nor the packet is enciphered. -/
def Reaches (n : Nat) (p : Packet) (s : State) : Prop :=
  Whole p ∧ fabricUp s = true ∧ p.bth.dstQpn.toNat = n ∧ p.bth.ciph = false ∧
  (let t := noteArrival (epAdapter p.bth.srcEp) s
   restoring t = false ∧ t.zrt.resident.contains n = true ∧ (getQp t n).connected = true ∧
   p.bth.ctag = (getQp t n).ctag ∧ (getQp t n).cipher = false)

/-- What the transport sees when a packet has reached QP n: the arrival is noted and the context is the last used. -/
def atQp (n : Nat) (p : Packet) (s : State) : State := makeCtx n (noteArrival (epAdapter p.bth.srcEp) s)

/-- What an answer's ACK_PSN, SACK, SCOMP, TRUNC_MAP and CE_ECHO do, before its syndrome (R112). -/
def afterAnswer (n : Nat) (p : Packet) (s : State) : State :=
  match p.ext with
  | .aeth ackPsn _ ceEcho _ scomp trunc _ sack _ _ =>
    takeAnswer n ackPsn ceEcho scomp trunc sack (p.rh.altSeen || p.rh.echoAlt) (atQp n p s)
  | _ => s

/-- The NAK_PSN of an answer. -/
def nakPsnOf (p : Packet) : U32 := match p.ext with | .aeth _ _ _ _ _ _ _ _ x _ => x | _ => 0

/-- What a collective packet meets: its arrival is noted and Rest ends. -/
def heard (p : Packet) (s : State) : State := restWake (noteArrival (epAdapter p.bth.srcEp) s)

/-- A whole packet reaches group `gid`, which this adapter holds with the packet's group tag. -/
def ToGroup (gid : Nat) (p : Packet) (s : State) : Prop :=
  Whole p ∧ fabricUp s = true ∧ gidOf p.ext = gid ∧
  (let t := heard p s
   restoring t = false ∧ (getG t gid).st ≠ .free ∧ (getG t gid).attr.gtag = p.bth.ctag)

/-- The packet is of the running collective `r` of its group, with its signature. -/
def ToRun (gid : Nat) (r : Coll) (p : Packet) (s : State) : Prop :=
  ToGroup gid p s ∧ getRun (heard p s) gid = some r ∧ r.csn = p.bth.msn ∧ sigOf p.ext = r.sig

/-- The parts of the state that each command may change. -/
def touches : Instr → List Part
  | .qpQuery .. | .segmentRead .. =>
    [.facets]
  | .rnrBackoffEnd .. | .nakWaitResend .. | .holdResend .. | .ratePeriod .. =>
    [.qps]
  | .residueWindow =>
    [.prism]
  | .gwShunExpiry .. =>
    [.fab]
  | .fltCons .. =>
    [.xlt]
  | .channelCopyDone =>
    [.memc]
  | .flushRetry .. =>
    [.pcx]
  | .trustDevExtCmd .. | .drbgReseed =>
    [.trust]
  | .ethLinkUp .. =>
    [.eth]
  | .fenceWindow =>
    [.err]
  | .aglSel .. =>
    [.agl]
  | .lanDevKick .. =>
    [.boot]
  | .wakeInput .. =>
    [.pwr]
  | .reread .. | .msixHoldExpiry .. | .msixEnable .. =>
    [.facets, .pcx]
  | .resendTimeout .. =>
    [.facets, .qps]
  | .setupExpiry .. =>
    [.groups, .prism]
  | .noroute .. =>
    [.qps, .fab]
  | .movFacPendClear .. =>
    [.facets, .mov]
  | .wakeUpTimeout | .railOff .. | .avsTrim .. =>
    [.out, .pwr]
  | .powerOn .. =>
    [.now, .boot]
  | .peerRequest .. =>
    [.out, .pcx]
  | .fetchGrant =>
    [.facets, .arb, .pcx]
  | .ring .. | .ringRefresh =>
    [.out, .fab, .pwr]
  | .fltCfgWrite .. | .fltArm .. =>
    [.facets, .xlt, .pcx]
  | .cbcEncrypt .. | .cbcDecrypt .. | .ctr .. =>
    [.facets, .pcx, .cip]
  | .trustAttReport .. | .trustAttCertificate .. =>
    [.free, .facets, .trust]
  | .maskRekey .. =>
    [.free, .cip, .trust]
  | .self =>
    [.out, .agl, .err]
  | .restEntryStep =>
    [.prism, .fab, .pwr]
  | .powerGood .. | .railSequenceRetry =>
    [.out, .boot, .pwr]
  | .scanTestEntry =>
    [.facets, .cip, .trust]
  | .progressRecord .. | .eventEntry .. | .queEvrCons .. | .queEvrConsArm .. | .windowWrite .. =>
    [.mem, .facets, .memc, .pcx]
  | .dlUp .. =>
    [.out, .facets, .pcx, .pwr]
  | .restIdle | .holdActiveWrite .. =>
    [.out, .prism, .fab, .pwr]
  | .glimmerIdle =>
    [.out, .fab, .boot, .pwr]
  | .railTimeout .. =>
    [.out, .boot, .pwr, .thm]
  | .coolingPeriod .. =>
    [.out, .agl, .err, .thm]
  | .queSqDoorbell .. | .push .. | .queRqDoorbell .. | .queueCreate .. | .queueRestart .. | .nop .. | .recv .. =>
    [.mem, .facets, .mirror, .memc, .pcx]
  | .dumpWritten =>
    [.free, .mem, .memc, .agl, .err]
  | .hostCopyDone .. =>
    [.out, .mem, .memc, .agl, .err]
  | .deviceReset .. =>
    [.mem, .facets, .mirror, .memc, .pcx, .boot]
  | .descriptorAccept .. =>
    [.mem, .facets, .arb, .mirror, .memc, .pcx]
  | .queueDestroy .. | .flr .. | .move .. | .facetReset .. =>
    [.mem, .facets, .mirror, .memc, .pcx, .mov]
  | .write .. | .read .. | .send .. =>
    [.mem, .facets, .qps, .mirror, .memc, .pcx]
  | .qpCreate .. =>
    [.free, .facets, .qps, .zrt, .mirror, .trust]
  | .qpConnect .. | .connectRetry .. =>
    [.out, .facets, .qps, .fab, .eth, .pwr]
  | .segmentWrite .. | .segmentInvalidate .. | .tileMigrate .. | .tileMap .. | .migrationBegin =>
    [.mem, .facets, .mirror, .xlt, .memc, .pcx]
  | .cipKeyLoad .. | .cipKeyClear .. | .cipKeySwitch .. | .cipKeyQuery .. =>
    [.facets, .qps, .zrt, .mirror, .pcx, .cip]
  | .reportSigned =>
    [.free, .mem, .facets, .memc, .pcx, .trust]
  | .ethLinkDown .. =>
    [.mem, .facets, .mirror, .memc, .pcx, .eth]
  | .agentWatchdog .. | .agentTrap .. =>
    [.mem, .memc, .trust, .agl, .err, .boot]
  | .holdLimit .. =>
    [.mem, .facets, .qps, .mirror, .xlt, .memc, .pcx]
  | .wheelSlot =>
    [.out, .facets, .arb, .wheel, .fab, .eth, .pwr]
  | .groupQuery .. =>
    [.free, .mem, .facets, .mirror, .xlt, .memc, .pcx]
  | .confResend .. | .chunkResendRequest .. =>
    [.out, .facets, .arb, .groups, .fab, .eth, .pwr]
  | .movDevCtrlAbort .. =>
    [.mem, .facets, .mirror, .xlt, .memc, .pcx, .mov]
  | .ethFrameSent .. =>
    [.out, .mem, .facets, .mirror, .memc, .pcx, .eth]
  | .channelUnfenceCopyDone =>
    [.mem, .facets, .mirror, .memc, .pcx, .agl, .err]
  | .qpDestroy .. =>
    [.mem, .facets, .qps, .zrt, .mirror, .xlt, .memc, .pcx]
  | .signalDetect .. | .detectProbe .. | .equalizationDone .. | .trainTimeout .. | .lockAndDeskew ..
  | .alignTimeout .. | .exchangeTimeout .. | .miswireHoldEnd .. | .lpreqRequestSleep .. | .lpreqGrantSleep ..
  | .lpreqWake .. | .fecWindow .. =>
    [.out, .facets, .arb, .groups, .grp, .fab, .eth, .pwr]
  | .moveChannelGrant | .dmaReq .. | .movFacReq .. | .movDevCtrlResume .. =>
    [.free, .mem, .facets, .mirror, .xlt, .memc, .pcx, .mov]
  | .entropyReady =>
    [.free, .facets, .qps, .zrt, .mirror, .pcx, .cip, .trust]
  | .ethSend .. =>
    [.free, .mem, .facets, .mirror, .xlt, .memc, .pcx, .eth]
  | .connect .. =>
    [.out, .qps, .zrt, .mirror, .fab, .pcx, .cip, .eth, .pwr]
  | .facetResetAdvance .. =>
    [.mem, .facets, .qps, .zrt, .mirror, .xlt, .memc, .pcx, .eth]
  | .accept .. | .reject .. =>
    [.out, .facets, .qps, .zrt, .mirror, .fab, .pcx, .cip, .eth, .pwr]
  | .setup .. | .activate .. =>
    [.out, .facets, .arb, .qps, .zrt, .groups, .prism, .fab, .eth, .pwr]
  | .farLinkWord .. | .lossOfLock .. | .svlLnkCtrlRetrain .. | .flit .. | .replayTimer .. =>
    [.out, .facets, .arb, .groups, .grp, .fab, .eth, .agl, .err, .pwr]
  | .groupSetupResend .. | .teardownResend .. =>
    [.out, .mem, .facets, .arb, .mirror, .grp, .fab, .memc, .pcx, .eth, .pwr]
  | .resend .. =>
    [.out, .facets, .arb, .qps, .zrt, .groups, .grp, .prism, .fab, .eth, .pwr]
  | .ethFrame .. =>
    [.free, .out, .mem, .facets, .mirror, .fab, .xlt, .memc, .pcx, .eth, .pwr]
  | .groupDestroy .. =>
    [.out, .mem, .facets, .arb, .mirror, .groups, .grp, .prism, .fab, .memc, .pcx, .eth, .pwr]
  | .collHoldLimit .. =>
    [.out, .mem, .facets, .arb, .mirror, .groups, .prism, .fab, .xlt, .memc, .pcx, .eth, .pwr]
  | .writePacket .. | .sendPacket .. | .readReq .. | .readResp .. | .ack .. | .nakRnr .. | .nakWait ..
  | .nakHold .. | .holdClear .. | .nakAccess .. | .nakNoConn .. | .contextFetchDone .. =>
    [.free, .out, .mem, .facets, .qps, .zrt, .mirror, .fab, .xlt, .memc, .pcx, .cip, .eth, .pwr]
  | .mirrorWriteDone .. =>
    [.free, .out, .mem, .facets, .qps, .mirror, .fab, .xlt, .memc, .pcx, .mov, .cip, .eth, .pwr]
  | .setupOk .. | .refuse .. | .activeOk .. =>
    [.out, .mem, .facets, .arb, .qps, .zrt, .mirror, .grp, .prism, .fab, .memc, .pcx, .eth, .pwr]
  | .teardown .. =>
    [.out, .mem, .facets, .arb, .qps, .zrt, .mirror, .groups, .prism, .fab, .memc, .pcx, .eth, .pwr]
  | .facetResize .. =>
    [.free, .out, .mem, .facets, .arb, .mirror, .fab, .xlt, .memc, .pcx, .eth, .agl, .err, .pwr]
  | .packetSend .. =>
    [.free, .out, .mem, .facets, .arb, .qps, .zrt, .mirror, .fab, .xlt, .memc, .pcx, .cip, .eth, .pwr]
  | .barrier .. | .allreduce .. | .reduce .. | .reduceScatter .. | .broadcast .. | .allgather .. | .gather ..
  | .scatter .. | .alltoall .. | .prismPowerUp =>
    [.free, .out, .mem, .facets, .arb, .mirror, .groups, .grp, .prism, .fab, .xlt, .memc, .pcx, .eth, .pwr]
  | .groupCreate .. =>
    [.free, .out, .mem, .facets, .arb, .mirror, .grp, .fab, .xlt, .memc, .pcx, .trust, .eth, .agl, .err, .pwr]
  | .gone .. =>
    [.out, .mem, .facets, .arb, .qps, .zrt, .mirror, .groups, .grp, .prism, .fab, .xlt, .memc, .pcx, .eth, .pwr]
  | .gatherv .. | .alltoallv .. | .expertDispatch .. | .expertCombine .. | .prismChunkDone .. | .residueError .. =>
    [.free, .out, .mem, .facets, .arb, .mirror, .groups, .grp, .prism, .fab, .xlt, .memc, .pcx, .eth, .agl, .err,
     .pwr]
  | .cdata .. | .counts .. | .capacityFlag .. | .anchorPass .. | .cconf .. | .ccommit .. | .abort ..
  | .rollback .. | .held .. =>
    [.free, .out, .mem, .facets, .arb, .qps, .zrt, .mirror, .groups, .grp, .prism, .fab, .xlt, .memc, .pcx, .eth,
     .pwr]
  | .translationMissDone .. | .faultReraise | .fltResume .. | .migrationDrained .. | .pcxAttachEpoch ..
  | .pcxDevPort .. | .pcxDevPortB .. | .busMasterEnable .. =>
    [.free, .out, .mem, .facets, .arb, .qps, .mirror, .groups, .grp, .prism, .fab, .xlt, .memc, .pcx, .mov, .cip,
     .eth, .pwr]
  | .portDown .. | .upstreamReset | .bridgeConfigWrite .. =>
    [.free, .out, .mem, .facets, .arb, .qps, .zrt, .mirror, .groups, .grp, .prism, .fab, .xlt, .memc, .pcx, .mov,
     .cip, .eth, .pwr]
  | .unitFence .. | .unitUnfence .. =>
    [.free, .out, .mem, .facets, .arb, .mirror, .groups, .grp, .prism, .fab, .xlt, .memc, .pcx, .trust, .eth, .agl,
     .err, .boot, .pwr]
  | .movBuserr .. =>
    [.free, .out, .mem, .facets, .arb, .qps, .mirror, .groups, .grp, .prism, .fab, .xlt, .memc, .pcx, .mov, .cip,
     .eth, .agl, .err, .pwr]
  | .fetchReadDone .. | .sourceReadDone .. | .migrationCopyDone .. | .portReadError .. | .cipherJobDone .. =>
    [.free, .out, .mem, .facets, .arb, .qps, .zrt, .mirror, .groups, .grp, .prism, .fab, .xlt, .memc, .pcx, .mov,
     .cip, .eth, .agl, .err, .pwr]
  | .errorEvent .. | .errDevForce .. =>
    [.free, .out, .mem, .facets, .arb, .qps, .zrt, .mirror, .groups, .grp, .prism, .fab, .xlt, .memc, .pcx, .mov,
     .cip, .trust, .eth, .agl, .err, .boot, .pwr]
  | .glimmerEntryDone | .sampleCycle .. =>
    [.out, .regs, .facets, .arb, .qps, .zrt, .wheel, .mirror, .grp, .prism, .fab, .xlt, .memc, .pcx, .mov, .cip,
     .trust, .eth, .agl, .err, .boot, .pwr, .thm]
  | .registerWrite .. =>
    [.free, .out, .mem, .regs, .facets, .arb, .qps, .zrt, .mirror, .groups, .grp, .prism, .fab, .xlt, .memc, .pcx,
     .mov, .cip, .trust, .eth, .agl, .err, .boot, .pwr]
  | .bootStageDone .. =>
    [.free, .out, .mem, .regs, .facets, .arb, .qps, .zrt, .mirror, .groups, .grp, .prism, .fab, .xlt, .memc, .pcx,
     .mov, .cip, .trust, .eth, .agl, .err, .boot, .pwr, .thm]
  | .porstN .. | .adpRstN .. | .powerLoss | .umbraResetHoldEnd =>
    [.now, .out, .mem, .regs, .facets, .arb, .qps, .zrt, .wheel, .mirror, .groups, .grp, .prism, .fab, .xlt, .memc,
     .pcx, .mov, .cip, .trust, .eth, .agl, .err, .boot, .pwr, .thm]
  | .flushReadCompletion .. | .memWriteComplete =>
    [.now, .free, .out, .mem, .regs, .facets, .arb, .qps, .zrt, .wheel, .mirror, .groups, .grp, .prism, .fab, .xlt,
     .memc, .pcx, .mov, .cip, .trust, .eth, .agl, .err, .boot, .pwr, .thm]

end Sys2Proof.Machine
end

