-- ==== Sys2Proof/Certificates/Slice0/Obligations.lean ====
section
/-!
DEFINITION. The statements about the adapter, one proposition each, for the provers.
-/
open Sys2Proof Sys2Proof.Machine

/-- A step takes the command at the front of the queue and runs it on the state with the queue's rest. For every
command and state: with that command at the front of the queue of waiting commands, step answers what exec answers for
it on the state whose queue is the rest. (That commands wait in a queue is the model's, log entry 4.) -/
def Obligations.StepRunsTheCommandInFront : Prop :=
  ∀ (c : Instr) (rest : List Instr) (s : State), s.pending = c :: rest → step s = exec c { s with pending := rest }

/-- A step on an empty queue is one cycle of the local counter (the model's choice, log entry 3). With no command
waiting, step answers a next state in which the local counter is one higher, 250 higher in Glimmer, and unchanged
without VDD_AON, and in which no command waits. -/
def Obligations.AnIdleStepLetsACyclePass : Prop :=
  ∀ (s : State), s.pending = [] → ∃ t, step s = .next t ∧ t.pending = [] ∧
    t.now = s.now + (if s.boot.run = .off then 0 else if s.pwr.st = .glimmer then 250 else 1)

/-- What State.reset holds. Right after a cold reset no command waits, boot stage 0 runs without the boot lock, the
device is in no safe state, memory lists nothing, every device register shows its reset value, every queue is
DISABLED, every QP and group is free, and facet 0 is ON, every other facet OFF. (The part and the rails are the
model's, log entry 1; that facet 0 is ON is log entry 15.) -/
def Obligations.ResetLeavesABootingAdapter : Prop :=
  Sound State.reset ∧ State.reset.pending = [] ∧ State.reset.boot.run = .boot ∧ State.reset.boot.stage = 0 ∧
  State.reset.boot.locked = false ∧ State.reset.err.mode = .normal ∧ State.reset.mem = [] ∧
  (∀ off, reg State.reset off = regReset off) ∧ reg State.reset 0xC100 = 0x185A4618 ∧
  (∀ f rq q, (getQ State.reset f rq q).st = .disabled) ∧ (∀ n, (getQp State.reset n).st = .free) ∧
  (∀ g, (getG State.reset g).st = .free) ∧ (getF State.reset 0).st = .on ∧ (∀ f, f ≠ 0 → (getF State.reset f).st = .off)

/-- Every step keeps the canonical form of the local memory. From every state whose memory has the canonical form
(addresses strictly rising, no cell that holds what an unlisted address reads as), a step that answers a next state
leaves memory in that form. (The form is the model's, log entry 5.) -/
def Obligations.EveryStepKeepsTheMemoryCanonical : Prop :=
  ∀ (s t : State), Sound s → step s = .next t → Sound t

/-- Every command changes at most the parts of the state that are its own. For every command and every state: the next
state that the command answers differs from the state before at most in the parts that `touches` lists for the
command; every other part, all its registers, queues, counters and flags, is what it was. -/
def Obligations.EveryCommandChangesOnlyItsParts : Prop :=
  ∀ (c : Instr) (s t : State), exec c s = .next t → Only (touches c) s t

/-- Every command answers a next state and leaves the waiting commands as they are. For every command and state exec
answers a next state, and the commands that wait are the same after it; and no command changes the part. (That no
command stops: a command that does not apply has no effect, log entry 8.) -/
def Obligations.NoCommandStopsOrTouchesTheQueue : Prop :=
  (∀ (c : Instr) (s : State), ∃ t, exec c s = .next t ∧ t.pending = s.pending) ∧
  (∀ (c : Instr) (s t : State), exec c s = .next t → t.part = s.part)

/-- Only register writes of the management facet's page, boot stages, resets and power changes alter a device
register. If a command changes the file of device registers it is a write that reaches the management facet's page (by
a base address register, by the facet's own function, or by an agent that holds the facet), the end of a boot stage, a
reset pin, a loss of power, the end of a held reset, the end of Glimmer entry or a sample cycle (a Glimmer exit), or a
confirmation that a DEVICE_RESET waits for. A register write that reaches another facet's page changes no device
register, group, error, boot or cooling state, and one that reaches no page changes nothing. -/
def Obligations.WhatChangesTheDeviceRegisters : Prop :=
  (∀ (c : Instr) (s t : State), exec c s = .next t → t.regs ≠ s.regs →
    (∃ a g o w v off, c = .registerWrite ⟨a, g⟩ o w v ∧ pageReach s a g o = some (0, off)) ∨ (∃ i, c = .bootStageDone i) ∨
    (∃ l n, c = .adpRstN l n) ∨ (∃ l n, c = .porstN l n) ∨ c = .powerLoss ∨ c = .umbraResetHoldEnd ∨
    c = .glimmerEntryDone ∨ (∃ r, c = .sampleCycle r) ∨ (∃ p h, c = .flushReadCompletion p h) ∨ c = .memWriteComplete) ∧
  (∀ (a : Source) (g o f off w : Nat) (v : U64) (s t : State), pageReach s a g o = some (f, off) → f ≠ 0 →
    exec (.registerWrite ⟨a, g⟩ o w v) s = .next t →
    Kept [.part, .now, .regs, .arb, .wheel, .groups, .grp, .prism, .agl, .err, .boot, .thm] s t) ∧
  (∀ (a : Source) (g o w : Nat) (v : U64) (s : State), pageReach s a g o = none →
    exec (.registerWrite ⟨a, g⟩ o w v) s = .next s)

/-- An arriving packet changes no register, mover, trust, error, boot or cooling state. Whatever packet of the
transport or of a collective arrives, and in whatever state: the device registers, the facet wheel, the mover, the
trust unit, Afterglow, the error state, the boot state, the cooling loop and the local counter are what they were. -/
def Obligations.WhatTheFabricBringsStaysInItsParts : Prop :=
  ∀ (p : Packet) (a : GroupAttr) (c : Instr),
    c ∈ ([.connect p, .accept p, .reject p, .writePacket p, .sendPacket p, .readReq p, .readResp p, .ack p, .nakRnr p,
      .nakWait p, .nakHold p, .holdClear p, .nakAccess p, .nakNoConn p, .cdata p, .counts p, .capacityFlag p,
      .anchorPass p, .cconf p, .ccommit p, .resend p, .abort p, .rollback p, .gone p, .held p, .setup p a, .setupOk p,
      .refuse p, .activate p, .activeOk p, .teardown p] : List Instr) →
    ∀ (s t : State), exec c s = .next t →
      Kept [.part, .now, .regs, .wheel, .mov, .trust, .agl, .err, .boot, .thm] s t

/-- A facet's queue commands change nothing of another facet. While no write to another facet's doorbells or push
pages is held up at the ports: doorbells, pushes that reach a page of facet f (whoever makes them), acceptance, re-
reads, progress records, event entries, consumer writes, creating and restarting a queue, and NOP of facet f leave
every other facet, its queues, rings and counters included, as it was. A push that reaches no facet's page changes
nothing. (Where another facet's write is held up, a queue command of f may make the room that write waits for: R55.)
-/
def Obligations.QueueCommandsLeaveOtherFacetsAlone : Prop :=
  (∀ (f g q : Nat) (rq : Bool) (k : QKind) (v : U32) (off len : Nat) (ds : List Desc) (c : Instr),
    c ∈ ([.queSqDoorbell f q v, .queRqDoorbell f q v, .push ⟨.bar, f⟩ q off len ds, .descriptorAccept f rq q, .reread f rq q,
      .progressRecord f rq q, .eventEntry f rq q, .msixHoldExpiry f q, .queEvrCons f q v, .queEvrConsArm f q v,
      .queueCreate f k q, .queueRestart f k q, .nop f q] : List Instr) →
    g ≠ f → ∀ (s t : State), (∀ w ∈ s.pcx.stuck, w.page.1 = f) → exec c s = .next t → getF t g = getF s g) ∧
  (∀ (a : Source) (h p o f q off g len : Nat) (ds : List Desc) (s t : State), pushReach s a h p o = some (f, q, off) →
    g ≠ f → (∀ w ∈ s.pcx.stuck, w.page.1 = f) → exec (.push ⟨a, h⟩ p o len ds) s = .next t → getF t g = getF s g) ∧
  (∀ (a : Source) (h p o len : Nat) (ds : List Desc) (s : State), pushReach s a h p o = none →
    exec (.push ⟨a, h⟩ p o len ds) s = .next s)

/-- A BAR4 window write and a progress record store their bytes and leave every other byte of memory. After a
WINDOW_WRITE of the BAR4 window a byte of local memory reads as the byte that the write put there, where the window
admits it, and otherwise as before; a write of the MSI-X area, by either path, leaves all of memory as it was. A due
PROGRESS_RECORD whose place lies in LPDDR5X leaves A in the four bytes at its address and H in the four after them,
every other byte as it was, and A and H published; one whose place lies behind a port leaves all of memory as it was.
-/
def Obligations.MemoryWritesStoreTheirBytesOnly : Prop :=
  (∀ (off : Nat) (bs : Bytes) (s : State), running s → off < 0x4000000 → ∃ t, exec (.windowWrite ⟨.bar, off⟩ bs) s = .next t ∧
    ∀ a, memByte t.mem a = (match (windowBytes s ((reg s 0xF4B0).toNat + off) bs).find? (fun x => decide (x.1 = a)) with
      | some x => x.2
      | none => memByte s.mem a)) ∧
  (∀ (off : Nat) (bs : Bytes) (s t : State), (0x4000000 ≤ off ∧ exec (.windowWrite ⟨.bar, off⟩ bs) s = .next t ∨
    ∃ f, exec (.windowWrite ⟨.vf f, off⟩ bs) s = .next t) → t.mem = s.mem) ∧
  (∀ (f q : Nat) (rq : Bool) (s : State), running s → recordDue s f rq q →
    (let x := getQ s f rq q
     let at_ := pinPlace s f x.progSeg x.progOff
     ∃ t, exec (.progressRecord f rq q) s = .next t ∧
      (at_.1 = 5 → (∀ i, i < 8 → memByte t.mem (at_.2.toNat + i) = (toLE 4 x.acc.toNat ++ toLE 4 x.head.toNat).getD i 0) ∧
        (∀ b, b < at_.2.toNat ∨ at_.2.toNat + 8 ≤ b → memByte t.mem b = memByte s.mem b) ∧
        (getQ t f rq q).pubAcc = x.acc ∧ (getQ t f rq q).pubHead = x.head) ∧
      (at_.1 ≠ 5 → t.mem = s.mem)))

/-- A 64-bit device register takes its writable bits from a write, until boot lock where it is RWL. A write of 8 bytes
that reaches the management facet's page, at a present 64-bit register that holds no behaviour of its own leaves it at
the value's writable bits, which a read then answers; a register with RWL fields keeps its value once the boot lock is
set; every other register keeps its value. -/
def Obligations.ADeviceRegisterKeepsWhatIsWritten : Prop :=
  ∀ (a : Source) (g o off : Nat) (v : U64) (r : RegSpec) (s : State), running s → (getF s 0).st = .on →
    pageReach s a g o = some (0, off) → off % 8 = 0 →
    regAt off = some r → r.wide → fileHere s off → facetView s 0 off = none →
    (let u := if r.rwl ∧ s.boot.locked then reg s off else v &&& BitVec.ofNat 64 r.mask
     ∃ t, exec (.registerWrite ⟨a, g⟩ o 8 v) s = .next t ∧ (∀ o, reg t o = if o = off then u else reg s o) ∧
       readReg t 0 off 8 = u)

/-- Registers of an absent cipher engine or Ethernet unit, and halves of whole registers, read as zero; writes are
ignored. On a part without a cipher engine every access to the cipher blocks of any facet's page, and on a part
without Ethernet every access to the Ethernet blocks of the management facet's page, reads zero and a write that
reaches it changes nothing. A read of 4 bytes of a 64-bit register that is not given in halves answers zero. -/
def Obligations.RegistersOfAnAbsentUnitReadZero : Prop :=
  (∀ (a : Source) (g o f off w : Nat) (v : U64) (s : State), hasCip s = false → 0xF800 ≤ off → off + w ≤ 0xF900 →
    readReg s f off w = 0 ∧ (pageReach s a g o = some (f, off) → exec (.registerWrite ⟨a, g⟩ o w v) s = .next s)) ∧
  (∀ (a : Source) (g o off w : Nat) (v : U64) (s : State), hasEth s 0 = false → hasEth s 1 = false →
    0x500 ≤ off → off + w ≤ 0x1000 →
    readReg s 0 off w = 0 ∧ (pageReach s a g o = some (0, off) → exec (.registerWrite ⟨a, g⟩ o w v) s = .next s)) ∧
  (∀ (f off : Nat) (r : RegView) (s : State), view s f off = some r → r.wide → r.acc ≠ .halves → readReg s f off 4 = 0)

/-- A doorbell of value v acts on d = v − P_dev. For an ACTIVE queue of an ON facet whose push page holds no earlier
write back: d = 0 has no effect; d of 0x8000_0000 or more increments QUE_STALE_DB; otherwise, if v − H exceeds the
size, the queue enters ERROR with OVERFLOW and the first index beyond the limit (R44); otherwise P_dev becomes v, and
the slots up to v may be fetched (those of an RQ at once, on demand). A doorbell behind a write that its push page
holds back waits with it (R55). -/
def Obligations.DoorbellsMoveTheProducerIndex : Prop :=
  (∀ (f q : Nat) (rq : Bool) (v : U32) (s : State), running s → facetOn s f → (getQ s f rq q).st = .active →
    (rq = false → pageStuck s f q = false) →
    (let x := getQ s f rq q
     let d := v - x.pDev
     let c : Instr := if rq then .queRqDoorbell f q v else .queSqDoorbell f q v
     (d = 0 → exec c s = .next s) ∧
     (d ≠ 0 → 0x80000000 ≤ d.toNat →
       exec c s = .next (modF f (fun y => { y with que := { y.que with staleDb := y.que.staleDb + 1 } }) s)) ∧
     (d ≠ 0 → d.toNat < 0x80000000 → x.size < (v - x.head).toNat →
       exec c s = .next (settleQueues f (enterError f rq q cOVERFLOW (x.head + BitVec.ofNat 32 x.size) s))) ∧
     (d ≠ 0 → d.toNat < 0x80000000 → (v - x.head).toNat ≤ x.size →
       exec c s = .next (if rq then rqFetch f q (modQ f rq q (fun x => { x with pDev := v }) s)
         else modQ f rq q (fun x => { x with pDev := v }) s)))) ∧
  (∀ (f q : Nat) (v : U32) (s : State), running s → pageStuck s f q →
    exec (.queSqDoorbell f q v) s = .next (stick (.bell f q v) s))

/-- A push or doorbell aimed at a queue that is not ACTIVE has no effect; the push is counted. A doorbell of an SQ or
RQ that is not ACTIVE leaves the state as it is. In a running device, a push that reaches a push window of a facet
that is not OFF, of an SQ that is not ACTIVE, changes nothing but QUE_PUSH_DISCARD, which is one higher. (Both with no
earlier write held back in front of the SQ's push page, R55.) -/
def Obligations.WritesToAnInactiveQueueHaveNoEffect : Prop :=
  (∀ (f q : Nat) (v : U32) (s : State), (getQ s f false q).st ≠ .active → pageStuck s f q = false →
    exec (.queSqDoorbell f q v) s = .next s) ∧
  (∀ (f q : Nat) (v : U32) (s : State), (getQ s f true q).st ≠ .active → exec (.queRqDoorbell f q v) s = .next s) ∧
  (∀ (a : Source) (g p o f q off len : Nat) (ds : List Desc) (s : State), running s →
    pushReach s a g p o = some (f, q, off) → (getF s f).st ≠ .off → off < 0x800 → pageStuck s f q = false →
    (getQ s f false q).st ≠ .active →
    exec (.push ⟨a, g⟩ p o len ds) s = .next (modF f (fun y => { y with que := { y.que with
      pushDiscard := y.que.pushDiscard + 1 } }) s))

/-- A consumer index write takes effect only within the entries written, and ARM arms the ring. In an ON facet of a
running device, for a ring within the allotment or ACTIVE: a write of v to QUE_EVR_CONS or QUE_EVR_CONS_ARM with v −
CONS above PROD − CONS leaves the state as it is; otherwise CONS becomes v, ARM sets ARMED, pending queues are looked
at with these values, and then the interrupt condition. -/
def Obligations.ConsumerIndexWrites : Prop :=
  ∀ (f e : Nat) (v : U32) (arm : Bool) (s : State), running s → facetOn s f → ringOpen s f e →
    (let r := getE s f e
     let c : Instr := if arm then .queEvrConsArm f e v else .queEvrCons f e v
     ((r.prod - r.cons).toNat < (v - r.cons).toNat → exec c s = .next s) ∧
     ((v - r.cons).toNat ≤ (r.prod - r.cons).toNat →
       ∃ t, exec c s = .next (msixCheck f e (pendingEntries f e t)) ∧ (getE t f e).cons = v ∧ (getE t f e).armed =
         (r.armed || arm) ∧ (getE t f e).prod = r.prod ∧ (∀ g, g ≠ f → getF t g = getF s g)))

/-- Which events are recorded, and REPEAT. An INFO, UC or FT event is recorded; a CE event is recorded unless one of
its source was recorded in the preceding 1 ms, and is then counted in AGL_SUPPRESSED; the next recorded CE event of
that source carries REPEAT (bit 41 of word 1) 1. -/
def Obligations.CorrectableEventsAreRecordedOncePerMillisecond : Prop :=
  ∀ (src cls unit : Nat) (forced : Bool) (a : U64) (b act : Nat) (fo : Option Nat) (s : State), src < 64 → cls < 4 →
    (let t := collect src cls unit forced a b act fo s
     let recent := ∃ u, agetq src s.agl.lastCe = some u ∧ elapsed s u (ms 1) = false
     (cls ≠ clsCE → t.agl.next = s.agl.next + 1 ∧ t.agl.suppressed = s.agl.suppressed ∧
       ∃ e, t.agl.events.getLast? = some (s.agl.next, e) ∧ bit e.w1 41 = false) ∧
     (cls = clsCE → recent → t.agl.next = s.agl.next ∧ t.agl.events = s.agl.events ∧
       t.agl.suppressed = s.agl.suppressed + 1 ∧ src ∈ t.agl.supp ∧ t.agl.lastCe = s.agl.lastCe) ∧
     (cls = clsCE → ¬ recent → t.agl.next = s.agl.next + 1 ∧ t.agl.suppressed = s.agl.suppressed ∧ src ∉ t.agl.supp ∧
       agetq src t.agl.lastCe = some s.now ∧
       ∃ e, t.agl.events.getLast? = some (s.agl.next, e) ∧ bit e.w1 41 = decide (src ∈ s.agl.supp)))

/-- The filter of a port, and the source MACs of its sub-ports. A frame passes the filter exactly when its destination
MAC equals an entry with EN 1, or is ff:ff:ff:ff:ff:ff while BCAST_EN is 1, so a multicast address passes only as an
entry; a frame that does not pass is discarded and counted; the frames of sub-port b carry entry b as their source
MAC. -/
def Obligations.FramesPassTheFilterByTheirMac : Prop :=
  (∀ (s : State) (p : Nat) (fr : Bytes), passesFilter s p fr = true ↔
    (∃ e, e < 8 ∧ bit (reg s (ethBase p + 0x10 + 8 * e)) 48 ∧ fr.take 6 = regBytes s (ethBase p + 0x10 + 8 * e) 6) ∨
      (bit (reg s (ethBase p)) 2 ∧ fr.take 6 = List.replicate 6 0xFF)) ∧
  (∀ (s : State) (p b : Nat) (fx : Bool) (alt : AltBits) (fr : Bytes), fabricUp s → subLive s p b →
    rxHeld s p + fr.length + 4 ≤ 2097152 → at16 fr 12 ≠ 0x8808 → passesFilter s p fr = false →
    exec (.ethFrame p b true fx alt fr) s = .next (modEth p (fun e => { e with
      rxFrames := e.rxFrames + 1, rxDrop := e.rxDrop + 1 }) s)) ∧
  (∀ (s : State) (q p b : Nat) (ce : Bool) (rh : RouteHdr) (bs : Bytes),
    ((zrtFrame s q p b ce rh bs).drop 6).take 6 = regBytes s (ethBase p + 0x10 + 8 * b) 6)

/-- The integer, logic and shift instructions of element programs. On lanes a and b of 32 bits: IADD, ISUB and IMUL
wrap modulo 2^32, and with SAT give the exact result held to −2^31 to 2^31 − 1; IMAX and IMIN and the signed
conditions of ICMP take the lanes as two's-complement INT32, and I2F converts that value; AND, OR and XOR work on the
32 bits; SHL, SHR and SRA shift by bits [4:0] of b, SRA the INT32 value. -/
def Obligations.IntegerLanesWrapAndSaturate : Prop :=
  ∀ (w : U64) (a b : BitVec 32) (c : Nat),
    (let r := laneOp w a.toNat b.toNat c
     (insSat w = false → (insOp w = 0x30 → r = (a + b).toNat) ∧ (insOp w = 0x31 → r = (a - b).toNat) ∧
       (insOp w = 0x32 → r = (a * b).toNat)) ∧
     (insSat w → (insOp w = 0x30 → (BitVec.ofNat 32 r).toInt = max (-2 ^ 31) (min (2 ^ 31 - 1) (a.toInt + b.toInt))) ∧
       (insOp w = 0x31 → (BitVec.ofNat 32 r).toInt = max (-2 ^ 31) (min (2 ^ 31 - 1) (a.toInt - b.toInt))) ∧
       (insOp w = 0x32 → (BitVec.ofNat 32 r).toInt = max (-2 ^ 31) (min (2 ^ 31 - 1) (a.toInt * b.toInt)))) ∧
     (insOp w = 0x33 → (BitVec.ofNat 32 r).toInt = max a.toInt b.toInt) ∧
     (insOp w = 0x34 → (BitVec.ofNat 32 r).toInt = min a.toInt b.toInt) ∧
     (insOp w = 0x23 → r = encodeF fp32 (insRz w) false (ofInt a.toInt)) ∧
     (insOp w = 0x41 →
       (insVc w = 0 → r = if a = b then 0xFFFFFFFF else 0) ∧ (insVc w = 1 → r = if a.slt b then 0xFFFFFFFF else 0) ∧
       (insVc w = 2 → r = if a.sle b then 0xFFFFFFFF else 0) ∧ (insVc w = 3 → r = if b.slt a then 0xFFFFFFFF else 0) ∧
       (insVc w = 4 → r = if b.sle a then 0xFFFFFFFF else 0) ∧ (insVc w = 5 → r = if a ≠ b then 0xFFFFFFFF else 0)) ∧
     (insOp w = 0x35 → r = (a &&& b).toNat) ∧ (insOp w = 0x36 → r = (a ||| b).toNat) ∧
     (insOp w = 0x37 → r = (a ^^^ b).toNat) ∧ (insOp w = 0x38 → r = (a <<< (b.toNat % 32)).toNat) ∧
     (insOp w = 0x39 → r = (a >>> (b.toNat % 32)).toNat) ∧ (insOp w = 0x3A → r = (a.sshiftRight (b.toNat % 32)).toNat))

/-- An anchored sum is the same in every order and every grouping of its contributions. The anchored sum of a list of
contributions is that of every permutation of it; and the words of two lists, each combined by itself and then
combined with each other, are the words of the lists combined together, at every word width, headroom and anchor. -/
def Obligations.AnchoredSumsDoNotDependOnTheOrder : Prop :=
  (∀ (f h : Nat) (l m : List Val), l.Perm m → anchoredSum f h l = anchoredSum f h m) ∧
  (∀ (f h anc : Nat) (l m : List Val),
    (let comb := fun (x : List Val) => (x.map (wordOf f h anc)).foldl (addWords f anc) 0
     comb (l ++ m) = addWords f anc (comb l) (comb m)))

/-- Base headers, extension headers and route headers read back as they were written. For every base header, with
every field and reserved bit at every value, the words that it is packed into unpack to it; so for every route header;
and for every extension header under the packet types that carry it. -/
def Obligations.HeadersReadBack : Prop :=
  (∀ (b : Bth), unpackBth (packBth b) = b) ∧ (∀ (r : RouteHdr), unpackRh (packRh r) = r) ∧
  (∀ (typ : Nat) (e : Ext), extOf typ e = true → unpackExt typ (packExt e) = e ∧ (packExt e).length = extWords typ)

/-- A packet's bytes read back as the packet. For every packet whose extension header is its type's, whose PLEN is its
payload's length and whose CIPH says whether it has a cipher header: its bytes are as many as packetLen says, and
reading them under its route header gives the packet, every field of every header, the payload, the tag and the ICRC.
-/
def Obligations.PacketsReadBack : Prop :=
  ∀ (p : Packet), extOf p.bth.typ.toNat p.ext = true → p.bth.plen.toNat = p.data.length → p.bth.ciph = p.cph.isSome →
    parsePacket p.rh (packetBytes p) = p ∧ (packetBytes p).length = packetLen p

/-- PUSH, FETCH_GRANT, FETCH_READ_DONE, REREAD and DESCRIPTOR_ACCEPT complete. A push that reaches a push page which
holds no earlier write back: one of descriptors that all match their indices and for which there is room advances
P_dev by their number and stages them; one for which there is no room waits at the port; one beyond the queue's size
leaves it in ERROR with OVERFLOW; a misshapen push, or one of a queue that is not ACTIVE, is discarded and counted.
The arbiter grants the member it visits. A fetch read that returns every slot ready takes them all and leaves no wait,
and an RQ then goes on fetching on demand. A wait for a re-read issues the read 1 us after the last one and counts it.
The taken descriptor at the accepted index, which Mirror then holds (R29), is accepted, numbered in the order of
acceptance, and A moves past it. -/
def Obligations.DescriptorsArePushedFetchedAndRefetched : Prop :=
  (∀ (a : Source) (g p o f q off len : Nat) (descs : List Desc) (s : State), running s →
    pushReach s a g p o = some (f, q, off) → off < 0x800 → pageStuck s f q = false →
    (facetOn s f → (getQ s f false q).st = .active → pushShape off len →
      ((getQ s f false q).pDev - (getQ s f false q).head).toNat + len / 64 ≤ (getQ s f false q).size →
      (noRoom s f q (len / 64) = false → descs.length = len / 64 →
        (pushGood (getQ s f false q).pDev descs).length = descs.length →
        exec (.push ⟨a, g⟩ p o len descs) s = .next (modQ f false q (fun x => { x with
          pDev := (getQ s f false q).pDev + BitVec.ofNat 32 (len / 64)
          staged := x.staged ++ pushGood (getQ s f false q).pDev descs }) s)) ∧
      (noRoom s f q (len / 64) → exec (.push ⟨a, g⟩ p o len descs) s = .next (stick (.push f q off len descs) s))) ∧
    (facetOn s f → (getQ s f false q).st = .active → pushShape off len →
      (getQ s f false q).size < ((getQ s f false q).pDev - (getQ s f false q).head).toNat + len / 64 →
      exec (.push ⟨a, g⟩ p o len descs) s = .next (settleQueues f (enterError f false q cOVERFLOW
        ((getQ s f false q).head + BitVec.ofNat 32 (getQ s f false q).size) s))) ∧
    ((getF s f).st ≠ .off → (pushShape off len = false ∨ (getQ s f false q).st ≠ .active) →
      exec (.push ⟨a, g⟩ p o len descs) s = .next (discardPush f s))) ∧
  (∀ (f q : Nat) (r : List (Nat × Nat)) (s : State), running s → s.arb.round = (f, q) :: r → s.arb.grants ≠ 0 →
    grantable s f q → exec .fetchGrant s = .next (grant f q { s with arb := { s.arb with grants := s.arb.grants - 1 } })) ∧
  (∀ (f q : Nat) (rq : Bool) (rd : Fetch) (slots : List Desc) (s : State), running s →
    (getQ s f rq q).fetch = some rd → rd.held = false →
    (fetchPlaces s f rq q).findSome? (hurtAt s (.fetch f rq q)) = none →
    (pinPlace s f (getQ s f rq q).ringSeg (getQ s f rq q).ringOff).1 ≠ 5 → slots.length = rd.count →
    (readyRun rd.first slots).length = rd.count →
    (let t := modQ f rq q (fun x => { x with
       fetch := none, taken := x.taken ++ readyRun rd.first slots, rr := none }) (readsEnd (.fetch f rq q) s)
     exec (.fetchReadDone f rq q slots) s = .next (if rq then rqFetch f q t else t))) ∧
  (∀ (f q : Nat) (rq : Bool) (w : Reread) (s : State), running s → (getQ s f rq q).rr = some w →
    (getQ s f rq q).st = .active → (getQ s f rq q).fetch = none → elapsed s (getQ s f rq q).lastRead (us 1) →
    ringReleased s f rq q →
    exec (.reread f rq q) s = .next (readSlots f rq q w.first w.count
      (modF f (fun y => { y with que := { y.que with refetch := y.que.refetch + 1 } })
        (modQ f rq q (fun x => { x with rr := some { w with tries := w.tries + 1 } }) s)))) ∧
  (∀ (f q : Nat) (rq : Bool) (x : Taken) (s : State), running s → x.idx = (getQ s f rq q).acc →
    (getQ s f rq q).taken.find? (fun t => decide (t.idx = (getQ s f rq q).acc)) = some x →
    (getQ s f rq q).st = .active → openItems s < 524288 →
    exec (.descriptorAccept f rq q) s = .next (settle f (modQ f rq q (fun y => Queue.changed s.now { y with
      taken := y.taken.erase x, acc := y.acc + 1
      items := y.items ++ [{ idx := x.idx, desc := x.desc, seq := s.arb.accepted }] })
      { s with arb := { s.arb with accepted := s.arb.accepted + 1 } })))

/-- PROGRESS_RECORD, EVENT_ENTRY, MSIX_HOLD_EXPIRY, QUE_EVR_CONS and QUE_EVR_CONS_ARM complete. A record that is due
and whose port is released is posted with A in the low and H in the high half; a queue that owes an event writes an
entry when its last record shows its A and H and its ring has space and no unconsumed entry for it; an armed ring
whose oldest entry has waited out the hold sends its vector and disarms; a consumer index write moves the index and
drops the consumed entries, and with the flag arms the ring. -/
def Obligations.ProgressIsPublishedAndEventsAreWritten : Prop :=
  (∀ (f q : Nat) (rq : Bool) (s : State), running s → recordDue s f rq q →
    released s f (pinKey s f (getQ s f rq q).progSeg (getQ s f rq q).progOff) →
    exec (.progressRecord f rq q) s = .next (postPin f (getQ s f rq q).progSeg (getQ s f rq q).progOff (.record f rq q)
      (toLE 4 (getQ s f rq q).acc.toNat ++ toLE 4 (getQ s f rq q).head.toNat)
      (modQ f rq q (fun x => { x with pubAcc := x.acc, pubHead := x.head, dirtyAt := none, recFlight := true }) s))) ∧
  (∀ (f q : Nat) (rq : Bool) (s : State), running s → ((getQ s f rq q).evOwed ∨ (getQ s f rq q).evErrOwed) →
    (getE s f (getQ s f rq q).evr).active → (getQ s f rq q).pubHead = (getQ s f rq q).head →
    (getQ s f rq q).pubAcc = (getQ s f rq q).acc → (getQ s f rq q).dirtyAt = none →
    recordVisible s f rq q (getQ s f rq q).evr → waiting s f (getQ s f rq q).evr = [] →
    (getE s f (getQ s f rq q).evr).names rq q (getQ s f rq q).evErrOwed = false →
    (getE s f (getQ s f rq q).evr).full = false →
    exec (.eventEntry f rq q) s = .next (writeEntry f (getQ s f rq q).evr rq q (getQ s f rq q).evErrOwed false
      (modQ f rq q (fun x => { x with evOwed := false, evErrOwed := false }) s))) ∧
  (∀ (f e : Nat) (n : EvNote) (r : List EvNote) (s : State), running s → (getE s f e).notes = n :: r →
    (getE s f e).en → (getE s f e).armed → pinKey s f (getE s f e).ringSeg (getE s f e).ringOff = 0 →
    (getE s f e).armAt.toNat ≤ n.wrote.toNat → elapsed s n.wrote (us (getE s f e).holdUs) →
    exec (.msixHoldExpiry f e) s = .next (sendMsix f (getE s f e).vec (modE f e (fun x => { x with armed := false }) s))) ∧
  (∀ (f e : Nat) (v : U32) (s : State), running s → facetOn s f → ringOpen s f e →
    (v - (getE s f e).cons).toNat ≤ ((getE s f e).prod - (getE s f e).cons).toNat →
    exec (.queEvrCons f e v) s = .next (msixCheck f e (pendingEntries f e (modE f e (fun r => { r with
      cons := v, notes := r.notes.drop (v - r.cons).toNat }) s)))) ∧
  (∀ (f e : Nat) (v : U32) (s : State), running s → facetOn s f → ringOpen s f e →
    (v - (getE s f e).cons).toNat ≤ ((getE s f e).prod - (getE s f e).cons).toNat →
    exec (.queEvrConsArm f e v) s = .next (msixCheck f e (pendingEntries f e (modE f e (fun r => { r with
      cons := v, notes := r.notes.drop (v - r.cons).toNat, armed := true, armAt := s.now }) s))))

/-- QUEUE_CREATE, QUEUE_DESTROY, QUEUE_RESTART and NOP complete. In an ON facet of a running device. CREATE of a
DISABLED SQ or RQ whose values pass every check makes it ACTIVE with every index at START, and one whose values fail a
check leaves it DISABLED with the failing code in ERR; CREATE of a DISABLED event ring makes it ACTIVE and empty, with
PROD and CONS at START; CREATE of one that is open has no effect. DESTROY of an SQ that is ACTIVE, in ERROR or
RESTARTING drains it and cancels its MOVEs that wait; DESTROY of an RQ that no QP holds drains it; DESTROY of an RQ
that a QP holds, and of an event ring that a queue names, sets ERR to IN_USE; DESTROY of another ACTIVE event ring
makes it DISABLED. RESTART of a queue in ERROR makes it RESTARTING, and of another queue leaves it as it is. A NOP
that may start completes with status 0. -/
def Obligations.QueuesAreCreatedDestroyedAndRestarted : Prop :=
  (∀ (f q : Nat) (rq : Bool) (s : State), running s → facetOn s f → (getQ s f rq q).st = .disabled →
    (createCode s f rq q = 0 →
      exec (.queueCreate f (if rq then .rq else .sq) q) s = .next (settle f (modQ f rq q (fun x => {
        ringOff := x.ringOff, progOff := x.progOff, cfg := x.cfg, start := x.start, st := .active, pDev := x.start
        acc := x.start, head := x.start, pubAcc := x.start, pubHead := x.start, next := x.start, born := true }) s))) ∧
    (createCode s f rq q ≠ 0 →
      exec (.queueCreate f (if rq then .rq else .sq) q) s = .next (settle f (modQ f rq q (fun x => { x with
        err := BitVec.ofNat 16 (createCode s f rq q) }) s)))) ∧
  (∀ (f q : Nat) (rq : Bool) (s : State), running s → facetOn s f → (getQ s f rq q).st ≠ .disabled →
    exec (.queueCreate f (if rq then .rq else .sq) q) s = .next (settle f s)) ∧
  (∀ (f e : Nat) (s : State), running s → facetOn s f → (getE s f e).active = false → sizeOk (getE s f e).size →
    e < (getF s f).aEvr → deviceUse s .evr < 1024 →
    pinCheck s f (getE s f e).ringSeg (getE s f e).ringOff ((getE s f e).size * 16) [.lwr] →
    exec (.queueCreate f .evr e) s = .next (modE f e (fun r => { r with
      active := true, prod := r.start, cons := r.start, notes := [], armed := false, err := 0 }) s)) ∧
  (∀ (f e : Nat) (s : State), running s → facetOn s f → (getE s f e).active → exec (.queueCreate f .evr e) s = .next s) ∧
  (∀ (f q : Nat) (s : State), running s → facetOn s f → (getQ s f false q).st ≠ .disabled →
    (getQ s f false q).st ≠ .draining →
    exec (.queueDestroy f .sq q) s = .next (settle f (cancelMoves f q (drainQueue f false q s)))) ∧
  (∀ (f q : Nat) (s : State), running s → facetOn s f → rqInUse s f q = false →
    exec (.queueDestroy f .rq q) s = .next (settle f (drainQueue f true q s))) ∧
  (∀ (f q : Nat) (s : State), running s → facetOn s f → rqInUse s f q → (getQ s f true q).st ≠ .disabled →
    (getQ s f true q).st ≠ .draining →
    exec (.queueDestroy f .rq q) s = .next (modQ f true q (fun x =>
      if x.st = .disabled ∨ x.st = .draining then x else { x with err := BitVec.ofNat 16 cIN_USE }) s)) ∧
  (∀ (f e : Nat) (s : State), running s → facetOn s f → (getE s f e).active → ringNamed s f e = false →
    exec (.queueDestroy f .evr e) s = .next (shrinkEval f (modE f e (fun r => { r with
      active := false, notes := [], armed := false, err := 0 }) s))) ∧
  (∀ (f e : Nat) (s : State), running s → facetOn s f → (getE s f e).active → ringNamed s f e →
    exec (.queueDestroy f .evr e) s = .next (shrinkEval f (modE f e (fun r => { r with
      err := BitVec.ofNat 16 cIN_USE }) s))) ∧
  (∀ (f q : Nat) (rq : Bool) (s : State), running s → facetOn s f →
    exec (.queueRestart f (if rq then .rq else .sq) q) s =
      .next (settle f (modQ f rq q (fun x => if x.st = .error then { x with st := .restarting } else x) s))) ∧
  (∀ (f q : Nat) (i : Item) (s : State), ready s f q 0x01 = some i →
    exec (.nop f q) s = .next (settle f (completeItem f q i.idx stOk (startItem f q i.idx s))))

/-- WRITE, READ, SEND and RECV start when nothing holds them back. For each of WRITE, READ and SEND that may start
(R61, R454): with every start check passed and room among its QP's started descriptors it takes its PSNs, its MSN and,
for a SEND, its send number; without room it waits, with no effect; and where the start checks answer a status
(QP_INVALID, FLUSHED, ACCESS_DENIED, NO_REMOTE_RQ, or OK of a WRITE or READ of length 0) it completes with that
status. RECV posts the next descriptor of its RQ that is not posted. -/
def Obligations.TransfersStartAndReceivesArePosted : Prop :=
  (∀ (f q op : Nat) (c : Instr), (c, op) ∈ ([(.write f q, 2), (.read f q, 3), (.send f q, 4)] : List (Instr × Nat)) →
    ∀ (i : Item) (s : State), ready s f q op = some i →
      (startCheck s f i.desc = none → startRoom (getQp s (trQpn i.desc)) op →
        exec c s = .next (settle f (takePsns f q i.idx.toNat i.desc (startItem f q i.idx s)))) ∧
      (startCheck s f i.desc = none → startRoom (getQp s (trQpn i.desc)) op = false → exec c s = .next s) ∧
      (∀ (st : Status), startCheck s f i.desc = some st →
        exec c s = .next (settle f (completeItem f q i.idx st (startItem f q i.idx s))))) ∧
  (∀ (f q : Nat) (i : Item) (s : State), running s → nextStart s f true q = some i →
    exec (.recv f q) s = .next (settle f (modItem f true q i.idx (fun i => { i with started := true }) s)))

/-- QP_CREATE, QP_CONNECT, QP_DESTROY and QP_QUERY complete. In a facet that is ON with its command block idle: a
CREATE whose values pass makes a QP in INIT where entropy is at hand and waits, BUSY, where it is not; one whose
values fail ends with the code. CONNECT of a QP of the facet in INIT makes it CONNECTING and sends CONNECT. In a facet
that is ON or RESETTING: DESTROY of a QP of the facet drains it and frees it once nothing of it is in the device;
QUERY of one fills the QPC registers and ends with result 0. CONNECT of another QP or in another state, and DESTROY
and QUERY of a QP that is not the facet's, end with BAD_STATE. While the block is busy a command has no effect. -/
def Obligations.QueuePairCommandsComplete : Prop :=
  (∀ (f : Nat) (s : State), running s → facetOn s f → (getF s f).zrt.busy = false →
    (let t := modF f (fun y => { y with zrt := { y.zrt with busy := true } }) s
     (createQpCode t f = 0 → s.trust.ent = 1 → exec (.qpCreate f) s = .next (makeQp f t)) ∧
     (createQpCode t f = 0 → s.trust.ent ≠ 1 → exec (.qpCreate f) s = .next (modF f (fun x => { x with
       zrt := { x.zrt with busy := true, waiting := true } }) t)) ∧
     (createQpCode t f ≠ 0 → exec (.qpCreate f) s = .next (modF f (fun x => { x with zrt := { x.zrt with
       busy := false, waiting := false, state := 0, holdWhy := 0, result := BitVec.ofNat 16 (createQpCode t f) } }) t)))) ∧
  (∀ (f n : Nat) (s : State), running s → facetOn s f → (getF s f).zrt.busy = false → (getF s f).zrt.qpn.toNat = n →
    (let t := modF f (fun y => { y with zrt := { y.zrt with busy := true } }) s
     (ownsQp s f n → (getQp s n).st = .init →
       exec (.qpConnect f) s = .next (sendConnect n (modF f (fun x => { x with zrt := { x.zrt with conn := some n } })
         (modQp n (fun q => { q with st := .connecting, req := { q.req with conSends := 0 } }) t)))) ∧
     (¬ (ownsQp s f n ∧ (getQp s n).st = .init) → exec (.qpConnect f) s = .next (endQpc f n cBAD_STATE t)))) ∧
  (∀ (f n : Nat) (s : State), running s → (facetOn s f ∨ (getF s f).st = .resetting) → (getF s f).zrt.busy = false →
    (getF s f).zrt.qpn.toNat = n →
    (let t := modF f (fun y => { y with zrt := { y.zrt with busy := true } }) s
     (ownsQp s f n → exec (.qpDestroy f) s = .next (tryFreeQp n (endQpc f n 0 (drainQp f n t)))) ∧
     (ownsQp s f n = false → exec (.qpDestroy f) s = .next (endQpc f n cBAD_STATE t) ∧
       exec (.qpQuery f) s = .next (endQpc f n cBAD_STATE t)))) ∧
  (∀ (f n : Nat) (s : State), running s → (facetOn s f ∨ (getF s f).st = .resetting) → (getF s f).zrt.busy = false →
    (getF s f).zrt.qpn.toNat = n → ownsQp s f n →
    ∃ t, exec (.qpQuery f) s = .next t ∧
      (getF t f).zrt.busy = false ∧ (getF t f).zrt.result = 0 ∧ (getF t f).zrt.segs = (getQp s n).segs ∧
      (getF t f).zrt.peer = BitVec.ofNat 64 ((getQp s n).remoteEp.toNat + (getQp s n).remoteQpn.toNat * 2 ^ 32) ∧
      (getF t f).zrt.info = BitVec.ofNat 64 ((getQp s n).req.ack.toNat + (getQp s n).req.next.toNat * 2 ^ 32) ∧
      (getF t f).zrt.state = BitVec.ofNat 3 (qpStateNo (getQp s n).st) ∧
      (getF t f).zrt.holdWhy = (getQp s n).holdWhy) ∧
  (∀ (f : Nat) (s : State), (getF s f).zrt.busy = true →
    exec (.qpCreate f) s = .next s ∧ exec (.qpConnect f) s = .next s ∧ exec (.qpDestroy f) s = .next s ∧
      exec (.qpQuery f) s = .next s)

/-- CONNECT, ACCEPT, REJECT and CONNECT_RETRY complete. A whole CONNECT for a free QPN is answered by REJECT reason 1.
For a QP whose context is resident, outside a warm reset's restoration: a CONNECT from another peer gets REJECT reason
2, one of another CIPHER reason 2 or, where it asks for the engine and this part has none, 3 (log entry 69), and one
for a QP that is neither in INIT, CONNECTING nor RTS reason 1; a matching one is answered by ACCEPT and brings a QP in
INIT to RTS, and in RTS its ACCEPT is repeated for the CTAG it came with and another CTAG has no effect. An ACCEPT
from the far end of a QP in CONNECTING brings it to RTS and ends the command with result 0. A REJECT from it with
reason 1 sends CONNECT again while the limit allows; with reason 3 it ends the command with UNIT_ABSENT, with any
other with CONNECT_REJECTED, and the QP is in ERROR. An ACCEPT or REJECT that no CONNECT of this QP waits for has no
effect. Without an answer within the resend interval CONNECT goes again, 16 (RETRY_LIM + 1) times, and then the
command ends with CONNECT_TIMEOUT and the QP is in ERROR. -/
def Obligations.ConnectionPacketsAreAnswered : Prop :=
  (∀ (n : Nat) (p : Packet) (s : State) (psn ctag : U32) (sq : BitVec 20) (rq ci : Bool) (pm : BitVec 3) (wi : BitVec 4)
    (r0 : BitVec 3) (rs : Byte) (r1 : BitVec 24), Whole p → fabricUp s → p.bth.dstQpn.toNat = n →
    p.ext = .cmeh psn ctag sq rq ci pm wi r0 rs r1 →
    (let t := noteArrival (epAdapter p.bth.srcEp) s
     let u := makeCtx n t
     let q := getQp t n
     isType 0 p → (q.st = .free → exec (.connect p) s = .next (inject (rejectPacket t p 0 ctag sq 1) t)) ∧
     (q.st ≠ .free → restoring t = false → t.zrt.resident.contains n = true →
       (q.st ≠ .init ∧ q.st ≠ .connecting ∧ q.st ≠ .rts →
         exec (.connect p) s = .next (inject (rejectPacket u p 0 ctag sq 1) u)) ∧
       (q.st = .init ∨ q.st = .connecting ∨ q.st = .rts → (p.bth.srcEp ≠ q.remoteEp ∨ sq ≠ q.remoteQpn) →
         exec (.connect p) s = .next (inject (rejectPacket u p 0 ctag sq 2) u)) ∧
       (q.st = .rts → p.bth.srcEp = q.remoteEp → sq = q.remoteQpn →
         exec (.connect p) s = .next (if q.peerCtag = some ctag then sendAccept n u else u)) ∧
       (q.st = .init ∨ q.st = .connecting → p.bth.srcEp = q.remoteEp → sq = q.remoteQpn → ci ≠ q.cipher →
         exec (.connect p) s = .next (inject (rejectPacket u p 0 ctag sq (if ci ∧ hasCip s = false then 3 else 2)) u)) ∧
       (q.st = .init ∨ q.st = .connecting → p.bth.srcEp = q.remoteEp → sq = q.remoteQpn → ci = q.cipher →
         (let v := recordPeer n psn ctag rq pm.toNat wi.toNat u
          exec (.connect p) s = .next (sendAccept n (if q.st = .init then enterRts n v else v))))))) ∧
  (∀ (n : Nat) (p : Packet) (s : State) (psn ctag : U32) (sq : BitVec 20) (rq ci : Bool) (pm : BitVec 3) (wi : BitVec 4)
    (r0 : BitVec 3) (rs : Byte) (r1 : BitVec 24), Whole p → fabricUp s → p.bth.dstQpn.toNat = n →
    p.ext = .cmeh psn ctag sq rq ci pm wi r0 rs r1 →
    (let t := noteArrival (epAdapter p.bth.srcEp) s
     let u := makeCtx n t
     let q := getQp t n
     restoring t = false → t.zrt.resident.contains n = true → q.st ≠ .free →
       (isType 1 p → exec (.accept p) s = .next (if awaits t n p sq then
         endConnect n 0 (enterRts n (recordPeer n psn ctag rq pm.toNat wi.toNat u)) else u)) ∧
       (isType 2 p → awaits t n p sq = false → exec (.reject p) s = .next u) ∧
       (isType 2 p → awaits t n p sq → rs = 1 → exec (.reject p) s = .next (connectAgain n u)) ∧
       (isType 2 p → awaits t n p sq → rs ≠ 1 → exec (.reject p) s = .next (endConnect n
         (if rs = 3 then cUNIT_ABSENT else cCONNECT_REJECTED) (modQp n (fun q => { q with st := .error }) u))))) ∧
  (∀ (n : Nat) (s : State), running s → (getQp s n).st = .connecting →
    elapsed s (getQp s n).req.conAt (getQp s n).interval →
    ((getQp s n).req.conSends < 16 * ((getQp s n).retryLim + 1) → exec (.connectRetry n) s = .next (sendConnect n s)) ∧
    (16 * ((getQp s n).retryLim + 1) ≤ (getQp s n).req.conSends → exec (.connectRetry n) s = .next
      (endConnect n cCONNECT_TIMEOUT (modQp n (fun q => { q with st := .error }) s))))

/-- What every packet of a connection meets before its type's rules: ICRC, header, QPN, context, CTAG and CIPHER. For
every data packet and answer but NAK_NO_CONN, while the fabric runs: a wrong ICRC and a header that fails the checks
are counted and the packet is discarded. A whole packet for a free QPN is refused. While a warm reset restores, it is
answered NAK_WAIT where it may be; so it is, and counted, when the miss buffer of arrivals is full and its context is
not resident; with room it waits there and the context is fetched. With the context resident: a wrong CTAG or a QP in
ERROR refuses it, a QP that is not connected discards it, an enciphered packet of a CIPHER QP goes to the cipher
engine, and one whose CIPH is not the QP's fails authentication. -/
def Obligations.ArrivingPacketsAreChecked : Prop :=
  ∀ (p : Packet) (c : Instr) (s : State),
    (c, true) ∈ ([(.writePacket p, isType 3 p), (.sendPacket p, isType 4 p), (.readReq p, isType 5 p),
      (.readResp p, isType 6 p), (.ack p, isAnswer 0 p), (.nakRnr p, isAnswer 1 p), (.nakWait p, isAnswer 2 p),
      (.nakHold p, isAnswer 3 p), (.holdClear p, isAnswer 4 p), (.nakAccess p, isAnswer 5 p)] : List (Instr × Bool)) →
    fabricUp s →
    (p.icrc ≠ icrcOf p → exec c s = .next { s with zrt := { s.zrt with icrc := s.zrt.icrc + 1 } }) ∧
    (p.icrc = icrcOf p → headerOk p = false → exec c s = .next { s with zrt := { s.zrt with badHdr := s.zrt.badHdr + 1 } }) ∧
    (Whole p →
      (let t := noteArrival (epAdapter p.bth.srcEp) s
       let n := p.bth.dstQpn.toNat
       let u := makeCtx n t
       let q := getQp t n
       (q.st = .free → exec c s = .next (refuse p t)) ∧
       (q.st ≠ .free → restoring t → exec c s = .next (nakWaitFor n p t)) ∧
       (q.st ≠ .free → restoring t = false → t.zrt.resident.contains n = false →
         (missBytes t + packetLen p ≤ 524288 → exec c s = .next { t with zrt := { t.zrt with
           missBuf := t.zrt.missBuf ++ [(n, p)]
           fetching := if t.zrt.fetching.contains n then t.zrt.fetching else t.zrt.fetching ++ [n] } }) ∧
         (524288 < missBytes t + packetLen p → exec c s = .next (nakWaitFor n p
           (if canWait t n p then { t with zrt := { t.zrt with missFull := t.zrt.missFull + 1 } } else t)))) ∧
       (q.st ≠ .free → restoring t = false → t.zrt.resident.contains n = true →
         (p.bth.ctag ≠ q.ctag ∨ q.st = .error → exec c s = .next (refuse p u)) ∧
         (p.bth.ctag = q.ctag → q.st ≠ .error → q.connected = false → exec c s = .next u) ∧
         (p.bth.ctag = q.ctag → q.connected → p.bth.ciph → q.cipher → exec c s = .next (toEngine n false p u)) ∧
         (p.bth.ctag = q.ctag → q.connected → p.bth.ciph ≠ q.cipher → exec c s = .next (authFail n u)))))

/-- WRITE_PACKET, SEND_PACKET, READ_REQ and READ_RESP complete. A WRITE or SEND packet that reaches its QP: behind E
it is counted as a duplicate and answered by ACK; beyond the window or already held it is counted and discarded; with
a new PSN in the window, a SEND to a QP without RQ fails the access, a SEND whose RQ slot is not ready is answered
NAK_RNR and counted, one whose stream is parked is discarded and counted, and any other is taken, checked and placed.
A READ_REQ that asks for more PSNs than the window holds or reaches beyond it, and one already held, is counted and
discarded; one whose stream is parked is discarded and counted; one that may not read fails the access; behind E it is
served again, and else it is taken and waits its turn at E. A READ_RESP that is no PSN of a READ, of a PSN not yet
sent, confirmed or being placed, is counted and discarded; one whose stream is parked is discarded and counted; any
other is placed. -/
def Obligations.DataPacketsAreTakenOncePerPsn : Prop :=
  (∀ (typ : Nat) (n : Nat) (p : Packet) (c : Instr) (s : State), (typ, c) ∈ ([(3, .writePacket p), (4, .sendPacket p)] :
      List (Nat × Instr)) → Reaches n p s → isType typ p →
    (let t := atQp n p s
     let q := getQp t n
     let d := (p.bth.psn - q.rsp.e).toNat
     (0x80000000 ≤ d → exec c s = .next (answer n 0 0 (countDup n t))) ∧
     (d < 0x80000000 → (q.win ≤ d ∨ q.rsp.held.contains p.bth.psn) → exec c s = .next (countDup n t)) ∧
     (d < 0x80000000 → d < q.win → q.rsp.held.contains p.bth.psn = false →
       (typ = 4 → q.rqEn = false → exec c s = .next (accessFail n p.bth.psn t)) ∧
       (typ = 4 → q.rqEn → notReady t q p → exec c s = .next (answer n 1 p.bth.psn
         (modF q.facet (fun f => { f with zrt := { f.zrt with rnrSent := f.zrt.rnrSent + 1 } }) t))) ∧
       ((typ = 4 → q.rqEn ∧ notReady t q p = false) → needsStream q t p → parkedStream t (.responder n) →
         exec c s = .next (parkDiscard t)) ∧
       ((typ = 4 → q.rqEn ∧ notReady t q p = false) → ¬ (needsStream q t p ∧ parkedStream t (.responder n)) →
         exec c s = .next (if typ = 4 then placeSend n p (takePacket n p t) else placeWrite n p (takePacket n p t)))))) ∧
  (∀ (n : Nat) (p : Packet) (s : State) (roff : U64) (rkey len : U32) (rseg : Byte) (rsv : BitVec 24) (ro : U32),
    Reaches n p s → isType 5 p → p.ext = .reth roff rkey len rseg rsv ro →
    (let t := atQp n p s
     let q := getQp t n
     let d := (p.bth.psn - q.rsp.e).toNat
     let k := ceilDiv len.toNat q.pmtu
     ((q.win < k ∨ (d < 0x80000000 ∧ (q.win < d + k ∨ q.rsp.held.contains p.bth.psn))) →
       exec (.readReq p) s = .next (countDup n t)) ∧
     (k ≤ q.win → (0x80000000 ≤ d ∨ (d + k ≤ q.win ∧ q.rsp.held.contains p.bth.psn = false)) →
       (parkedStream t (.responder n) → exec (.readReq p) s = .next (parkDiscard t)) ∧
       (parkedStream t (.responder n) = false → readAllowed t q p = false →
         exec (.readReq p) s = .next (accessFail n p.bth.psn t)) ∧
       (parkedStream t (.responder n) = false → readAllowed t q p → 0x80000000 ≤ d →
         exec (.readReq p) s = .next (serveRead n p (modQp n (fun q => { q with rsp := { q.rsp with
           ce := ceCount p q.rsp.ce } }) t))) ∧
       (parkedStream t (.responder n) = false → readAllowed t q p → d < 0x80000000 →
         exec (.readReq p) s = .next (serveReached n (modQp n (fun q => { q with rsp := { q.rsp with
           reads := q.rsp.reads ++ [p] } }) (takePacket n p t))))))) ∧
  (∀ (n : Nat) (p : Packet) (s : State), Reaches n p s → isType 6 p →
    (let t := atQp n p s
     let q := getQp t n
     let due := isReadPsn q p.bth.psn && psnBefore p.bth.psn q.req.hi && !confirmedTx q p.bth.psn &&
       !q.req.placing.contains p.bth.psn
     (due = false → exec (.readResp p) s = .next (countDup n t)) ∧
     (due → parkedStream t (.readResp n) → exec (.readResp p) s = .next (parkDiscard t)) ∧
     (due → parkedStream t (.readResp n) = false → exec (.readResp p) s = .next (placeResp n p
       (modQp n (fun q => { q with req := { q.req with placing := q.req.placing ++ [p.bth.psn] } }) t)))))

/-- ACK, NAK_RNR, NAK_WAIT, NAK_HOLD, HOLD_CLEAR, NAK_ACCESS and NAK_NO_CONN complete. An answer that reaches its QP
first confirms what it reports. With the QP then connected NAK_RNR backs the SEND off, NAK_WAIT is counted, notes the
PSN and restarts the timer, NAK_HOLD brings HOLD with HOLD_WHY 3, HOLD_CLEAR ends HOLD, and NAK_ACCESS fails the QP
with ACCESS_DENIED for the descriptor of its PSN. A NAK_NO_CONN in the clear that matches a connected QP fails it with
REMOTE_LOST; one that matches no QP has no effect. -/
def Obligations.AnswersAreTakenBySyndrome : Prop :=
  (∀ (n : Nat) (p : Packet) (s : State), Reaches n p s → isAnswer 0 p → exec (.ack p) s = .next (afterAnswer n p s)) ∧
  (∀ (n : Nat) (p : Packet) (s : State), Reaches n p s → (getQp (afterAnswer n p s) n).connected →
    (isAnswer 1 p → exec (.nakRnr p) s = .next (takeRnr n (nakPsnOf p) (afterAnswer n p s))) ∧
    (isAnswer 2 p → exec (.nakWait p) s = .next (takeWait n (nakPsnOf p) (afterAnswer n p s))) ∧
    (isAnswer 3 p → exec (.nakHold p) s = .next (enterHold n 3 (afterAnswer n p s))) ∧
    (isAnswer 4 p → exec (.holdClear p) s = .next (leaveHold n (afterAnswer n p s))) ∧
    (isAnswer 5 p → exec (.nakAccess p) s = .next (failQp n (fun d => if psnIn (nakPsnOf p) d.psn d.n then
      statD cACCESS_DENIED 1 else stat cFLUSHED) (afterAnswer n p s)))) ∧
  (∀ (p : Packet) (s : State), Whole p → fabricUp s → isAnswer 6 p →
    (let t := noteArrival (epAdapter p.bth.srcEp) s
     (∀ (n : Nat), noConnQp t p = some n → p.bth.ciph = false → (getQp t n).connected →
       exec (.nakNoConn p) s = .next (failQp n (fun _ => stat cREMOTE_LOST) t)) ∧
     (noConnQp t p = none → exec (.nakNoConn p) s = .next t)))

/-- CONTEXT_FETCH_DONE, PACKET_SEND, SOURCE_READ_DONE, FLUSH_READ_COMPLETION, MEM_WRITE_COMPLETE and MIRROR_WRITE_DONE
complete. A fetched context becomes resident, its waiting packets go on in arrival order (those of a QPN that is free
by then as for a free QPN), and key commands that waited for it run. The QP whose turn it is sends its next packet: a
queued resend, else a READ response it owes, else its next new packet; out of turn a QP sends nothing. A source read
that comes back unharmed sends the packet of a recorded descriptor, the READ response, the chunk piece, the mover
element or the plain frame that it serves. A flush read that comes back without an injected error confirms the writes
that it covers; an injected error fails it; the end of LPDDR5X's writes confirms all of them. A Mirror write in flight
is done. -/
def Obligations.ContextsSendTurnsAndSourceReadsComplete : Prop :=
  (∀ (n : Nat) (s : State), fabricUp s → s.zrt.fetching.contains n →
    exec (.contextFetchDone n) s = .next (keysGo n (tryFreeQp n ((s.zrt.missBuf.filter (fun x => x.1 = n)).foldl
      (fun s x => if (getQp s n).st = .free then freeQpn x.2 s else goOnPacket n x.2 s)
      (makeCtx n { s with zrt := { s.zrt with
        missBuf := s.zrt.missBuf.filter (fun x => x.1 ≠ n)
        fetching := s.zrt.fetching.filter (fun x => x ≠ n) } }))))) ∧
  (∀ (n : Nat) (s : State), running s → hasTurn s n →
    (∀ (p : U32) (re : Bool), nextTurn s n = some (.req p re) →
      exec (.packetSend n) s = .next (takeTurns (sendNext n p re (makeCtx n s)))) ∧
    (nextTurn s n = some .resp → exec (.packetSend n) s = .next (takeTurns (respNext n (makeCtx n s))))) ∧
  (∀ (n : Nat) (s : State), hasTurn s n = false → exec (.packetSend n) s = .next s) ∧
  (∀ (w : ReadFor) (bs : Bytes) (s : State), running s →
    (readPlacesOf s w).findSome? (hurtAt s (kindOf w)) = none →
    (let u := readsEnd (.source w) s
     (∀ (n : Nat) (psn : U32) (x : Pull) (d : QDesc), w = .packet n psn →
       (getQp s n).req.pulls.find? (fun x => x.psn = psn) = some x → descAt (getQp s n) psn = some d → d.recorded →
       (let t := modQp n (fun q => { q with req := { q.req with pulls := q.req.pulls.erase x } }) u
        exec (.sourceReadDone w bs) s = .next (tryFreeQp n (sendQp n (dataPacket t (getQp s n) d psn x.resent
          (gather x.places bs s.mem)) t)))) ∧
     (∀ (n : Nat) (psn : U32) (x : Pull) (r : RespOne), w = .readResp n psn →
       (getQp s n).rsp.pulls.find? (fun x => x.psn = psn) = some x →
       (getQp s n).rsp.sent.find? (fun r => r.psn = psn) = some r →
       (let t := modBusy n (fun q => { q with rsp := { q.rsp with
          pulls := q.rsp.pulls.erase x, sent := q.rsp.sent.erase r } }) u
        exec (.sourceReadDone w bs) s = .next (tryFreeQp n (confirmRx n [psn] (sendQp n (respPacket t (getQp s n) r
          (gather x.places bs s.mem)) t))))) ∧
     (∀ (g m c : Nat), w = .chunk g m c → exec (.sourceReadDone w bs) s = .next (chunkRead g m c bs u)) ∧
     (∀ (c : Nat) (l : List (Nat × U64 × Nat)), w = .mover c → (getCh10 s c).reading = some l →
       exec (.sourceReadDone w bs) s = .next (moveGo c (modChan c (fun x => { x with
         reading := none, ks := x.ks + 1, skip := 0, hold := x.hold ++ (gather l bs s.mem).drop x.skip }) u))) ∧
     (∀ (q : Nat), w = .frame q → exec (.sourceReadDone w bs) s = .next (framePayload q bs u)))) ∧
  (∀ (p : Nat) (h : Bool) (s : State), running s →
    (((getP s (portKey p h)).flushing = false ∨ injected s 0x1D p = false) →
      exec (.flushReadCompletion p h) s = .next (deviceResetDue (flushReturned (portKey p h) s))) ∧
    ((getP s (portKey p h)).flushing → injected s 0x1D p →
      exec (.flushReadCompletion p h) s = .next (flushFailed p h (anyKind s) 0
        (countReadError p 0 none true (dropInjection 0x1D p { s with free := s.free + 1 }))))) ∧
  (∀ (s : State), running s → exec .memWriteComplete s = .next (deviceResetDue
    (confirmAll (getP s lpddr).unconf (modP lpddr (fun p => { p with unconf := [] }) s)))) ∧
  (∀ (k : MirrorKey) (s : State), running s → s.mirror.pendDone.contains k →
    exec (.mirrorWriteDone k) s = .next (mirrored k { s with mirror := { s.mirror with
      pendDone := s.mirror.pendDone.erase k } }))

/-- RESEND_TIMEOUT, RNR_BACKOFF_END, NAK_WAIT_RESEND, HOLD_RESEND, HOLD_LIMIT, RATE_PERIOD and WHEEL_SLOT complete.
Each acts once its interval has passed, by the local counter. A resend timeout of a QP in RTS with packets in flight
counts and congests its rate; up to RETRY_LIM in a row it queues what is unconfirmed to be sent again from ACK_PSN,
and beyond it brings HOLD with HOLD_WHY 1. The back-offs that have ended, and the NAK_WAITs noted 2 us ago or longer,
each resend from their PSN. In HOLD but for HOLD_WHY 4 the packet at ACK_PSN is resent, each 1 ms for HOLD_WHY 3 and
each resend interval for 1 and 2. At the hold limit of HOLD_WHY 1 or 2 the QP fails with TIMEOUT. The rate of a
connected QP whose profile controls congestion takes its step each period. The wheel moves to its next slot, 64 ns
after the last, releases the facets of the slot, and turns go on. Before its interval has passed a resend timeout, a
HOLD's resend or limit and a rate period leave the state as it is. -/
def Obligations.TransportTimersActWhenTheirIntervalIsOver : Prop :=
  (∀ (n : Nat) (s : State), running s → (getQp s n).st = .rts → (getQp s n).inFlight →
    elapsed s (getQp s n).req.timer (getQp s n).interval →
    (let t := congest n (modQp n (fun q => { q with req := { q.req with
       timeouts := q.req.timeouts + 1, timer := s.now } }) s)
     ((getQp s n).retryLim ≤ (getQp s n).req.timeouts → exec (.resendTimeout n) s = .next (enterHold n 1 t)) ∧
     ((getQp s n).req.timeouts < (getQp s n).retryLim → exec (.resendTimeout n) s = .next (modQp n (fun x => { x with
       req := { x.req with
         resend := (psnRange (getQp s n).req.ack (getQp s n).req.hi).filter (fun p =>
           !(isReadPsn (getQp s n) p && confirmedTx (getQp s n) p))
         lone := [] } }) t)))) ∧
  (∀ (n : Nat) (s : State), running s →
    (let ended := (getQp s n).req.rnr.filter (fun x => elapsed s x.2.2 (getQp s n).backoff)
     exec (.rnrBackoffEnd n) s = .next (ended.foldl (fun s x => resendFrom n x.2.1 s)
       (modQp n (fun q => { q with req := { q.req with rnr := q.req.rnr.filter (fun x => !ended.contains x) } }) s)))) ∧
  (∀ (n : Nat) (s : State), running s →
    (let ended := (getQp s n).req.waitAt.filter (fun x => elapsed s x.2 (us 2))
     exec (.nakWaitResend n) s = .next (ended.foldl (fun s x => resendFrom n x.1 s)
       (modQp n (fun q => { q with req := { q.req with
         waitAt := q.req.waitAt.filter (fun x => !ended.contains x) } }) s)))) ∧
  (∀ (n : Nat) (s : State), running s → (getQp s n).st = .hold → (getQp s n).holdWhy ≠ 4 →
    (getQp s n).req.hi ≠ (getQp s n).req.ack →
    elapsed s (getQp s n).req.holdSent (if (getQp s n).holdWhy = 3 then ms 1 else (getQp s n).interval) →
    exec (.holdResend n) s = .next (modQp n (fun q => { q with req := { q.req with
      resend := [q.req.ack], lone := [], holdSent := s.now } }) s)) ∧
  (∀ (n : Nat) (s : State), running s → (getQp s n).st = .hold →
    ((getQp s n).holdWhy = 1 ∨ (getQp s n).holdWhy = 2) → elapsed s (getQp s n).req.holdAt (getQp s n).holdLimit →
    exec (.holdLimit n) s = .next (failQp n (fun _ => stat cTIMEOUT) s)) ∧
  (∀ (n : Nat) (s : State), running s → (getQp s n).connected → ccEn s (getQp s n).rate.profile →
    elapsed s (getQp s n).rate.tInc (ratePeriod s (getQp s n).rate.profile) →
    exec (.ratePeriod n) s = .next (modQp n (fun q => { q with rate := rateStep s q.rate }) s)) ∧
  (∀ (s : State), running s → (s.wheel + 1) * 16 ≤ s.now.toNat →
    exec .wheelSlot s = .next (takeTurns ((s.facets.map Prod.fst).foldl slotFacet { s with wheel := s.wheel + 1 }))) ∧
  (∀ (n : Nat) (s : State),
    (elapsed s (getQp s n).req.timer (getQp s n).interval = false → exec (.resendTimeout n) s = .next s) ∧
    (elapsed s (getQp s n).req.holdSent (if (getQp s n).holdWhy = 3 then ms 1 else (getQp s n).interval) = false →
      exec (.holdResend n) s = .next s) ∧
    (elapsed s (getQp s n).req.holdAt (getQp s n).holdLimit = false → exec (.holdLimit n) s = .next s) ∧
    (elapsed s (getQp s n).rate.tInc (ratePeriod s (getQp s n).rate.profile) = false → exec (.ratePeriod n) s = .next s))

/-- GROUP_CREATE, GROUP_DESTROY, GROUP_QUERY, GROUP_SETUP_RESEND, SETUP_EXPIRY and TEARDOWN_RESEND complete. A
GROUP_CREATE that needs no operand to fail (an absent unit, a bad field or range) completes with that status. One
whose operands have been read and fail a check completes with the check's status; one of a GID that a command here is
creating completes GRP_BUSY; any other, with entropy at hand, draws the group tag and sends SETUP to every member
adapter. GROUP_DESTROY of a group here tears it down and sends TEARDOWN, and of a GID that is free here completes
GRP_STATE. GROUP_QUERY with a misaligned place completes BAD_FIELD, outside the facet's writable range ACCESS_DENIED,
and else, its place translated and released, writes the group record there. Commands whose answers are late send again
each 1 ms and end after 100 ms; a reservation is released after 200 ms. -/
def Obligations.GroupCommandsComplete : Prop :=
  (∀ (f q : Nat) (ms sd rd rc : List U64) (i : Item) (st : Status) (s : State), ready s f q 0x30 = some i →
    descHurt s f q = none → createRefused s i.desc → createCheck s i.desc (createAttr i.desc 0 [] [] [] []) = some st →
    exec (.groupCreate f q ms sd rd rc) s = .next (settle f (completeItem f q i.idx st (startItem f q i.idx s)))) ∧
  (∀ (f q : Nat) (ms sd rd rc : List U64) (i : Item) (s : State), ready s f q 0x30 = some i →
    descHurt s f q = none → createRefused s i.desc = false → streamBusy s (.desc q) = false →
    (let r := transRanges (.desc q) 0 false (createSpans i.desc) s
     let x := createRead r.1 i.desc (Config.entropy s.free) ms sd rd rc
     let t := readAll none 0 r.2.fresh (startItem f q i.idx r.1)
     let busy := r.1.grp.cmds.any (fun c => !c.destroy && decide (c.attr.gid = x.gid))
     let ends := fun (st : Status) => settle f (completeItem f q i.idx st (startItem f q i.idx (readAll none 0 r.2.fresh r.1)))
     placesReleased s 0 r.2.places → r.2.full →
     (∀ (st : Status), createCheck r.1 i.desc x = some st → exec (.groupCreate f q ms sd rd rc) s = .next (ends st)) ∧
     (createCheck r.1 i.desc x = none → busy → exec (.groupCreate f q ms sd rd rc) s = .next (ends (stat cGRP_BUSY))) ∧
     (createCheck r.1 i.desc x = none → busy = false → r.1.trust.ent = 1 →
       (let c : GroupCmd := { destroy := false, q := q, idx := i.idx, attr := x, adapters := adaptersOf x
                              all := adaptersOf x, start := r.1.now, sent := r.1.now }
        exec (.groupCreate f q ms sd rd rc) s = .next (settle f (sendPhase c (adaptersOf x) (drew 1 { t with
          grp := { t.grp with cmds := t.grp.cmds ++ [c] } }))))))) ∧
  (∀ (f q : Nat) (i : Item) (s : State), ready s f q 0x31 = some i →
    (let t := startItem f q i.idx s
     let gid := fld i.desc.w2 11 0
     let a := (getG s gid).attr
     let c : GroupCmd := { destroy := true, q := q, idx := i.idx, attr := a, adapters := adaptersOf a
                           all := adaptersOf a, start := s.now, sent := s.now }
     ((getG s gid).st ≠ .free → exec (.groupDestroy f q) s = .next (settle f (sendPhase c (adaptersOf a) (tearDown gid
       { t with grp := { t.grp with cmds := t.grp.cmds ++ [c] } })))) ∧
     ((getG s gid).st = .free →
       exec (.groupDestroy f q) s = .next (settle f (completeItem f q i.idx (stat cGRP_STATE) t))))) ∧
  (∀ (f q : Nat) (i : Item) (s : State), ready s f q 0x32 = some i →
    (let seg := fld i.desc.w3 7 0
     let r := transRanges (.desc q) 0 true [(seg, i.desc.w4, 64)] s
     let ends := fun (st : Status) => settle f (completeItem f q i.idx st (startItem f q i.idx s))
     (i.desc.w4.toNat % 64 ≠ 0 → exec (.groupQuery f q) s = .next (ends (stat cBAD_FIELD))) ∧
     (i.desc.w4.toNat % 64 = 0 → rangeCheck s 0 seg i.desc.w4 64 .lwr none = false →
       exec (.groupQuery f q) s = .next (ends (stat cACCESS_DENIED))) ∧
     (i.desc.w4.toNat % 64 = 0 → rangeCheck s 0 seg i.desc.w4 64 .lwr none → streamBusy s (.desc q) = false →
       placesReleased s 0 r.2.places → r.2.full →
       exec (.groupQuery f q) s = .next (settle f (postAll 0 (.after f q i.idx)
         (r.2.writes (wordBytes (groupRecord (getG r.1 (fld i.desc.w2 11 0))))) (startItem f q i.idx r.1)))))) ∧
  (∀ (gid : Nat) (c : GroupCmd) (s : State), running s →
    s.grp.cmds.filter (fun c => !c.destroy && decide (c.attr.gid = gid)) = [c] →
    (elapsed s c.start (ms 100) → exec (.groupSetupResend gid) s = .next (failCreate c (stat cGRP_UNREACHABLE) s)) ∧
    (elapsed s c.start (ms 100) = false → elapsed s c.sent (ms 1) → exec (.groupSetupResend gid) s =
      .next (sendPhase c c.adapters (modCmd c (fun c => { c with sent := s.now }) s))) ∧
    (elapsed s c.start (ms 100) = false → elapsed s c.sent (ms 1) = false → exec (.groupSetupResend gid) s = .next s)) ∧
  (∀ (gid : Nat) (s : State), running s → (getG s gid).st = .setup →
    exec (.setupExpiry gid) s = .next (if elapsed s (getG s gid).since (ms 200) then releaseGroup gid s else s)) ∧
  (∀ (gid : Nat) (c : GroupCmd) (s : State), running s →
    s.grp.cmds.filter (fun c => c.destroy && decide (c.attr.gid = gid)) = [c] →
    (elapsed s c.start (ms 100) → exec (.teardownResend gid) s = .next (endGroupCmd c stOk s)) ∧
    (elapsed s c.start (ms 100) = false → elapsed s c.sent (ms 1) → exec (.teardownResend gid) s =
      .next (sendPhase c c.adapters (modCmd c (fun c => { c with sent := s.now }) s))) ∧
    (elapsed s c.start (ms 100) = false → elapsed s c.sent (ms 1) = false → exec (.teardownResend gid) s = .next s))

/-- The 13 collective descriptors take their place in the group's order, or fail alone. A collective descriptor that
may start, of a local member of an ACTIVE group whose facet is the descriptor's: one that passes its start checks, its
auxiliary area read, takes the member's next CSN and waits in the group's order, where the group goes on, unless the
collective of that CSN has been aborted, whose status it then takes; one that fails a check completes with the check's
status, takes the CSN and aborts that collective; one that waits for its auxiliary area keeps what its access has
begun. For a group that is not ACTIVE it completes GROUP_INVALID, for a broken one COLL_MEMBER_LOST, and for a member
that is not local or not the facet's NOT_MEMBER. The four with an auxiliary area whose read failed take the failure's
reaction. -/
def Obligations.CollectiveDescriptorsTakeTheirPlace : Prop :=
  ∀ (f q : Nat) (aux : Bytes) (c : Instr) (op : Nat) (bs : Bytes),
    (c, op, bs) ∈ ([(.barrier f q, 0x10, []), (.allreduce f q, 0x11, []), (.reduce f q, 0x12, []),
      (.reduceScatter f q, 0x13, []), (.broadcast f q, 0x14, []), (.allgather f q, 0x15, []), (.gather f q, 0x16, []),
      (.scatter f q, 0x17, []), (.alltoall f q, 0x18, []), (.gatherv f q aux, 0x19, aux), (.alltoallv f q aux, 0x1A, aux),
      (.expertDispatch f q aux, 0x1B, aux), (.expertCombine f q aux, 0x1C, aux)] : List (Instr × Nat × Bytes)) →
    ∀ (i : Item) (s : State), ready s f q op = some i →
      (let t := restWake s
       let gid := cGid i.desc
       let m := cMember i.desc
       let g := getG t gid
       let mine := isLocal t g.attr m && decide (memFacet (attrMember g.attr m) = f)
       let r := startChecks f q i.idx (aget 0 m g.csn) g.attr i.desc bs t
       let ends := fun (st : Status) => settle f (completeItem f q i.idx st (startItem f q i.idx t))
       (∀ (h : Hurt), 0x19 ≤ op → descHurt s f q = some h → exec c s = .next (failDesc f (auxFailed f q op) h s)) ∧
       ((0x19 ≤ op → descHurt s f q = none) →
         (g.st = .broken → exec c s = .next (ends (stat cCOLL_MEMBER_LOST))) ∧
         (g.st ≠ .broken → g.st ≠ .active → exec c s = .next (ends (stat cGROUP_INVALID))) ∧
         (g.st = .active → mine = false → exec c s = .next (ends (stat cNOT_MEMBER))) ∧
         (g.st = .active → mine → r.2 = .wait → exec c s = .next r.1) ∧
         (∀ (st : Status), g.st = .active → mine → r.2 = .bad st → exec c s = .next (settle f (failMember gid m (aget 0 m g.csn)
           (takeCsn gid m (completeItem f q i.idx st (startItem f q i.idx r.1)))))) ∧
         (∀ (x : CollMember) (b : Aborted), g.st = .active → mine → r.2 = .good x →
           g.aborts.find? (fun b => decide (b.csn = aget 0 m g.csn)) = some b →
           exec c s = .next (settle f (completeItem f q i.idx b.st (takeCsn gid m (startItem f q i.idx r.1))))) ∧
         (∀ (x : CollMember), g.st = .active → mine → r.2 = .good x →
           g.aborts.find? (fun b => decide (b.csn = aget 0 m g.csn)) = none →
           exec c s = .next (settle f (runGroup gid (modG gid (fun g => { g with waiting := g.waiting ++ [x] })
             (takeCsn gid m (startItem f q i.idx r.1))))))))

/-- What every packet of a group meets before its type's rules: ICRC, header, restoration, group, collective and
signature. For every packet that only a group's member takes, while the fabric runs: a wrong ICRC and a header that
fails the checks are counted and the packet is discarded; while a warm reset restores it has no further effect; for a
group that is not here or has another group tag GONE answers. Of another collective than the running one, a RESEND or
CCONF is answered as for an ended one and any other data or recovery packet has no further effect. CDATA, COUNTS,
CAPACITY_FLAG, ANCHOR_PASS and CCONF of the running collective with another signature are counted, and the collective
ends as mismatched. -/
def Obligations.CollectivePacketsAreChecked : Prop :=
  (∀ (p : Packet) (c : Instr) (s : State),
    (c, true) ∈ ([(.cdata p, isColl 8 0 p), (.counts p, isColl 8 1 p), (.capacityFlag p, isColl 8 2 p),
      (.anchorPass p, isColl 8 3 p), (.cconf p, isColl 9 0 p), (.ccommit p, isColl 10 0 p), (.resend p, isColl 11 0 p),
      (.abort p, isColl 11 1 p), (.rollback p, isColl 11 2 p), (.held p, isColl 11 4 p), (.activate p, isColl 11 8 p),
      (.teardown p, isColl 11 10 p)] : List (Instr × Bool)) → fabricUp s →
    (p.icrc ≠ icrcOf p → exec c s = .next { s with zrt := { s.zrt with icrc := s.zrt.icrc + 1 } }) ∧
    (p.icrc = icrcOf p → headerOk p = false → exec c s = .next { s with zrt := { s.zrt with badHdr := s.zrt.badHdr + 1 } }) ∧
    (Whole p → restoring (heard p s) → exec c s = .next (heard p s)) ∧
    (Whole p → restoring (heard p s) = false →
      ((getG (heard p s) (gidOf p.ext)).st = .free ∨ (getG (heard p s) (gidOf p.ext)).attr.gtag ≠ p.bth.ctag) →
      exec c s = .next (sendGone p (heard p s)))) ∧
  (∀ (gid : Nat) (p : Packet) (c : Instr) (s : State),
    (c, true) ∈ ([(.cdata p, isColl 8 0 p), (.counts p, isColl 8 1 p), (.capacityFlag p, isColl 8 2 p),
      (.anchorPass p, isColl 8 3 p), (.ccommit p, isColl 10 0 p), (.rollback p, isColl 11 2 p),
      (.held p, isColl 11 4 p)] : List (Instr × Bool)) → ToGroup gid p s →
    (getRun (heard p s) gid).map (fun r => r.csn) ≠ some p.bth.msn → exec c s = .next (heard p s)) ∧
  (∀ (gid : Nat) (p : Packet) (s : State), ToGroup gid p s →
    (getRun (heard p s) gid).map (fun r => r.csn) ≠ some p.bth.msn →
    (isColl 11 0 p → exec (.resend p) s = .next (answerEnded gid none p (heard p s))) ∧
    (isColl 9 0 p → exec (.cconf p) s = .next (runGroup gid (answerEnded gid (some (argOf p.ext)) p (heard p s))))) ∧
  (∀ (gid : Nat) (r : Coll) (p : Packet) (s : State), ToGroup gid p s → getRun (heard p s) gid = some r →
    r.csn = p.bth.msn → sigOf p.ext ≠ r.sig →
    (let u := heard p s
     let v := runGroup gid (mismatch gid { u with grp := { u.grp with sigFail := u.grp.sigFail + 1 } })
     (∀ (c : Instr), (c, true) ∈ ([(.cdata p, isColl 8 0 p), (.counts p, isColl 8 1 p), (.capacityFlag p, isColl 8 2 p),
       (.anchorPass p, isColl 8 3 p)] : List (Instr × Bool)) → exec c s = .next v) ∧
     (isColl 9 0 p → exec (.cconf p) s = .next (runGroup gid v))))

/-- CDATA, COUNTS, CAPACITY_FLAG, ANCHOR_PASS, CCONF and CCOMMIT of the running collective complete. A packet of the
running collective with its signature is taken: CDATA enters its chunk, and an anchor does where the collective is
anchored; counts for a local member and a member's capacity flag are recorded where the descriptor has variable
counts, and else ignored; a child's CONF advances its index, and one that does not is answered by COMMIT; a COMMIT
commits the chunks below its index; and the collective goes on. -/
def Obligations.CollectiveDataPacketsAreTaken : Prop :=
  (∀ (gid : Nat) (r : Coll) (p : Packet) (s : State), ToRun gid r p s →
    (let u := seeAlt gid p (heard p s)
     let a := (getG u gid).attr
     (isColl 8 0 p → exec (.cdata p) s = .next (runGroup gid (takeData gid false p r u))) ∧
     (isColl 8 3 p → exec (.anchorPass p) s = .next (runGroup gid
       (if isAnchored a (runDesc r) then takeData gid true p r u else u))) ∧
     (isColl 8 1 p → isVar r.op → isLocal u a (dstMemberOf p.ext) →
       exec (.counts p) s = .next (runGroup gid (modRun gid (fun r => { r with
         counts := aset (dstMemberOf p.ext * 65536 + srcMemberOf p.ext) (ofLE (p.data.take 8)) r.counts
         srcMax := max r.srcMax (ofLE ((p.data.drop 8).take 8)) }) u))) ∧
     (isColl 8 1 p → (isVar r.op && isLocal u a (dstMemberOf p.ext)) = false → exec (.counts p) s = .next (runGroup gid u)) ∧
     (isColl 8 2 p → isVar r.op → srcMemberOf p.ext < attrN a →
       exec (.capacityFlag p) s = .next (runGroup gid (flagsKnown gid (modRun gid (fun r => { r with
         flags := aset (srcMemberOf p.ext) (decide (p.data.headD 0 ≠ 0)) r.flags }) u)))) ∧
     (isColl 8 2 p → (isVar r.op = false ∨ attrN a ≤ srcMemberOf p.ext) →
       exec (.capacityFlag p) s = .next (runGroup gid u)))) ∧
  (∀ (gid : Nat) (r : Coll) (p : Packet) (s : State), ToRun gid r p s → isColl 9 0 p →
    (let y := fromAdapter (heard p s) gid p
     let v := modRun gid (fun r => { r with degraded := r.degraded || brokenOf p.ext }) (seeAlt gid p (heard p s))
     (∀ (old : Nat), agetq y r.childConf = some old → argOf p.ext ≤ old →
       exec (.cconf p) s = .next (runGroup gid (runGroup gid (sendCommit gid [y] v)))) ∧
     ((∀ old, agetq y r.childConf = some old → old < argOf p.ext) →
       exec (.cconf p) s = .next (runGroup gid (runGroup gid (modRun gid (fun r => { r with
         childConf := aset y (argOf p.ext) r.childConf }) v)))))) ∧
  (∀ (gid : Nat) (r : Coll) (p : Packet) (s : State), ToGroup gid p s → getRun (heard p s) gid = some r →
    r.csn = p.bth.msn → isColl 10 0 p →
    exec (.ccommit p) s = .next (runGroup gid (commitTo gid (min (argOf p.ext) (r.chunks.getD 0))
      (modRun gid (fun r => { r with degraded := r.degraded || brokenOf p.ext }) (seeAlt gid p (heard p s))))))

/-- RESEND, ABORT, ROLLBACK and HELD complete. A RESEND for a chunk of the running collective that is not committed
sends that chunk again to the adapter that asks, with, for chunk 0 of a kind with variable counts, the counts and the
capacity flags; one for a committed chunk has no effect. An ABORT with reason 1 or 2 ends the collective of its CSN
here, one with reason 3 or 4 breaks the group, and any other has no effect; a ROLLBACK restarts the collective, from
the root for all; a HELD at the root is noted, and elsewhere is not. -/
def Obligations.CollectiveRecoveryPacketsAct : Prop :=
  (∀ (gid : Nat) (r : Coll) (p : Packet) (s : State), ToGroup gid p s → getRun (heard p s) gid = some r →
    r.csn = p.bth.msn → isColl 11 0 p →
    (let u := heard p s
     let y := fromAdapter u gid p
     (argOf p.ext < r.commit → exec (.resend p) s = .next u) ∧
     (r.commit ≤ argOf p.ext → (isVar r.op && decide (argOf p.ext = 0)) = false →
       exec (.resend p) s = .next (resendChunk gid (argOf p.ext) (some y) u)) ∧
     (r.commit = 0 → isVar r.op → argOf p.ext = 0 →
       (let v := r.members.foldl (fun s m => sendCounts gid (some y) m s) u
        exec (.resend p) s = .next (resendChunk gid 0 (some y)
          ((r.flags.filter (fun x => isLocal v (getG v gid).attr x.1)).foldl
            (fun s x => sendFlag gid (some y) r.csn r.sig x.1 x.2 s) v)))))) ∧
  (∀ (gid : Nat) (p : Packet) (s : State), ToGroup gid p s → isColl 11 1 p →
    (argOf p.ext = 1 ∨ argOf p.ext = 2 → exec (.abort p) s = .next (runGroup gid (abortHere gid {
      csn := p.bth.msn, reason := argOf p.ext, member := srcMemberOf p.ext
      st := reasonStatus (argOf p.ext) (srcMemberOf p.ext) } (heard p s)))) ∧
    (argOf p.ext = 3 ∨ argOf p.ext = 4 → exec (.abort p) s = .next (breakGroup gid (argOf p.ext) (heard p s))) ∧
    (argOf p.ext = 0 ∨ 5 ≤ argOf p.ext → exec (.abort p) s = .next (heard p s))) ∧
  (∀ (gid : Nat) (r : Coll) (p : Packet) (s : State), ToGroup gid p s → getRun (heard p s) gid = some r →
    r.csn = p.bth.msn →
    (let u := seeAlt gid p (heard p s)
     (isColl 11 2 p → exec (.rollback p) s = .next (runGroup gid (if isRoot u (getG u gid).attr then rollAll gid u
       else rollBack gid (argOf p.ext) u))) ∧
     (isColl 11 4 p → exec (.held p) s = .next (runGroup gid (if isRoot u (getG u gid).attr then
       takeHeld gid (fromAdapter u gid p) (decide (argOf p.ext = 1)) u else u)))))

/-- GONE, SETUP, SETUP_OK, REFUSE, ACTIVATE, ACTIVE_OK and TEARDOWN complete. A GONE counts as the answer that a
GROUP_DESTROY of its group waits for, and from a member adapter of an ACTIVE group it breaks the group. A SETUP that
passes reserves the group and is answered SETUP_OK, one that repeats the setup of the group is answered SETUP_OK
again, and one that fails is answered REFUSE with its reason. SETUP_OK and ACTIVE_OK advance the creating command that
waits for them, and have no effect on one that does not; REFUSE ends it; without such a command each has no effect
where the group is here, and is answered GONE where it is not. ACTIVATE makes a reserved group ACTIVE, or leaves an
ACTIVE one so, and is answered; in another state it has no effect. TEARDOWN tears the group down and is answered with
GONE once it is free here. -/
def Obligations.GroupPacketsSetUpAndRelease : Prop :=
  (∀ (p : Packet) (s : State), Whole p → fabricUp s → isColl 11 3 p → restoring (heard p s) = false →
    (let u := heard p s
     let gid := gidOf p.ext
     let y := (epAdapter p.bth.srcEp).toNat
     let v := match cmdFor u true gid p.bth.ctag with | some c => answered c y u | none => u
     let mine := decide ((getG v gid).st = .active ∧ (getG v gid).attr.gtag = p.bth.ctag ∧ y ≠ me v ∧
       y ∈ adaptersOf (getG v gid).attr)
     (mine → exec (.gone p) s = .next (breakGroup gid 4 (sendAbort gid
       (match (getG v gid).run with | some r => r.csn | none => (getG v gid).endCsn) 4 (ownLow v (getG v gid).attr) v))) ∧
     (mine = false → exec (.gone p) s = .next v))) ∧
  (∀ (a : GroupAttr) (p : Packet) (s : State), Whole p → fabricUp s → isColl 11 5 p → gidOf p.ext = a.gid →
    restoring (heard p s) = false →
    (let u := heard p s
     let g := getG u a.gid
     let again := decide ((g.st = .setup ∨ g.st = .active) ∧ g.attr = a)
     (again → exec (.setup p a) s = .next (toEndpoint a p.bth.srcEp { typ := 11, sub := 6 } u)) ∧
     (again = false → setupCode u a = 0 →
       exec (.setup p a) s = .next (toEndpoint a p.bth.srcEp { typ := 11, sub := 6 } (reserveGroup a u))) ∧
     (again = false → setupCode u a ≠ 0 →
       exec (.setup p a) s = .next (toEndpoint a p.bth.srcEp { typ := 11, sub := 7, arg := setupCode u a } u)))) ∧
  (∀ (c : GroupCmd) (p : Packet) (s : State), Whole p → fabricUp s →
    cmdFor (heard p s) false (gidOf p.ext) p.bth.ctag = some c →
    (let u := heard p s
     let v := answered c (epAdapter p.bth.srcEp).toNat u
     (isColl 11 6 p → exec (.setupOk p) s = .next (if c.activating then u else v)) ∧
     (isColl 11 7 p → exec (.refuse p) s = .next (failCreate c (statD (argOf p.ext) (srcMemberOf p.ext)) u)) ∧
     (isColl 11 9 p → exec (.activeOk p) s = .next (if c.activating then v else u)))) ∧
  (∀ (p : Packet) (c : Instr) (s : State),
    (c, true) ∈ ([(.setupOk p, isColl 11 6 p), (.refuse p, isColl 11 7 p), (.activeOk p, isColl 11 9 p)] :
      List (Instr × Bool)) → Whole p → fabricUp s → cmdFor (heard p s) false (gidOf p.ext) p.bth.ctag = none →
    restoring (heard p s) = false →
    (let u := heard p s
     let g := getG u (gidOf p.ext)
     exec c s = .next (if g.st = .free ∨ g.attr.gtag ≠ p.bth.ctag then sendGone p u else u))) ∧
  (∀ (gid : Nat) (p : Packet) (s : State), ToGroup gid p s → isColl 11 8 p →
    (let g := getG (heard p s) gid
     (g.st = .setup ∨ g.st = .active → exec (.activate p) s = .next (toEndpoint g.attr p.bth.srcEp { typ := 11, sub := 9 }
       (modG gid (fun g => { g with st := .active }) (heard p s)))) ∧
     (g.st ≠ .setup → g.st ≠ .active → exec (.activate p) s = .next (heard p s)))) ∧
  (∀ (gid : Nat) (p : Packet) (s : State), ToGroup gid p s → isColl 11 10 p →
    (let t := tearDown gid (heard p s)
     exec (.teardown p) s = .next (if (getG t gid).st = .free then sendGone p t else t)))

/-- CONF_RESEND, CHUNK_RESEND_REQUEST, COLL_HOLD_LIMIT, PRISM_CHUNK_DONE, RESIDUE_ERROR, RESIDUE_WINDOW and
PRISM_POWER_UP complete. Each timer acts once its interval has passed, and before that has no effect: CONF goes again
while it is not committed; an open chunk without progress is asked of the adapters that owe it, before the counts are
known the counts are; the hold limit breaks the group, at the root with ABORT, unless a member holds it. A chunk that
its cluster has finished is placed and the collective goes on; where a residue error is to be injected into the
cluster, it strikes instead. A residue error of a cluster counts and logs; up to the limit of its window the chunk is
computed again, above it the cluster is fenced; without a chunk it has no effect. The window's counts restart; the
clusters power up. -/
def Obligations.CollectiveTimersAndPrismClustersAct : Prop :=
  (∀ (gid : Nat) (r : Coll) (s : State), running s → getRun s gid = some r →
    exec (.confResend gid) s = .next (if r.commit < r.conf ∧ elapsed s r.tConf (rqInterval s) then sendConf gid s else s)) ∧
  (∀ (gid c : Nat) (r : Coll) (s : State), running s → getRun s gid = some r → r.data → c ∈ openChunks r →
    exec (.chunkResendRequest gid c) s = .next (if elapsed s (getCh r c).progress (rqInterval s) then
      askChunk gid c (owing s (getG s gid) r c) s else s)) ∧
  (∀ (gid : Nat) (r : Coll) (s : State), running s → getRun s gid = some r → r.data = false →
    exec (.chunkResendRequest gid 0) s = .next (if elapsed s r.tCommit (rqInterval s) then askCounts gid s else s)) ∧
  (∀ (gid : Nat) (r : Coll) (s : State), running s → (getG s gid).run = some r → isRoot s (getG s gid).attr →
    exec (.collHoldLimit gid) s = .next (if r.heldBy = [] ∧ elapsed s r.tCommit (ms (2 ^ (getG s gid).attr.holdExp)) then
      breakGroup gid 3 (sendAbort gid r.csn 3 (ownLow s (getG s gid).attr) s) else s)) ∧
  (∀ (gid : Nat) (r : Coll) (s : State), running s → (getG s gid).run = some r → isRoot s (getG s gid).attr = false →
    exec (.collHoldLimit gid) s = .next (if elapsed s r.tCommit (2 * ms (2 ^ (getG s gid).attr.holdExp)) then
      breakGroup gid 3 s else s)) ∧
  (∀ (gid c k : Nat) (r : Coll) (s : State), running s → getRun s gid = some r → (getCh r c).cluster = some k →
    ((0x10, k) ∉ s.err.injections → exec (.prismChunkDone gid c) s = .next (runGroup gid
      (modCh gid c (fun x => { x with cluster := none }) (clusterWork gid c k s)))) ∧
    ((0x10, k) ∈ s.err.injections → exec (.prismChunkDone gid c) s = .next (residue k 0 0 false true { s with
      err := { s.err with injections := s.err.injections.erase (0x10, k) } }))) ∧
  (∀ (k lane slice : Nat) (other : Bool) (x : Nat × Nat) (s : State), running s → struckChunk s k = some x →
    (let v := countRun k x { s with free := s.free + 1 }
     let n := aget 0 k s.prism.winCnt + 1
     let t := collect 0x10 clsUC k false (BitVec.ofNat 64 (x.1 + x.2 * 2 ^ 32)) (lane + slice * 2 ^ 5) 2
       (some (chargeFacet v (getG v x.1).attr)) { v with prism := { v.prism with
         resCnt := amod 0 k (fun c => c + 1) v.prism.resCnt, winCnt := aset k n v.prism.winCnt
         log := resLog k lane slice other x, logAt := some v.now } }
     (n ≤ regf t 0xD404 7 0 → exec (.residueError k lane slice other) s = .next (runGroup x.1 (recomputeChunk k t x))) ∧
     (regf t 0xD404 7 0 < n → exec (.residueError k lane slice other) s = .next (fencePrism k true false t)))) ∧
  (∀ (k lane slice : Nat) (other : Bool) (s : State), struckChunk s k = none →
    exec (.residueError k lane slice other) s = .next s) ∧
  (∀ (s : State), awake s → exec .residueWindow s = .next (if elapsed s s.prism.winAt (ms (2 ^ regf s 0xD404 11 8)) then
    { s with prism := { s.prism with winCnt := [], winAt := s.now } } else s)) ∧
  (∀ (s : State), running s → s.prism.powering →
    exec .prismPowerUp s = .next (wakeColls { s with prism := { s.prism with powered := true, powering := false } }))

/-- The training commands of a link complete. With the fabric up and the link present: a signal takes DETECT to TRAIN,
equalization TRAIN to ALIGN, lock and deskew ALIGN or RETRAIN to EXCHANGE with a link word sent; probes and time
limits lead back to DETECT once their interval has passed, and before that leave the link where it is; loss of lock
and SVL_LNK_CTRL.RETRAIN take an ACTIVE link down to RETRAIN, counted and reported; the end of the miswire hold clears
the link's MISWIRE bit. A far word in EXCHANGE that fails the checks makes the link MISWIRED, one that passes makes it
ACTIVE where the far LSTATE is EXCHANGE or ACTIVE and else is noted; a far word on an ACTIVE link that shows the far
end not ACTIVE takes the link down. In every other state each command leaves the link as it is. (After each, chunks
that a link lost are sent again.) -/
def Obligations.LinkTrainingMovesThroughItsStates : Prop :=
  (∀ (n : Nat) (s : State), fabricUp s → hasLink s n →
    (let goes := fun (st : LState) => modL n (fun l => { l with st := st, since := s.now }) s
     ((getL s n).st = .detect → exec (.signalDetect n) s = .next (resendLost (goes .train))) ∧
     ((getL s n).st = .detect → exec (.detectProbe n) s =
       .next (resendLost (if elapsed s (getL s n).since (ms 1) then goes .detect else s))) ∧
     ((getL s n).st = .train → exec (.equalizationDone n) s = .next (resendLost (goes .align))) ∧
     ((getL s n).st = .train → exec (.trainTimeout n) s =
       .next (resendLost (if elapsed s (getL s n).since (ms 20) then goes .detect else s))) ∧
     ((getL s n).st = .align ∨ (getL s n).st = .retrain → exec (.lockAndDeskew n) s =
       .next (resendLost (emit (linkWord s 4 0 n) (modL n (fun l => { l with lwAt := s.now }) (goes .exchange))))) ∧
     ((getL s n).st = .align ∨ (getL s n).st = .retrain → exec (.alignTimeout n) s =
       .next (resendLost (if elapsed s (getL s n).since (ms 1) then linkLeave n .detect s else s))) ∧
     ((getL s n).st = .exchange → exec (.exchangeTimeout n) s =
       .next (resendLost (if elapsed s (getL s n).lwAt (ms 1) then linkLeave n .detect s else s))) ∧
     ((getL s n).st = .miswired → exec (.miswireHoldEnd n) s = .next (resendLost (if elapsed s (getL s n).since (ms 1000) then
       linkTo n .detect { s with fab := { s.fab with miswire := s.fab.miswire &&& ~~~(BitVec.ofNat 24 (2 ^ n)) } }
       else s))))) ∧
  (∀ (n : Nat) (s : State) (c : Instr), c ∈ ([.lossOfLock n, .svlLnkCtrlRetrain n] : List Instr) → fabricUp s →
    hasLink s n → (getL s n).st = .active →
    exec c s = .next (resendLost (svlDownEvent n false (linkLeave n .retrain
      (modL n (fun l => { l with down := l.down + 1 }) s))))) ∧
  (∀ (n : Nat) (s : State) (c : Instr) (l : List LState),
    (c, l) ∈ ([(.signalDetect n, [.detect]), (.detectProbe n, [.detect]), (.equalizationDone n, [.train]),
      (.trainTimeout n, [.train]), (.lockAndDeskew n, [.align, .retrain]), (.alignTimeout n, [.align, .retrain]),
      (.exchangeTimeout n, [.exchange]), (.lossOfLock n, [.active]), (.svlLnkCtrlRetrain n, [.active]),
      (.miswireHoldEnd n, [.miswired])] : List (Instr × List LState)) → fabricUp s → hasLink s n →
    (getL s n).st ∉ l → exec c s = .next (resendLost s)) ∧
  (∀ (n : Nat) (lw : BitVec 40) (s : State), fabricUp s → hasLink s n → (getL s n).st = .exchange →
    (let t := modL n (fun l => { l with far := BitVec.ofNat 32 (fld lw 35 6 + 2 ^ 30), lwAt := s.now }) s
     (farPasses t n lw = false → exec (.farLinkWord n lw) s = .next (resendLost (collect 0x16 clsUC n false 0 0 0 none
       (linkTo n .miswired { t with fab := { t.fab with miswire := t.fab.miswire ||| BitVec.ofNat 24 (2 ^ n) } })))) ∧
     (farPasses t n lw → fld lw 3 0 = 4 ∨ fld lw 3 0 = 5 →
       exec (.farLinkWord n lw) s = .next (resendLost (activate n (decide (fld lw 3 0 = 5)) t))) ∧
     (farPasses t n lw → fld lw 3 0 ≠ 4 → fld lw 3 0 ≠ 5 → exec (.farLinkWord n lw) s = .next (resendLost t)))) ∧
  (∀ (n : Nat) (lw : BitVec 40) (s : State), fabricUp s → hasLink s n → (getL s n).st = .active →
    (fld lw 3 0 = 5 → exec (.farLinkWord n lw) s = .next (resendLost (modL n (fun l => { l with farUp := true }) s))) ∧
    (fld lw 3 0 ≠ 5 → exec (.farLinkWord n lw) s = .next (resendLost
      (if (getL s n).farUp ∨ fld lw 3 0 ≠ 4 then linkDown n s else s)))) ∧
  (∀ (n : Nat) (lw : BitVec 40) (s : State), fabricUp s → hasLink s n → (getL s n).st ≠ .exchange →
    (getL s n).st ≠ .active → exec (.farLinkWord n lw) s = .next (resendLost s))

/-- LPREQ_REQUEST_SLEEP, LPREQ_GRANT_SLEEP, LPREQ_WAKE, FLIT, REPLAY_TIMER and FEC_WINDOW complete. A request to sleep
on an ACTIVE link with nothing queued is granted, and with packets queued is not; a grant that was asked for lets the
link sleep, and one that was not has no effect; a wake takes a sleeping link to ALIGN, with LPREQ 3 where this side
sends it; a flit on a live link is received, with an uncorrectable codeword where one is to be injected; with hop
retry on, unacknowledged flits are replayed when the replay timer ends, until the limit of replays, which takes the
link down; the FEC window's count restarts when the window has passed. -/
def Obligations.LinksSleepCarryFlitsAndReplay : Prop :=
  (∀ (n : Nat) (s : State), fabricUp s → hasLink s n → (getL s n).st = .active →
    (let none_ := (getL s n).tx.q.pkts = [] ∧ ∀ v, v < 8 → aget [] v (getL s n).tx.ready = []
     (none_ → exec (.lpreqRequestSleep n) s = .next (resendLost (maySleep n (emit (linkWord s 5 2 n)
       (modL n (fun l => { l with granted := true }) s))))) ∧
     (¬ none_ → exec (.lpreqRequestSleep n) s = .next (resendLost s)))) ∧
  (∀ (n : Nat) (s : State), fabricUp s → hasLink s n → (getL s n).st = .active →
    exec (.lpreqGrantSleep n) s = .next (resendLost (if (getL s n).asked then
      maySleep n (modL n (fun l => { l with granted := true }) s) else s))) ∧
  (∀ (n : Nat) (s : State), fabricUp s → hasLink s n → (getL s n).st = .sleep →
    (let t := modL n (fun l => { l with st := .align, since := s.now }) s
     exec (.lpreqWake n true) s = .next (resendLost (emit (linkWord s 3 3 n) t)) ∧
     exec (.lpreqWake n false) s = .next (resendLost t))) ∧
  (∀ (n unc corr : Nat) (x : BitVec 96) (fc : U32) (bs : Bytes) (s : State), fabricUp s → linkLive s n →
    ((0x14, n) ∉ s.err.injections →
      exec (.flit n unc corr x fc bs) s = .next (resendLost (recvFlit n unc corr false (fc ++ x) bs s))) ∧
    ((0x14, n) ∈ s.err.injections → exec (.flit n unc corr x fc bs) s =
      .next (resendLost (recvFlit n (max 1 unc) corr true (fc ++ x) bs { s with
        err := { s.err with injections := s.err.injections.erase (0x14, n) } })))) ∧
  (∀ (n : Nat) (f : TxFlit) (r : List TxFlit) (s : State), fabricUp s → linkLive s n → hopRetry s →
    (getL s n).tx.unacked = f :: r → elapsed s (getL s n).tx.timer (64 * 2 ^ regf s 0xE008 13 10) →
    ((getL s n).tx.replays < max 1 (regf s 0xE008 17 14) →
      exec (.replayTimer n) s = .next (resendLost (replayFlits n true (f :: r) (modL n (fun l => { l with
        replay := l.replay + 1
        tx := { l.tx with
          replays := l.tx.replays + 1, replayFrom := some f.fseq, timer := s.now } }) s)))) ∧
    (max 1 (regf s 0xE008 17 14) ≤ (getL s n).tx.replays →
      exec (.replayTimer n) s = .next (resendLost (linkDown n s)))) ∧
  (∀ (n : Nat) (s : State), fabricUp s → hasLink s n → exec (.fecWindow n) s = .next (resendLost
    (if elapsed s (getL s n).fecAt (us (2 ^ regf s 0xE008 21 18)) then
      modL n (fun l => { l with winUnc := 0, fecAt := s.now }) s else s)))

/-- RING, RING_REFRESH, NOROUTE and GW_SHUN_EXPIRY complete. A RING notice of a coordinate in the ring is counted and
applied when it is the first, is newer by its sequence number or the last is 2 ms old, is noted as heard otherwise,
and is forwarded until K - 1 hops; one of another kind, dimension or coordinate has no effect. Each 1 ms a notice of
every dimension of size 2 or more leaves in both directions; before that one of each dimension whose own hops have
changed does. A NOROUTE that names no replaceable gateway makes its adapter unreachable, one that GW1 can stand in for
shuns the pod's gateway, and a notice of another kind has no effect; a shun ends after 100 ms, not before. -/
def Obligations.FabricNoticesAct : Prop :=
  (∀ (m : Notice) (s : State), fabricUp s →
    (let d := fld m.w0 5 4
     let c := fld m.w0 9 6
     let key := d * 16 + c
     let q := BitVec.ofNat 8 (fld m.w0 19 12)
     let fresh := match agetq key s.fab.marks with
       | none => true
       | some o => decide (1 ≤ (q - o.nseq).toNat ∧ (q - o.nseq).toNat ≤ 127) || elapsed s o.heard (ms 2)
     let t := if fresh then { s with fab := { s.fab with
         notices := s.fab.notices + 1
         marks := aset key { nseq := q, below := bit m.w0 10, above := bit m.w0 11, heard := s.now } s.fab.marks } }
       else { s with fab := { s.fab with marks := amod default key (fun o => { o with heard := s.now }) s.fab.marks } }
     (fld m.w0 3 0 = 2 → d < 3 → c < ringSize s d → exec (.ring m) s = .next (if m.rh.hops.toNat < ringSize s d - 1 then
       sendRing (2 * d + b2n m.rh.dir) (2 * d + b2n (!m.rh.dir)) 0 m (m.rh.hops.toNat + 1) t else t)) ∧
     (fld m.w0 3 0 ≠ 2 ∨ 3 ≤ d ∨ ringSize s d ≤ c → exec (.ring m) s = .next s))) ∧
  (∀ (s : State), fabricUp s →
    (elapsed s s.fab.refreshAt (ms 1) →
      exec .ringRefresh s = .next (([0, 1, 2].filter (fun d => decide (2 ≤ ringSize s d))).foldl originate
        { s with fab := { s.fab with refreshAt := s.now } })) ∧
    (elapsed s s.fab.refreshAt (ms 1) = false →
      exec .ringRefresh s = .next (([0, 1, 2].filter (fun d => decide (2 ≤ ringSize s d) &&
        decide (aget (false, false) d s.fab.told ≠ ownHops s d))).foldl originate s))) ∧
  (∀ (m : Notice) (s : State), fabricUp s →
    (let pod := podOf (cut 24 m.w1 13)
     let e := reg s (0xE200 + 8 * pod)
     let spare := bit m.w1 12 ∧ bit e 25 ∧ bit e 24 ∧ fld e 11 0 = fld m.w1 11 0
     (fld m.w0 3 0 ≠ 1 → exec (.noroute m) s = .next s) ∧
     (fld m.w0 3 0 = 1 → ¬ spare → exec (.noroute m) s = .next (unreachable (cut 24 m.w1 13) s)) ∧
     (fld m.w0 3 0 = 1 → spare → exec (.noroute m) s = .next { s with fab := { s.fab with
       shun := aset pod s.now s.fab.shun } }))) ∧
  (∀ (pod : Nat) (t : U64) (s : State), agetq pod s.fab.shun = some t →
    exec (.gwShunExpiry pod) s = .next (if elapsed s t (ms 100) then
      { s with fab := { s.fab with shun := adel pod s.fab.shun } } else s))

/-- SEGMENT_WRITE, SEGMENT_INVALIDATE and SEGMENT_READ complete. On a facet that is ON with its segment commands idle:
a WRITE whose fields pass, of a segment that is not in use and whose tiles fit the allotment, replaces the entry,
discards its tile records and ends with result 0, and so does an INVALIDATE of a valid segment that is not in use,
which clears VALID; where pieces translated through the old entry are unfinished either stays BUSY until they end; an
INVALIDATE of an invalid entry ends with 0. A READ loads the registers from the entry and leaves KEY. A WRITE with a
bad field, either command of a segment in use, and a WRITE beyond the allotment change no entry and end with
BAD_FIELD, IN_USE and NO_RESOURCE. While a command is BUSY the others have no effect. -/
def Obligations.SegmentCommandsComplete : Prop :=
  (∀ (f : Nat) (s : State), running s → segIdle s f →
    (let x := (getF s f).xlt
     let n := x.num.toNat
     let fits := tilesUsed s f + segTiles (segOf x) ≤ x.tilesAllot.toNat + segTiles (getSeg s f n)
     let writes := fun (g : FacetXlt → FacetXlt) => settle f (segResult f 0 (dropTiles f n
       (modF f (fun y => { y with xlt := g y.xlt }) s)))
     (segBad s f x → exec (.segmentWrite f) s = .next (segResult f cBAD_FIELD s)) ∧
     (segBad s f x = false → segInUse s f n → exec (.segmentWrite f) s = .next (segResult f cIN_USE s)) ∧
     (segBad s f x = false → segInUse s f n = false → ¬ fits →
       exec (.segmentWrite f) s = .next (segResult f cNO_RESOURCE s)) ∧
     (segBad s f x = false → segInUse s f n = false → fits → segQuiet s f n →
       exec (.segmentWrite f) s = .next (writes (fun y => { y with segs := aset n (segOf x) y.segs }))) ∧
     (segBad s f x = false → segInUse s f n = false → fits → segQuiet s f n = false →
       exec (.segmentWrite f) s = .next (modF f (fun y => { y with xlt := { y.xlt with busy := 1 } }) s)) ∧
     (segInUse s f n → exec (.segmentInvalidate f) s = .next (segResult f cIN_USE s)) ∧
     (segInUse s f n = false → (getSeg s f n).valid → segQuiet s f n →
       exec (.segmentInvalidate f) s = .next (writes (fun y => { y with
         segs := amod {} n (fun g => { g with valid := false }) y.segs }))) ∧
     (segInUse s f n = false → (getSeg s f n).valid → segQuiet s f n = false →
       exec (.segmentInvalidate f) s = .next (modF f (fun y => { y with xlt := { y.xlt with busy := 2 } }) s)) ∧
     (segInUse s f n = false → (getSeg s f n).valid = false →
       exec (.segmentInvalidate f) s = .next (segResult f 0 s)))) ∧
  (∀ (f : Nat) (s : State), running s → segIdle s f →
    (let g := getSeg s f (getF s f).xlt.num.toNat
     ∃ t, exec (.segmentRead f) s = .next t ∧ (getF t f).xlt.result = 0 ∧ (getF t f).xlt.busy = 0 ∧
      (getF t f).xlt.base = g.base ∧ (getF t f).xlt.limit = g.limit ∧ fld (getF t f).xlt.attr 2 0 = g.target.toNat ∧
      bit (getF t f).xlt.attr 3 = g.lrd ∧ bit (getF t f).xlt.attr 4 = g.lwr ∧ bit (getF t f).xlt.attr 5 = g.rrd ∧
      bit (getF t f).xlt.attr 6 = g.rwr ∧ bit (getF t f).xlt.attr 7 = g.pin ∧ bit (getF t f).xlt.attr 8 = g.valid ∧
      (getF t f).xlt.key = (getF s f).xlt.key ∧ (getF t f).xlt.segs = (getF s f).xlt.segs)) ∧
  (∀ (f : Nat) (s : State), segIdle s f = false → exec (.segmentWrite f) s = .next s ∧
    exec (.segmentInvalidate f) s = .next s ∧ exec (.segmentRead f) s = .next s)

/-- TRANSLATION_MISS_DONE, FAULT_RERAISE, FLT_RESUME, FLT_CFG_WRITE, FLT_CONS and FLT_ARM complete. A tile record that
was fetched is cached, another waiting stream's fetch begins and its stream goes on; held faults are raised again, the
first of them parked, released or raised as its tile now stands, while a record and a slot are free, and else stay; a
FLT_RESUME whose tag names an open record, written by facet 0, resumes or aborts what waits on it, and one with
another tag has no effect; FLT_CFG, FLT_CONS and FLT_ARM take the written values under their rules. Another facet's
write has no effect. -/
def Obligations.FaultQueueCommandsComplete : Prop :=
  (∀ (st : Stream) (m : Miss) (s : State), running s →
    s.xlt.misses.find? (fun m => decide (m.piece.stream = st) && m.flying) = some m →
    exec (.translationMissDone st) s = .next (goOn st (makeResident
      (tileKey m.piece.facet m.piece.seg (Piece.tile m.piece)) (grantMiss { s with xlt := { s.xlt with
        misses := s.xlt.misses.filter (fun x => decide (x.piece.stream ≠ st)) } })))) ∧
  (∀ (p : Piece) (r : List Piece) (s : State), running s → s.xlt.heldFaults = p :: r → canRaise s →
    (let t := { s with xlt := { s.xlt with heldFaults := r } }
     let x := getTile s p.facet p.seg (Piece.tile p)
     exec .faultReraise s = .next (reraise r (if x.migrating then parkOnMig p t else if x.present then goOn p.stream t
       else raiseFaults p [p] t)))) ∧
  (∀ (s : State), canRaise s = false → exec .faultReraise s = .next s) ∧
  (∀ (v : U32) (r : FltRec) (s : State), running s → agetq (fld v 11 0) s.xlt.recs = some r →
    (let t := dropRec (fld v 11 0) s
     ((recGen s (fld v 11 0)).toNat = fld v 30 12 → bit v 31 = false →
       exec (.fltResume 0 v) s = .next (goOnAll r.waiters (retranslate r.waiters t))) ∧
     ((recGen s (fld v 11 0)).toNat = fld v 30 12 → bit v 31 →
       exec (.fltResume 0 v) s = .next (r.waiters.foldl (fun s p => abortPiece p (clearBegun p.stream s)) t)) ∧
     ((recGen s (fld v 11 0)).toNat ≠ fld v 30 12 → exec (.fltResume 0 v) s = .next s))) ∧
  (∀ (v : U32) (s : State), agetq (fld v 11 0) s.xlt.recs = none → exec (.fltResume 0 v) s = .next s) ∧
  (∀ (v : U64) (s : State), running s →
    (let seg := if fltEn s then fld s.xlt.fltCfg 7 0 else fld v 7 0
     let on := bit v 20 && (fltEn s || pinCheck s 0 seg s.xlt.fltOff (4096 * 32) [.lwr])
     exec (.fltCfgWrite 0 v) s = .next (fltSignal { s with xlt := { s.xlt with
       fltCfg := BitVec.ofNat 64 (seg + fld v 19 8 * 2 ^ 8 + b2n on * 2 ^ 20) } }))) ∧
  (∀ (v : U32) (s : State), running s → exec (.fltCons 0 v) s = .next
    (if (v - s.xlt.fltCons).toNat ≤ (s.xlt.fltProd - s.xlt.fltCons).toNat then
      { s with xlt := { s.xlt with fltCons := v } } else s)) ∧
  (∀ (v : U32) (s : State), running s → exec (.fltArm 0 v) s = .next
    (if bit v 0 then fltSignal { s with xlt := { s.xlt with fltArmed := true } } else s)) ∧
  (∀ (f : Nat) (v : U32) (w : U64) (s : State), f ≠ 0 →
    exec (.fltResume f v) s = .next s ∧ exec (.fltCfgWrite f w) s = .next s ∧ exec (.fltCons f v) s = .next s ∧
      exec (.fltArm f v) s = .next s)

/-- TILE_MIGRATE, TILE_MAP and the MIGRATION commands complete. A TILE_MIGRATE or TILE_MAP that passes its checks is
queued, and one that fails them completes BAD_FIELD. The one that was accepted first of those that wait begins, with
its tile marked migrating, when fewer than eight copies run and none of its tile; one that no longer passes completes
BAD_FIELD, and a migration to the place the tile has completes OK. Once nothing translated to the old place is
unfinished, a TILE_MAP ends and a migration takes a channel and asks for its source's bytes, where the mover is not
stopped and a channel is free; else it waits. The copied bytes are written at the new place, and the migration waits
for their confirmation; a source that reads as failed takes the mover's reaction. A channel's copy after a fence ends,
and the copy back ends an unfence. -/
def Obligations.TileMigrationsRunToTheirEnd : Prop :=
  (∀ (f q op : Nat) (isMap : Bool) (c : Instr), (c, op, isMap) ∈
      ([(.tileMigrate f q, 0x33, false), (.tileMap f q, 0x34, true)] : List (Instr × Nat × Bool)) →
    ∀ (i : Item) (s : State), ready s f q op = some i →
      (let t := startItem f q i.idx s
       let m := migOf q isMap i
       (migBad t m = false → exec c s = .next (settle f { t with xlt := { t.xlt with migs := t.xlt.migs ++ [m] } })) ∧
       (migBad t m → exec c s = .next (settle f (completeItem f q i.idx (stat cBAD_FIELD) t))))) ∧
  (∀ (m : Mig) (s : State), running s → leastBy Mig.seq (s.xlt.migs.filter (fun m => decide (m.phase = 0))) = some m →
    (let run := s.xlt.migs.filter (fun x => decide (1 ≤ x.phase))
     let full := run.any (Mig.same m) || decide (8 ≤ (run.filter (fun x => !x.isMap)).length)
     let x := getTile s m.facet m.seg m.tile
     let there := !m.isMap && decide (x.loc = m.loc ∧ x.addr = m.addr)
     (full → exec .migrationBegin s = .next s) ∧
     (full = false → migBad s m → exec .migrationBegin s = .next (endMig m (stat cBAD_FIELD) s)) ∧
     (full = false → migBad s m = false → there → exec .migrationBegin s = .next (endMig m stOk s)) ∧
     (full = false → migBad s m = false → there = false → exec .migrationBegin s =
       .next (modMig m (fun m => { m with phase := 2 }) (setTile m.facet m.seg m.tile { x with migrating := true } s))))) ∧
  (∀ (f g t : Nat) (m : Mig) (s : State), running s → migIn s f g t 2 = some m →
    (drained s (getTile s f g t) = false → exec (.migrationDrained f g t) s = .next s) ∧
    (drained s (getTile s f g t) → m.isMap → exec (.migrationDrained f g t) s = .next (finishMig m s)) ∧
    (drained s (getTile s f g t) → m.isMap = false → s.mov.stopped ∨ freeChan s 24 8 = none →
      exec (.migrationDrained f g t) s = .next s) ∧
    (∀ (c : Nat), drained s (getTile s f g t) → m.isMap = false → s.mov.stopped = false → freeChan s 24 8 = some c →
      exec (.migrationDrained f g t) s = .next (askMigs (modMig m (fun m => { m with phase := 4, ch := c }) s)))) ∧
  (∀ (f g t : Nat) (bs : Bytes) (m : Mig) (s : State), running s → migIn s f g t 4 = some m →
    (let u := readsEnd (.mig f g t) s
     let hurt := (migSource s m).findSome? (hurtAt u (.moverRead m.ch))
     (m.asked → hurt = none → exec (.migrationCopyDone f g t bs) s = .next (postAll 0 (.mig m.facet m.seg m.tile)
       [(m.loc.toNat, m.addr, gather (migSource u m) bs u.mem)]
       (modMig m (fun m => { m with phase := 5 }) u))) ∧
     (∀ (h : Hurt), m.asked → hurt = some h →
       exec (.migrationCopyDone f g t bs) s = .next (failRead (.moverRead m.ch) h u)) ∧
     (m.asked = false → exec (.migrationCopyDone f g t bs) s = .next s))) ∧
  (∀ (s : State), running s → s.memc.copying →
    exec .channelCopyDone s = .next { s with memc := { s.memc with copying := false, copyRow := visibleRows s } }) ∧
  (∀ (q : Nat) (idx : U32) (ch : Nat) (s : State), running s → s.memc.unfencing = some (q, idx) →
    s.memc.fenced = some ch →
    exec .channelUnfenceCopyDone s = .next (settle 0 (completeItem 0 q idx stOk (noteUnfence 0x0C ch
      { s with memc := { s.memc with fenced := none, copying := false, copyRow := 0, unfencing := none } }))))

/-- PORT_DOWN, DL_UP, the epoch reads, BUS_MASTER_ENABLE, MSIX_ENABLE and UPSTREAM_RESET complete. DL_Up of a
downstream port that is down, or of a half B that exists, brings it up with its speed, a width its configuration
allows and its epoch one higher and not yet read; of the upstream port it raises PCX_ATTACH_EPOCH, every facet must
read it again, and WAKE_UP_N rises where it was low. PORT_DOWN of a port that is up leaves it down with nothing under
way, and holds or ends what used it; of a port that is down, as DL_Up of one that is up, it has no effect. A read of
PCX_ATTACH_EPOCH by a facet that is not OFF and the management facet's read of PCX_DEV_PORT[1..4] or PCX_DEV_PORT_B
answer the value and release held work; of another facet they answer 0; so does setting or clearing Bus Master Enable
release what may go; MSI-X Enable sends what the PBA holds. An upstream reset takes the upstream port down, forgets
what host queues hold that is not accepted, resets every function's configuration and sets LIVE for the bridges that
exist. -/
def Obligations.PortsGoDownComeUpAndReleaseWork : Prop :=
  (∀ (p : Nat) (h : Bool) (sp w : Nat) (fl : Bool) (s : State), (h = false ∨ bifurcated s p) →
    (let k := portKey p h
     ((getP s k).up → exec (.dlUp p h sp w fl) s = .next s) ∧
     (k ≠ 0 → (getP s k).up = false → exec (.dlUp p h sp w fl) s = .next (modP k (fun x => { x with
       up := true, speed := sp, width := min w (maxWidth s k), flit := fl || decide (sp = 6)
       epoch := x.epoch + 1, epochRead := false }) s)))) ∧
  (∀ (p sp w : Nat) (fl : Bool) (s : State), bifurcated s p = false → exec (.dlUp p true sp w fl) s = .next s) ∧
  (∀ (sp w : Nat) (fl : Bool) (s : State), (getP s 0).up = false →
    ∃ t, exec (.dlUp 0 false sp w fl) s = .next t ∧ (getP t 0).up = true ∧ (getP t 0).speed = sp ∧
      t.pcx.attachEpoch = s.pcx.attachEpoch + 1 ∧ (∀ x, x ∈ t.facets → x.2.pcx.epochRead = false) ∧ t.pwr.wakeUp = none) ∧
  (∀ (p : Nat) (h : Bool) (s : State), (getP s (portKey p h)).up →
    (let k := portKey p h
     let l := (getP s k).unconf
     let a := parkChans k l (dropCollReads k (modP k (fun p => { p with
       up := false, speed := 0, width := 0, flit := false, flushing := false, flushFails := 0, flushFailAt := none
       unconf := [], egress := [], drr := {}, budget := 0, reads := [] }) (pendMsix (getP s k) s)))
     let d := (a.facets.map Prod.fst).foldl (fun s f => holdFetches k f s) (holdBack k l a)
     let e := dropAsked k ((d.qps.map Prod.fst).foldl (qpPortDown k l) d)
     exec (.portDown p h) s = .next (wakeColls ((e.facets.map Prod.fst).foldl
       (fun s f => if cmpOnPort s f k then cmpPortError f s else s) e)))) ∧
  (∀ (p : Nat) (h : Bool) (s : State), (getP s (portKey p h)).up = false → exec (.portDown p h) s = .next s) ∧
  (∀ (f : Nat) (s : State), running s →
    ((getF s f).st ≠ .off → exec (.pcxAttachEpoch f) s = .next (releaseFacet f (emit (.readValue f 0xF400
      (BitVec.ofNat 64 s.pcx.attachEpoch.toNat)) (modF f (fun x => { x with pcx := { x.pcx with epochRead := true } }) s)))) ∧
    ((getF s f).st = .off → exec (.pcxAttachEpoch f) s = .next (emit (.readValue f 0xF400 0) s))) ∧
  (∀ (p : Nat) (s : State), running s → 1 ≤ p → p ≤ 4 →
    exec (.pcxDevPort 0 p) s = .next (releasePort p (modP p (fun x => { x with epochRead := true })
      (emit (.readValue 0 (0xF488 + 8 * p) (portValue s p)) s)))) ∧
  (∀ (k : Nat) (s : State), running s → k < 4 → bifurcated s (k + 1) →
    exec (.pcxDevPortB 0 k) s = .next (releasePort (5 + k) (modP (5 + k) (fun x => { x with epochRead := true })
      (emit (.readValue 0 (0xF4E0 + 8 * k) (portBValue s k)) s)))) ∧
  (∀ (f p : Nat) (s : State), running s → f ≠ 0 →
    exec (.pcxDevPort f p) s = .next (emit (.readValue f (0xF488 + 8 * p) 0) s) ∧
    exec (.pcxDevPortB f p) s = .next (emit (.readValue f (0xF4E0 + 8 * p) 0) s)) ∧
  (∀ (f : Nat) (on : Bool) (s : State), running s →
    exec (.busMasterEnable f on) s = .next (releaseFacet f (modF f (fun x => { x with pcx := { x.pcx with bme := on } }) s))) ∧
  (∀ (f : Nat) (s : State), running s →
    exec (.msixEnable f) s = .next (sendPba f (modF f (fun x => { x with pcx := { x.pcx with msixOn := true } }) s))) ∧
  (∀ (s : State), ∃ t, exec .upstreamReset s = .next t ∧ (∀ x, x ∈ t.facets → x.2.pcx.bme = false ∧ x.2.pcx.msixOn = false) ∧
    t.pcx.live = BitVec.ofNat 8 (ofBits (bridgesHere s)) ∧ t.pcx.bars = [0, 0, 0] ∧ t.pcx.vfOn = false ∧ t.pcx.up = {} ∧
    t.facets = (resetBars { retryStuck (forgetHost (portDown 0 s)) with
      facets := amap (fun _ x => x.resetFunction) (retryStuck (forgetHost (portDown 0 s))).facets }).facets)

/-- BRIDGE_CONFIG_WRITE, PEER_REQUEST, WINDOW_WRITE, PORT_READ_ERROR and FLUSH_RETRY complete. A bridge that exists
takes its bus numbers or its window, keeps the old ones and loses its LIVE bit; it takes its ACS controls; its
Secondary Bus Reset bit, set, takes its port down and, for an unsplit port or half A, drives PERST low, and cleared
high; of a bridge that does not exist each has no effect; the upstream port takes its bus numbers and window, the
functions their BARs and VF Enable; a write of a register that its place does not hold has no effect. A request that
enters one port and goes, by windows, bus numbers and ACS, to another port that is up waits there to leave; one to the
entering port or to one that is down, or to none, is answered as unsupported. A write through the BAR4 window stores
its bytes that the window admits; one above it writes the function's MSI-X table; an agent's write of its own memory
stores there, one elsewhere does not. A port read error of a read that may fail is counted, reported and ends its
user; a failed flush read is tried again after 1 us. -/
def Obligations.TheSwitchForwardsAndTheWindowWrites : Prop :=
  (∀ (b : Nat) (lo hi : U64) (s : State),
    (b ∈ bridgesHere s →
      exec (.bridgeConfigWrite (.bridge b) .busNumbers lo hi) s = .next (bridgeSet b (fun x => { x with
        sec := fld lo 7 0, sub := fld hi 7 0 }) s) ∧
      exec (.bridgeConfigWrite (.bridge b) .window lo hi) s = .next (bridgeSet b (fun x => { x with lo := lo, hi := hi }) s) ∧
      exec (.bridgeConfigWrite (.bridge b) .acs lo hi) s = .next { s with pcx := { s.pcx with
        bridges := amod {} b (fun x => { x with acs := lo.setWidth 8, vector := hi.setWidth 8 }) s.pcx.bridges } } ∧
      exec (.bridgeConfigWrite (.bridge b) .secondaryReset lo hi) s = .next
        (let t := if bit lo 0 then portDown (portKey (b / 2 + 1) (decide (b % 2 = 1))) s else s
         if b % 2 = 0 then emit (.pin ("PERST_DN" ++ toString (b / 2) ++ "_N") (!bit lo 0)) t else t)) ∧
    (∀ (r : ConfigReg), b ∉ bridgesHere s → exec (.bridgeConfigWrite (.bridge b) r lo hi) s = .next s)) ∧
  (∀ (k : Nat) (lo hi : U64) (s : State),
    exec (.bridgeConfigWrite .upstream .busNumbers lo hi) s = .next { s with pcx := { s.pcx with
      up := { s.pcx.up with sec := fld lo 7 0, sub := fld hi 7 0 } } } ∧
    exec (.bridgeConfigWrite .upstream .window lo hi) s = .next { s with pcx := { s.pcx with
      up := { s.pcx.up with lo := lo, hi := hi } } } ∧
    exec (.bridgeConfigWrite .pf0 (.bar k) lo hi) s = .next { s with pcx := { s.pcx with bars := s.pcx.bars.set k lo } } ∧
    exec (.bridgeConfigWrite .vfs (.bar k) lo hi) s = .next { s with pcx := { s.pcx with vfBars := s.pcx.vfBars.set k lo } } ∧
    exec (.bridgeConfigWrite .vfs .vfEnable lo hi) s = .next { s with pcx := { s.pcx with vfOn := bit lo 0 } } ∧
    (∀ (b : Nat), exec (.bridgeConfigWrite (.bridge b) (.bar k) lo hi) s = .next s ∧
      exec (.bridgeConfigWrite (.bridge b) .vfEnable lo hi) s = .next s)) ∧
  (∀ (p bus : Nat) (h tr w : Bool) (a : U64) (b : Option Nat) (bs : Bytes) (s : State),
    (getP s (portKey p h)).up → forwards s →
    (let x := acsTarget s p h bus tr (peerTarget s p a b)
     (∀ (p' : Nat) (h' : Bool), x = .out p' h' →
       ((p', h') ≠ (p, h) → (getP s (portKey p' h')).up → exec (.peerRequest p h bus ⟨a, b, tr⟩ w bs) s =
         .next (sendTlp (portKey p' h') 0 bs.length (.peer p' h' a w bs) none w false s)) ∧
       ((p', h') = (p, h) ∨ (getP s (portKey p' h')).up = false →
         exec (.peerRequest p h bus ⟨a, b, tr⟩ w bs) s = .next (emit (.unsupported p) s))) ∧
     (x = .endpoint → exec (.peerRequest p h bus ⟨a, b, tr⟩ w bs) s = .next s) ∧
     (x = .none → exec (.peerRequest p h bus ⟨a, b, tr⟩ w bs) s = .next (emit (.unsupported p) s)))) ∧
  (∀ (p bus : Nat) (h tr w : Bool) (a : U64) (b : Option Nat) (bs : Bytes) (s : State),
    (getP s (portKey p h)).up = false ∨ forwards s = false → exec (.peerRequest p h bus ⟨a, b, tr⟩ w bs) s = .next s) ∧
  (∀ (off : Nat) (bs : Bytes) (s : State), running s →
    (∀ (x : Nat × Byte) (r : List (Nat × Byte)), off < 0x4000000 →
      windowBytes s ((reg s 0xF4B0).toNat + off) bs = x :: r →
      exec (.windowWrite ⟨.bar, off⟩ bs) s = .next (memStore x.1 ((x :: r).map Prod.snd) s)) ∧
    (off < 0x4000000 → windowBytes s ((reg s 0xF4B0).toNat + off) bs = [] → exec (.windowWrite ⟨.bar, off⟩ bs) s = .next s) ∧
    (0x4000000 ≤ off → exec (.windowWrite ⟨.bar, off⟩ bs) s = .next (writeMsix 0 (off - 0x4000000) bs s)) ∧
    (∀ (f : Nat), exec (.windowWrite ⟨.vf f, off⟩ bs) s = .next (writeMsix f off bs s)) ∧
    (∀ (a o : Nat), agentReach s a off = some (.own o) →
      exec (.windowWrite ⟨.agent a, off⟩ bs) s = .next (memStore (agentBase s a + o) bs s)) ∧
    (∀ (a : Nat), (∀ o, agentReach s a off ≠ some (.own o)) → exec (.windowWrite ⟨.agent a, off⟩ bs) s = .next s)) ∧
  (∀ (p : Nat) (h : Bool) (k : Nat) (a : U64) (w : ReadKind) (s : State), running s →
    (mayFail s p h k w → exec (.portReadError p h k a w) s = .next (dropReads (portKey p h) w (readFailed p h k a w
      (collect 0x1D clsUC p false a 0 0 (readFacet s w) (modP p (fun x => { x with rderr := x.rderr + 1 }) s))))) ∧
    (mayFail s p h k w = false → exec (.portReadError p h k a w) s = .next s)) ∧
  (∀ (p : Nat) (h : Bool) (t : U64) (s : State), running s → (getP s (portKey p h)).flushFailAt = some t →
    exec (.flushRetry p h) s = .next (if elapsed s t (us 1) then flushNow (portKey p h)
      (modP (portKey p h) (fun p => { p with flushFailAt := none }) s) else s)) ∧
  (∀ (r : ConfigReg) (lo hi : U64) (s : State), r ≠ .busNumbers → r ≠ .window →
    exec (.bridgeConfigWrite .upstream r lo hi) s = .next s) ∧
  (∀ (r : ConfigReg) (lo hi : U64) (s : State), (∀ k, r ≠ .bar k) →
    exec (.bridgeConfigWrite .pf0 r lo hi) s = .next s) ∧
  (∀ (r : ConfigReg) (lo hi : U64) (s : State), (∀ k, r ≠ .bar k) → r ≠ .vfEnable →
    exec (.bridgeConfigWrite .vfs r lo hi) s = .next s)

/-- MOVE, MOVE_CHANNEL_GRANT, DMA_REQ and the MOV register commands complete. A MOVE that passes its checks waits for
a channel, and one that fails a check or has no lines completes with the check's status. Of the waiting MOVEs that may
take a channel the one accepted first gets the lowest free one, binds its request source and begins; while the mover
is stopped, or none may, nothing begins. An enabled pin's edge and a written MOV_FAC_REQ of an ON facet count a
request, which the bound MOVE may take; the other edge and a write of 0 do not. MOV_FAC_PEND clears. A bus error stops
the mover and is counted. RESUME, outside the cycle of an error, restarts the channels and ABORT ends their MOVEs with
MOVE_BUSERR; both only for facet 0. -/
def Obligations.MoverCommandsComplete : Prop :=
  (∀ (f q : Nat) (i : Item) (s : State), ready s f q 0x20 = some i →
    (let t := startItem f q i.idx s
     let w := moveWait t f q i
     (moveCheck t f i.desc = none → exec (.move f q) s = .next (settle f { t with mov := { t.mov with
       waiting := t.mov.waiting ++ [w], replay := t.mov.replay.erase w } })) ∧
     (∀ (st : Status), moveCheck t f i.desc = some st → exec (.move f q) s = .next (settle f (completeItem f q i.idx st t))))) ∧
  (∀ (w : MoveWait) (c : Nat) (s : State), running s → s.mov.stopped = false → nextMove s = some w →
    freeChan s 0 24 = some c →
    (let t := { s with mov := { s.mov with waiting := s.mov.waiting.erase w } }
     exec .moveChannelGrant s = .next (moveGo c (modChan c (fun _ => restartAt w.desc
       (ceilDiv (w.mirrored * (mvBurst w.desc * mvSw w.desc)) (mvDw w.desc))
       { st := .run, f := w.f, q := w.q, idx := w.idx, desc := some w.desc, bursts := w.mirrored
         mirrored := w.mirrored, tookAt := w.tookAt })
       (if mvPace w.desc = 0 then t else modSrc w.f (mvPace w.desc) (fun r => { r with bound := some c }) t))))) ∧
  (∀ (s : State), s.mov.stopped ∨ nextMove s = none ∨ freeChan s 0 24 = none → exec .moveChannelGrant s = .next s) ∧
  (∀ (n : Nat) (rising : Bool) (s : State), running s →
    (let pin : DmaPin := aget {} n s.mov.pins
     (n < 8 → pin.en → rising = !pin.falling →
       exec (.dmaReq n rising) s = .next (serveReq 0 (n + 1) (modSrc 0 (n + 1) (addReq s.now) s))) ∧
     (8 ≤ n ∨ pin.en = false ∨ rising = pin.falling → exec (.dmaReq n rising) s = .next s))) ∧
  (∀ (f : Nat) (v : U32) (s : State), running s → facetOn s f →
    (bit v 0 → exec (.movFacReq f v) s = .next (serveReq f 9 (modSrc f 9 (addReq s.now) s))) ∧
    (bit v 0 = false → exec (.movFacReq f v) s = .next s) ∧
    exec (.movFacPendClear f v) s = .next (modF f (fun x => { x with mov := { x.mov with req := {
      (if bit v 16 then clearOver s.now x.mov.req else x.mov.req) with
      pending := if bit v 31 then 0 else x.mov.req.pending } } }) s)) ∧
  (∀ (p : Nat) (h : Bool) (k : Nat) (a : U64) (s : State), running s →
    (p ≠ 5 → exec (.movBuserr p h k a) s = .next (busError p h k a false (countReadError p a none false s))) ∧
    exec (.movBuserr 5 h k a) s = .next (busError 5 false 5 a false (countChannel (channelOf s a.toNat)
      (collect 0x0A clsUC (channelOf s a.toNat) false a 0 0 none s)))) ∧
  (∀ (s : State), running s → s.mov.stopped → s.mov.errAt ≠ some s.now → errorNow s = none →
    exec (.movDevCtrlResume 0) s = .next (wakeMovers ((List.range 32).foldl (fun s c => modChan c (fun x => { x with
      st := if x.desc = none then .idle else .run }) s)
      { s with mov := { s.mov with stopped := false, later := 0, last := none } }))) ∧
  (∀ (s : State), running s → s.mov.stopped →
    (let t := (List.range 32).foldl (fun s c => if (getCh10 s c).desc = none then s
       else endMove c (stat cMOVE_BUSERR) (dropWaits (.mover c) s))
       { s with mov := { s.mov with stopped := false, later := 0, last := none } }
     exec (.movDevCtrlAbort 0) s = .next { t with mov := { t.mov with
       chans := amap (fun _ x => { x with st := .idle }) t.mov.chans } })) ∧
  (∀ (f : Nat) (s : State), f ≠ 0 ∨ s.mov.stopped = false →
    exec (.movDevCtrlResume f) s = .next s ∧ exec (.movDevCtrlAbort f) s = .next s)

/-- FACET_RESIZE, FACET_RESET, FACET_RESET_ADVANCE and FLR complete. A FACET_RESIZE of a range that the facet may not
read completes ACCESS_DENIED. One whose record has been read and passes puts every field of the record into the facet
and completes; one whose record fails completes with the check's status, for a bad bit BAD_FIELD with that bit. A
FACET_RESET of an ON facet begins the reset and joins it, of a RESETTING one joins it, of an OFF one completes OK, and
of facet 0 completes BAD_FIELD. FACET_RESET_ADVANCE carries a reset on whose waiting step has ended, tries the QPs
again in the step that ends them, and else has no effect. An FLR resets the function's enables at once, for facet 0
its base addresses too, and begins the facet's reset where it is ON. -/
def Obligations.FacetCommandsComplete : Prop :=
  (∀ (f q : Nat) (rec : List U64) (i : Item) (s : State), ready s f q 0x35 = some i → descHurt s f q = none →
    (let seg := fld i.desc.w3 7 0
     let g := fld i.desc.w2 6 0
     let r := transRanges (.desc q) 0 false (resizeSpan i.desc) s
     let x := readAll none 0 r.2.fresh r.1
     let t := startItem f q i.idx x
     let w := wordsAt t 0 seg i.desc.w4 16 rec
     let v := applyRecord g w t
     (rangeCheck s 0 seg i.desc.w4 128 .lrd none = false → exec (.facetResize f q rec) s =
       .next (settle f (completeItem 0 q i.idx (statD cACCESS_DENIED 0) (startItem f q i.idx s)))) ∧
     (rangeCheck s 0 seg i.desc.w4 128 .lrd none → streamBusy s (.desc q) = false → placesReleased s 0 r.2.places →
       r.2.full → ready x f q 0x35 = some i → rangeCheck t 0 seg i.desc.w4 128 .lrd none →
       (resizeCheck t g w = none → exec (.facetResize f q rec) s = .next (settle f (completeItem 0 q i.idx
         (if (getF v g).shrink then stat cSHRINK_PENDING else stOk) v))) ∧
       (∀ (st : Status), resizeCheck t g w = some st →
         exec (.facetResize f q rec) s = .next (settle f (completeItem 0 q i.idx st t)))))) ∧
  (∀ (f q : Nat) (i : Item) (s : State), ready s f q 0x36 = some i →
    (let g := fld i.desc.w2 6 0
     let off := bit i.desc.w2 7
     let t := startItem f q i.idx s
     let join := fun (s : State) => modF g (fun x => { x with joined := x.joined ++ [(q, i.idx)] }) s
     (g = 0 → exec (.facetReset f q) s = .next (settle f (completeItem 0 q i.idx (stat cBAD_FIELD) t))) ∧
     (g ≠ 0 → (getF t g).st = .off → exec (.facetReset f q) s = .next (settle f (completeItem 0 q i.idx stOk t))) ∧
     (g ≠ 0 → (getF t g).st = .on → exec (.facetReset f q) s = .next (settle f (join (resetBegin g off t)))) ∧
     (g ≠ 0 → (getF t g).st = .resetting → exec (.facetReset f q) s =
       .next (settle f (join (if off then modF g (fun x => { x with offAfter := true }) t else t)))))) ∧
  (∀ (f : Nat) (s : State), running s → (getF s f).st = .resetting →
    (resetStepEnded s f → exec (.facetResetAdvance f) s = .next (resetRun 4 f (resetNext f s))) ∧
    (resetStepEnded s f = false → exec (.facetResetAdvance f) s =
      .next (if (getF s f).rstep = 3 then resetQps f s else s))) ∧
  (∀ (f : Nat) (s : State), running s → (getF s f).st ≠ .resetting → exec (.facetResetAdvance f) s = .next s) ∧
  (∀ (f : Nat) (s : State), running s →
    (let t := modF f (fun x => { x with pcx := { x.pcx with bme := false, msixOn := false, roOn := true } }) s
     let u := if f = 0 then { t with pcx := { t.pcx with bars := [0, 0, 0], vfBars := [0, 0, 0], vfOn := false } } else t
     exec (.flr f) s = .next (if (getF s f).st = .on then resetBegin f false u else u)))

/-- CIP_KEY_LOAD, CIP_KEY_CLEAR, CIP_KEY_SWITCH and CIP_KEY_QUERY complete. On a part with a cipher engine and a facet
that is ON whose key page is idle, with the QP's context resident where the target is a QP of the facet: LOAD and
CLEAR of a slot set and erase its key, and end with IN_USE while a running command uses it; of a QP phase that passes
the checks in their order they set and erase that phase's key, and work waiting for it goes on; SWITCH to a transmit
phase with a key makes it current; QUERY shows CIP_KEY_INFO; each failing check gives its RESULT and REASON and
changes nothing else. Where the context is not resident the command waits for it, BUSY; while BUSY the four have no
effect. -/
def Obligations.KeyCommandsSetSwitchAndQuery : Prop :=
  (∀ (f : Nat) (s : State), running s → hasCip s → facetOn s f → (getF s f).cip.keyOp = 0 → keyAway s f = false →
    (let x := (getF s f).cip
     let n := ktQpn x
     let r := keyQpReason s f x
     let bad := fun (k : Nat) => keyEnd f cBAD_FIELD k s
     let set := fun (k : Option Key) => cipGo n (keyEnd f 0 0 (modQp n (fun q => { q with cip := setQpKey x k q.cip }) s))
     let slots := fun (g : Assoc Key → Assoc Key) => keyEnd f 0 0 (modF f (fun y => { y with
       cip := { y.cip with slots := g y.cip.slots } }) s)
     (ktKind x = 2 → slotUsed x = false →
       exec (.cipKeyLoad f) s = .next (slots (aset (ktSlot x) (keyOfRegs x))) ∧
       exec (.cipKeyClear f) s = .next (slots (adel (ktSlot x)))) ∧
     (ktKind x = 2 → slotUsed x → exec (.cipKeyLoad f) s = .next (keyEnd f cIN_USE 7 s) ∧
       exec (.cipKeyClear f) s = .next (keyEnd f cIN_USE 7 s)) ∧
     (ktKind x = 1 → r ≠ 0 → exec (.cipKeyLoad f) s = .next (bad r) ∧ exec (.cipKeyClear f) s = .next (bad r) ∧
       exec (.cipKeySwitch f) s = .next (bad r)) ∧
     (ktKind x = 1 → r = 0 →
       exec (.cipKeyLoad f) s = .next (if ktLong x = false then bad 6 else if keyCurrent s x then bad 4
         else set (some (keyOfRegs x))) ∧
       exec (.cipKeyClear f) s = .next (if keyCurrent s x then bad 4 else set none) ∧
       exec (.cipKeySwitch f) s = .next (if ((getQp s n).cip.keyOf true (ktPhase x)).isNone then bad 5
         else cipGo n (keyEnd f 0 0 (newPhase n (ktPhase x) s)))) ∧
     (ktKind x ≠ 1 → exec (.cipKeySwitch f) s = .next (bad 1)) ∧
     (ktKind x ≠ 1 → ktKind x ≠ 2 → exec (.cipKeyLoad f) s = .next (bad 1) ∧ exec (.cipKeyClear f) s = .next (bad 1) ∧
       exec (.cipKeyQuery f) s = .next (bad 1)) ∧
     (ktKind x = 1 → (getQp s n).st = .free ∨ (getQp s n).facet ≠ f → exec (.cipKeyQuery f) s = .next (bad 1)) ∧
     (ktKind x = 2 ∨ (ktKind x = 1 ∧ (getQp s n).st ≠ .free ∧ (getQp s n).facet = f) →
       (let c := if ktKind x = 1 then (getQp s n).cip else {}
        exec (.cipKeyQuery f) s = .next (keyEnd f 0 0 (modF f (fun y => { y with cip := { y.cip with
          info := BitVec.ofNat 64 (b2n c.tx0.isSome + b2n c.tx1.isSome * 2 + b2n c.rx0.isSome * 4 + b2n c.rx1.isSome * 8 +
            b2n c.phase * 16 + ofBits (x.slots.map Prod.fst) * 256) } }) s)))))) ∧
  (∀ (f op : Nat) (c : Instr) (s : State),
    (c, op) ∈ ([(.cipKeyLoad f, 1), (.cipKeyClear f, 2), (.cipKeySwitch f, 3), (.cipKeyQuery f, 4)] : List (Instr × Nat)) →
    ((getF s f).cip.keyOp ≠ 0 → exec c s = .next s) ∧
    (running s → hasCip s → facetOn s f → (getF s f).cip.keyOp = 0 → keyAway s f →
      (let n := ktQpn (getF s f).cip
       let t := { s with zrt := { s.zrt with
         fetching := if s.zrt.fetching.contains n then s.zrt.fetching else s.zrt.fetching ++ [n] } }
       exec c s = .next (modF f (fun x => { x with cip := { x.cip with keyOp := op } }) t))))

/-- CBC_ENCRYPT, CBC_DECRYPT, CTR and CIPHER_JOB_DONE complete. A compatibility command whose slot holds a key, whose
PAD and LEN are allowed, whose segments are valid with PIN, whose ranges pass and whose ports are released begins:
BUSY is set and its first piece is scheduled; one without source and output bytes ends at once with RESULT 0; each
failing check, in its order, gives its RESULT and REASON and nothing else; while one runs another has no effect. A
core that ends its job: a packet is handed on in order, a piece moves its bytes, and the core takes up its suspended
job and the next is scheduled; a piece whose source reads as failed takes that reaction, and an injected mismatch of
the core strikes it. -/
def Obligations.CompatibilityCommandsBeginAndJobsEnd : Prop :=
  (∀ (f op : Nat) (v : U32) (c : Instr) (s : State),
    (c, op) ∈ [(Instr.cbcEncrypt f v, 1), (Instr.cbcDecrypt f v, 2), (Instr.ctr f v, 3)] →
    running s → hasCip s → facetOn s f →
    (let x := (getF s f).cip
     let len := x.cmpLen.toNat
     let out := cmpOutMax op (fld v 3 2) len
     let no := fun (code reason : Nat) => modF f (fun y => { y with cip := { y.cip with
       cmpReason := BitVec.ofNat 4 reason, cmpResult := BitVec.ofNat 16 code } }) s
     let slot := (agetq (fld v 5 4) x.slots).isSome
     let pad := decide (op = 3 ∨ fld v 3 2 ≠ 3)
     let lenOk := !cmpLenBad op (fld v 3 2) len
     let pins := hasPin s f (fld x.cmpSegs 7 0) && hasPin s f (fld x.cmpSegs 15 8)
     let ranges := rangeCheck s f (fld x.cmpSegs 7 0) x.cmpSoff len .lrd none &&
       rangeCheck s f (fld x.cmpSegs 15 8) x.cmpDoff out .lwr none
     let empty := decide (len = 0 ∧ out = 0)
     (x.cmpBusy → exec c s = .next s) ∧
     (x.cmpBusy = false → exec c s = .next (
       if slot = false then no cBAD_FIELD 1 else if pad = false then no cBAD_FIELD 5
       else if lenOk = false then no cBAD_FIELD 3 else if pins = false then no cBAD_FIELD 2
       else if ranges = false then no cACCESS_DENIED 2 else if empty then cmpDone f 0 0 0 x.iv s
       else if cmpHeld s f then no cPORT_ERROR 6
       else schedule (modF f (fun y => { y with cip := { y.cip with
         cmpBusy := true
         run := some { op := op, pad := fld v 3 2, slot := fld v 5 4, len := len, chain := x.iv } } }) s))))) ∧
  (∀ (core : Nat) (bs : Bytes) (r : Run) (s : State), running s → s.trust.ent = 1 →
    (aget {} core s.cip.cores : Core).run = some r →
    (let back := fun (s : State) => { s with cip := { s.cip with
       cores := aset core ((aget {} core s.cip.cores : Core).resumed s.now) s.cip.cores } }
     ((0x28, core) ∈ s.err.injections → exec (.cipherJobDone core bs) s = .next (coreMismatch core
       (collect 0x28 clsUC core true 0 0 (match r.job with | .piece _ => 2 | _ => 0) none (dropInjection 0x28 core s)))) ∧
     (∀ (id n : Nat) (b tx : Bool) (p : Packet), (0x28, core) ∉ s.err.injections → r.job = .packet id n b tx p →
       exec (.cipherJobDone core bs) s = .next (schedule (packetDone id n tx p r.key (back s)))) ∧
     (∀ (f : Nat), (0x28, core) ∉ s.err.injections → r.job = .piece f →
       (let u := readsEnd (.cipher f) s
        let hurt := (piecePlaces s f).findSome? (hurtAt u (.cipher f))
        (hurt = none → exec (.cipherJobDone core bs) s = .next (schedule (pieceDone f r.key bs (back u)))) ∧
        (∀ (h : Hurt), hurt = some h → exec (.cipherJobDone core bs) s = .next (failRead (.cipher f) h u)))))) ∧
  (∀ (core : Nat) (bs : Bytes) (s : State), s.trust.ent ≠ 1 ∨ (aget {} core s.cip.cores : Core).run = none →
    exec (.cipherJobDone core bs) s = .next s)

/-- The trust unit's and the entropy source's commands complete. A request of an ON facet with a valid, pinned,
writable segment and a range that passes waits its turn, with the measurements as they stand when it is the oldest;
another segment ends with BAD_FIELD and a range that fails with ACCESS_DENIED (their REASON is a free value); while
one waits another has no effect. The oldest report or certificate is written to its range and answers RESULT 0, and
the next takes its measurements. TRUST_DEV_EXT_CMD of facet 0 extends M4 to M7, and an oldest request that took its
measurements in the same cycle sees it. The entropy source gives output once healthy, the DRBG reseeds when due, a
mask generator takes a new key; the scan test erases the key store and the context-wrap key and stops the device. -/
def Obligations.TrustCommandsComplete : Prop :=
  (∀ (f : Nat) (cert : Bool) (c : Instr) (s : State),
    (c, cert) ∈ [(Instr.trustAttReport f, false), (Instr.trustAttCertificate f, true)] → running s → facetOn s f →
    (let x := (getF s f).att
     let g := getSeg s f x.seg.toNat
     let seg := g.valid && g.pin && g.lwr
     let ok := rangeCheck s f x.seg.toNat x.doff (if cert then 3200 else 2048) .lwr none
     let no := fun (code : Nat) => modF f (fun y => { y with att := { y.att with
       result := BitVec.ofNat 16 code, reason := BitVec.ofNat 4 (Config.freeByte s.free).toNat } }) { s with free := s.free + 1 }
     (x.busy → exec c s = .next s) ∧
     (x.busy = false → seg = false → exec c s = .next (no cBAD_FIELD)) ∧
     (x.busy = false → seg → ok = false → exec c s = .next (no cACCESS_DENIED)) ∧
     (x.busy = false → seg → ok →
       exec c s = .next (modF f (fun y => { y with att := { y.att with busy := true } }) { s with trust := { s.trust with
         reqs := s.trust.reqs ++ [{ f := f, cert := cert, meas := if s.trust.reqs = [] then measNow s else []
                                    at_ := s.now }] } })))) ∧
  (∀ (r : AttReq) (l : List AttReq) (s : State), running s → s.trust.reqs = r :: l →
    exec .reportSigned s = .next (modF r.f (fun y => { y with att := { y.att with busy := false, reason := 0, result := 0 } })
      (postPin r.f (getF s r.f).att.seg.toNat (getF s r.f).att.doff .other
        (if r.cert then certificate s else reportBytes s r)
        { s with free := s.free + 1, trust := { s.trust with
          reqs := match l with | y :: m => { y with meas := measNow s, at_ := s.now } :: m | [] => [] } }))) ∧
  (∀ (v : U32) (s : State), running s → 4 ≤ fld v 2 0 →
    (let t := { s with trust := { s.trust with meas := amod 0 (fld v 2 0) (fun m => extend m (extDigest s)) s.trust.meas } }
     exec (.trustDevExtCmd 0 v) s = .next (match s.trust.reqs with
       | r :: l => if r.at_ = s.now then { t with trust := { t.trust with reqs := { r with meas := measNow t } :: l } } else t
       | [] => t))) ∧
  (∀ (f : Nat) (v : U32) (s : State), f ≠ 0 ∨ fld v 2 0 < 4 → exec (.trustDevExtCmd f v) s = .next s) ∧
  (∀ (s : State), awake s → s.boot.run = .running ∨ s.boot.run = .boot ∨ s.boot.run = .hold →
    (s.trust.ent ≠ 1 → s.trust.ent ≠ 3 →
      (let t := { s with trust := { s.trust with ent := 1, drbgCount := 0, drbgAt := s.now } }
       let u := if s.cip.wrapKey = none ∧ hasCip s then
           drew 1 { t with cip := { t.cip with wrapKey := some (Config.entropyKey s.free) } } else t
       exec .entropyReady s = .next (schedule ((waitingCreates u).foldl (fun s f => createQp f s) u)))) ∧
    (s.trust.ent = 1 ∨ s.trust.ent = 3 → exec .entropyReady s = .next s)) ∧
  (∀ (s : State), s.trust.ent = 1 → exec .drbgReseed s = .next
    (if 65536 ≤ s.trust.drbgCount ∨ elapsed s s.trust.drbgAt (ms 10) then
      { s with trust := { s.trust with drbgCount := 0, drbgAt := s.now } } else s)) ∧
  (∀ (core : Nat) (s : State), s.trust.ent = 1 → hasCip s → core < 8 →
    exec (.maskRekey core) s = .next (drew 1 { s with cip := { s.cip with
      rekeys := amod 0 core (fun n => n + 1) s.cip.rekeys } })) ∧
  (∀ (core : Nat) (s : State), s.trust.ent ≠ 1 ∨ hasCip s = false ∨ 8 ≤ core → exec (.maskRekey core) s = .next s) ∧
  (∀ (s : State), ∃ t, exec .scanTestEntry s = .next t ∧ t.cip.scan ∧ t.cip.wrapKey = none ∧ t.trust.keyErased ∧
    (∀ x, x ∈ t.facets → x.2.cip.slots = []))

/-- The Ethernet commands complete. A sub-port that exists comes up; one that goes down discards and counts what is
queued for it and what is leaving, and a discarded plain frame counts as gone for its ETH_SEND; another sub-port stays
as it is. A frame that arrives at a live sub-port is counted and then: without room it is counted as full, with a
wrong FCS as bad, as a PAUSE frame, or as dropped by the filter or the VLAN check; one of the transport that is well
formed enters the pod, one that is not is counted as bad, and every other goes to the raw RQ. In Glimmer or its entry
a frame of sub-port 0 that matches the wake pattern is counted and latched, and another has no effect. An ETH_SEND
that needs no template to fail, or whose template has been read and fails, completes with R373's status; one that
passes records its next frame's number, or is done where all are recorded; while one of its queue runs another waits.
A plain frame that is leaving its sub-port leaves, and the last one completes the descriptor. -/
def Obligations.EthernetCommandsComplete : Prop :=
  (∀ (p b : Nat) (s : State), fabricUp s → exec (.ethLinkUp p b) s = .next (if hasEth s p ∧ b < subPorts s p then
    modEth p (fun e => { e with up := e.up ||| BitVec.ofNat 4 (2 ^ b) }) s else s)) ∧
  (∀ (p b : Nat) (s : State),
    (let out := (ethQ s p b).pkts ++ (agetq b (getEth s p).leaving).toList
     (bit (getEth s p).up b → exec (.ethLinkDown p b) s = .next ((out.filterMap (fun x => x.plain)).foldl
       (fun s k => frameGone k s) (modEth p (fun e => { e with
         up := e.up &&& ~~~ BitVec.ofNat 4 (2 ^ b)
         txDiscard := e.txDiscard + BitVec.ofNat 32 out.length
         queues := adel b e.queues, budget := adel b e.budget, leaving := adel b e.leaving }) s))) ∧
     (bit (getEth s p).up b = false → exec (.ethLinkDown p b) s = .next s))) ∧
  (∀ (p b : Nat) (ok fx : Bool) (alt : AltBits) (bs : Bytes) (s : State), fabricUp s → subLive s p b →
    (let t := modEth p (fun e => { e with rxFrames := e.rxFrames + 1 }) s
     let room := decide (rxHeld t p + bs.length + 4 ≤ 2097152)
     let good := room && ok && decide (at16 bs 12 ≠ 0x8808)
     let taken := good && passesFilter t p bs && vlanOk t p bs
     (room = false → exec (.ethFrame p b ok fx alt bs) s = .next (modEth p (fun e => { e with rxFull := e.rxFull + 1 }) t)) ∧
     (room → ok = false → exec (.ethFrame p b ok fx alt bs) s = .next (modEth p (fun e => { e with rxBad := e.rxBad + 1 }) t)) ∧
     (room → ok → at16 bs 12 = 0x8808 →
       exec (.ethFrame p b ok fx alt bs) s = .next (modEth p (fun e => { e with rxPause := e.rxPause + 1 }) t)) ∧
     (good → taken = false → exec (.ethFrame p b ok fx alt bs) s = .next (modEth p (fun e => { e with rxDrop := e.rxDrop + 1 }) t)) ∧
     (taken → ipLen bs = none ∨ isZrtFrame t bs = false → exec (.ethFrame p b ok fx alt bs) s = .next (toRaw p b bs t)) ∧
     (∀ n, taken → ipLen bs = some n → isZrtFrame t bs → exec (.ethFrame p b ok fx alt bs) s = .next
       (if zrtBad bs n then modEth p (fun e => { e with rxBad := e.rxBad + 1 }) t else enterPod p b n ⟨alt.altSeen, alt.echoAlt, fx⟩ bs t)))) ∧
  (∀ (p b : Nat) (ok fx : Bool) (alt : AltBits) (bs : Bytes) (s : State), fabricUp s = false →
    (let wakes := (s.pwr.st = .glimmer ∨ s.pwr.st = .glimmerEntry) ∧ b = 0 ∧ ok ∧ wakeEn s p ∧ wakeMatch s p bs
     (wakes → exec (.ethFrame p b ok fx alt bs) s = .next (latchWake (.pattern p)
       (modEth p (fun e => { e with wakes := e.wakes + 1 }) s))) ∧
     (¬ wakes → exec (.ethFrame p b ok fx alt bs) s = .next s))) ∧
  (∀ (p b : Nat) (ok fx : Bool) (alt : AltBits) (bs : Bytes) (s : State), fabricUp s → subLive s p b = false →
    exec (.ethFrame p b ok fx alt bs) s = .next s) ∧
  (∀ (f q : Nat) (hb : Bytes) (i : Item) (s : State), ready s f q 0x37 = some i →
    (let d := i.desc
     (∀ st, refusedEarly s d → sendCheck s d hb = some st →
       exec (.ethSend f q hb) s = .next (settle f (completeItem f q i.idx st (startItem f q i.idx s)))) ∧
     (refusedEarly s d = false → (s.eth.sends.any (fun x => decide (x.q = q))) → exec (.ethSend f q hb) s = .next s) ∧
     (refusedEarly s d = false → (s.eth.sends.any (fun x => decide (x.q = q))) = false → streamBusy s (.desc q) = false →
       (let r := transRanges (.desc q) 0 false [(esHseg d, d.w4, esHlen d)] s
        let h := templateOf r.1 d hb
        let n := aget 0 (frameKey q i.idx) r.1.mirror.frames
        let x : EthSend := { q := q, idx := i.idx, desc := d, header := h, frames := sendFrames d
                             recorded := n, formed := n, gone := n }
        let t := startItem f q i.idx (readAll none 0 r.2.fresh { r.1 with eth := { r.1.eth with sends := r.1.eth.sends ++ [x] } })
        placesReleased s 0 r.2.places → r.2.full →
        (∀ st, sendCheck r.1 d h = some st → exec (.ethSend f q hb) s =
          .next (settle f (completeItem f q i.idx st (startItem f q i.idx (readAll none 0 r.2.fresh r.1))))) ∧
        (sendCheck r.1 d h = none →
          exec (.ethSend f q hb) s = .next (if sendFrames d ≤ n then endSend x stOk t else recordFrame q t)))))) ∧
  (∀ (q p b : Nat) (idx : U32) (x : OutPkt) (s : State), running s → leavingOf s (q, idx) = some (p, b) →
    agetq b (getEth s p).leaving = some x →
    (let t := sendFrame p b ⟨false, false, false⟩ x.bytes (modEth p (fun e => { e with leaving := adel b e.leaving }) s)
     exec (.ethFrameSent 0 q idx) s = .next (match t.eth.sends.find? (fun y => decide ((y.q, y.idx) = (q, idx))) with
       | none => t
       | some y =>
         let u := modSend y (fun z => { z with gone := z.gone + 1 }) t
         if y.frames ≤ y.gone + 1 then endSend { y with gone := y.gone + 1 } stOk u else u))) ∧
  (∀ (f q : Nat) (idx : U32) (s : State), f ≠ 0 ∨ leavingOf s (q, idx) = none → exec (.ethFrameSent f q idx) s = .next s)

/-- ERROR_EVENT, SELF, ERR_DEV_FORCE, UNIT_FENCE, UNIT_UNFENCE and FENCE_WINDOW complete. While the collector runs and
the device is not in Umbra: correctable events of SRAM words, LPDDR5X and ports are recorded as CE events, an
uncorrectable line reacts as its address does, the fatal sources enter Umbra, a core fault fences the core and a
second one is recorded only; of a unit that is absent there is no effect; in Umbra a detection is recorded only. SELF
enters Umbra with a record of its own. ERR_DEV_FORCE with forcing enabled injects a detection for each set bit,
ascending, without it or from another facet none. A fence or unfence command of a unit that does not exist completes
BAD_FIELD 1, of an absent one UNIT_ABSENT, of one already so OK; of one that may take it it changes the unit and
completes OK, of a channel to unfence it waits for the copy back, and with a reason against it it completes BAD_FIELD
with that reason. The fence window's counts restart. -/
def Obligations.DetectionsAndFencesComplete : Prop :=
  (∀ (src u : Nat) (a : U64) (fo : Option Nat) (s : State), collectorRuns s → s.err.mode ≠ .umbra → unitOk s src u →
    (∀ (act : Nat) (i : U64), (src, act, i) ∈ ([(0x01, 1, 0), (0x08, 0, a), (0x1C, 0, a)] : List (Nat × Nat × U64)) →
      exec (.errorEvent src u a fo) s = .next (collect src clsCE u false i 0 act none s)) ∧
    (src = 0x09 → exec (.errorEvent src u a fo) s = .next (countChannel u (collect src clsCE u false a 0 1 none s))) ∧
    (src = 0x0A → exec (.errorEvent src u a fo) s = .next (memUe u a fo s)) ∧
    (∀ (i : U64), (src, i) ∈ ([(0x0B, a), (0x1E, a), (0x31, 0), (0x32, 0)] : List (Nat × U64)) →
      exec (.errorEvent src u a fo) s = .next (fatal src u false i none s)) ∧
    (src = 0x24 → exec (.errorEvent src u a fo) s = .next (if coreFenced s u then
      faultNow src u (recordOnly src u false 0 none s) else faultCore u false s))) ∧
  (∀ (src u : Nat) (a : U64) (fo : Option Nat) (s : State), collectorRuns s → src ≠ 0x3F → noUnit src = false →
    (unitOk s src u = false → exec (.errorEvent src u a fo) s = .next s) ∧
    (unitOk s src u → s.err.mode = .umbra → exec (.errorEvent src u a fo) s = .next (recordOnly src u false a fo s))) ∧
  (∀ (s : State), collectorRuns s → s.err.mode ≠ .umbra →
    exec .self s = .next (enterUmbra 0x3F true s.agl.next (recordRaw 0x3F clsFT 0 false false 0 0 7 none s))) ∧
  (∀ (s : State), collectorRuns s → s.err.mode = .umbra →
    exec .self s = .next (recordRaw 0x3F clsFT 0 false false 0 0 8 none s)) ∧
  (∀ (f : Nat) (v : U64) (s : State), running s →
    (f = 0 → bit (reg s 0xFC20) 0 → exec (.errDevForce f v) s = .next ((setBits 64 v.toNat).foldl
      (fun s src => detect src (regf s 0xFC28 7 0) 0 none true s) s)) ∧
    (f ≠ 0 ∨ bit (reg s 0xFC20) 0 = false → exec (.errDevForce f v) s = .next s)) ∧
  (∀ (f q op : Nat) (c : Instr) (b : Bool) (i : Item) (s : State),
    (c, op, b) ∈ ([(.unitFence f q, 0x38, true), (.unitUnfence f q, 0x39, false)] : List (Instr × Nat × Bool)) →
    ready s f q op = some i →
    (let t := startItem f q i.idx s
     let k := fenceKind i.desc
     let u := fenceIdx i.desc
     let ends := fun (st : Status) (s : State) => settle f (completeItem 0 q i.idx st s)
     (kindCount k ≤ u → exec c s = .next (ends (statD cBAD_FIELD 1) t)) ∧
     (u < kindCount k → kindHas t k u = false → exec c s = .next (ends (stat cUNIT_ABSENT) t)) ∧
     (u < kindCount k → kindHas t k u → kindFenced t k u = b → exec c s = .next (ends stOk t)) ∧
     (fenceEarly t k u b = none → b → exec c s = .next (if fenceReason t k u = 0 then
       ends stOk (fenceUnit k u (restWake t)) else ends (statD cBAD_FIELD (fenceReason t k u)) t)) ∧
     (fenceEarly t k u b = none → b = false → k ≠ 4 → exec c s = .next (ends stOk (unfenceUnit k u (restWake t)))) ∧
     (fenceEarly t k u b = none → b = false → k = 4 → exec c s = .next (if deviceBusy t q then ends (statD cBAD_FIELD 3) t
       else settle f { restWake t with memc := { (restWake t).memc with unfencing := some (q, i.idx) } })))) ∧
  (∀ (s : State), collectorRuns s → exec .fenceWindow s = .next (if elapsed s s.err.winAt (ms (2 ^ regf s 0xFC24 3 0)) then
    { s with err := { s.err with win := [], winAt := s.now } } else s))

/-- DUMP_WRITTEN, HOST_COPY_DONE, AGL_SEL, AGENT_WATCHDOG, AGENT_TRAP and LAN_DEV_KICK complete. In Umbra, with local
memory laid out, the dump is written once and marked done; a host copy that is under way ends done, with its bytes at
its place, or failed, where it failed or its place is not reachable; the management facet's write of AGL_SEL selects;
an agent whose watchdog has run out, or that traps, is copied again from the image and restarts on its core; a kick
from an agent's core restarts the watchdog of the agent that runs there. An agent that does not run, a watchdog that
has not run out, a kick of 0 or without a core, and another facet's AGL_SEL have no effect. -/
def Obligations.DumpAgentsAndSelectionComplete : Prop :=
  (∀ (s : State), s.cip.scan = false → s.err.mode = .umbra → s.err.dumpDone = false → s.memc.regions ≠ [] →
    ∃ t, exec .dumpWritten s = .next t ∧ t.err.dumpDone ∧ t.mem = dumpMem s) ∧
  (∀ (s : State), s.err.mode ≠ .umbra ∨ s.err.dumpDone ∨ s.memc.regions = [] → exec .dumpWritten s = .next s) ∧
  (∀ (s : State), s.cip.scan = false → s.err.mode = .umbra → s.err.copying →
    (let fail := { s with err := { s.err with copying := false, hostFail := true } }
     exec (.hostCopyDone false) s = .next fail ∧
     (hostCopyOk s = false → exec (.hostCopyDone true) s = .next fail) ∧
     (hostCopyOk s → ∃ t, exec (.hostCopyDone true) s = .next t ∧ t.err.hostDone ∧ t.err.copying = false ∧
       (let at_ := pinPlace s 0 (regf s 0xFC38 7 0) (reg s 0xFC40)
        let bs := memRead s.mem (s.memc.regions.getD 3 0) hostCopyLen
        (at_.1 = 5 → t.mem = memWrite at_.2.toNat bs s.mem) ∧
        (at_.1 ≠ 5 → .pwrite { target := at_.1, halfB := toHalfB s at_.1 at_.2, facet := 0, addr := at_.2, bytes := bs }
          ∈ t.out))))) ∧
  (∀ (ok : Bool) (s : State), s.err.mode ≠ .umbra ∨ s.err.copying = false → exec (.hostCopyDone ok) s = .next s) ∧
  (∀ (f : Nat) (v : U32) (s : State), running s → exec (.aglSel f v) s =
    .next (if f = 0 then { s with agl := { s.agl with sel := v } } else s)) ∧
  (∀ (a : Nat) (s : State), running s → (getAgent s a).st = 1 →
    exec (.agentTrap a) s = .next (restartAgent a (getAgent s a).core s) ∧
    exec (.agentWatchdog a) s = .next (if (getAgent s a).entry.wdogMs ≠ 0 ∧
      elapsed s (getAgent s a).kickAt (ms (getAgent s a).entry.wdogMs) then restartAgent a (getAgent s a).core s else s)) ∧
  (∀ (a : Nat) (s : State), (getAgent s a).st ≠ 1 → exec (.agentTrap a) s = .next s ∧ exec (.agentWatchdog a) s = .next s) ∧
  (∀ (c : Nat) (v : U32) (s : State), running s → exec (.lanDevKick (some c) v) s = .next (if bit v 0 then
    { s with boot := { s.boot with
      agents := amap (fun _ x => if x.st = 1 ∧ x.core = c then { x with kickAt := s.now } else x) s.boot.agents } } else s)) ∧
  (∀ (v : U32) (s : State), exec (.lanDevKick none v) s = .next s)

/-- PORST_N, ADP_RST_N, POWER_ON, POWER_LOSS, DEVICE_RESET, UMBRA_RESET_HOLD_END and BOOT_STAGE_DONE. Both pins: a
level of fewer than 5 samples has no effect. PORST_N low of a device that is neither off nor in PORST loses what a
cold reset loses, leaves the device in PORST and starts the power-down; its rise in PORST switches every rail off and
starts the power-on sequence; in every other state either level has no effect. ADP_RST_N low is noted; a device that
takes a warm reset and is neither in Umbra nor in Glimmer or its entry begins one; in Glimmer entry it waits, in
Glimmer the exit begins, in Umbra it runs as an Umbra reset once the dump is done and is held until then; one already
low, or of a device that is off, has no effect. The pin's rise lets boot stage 0 begin where the device was held in
reset. POWER_LOSS leaves a device that is off; POWER_ON with the variant bumps of its part brings it to PORST with the
counter at 0, and has no effect otherwise (for another part's bumps the model's choice, log entry 1). A DEVICE_RESET
that may start completes BAD_FIELD for KIND 0 and 3, and otherwise OK, and the reset waits for its record. A held
reset in Umbra runs once the dump is done or 100 ms have passed, not before. Each of the boot stages 0 to 9 that ends
has the effect of that stage: the state after it is named for each stage, with both outcomes of stages 2, 3 and 4 that
lead to boot hold. -/
def Obligations.ResetsAndBootStagesComplete : Prop :=
  (∀ (n : Nat) (low : Bool) (s : State), n < 5 → exec (.porstN low n) s = .next s ∧ exec (.adpRstN low n) s = .next s) ∧
  (∀ (n : Nat) (s : State), 5 ≤ n → s.boot.run ≠ .off → s.boot.run ≠ .porst →
    exec (.porstN true n) s = .next (powerDown { coldLoss s with
      boot := { (coldLoss s).boot with run := .porst }, pwr := { (coldLoss s).pwr with seqDown := s.pwr.seqDown } })) ∧
  (∀ (n : Nat) (s : State), 5 ≤ n → s.boot.run = .off ∨ s.boot.run = .porst → exec (.porstN true n) s = .next s) ∧
  (∀ (n : Nat) (s : State), 5 ≤ n → s.boot.run = .porst →
    exec (.porstN false n) s = .next (allOff { s with boot := { s.boot with run := .rails } })) ∧
  (∀ (n : Nat) (s : State), 5 ≤ n → s.boot.run ≠ .porst → exec (.porstN false n) s = .next s) ∧
  (∀ (n : Nat) (s : State), 5 ≤ n → s.boot.adpLow = false → s.boot.run ≠ .off →
    (let t := { s with boot := { s.boot with adpLow := true } }
     (takesWarm s = false → exec (.adpRstN true n) s = .next t) ∧
     (takesWarm s → s.err.mode ≠ .umbra → s.pwr.st ≠ .glimmer → s.pwr.st ≠ .glimmerEntry →
       exec (.adpRstN true n) s = .next (leaveReset (warmLoss t))) ∧
     (takesWarm s → s.err.mode ≠ .umbra → s.pwr.st = .glimmerEntry →
       exec (.adpRstN true n) s = .next { t with boot := { t.boot with warmAfter := true } }) ∧
     (takesWarm s → s.err.mode ≠ .umbra → s.pwr.st = .glimmer → exec (.adpRstN true n) s = .next (glimmerExit 0 t)) ∧
     (takesWarm s → s.err.mode = .umbra → s.err.dumpDone → exec (.adpRstN true n) s = .next (leaveReset (umbraLoss t))) ∧
     (takesWarm s → s.err.mode = .umbra → s.err.dumpDone = false → s.boot.heldWarm = none →
       exec (.adpRstN true n) s = .next { t with boot := { t.boot with heldWarm := some s.now } }))) ∧
  (∀ (n : Nat) (s : State), 5 ≤ n → s.boot.adpLow ∨ s.boot.run = .off → exec (.adpRstN true n) s = .next s) ∧
  (∀ (n : Nat) (s : State), 5 ≤ n → exec (.adpRstN false n) s = .next { s with boot := { s.boot with
    adpLow := false, run := if s.boot.run = .adpReset then .boot else s.boot.run } }) ∧
  (∀ (s : State), exec .powerLoss s = .next { coldLoss s with
    pwr := {}, boot := { (coldLoss s).boot with run := .off, adpLow := false } }) ∧
  (∀ (s : State), s.boot.run = .off → exec (.powerOn s.part) s = .next { s with now := 0, boot := { s.boot with run := .porst } }) ∧
  (∀ (v : Variant) (s : State), s.boot.run ≠ .off ∨ v ≠ s.part → exec (.powerOn v) s = .next s) ∧
  (∀ (f q : Nat) (i : Item) (s : State), ready s f q 0x3A = some i →
    (let k := fld i.desc.w2 1 0
     let t := startItem f q i.idx s
     let u := completeItem 0 q i.idx stOk t
     (k = 0 ∨ k = 3 → exec (.deviceReset f q) s = .next (settle f (completeItem 0 q i.idx (stat cBAD_FIELD) t))) ∧
     (k = 1 ∨ k = 2 → u.boot.resetWait = none → exec (.deviceReset f q) s = .next (settle f { u with
       boot := { u.boot with resetWait := some (q, i.idx, decide (k = 2)) } })) ∧
     (k = 1 ∨ k = 2 → u.boot.resetWait ≠ none → exec (.deviceReset f q) s = .next (settle f u)))) ∧
  (∀ (t : U64) (s : State), s.boot.heldWarm = some t → s.err.mode = .umbra → s.err.dumpDone ∨ elapsed s t (ms 100) →
    exec .umbraResetHoldEnd s = .next (leaveReset (umbraLoss s))) ∧
  (∀ (t : U64) (s : State), s.boot.heldWarm = some t → s.err.dumpDone = false → elapsed s t (ms 100) = false →
    exec .umbraResetHoldEnd s = .next s) ∧
  (∀ (info : BootInfo) (s : State), s.boot.run = .boot → awake s →
    (s.boot.stage = 0 → exec (.bootStageDone info) s = .next (toStage 1 s)) ∧
    (s.boot.stage = 1 → exec (.bootStageDone info) s = .next (toStage 2 (stage1 info s))) ∧
    (s.boot.stage = 2 → (chooseBank s info).1 ≠ none → ∃ t, exec (.bootStageDone info) s = .next t ∧
      t.boot.stage = 3 ∧ t.boot.run = .boot ∧ (chooseBank s info).1 = some t.boot.bankB ∧
      t.boot.image = (if t.boot.bankB then info.bankB else info.bankA).image) ∧
    (s.boot.stage = 2 → (chooseBank s info).1 = none → ∃ t, exec (.bootStageDone info) s = .next t ∧
      t.boot.run = .hold ∧ t.boot.holdWhy = 1) ∧
    (s.boot.stage = 3 → (coreFenced s 0 ∧ coreFenced s 1) → exec (.bootStageDone info) s = .next (bootHold 3 s)) ∧
    (s.boot.stage = 3 → ¬ (coreFenced s 0 ∧ coreFenced s 1) → exec (.bootStageDone info) s = .next (toStage 4
      (emit (.pin "NVM_FREE" true) { s with
        boot := { s.boot with nvmFree := true }, prism := { s.prism with ucode := s.boot.image.ucodeVer } }))) ∧
    (s.boot.stage = 4 → info.trained → exec (.bootStageDone info) s = .next (toStage 5 (layMemory info s.boot.image.mem s))) ∧
    (s.boot.stage = 4 → info.trained = false → exec (.bootStageDone info) s = .next (bootHold 2 s)) ∧
    (s.boot.stage = 5 → exec (.bootStageDone info) s = .next (stage5 s)) ∧
    (s.boot.stage = 6 → exec (.bootStageDone info) s = .next (stage6 s)) ∧
    (s.boot.stage = 7 → exec (.bootStageDone info) s = .next (restoreAll (toStage 8 s))) ∧
    (s.boot.stage = 8 → ∃ t, exec (.bootStageDone info) s = .next t ∧ t.boot.locked ∧ t.boot.stage = 9) ∧
    (s.boot.stage = 9 → exec (.bootStageDone info) s = .next (stage9 s)))

/-- REGISTER_WRITE and HOLD_ACTIVE_WRITE complete. In a running device, whoever makes the access and wherever it
reaches a register of a facet's page: a 4-byte write of a 32-bit register that is taken, and an 8-byte write of a
64-bit one, writes the register whole; a 4-byte write of one half of a 64-bit register that takes halves writes it
with the other half as it reads; an 8-byte write where no 64-bit register lies is two 4-byte writes, the lower first;
a write of another width, not aligned, or that reaches no facet's page has no effect. Of HOLD_ACTIVE the management
facet's write sets the bit, where it was not set a Rest wake, clears it, or leaves it; another facet's write has no
effect. -/
def Obligations.RegisterWritesComplete : Prop :=
  (∀ (a : Source) (g o f off : Nat) (v : U64) (s : State), running s → pageReach s a g o = some (f, off) →
    (∀ (r : RegView), off % 4 = 0 → view s f off = some r → r.wide = false → takes s f off (v &&& 0xFFFFFFFF) →
      exec (.registerWrite ⟨a, g⟩ o 4 v) s = .next (writeWhole f off (v &&& 0xFFFFFFFF) s)) ∧
    (∀ (r : RegView), off % 8 = 0 → view s f off = some r → r.wide → takes s f off v →
      exec (.registerWrite ⟨a, g⟩ o 8 v) s = .next (writeWhole f off v s)) ∧
    (∀ (r : RegView), off % 8 = 0 → view s f off = some r → r.wide → r.acc ≠ .one → off ≠ 0xD430 →
      takes s f off (v &&& 0xFFFFFFFF) → exec (.registerWrite ⟨a, g⟩ o 4 v) s =
        .next (writeWhole f off ((r.val &&& 0xFFFFFFFF00000000) ||| (v &&& 0xFFFFFFFF)) s)) ∧
    (∀ (r : RegView), off % 8 = 4 → view s f off = none → view s f (off - 4) = some r → r.wide → r.acc ≠ .one →
      off ≠ 0xD434 → takes s f (off - 4) (v &&& 0xFFFFFFFF) → exec (.registerWrite ⟨a, g⟩ o 4 v) s =
        .next (writeWhole f (off - 4) ((r.val &&& 0xFFFFFFFF) ||| ((v &&& 0xFFFFFFFF) <<< 32)) s)) ∧
    (off % 8 = 0 → (∀ r, view s f off = some r → r.wide = false) →
      exec (.registerWrite ⟨a, g⟩ o 8 v) s = .next (write32 f (off + 4) (v >>> 32) (write32 f off v s))) ∧
    (∀ (w : Nat), ¬ (w = 4 ∧ off % 4 = 0) → ¬ (w = 8 ∧ off % 8 = 0) → exec (.registerWrite ⟨a, g⟩ o w v) s = .next s)) ∧
  (∀ (a : Source) (g o w : Nat) (v : U64) (s : State), pageReach s a g o = none →
    exec (.registerWrite ⟨a, g⟩ o w v) s = .next s) ∧
  (∀ (v : U32) (s : State), running s → bit v 0 → s.pwr.holdActive = false →
    exec (.holdActiveWrite 0 v) s = .next (restWake { s with pwr := { s.pwr with holdActive := true } })) ∧
  (∀ (v : U32) (s : State), running s → bit v 0 = false → s.pwr.holdActive →
    exec (.holdActiveWrite 0 v) s = .next (noteBusy { s with pwr := { s.pwr with holdActive := false } })) ∧
  (∀ (v : U32) (s : State), running s → bit v 0 = s.pwr.holdActive → exec (.holdActiveWrite 0 v) s = .next s) ∧
  (∀ (f : Nat) (v : U32) (s : State), f ≠ 0 → exec (.holdActiveWrite f v) s = .next s)

/-- The Rest and Glimmer commands complete. After the idle interval with R425 true, Rest entry begins: every live link
is asked for sleep; while R425 is not true the interval starts again; when every link has answered or 10 us have
passed the device is in Rest, with RESTS one higher and Prism without power, and not before; after the interval in
Rest with R429 true Glimmer entry begins, and with it false the interval starts again; when its last rail is off the
device sleeps, or, with a wake latched or a warm reset waiting, wakes; a wake input is latched in Glimmer and its
entry; a sample cycle that finds a wake condition starts the exit, and another keeps the time; WAKE_UP_N ends after 1
s. -/
def Obligations.RestAndGlimmerCommandsComplete : Prop :=
  (∀ (s : State), running s → s.pwr.st = .active →
    (mayRest s → elapsed s s.pwr.idleAt (us (2 ^ regf s 0x100 5 2)) →
      (let l := (List.range 24).filter (linkLive s)
       let t := emits (l.map (linkWord s 5 1)) s
       exec .restIdle s = .next { t with
         fab := { t.fab with links := amap (fun n x => if n ∈ l then { x with asked := true } else x) t.fab.links }
         pwr := { t.pwr with st := .restEntry, entryAt := t.now, asked := l }
         prism := { t.prism with assigning := false } })) ∧
    (mayRest s → elapsed s s.pwr.idleAt (us (2 ^ regf s 0x100 5 2)) = false → exec .restIdle s = .next s) ∧
    (mayRest s = false → exec .restIdle s = .next { s with pwr := { s.pwr with idleAt := s.now } })) ∧
  (∀ (s : State), running s → s.pwr.st = .restEntry → exec .restEntryStep s = .next
    (if allAnswered s ∨ elapsed s s.pwr.entryAt (us 10) then { s with
      fab := { s.fab with links := amap (fun _ l => if l.asked && !l.granted then { l with asked := false } else l) s.fab.links }
      pwr := { s.pwr with st := .rest, entryAt := s.now, asked := [], rests := s.pwr.rests + 1 }
      prism := { s.prism with powered := false } } else s)) ∧
  (∀ (s : State), s.boot.run = .running → awake s → s.pwr.st = .rest → elapsed s s.pwr.entryAt (ms (2 ^ regf s 0x100 9 6)) →
    (mayGlimmer s → exec .glimmerIdle s = .next (glimmerBegin s)) ∧
    (mayGlimmer s = false → exec .glimmerIdle s = .next { s with pwr := { s.pwr with entryAt := s.now } })) ∧
  (∀ (s : State), s.pwr.st = .glimmerEntry → s.pwr.seqDown = none →
    (s.boot.warmAfter → exec .glimmerEntryDone s = .next (glimmerExit 0 s)) ∧
    (s.boot.warmAfter = false → s.pwr.latch ≠ 0 → exec .glimmerEntryDone s = .next (glimmerExit (s.pwr.latch ||| 0x800) s)) ∧
    (s.boot.warmAfter = false → s.pwr.latch = 0 → exec .glimmerEntryDone s = .next { s with
      pwr := { s.pwr with st := .glimmer, sampleAt := s.now }, thm := { s.thm with duties := glimDuties s } })) ∧
  (∀ (w : WakeKind) (s : State), w.wf →
    exec (.wakeInput w) s = .next (if s.pwr.st = .glimmer ∨ s.pwr.st = .glimmerEntry then
      { s with pwr := { s.pwr with latch := s.pwr.latch ||| BitVec.ofNat 12 (2 ^ wakeBit w) } } else s)) ∧
  (∀ (r : Readings) (s : State), s.pwr.st = .glimmer →
    (let due := s.pwr.latch ≠ 0 ∨ elapsed s s.pwr.sampleAt (ms (samplePeriod s))
     (due → exec (.sampleCycle r) s = .next (if sample s r = 0 then { s with pwr := { s.pwr with sampleAt := s.now } }
       else glimmerExit (sample s r) s)) ∧
     (¬ due → exec (.sampleCycle r) s = .next s))) ∧
  (∀ (t : U64) (s : State), s.pwr.wakeUp = some t →
    exec .wakeUpTimeout s = .next (if elapsed s t (ms 1000) then wakeUpEnd s else s))

/-- The rail, AVS and cooling commands complete. The rail that awaits its POWER_GOOD reports it and the next rail is
switched on; one that has not within 10 ms switches every rail off, and the sequence is tried again after 1 s, not
before; a rail that is off lets the power-down go on; AVS sets both rails within their ranges each 10 ms; a cooling
period takes one step of the loop: from the hottest ok diode, held where the level is low, and with the fans at their
full where no diode is ok, or in the first period; before its time, or for another rail, each has no effect. -/
def Obligations.RailAndCoolingCommandsComplete : Prop :=
  (∀ (r : Nat) (s : State),
    (railAwaits s r → exec (.powerGood r) s = .next (railUp { s with pwr := { s.pwr with
      railPg := s.pwr.railPg ||| railBit r } })) ∧
    (railAwaits s r → exec (.railTimeout r) s = .next (if elapsed s s.pwr.railAt (ms 10) then powerDown (allDuty 100 { s with
      boot := { s.boot with run := .retryWait }, pwr := { s.pwr with entryAt := s.now } }) else s)) ∧
    (railAwaits s r = false → exec (.powerGood r) s = .next s ∧ exec (.railTimeout r) s = .next s)) ∧
  (∀ (s : State), s.boot.run = .retryWait → s.pwr.seqDown = none → exec .railSequenceRetry s = .next
    (if elapsed s s.pwr.entryAt (ms 1000) then railUp { s with boot := { s.boot with run := .rails } } else s)) ∧
  (∀ (r : Nat) (s : State), exec (.railOff r) s = .next (if s.pwr.seqDown = some r then
    railDown { s with pwr := { s.pwr with railPg := s.pwr.railPg &&& ~~~railBit r } } else s)) ∧
  (∀ (c m : Nat) (s : State), stage5Past s → bit (reg s 0x100) 10 → elapsed s s.pwr.avsAt (ms 10) →
    ∃ t, exec (.avsTrim c m true true) s = .next t ∧
      t.pwr.vcore = BitVec.ofNat 12 (min 800 (max 700 ((c + 4) / 5 * 5))) ∧
      t.pwr.vsram = BitVec.ofNat 12 (min 850 (max 750 ((m + 4) / 5 * 5))) ∧ t.pwr.avsAt = s.now) ∧
  (∀ (c m : Nat) (s : State), stage5Past s → bit (reg s 0x100) 10 → elapsed s s.pwr.avsAt (ms 10) →
    exec (.avsTrim c m false false) s = .next { s with pwr := { s.pwr with avsAt := s.now } }) ∧
  (∀ (c m : Nat) (a b : Bool) (s : State), stage5Past s = false ∨ bit (reg s 0x100) 10 = false ∨
    elapsed s s.pwr.avsAt (ms 10) = false → exec (.avsTrim c m a b) s = .next s) ∧
  (∀ (r : Readings) (s : State), stage5Past s → elapsed s s.thm.at_ (ms (25 * 2 ^ regf s 0x200 63 60)) →
    ∃ t, exec (.coolingPeriod r) s = .next (thermEvents r t) ∧ t.thm.at_ = s.now ∧ t.thm.fresh = false ∧
      (s.thm.fresh → t.thm.u = 0xFFFF ∧ t.thm.i = 1048560) ∧
      (∀ (x : Int), s.thm.fresh = false → loopInput s r = some x → (t.thm.u, t.thm.i) = loopNext s x (levelLow s r)) ∧
      (s.thm.fresh = false → loopInput s r = none → t.thm.u = 0xFFFF ∧ t.thm.i = s.thm.i) ∧
      (levelLow s r = false → t.thm.duties = (List.range 4).map (dutyOf s t.thm.u)) ∧
      (levelLow s r → t.thm.duties = (List.range 4).map (fun k => percent (regf s (0x210 + 8 * k) 27 21)))) ∧
  (∀ (r : Readings) (s : State), stage5Past s = false ∨ elapsed s s.thm.at_ (ms (25 * 2 ^ regf s 0x200 63 60)) = false →
    exec (.coolingPeriod r) s = .next s)
end

