-- ==== Sys2Proof/Laws/Memory.lean ====
section
/-!
SUPPORT. The local memory: what a byte reads after a write, and that every memory operation keeps the canonical form.
-/
namespace Sys2Proof.Machine

theorem memWf_iff {m : List Host.Cell} :
    memWf m = true ↔ List.Pairwise (fun a b : Host.Cell => a.1 < b.1) m ∧ ∀ c ∈ m, c.2 ≠ memUnlisted := by
  simp [memWf]

theorem memWf_nil : memWf [] = true := by decide

theorem mem_of_memInsert {a : Nat} {b : Byte} {m : List Host.Cell} {c : Host.Cell} (h : c ∈ memInsert a b m) :
    c = (a, b) ∨ c ∈ m := by
  induction m with
  | nil => exact Or.inl (by simpa [memInsert] using h)
  | cons x r ih =>
    unfold memInsert at h
    split at h
    · simpa using h
    · rcases List.mem_cons.mp h with rfl | h
      · exact Or.inr (List.mem_cons_self ..)
      · exact (ih h).imp id (List.mem_cons_of_mem _)

theorem memInsert_pairwise {a : Nat} {b : Byte} {m : List Host.Cell} (ha : ∀ c ∈ m, c.1 ≠ a)
    (h : List.Pairwise (fun x y : Host.Cell => x.1 < y.1) m) :
    List.Pairwise (fun x y : Host.Cell => x.1 < y.1) (memInsert a b m) := by
  induction m with
  | nil => simp [memInsert]
  | cons x r ih =>
    have hx := ha x (List.mem_cons_self ..)
    obtain ⟨h1, h2⟩ := List.pairwise_cons.mp h
    unfold memInsert
    split
    · next hlt =>
      refine List.pairwise_cons.mpr ⟨fun c hc => ?_, h⟩
      rcases List.mem_cons.mp hc with rfl | hc
      · exact hlt
      · exact Nat.lt_trans hlt (h1 c hc)
    · refine List.pairwise_cons.mpr ⟨fun c hc => ?_, ih (fun c hc => ha c (List.mem_cons_of_mem _ hc)) h2⟩
      rcases mem_of_memInsert hc with rfl | hc
      · show x.1 < a
        omega
      · exact h1 c hc

/-- Dropping cells keeps the canonical form. -/
theorem filter_wf {m : List Host.Cell} (p : Host.Cell → Bool) (h : memWf m = true) : memWf (m.filter p) = true := by
  rw [memWf_iff] at *
  exact ⟨h.1.filter _, fun c hc => h.2 c (List.mem_filter.mp hc).1⟩

theorem memDrop_wf {m : List Host.Cell} (a : Nat) (h : memWf m = true) : memWf (memDrop a m) = true := filter_wf _ h

theorem memSet_wf {m : List Host.Cell} (a : Nat) (b : Byte) (h : memWf m = true) : memWf (memSet a b m) = true := by
  have hd := memDrop_wf a h
  unfold memSet
  split
  · exact hd
  · next hb =>
    rw [memWf_iff] at *
    refine ⟨memInsert_pairwise (fun c hc => ?_) hd.1, fun c hc => ?_⟩
    · simpa [memDrop] using (List.mem_filter.mp hc).2
    · rcases mem_of_memInsert hc with rfl | hc
      · exact hb
      · exact hd.2 c hc

/-- A write keeps the canonical form. -/
theorem memWrite_wf (a : Nat) (bs : Bytes) {m : List Host.Cell} (h : memWf m = true) : memWf (memWrite a bs m) = true := by
  induction bs generalizing a m with
  | nil => exact h
  | cons b bs ih => exact ih (a + 1) (memSet_wf a b h)

/-! ### Reading after a write -/

theorem memByte_memDrop (m : List Host.Cell) (a x : Nat) :
    memByte (memDrop a m) x = if x = a then memUnlisted else memByte m x := by
  induction m with
  | nil => simp [memDrop, memByte]
  | cons c r ih =>
    unfold memDrop memByte at *
    by_cases hc : c.1 = a
    · by_cases hx : x = a
      · simp_all
      · have : ¬ c.1 = x := fun h => hx (h ▸ hc)
        simp_all
    · by_cases hx : c.1 = x
      · have : ¬ x = a := fun h => hc (hx.trans h)
        simp_all
      · simp_all

theorem memByte_memInsert (m : List Host.Cell) (a : Nat) (b : Byte) (x : Nat) (ha : ∀ c ∈ m, c.1 ≠ a) :
    memByte (memInsert a b m) x = if x = a then b else memByte m x := by
  induction m with
  | nil =>
    by_cases hx : x = a
    · simp [memInsert, memByte, hx]
    · have : ¬ a = x := fun h => hx h.symm
      simp [memInsert, memByte, hx, this]
  | cons c r ih =>
    have hc := ha c (List.mem_cons_self ..)
    have hr := ih (fun d hd => ha d (List.mem_cons_of_mem _ hd))
    unfold memInsert
    split
    · by_cases hx : x = a
      · simp [memByte, hx]
      · have : ¬ a = x := fun h => hx h.symm
        simp [memByte, hx, this]
    · by_cases hx : c.1 = x
      · have : ¬ x = a := fun h => hc (hx.trans h)
        simp [memByte, hx, this]
      · unfold memByte at hr ⊢
        simpa [hx] using hr

theorem memByte_memSet (m : List Host.Cell) (a : Nat) (b : Byte) (x : Nat) :
    memByte (memSet a b m) x = if x = a then b else memByte m x := by
  unfold memSet
  split
  · next h => rw [memByte_memDrop, h]
  · have hd : ∀ c ∈ memDrop a m, c.1 ≠ a := fun c hc => by simpa using (List.mem_filter.mp hc).2
    rw [memByte_memInsert _ _ _ _ hd, memByte_memDrop]
    split <;> rfl

/-- A byte outside a write reads as before; a byte of it reads what was written. -/
theorem memByte_memWrite (a : Nat) (bs : Bytes) (m : List Host.Cell) (x : Nat) :
    memByte (memWrite a bs m) x = if a ≤ x ∧ x < a + bs.length then bs.getD (x - a) 0 else memByte m x := by
  induction bs generalizing a m with
  | nil => simp [memWrite]
  | cons b bs ih =>
    rw [memWrite, ih, memByte_memSet]
    by_cases h1 : x = a
    · subst h1
      simp
    · by_cases h2 : a + 1 ≤ x ∧ x < a + 1 + bs.length
      · have h3 : a ≤ x ∧ x < a + (bs.length + 1) := by omega
        have h4 : x - a = (x - (a + 1)) + 1 := by omega
        simp [h2, h3, h4]
      · have h3 : ¬ (a ≤ x ∧ x < a + (bs.length + 1)) := by omega
        simp only [List.length_cons, h1, h2, h3, if_false]

end Sys2Proof.Machine
end

