-- ==== Sys2Proof/Laws/Base.lean ====
section
/-!
SUPPORT. The relation that every operation of the model satisfies: which parts of the state it may change, and that it
keeps the memory's canonical form; how that relation goes through conditionals, folds and record updates.
-/
namespace Sys2Proof.Machine

/-- `t` comes from `s` by an operation that changes at most the parts `ps` and keeps the memory's canonical form. -/
structure Does (ps : List Part) (s t : State) : Prop where
  only : Only ps s t
  wf : memWf s.mem = true → memWf t.mem = true

/-- Every part of one list is in another. -/
def subParts (a ps : List Part) : Bool := a.all (fun p => ps.contains p)

theorem subParts_mem {a ps : List Part} (h : subParts a ps = true) {p : Part} (ha : p ∈ a) : p ∈ ps := by
  have := List.all_eq_true.mp h p ha
  simpa using this

theorem subParts_of {a b ps : List Part} (h : subParts a b = true) (hb : subParts b ps = true) : subParts a ps = true :=
  List.all_eq_true.mpr (fun _ hp => List.contains_iff_mem.mpr (subParts_mem hb (subParts_mem h hp)))

theorem clash {a ps : List Part} {p : Part} (hp : subParts a ps = true) (ha : a.contains p = true) (hc : p ∉ ps) :
    False :=
  hc (subParts_mem hp (List.contains_iff_mem.mp ha))

theorem same_refl (p : Part) (s : State) : Same p s s := by cases p <;> rfl

theorem same_trans {p : Part} {s t u : State} (h : Same p s t) (h' : Same p t u) : Same p s u := by
  cases p <;> simp only [Same] at * <;> exact h'.trans h

theorem does_refl (ps : List Part) (s : State) : Does ps s s := ⟨fun p _ => same_refl p s, id⟩

theorem does_trans {ps : List Part} {s t u : State} (h : Does ps s t) (h' : Does ps t u) : Does ps s u :=
  ⟨fun p hp => same_trans (h.only p hp) (h'.only p hp), fun w => h'.wf (h.wf w)⟩

theorem does_mono {a ps : List Part} {s t : State} (h : Does a s t) (hp : subParts a ps = true) : Does ps s t :=
  ⟨fun p hc => h.only p (fun ha => hc (subParts_mem hp ha)), h.wf⟩

theorem only_intro {ps : List Part} {s t : State} (h : ∀ p, p ∉ ps → Same p s t) : Only ps s t := h

/-- `t`, written out field by field over the state `x`, is reached from `s` within the parts `ps`. -/
def Moves (ps : List Part) (s _x t : State) : Prop := Does ps s t

/-- A state written out over `x`, whose queue of commands and memory it takes over. -/
theorem does_mk {ps : List Part} {s x : State} {part now free out regs facets arb qps zrt wheel mirror groups grp prism fab
    xlt memc pcx mov cip trust eth agl err boot pwr thm} :
    Does ps s (State.mk x.pending part now free out x.mem regs facets arb qps zrt wheel mirror groups grp prism fab xlt
      memc pcx mov cip trust eth agl err boot pwr thm) =
    Moves ps s x (State.mk x.pending part now free out x.mem regs facets arb qps zrt wheel mirror groups grp prism fab xlt
      memc pcx mov cip trust eth agl err boot pwr thm) := rfl

/-- What is written over `x` does as little as the new fields allow. -/
theorem moves_intro {ps : List Part} {s x t : State} (h : Does ps s x) (hm : t.mem = x.mem) (hs : Only ps x t) :
    Moves ps s x t :=
  ⟨fun p hp => same_trans (h.only p hp) (hs p hp), fun w => hm ▸ h.wf w⟩

theorem does_err {pz : List Part} {s x : State} {e : Err} (h : Does pz s x) (hp : subParts [.err] pz = true) :
    Does pz s { x with err := e } := by
  refine does_trans h ⟨fun p hc => ?_, id⟩
  cases p <;> first | exact (clash hp (by decide) hc).elim | dsimp only [Same]

theorem does_ite {ps : List Part} {s a b : State} {c : Prop} [Decidable c] (ha : Does ps s a) (hb : Does ps s b) :
    Does ps s (if c then a else b) := by split <;> assumption

theorem does_fold {α : Type} {ps : List Part} {s₀ s : State} {f : State → α → State} {l : List α} (h : Does ps s₀ s)
    (hf : ∀ s x, Does ps s₀ s → Does ps s₀ (f s x)) : Does ps s₀ (l.foldl f s) := by
  induction l generalizing s with
  | nil => exact h
  | cons x l ih => exact ih (hf s x h)

theorem does_when {ps : List Part} {s₀ s : State} {c : Bool} {g : State → State} (h : Does ps s₀ s)
    (hg : ∀ s, Does ps s₀ s → Does ps s₀ (g s)) : Does ps s₀ (when c g s) := by
  unfold when; split
  · exact hg s h
  · exact h

/-- The state that an operation with a second answer leaves. -/
theorem does_fst {α : Type} {ps : List Part} {s₀ s : State} {x : State × α} {a : α} (e : x = (s, a))
    (h : Does ps s₀ x.1) : Does ps s₀ s := by subst e; exact h

end Sys2Proof.Machine
end

