-- ==== Sys2Proof/Laws/OpsFrame.lean ====
section
/-!
SUPPORT. What each operation of Machine/Ops.lean may change: one lemma per operation.
-/
set_option linter.unusedTactic false
set_option linter.unreachableTactic false
set_option linter.unusedSimpArgs false
set_option linter.unusedVariables false

namespace Sys2Proof.Machine

theorem modF_does {pz : List Part} {s₀ : State} {f : Nat} {g : Facet → Facet} {s : State} (h_s : Does pz s₀ s) (hp :
    subParts [.facets] pz = true) : Does pz s₀ (modF f g s) := by
  unfold modF
  try dsimp only
  repeat' first
    | with_reducible assumption | exact subParts_of (by decide) hp | with_reducible apply does_fold
    | simp only [does_mk] | with_reducible refine moves_intro ?_ rfl ?_
    | ((with_reducible refine only_intro ?_); intro p hc; cases p <;> first
        | exact (clash hp (by decide) hc).elim | dsimp only [Same])
    | intro _ | split | with_reducible apply does_ite | with_reducible apply does_fst (by assumption) | dsimp only

theorem modQ_does {pz : List Part} {s₀ : State} {f : Nat} {rq : Bool} {q : Nat} {g : Queue → Queue} {s : State} (h_s :
    Does pz s₀ s) (hp : subParts [.facets] pz = true) : Does pz s₀ (modQ f rq q g s) := by
  unfold modQ
  try dsimp only
  repeat' first
    | with_reducible assumption | with_reducible apply modF_does | exact subParts_of (by decide) hp
    | with_reducible apply does_fold | simp only [does_mk] | with_reducible refine moves_intro ?_ rfl ?_
    | ((with_reducible refine only_intro ?_); intro p hc; cases p <;> first
        | exact (clash hp (by decide) hc).elim | dsimp only [Same])
    | intro _ | split | with_reducible apply does_ite | with_reducible apply does_fst (by assumption) | dsimp only

theorem modE_does {pz : List Part} {s₀ : State} {f : Nat} {e : Nat} {g : EvRing → EvRing} {s : State} (h_s : Does pz
    s₀ s) (hp : subParts [.facets] pz = true) : Does pz s₀ (modE f e g s) := by
  unfold modE
  try dsimp only
  repeat' first
    | with_reducible assumption | with_reducible apply modF_does | exact subParts_of (by decide) hp
    | with_reducible apply does_fold | simp only [does_mk] | with_reducible refine moves_intro ?_ rfl ?_
    | ((with_reducible refine only_intro ?_); intro p hc; cases p <;> first
        | exact (clash hp (by decide) hc).elim | dsimp only [Same])
    | intro _ | split | with_reducible apply does_ite | with_reducible apply does_fst (by assumption) | dsimp only

theorem modQp_does {pz : List Part} {s₀ : State} {n : Nat} {g : Qp → Qp} {s : State} (h_s : Does pz s₀ s) (hp :
    subParts [.qps] pz = true) : Does pz s₀ (modQp n g s) := by
  unfold modQp
  try dsimp only
  repeat' first
    | with_reducible assumption | exact subParts_of (by decide) hp | with_reducible apply does_fold
    | simp only [does_mk] | with_reducible refine moves_intro ?_ rfl ?_
    | ((with_reducible refine only_intro ?_); intro p hc; cases p <;> first
        | exact (clash hp (by decide) hc).elim | dsimp only [Same])
    | intro _ | split | with_reducible apply does_ite | with_reducible apply does_fst (by assumption) | dsimp only

theorem modG_does {pz : List Part} {s₀ : State} {g : Nat} {h : Group → Group} {s : State} (h_s : Does pz s₀ s) (hp :
    subParts [.groups] pz = true) : Does pz s₀ (modG g h s) := by
  unfold modG
  try dsimp only
  repeat' first
    | with_reducible assumption | exact subParts_of (by decide) hp | with_reducible apply does_fold
    | simp only [does_mk] | with_reducible refine moves_intro ?_ rfl ?_
    | ((with_reducible refine only_intro ?_); intro p hc; cases p <;> first
        | exact (clash hp (by decide) hc).elim | dsimp only [Same])
    | intro _ | split | with_reducible apply does_ite | with_reducible apply does_fst (by assumption) | dsimp only

theorem emit_does {pz : List Part} {s₀ : State} {o : Output} {s : State} (h_s : Does pz s₀ s) (hp : subParts [.out] pz
    = true) : Does pz s₀ (emit o s) := by
  unfold emit
  try dsimp only
  repeat' first
    | with_reducible assumption | exact subParts_of (by decide) hp | with_reducible apply does_fold
    | simp only [does_mk] | with_reducible refine moves_intro ?_ rfl ?_
    | ((with_reducible refine only_intro ?_); intro p hc; cases p <;> first
        | exact (clash hp (by decide) hc).elim | dsimp only [Same])
    | intro _ | split | with_reducible apply does_ite | with_reducible apply does_fst (by assumption) | dsimp only

theorem emits_does {pz : List Part} {s₀ : State} {l : List Output} {s : State} (h_s : Does pz s₀ s) (hp : subParts
    [.out] pz = true) : Does pz s₀ (emits l s) := by
  unfold emits
  try dsimp only
  repeat' first
    | with_reducible assumption | exact subParts_of (by decide) hp | with_reducible apply does_fold
    | simp only [does_mk] | with_reducible refine moves_intro ?_ rfl ?_
    | ((with_reducible refine only_intro ?_); intro p hc; cases p <;> first
        | exact (clash hp (by decide) hc).elim | dsimp only [Same])
    | intro _ | split | with_reducible apply does_ite | with_reducible apply does_fst (by assumption) | dsimp only

theorem modP_does {pz : List Part} {s₀ : State} {k : Nat} {g : Port → Port} {s : State} (h_s : Does pz s₀ s) (hp :
    subParts [.pcx] pz = true) : Does pz s₀ (modP k g s) := by
  unfold modP
  try dsimp only
  repeat' first
    | with_reducible assumption | exact subParts_of (by decide) hp | with_reducible apply does_fold
    | simp only [does_mk] | with_reducible refine moves_intro ?_ rfl ?_
    | ((with_reducible refine only_intro ?_); intro p hc; cases p <;> first
        | exact (clash hp (by decide) hc).elim | dsimp only [Same])
    | intro _ | split | with_reducible apply does_ite | with_reducible apply does_fst (by assumption) | dsimp only

theorem clearPoison_does {pz : List Part} {s₀ : State} {a : Nat} {n : Nat} {s : State} (h_s : Does pz s₀ s) (hp :
    subParts [.memc] pz = true) : Does pz s₀ (clearPoison a n s) := by
  unfold clearPoison
  try dsimp only
  repeat' first
    | with_reducible assumption | exact subParts_of (by decide) hp | with_reducible apply does_fold
    | simp only [does_mk] | with_reducible refine moves_intro ?_ rfl ?_
    | ((with_reducible refine only_intro ?_); intro p hc; cases p <;> first
        | exact (clash hp (by decide) hc).elim | dsimp only [Same])
    | intro _ | split | with_reducible apply does_ite | with_reducible apply does_fst (by assumption) | dsimp only

theorem memStore_does {pz : List Part} {s₀ : State} {a : Nat} {bs : Bytes} {s : State} (h_s : Does pz s₀ s)
    (hp : subParts [.mem, .memc] pz = true) : Does pz s₀ (memStore a bs s) := by
  refine does_trans h_s ⟨fun p hc => ?_, fun w => memWrite_wf a bs w⟩
  cases p <;> first | exact (clash hp (by decide) hc).elim | exact rfl

theorem copyAgent_does {pz : List Part} {s₀ : State} {e : AgentEntry} {s : State} (h_s : Does pz s₀ s) (hp : subParts
    [.mem, .memc] pz = true) : Does pz s₀ (copyAgent e s) := by
  unfold copyAgent
  try dsimp only
  repeat' first
    | with_reducible assumption | with_reducible apply memStore_does | exact subParts_of (by decide) hp
    | with_reducible apply does_fold | simp only [does_mk] | with_reducible refine moves_intro ?_ rfl ?_
    | ((with_reducible refine only_intro ?_); intro p hc; cases p <;> first
        | exact (clash hp (by decide) hc).elim | dsimp only [Same])
    | intro _ | split | with_reducible apply does_ite | with_reducible apply does_fst (by assumption) | dsimp only

theorem sendTlp_does {pz : List Part} {s₀ : State} {k : Nat} {cls : Nat} {len : Nat} {out : Output} {np : Option
    NpFor} {posted : Bool} {ro : Bool} {s : State} (h_s : Does pz s₀ s) (hp : subParts [.pcx] pz = true) : Does pz s₀
    (sendTlp k cls len out np posted ro s) := by
  unfold sendTlp
  try dsimp only
  repeat' first
    | with_reducible assumption | with_reducible apply modP_does | exact subParts_of (by decide) hp
    | with_reducible apply does_fold | simp only [does_mk] | with_reducible refine moves_intro ?_ rfl ?_
    | ((with_reducible refine only_intro ?_); intro p hc; cases p <;> first
        | exact (clash hp (by decide) hc).elim | dsimp only [Same])
    | intro _ | split | with_reducible apply does_ite | with_reducible apply does_fst (by assumption) | dsimp only

theorem issue_does {pz : List Part} {s₀ : State} {k : Nat} {what : PlaceFor} {w : PWrite} {s : State} (h_s : Does pz
    s₀ s) (hp : subParts [.mem, .memc, .pcx] pz = true) : Does pz s₀ (issue k what w s) := by
  unfold issue
  try dsimp only
  repeat' first
    | with_reducible assumption | with_reducible apply memStore_does | with_reducible apply modP_does
    | with_reducible apply sendTlp_does | exact subParts_of (by decide) hp | with_reducible apply does_fold
    | simp only [does_mk] | with_reducible refine moves_intro ?_ rfl ?_
    | ((with_reducible refine only_intro ?_); intro p hc; cases p <;> first
        | exact (clash hp (by decide) hc).elim | dsimp only [Same])
    | intro _ | split | with_reducible apply does_ite | with_reducible apply does_fst (by assumption) | dsimp only

theorem flushNow_does {pz : List Part} {s₀ : State} {k : Nat} {s : State} (h_s : Does pz s₀ s) (hp : subParts [.pcx]
    pz = true) : Does pz s₀ (flushNow k s) := by
  unfold flushNow
  try dsimp only
  repeat' first
    | with_reducible assumption | with_reducible apply modP_does | with_reducible apply sendTlp_does
    | exact subParts_of (by decide) hp | with_reducible apply does_fold | simp only [does_mk]
    | with_reducible refine moves_intro ?_ rfl ?_
    | ((with_reducible refine only_intro ?_); intro p hc; cases p <;> first
        | exact (clash hp (by decide) hc).elim | dsimp only [Same])
    | intro _ | split | with_reducible apply does_ite | with_reducible apply does_fst (by assumption) | dsimp only

theorem hold_does {pz : List Part} {s₀ : State} {f : Nat} {k : Nat} {h : Held} {s : State} (h_s : Does pz s₀ s) (hp :
    subParts [.facets, .pcx] pz = true) : Does pz s₀ (hold f k h s) := by
  unfold hold
  try dsimp only
  repeat' first
    | with_reducible assumption | with_reducible apply modF_does | with_reducible apply modP_does
    | exact subParts_of (by decide) hp | with_reducible apply does_fold | simp only [does_mk]
    | with_reducible refine moves_intro ?_ rfl ?_
    | ((with_reducible refine only_intro ?_); intro p hc; cases p <;> first
        | exact (clash hp (by decide) hc).elim | dsimp only [Same])
    | intro _ | split | with_reducible apply does_ite | with_reducible apply does_fst (by assumption) | dsimp only

theorem postOne_does {pz : List Part} {s₀ : State} {f : Nat} {what : PlaceFor} {target : Nat} {a : U64} {bs : Bytes}
    {s : State} (h_s : Does pz s₀ s) (hp : subParts [.mem, .facets, .memc, .pcx] pz = true) : Does pz s₀ (postOne f
    what target a bs s) := by
  unfold postOne
  try dsimp only
  repeat' first
    | with_reducible assumption | with_reducible apply flushNow_does | with_reducible apply hold_does
    | with_reducible apply issue_does | exact subParts_of (by decide) hp | with_reducible apply does_fold
    | simp only [does_mk] | with_reducible refine moves_intro ?_ rfl ?_
    | ((with_reducible refine only_intro ?_); intro p hc; cases p <;> first
        | exact (clash hp (by decide) hc).elim | dsimp only [Same])
    | intro _ | split | with_reducible apply does_ite | with_reducible apply does_fst (by assumption) | dsimp only

theorem postAll_does {pz : List Part} {s₀ : State} {f : Nat} {what : PlaceFor} {ws : List (Nat × U64 × Bytes)} {s :
    State} (h_s : Does pz s₀ s) (hp : subParts [.mem, .facets, .memc, .pcx] pz = true) : Does pz s₀ (postAll f what ws
    s) := by
  unfold postAll
  try dsimp only
  repeat' first
    | with_reducible assumption | with_reducible apply postOne_does | exact subParts_of (by decide) hp
    | with_reducible apply does_fold | simp only [does_mk] | with_reducible refine moves_intro ?_ rfl ?_
    | ((with_reducible refine only_intro ?_); intro p hc; cases p <;> first
        | exact (clash hp (by decide) hc).elim | dsimp only [Same])
    | intro _ | split | with_reducible apply does_ite | with_reducible apply does_fst (by assumption) | dsimp only

theorem voidWrites_does {pz : List Part} {s₀ : State} {ws : List PlaceFor} {s : State} (h_s : Does pz s₀ s) (hp :
    subParts [.facets, .pcx] pz = true) : Does pz s₀ (voidWrites ws s) := by
  unfold voidWrites
  try dsimp only
  repeat' first
    | with_reducible assumption | exact subParts_of (by decide) hp | with_reducible apply does_fold
    | simp only [does_mk] | with_reducible refine moves_intro ?_ rfl ?_
    | ((with_reducible refine only_intro ?_); intro p hc; cases p <;> first
        | exact (clash hp (by decide) hc).elim | dsimp only [Same])
    | intro _ | split | with_reducible apply does_ite | with_reducible apply does_fst (by assumption) | dsimp only

theorem readOut_does {pz : List Part} {s₀ : State} {np : Option NpFor} {f : Nat} {target : Nat} {a : U64} {len : Nat}
    {s : State} (h_s : Does pz s₀ s) (hp : subParts [.pcx] pz = true) : Does pz s₀ (readOut np f target a len s) := by
  unfold readOut
  try dsimp only
  repeat' first
    | with_reducible assumption | with_reducible apply sendTlp_does | exact subParts_of (by decide) hp
    | with_reducible apply does_fold | simp only [does_mk] | with_reducible refine moves_intro ?_ rfl ?_
    | ((with_reducible refine only_intro ?_); intro p hc; cases p <;> first
        | exact (clash hp (by decide) hc).elim | dsimp only [Same])
    | intro _ | split | with_reducible apply does_ite | with_reducible apply does_fst (by assumption) | dsimp only

theorem readsEnd_does {pz : List Part} {s₀ : State} {np : NpFor} {s : State} (h_s : Does pz s₀ s) (hp : subParts
    [.pcx] pz = true) : Does pz s₀ (readsEnd np s) := by
  unfold readsEnd
  try dsimp only
  repeat' first
    | with_reducible assumption | exact subParts_of (by decide) hp | with_reducible apply does_fold
    | simp only [does_mk] | with_reducible refine moves_intro ?_ rfl ?_
    | ((with_reducible refine only_intro ?_); intro p hc; cases p <;> first
        | exact (clash hp (by decide) hc).elim | dsimp only [Same])
    | intro _ | split | with_reducible apply does_ite | with_reducible apply does_fst (by assumption) | dsimp only

theorem msixWaits_does {pz : List Part} {s₀ : State} {f : Nat} {vec : Nat} {s : State} (h_s : Does pz s₀ s) (hp :
    subParts [.facets] pz = true) : Does pz s₀ (msixWaits f vec s) := by
  unfold msixWaits
  try dsimp only
  repeat' first
    | with_reducible assumption | with_reducible apply modF_does | exact subParts_of (by decide) hp
    | with_reducible apply does_fold | simp only [does_mk] | with_reducible refine moves_intro ?_ rfl ?_
    | ((with_reducible refine only_intro ?_); intro p hc; cases p <;> first
        | exact (clash hp (by decide) hc).elim | dsimp only [Same])
    | intro _ | split | with_reducible apply does_ite | with_reducible apply does_fst (by assumption) | dsimp only

theorem sendMsix_does {pz : List Part} {s₀ : State} {f : Nat} {vec : Nat} {s : State} (h_s : Does pz s₀ s) (hp :
    subParts [.facets, .pcx] pz = true) : Does pz s₀ (sendMsix f vec s) := by
  unfold sendMsix
  try dsimp only
  repeat' first
    | with_reducible assumption | with_reducible apply msixWaits_does | with_reducible apply sendTlp_does
    | exact subParts_of (by decide) hp | with_reducible apply does_fold | simp only [does_mk]
    | with_reducible refine moves_intro ?_ rfl ?_
    | ((with_reducible refine only_intro ?_); intro p hc; cases p <;> first
        | exact (clash hp (by decide) hc).elim | dsimp only [Same])
    | intro _ | split | with_reducible apply does_ite | with_reducible apply does_fst (by assumption) | dsimp only

theorem sendPba_does {pz : List Part} {s₀ : State} {f : Nat} {s : State} (h_s : Does pz s₀ s) (hp : subParts [.facets,
    .pcx] pz = true) : Does pz s₀ (sendPba f s) := by
  unfold sendPba
  try dsimp only
  repeat' first
    | with_reducible assumption | with_reducible apply modF_does | with_reducible apply sendMsix_does
    | exact subParts_of (by decide) hp | with_reducible apply does_fold | simp only [does_mk]
    | with_reducible refine moves_intro ?_ rfl ?_
    | ((with_reducible refine only_intro ?_); intro p hc; cases p <;> first
        | exact (clash hp (by decide) hc).elim | dsimp only [Same])
    | intro _ | split | with_reducible apply does_ite | with_reducible apply does_fst (by assumption) | dsimp only

theorem mirrorIssue_does {pz : List Part} {s₀ : State} {k : MirrorKey} {s : State} (h_s : Does pz s₀ s) (hp : subParts
    [.mirror] pz = true) : Does pz s₀ (mirrorIssue k s) := by
  unfold mirrorIssue
  try dsimp only
  repeat' first
    | with_reducible assumption | exact subParts_of (by decide) hp | with_reducible apply does_fold
    | simp only [does_mk] | with_reducible refine moves_intro ?_ rfl ?_
    | ((with_reducible refine only_intro ?_); intro p hc; cases p <;> first
        | exact (clash hp (by decide) hc).elim | dsimp only [Same])
    | intro _ | split | with_reducible apply does_ite | with_reducible apply does_fst (by assumption) | dsimp only

theorem drew_does {pz : List Part} {s₀ : State} {k : Nat} {s : State} (h_s : Does pz s₀ s) (hp : subParts [.free,
    .trust] pz = true) : Does pz s₀ (drew k s) := by
  unfold drew
  try dsimp only
  repeat' first
    | with_reducible assumption | exact subParts_of (by decide) hp | with_reducible apply does_fold
    | simp only [does_mk] | with_reducible refine moves_intro ?_ rfl ?_
    | ((with_reducible refine only_intro ?_); intro p hc; cases p <;> first
        | exact (clash hp (by decide) hc).elim | dsimp only [Same])
    | intro _ | split | with_reducible apply does_ite | with_reducible apply does_fst (by assumption) | dsimp only

theorem noteBusy_does {pz : List Part} {s₀ : State} {s : State} (h_s : Does pz s₀ s) (hp : subParts [.pwr] pz = true)
    : Does pz s₀ (noteBusy s) := by
  unfold noteBusy
  try dsimp only
  repeat' first
    | with_reducible assumption | exact subParts_of (by decide) hp | with_reducible apply does_fold
    | simp only [does_mk] | with_reducible refine moves_intro ?_ rfl ?_
    | ((with_reducible refine only_intro ?_); intro p hc; cases p <;> first
        | exact (clash hp (by decide) hc).elim | dsimp only [Same])
    | intro _ | split | with_reducible apply does_ite | with_reducible apply does_fst (by assumption) | dsimp only

theorem abandonRest_does {pz : List Part} {s₀ : State} {s : State} (h_s : Does pz s₀ s) (hp : subParts [.out, .prism,
    .fab, .pwr] pz = true) : Does pz s₀ (abandonRest s) := by
  unfold abandonRest
  try dsimp only
  repeat' first
    | with_reducible assumption | with_reducible apply emits_does | exact subParts_of (by decide) hp
    | with_reducible apply does_fold | simp only [does_mk] | with_reducible refine moves_intro ?_ rfl ?_
    | ((with_reducible refine only_intro ?_); intro p hc; cases p <;> first
        | exact (clash hp (by decide) hc).elim | dsimp only [Same])
    | intro _ | split | with_reducible apply does_ite | with_reducible apply does_fst (by assumption) | dsimp only

theorem restWake_does {pz : List Part} {s₀ : State} {s : State} (h_s : Does pz s₀ s) (hp : subParts [.out, .prism,
    .fab, .pwr] pz = true) : Does pz s₀ (restWake s) := by
  unfold restWake
  try dsimp only
  repeat' first
    | with_reducible assumption | with_reducible apply abandonRest_does | with_reducible apply noteBusy_does
    | exact subParts_of (by decide) hp | with_reducible apply does_fold | simp only [does_mk]
    | with_reducible refine moves_intro ?_ rfl ?_
    | ((with_reducible refine only_intro ?_); intro p hc; cases p <;> first
        | exact (clash hp (by decide) hc).elim | dsimp only [Same])
    | intro _ | split | with_reducible apply does_ite | with_reducible apply does_fst (by assumption) | dsimp only

end Sys2Proof.Machine
end

