-- ==== Sys2Proof/Laws/SegsFrame.lean ====
section
/-!
SUPPORT. What each operation of Machine/Segs.lean may change: one lemma per operation.
-/
set_option linter.unusedTactic false
set_option linter.unreachableTactic false
set_option linter.unusedSimpArgs false
set_option linter.unusedVariables false

namespace Sys2Proof.Machine

theorem postPin_does {pz : List Part} {s₀ : State} {f : Nat} {seg : Nat} {off : U64} {what : PlaceFor} {bs : Bytes} {s
    : State} (h_s : Does pz s₀ s) (hp : subParts [.mem, .facets, .memc, .pcx] pz = true) : Does pz s₀ (postPin f seg
    off what bs s) := by
  unfold postPin
  try dsimp only
  repeat' first
    | with_reducible assumption | with_reducible apply postOne_does | exact subParts_of (by decide) hp
    | with_reducible apply does_fold | simp only [does_mk] | with_reducible refine moves_intro ?_ rfl ?_
    | ((with_reducible refine only_intro ?_); intro p hc; cases p <;> first
        | exact (clash hp (by decide) hc).elim | dsimp only [Same])
    | intro _ | split | with_reducible apply does_ite | with_reducible apply does_fst (by assumption) | dsimp only

theorem setTile_does {pz : List Part} {s₀ : State} {f : Nat} {seg : Nat} {t : Nat} {x : Tile} {s : State} (h_s : Does
    pz s₀ s) (hp : subParts [.xlt] pz = true) : Does pz s₀ (setTile f seg t x s) := by
  unfold setTile
  try dsimp only
  repeat' first
    | with_reducible assumption | exact subParts_of (by decide) hp | with_reducible apply does_fold
    | simp only [does_mk] | with_reducible refine moves_intro ?_ rfl ?_
    | ((with_reducible refine only_intro ?_); intro p hc; cases p <;> first
        | exact (clash hp (by decide) hc).elim | dsimp only [Same])
    | intro _ | split | with_reducible apply does_ite | with_reducible apply does_fst (by assumption) | dsimp only

theorem fltSignal_does {pz : List Part} {s₀ : State} {s : State} (h_s : Does pz s₀ s) (hp : subParts [.facets, .xlt,
    .pcx] pz = true) : Does pz s₀ (fltSignal s) := by
  unfold fltSignal
  try dsimp only
  repeat' first
    | with_reducible assumption | with_reducible apply sendMsix_does | exact subParts_of (by decide) hp
    | with_reducible apply does_fold | simp only [does_mk] | with_reducible refine moves_intro ?_ rfl ?_
    | ((with_reducible refine only_intro ?_); intro p hc; cases p <;> first
        | exact (clash hp (by decide) hc).elim | dsimp only [Same])
    | intro _ | split | with_reducible apply does_ite | with_reducible apply does_fst (by assumption) | dsimp only

theorem fltWrite_does {pz : List Part} {s₀ : State} {w0 : Nat} {w1 : Nat} {w2 : Nat} {src : Nat} {s : State} (h_s :
    Does pz s₀ s) (hp : subParts [.mem, .facets, .xlt, .memc, .pcx] pz = true) : Does pz s₀ (fltWrite w0 w1 w2 src s)
    := by
  unfold fltWrite
  try dsimp only
  repeat' first
    | with_reducible assumption | with_reducible apply fltSignal_does | with_reducible apply postPin_does
    | exact subParts_of (by decide) hp | with_reducible apply does_fold | simp only [does_mk]
    | with_reducible refine moves_intro ?_ rfl ?_
    | ((with_reducible refine only_intro ?_); intro p hc; cases p <;> first
        | exact (clash hp (by decide) hc).elim | dsimp only [Same])
    | intro _ | split | with_reducible apply does_ite | with_reducible apply does_fst (by assumption) | dsimp only

theorem countTile_does {pz : List Part} {s₀ : State} {f : Nat} {seg : Nat} {t : Nat} {s : State} (h_s : Does pz s₀ s)
    (hp : subParts [.mem, .facets, .xlt, .memc, .pcx] pz = true) : Does pz s₀ (countTile f seg t s) := by
  unfold countTile
  try dsimp only
  repeat' first
    | with_reducible assumption | with_reducible apply fltWrite_does | with_reducible apply setTile_does
    | exact subParts_of (by decide) hp | with_reducible apply does_fold | simp only [does_mk]
    | with_reducible refine moves_intro ?_ rfl ?_
    | ((with_reducible refine only_intro ?_); intro p hc; cases p <;> first
        | exact (clash hp (by decide) hc).elim | dsimp only [Same])
    | intro _ | split | with_reducible apply does_ite | with_reducible apply does_fst (by assumption) | dsimp only

theorem evictTile_does {pz : List Part} {s₀ : State} {s : State} {key : Nat} (h_s : Does pz s₀ s) (hp : subParts
    [.xlt] pz = true) : Does pz s₀ (evictTile s key) := by
  unfold evictTile
  try dsimp only
  repeat' first
    | with_reducible assumption | exact subParts_of (by decide) hp | with_reducible apply does_fold
    | simp only [does_mk] | with_reducible refine moves_intro ?_ rfl ?_
    | ((with_reducible refine only_intro ?_); intro p hc; cases p <;> first
        | exact (clash hp (by decide) hc).elim | dsimp only [Same])
    | intro _ | split | with_reducible apply does_ite | with_reducible apply does_fst (by assumption) | dsimp only

theorem makeResident_does {pz : List Part} {s₀ : State} {key : Nat} {s : State} (h_s : Does pz s₀ s) (hp : subParts
    [.xlt] pz = true) : Does pz s₀ (makeResident key s) := by
  unfold makeResident
  try dsimp only
  repeat' first
    | with_reducible assumption | with_reducible apply evictTile_does | exact subParts_of (by decide) hp
    | with_reducible apply does_fold | simp only [does_mk] | with_reducible refine moves_intro ?_ rfl ?_
    | ((with_reducible refine only_intro ?_); intro p hc; cases p <;> first
        | exact (clash hp (by decide) hc).elim | dsimp only [Same])
    | intro _ | split | with_reducible apply does_ite | with_reducible apply does_fst (by assumption) | dsimp only

theorem touchTile_does {pz : List Part} {s₀ : State} {key : Nat} {s : State} (h_s : Does pz s₀ s) (hp : subParts
    [.xlt] pz = true) : Does pz s₀ (touchTile key s) := by
  unfold touchTile
  try dsimp only
  repeat' first
    | with_reducible assumption | exact subParts_of (by decide) hp | with_reducible apply does_fold
    | simp only [does_mk] | with_reducible refine moves_intro ?_ rfl ?_
    | ((with_reducible refine only_intro ?_); intro p hc; cases p <;> first
        | exact (clash hp (by decide) hc).elim | dsimp only [Same])
    | intro _ | split | with_reducible apply does_ite | with_reducible apply does_fst (by assumption) | dsimp only

theorem addMiss_does {pz : List Part} {s₀ : State} {p : Piece} {s : State} (h_s : Does pz s₀ s) (hp : subParts [.xlt]
    pz = true) : Does pz s₀ (addMiss p s) := by
  unfold addMiss
  try dsimp only
  repeat' first
    | with_reducible assumption | exact subParts_of (by decide) hp | with_reducible apply does_fold
    | simp only [does_mk] | with_reducible refine moves_intro ?_ rfl ?_
    | ((with_reducible refine only_intro ?_); intro p hc; cases p <;> first
        | exact (clash hp (by decide) hc).elim | dsimp only [Same])
    | intro _ | split | with_reducible apply does_ite | with_reducible apply does_fst (by assumption) | dsimp only

theorem dropWaits_does {pz : List Part} {s₀ : State} {st : Sys2Proof.Stream} {s : State} (h_s : Does pz s₀ s) (hp :
    subParts [.xlt] pz = true) : Does pz s₀ (dropWaits st s) := by
  unfold dropWaits
  try dsimp only
  repeat' first
    | with_reducible assumption | exact subParts_of (by decide) hp | with_reducible apply does_fold
    | simp only [does_mk] | with_reducible refine moves_intro ?_ rfl ?_
    | ((with_reducible refine only_intro ?_); intro p hc; cases p <;> first
        | exact (clash hp (by decide) hc).elim | dsimp only [Same])
    | intro _ | split | with_reducible apply does_ite | with_reducible apply does_fst (by assumption) | dsimp only

theorem dropRec_does {pz : List Part} {s₀ : State} {k : Nat} {s : State} (h_s : Does pz s₀ s) (hp : subParts [.xlt] pz
    = true) : Does pz s₀ (dropRec k s) := by
  unfold dropRec
  try dsimp only
  repeat' first
    | with_reducible assumption | exact subParts_of (by decide) hp | with_reducible apply does_fold
    | simp only [does_mk] | with_reducible refine moves_intro ?_ rfl ?_
    | ((with_reducible refine only_intro ?_); intro p hc; cases p <;> first
        | exact (clash hp (by decide) hc).elim | dsimp only [Same])
    | intro _ | split | with_reducible apply does_ite | with_reducible apply does_fst (by assumption) | dsimp only

theorem holdFaults_does {pz : List Part} {s₀ : State} {ps : List Piece} {s : State} (h_s : Does pz s₀ s) (hp :
    subParts [.xlt] pz = true) : Does pz s₀ (holdFaults ps s) := by
  unfold holdFaults
  try dsimp only
  repeat' first
    | with_reducible assumption | exact subParts_of (by decide) hp | with_reducible apply does_fold
    | simp only [does_mk] | with_reducible refine moves_intro ?_ rfl ?_
    | ((with_reducible refine only_intro ?_); intro p hc; cases p <;> first
        | exact (clash hp (by decide) hc).elim | dsimp only [Same])
    | intro _ | split | with_reducible apply does_ite | with_reducible apply does_fst (by assumption) | dsimp only

theorem raiseFaults_does {pz : List Part} {s₀ : State} {p : Piece} {ps : List Piece} {s : State} (h_s : Does pz s₀ s)
    (hp : subParts [.free, .mem, .facets, .xlt, .memc, .pcx] pz = true) : Does pz s₀ (raiseFaults p ps s) := by
  unfold raiseFaults
  try dsimp only
  repeat' first
    | with_reducible assumption | with_reducible apply fltWrite_does | with_reducible apply holdFaults_does
    | exact subParts_of (by decide) hp | with_reducible apply does_fold | simp only [does_mk]
    | with_reducible refine moves_intro ?_ rfl ?_
    | ((with_reducible refine only_intro ?_); intro p hc; cases p <;> first
        | exact (clash hp (by decide) hc).elim | dsimp only [Same])
    | intro _ | split | with_reducible apply does_ite | with_reducible apply does_fst (by assumption) | dsimp only

theorem takeFaults_does {pz : List Part} {s₀ : State} {ps : List Piece} {s : State} (h_s : Does pz s₀ s) (hp :
    subParts [.free, .mem, .facets, .xlt, .memc, .pcx] pz = true) : Does pz s₀ (takeFaults ps s) := by
  unfold takeFaults
  try dsimp only
  repeat' first
    | with_reducible assumption | with_reducible apply modF_does | with_reducible apply raiseFaults_does
    | exact subParts_of (by decide) hp | with_reducible apply does_fold | simp only [does_mk]
    | with_reducible refine moves_intro ?_ rfl ?_
    | ((with_reducible refine only_intro ?_); intro p hc; cases p <;> first
        | exact (clash hp (by decide) hc).elim | dsimp only [Same])
    | intro _ | split | with_reducible apply does_ite | with_reducible apply does_fst (by assumption) | dsimp only

theorem parkOnMig_does {pz : List Part} {s₀ : State} {p : Piece} {s : State} (h_s : Does pz s₀ s) (hp : subParts
    [.xlt] pz = true) : Does pz s₀ (parkOnMig p s) := by
  unfold parkOnMig
  try dsimp only
  repeat' first
    | with_reducible assumption | exact subParts_of (by decide) hp | with_reducible apply does_fold
    | simp only [does_mk] | with_reducible refine moves_intro ?_ rfl ?_
    | ((with_reducible refine only_intro ?_); intro p hc; cases p <;> first
        | exact (clash hp (by decide) hc).elim | dsimp only [Same])
    | intro _ | split | with_reducible apply does_ite | with_reducible apply does_fst (by assumption) | dsimp only

theorem clearBegun_does {pz : List Part} {s₀ : State} {st : Sys2Proof.Stream} {s : State} (h_s : Does pz s₀ s) (hp :
    subParts [.xlt] pz = true) : Does pz s₀ (clearBegun st s) := by
  unfold clearBegun
  try dsimp only
  repeat' first
    | with_reducible assumption | exact subParts_of (by decide) hp | with_reducible apply does_fold
    | simp only [does_mk] | with_reducible refine moves_intro ?_ rfl ?_
    | ((with_reducible refine only_intro ?_); intro p hc; cases p <;> first
        | exact (clash hp (by decide) hc).elim | dsimp only [Same])
    | intro _ | split | with_reducible apply does_ite | with_reducible apply does_fst (by assumption) | dsimp only

theorem markBegun_does {pz : List Part} {s₀ : State} {p : Piece} {s : State} (h_s : Does pz s₀ s) (hp : subParts
    [.xlt] pz = true) : Does pz s₀ (markBegun p s) := by
  unfold markBegun
  try dsimp only
  repeat' first
    | with_reducible assumption | exact subParts_of (by decide) hp | with_reducible apply does_fold
    | simp only [does_mk] | with_reducible refine moves_intro ?_ rfl ?_
    | ((with_reducible refine only_intro ?_); intro p hc; cases p <;> first
        | exact (clash hp (by decide) hc).elim | dsimp only [Same])
    | intro _ | split | with_reducible apply does_ite | with_reducible apply does_fst (by assumption) | dsimp only

theorem transPieces_does {pz : List Part} {s₀ : State} {st : Sys2Proof.Stream} {psn : U32} {f : Nat} {seg : Nat} {wr :
    Bool} {done : Nat} {x0 : List (Nat × Nat)} {x1 : Trans} {x2 : State} (h_x2 : Does pz s₀ x2) (hp : subParts [.free,
    .mem, .facets, .xlt, .memc, .pcx] pz = true) : Does pz s₀ (transPieces st psn f seg wr done x0 x1 x2).1 := by
  induction x0 generalizing x1 x2 with
  | nil =>
    unfold transPieces
    try dsimp only
    repeat' first
      | with_reducible assumption | with_reducible apply addMiss_does | with_reducible apply clearBegun_does
      | with_reducible apply countTile_does | with_reducible apply markBegun_does
      | with_reducible apply parkOnMig_does | with_reducible apply takeFaults_does
      | with_reducible apply touchTile_does | exact subParts_of (by decide) hp | with_reducible apply does_fold
      | simp only [does_mk] | with_reducible refine moves_intro ?_ rfl ?_
      | ((with_reducible refine only_intro ?_); intro p hc; cases p <;> first
          | exact (clash hp (by decide) hc).elim | dsimp only [Same])
      | intro _ | split | with_reducible apply does_ite | with_reducible apply does_fst (by assumption) | dsimp only
  | cons y r ih =>
    unfold transPieces
    try dsimp only
    repeat' first
      | with_reducible assumption | with_reducible apply ih | with_reducible apply addMiss_does
      | with_reducible apply clearBegun_does | with_reducible apply countTile_does
      | with_reducible apply markBegun_does | with_reducible apply parkOnMig_does
      | with_reducible apply takeFaults_does | with_reducible apply touchTile_does | exact subParts_of (by decide) hp
      | with_reducible apply does_fold | simp only [does_mk] | with_reducible refine moves_intro ?_ rfl ?_
      | ((with_reducible refine only_intro ?_); intro p hc; cases p <;> first
          | exact (clash hp (by decide) hc).elim | dsimp only [Same])
      | intro _ | split | with_reducible apply does_ite | with_reducible apply does_fst (by assumption) | dsimp only

theorem transRange_does {pz : List Part} {s₀ : State} {st : Sys2Proof.Stream} {psn : U32} {f : Nat} {seg : Nat} {off :
    U64} {len : Nat} {wr : Bool} {done : Nat} {t : Trans} {s : State} (h_s : Does pz s₀ s) (hp : subParts [.free,
    .mem, .facets, .xlt, .memc, .pcx] pz = true) : Does pz s₀ (transRange st psn f seg off len wr done t s).1 := by
  unfold transRange
  try dsimp only
  repeat' first
    | with_reducible assumption | with_reducible apply transPieces_does | exact subParts_of (by decide) hp
    | with_reducible apply does_fold | simp only [does_mk] | with_reducible refine moves_intro ?_ rfl ?_
    | ((with_reducible refine only_intro ?_); intro p hc; cases p <;> first
        | exact (clash hp (by decide) hc).elim | dsimp only [Same])
    | intro _ | split | with_reducible apply does_ite | with_reducible apply does_fst (by assumption) | dsimp only

theorem translate_does {pz : List Part} {s₀ : State} {st : Sys2Proof.Stream} {psn : U32} {f : Nat} {seg : Nat} {off :
    U64} {len : Nat} {wr : Bool} {s : State} (h_s : Does pz s₀ s) (hp : subParts [.free, .mem, .facets, .xlt, .memc,
    .pcx] pz = true) : Does pz s₀ (translate st psn f seg off len wr s).1 := by
  unfold translate
  try dsimp only
  repeat' first
    | with_reducible assumption | with_reducible apply transRange_does | exact subParts_of (by decide) hp
    | with_reducible apply does_fold | simp only [does_mk] | with_reducible refine moves_intro ?_ rfl ?_
    | ((with_reducible refine only_intro ?_); intro p hc; cases p <;> first
        | exact (clash hp (by decide) hc).elim | dsimp only [Same])
    | intro _ | split | with_reducible apply does_ite | with_reducible apply does_fst (by assumption) | dsimp only

theorem transAll_does {pz : List Part} {s₀ : State} {st : Sys2Proof.Stream} {f : Nat} {wr : Bool} {x0 : List ((Nat ×
    U64 × Nat) × Nat)} {x1 : Trans} {x2 : State} (h_x2 : Does pz s₀ x2) (hp : subParts [.free, .mem, .facets, .xlt,
    .memc, .pcx] pz = true) : Does pz s₀ (transAll st f wr x0 x1 x2).1 := by
  induction x0 generalizing x1 x2 with
  | nil =>
    unfold transAll
    try dsimp only
    repeat' first
      | with_reducible assumption | with_reducible apply transRange_does | exact subParts_of (by decide) hp
      | with_reducible apply does_fold | simp only [does_mk] | with_reducible refine moves_intro ?_ rfl ?_
      | ((with_reducible refine only_intro ?_); intro p hc; cases p <;> first
          | exact (clash hp (by decide) hc).elim | dsimp only [Same])
      | intro _ | split | with_reducible apply does_ite | with_reducible apply does_fst (by assumption) | dsimp only
  | cons y r ih =>
    unfold transAll
    try dsimp only
    repeat' first
      | with_reducible assumption | with_reducible apply ih | with_reducible apply transRange_does
      | exact subParts_of (by decide) hp | with_reducible apply does_fold | simp only [does_mk]
      | with_reducible refine moves_intro ?_ rfl ?_
      | ((with_reducible refine only_intro ?_); intro p hc; cases p <;> first
          | exact (clash hp (by decide) hc).elim | dsimp only [Same])
      | intro _ | split | with_reducible apply does_ite | with_reducible apply does_fst (by assumption) | dsimp only

theorem transRanges_does {pz : List Part} {s₀ : State} {st : Sys2Proof.Stream} {f : Nat} {wr : Bool} {l : List (Nat ×
    U64 × Nat)} {s : State} (h_s : Does pz s₀ s) (hp : subParts [.free, .mem, .facets, .xlt, .memc, .pcx] pz = true) :
    Does pz s₀ (transRanges st f wr l s).1 := by
  unfold transRanges
  try dsimp only
  repeat' first
    | with_reducible assumption | with_reducible apply transAll_does | exact subParts_of (by decide) hp
    | with_reducible apply does_fold | simp only [does_mk] | with_reducible refine moves_intro ?_ rfl ?_
    | ((with_reducible refine only_intro ?_); intro p hc; cases p <;> first
        | exact (clash hp (by decide) hc).elim | dsimp only [Same])
    | intro _ | split | with_reducible apply does_ite | with_reducible apply does_fst (by assumption) | dsimp only

theorem retranslate_does {pz : List Part} {s₀ : State} {ps : List Piece} {s : State} (h_s : Does pz s₀ s) (hp :
    subParts [.free, .mem, .facets, .xlt, .memc, .pcx] pz = true) : Does pz s₀ (retranslate ps s) := by
  unfold retranslate
  try dsimp only
  repeat' first
    | with_reducible assumption | with_reducible apply parkOnMig_does | with_reducible apply takeFaults_does
    | exact subParts_of (by decide) hp | with_reducible apply does_fold | simp only [does_mk]
    | with_reducible refine moves_intro ?_ rfl ?_
    | ((with_reducible refine only_intro ?_); intro p hc; cases p <;> first
        | exact (clash hp (by decide) hc).elim | dsimp only [Same])
    | intro _ | split | with_reducible apply does_ite | with_reducible apply does_fst (by assumption) | dsimp only

theorem readAll_does {pz : List Part} {s₀ : State} {np : Option NpFor} {f : Nat} {l : List (Nat × U64 × Nat)} {s :
    State} (h_s : Does pz s₀ s) (hp : subParts [.pcx] pz = true) : Does pz s₀ (readAll np f l s) := by
  unfold readAll
  try dsimp only
  repeat' first
    | with_reducible assumption | with_reducible apply readOut_does | exact subParts_of (by decide) hp
    | with_reducible apply does_fold | simp only [does_mk] | with_reducible refine moves_intro ?_ rfl ?_
    | ((with_reducible refine only_intro ?_); intro p hc; cases p <;> first
        | exact (clash hp (by decide) hc).elim | dsimp only [Same])
    | intro _ | split | with_reducible apply does_ite | with_reducible apply does_fst (by assumption) | dsimp only

theorem releaseTile_does {pz : List Part} {s₀ : State} {f : Nat} {seg : Nat} {t : Nat} {parked : List Piece} {s :
    State} (h_s : Does pz s₀ s) (hp : subParts [.free, .mem, .facets, .xlt, .memc, .pcx] pz = true) : Does pz s₀
    (releaseTile f seg t parked s) := by
  unfold releaseTile
  try dsimp only
  repeat' first
    | with_reducible assumption | with_reducible apply dropRec_does | with_reducible apply retranslate_does
    | exact subParts_of (by decide) hp | with_reducible apply does_fold | simp only [does_mk]
    | with_reducible refine moves_intro ?_ rfl ?_
    | ((with_reducible refine only_intro ?_); intro p hc; cases p <;> first
        | exact (clash hp (by decide) hc).elim | dsimp only [Same])
    | intro _ | split | with_reducible apply does_ite | with_reducible apply does_fst (by assumption) | dsimp only

end Sys2Proof.Machine
end

