-- ==== Sys2Proof/Laws/QueuesFrame.lean ====
section
/-!
SUPPORT. What each operation of Machine/Queues.lean may change: one lemma per operation.
-/
set_option linter.unusedTactic false
set_option linter.unreachableTactic false
set_option linter.unusedSimpArgs false
set_option linter.unusedVariables false

namespace Sys2Proof.Machine

theorem shrinkEval_does {pz : List Part} {s₀ : State} {f : Nat} {s : State} (h_s : Does pz s₀ s) (hp : subParts
    [.facets] pz = true) : Does pz s₀ (shrinkEval f s) := by
  unfold shrinkEval
  try dsimp only
  repeat' first
    | with_reducible assumption | with_reducible apply modF_does | exact subParts_of (by decide) hp
    | with_reducible apply does_fold | simp only [does_mk] | with_reducible refine moves_intro ?_ rfl ?_
    | ((with_reducible refine only_intro ?_); intro p hc; cases p <;> first
        | exact (clash hp (by decide) hc).elim | dsimp only [Same])
    | intro _ | split | with_reducible apply does_ite | with_reducible apply does_fst (by assumption) | dsimp only

theorem enterError_does {pz : List Part} {s₀ : State} {f : Nat} {rq : Bool} {q : Nat} {code : Nat} {idx : U32} {s :
    State} (h_s : Does pz s₀ s) (hp : subParts [.facets] pz = true) : Does pz s₀ (enterError f rq q code idx s) := by
  unfold enterError
  try dsimp only
  repeat' first
    | with_reducible assumption | with_reducible apply modQ_does | exact subParts_of (by decide) hp
    | with_reducible apply does_fold | simp only [does_mk] | with_reducible refine moves_intro ?_ rfl ?_
    | ((with_reducible refine only_intro ?_); intro p hc; cases p <;> first
        | exact (clash hp (by decide) hc).elim | dsimp only [Same])
    | intro _ | split | with_reducible apply does_ite | with_reducible apply does_fst (by assumption) | dsimp only

theorem msixCheck_does {pz : List Part} {s₀ : State} {f : Nat} {e : Nat} {s : State} (h_s : Does pz s₀ s) (hp :
    subParts [.facets, .pcx] pz = true) : Does pz s₀ (msixCheck f e s) := by
  unfold msixCheck
  try dsimp only
  repeat' first
    | with_reducible assumption | with_reducible apply modE_does | with_reducible apply sendMsix_does
    | exact subParts_of (by decide) hp | with_reducible apply does_fold | simp only [does_mk]
    | with_reducible refine moves_intro ?_ rfl ?_
    | ((with_reducible refine only_intro ?_); intro p hc; cases p <;> first
        | exact (clash hp (by decide) hc).elim | dsimp only [Same])
    | intro _ | split | with_reducible apply does_ite | with_reducible apply does_fst (by assumption) | dsimp only

theorem writeEntry_does {pz : List Part} {s₀ : State} {f : Nat} {e : Nat} {rq : Bool} {q : Nat} {err : Bool}
    {fromPending : Bool} {s : State} (h_s : Does pz s₀ s) (hp : subParts [.mem, .facets, .memc, .pcx] pz = true) :
    Does pz s₀ (writeEntry f e rq q err fromPending s) := by
  unfold writeEntry
  try dsimp only
  repeat' first
    | with_reducible assumption | with_reducible apply modE_does | with_reducible apply msixCheck_does
    | with_reducible apply postPin_does | exact subParts_of (by decide) hp | with_reducible apply does_fold
    | simp only [does_mk] | with_reducible refine moves_intro ?_ rfl ?_
    | ((with_reducible refine only_intro ?_); intro p hc; cases p <;> first
        | exact (clash hp (by decide) hc).elim | dsimp only [Same])
    | intro _ | split | with_reducible apply does_ite | with_reducible apply does_fst (by assumption) | dsimp only

theorem pendingOne_does {pz : List Part} {s₀ : State} {f : Nat} {e : Nat} {rq : Bool} {q : Nat} {s : State} (h_s :
    Does pz s₀ s) (hp : subParts [.mem, .facets, .memc, .pcx] pz = true) : Does pz s₀ (pendingOne f e rq q s) := by
  unfold pendingOne
  try dsimp only
  repeat' first
    | with_reducible assumption | with_reducible apply modQ_does | with_reducible apply writeEntry_does
    | exact subParts_of (by decide) hp | with_reducible apply does_fold | simp only [does_mk]
    | with_reducible refine moves_intro ?_ rfl ?_
    | ((with_reducible refine only_intro ?_); intro p hc; cases p <;> first
        | exact (clash hp (by decide) hc).elim | dsimp only [Same])
    | intro _ | split | with_reducible apply does_ite | with_reducible apply does_fst (by assumption) | dsimp only

theorem pendingRun_does {pz : List Part} {s₀ : State} {f : Nat} {e : Nat} {x0 : List (Bool × Nat)} {x1 : State} (h_x1
    : Does pz s₀ x1) (hp : subParts [.mem, .facets, .memc, .pcx] pz = true) : Does pz s₀ (pendingRun f e x0 x1) := by
  induction x0 generalizing x1 with
  | nil =>
    unfold pendingRun
    try dsimp only
    repeat' first
      | with_reducible assumption | with_reducible apply pendingOne_does | exact subParts_of (by decide) hp
      | with_reducible apply does_fold | simp only [does_mk] | with_reducible refine moves_intro ?_ rfl ?_
      | ((with_reducible refine only_intro ?_); intro p hc; cases p <;> first
          | exact (clash hp (by decide) hc).elim | dsimp only [Same])
      | intro _ | split | with_reducible apply does_ite | with_reducible apply does_fst (by assumption) | dsimp only
  | cons y r ih =>
    unfold pendingRun
    try dsimp only
    repeat' first
      | with_reducible assumption | with_reducible apply ih | with_reducible apply pendingOne_does
      | exact subParts_of (by decide) hp | with_reducible apply does_fold | simp only [does_mk]
      | with_reducible refine moves_intro ?_ rfl ?_
      | ((with_reducible refine only_intro ?_); intro p hc; cases p <;> first
          | exact (clash hp (by decide) hc).elim | dsimp only [Same])
      | intro _ | split | with_reducible apply does_ite | with_reducible apply does_fst (by assumption) | dsimp only

theorem pendingEntries_does {pz : List Part} {s₀ : State} {f : Nat} {e : Nat} {s : State} (h_s : Does pz s₀ s) (hp :
    subParts [.mem, .facets, .memc, .pcx] pz = true) : Does pz s₀ (pendingEntries f e s) := by
  unfold pendingEntries
  try dsimp only
  repeat' first
    | with_reducible assumption | with_reducible apply pendingRun_does | exact subParts_of (by decide) hp
    | with_reducible apply does_fold | simp only [does_mk] | with_reducible refine moves_intro ?_ rfl ?_
    | ((with_reducible refine only_intro ?_); intro p hc; cases p <;> first
        | exact (clash hp (by decide) hc).elim | dsimp only [Same])
    | intro _ | split | with_reducible apply does_ite | with_reducible apply does_fst (by assumption) | dsimp only

theorem readSlots_does {pz : List Part} {s₀ : State} {f : Nat} {rq : Bool} {q : Nat} {first : U32} {count : Nat} {s :
    State} (h_s : Does pz s₀ s) (hp : subParts [.facets, .pcx] pz = true) : Does pz s₀ (readSlots f rq q first count
    s) := by
  unfold readSlots
  try dsimp only
  repeat' first
    | with_reducible assumption | with_reducible apply modQ_does | with_reducible apply readOut_does
    | exact subParts_of (by decide) hp | with_reducible apply does_fold | simp only [does_mk]
    | with_reducible refine moves_intro ?_ rfl ?_
    | ((with_reducible refine only_intro ?_); intro p hc; cases p <;> first
        | exact (clash hp (by decide) hc).elim | dsimp only [Same])
    | intro _ | split | with_reducible apply does_ite | with_reducible apply does_fst (by assumption) | dsimp only

theorem issueFetch_does {pz : List Part} {s₀ : State} {f : Nat} {rq : Bool} {q : Nat} {first : U32} {count : Nat} {s :
    State} (h_s : Does pz s₀ s) (hp : subParts [.facets, .pcx] pz = true) : Does pz s₀ (issueFetch f rq q first count
    s) := by
  unfold issueFetch
  try dsimp only
  repeat' first
    | with_reducible assumption | with_reducible apply modQ_does | with_reducible apply readSlots_does
    | exact subParts_of (by decide) hp | with_reducible apply does_fold | simp only [does_mk]
    | with_reducible refine moves_intro ?_ rfl ?_
    | ((with_reducible refine only_intro ?_); intro p hc; cases p <;> first
        | exact (clash hp (by decide) hc).elim | dsimp only [Same])
    | intro _ | split | with_reducible apply does_ite | with_reducible apply does_fst (by assumption) | dsimp only

theorem rqFetch_does {pz : List Part} {s₀ : State} {f : Nat} {q : Nat} {s : State} (h_s : Does pz s₀ s) (hp : subParts
    [.facets, .pcx] pz = true) : Does pz s₀ (rqFetch f q s) := by
  unfold rqFetch
  try dsimp only
  repeat' first
    | with_reducible assumption | with_reducible apply issueFetch_does | exact subParts_of (by decide) hp
    | with_reducible apply does_fold | simp only [does_mk] | with_reducible refine moves_intro ?_ rfl ?_
    | ((with_reducible refine only_intro ?_); intro p hc; cases p <;> first
        | exact (clash hp (by decide) hc).elim | dsimp only [Same])
    | intro _ | split | with_reducible apply does_ite | with_reducible apply does_fst (by assumption) | dsimp only

theorem modItem_does {pz : List Part} {s₀ : State} {f : Nat} {rq : Bool} {q : Nat} {idx : U32} {g : Item → Item} {s :
    State} (h_s : Does pz s₀ s) (hp : subParts [.facets] pz = true) : Does pz s₀ (modItem f rq q idx g s) := by
  unfold modItem
  try dsimp only
  repeat' first
    | with_reducible assumption | with_reducible apply modQ_does | exact subParts_of (by decide) hp
    | with_reducible apply does_fold | simp only [does_mk] | with_reducible refine moves_intro ?_ rfl ?_
    | ((with_reducible refine only_intro ?_); intro p hc; cases p <;> first
        | exact (clash hp (by decide) hc).elim | dsimp only [Same])
    | intro _ | split | with_reducible apply does_ite | with_reducible apply does_fst (by assumption) | dsimp only

theorem countDone_does {pz : List Part} {s₀ : State} {f : Nat} {d : Desc} {st : Status} {s : State} (h_s : Does pz s₀
    s) (hp : subParts [.facets] pz = true) : Does pz s₀ (countDone f d st s) := by
  unfold countDone
  try dsimp only
  repeat' first
    | with_reducible assumption | with_reducible apply modF_does | exact subParts_of (by decide) hp
    | with_reducible apply does_fold | simp only [does_mk] | with_reducible refine moves_intro ?_ rfl ?_
    | ((with_reducible refine only_intro ?_); intro p hc; cases p <;> first
        | exact (clash hp (by decide) hc).elim | dsimp only [Same])
    | intro _ | split | with_reducible apply does_ite | with_reducible apply does_fst (by assumption) | dsimp only

theorem completeItem_does {pz : List Part} {s₀ : State} {f : Nat} {q : Nat} {idx : U32} {st : Status} {s : State} (h_s
    : Does pz s₀ s) (hp : subParts [.mem, .facets, .mirror, .memc, .pcx] pz = true) : Does pz s₀ (completeItem f q idx
    st s) := by
  unfold completeItem
  try dsimp only
  repeat' first
    | with_reducible assumption | with_reducible apply countDone_does | with_reducible apply mirrorIssue_does
    | with_reducible apply modItem_does | with_reducible apply postPin_does | exact subParts_of (by decide) hp
    | with_reducible apply does_fold | simp only [does_mk] | with_reducible refine moves_intro ?_ rfl ?_
    | ((with_reducible refine only_intro ?_); intro p hc; cases p <;> first
        | exact (clash hp (by decide) hc).elim | dsimp only [Same])
    | intro _ | split | with_reducible apply does_ite | with_reducible apply does_fst (by assumption) | dsimp only

theorem completeRecv_does {pz : List Part} {s₀ : State} {f : Nat} {q : Nat} {idx : U32} {st : Status} {r : RecvResult}
    {s : State} (h_s : Does pz s₀ s) (hp : subParts [.mem, .facets, .mirror, .memc, .pcx] pz = true) : Does pz s₀
    (completeRecv f q idx st r s) := by
  unfold completeRecv
  try dsimp only
  repeat' first
    | with_reducible assumption | with_reducible apply mirrorIssue_does | with_reducible apply modItem_does
    | with_reducible apply postPin_does | exact subParts_of (by decide) hp | with_reducible apply does_fold
    | simp only [does_mk] | with_reducible refine moves_intro ?_ rfl ?_
    | ((with_reducible refine only_intro ?_); intro p hc; cases p <;> first
        | exact (clash hp (by decide) hc).elim | dsimp only [Same])
    | intro _ | split | with_reducible apply does_ite | with_reducible apply does_fst (by assumption) | dsimp only

theorem advance_does {pz : List Part} {s₀ : State} {f : Nat} {rq : Bool} {s : State} {q : Nat} (h_s : Does pz s₀ s)
    (hp : subParts [.facets, .pcx] pz = true) : Does pz s₀ (advance f rq s q) := by
  unfold advance
  try dsimp only
  repeat' first
    | with_reducible assumption | with_reducible apply modQ_does | with_reducible apply rqFetch_does
    | exact subParts_of (by decide) hp | with_reducible apply does_fold | simp only [does_mk]
    | with_reducible refine moves_intro ?_ rfl ?_
    | ((with_reducible refine only_intro ?_); intro p hc; cases p <;> first
        | exact (clash hp (by decide) hc).elim | dsimp only [Same])
    | intro _ | split | with_reducible apply does_ite | with_reducible apply does_fst (by assumption) | dsimp only

theorem rejectStarts_does {pz : List Part} {s₀ : State} {x0 : Nat} {x1 : Nat} {x2 : Bool} {x3 : Nat} {x4 : State}
    (h_x4 : Does pz s₀ x4) (hp : subParts [.mem, .facets, .mirror, .memc, .pcx] pz = true) : Does pz s₀ (rejectStarts
    x0 x1 x2 x3 x4) := by
  induction x0 generalizing x1 x2 x3 x4 with
  | zero =>
    unfold rejectStarts
    try dsimp only
    repeat' first
      | with_reducible assumption | with_reducible apply completeItem_does | with_reducible apply completeRecv_does
      | exact subParts_of (by decide) hp | with_reducible apply does_fold | simp only [does_mk]
      | with_reducible refine moves_intro ?_ rfl ?_
      | ((with_reducible refine only_intro ?_); intro p hc; cases p <;> first
          | exact (clash hp (by decide) hc).elim | dsimp only [Same])
      | intro _ | split | with_reducible apply does_ite | with_reducible apply does_fst (by assumption) | dsimp only
  | succ k ih =>
    unfold rejectStarts
    try dsimp only
    repeat' first
      | with_reducible assumption | with_reducible apply ih | with_reducible apply completeItem_does
      | with_reducible apply completeRecv_does | exact subParts_of (by decide) hp | with_reducible apply does_fold
      | simp only [does_mk] | with_reducible refine moves_intro ?_ rfl ?_
      | ((with_reducible refine only_intro ?_); intro p hc; cases p <;> first
          | exact (clash hp (by decide) hc).elim | dsimp only [Same])
      | intro _ | split | with_reducible apply does_ite | with_reducible apply does_fst (by assumption) | dsimp only

theorem rejectAll_does {pz : List Part} {s₀ : State} {f : Nat} {rq : Bool} {s : State} {q : Nat} (h_s : Does pz s₀ s)
    (hp : subParts [.mem, .facets, .mirror, .memc, .pcx] pz = true) : Does pz s₀ (rejectAll f rq s q) := by
  unfold rejectAll
  try dsimp only
  repeat' first
    | with_reducible assumption | with_reducible apply rejectStarts_does | exact subParts_of (by decide) hp
    | with_reducible apply does_fold | simp only [does_mk] | with_reducible refine moves_intro ?_ rfl ?_
    | ((with_reducible refine only_intro ?_); intro p hc; cases p <;> first
        | exact (clash hp (by decide) hc).elim | dsimp only [Same])
    | intro _ | split | with_reducible apply does_ite | with_reducible apply does_fst (by assumption) | dsimp only

theorem settleQueues_does {pz : List Part} {s₀ : State} {f : Nat} {s : State} (h_s : Does pz s₀ s) (hp : subParts
    [.mem, .facets, .mirror, .memc, .pcx] pz = true) : Does pz s₀ (settleQueues f s) := by
  unfold settleQueues
  try dsimp only
  repeat' first
    | with_reducible assumption | with_reducible apply advance_does | with_reducible apply rejectAll_does
    | with_reducible apply shrinkEval_does | exact subParts_of (by decide) hp | with_reducible apply does_fold
    | simp only [does_mk] | with_reducible refine moves_intro ?_ rfl ?_
    | ((with_reducible refine only_intro ?_); intro p hc; cases p <;> first
        | exact (clash hp (by decide) hc).elim | dsimp only [Same])
    | intro _ | split | with_reducible apply does_ite | with_reducible apply does_fst (by assumption) | dsimp only

theorem doorbell_does {pz : List Part} {s₀ : State} {f : Nat} {rq : Bool} {q : Nat} {v : U32} {s : State} (h_s : Does
    pz s₀ s) (hp : subParts [.mem, .facets, .mirror, .memc, .pcx] pz = true) : Does pz s₀ (doorbell f rq q v s) := by
  unfold doorbell
  try dsimp only
  repeat' first
    | with_reducible assumption | with_reducible apply enterError_does | with_reducible apply modF_does
    | with_reducible apply modQ_does | with_reducible apply rqFetch_does | with_reducible apply settleQueues_does
    | exact subParts_of (by decide) hp | with_reducible apply does_fold | simp only [does_mk]
    | with_reducible refine moves_intro ?_ rfl ?_
    | ((with_reducible refine only_intro ?_); intro p hc; cases p <;> first
        | exact (clash hp (by decide) hc).elim | dsimp only [Same])
    | intro _ | split | with_reducible apply does_ite | with_reducible apply does_fst (by assumption) | dsimp only

theorem discardPush_does {pz : List Part} {s₀ : State} {f : Nat} {s : State} (h_s : Does pz s₀ s) (hp : subParts
    [.facets] pz = true) : Does pz s₀ (discardPush f s) := by
  unfold discardPush
  try dsimp only
  repeat' first
    | with_reducible assumption | with_reducible apply modF_does | exact subParts_of (by decide) hp
    | with_reducible apply does_fold | simp only [does_mk] | with_reducible refine moves_intro ?_ rfl ?_
    | ((with_reducible refine only_intro ?_); intro p hc; cases p <;> first
        | exact (clash hp (by decide) hc).elim | dsimp only [Same])
    | intro _ | split | with_reducible apply does_ite | with_reducible apply does_fst (by assumption) | dsimp only

theorem takePush_does {pz : List Part} {s₀ : State} {f : Nat} {q : Nat} {n : Nat} {descs : List Desc} {s : State} (h_s
    : Does pz s₀ s) (hp : subParts [.mem, .facets, .mirror, .memc, .pcx] pz = true) : Does pz s₀ (takePush f q n descs
    s) := by
  unfold takePush
  try dsimp only
  repeat' first
    | with_reducible assumption | with_reducible apply enterError_does | with_reducible apply modQ_does
    | with_reducible apply settleQueues_does | exact subParts_of (by decide) hp | with_reducible apply does_fold
    | simp only [does_mk] | with_reducible refine moves_intro ?_ rfl ?_
    | ((with_reducible refine only_intro ?_); intro p hc; cases p <;> first
        | exact (clash hp (by decide) hc).elim | dsimp only [Same])
    | intro _ | split | with_reducible apply does_ite | with_reducible apply does_fst (by assumption) | dsimp only

theorem windowPush_does {pz : List Part} {s₀ : State} {f : Nat} {q : Nat} {off : Nat} {len : Nat} {descs : List Desc}
    {s : State} (h_s : Does pz s₀ s) (hp : subParts [.mem, .facets, .mirror, .memc, .pcx] pz = true) : Does pz s₀
    (windowPush f q off len descs s) := by
  unfold windowPush
  try dsimp only
  repeat' first
    | with_reducible assumption | with_reducible apply discardPush_does | with_reducible apply enterError_does
    | with_reducible apply settleQueues_does | with_reducible apply takePush_does | exact subParts_of (by decide) hp
    | with_reducible apply does_fold | simp only [does_mk] | with_reducible refine moves_intro ?_ rfl ?_
    | ((with_reducible refine only_intro ?_); intro p hc; cases p <;> first
        | exact (clash hp (by decide) hc).elim | dsimp only [Same])
    | intro _ | split | with_reducible apply does_ite | with_reducible apply does_fst (by assumption) | dsimp only

theorem stick_does {pz : List Part} {s₀ : State} {w : StuckWrite} {s : State} (h_s : Does pz s₀ s) (hp : subParts
    [.pcx] pz = true) : Does pz s₀ (stick w s) := by
  unfold stick
  try dsimp only
  repeat' first
    | with_reducible assumption | exact subParts_of (by decide) hp | with_reducible apply does_fold
    | simp only [does_mk] | with_reducible refine moves_intro ?_ rfl ?_
    | ((with_reducible refine only_intro ?_); intro p hc; cases p <;> first
        | exact (clash hp (by decide) hc).elim | dsimp only [Same])
    | intro _ | split | with_reducible apply does_ite | with_reducible apply does_fst (by assumption) | dsimp only

theorem tryStuck_does {pz : List Part} {s₀ : State} {s : State} {w : StuckWrite} (h_s : Does pz s₀ s) (hp : subParts
    [.mem, .facets, .mirror, .memc, .pcx] pz = true) : Does pz s₀ (tryStuck s w) := by
  unfold tryStuck
  try dsimp only
  repeat' first
    | with_reducible assumption | with_reducible apply doorbell_does | with_reducible apply stick_does
    | with_reducible apply windowPush_does | exact subParts_of (by decide) hp | with_reducible apply does_fold
    | simp only [does_mk] | with_reducible refine moves_intro ?_ rfl ?_
    | ((with_reducible refine only_intro ?_); intro p hc; cases p <;> first
        | exact (clash hp (by decide) hc).elim | dsimp only [Same])
    | intro _ | split | with_reducible apply does_ite | with_reducible apply does_fst (by assumption) | dsimp only

theorem retryStuck_does {pz : List Part} {s₀ : State} {s : State} (h_s : Does pz s₀ s) (hp : subParts [.mem, .facets,
    .mirror, .memc, .pcx] pz = true) : Does pz s₀ (retryStuck s) := by
  unfold retryStuck
  try dsimp only
  repeat' first
    | with_reducible assumption | with_reducible apply tryStuck_does | exact subParts_of (by decide) hp
    | with_reducible apply does_fold | simp only [does_mk] | with_reducible refine moves_intro ?_ rfl ?_
    | ((with_reducible refine only_intro ?_); intro p hc; cases p <;> first
        | exact (clash hp (by decide) hc).elim | dsimp only [Same])
    | intro _ | split | with_reducible apply does_ite | with_reducible apply does_fst (by assumption) | dsimp only

theorem settle_does {pz : List Part} {s₀ : State} {f : Nat} {s : State} (h_s : Does pz s₀ s) (hp : subParts [.mem,
    .facets, .mirror, .memc, .pcx] pz = true) : Does pz s₀ (settle f s) := by
  unfold settle
  try dsimp only
  repeat' first
    | with_reducible assumption | with_reducible apply retryStuck_does | with_reducible apply settleQueues_does
    | exact subParts_of (by decide) hp | with_reducible apply does_fold | simp only [does_mk]
    | with_reducible refine moves_intro ?_ rfl ?_
    | ((with_reducible refine only_intro ?_); intro p hc; cases p <;> first
        | exact (clash hp (by decide) hc).elim | dsimp only [Same])
    | intro _ | split | with_reducible apply does_ite | with_reducible apply does_fst (by assumption) | dsimp only

theorem sqDoorbell_does {pz : List Part} {s₀ : State} {f : Nat} {q : Nat} {v : U32} {s : State} (h_s : Does pz s₀ s)
    (hp : subParts [.mem, .facets, .mirror, .memc, .pcx] pz = true) : Does pz s₀ (sqDoorbell f q v s) := by
  unfold sqDoorbell
  try dsimp only
  repeat' first
    | with_reducible assumption | with_reducible apply tryStuck_does | exact subParts_of (by decide) hp
    | with_reducible apply does_fold | simp only [does_mk] | with_reducible refine moves_intro ?_ rfl ?_
    | ((with_reducible refine only_intro ?_); intro p hc; cases p <;> first
        | exact (clash hp (by decide) hc).elim | dsimp only [Same])
    | intro _ | split | with_reducible apply does_ite | with_reducible apply does_fst (by assumption) | dsimp only

theorem pushInto_does {pz : List Part} {s₀ : State} {f : Nat} {q : Nat} {off : Nat} {len : Nat} {descs : List Desc} {s
    : State} (h_s : Does pz s₀ s) (hp : subParts [.mem, .facets, .mirror, .memc, .pcx] pz = true) : Does pz s₀
    (pushInto f q off len descs s) := by
  unfold pushInto
  try dsimp only
  repeat' first
    | with_reducible assumption | with_reducible apply sqDoorbell_does | with_reducible apply tryStuck_does
    | exact subParts_of (by decide) hp | with_reducible apply does_fold | simp only [does_mk]
    | with_reducible refine moves_intro ?_ rfl ?_
    | ((with_reducible refine only_intro ?_); intro p hc; cases p <;> first
        | exact (clash hp (by decide) hc).elim | dsimp only [Same])
    | intro _ | split | with_reducible apply does_ite | with_reducible apply does_fst (by assumption) | dsimp only

theorem startItem_does {pz : List Part} {s₀ : State} {f : Nat} {q : Nat} {idx : U32} {s : State} (h_s : Does pz s₀ s)
    (hp : subParts [.facets] pz = true) : Does pz s₀ (startItem f q idx s) := by
  unfold startItem
  try dsimp only
  repeat' first
    | with_reducible assumption | with_reducible apply modItem_does | exact subParts_of (by decide) hp
    | with_reducible apply does_fold | simp only [does_mk] | with_reducible refine moves_intro ?_ rfl ?_
    | ((with_reducible refine only_intro ?_); intro p hc; cases p <;> first
        | exact (clash hp (by decide) hc).elim | dsimp only [Same])
    | intro _ | split | with_reducible apply does_ite | with_reducible apply does_fst (by assumption) | dsimp only

theorem startWith_does {pz : List Part} {s₀ : State} {f : Nat} {q : Nat} {op : Nat} {g : Item → State → State} {s :
    State} (h_g : ∀ a0 s, Does pz s₀ s → Does pz s₀ (g a0 s)) (h_s : Does pz s₀ s) (hp : subParts [.mem, .facets,
    .mirror, .memc, .pcx] pz = true) : Does pz s₀ (startWith f q op g s) := by
  unfold startWith
  try dsimp only
  repeat' first
    | with_reducible assumption | with_reducible apply settle_does | with_reducible apply startItem_does
    | with_reducible apply h_g | exact subParts_of (by decide) hp | with_reducible apply does_fold
    | simp only [does_mk] | with_reducible refine moves_intro ?_ rfl ?_
    | ((with_reducible refine only_intro ?_); intro p hc; cases p <;> first
        | exact (clash hp (by decide) hc).elim | dsimp only [Same])
    | intro _ | split | with_reducible apply does_ite | with_reducible apply does_fst (by assumption) | dsimp only

theorem grant_does {pz : List Part} {s₀ : State} {f : Nat} {q : Nat} {s : State} (h_s : Does pz s₀ s) (hp : subParts
    [.facets, .pcx] pz = true) : Does pz s₀ (grant f q s) := by
  unfold grant
  try dsimp only
  repeat' first
    | with_reducible assumption | with_reducible apply issueFetch_does | with_reducible apply modQ_does
    | exact subParts_of (by decide) hp | with_reducible apply does_fold | simp only [does_mk]
    | with_reducible refine moves_intro ?_ rfl ?_
    | ((with_reducible refine only_intro ?_); intro p hc; cases p <;> first
        | exact (clash hp (by decide) hc).elim | dsimp only [Same])
    | intro _ | split | with_reducible apply does_ite | with_reducible apply does_fst (by assumption) | dsimp only

theorem arbitrate_does {pz : List Part} {s₀ : State} {x0 : Nat} {x1 : State} (h_x1 : Does pz s₀ x1) (hp : subParts
    [.facets, .arb, .pcx] pz = true) : Does pz s₀ (arbitrate x0 x1) := by
  induction x0 generalizing x1 with
  | zero =>
    unfold arbitrate
    try dsimp only
    repeat' first
      | with_reducible assumption | with_reducible apply grant_does | exact subParts_of (by decide) hp
      | with_reducible apply does_fold | simp only [does_mk] | with_reducible refine moves_intro ?_ rfl ?_
      | ((with_reducible refine only_intro ?_); intro p hc; cases p <;> first
          | exact (clash hp (by decide) hc).elim | dsimp only [Same])
      | intro _ | split | with_reducible apply does_ite | with_reducible apply does_fst (by assumption) | dsimp only
  | succ k ih =>
    unfold arbitrate
    try dsimp only
    repeat' first
      | with_reducible assumption | with_reducible apply ih | with_reducible apply grant_does
      | exact subParts_of (by decide) hp | with_reducible apply does_fold | simp only [does_mk]
      | with_reducible refine moves_intro ?_ rfl ?_
      | ((with_reducible refine only_intro ?_); intro p hc; cases p <;> first
          | exact (clash hp (by decide) hc).elim | dsimp only [Same])
      | intro _ | split | with_reducible apply does_ite | with_reducible apply does_fst (by assumption) | dsimp only

theorem fetchDone_does {pz : List Part} {s₀ : State} {f : Nat} {rq : Bool} {q : Nat} {slots : List Desc} {s : State}
    (h_s : Does pz s₀ s) (hp : subParts [.mem, .facets, .mirror, .memc, .pcx] pz = true) : Does pz s₀ (fetchDone f rq
    q slots s) := by
  unfold fetchDone
  try dsimp only
  repeat' first
    | with_reducible assumption | with_reducible apply enterError_does | with_reducible apply modQ_does
    | with_reducible apply rqFetch_does | with_reducible apply settle_does | exact subParts_of (by decide) hp
    | with_reducible apply does_fold | simp only [does_mk] | with_reducible refine moves_intro ?_ rfl ?_
    | ((with_reducible refine only_intro ?_); intro p hc; cases p <;> first
        | exact (clash hp (by decide) hc).elim | dsimp only [Same])
    | intro _ | split | with_reducible apply does_ite | with_reducible apply does_fst (by assumption) | dsimp only

theorem rereadSlot_does {pz : List Part} {s₀ : State} {f : Nat} {rq : Bool} {q : Nat} {s : State} (h_s : Does pz s₀ s)
    (hp : subParts [.facets, .pcx] pz = true) : Does pz s₀ (rereadSlot f rq q s) := by
  unfold rereadSlot
  try dsimp only
  repeat' first
    | with_reducible assumption | with_reducible apply modF_does | with_reducible apply modQ_does
    | with_reducible apply readSlots_does | exact subParts_of (by decide) hp | with_reducible apply does_fold
    | simp only [does_mk] | with_reducible refine moves_intro ?_ rfl ?_
    | ((with_reducible refine only_intro ?_); intro p hc; cases p <;> first
        | exact (clash hp (by decide) hc).elim | dsimp only [Same])
    | intro _ | split | with_reducible apply does_ite | with_reducible apply does_fst (by assumption) | dsimp only

theorem acceptNext_does {pz : List Part} {s₀ : State} {f : Nat} {rq : Bool} {q : Nat} {s : State} (h_s : Does pz s₀ s)
    (hp : subParts [.mem, .facets, .arb, .mirror, .memc, .pcx] pz = true) : Does pz s₀ (acceptNext f rq q s) := by
  unfold acceptNext
  try dsimp only
  repeat' first
    | with_reducible assumption | with_reducible apply modQ_does | with_reducible apply settle_does
    | exact subParts_of (by decide) hp | with_reducible apply does_fold | simp only [does_mk]
    | with_reducible refine moves_intro ?_ rfl ?_
    | ((with_reducible refine only_intro ?_); intro p hc; cases p <;> first
        | exact (clash hp (by decide) hc).elim | dsimp only [Same])
    | intro _ | split | with_reducible apply does_ite | with_reducible apply does_fst (by assumption) | dsimp only

theorem writeRecord_does {pz : List Part} {s₀ : State} {f : Nat} {rq : Bool} {q : Nat} {s : State} (h_s : Does pz s₀
    s) (hp : subParts [.mem, .facets, .memc, .pcx] pz = true) : Does pz s₀ (writeRecord f rq q s) := by
  unfold writeRecord
  try dsimp only
  repeat' first
    | with_reducible assumption | with_reducible apply hold_does | with_reducible apply modQ_does
    | with_reducible apply postPin_does | exact subParts_of (by decide) hp | with_reducible apply does_fold
    | simp only [does_mk] | with_reducible refine moves_intro ?_ rfl ?_
    | ((with_reducible refine only_intro ?_); intro p hc; cases p <;> first
        | exact (clash hp (by decide) hc).elim | dsimp only [Same])
    | intro _ | split | with_reducible apply does_ite | with_reducible apply does_fst (by assumption) | dsimp only

theorem eventEntry_does {pz : List Part} {s₀ : State} {f : Nat} {rq : Bool} {q : Nat} {s : State} (h_s : Does pz s₀ s)
    (hp : subParts [.mem, .facets, .memc, .pcx] pz = true) : Does pz s₀ (eventEntry f rq q s) := by
  unfold eventEntry
  try dsimp only
  repeat' first
    | with_reducible assumption | with_reducible apply modQ_does | with_reducible apply writeEntry_does
    | exact subParts_of (by decide) hp | with_reducible apply does_fold | simp only [does_mk]
    | with_reducible refine moves_intro ?_ rfl ?_
    | ((with_reducible refine only_intro ?_); intro p hc; cases p <;> first
        | exact (clash hp (by decide) hc).elim | dsimp only [Same])
    | intro _ | split | with_reducible apply does_ite | with_reducible apply does_fst (by assumption) | dsimp only

theorem writeCons_does {pz : List Part} {s₀ : State} {f : Nat} {e : Nat} {v : U32} {arm : Bool} {s : State} (h_s :
    Does pz s₀ s) (hp : subParts [.mem, .facets, .memc, .pcx] pz = true) : Does pz s₀ (writeCons f e v arm s) := by
  unfold writeCons
  try dsimp only
  repeat' first
    | with_reducible assumption | with_reducible apply modE_does | with_reducible apply msixCheck_does
    | with_reducible apply pendingEntries_does | exact subParts_of (by decide) hp | with_reducible apply does_fold
    | simp only [does_mk] | with_reducible refine moves_intro ?_ rfl ?_
    | ((with_reducible refine only_intro ?_); intro p hc; cases p <;> first
        | exact (clash hp (by decide) hc).elim | dsimp only [Same])
    | intro _ | split | with_reducible apply does_ite | with_reducible apply does_fst (by assumption) | dsimp only

theorem createQueue_does {pz : List Part} {s₀ : State} {f : Nat} {rq : Bool} {q : Nat} {s : State} (h_s : Does pz s₀
    s) (hp : subParts [.facets] pz = true) : Does pz s₀ (createQueue f rq q s) := by
  unfold createQueue
  try dsimp only
  repeat' first
    | with_reducible assumption | with_reducible apply modQ_does | exact subParts_of (by decide) hp
    | with_reducible apply does_fold | simp only [does_mk] | with_reducible refine moves_intro ?_ rfl ?_
    | ((with_reducible refine only_intro ?_); intro p hc; cases p <;> first
        | exact (clash hp (by decide) hc).elim | dsimp only [Same])
    | intro _ | split | with_reducible apply does_ite | with_reducible apply does_fst (by assumption) | dsimp only

theorem createRing_does {pz : List Part} {s₀ : State} {f : Nat} {e : Nat} {s : State} (h_s : Does pz s₀ s) (hp :
    subParts [.facets] pz = true) : Does pz s₀ (createRing f e s) := by
  unfold createRing
  try dsimp only
  repeat' first
    | with_reducible assumption | with_reducible apply modE_does | exact subParts_of (by decide) hp
    | with_reducible apply does_fold | simp only [does_mk] | with_reducible refine moves_intro ?_ rfl ?_
    | ((with_reducible refine only_intro ?_); intro p hc; cases p <;> first
        | exact (clash hp (by decide) hc).elim | dsimp only [Same])
    | intro _ | split | with_reducible apply does_ite | with_reducible apply does_fst (by assumption) | dsimp only

theorem destroyRing_does {pz : List Part} {s₀ : State} {f : Nat} {e : Nat} {s : State} (h_s : Does pz s₀ s) (hp :
    subParts [.facets] pz = true) : Does pz s₀ (destroyRing f e s) := by
  unfold destroyRing
  try dsimp only
  repeat' first
    | with_reducible assumption | with_reducible apply modE_does | exact subParts_of (by decide) hp
    | with_reducible apply does_fold | simp only [does_mk] | with_reducible refine moves_intro ?_ rfl ?_
    | ((with_reducible refine only_intro ?_); intro p hc; cases p <;> first
        | exact (clash hp (by decide) hc).elim | dsimp only [Same])
    | intro _ | split | with_reducible apply does_ite | with_reducible apply does_fst (by assumption) | dsimp only

theorem drainQueue_does {pz : List Part} {s₀ : State} {f : Nat} {rq : Bool} {q : Nat} {s : State} (h_s : Does pz s₀ s)
    (hp : subParts [.facets] pz = true) : Does pz s₀ (drainQueue f rq q s) := by
  unfold drainQueue
  try dsimp only
  repeat' first
    | with_reducible assumption | with_reducible apply modQ_does | exact subParts_of (by decide) hp
    | with_reducible apply does_fold | simp only [does_mk] | with_reducible refine moves_intro ?_ rfl ?_
    | ((with_reducible refine only_intro ?_); intro p hc; cases p <;> first
        | exact (clash hp (by decide) hc).elim | dsimp only [Same])
    | intro _ | split | with_reducible apply does_ite | with_reducible apply does_fst (by assumption) | dsimp only

end Sys2Proof.Machine
end

