-- ==== Sys2Proof/Laws/CollectFrame.lean ====
section
/-!
SUPPORT. What each operation of Machine/Collect.lean may change: one lemma per operation.
-/
set_option linter.unusedTactic false
set_option linter.unreachableTactic false
set_option linter.unusedSimpArgs false
set_option linter.unusedVariables false

namespace Sys2Proof.Machine

theorem recordRaw_does {pz : List Part} {s₀ : State} {src : Nat} {cls : Nat} {unit : Nat} {forced : Bool} {again :
    Bool} {info0 : U64} {info1 : Nat} {action : Nat} {facet : Option Nat} {s : State} (h_s : Does pz s₀ s) (hp :
    subParts [.agl] pz = true) : Does pz s₀ (recordRaw src cls unit forced again info0 info1 action facet s) := by
  unfold recordRaw
  try dsimp only
  repeat' first
    | with_reducible assumption | exact subParts_of (by decide) hp | with_reducible apply does_fold
    | simp only [does_mk] | with_reducible refine moves_intro ?_ rfl ?_
    | ((with_reducible refine only_intro ?_); intro p hc; cases p <;> first
        | exact (clash hp (by decide) hc).elim | dsimp only [Same])
    | intro _ | split | with_reducible apply does_ite | with_reducible apply does_fst (by assumption) | dsimp only

theorem recordEvent_does {pz : List Part} {s₀ : State} {src : Nat} {cls : Nat} {unit : Nat} {forced : Bool} {info0 :
    U64} {info1 : Nat} {action : Nat} {facet : Option Nat} {s : State} (h_s : Does pz s₀ s) (hp : subParts [.agl] pz =
    true) : Does pz s₀ (recordEvent src cls unit forced info0 info1 action facet s) := by
  unfold recordEvent
  try dsimp only
  repeat' first
    | with_reducible assumption | with_reducible apply recordRaw_does | exact subParts_of (by decide) hp
    | with_reducible apply does_fold | simp only [does_mk] | with_reducible refine moves_intro ?_ rfl ?_
    | ((with_reducible refine only_intro ?_); intro p hc; cases p <;> first
        | exact (clash hp (by decide) hc).elim | dsimp only [Same])
    | intro _ | split | with_reducible apply does_ite | with_reducible apply does_fst (by assumption) | dsimp only

theorem collect_does {pz : List Part} {s₀ : State} {src : Nat} {cls : Nat} {unit : Nat} {forced : Bool} {info0 : U64}
    {info1 : Nat} {action : Nat} {facet : Option Nat} {s : State} (h_s : Does pz s₀ s) (hp : subParts [.agl, .err] pz
    = true) : Does pz s₀ (collect src cls unit forced info0 info1 action facet s) := by
  unfold collect
  try dsimp only
  repeat' first
    | with_reducible assumption | with_reducible apply recordEvent_does | exact subParts_of (by decide) hp
    | with_reducible apply does_fold | simp only [does_mk] | with_reducible refine moves_intro ?_ rfl ?_
    | ((with_reducible refine only_intro ?_); intro p hc; cases p <;> first
        | exact (clash hp (by decide) hc).elim | dsimp only [Same])
    | intro _ | split | with_reducible apply does_ite | with_reducible apply does_fst (by assumption) | dsimp only

theorem infoEvent_does {pz : List Part} {s₀ : State} {subtype : Nat} {unit : Nat} {action : Nat} {info0 : U64} {s :
    State} (h_s : Does pz s₀ s) (hp : subParts [.agl, .err] pz = true) : Does pz s₀ (infoEvent subtype unit action
    info0 s) := by
  unfold infoEvent
  try dsimp only
  repeat' first
    | with_reducible assumption | with_reducible apply collect_does | exact subParts_of (by decide) hp
    | with_reducible apply does_fold | simp only [does_mk] | with_reducible refine moves_intro ?_ rfl ?_
    | ((with_reducible refine only_intro ?_); intro p hc; cases p <;> first
        | exact (clash hp (by decide) hc).elim | dsimp only [Same])
    | intro _ | split | with_reducible apply does_ite | with_reducible apply does_fst (by assumption) | dsimp only

theorem countWindow_does {pz : List Part} {s₀ : State} {src : Nat} {unit : Nat} {s : State} (h_s : Does pz s₀ s) (hp :
    subParts [.err] pz = true) : Does pz s₀ (countWindow src unit s) := by
  unfold countWindow
  try dsimp only
  repeat' first
    | with_reducible assumption | exact subParts_of (by decide) hp | with_reducible apply does_fold
    | simp only [does_mk] | with_reducible refine moves_intro ?_ rfl ?_
    | ((with_reducible refine only_intro ?_); intro p hc; cases p <;> first
        | exact (clash hp (by decide) hc).elim | dsimp only [Same])
    | intro _ | split | with_reducible apply does_ite | with_reducible apply does_fst (by assumption) | dsimp only

theorem noteFence_does {pz : List Part} {s₀ : State} {src : Nat} {unit : Nat} {s : State} (h_s : Does pz s₀ s) (hp :
    subParts [.agl, .err] pz = true) : Does pz s₀ (noteFence src unit s) := by
  unfold noteFence
  try dsimp only
  repeat' first
    | with_reducible assumption | with_reducible apply infoEvent_does | exact subParts_of (by decide) hp
    | with_reducible apply does_fold | simp only [does_mk] | with_reducible refine moves_intro ?_ rfl ?_
    | ((with_reducible refine only_intro ?_); intro p hc; cases p <;> first
        | exact (clash hp (by decide) hc).elim | dsimp only [Same])
    | intro _ | split | with_reducible apply does_ite | with_reducible apply does_fst (by assumption) | dsimp only

theorem faultNow_does {pz : List Part} {s₀ : State} {src : Nat} {unit : Nat} {s : State} (h_s : Does pz s₀ s) (hp :
    subParts [.err] pz = true) : Does pz s₀ (faultNow src unit s) := by
  unfold faultNow
  try dsimp only
  repeat' first
    | with_reducible assumption | exact subParts_of (by decide) hp | with_reducible apply does_fold
    | simp only [does_mk] | with_reducible refine moves_intro ?_ rfl ?_
    | ((with_reducible refine only_intro ?_); intro p hc; cases p <;> first
        | exact (clash hp (by decide) hc).elim | dsimp only [Same])
    | intro _ | split | with_reducible apply does_ite | with_reducible apply does_fst (by assumption) | dsimp only

theorem noteUnfence_does {pz : List Part} {s₀ : State} {src : Nat} {unit : Nat} {s : State} (h_s : Does pz s₀ s) (hp :
    subParts [.agl, .err] pz = true) : Does pz s₀ (noteUnfence src unit s) := by
  unfold noteUnfence
  try dsimp only
  repeat' first
    | with_reducible assumption | with_reducible apply infoEvent_does | exact subParts_of (by decide) hp
    | with_reducible apply does_fold | simp only [does_mk] | with_reducible refine moves_intro ?_ rfl ?_
    | ((with_reducible refine only_intro ?_); intro p hc; cases p <;> first
        | exact (clash hp (by decide) hc).elim | dsimp only [Same])
    | intro _ | split | with_reducible apply does_ite | with_reducible apply does_fst (by assumption) | dsimp only

theorem enterUmbra_does {pz : List Part} {s₀ : State} {src : Nat} {self : Bool} {seq : U32} {s : State} (h_s : Does pz
    s₀ s) (hp : subParts [.out, .err] pz = true) : Does pz s₀ (enterUmbra src self seq s) := by
  unfold enterUmbra
  try dsimp only
  repeat' first
    | with_reducible assumption | with_reducible apply emits_does | exact subParts_of (by decide) hp
    | with_reducible apply does_fold | simp only [does_mk] | with_reducible refine moves_intro ?_ rfl ?_
    | ((with_reducible refine only_intro ?_); intro p hc; cases p <;> first
        | exact (clash hp (by decide) hc).elim | dsimp only [Same])
    | intro _ | split | with_reducible apply does_ite | with_reducible apply does_fst (by assumption) | dsimp only

theorem fatal_does {pz : List Part} {s₀ : State} {src : Nat} {unit : Nat} {forced : Bool} {info0 : U64} {facet :
    Option Nat} {s : State} (h_s : Does pz s₀ s) (hp : subParts [.out, .agl, .err] pz = true) : Does pz s₀ (fatal src
    unit forced info0 facet s) := by
  unfold fatal
  try dsimp only
  repeat' first
    | with_reducible assumption | with_reducible apply collect_does | with_reducible apply enterUmbra_does
    | exact subParts_of (by decide) hp | with_reducible apply does_fold | simp only [does_mk]
    | with_reducible refine moves_intro ?_ rfl ?_
    | ((with_reducible refine only_intro ?_); intro p hc; cases p <;> first
        | exact (clash hp (by decide) hc).elim | dsimp only [Same])
    | intro _ | split | with_reducible apply does_ite | with_reducible apply does_fst (by assumption) | dsimp only

end Sys2Proof.Machine
end

