-- ==== Sys2Proof/Laws/EthOutFrame.lean ====
section
/-!
SUPPORT. What each operation of Machine/EthOut.lean may change: one lemma per operation.
-/
set_option linter.unusedTactic false
set_option linter.unreachableTactic false
set_option linter.unusedSimpArgs false
set_option linter.unusedVariables false

namespace Sys2Proof.Machine

theorem modEth_does {pz : List Part} {s₀ : State} {p : Nat} {g : EthPort → EthPort} {s : State} (h_s : Does pz s₀ s)
    (hp : subParts [.eth] pz = true) : Does pz s₀ (modEth p g s) := by
  unfold modEth
  try dsimp only
  repeat' first
    | with_reducible assumption | exact subParts_of (by decide) hp | with_reducible apply does_fold
    | simp only [does_mk] | with_reducible refine moves_intro ?_ rfl ?_
    | ((with_reducible refine only_intro ?_); intro p hc; cases p <;> first
        | exact (clash hp (by decide) hc).elim | dsimp only [Same])
    | intro _ | split | with_reducible apply does_ite | with_reducible apply does_fst (by assumption) | dsimp only

theorem ethEnqueue_does {pz : List Part} {s₀ : State} {q : Nat} {p : Nat} {b : Nat} {group : Nat} {rail : Nat} {rh :
    RouteHdr} {bs : Bytes} {s : State} (h_s : Does pz s₀ s) (hp : subParts [.eth] pz = true) : Does pz s₀ (ethEnqueue
    q p b group rail rh bs s) := by
  unfold ethEnqueue
  try dsimp only
  repeat' first
    | with_reducible assumption | with_reducible apply modEth_does | exact subParts_of (by decide) hp
    | with_reducible apply does_fold | simp only [does_mk] | with_reducible refine moves_intro ?_ rfl ?_
    | ((with_reducible refine only_intro ?_); intro p hc; cases p <;> first
        | exact (clash hp (by decide) hc).elim | dsimp only [Same])
    | intro _ | split | with_reducible apply does_ite | with_reducible apply does_fst (by assumption) | dsimp only

theorem sendFrame_does {pz : List Part} {s₀ : State} {p : Nat} {b : Nat} {far : FarBits} {bs : Bytes} {s : State} (h_s
    : Does pz s₀ s) (hp : subParts [.out, .eth] pz = true) : Does pz s₀ (sendFrame p b far bs s) := by
  unfold sendFrame
  try dsimp only
  repeat' first
    | with_reducible assumption | with_reducible apply emit_does | with_reducible apply modEth_does
    | exact subParts_of (by decide) hp | with_reducible apply does_fold | simp only [does_mk]
    | with_reducible refine moves_intro ?_ rfl ?_
    | ((with_reducible refine only_intro ?_); intro p hc; cases p <;> first
        | exact (clash hp (by decide) hc).elim | dsimp only [Same])
    | intro _ | split | with_reducible apply does_ite | with_reducible apply does_fst (by assumption) | dsimp only

theorem drainSub_does {pz : List Part} {s₀ : State} {x0 : Nat} {x1 : Nat} {x2 : Nat} {x3 : State} (h_x3 : Does pz s₀
    x3) (hp : subParts [.out, .eth] pz = true) : Does pz s₀ (drainSub x0 x1 x2 x3) := by
  induction x0 generalizing x1 x2 x3 with
  | zero =>
    unfold drainSub
    try dsimp only
    repeat' first
      | with_reducible assumption | with_reducible apply modEth_does | with_reducible apply sendFrame_does
      | exact subParts_of (by decide) hp | with_reducible apply does_fold | simp only [does_mk]
      | with_reducible refine moves_intro ?_ rfl ?_
      | ((with_reducible refine only_intro ?_); intro p hc; cases p <;> first
          | exact (clash hp (by decide) hc).elim | dsimp only [Same])
      | intro _ | split | with_reducible apply does_ite | with_reducible apply does_fst (by assumption) | dsimp only
  | succ k ih =>
    unfold drainSub
    try dsimp only
    repeat' first
      | with_reducible assumption | with_reducible apply ih | with_reducible apply modEth_does
      | with_reducible apply sendFrame_does | exact subParts_of (by decide) hp | with_reducible apply does_fold
      | simp only [does_mk] | with_reducible refine moves_intro ?_ rfl ?_
      | ((with_reducible refine only_intro ?_); intro p hc; cases p <;> first
          | exact (clash hp (by decide) hc).elim | dsimp only [Same])
      | intro _ | split | with_reducible apply does_ite | with_reducible apply does_fst (by assumption) | dsimp only

theorem tickSub_does {pz : List Part} {s₀ : State} {p : Nat} {s : State} {b : Nat} (h_s : Does pz s₀ s) (hp : subParts
    [.out, .eth] pz = true) : Does pz s₀ (tickSub p s b) := by
  unfold tickSub
  try dsimp only
  repeat' first
    | with_reducible assumption | with_reducible apply drainSub_does | with_reducible apply modEth_does
    | exact subParts_of (by decide) hp | with_reducible apply does_fold | simp only [does_mk]
    | with_reducible refine moves_intro ?_ rfl ?_
    | ((with_reducible refine only_intro ?_); intro p hc; cases p <;> first
        | exact (clash hp (by decide) hc).elim | dsimp only [Same])
    | intro _ | split | with_reducible apply does_ite | with_reducible apply does_fst (by assumption) | dsimp only

theorem tickEth_does {pz : List Part} {s₀ : State} {s : State} (h_s : Does pz s₀ s) (hp : subParts [.out, .eth] pz =
    true) : Does pz s₀ (tickEth s) := by
  unfold tickEth
  try dsimp only
  repeat' first
    | with_reducible assumption | with_reducible apply tickSub_does | exact subParts_of (by decide) hp
    | with_reducible apply does_fold | simp only [does_mk] | with_reducible refine moves_intro ?_ rfl ?_
    | ((with_reducible refine only_intro ?_); intro p hc; cases p <;> first
        | exact (clash hp (by decide) hc).elim | dsimp only [Same])
    | intro _ | split | with_reducible apply does_ite | with_reducible apply does_fst (by assumption) | dsimp only

end Sys2Proof.Machine
end

