-- ==== Sys2Proof/Laws/LinksFrame.lean ====
section
/-!
SUPPORT. What each operation of Machine/Links.lean may change: one lemma per operation.
-/
set_option linter.unusedTactic false
set_option linter.unreachableTactic false
set_option linter.unusedSimpArgs false
set_option linter.unusedVariables false

namespace Sys2Proof.Machine

theorem modL_does {pz : List Part} {s₀ : State} {n : Nat} {g : Link → Link} {s : State} (h_s : Does pz s₀ s) (hp :
    subParts [.fab] pz = true) : Does pz s₀ (modL n g s) := by
  unfold modL
  try dsimp only
  repeat' first
    | with_reducible assumption | exact subParts_of (by decide) hp | with_reducible apply does_fold
    | simp only [does_mk] | with_reducible refine moves_intro ?_ rfl ?_
    | ((with_reducible refine only_intro ?_); intro p hc; cases p <;> first
        | exact (clash hp (by decide) hc).elim | dsimp only [Same])
    | intro _ | split | with_reducible apply does_ite | with_reducible apply does_fst (by assumption) | dsimp only

theorem putFlit_does {pz : List Part} {s₀ : State} {n : Nat} {fcw : Fcw} {bs : Bytes} {s : State} (h_s : Does pz s₀ s)
    (hp : subParts [.out, .fab] pz = true) : Does pz s₀ (putFlit n fcw bs s) := by
  unfold putFlit
  try dsimp only
  repeat' first
    | with_reducible assumption | with_reducible apply emit_does | with_reducible apply modL_does
    | exact subParts_of (by decide) hp | with_reducible apply does_fold | simp only [does_mk]
    | with_reducible refine moves_intro ?_ rfl ?_
    | ((with_reducible refine only_intro ?_); intro p hc; cases p <;> first
        | exact (clash hp (by decide) hc).elim | dsimp only [Same])
    | intro _ | split | with_reducible apply does_ite | with_reducible apply does_fst (by assumption) | dsimp only

theorem newFlit_does {pz : List Part} {s₀ : State} {n : Nat} {v : Nat} {bs : Bytes} {first : Byte} {s : State} (h_s :
    Does pz s₀ s) (hp : subParts [.out, .fab, .pwr] pz = true) : Does pz s₀ (newFlit n v bs first s) := by
  unfold newFlit
  try dsimp only
  repeat' first
    | with_reducible assumption | with_reducible apply modL_does | with_reducible apply noteBusy_does
    | with_reducible apply putFlit_does | exact subParts_of (by decide) hp | with_reducible apply does_fold
    | simp only [does_mk] | with_reducible refine moves_intro ?_ rfl ?_
    | ((with_reducible refine only_intro ?_); intro p hc; cases p <;> first
        | exact (clash hp (by decide) hc).elim | dsimp only [Same])
    | intro _ | split | with_reducible apply does_ite | with_reducible apply does_fst (by assumption) | dsimp only

theorem sendReady_does {pz : List Part} {s₀ : State} {x0 : Nat} {x1 : Nat} {x2 : State} {x3 : Nat} (h_x2 : Does pz s₀
    x2) (hp : subParts [.out, .fab, .pwr] pz = true) : Does pz s₀ (sendReady x0 x1 x2 x3) := by
  induction x0 generalizing x1 x2 x3 with
  | zero =>
    unfold sendReady
    try dsimp only
    repeat' first
      | with_reducible assumption | with_reducible apply modL_does | with_reducible apply newFlit_does
      | exact subParts_of (by decide) hp | with_reducible apply does_fold | simp only [does_mk]
      | with_reducible refine moves_intro ?_ rfl ?_
      | ((with_reducible refine only_intro ?_); intro p hc; cases p <;> first
          | exact (clash hp (by decide) hc).elim | dsimp only [Same])
      | intro _ | split | with_reducible apply does_ite | with_reducible apply does_fst (by assumption) | dsimp only
  | succ k ih =>
    unfold sendReady
    try dsimp only
    repeat' first
      | with_reducible assumption | with_reducible apply ih | with_reducible apply modL_does
      | with_reducible apply newFlit_does | exact subParts_of (by decide) hp | with_reducible apply does_fold
      | simp only [does_mk] | with_reducible refine moves_intro ?_ rfl ?_
      | ((with_reducible refine only_intro ?_); intro p hc; cases p <;> first
          | exact (clash hp (by decide) hc).elim | dsimp only [Same])
      | intro _ | split | with_reducible apply does_ite | with_reducible apply does_fst (by assumption) | dsimp only

theorem pickRun_does {pz : List Part} {s₀ : State} {x0 : Nat} {x1 : Nat} {x2 : Option Nat} {x3 : List OutPkt} {x4 :
    State} (h_x4 : Does pz s₀ x4) (hp : subParts [.fab] pz = true) : Does pz s₀ (pickRun x0 x1 x2 x3 x4).1 := by
  induction x0 generalizing x1 x2 x3 x4 with
  | zero =>
    unfold pickRun
    try dsimp only
    repeat' first
      | with_reducible assumption | with_reducible apply modL_does | exact subParts_of (by decide) hp
      | with_reducible apply does_fold | simp only [does_mk] | with_reducible refine moves_intro ?_ rfl ?_
      | ((with_reducible refine only_intro ?_); intro p hc; cases p <;> first
          | exact (clash hp (by decide) hc).elim | dsimp only [Same])
      | intro _ | split | with_reducible apply does_ite | with_reducible apply does_fst (by assumption) | dsimp only
  | succ k ih =>
    unfold pickRun
    try dsimp only
    repeat' first
      | with_reducible assumption | with_reducible apply ih | with_reducible apply modL_does
      | exact subParts_of (by decide) hp | with_reducible apply does_fold | simp only [does_mk]
      | with_reducible refine moves_intro ?_ rfl ?_
      | ((with_reducible refine only_intro ?_); intro p hc; cases p <;> first
          | exact (clash hp (by decide) hc).elim | dsimp only [Same])
      | intro _ | split | with_reducible apply does_ite | with_reducible apply does_fst (by assumption) | dsimp only

theorem sendAllReady_does {pz : List Part} {s₀ : State} {n : Nat} {s : State} (h_s : Does pz s₀ s) (hp : subParts
    [.out, .fab, .pwr] pz = true) : Does pz s₀ (sendAllReady n s) := by
  unfold sendAllReady
  try dsimp only
  repeat' first
    | with_reducible assumption | with_reducible apply sendReady_does | exact subParts_of (by decide) hp
    | with_reducible apply does_fold | simp only [does_mk] | with_reducible refine moves_intro ?_ rfl ?_
    | ((with_reducible refine only_intro ?_); intro p hc; cases p <;> first
        | exact (clash hp (by decide) hc).elim | dsimp only [Same])
    | intro _ | split | with_reducible apply does_ite | with_reducible apply does_fst (by assumption) | dsimp only

theorem layPicked_does {pz : List Part} {s₀ : State} {n : Nat} {v : Nat} {l : List OutPkt} {s : State} (h_s : Does pz
    s₀ s) (hp : subParts [.fab] pz = true) : Does pz s₀ (layPicked n v l s) := by
  unfold layPicked
  try dsimp only
  repeat' first
    | with_reducible assumption | with_reducible apply modL_does | exact subParts_of (by decide) hp
    | with_reducible apply does_fold | simp only [does_mk] | with_reducible refine moves_intro ?_ rfl ?_
    | ((with_reducible refine only_intro ?_); intro p hc; cases p <;> first
        | exact (clash hp (by decide) hc).elim | dsimp only [Same])
    | intro _ | split | with_reducible apply does_ite | with_reducible apply does_fst (by assumption) | dsimp only

theorem layNext_does {pz : List Part} {s₀ : State} {n : Nat} {s : State} (h_s : Does pz s₀ s) (hp : subParts [.fab] pz
    = true) : Does pz s₀ (layNext n s) := by
  unfold layNext
  try dsimp only
  repeat' first
    | with_reducible assumption | with_reducible apply layPicked_does | with_reducible apply pickRun_does
    | exact subParts_of (by decide) hp | with_reducible apply does_fold | simp only [does_mk]
    | with_reducible refine moves_intro ?_ rfl ?_
    | ((with_reducible refine only_intro ?_); intro p hc; cases p <;> first
        | exact (clash hp (by decide) hc).elim | dsimp only [Same])
    | intro _ | split | with_reducible apply does_ite | with_reducible apply does_fst (by assumption) | dsimp only

theorem pumpTurn_does {pz : List Part} {s₀ : State} {n : Nat} {s : State} (h_s : Does pz s₀ s) (hp : subParts [.out,
    .fab, .pwr] pz = true) : Does pz s₀ (pumpTurn n s) := by
  unfold pumpTurn
  try dsimp only
  repeat' first
    | with_reducible assumption | with_reducible apply layNext_does | with_reducible apply sendAllReady_does
    | exact subParts_of (by decide) hp | with_reducible apply does_fold | simp only [does_mk]
    | with_reducible refine moves_intro ?_ rfl ?_
    | ((with_reducible refine only_intro ?_); intro p hc; cases p <;> first
        | exact (clash hp (by decide) hc).elim | dsimp only [Same])
    | intro _ | split | with_reducible apply does_ite | with_reducible apply does_fst (by assumption) | dsimp only

theorem pump_does {pz : List Part} {s₀ : State} {n : Nat} {s : State} (h_s : Does pz s₀ s) (hp : subParts [.out, .fab,
    .pwr] pz = true) : Does pz s₀ (pump n s) := by
  unfold pump
  try dsimp only
  repeat' first
    | with_reducible assumption | with_reducible apply pumpTurn_does | exact subParts_of (by decide) hp
    | with_reducible apply does_fold | simp only [does_mk] | with_reducible refine moves_intro ?_ rfl ?_
    | ((with_reducible refine only_intro ?_); intro p hc; cases p <;> first
        | exact (clash hp (by decide) hc).elim | dsimp only [Same])
    | intro _ | split | with_reducible apply does_ite | with_reducible apply does_fst (by assumption) | dsimp only

theorem wakeLink_does {pz : List Part} {s₀ : State} {n : Nat} {s : State} (h_s : Does pz s₀ s) (hp : subParts [.out,
    .fab] pz = true) : Does pz s₀ (wakeLink n s) := by
  unfold wakeLink
  try dsimp only
  repeat' first
    | with_reducible assumption | with_reducible apply emit_does | with_reducible apply modL_does
    | exact subParts_of (by decide) hp | with_reducible apply does_fold | simp only [does_mk]
    | with_reducible refine moves_intro ?_ rfl ?_
    | ((with_reducible refine only_intro ?_); intro p hc; cases p <;> first
        | exact (clash hp (by decide) hc).elim | dsimp only [Same])
    | intro _ | split | with_reducible apply does_ite | with_reducible apply does_fst (by assumption) | dsimp only

theorem wakeRail_does {pz : List Part} {s₀ : State} {dirn : Nat} {s : State} (h_s : Does pz s₀ s) (hp : subParts
    [.out, .fab] pz = true) : Does pz s₀ (wakeRail dirn s) := by
  unfold wakeRail
  try dsimp only
  repeat' first
    | with_reducible assumption | with_reducible apply wakeLink_does | exact subParts_of (by decide) hp
    | with_reducible apply does_fold | simp only [does_mk] | with_reducible refine moves_intro ?_ rfl ?_
    | ((with_reducible refine only_intro ?_); intro p hc; cases p <;> first
        | exact (clash hp (by decide) hc).elim | dsimp only [Same])
    | intro _ | split | with_reducible apply does_ite | with_reducible apply does_fst (by assumption) | dsimp only

theorem wakeFor_does {pz : List Part} {s₀ : State} {t : Nat} {rh : RouteHdr} {s : State} (h_s : Does pz s₀ s) (hp :
    subParts [.out, .fab] pz = true) : Does pz s₀ (wakeFor t rh s) := by
  unfold wakeFor
  try dsimp only
  repeat' first
    | with_reducible assumption | with_reducible apply wakeRail_does | exact subParts_of (by decide) hp
    | with_reducible apply does_fold | simp only [does_mk] | with_reducible refine moves_intro ?_ rfl ?_
    | ((with_reducible refine only_intro ?_); intro p hc; cases p <;> first
        | exact (clash hp (by decide) hc).elim | dsimp only [Same])
    | intro _ | split | with_reducible apply does_ite | with_reducible apply does_fst (by assumption) | dsimp only

theorem noteChunk_does {pz : List Part} {s₀ : State} {group : Nat} {n : Nat} {rh : RouteHdr} {bs : Bytes} {s : State}
    (h_s : Does pz s₀ s) (hp : subParts [.fab] pz = true) : Does pz s₀ (noteChunk group n rh bs s) := by
  unfold noteChunk
  try dsimp only
  repeat' first
    | with_reducible assumption | with_reducible apply modL_does | exact subParts_of (by decide) hp
    | with_reducible apply does_fold | simp only [does_mk] | with_reducible refine moves_intro ?_ rfl ?_
    | ((with_reducible refine only_intro ?_); intro p hc; cases p <;> first
        | exact (clash hp (by decide) hc).elim | dsimp only [Same])
    | intro _ | split | with_reducible apply does_ite | with_reducible apply does_fst (by assumption) | dsimp only

theorem enqueueOut_does {pz : List Part} {s₀ : State} {dirn : Nat} {group : Nat} {rail : Nat} {rh : RouteHdr} {bs :
    Bytes} {s : State} (h_s : Does pz s₀ s) (hp : subParts [.out, .fab, .pwr] pz = true) : Does pz s₀ (enqueueOut dirn
    group rail rh bs s) := by
  unfold enqueueOut
  try dsimp only
  repeat' first
    | with_reducible assumption | with_reducible apply modL_does | with_reducible apply noteBusy_does
    | with_reducible apply noteChunk_does | with_reducible apply pump_does | exact subParts_of (by decide) hp
    | with_reducible apply does_fold | simp only [does_mk] | with_reducible refine moves_intro ?_ rfl ?_
    | ((with_reducible refine only_intro ?_); intro p hc; cases p <;> first
        | exact (clash hp (by decide) hc).elim | dsimp only [Same])
    | intro _ | split | with_reducible apply does_ite | with_reducible apply does_fst (by assumption) | dsimp only

theorem breakDrop_does {pz : List Part} {s₀ : State} {s : State} (h_s : Does pz s₀ s) (hp : subParts [.fab] pz = true)
    : Does pz s₀ (breakDrop s) := by
  unfold breakDrop
  try dsimp only
  repeat' first
    | with_reducible assumption | exact subParts_of (by decide) hp | with_reducible apply does_fold
    | simp only [does_mk] | with_reducible refine moves_intro ?_ rfl ?_
    | ((with_reducible refine only_intro ?_); intro p hc; cases p <;> first
        | exact (clash hp (by decide) hc).elim | dsimp only [Same])
    | intro _ | split | with_reducible apply does_ite | with_reducible apply does_fst (by assumption) | dsimp only

theorem routeNotice_does {pz : List Part} {s₀ : State} {group : Nat} {rail : Nat} {m : Notice} {s : State} (h_s : Does
    pz s₀ s) (hp : subParts [.out, .fab, .pwr] pz = true) : Does pz s₀ (routeNotice group rail m s) := by
  unfold routeNotice
  try dsimp only
  repeat' first
    | with_reducible assumption | with_reducible apply breakDrop_does | with_reducible apply emit_does
    | with_reducible apply enqueueOut_does | with_reducible apply wakeFor_does | with_reducible apply wakeRail_does
    | exact subParts_of (by decide) hp | with_reducible apply does_fold | simp only [does_mk]
    | with_reducible refine moves_intro ?_ rfl ?_
    | ((with_reducible refine only_intro ?_); intro p hc; cases p <;> first
        | exact (clash hp (by decide) hc).elim | dsimp only [Same])
    | intro _ | split | with_reducible apply does_ite | with_reducible apply does_fst (by assumption) | dsimp only

theorem sendNoroute_does {pz : List Part} {s₀ : State} {target : Nat} {gw : Bool} {rh : RouteHdr} {s : State} (h_s :
    Does pz s₀ s) (hp : subParts [.out, .fab, .pwr] pz = true) : Does pz s₀ (sendNoroute target gw rh s) := by
  unfold sendNoroute
  try dsimp only
  repeat' first
    | with_reducible assumption | with_reducible apply routeNotice_does | exact subParts_of (by decide) hp
    | with_reducible apply does_fold | simp only [does_mk] | with_reducible refine moves_intro ?_ rfl ?_
    | ((with_reducible refine only_intro ?_); intro p hc; cases p <;> first
        | exact (clash hp (by decide) hc).elim | dsimp only [Same])
    | intro _ | split | with_reducible apply does_ite | with_reducible apply does_fst (by assumption) | dsimp only

theorem toEthernet_does {pz : List Part} {s₀ : State} {group : Nat} {rail : Nat} {rh : RouteHdr} {bs : Bytes} {s :
    State} (h_s : Does pz s₀ s) (hp : subParts [.out, .fab, .eth, .pwr] pz = true) : Does pz s₀ (toEthernet group rail
    rh bs s) := by
  unfold toEthernet
  try dsimp only
  repeat' first
    | with_reducible assumption | with_reducible apply ethEnqueue_does | with_reducible apply sendNoroute_does
    | exact subParts_of (by decide) hp | with_reducible apply does_fold | simp only [does_mk]
    | with_reducible refine moves_intro ?_ rfl ?_
    | ((with_reducible refine only_intro ?_); intro p hc; cases p <;> first
        | exact (clash hp (by decide) hc).elim | dsimp only [Same])
    | intro _ | split | with_reducible apply does_ite | with_reducible apply does_fst (by assumption) | dsimp only

theorem routePacket_does {pz : List Part} {s₀ : State} {group : Nat} {rail : Nat} {rh : RouteHdr} {bs : Bytes} {s :
    State} (h_s : Does pz s₀ s) (hp : subParts [.out, .fab, .eth, .pwr] pz = true) : Does pz s₀ (routePacket group
    rail rh bs s) := by
  unfold routePacket
  try dsimp only
  repeat' first
    | with_reducible assumption | with_reducible apply breakDrop_does | with_reducible apply emit_does
    | with_reducible apply enqueueOut_does | with_reducible apply sendNoroute_does
    | with_reducible apply toEthernet_does | with_reducible apply wakeFor_does | with_reducible apply wakeRail_does
    | exact subParts_of (by decide) hp | with_reducible apply does_fold | simp only [does_mk]
    | with_reducible refine moves_intro ?_ rfl ?_
    | ((with_reducible refine only_intro ?_); intro p hc; cases p <;> first
        | exact (clash hp (by decide) hc).elim | dsimp only [Same])
    | intro _ | split | with_reducible apply does_ite | with_reducible apply does_fst (by assumption) | dsimp only

theorem inject_does {pz : List Part} {s₀ : State} {p : Packet} {s : State} (h_s : Does pz s₀ s) (hp : subParts [.out,
    .fab, .eth, .pwr] pz = true) : Does pz s₀ (inject p s) := by
  unfold inject
  try dsimp only
  repeat' first
    | with_reducible assumption | with_reducible apply emit_does | with_reducible apply routePacket_does
    | exact subParts_of (by decide) hp | with_reducible apply does_fold | simp only [does_mk]
    | with_reducible refine moves_intro ?_ rfl ?_
    | ((with_reducible refine only_intro ?_); intro p hc; cases p <;> first
        | exact (clash hp (by decide) hc).elim | dsimp only [Same])
    | intro _ | split | with_reducible apply does_ite | with_reducible apply does_fst (by assumption) | dsimp only

theorem sendRing_does {pz : List Part} {s₀ : State} {dirn : Nat} {group : Nat} {rail : Nat} {m : Notice} {hops : Nat}
    {s : State} (h_s : Does pz s₀ s) (hp : subParts [.out, .fab, .pwr] pz = true) : Does pz s₀ (sendRing dirn group
    rail m hops s) := by
  unfold sendRing
  try dsimp only
  repeat' first
    | with_reducible assumption | with_reducible apply enqueueOut_does | exact subParts_of (by decide) hp
    | with_reducible apply does_fold | simp only [does_mk] | with_reducible refine moves_intro ?_ rfl ?_
    | ((with_reducible refine only_intro ?_); intro p hc; cases p <;> first
        | exact (clash hp (by decide) hc).elim | dsimp only [Same])
    | intro _ | split | with_reducible apply does_ite | with_reducible apply does_fst (by assumption) | dsimp only

theorem originate_does {pz : List Part} {s₀ : State} {s : State} {d : Nat} (h_s : Does pz s₀ s) (hp : subParts [.out,
    .fab, .pwr] pz = true) : Does pz s₀ (originate s d) := by
  unfold originate
  try dsimp only
  repeat' first
    | with_reducible assumption | with_reducible apply sendRing_does | exact subParts_of (by decide) hp
    | with_reducible apply does_fold | simp only [does_mk] | with_reducible refine moves_intro ?_ rfl ?_
    | ((with_reducible refine only_intro ?_); intro p hc; cases p <;> first
        | exact (clash hp (by decide) hc).elim | dsimp only [Same])
    | intro _ | split | with_reducible apply does_ite | with_reducible apply does_fst (by assumption) | dsimp only

theorem tellHops_does {pz : List Part} {s₀ : State} {n : Nat} {s : State} (h_s : Does pz s₀ s) (hp : subParts [.out,
    .fab, .pwr] pz = true) : Does pz s₀ (tellHops n s) := by
  unfold tellHops
  try dsimp only
  repeat' first
    | with_reducible assumption | with_reducible apply originate_does | exact subParts_of (by decide) hp
    | with_reducible apply does_fold | simp only [does_mk] | with_reducible refine moves_intro ?_ rfl ?_
    | ((with_reducible refine only_intro ?_); intro p hc; cases p <;> first
        | exact (clash hp (by decide) hc).elim | dsimp only [Same])
    | intro _ | split | with_reducible apply does_ite | with_reducible apply does_fst (by assumption) | dsimp only

theorem requeue_does {pz : List Part} {s₀ : State} {dirn : Nat} {s : State} {p : OutPkt} (h_s : Does pz s₀ s) (hp :
    subParts [.out, .fab, .pwr] pz = true) : Does pz s₀ (requeue dirn s p) := by
  unfold requeue
  try dsimp only
  repeat' first
    | with_reducible assumption | with_reducible apply breakDrop_does | with_reducible apply enqueueOut_does
    | with_reducible apply wakeRail_does | exact subParts_of (by decide) hp | with_reducible apply does_fold
    | simp only [does_mk] | with_reducible refine moves_intro ?_ rfl ?_
    | ((with_reducible refine only_intro ?_); intro p hc; cases p <;> first
        | exact (clash hp (by decide) hc).elim | dsimp only [Same])
    | intro _ | split | with_reducible apply does_ite | with_reducible apply does_fst (by assumption) | dsimp only

theorem linkQuit_does {pz : List Part} {s₀ : State} {n : Nat} {dst : LState} {s : State} (h_s : Does pz s₀ s) (hp :
    subParts [.out, .fab, .pwr] pz = true) : Does pz s₀ (linkQuit n dst s) := by
  unfold linkQuit
  try dsimp only
  repeat' first
    | with_reducible assumption | with_reducible apply modL_does | with_reducible apply requeue_does
    | with_reducible apply tellHops_does | exact subParts_of (by decide) hp | with_reducible apply does_fold
    | simp only [does_mk] | with_reducible refine moves_intro ?_ rfl ?_
    | ((with_reducible refine only_intro ?_); intro p hc; cases p <;> first
        | exact (clash hp (by decide) hc).elim | dsimp only [Same])
    | intro _ | split | with_reducible apply does_ite | with_reducible apply does_fst (by assumption) | dsimp only

theorem linkLeave_does {pz : List Part} {s₀ : State} {n : Nat} {dst : LState} {s : State} (h_s : Does pz s₀ s) (hp :
    subParts [.out, .grp, .fab, .pwr] pz = true) : Does pz s₀ (linkLeave n dst s) := by
  unfold linkLeave
  try dsimp only
  repeat' first
    | with_reducible assumption | with_reducible apply linkQuit_does | exact subParts_of (by decide) hp
    | with_reducible apply does_fold | simp only [does_mk] | with_reducible refine moves_intro ?_ rfl ?_
    | ((with_reducible refine only_intro ?_); intro p hc; cases p <;> first
        | exact (clash hp (by decide) hc).elim | dsimp only [Same])
    | intro _ | split | with_reducible apply does_ite | with_reducible apply does_fst (by assumption) | dsimp only

theorem linkTo_does {pz : List Part} {s₀ : State} {n : Nat} {dst : LState} {s : State} (h_s : Does pz s₀ s) (hp :
    subParts [.fab] pz = true) : Does pz s₀ (linkTo n dst s) := by
  unfold linkTo
  try dsimp only
  repeat' first
    | with_reducible assumption | with_reducible apply modL_does | exact subParts_of (by decide) hp
    | with_reducible apply does_fold | simp only [does_mk] | with_reducible refine moves_intro ?_ rfl ?_
    | ((with_reducible refine only_intro ?_); intro p hc; cases p <;> first
        | exact (clash hp (by decide) hc).elim | dsimp only [Same])
    | intro _ | split | with_reducible apply does_ite | with_reducible apply does_fst (by assumption) | dsimp only

theorem linkDetect_does {pz : List Part} {s₀ : State} {n : Nat} {s : State} (h_s : Does pz s₀ s) (hp : subParts [.out,
    .grp, .fab, .pwr] pz = true) : Does pz s₀ (linkDetect n s) := by
  unfold linkDetect
  try dsimp only
  repeat' first
    | with_reducible assumption | with_reducible apply linkLeave_does | exact subParts_of (by decide) hp
    | with_reducible apply does_fold | simp only [does_mk] | with_reducible refine moves_intro ?_ rfl ?_
    | ((with_reducible refine only_intro ?_); intro p hc; cases p <;> first
        | exact (clash hp (by decide) hc).elim | dsimp only [Same])
    | intro _ | split | with_reducible apply does_ite | with_reducible apply does_fst (by assumption) | dsimp only

theorem fenceLink_does {pz : List Part} {s₀ : State} {n : Nat} {s : State} (h_s : Does pz s₀ s) (hp : subParts [.out,
    .grp, .fab, .agl, .err, .pwr] pz = true) : Does pz s₀ (fenceLink n s) := by
  unfold fenceLink
  try dsimp only
  repeat' first
    | with_reducible assumption | with_reducible apply linkLeave_does | with_reducible apply noteFence_does
    | exact subParts_of (by decide) hp | with_reducible apply does_fold | simp only [does_mk]
    | with_reducible refine moves_intro ?_ rfl ?_
    | ((with_reducible refine only_intro ?_); intro p hc; cases p <;> first
        | exact (clash hp (by decide) hc).elim | dsimp only [Same])
    | intro _ | split | with_reducible apply does_ite | with_reducible apply does_fst (by assumption) | dsimp only

theorem faultFenceLink_does {pz : List Part} {s₀ : State} {n : Nat} {forced : Bool} {s : State} (h_s : Does pz s₀ s)
    (hp : subParts [.out, .grp, .fab, .agl, .err, .pwr] pz = true) : Does pz s₀ (faultFenceLink n forced s) := by
  unfold faultFenceLink
  try dsimp only
  repeat' first
    | with_reducible assumption | with_reducible apply collect_does | with_reducible apply faultNow_does
    | with_reducible apply fenceLink_does | exact subParts_of (by decide) hp | with_reducible apply does_fold
    | simp only [does_mk] | with_reducible refine moves_intro ?_ rfl ?_
    | ((with_reducible refine only_intro ?_); intro p hc; cases p <;> first
        | exact (clash hp (by decide) hc).elim | dsimp only [Same])
    | intro _ | split | with_reducible apply does_ite | with_reducible apply does_fst (by assumption) | dsimp only

theorem svlDownEvent_does {pz : List Part} {s₀ : State} {n : Nat} {forced : Bool} {s : State} (h_s : Does pz s₀ s) (hp
    : subParts [.out, .grp, .fab, .agl, .err, .pwr] pz = true) : Does pz s₀ (svlDownEvent n forced s) := by
  unfold svlDownEvent
  try dsimp only
  repeat' first
    | with_reducible assumption | with_reducible apply collect_does | with_reducible apply countWindow_does
    | with_reducible apply faultFenceLink_does | exact subParts_of (by decide) hp | with_reducible apply does_fold
    | simp only [does_mk] | with_reducible refine moves_intro ?_ rfl ?_
    | ((with_reducible refine only_intro ?_); intro p hc; cases p <;> first
        | exact (clash hp (by decide) hc).elim | dsimp only [Same])
    | intro _ | split | with_reducible apply does_ite | with_reducible apply does_fst (by assumption) | dsimp only

theorem linkDownBy_does {pz : List Part} {s₀ : State} {n : Nat} {forced : Bool} {s : State} (h_s : Does pz s₀ s) (hp :
    subParts [.out, .grp, .fab, .agl, .err, .pwr] pz = true) : Does pz s₀ (linkDownBy n forced s) := by
  unfold linkDownBy
  try dsimp only
  repeat' first
    | with_reducible assumption | with_reducible apply linkLeave_does | with_reducible apply modL_does
    | with_reducible apply svlDownEvent_does | exact subParts_of (by decide) hp | with_reducible apply does_fold
    | simp only [does_mk] | with_reducible refine moves_intro ?_ rfl ?_
    | ((with_reducible refine only_intro ?_); intro p hc; cases p <;> first
        | exact (clash hp (by decide) hc).elim | dsimp only [Same])
    | intro _ | split | with_reducible apply does_ite | with_reducible apply does_fst (by assumption) | dsimp only

theorem linkDown_does {pz : List Part} {s₀ : State} {n : Nat} {s : State} (h_s : Does pz s₀ s) (hp : subParts [.out,
    .grp, .fab, .agl, .err, .pwr] pz = true) : Does pz s₀ (linkDown n s) := by
  unfold linkDown
  try dsimp only
  repeat' first
    | with_reducible assumption | with_reducible apply linkDownBy_does | exact subParts_of (by decide) hp
    | with_reducible apply does_fold | simp only [does_mk] | with_reducible refine moves_intro ?_ rfl ?_
    | ((with_reducible refine only_intro ?_); intro p hc; cases p <;> first
        | exact (clash hp (by decide) hc).elim | dsimp only [Same])
    | intro _ | split | with_reducible apply does_ite | with_reducible apply does_fst (by assumption) | dsimp only

end Sys2Proof.Machine
end

