-- ==== Sys2Proof/Laws/RatesFrame.lean ====
section
/-!
SUPPORT. What each operation of Machine/Rates.lean may change: one lemma per operation.
-/
set_option linter.unusedTactic false
set_option linter.unreachableTactic false
set_option linter.unusedSimpArgs false
set_option linter.unusedVariables false

namespace Sys2Proof.Machine

theorem congest_does {pz : List Part} {s₀ : State} {n : Nat} {s : State} (h_s : Does pz s₀ s) (hp : subParts [.facets,
    .qps] pz = true) : Does pz s₀ (congest n s) := by
  unfold congest
  try dsimp only
  repeat' first
    | with_reducible assumption | with_reducible apply modF_does | with_reducible apply modQp_does
    | exact subParts_of (by decide) hp | with_reducible apply does_fold | simp only [does_mk]
    | with_reducible refine moves_intro ?_ rfl ?_
    | ((with_reducible refine only_intro ?_); intro p hc; cases p <;> first
        | exact (clash hp (by decide) hc).elim | dsimp only [Same])
    | intro _ | split | with_reducible apply does_ite | with_reducible apply does_fst (by assumption) | dsimp only

theorem facetCharge_does {pz : List Part} {s₀ : State} {f : Nat} {len : Nat} {s : State} (h_s : Does pz s₀ s) (hp :
    subParts [.facets] pz = true) : Does pz s₀ (facetCharge f len s) := by
  unfold facetCharge
  try dsimp only
  repeat' first
    | with_reducible assumption | with_reducible apply modF_does | exact subParts_of (by decide) hp
    | with_reducible apply does_fold | simp only [does_mk] | with_reducible refine moves_intro ?_ rfl ?_
    | ((with_reducible refine only_intro ?_); intro p hc; cases p <;> first
        | exact (clash hp (by decide) hc).elim | dsimp only [Same])
    | intro _ | split | with_reducible apply does_ite | with_reducible apply does_fst (by assumption) | dsimp only

end Sys2Proof.Machine
end

