-- ==== Sys2Proof/Laws/CipCoreFrame.lean ====
section
/-!
SUPPORT. What each operation of Machine/CipCore.lean may change: one lemma per operation.
-/
set_option linter.unusedTactic false
set_option linter.unreachableTactic false
set_option linter.unusedSimpArgs false
set_option linter.unusedVariables false

namespace Sys2Proof.Machine

theorem readPiece_does {pz : List Part} {s₀ : State} {f : Nat} {s : State} (h_s : Does pz s₀ s) (hp : subParts [.pcx]
    pz = true) : Does pz s₀ (readPiece f s) := by
  unfold readPiece
  try dsimp only
  repeat' first
    | with_reducible assumption | with_reducible apply readOut_does | exact subParts_of (by decide) hp
    | with_reducible apply does_fold | simp only [does_mk] | with_reducible refine moves_intro ?_ rfl ?_
    | ((with_reducible refine only_intro ?_); intro p hc; cases p <;> first
        | exact (clash hp (by decide) hc).elim | dsimp only [Same])
    | intro _ | split | with_reducible apply does_ite | with_reducible apply does_fst (by assumption) | dsimp only

theorem beginJob_does {pz : List Part} {s₀ : State} {c : Nat} {j : Job} {s : State} (h_s : Does pz s₀ s) (hp :
    subParts [.pcx, .cip] pz = true) : Does pz s₀ (beginJob c j s) := by
  unfold beginJob
  try dsimp only
  repeat' first
    | with_reducible assumption | with_reducible apply readPiece_does | exact subParts_of (by decide) hp
    | with_reducible apply does_fold | simp only [does_mk] | with_reducible refine moves_intro ?_ rfl ?_
    | ((with_reducible refine only_intro ?_); intro p hc; cases p <;> first
        | exact (clash hp (by decide) hc).elim | dsimp only [Same])
    | intro _ | split | with_reducible apply does_ite | with_reducible apply does_fst (by assumption) | dsimp only

theorem takeJob_does {pz : List Part} {s₀ : State} {c : Nat} {s : State} (h_s : Does pz s₀ s) (hp : subParts [.pcx,
    .cip] pz = true) : Does pz s₀ (takeJob c s) := by
  unfold takeJob
  try dsimp only
  repeat' first
    | with_reducible assumption | with_reducible apply beginJob_does | exact subParts_of (by decide) hp
    | with_reducible apply does_fold | simp only [does_mk] | with_reducible refine moves_intro ?_ rfl ?_
    | ((with_reducible refine only_intro ?_); intro p hc; cases p <;> first
        | exact (clash hp (by decide) hc).elim | dsimp only [Same])
    | intro _ | split | with_reducible apply does_ite | with_reducible apply does_fst (by assumption) | dsimp only

theorem fillCores_does {pz : List Part} {s₀ : State} {l : List Nat} {s : State} (h_s : Does pz s₀ s) (hp : subParts
    [.pcx, .cip] pz = true) : Does pz s₀ (fillCores l s) := by
  unfold fillCores
  try dsimp only
  repeat' first
    | with_reducible assumption | with_reducible apply takeJob_does | exact subParts_of (by decide) hp
    | with_reducible apply does_fold | simp only [does_mk] | with_reducible refine moves_intro ?_ rfl ?_
    | ((with_reducible refine only_intro ?_); intro p hc; cases p <;> first
        | exact (clash hp (by decide) hc).elim | dsimp only [Same])
    | intro _ | split | with_reducible apply does_ite | with_reducible apply does_fst (by assumption) | dsimp only

theorem suspendOne_does {pz : List Part} {s₀ : State} {s : State} (h_s : Does pz s₀ s) (hp : subParts [.pcx, .cip] pz
    = true) : Does pz s₀ (suspendOne s) := by
  unfold suspendOne
  try dsimp only
  repeat' first
    | with_reducible assumption | with_reducible apply takeJob_does | exact subParts_of (by decide) hp
    | with_reducible apply does_fold | simp only [does_mk] | with_reducible refine moves_intro ?_ rfl ?_
    | ((with_reducible refine only_intro ?_); intro p hc; cases p <;> first
        | exact (clash hp (by decide) hc).elim | dsimp only [Same])
    | intro _ | split | with_reducible apply does_ite | with_reducible apply does_fst (by assumption) | dsimp only

theorem schedule_does {pz : List Part} {s₀ : State} {s : State} (h_s : Does pz s₀ s) (hp : subParts [.pcx, .cip] pz =
    true) : Does pz s₀ (schedule s) := by
  unfold schedule
  try dsimp only
  repeat' first
    | with_reducible assumption | with_reducible apply fillCores_does | with_reducible apply suspendOne_does
    | exact subParts_of (by decide) hp | with_reducible apply does_fold | simp only [does_mk]
    | with_reducible refine moves_intro ?_ rfl ?_
    | ((with_reducible refine only_intro ?_); intro p hc; cases p <;> first
        | exact (clash hp (by decide) hc).elim | dsimp only [Same])
    | intro _ | split | with_reducible apply does_ite | with_reducible apply does_fst (by assumption) | dsimp only

theorem toEngine_does {pz : List Part} {s₀ : State} {n : Nat} {tx : Bool} {p : Packet} {s : State} (h_s : Does pz s₀
    s) (hp : subParts [.pcx, .cip] pz = true) : Does pz s₀ (toEngine n tx p s) := by
  unfold toEngine
  try dsimp only
  repeat' first
    | with_reducible assumption | with_reducible apply schedule_does | exact subParts_of (by decide) hp
    | with_reducible apply does_fold | simp only [does_mk] | with_reducible refine moves_intro ?_ rfl ?_
    | ((with_reducible refine only_intro ?_); intro p hc; cases p <;> first
        | exact (clash hp (by decide) hc).elim | dsimp only [Same])
    | intro _ | split | with_reducible apply does_ite | with_reducible apply does_fst (by assumption) | dsimp only

theorem cipDrain_does {pz : List Part} {s₀ : State} {x0 : Nat} {x1 : Nat} {x2 : State} (h_x2 : Does pz s₀ x2) (hp :
    subParts [.qps, .mirror, .pcx, .cip] pz = true) : Does pz s₀ (cipDrain x0 x1 x2) := by
  induction x0 generalizing x1 x2 with
  | zero =>
    unfold cipDrain
    try dsimp only
    repeat' first
      | with_reducible assumption | with_reducible apply mirrorIssue_does | with_reducible apply modQp_does
      | with_reducible apply toEngine_does | exact subParts_of (by decide) hp | with_reducible apply does_fold
      | simp only [does_mk] | with_reducible refine moves_intro ?_ rfl ?_
      | ((with_reducible refine only_intro ?_); intro p hc; cases p <;> first
          | exact (clash hp (by decide) hc).elim | dsimp only [Same])
      | intro _ | split | with_reducible apply does_ite | with_reducible apply does_fst (by assumption) | dsimp only
  | succ k ih =>
    unfold cipDrain
    try dsimp only
    repeat' first
      | with_reducible assumption | with_reducible apply ih | with_reducible apply mirrorIssue_does
      | with_reducible apply modQp_does | with_reducible apply toEngine_does | exact subParts_of (by decide) hp
      | with_reducible apply does_fold | simp only [does_mk] | with_reducible refine moves_intro ?_ rfl ?_
      | ((with_reducible refine only_intro ?_); intro p hc; cases p <;> first
          | exact (clash hp (by decide) hc).elim | dsimp only [Same])
      | intro _ | split | with_reducible apply does_ite | with_reducible apply does_fst (by assumption) | dsimp only

theorem cipGo_does {pz : List Part} {s₀ : State} {n : Nat} {s : State} (h_s : Does pz s₀ s) (hp : subParts [.qps,
    .mirror, .pcx, .cip] pz = true) : Does pz s₀ (cipGo n s) := by
  unfold cipGo
  try dsimp only
  repeat' first
    | with_reducible assumption | with_reducible apply cipDrain_does | exact subParts_of (by decide) hp
    | with_reducible apply does_fold | simp only [does_mk] | with_reducible refine moves_intro ?_ rfl ?_
    | ((with_reducible refine only_intro ?_); intro p hc; cases p <;> first
        | exact (clash hp (by decide) hc).elim | dsimp only [Same])
    | intro _ | split | with_reducible apply does_ite | with_reducible apply does_fst (by assumption) | dsimp only

theorem sendQp_does {pz : List Part} {s₀ : State} {n : Nat} {p : Packet} {s : State} (h_s : Does pz s₀ s) (hp :
    subParts [.out, .qps, .mirror, .fab, .pcx, .cip, .eth, .pwr] pz = true) : Does pz s₀ (sendQp n p s) := by
  unfold sendQp
  try dsimp only
  repeat' first
    | with_reducible assumption | with_reducible apply cipGo_does | with_reducible apply inject_does
    | with_reducible apply modQp_does | exact subParts_of (by decide) hp | with_reducible apply does_fold
    | simp only [does_mk] | with_reducible refine moves_intro ?_ rfl ?_
    | ((with_reducible refine only_intro ?_); intro p hc; cases p <;> first
        | exact (clash hp (by decide) hc).elim | dsimp only [Same])
    | intro _ | split | with_reducible apply does_ite | with_reducible apply does_fst (by assumption) | dsimp only

end Sys2Proof.Machine
end

