-- ==== Sys2Proof/Laws/ZrtCoreFrame.lean ====
section
/-!
SUPPORT. What each operation of Machine/ZrtCore.lean may change: one lemma per operation.
-/
set_option linter.unusedTactic false
set_option linter.unreachableTactic false
set_option linter.unusedSimpArgs false
set_option linter.unusedVariables false

namespace Sys2Proof.Machine

theorem modMir_does {pz : List Part} {s₀ : State} {n : Nat} {g : QpMirror → QpMirror} {s : State} (h_s : Does pz s₀ s)
    (hp : subParts [.mirror] pz = true) : Does pz s₀ (modMir n g s) := by
  unfold modMir
  try dsimp only
  repeat' first
    | with_reducible assumption | exact subParts_of (by decide) hp | with_reducible apply does_fold
    | simp only [does_mk] | with_reducible refine moves_intro ?_ rfl ?_
    | ((with_reducible refine only_intro ?_); intro p hc; cases p <;> first
        | exact (clash hp (by decide) hc).elim | dsimp only [Same])
    | intro _ | split | with_reducible apply does_ite | with_reducible apply does_fst (by assumption) | dsimp only

theorem makeCtx_does {pz : List Part} {s₀ : State} {n : Nat} {s : State} (h_s : Does pz s₀ s) (hp : subParts [.zrt] pz
    = true) : Does pz s₀ (makeCtx n s) := by
  unfold makeCtx
  try dsimp only
  repeat' first
    | with_reducible assumption | exact subParts_of (by decide) hp | with_reducible apply does_fold
    | simp only [does_mk] | with_reducible refine moves_intro ?_ rfl ?_
    | ((with_reducible refine only_intro ?_); intro p hc; cases p <;> first
        | exact (clash hp (by decide) hc).elim | dsimp only [Same])
    | intro _ | split | with_reducible apply does_ite | with_reducible apply does_fst (by assumption) | dsimp only

theorem endQpc_does {pz : List Part} {s₀ : State} {f : Nat} {n : Nat} {code : Nat} {s : State} (h_s : Does pz s₀ s)
    (hp : subParts [.facets] pz = true) : Does pz s₀ (endQpc f n code s) := by
  unfold endQpc
  try dsimp only
  repeat' first
    | with_reducible assumption | with_reducible apply modF_does | exact subParts_of (by decide) hp
    | with_reducible apply does_fold | simp only [does_mk] | with_reducible refine moves_intro ?_ rfl ?_
    | ((with_reducible refine only_intro ?_); intro p hc; cases p <;> first
        | exact (clash hp (by decide) hc).elim | dsimp only [Same])
    | intro _ | split | with_reducible apply does_ite | with_reducible apply does_fst (by assumption) | dsimp only

theorem endConnect_does {pz : List Part} {s₀ : State} {n : Nat} {code : Nat} {s : State} (h_s : Does pz s₀ s) (hp :
    subParts [.facets] pz = true) : Does pz s₀ (endConnect n code s) := by
  unfold endConnect
  try dsimp only
  repeat' first
    | with_reducible assumption | with_reducible apply endQpc_does | exact subParts_of (by decide) hp
    | with_reducible apply does_fold | simp only [does_mk] | with_reducible refine moves_intro ?_ rfl ?_
    | ((with_reducible refine only_intro ?_); intro p hc; cases p <;> first
        | exact (clash hp (by decide) hc).elim | dsimp only [Same])
    | intro _ | split | with_reducible apply does_ite | with_reducible apply does_fst (by assumption) | dsimp only

theorem completeDescs_does {pz : List Part} {s₀ : State} {n : Nat} {s : State} (h_s : Does pz s₀ s) (hp : subParts
    [.mem, .facets, .qps, .mirror, .memc, .pcx] pz = true) : Does pz s₀ (completeDescs n s) := by
  unfold completeDescs
  try dsimp only
  repeat' first
    | with_reducible assumption | with_reducible apply completeItem_does | with_reducible apply modQp_does
    | exact subParts_of (by decide) hp | with_reducible apply does_fold | simp only [does_mk]
    | with_reducible refine moves_intro ?_ rfl ?_
    | ((with_reducible refine only_intro ?_); intro p hc; cases p <;> first
        | exact (clash hp (by decide) hc).elim | dsimp only [Same])
    | intro _ | split | with_reducible apply does_ite | with_reducible apply does_fst (by assumption) | dsimp only

theorem modBusy_does {pz : List Part} {s₀ : State} {n : Nat} {g : Qp → Qp} {s : State} (h_s : Does pz s₀ s) (hp :
    subParts [.qps] pz = true) : Does pz s₀ (modBusy n g s) := by
  unfold modBusy
  try dsimp only
  repeat' first
    | with_reducible assumption | with_reducible apply modQp_does | exact subParts_of (by decide) hp
    | with_reducible apply does_fold | simp only [does_mk] | with_reducible refine moves_intro ?_ rfl ?_
    | ((with_reducible refine only_intro ?_); intro p hc; cases p <;> first
        | exact (clash hp (by decide) hc).elim | dsimp only [Same])
    | intro _ | split | with_reducible apply does_ite | with_reducible apply does_fst (by assumption) | dsimp only

theorem failQp_does {pz : List Part} {s₀ : State} {n : Nat} {pick : QDesc → Status} {s : State} (h_s : Does pz s₀ s)
    (hp : subParts [.mem, .facets, .qps, .mirror, .xlt, .memc, .pcx] pz = true) : Does pz s₀ (failQp n pick s) := by
  unfold failQp
  try dsimp only
  repeat' first
    | with_reducible assumption | with_reducible apply completeDescs_does | with_reducible apply completeItem_does
    | with_reducible apply dropWaits_does | with_reducible apply modQp_does | with_reducible apply settle_does
    | exact subParts_of (by decide) hp | with_reducible apply does_fold | simp only [does_mk]
    | with_reducible refine moves_intro ?_ rfl ?_
    | ((with_reducible refine only_intro ?_); intro p hc; cases p <;> first
        | exact (clash hp (by decide) hc).elim | dsimp only [Same])
    | intro _ | split | with_reducible apply does_ite | with_reducible apply does_fst (by assumption) | dsimp only

theorem tryFreeQp_does {pz : List Part} {s₀ : State} {n : Nat} {s : State} (h_s : Does pz s₀ s) (hp : subParts [.mem,
    .facets, .qps, .zrt, .mirror, .xlt, .memc, .pcx] pz = true) : Does pz s₀ (tryFreeQp n s) := by
  unfold tryFreeQp
  try dsimp only
  repeat' first
    | with_reducible assumption | with_reducible apply dropWaits_does | with_reducible apply modQ_does
    | with_reducible apply settle_does | exact subParts_of (by decide) hp | with_reducible apply does_fold
    | simp only [does_mk] | with_reducible refine moves_intro ?_ rfl ?_
    | ((with_reducible refine only_intro ?_); intro p hc; cases p <;> first
        | exact (clash hp (by decide) hc).elim | dsimp only [Same])
    | intro _ | split | with_reducible apply does_ite | with_reducible apply does_fst (by assumption) | dsimp only

end Sys2Proof.Machine
end

