-- ==== Sys2Proof/Laws/TurnsFrame.lean ====
section
/-!
SUPPORT. What each operation of Machine/Turns.lean may change: one lemma per operation.
-/
set_option linter.unusedTactic false
set_option linter.unreachableTactic false
set_option linter.unusedSimpArgs false
set_option linter.unusedVariables false

namespace Sys2Proof.Machine

theorem sendColl_does {pz : List Part} {s₀ : State} {f : Nat} {p : Packet} {s : State} (h_s : Does pz s₀ s) (hp :
    subParts [.out, .facets, .arb, .fab, .eth, .pwr] pz = true) : Does pz s₀ (sendColl f p s) := by
  unfold sendColl
  try dsimp only
  repeat' first
    | with_reducible assumption | with_reducible apply facetCharge_does | with_reducible apply inject_does
    | with_reducible apply modF_does | exact subParts_of (by decide) hp | with_reducible apply does_fold
    | simp only [does_mk] | with_reducible refine moves_intro ?_ rfl ?_
    | ((with_reducible refine only_intro ?_); intro p hc; cases p <;> first
        | exact (clash hp (by decide) hc).elim | dsimp only [Same])
    | intro _ | split | with_reducible apply does_ite | with_reducible apply does_fst (by assumption) | dsimp only

theorem collTurns_does {pz : List Part} {s₀ : State} {x0 : Nat} {x1 : State} (h_x1 : Does pz s₀ x1) (hp : subParts
    [.out, .facets, .arb, .fab, .eth, .pwr] pz = true) : Does pz s₀ (collTurns x0 x1) := by
  induction x0 generalizing x1 with
  | zero =>
    unfold collTurns
    try dsimp only
    repeat' first
      | with_reducible assumption | with_reducible apply modF_does | with_reducible apply sendColl_does
      | exact subParts_of (by decide) hp | with_reducible apply does_fold | simp only [does_mk]
      | with_reducible refine moves_intro ?_ rfl ?_
      | ((with_reducible refine only_intro ?_); intro p hc; cases p <;> first
          | exact (clash hp (by decide) hc).elim | dsimp only [Same])
      | intro _ | split | with_reducible apply does_ite | with_reducible apply does_fst (by assumption) | dsimp only
  | succ k ih =>
    unfold collTurns
    try dsimp only
    repeat' first
      | with_reducible assumption | with_reducible apply ih | with_reducible apply modF_does
      | with_reducible apply sendColl_does | exact subParts_of (by decide) hp | with_reducible apply does_fold
      | simp only [does_mk] | with_reducible refine moves_intro ?_ rfl ?_
      | ((with_reducible refine only_intro ?_); intro p hc; cases p <;> first
          | exact (clash hp (by decide) hc).elim | dsimp only [Same])
      | intro _ | split | with_reducible apply does_ite | with_reducible apply does_fst (by assumption) | dsimp only

theorem takeTurns_does {pz : List Part} {s₀ : State} {s : State} (h_s : Does pz s₀ s) (hp : subParts [.out, .facets,
    .arb, .fab, .eth, .pwr] pz = true) : Does pz s₀ (takeTurns s) := by
  unfold takeTurns
  try dsimp only
  repeat' first
    | with_reducible assumption | with_reducible apply collTurns_does | exact subParts_of (by decide) hp
    | with_reducible apply does_fold | simp only [does_mk] | with_reducible refine moves_intro ?_ rfl ?_
    | ((with_reducible refine only_intro ?_); intro p hc; cases p <;> first
        | exact (clash hp (by decide) hc).elim | dsimp only [Same])
    | intro _ | split | with_reducible apply does_ite | with_reducible apply does_fst (by assumption) | dsimp only

theorem collOut_does {pz : List Part} {s₀ : State} {f : Nat} {p : Packet} {s : State} (h_s : Does pz s₀ s) (hp :
    subParts [.out, .facets, .arb, .fab, .eth, .pwr] pz = true) : Does pz s₀ (collOut f p s) := by
  unfold collOut
  try dsimp only
  repeat' first
    | with_reducible assumption | with_reducible apply modF_does | with_reducible apply takeTurns_does
    | exact subParts_of (by decide) hp | with_reducible apply does_fold | simp only [does_mk]
    | with_reducible refine moves_intro ?_ rfl ?_
    | ((with_reducible refine only_intro ?_); intro p hc; cases p <;> first
        | exact (clash hp (by decide) hc).elim | dsimp only [Same])
    | intro _ | split | with_reducible apply does_ite | with_reducible apply does_fst (by assumption) | dsimp only

end Sys2Proof.Machine
end

