-- ==== Sys2Proof/Laws/GroupsFrame.lean ====
section
/-!
SUPPORT. What each operation of Machine/Groups.lean may change: one lemma per operation.
-/
set_option linter.unusedTactic false
set_option linter.unreachableTactic false
set_option linter.unusedSimpArgs false
set_option linter.unusedVariables false

namespace Sys2Proof.Machine

theorem storePrograms_does {pz : List Part} {s₀ : State} {a : GroupAttr} {s : State} (h_s : Does pz s₀ s) (hp :
    subParts [.prism] pz = true) : Does pz s₀ (storePrograms a s) := by
  unfold storePrograms
  try dsimp only
  repeat' first
    | with_reducible assumption | exact subParts_of (by decide) hp | with_reducible apply does_fold
    | simp only [does_mk] | with_reducible refine moves_intro ?_ rfl ?_
    | ((with_reducible refine only_intro ?_); intro p hc; cases p <;> first
        | exact (clash hp (by decide) hc).elim | dsimp only [Same])
    | intro _ | split | with_reducible apply does_ite | with_reducible apply does_fst (by assumption) | dsimp only

theorem dropPrograms_does {pz : List Part} {s₀ : State} {a : GroupAttr} {s : State} (h_s : Does pz s₀ s) (hp :
    subParts [.prism] pz = true) : Does pz s₀ (dropPrograms a s) := by
  unfold dropPrograms
  try dsimp only
  repeat' first
    | with_reducible assumption | exact subParts_of (by decide) hp | with_reducible apply does_fold
    | simp only [does_mk] | with_reducible refine moves_intro ?_ rfl ?_
    | ((with_reducible refine only_intro ?_); intro p hc; cases p <;> first
        | exact (clash hp (by decide) hc).elim | dsimp only [Same])
    | intro _ | split | with_reducible apply does_ite | with_reducible apply does_fst (by assumption) | dsimp only

theorem toMember_does {pz : List Part} {s₀ : State} {a : GroupAttr} {csn : U32} {sig : U32} {x : Cx} {s : State} (h_s
    : Does pz s₀ s) (hp : subParts [.out, .facets, .arb, .fab, .eth, .pwr] pz = true) : Does pz s₀ (toMember a csn sig
    x s) := by
  unfold toMember
  try dsimp only
  repeat' first
    | with_reducible assumption | with_reducible apply collOut_does | exact subParts_of (by decide) hp
    | with_reducible apply does_fold | simp only [does_mk] | with_reducible refine moves_intro ?_ rfl ?_
    | ((with_reducible refine only_intro ?_); intro p hc; cases p <;> first
        | exact (clash hp (by decide) hc).elim | dsimp only [Same])
    | intro _ | split | with_reducible apply does_ite | with_reducible apply does_fst (by assumption) | dsimp only

theorem toAdapter_does {pz : List Part} {s₀ : State} {a : GroupAttr} {csn : U32} {sig : U32} {y : Nat} {x : Cx} {s :
    State} (h_s : Does pz s₀ s) (hp : subParts [.out, .facets, .arb, .fab, .eth, .pwr] pz = true) : Does pz s₀
    (toAdapter a csn sig y x s) := by
  unfold toAdapter
  try dsimp only
  repeat' first
    | with_reducible assumption | with_reducible apply collOut_does | exact subParts_of (by decide) hp
    | with_reducible apply does_fold | simp only [does_mk] | with_reducible refine moves_intro ?_ rfl ?_
    | ((with_reducible refine only_intro ?_); intro p hc; cases p <;> first
        | exact (clash hp (by decide) hc).elim | dsimp only [Same])
    | intro _ | split | with_reducible apply does_ite | with_reducible apply does_fst (by assumption) | dsimp only

theorem toEndpoint_does {pz : List Part} {s₀ : State} {a : GroupAttr} {ep : BitVec 27} {x : Cx} {s : State} (h_s :
    Does pz s₀ s) (hp : subParts [.out, .facets, .arb, .fab, .eth, .pwr] pz = true) : Does pz s₀ (toEndpoint a ep x s)
    := by
  unfold toEndpoint
  try dsimp only
  repeat' first
    | with_reducible assumption | with_reducible apply collOut_does | exact subParts_of (by decide) hp
    | with_reducible apply does_fold | simp only [does_mk] | with_reducible refine moves_intro ?_ rfl ?_
    | ((with_reducible refine only_intro ?_); intro p hc; cases p <;> first
        | exact (clash hp (by decide) hc).elim | dsimp only [Same])
    | intro _ | split | with_reducible apply does_ite | with_reducible apply does_fst (by assumption) | dsimp only

theorem toAdapters_does {pz : List Part} {s₀ : State} {a : GroupAttr} {csn : U32} {sig : U32} {l : List Nat} {x : Cx}
    {s : State} (h_s : Does pz s₀ s) (hp : subParts [.out, .facets, .arb, .fab, .eth, .pwr] pz = true) : Does pz s₀
    (toAdapters a csn sig l x s) := by
  unfold toAdapters
  try dsimp only
  repeat' first
    | with_reducible assumption | with_reducible apply toAdapter_does | exact subParts_of (by decide) hp
    | with_reducible apply does_fold | simp only [does_mk] | with_reducible refine moves_intro ?_ rfl ?_
    | ((with_reducible refine only_intro ?_); intro p hc; cases p <;> first
        | exact (clash hp (by decide) hc).elim | dsimp only [Same])
    | intro _ | split | with_reducible apply does_ite | with_reducible apply does_fst (by assumption) | dsimp only

theorem startAccess_does {pz : List Part} {s₀ : State} {q : Nat} {wr : Bool} {l : List (Nat × U64 × Nat)} {go : Trans
    → State → State} {s : State} (h_go : ∀ a0 s, Does pz s₀ s → Does pz s₀ (go a0 s)) (h_s : Does pz s₀ s) (hp :
    subParts [.free, .mem, .facets, .xlt, .memc, .pcx] pz = true) : Does pz s₀ (startAccess q wr l go s) := by
  unfold startAccess
  try dsimp only
  repeat' first
    | with_reducible assumption | with_reducible apply readAll_does | with_reducible apply transRanges_does
    | with_reducible apply h_go | exact subParts_of (by decide) hp | with_reducible apply does_fold
    | simp only [does_mk] | with_reducible refine moves_intro ?_ rfl ?_
    | ((with_reducible refine only_intro ?_); intro p hc; cases p <;> first
        | exact (clash hp (by decide) hc).elim | dsimp only [Same])
    | intro _ | split | with_reducible apply does_ite | with_reducible apply does_fst (by assumption) | dsimp only

theorem releaseGroup_does {pz : List Part} {s₀ : State} {gid : Nat} {s : State} (h_s : Does pz s₀ s) (hp : subParts
    [.groups, .prism] pz = true) : Does pz s₀ (releaseGroup gid s) := by
  unfold releaseGroup
  try dsimp only
  repeat' first
    | with_reducible assumption | with_reducible apply dropPrograms_does | exact subParts_of (by decide) hp
    | with_reducible apply does_fold | simp only [does_mk] | with_reducible refine moves_intro ?_ rfl ?_
    | ((with_reducible refine only_intro ?_); intro p hc; cases p <;> first
        | exact (clash hp (by decide) hc).elim | dsimp only [Same])
    | intro _ | split | with_reducible apply does_ite | with_reducible apply does_fst (by assumption) | dsimp only

theorem releaseIfDrained_does {pz : List Part} {s₀ : State} {gid : Nat} {s : State} (h_s : Does pz s₀ s) (hp :
    subParts [.groups, .prism] pz = true) : Does pz s₀ (releaseIfDrained gid s) := by
  unfold releaseIfDrained
  try dsimp only
  repeat' first
    | with_reducible assumption | with_reducible apply releaseGroup_does | exact subParts_of (by decide) hp
    | with_reducible apply does_fold | simp only [does_mk] | with_reducible refine moves_intro ?_ rfl ?_
    | ((with_reducible refine only_intro ?_); intro p hc; cases p <;> first
        | exact (clash hp (by decide) hc).elim | dsimp only [Same])
    | intro _ | split | with_reducible apply does_ite | with_reducible apply does_fst (by assumption) | dsimp only

theorem dropWaiting_does {pz : List Part} {s₀ : State} {gid : Nat} {st : Status} {s : State} (h_s : Does pz s₀ s) (hp
    : subParts [.mem, .facets, .mirror, .groups, .memc, .pcx] pz = true) : Does pz s₀ (dropWaiting gid st s) := by
  unfold dropWaiting
  try dsimp only
  repeat' first
    | with_reducible assumption | with_reducible apply completeItem_does | with_reducible apply modG_does
    | with_reducible apply settle_does | exact subParts_of (by decide) hp | with_reducible apply does_fold
    | simp only [does_mk] | with_reducible refine moves_intro ?_ rfl ?_
    | ((with_reducible refine only_intro ?_); intro p hc; cases p <;> first
        | exact (clash hp (by decide) hc).elim | dsimp only [Same])
    | intro _ | split | with_reducible apply does_ite | with_reducible apply does_fst (by assumption) | dsimp only

theorem tearDown_does {pz : List Part} {s₀ : State} {gid : Nat} {s : State} (h_s : Does pz s₀ s) (hp : subParts [.mem,
    .facets, .mirror, .groups, .prism, .memc, .pcx] pz = true) : Does pz s₀ (tearDown gid s) := by
  unfold tearDown
  try dsimp only
  repeat' first
    | with_reducible assumption | with_reducible apply dropWaiting_does | with_reducible apply modG_does
    | with_reducible apply releaseGroup_does | with_reducible apply releaseIfDrained_does
    | exact subParts_of (by decide) hp | with_reducible apply does_fold | simp only [does_mk]
    | with_reducible refine moves_intro ?_ rfl ?_
    | ((with_reducible refine only_intro ?_); intro p hc; cases p <;> first
        | exact (clash hp (by decide) hc).elim | dsimp only [Same])
    | intro _ | split | with_reducible apply does_ite | with_reducible apply does_fst (by assumption) | dsimp only

theorem reserveGroup_does {pz : List Part} {s₀ : State} {a : GroupAttr} {s : State} (h_s : Does pz s₀ s) (hp :
    subParts [.groups, .prism] pz = true) : Does pz s₀ (reserveGroup a s) := by
  unfold reserveGroup
  try dsimp only
  repeat' first
    | with_reducible assumption | with_reducible apply modG_does | with_reducible apply storePrograms_does
    | exact subParts_of (by decide) hp | with_reducible apply does_fold | simp only [does_mk]
    | with_reducible refine moves_intro ?_ rfl ?_
    | ((with_reducible refine only_intro ?_); intro p hc; cases p <;> first
        | exact (clash hp (by decide) hc).elim | dsimp only [Same])
    | intro _ | split | with_reducible apply does_ite | with_reducible apply does_fst (by assumption) | dsimp only

theorem sendSetup_does {pz : List Part} {s₀ : State} {a : GroupAttr} {s : State} {y : Nat} (h_s : Does pz s₀ s) (hp :
    subParts [.out, .facets, .arb, .fab, .eth, .pwr] pz = true) : Does pz s₀ (sendSetup a s y) := by
  unfold sendSetup
  try dsimp only
  repeat' first
    | with_reducible assumption | with_reducible apply emit_does | with_reducible apply toAdapter_does
    | exact subParts_of (by decide) hp | with_reducible apply does_fold | simp only [does_mk]
    | with_reducible refine moves_intro ?_ rfl ?_
    | ((with_reducible refine only_intro ?_); intro p hc; cases p <;> first
        | exact (clash hp (by decide) hc).elim | dsimp only [Same])
    | intro _ | split | with_reducible apply does_ite | with_reducible apply does_fst (by assumption) | dsimp only

theorem sendPhase_does {pz : List Part} {s₀ : State} {c : GroupCmd} {l : List Nat} {s : State} (h_s : Does pz s₀ s)
    (hp : subParts [.out, .facets, .arb, .fab, .eth, .pwr] pz = true) : Does pz s₀ (sendPhase c l s) := by
  unfold sendPhase
  try dsimp only
  repeat' first
    | with_reducible assumption | with_reducible apply sendSetup_does | with_reducible apply toAdapters_does
    | exact subParts_of (by decide) hp | with_reducible apply does_fold | simp only [does_mk]
    | with_reducible refine moves_intro ?_ rfl ?_
    | ((with_reducible refine only_intro ?_); intro p hc; cases p <;> first
        | exact (clash hp (by decide) hc).elim | dsimp only [Same])
    | intro _ | split | with_reducible apply does_ite | with_reducible apply does_fst (by assumption) | dsimp only

theorem endGroupCmd_does {pz : List Part} {s₀ : State} {c : GroupCmd} {st : Status} {s : State} (h_s : Does pz s₀ s)
    (hp : subParts [.mem, .facets, .mirror, .grp, .memc, .pcx] pz = true) : Does pz s₀ (endGroupCmd c st s) := by
  unfold endGroupCmd
  try dsimp only
  repeat' first
    | with_reducible assumption | with_reducible apply completeItem_does | with_reducible apply settle_does
    | exact subParts_of (by decide) hp | with_reducible apply does_fold | simp only [does_mk]
    | with_reducible refine moves_intro ?_ rfl ?_
    | ((with_reducible refine only_intro ?_); intro p hc; cases p <;> first
        | exact (clash hp (by decide) hc).elim | dsimp only [Same])
    | intro _ | split | with_reducible apply does_ite | with_reducible apply does_fst (by assumption) | dsimp only

theorem failCreate_does {pz : List Part} {s₀ : State} {c : GroupCmd} {st : Status} {s : State} (h_s : Does pz s₀ s)
    (hp : subParts [.out, .mem, .facets, .arb, .mirror, .grp, .fab, .memc, .pcx, .eth, .pwr] pz = true) : Does pz s₀
    (failCreate c st s) := by
  unfold failCreate
  try dsimp only
  repeat' first
    | with_reducible assumption | with_reducible apply endGroupCmd_does | with_reducible apply toAdapters_does
    | exact subParts_of (by decide) hp | with_reducible apply does_fold | simp only [does_mk]
    | with_reducible refine moves_intro ?_ rfl ?_
    | ((with_reducible refine only_intro ?_); intro p hc; cases p <;> first
        | exact (clash hp (by decide) hc).elim | dsimp only [Same])
    | intro _ | split | with_reducible apply does_ite | with_reducible apply does_fst (by assumption) | dsimp only

theorem modCmd_does {pz : List Part} {s₀ : State} {c : GroupCmd} {g : GroupCmd → GroupCmd} {s : State} (h_s : Does pz
    s₀ s) (hp : subParts [.grp] pz = true) : Does pz s₀ (modCmd c g s) := by
  unfold modCmd
  try dsimp only
  repeat' first
    | with_reducible assumption | exact subParts_of (by decide) hp | with_reducible apply does_fold
    | simp only [does_mk] | with_reducible refine moves_intro ?_ rfl ?_
    | ((with_reducible refine only_intro ?_); intro p hc; cases p <;> first
        | exact (clash hp (by decide) hc).elim | dsimp only [Same])
    | intro _ | split | with_reducible apply does_ite | with_reducible apply does_fst (by assumption) | dsimp only

theorem answered_does {pz : List Part} {s₀ : State} {c : GroupCmd} {y : Nat} {s : State} (h_s : Does pz s₀ s) (hp :
    subParts [.out, .mem, .facets, .arb, .mirror, .grp, .fab, .memc, .pcx, .eth, .pwr] pz = true) : Does pz s₀
    (answered c y s) := by
  unfold answered
  try dsimp only
  repeat' first
    | with_reducible assumption | with_reducible apply endGroupCmd_does | with_reducible apply modCmd_does
    | with_reducible apply sendPhase_does | exact subParts_of (by decide) hp | with_reducible apply does_fold
    | simp only [does_mk] | with_reducible refine moves_intro ?_ rfl ?_
    | ((with_reducible refine only_intro ?_); intro p hc; cases p <;> first
        | exact (clash hp (by decide) hc).elim | dsimp only [Same])
    | intro _ | split | with_reducible apply does_ite | with_reducible apply does_fst (by assumption) | dsimp only

end Sys2Proof.Machine
end

