-- ==== Sys2Proof/Laws/CollFrame.lean ====
section
/-!
SUPPORT. What each operation of Machine/Coll.lean may change: one lemma per operation.
-/
set_option linter.unusedTactic false
set_option linter.unreachableTactic false
set_option linter.unusedSimpArgs false
set_option linter.unusedVariables false

namespace Sys2Proof.Machine

theorem readAux_does {pz : List Part} {s₀ : State} {f : Nat} {a : GroupAttr} {d : Desc} {given : Bytes} {s : State}
    (h_s : Does pz s₀ s) (hp : subParts [.free, .mem, .facets, .xlt, .memc, .pcx] pz = true) : Does pz s₀ (readAux f a
    d given s).1 := by
  unfold readAux
  try dsimp only
  repeat' first
    | with_reducible assumption | with_reducible apply readAll_does | with_reducible apply translate_does
    | exact subParts_of (by decide) hp | with_reducible apply does_fold | simp only [does_mk]
    | with_reducible refine moves_intro ?_ rfl ?_
    | ((with_reducible refine only_intro ?_); intro p hc; cases p <;> first
        | exact (clash hp (by decide) hc).elim | dsimp only [Same])
    | intro _ | split | with_reducible apply does_ite | with_reducible apply does_fst (by assumption) | dsimp only

theorem startChecks_does {pz : List Part} {s₀ : State} {f : Nat} {q : Nat} {idx : U32} {csn : U32} {a : GroupAttr} {d
    : Desc} {given : Bytes} {s : State} (h_s : Does pz s₀ s) (hp : subParts [.free, .mem, .facets, .xlt, .memc, .pcx]
    pz = true) : Does pz s₀ (startChecks f q idx csn a d given s).1 := by
  unfold startChecks
  try dsimp only
  repeat' first
    | with_reducible assumption | with_reducible apply readAux_does | exact subParts_of (by decide) hp
    | with_reducible apply does_fold | simp only [does_mk] | with_reducible refine moves_intro ?_ rfl ?_
    | ((with_reducible refine only_intro ?_); intro p hc; cases p <;> first
        | exact (clash hp (by decide) hc).elim | dsimp only [Same])
    | intro _ | split | with_reducible apply does_ite | with_reducible apply does_fst (by assumption) | dsimp only

end Sys2Proof.Machine
end

