-- ==== Sys2Proof/Laws/CollRunFrame.lean ====
section
/-!
SUPPORT. What each operation of Machine/CollRun.lean may change: one lemma per operation.
-/
set_option linter.unusedTactic false
set_option linter.unreachableTactic false
set_option linter.unusedSimpArgs false
set_option linter.unusedVariables false

namespace Sys2Proof.Machine

theorem modRun_does {pz : List Part} {s₀ : State} {gid : Nat} {g : Coll → Coll} {s : State} (h_s : Does pz s₀ s) (hp :
    subParts [.groups] pz = true) : Does pz s₀ (modRun gid g s) := by
  unfold modRun
  try dsimp only
  repeat' first
    | with_reducible assumption | with_reducible apply modG_does | exact subParts_of (by decide) hp
    | with_reducible apply does_fold | simp only [does_mk] | with_reducible refine moves_intro ?_ rfl ?_
    | ((with_reducible refine only_intro ?_); intro p hc; cases p <;> first
        | exact (clash hp (by decide) hc).elim | dsimp only [Same])
    | intro _ | split | with_reducible apply does_ite | with_reducible apply does_fst (by assumption) | dsimp only

theorem modCh_does {pz : List Part} {s₀ : State} {gid : Nat} {c : Nat} {g : Chunk → Chunk} {s : State} (h_s : Does pz
    s₀ s) (hp : subParts [.groups] pz = true) : Does pz s₀ (modCh gid c g s) := by
  unfold modCh
  try dsimp only
  repeat' first
    | with_reducible assumption | with_reducible apply modRun_does | exact subParts_of (by decide) hp
    | with_reducible apply does_fold | simp only [does_mk] | with_reducible refine moves_intro ?_ rfl ?_
    | ((with_reducible refine only_intro ?_); intro p hc; cases p <;> first
        | exact (clash hp (by decide) hc).elim | dsimp only [Same])
    | intro _ | split | with_reducible apply does_ite | with_reducible apply does_fst (by assumption) | dsimp only

theorem landStream_does {pz : List Part} {s₀ : State} {gid : Nat} {c : Nat} {key : Nat} {bs : Bytes} {s : State} (h_s
    : Does pz s₀ s) (hp : subParts [.groups] pz = true) : Does pz s₀ (landStream gid c key bs s) := by
  unfold landStream
  try dsimp only
  repeat' first
    | with_reducible assumption | with_reducible apply modCh_does | exact subParts_of (by decide) hp
    | with_reducible apply does_fold | simp only [does_mk] | with_reducible refine moves_intro ?_ rfl ?_
    | ((with_reducible refine only_intro ?_); intro p hc; cases p <;> first
        | exact (clash hp (by decide) hc).elim | dsimp only [Same])
    | intro _ | split | with_reducible apply does_ite | with_reducible apply does_fst (by assumption) | dsimp only

theorem putStream_does {pz : List Part} {s₀ : State} {gid : Nat} {c : Nat} {kind : Nat} {src : Nat} {dst : Nat}
    {resent : Bool} {bs : Bytes} {s : State} (h_s : Does pz s₀ s) (hp : subParts [.out, .facets, .arb, .groups, .fab,
    .eth, .pwr] pz = true) : Does pz s₀ (putStream gid c kind src dst resent bs s) := by
  unfold putStream
  try dsimp only
  repeat' first
    | with_reducible assumption | with_reducible apply landStream_does | with_reducible apply modCh_does
    | with_reducible apply toMember_does | exact subParts_of (by decide) hp | with_reducible apply does_fold
    | simp only [does_mk] | with_reducible refine moves_intro ?_ rfl ?_
    | ((with_reducible refine only_intro ?_); intro p hc; cases p <;> first
        | exact (clash hp (by decide) hc).elim | dsimp only [Same])
    | intro _ | split | with_reducible apply does_ite | with_reducible apply does_fst (by assumption) | dsimp only

theorem noteOwn_does {pz : List Part} {s₀ : State} {gid : Nat} {c : Nat} {m : Nat} {bs : Bytes} {s : State} (h_s :
    Does pz s₀ s) (hp : subParts [.groups] pz = true) : Does pz s₀ (noteOwn gid c m bs s) := by
  unfold noteOwn
  try dsimp only
  repeat' first
    | with_reducible assumption | with_reducible apply landStream_does | with_reducible apply modCh_does
    | exact subParts_of (by decide) hp | with_reducible apply does_fold | simp only [does_mk]
    | with_reducible refine moves_intro ?_ rfl ?_
    | ((with_reducible refine only_intro ?_); intro p hc; cases p <;> first
        | exact (clash hp (by decide) hc).elim | dsimp only [Same])
    | intro _ | split | with_reducible apply does_ite | with_reducible apply does_fst (by assumption) | dsimp only

theorem sendAnchors_does {pz : List Part} {s₀ : State} {gid : Nat} {c : Nat} {resent : Bool} {only : Option Nat} {m :
    CollMember} {s : State} (h_s : Does pz s₀ s) (hp : subParts [.out, .facets, .arb, .groups, .fab, .eth, .pwr] pz =
    true) : Does pz s₀ (sendAnchors gid c resent only m s) := by
  unfold sendAnchors
  try dsimp only
  repeat' first
    | with_reducible assumption | with_reducible apply putStream_does | exact subParts_of (by decide) hp
    | with_reducible apply does_fold | simp only [does_mk] | with_reducible refine moves_intro ?_ rfl ?_
    | ((with_reducible refine only_intro ?_); intro p hc; cases p <;> first
        | exact (clash hp (by decide) hc).elim | dsimp only [Same])
    | intro _ | split | with_reducible apply does_ite | with_reducible apply does_fst (by assumption) | dsimp only

theorem sendData_does {pz : List Part} {s₀ : State} {gid : Nat} {c : Nat} {resent : Bool} {only : Option Nat} {m :
    CollMember} {s : State} (h_s : Does pz s₀ s) (hp : subParts [.out, .facets, .arb, .groups, .fab, .eth, .pwr] pz =
    true) : Does pz s₀ (sendData gid c resent only m s) := by
  unfold sendData
  try dsimp only
  repeat' first
    | with_reducible assumption | with_reducible apply putStream_does | exact subParts_of (by decide) hp
    | with_reducible apply does_fold | simp only [does_mk] | with_reducible refine moves_intro ?_ rfl ?_
    | ((with_reducible refine only_intro ?_); intro p hc; cases p <;> first
        | exact (clash hp (by decide) hc).elim | dsimp only [Same])
    | intro _ | split | with_reducible apply does_ite | with_reducible apply does_fst (by assumption) | dsimp only

theorem handOwn_does {pz : List Part} {s₀ : State} {gid : Nat} {c : Nat} {s : State} {m : CollMember} (h_s : Does pz
    s₀ s) (hp : subParts [.out, .facets, .arb, .groups, .fab, .eth, .pwr] pz = true) : Does pz s₀ (handOwn gid c s m)
    := by
  unfold handOwn
  try dsimp only
  repeat' first
    | with_reducible assumption | with_reducible apply modCh_does | with_reducible apply sendAnchors_does
    | with_reducible apply sendData_does | exact subParts_of (by decide) hp | with_reducible apply does_fold
    | simp only [does_mk] | with_reducible refine moves_intro ?_ rfl ?_
    | ((with_reducible refine only_intro ?_); intro p hc; cases p <;> first
        | exact (clash hp (by decide) hc).elim | dsimp only [Same])
    | intro _ | split | with_reducible apply does_ite | with_reducible apply does_fst (by assumption) | dsimp only

theorem readChunk_does {pz : List Part} {s₀ : State} {gid : Nat} {c : Nat} {s : State} {m : CollMember} (h_s : Does pz
    s₀ s) (hp : subParts [.free, .mem, .facets, .groups, .xlt, .memc, .pcx] pz = true) : Does pz s₀ (readChunk gid c s
    m) := by
  unfold readChunk
  try dsimp only
  repeat' first
    | with_reducible assumption | with_reducible apply modCh_does | with_reducible apply noteOwn_does
    | with_reducible apply readAll_does | with_reducible apply transRanges_does | exact subParts_of (by decide) hp
    | with_reducible apply does_fold | simp only [does_mk] | with_reducible refine moves_intro ?_ rfl ?_
    | ((with_reducible refine only_intro ?_); intro p hc; cases p <;> first
        | exact (clash hp (by decide) hc).elim | dsimp only [Same])
    | intro _ | split | with_reducible apply does_ite | with_reducible apply does_fst (by assumption) | dsimp only

theorem startChunk_does {pz : List Part} {s₀ : State} {gid : Nat} {c : Nat} {s : State} (h_s : Does pz s₀ s) (hp :
    subParts [.groups, .grp] pz = true) : Does pz s₀ (startChunk gid c s) := by
  unfold startChunk
  try dsimp only
  repeat' first
    | with_reducible assumption | with_reducible apply modCh_does | with_reducible apply modRun_does
    | exact subParts_of (by decide) hp | with_reducible apply does_fold | simp only [does_mk]
    | with_reducible refine moves_intro ?_ rfl ?_
    | ((with_reducible refine only_intro ?_); intro p hc; cases p <;> first
        | exact (clash hp (by decide) hc).elim | dsimp only [Same])
    | intro _ | split | with_reducible apply does_ite | with_reducible apply does_fst (by assumption) | dsimp only

theorem startChunks_does {pz : List Part} {s₀ : State} {gid : Nat} {s : State} (h_s : Does pz s₀ s) (hp : subParts
    [.free, .out, .mem, .facets, .arb, .groups, .grp, .fab, .xlt, .memc, .pcx, .eth, .pwr] pz = true) : Does pz s₀
    (startChunks gid s) := by
  unfold startChunks
  try dsimp only
  repeat' first
    | with_reducible assumption | with_reducible apply handOwn_does | with_reducible apply readChunk_does
    | with_reducible apply startChunk_does | exact subParts_of (by decide) hp | with_reducible apply does_fold
    | simp only [does_mk] | with_reducible refine moves_intro ?_ rfl ?_
    | ((with_reducible refine only_intro ?_); intro p hc; cases p <;> first
        | exact (clash hp (by decide) hc).elim | dsimp only [Same])
    | intro _ | split | with_reducible apply does_ite | with_reducible apply does_fst (by assumption) | dsimp only

theorem placeOut_does {pz : List Part} {s₀ : State} {gid : Nat} {c : Nat} {mark : State → State} {m : CollMember}
    {elem : Nat} {bs : Bytes} {s : State} (h_mark : ∀ s, Does pz s₀ s → Does pz s₀ (mark s)) (h_s : Does pz s₀ s) (hp
    : subParts [.free, .mem, .facets, .xlt, .memc, .pcx] pz = true) : Does pz s₀ (placeOut gid c mark m elem bs s) :=
    by
  unfold placeOut
  try dsimp only
  repeat' first
    | with_reducible assumption | with_reducible apply postAll_does | with_reducible apply translate_does
    | with_reducible apply h_mark | exact subParts_of (by decide) hp | with_reducible apply does_fold
    | simp only [does_mk] | with_reducible refine moves_intro ?_ rfl ?_
    | ((with_reducible refine only_intro ?_); intro p hc; cases p <;> first
        | exact (clash hp (by decide) hc).elim | dsimp only [Same])
    | intro _ | split | with_reducible apply does_ite | with_reducible apply does_fst (by assumption) | dsimp only

theorem markPlaced_does {pz : List Part} {s₀ : State} {gid : Nat} {c : Nat} {key : Nat} {s : State} (h_s : Does pz s₀
    s) (hp : subParts [.groups] pz = true) : Does pz s₀ (markPlaced gid c key s) := by
  unfold markPlaced
  try dsimp only
  repeat' first
    | with_reducible assumption | with_reducible apply modCh_does | exact subParts_of (by decide) hp
    | with_reducible apply does_fold | simp only [does_mk] | with_reducible refine moves_intro ?_ rfl ?_
    | ((with_reducible refine only_intro ?_); intro p hc; cases p <;> first
        | exact (clash hp (by decide) hc).elim | dsimp only [Same])
    | intro _ | split | with_reducible apply does_ite | with_reducible apply does_fst (by assumption) | dsimp only

theorem placeStream_does {pz : List Part} {s₀ : State} {gid : Nat} {c : Nat} {s : State} {ki : Nat × Nat} (h_s : Does
    pz s₀ s) (hp : subParts [.free, .mem, .facets, .groups, .xlt, .memc, .pcx] pz = true) : Does pz s₀ (placeStream
    gid c s ki) := by
  unfold placeStream
  try dsimp only
  repeat' first
    | with_reducible assumption | with_reducible apply markPlaced_does | with_reducible apply placeOut_does
    | exact subParts_of (by decide) hp | with_reducible apply does_fold | simp only [does_mk]
    | with_reducible refine moves_intro ?_ rfl ?_
    | ((with_reducible refine only_intro ?_); intro p hc; cases p <;> first
        | exact (clash hp (by decide) hc).elim | dsimp only [Same])
    | intro _ | split | with_reducible apply does_ite | with_reducible apply does_fst (by assumption) | dsimp only

theorem placeRow_does {pz : List Part} {s₀ : State} {gid : Nat} {m : CollMember} {s : State} {x : Nat × Nat} (h_s :
    Does pz s₀ s) (hp : subParts [.free, .mem, .facets, .groups, .xlt, .memc, .pcx] pz = true) : Does pz s₀ (placeRow
    gid m s x) := by
  unfold placeRow
  try dsimp only
  repeat' first
    | with_reducible assumption | with_reducible apply modRun_does | with_reducible apply placeOut_does
    | exact subParts_of (by decide) hp | with_reducible apply does_fold | simp only [does_mk]
    | with_reducible refine moves_intro ?_ rfl ?_
    | ((with_reducible refine only_intro ?_); intro p hc; cases p <;> first
        | exact (clash hp (by decide) hc).elim | dsimp only [Same])
    | intro _ | split | with_reducible apply does_ite | with_reducible apply does_fst (by assumption) | dsimp only

theorem assignCluster_does {pz : List Part} {s₀ : State} {gid : Nat} {s : State} {c : Nat} (h_s : Does pz s₀ s) (hp :
    subParts [.groups, .prism] pz = true) : Does pz s₀ (assignCluster gid s c) := by
  unfold assignCluster
  try dsimp only
  repeat' first
    | with_reducible assumption | with_reducible apply modCh_does | exact subParts_of (by decide) hp
    | with_reducible apply does_fold | simp only [does_mk] | with_reducible refine moves_intro ?_ rfl ?_
    | ((with_reducible refine only_intro ?_); intro p hc; cases p <;> first
        | exact (clash hp (by decide) hc).elim | dsimp only [Same])
    | intro _ | split | with_reducible apply does_ite | with_reducible apply does_fst (by assumption) | dsimp only

theorem placePlain_does {pz : List Part} {s₀ : State} {gid : Nat} {s : State} (h_s : Does pz s₀ s) (hp : subParts
    [.free, .mem, .facets, .groups, .xlt, .memc, .pcx] pz = true) : Does pz s₀ (placePlain gid s) := by
  unfold placePlain
  try dsimp only
  repeat' first
    | with_reducible assumption | with_reducible apply placeRow_does | with_reducible apply placeStream_does
    | exact subParts_of (by decide) hp | with_reducible apply does_fold | simp only [does_mk]
    | with_reducible refine moves_intro ?_ rfl ?_
    | ((with_reducible refine only_intro ?_); intro p hc; cases p <;> first
        | exact (clash hp (by decide) hc).elim | dsimp only [Same])
    | intro _ | split | with_reducible apply does_ite | with_reducible apply does_fst (by assumption) | dsimp only

theorem anchorsArrive_does {pz : List Part} {s₀ : State} {gid : Nat} {s : State} {c : Nat} (h_s : Does pz s₀ s) (hp :
    subParts [.groups] pz = true) : Does pz s₀ (anchorsArrive gid s c) := by
  unfold anchorsArrive
  try dsimp only
  repeat' first
    | with_reducible assumption | with_reducible apply modCh_does | exact subParts_of (by decide) hp
    | with_reducible apply does_fold | simp only [does_mk] | with_reducible refine moves_intro ?_ rfl ?_
    | ((with_reducible refine only_intro ?_); intro p hc; cases p <;> first
        | exact (clash hp (by decide) hc).elim | dsimp only [Same])
    | intro _ | split | with_reducible apply does_ite | with_reducible apply does_fst (by assumption) | dsimp only

theorem sendResult_does {pz : List Part} {s₀ : State} {gid : Nat} {c : Nat} {resent : Bool} {only : Option Nat} {s :
    State} (h_s : Does pz s₀ s) (hp : subParts [.out, .facets, .arb, .groups, .fab, .eth, .pwr] pz = true) : Does pz
    s₀ (sendResult gid c resent only s) := by
  unfold sendResult
  try dsimp only
  repeat' first
    | with_reducible assumption | with_reducible apply putStream_does | exact subParts_of (by decide) hp
    | with_reducible apply does_fold | simp only [does_mk] | with_reducible refine moves_intro ?_ rfl ?_
    | ((with_reducible refine only_intro ?_); intro p hc; cases p <;> first
        | exact (clash hp (by decide) hc).elim | dsimp only [Same])
    | intro _ | split | with_reducible apply does_ite | with_reducible apply does_fst (by assumption) | dsimp only

theorem sendNode_does {pz : List Part} {s₀ : State} {gid : Nat} {c : Nat} {k : Nat} {resent : Bool} {only : Option
    Nat} {s : State} (h_s : Does pz s₀ s) (hp : subParts [.out, .facets, .arb, .groups, .fab, .eth, .pwr] pz = true) :
    Does pz s₀ (sendNode gid c k resent only s) := by
  unfold sendNode
  try dsimp only
  repeat' first
    | with_reducible assumption | with_reducible apply putStream_does | exact subParts_of (by decide) hp
    | with_reducible apply does_fold | simp only [does_mk] | with_reducible refine moves_intro ?_ rfl ?_
    | ((with_reducible refine only_intro ?_); intro p hc; cases p <;> first
        | exact (clash hp (by decide) hc).elim | dsimp only [Same])
    | intro _ | split | with_reducible apply does_ite | with_reducible apply does_fst (by assumption) | dsimp only

theorem countWork_does {pz : List Part} {s₀ : State} {k : Nat} {bytes : Nat} {vecs : Nat} {s : State} (h_s : Does pz
    s₀ s) (hp : subParts [.prism] pz = true) : Does pz s₀ (countWork k bytes vecs s) := by
  unfold countWork
  try dsimp only
  repeat' first
    | with_reducible assumption | exact subParts_of (by decide) hp | with_reducible apply does_fold
    | simp only [does_mk] | with_reducible refine moves_intro ?_ rfl ?_
    | ((with_reducible refine only_intro ?_); intro p hc; cases p <;> first
        | exact (clash hp (by decide) hc).elim | dsimp only [Same])
    | intro _ | split | with_reducible apply does_ite | with_reducible apply does_fst (by assumption) | dsimp only

theorem finishSends_does {pz : List Part} {s₀ : State} {gid : Nat} {c : Nat} {k : Nat} {s : State} (h_s : Does pz s₀
    s) (hp : subParts [.groups, .prism] pz = true) : Does pz s₀ (finishSends gid c k s) := by
  unfold finishSends
  try dsimp only
  repeat' first
    | with_reducible assumption | with_reducible apply countWork_does | with_reducible apply modCh_does
    | with_reducible apply noteOwn_does | exact subParts_of (by decide) hp | with_reducible apply does_fold
    | simp only [does_mk] | with_reducible refine moves_intro ?_ rfl ?_
    | ((with_reducible refine only_intro ?_); intro p hc; cases p <;> first
        | exact (clash hp (by decide) hc).elim | dsimp only [Same])
    | intro _ | split | with_reducible apply does_ite | with_reducible apply does_fst (by assumption) | dsimp only

theorem finishAnchors_does {pz : List Part} {s₀ : State} {gid : Nat} {c : Nat} {k : Nat} {s : State} (h_s : Does pz s₀
    s) (hp : subParts [.out, .facets, .arb, .groups, .prism, .fab, .eth, .pwr] pz = true) : Does pz s₀ (finishAnchors
    gid c k s) := by
  unfold finishAnchors
  try dsimp only
  repeat' first
    | with_reducible assumption | with_reducible apply countWork_does | with_reducible apply modCh_does
    | with_reducible apply putStream_does | exact subParts_of (by decide) hp | with_reducible apply does_fold
    | simp only [does_mk] | with_reducible refine moves_intro ?_ rfl ?_
    | ((with_reducible refine only_intro ?_); intro p hc; cases p <;> first
        | exact (clash hp (by decide) hc).elim | dsimp only [Same])
    | intro _ | split | with_reducible apply does_ite | with_reducible apply does_fst (by assumption) | dsimp only

theorem finishNode_does {pz : List Part} {s₀ : State} {gid : Nat} {c : Nat} {k : Nat} {s : State} {n : Nat} (h_s :
    Does pz s₀ s) (hp : subParts [.out, .facets, .arb, .groups, .prism, .fab, .eth, .pwr] pz = true) : Does pz s₀
    (finishNode gid c k s n) := by
  unfold finishNode
  try dsimp only
  repeat' first
    | with_reducible assumption | with_reducible apply countWork_does | with_reducible apply modCh_does
    | with_reducible apply sendNode_does | with_reducible apply sendResult_does | exact subParts_of (by decide) hp
    | with_reducible apply does_fold | simp only [does_mk] | with_reducible refine moves_intro ?_ rfl ?_
    | ((with_reducible refine only_intro ?_); intro p hc; cases p <;> first
        | exact (clash hp (by decide) hc).elim | dsimp only [Same])
    | intro _ | split | with_reducible apply does_ite | with_reducible apply does_fst (by assumption) | dsimp only

theorem finishNodes_does {pz : List Part} {s₀ : State} {gid : Nat} {c : Nat} {k : Nat} {s : State} (h_s : Does pz s₀
    s) (hp : subParts [.out, .facets, .arb, .groups, .prism, .fab, .eth, .pwr] pz = true) : Does pz s₀ (finishNodes
    gid c k s) := by
  unfold finishNodes
  try dsimp only
  repeat' first
    | with_reducible assumption | with_reducible apply finishNode_does | exact subParts_of (by decide) hp
    | with_reducible apply does_fold | simp only [does_mk] | with_reducible refine moves_intro ?_ rfl ?_
    | ((with_reducible refine only_intro ?_); intro p hc; cases p <;> first
        | exact (clash hp (by decide) hc).elim | dsimp only [Same])
    | intro _ | split | with_reducible apply does_ite | with_reducible apply does_fst (by assumption) | dsimp only

theorem finishRuns_does {pz : List Part} {s₀ : State} {gid : Nat} {c : Nat} {k : Nat} {s : State} (h_s : Does pz s₀ s)
    (hp : subParts [.groups, .prism] pz = true) : Does pz s₀ (finishRuns gid c k s) := by
  unfold finishRuns
  try dsimp only
  repeat' first
    | with_reducible assumption | with_reducible apply countWork_does | with_reducible apply modCh_does
    | exact subParts_of (by decide) hp | with_reducible apply does_fold | simp only [does_mk]
    | with_reducible refine moves_intro ?_ rfl ?_
    | ((with_reducible refine only_intro ?_); intro p hc; cases p <;> first
        | exact (clash hp (by decide) hc).elim | dsimp only [Same])
    | intro _ | split | with_reducible apply does_ite | with_reducible apply does_fst (by assumption) | dsimp only

theorem finishRows_does {pz : List Part} {s₀ : State} {gid : Nat} {c : Nat} {k : Nat} {s : State} {m : CollMember}
    (h_s : Does pz s₀ s) (hp : subParts [.groups, .prism] pz = true) : Does pz s₀ (finishRows gid c k s m) := by
  unfold finishRows
  try dsimp only
  repeat' first
    | with_reducible assumption | with_reducible apply countWork_does | with_reducible apply modRun_does
    | exact subParts_of (by decide) hp | with_reducible apply does_fold | simp only [does_mk]
    | with_reducible refine moves_intro ?_ rfl ?_
    | ((with_reducible refine only_intro ?_); intro p hc; cases p <;> first
        | exact (clash hp (by decide) hc).elim | dsimp only [Same])
    | intro _ | split | with_reducible apply does_ite | with_reducible apply does_fst (by assumption) | dsimp only

theorem clusterWork_does {pz : List Part} {s₀ : State} {gid : Nat} {c : Nat} {k : Nat} {s : State} (h_s : Does pz s₀
    s) (hp : subParts [.out, .facets, .arb, .groups, .prism, .fab, .eth, .pwr] pz = true) : Does pz s₀ (clusterWork
    gid c k s) := by
  unfold clusterWork
  try dsimp only
  repeat' first
    | with_reducible assumption | with_reducible apply finishAnchors_does | with_reducible apply finishNodes_does
    | with_reducible apply finishRows_does | with_reducible apply finishRuns_does
    | with_reducible apply finishSends_does | exact subParts_of (by decide) hp | with_reducible apply does_fold
    | simp only [does_mk] | with_reducible refine moves_intro ?_ rfl ?_
    | ((with_reducible refine only_intro ?_); intro p hc; cases p <;> first
        | exact (clash hp (by decide) hc).elim | dsimp only [Same])
    | intro _ | split | with_reducible apply does_ite | with_reducible apply does_fst (by assumption) | dsimp only

theorem sendConf_does {pz : List Part} {s₀ : State} {gid : Nat} {s : State} (h_s : Does pz s₀ s) (hp : subParts [.out,
    .facets, .arb, .groups, .fab, .eth, .pwr] pz = true) : Does pz s₀ (sendConf gid s) := by
  unfold sendConf
  try dsimp only
  repeat' first
    | with_reducible assumption | with_reducible apply modRun_does | with_reducible apply toAdapter_does
    | exact subParts_of (by decide) hp | with_reducible apply does_fold | simp only [does_mk]
    | with_reducible refine moves_intro ?_ rfl ?_
    | ((with_reducible refine only_intro ?_); intro p hc; cases p <;> first
        | exact (clash hp (by decide) hc).elim | dsimp only [Same])
    | intro _ | split | with_reducible apply does_ite | with_reducible apply does_fst (by assumption) | dsimp only

theorem sendCommit_does {pz : List Part} {s₀ : State} {gid : Nat} {l : List Nat} {s : State} (h_s : Does pz s₀ s) (hp
    : subParts [.out, .facets, .arb, .fab, .eth, .pwr] pz = true) : Does pz s₀ (sendCommit gid l s) := by
  unfold sendCommit
  try dsimp only
  repeat' first
    | with_reducible assumption | with_reducible apply toAdapters_does | exact subParts_of (by decide) hp
    | with_reducible apply does_fold | simp only [does_mk] | with_reducible refine moves_intro ?_ rfl ?_
    | ((with_reducible refine only_intro ?_); intro p hc; cases p <;> first
        | exact (clash hp (by decide) hc).elim | dsimp only [Same])
    | intro _ | split | with_reducible apply does_ite | with_reducible apply does_fst (by assumption) | dsimp only

theorem completeMembers_does {pz : List Part} {s₀ : State} {l : List CollMember} {st : CollMember → Status} {s :
    State} (h_s : Does pz s₀ s) (hp : subParts [.mem, .facets, .mirror, .memc, .pcx] pz = true) : Does pz s₀
    (completeMembers l st s) := by
  unfold completeMembers
  try dsimp only
  repeat' first
    | with_reducible assumption | with_reducible apply completeItem_does | with_reducible apply settle_does
    | exact subParts_of (by decide) hp | with_reducible apply does_fold | simp only [does_mk]
    | with_reducible refine moves_intro ?_ rfl ?_
    | ((with_reducible refine only_intro ?_); intro p hc; cases p <;> first
        | exact (clash hp (by decide) hc).elim | dsimp only [Same])
    | intro _ | split | with_reducible apply does_ite | with_reducible apply does_fst (by assumption) | dsimp only

theorem skipEnded_does {pz : List Part} {s₀ : State} {gid : Nat} {x0 : Nat} {x1 : State} (h_x1 : Does pz s₀ x1) (hp :
    subParts [.groups] pz = true) : Does pz s₀ (skipEnded gid x0 x1) := by
  induction x0 generalizing x1 with
  | zero =>
    unfold skipEnded
    try dsimp only
    repeat' first
      | with_reducible assumption | with_reducible apply modG_does | exact subParts_of (by decide) hp
      | with_reducible apply does_fold | simp only [does_mk] | with_reducible refine moves_intro ?_ rfl ?_
      | ((with_reducible refine only_intro ?_); intro p hc; cases p <;> first
          | exact (clash hp (by decide) hc).elim | dsimp only [Same])
      | intro _ | split | with_reducible apply does_ite | with_reducible apply does_fst (by assumption) | dsimp only
  | succ k ih =>
    unfold skipEnded
    try dsimp only
    repeat' first
      | with_reducible assumption | with_reducible apply ih | with_reducible apply modG_does
      | exact subParts_of (by decide) hp | with_reducible apply does_fold | simp only [does_mk]
      | with_reducible refine moves_intro ?_ rfl ?_
      | ((with_reducible refine only_intro ?_); intro p hc; cases p <;> first
          | exact (clash hp (by decide) hc).elim | dsimp only [Same])
      | intro _ | split | with_reducible apply does_ite | with_reducible apply does_fst (by assumption) | dsimp only

theorem beginRun_does {pz : List Part} {s₀ : State} {gid : Nat} {m : CollMember} {s : State} (h_s : Does pz s₀ s) (hp
    : subParts [.groups] pz = true) : Does pz s₀ (beginRun gid m s) := by
  unfold beginRun
  try dsimp only
  repeat' first
    | with_reducible assumption | with_reducible apply modG_does | exact subParts_of (by decide) hp
    | with_reducible apply does_fold | simp only [does_mk] | with_reducible refine moves_intro ?_ rfl ?_
    | ((with_reducible refine only_intro ?_); intro p hc; cases p <;> first
        | exact (clash hp (by decide) hc).elim | dsimp only [Same])
    | intro _ | split | with_reducible apply does_ite | with_reducible apply does_fst (by assumption) | dsimp only

theorem closeRun_does {pz : List Part} {s₀ : State} {gid : Nat} {degraded : Bool} {s : State} (h_s : Does pz s₀ s) (hp
    : subParts [.groups, .prism, .pwr] pz = true) : Does pz s₀ (closeRun gid degraded s) := by
  unfold closeRun
  try dsimp only
  repeat' first
    | with_reducible assumption | with_reducible apply modG_does | with_reducible apply noteBusy_does
    | with_reducible apply releaseIfDrained_does | with_reducible apply skipEnded_does
    | exact subParts_of (by decide) hp | with_reducible apply does_fold | simp only [does_mk]
    | with_reducible refine moves_intro ?_ rfl ?_
    | ((with_reducible refine only_intro ?_); intro p hc; cases p <;> first
        | exact (clash hp (by decide) hc).elim | dsimp only [Same])
    | intro _ | split | with_reducible apply does_ite | with_reducible apply does_fst (by assumption) | dsimp only

theorem endRun_does {pz : List Part} {s₀ : State} {gid : Nat} {b : Aborted} {s : State} (h_s : Does pz s₀ s) (hp :
    subParts [.mem, .facets, .mirror, .groups, .prism, .xlt, .memc, .pcx, .pwr] pz = true) : Does pz s₀ (endRun gid b
    s) := by
  unfold endRun
  try dsimp only
  repeat' first
    | with_reducible assumption | with_reducible apply closeRun_does | with_reducible apply completeMembers_does
    | with_reducible apply dropWaits_does | with_reducible apply modG_does | with_reducible apply skipEnded_does
    | exact subParts_of (by decide) hp | with_reducible apply does_fold | simp only [does_mk]
    | with_reducible refine moves_intro ?_ rfl ?_
    | ((with_reducible refine only_intro ?_); intro p hc; cases p <;> first
        | exact (clash hp (by decide) hc).elim | dsimp only [Same])
    | intro _ | split | with_reducible apply does_ite | with_reducible apply does_fst (by assumption) | dsimp only

theorem abortHere_does {pz : List Part} {s₀ : State} {gid : Nat} {b : Aborted} {s : State} (h_s : Does pz s₀ s) (hp :
    subParts [.mem, .facets, .mirror, .groups, .prism, .xlt, .memc, .pcx, .pwr] pz = true) : Does pz s₀ (abortHere gid
    b s) := by
  unfold abortHere
  try dsimp only
  repeat' first
    | with_reducible assumption | with_reducible apply completeMembers_does | with_reducible apply endRun_does
    | with_reducible apply modG_does | exact subParts_of (by decide) hp | with_reducible apply does_fold
    | simp only [does_mk] | with_reducible refine moves_intro ?_ rfl ?_
    | ((with_reducible refine only_intro ?_); intro p hc; cases p <;> first
        | exact (clash hp (by decide) hc).elim | dsimp only [Same])
    | intro _ | split | with_reducible apply does_ite | with_reducible apply does_fst (by assumption) | dsimp only

theorem sendAbort_does {pz : List Part} {s₀ : State} {gid : Nat} {csn : U32} {reason : Nat} {member : Nat} {s : State}
    (h_s : Does pz s₀ s) (hp : subParts [.out, .facets, .arb, .fab, .eth, .pwr] pz = true) : Does pz s₀ (sendAbort gid
    csn reason member s) := by
  unfold sendAbort
  try dsimp only
  repeat' first
    | with_reducible assumption | with_reducible apply toMember_does | exact subParts_of (by decide) hp
    | with_reducible apply does_fold | simp only [does_mk] | with_reducible refine moves_intro ?_ rfl ?_
    | ((with_reducible refine only_intro ?_); intro p hc; cases p <;> first
        | exact (clash hp (by decide) hc).elim | dsimp only [Same])
    | intro _ | split | with_reducible apply does_ite | with_reducible apply does_fst (by assumption) | dsimp only

theorem breakGroup_does {pz : List Part} {s₀ : State} {gid : Nat} {reason : Nat} {s : State} (h_s : Does pz s₀ s) (hp
    : subParts [.mem, .facets, .mirror, .groups, .prism, .xlt, .memc, .pcx, .pwr] pz = true) : Does pz s₀ (breakGroup
    gid reason s) := by
  unfold breakGroup
  try dsimp only
  repeat' first
    | with_reducible assumption | with_reducible apply dropWaiting_does | with_reducible apply endRun_does
    | with_reducible apply modG_does | exact subParts_of (by decide) hp | with_reducible apply does_fold
    | simp only [does_mk] | with_reducible refine moves_intro ?_ rfl ?_
    | ((with_reducible refine only_intro ?_); intro p hc; cases p <;> first
        | exact (clash hp (by decide) hc).elim | dsimp only [Same])
    | intro _ | split | with_reducible apply does_ite | with_reducible apply does_fst (by assumption) | dsimp only

theorem mismatch_does {pz : List Part} {s₀ : State} {gid : Nat} {s : State} (h_s : Does pz s₀ s) (hp : subParts [.out,
    .mem, .facets, .arb, .mirror, .groups, .prism, .fab, .xlt, .memc, .pcx, .eth, .pwr] pz = true) : Does pz s₀
    (mismatch gid s) := by
  unfold mismatch
  try dsimp only
  repeat' first
    | with_reducible assumption | with_reducible apply abortHere_does | with_reducible apply sendAbort_does
    | exact subParts_of (by decide) hp | with_reducible apply does_fold | simp only [does_mk]
    | with_reducible refine moves_intro ?_ rfl ?_
    | ((with_reducible refine only_intro ?_); intro p hc; cases p <;> first
        | exact (clash hp (by decide) hc).elim | dsimp only [Same])
    | intro _ | split | with_reducible apply does_ite | with_reducible apply does_fst (by assumption) | dsimp only

theorem takeHeld_does {pz : List Part} {s₀ : State} {gid : Nat} {y : Nat} {on : Bool} {s : State} (h_s : Does pz s₀ s)
    (hp : subParts [.groups] pz = true) : Does pz s₀ (takeHeld gid y on s) := by
  unfold takeHeld
  try dsimp only
  repeat' first
    | with_reducible assumption | with_reducible apply modRun_does | exact subParts_of (by decide) hp
    | with_reducible apply does_fold | simp only [does_mk] | with_reducible refine moves_intro ?_ rfl ?_
    | ((with_reducible refine only_intro ?_); intro p hc; cases p <;> first
        | exact (clash hp (by decide) hc).elim | dsimp only [Same])
    | intro _ | split | with_reducible apply does_ite | with_reducible apply does_fst (by assumption) | dsimp only

theorem reportHeld_does {pz : List Part} {s₀ : State} {gid : Nat} {s : State} (h_s : Does pz s₀ s) (hp : subParts
    [.out, .facets, .arb, .groups, .fab, .eth, .pwr] pz = true) : Does pz s₀ (reportHeld gid s) := by
  unfold reportHeld
  try dsimp only
  repeat' first
    | with_reducible assumption | with_reducible apply modRun_does | with_reducible apply takeHeld_does
    | with_reducible apply toAdapter_does | exact subParts_of (by decide) hp | with_reducible apply does_fold
    | simp only [does_mk] | with_reducible refine moves_intro ?_ rfl ?_
    | ((with_reducible refine only_intro ?_); intro p hc; cases p <;> first
        | exact (clash hp (by decide) hc).elim | dsimp only [Same])
    | intro _ | split | with_reducible apply does_ite | with_reducible apply does_fst (by assumption) | dsimp only

theorem commitTo_does {pz : List Part} {s₀ : State} {gid : Nat} {n : Nat} {s : State} (h_s : Does pz s₀ s) (hp :
    subParts [.out, .mem, .facets, .arb, .mirror, .groups, .prism, .fab, .memc, .pcx, .eth, .pwr] pz = true) : Does pz
    s₀ (commitTo gid n s) := by
  unfold commitTo
  try dsimp only
  repeat' first
    | with_reducible assumption | with_reducible apply closeRun_does | with_reducible apply completeMembers_does
    | with_reducible apply modRun_does | with_reducible apply sendCommit_does | exact subParts_of (by decide) hp
    | with_reducible apply does_fold | simp only [does_mk] | with_reducible refine moves_intro ?_ rfl ?_
    | ((with_reducible refine only_intro ?_); intro p hc; cases p <;> first
        | exact (clash hp (by decide) hc).elim | dsimp only [Same])
    | intro _ | split | with_reducible apply does_ite | with_reducible apply does_fst (by assumption) | dsimp only

theorem confirmStep_does {pz : List Part} {s₀ : State} {gid : Nat} {s : State} (h_s : Does pz s₀ s) (hp : subParts
    [.out, .mem, .facets, .arb, .mirror, .groups, .prism, .fab, .memc, .pcx, .eth, .pwr] pz = true) : Does pz s₀
    (confirmStep gid s) := by
  unfold confirmStep
  try dsimp only
  repeat' first
    | with_reducible assumption | with_reducible apply commitTo_does | with_reducible apply modRun_does
    | with_reducible apply sendConf_does | exact subParts_of (by decide) hp | with_reducible apply does_fold
    | simp only [does_mk] | with_reducible refine moves_intro ?_ rfl ?_
    | ((with_reducible refine only_intro ?_); intro p hc; cases p <;> first
        | exact (clash hp (by decide) hc).elim | dsimp only [Same])
    | intro _ | split | with_reducible apply does_ite | with_reducible apply does_fst (by assumption) | dsimp only

theorem pushRound_does {pz : List Part} {s₀ : State} {gid : Nat} {s : State} (h_s : Does pz s₀ s) (hp : subParts
    [.free, .out, .mem, .facets, .arb, .mirror, .groups, .grp, .prism, .fab, .xlt, .memc, .pcx, .eth, .pwr] pz = true)
    : Does pz s₀ (pushRound gid s) := by
  unfold pushRound
  try dsimp only
  repeat' first
    | with_reducible assumption | with_reducible apply anchorsArrive_does | with_reducible apply assignCluster_does
    | with_reducible apply confirmStep_does | with_reducible apply placePlain_does
    | with_reducible apply reportHeld_does | with_reducible apply startChunks_does | exact subParts_of (by decide) hp
    | with_reducible apply does_fold | simp only [does_mk] | with_reducible refine moves_intro ?_ rfl ?_
    | ((with_reducible refine only_intro ?_); intro p hc; cases p <;> first
        | exact (clash hp (by decide) hc).elim | dsimp only [Same])
    | intro _ | split | with_reducible apply does_ite | with_reducible apply does_fst (by assumption) | dsimp only

theorem pushColl_does {pz : List Part} {s₀ : State} {x0 : Nat} {x1 : Nat} {x2 : State} (h_x2 : Does pz s₀ x2) (hp :
    subParts [.free, .out, .mem, .facets, .arb, .mirror, .groups, .grp, .prism, .fab, .xlt, .memc, .pcx, .eth, .pwr]
    pz = true) : Does pz s₀ (pushColl x0 x1 x2) := by
  induction x0 generalizing x1 x2 with
  | zero =>
    unfold pushColl
    try dsimp only
    repeat' first
      | with_reducible assumption | with_reducible apply pushRound_does | exact subParts_of (by decide) hp
      | with_reducible apply does_fold | simp only [does_mk] | with_reducible refine moves_intro ?_ rfl ?_
      | ((with_reducible refine only_intro ?_); intro p hc; cases p <;> first
          | exact (clash hp (by decide) hc).elim | dsimp only [Same])
      | intro _ | split | with_reducible apply does_ite | with_reducible apply does_fst (by assumption) | dsimp only
  | succ k ih =>
    unfold pushColl
    try dsimp only
    repeat' first
      | with_reducible assumption | with_reducible apply ih | with_reducible apply pushRound_does
      | exact subParts_of (by decide) hp | with_reducible apply does_fold | simp only [does_mk]
      | with_reducible refine moves_intro ?_ rfl ?_
      | ((with_reducible refine only_intro ?_); intro p hc; cases p <;> first
          | exact (clash hp (by decide) hc).elim | dsimp only [Same])
      | intro _ | split | with_reducible apply does_ite | with_reducible apply does_fst (by assumption) | dsimp only

theorem sendCounts_does {pz : List Part} {s₀ : State} {gid : Nat} {only : Option Nat} {m : CollMember} {s : State}
    (h_s : Does pz s₀ s) (hp : subParts [.out, .facets, .arb, .groups, .fab, .eth, .pwr] pz = true) : Does pz s₀
    (sendCounts gid only m s) := by
  unfold sendCounts
  try dsimp only
  repeat' first
    | with_reducible assumption | with_reducible apply modRun_does | with_reducible apply toMember_does
    | exact subParts_of (by decide) hp | with_reducible apply does_fold | simp only [does_mk]
    | with_reducible refine moves_intro ?_ rfl ?_
    | ((with_reducible refine only_intro ?_); intro p hc; cases p <;> first
        | exact (clash hp (by decide) hc).elim | dsimp only [Same])
    | intro _ | split | with_reducible apply does_ite | with_reducible apply does_fst (by assumption) | dsimp only

theorem sendFlag_does {pz : List Part} {s₀ : State} {gid : Nat} {only : Option Nat} {csn : U32} {sig : U32} {i : Nat}
    {ov : Bool} {s : State} (h_s : Does pz s₀ s) (hp : subParts [.out, .facets, .arb, .fab, .eth, .pwr] pz = true) :
    Does pz s₀ (sendFlag gid only csn sig i ov s) := by
  unfold sendFlag
  try dsimp only
  repeat' first
    | with_reducible assumption | with_reducible apply toMember_does | exact subParts_of (by decide) hp
    | with_reducible apply does_fold | simp only [does_mk] | with_reducible refine moves_intro ?_ rfl ?_
    | ((with_reducible refine only_intro ?_); intro p hc; cases p <;> first
        | exact (clash hp (by decide) hc).elim | dsimp only [Same])
    | intro _ | split | with_reducible apply does_ite | with_reducible apply does_fst (by assumption) | dsimp only

theorem flagsKnown_does {pz : List Part} {s₀ : State} {gid : Nat} {s : State} (h_s : Does pz s₀ s) (hp : subParts
    [.free, .out, .mem, .facets, .arb, .mirror, .groups, .grp, .prism, .fab, .xlt, .memc, .pcx, .eth, .pwr] pz = true)
    : Does pz s₀ (flagsKnown gid s) := by
  unfold flagsKnown
  try dsimp only
  repeat' first
    | with_reducible assumption | with_reducible apply endRun_does | with_reducible apply modRun_does
    | with_reducible apply pushColl_does | exact subParts_of (by decide) hp | with_reducible apply does_fold
    | simp only [does_mk] | with_reducible refine moves_intro ?_ rfl ?_
    | ((with_reducible refine only_intro ?_); intro p hc; cases p <;> first
        | exact (clash hp (by decide) hc).elim | dsimp only [Same])
    | intro _ | split | with_reducible apply does_ite | with_reducible apply does_fst (by assumption) | dsimp only

theorem countsWritten_does {pz : List Part} {s₀ : State} {gid : Nat} {i : Nat} {s : State} (h_s : Does pz s₀ s) (hp :
    subParts [.free, .out, .mem, .facets, .arb, .mirror, .groups, .grp, .prism, .fab, .xlt, .memc, .pcx, .eth, .pwr]
    pz = true) : Does pz s₀ (countsWritten gid i s) := by
  unfold countsWritten
  try dsimp only
  repeat' first
    | with_reducible assumption | with_reducible apply flagsKnown_does | with_reducible apply modRun_does
    | with_reducible apply sendFlag_does | exact subParts_of (by decide) hp | with_reducible apply does_fold
    | simp only [does_mk] | with_reducible refine moves_intro ?_ rfl ?_
    | ((with_reducible refine only_intro ?_); intro p hc; cases p <;> first
        | exact (clash hp (by decide) hc).elim | dsimp only [Same])
    | intro _ | split | with_reducible apply does_ite | with_reducible apply does_fst (by assumption) | dsimp only

theorem countStep_does {pz : List Part} {s₀ : State} {gid : Nat} {s : State} {i : Nat} (h_s : Does pz s₀ s) (hp :
    subParts [.free, .out, .mem, .facets, .arb, .mirror, .groups, .grp, .prism, .fab, .xlt, .memc, .pcx, .eth, .pwr]
    pz = true) : Does pz s₀ (countStep gid s i) := by
  unfold countStep
  try dsimp only
  repeat' first
    | with_reducible assumption | with_reducible apply countsWritten_does | with_reducible apply mismatch_does
    | with_reducible apply modRun_does | with_reducible apply postAll_does | with_reducible apply translate_does
    | exact subParts_of (by decide) hp | with_reducible apply does_fold | simp only [does_mk]
    | with_reducible refine moves_intro ?_ rfl ?_
    | ((with_reducible refine only_intro ?_); intro p hc; cases p <;> first
        | exact (clash hp (by decide) hc).elim | dsimp only [Same])
    | intro _ | split | with_reducible apply does_ite | with_reducible apply does_fst (by assumption) | dsimp only

theorem countSteps_does {pz : List Part} {s₀ : State} {gid : Nat} {s : State} (h_s : Does pz s₀ s) (hp : subParts
    [.free, .out, .mem, .facets, .arb, .mirror, .groups, .grp, .prism, .fab, .xlt, .memc, .pcx, .eth, .pwr] pz = true)
    : Does pz s₀ (countSteps gid s) := by
  unfold countSteps
  try dsimp only
  repeat' first
    | with_reducible assumption | with_reducible apply countStep_does | with_reducible apply countsWritten_does
    | exact subParts_of (by decide) hp | with_reducible apply does_fold | simp only [does_mk]
    | with_reducible refine moves_intro ?_ rfl ?_
    | ((with_reducible refine only_intro ?_); intro p hc; cases p <;> first
        | exact (clash hp (by decide) hc).elim | dsimp only [Same])
    | intro _ | split | with_reducible apply does_ite | with_reducible apply does_fst (by assumption) | dsimp only

theorem wakeColl_does {pz : List Part} {s₀ : State} {gid : Nat} {s : State} (h_s : Does pz s₀ s) (hp : subParts
    [.free, .out, .mem, .facets, .arb, .mirror, .groups, .grp, .prism, .fab, .xlt, .memc, .pcx, .eth, .pwr] pz = true)
    : Does pz s₀ (wakeColl gid s) := by
  unfold wakeColl
  try dsimp only
  repeat' first
    | with_reducible assumption | with_reducible apply countSteps_does | with_reducible apply pushColl_does
    | exact subParts_of (by decide) hp | with_reducible apply does_fold | simp only [does_mk]
    | with_reducible refine moves_intro ?_ rfl ?_
    | ((with_reducible refine only_intro ?_); intro p hc; cases p <;> first
        | exact (clash hp (by decide) hc).elim | dsimp only [Same])
    | intro _ | split | with_reducible apply does_ite | with_reducible apply does_fst (by assumption) | dsimp only

theorem joinRun_does {pz : List Part} {s₀ : State} {gid : Nat} {m : CollMember} {s : State} (h_s : Does pz s₀ s) (hp :
    subParts [.out, .mem, .facets, .arb, .mirror, .groups, .grp, .prism, .fab, .xlt, .memc, .pcx, .eth, .pwr] pz =
    true) : Does pz s₀ (joinRun gid m s) := by
  unfold joinRun
  try dsimp only
  repeat' first
    | with_reducible assumption | with_reducible apply mismatch_does | with_reducible apply modRun_does
    | with_reducible apply sendCounts_does | exact subParts_of (by decide) hp | with_reducible apply does_fold
    | simp only [does_mk] | with_reducible refine moves_intro ?_ rfl ?_
    | ((with_reducible refine only_intro ?_); intro p hc; cases p <;> first
        | exact (clash hp (by decide) hc).elim | dsimp only [Same])
    | intro _ | split | with_reducible apply does_ite | with_reducible apply does_fst (by assumption) | dsimp only

theorem startNext_does {pz : List Part} {s₀ : State} {gid : Nat} {x0 : Nat} {x1 : State} (h_x1 : Does pz s₀ x1) (hp :
    subParts [.out, .mem, .facets, .arb, .mirror, .groups, .grp, .prism, .fab, .xlt, .memc, .pcx, .eth, .pwr] pz =
    true) : Does pz s₀ (startNext gid x0 x1) := by
  induction x0 generalizing x1 with
  | zero =>
    unfold startNext
    try dsimp only
    repeat' first
      | with_reducible assumption | with_reducible apply beginRun_does | with_reducible apply joinRun_does
      | with_reducible apply modG_does | exact subParts_of (by decide) hp | with_reducible apply does_fold
      | simp only [does_mk] | with_reducible refine moves_intro ?_ rfl ?_
      | ((with_reducible refine only_intro ?_); intro p hc; cases p <;> first
          | exact (clash hp (by decide) hc).elim | dsimp only [Same])
      | intro _ | split | with_reducible apply does_ite | with_reducible apply does_fst (by assumption) | dsimp only
  | succ k ih =>
    unfold startNext
    try dsimp only
    repeat' first
      | with_reducible assumption | with_reducible apply ih | with_reducible apply beginRun_does
      | with_reducible apply joinRun_does | with_reducible apply modG_does | exact subParts_of (by decide) hp
      | with_reducible apply does_fold | simp only [does_mk] | with_reducible refine moves_intro ?_ rfl ?_
      | ((with_reducible refine only_intro ?_); intro p hc; cases p <;> first
          | exact (clash hp (by decide) hc).elim | dsimp only [Same])
      | intro _ | split | with_reducible apply does_ite | with_reducible apply does_fst (by assumption) | dsimp only

theorem runLoop_does {pz : List Part} {s₀ : State} {gid : Nat} {x0 : Nat} {x1 : State} (h_x1 : Does pz s₀ x1) (hp :
    subParts [.free, .out, .mem, .facets, .arb, .mirror, .groups, .grp, .prism, .fab, .xlt, .memc, .pcx, .eth, .pwr]
    pz = true) : Does pz s₀ (runLoop gid x0 x1) := by
  induction x0 generalizing x1 with
  | zero =>
    unfold runLoop
    try dsimp only
    repeat' first
      | with_reducible assumption | with_reducible apply startNext_does | with_reducible apply wakeColl_does
      | exact subParts_of (by decide) hp | with_reducible apply does_fold | simp only [does_mk]
      | with_reducible refine moves_intro ?_ rfl ?_
      | ((with_reducible refine only_intro ?_); intro p hc; cases p <;> first
          | exact (clash hp (by decide) hc).elim | dsimp only [Same])
      | intro _ | split | with_reducible apply does_ite | with_reducible apply does_fst (by assumption) | dsimp only
  | succ k ih =>
    unfold runLoop
    try dsimp only
    repeat' first
      | with_reducible assumption | with_reducible apply ih | with_reducible apply startNext_does
      | with_reducible apply wakeColl_does | exact subParts_of (by decide) hp | with_reducible apply does_fold
      | simp only [does_mk] | with_reducible refine moves_intro ?_ rfl ?_
      | ((with_reducible refine only_intro ?_); intro p hc; cases p <;> first
          | exact (clash hp (by decide) hc).elim | dsimp only [Same])
      | intro _ | split | with_reducible apply does_ite | with_reducible apply does_fst (by assumption) | dsimp only

theorem runGroup_does {pz : List Part} {s₀ : State} {gid : Nat} {s : State} (h_s : Does pz s₀ s) (hp : subParts
    [.free, .out, .mem, .facets, .arb, .mirror, .groups, .grp, .prism, .fab, .xlt, .memc, .pcx, .eth, .pwr] pz = true)
    : Does pz s₀ (runGroup gid s) := by
  unfold runGroup
  try dsimp only
  repeat' first
    | with_reducible assumption | with_reducible apply runLoop_does | exact subParts_of (by decide) hp
    | with_reducible apply does_fold | simp only [does_mk] | with_reducible refine moves_intro ?_ rfl ?_
    | ((with_reducible refine only_intro ?_); intro p hc; cases p <;> first
        | exact (clash hp (by decide) hc).elim | dsimp only [Same])
    | intro _ | split | with_reducible apply does_ite | with_reducible apply does_fst (by assumption) | dsimp only

theorem wakeColls_does {pz : List Part} {s₀ : State} {s : State} (h_s : Does pz s₀ s) (hp : subParts [.free, .out,
    .mem, .facets, .arb, .mirror, .groups, .grp, .prism, .fab, .xlt, .memc, .pcx, .eth, .pwr] pz = true) : Does pz s₀
    (wakeColls s) := by
  unfold wakeColls
  try dsimp only
  repeat' first
    | with_reducible assumption | with_reducible apply runGroup_does | exact subParts_of (by decide) hp
    | with_reducible apply does_fold | simp only [does_mk] | with_reducible refine moves_intro ?_ rfl ?_
    | ((with_reducible refine only_intro ?_); intro p hc; cases p <;> first
        | exact (clash hp (by decide) hc).elim | dsimp only [Same])
    | intro _ | split | with_reducible apply does_ite | with_reducible apply does_fst (by assumption) | dsimp only

theorem resendChunk_does {pz : List Part} {s₀ : State} {gid : Nat} {c : Nat} {only : Option Nat} {s : State} (h_s :
    Does pz s₀ s) (hp : subParts [.out, .facets, .arb, .groups, .grp, .fab, .eth, .pwr] pz = true) : Does pz s₀
    (resendChunk gid c only s) := by
  unfold resendChunk
  try dsimp only
  repeat' first
    | with_reducible assumption | with_reducible apply putStream_does | with_reducible apply sendAnchors_does
    | with_reducible apply sendData_does | with_reducible apply sendNode_does | with_reducible apply sendResult_does
    | exact subParts_of (by decide) hp | with_reducible apply does_fold | simp only [does_mk]
    | with_reducible refine moves_intro ?_ rfl ?_
    | ((with_reducible refine only_intro ?_); intro p hc; cases p <;> first
        | exact (clash hp (by decide) hc).elim | dsimp only [Same])
    | intro _ | split | with_reducible apply does_ite | with_reducible apply does_fst (by assumption) | dsimp only

theorem resendLost_does {pz : List Part} {s₀ : State} {s : State} (h_s : Does pz s₀ s) (hp : subParts [.out, .facets,
    .arb, .groups, .grp, .fab, .eth, .pwr] pz = true) : Does pz s₀ (resendLost s) := by
  unfold resendLost
  try dsimp only
  repeat' first
    | with_reducible assumption | with_reducible apply resendChunk_does | exact subParts_of (by decide) hp
    | with_reducible apply does_fold | simp only [does_mk] | with_reducible refine moves_intro ?_ rfl ?_
    | ((with_reducible refine only_intro ?_); intro p hc; cases p <;> first
        | exact (clash hp (by decide) hc).elim | dsimp only [Same])
    | intro _ | split | with_reducible apply does_ite | with_reducible apply does_fst (by assumption) | dsimp only

theorem askChunk_does {pz : List Part} {s₀ : State} {gid : Nat} {c : Nat} {ys : List Nat} {s : State} (h_s : Does pz
    s₀ s) (hp : subParts [.out, .facets, .arb, .groups, .fab, .eth, .pwr] pz = true) : Does pz s₀ (askChunk gid c ys
    s) := by
  unfold askChunk
  try dsimp only
  repeat' first
    | with_reducible assumption | with_reducible apply modCh_does | with_reducible apply toAdapters_does
    | exact subParts_of (by decide) hp | with_reducible apply does_fold | simp only [does_mk]
    | with_reducible refine moves_intro ?_ rfl ?_
    | ((with_reducible refine only_intro ?_); intro p hc; cases p <;> first
        | exact (clash hp (by decide) hc).elim | dsimp only [Same])
    | intro _ | split | with_reducible apply does_ite | with_reducible apply does_fst (by assumption) | dsimp only

theorem askCounts_does {pz : List Part} {s₀ : State} {gid : Nat} {s : State} (h_s : Does pz s₀ s) (hp : subParts
    [.out, .facets, .arb, .groups, .fab, .eth, .pwr] pz = true) : Does pz s₀ (askCounts gid s) := by
  unfold askCounts
  try dsimp only
  repeat' first
    | with_reducible assumption | with_reducible apply askChunk_does | exact subParts_of (by decide) hp
    | with_reducible apply does_fold | simp only [does_mk] | with_reducible refine moves_intro ?_ rfl ?_
    | ((with_reducible refine only_intro ?_); intro p hc; cases p <;> first
        | exact (clash hp (by decide) hc).elim | dsimp only [Same])
    | intro _ | split | with_reducible apply does_ite | with_reducible apply does_fst (by assumption) | dsimp only

theorem rollBack_does {pz : List Part} {s₀ : State} {gid : Nat} {n : Nat} {s : State} (h_s : Does pz s₀ s) (hp :
    subParts [.free, .out, .mem, .facets, .arb, .mirror, .groups, .grp, .prism, .fab, .xlt, .memc, .pcx, .eth, .pwr]
    pz = true) : Does pz s₀ (rollBack gid n s) := by
  unfold rollBack
  try dsimp only
  repeat' first
    | with_reducible assumption | with_reducible apply modRun_does | with_reducible apply runGroup_does
    | exact subParts_of (by decide) hp | with_reducible apply does_fold | simp only [does_mk]
    | with_reducible refine moves_intro ?_ rfl ?_
    | ((with_reducible refine only_intro ?_); intro p hc; cases p <;> first
        | exact (clash hp (by decide) hc).elim | dsimp only [Same])
    | intro _ | split | with_reducible apply does_ite | with_reducible apply does_fst (by assumption) | dsimp only

theorem rollAll_does {pz : List Part} {s₀ : State} {gid : Nat} {s : State} (h_s : Does pz s₀ s) (hp : subParts [.free,
    .out, .mem, .facets, .arb, .mirror, .groups, .grp, .prism, .fab, .xlt, .memc, .pcx, .eth, .pwr] pz = true) : Does
    pz s₀ (rollAll gid s) := by
  unfold rollAll
  try dsimp only
  repeat' first
    | with_reducible assumption | with_reducible apply rollBack_does | with_reducible apply toAdapters_does
    | exact subParts_of (by decide) hp | with_reducible apply does_fold | simp only [does_mk]
    | with_reducible refine moves_intro ?_ rfl ?_
    | ((with_reducible refine only_intro ?_); intro p hc; cases p <;> first
        | exact (clash hp (by decide) hc).elim | dsimp only [Same])
    | intro _ | split | with_reducible apply does_ite | with_reducible apply does_fst (by assumption) | dsimp only

end Sys2Proof.Machine
end

