-- ==== Sys2Proof/Laws/SvaysFrame.lean ====
section
/-!
SUPPORT. What each operation of Machine/Svays.lean may change: one lemma per operation.
-/
set_option linter.unusedTactic false
set_option linter.unreachableTactic false
set_option linter.unusedSimpArgs false
set_option linter.unusedVariables false

namespace Sys2Proof.Machine

theorem fromState_does {pz : List Part} {s₀ : State} {n : Nat} {l : List LState} {g : State → State} {s : State} (h_g
    : ∀ s, Does pz s₀ s → Does pz s₀ (g s)) (h_s : Does pz s₀ s) (hp : subParts [] pz = true) : Does pz s₀ (fromState
    n l g s) := by
  unfold fromState
  try dsimp only
  repeat' first
    | with_reducible assumption | with_reducible apply does_when | with_reducible apply h_g
    | exact subParts_of (by decide) hp | with_reducible apply does_fold | simp only [does_mk]
    | with_reducible refine moves_intro ?_ rfl ?_
    | ((with_reducible refine only_intro ?_); intro p hc; cases p <;> first
        | exact (clash hp (by decide) hc).elim | dsimp only [Same])
    | intro _ | split | with_reducible apply does_ite | with_reducible apply does_fst (by assumption) | dsimp only

theorem idleFlit_does {pz : List Part} {s₀ : State} {n : Nat} {s : State} (h_s : Does pz s₀ s) (hp : subParts [.out,
    .fab] pz = true) : Does pz s₀ (idleFlit n s) := by
  unfold idleFlit
  try dsimp only
  repeat' first
    | with_reducible assumption | with_reducible apply putFlit_does | exact subParts_of (by decide) hp
    | with_reducible apply does_fold | simp only [does_mk] | with_reducible refine moves_intro ?_ rfl ?_
    | ((with_reducible refine only_intro ?_); intro p hc; cases p <;> first
        | exact (clash hp (by decide) hc).elim | dsimp only [Same])
    | intro _ | split | with_reducible apply does_ite | with_reducible apply does_fst (by assumption) | dsimp only

theorem activate_does {pz : List Part} {s₀ : State} {n : Nat} {farActive : Bool} {s : State} (h_s : Does pz s₀ s) (hp
    : subParts [.out, .fab, .pwr] pz = true) : Does pz s₀ (activate n farActive s) := by
  unfold activate
  try dsimp only
  repeat' first
    | with_reducible assumption | with_reducible apply emit_does | with_reducible apply idleFlit_does
    | with_reducible apply modL_does | with_reducible apply tellHops_does | exact subParts_of (by decide) hp
    | with_reducible apply does_fold | simp only [does_mk] | with_reducible refine moves_intro ?_ rfl ?_
    | ((with_reducible refine only_intro ?_); intro p hc; cases p <;> first
        | exact (clash hp (by decide) hc).elim | dsimp only [Same])
    | intro _ | split | with_reducible apply does_ite | with_reducible apply does_fst (by assumption) | dsimp only

theorem farWord_does {pz : List Part} {s₀ : State} {n : Nat} {lw : BitVec 40} {s : State} (h_s : Does pz s₀ s) (hp :
    subParts [.out, .grp, .fab, .agl, .err, .pwr] pz = true) : Does pz s₀ (farWord n lw s) := by
  unfold farWord
  try dsimp only
  repeat' first
    | with_reducible assumption | with_reducible apply activate_does | with_reducible apply collect_does
    | with_reducible apply linkDown_does | with_reducible apply linkTo_does | with_reducible apply modL_does
    | exact subParts_of (by decide) hp | with_reducible apply does_fold | simp only [does_mk]
    | with_reducible refine moves_intro ?_ rfl ?_
    | ((with_reducible refine only_intro ?_); intro p hc; cases p <;> first
        | exact (clash hp (by decide) hc).elim | dsimp only [Same])
    | intro _ | split | with_reducible apply does_ite | with_reducible apply does_fst (by assumption) | dsimp only

theorem maySleep_does {pz : List Part} {s₀ : State} {n : Nat} {s : State} (h_s : Does pz s₀ s) (hp : subParts [.out,
    .fab, .pwr] pz = true) : Does pz s₀ (maySleep n s) := by
  unfold maySleep
  try dsimp only
  repeat' first
    | with_reducible assumption | with_reducible apply emit_does | with_reducible apply linkQuit_does
    | exact subParts_of (by decide) hp | with_reducible apply does_fold | simp only [does_mk]
    | with_reducible refine moves_intro ?_ rfl ?_
    | ((with_reducible refine only_intro ?_); intro p hc; cases p <;> first
        | exact (clash hp (by decide) hc).elim | dsimp only [Same])
    | intro _ | split | with_reducible apply does_ite | with_reducible apply does_fst (by assumption) | dsimp only

theorem ackFlits_does {pz : List Part} {s₀ : State} {n : Nat} {ack : BitVec 12} {s : State} (h_s : Does pz s₀ s) (hp :
    subParts [.fab] pz = true) : Does pz s₀ (ackFlits n ack s) := by
  unfold ackFlits
  try dsimp only
  repeat' first
    | with_reducible assumption | with_reducible apply modL_does | exact subParts_of (by decide) hp
    | with_reducible apply does_fold | simp only [does_mk] | with_reducible refine moves_intro ?_ rfl ?_
    | ((with_reducible refine only_intro ?_); intro p hc; cases p <;> first
        | exact (clash hp (by decide) hc).elim | dsimp only [Same])
    | intro _ | split | with_reducible apply does_ite | with_reducible apply does_fst (by assumption) | dsimp only

theorem replayFlits_does {pz : List Part} {s₀ : State} {n : Nat} {x0 : Bool} {x1 : List TxFlit} {x2 : State} (h_x2 :
    Does pz s₀ x2) (hp : subParts [.out, .fab] pz = true) : Does pz s₀ (replayFlits n x0 x1 x2) := by
  induction x1 generalizing x0 x2 with
  | nil =>
    unfold replayFlits
    try dsimp only
    repeat' first
      | with_reducible assumption | with_reducible apply modL_does | with_reducible apply putFlit_does
      | exact subParts_of (by decide) hp | with_reducible apply does_fold | simp only [does_mk]
      | with_reducible refine moves_intro ?_ rfl ?_
      | ((with_reducible refine only_intro ?_); intro p hc; cases p <;> first
          | exact (clash hp (by decide) hc).elim | dsimp only [Same])
      | intro _ | split | with_reducible apply does_ite | with_reducible apply does_fst (by assumption) | dsimp only
  | cons y r ih =>
    unfold replayFlits
    try dsimp only
    repeat' first
      | with_reducible assumption | with_reducible apply ih | with_reducible apply modL_does
      | with_reducible apply putFlit_does | exact subParts_of (by decide) hp | with_reducible apply does_fold
      | simp only [does_mk] | with_reducible refine moves_intro ?_ rfl ?_
      | ((with_reducible refine only_intro ?_); intro p hc; cases p <;> first
          | exact (clash hp (by decide) hc).elim | dsimp only [Same])
      | intro _ | split | with_reducible apply does_ite | with_reducible apply does_fst (by assumption) | dsimp only

theorem replay_does {pz : List Part} {s₀ : State} {n : Nat} {s : State} (h_s : Does pz s₀ s) (hp : subParts [.out,
    .grp, .fab, .agl, .err, .pwr] pz = true) : Does pz s₀ (replay n s) := by
  unfold replay
  try dsimp only
  repeat' first
    | with_reducible assumption | with_reducible apply linkDown_does | with_reducible apply modL_does
    | with_reducible apply replayFlits_does | exact subParts_of (by decide) hp | with_reducible apply does_fold
    | simp only [does_mk] | with_reducible refine moves_intro ?_ rfl ?_
    | ((with_reducible refine only_intro ?_); intro p hc; cases p <;> first
        | exact (clash hp (by decide) hc).elim | dsimp only [Same])
    | intro _ | split | with_reducible apply does_ite | with_reducible apply does_fst (by assumption) | dsimp only

theorem takeFcw_does {pz : List Part} {s₀ : State} {n : Nat} {c : Fcw} {s : State} (h_s : Does pz s₀ s) (hp : subParts
    [.out, .grp, .fab, .agl, .err, .pwr] pz = true) : Does pz s₀ (takeFcw n c s) := by
  unfold takeFcw
  try dsimp only
  repeat' first
    | with_reducible assumption | with_reducible apply ackFlits_does | with_reducible apply modL_does
    | with_reducible apply replay_does | exact subParts_of (by decide) hp | with_reducible apply does_fold
    | simp only [does_mk] | with_reducible refine moves_intro ?_ rfl ?_
    | ((with_reducible refine only_intro ?_); intro p hc; cases p <;> first
        | exact (clash hp (by decide) hc).elim | dsimp only [Same])
    | intro _ | split | with_reducible apply does_ite | with_reducible apply does_fst (by assumption) | dsimp only

theorem arrive_does {pz : List Part} {s₀ : State} {n : Nat} {s : State} {p : RouteHdr × Bytes} (h_s : Does pz s₀ s)
    (hp : subParts [.out, .fab, .eth, .pwr] pz = true) : Does pz s₀ (arrive n s p) := by
  unfold arrive
  try dsimp only
  repeat' first
    | with_reducible assumption | with_reducible apply emit_does | with_reducible apply routeNotice_does
    | with_reducible apply routePacket_does | exact subParts_of (by decide) hp | with_reducible apply does_fold
    | simp only [does_mk] | with_reducible refine moves_intro ?_ rfl ?_
    | ((with_reducible refine only_intro ?_); intro p hc; cases p <;> first
        | exact (clash hp (by decide) hc).elim | dsimp only [Same])
    | intro _ | split | with_reducible apply does_ite | with_reducible apply does_fst (by assumption) | dsimp only

theorem noteLost_does {pz : List Part} {s₀ : State} {n : Nat} {v : Nat} {s : State} (h_s : Does pz s₀ s) (hp :
    subParts [.fab] pz = true) : Does pz s₀ (noteLost n v s) := by
  unfold noteLost
  try dsimp only
  repeat' first
    | with_reducible assumption | with_reducible apply modL_does | exact subParts_of (by decide) hp
    | with_reducible apply does_fold | simp only [does_mk] | with_reducible refine moves_intro ?_ rfl ?_
    | ((with_reducible refine only_intro ?_); intro p hc; cases p <;> first
        | exact (clash hp (by decide) hc).elim | dsimp only [Same])
    | intro _ | split | with_reducible apply does_ite | with_reducible apply does_fst (by assumption) | dsimp only

theorem takePayload_does {pz : List Part} {s₀ : State} {n : Nat} {v : Nat} {first : Byte} {bs : Bytes} {s : State}
    (h_s : Does pz s₀ s) (hp : subParts [.out, .fab, .eth, .pwr] pz = true) : Does pz s₀ (takePayload n v first bs s)
    := by
  unfold takePayload
  try dsimp only
  repeat' first
    | with_reducible assumption | with_reducible apply arrive_does | with_reducible apply modL_does
    | with_reducible apply noteLost_does | exact subParts_of (by decide) hp | with_reducible apply does_fold
    | simp only [does_mk] | with_reducible refine moves_intro ?_ rfl ?_
    | ((with_reducible refine only_intro ?_); intro p hc; cases p <;> first
        | exact (clash hp (by decide) hc).elim | dsimp only [Same])
    | intro _ | split | with_reducible apply does_ite | with_reducible apply does_fst (by assumption) | dsimp only

theorem badFlit_does {pz : List Part} {s₀ : State} {n : Nat} {s : State} (h_s : Does pz s₀ s) (hp : subParts [.fab] pz
    = true) : Does pz s₀ (badFlit n s) := by
  unfold badFlit
  try dsimp only
  repeat' first
    | with_reducible assumption | with_reducible apply modL_does | exact subParts_of (by decide) hp
    | with_reducible apply does_fold | simp only [does_mk] | with_reducible refine moves_intro ?_ rfl ?_
    | ((with_reducible refine only_intro ?_); intro p hc; cases p <;> first
        | exact (clash hp (by decide) hc).elim | dsimp only [Same])
    | intro _ | split | with_reducible apply does_ite | with_reducible apply does_fst (by assumption) | dsimp only

theorem retrySeq_does {pz : List Part} {s₀ : State} {n : Nat} {c : Fcw} {s : State} (h_s : Does pz s₀ s) (hp :
    subParts [.fab] pz = true) : Does pz s₀ (retrySeq n c s).1 := by
  unfold retrySeq
  try dsimp only
  repeat' first
    | with_reducible assumption | with_reducible apply modL_does | exact subParts_of (by decide) hp
    | with_reducible apply does_fold | simp only [does_mk] | with_reducible refine moves_intro ?_ rfl ?_
    | ((with_reducible refine only_intro ?_); intro p hc; cases p <;> first
        | exact (clash hp (by decide) hc).elim | dsimp only [Same])
    | intro _ | split | with_reducible apply does_ite | with_reducible apply does_fst (by assumption) | dsimp only

theorem dropSeq_does {pz : List Part} {s₀ : State} {n : Nat} {c : Fcw} {s : State} (h_s : Does pz s₀ s) (hp : subParts
    [.fab] pz = true) : Does pz s₀ (dropSeq n c s).1 := by
  unfold dropSeq
  try dsimp only
  repeat' first
    | with_reducible assumption | with_reducible apply modL_does | exact subParts_of (by decide) hp
    | with_reducible apply does_fold | simp only [does_mk] | with_reducible refine moves_intro ?_ rfl ?_
    | ((with_reducible refine only_intro ?_); intro p hc; cases p <;> first
        | exact (clash hp (by decide) hc).elim | dsimp only [Same])
    | intro _ | split | with_reducible apply does_ite | with_reducible apply does_fst (by assumption) | dsimp only

theorem recvFlit_does {pz : List Part} {s₀ : State} {n : Nat} {unc : Nat} {corr : Nat} {forced : Bool} {ctrl : BitVec
    128} {bs : Bytes} {s : State} (h_s : Does pz s₀ s) (hp : subParts [.out, .grp, .fab, .eth, .agl, .err, .pwr] pz =
    true) : Does pz s₀ (recvFlit n unc corr forced ctrl bs s) := by
  unfold recvFlit
  try dsimp only
  repeat' first
    | with_reducible assumption | with_reducible apply badFlit_does | with_reducible apply collect_does
    | with_reducible apply dropSeq_does | with_reducible apply idleFlit_does | with_reducible apply linkDown_does
    | with_reducible apply maySleep_does | with_reducible apply modL_does | with_reducible apply pump_does
    | with_reducible apply retrySeq_does | with_reducible apply takeFcw_does | with_reducible apply takePayload_does
    | exact subParts_of (by decide) hp | with_reducible apply does_fold | simp only [does_mk]
    | with_reducible refine moves_intro ?_ rfl ?_
    | ((with_reducible refine only_intro ?_); intro p hc; cases p <;> first
        | exact (clash hp (by decide) hc).elim | dsimp only [Same])
    | intro _ | split | with_reducible apply does_ite | with_reducible apply does_fst (by assumption) | dsimp only

theorem onFlit_does {pz : List Part} {s₀ : State} {n : Nat} {unc : Nat} {corr : Nat} {ctrl : BitVec 128} {bs : Bytes}
    {s : State} (h_s : Does pz s₀ s) (hp : subParts [.out, .grp, .fab, .eth, .agl, .err, .pwr] pz = true) : Does pz s₀
    (onFlit n unc corr ctrl bs s) := by
  unfold onFlit
  try dsimp only
  repeat' first
    | with_reducible assumption | with_reducible apply recvFlit_does | exact subParts_of (by decide) hp
    | with_reducible apply does_fold | simp only [does_mk] | with_reducible refine moves_intro ?_ rfl ?_
    | ((with_reducible refine only_intro ?_); intro p hc; cases p <;> first
        | exact (clash hp (by decide) hc).elim | dsimp only [Same])
    | intro _ | split | with_reducible apply does_ite | with_reducible apply does_fst (by assumption) | dsimp only

theorem takeRing_does {pz : List Part} {s₀ : State} {m : Notice} {s : State} (h_s : Does pz s₀ s) (hp : subParts
    [.out, .fab, .pwr] pz = true) : Does pz s₀ (takeRing m s) := by
  unfold takeRing
  try dsimp only
  repeat' first
    | with_reducible assumption | with_reducible apply sendRing_does | exact subParts_of (by decide) hp
    | with_reducible apply does_fold | simp only [does_mk] | with_reducible refine moves_intro ?_ rfl ?_
    | ((with_reducible refine only_intro ?_); intro p hc; cases p <;> first
        | exact (clash hp (by decide) hc).elim | dsimp only [Same])
    | intro _ | split | with_reducible apply does_ite | with_reducible apply does_fst (by assumption) | dsimp only

theorem refreshRings_does {pz : List Part} {s₀ : State} {s : State} (h_s : Does pz s₀ s) (hp : subParts [.out, .fab,
    .pwr] pz = true) : Does pz s₀ (refreshRings s) := by
  unfold refreshRings
  try dsimp only
  repeat' first
    | with_reducible assumption | with_reducible apply originate_does | exact subParts_of (by decide) hp
    | with_reducible apply does_fold | simp only [does_mk] | with_reducible refine moves_intro ?_ rfl ?_
    | ((with_reducible refine only_intro ?_); intro p hc; cases p <;> first
        | exact (clash hp (by decide) hc).elim | dsimp only [Same])
    | intro _ | split | with_reducible apply does_ite | with_reducible apply does_fst (by assumption) | dsimp only

end Sys2Proof.Machine
end

