-- ==== Sys2Proof/Laws/ZrtTxFrame.lean ====
section
/-!
SUPPORT. What each operation of Machine/ZrtTx.lean may change: one lemma per operation.
-/
set_option linter.unusedTactic false
set_option linter.unreachableTactic false
set_option linter.unusedSimpArgs false
set_option linter.unusedVariables false

namespace Sys2Proof.Machine

theorem takePsns_does {pz : List Part} {s₀ : State} {f : Nat} {q : Nat} {idx : Nat} {d : Desc} {s : State} (h_s : Does
    pz s₀ s) (hp : subParts [.qps] pz = true) : Does pz s₀ (takePsns f q idx d s) := by
  unfold takePsns
  try dsimp only
  repeat' first
    | with_reducible assumption | with_reducible apply modQp_does | exact subParts_of (by decide) hp
    | with_reducible apply does_fold | simp only [does_mk] | with_reducible refine moves_intro ?_ rfl ?_
    | ((with_reducible refine only_intro ?_); intro p hc; cases p <;> first
        | exact (clash hp (by decide) hc).elim | dsimp only [Same])
    | intro _ | split | with_reducible apply does_ite | with_reducible apply does_fst (by assumption) | dsimp only

theorem startTransfer_does {pz : List Part} {s₀ : State} {f : Nat} {q : Nat} {op : Nat} {s : State} (h_s : Does pz s₀
    s) (hp : subParts [.mem, .facets, .qps, .mirror, .memc, .pcx] pz = true) : Does pz s₀ (startTransfer f q op s) :=
    by
  unfold startTransfer
  try dsimp only
  repeat' first
    | with_reducible assumption | with_reducible apply completeItem_does | with_reducible apply settle_does
    | with_reducible apply startItem_does | with_reducible apply takePsns_does | exact subParts_of (by decide) hp
    | with_reducible apply does_fold | simp only [does_mk] | with_reducible refine moves_intro ?_ rfl ?_
    | ((with_reducible refine only_intro ?_); intro p hc; cases p <;> first
        | exact (clash hp (by decide) hc).elim | dsimp only [Same])
    | intro _ | split | with_reducible apply does_ite | with_reducible apply does_fst (by assumption) | dsimp only

theorem resendFrom_does {pz : List Part} {s₀ : State} {n : Nat} {p : U32} {s : State} (h_s : Does pz s₀ s) (hp :
    subParts [.qps] pz = true) : Does pz s₀ (resendFrom n p s) := by
  unfold resendFrom
  try dsimp only
  repeat' first
    | with_reducible assumption | with_reducible apply modQp_does | exact subParts_of (by decide) hp
    | with_reducible apply does_fold | simp only [does_mk] | with_reducible refine moves_intro ?_ rfl ?_
    | ((with_reducible refine only_intro ?_); intro p hc; cases p <;> first
        | exact (clash hp (by decide) hc).elim | dsimp only [Same])
    | intro _ | split | with_reducible apply does_ite | with_reducible apply does_fst (by assumption) | dsimp only

theorem enterHold_does {pz : List Part} {s₀ : State} {n : Nat} {why : Nat} {s : State} (h_s : Does pz s₀ s) (hp :
    subParts [.qps] pz = true) : Does pz s₀ (enterHold n why s) := by
  unfold enterHold
  try dsimp only
  repeat' first
    | with_reducible assumption | with_reducible apply modQp_does | exact subParts_of (by decide) hp
    | with_reducible apply does_fold | simp only [does_mk] | with_reducible refine moves_intro ?_ rfl ?_
    | ((with_reducible refine only_intro ?_); intro p hc; cases p <;> first
        | exact (clash hp (by decide) hc).elim | dsimp only [Same])
    | intro _ | split | with_reducible apply does_ite | with_reducible apply does_fst (by assumption) | dsimp only

theorem leaveHold_does {pz : List Part} {s₀ : State} {n : Nat} {s : State} (h_s : Does pz s₀ s) (hp : subParts [.qps]
    pz = true) : Does pz s₀ (leaveHold n s) := by
  unfold leaveHold
  try dsimp only
  repeat' first
    | with_reducible assumption | with_reducible apply modQp_does | with_reducible apply resendFrom_does
    | exact subParts_of (by decide) hp | with_reducible apply does_fold | simp only [does_mk]
    | with_reducible refine moves_intro ?_ rfl ?_
    | ((with_reducible refine only_intro ?_); intro p hc; cases p <;> first
        | exact (clash hp (by decide) hc).elim | dsimp only [Same])
    | intro _ | split | with_reducible apply does_ite | with_reducible apply does_fst (by assumption) | dsimp only

theorem admitted_does {pz : List Part} {s₀ : State} {n : Nat} {typ : Nat} {len : Nat} {s : State} (h_s : Does pz s₀ s)
    (hp : subParts [.facets, .arb, .qps] pz = true) : Does pz s₀ (admitted n typ len s) := by
  unfold admitted
  try dsimp only
  repeat' first
    | with_reducible assumption | with_reducible apply facetCharge_does | with_reducible apply modF_does
    | with_reducible apply modQp_does | exact subParts_of (by decide) hp | with_reducible apply does_fold
    | simp only [does_mk] | with_reducible refine moves_intro ?_ rfl ?_
    | ((with_reducible refine only_intro ?_); intro p hc; cases p <;> first
        | exact (clash hp (by decide) hc).elim | dsimp only [Same])
    | intro _ | split | with_reducible apply does_ite | with_reducible apply does_fst (by assumption) | dsimp only

theorem markSent_does {pz : List Part} {s₀ : State} {n : Nat} {p : U32} {k : Nat} {resent : Bool} {s : State} (h_s :
    Does pz s₀ s) (hp : subParts [.facets, .qps] pz = true) : Does pz s₀ (markSent n p k resent s) := by
  unfold markSent
  try dsimp only
  repeat' first
    | with_reducible assumption | with_reducible apply modF_does | with_reducible apply modQp_does
    | exact subParts_of (by decide) hp | with_reducible apply does_fold | simp only [does_mk]
    | with_reducible refine moves_intro ?_ rfl ?_
    | ((with_reducible refine only_intro ?_); intro p hc; cases p <;> first
        | exact (clash hp (by decide) hc).elim | dsimp only [Same])
    | intro _ | split | with_reducible apply does_ite | with_reducible apply does_fst (by assumption) | dsimp only

theorem recordFirst_does {pz : List Part} {s₀ : State} {n : Nat} {d : QDesc} {s : State} (h_s : Does pz s₀ s) (hp :
    subParts [.mirror] pz = true) : Does pz s₀ (recordFirst n d s) := by
  unfold recordFirst
  try dsimp only
  repeat' first
    | with_reducible assumption | with_reducible apply mirrorIssue_does | exact subParts_of (by decide) hp
    | with_reducible apply does_fold | simp only [does_mk] | with_reducible refine moves_intro ?_ rfl ?_
    | ((with_reducible refine only_intro ?_); intro p hc; cases p <;> first
        | exact (clash hp (by decide) hc).elim | dsimp only [Same])
    | intro _ | split | with_reducible apply does_ite | with_reducible apply does_fst (by assumption) | dsimp only

theorem sendNext_does {pz : List Part} {s₀ : State} {n : Nat} {p : U32} {resent : Bool} {s : State} (h_s : Does pz s₀
    s) (hp : subParts [.free, .out, .mem, .facets, .arb, .qps, .mirror, .fab, .xlt, .memc, .pcx, .cip, .eth, .pwr] pz
    = true) : Does pz s₀ (sendNext n p resent s) := by
  unfold sendNext
  try dsimp only
  repeat' first
    | with_reducible assumption | with_reducible apply admitted_does | with_reducible apply enterHold_does
    | with_reducible apply markSent_does | with_reducible apply modQp_does | with_reducible apply readAll_does
    | with_reducible apply recordFirst_does | with_reducible apply sendQp_does | with_reducible apply translate_does
    | exact subParts_of (by decide) hp | with_reducible apply does_fold | simp only [does_mk]
    | with_reducible refine moves_intro ?_ rfl ?_
    | ((with_reducible refine only_intro ?_); intro p hc; cases p <;> first
        | exact (clash hp (by decide) hc).elim | dsimp only [Same])
    | intro _ | split | with_reducible apply does_ite | with_reducible apply does_fst (by assumption) | dsimp only

theorem confirmTx_does {pz : List Part} {s₀ : State} {n : Nat} {ps : List U32} {alt : Bool} {s : State} (h_s : Does pz
    s₀ s) (hp : subParts [.mem, .facets, .qps, .mirror, .memc, .pcx] pz = true) : Does pz s₀ (confirmTx n ps alt s) :=
    by
  unfold confirmTx
  try dsimp only
  repeat' first
    | with_reducible assumption | with_reducible apply completeDescs_does | with_reducible apply leaveHold_does
    | with_reducible apply modBusy_does | with_reducible apply modMir_does | with_reducible apply settle_does
    | exact subParts_of (by decide) hp | with_reducible apply does_fold | simp only [does_mk]
    | with_reducible refine moves_intro ?_ rfl ?_
    | ((with_reducible refine only_intro ?_); intro p hc; cases p <;> first
        | exact (clash hp (by decide) hc).elim | dsimp only [Same])
    | intro _ | split | with_reducible apply does_ite | with_reducible apply does_fst (by assumption) | dsimp only

theorem fastResend_does {pz : List Part} {s₀ : State} {n : Nat} {newly : List U32} {s : State} (h_s : Does pz s₀ s)
    (hp : subParts [.qps] pz = true) : Does pz s₀ (fastResend n newly s) := by
  unfold fastResend
  try dsimp only
  repeat' first
    | with_reducible assumption | with_reducible apply modQp_does | exact subParts_of (by decide) hp
    | with_reducible apply does_fold | simp only [does_mk] | with_reducible refine moves_intro ?_ rfl ?_
    | ((with_reducible refine only_intro ?_); intro p hc; cases p <;> first
        | exact (clash hp (by decide) hc).elim | dsimp only [Same])
    | intro _ | split | with_reducible apply does_ite | with_reducible apply does_fst (by assumption) | dsimp only

theorem takeScomp_does {pz : List Part} {s₀ : State} {n : Nat} {scomp : U32} {trunc : Byte} {s : State} (h_s : Does pz
    s₀ s) (hp : subParts [.qps] pz = true) : Does pz s₀ (takeScomp n scomp trunc s) := by
  unfold takeScomp
  try dsimp only
  repeat' first
    | with_reducible assumption | with_reducible apply modQp_does | exact subParts_of (by decide) hp
    | with_reducible apply does_fold | simp only [does_mk] | with_reducible refine moves_intro ?_ rfl ?_
    | ((with_reducible refine only_intro ?_); intro p hc; cases p <;> first
        | exact (clash hp (by decide) hc).elim | dsimp only [Same])
    | intro _ | split | with_reducible apply does_ite | with_reducible apply does_fst (by assumption) | dsimp only

theorem takeAnswer_does {pz : List Part} {s₀ : State} {n : Nat} {ackPsn : U32} {ceEcho : Byte} {scomp : U32} {trunc :
    Byte} {sack : U64} {alt : Bool} {s : State} (h_s : Does pz s₀ s) (hp : subParts [.mem, .facets, .qps, .mirror,
    .memc, .pcx] pz = true) : Does pz s₀ (takeAnswer n ackPsn ceEcho scomp trunc sack alt s) := by
  unfold takeAnswer
  try dsimp only
  repeat' first
    | with_reducible assumption | with_reducible apply confirmTx_does | with_reducible apply congest_does
    | with_reducible apply fastResend_does | with_reducible apply modF_does | with_reducible apply takeScomp_does
    | exact subParts_of (by decide) hp | with_reducible apply does_fold | simp only [does_mk]
    | with_reducible refine moves_intro ?_ rfl ?_
    | ((with_reducible refine only_intro ?_); intro p hc; cases p <;> first
        | exact (clash hp (by decide) hc).elim | dsimp only [Same])
    | intro _ | split | with_reducible apply does_ite | with_reducible apply does_fst (by assumption) | dsimp only

theorem resendTimeout_does {pz : List Part} {s₀ : State} {n : Nat} {s : State} (h_s : Does pz s₀ s) (hp : subParts
    [.facets, .qps] pz = true) : Does pz s₀ (resendTimeout n s) := by
  unfold resendTimeout
  try dsimp only
  repeat' first
    | with_reducible assumption | with_reducible apply congest_does | with_reducible apply enterHold_does
    | with_reducible apply modQp_does | exact subParts_of (by decide) hp | with_reducible apply does_fold
    | simp only [does_mk] | with_reducible refine moves_intro ?_ rfl ?_
    | ((with_reducible refine only_intro ?_); intro p hc; cases p <;> first
        | exact (clash hp (by decide) hc).elim | dsimp only [Same])
    | intro _ | split | with_reducible apply does_ite | with_reducible apply does_fst (by assumption) | dsimp only

theorem rnrEnd_does {pz : List Part} {s₀ : State} {n : Nat} {s : State} (h_s : Does pz s₀ s) (hp : subParts [.qps] pz
    = true) : Does pz s₀ (rnrEnd n s) := by
  unfold rnrEnd
  try dsimp only
  repeat' first
    | with_reducible assumption | with_reducible apply modQp_does | with_reducible apply resendFrom_does
    | exact subParts_of (by decide) hp | with_reducible apply does_fold | simp only [does_mk]
    | with_reducible refine moves_intro ?_ rfl ?_
    | ((with_reducible refine only_intro ?_); intro p hc; cases p <;> first
        | exact (clash hp (by decide) hc).elim | dsimp only [Same])
    | intro _ | split | with_reducible apply does_ite | with_reducible apply does_fst (by assumption) | dsimp only

theorem waitResend_does {pz : List Part} {s₀ : State} {n : Nat} {s : State} (h_s : Does pz s₀ s) (hp : subParts [.qps]
    pz = true) : Does pz s₀ (waitResend n s) := by
  unfold waitResend
  try dsimp only
  repeat' first
    | with_reducible assumption | with_reducible apply modQp_does | with_reducible apply resendFrom_does
    | exact subParts_of (by decide) hp | with_reducible apply does_fold | simp only [does_mk]
    | with_reducible refine moves_intro ?_ rfl ?_
    | ((with_reducible refine only_intro ?_); intro p hc; cases p <;> first
        | exact (clash hp (by decide) hc).elim | dsimp only [Same])
    | intro _ | split | with_reducible apply does_ite | with_reducible apply does_fst (by assumption) | dsimp only

theorem holdResend_does {pz : List Part} {s₀ : State} {n : Nat} {s : State} (h_s : Does pz s₀ s) (hp : subParts [.qps]
    pz = true) : Does pz s₀ (holdResend n s) := by
  unfold holdResend
  try dsimp only
  repeat' first
    | with_reducible assumption | with_reducible apply modQp_does | exact subParts_of (by decide) hp
    | with_reducible apply does_fold | simp only [does_mk] | with_reducible refine moves_intro ?_ rfl ?_
    | ((with_reducible refine only_intro ?_); intro p hc; cases p <;> first
        | exact (clash hp (by decide) hc).elim | dsimp only [Same])
    | intro _ | split | with_reducible apply does_ite | with_reducible apply does_fst (by assumption) | dsimp only

theorem holdLimitEnd_does {pz : List Part} {s₀ : State} {n : Nat} {s : State} (h_s : Does pz s₀ s) (hp : subParts
    [.mem, .facets, .qps, .mirror, .xlt, .memc, .pcx] pz = true) : Does pz s₀ (holdLimitEnd n s) := by
  unfold holdLimitEnd
  try dsimp only
  repeat' first
    | with_reducible assumption | with_reducible apply failQp_does | exact subParts_of (by decide) hp
    | with_reducible apply does_fold | simp only [does_mk] | with_reducible refine moves_intro ?_ rfl ?_
    | ((with_reducible refine only_intro ?_); intro p hc; cases p <;> first
        | exact (clash hp (by decide) hc).elim | dsimp only [Same])
    | intro _ | split | with_reducible apply does_ite | with_reducible apply does_fst (by assumption) | dsimp only

end Sys2Proof.Machine
end

