-- ==== Sys2Proof/Laws/ZrtRxFrame.lean ====
section
/-!
SUPPORT. What each operation of Machine/ZrtRx.lean may change: one lemma per operation.
-/
set_option linter.unusedTactic false
set_option linter.unreachableTactic false
set_option linter.unusedSimpArgs false
set_option linter.unusedVariables false

namespace Sys2Proof.Machine

theorem sendOwed_does {pz : List Part} {s₀ : State} {n : Nat} {s : State} (h_s : Does pz s₀ s) (hp : subParts [.out,
    .qps, .mirror, .fab, .pcx, .cip, .eth, .pwr] pz = true) : Does pz s₀ (sendOwed n s) := by
  unfold sendOwed
  try dsimp only
  repeat' first
    | with_reducible assumption | with_reducible apply mirrorIssue_does | with_reducible apply modQp_does
    | with_reducible apply sendQp_does | exact subParts_of (by decide) hp | with_reducible apply does_fold
    | simp only [does_mk] | with_reducible refine moves_intro ?_ rfl ?_
    | ((with_reducible refine only_intro ?_); intro p hc; cases p <;> first
        | exact (clash hp (by decide) hc).elim | dsimp only [Same])
    | intro _ | split | with_reducible apply does_ite | with_reducible apply does_fst (by assumption) | dsimp only

theorem answer_does {pz : List Part} {s₀ : State} {n : Nat} {syndrome : Nat} {nakPsn : U32} {s : State} (h_s : Does pz
    s₀ s) (hp : subParts [.out, .qps, .mirror, .fab, .pcx, .cip, .eth, .pwr] pz = true) : Does pz s₀ (answer n
    syndrome nakPsn s) := by
  unfold answer
  try dsimp only
  repeat' first
    | with_reducible assumption | with_reducible apply modQp_does | with_reducible apply sendOwed_does
    | exact subParts_of (by decide) hp | with_reducible apply does_fold | simp only [does_mk]
    | with_reducible refine moves_intro ?_ rfl ?_
    | ((with_reducible refine only_intro ?_); intro p hc; cases p <;> first
        | exact (clash hp (by decide) hc).elim | dsimp only [Same])
    | intro _ | split | with_reducible apply does_ite | with_reducible apply does_fst (by assumption) | dsimp only

theorem sendNoConn_does {pz : List Part} {s₀ : State} {p : Packet} {s : State} (h_s : Does pz s₀ s) (hp : subParts
    [.out, .fab, .eth, .pwr] pz = true) : Does pz s₀ (sendNoConn p s) := by
  unfold sendNoConn
  try dsimp only
  repeat' first
    | with_reducible assumption | with_reducible apply inject_does | exact subParts_of (by decide) hp
    | with_reducible apply does_fold | simp only [does_mk] | with_reducible refine moves_intro ?_ rfl ?_
    | ((with_reducible refine only_intro ?_); intro p hc; cases p <;> first
        | exact (clash hp (by decide) hc).elim | dsimp only [Same])
    | intro _ | split | with_reducible apply does_ite | with_reducible apply does_fst (by assumption) | dsimp only

theorem refuse_does {pz : List Part} {s₀ : State} {p : Packet} {s : State} (h_s : Does pz s₀ s) (hp : subParts [.out,
    .fab, .eth, .pwr] pz = true) : Does pz s₀ (refuse p s) := by
  unfold refuse
  try dsimp only
  repeat' first
    | with_reducible assumption | with_reducible apply sendNoConn_does | exact subParts_of (by decide) hp
    | with_reducible apply does_fold | simp only [does_mk] | with_reducible refine moves_intro ?_ rfl ?_
    | ((with_reducible refine only_intro ?_); intro p hc; cases p <;> first
        | exact (clash hp (by decide) hc).elim | dsimp only [Same])
    | intro _ | split | with_reducible apply does_ite | with_reducible apply does_fst (by assumption) | dsimp only

theorem accessFail_does {pz : List Part} {s₀ : State} {n : Nat} {p : U32} {s : State} (h_s : Does pz s₀ s) (hp :
    subParts [.out, .mem, .facets, .qps, .mirror, .fab, .xlt, .memc, .pcx, .cip, .eth, .pwr] pz = true) : Does pz s₀
    (accessFail n p s) := by
  unfold accessFail
  try dsimp only
  repeat' first
    | with_reducible assumption | with_reducible apply answer_does | with_reducible apply failQp_does
    | exact subParts_of (by decide) hp | with_reducible apply does_fold | simp only [does_mk]
    | with_reducible refine moves_intro ?_ rfl ?_
    | ((with_reducible refine only_intro ?_); intro p hc; cases p <;> first
        | exact (clash hp (by decide) hc).elim | dsimp only [Same])
    | intro _ | split | with_reducible apply does_ite | with_reducible apply does_fst (by assumption) | dsimp only

theorem countDup_does {pz : List Part} {s₀ : State} {n : Nat} {s : State} (h_s : Does pz s₀ s) (hp : subParts
    [.facets] pz = true) : Does pz s₀ (countDup n s) := by
  unfold countDup
  try dsimp only
  repeat' first
    | with_reducible assumption | with_reducible apply modF_does | exact subParts_of (by decide) hp
    | with_reducible apply does_fold | simp only [does_mk] | with_reducible refine moves_intro ?_ rfl ?_
    | ((with_reducible refine only_intro ?_); intro p hc; cases p <;> first
        | exact (clash hp (by decide) hc).elim | dsimp only [Same])
    | intro _ | split | with_reducible apply does_ite | with_reducible apply does_fst (by assumption) | dsimp only

theorem trySend_does {pz : List Part} {s₀ : State} {n : Nat} {s : State} (h_s : Does pz s₀ s) (hp : subParts [.mem,
    .facets, .qps, .mirror, .memc, .pcx] pz = true) : Does pz s₀ (trySend n s) := by
  unfold trySend
  try dsimp only
  repeat' first
    | with_reducible assumption | with_reducible apply completeRecv_does | with_reducible apply mirrorIssue_does
    | with_reducible apply modQp_does | exact subParts_of (by decide) hp | with_reducible apply does_fold
    | simp only [does_mk] | with_reducible refine moves_intro ?_ rfl ?_
    | ((with_reducible refine only_intro ?_); intro p hc; cases p <;> first
        | exact (clash hp (by decide) hc).elim | dsimp only [Same])
    | intro _ | split | with_reducible apply does_ite | with_reducible apply does_fst (by assumption) | dsimp only

theorem nakHoldFor_does {pz : List Part} {s₀ : State} {n : Nat} {p : U32} {keys : List Nat} {s : State} (h_s : Does pz
    s₀ s) (hp : subParts [.out, .qps, .mirror, .fab, .pcx, .cip, .eth, .pwr] pz = true) : Does pz s₀ (nakHoldFor n p
    keys s) := by
  unfold nakHoldFor
  try dsimp only
  repeat' first
    | with_reducible assumption | with_reducible apply answer_does | with_reducible apply modQp_does
    | exact subParts_of (by decide) hp | with_reducible apply does_fold | simp only [does_mk]
    | with_reducible refine moves_intro ?_ rfl ?_
    | ((with_reducible refine only_intro ?_); intro p hc; cases p <;> first
        | exact (clash hp (by decide) hc).elim | dsimp only [Same])
    | intro _ | split | with_reducible apply does_ite | with_reducible apply does_fst (by assumption) | dsimp only

theorem serveRead_does {pz : List Part} {s₀ : State} {n : Nat} {p : Packet} {s : State} (h_s : Does pz s₀ s) (hp :
    subParts [.out, .qps, .mirror, .fab, .pcx, .cip, .eth, .pwr] pz = true) : Does pz s₀ (serveRead n p s) := by
  unfold serveRead
  try dsimp only
  repeat' first
    | with_reducible assumption | with_reducible apply modQp_does | with_reducible apply nakHoldFor_does
    | exact subParts_of (by decide) hp | with_reducible apply does_fold | simp only [does_mk]
    | with_reducible refine moves_intro ?_ rfl ?_
    | ((with_reducible refine only_intro ?_); intro p hc; cases p <;> first
        | exact (clash hp (by decide) hc).elim | dsimp only [Same])
    | intro _ | split | with_reducible apply does_ite | with_reducible apply does_fst (by assumption) | dsimp only

theorem serveReached_does {pz : List Part} {s₀ : State} {n : Nat} {s : State} (h_s : Does pz s₀ s) (hp : subParts
    [.out, .qps, .mirror, .fab, .pcx, .cip, .eth, .pwr] pz = true) : Does pz s₀ (serveReached n s) := by
  unfold serveReached
  try dsimp only
  repeat' first
    | with_reducible assumption | with_reducible apply modQp_does | with_reducible apply serveRead_does
    | exact subParts_of (by decide) hp | with_reducible apply does_fold | simp only [does_mk]
    | with_reducible refine moves_intro ?_ rfl ?_
    | ((with_reducible refine only_intro ?_); intro p hc; cases p <;> first
        | exact (clash hp (by decide) hc).elim | dsimp only [Same])
    | intro _ | split | with_reducible apply does_ite | with_reducible apply does_fst (by assumption) | dsimp only

theorem ackIfDue_does {pz : List Part} {s₀ : State} {n : Nat} {s : State} (h_s : Does pz s₀ s) (hp : subParts [.out,
    .qps, .mirror, .fab, .pcx, .cip, .eth, .pwr] pz = true) : Does pz s₀ (ackIfDue n s) := by
  unfold ackIfDue
  try dsimp only
  repeat' first
    | with_reducible assumption | with_reducible apply answer_does | with_reducible apply modQp_does
    | exact subParts_of (by decide) hp | with_reducible apply does_fold | simp only [does_mk]
    | with_reducible refine moves_intro ?_ rfl ?_
    | ((with_reducible refine only_intro ?_); intro p hc; cases p <;> first
        | exact (clash hp (by decide) hc).elim | dsimp only [Same])
    | intro _ | split | with_reducible apply does_ite | with_reducible apply does_fst (by assumption) | dsimp only

theorem confirmRx_does {pz : List Part} {s₀ : State} {n : Nat} {ps : List U32} {s : State} (h_s : Does pz s₀ s) (hp :
    subParts [.out, .mem, .facets, .qps, .mirror, .fab, .memc, .pcx, .cip, .eth, .pwr] pz = true) : Does pz s₀
    (confirmRx n ps s) := by
  unfold confirmRx
  try dsimp only
  repeat' first
    | with_reducible assumption | with_reducible apply ackIfDue_does | with_reducible apply modQp_does
    | with_reducible apply serveReached_does | with_reducible apply trySend_does | exact subParts_of (by decide) hp
    | with_reducible apply does_fold | simp only [does_mk] | with_reducible refine moves_intro ?_ rfl ?_
    | ((with_reducible refine only_intro ?_); intro p hc; cases p <;> first
        | exact (clash hp (by decide) hc).elim | dsimp only [Same])
    | intro _ | split | with_reducible apply does_ite | with_reducible apply does_fst (by assumption) | dsimp only

theorem finishSend_does {pz : List Part} {s₀ : State} {n : Nat} {s : State} (h_s : Does pz s₀ s) (hp : subParts [.out,
    .mem, .facets, .qps, .mirror, .fab, .memc, .pcx, .cip, .eth, .pwr] pz = true) : Does pz s₀ (finishSend n s) := by
  unfold finishSend
  try dsimp only
  repeat' first
    | with_reducible assumption | with_reducible apply confirmRx_does | with_reducible apply modQp_does
    | exact subParts_of (by decide) hp | with_reducible apply does_fold | simp only [does_mk]
    | with_reducible refine moves_intro ?_ rfl ?_
    | ((with_reducible refine only_intro ?_); intro p hc; cases p <;> first
        | exact (clash hp (by decide) hc).elim | dsimp only [Same])
    | intro _ | split | with_reducible apply does_ite | with_reducible apply does_fst (by assumption) | dsimp only

theorem sendVisible_does {pz : List Part} {s₀ : State} {n : Nat} {idx : U32} {s : State} (h_s : Does pz s₀ s) (hp :
    subParts [.out, .mem, .facets, .qps, .mirror, .fab, .memc, .pcx, .cip, .eth, .pwr] pz = true) : Does pz s₀
    (sendVisible n idx s) := by
  unfold sendVisible
  try dsimp only
  repeat' first
    | with_reducible assumption | with_reducible apply finishSend_does | with_reducible apply modQp_does
    | exact subParts_of (by decide) hp | with_reducible apply does_fold | simp only [does_mk]
    | with_reducible refine moves_intro ?_ rfl ?_
    | ((with_reducible refine only_intro ?_); intro p hc; cases p <;> first
        | exact (clash hp (by decide) hc).elim | dsimp only [Same])
    | intro _ | split | with_reducible apply does_ite | with_reducible apply does_fst (by assumption) | dsimp only

theorem sendMirrored_does {pz : List Part} {s₀ : State} {n : Nat} {s : State} (h_s : Does pz s₀ s) (hp : subParts
    [.out, .mem, .facets, .qps, .mirror, .fab, .memc, .pcx, .cip, .eth, .pwr] pz = true) : Does pz s₀ (sendMirrored n
    s) := by
  unfold sendMirrored
  try dsimp only
  repeat' first
    | with_reducible assumption | with_reducible apply finishSend_does | with_reducible apply modMir_does
    | with_reducible apply modQp_does | exact subParts_of (by decide) hp | with_reducible apply does_fold
    | simp only [does_mk] | with_reducible refine moves_intro ?_ rfl ?_
    | ((with_reducible refine only_intro ?_); intro p hc; cases p <;> first
        | exact (clash hp (by decide) hc).elim | dsimp only [Same])
    | intro _ | split | with_reducible apply does_ite | with_reducible apply does_fst (by assumption) | dsimp only

theorem stallPacket_does {pz : List Part} {s₀ : State} {n : Nat} {p : Packet} {s : State} (h_s : Does pz s₀ s) (hp :
    subParts [.qps] pz = true) : Does pz s₀ (stallPacket n p s) := by
  unfold stallPacket
  try dsimp only
  repeat' first
    | with_reducible assumption | with_reducible apply modQp_does | exact subParts_of (by decide) hp
    | with_reducible apply does_fold | simp only [does_mk] | with_reducible refine moves_intro ?_ rfl ?_
    | ((with_reducible refine only_intro ?_); intro p hc; cases p <;> first
        | exact (clash hp (by decide) hc).elim | dsimp only [Same])
    | intro _ | split | with_reducible apply does_ite | with_reducible apply does_fst (by assumption) | dsimp only

theorem parkDiscard_does {pz : List Part} {s₀ : State} {s : State} (h_s : Does pz s₀ s) (hp : subParts [.xlt] pz =
    true) : Does pz s₀ (parkDiscard s) := by
  unfold parkDiscard
  try dsimp only
  repeat' first
    | with_reducible assumption | exact subParts_of (by decide) hp | with_reducible apply does_fold
    | simp only [does_mk] | with_reducible refine moves_intro ?_ rfl ?_
    | ((with_reducible refine only_intro ?_); intro p hc; cases p <;> first
        | exact (clash hp (by decide) hc).elim | dsimp only [Same])
    | intro _ | split | with_reducible apply does_ite | with_reducible apply does_fst (by assumption) | dsimp only

theorem discardTaken_does {pz : List Part} {s₀ : State} {n : Nat} {p : Packet} {s : State} (h_s : Does pz s₀ s) (hp :
    subParts [.facets, .qps, .xlt, .pcx] pz = true) : Does pz s₀ (discardTaken n p s) := by
  unfold discardTaken
  try dsimp only
  repeat' first
    | with_reducible assumption | with_reducible apply clearBegun_does | with_reducible apply modQp_does
    | with_reducible apply parkDiscard_does | with_reducible apply voidWrites_does | exact subParts_of (by decide) hp
    | with_reducible apply does_fold | simp only [does_mk] | with_reducible refine moves_intro ?_ rfl ?_
    | ((with_reducible refine only_intro ?_); intro p hc; cases p <;> first
        | exact (clash hp (by decide) hc).elim | dsimp only [Same])
    | intro _ | split | with_reducible apply does_ite | with_reducible apply does_fst (by assumption) | dsimp only

theorem placeData_does {pz : List Part} {s₀ : State} {n : Nat} {p : Packet} {seg : Nat} {off : U64} {bs : Bytes} {s :
    State} (h_s : Does pz s₀ s) (hp : subParts [.free, .out, .mem, .facets, .qps, .mirror, .fab, .xlt, .memc, .pcx,
    .cip, .eth, .pwr] pz = true) : Does pz s₀ (placeData n p seg off bs s) := by
  unfold placeData
  try dsimp only
  repeat' first
    | with_reducible assumption | with_reducible apply clearBegun_does | with_reducible apply discardTaken_does
    | with_reducible apply nakHoldFor_does | with_reducible apply postAll_does | with_reducible apply stallPacket_does
    | with_reducible apply translate_does | with_reducible apply voidWrites_does | exact subParts_of (by decide) hp
    | with_reducible apply does_fold | simp only [does_mk] | with_reducible refine moves_intro ?_ rfl ?_
    | ((with_reducible refine only_intro ?_); intro p hc; cases p <;> first
        | exact (clash hp (by decide) hc).elim | dsimp only [Same])
    | intro _ | split | with_reducible apply does_ite | with_reducible apply does_fst (by assumption) | dsimp only

theorem placeNothing_does {pz : List Part} {s₀ : State} {n : Nat} {p : U32} {s : State} (h_s : Does pz s₀ s) (hp :
    subParts [.out, .mem, .facets, .qps, .mirror, .fab, .memc, .pcx, .cip, .eth, .pwr] pz = true) : Does pz s₀
    (placeNothing n p s) := by
  unfold placeNothing
  try dsimp only
  repeat' first
    | with_reducible assumption | with_reducible apply confirmRx_does | with_reducible apply modQp_does
    | exact subParts_of (by decide) hp | with_reducible apply does_fold | simp only [does_mk]
    | with_reducible refine moves_intro ?_ rfl ?_
    | ((with_reducible refine only_intro ?_); intro p hc; cases p <;> first
        | exact (clash hp (by decide) hc).elim | dsimp only [Same])
    | intro _ | split | with_reducible apply does_ite | with_reducible apply does_fst (by assumption) | dsimp only

theorem placeWrite_does {pz : List Part} {s₀ : State} {n : Nat} {p : Packet} {s : State} (h_s : Does pz s₀ s) (hp :
    subParts [.free, .out, .mem, .facets, .qps, .mirror, .fab, .xlt, .memc, .pcx, .cip, .eth, .pwr] pz = true) : Does
    pz s₀ (placeWrite n p s) := by
  unfold placeWrite
  try dsimp only
  repeat' first
    | with_reducible assumption | with_reducible apply accessFail_does | with_reducible apply placeData_does
    | with_reducible apply placeNothing_does | exact subParts_of (by decide) hp | with_reducible apply does_fold
    | simp only [does_mk] | with_reducible refine moves_intro ?_ rfl ?_
    | ((with_reducible refine only_intro ?_); intro p hc; cases p <;> first
        | exact (clash hp (by decide) hc).elim | dsimp only [Same])
    | intro _ | split | with_reducible apply does_ite | with_reducible apply does_fst (by assumption) | dsimp only

theorem denyRecv_does {pz : List Part} {s₀ : State} {n : Nat} {idx : U32} {s : State} (h_s : Does pz s₀ s) (hp :
    subParts [.mem, .facets, .mirror, .memc, .pcx] pz = true) : Does pz s₀ (denyRecv n idx s) := by
  unfold denyRecv
  try dsimp only
  repeat' first
    | with_reducible assumption | with_reducible apply completeRecv_does | exact subParts_of (by decide) hp
    | with_reducible apply does_fold | simp only [does_mk] | with_reducible refine moves_intro ?_ rfl ?_
    | ((with_reducible refine only_intro ?_); intro p hc; cases p <;> first
        | exact (clash hp (by decide) hc).elim | dsimp only [Same])
    | intro _ | split | with_reducible apply does_ite | with_reducible apply does_fst (by assumption) | dsimp only

theorem placeSend_does {pz : List Part} {s₀ : State} {n : Nat} {p : Packet} {s : State} (h_s : Does pz s₀ s) (hp :
    subParts [.free, .out, .mem, .facets, .qps, .mirror, .fab, .xlt, .memc, .pcx, .cip, .eth, .pwr] pz = true) : Does
    pz s₀ (placeSend n p s) := by
  unfold placeSend
  try dsimp only
  repeat' first
    | with_reducible assumption | with_reducible apply accessFail_does | with_reducible apply denyRecv_does
    | with_reducible apply modQp_does | with_reducible apply placeData_does | with_reducible apply placeNothing_does
    | exact subParts_of (by decide) hp | with_reducible apply does_fold | simp only [does_mk]
    | with_reducible refine moves_intro ?_ rfl ?_
    | ((with_reducible refine only_intro ?_); intro p hc; cases p <;> first
        | exact (clash hp (by decide) hc).elim | dsimp only [Same])
    | intro _ | split | with_reducible apply does_ite | with_reducible apply does_fst (by assumption) | dsimp only

theorem placeAgain_does {pz : List Part} {s₀ : State} {n : Nat} {p : Packet} {s : State} (h_s : Does pz s₀ s) (hp :
    subParts [.free, .out, .mem, .facets, .qps, .mirror, .fab, .xlt, .memc, .pcx, .cip, .eth, .pwr] pz = true) : Does
    pz s₀ (placeAgain n p s) := by
  unfold placeAgain
  try dsimp only
  repeat' first
    | with_reducible assumption | with_reducible apply placeSend_does | with_reducible apply placeWrite_does
    | exact subParts_of (by decide) hp | with_reducible apply does_fold | simp only [does_mk]
    | with_reducible refine moves_intro ?_ rfl ?_
    | ((with_reducible refine only_intro ?_); intro p hc; cases p <;> first
        | exact (clash hp (by decide) hc).elim | dsimp only [Same])
    | intro _ | split | with_reducible apply does_ite | with_reducible apply does_fst (by assumption) | dsimp only

theorem takePacket_does {pz : List Part} {s₀ : State} {n : Nat} {p : Packet} {s : State} (h_s : Does pz s₀ s) (hp :
    subParts [.qps] pz = true) : Does pz s₀ (takePacket n p s) := by
  unfold takePacket
  try dsimp only
  repeat' first
    | with_reducible assumption | with_reducible apply modQp_does | exact subParts_of (by decide) hp
    | with_reducible apply does_fold | simp only [does_mk] | with_reducible refine moves_intro ?_ rfl ?_
    | ((with_reducible refine only_intro ?_); intro p hc; cases p <;> first
        | exact (clash hp (by decide) hc).elim | dsimp only [Same])
    | intro _ | split | with_reducible apply does_ite | with_reducible apply does_fst (by assumption) | dsimp only

theorem onPacket_does {pz : List Part} {s₀ : State} {n : Nat} {p : Packet} {s : State} (h_s : Does pz s₀ s) (hp :
    subParts [.free, .out, .mem, .facets, .qps, .mirror, .fab, .xlt, .memc, .pcx, .cip, .eth, .pwr] pz = true) : Does
    pz s₀ (onPacket n p s) := by
  unfold onPacket
  try dsimp only
  repeat' first
    | with_reducible assumption | with_reducible apply accessFail_does | with_reducible apply answer_does
    | with_reducible apply countDup_does | with_reducible apply modF_does | with_reducible apply parkDiscard_does
    | with_reducible apply placeSend_does | with_reducible apply placeWrite_does
    | with_reducible apply takePacket_does | exact subParts_of (by decide) hp | with_reducible apply does_fold
    | simp only [does_mk] | with_reducible refine moves_intro ?_ rfl ?_
    | ((with_reducible refine only_intro ?_); intro p hc; cases p <;> first
        | exact (clash hp (by decide) hc).elim | dsimp only [Same])
    | intro _ | split | with_reducible apply does_ite | with_reducible apply does_fst (by assumption) | dsimp only

theorem onReadReq_does {pz : List Part} {s₀ : State} {n : Nat} {p : Packet} {s : State} (h_s : Does pz s₀ s) (hp :
    subParts [.out, .mem, .facets, .qps, .mirror, .fab, .xlt, .memc, .pcx, .cip, .eth, .pwr] pz = true) : Does pz s₀
    (onReadReq n p s) := by
  unfold onReadReq
  try dsimp only
  repeat' first
    | with_reducible assumption | with_reducible apply accessFail_does | with_reducible apply countDup_does
    | with_reducible apply modQp_does | with_reducible apply parkDiscard_does | with_reducible apply serveReached_does
    | with_reducible apply serveRead_does | with_reducible apply takePacket_does | exact subParts_of (by decide) hp
    | with_reducible apply does_fold | simp only [does_mk] | with_reducible refine moves_intro ?_ rfl ?_
    | ((with_reducible refine only_intro ?_); intro p hc; cases p <;> first
        | exact (clash hp (by decide) hc).elim | dsimp only [Same])
    | intro _ | split | with_reducible apply does_ite | with_reducible apply does_fst (by assumption) | dsimp only

theorem dropResp_does {pz : List Part} {s₀ : State} {n : Nat} {p : U32} {s : State} (h_s : Does pz s₀ s) (hp :
    subParts [.facets, .qps, .xlt, .pcx] pz = true) : Does pz s₀ (dropResp n p s) := by
  unfold dropResp
  try dsimp only
  repeat' first
    | with_reducible assumption | with_reducible apply clearBegun_does | with_reducible apply modQp_does
    | with_reducible apply voidWrites_does | exact subParts_of (by decide) hp | with_reducible apply does_fold
    | simp only [does_mk] | with_reducible refine moves_intro ?_ rfl ?_
    | ((with_reducible refine only_intro ?_); intro p hc; cases p <;> first
        | exact (clash hp (by decide) hc).elim | dsimp only [Same])
    | intro _ | split | with_reducible apply does_ite | with_reducible apply does_fst (by assumption) | dsimp only

theorem placeResp_does {pz : List Part} {s₀ : State} {n : Nat} {p : Packet} {s : State} (h_s : Does pz s₀ s) (hp :
    subParts [.free, .mem, .facets, .qps, .xlt, .memc, .pcx] pz = true) : Does pz s₀ (placeResp n p s) := by
  unfold placeResp
  try dsimp only
  repeat' first
    | with_reducible assumption | with_reducible apply dropResp_does | with_reducible apply modQp_does
    | with_reducible apply parkDiscard_does | with_reducible apply postAll_does
    | with_reducible apply stallPacket_does | with_reducible apply translate_does | exact subParts_of (by decide) hp
    | with_reducible apply does_fold | simp only [does_mk] | with_reducible refine moves_intro ?_ rfl ?_
    | ((with_reducible refine only_intro ?_); intro p hc; cases p <;> first
        | exact (clash hp (by decide) hc).elim | dsimp only [Same])
    | intro _ | split | with_reducible apply does_ite | with_reducible apply does_fst (by assumption) | dsimp only

theorem onReadResp_does {pz : List Part} {s₀ : State} {n : Nat} {p : Packet} {s : State} (h_s : Does pz s₀ s) (hp :
    subParts [.free, .mem, .facets, .qps, .xlt, .memc, .pcx] pz = true) : Does pz s₀ (onReadResp n p s) := by
  unfold onReadResp
  try dsimp only
  repeat' first
    | with_reducible assumption | with_reducible apply countDup_does | with_reducible apply modQp_does
    | with_reducible apply parkDiscard_does | with_reducible apply placeResp_does | exact subParts_of (by decide) hp
    | with_reducible apply does_fold | simp only [does_mk] | with_reducible refine moves_intro ?_ rfl ?_
    | ((with_reducible refine only_intro ?_); intro p hc; cases p <;> first
        | exact (clash hp (by decide) hc).elim | dsimp only [Same])
    | intro _ | split | with_reducible apply does_ite | with_reducible apply does_fst (by assumption) | dsimp only

theorem unstall_does {pz : List Part} {s₀ : State} {x0 : Nat} {x1 : Sys2Proof.Stream} {x2 : Nat} {x3 : Bool} {x4 :
    State} (h_x4 : Does pz s₀ x4) (hp : subParts [.free, .out, .mem, .facets, .qps, .mirror, .fab, .xlt, .memc, .pcx,
    .cip, .eth, .pwr] pz = true) : Does pz s₀ (unstall x0 x1 x2 x3 x4) := by
  induction x0 generalizing x1 x2 x3 x4 with
  | zero =>
    unfold unstall
    try dsimp only
    repeat' first
      | with_reducible assumption | with_reducible apply modQp_does | with_reducible apply placeAgain_does
      | with_reducible apply placeResp_does | exact subParts_of (by decide) hp | with_reducible apply does_fold
      | simp only [does_mk] | with_reducible refine moves_intro ?_ rfl ?_
      | ((with_reducible refine only_intro ?_); intro p hc; cases p <;> first
          | exact (clash hp (by decide) hc).elim | dsimp only [Same])
      | intro _ | split | with_reducible apply does_ite | with_reducible apply does_fst (by assumption) | dsimp only
  | succ k ih =>
    unfold unstall
    try dsimp only
    repeat' first
      | with_reducible assumption | with_reducible apply ih | with_reducible apply modQp_does
      | with_reducible apply placeAgain_does | with_reducible apply placeResp_does | exact subParts_of (by decide) hp
      | with_reducible apply does_fold | simp only [does_mk] | with_reducible refine moves_intro ?_ rfl ?_
      | ((with_reducible refine only_intro ?_); intro p hc; cases p <;> first
          | exact (clash hp (by decide) hc).elim | dsimp only [Same])
      | intro _ | split | with_reducible apply does_ite | with_reducible apply does_fst (by assumption) | dsimp only

theorem goOnQp_does {pz : List Part} {s₀ : State} {st : Sys2Proof.Stream} {n : Nat} {resp : Bool} {s : State} (h_s :
    Does pz s₀ s) (hp : subParts [.free, .out, .mem, .facets, .qps, .mirror, .fab, .xlt, .memc, .pcx, .cip, .eth,
    .pwr] pz = true) : Does pz s₀ (goOnQp st n resp s) := by
  unfold goOnQp
  try dsimp only
  repeat' first
    | with_reducible assumption | with_reducible apply unstall_does | exact subParts_of (by decide) hp
    | with_reducible apply does_fold | simp only [does_mk] | with_reducible refine moves_intro ?_ rfl ?_
    | ((with_reducible refine only_intro ?_); intro p hc; cases p <;> first
        | exact (clash hp (by decide) hc).elim | dsimp only [Same])
    | intro _ | split | with_reducible apply does_ite | with_reducible apply does_fst (by assumption) | dsimp only

theorem discardReq_does {pz : List Part} {s₀ : State} {n : Nat} {r : RespOne} {s : State} (h_s : Does pz s₀ s) (hp :
    subParts [.qps, .xlt] pz = true) : Does pz s₀ (discardReq n r s) := by
  unfold discardReq
  try dsimp only
  repeat' first
    | with_reducible assumption | with_reducible apply clearBegun_does | with_reducible apply modQp_does
    | with_reducible apply parkDiscard_does | exact subParts_of (by decide) hp | with_reducible apply does_fold
    | simp only [does_mk] | with_reducible refine moves_intro ?_ rfl ?_
    | ((with_reducible refine only_intro ?_); intro p hc; cases p <;> first
        | exact (clash hp (by decide) hc).elim | dsimp only [Same])
    | intro _ | split | with_reducible apply does_ite | with_reducible apply does_fst (by assumption) | dsimp only

theorem respNext_does {pz : List Part} {s₀ : State} {n : Nat} {s : State} (h_s : Does pz s₀ s) (hp : subParts [.free,
    .out, .mem, .facets, .arb, .qps, .mirror, .fab, .xlt, .memc, .pcx, .cip, .eth, .pwr] pz = true) : Does pz s₀
    (respNext n s) := by
  unfold respNext
  try dsimp only
  repeat' first
    | with_reducible assumption | with_reducible apply admitted_does | with_reducible apply clearBegun_does
    | with_reducible apply discardReq_does | with_reducible apply modQp_does | with_reducible apply nakHoldFor_does
    | with_reducible apply readAll_does | with_reducible apply translate_does | exact subParts_of (by decide) hp
    | with_reducible apply does_fold | simp only [does_mk] | with_reducible refine moves_intro ?_ rfl ?_
    | ((with_reducible refine only_intro ?_); intro p hc; cases p <;> first
        | exact (clash hp (by decide) hc).elim | dsimp only [Same])
    | intro _ | split | with_reducible apply does_ite | with_reducible apply does_fst (by assumption) | dsimp only

theorem packetSend_does {pz : List Part} {s₀ : State} {n : Nat} {s : State} (h_s : Does pz s₀ s) (hp : subParts
    [.free, .out, .mem, .facets, .arb, .qps, .zrt, .mirror, .fab, .xlt, .memc, .pcx, .cip, .eth, .pwr] pz = true) :
    Does pz s₀ (packetSend n s) := by
  unfold packetSend
  try dsimp only
  repeat' first
    | with_reducible assumption | with_reducible apply makeCtx_does | with_reducible apply respNext_does
    | with_reducible apply sendNext_does | with_reducible apply takeTurns_does | exact subParts_of (by decide) hp
    | with_reducible apply does_fold | simp only [does_mk] | with_reducible refine moves_intro ?_ rfl ?_
    | ((with_reducible refine only_intro ?_); intro p hc; cases p <;> first
        | exact (clash hp (by decide) hc).elim | dsimp only [Same])
    | intro _ | split | with_reducible apply does_ite | with_reducible apply does_fst (by assumption) | dsimp only

theorem packetRead_does {pz : List Part} {s₀ : State} {n : Nat} {psn : U32} {bs : Bytes} {s : State} (h_s : Does pz s₀
    s) (hp : subParts [.out, .mem, .facets, .qps, .zrt, .mirror, .fab, .xlt, .memc, .pcx, .cip, .eth, .pwr] pz = true)
    : Does pz s₀ (packetRead n psn bs s) := by
  unfold packetRead
  try dsimp only
  repeat' first
    | with_reducible assumption | with_reducible apply modQp_does | with_reducible apply sendQp_does
    | with_reducible apply tryFreeQp_does | exact subParts_of (by decide) hp | with_reducible apply does_fold
    | simp only [does_mk] | with_reducible refine moves_intro ?_ rfl ?_
    | ((with_reducible refine only_intro ?_); intro p hc; cases p <;> first
        | exact (clash hp (by decide) hc).elim | dsimp only [Same])
    | intro _ | split | with_reducible apply does_ite | with_reducible apply does_fst (by assumption) | dsimp only

theorem respRead_does {pz : List Part} {s₀ : State} {n : Nat} {psn : U32} {bs : Bytes} {s : State} (h_s : Does pz s₀
    s) (hp : subParts [.out, .mem, .facets, .qps, .zrt, .mirror, .fab, .xlt, .memc, .pcx, .cip, .eth, .pwr] pz = true)
    : Does pz s₀ (respRead n psn bs s) := by
  unfold respRead
  try dsimp only
  repeat' first
    | with_reducible assumption | with_reducible apply confirmRx_does | with_reducible apply modBusy_does
    | with_reducible apply sendQp_does | with_reducible apply tryFreeQp_does | exact subParts_of (by decide) hp
    | with_reducible apply does_fold | simp only [does_mk] | with_reducible refine moves_intro ?_ rfl ?_
    | ((with_reducible refine only_intro ?_); intro p hc; cases p <;> first
        | exact (clash hp (by decide) hc).elim | dsimp only [Same])
    | intro _ | split | with_reducible apply does_ite | with_reducible apply does_fst (by assumption) | dsimp only

theorem takeRnr_does {pz : List Part} {s₀ : State} {n : Nat} {nakPsn : U32} {s : State} (h_s : Does pz s₀ s) (hp :
    subParts [.mem, .facets, .qps, .mirror, .xlt, .memc, .pcx] pz = true) : Does pz s₀ (takeRnr n nakPsn s) := by
  unfold takeRnr
  try dsimp only
  repeat' first
    | with_reducible assumption | with_reducible apply failQp_does | with_reducible apply modF_does
    | with_reducible apply modQp_does | exact subParts_of (by decide) hp | with_reducible apply does_fold
    | simp only [does_mk] | with_reducible refine moves_intro ?_ rfl ?_
    | ((with_reducible refine only_intro ?_); intro p hc; cases p <;> first
        | exact (clash hp (by decide) hc).elim | dsimp only [Same])
    | intro _ | split | with_reducible apply does_ite | with_reducible apply does_fst (by assumption) | dsimp only

theorem takeWait_does {pz : List Part} {s₀ : State} {n : Nat} {nakPsn : U32} {s : State} (h_s : Does pz s₀ s) (hp :
    subParts [.facets, .qps] pz = true) : Does pz s₀ (takeWait n nakPsn s) := by
  unfold takeWait
  try dsimp only
  repeat' first
    | with_reducible assumption | with_reducible apply modF_does | with_reducible apply modQp_does
    | exact subParts_of (by decide) hp | with_reducible apply does_fold | simp only [does_mk]
    | with_reducible refine moves_intro ?_ rfl ?_
    | ((with_reducible refine only_intro ?_); intro p hc; cases p <;> first
        | exact (clash hp (by decide) hc).elim | dsimp only [Same])
    | intro _ | split | with_reducible apply does_ite | with_reducible apply does_fst (by assumption) | dsimp only

theorem takeAccess_does {pz : List Part} {s₀ : State} {n : Nat} {p : U32} {s : State} (h_s : Does pz s₀ s) (hp :
    subParts [.mem, .facets, .qps, .mirror, .xlt, .memc, .pcx] pz = true) : Does pz s₀ (takeAccess n p s) := by
  unfold takeAccess
  try dsimp only
  repeat' first
    | with_reducible assumption | with_reducible apply failQp_does | exact subParts_of (by decide) hp
    | with_reducible apply does_fold | simp only [does_mk] | with_reducible refine moves_intro ?_ rfl ?_
    | ((with_reducible refine only_intro ?_); intro p hc; cases p <;> first
        | exact (clash hp (by decide) hc).elim | dsimp only [Same])
    | intro _ | split | with_reducible apply does_ite | with_reducible apply does_fst (by assumption) | dsimp only

theorem takeAeth_does {pz : List Part} {s₀ : State} {n : Nat} {p : Packet} {s : State} (h_s : Does pz s₀ s) (hp :
    subParts [.mem, .facets, .qps, .mirror, .xlt, .memc, .pcx] pz = true) : Does pz s₀ (takeAeth n p s) := by
  unfold takeAeth
  try dsimp only
  repeat' first
    | with_reducible assumption | with_reducible apply enterHold_does | with_reducible apply failQp_does
    | with_reducible apply leaveHold_does | with_reducible apply takeAccess_does
    | with_reducible apply takeAnswer_does | with_reducible apply takeRnr_does | with_reducible apply takeWait_does
    | exact subParts_of (by decide) hp | with_reducible apply does_fold | simp only [does_mk]
    | with_reducible refine moves_intro ?_ rfl ?_
    | ((with_reducible refine only_intro ?_); intro p hc; cases p <;> first
        | exact (clash hp (by decide) hc).elim | dsimp only [Same])
    | intro _ | split | with_reducible apply does_ite | with_reducible apply does_fst (by assumption) | dsimp only

theorem rxTake_does {pz : List Part} {s₀ : State} {n : Nat} {p : Packet} {s : State} (h_s : Does pz s₀ s) (hp :
    subParts [.free, .out, .mem, .facets, .qps, .mirror, .fab, .xlt, .memc, .pcx, .cip, .eth, .pwr] pz = true) : Does
    pz s₀ (rxTake n p s) := by
  unfold rxTake
  try dsimp only
  repeat' first
    | with_reducible assumption | with_reducible apply onPacket_does | with_reducible apply onReadReq_does
    | with_reducible apply onReadResp_does | with_reducible apply refuse_does | with_reducible apply takeAeth_does
    | exact subParts_of (by decide) hp | with_reducible apply does_fold | simp only [does_mk]
    | with_reducible refine moves_intro ?_ rfl ?_
    | ((with_reducible refine only_intro ?_); intro p hc; cases p <;> first
        | exact (clash hp (by decide) hc).elim | dsimp only [Same])
    | intro _ | split | with_reducible apply does_ite | with_reducible apply does_fst (by assumption) | dsimp only

theorem authFail_does {pz : List Part} {s₀ : State} {n : Nat} {s : State} (h_s : Does pz s₀ s) (hp : subParts
    [.facets, .cip] pz = true) : Does pz s₀ (authFail n s) := by
  unfold authFail
  try dsimp only
  repeat' first
    | with_reducible assumption | with_reducible apply modF_does | exact subParts_of (by decide) hp
    | with_reducible apply does_fold | simp only [does_mk] | with_reducible refine moves_intro ?_ rfl ?_
    | ((with_reducible refine only_intro ?_); intro p hc; cases p <;> first
        | exact (clash hp (by decide) hc).elim | dsimp only [Same])
    | intro _ | split | with_reducible apply does_ite | with_reducible apply does_fst (by assumption) | dsimp only

theorem rxAuth_does {pz : List Part} {s₀ : State} {n : Nat} {p : Packet} {s : State} (h_s : Does pz s₀ s) (hp :
    subParts [.free, .out, .mem, .facets, .qps, .mirror, .fab, .xlt, .memc, .pcx, .cip, .eth, .pwr] pz = true) : Does
    pz s₀ (rxAuth n p s) := by
  unfold rxAuth
  try dsimp only
  repeat' first
    | with_reducible assumption | with_reducible apply authFail_does | with_reducible apply rxTake_does
    | with_reducible apply toEngine_does | exact subParts_of (by decide) hp | with_reducible apply does_fold
    | simp only [does_mk] | with_reducible refine moves_intro ?_ rfl ?_
    | ((with_reducible refine only_intro ?_); intro p hc; cases p <;> first
        | exact (clash hp (by decide) hc).elim | dsimp only [Same])
    | intro _ | split | with_reducible apply does_ite | with_reducible apply does_fst (by assumption) | dsimp only

theorem rxChecks_does {pz : List Part} {s₀ : State} {n : Nat} {p : Packet} {s : State} (h_s : Does pz s₀ s) (hp :
    subParts [.free, .out, .mem, .facets, .qps, .mirror, .fab, .xlt, .memc, .pcx, .cip, .eth, .pwr] pz = true) : Does
    pz s₀ (rxChecks n p s) := by
  unfold rxChecks
  try dsimp only
  repeat' first
    | with_reducible assumption | with_reducible apply refuse_does | with_reducible apply rxAuth_does
    | exact subParts_of (by decide) hp | with_reducible apply does_fold | simp only [does_mk]
    | with_reducible refine moves_intro ?_ rfl ?_
    | ((with_reducible refine only_intro ?_); intro p hc; cases p <;> first
        | exact (clash hp (by decide) hc).elim | dsimp only [Same])
    | intro _ | split | with_reducible apply does_ite | with_reducible apply does_fst (by assumption) | dsimp only

theorem nakWaitFor_does {pz : List Part} {s₀ : State} {n : Nat} {p : Packet} {s : State} (h_s : Does pz s₀ s) (hp :
    subParts [.out, .qps, .mirror, .fab, .pcx, .cip, .eth, .pwr] pz = true) : Does pz s₀ (nakWaitFor n p s) := by
  unfold nakWaitFor
  try dsimp only
  repeat' first
    | with_reducible assumption | with_reducible apply answer_does | with_reducible apply inject_does
    | exact subParts_of (by decide) hp | with_reducible apply does_fold | simp only [does_mk]
    | with_reducible refine moves_intro ?_ rfl ?_
    | ((with_reducible refine only_intro ?_); intro p hc; cases p <;> first
        | exact (clash hp (by decide) hc).elim | dsimp only [Same])
    | intro _ | split | with_reducible apply does_ite | with_reducible apply does_fst (by assumption) | dsimp only

theorem withContext_does {pz : List Part} {s₀ : State} {n : Nat} {p : Packet} {go : State → State} {s : State} (h_go :
    ∀ s, Does pz s₀ s → Does pz s₀ (go s)) (h_s : Does pz s₀ s) (hp : subParts [.out, .qps, .zrt, .mirror, .fab, .pcx,
    .cip, .eth, .pwr] pz = true) : Does pz s₀ (withContext n p go s) := by
  unfold withContext
  try dsimp only
  repeat' first
    | with_reducible assumption | with_reducible apply makeCtx_does | with_reducible apply nakWaitFor_does
    | with_reducible apply h_go | exact subParts_of (by decide) hp | with_reducible apply does_fold
    | simp only [does_mk] | with_reducible refine moves_intro ?_ rfl ?_
    | ((with_reducible refine only_intro ?_); intro p hc; cases p <;> first
        | exact (clash hp (by decide) hc).elim | dsimp only [Same])
    | intro _ | split | with_reducible apply does_ite | with_reducible apply does_fst (by assumption) | dsimp only

theorem noteArrival_does {pz : List Part} {s₀ : State} {src : BitVec 24} {s : State} (h_s : Does pz s₀ s) (hp :
    subParts [.qps, .fab] pz = true) : Does pz s₀ (noteArrival src s) := by
  unfold noteArrival
  try dsimp only
  repeat' first
    | with_reducible assumption | with_reducible apply leaveHold_does | exact subParts_of (by decide) hp
    | with_reducible apply does_fold | simp only [does_mk] | with_reducible refine moves_intro ?_ rfl ?_
    | ((with_reducible refine only_intro ?_); intro p hc; cases p <;> first
        | exact (clash hp (by decide) hc).elim | dsimp only [Same])
    | intro _ | split | with_reducible apply does_ite | with_reducible apply does_fst (by assumption) | dsimp only

theorem arriveAs_does {pz : List Part} {s₀ : State} {mine : Packet → Bool} {go : Packet → State → State} {p : Packet}
    {s : State} (h_go : ∀ a0 s, Does pz s₀ s → Does pz s₀ (go a0 s)) (h_s : Does pz s₀ s) (hp : subParts [.qps, .zrt,
    .fab] pz = true) : Does pz s₀ (arriveAs mine go p s) := by
  unfold arriveAs
  try dsimp only
  repeat' first
    | with_reducible assumption | with_reducible apply noteArrival_does | with_reducible apply h_go
    | exact subParts_of (by decide) hp | with_reducible apply does_fold | simp only [does_mk]
    | with_reducible refine moves_intro ?_ rfl ?_
    | ((with_reducible refine only_intro ?_); intro p hc; cases p <;> first
        | exact (clash hp (by decide) hc).elim | dsimp only [Same])
    | intro _ | split | with_reducible apply does_ite | with_reducible apply does_fst (by assumption) | dsimp only

theorem toQp_does {pz : List Part} {s₀ : State} {p : Packet} {s : State} (h_s : Does pz s₀ s) (hp : subParts [.free,
    .out, .mem, .facets, .qps, .zrt, .mirror, .fab, .xlt, .memc, .pcx, .cip, .eth, .pwr] pz = true) : Does pz s₀ (toQp
    p s) := by
  unfold toQp
  try dsimp only
  repeat' first
    | with_reducible assumption | with_reducible apply refuse_does | with_reducible apply rxChecks_does
    | with_reducible apply withContext_does | exact subParts_of (by decide) hp | with_reducible apply does_fold
    | simp only [does_mk] | with_reducible refine moves_intro ?_ rfl ?_
    | ((with_reducible refine only_intro ?_); intro p hc; cases p <;> first
        | exact (clash hp (by decide) hc).elim | dsimp only [Same])
    | intro _ | split | with_reducible apply does_ite | with_reducible apply does_fst (by assumption) | dsimp only

theorem toNoConn_does {pz : List Part} {s₀ : State} {p : Packet} {s : State} (h_s : Does pz s₀ s) (hp : subParts
    [.free, .out, .mem, .facets, .qps, .mirror, .fab, .xlt, .memc, .pcx, .cip, .eth, .pwr] pz = true) : Does pz s₀
    (toNoConn p s) := by
  unfold toNoConn
  try dsimp only
  repeat' first
    | with_reducible assumption | with_reducible apply rxAuth_does | exact subParts_of (by decide) hp
    | with_reducible apply does_fold | simp only [does_mk] | with_reducible refine moves_intro ?_ rfl ?_
    | ((with_reducible refine only_intro ?_); intro p hc; cases p <;> first
        | exact (clash hp (by decide) hc).elim | dsimp only [Same])
    | intro _ | split | with_reducible apply does_ite | with_reducible apply does_fst (by assumption) | dsimp only

end Sys2Proof.Machine
end

