-- ==== Sys2Proof/Laws/ZrtFrame.lean ====
section
/-!
SUPPORT. What each operation of Machine/Zrt.lean may change: one lemma per operation.
-/
set_option linter.unusedTactic false
set_option linter.unreachableTactic false
set_option linter.unusedSimpArgs false
set_option linter.unusedVariables false

namespace Sys2Proof.Machine

theorem postRecv_does {pz : List Part} {s₀ : State} {f : Nat} {q : Nat} {s : State} (h_s : Does pz s₀ s) (hp :
    subParts [.mem, .facets, .mirror, .memc, .pcx] pz = true) : Does pz s₀ (postRecv f q s) := by
  unfold postRecv
  try dsimp only
  repeat' first
    | with_reducible assumption | with_reducible apply modItem_does | with_reducible apply settle_does
    | exact subParts_of (by decide) hp | with_reducible apply does_fold | simp only [does_mk]
    | with_reducible refine moves_intro ?_ rfl ?_
    | ((with_reducible refine only_intro ?_); intro p hc; cases p <;> first
        | exact (clash hp (by decide) hc).elim | dsimp only [Same])
    | intro _ | split | with_reducible apply does_ite | with_reducible apply does_fst (by assumption) | dsimp only

theorem makeQp_does {pz : List Part} {s₀ : State} {f : Nat} {s : State} (h_s : Does pz s₀ s) (hp : subParts [.free,
    .facets, .qps, .zrt, .mirror, .trust] pz = true) : Does pz s₀ (makeQp f s) := by
  unfold makeQp
  try dsimp only
  repeat' first
    | with_reducible assumption | with_reducible apply drew_does | with_reducible apply endQpc_does
    | with_reducible apply makeCtx_does | with_reducible apply modF_does | with_reducible apply modQ_does
    | exact subParts_of (by decide) hp | with_reducible apply does_fold | simp only [does_mk]
    | with_reducible refine moves_intro ?_ rfl ?_
    | ((with_reducible refine only_intro ?_); intro p hc; cases p <;> first
        | exact (clash hp (by decide) hc).elim | dsimp only [Same])
    | intro _ | split | with_reducible apply does_ite | with_reducible apply does_fst (by assumption) | dsimp only

theorem createQp_does {pz : List Part} {s₀ : State} {f : Nat} {s : State} (h_s : Does pz s₀ s) (hp : subParts [.free,
    .facets, .qps, .zrt, .mirror, .trust] pz = true) : Does pz s₀ (createQp f s) := by
  unfold createQp
  try dsimp only
  repeat' first
    | with_reducible assumption | with_reducible apply makeQp_does | with_reducible apply modF_does
    | exact subParts_of (by decide) hp | with_reducible apply does_fold | simp only [does_mk]
    | with_reducible refine moves_intro ?_ rfl ?_
    | ((with_reducible refine only_intro ?_); intro p hc; cases p <;> first
        | exact (clash hp (by decide) hc).elim | dsimp only [Same])
    | intro _ | split | with_reducible apply does_ite | with_reducible apply does_fst (by assumption) | dsimp only

theorem qpCommand_does {pz : List Part} {s₀ : State} {f : Nat} {late : Bool} {g : Nat → State → State} {s : State}
    (h_g : ∀ a0 s, Does pz s₀ s → Does pz s₀ (g a0 s)) (h_s : Does pz s₀ s) (hp : subParts [.facets] pz = true) : Does
    pz s₀ (qpCommand f late g s) := by
  unfold qpCommand
  try dsimp only
  repeat' first
    | with_reducible assumption | with_reducible apply modF_does | with_reducible apply h_g
    | exact subParts_of (by decide) hp | with_reducible apply does_fold | simp only [does_mk]
    | with_reducible refine moves_intro ?_ rfl ?_
    | ((with_reducible refine only_intro ?_); intro p hc; cases p <;> first
        | exact (clash hp (by decide) hc).elim | dsimp only [Same])
    | intro _ | split | with_reducible apply does_ite | with_reducible apply does_fst (by assumption) | dsimp only

theorem sendConnect_does {pz : List Part} {s₀ : State} {n : Nat} {s : State} (h_s : Does pz s₀ s) (hp : subParts
    [.out, .qps, .fab, .eth, .pwr] pz = true) : Does pz s₀ (sendConnect n s) := by
  unfold sendConnect
  try dsimp only
  repeat' first
    | with_reducible assumption | with_reducible apply inject_does | with_reducible apply modQp_does
    | exact subParts_of (by decide) hp | with_reducible apply does_fold | simp only [does_mk]
    | with_reducible refine moves_intro ?_ rfl ?_
    | ((with_reducible refine only_intro ?_); intro p hc; cases p <;> first
        | exact (clash hp (by decide) hc).elim | dsimp only [Same])
    | intro _ | split | with_reducible apply does_ite | with_reducible apply does_fst (by assumption) | dsimp only

theorem connectQp_does {pz : List Part} {s₀ : State} {f : Nat} {n : Nat} {s : State} (h_s : Does pz s₀ s) (hp :
    subParts [.out, .facets, .qps, .fab, .eth, .pwr] pz = true) : Does pz s₀ (connectQp f n s) := by
  unfold connectQp
  try dsimp only
  repeat' first
    | with_reducible assumption | with_reducible apply endQpc_does | with_reducible apply modF_does
    | with_reducible apply modQp_does | with_reducible apply sendConnect_does | exact subParts_of (by decide) hp
    | with_reducible apply does_fold | simp only [does_mk] | with_reducible refine moves_intro ?_ rfl ?_
    | ((with_reducible refine only_intro ?_); intro p hc; cases p <;> first
        | exact (clash hp (by decide) hc).elim | dsimp only [Same])
    | intro _ | split | with_reducible apply does_ite | with_reducible apply does_fst (by assumption) | dsimp only

theorem flushNamed_does {pz : List Part} {s₀ : State} {f : Nat} {n : Nat} {s : State} (h_s : Does pz s₀ s) (hp :
    subParts [.mem, .facets, .mirror, .memc, .pcx] pz = true) : Does pz s₀ (flushNamed f n s) := by
  unfold flushNamed
  try dsimp only
  repeat' first
    | with_reducible assumption | with_reducible apply completeItem_does | exact subParts_of (by decide) hp
    | with_reducible apply does_fold | simp only [does_mk] | with_reducible refine moves_intro ?_ rfl ?_
    | ((with_reducible refine only_intro ?_); intro p hc; cases p <;> first
        | exact (clash hp (by decide) hc).elim | dsimp only [Same])
    | intro _ | split | with_reducible apply does_ite | with_reducible apply does_fst (by assumption) | dsimp only

theorem drainQp_does {pz : List Part} {s₀ : State} {f : Nat} {n : Nat} {s : State} (h_s : Does pz s₀ s) (hp : subParts
    [.mem, .facets, .qps, .mirror, .xlt, .memc, .pcx] pz = true) : Does pz s₀ (drainQp f n s) := by
  unfold drainQp
  try dsimp only
  repeat' first
    | with_reducible assumption | with_reducible apply failQp_does | with_reducible apply flushNamed_does
    | with_reducible apply modQp_does | with_reducible apply settle_does | exact subParts_of (by decide) hp
    | with_reducible apply does_fold | simp only [does_mk] | with_reducible refine moves_intro ?_ rfl ?_
    | ((with_reducible refine only_intro ?_); intro p hc; cases p <;> first
        | exact (clash hp (by decide) hc).elim | dsimp only [Same])
    | intro _ | split | with_reducible apply does_ite | with_reducible apply does_fst (by assumption) | dsimp only

theorem destroyQp_does {pz : List Part} {s₀ : State} {f : Nat} {n : Nat} {s : State} (h_s : Does pz s₀ s) (hp :
    subParts [.mem, .facets, .qps, .zrt, .mirror, .xlt, .memc, .pcx] pz = true) : Does pz s₀ (destroyQp f n s) := by
  unfold destroyQp
  try dsimp only
  repeat' first
    | with_reducible assumption | with_reducible apply drainQp_does | with_reducible apply endQpc_does
    | with_reducible apply tryFreeQp_does | exact subParts_of (by decide) hp | with_reducible apply does_fold
    | simp only [does_mk] | with_reducible refine moves_intro ?_ rfl ?_
    | ((with_reducible refine only_intro ?_); intro p hc; cases p <;> first
        | exact (clash hp (by decide) hc).elim | dsimp only [Same])
    | intro _ | split | with_reducible apply does_ite | with_reducible apply does_fst (by assumption) | dsimp only

theorem queryQp_does {pz : List Part} {s₀ : State} {f : Nat} {n : Nat} {s : State} (h_s : Does pz s₀ s) (hp : subParts
    [.facets] pz = true) : Does pz s₀ (queryQp f n s) := by
  unfold queryQp
  try dsimp only
  repeat' first
    | with_reducible assumption | with_reducible apply endQpc_does | with_reducible apply modF_does
    | exact subParts_of (by decide) hp | with_reducible apply does_fold | simp only [does_mk]
    | with_reducible refine moves_intro ?_ rfl ?_
    | ((with_reducible refine only_intro ?_); intro p hc; cases p <;> first
        | exact (clash hp (by decide) hc).elim | dsimp only [Same])
    | intro _ | split | with_reducible apply does_ite | with_reducible apply does_fst (by assumption) | dsimp only

theorem recordPeer_does {pz : List Part} {s₀ : State} {n : Nat} {psn : U32} {ctag : U32} {rqEn : Bool} {pmtu : Nat}
    {win : Nat} {s : State} (h_s : Does pz s₀ s) (hp : subParts [.qps, .mirror] pz = true) : Does pz s₀ (recordPeer n
    psn ctag rqEn pmtu win s) := by
  unfold recordPeer
  try dsimp only
  repeat' first
    | with_reducible assumption | with_reducible apply modMir_does | with_reducible apply modQp_does
    | exact subParts_of (by decide) hp | with_reducible apply does_fold | simp only [does_mk]
    | with_reducible refine moves_intro ?_ rfl ?_
    | ((with_reducible refine only_intro ?_); intro p hc; cases p <;> first
        | exact (clash hp (by decide) hc).elim | dsimp only [Same])
    | intro _ | split | with_reducible apply does_ite | with_reducible apply does_fst (by assumption) | dsimp only

theorem enterRts_does {pz : List Part} {s₀ : State} {n : Nat} {s : State} (h_s : Does pz s₀ s) (hp : subParts [.qps,
    .mirror] pz = true) : Does pz s₀ (enterRts n s) := by
  unfold enterRts
  try dsimp only
  repeat' first
    | with_reducible assumption | with_reducible apply modMir_does | with_reducible apply modQp_does
    | exact subParts_of (by decide) hp | with_reducible apply does_fold | simp only [does_mk]
    | with_reducible refine moves_intro ?_ rfl ?_
    | ((with_reducible refine only_intro ?_); intro p hc; cases p <;> first
        | exact (clash hp (by decide) hc).elim | dsimp only [Same])
    | intro _ | split | with_reducible apply does_ite | with_reducible apply does_fst (by assumption) | dsimp only

theorem sendAccept_does {pz : List Part} {s₀ : State} {n : Nat} {s : State} (h_s : Does pz s₀ s) (hp : subParts [.out,
    .fab, .eth, .pwr] pz = true) : Does pz s₀ (sendAccept n s) := by
  unfold sendAccept
  try dsimp only
  repeat' first
    | with_reducible assumption | with_reducible apply inject_does | exact subParts_of (by decide) hp
    | with_reducible apply does_fold | simp only [does_mk] | with_reducible refine moves_intro ?_ rfl ?_
    | ((with_reducible refine only_intro ?_); intro p hc; cases p <;> first
        | exact (clash hp (by decide) hc).elim | dsimp only [Same])
    | intro _ | split | with_reducible apply does_ite | with_reducible apply does_fst (by assumption) | dsimp only

theorem takeConnect_does {pz : List Part} {s₀ : State} {n : Nat} {p : Packet} {s : State} (h_s : Does pz s₀ s) (hp :
    subParts [.out, .qps, .mirror, .fab, .eth, .pwr] pz = true) : Does pz s₀ (takeConnect n p s) := by
  unfold takeConnect
  try dsimp only
  repeat' first
    | with_reducible assumption | with_reducible apply enterRts_does | with_reducible apply inject_does
    | with_reducible apply recordPeer_does | with_reducible apply sendAccept_does | exact subParts_of (by decide) hp
    | with_reducible apply does_fold | simp only [does_mk] | with_reducible refine moves_intro ?_ rfl ?_
    | ((with_reducible refine only_intro ?_); intro p hc; cases p <;> first
        | exact (clash hp (by decide) hc).elim | dsimp only [Same])
    | intro _ | split | with_reducible apply does_ite | with_reducible apply does_fst (by assumption) | dsimp only

theorem freeQpn_does {pz : List Part} {s₀ : State} {p : Packet} {s : State} (h_s : Does pz s₀ s) (hp : subParts [.out,
    .fab, .eth, .pwr] pz = true) : Does pz s₀ (freeQpn p s) := by
  unfold freeQpn
  try dsimp only
  repeat' first
    | with_reducible assumption | with_reducible apply inject_does | with_reducible apply refuse_does
    | exact subParts_of (by decide) hp | with_reducible apply does_fold | simp only [does_mk]
    | with_reducible refine moves_intro ?_ rfl ?_
    | ((with_reducible refine only_intro ?_); intro p hc; cases p <;> first
        | exact (clash hp (by decide) hc).elim | dsimp only [Same])
    | intro _ | split | with_reducible apply does_ite | with_reducible apply does_fst (by assumption) | dsimp only

theorem onConnect_does {pz : List Part} {s₀ : State} {p : Packet} {s : State} (h_s : Does pz s₀ s) (hp : subParts
    [.out, .qps, .zrt, .mirror, .fab, .pcx, .cip, .eth, .pwr] pz = true) : Does pz s₀ (onConnect p s) := by
  unfold onConnect
  try dsimp only
  repeat' first
    | with_reducible assumption | with_reducible apply freeQpn_does | with_reducible apply takeConnect_does
    | with_reducible apply withContext_does | exact subParts_of (by decide) hp | with_reducible apply does_fold
    | simp only [does_mk] | with_reducible refine moves_intro ?_ rfl ?_
    | ((with_reducible refine only_intro ?_); intro p hc; cases p <;> first
        | exact (clash hp (by decide) hc).elim | dsimp only [Same])
    | intro _ | split | with_reducible apply does_ite | with_reducible apply does_fst (by assumption) | dsimp only

theorem takeAccept_does {pz : List Part} {s₀ : State} {n : Nat} {p : Packet} {s : State} (h_s : Does pz s₀ s) (hp :
    subParts [.facets, .qps, .mirror] pz = true) : Does pz s₀ (takeAccept n p s) := by
  unfold takeAccept
  try dsimp only
  repeat' first
    | with_reducible assumption | with_reducible apply endConnect_does | with_reducible apply enterRts_does
    | with_reducible apply recordPeer_does | exact subParts_of (by decide) hp | with_reducible apply does_fold
    | simp only [does_mk] | with_reducible refine moves_intro ?_ rfl ?_
    | ((with_reducible refine only_intro ?_); intro p hc; cases p <;> first
        | exact (clash hp (by decide) hc).elim | dsimp only [Same])
    | intro _ | split | with_reducible apply does_ite | with_reducible apply does_fst (by assumption) | dsimp only

theorem connectFail_does {pz : List Part} {s₀ : State} {n : Nat} {code : Nat} {s : State} (h_s : Does pz s₀ s) (hp :
    subParts [.facets, .qps] pz = true) : Does pz s₀ (connectFail n code s) := by
  unfold connectFail
  try dsimp only
  repeat' first
    | with_reducible assumption | with_reducible apply endConnect_does | with_reducible apply modQp_does
    | exact subParts_of (by decide) hp | with_reducible apply does_fold | simp only [does_mk]
    | with_reducible refine moves_intro ?_ rfl ?_
    | ((with_reducible refine only_intro ?_); intro p hc; cases p <;> first
        | exact (clash hp (by decide) hc).elim | dsimp only [Same])
    | intro _ | split | with_reducible apply does_ite | with_reducible apply does_fst (by assumption) | dsimp only

theorem connectAgain_does {pz : List Part} {s₀ : State} {n : Nat} {s : State} (h_s : Does pz s₀ s) (hp : subParts
    [.out, .facets, .qps, .fab, .eth, .pwr] pz = true) : Does pz s₀ (connectAgain n s) := by
  unfold connectAgain
  try dsimp only
  repeat' first
    | with_reducible assumption | with_reducible apply connectFail_does | with_reducible apply sendConnect_does
    | exact subParts_of (by decide) hp | with_reducible apply does_fold | simp only [does_mk]
    | with_reducible refine moves_intro ?_ rfl ?_
    | ((with_reducible refine only_intro ?_); intro p hc; cases p <;> first
        | exact (clash hp (by decide) hc).elim | dsimp only [Same])
    | intro _ | split | with_reducible apply does_ite | with_reducible apply does_fst (by assumption) | dsimp only

theorem takeReject_does {pz : List Part} {s₀ : State} {n : Nat} {p : Packet} {s : State} (h_s : Does pz s₀ s) (hp :
    subParts [.out, .facets, .qps, .fab, .eth, .pwr] pz = true) : Does pz s₀ (takeReject n p s) := by
  unfold takeReject
  try dsimp only
  repeat' first
    | with_reducible assumption | with_reducible apply connectAgain_does | with_reducible apply connectFail_does
    | exact subParts_of (by decide) hp | with_reducible apply does_fold | simp only [does_mk]
    | with_reducible refine moves_intro ?_ rfl ?_
    | ((with_reducible refine only_intro ?_); intro p hc; cases p <;> first
        | exact (clash hp (by decide) hc).elim | dsimp only [Same])
    | intro _ | split | with_reducible apply does_ite | with_reducible apply does_fst (by assumption) | dsimp only

theorem onCm_does {pz : List Part} {s₀ : State} {go : Nat → Packet → State → State} {p : Packet} {s : State} (h_go : ∀
    a0 a1 s, Does pz s₀ s → Does pz s₀ (go a0 a1 s)) (h_s : Does pz s₀ s) (hp : subParts [.out, .qps, .zrt, .mirror,
    .fab, .pcx, .cip, .eth, .pwr] pz = true) : Does pz s₀ (onCm go p s) := by
  unfold onCm
  try dsimp only
  repeat' first
    | with_reducible assumption | with_reducible apply withContext_does | with_reducible apply h_go
    | exact subParts_of (by decide) hp | with_reducible apply does_fold | simp only [does_mk]
    | with_reducible refine moves_intro ?_ rfl ?_
    | ((with_reducible refine only_intro ?_); intro p hc; cases p <;> first
        | exact (clash hp (by decide) hc).elim | dsimp only [Same])
    | intro _ | split | with_reducible apply does_ite | with_reducible apply does_fst (by assumption) | dsimp only

theorem goOnPacket_does {pz : List Part} {s₀ : State} {n : Nat} {p : Packet} {s : State} (h_s : Does pz s₀ s) (hp :
    subParts [.free, .out, .mem, .facets, .qps, .mirror, .fab, .xlt, .memc, .pcx, .cip, .eth, .pwr] pz = true) : Does
    pz s₀ (goOnPacket n p s) := by
  unfold goOnPacket
  try dsimp only
  repeat' first
    | with_reducible assumption | with_reducible apply rxChecks_does | with_reducible apply takeAccept_does
    | with_reducible apply takeConnect_does | with_reducible apply takeReject_does | exact subParts_of (by decide) hp
    | with_reducible apply does_fold | simp only [does_mk] | with_reducible refine moves_intro ?_ rfl ?_
    | ((with_reducible refine only_intro ?_); intro p hc; cases p <;> first
        | exact (clash hp (by decide) hc).elim | dsimp only [Same])
    | intro _ | split | with_reducible apply does_ite | with_reducible apply does_fst (by assumption) | dsimp only

theorem contextDone_does {pz : List Part} {s₀ : State} {n : Nat} {s : State} (h_s : Does pz s₀ s) (hp : subParts
    [.free, .out, .mem, .facets, .qps, .zrt, .mirror, .fab, .xlt, .memc, .pcx, .cip, .eth, .pwr] pz = true) : Does pz
    s₀ (contextDone n s) := by
  unfold contextDone
  try dsimp only
  repeat' first
    | with_reducible assumption | with_reducible apply freeQpn_does | with_reducible apply goOnPacket_does
    | with_reducible apply makeCtx_does | with_reducible apply tryFreeQp_does | exact subParts_of (by decide) hp
    | with_reducible apply does_fold | simp only [does_mk] | with_reducible refine moves_intro ?_ rfl ?_
    | ((with_reducible refine only_intro ?_); intro p hc; cases p <;> first
        | exact (clash hp (by decide) hc).elim | dsimp only [Same])
    | intro _ | split | with_reducible apply does_ite | with_reducible apply does_fst (by assumption) | dsimp only

theorem slotFacet_does {pz : List Part} {s₀ : State} {s : State} {f : Nat} (h_s : Does pz s₀ s) (hp : subParts
    [.facets] pz = true) : Does pz s₀ (slotFacet s f) := by
  unfold slotFacet
  try dsimp only
  repeat' first
    | with_reducible assumption | with_reducible apply modF_does | exact subParts_of (by decide) hp
    | with_reducible apply does_fold | simp only [does_mk] | with_reducible refine moves_intro ?_ rfl ?_
    | ((with_reducible refine only_intro ?_); intro p hc; cases p <;> first
        | exact (clash hp (by decide) hc).elim | dsimp only [Same])
    | intro _ | split | with_reducible apply does_ite | with_reducible apply does_fst (by assumption) | dsimp only

theorem wheelStep_does {pz : List Part} {s₀ : State} {s : State} (h_s : Does pz s₀ s) (hp : subParts [.out, .facets,
    .arb, .wheel, .fab, .eth, .pwr] pz = true) : Does pz s₀ (wheelStep s) := by
  unfold wheelStep
  try dsimp only
  repeat' first
    | with_reducible assumption | with_reducible apply slotFacet_does | with_reducible apply takeTurns_does
    | exact subParts_of (by decide) hp | with_reducible apply does_fold | simp only [does_mk]
    | with_reducible refine moves_intro ?_ rfl ?_
    | ((with_reducible refine only_intro ?_); intro p hc; cases p <;> first
        | exact (clash hp (by decide) hc).elim | dsimp only [Same])
    | intro _ | split | with_reducible apply does_ite | with_reducible apply does_fst (by assumption) | dsimp only

theorem unreachable_does {pz : List Part} {s₀ : State} {a : BitVec 24} {s : State} (h_s : Does pz s₀ s) (hp : subParts
    [.qps, .fab] pz = true) : Does pz s₀ (unreachable a s) := by
  unfold unreachable
  try dsimp only
  repeat' first
    | with_reducible assumption | with_reducible apply enterHold_does | exact subParts_of (by decide) hp
    | with_reducible apply does_fold | simp only [does_mk] | with_reducible refine moves_intro ?_ rfl ?_
    | ((with_reducible refine only_intro ?_); intro p hc; cases p <;> first
        | exact (clash hp (by decide) hc).elim | dsimp only [Same])
    | intro _ | split | with_reducible apply does_ite | with_reducible apply does_fst (by assumption) | dsimp only

theorem takeNoroute_does {pz : List Part} {s₀ : State} {m : Notice} {s : State} (h_s : Does pz s₀ s) (hp : subParts
    [.qps, .fab] pz = true) : Does pz s₀ (takeNoroute m s) := by
  unfold takeNoroute
  try dsimp only
  repeat' first
    | with_reducible assumption | with_reducible apply unreachable_does | exact subParts_of (by decide) hp
    | with_reducible apply does_fold | simp only [does_mk] | with_reducible refine moves_intro ?_ rfl ?_
    | ((with_reducible refine only_intro ?_); intro p hc; cases p <;> first
        | exact (clash hp (by decide) hc).elim | dsimp only [Same])
    | intro _ | split | with_reducible apply does_ite | with_reducible apply does_fst (by assumption) | dsimp only

end Sys2Proof.Machine
end

