-- ==== Sys2Proof/Laws/CipherFrame.lean ====
section
/-!
SUPPORT. What each operation of Machine/Cipher.lean may change: one lemma per operation.
-/
set_option linter.unusedTactic false
set_option linter.unreachableTactic false
set_option linter.unusedSimpArgs false
set_option linter.unusedVariables false

namespace Sys2Proof.Machine

theorem keyEnd_does {pz : List Part} {s₀ : State} {f : Nat} {code : Nat} {reason : Nat} {s : State} (h_s : Does pz s₀
    s) (hp : subParts [.facets] pz = true) : Does pz s₀ (keyEnd f code reason s) := by
  unfold keyEnd
  try dsimp only
  repeat' first
    | with_reducible assumption | with_reducible apply modF_does | exact subParts_of (by decide) hp
    | with_reducible apply does_fold | simp only [does_mk] | with_reducible refine moves_intro ?_ rfl ?_
    | ((with_reducible refine only_intro ?_); intro p hc; cases p <;> first
        | exact (clash hp (by decide) hc).elim | dsimp only [Same])
    | intro _ | split | with_reducible apply does_ite | with_reducible apply does_fst (by assumption) | dsimp only

theorem keySet_does {pz : List Part} {s₀ : State} {f : Nat} {k : Option Key} {s : State} (h_s : Does pz s₀ s) (hp :
    subParts [.facets, .qps, .mirror, .pcx, .cip] pz = true) : Does pz s₀ (keySet f k s) := by
  unfold keySet
  try dsimp only
  repeat' first
    | with_reducible assumption | with_reducible apply cipGo_does | with_reducible apply keyEnd_does
    | with_reducible apply modF_does | with_reducible apply modQp_does | exact subParts_of (by decide) hp
    | with_reducible apply does_fold | simp only [does_mk] | with_reducible refine moves_intro ?_ rfl ?_
    | ((with_reducible refine only_intro ?_); intro p hc; cases p <;> first
        | exact (clash hp (by decide) hc).elim | dsimp only [Same])
    | intro _ | split | with_reducible apply does_ite | with_reducible apply does_fst (by assumption) | dsimp only

theorem newPhase_does {pz : List Part} {s₀ : State} {n : Nat} {p : Bool} {s : State} (h_s : Does pz s₀ s) (hp :
    subParts [.qps, .cip] pz = true) : Does pz s₀ (newPhase n p s) := by
  unfold newPhase
  try dsimp only
  repeat' first
    | with_reducible assumption | with_reducible apply modQp_does | exact subParts_of (by decide) hp
    | with_reducible apply does_fold | simp only [does_mk] | with_reducible refine moves_intro ?_ rfl ?_
    | ((with_reducible refine only_intro ?_); intro p hc; cases p <;> first
        | exact (clash hp (by decide) hc).elim | dsimp only [Same])
    | intro _ | split | with_reducible apply does_ite | with_reducible apply does_fst (by assumption) | dsimp only

theorem keySwitch_does {pz : List Part} {s₀ : State} {f : Nat} {s : State} (h_s : Does pz s₀ s) (hp : subParts
    [.facets, .qps, .mirror, .pcx, .cip] pz = true) : Does pz s₀ (keySwitch f s) := by
  unfold keySwitch
  try dsimp only
  repeat' first
    | with_reducible assumption | with_reducible apply cipGo_does | with_reducible apply keyEnd_does
    | with_reducible apply newPhase_does | exact subParts_of (by decide) hp | with_reducible apply does_fold
    | simp only [does_mk] | with_reducible refine moves_intro ?_ rfl ?_
    | ((with_reducible refine only_intro ?_); intro p hc; cases p <;> first
        | exact (clash hp (by decide) hc).elim | dsimp only [Same])
    | intro _ | split | with_reducible apply does_ite | with_reducible apply does_fst (by assumption) | dsimp only

theorem keyQuery_does {pz : List Part} {s₀ : State} {f : Nat} {s : State} (h_s : Does pz s₀ s) (hp : subParts
    [.facets] pz = true) : Does pz s₀ (keyQuery f s) := by
  unfold keyQuery
  try dsimp only
  repeat' first
    | with_reducible assumption | with_reducible apply keyEnd_does | with_reducible apply modF_does
    | exact subParts_of (by decide) hp | with_reducible apply does_fold | simp only [does_mk]
    | with_reducible refine moves_intro ?_ rfl ?_
    | ((with_reducible refine only_intro ?_); intro p hc; cases p <;> first
        | exact (clash hp (by decide) hc).elim | dsimp only [Same])
    | intro _ | split | with_reducible apply does_ite | with_reducible apply does_fst (by assumption) | dsimp only

theorem keyRun_does {pz : List Part} {s₀ : State} {f : Nat} {op : Nat} {s : State} (h_s : Does pz s₀ s) (hp : subParts
    [.facets, .qps, .mirror, .pcx, .cip] pz = true) : Does pz s₀ (keyRun f op s) := by
  unfold keyRun
  try dsimp only
  repeat' first
    | with_reducible assumption | with_reducible apply keyQuery_does | with_reducible apply keySet_does
    | with_reducible apply keySwitch_does | exact subParts_of (by decide) hp | with_reducible apply does_fold
    | simp only [does_mk] | with_reducible refine moves_intro ?_ rfl ?_
    | ((with_reducible refine only_intro ?_); intro p hc; cases p <;> first
        | exact (clash hp (by decide) hc).elim | dsimp only [Same])
    | intro _ | split | with_reducible apply does_ite | with_reducible apply does_fst (by assumption) | dsimp only

theorem keyCommand_does {pz : List Part} {s₀ : State} {f : Nat} {op : Nat} {s : State} (h_s : Does pz s₀ s) (hp :
    subParts [.facets, .qps, .zrt, .mirror, .pcx, .cip] pz = true) : Does pz s₀ (keyCommand f op s) := by
  unfold keyCommand
  try dsimp only
  repeat' first
    | with_reducible assumption | with_reducible apply keyRun_does | with_reducible apply modF_does
    | exact subParts_of (by decide) hp | with_reducible apply does_fold | simp only [does_mk]
    | with_reducible refine moves_intro ?_ rfl ?_
    | ((with_reducible refine only_intro ?_); intro p hc; cases p <;> first
        | exact (clash hp (by decide) hc).elim | dsimp only [Same])
    | intro _ | split | with_reducible apply does_ite | with_reducible apply does_fst (by assumption) | dsimp only

theorem keysGo_does {pz : List Part} {s₀ : State} {n : Nat} {s : State} (h_s : Does pz s₀ s) (hp : subParts [.facets,
    .qps, .mirror, .pcx, .cip] pz = true) : Does pz s₀ (keysGo n s) := by
  unfold keysGo
  try dsimp only
  repeat' first
    | with_reducible assumption | with_reducible apply keyRun_does | exact subParts_of (by decide) hp
    | with_reducible apply does_fold | simp only [does_mk] | with_reducible refine moves_intro ?_ rfl ?_
    | ((with_reducible refine only_intro ?_); intro p hc; cases p <;> first
        | exact (clash hp (by decide) hc).elim | dsimp only [Same])
    | intro _ | split | with_reducible apply does_ite | with_reducible apply does_fst (by assumption) | dsimp only

theorem cmpEnd_does {pz : List Part} {s₀ : State} {f : Nat} {code : Nat} {reason : Nat} {s : State} (h_s : Does pz s₀
    s) (hp : subParts [.facets, .pcx, .cip] pz = true) : Does pz s₀ (cmpEnd f code reason s) := by
  unfold cmpEnd
  try dsimp only
  repeat' first
    | with_reducible assumption | with_reducible apply modF_does | with_reducible apply schedule_does
    | exact subParts_of (by decide) hp | with_reducible apply does_fold | simp only [does_mk]
    | with_reducible refine moves_intro ?_ rfl ?_
    | ((with_reducible refine only_intro ?_); intro p hc; cases p <;> first
        | exact (clash hp (by decide) hc).elim | dsimp only [Same])
    | intro _ | split | with_reducible apply does_ite | with_reducible apply does_fst (by assumption) | dsimp only

theorem cmpPortError_does {pz : List Part} {s₀ : State} {f : Nat} {s : State} (h_s : Does pz s₀ s) (hp : subParts
    [.facets, .pcx, .cip] pz = true) : Does pz s₀ (cmpPortError f s) := by
  unfold cmpPortError
  try dsimp only
  repeat' first
    | with_reducible assumption | with_reducible apply cmpEnd_does | exact subParts_of (by decide) hp
    | with_reducible apply does_fold | simp only [does_mk] | with_reducible refine moves_intro ?_ rfl ?_
    | ((with_reducible refine only_intro ?_); intro p hc; cases p <;> first
        | exact (clash hp (by decide) hc).elim | dsimp only [Same])
    | intro _ | split | with_reducible apply does_ite | with_reducible apply does_fst (by assumption) | dsimp only

theorem cmpDone_does {pz : List Part} {s₀ : State} {f : Nat} {code : Nat} {reason : Nat} {out : Nat} {iv : BitVec 128}
    {s : State} (h_s : Does pz s₀ s) (hp : subParts [.facets, .pcx, .cip] pz = true) : Does pz s₀ (cmpDone f code
    reason out iv s) := by
  unfold cmpDone
  try dsimp only
  repeat' first
    | with_reducible assumption | with_reducible apply cmpEnd_does | with_reducible apply modF_does
    | exact subParts_of (by decide) hp | with_reducible apply does_fold | simp only [does_mk]
    | with_reducible refine moves_intro ?_ rfl ?_
    | ((with_reducible refine only_intro ?_); intro p hc; cases p <;> first
        | exact (clash hp (by decide) hc).elim | dsimp only [Same])
    | intro _ | split | with_reducible apply does_ite | with_reducible apply does_fst (by assumption) | dsimp only

theorem cmpStart_does {pz : List Part} {s₀ : State} {f : Nat} {op : Nat} {v : U32} {s : State} (h_s : Does pz s₀ s)
    (hp : subParts [.facets, .pcx, .cip] pz = true) : Does pz s₀ (cmpStart f op v s) := by
  unfold cmpStart
  try dsimp only
  repeat' first
    | with_reducible assumption | with_reducible apply cmpDone_does | with_reducible apply modF_does
    | with_reducible apply schedule_does | exact subParts_of (by decide) hp | with_reducible apply does_fold
    | simp only [does_mk] | with_reducible refine moves_intro ?_ rfl ?_
    | ((with_reducible refine only_intro ?_); intro p hc; cases p <;> first
        | exact (clash hp (by decide) hc).elim | dsimp only [Same])
    | intro _ | split | with_reducible apply does_ite | with_reducible apply does_fst (by assumption) | dsimp only

theorem pieceDone_does {pz : List Part} {s₀ : State} {f : Nat} {k : Option Key} {bytes : Bytes} {s : State} (h_s :
    Does pz s₀ s) (hp : subParts [.mem, .facets, .memc, .pcx, .cip] pz = true) : Does pz s₀ (pieceDone f k bytes s) :=
    by
  unfold pieceDone
  try dsimp only
  repeat' first
    | with_reducible assumption | with_reducible apply cmpDone_does | with_reducible apply modF_does
    | with_reducible apply postPin_does | with_reducible apply schedule_does | exact subParts_of (by decide) hp
    | with_reducible apply does_fold | simp only [does_mk] | with_reducible refine moves_intro ?_ rfl ?_
    | ((with_reducible refine only_intro ?_); intro p hc; cases p <;> first
        | exact (clash hp (by decide) hc).elim | dsimp only [Same])
    | intro _ | split | with_reducible apply does_ite | with_reducible apply does_fst (by assumption) | dsimp only

theorem engineOut_does {pz : List Part} {s₀ : State} {x0 : Nat} {x1 : Nat} {x2 : Bool} {x3 : State} (h_x3 : Does pz s₀
    x3) (hp : subParts [.free, .out, .mem, .facets, .qps, .mirror, .fab, .xlt, .memc, .pcx, .cip, .eth, .pwr] pz =
    true) : Does pz s₀ (engineOut x0 x1 x2 x3) := by
  induction x0 generalizing x1 x2 x3 with
  | zero =>
    unfold engineOut
    try dsimp only
    repeat' first
      | with_reducible assumption | with_reducible apply inject_does | with_reducible apply rxTake_does
      | exact subParts_of (by decide) hp | with_reducible apply does_fold | simp only [does_mk]
      | with_reducible refine moves_intro ?_ rfl ?_
      | ((with_reducible refine only_intro ?_); intro p hc; cases p <;> first
          | exact (clash hp (by decide) hc).elim | dsimp only [Same])
      | intro _ | split | with_reducible apply does_ite | with_reducible apply does_fst (by assumption) | dsimp only
  | succ k ih =>
    unfold engineOut
    try dsimp only
    repeat' first
      | with_reducible assumption | with_reducible apply ih | with_reducible apply inject_does
      | with_reducible apply rxTake_does | exact subParts_of (by decide) hp | with_reducible apply does_fold
      | simp only [does_mk] | with_reducible refine moves_intro ?_ rfl ?_
      | ((with_reducible refine only_intro ?_); intro p hc; cases p <;> first
          | exact (clash hp (by decide) hc).elim | dsimp only [Same])
      | intro _ | split | with_reducible apply does_ite | with_reducible apply does_fst (by assumption) | dsimp only

theorem engineDrop_does {pz : List Part} {s₀ : State} {id : Nat} {s : State} (h_s : Does pz s₀ s) (hp : subParts
    [.cip] pz = true) : Does pz s₀ (engineDrop id s) := by
  unfold engineDrop
  try dsimp only
  repeat' first
    | with_reducible assumption | exact subParts_of (by decide) hp | with_reducible apply does_fold
    | simp only [does_mk] | with_reducible refine moves_intro ?_ rfl ?_
    | ((with_reducible refine only_intro ?_); intro p hc; cases p <;> first
        | exact (clash hp (by decide) hc).elim | dsimp only [Same])
    | intro _ | split | with_reducible apply does_ite | with_reducible apply does_fst (by assumption) | dsimp only

theorem packetDone_does {pz : List Part} {s₀ : State} {id : Nat} {n : Nat} {tx : Bool} {p : Packet} {k : Option Key}
    {s : State} (h_s : Does pz s₀ s) (hp : subParts [.free, .out, .mem, .facets, .qps, .zrt, .mirror, .fab, .xlt,
    .memc, .pcx, .cip, .eth, .pwr] pz = true) : Does pz s₀ (packetDone id n tx p k s) := by
  unfold packetDone
  try dsimp only
  repeat' first
    | with_reducible assumption | with_reducible apply authFail_does | with_reducible apply engineDrop_does
    | with_reducible apply engineOut_does | with_reducible apply tryFreeQp_does | exact subParts_of (by decide) hp
    | with_reducible apply does_fold | simp only [does_mk] | with_reducible refine moves_intro ?_ rfl ?_
    | ((with_reducible refine only_intro ?_); intro p hc; cases p <;> first
        | exact (clash hp (by decide) hc).elim | dsimp only [Same])
    | intro _ | split | with_reducible apply does_ite | with_reducible apply does_fst (by assumption) | dsimp only

theorem jobDone_does {pz : List Part} {s₀ : State} {c : Nat} {bytes : Bytes} {s : State} (h_s : Does pz s₀ s) (hp :
    subParts [.free, .out, .mem, .facets, .qps, .zrt, .mirror, .fab, .xlt, .memc, .pcx, .cip, .eth, .pwr] pz = true) :
    Does pz s₀ (jobDone c bytes s) := by
  unfold jobDone
  try dsimp only
  repeat' first
    | with_reducible assumption | with_reducible apply packetDone_does | with_reducible apply pieceDone_does
    | with_reducible apply schedule_does | exact subParts_of (by decide) hp | with_reducible apply does_fold
    | simp only [does_mk] | with_reducible refine moves_intro ?_ rfl ?_
    | ((with_reducible refine only_intro ?_); intro p hc; cases p <;> first
        | exact (clash hp (by decide) hc).elim | dsimp only [Same])
    | intro _ | split | with_reducible apply does_ite | with_reducible apply does_fst (by assumption) | dsimp only

theorem coreMismatch_does {pz : List Part} {s₀ : State} {c : Nat} {s : State} (h_s : Does pz s₀ s) (hp : subParts
    [.free, .out, .mem, .facets, .qps, .zrt, .mirror, .fab, .xlt, .memc, .pcx, .cip, .eth, .pwr] pz = true) : Does pz
    s₀ (coreMismatch c s) := by
  unfold coreMismatch
  try dsimp only
  repeat' first
    | with_reducible assumption | with_reducible apply engineDrop_does | with_reducible apply engineOut_does
    | with_reducible apply fillCores_does | with_reducible apply schedule_does | with_reducible apply tryFreeQp_does
    | exact subParts_of (by decide) hp | with_reducible apply does_fold | simp only [does_mk]
    | with_reducible refine moves_intro ?_ rfl ?_
    | ((with_reducible refine only_intro ?_); intro p hc; cases p <;> first
        | exact (clash hp (by decide) hc).elim | dsimp only [Same])
    | intro _ | split | with_reducible apply does_ite | with_reducible apply does_fst (by assumption) | dsimp only

theorem entropyReady_does {pz : List Part} {s₀ : State} {s : State} (h_s : Does pz s₀ s) (hp : subParts [.free,
    .facets, .qps, .zrt, .mirror, .pcx, .cip, .trust] pz = true) : Does pz s₀ (entropyReady s) := by
  unfold entropyReady
  try dsimp only
  repeat' first
    | with_reducible assumption | with_reducible apply createQp_does | with_reducible apply drew_does
    | with_reducible apply schedule_does | exact subParts_of (by decide) hp | with_reducible apply does_fold
    | simp only [does_mk] | with_reducible refine moves_intro ?_ rfl ?_
    | ((with_reducible refine only_intro ?_); intro p hc; cases p <;> first
        | exact (clash hp (by decide) hc).elim | dsimp only [Same])
    | intro _ | split | with_reducible apply does_ite | with_reducible apply does_fst (by assumption) | dsimp only

theorem extendM_does {pz : List Part} {s₀ : State} {k : Nat} {d : BitVec 512} {s : State} (h_s : Does pz s₀ s) (hp :
    subParts [.trust] pz = true) : Does pz s₀ (extendM k d s) := by
  unfold extendM
  try dsimp only
  repeat' first
    | with_reducible assumption | exact subParts_of (by decide) hp | with_reducible apply does_fold
    | simp only [does_mk] | with_reducible refine moves_intro ?_ rfl ?_
    | ((with_reducible refine only_intro ?_); intro p hc; cases p <;> first
        | exact (clash hp (by decide) hc).elim | dsimp only [Same])
    | intro _ | split | with_reducible apply does_ite | with_reducible apply does_fst (by assumption) | dsimp only

theorem attRequest_does {pz : List Part} {s₀ : State} {f : Nat} {cert : Bool} {s : State} (h_s : Does pz s₀ s) (hp :
    subParts [.free, .facets, .trust] pz = true) : Does pz s₀ (attRequest f cert s) := by
  unfold attRequest
  try dsimp only
  repeat' first
    | with_reducible assumption | with_reducible apply modF_does | exact subParts_of (by decide) hp
    | with_reducible apply does_fold | simp only [does_mk] | with_reducible refine moves_intro ?_ rfl ?_
    | ((with_reducible refine only_intro ?_); intro p hc; cases p <;> first
        | exact (clash hp (by decide) hc).elim | dsimp only [Same])
    | intro _ | split | with_reducible apply does_ite | with_reducible apply does_fst (by assumption) | dsimp only

theorem reportDone_does {pz : List Part} {s₀ : State} {s : State} (h_s : Does pz s₀ s) (hp : subParts [.free, .mem,
    .facets, .memc, .pcx, .trust] pz = true) : Does pz s₀ (reportDone s) := by
  unfold reportDone
  try dsimp only
  repeat' first
    | with_reducible assumption | with_reducible apply modF_does | with_reducible apply postPin_does
    | exact subParts_of (by decide) hp | with_reducible apply does_fold | simp only [does_mk]
    | with_reducible refine moves_intro ?_ rfl ?_
    | ((with_reducible refine only_intro ?_); intro p hc; cases p <;> first
        | exact (clash hp (by decide) hc).elim | dsimp only [Same])
    | intro _ | split | with_reducible apply does_ite | with_reducible apply does_fst (by assumption) | dsimp only

end Sys2Proof.Machine
end

