-- ==== Sys2Proof/Laws/EthernetFrame.lean ====
section
/-!
SUPPORT. What each operation of Machine/Ethernet.lean may change: one lemma per operation.
-/
set_option linter.unusedTactic false
set_option linter.unreachableTactic false
set_option linter.unusedSimpArgs false
set_option linter.unusedVariables false

namespace Sys2Proof.Machine

theorem modSend_does {pz : List Part} {s₀ : State} {x : EthSend} {g : EthSend → EthSend} {s : State} (h_s : Does pz s₀
    s) (hp : subParts [.eth] pz = true) : Does pz s₀ (modSend x g s) := by
  unfold modSend
  try dsimp only
  repeat' first
    | with_reducible assumption | exact subParts_of (by decide) hp | with_reducible apply does_fold
    | simp only [does_mk] | with_reducible refine moves_intro ?_ rfl ?_
    | ((with_reducible refine only_intro ?_); intro p hc; cases p <;> first
        | exact (clash hp (by decide) hc).elim | dsimp only [Same])
    | intro _ | split | with_reducible apply does_ite | with_reducible apply does_fst (by assumption) | dsimp only

theorem endSend_does {pz : List Part} {s₀ : State} {x : EthSend} {st : Status} {s : State} (h_s : Does pz s₀ s) (hp :
    subParts [.mem, .facets, .mirror, .memc, .pcx, .eth] pz = true) : Does pz s₀ (endSend x st s) := by
  unfold endSend
  try dsimp only
  repeat' first
    | with_reducible assumption | with_reducible apply completeItem_does | with_reducible apply settle_does
    | exact subParts_of (by decide) hp | with_reducible apply does_fold | simp only [does_mk]
    | with_reducible refine moves_intro ?_ rfl ?_
    | ((with_reducible refine only_intro ?_); intro p hc; cases p <;> first
        | exact (clash hp (by decide) hc).elim | dsimp only [Same])
    | intro _ | split | with_reducible apply does_ite | with_reducible apply does_fst (by assumption) | dsimp only

theorem frameGone_does {pz : List Part} {s₀ : State} {k : Nat × U32} {s : State} (h_s : Does pz s₀ s) (hp : subParts
    [.mem, .facets, .mirror, .memc, .pcx, .eth] pz = true) : Does pz s₀ (frameGone k s) := by
  unfold frameGone
  try dsimp only
  repeat' first
    | with_reducible assumption | with_reducible apply endSend_does | with_reducible apply modSend_does
    | exact subParts_of (by decide) hp | with_reducible apply does_fold | simp only [does_mk]
    | with_reducible refine moves_intro ?_ rfl ?_
    | ((with_reducible refine only_intro ?_); intro p hc; cases p <;> first
        | exact (clash hp (by decide) hc).elim | dsimp only [Same])
    | intro _ | split | with_reducible apply does_ite | with_reducible apply does_fst (by assumption) | dsimp only

theorem ethUp_does {pz : List Part} {s₀ : State} {p : Nat} {b : Nat} {s : State} (h_s : Does pz s₀ s) (hp : subParts
    [.eth] pz = true) : Does pz s₀ (ethUp p b s) := by
  unfold ethUp
  try dsimp only
  repeat' first
    | with_reducible assumption | with_reducible apply modEth_does | exact subParts_of (by decide) hp
    | with_reducible apply does_fold | simp only [does_mk] | with_reducible refine moves_intro ?_ rfl ?_
    | ((with_reducible refine only_intro ?_); intro p hc; cases p <;> first
        | exact (clash hp (by decide) hc).elim | dsimp only [Same])
    | intro _ | split | with_reducible apply does_ite | with_reducible apply does_fst (by assumption) | dsimp only

theorem ethDown_does {pz : List Part} {s₀ : State} {p : Nat} {b : Nat} {s : State} (h_s : Does pz s₀ s) (hp : subParts
    [.mem, .facets, .mirror, .memc, .pcx, .eth] pz = true) : Does pz s₀ (ethDown p b s) := by
  unfold ethDown
  try dsimp only
  repeat' first
    | with_reducible assumption | with_reducible apply frameGone_does | with_reducible apply modEth_does
    | exact subParts_of (by decide) hp | with_reducible apply does_fold | simp only [does_mk]
    | with_reducible refine moves_intro ?_ rfl ?_
    | ((with_reducible refine only_intro ?_); intro p hc; cases p <;> first
        | exact (clash hp (by decide) hc).elim | dsimp only [Same])
    | intro _ | split | with_reducible apply does_ite | with_reducible apply does_fst (by assumption) | dsimp only

theorem enterPod_does {pz : List Part} {s₀ : State} {p : Nat} {b : Nat} {n : Nat} {far : FarBits} {bs : Bytes} {s :
    State} (h_s : Does pz s₀ s) (hp : subParts [.out, .fab, .eth, .pwr] pz = true) : Does pz s₀ (enterPod p b n far bs
    s) := by
  unfold enterPod
  try dsimp only
  repeat' first
    | with_reducible assumption | with_reducible apply modEth_does | with_reducible apply routePacket_does
    | exact subParts_of (by decide) hp | with_reducible apply does_fold | simp only [does_mk]
    | with_reducible refine moves_intro ?_ rfl ?_
    | ((with_reducible refine only_intro ?_); intro p hc; cases p <;> first
        | exact (clash hp (by decide) hc).elim | dsimp only [Same])
    | intro _ | split | with_reducible apply does_ite | with_reducible apply does_fst (by assumption) | dsimp only

theorem modRaw_does {pz : List Part} {s₀ : State} {idx : U32} {g : RawRecv → RawRecv} {s : State} (h_s : Does pz s₀ s)
    (hp : subParts [.eth] pz = true) : Does pz s₀ (modRaw idx g s) := by
  unfold modRaw
  try dsimp only
  repeat' first
    | with_reducible assumption | exact subParts_of (by decide) hp | with_reducible apply does_fold
    | simp only [does_mk] | with_reducible refine moves_intro ?_ rfl ?_
    | ((with_reducible refine only_intro ?_); intro p hc; cases p <;> first
        | exact (clash hp (by decide) hc).elim | dsimp only [Same])
    | intro _ | split | with_reducible apply does_ite | with_reducible apply does_fst (by assumption) | dsimp only

theorem placeRaw_does {pz : List Part} {s₀ : State} {s : State} (h_s : Does pz s₀ s) (hp : subParts [.free, .mem,
    .facets, .xlt, .memc, .pcx, .eth] pz = true) : Does pz s₀ (placeRaw s).1 := by
  unfold placeRaw
  try dsimp only
  repeat' first
    | with_reducible assumption | with_reducible apply modRaw_does | with_reducible apply postAll_does
    | with_reducible apply translate_does | exact subParts_of (by decide) hp | with_reducible apply does_fold
    | simp only [does_mk] | with_reducible refine moves_intro ?_ rfl ?_
    | ((with_reducible refine only_intro ?_); intro p hc; cases p <;> first
        | exact (clash hp (by decide) hc).elim | dsimp only [Same])
    | intro _ | split | with_reducible apply does_ite | with_reducible apply does_fst (by assumption) | dsimp only

theorem placeRaws_does {pz : List Part} {s₀ : State} {x0 : Nat} {x1 : State} (h_x1 : Does pz s₀ x1) (hp : subParts
    [.free, .mem, .facets, .xlt, .memc, .pcx, .eth] pz = true) : Does pz s₀ (placeRaws x0 x1) := by
  induction x0 generalizing x1 with
  | zero =>
    unfold placeRaws
    try dsimp only
    repeat' first
      | with_reducible assumption | with_reducible apply placeRaw_does | exact subParts_of (by decide) hp
      | with_reducible apply does_fold | simp only [does_mk] | with_reducible refine moves_intro ?_ rfl ?_
      | ((with_reducible refine only_intro ?_); intro p hc; cases p <;> first
          | exact (clash hp (by decide) hc).elim | dsimp only [Same])
      | intro _ | split | with_reducible apply does_ite | with_reducible apply does_fst (by assumption) | dsimp only
  | succ k ih =>
    unfold placeRaws
    try dsimp only
    repeat' first
      | with_reducible assumption | with_reducible apply ih | with_reducible apply placeRaw_does
      | exact subParts_of (by decide) hp | with_reducible apply does_fold | simp only [does_mk]
      | with_reducible refine moves_intro ?_ rfl ?_
      | ((with_reducible refine only_intro ?_); intro p hc; cases p <;> first
          | exact (clash hp (by decide) hc).elim | dsimp only [Same])
      | intro _ | split | with_reducible apply does_ite | with_reducible apply does_fst (by assumption) | dsimp only

theorem rawGo_does {pz : List Part} {s₀ : State} {s : State} (h_s : Does pz s₀ s) (hp : subParts [.free, .mem,
    .facets, .xlt, .memc, .pcx, .eth] pz = true) : Does pz s₀ (rawGo s) := by
  unfold rawGo
  try dsimp only
  repeat' first
    | with_reducible assumption | with_reducible apply placeRaws_does | exact subParts_of (by decide) hp
    | with_reducible apply does_fold | simp only [does_mk] | with_reducible refine moves_intro ?_ rfl ?_
    | ((with_reducible refine only_intro ?_); intro p hc; cases p <;> first
        | exact (clash hp (by decide) hc).elim | dsimp only [Same])
    | intro _ | split | with_reducible apply does_ite | with_reducible apply does_fst (by assumption) | dsimp only

theorem toRaw_does {pz : List Part} {s₀ : State} {p : Nat} {b : Nat} {bs : Bytes} {s : State} (h_s : Does pz s₀ s) (hp
    : subParts [.free, .mem, .facets, .mirror, .xlt, .memc, .pcx, .eth] pz = true) : Does pz s₀ (toRaw p b bs s) := by
  unfold toRaw
  try dsimp only
  repeat' first
    | with_reducible assumption | with_reducible apply completeRecv_does | with_reducible apply modEth_does
    | with_reducible apply modItem_does | with_reducible apply rawGo_does | with_reducible apply settle_does
    | exact subParts_of (by decide) hp | with_reducible apply does_fold | simp only [does_mk]
    | with_reducible refine moves_intro ?_ rfl ?_
    | ((with_reducible refine only_intro ?_); intro p hc; cases p <;> first
        | exact (clash hp (by decide) hc).elim | dsimp only [Same])
    | intro _ | split | with_reducible apply does_ite | with_reducible apply does_fst (by assumption) | dsimp only

theorem endRaw_does {pz : List Part} {s₀ : State} {r : RawRecv} {st : Status} {count : Nat} {s : State} (h_s : Does pz
    s₀ s) (hp : subParts [.mem, .facets, .mirror, .memc, .pcx, .eth] pz = true) : Does pz s₀ (endRaw r st count s) :=
    by
  unfold endRaw
  try dsimp only
  repeat' first
    | with_reducible assumption | with_reducible apply completeRecv_does | with_reducible apply settle_does
    | exact subParts_of (by decide) hp | with_reducible apply does_fold | simp only [does_mk]
    | with_reducible refine moves_intro ?_ rfl ?_
    | ((with_reducible refine only_intro ?_); intro p hc; cases p <;> first
        | exact (clash hp (by decide) hc).elim | dsimp only [Same])
    | intro _ | split | with_reducible apply does_ite | with_reducible apply does_fst (by assumption) | dsimp only

theorem rawPlaced_does {pz : List Part} {s₀ : State} {idx : U32} {s : State} (h_s : Does pz s₀ s) (hp : subParts
    [.mem, .facets, .mirror, .memc, .pcx, .eth] pz = true) : Does pz s₀ (rawPlaced idx s) := by
  unfold rawPlaced
  try dsimp only
  repeat' first
    | with_reducible assumption | with_reducible apply endRaw_does | exact subParts_of (by decide) hp
    | with_reducible apply does_fold | simp only [does_mk] | with_reducible refine moves_intro ?_ rfl ?_
    | ((with_reducible refine only_intro ?_); intro p hc; cases p <;> first
        | exact (clash hp (by decide) hc).elim | dsimp only [Same])
    | intro _ | split | with_reducible apply does_ite | with_reducible apply does_fst (by assumption) | dsimp only

theorem abortRaw_does {pz : List Part} {s₀ : State} {s : State} (h_s : Does pz s₀ s) (hp : subParts [.free, .mem,
    .facets, .mirror, .xlt, .memc, .pcx, .eth] pz = true) : Does pz s₀ (abortRaw s) := by
  unfold abortRaw
  try dsimp only
  repeat' first
    | with_reducible assumption | with_reducible apply endRaw_does | with_reducible apply rawGo_does
    | with_reducible apply voidWrites_does | exact subParts_of (by decide) hp | with_reducible apply does_fold
    | simp only [does_mk] | with_reducible refine moves_intro ?_ rfl ?_
    | ((with_reducible refine only_intro ?_); intro p hc; cases p <;> first
        | exact (clash hp (by decide) hc).elim | dsimp only [Same])
    | intro _ | split | with_reducible apply does_ite | with_reducible apply does_fst (by assumption) | dsimp only

theorem rxFrame_does {pz : List Part} {s₀ : State} {p : Nat} {b : Nat} {fcsOk : Bool} {far : FarBits} {bs : Bytes} {s
    : State} (h_s : Does pz s₀ s) (hp : subParts [.free, .out, .mem, .facets, .mirror, .fab, .xlt, .memc, .pcx, .eth,
    .pwr] pz = true) : Does pz s₀ (rxFrame p b fcsOk far bs s) := by
  unfold rxFrame
  try dsimp only
  repeat' first
    | with_reducible assumption | with_reducible apply enterPod_does | with_reducible apply modEth_does
    | with_reducible apply toRaw_does | exact subParts_of (by decide) hp | with_reducible apply does_fold
    | simp only [does_mk] | with_reducible refine moves_intro ?_ rfl ?_
    | ((with_reducible refine only_intro ?_); intro p hc; cases p <;> first
        | exact (clash hp (by decide) hc).elim | dsimp only [Same])
    | intro _ | split | with_reducible apply does_ite | with_reducible apply does_fst (by assumption) | dsimp only

theorem dropFrames_does {pz : List Part} {s₀ : State} {f : Nat} {q : Nat} {idx : U32} {s : State} (h_s : Does pz s₀ s)
    (hp : subParts [.mirror] pz = true) : Does pz s₀ (dropFrames f q idx s) := by
  unfold dropFrames
  try dsimp only
  repeat' first
    | with_reducible assumption | exact subParts_of (by decide) hp | with_reducible apply does_fold
    | simp only [does_mk] | with_reducible refine moves_intro ?_ rfl ?_
    | ((with_reducible refine only_intro ?_); intro p hc; cases p <;> first
        | exact (clash hp (by decide) hc).elim | dsimp only [Same])
    | intro _ | split | with_reducible apply does_ite | with_reducible apply does_fst (by assumption) | dsimp only

theorem recordFrame_does {pz : List Part} {s₀ : State} {q : Nat} {s : State} (h_s : Does pz s₀ s) (hp : subParts
    [.mirror] pz = true) : Does pz s₀ (recordFrame q s) := by
  unfold recordFrame
  try dsimp only
  repeat' first
    | with_reducible assumption | with_reducible apply mirrorIssue_does | exact subParts_of (by decide) hp
    | with_reducible apply does_fold | simp only [does_mk] | with_reducible refine moves_intro ?_ rfl ?_
    | ((with_reducible refine only_intro ?_); intro p hc; cases p <;> first
        | exact (clash hp (by decide) hc).elim | dsimp only [Same])
    | intro _ | split | with_reducible apply does_ite | with_reducible apply does_fst (by assumption) | dsimp only

theorem ethStart_does {pz : List Part} {s₀ : State} {f : Nat} {q : Nat} {i : Item} {h : Bytes} {t : Trans} {s : State}
    (h_s : Does pz s₀ s) (hp : subParts [.mem, .facets, .mirror, .memc, .pcx, .eth] pz = true) : Does pz s₀ (ethStart
    f q i h t s) := by
  unfold ethStart
  try dsimp only
  repeat' first
    | with_reducible assumption | with_reducible apply completeItem_does | with_reducible apply endSend_does
    | with_reducible apply readAll_does | with_reducible apply recordFrame_does | with_reducible apply settle_does
    | with_reducible apply startItem_does | exact subParts_of (by decide) hp | with_reducible apply does_fold
    | simp only [does_mk] | with_reducible refine moves_intro ?_ rfl ?_
    | ((with_reducible refine only_intro ?_); intro p hc; cases p <;> first
        | exact (clash hp (by decide) hc).elim | dsimp only [Same])
    | intro _ | split | with_reducible apply does_ite | with_reducible apply does_fst (by assumption) | dsimp only

theorem ethSend_does {pz : List Part} {s₀ : State} {f : Nat} {q : Nat} {header : Bytes} {s : State} (h_s : Does pz s₀
    s) (hp : subParts [.free, .mem, .facets, .mirror, .xlt, .memc, .pcx, .eth] pz = true) : Does pz s₀ (ethSend f q
    header s) := by
  unfold ethSend
  try dsimp only
  repeat' first
    | with_reducible assumption | with_reducible apply ethStart_does | with_reducible apply startAccess_does
    | exact subParts_of (by decide) hp | with_reducible apply does_fold | simp only [does_mk]
    | with_reducible refine moves_intro ?_ rfl ?_
    | ((with_reducible refine only_intro ?_); intro p hc; cases p <;> first
        | exact (clash hp (by decide) hc).elim | dsimp only [Same])
    | intro _ | split | with_reducible apply does_ite | with_reducible apply does_fst (by assumption) | dsimp only

theorem readFrame_does {pz : List Part} {s₀ : State} {q : Nat} {s : State} (h_s : Does pz s₀ s) (hp : subParts [.free,
    .mem, .facets, .xlt, .memc, .pcx, .eth] pz = true) : Does pz s₀ (readFrame q s) := by
  unfold readFrame
  try dsimp only
  repeat' first
    | with_reducible assumption | with_reducible apply modSend_does | with_reducible apply readAll_does
    | with_reducible apply translate_does | exact subParts_of (by decide) hp | with_reducible apply does_fold
    | simp only [does_mk] | with_reducible refine moves_intro ?_ rfl ?_
    | ((with_reducible refine only_intro ?_); intro p hc; cases p <;> first
        | exact (clash hp (by decide) hc).elim | dsimp only [Same])
    | intro _ | split | with_reducible apply does_ite | with_reducible apply does_fst (by assumption) | dsimp only

theorem frameRecorded_does {pz : List Part} {s₀ : State} {q : Nat} {s : State} (h_s : Does pz s₀ s) (hp : subParts
    [.free, .mem, .facets, .mirror, .xlt, .memc, .pcx, .eth] pz = true) : Does pz s₀ (frameRecorded q s) := by
  unfold frameRecorded
  try dsimp only
  repeat' first
    | with_reducible assumption | with_reducible apply modSend_does | with_reducible apply readFrame_does
    | exact subParts_of (by decide) hp | with_reducible apply does_fold | simp only [does_mk]
    | with_reducible refine moves_intro ?_ rfl ?_
    | ((with_reducible refine only_intro ?_); intro p hc; cases p <;> first
        | exact (clash hp (by decide) hc).elim | dsimp only [Same])
    | intro _ | split | with_reducible apply does_ite | with_reducible apply does_fst (by assumption) | dsimp only

theorem plainEnqueue_does {pz : List Part} {s₀ : State} {k : Nat × U32} {p : Nat} {b : Nat} {fr : Bytes} {s : State}
    (h_s : Does pz s₀ s) (hp : subParts [.eth] pz = true) : Does pz s₀ (plainEnqueue k p b fr s) := by
  unfold plainEnqueue
  try dsimp only
  repeat' first
    | with_reducible assumption | with_reducible apply modEth_does | exact subParts_of (by decide) hp
    | with_reducible apply does_fold | simp only [does_mk] | with_reducible refine moves_intro ?_ rfl ?_
    | ((with_reducible refine only_intro ?_); intro p hc; cases p <;> first
        | exact (clash hp (by decide) hc).elim | dsimp only [Same])
    | intro _ | split | with_reducible apply does_ite | with_reducible apply does_fst (by assumption) | dsimp only

theorem framePayload_does {pz : List Part} {s₀ : State} {q : Nat} {payload : Bytes} {s : State} (h_s : Does pz s₀ s)
    (hp : subParts [.mem, .facets, .mirror, .memc, .pcx, .eth] pz = true) : Does pz s₀ (framePayload q payload s) :=
    by
  unfold framePayload
  try dsimp only
  repeat' first
    | with_reducible assumption | with_reducible apply frameGone_does | with_reducible apply modEth_does
    | with_reducible apply modSend_does | with_reducible apply plainEnqueue_does
    | with_reducible apply recordFrame_does | exact subParts_of (by decide) hp | with_reducible apply does_fold
    | simp only [does_mk] | with_reducible refine moves_intro ?_ rfl ?_
    | ((with_reducible refine only_intro ?_); intro p hc; cases p <;> first
        | exact (clash hp (by decide) hc).elim | dsimp only [Same])
    | intro _ | split | with_reducible apply does_ite | with_reducible apply does_fst (by assumption) | dsimp only

theorem frameSent_does {pz : List Part} {s₀ : State} {k : Nat × U32} {s : State} (h_s : Does pz s₀ s) (hp : subParts
    [.out, .mem, .facets, .mirror, .memc, .pcx, .eth] pz = true) : Does pz s₀ (frameSent k s) := by
  unfold frameSent
  try dsimp only
  repeat' first
    | with_reducible assumption | with_reducible apply frameGone_does | with_reducible apply modEth_does
    | with_reducible apply sendFrame_does | exact subParts_of (by decide) hp | with_reducible apply does_fold
    | simp only [does_mk] | with_reducible refine moves_intro ?_ rfl ?_
    | ((with_reducible refine only_intro ?_); intro p hc; cases p <;> first
        | exact (clash hp (by decide) hc).elim | dsimp only [Same])
    | intro _ | split | with_reducible apply does_ite | with_reducible apply does_fst (by assumption) | dsimp only

theorem sendReadError_does {pz : List Part} {s₀ : State} {q : Nat} {port : Nat} {s : State} (h_s : Does pz s₀ s) (hp :
    subParts [.mem, .facets, .mirror, .memc, .pcx, .eth] pz = true) : Does pz s₀ (sendReadError q port s) := by
  unfold sendReadError
  try dsimp only
  repeat' first
    | with_reducible assumption | with_reducible apply endSend_does | exact subParts_of (by decide) hp
    | with_reducible apply does_fold | simp only [does_mk] | with_reducible refine moves_intro ?_ rfl ?_
    | ((with_reducible refine only_intro ?_); intro p hc; cases p <;> first
        | exact (clash hp (by decide) hc).elim | dsimp only [Same])
    | intro _ | split | with_reducible apply does_ite | with_reducible apply does_fst (by assumption) | dsimp only

end Sys2Proof.Machine
end

