-- ==== Sys2Proof/Laws/PcxOutFrame.lean ====
section
/-!
SUPPORT. What each operation of Machine/PcxOut.lean may change: one lemma per operation.
-/
set_option linter.unusedTactic false
set_option linter.unreachableTactic false
set_option linter.unusedSimpArgs false
set_option linter.unusedVariables false

namespace Sys2Proof.Machine

theorem drainPort_does {pz : List Part} {s₀ : State} {x0 : Nat} {x1 : Nat} {x2 : State} (h_x2 : Does pz s₀ x2) (hp :
    subParts [.out, .pcx] pz = true) : Does pz s₀ (drainPort x0 x1 x2) := by
  induction x0 generalizing x1 x2 with
  | zero =>
    unfold drainPort
    try dsimp only
    repeat' first
      | with_reducible assumption | with_reducible apply emit_does | with_reducible apply modP_does
      | exact subParts_of (by decide) hp | with_reducible apply does_fold | simp only [does_mk]
      | with_reducible refine moves_intro ?_ rfl ?_
      | ((with_reducible refine only_intro ?_); intro p hc; cases p <;> first
          | exact (clash hp (by decide) hc).elim | dsimp only [Same])
      | intro _ | split | with_reducible apply does_ite | with_reducible apply does_fst (by assumption) | dsimp only
  | succ k ih =>
    unfold drainPort
    try dsimp only
    repeat' first
      | with_reducible assumption | with_reducible apply ih | with_reducible apply emit_does
      | with_reducible apply modP_does | exact subParts_of (by decide) hp | with_reducible apply does_fold
      | simp only [does_mk] | with_reducible refine moves_intro ?_ rfl ?_
      | ((with_reducible refine only_intro ?_); intro p hc; cases p <;> first
          | exact (clash hp (by decide) hc).elim | dsimp only [Same])
      | intro _ | split | with_reducible apply does_ite | with_reducible apply does_fst (by assumption) | dsimp only

theorem tickPort_does {pz : List Part} {s₀ : State} {s : State} {k : Nat} (h_s : Does pz s₀ s) (hp : subParts [.out,
    .pcx] pz = true) : Does pz s₀ (tickPort s k) := by
  unfold tickPort
  try dsimp only
  repeat' first
    | with_reducible assumption | with_reducible apply drainPort_does | with_reducible apply modP_does
    | exact subParts_of (by decide) hp | with_reducible apply does_fold | simp only [does_mk]
    | with_reducible refine moves_intro ?_ rfl ?_
    | ((with_reducible refine only_intro ?_); intro p hc; cases p <;> first
        | exact (clash hp (by decide) hc).elim | dsimp only [Same])
    | intro _ | split | with_reducible apply does_ite | with_reducible apply does_fst (by assumption) | dsimp only

theorem tickPcx_does {pz : List Part} {s₀ : State} {s : State} (h_s : Does pz s₀ s) (hp : subParts [.out, .pcx] pz =
    true) : Does pz s₀ (tickPcx s) := by
  unfold tickPcx
  try dsimp only
  repeat' first
    | with_reducible assumption | with_reducible apply tickPort_does | exact subParts_of (by decide) hp
    | with_reducible apply does_fold | simp only [does_mk] | with_reducible refine moves_intro ?_ rfl ?_
    | ((with_reducible refine only_intro ?_); intro p hc; cases p <;> first
        | exact (clash hp (by decide) hc).elim | dsimp only [Same])
    | intro _ | split | with_reducible apply does_ite | with_reducible apply does_fst (by assumption) | dsimp only

end Sys2Proof.Machine
end

