-- ==== Sys2Proof/Laws/PrismUnitFrame.lean ====
section
/-!
SUPPORT. What each operation of Machine/PrismUnit.lean may change: one lemma per operation.
-/
set_option linter.unusedTactic false
set_option linter.unreachableTactic false
set_option linter.unusedSimpArgs false
set_option linter.unusedVariables false

namespace Sys2Proof.Machine

theorem recomputeChunk_does {pz : List Part} {s₀ : State} {k : Nat} {s : State} {x : Nat × Nat} (h_s : Does pz s₀ s)
    (hp : subParts [.groups, .grp] pz = true) : Does pz s₀ (recomputeChunk k s x) := by
  unfold recomputeChunk
  try dsimp only
  repeat' first
    | with_reducible assumption | with_reducible apply modCh_does | exact subParts_of (by decide) hp
    | with_reducible apply does_fold | simp only [does_mk] | with_reducible refine moves_intro ?_ rfl ?_
    | ((with_reducible refine only_intro ?_); intro p hc; cases p <;> first
        | exact (clash hp (by decide) hc).elim | dsimp only [Same])
    | intro _ | split | with_reducible apply does_ite | with_reducible apply does_fst (by assumption) | dsimp only

theorem countRun_does {pz : List Part} {s₀ : State} {k : Nat} {x : Nat × Nat} {s : State} (h_s : Does pz s₀ s) (hp :
    subParts [.out, .facets, .arb, .groups, .prism, .fab, .eth, .pwr] pz = true) : Does pz s₀ (countRun k x s) := by
  unfold countRun
  try dsimp only
  repeat' first
    | with_reducible assumption | with_reducible apply clusterWork_does | exact subParts_of (by decide) hp
    | with_reducible apply does_fold | simp only [does_mk] | with_reducible refine moves_intro ?_ rfl ?_
    | ((with_reducible refine only_intro ?_); intro p hc; cases p <;> first
        | exact (clash hp (by decide) hc).elim | dsimp only [Same])
    | intro _ | split | with_reducible apply does_ite | with_reducible apply does_fst (by assumption) | dsimp only

theorem fencePrism_does {pz : List Part} {s₀ : State} {k : Nat} {fault : Bool} {forced : Bool} {s : State} (h_s : Does
    pz s₀ s) (hp : subParts [.free, .out, .mem, .facets, .arb, .mirror, .groups, .grp, .prism, .fab, .xlt, .memc,
    .pcx, .eth, .agl, .err, .pwr] pz = true) : Does pz s₀ (fencePrism k fault forced s) := by
  unfold fencePrism
  try dsimp only
  repeat' first
    | with_reducible assumption | with_reducible apply collect_does | with_reducible apply fatal_does
    | with_reducible apply faultNow_does | with_reducible apply noteFence_does
    | with_reducible apply recomputeChunk_does | with_reducible apply wakeColls_does
    | exact subParts_of (by decide) hp | with_reducible apply does_fold | simp only [does_mk]
    | with_reducible refine moves_intro ?_ rfl ?_
    | ((with_reducible refine only_intro ?_); intro p hc; cases p <;> first
        | exact (clash hp (by decide) hc).elim | dsimp only [Same])
    | intro _ | split | with_reducible apply does_ite | with_reducible apply does_fst (by assumption) | dsimp only

theorem unfencePrism_does {pz : List Part} {s₀ : State} {k : Nat} {s : State} (h_s : Does pz s₀ s) (hp : subParts
    [.free, .out, .mem, .facets, .arb, .mirror, .groups, .grp, .prism, .fab, .xlt, .memc, .pcx, .eth, .agl, .err,
    .pwr] pz = true) : Does pz s₀ (unfencePrism k s) := by
  unfold unfencePrism
  try dsimp only
  repeat' first
    | with_reducible assumption | with_reducible apply noteUnfence_does | with_reducible apply wakeColls_does
    | exact subParts_of (by decide) hp | with_reducible apply does_fold | simp only [does_mk]
    | with_reducible refine moves_intro ?_ rfl ?_
    | ((with_reducible refine only_intro ?_); intro p hc; cases p <;> first
        | exact (clash hp (by decide) hc).elim | dsimp only [Same])
    | intro _ | split | with_reducible apply does_ite | with_reducible apply does_fst (by assumption) | dsimp only

theorem residue_does {pz : List Part} {s₀ : State} {k : Nat} {lane : Nat} {slice : Nat} {other : Bool} {forced : Bool}
    {s : State} (h_s : Does pz s₀ s) (hp : subParts [.free, .out, .mem, .facets, .arb, .mirror, .groups, .grp, .prism,
    .fab, .xlt, .memc, .pcx, .eth, .agl, .err, .pwr] pz = true) : Does pz s₀ (residue k lane slice other forced s) :=
    by
  unfold residue
  try dsimp only
  repeat' first
    | with_reducible assumption | with_reducible apply collect_does | with_reducible apply countRun_does
    | with_reducible apply fencePrism_does | with_reducible apply recomputeChunk_does
    | with_reducible apply runGroup_does | exact subParts_of (by decide) hp | with_reducible apply does_fold
    | simp only [does_mk] | with_reducible refine moves_intro ?_ rfl ?_
    | ((with_reducible refine only_intro ?_); intro p hc; cases p <;> first
        | exact (clash hp (by decide) hc).elim | dsimp only [Same])
    | intro _ | split | with_reducible apply does_ite | with_reducible apply does_fst (by assumption) | dsimp only

theorem chunkDone_does {pz : List Part} {s₀ : State} {gid : Nat} {c : Nat} {s : State} (h_s : Does pz s₀ s) (hp :
    subParts [.free, .out, .mem, .facets, .arb, .mirror, .groups, .grp, .prism, .fab, .xlt, .memc, .pcx, .eth, .agl,
    .err, .pwr] pz = true) : Does pz s₀ (chunkDone gid c s) := by
  unfold chunkDone
  try dsimp only
  repeat' first
    | with_reducible assumption | with_reducible apply clusterWork_does | with_reducible apply modCh_does
    | with_reducible apply residue_does | with_reducible apply runGroup_does | exact subParts_of (by decide) hp
    | with_reducible apply does_fold | simp only [does_mk] | with_reducible refine moves_intro ?_ rfl ?_
    | ((with_reducible refine only_intro ?_); intro p hc; cases p <;> first
        | exact (clash hp (by decide) hc).elim | dsimp only [Same])
    | intro _ | split | with_reducible apply does_ite | with_reducible apply does_fst (by assumption) | dsimp only

end Sys2Proof.Machine
end

