-- ==== Sys2Proof/Laws/CollsFrame.lean ====
section
/-!
SUPPORT. What each operation of Machine/Colls.lean may change: one lemma per operation.
-/
set_option linter.unusedTactic false
set_option linter.unreachableTactic false
set_option linter.unusedSimpArgs false
set_option linter.unusedVariables false

namespace Sys2Proof.Machine

theorem groupCreated_does {pz : List Part} {s₀ : State} {f : Nat} {q : Nat} {i : Item} {x : GroupAttr} {t : Trans}
    {back : State} {s : State} (h_back : Does pz s₀ back) (h_s : Does pz s₀ s) (hp : subParts [.free, .out, .mem,
    .facets, .arb, .mirror, .grp, .fab, .memc, .pcx, .trust, .eth, .pwr] pz = true) : Does pz s₀ (groupCreated f q i x
    t back s) := by
  unfold groupCreated
  try dsimp only
  repeat' first
    | with_reducible assumption | with_reducible apply completeItem_does | with_reducible apply drew_does
    | with_reducible apply readAll_does | with_reducible apply sendPhase_does | with_reducible apply settle_does
    | with_reducible apply startItem_does | exact subParts_of (by decide) hp | with_reducible apply does_fold
    | simp only [does_mk] | with_reducible refine moves_intro ?_ rfl ?_
    | ((with_reducible refine only_intro ?_); intro p hc; cases p <;> first
        | exact (clash hp (by decide) hc).elim | dsimp only [Same])
    | intro _ | split | with_reducible apply does_ite | with_reducible apply does_fst (by assumption) | dsimp only

theorem groupCreate_does {pz : List Part} {s₀ : State} {f : Nat} {q : Nat} {members : List U64} {send : List U64}
    {reduce : List U64} {recv : List U64} {s : State} (h_s : Does pz s₀ s) (hp : subParts [.free, .out, .mem, .facets,
    .arb, .mirror, .grp, .fab, .xlt, .memc, .pcx, .trust, .eth, .pwr] pz = true) : Does pz s₀ (groupCreate f q members
    send reduce recv s) := by
  unfold groupCreate
  try dsimp only
  repeat' first
    | with_reducible assumption | with_reducible apply groupCreated_does | with_reducible apply startAccess_does
    | exact subParts_of (by decide) hp | with_reducible apply does_fold | simp only [does_mk]
    | with_reducible refine moves_intro ?_ rfl ?_
    | ((with_reducible refine only_intro ?_); intro p hc; cases p <;> first
        | exact (clash hp (by decide) hc).elim | dsimp only [Same])
    | intro _ | split | with_reducible apply does_ite | with_reducible apply does_fst (by assumption) | dsimp only

theorem groupDestroy_does {pz : List Part} {s₀ : State} {f : Nat} {q : Nat} {i : Item} {s : State} (h_s : Does pz s₀
    s) (hp : subParts [.out, .mem, .facets, .arb, .mirror, .groups, .grp, .prism, .fab, .memc, .pcx, .eth, .pwr] pz =
    true) : Does pz s₀ (groupDestroy f q i s) := by
  unfold groupDestroy
  try dsimp only
  repeat' first
    | with_reducible assumption | with_reducible apply completeItem_does | with_reducible apply sendPhase_does
    | with_reducible apply tearDown_does | exact subParts_of (by decide) hp | with_reducible apply does_fold
    | simp only [does_mk] | with_reducible refine moves_intro ?_ rfl ?_
    | ((with_reducible refine only_intro ?_); intro p hc; cases p <;> first
        | exact (clash hp (by decide) hc).elim | dsimp only [Same])
    | intro _ | split | with_reducible apply does_ite | with_reducible apply does_fst (by assumption) | dsimp only

theorem groupQuery_does {pz : List Part} {s₀ : State} {f : Nat} {q : Nat} {s : State} (h_s : Does pz s₀ s) (hp :
    subParts [.free, .mem, .facets, .mirror, .xlt, .memc, .pcx] pz = true) : Does pz s₀ (groupQuery f q s) := by
  unfold groupQuery
  try dsimp only
  repeat' first
    | with_reducible assumption | with_reducible apply completeItem_does | with_reducible apply postAll_does
    | with_reducible apply settle_does | with_reducible apply startAccess_does | with_reducible apply startItem_does
    | exact subParts_of (by decide) hp | with_reducible apply does_fold | simp only [does_mk]
    | with_reducible refine moves_intro ?_ rfl ?_
    | ((with_reducible refine only_intro ?_); intro p hc; cases p <;> first
        | exact (clash hp (by decide) hc).elim | dsimp only [Same])
    | intro _ | split | with_reducible apply does_ite | with_reducible apply does_fst (by assumption) | dsimp only

theorem createLate_does {pz : List Part} {s₀ : State} {s : State} {c : GroupCmd} (h_s : Does pz s₀ s) (hp : subParts
    [.out, .mem, .facets, .arb, .mirror, .grp, .fab, .memc, .pcx, .eth, .pwr] pz = true) : Does pz s₀ (createLate s c)
    := by
  unfold createLate
  try dsimp only
  repeat' first
    | with_reducible assumption | with_reducible apply failCreate_does | with_reducible apply modCmd_does
    | with_reducible apply sendPhase_does | exact subParts_of (by decide) hp | with_reducible apply does_fold
    | simp only [does_mk] | with_reducible refine moves_intro ?_ rfl ?_
    | ((with_reducible refine only_intro ?_); intro p hc; cases p <;> first
        | exact (clash hp (by decide) hc).elim | dsimp only [Same])
    | intro _ | split | with_reducible apply does_ite | with_reducible apply does_fst (by assumption) | dsimp only

theorem destroyLate_does {pz : List Part} {s₀ : State} {s : State} {c : GroupCmd} (h_s : Does pz s₀ s) (hp : subParts
    [.out, .mem, .facets, .arb, .mirror, .grp, .fab, .memc, .pcx, .eth, .pwr] pz = true) : Does pz s₀ (destroyLate s
    c) := by
  unfold destroyLate
  try dsimp only
  repeat' first
    | with_reducible assumption | with_reducible apply endGroupCmd_does | with_reducible apply modCmd_does
    | with_reducible apply sendPhase_does | exact subParts_of (by decide) hp | with_reducible apply does_fold
    | simp only [does_mk] | with_reducible refine moves_intro ?_ rfl ?_
    | ((with_reducible refine only_intro ?_); intro p hc; cases p <;> first
        | exact (clash hp (by decide) hc).elim | dsimp only [Same])
    | intro _ | split | with_reducible apply does_ite | with_reducible apply does_fst (by assumption) | dsimp only

theorem takeCsn_does {pz : List Part} {s₀ : State} {gid : Nat} {m : Nat} {s : State} (h_s : Does pz s₀ s) (hp :
    subParts [.groups] pz = true) : Does pz s₀ (takeCsn gid m s) := by
  unfold takeCsn
  try dsimp only
  repeat' first
    | with_reducible assumption | with_reducible apply modG_does | exact subParts_of (by decide) hp
    | with_reducible apply does_fold | simp only [does_mk] | with_reducible refine moves_intro ?_ rfl ?_
    | ((with_reducible refine only_intro ?_); intro p hc; cases p <;> first
        | exact (clash hp (by decide) hc).elim | dsimp only [Same])
    | intro _ | split | with_reducible apply does_ite | with_reducible apply does_fst (by assumption) | dsimp only

theorem failMember_does {pz : List Part} {s₀ : State} {gid : Nat} {m : Nat} {csn : U32} {s : State} (h_s : Does pz s₀
    s) (hp : subParts [.free, .out, .mem, .facets, .arb, .mirror, .groups, .grp, .prism, .fab, .xlt, .memc, .pcx,
    .eth, .pwr] pz = true) : Does pz s₀ (failMember gid m csn s) := by
  unfold failMember
  try dsimp only
  repeat' first
    | with_reducible assumption | with_reducible apply abortHere_does | with_reducible apply runGroup_does
    | with_reducible apply sendAbort_does | exact subParts_of (by decide) hp | with_reducible apply does_fold
    | simp only [does_mk] | with_reducible refine moves_intro ?_ rfl ?_
    | ((with_reducible refine only_intro ?_); intro p hc; cases p <;> first
        | exact (clash hp (by decide) hc).elim | dsimp only [Same])
    | intro _ | split | with_reducible apply does_ite | with_reducible apply does_fst (by assumption) | dsimp only

theorem collCommand_does {pz : List Part} {s₀ : State} {f : Nat} {q : Nat} {op : Nat} {aux : Bytes} {s0 : State} (h_s0
    : Does pz s₀ s0) (hp : subParts [.free, .out, .mem, .facets, .arb, .mirror, .groups, .grp, .prism, .fab, .xlt,
    .memc, .pcx, .eth, .pwr] pz = true) : Does pz s₀ (collCommand f q op aux s0) := by
  unfold collCommand
  try dsimp only
  repeat' first
    | with_reducible assumption | with_reducible apply completeItem_does | with_reducible apply failMember_does
    | with_reducible apply modG_does | with_reducible apply restWake_does | with_reducible apply runGroup_does
    | with_reducible apply settle_does | with_reducible apply startChecks_does | with_reducible apply startItem_does
    | with_reducible apply takeCsn_does | exact subParts_of (by decide) hp | with_reducible apply does_fold
    | simp only [does_mk] | with_reducible refine moves_intro ?_ rfl ?_
    | ((with_reducible refine only_intro ?_); intro p hc; cases p <;> first
        | exact (clash hp (by decide) hc).elim | dsimp only [Same])
    | intro _ | split | with_reducible apply does_ite | with_reducible apply does_fst (by assumption) | dsimp only

theorem auxFailed_does {pz : List Part} {s₀ : State} {f : Nat} {q : Nat} {op : Nat} {port : Nat} {s0 : State} (h_s0 :
    Does pz s₀ s0) (hp : subParts [.free, .out, .mem, .facets, .arb, .mirror, .groups, .grp, .prism, .fab, .xlt,
    .memc, .pcx, .eth, .pwr] pz = true) : Does pz s₀ (auxFailed f q op port s0) := by
  unfold auxFailed
  try dsimp only
  repeat' first
    | with_reducible assumption | with_reducible apply completeItem_does | with_reducible apply failMember_does
    | with_reducible apply readAux_does | with_reducible apply restWake_does | with_reducible apply settle_does
    | with_reducible apply startItem_does | with_reducible apply takeCsn_does | exact subParts_of (by decide) hp
    | with_reducible apply does_fold | simp only [does_mk] | with_reducible refine moves_intro ?_ rfl ?_
    | ((with_reducible refine only_intro ?_); intro p hc; cases p <;> first
        | exact (clash hp (by decide) hc).elim | dsimp only [Same])
    | intro _ | split | with_reducible apply does_ite | with_reducible apply does_fst (by assumption) | dsimp only

theorem descFails_does {pz : List Part} {s₀ : State} {f : Nat} {q : Nat} {op : Nat} {port : Nat} {s : State} (h_s :
    Does pz s₀ s) (hp : subParts [.mem, .facets, .mirror, .memc, .pcx] pz = true) : Does pz s₀ (descFails f q op port
    s) := by
  unfold descFails
  try dsimp only
  repeat' first
    | with_reducible assumption | with_reducible apply completeItem_does | with_reducible apply startWith_does
    | exact subParts_of (by decide) hp | with_reducible apply does_fold | simp only [does_mk]
    | with_reducible refine moves_intro ?_ rfl ?_
    | ((with_reducible refine only_intro ?_); intro p hc; cases p <;> first
        | exact (clash hp (by decide) hc).elim | dsimp only [Same])
    | intro _ | split | with_reducible apply does_ite | with_reducible apply does_fst (by assumption) | dsimp only

theorem collReadError_does {pz : List Part} {s₀ : State} {gid : Nat} {m : Nat} {port : Nat} {s : State} (h_s : Does pz
    s₀ s) (hp : subParts [.free, .out, .mem, .facets, .arb, .mirror, .groups, .grp, .prism, .fab, .xlt, .memc, .pcx,
    .eth, .pwr] pz = true) : Does pz s₀ (collReadError gid m port s) := by
  unfold collReadError
  try dsimp only
  repeat' first
    | with_reducible assumption | with_reducible apply completeItem_does | with_reducible apply failMember_does
    | with_reducible apply settle_does | exact subParts_of (by decide) hp | with_reducible apply does_fold
    | simp only [does_mk] | with_reducible refine moves_intro ?_ rfl ?_
    | ((with_reducible refine only_intro ?_); intro p hc; cases p <;> first
        | exact (clash hp (by decide) hc).elim | dsimp only [Same])
    | intro _ | split | with_reducible apply does_ite | with_reducible apply does_fst (by assumption) | dsimp only

theorem chunkRead_does {pz : List Part} {s₀ : State} {gid : Nat} {m : Nat} {c : Nat} {bs : Bytes} {s : State} (h_s :
    Does pz s₀ s) (hp : subParts [.free, .out, .mem, .facets, .arb, .mirror, .groups, .grp, .prism, .fab, .xlt, .memc,
    .pcx, .eth, .pwr] pz = true) : Does pz s₀ (chunkRead gid m c bs s) := by
  unfold chunkRead
  try dsimp only
  repeat' first
    | with_reducible assumption | with_reducible apply modCh_does | with_reducible apply noteOwn_does
    | with_reducible apply runGroup_does | exact subParts_of (by decide) hp | with_reducible apply does_fold
    | simp only [does_mk] | with_reducible refine moves_intro ?_ rfl ?_
    | ((with_reducible refine only_intro ?_); intro p hc; cases p <;> first
        | exact (clash hp (by decide) hc).elim | dsimp only [Same])
    | intro _ | split | with_reducible apply does_ite | with_reducible apply does_fst (by assumption) | dsimp only

theorem sendGone_does {pz : List Part} {s₀ : State} {p : Packet} {s : State} (h_s : Does pz s₀ s) (hp : subParts
    [.out, .facets, .arb, .fab, .eth, .pwr] pz = true) : Does pz s₀ (sendGone p s) := by
  unfold sendGone
  try dsimp only
  repeat' first
    | with_reducible assumption | with_reducible apply toEndpoint_does | exact subParts_of (by decide) hp
    | with_reducible apply does_fold | simp only [does_mk] | with_reducible refine moves_intro ?_ rfl ?_
    | ((with_reducible refine only_intro ?_); intro p hc; cases p <;> first
        | exact (clash hp (by decide) hc).elim | dsimp only [Same])
    | intro _ | split | with_reducible apply does_ite | with_reducible apply does_fst (by assumption) | dsimp only

theorem inGroup_does {pz : List Part} {s₀ : State} {go : Nat → Packet → State → State} {p : Packet} {s : State} (h_go
    : ∀ a0 a1 s, Does pz s₀ s → Does pz s₀ (go a0 a1 s)) (h_s : Does pz s₀ s) (hp : subParts [.out, .facets, .arb,
    .fab, .eth, .pwr] pz = true) : Does pz s₀ (inGroup go p s) := by
  unfold inGroup
  try dsimp only
  repeat' first
    | with_reducible assumption | with_reducible apply sendGone_does | with_reducible apply h_go
    | exact subParts_of (by decide) hp | with_reducible apply does_fold | simp only [does_mk]
    | with_reducible refine moves_intro ?_ rfl ?_
    | ((with_reducible refine only_intro ?_); intro p hc; cases p <;> first
        | exact (clash hp (by decide) hc).elim | dsimp only [Same])
    | intro _ | split | with_reducible apply does_ite | with_reducible apply does_fst (by assumption) | dsimp only

theorem seeAlt_does {pz : List Part} {s₀ : State} {gid : Nat} {p : Packet} {s : State} (h_s : Does pz s₀ s) (hp :
    subParts [.groups] pz = true) : Does pz s₀ (seeAlt gid p s) := by
  unfold seeAlt
  try dsimp only
  repeat' first
    | with_reducible assumption | with_reducible apply modRun_does | exact subParts_of (by decide) hp
    | with_reducible apply does_fold | simp only [does_mk] | with_reducible refine moves_intro ?_ rfl ?_
    | ((with_reducible refine only_intro ?_); intro p hc; cases p <;> first
        | exact (clash hp (by decide) hc).elim | dsimp only [Same])
    | intro _ | split | with_reducible apply does_ite | with_reducible apply does_fst (by assumption) | dsimp only

theorem ofRun_does {pz : List Part} {s₀ : State} {check : Bool} {go : Coll → State → State} {gid : Nat} {p : Packet}
    {s : State} (h_go : ∀ a0 s, Does pz s₀ s → Does pz s₀ (go a0 s)) (h_s : Does pz s₀ s) (hp : subParts [.free, .out,
    .mem, .facets, .arb, .mirror, .groups, .grp, .prism, .fab, .xlt, .memc, .pcx, .eth, .pwr] pz = true) : Does pz s₀
    (ofRun check go gid p s) := by
  unfold ofRun
  try dsimp only
  repeat' first
    | with_reducible assumption | with_reducible apply mismatch_does | with_reducible apply runGroup_does
    | with_reducible apply seeAlt_does | with_reducible apply h_go | exact subParts_of (by decide) hp
    | with_reducible apply does_fold | simp only [does_mk] | with_reducible refine moves_intro ?_ rfl ?_
    | ((with_reducible refine only_intro ?_); intro p hc; cases p <;> first
        | exact (clash hp (by decide) hc).elim | dsimp only [Same])
    | intro _ | split | with_reducible apply does_ite | with_reducible apply does_fst (by assumption) | dsimp only

theorem askGap_does {pz : List Part} {s₀ : State} {gid : Nat} {c : Nat} {key : Nat} {s : State} (h_s : Does pz s₀ s)
    (hp : subParts [.out, .facets, .arb, .groups, .fab, .eth, .pwr] pz = true) : Does pz s₀ (askGap gid c key s) := by
  unfold askGap
  try dsimp only
  repeat' first
    | with_reducible assumption | with_reducible apply askChunk_does | exact subParts_of (by decide) hp
    | with_reducible apply does_fold | simp only [does_mk] | with_reducible refine moves_intro ?_ rfl ?_
    | ((with_reducible refine only_intro ?_); intro p hc; cases p <;> first
        | exact (clash hp (by decide) hc).elim | dsimp only [Same])
    | intro _ | split | with_reducible apply does_ite | with_reducible apply does_fst (by assumption) | dsimp only

theorem takeData_does {pz : List Part} {s₀ : State} {gid : Nat} {anchor : Bool} {p : Packet} {r : Coll} {s : State}
    (h_s : Does pz s₀ s) (hp : subParts [.out, .facets, .arb, .groups, .fab, .xlt, .eth, .pwr] pz = true) : Does pz s₀
    (takeData gid anchor p r s) := by
  unfold takeData
  try dsimp only
  repeat' first
    | with_reducible assumption | with_reducible apply askGap_does | with_reducible apply modCh_does
    | with_reducible apply modRun_does | with_reducible apply parkDiscard_does | exact subParts_of (by decide) hp
    | with_reducible apply does_fold | simp only [does_mk] | with_reducible refine moves_intro ?_ rfl ?_
    | ((with_reducible refine only_intro ?_); intro p hc; cases p <;> first
        | exact (clash hp (by decide) hc).elim | dsimp only [Same])
    | intro _ | split | with_reducible apply does_ite | with_reducible apply does_fst (by assumption) | dsimp only

theorem onData_does {pz : List Part} {s₀ : State} {gid : Nat} {p : Packet} {s : State} (h_s : Does pz s₀ s) (hp :
    subParts [.free, .out, .mem, .facets, .arb, .mirror, .groups, .grp, .prism, .fab, .xlt, .memc, .pcx, .eth, .pwr]
    pz = true) : Does pz s₀ (onData gid p s) := by
  unfold onData
  try dsimp only
  repeat' first
    | with_reducible assumption | with_reducible apply ofRun_does | with_reducible apply takeData_does
    | exact subParts_of (by decide) hp | with_reducible apply does_fold | simp only [does_mk]
    | with_reducible refine moves_intro ?_ rfl ?_
    | ((with_reducible refine only_intro ?_); intro p hc; cases p <;> first
        | exact (clash hp (by decide) hc).elim | dsimp only [Same])
    | intro _ | split | with_reducible apply does_ite | with_reducible apply does_fst (by assumption) | dsimp only

theorem onAnchor_does {pz : List Part} {s₀ : State} {gid : Nat} {p : Packet} {s : State} (h_s : Does pz s₀ s) (hp :
    subParts [.free, .out, .mem, .facets, .arb, .mirror, .groups, .grp, .prism, .fab, .xlt, .memc, .pcx, .eth, .pwr]
    pz = true) : Does pz s₀ (onAnchor gid p s) := by
  unfold onAnchor
  try dsimp only
  repeat' first
    | with_reducible assumption | with_reducible apply ofRun_does | with_reducible apply takeData_does
    | exact subParts_of (by decide) hp | with_reducible apply does_fold | simp only [does_mk]
    | with_reducible refine moves_intro ?_ rfl ?_
    | ((with_reducible refine only_intro ?_); intro p hc; cases p <;> first
        | exact (clash hp (by decide) hc).elim | dsimp only [Same])
    | intro _ | split | with_reducible apply does_ite | with_reducible apply does_fst (by assumption) | dsimp only

theorem onCounts_does {pz : List Part} {s₀ : State} {gid : Nat} {p : Packet} {s : State} (h_s : Does pz s₀ s) (hp :
    subParts [.free, .out, .mem, .facets, .arb, .mirror, .groups, .grp, .prism, .fab, .xlt, .memc, .pcx, .eth, .pwr]
    pz = true) : Does pz s₀ (onCounts gid p s) := by
  unfold onCounts
  try dsimp only
  repeat' first
    | with_reducible assumption | with_reducible apply modRun_does | with_reducible apply ofRun_does
    | exact subParts_of (by decide) hp | with_reducible apply does_fold | simp only [does_mk]
    | with_reducible refine moves_intro ?_ rfl ?_
    | ((with_reducible refine only_intro ?_); intro p hc; cases p <;> first
        | exact (clash hp (by decide) hc).elim | dsimp only [Same])
    | intro _ | split | with_reducible apply does_ite | with_reducible apply does_fst (by assumption) | dsimp only

theorem onFlag_does {pz : List Part} {s₀ : State} {gid : Nat} {p : Packet} {s : State} (h_s : Does pz s₀ s) (hp :
    subParts [.free, .out, .mem, .facets, .arb, .mirror, .groups, .grp, .prism, .fab, .xlt, .memc, .pcx, .eth, .pwr]
    pz = true) : Does pz s₀ (onFlag gid p s) := by
  unfold onFlag
  try dsimp only
  repeat' first
    | with_reducible assumption | with_reducible apply flagsKnown_does | with_reducible apply modRun_does
    | with_reducible apply ofRun_does | exact subParts_of (by decide) hp | with_reducible apply does_fold
    | simp only [does_mk] | with_reducible refine moves_intro ?_ rfl ?_
    | ((with_reducible refine only_intro ?_); intro p hc; cases p <;> first
        | exact (clash hp (by decide) hc).elim | dsimp only [Same])
    | intro _ | split | with_reducible apply does_ite | with_reducible apply does_fst (by assumption) | dsimp only

theorem answerEnded_does {pz : List Part} {s₀ : State} {gid : Nat} {commit : Option Nat} {p : Packet} {s : State} (h_s
    : Does pz s₀ s) (hp : subParts [.out, .facets, .arb, .fab, .eth, .pwr] pz = true) : Does pz s₀ (answerEnded gid
    commit p s) := by
  unfold answerEnded
  try dsimp only
  repeat' first
    | with_reducible assumption | with_reducible apply sendFlag_does | with_reducible apply toAdapter_does
    | with_reducible apply toMember_does | exact subParts_of (by decide) hp | with_reducible apply does_fold
    | simp only [does_mk] | with_reducible refine moves_intro ?_ rfl ?_
    | ((with_reducible refine only_intro ?_); intro p hc; cases p <;> first
        | exact (clash hp (by decide) hc).elim | dsimp only [Same])
    | intro _ | split | with_reducible apply does_ite | with_reducible apply does_fst (by assumption) | dsimp only

theorem onConf_does {pz : List Part} {s₀ : State} {gid : Nat} {p : Packet} {s : State} (h_s : Does pz s₀ s) (hp :
    subParts [.free, .out, .mem, .facets, .arb, .mirror, .groups, .grp, .prism, .fab, .xlt, .memc, .pcx, .eth, .pwr]
    pz = true) : Does pz s₀ (onConf gid p s) := by
  unfold onConf
  try dsimp only
  repeat' first
    | with_reducible assumption | with_reducible apply answerEnded_does | with_reducible apply modRun_does
    | with_reducible apply ofRun_does | with_reducible apply sendCommit_does | exact subParts_of (by decide) hp
    | with_reducible apply does_fold | simp only [does_mk] | with_reducible refine moves_intro ?_ rfl ?_
    | ((with_reducible refine only_intro ?_); intro p hc; cases p <;> first
        | exact (clash hp (by decide) hc).elim | dsimp only [Same])
    | intro _ | split | with_reducible apply does_ite | with_reducible apply does_fst (by assumption) | dsimp only

theorem onCommit_does {pz : List Part} {s₀ : State} {gid : Nat} {p : Packet} {s : State} (h_s : Does pz s₀ s) (hp :
    subParts [.free, .out, .mem, .facets, .arb, .mirror, .groups, .grp, .prism, .fab, .xlt, .memc, .pcx, .eth, .pwr]
    pz = true) : Does pz s₀ (onCommit gid p s) := by
  unfold onCommit
  try dsimp only
  repeat' first
    | with_reducible assumption | with_reducible apply commitTo_does | with_reducible apply modRun_does
    | with_reducible apply ofRun_does | exact subParts_of (by decide) hp | with_reducible apply does_fold
    | simp only [does_mk] | with_reducible refine moves_intro ?_ rfl ?_
    | ((with_reducible refine only_intro ?_); intro p hc; cases p <;> first
        | exact (clash hp (by decide) hc).elim | dsimp only [Same])
    | intro _ | split | with_reducible apply does_ite | with_reducible apply does_fst (by assumption) | dsimp only

theorem onResend_does {pz : List Part} {s₀ : State} {gid : Nat} {p : Packet} {s : State} (h_s : Does pz s₀ s) (hp :
    subParts [.out, .facets, .arb, .groups, .grp, .fab, .eth, .pwr] pz = true) : Does pz s₀ (onResend gid p s) := by
  unfold onResend
  try dsimp only
  repeat' first
    | with_reducible assumption | with_reducible apply answerEnded_does | with_reducible apply resendChunk_does
    | with_reducible apply sendCounts_does | with_reducible apply sendFlag_does | exact subParts_of (by decide) hp
    | with_reducible apply does_fold | simp only [does_mk] | with_reducible refine moves_intro ?_ rfl ?_
    | ((with_reducible refine only_intro ?_); intro p hc; cases p <;> first
        | exact (clash hp (by decide) hc).elim | dsimp only [Same])
    | intro _ | split | with_reducible apply does_ite | with_reducible apply does_fst (by assumption) | dsimp only

theorem onAbort_does {pz : List Part} {s₀ : State} {gid : Nat} {p : Packet} {s : State} (h_s : Does pz s₀ s) (hp :
    subParts [.free, .out, .mem, .facets, .arb, .mirror, .groups, .grp, .prism, .fab, .xlt, .memc, .pcx, .eth, .pwr]
    pz = true) : Does pz s₀ (onAbort gid p s) := by
  unfold onAbort
  try dsimp only
  repeat' first
    | with_reducible assumption | with_reducible apply abortHere_does | with_reducible apply breakGroup_does
    | with_reducible apply runGroup_does | exact subParts_of (by decide) hp | with_reducible apply does_fold
    | simp only [does_mk] | with_reducible refine moves_intro ?_ rfl ?_
    | ((with_reducible refine only_intro ?_); intro p hc; cases p <;> first
        | exact (clash hp (by decide) hc).elim | dsimp only [Same])
    | intro _ | split | with_reducible apply does_ite | with_reducible apply does_fst (by assumption) | dsimp only

theorem onRollback_does {pz : List Part} {s₀ : State} {gid : Nat} {p : Packet} {s : State} (h_s : Does pz s₀ s) (hp :
    subParts [.free, .out, .mem, .facets, .arb, .mirror, .groups, .grp, .prism, .fab, .xlt, .memc, .pcx, .eth, .pwr]
    pz = true) : Does pz s₀ (onRollback gid p s) := by
  unfold onRollback
  try dsimp only
  repeat' first
    | with_reducible assumption | with_reducible apply ofRun_does | with_reducible apply rollAll_does
    | with_reducible apply rollBack_does | exact subParts_of (by decide) hp | with_reducible apply does_fold
    | simp only [does_mk] | with_reducible refine moves_intro ?_ rfl ?_
    | ((with_reducible refine only_intro ?_); intro p hc; cases p <;> first
        | exact (clash hp (by decide) hc).elim | dsimp only [Same])
    | intro _ | split | with_reducible apply does_ite | with_reducible apply does_fst (by assumption) | dsimp only

theorem onHeld_does {pz : List Part} {s₀ : State} {gid : Nat} {p : Packet} {s : State} (h_s : Does pz s₀ s) (hp :
    subParts [.free, .out, .mem, .facets, .arb, .mirror, .groups, .grp, .prism, .fab, .xlt, .memc, .pcx, .eth, .pwr]
    pz = true) : Does pz s₀ (onHeld gid p s) := by
  unfold onHeld
  try dsimp only
  repeat' first
    | with_reducible assumption | with_reducible apply ofRun_does | with_reducible apply takeHeld_does
    | exact subParts_of (by decide) hp | with_reducible apply does_fold | simp only [does_mk]
    | with_reducible refine moves_intro ?_ rfl ?_
    | ((with_reducible refine only_intro ?_); intro p hc; cases p <;> first
        | exact (clash hp (by decide) hc).elim | dsimp only [Same])
    | intro _ | split | with_reducible apply does_ite | with_reducible apply does_fst (by assumption) | dsimp only

theorem onGone_does {pz : List Part} {s₀ : State} {p : Packet} {s : State} (h_s : Does pz s₀ s) (hp : subParts [.out,
    .mem, .facets, .arb, .mirror, .groups, .grp, .prism, .fab, .xlt, .memc, .pcx, .eth, .pwr] pz = true) : Does pz s₀
    (onGone p s) := by
  unfold onGone
  try dsimp only
  repeat' first
    | with_reducible assumption | with_reducible apply answered_does | with_reducible apply breakGroup_does
    | with_reducible apply sendAbort_does | exact subParts_of (by decide) hp | with_reducible apply does_fold
    | simp only [does_mk] | with_reducible refine moves_intro ?_ rfl ?_
    | ((with_reducible refine only_intro ?_); intro p hc; cases p <;> first
        | exact (clash hp (by decide) hc).elim | dsimp only [Same])
    | intro _ | split | with_reducible apply does_ite | with_reducible apply does_fst (by assumption) | dsimp only

theorem onSetup_does {pz : List Part} {s₀ : State} {a : GroupAttr} {p : Packet} {s : State} (h_s : Does pz s₀ s) (hp :
    subParts [.out, .facets, .arb, .groups, .prism, .fab, .eth, .pwr] pz = true) : Does pz s₀ (onSetup a p s) := by
  unfold onSetup
  try dsimp only
  repeat' first
    | with_reducible assumption | with_reducible apply reserveGroup_does | with_reducible apply toEndpoint_does
    | exact subParts_of (by decide) hp | with_reducible apply does_fold | simp only [does_mk]
    | with_reducible refine moves_intro ?_ rfl ?_
    | ((with_reducible refine only_intro ?_); intro p hc; cases p <;> first
        | exact (clash hp (by decide) hc).elim | dsimp only [Same])
    | intro _ | split | with_reducible apply does_ite | with_reducible apply does_fst (by assumption) | dsimp only

theorem onAnswer_does {pz : List Part} {s₀ : State} {go : GroupCmd → Nat → State → State} {p : Packet} {s : State}
    (h_go : ∀ a0 a1 s, Does pz s₀ s → Does pz s₀ (go a0 a1 s)) (h_s : Does pz s₀ s) (hp : subParts [.out, .facets,
    .arb, .prism, .fab, .eth, .pwr] pz = true) : Does pz s₀ (onAnswer go p s) := by
  unfold onAnswer
  try dsimp only
  repeat' first
    | with_reducible assumption | with_reducible apply inGroup_does | with_reducible apply restWake_does
    | with_reducible apply h_go | exact subParts_of (by decide) hp | with_reducible apply does_fold
    | simp only [does_mk] | with_reducible refine moves_intro ?_ rfl ?_
    | ((with_reducible refine only_intro ?_); intro p hc; cases p <;> first
        | exact (clash hp (by decide) hc).elim | dsimp only [Same])
    | intro _ | split | with_reducible apply does_ite | with_reducible apply does_fst (by assumption) | dsimp only

theorem onActivate_does {pz : List Part} {s₀ : State} {gid : Nat} {p : Packet} {s : State} (h_s : Does pz s₀ s) (hp :
    subParts [.out, .facets, .arb, .groups, .fab, .eth, .pwr] pz = true) : Does pz s₀ (onActivate gid p s) := by
  unfold onActivate
  try dsimp only
  repeat' first
    | with_reducible assumption | with_reducible apply modG_does | with_reducible apply toEndpoint_does
    | exact subParts_of (by decide) hp | with_reducible apply does_fold | simp only [does_mk]
    | with_reducible refine moves_intro ?_ rfl ?_
    | ((with_reducible refine only_intro ?_); intro p hc; cases p <;> first
        | exact (clash hp (by decide) hc).elim | dsimp only [Same])
    | intro _ | split | with_reducible apply does_ite | with_reducible apply does_fst (by assumption) | dsimp only

theorem onTeardown_does {pz : List Part} {s₀ : State} {gid : Nat} {p : Packet} {s : State} (h_s : Does pz s₀ s) (hp :
    subParts [.out, .mem, .facets, .arb, .mirror, .groups, .prism, .fab, .memc, .pcx, .eth, .pwr] pz = true) : Does pz
    s₀ (onTeardown gid p s) := by
  unfold onTeardown
  try dsimp only
  repeat' first
    | with_reducible assumption | with_reducible apply sendGone_does | with_reducible apply tearDown_does
    | exact subParts_of (by decide) hp | with_reducible apply does_fold | simp only [does_mk]
    | with_reducible refine moves_intro ?_ rfl ?_
    | ((with_reducible refine only_intro ?_); intro p hc; cases p <;> first
        | exact (clash hp (by decide) hc).elim | dsimp only [Same])
    | intro _ | split | with_reducible apply does_ite | with_reducible apply does_fst (by assumption) | dsimp only

end Sys2Proof.Machine
end

