-- ==== Sys2Proof/Laws/MoverCoreFrame.lean ====
section
/-!
SUPPORT. What each operation of Machine/MoverCore.lean may change: one lemma per operation.
-/
set_option linter.unusedTactic false
set_option linter.unreachableTactic false
set_option linter.unusedSimpArgs false
set_option linter.unusedVariables false

namespace Sys2Proof.Machine

theorem modSrc_does {pz : List Part} {s₀ : State} {f : Nat} {pace : Nat} {g : ReqSource → ReqSource} {s : State} (h_s
    : Does pz s₀ s) (hp : subParts [.facets, .mov] pz = true) : Does pz s₀ (modSrc f pace g s) := by
  unfold modSrc
  try dsimp only
  repeat' first
    | with_reducible assumption | with_reducible apply modF_does | exact subParts_of (by decide) hp
    | with_reducible apply does_fold | simp only [does_mk] | with_reducible refine moves_intro ?_ rfl ?_
    | ((with_reducible refine only_intro ?_); intro p hc; cases p <;> first
        | exact (clash hp (by decide) hc).elim | dsimp only [Same])
    | intro _ | split | with_reducible apply does_ite | with_reducible apply does_fst (by assumption) | dsimp only

theorem modChan_does {pz : List Part} {s₀ : State} {c : Nat} {g : Channel → Channel} {s : State} (h_s : Does pz s₀ s)
    (hp : subParts [.mov] pz = true) : Does pz s₀ (modChan c g s) := by
  unfold modChan
  try dsimp only
  repeat' first
    | with_reducible assumption | exact subParts_of (by decide) hp | with_reducible apply does_fold
    | simp only [does_mk] | with_reducible refine moves_intro ?_ rfl ?_
    | ((with_reducible refine only_intro ?_); intro p hc; cases p <;> first
        | exact (clash hp (by decide) hc).elim | dsimp only [Same])
    | intro _ | split | with_reducible apply does_ite | with_reducible apply does_fst (by assumption) | dsimp only

theorem dropMoveWrites_does {pz : List Part} {s₀ : State} {c : Nat} {s : State} (h_s : Does pz s₀ s) (hp : subParts
    [.facets, .pcx] pz = true) : Does pz s₀ (dropMoveWrites c s) := by
  unfold dropMoveWrites
  try dsimp only
  repeat' first
    | with_reducible assumption | exact subParts_of (by decide) hp | with_reducible apply does_fold
    | simp only [does_mk] | with_reducible refine moves_intro ?_ rfl ?_
    | ((with_reducible refine only_intro ?_); intro p hc; cases p <;> first
        | exact (clash hp (by decide) hc).elim | dsimp only [Same])
    | intro _ | split | with_reducible apply does_ite | with_reducible apply does_fst (by assumption) | dsimp only

theorem keepBursts_does {pz : List Part} {s₀ : State} {w : MoveWait} {s : State} (h_s : Does pz s₀ s) (hp : subParts
    [.mov] pz = true) : Does pz s₀ (keepBursts w s) := by
  unfold keepBursts
  try dsimp only
  repeat' first
    | with_reducible assumption | exact subParts_of (by decide) hp | with_reducible apply does_fold
    | simp only [does_mk] | with_reducible refine moves_intro ?_ rfl ?_
    | ((with_reducible refine only_intro ?_); intro p hc; cases p <;> first
        | exact (clash hp (by decide) hc).elim | dsimp only [Same])
    | intro _ | split | with_reducible apply does_ite | with_reducible apply does_fst (by assumption) | dsimp only

theorem dropBursts_does {pz : List Part} {s₀ : State} {f : Nat} {q : Nat} {idx : U32} {s : State} (h_s : Does pz s₀ s)
    (hp : subParts [.mov] pz = true) : Does pz s₀ (dropBursts f q idx s) := by
  unfold dropBursts
  try dsimp only
  repeat' first
    | with_reducible assumption | exact subParts_of (by decide) hp | with_reducible apply does_fold
    | simp only [does_mk] | with_reducible refine moves_intro ?_ rfl ?_
    | ((with_reducible refine only_intro ?_); intro p hc; cases p <;> first
        | exact (clash hp (by decide) hc).elim | dsimp only [Same])
    | intro _ | split | with_reducible apply does_ite | with_reducible apply does_fst (by assumption) | dsimp only

theorem endMove_does {pz : List Part} {s₀ : State} {c : Nat} {st : Status} {s : State} (h_s : Does pz s₀ s) (hp :
    subParts [.mem, .facets, .mirror, .memc, .pcx, .mov] pz = true) : Does pz s₀ (endMove c st s) := by
  unfold endMove
  try dsimp only
  repeat' first
    | with_reducible assumption | with_reducible apply completeItem_does | with_reducible apply dropMoveWrites_does
    | with_reducible apply keepBursts_does | with_reducible apply modChan_does | with_reducible apply modSrc_does
    | with_reducible apply settle_does | exact subParts_of (by decide) hp | with_reducible apply does_fold
    | simp only [does_mk] | with_reducible refine moves_intro ?_ rfl ?_
    | ((with_reducible refine only_intro ?_); intro p hc; cases p <;> first
        | exact (clash hp (by decide) hc).elim | dsimp only [Same])
    | intro _ | split | with_reducible apply does_ite | with_reducible apply does_fst (by assumption) | dsimp only

theorem recordBursts_does {pz : List Part} {s₀ : State} {c : Nat} {s : State} (h_s : Does pz s₀ s) (hp : subParts
    [.mirror, .mov] pz = true) : Does pz s₀ (recordBursts c s) := by
  unfold recordBursts
  try dsimp only
  repeat' first
    | with_reducible assumption | with_reducible apply mirrorIssue_does | with_reducible apply modChan_does
    | exact subParts_of (by decide) hp | with_reducible apply does_fold | simp only [does_mk]
    | with_reducible refine moves_intro ?_ rfl ?_
    | ((with_reducible refine only_intro ?_); intro p hc; cases p <;> first
        | exact (clash hp (by decide) hc).elim | dsimp only [Same])
    | intro _ | split | with_reducible apply does_ite | with_reducible apply does_fst (by assumption) | dsimp only

theorem parkChan_does {pz : List Part} {s₀ : State} {c : Nat} {s : State} (h_s : Does pz s₀ s) (hp : subParts [.mov]
    pz = true) : Does pz s₀ (parkChan c s) := by
  unfold parkChan
  try dsimp only
  repeat' first
    | with_reducible assumption | with_reducible apply modChan_does | exact subParts_of (by decide) hp
    | with_reducible apply does_fold | simp only [does_mk] | with_reducible refine moves_intro ?_ rfl ?_
    | ((with_reducible refine only_intro ?_); intro p hc; cases p <;> first
        | exact (clash hp (by decide) hc).elim | dsimp only [Same])
    | intro _ | split | with_reducible apply does_ite | with_reducible apply does_fst (by assumption) | dsimp only

theorem moveStep_does {pz : List Part} {s₀ : State} {c : Nat} {s : State} (h_s : Does pz s₀ s) (hp : subParts [.free,
    .mem, .facets, .mirror, .xlt, .memc, .pcx, .mov] pz = true) : Does pz s₀ (moveStep c s).1 := by
  unfold moveStep
  try dsimp only
  repeat' first
    | with_reducible assumption | with_reducible apply endMove_does | with_reducible apply modChan_does
    | with_reducible apply modSrc_does | with_reducible apply parkChan_does | with_reducible apply postAll_does
    | with_reducible apply readAll_does | with_reducible apply translate_does | exact subParts_of (by decide) hp
    | with_reducible apply does_fold | simp only [does_mk] | with_reducible refine moves_intro ?_ rfl ?_
    | ((with_reducible refine only_intro ?_); intro p hc; cases p <;> first
        | exact (clash hp (by decide) hc).elim | dsimp only [Same])
    | intro _ | split | with_reducible apply does_ite | with_reducible apply does_fst (by assumption) | dsimp only

theorem moveLoop_does {pz : List Part} {s₀ : State} {x0 : Nat} {x1 : Nat} {x2 : State} (h_x2 : Does pz s₀ x2) (hp :
    subParts [.free, .mem, .facets, .mirror, .xlt, .memc, .pcx, .mov] pz = true) : Does pz s₀ (moveLoop x0 x1 x2) :=
    by
  induction x0 generalizing x1 x2 with
  | zero =>
    unfold moveLoop
    try dsimp only
    repeat' first
      | with_reducible assumption | with_reducible apply moveStep_does | exact subParts_of (by decide) hp
      | with_reducible apply does_fold | simp only [does_mk] | with_reducible refine moves_intro ?_ rfl ?_
      | ((with_reducible refine only_intro ?_); intro p hc; cases p <;> first
          | exact (clash hp (by decide) hc).elim | dsimp only [Same])
      | intro _ | split | with_reducible apply does_ite | with_reducible apply does_fst (by assumption) | dsimp only
  | succ k ih =>
    unfold moveLoop
    try dsimp only
    repeat' first
      | with_reducible assumption | with_reducible apply ih | with_reducible apply moveStep_does
      | exact subParts_of (by decide) hp | with_reducible apply does_fold | simp only [does_mk]
      | with_reducible refine moves_intro ?_ rfl ?_
      | ((with_reducible refine only_intro ?_); intro p hc; cases p <;> first
          | exact (clash hp (by decide) hc).elim | dsimp only [Same])
      | intro _ | split | with_reducible apply does_ite | with_reducible apply does_fst (by assumption) | dsimp only

theorem moveGo_does {pz : List Part} {s₀ : State} {c : Nat} {s : State} (h_s : Does pz s₀ s) (hp : subParts [.free,
    .mem, .facets, .mirror, .xlt, .memc, .pcx, .mov] pz = true) : Does pz s₀ (moveGo c s) := by
  unfold moveGo
  try dsimp only
  repeat' first
    | with_reducible assumption | with_reducible apply moveLoop_does | exact subParts_of (by decide) hp
    | with_reducible apply does_fold | simp only [does_mk] | with_reducible refine moves_intro ?_ rfl ?_
    | ((with_reducible refine only_intro ?_); intro p hc; cases p <;> first
        | exact (clash hp (by decide) hc).elim | dsimp only [Same])
    | intro _ | split | with_reducible apply does_ite | with_reducible apply does_fst (by assumption) | dsimp only

theorem moveRead_does {pz : List Part} {s₀ : State} {c : Nat} {bs : Bytes} {s : State} (h_s : Does pz s₀ s) (hp :
    subParts [.free, .mem, .facets, .mirror, .xlt, .memc, .pcx, .mov] pz = true) : Does pz s₀ (moveRead c bs s) := by
  unfold moveRead
  try dsimp only
  repeat' first
    | with_reducible assumption | with_reducible apply modChan_does | with_reducible apply moveGo_does
    | exact subParts_of (by decide) hp | with_reducible apply does_fold | simp only [does_mk]
    | with_reducible refine moves_intro ?_ rfl ?_
    | ((with_reducible refine only_intro ?_); intro p hc; cases p <;> first
        | exact (clash hp (by decide) hc).elim | dsimp only [Same])
    | intro _ | split | with_reducible apply does_ite | with_reducible apply does_fst (by assumption) | dsimp only

theorem moveConfirmed_does {pz : List Part} {s₀ : State} {c : Nat} {s : State} (h_s : Does pz s₀ s) (hp : subParts
    [.free, .mem, .facets, .mirror, .xlt, .memc, .pcx, .mov] pz = true) : Does pz s₀ (moveConfirmed c s) := by
  unfold moveConfirmed
  try dsimp only
  repeat' first
    | with_reducible assumption | with_reducible apply moveGo_does | with_reducible apply recordBursts_does
    | exact subParts_of (by decide) hp | with_reducible apply does_fold | simp only [does_mk]
    | with_reducible refine moves_intro ?_ rfl ?_
    | ((with_reducible refine only_intro ?_); intro p hc; cases p <;> first
        | exact (clash hp (by decide) hc).elim | dsimp only [Same])
    | intro _ | split | with_reducible apply does_ite | with_reducible apply does_fst (by assumption) | dsimp only

theorem wakeMover_does {pz : List Part} {s₀ : State} {c : Nat} {s : State} (h_s : Does pz s₀ s) (hp : subParts [.free,
    .mem, .facets, .mirror, .xlt, .memc, .pcx, .mov] pz = true) : Does pz s₀ (wakeMover c s) := by
  unfold wakeMover
  try dsimp only
  repeat' first
    | with_reducible assumption | with_reducible apply modChan_does | with_reducible apply moveGo_does
    | exact subParts_of (by decide) hp | with_reducible apply does_fold | simp only [does_mk]
    | with_reducible refine moves_intro ?_ rfl ?_
    | ((with_reducible refine only_intro ?_); intro p hc; cases p <;> first
        | exact (clash hp (by decide) hc).elim | dsimp only [Same])
    | intro _ | split | with_reducible apply does_ite | with_reducible apply does_fst (by assumption) | dsimp only

theorem wakeMovers_does {pz : List Part} {s₀ : State} {s : State} (h_s : Does pz s₀ s) (hp : subParts [.free, .mem,
    .facets, .mirror, .xlt, .memc, .pcx, .mov] pz = true) : Does pz s₀ (wakeMovers s) := by
  unfold wakeMovers
  try dsimp only
  repeat' first
    | with_reducible assumption | with_reducible apply wakeMover_does | exact subParts_of (by decide) hp
    | with_reducible apply does_fold | simp only [does_mk] | with_reducible refine moves_intro ?_ rfl ?_
    | ((with_reducible refine only_intro ?_); intro p hc; cases p <;> first
        | exact (clash hp (by decide) hc).elim | dsimp only [Same])
    | intro _ | split | with_reducible apply does_ite | with_reducible apply does_fst (by assumption) | dsimp only

theorem serveReq_does {pz : List Part} {s₀ : State} {f : Nat} {pace : Nat} {s : State} (h_s : Does pz s₀ s) (hp :
    subParts [.free, .mem, .facets, .mirror, .xlt, .memc, .pcx, .mov] pz = true) : Does pz s₀ (serveReq f pace s) :=
    by
  unfold serveReq
  try dsimp only
  repeat' first
    | with_reducible assumption | with_reducible apply modChan_does | with_reducible apply moveGo_does
    | exact subParts_of (by decide) hp | with_reducible apply does_fold | simp only [does_mk]
    | with_reducible refine moves_intro ?_ rfl ?_
    | ((with_reducible refine only_intro ?_); intro p hc; cases p <;> first
        | exact (clash hp (by decide) hc).elim | dsimp only [Same])
    | intro _ | split | with_reducible apply does_ite | with_reducible apply does_fst (by assumption) | dsimp only

theorem grantMove_does {pz : List Part} {s₀ : State} {s : State} (h_s : Does pz s₀ s) (hp : subParts [.free, .mem,
    .facets, .mirror, .xlt, .memc, .pcx, .mov] pz = true) : Does pz s₀ (grantMove s) := by
  unfold grantMove
  try dsimp only
  repeat' first
    | with_reducible assumption | with_reducible apply modChan_does | with_reducible apply modSrc_does
    | with_reducible apply moveGo_does | exact subParts_of (by decide) hp | with_reducible apply does_fold
    | simp only [does_mk] | with_reducible refine moves_intro ?_ rfl ?_
    | ((with_reducible refine only_intro ?_); intro p hc; cases p <;> first
        | exact (clash hp (by decide) hc).elim | dsimp only [Same])
    | intro _ | split | with_reducible apply does_ite | with_reducible apply does_fst (by assumption) | dsimp only

theorem cancelMoves_does {pz : List Part} {s₀ : State} {f : Nat} {q : Nat} {s : State} (h_s : Does pz s₀ s) (hp :
    subParts [.mem, .facets, .mirror, .memc, .pcx, .mov] pz = true) : Does pz s₀ (cancelMoves f q s) := by
  unfold cancelMoves
  try dsimp only
  repeat' first
    | with_reducible assumption | with_reducible apply completeItem_does | with_reducible apply endMove_does
    | with_reducible apply keepBursts_does | with_reducible apply settle_does | exact subParts_of (by decide) hp
    | with_reducible apply does_fold | simp only [does_mk] | with_reducible refine moves_intro ?_ rfl ?_
    | ((with_reducible refine only_intro ?_); intro p hc; cases p <;> first
        | exact (clash hp (by decide) hc).elim | dsimp only [Same])
    | intro _ | split | with_reducible apply does_ite | with_reducible apply does_fst (by assumption) | dsimp only

theorem stopChan_does {pz : List Part} {s₀ : State} {s : State} {c : Nat} (h_s : Does pz s₀ s) (hp : subParts
    [.facets, .pcx, .mov] pz = true) : Does pz s₀ (stopChan s c) := by
  unfold stopChan
  try dsimp only
  repeat' first
    | with_reducible assumption | with_reducible apply dropMoveWrites_does | with_reducible apply modChan_does
    | exact subParts_of (by decide) hp | with_reducible apply does_fold | simp only [does_mk]
    | with_reducible refine moves_intro ?_ rfl ?_
    | ((with_reducible refine only_intro ?_); intro p hc; cases p <;> first
        | exact (clash hp (by decide) hc).elim | dsimp only [Same])
    | intro _ | split | with_reducible apply does_ite | with_reducible apply does_fst (by assumption) | dsimp only

theorem capture_does {pz : List Part} {s₀ : State} {r : MovErr} {s : State} (h_s : Does pz s₀ s) (hp : subParts [.mov]
    pz = true) : Does pz s₀ (capture r s) := by
  unfold capture
  try dsimp only
  repeat' first
    | with_reducible assumption | exact subParts_of (by decide) hp | with_reducible apply does_fold
    | simp only [does_mk] | with_reducible refine moves_intro ?_ rfl ?_
    | ((with_reducible refine only_intro ?_); intro p hc; cases p <;> first
        | exact (clash hp (by decide) hc).elim | dsimp only [Same])
    | intro _ | split | with_reducible apply does_ite | with_reducible apply does_fst (by assumption) | dsimp only

theorem stopMover_does {pz : List Part} {s₀ : State} {port : Nat} {halfB : Bool} {kind : Nat} {addr : U64} {forced :
    Bool} {s : State} (h_s : Does pz s₀ s) (hp : subParts [.facets, .pcx, .mov, .agl, .err] pz = true) : Does pz s₀
    (stopMover port halfB kind addr forced s) := by
  unfold stopMover
  try dsimp only
  repeat' first
    | with_reducible assumption | with_reducible apply capture_does | with_reducible apply collect_does
    | with_reducible apply stopChan_does | with_reducible apply does_when | exact subParts_of (by decide) hp
    | with_reducible apply does_fold | simp only [does_mk] | with_reducible refine moves_intro ?_ rfl ?_
    | ((with_reducible refine only_intro ?_); intro p hc; cases p <;> first
        | exact (clash hp (by decide) hc).elim | dsimp only [Same])
    | intro _ | split | with_reducible apply does_ite | with_reducible apply does_fst (by assumption) | dsimp only

theorem resumeMover_does {pz : List Part} {s₀ : State} {s : State} (h_s : Does pz s₀ s) (hp : subParts [.free, .mem,
    .facets, .mirror, .xlt, .memc, .pcx, .mov] pz = true) : Does pz s₀ (resumeMover s) := by
  unfold resumeMover
  try dsimp only
  repeat' first
    | with_reducible assumption | with_reducible apply capture_does | with_reducible apply modChan_does
    | with_reducible apply wakeMovers_does | exact subParts_of (by decide) hp | with_reducible apply does_fold
    | simp only [does_mk] | with_reducible refine moves_intro ?_ rfl ?_
    | ((with_reducible refine only_intro ?_); intro p hc; cases p <;> first
        | exact (clash hp (by decide) hc).elim | dsimp only [Same])
    | intro _ | split | with_reducible apply does_ite | with_reducible apply does_fst (by assumption) | dsimp only

theorem abortMover_does {pz : List Part} {s₀ : State} {s : State} (h_s : Does pz s₀ s) (hp : subParts [.mem, .facets,
    .mirror, .xlt, .memc, .pcx, .mov] pz = true) : Does pz s₀ (abortMover s) := by
  unfold abortMover
  try dsimp only
  repeat' first
    | with_reducible assumption | with_reducible apply dropWaits_does | with_reducible apply endMove_does
    | exact subParts_of (by decide) hp | with_reducible apply does_fold | simp only [does_mk]
    | with_reducible refine moves_intro ?_ rfl ?_
    | ((with_reducible refine only_intro ?_); intro p hc; cases p <;> first
        | exact (clash hp (by decide) hc).elim | dsimp only [Same])
    | intro _ | split | with_reducible apply does_ite | with_reducible apply does_fst (by assumption) | dsimp only

end Sys2Proof.Machine
end

