-- ==== Sys2Proof/Laws/XltFrame.lean ====
section
/-!
SUPPORT. What each operation of Machine/Xlt.lean may change: one lemma per operation.
-/
set_option linter.unusedTactic false
set_option linter.unreachableTactic false
set_option linter.unusedSimpArgs false
set_option linter.unusedVariables false

namespace Sys2Proof.Machine

theorem goOn_does {pz : List Part} {s₀ : State} {st : Sys2Proof.Stream} {s : State} (h_s : Does pz s₀ s) (hp :
    subParts [.free, .out, .mem, .facets, .arb, .qps, .mirror, .groups, .grp, .prism, .fab, .xlt, .memc, .pcx, .mov,
    .cip, .eth, .pwr] pz = true) : Does pz s₀ (goOn st s) := by
  unfold goOn
  try dsimp only
  repeat' first
    | with_reducible assumption | with_reducible apply goOnQp_does | with_reducible apply rawGo_does
    | with_reducible apply readFrame_does | with_reducible apply runGroup_does | with_reducible apply wakeMover_does
    | exact subParts_of (by decide) hp | with_reducible apply does_fold | simp only [does_mk]
    | with_reducible refine moves_intro ?_ rfl ?_
    | ((with_reducible refine only_intro ?_); intro p hc; cases p <;> first
        | exact (clash hp (by decide) hc).elim | dsimp only [Same])
    | intro _ | split | with_reducible apply does_ite | with_reducible apply does_fst (by assumption) | dsimp only

theorem goOnAll_does {pz : List Part} {s₀ : State} {l : List Piece} {s : State} (h_s : Does pz s₀ s) (hp : subParts
    [.free, .out, .mem, .facets, .arb, .qps, .mirror, .groups, .grp, .prism, .fab, .xlt, .memc, .pcx, .mov, .cip,
    .eth, .pwr] pz = true) : Does pz s₀ (goOnAll l s) := by
  unfold goOnAll
  try dsimp only
  repeat' first
    | with_reducible assumption | with_reducible apply goOn_does | exact subParts_of (by decide) hp
    | with_reducible apply does_fold | simp only [does_mk] | with_reducible refine moves_intro ?_ rfl ?_
    | ((with_reducible refine only_intro ?_); intro p hc; cases p <;> first
        | exact (clash hp (by decide) hc).elim | dsimp only [Same])
    | intro _ | split | with_reducible apply does_ite | with_reducible apply does_fst (by assumption) | dsimp only

theorem segResult_does {pz : List Part} {s₀ : State} {f : Nat} {code : Nat} {s : State} (h_s : Does pz s₀ s) (hp :
    subParts [.facets] pz = true) : Does pz s₀ (segResult f code s) := by
  unfold segResult
  try dsimp only
  repeat' first
    | with_reducible assumption | with_reducible apply modF_does | exact subParts_of (by decide) hp
    | with_reducible apply does_fold | simp only [does_mk] | with_reducible refine moves_intro ?_ rfl ?_
    | ((with_reducible refine only_intro ?_); intro p hc; cases p <;> first
        | exact (clash hp (by decide) hc).elim | dsimp only [Same])
    | intro _ | split | with_reducible apply does_ite | with_reducible apply does_fst (by assumption) | dsimp only

theorem dropTiles_does {pz : List Part} {s₀ : State} {f : Nat} {n : Nat} {s : State} (h_s : Does pz s₀ s) (hp :
    subParts [.xlt] pz = true) : Does pz s₀ (dropTiles f n s) := by
  unfold dropTiles
  try dsimp only
  repeat' first
    | with_reducible assumption | exact subParts_of (by decide) hp | with_reducible apply does_fold
    | simp only [does_mk] | with_reducible refine moves_intro ?_ rfl ?_
    | ((with_reducible refine only_intro ?_); intro p hc; cases p <;> first
        | exact (clash hp (by decide) hc).elim | dsimp only [Same])
    | intro _ | split | with_reducible apply does_ite | with_reducible apply does_fst (by assumption) | dsimp only

theorem segEffect_does {pz : List Part} {s₀ : State} {f : Nat} {n : Nat} {op : Nat} {g : FacetXlt → FacetXlt} {s :
    State} (h_s : Does pz s₀ s) (hp : subParts [.mem, .facets, .mirror, .xlt, .memc, .pcx] pz = true) : Does pz s₀
    (segEffect f n op g s) := by
  unfold segEffect
  try dsimp only
  repeat' first
    | with_reducible assumption | with_reducible apply dropTiles_does | with_reducible apply modF_does
    | with_reducible apply segResult_does | with_reducible apply settle_does | exact subParts_of (by decide) hp
    | with_reducible apply does_fold | simp only [does_mk] | with_reducible refine moves_intro ?_ rfl ?_
    | ((with_reducible refine only_intro ?_); intro p hc; cases p <;> first
        | exact (clash hp (by decide) hc).elim | dsimp only [Same])
    | intro _ | split | with_reducible apply does_ite | with_reducible apply does_fst (by assumption) | dsimp only

theorem segWrite_does {pz : List Part} {s₀ : State} {f : Nat} {s : State} (h_s : Does pz s₀ s) (hp : subParts [.mem,
    .facets, .mirror, .xlt, .memc, .pcx] pz = true) : Does pz s₀ (segWrite f s) := by
  unfold segWrite
  try dsimp only
  repeat' first
    | with_reducible assumption | with_reducible apply segEffect_does | with_reducible apply segResult_does
    | exact subParts_of (by decide) hp | with_reducible apply does_fold | simp only [does_mk]
    | with_reducible refine moves_intro ?_ rfl ?_
    | ((with_reducible refine only_intro ?_); intro p hc; cases p <;> first
        | exact (clash hp (by decide) hc).elim | dsimp only [Same])
    | intro _ | split | with_reducible apply does_ite | with_reducible apply does_fst (by assumption) | dsimp only

theorem segInvalidate_does {pz : List Part} {s₀ : State} {f : Nat} {s : State} (h_s : Does pz s₀ s) (hp : subParts
    [.mem, .facets, .mirror, .xlt, .memc, .pcx] pz = true) : Does pz s₀ (segInvalidate f s) := by
  unfold segInvalidate
  try dsimp only
  repeat' first
    | with_reducible assumption | with_reducible apply segEffect_does | with_reducible apply segResult_does
    | exact subParts_of (by decide) hp | with_reducible apply does_fold | simp only [does_mk]
    | with_reducible refine moves_intro ?_ rfl ?_
    | ((with_reducible refine only_intro ?_); intro p hc; cases p <;> first
        | exact (clash hp (by decide) hc).elim | dsimp only [Same])
    | intro _ | split | with_reducible apply does_ite | with_reducible apply does_fst (by assumption) | dsimp only

theorem segAgain_does {pz : List Part} {s₀ : State} {s : State} {f : Nat} (h_s : Does pz s₀ s) (hp : subParts [.mem,
    .facets, .mirror, .xlt, .memc, .pcx] pz = true) : Does pz s₀ (segAgain s f) := by
  unfold segAgain
  try dsimp only
  repeat' first
    | with_reducible assumption | with_reducible apply segInvalidate_does | with_reducible apply segWrite_does
    | exact subParts_of (by decide) hp | with_reducible apply does_fold | simp only [does_mk]
    | with_reducible refine moves_intro ?_ rfl ?_
    | ((with_reducible refine only_intro ?_); intro p hc; cases p <;> first
        | exact (clash hp (by decide) hc).elim | dsimp only [Same])
    | intro _ | split | with_reducible apply does_ite | with_reducible apply does_fst (by assumption) | dsimp only

theorem segsGo_does {pz : List Part} {s₀ : State} {s : State} (h_s : Does pz s₀ s) (hp : subParts [.mem, .facets,
    .mirror, .xlt, .memc, .pcx] pz = true) : Does pz s₀ (segsGo s) := by
  unfold segsGo
  try dsimp only
  repeat' first
    | with_reducible assumption | with_reducible apply segAgain_does | exact subParts_of (by decide) hp
    | with_reducible apply does_fold | simp only [does_mk] | with_reducible refine moves_intro ?_ rfl ?_
    | ((with_reducible refine only_intro ?_); intro p hc; cases p <;> first
        | exact (clash hp (by decide) hc).elim | dsimp only [Same])
    | intro _ | split | with_reducible apply does_ite | with_reducible apply does_fst (by assumption) | dsimp only

theorem segRead_does {pz : List Part} {s₀ : State} {f : Nat} {s : State} (h_s : Does pz s₀ s) (hp : subParts [.facets]
    pz = true) : Does pz s₀ (segRead f s) := by
  unfold segRead
  try dsimp only
  repeat' first
    | with_reducible assumption | with_reducible apply modF_does | with_reducible apply segResult_does
    | exact subParts_of (by decide) hp | with_reducible apply does_fold | simp only [does_mk]
    | with_reducible refine moves_intro ?_ rfl ?_
    | ((with_reducible refine only_intro ?_); intro p hc; cases p <;> first
        | exact (clash hp (by decide) hc).elim | dsimp only [Same])
    | intro _ | split | with_reducible apply does_ite | with_reducible apply does_fst (by assumption) | dsimp only

theorem grantMiss_does {pz : List Part} {s₀ : State} {s : State} (h_s : Does pz s₀ s) (hp : subParts [.xlt] pz = true)
    : Does pz s₀ (grantMiss s) := by
  unfold grantMiss
  try dsimp only
  repeat' first
    | with_reducible assumption | exact subParts_of (by decide) hp | with_reducible apply does_fold
    | simp only [does_mk] | with_reducible refine moves_intro ?_ rfl ?_
    | ((with_reducible refine only_intro ?_); intro p hc; cases p <;> first
        | exact (clash hp (by decide) hc).elim | dsimp only [Same])
    | intro _ | split | with_reducible apply does_ite | with_reducible apply does_fst (by assumption) | dsimp only

theorem missDone_does {pz : List Part} {s₀ : State} {st : Sys2Proof.Stream} {s : State} (h_s : Does pz s₀ s) (hp :
    subParts [.free, .out, .mem, .facets, .arb, .qps, .mirror, .groups, .grp, .prism, .fab, .xlt, .memc, .pcx, .mov,
    .cip, .eth, .pwr] pz = true) : Does pz s₀ (missDone st s) := by
  unfold missDone
  try dsimp only
  repeat' first
    | with_reducible assumption | with_reducible apply goOn_does | with_reducible apply grantMiss_does
    | with_reducible apply makeResident_does | exact subParts_of (by decide) hp | with_reducible apply does_fold
    | simp only [does_mk] | with_reducible refine moves_intro ?_ rfl ?_
    | ((with_reducible refine only_intro ?_); intro p hc; cases p <;> first
        | exact (clash hp (by decide) hc).elim | dsimp only [Same])
    | intro _ | split | with_reducible apply does_ite | with_reducible apply does_fst (by assumption) | dsimp only

theorem reraise_does {pz : List Part} {s₀ : State} {x0 : List Piece} {x1 : State} (h_x1 : Does pz s₀ x1) (hp :
    subParts [.free, .out, .mem, .facets, .arb, .qps, .mirror, .groups, .grp, .prism, .fab, .xlt, .memc, .pcx, .mov,
    .cip, .eth, .pwr] pz = true) : Does pz s₀ (reraise x0 x1) := by
  induction x0 generalizing x1 with
  | nil =>
    unfold reraise
    try dsimp only
    repeat' first
      | with_reducible assumption | with_reducible apply goOn_does | with_reducible apply parkOnMig_does
      | with_reducible apply raiseFaults_does | exact subParts_of (by decide) hp | with_reducible apply does_fold
      | simp only [does_mk] | with_reducible refine moves_intro ?_ rfl ?_
      | ((with_reducible refine only_intro ?_); intro p hc; cases p <;> first
          | exact (clash hp (by decide) hc).elim | dsimp only [Same])
      | intro _ | split | with_reducible apply does_ite | with_reducible apply does_fst (by assumption) | dsimp only
  | cons y r ih =>
    unfold reraise
    try dsimp only
    repeat' first
      | with_reducible assumption | with_reducible apply ih | with_reducible apply goOn_does
      | with_reducible apply parkOnMig_does | with_reducible apply raiseFaults_does | exact subParts_of (by decide) hp
      | with_reducible apply does_fold | simp only [does_mk] | with_reducible refine moves_intro ?_ rfl ?_
      | ((with_reducible refine only_intro ?_); intro p hc; cases p <;> first
          | exact (clash hp (by decide) hc).elim | dsimp only [Same])
      | intro _ | split | with_reducible apply does_ite | with_reducible apply does_fst (by assumption) | dsimp only

theorem abortPiece_does {pz : List Part} {s₀ : State} {p : Piece} {s : State} (h_s : Does pz s₀ s) (hp : subParts
    [.free, .out, .mem, .facets, .arb, .qps, .mirror, .groups, .grp, .prism, .fab, .xlt, .memc, .pcx, .mov, .cip,
    .eth, .pwr] pz = true) : Does pz s₀ (abortPiece p s) := by
  unfold abortPiece
  try dsimp only
  repeat' first
    | with_reducible assumption | with_reducible apply abortRaw_does | with_reducible apply accessFail_does
    | with_reducible apply completeItem_does | with_reducible apply endMove_does | with_reducible apply endSend_does
    | with_reducible apply failMember_does | with_reducible apply failQp_does | with_reducible apply settle_does
    | with_reducible apply startItem_does | exact subParts_of (by decide) hp | with_reducible apply does_fold
    | simp only [does_mk] | with_reducible refine moves_intro ?_ rfl ?_
    | ((with_reducible refine only_intro ?_); intro p hc; cases p <;> first
        | exact (clash hp (by decide) hc).elim | dsimp only [Same])
    | intro _ | split | with_reducible apply does_ite | with_reducible apply does_fst (by assumption) | dsimp only

theorem resumeFault_does {pz : List Part} {s₀ : State} {v : U32} {s : State} (h_s : Does pz s₀ s) (hp : subParts
    [.free, .out, .mem, .facets, .arb, .qps, .mirror, .groups, .grp, .prism, .fab, .xlt, .memc, .pcx, .mov, .cip,
    .eth, .pwr] pz = true) : Does pz s₀ (resumeFault v s) := by
  unfold resumeFault
  try dsimp only
  repeat' first
    | with_reducible assumption | with_reducible apply abortPiece_does | with_reducible apply clearBegun_does
    | with_reducible apply dropRec_does | with_reducible apply goOnAll_does | with_reducible apply retranslate_does
    | exact subParts_of (by decide) hp | with_reducible apply does_fold | simp only [does_mk]
    | with_reducible refine moves_intro ?_ rfl ?_
    | ((with_reducible refine only_intro ?_); intro p hc; cases p <;> first
        | exact (clash hp (by decide) hc).elim | dsimp only [Same])
    | intro _ | split | with_reducible apply does_ite | with_reducible apply does_fst (by assumption) | dsimp only

theorem mgmtWrite_does {pz : List Part} {s₀ : State} {f : Nat} {g : State → State} {s : State} (h_g : ∀ s, Does pz s₀
    s → Does pz s₀ (g s)) (h_s : Does pz s₀ s) (hp : subParts [] pz = true) : Does pz s₀ (mgmtWrite f g s) := by
  unfold mgmtWrite
  try dsimp only
  repeat' first
    | with_reducible assumption | with_reducible apply does_when | with_reducible apply h_g
    | exact subParts_of (by decide) hp | with_reducible apply does_fold | simp only [does_mk]
    | with_reducible refine moves_intro ?_ rfl ?_
    | ((with_reducible refine only_intro ?_); intro p hc; cases p <;> first
        | exact (clash hp (by decide) hc).elim | dsimp only [Same])
    | intro _ | split | with_reducible apply does_ite | with_reducible apply does_fst (by assumption) | dsimp only

theorem writeFltCfg_does {pz : List Part} {s₀ : State} {v : U64} {s : State} (h_s : Does pz s₀ s) (hp : subParts
    [.facets, .xlt, .pcx] pz = true) : Does pz s₀ (writeFltCfg v s) := by
  unfold writeFltCfg
  try dsimp only
  repeat' first
    | with_reducible assumption | with_reducible apply fltSignal_does | exact subParts_of (by decide) hp
    | with_reducible apply does_fold | simp only [does_mk] | with_reducible refine moves_intro ?_ rfl ?_
    | ((with_reducible refine only_intro ?_); intro p hc; cases p <;> first
        | exact (clash hp (by decide) hc).elim | dsimp only [Same])
    | intro _ | split | with_reducible apply does_ite | with_reducible apply does_fst (by assumption) | dsimp only

theorem writeFltCons_does {pz : List Part} {s₀ : State} {v : U32} {s : State} (h_s : Does pz s₀ s) (hp : subParts
    [.xlt] pz = true) : Does pz s₀ (writeFltCons v s) := by
  unfold writeFltCons
  try dsimp only
  repeat' first
    | with_reducible assumption | exact subParts_of (by decide) hp | with_reducible apply does_fold
    | simp only [does_mk] | with_reducible refine moves_intro ?_ rfl ?_
    | ((with_reducible refine only_intro ?_); intro p hc; cases p <;> first
        | exact (clash hp (by decide) hc).elim | dsimp only [Same])
    | intro _ | split | with_reducible apply does_ite | with_reducible apply does_fst (by assumption) | dsimp only

theorem writeFltArm_does {pz : List Part} {s₀ : State} {v : U32} {s : State} (h_s : Does pz s₀ s) (hp : subParts
    [.facets, .xlt, .pcx] pz = true) : Does pz s₀ (writeFltArm v s) := by
  unfold writeFltArm
  try dsimp only
  repeat' first
    | with_reducible assumption | with_reducible apply fltSignal_does | exact subParts_of (by decide) hp
    | with_reducible apply does_fold | simp only [does_mk] | with_reducible refine moves_intro ?_ rfl ?_
    | ((with_reducible refine only_intro ?_); intro p hc; cases p <;> first
        | exact (clash hp (by decide) hc).elim | dsimp only [Same])
    | intro _ | split | with_reducible apply does_ite | with_reducible apply does_fst (by assumption) | dsimp only

theorem startMig_does {pz : List Part} {s₀ : State} {f : Nat} {q : Nat} {op : Nat} {isMap : Bool} {s : State} (h_s :
    Does pz s₀ s) (hp : subParts [.mem, .facets, .mirror, .xlt, .memc, .pcx] pz = true) : Does pz s₀ (startMig f q op
    isMap s) := by
  unfold startMig
  try dsimp only
  repeat' first
    | with_reducible assumption | with_reducible apply completeItem_does | with_reducible apply startWith_does
    | exact subParts_of (by decide) hp | with_reducible apply does_fold | simp only [does_mk]
    | with_reducible refine moves_intro ?_ rfl ?_
    | ((with_reducible refine only_intro ?_); intro p hc; cases p <;> first
        | exact (clash hp (by decide) hc).elim | dsimp only [Same])
    | intro _ | split | with_reducible apply does_ite | with_reducible apply does_fst (by assumption) | dsimp only

theorem endMig_does {pz : List Part} {s₀ : State} {m : Mig} {st : Status} {s : State} (h_s : Does pz s₀ s) (hp :
    subParts [.mem, .facets, .mirror, .xlt, .memc, .pcx] pz = true) : Does pz s₀ (endMig m st s) := by
  unfold endMig
  try dsimp only
  repeat' first
    | with_reducible assumption | with_reducible apply completeItem_does | with_reducible apply settle_does
    | exact subParts_of (by decide) hp | with_reducible apply does_fold | simp only [does_mk]
    | with_reducible refine moves_intro ?_ rfl ?_
    | ((with_reducible refine only_intro ?_); intro p hc; cases p <;> first
        | exact (clash hp (by decide) hc).elim | dsimp only [Same])
    | intro _ | split | with_reducible apply does_ite | with_reducible apply does_fst (by assumption) | dsimp only

theorem modMig_does {pz : List Part} {s₀ : State} {m : Mig} {g : Mig → Mig} {s : State} (h_s : Does pz s₀ s) (hp :
    subParts [.xlt] pz = true) : Does pz s₀ (modMig m g s) := by
  unfold modMig
  try dsimp only
  repeat' first
    | with_reducible assumption | exact subParts_of (by decide) hp | with_reducible apply does_fold
    | simp only [does_mk] | with_reducible refine moves_intro ?_ rfl ?_
    | ((with_reducible refine only_intro ?_); intro p hc; cases p <;> first
        | exact (clash hp (by decide) hc).elim | dsimp only [Same])
    | intro _ | split | with_reducible apply does_ite | with_reducible apply does_fst (by assumption) | dsimp only

theorem beginMig_does {pz : List Part} {s₀ : State} {s : State} (h_s : Does pz s₀ s) (hp : subParts [.mem, .facets,
    .mirror, .xlt, .memc, .pcx] pz = true) : Does pz s₀ (beginMig s) := by
  unfold beginMig
  try dsimp only
  repeat' first
    | with_reducible assumption | with_reducible apply endMig_does | with_reducible apply modMig_does
    | with_reducible apply setTile_does | exact subParts_of (by decide) hp | with_reducible apply does_fold
    | simp only [does_mk] | with_reducible refine moves_intro ?_ rfl ?_
    | ((with_reducible refine only_intro ?_); intro p hc; cases p <;> first
        | exact (clash hp (by decide) hc).elim | dsimp only [Same])
    | intro _ | split | with_reducible apply does_ite | with_reducible apply does_fst (by assumption) | dsimp only

theorem releaseAll_does {pz : List Part} {s₀ : State} {m : Mig} {parked : List Piece} {s : State} (h_s : Does pz s₀ s)
    (hp : subParts [.free, .out, .mem, .facets, .arb, .qps, .mirror, .groups, .grp, .prism, .fab, .xlt, .memc, .pcx,
    .mov, .cip, .eth, .pwr] pz = true) : Does pz s₀ (releaseAll m parked s) := by
  unfold releaseAll
  try dsimp only
  repeat' first
    | with_reducible assumption | with_reducible apply goOnAll_does | with_reducible apply releaseTile_does
    | exact subParts_of (by decide) hp | with_reducible apply does_fold | simp only [does_mk]
    | with_reducible refine moves_intro ?_ rfl ?_
    | ((with_reducible refine only_intro ?_); intro p hc; cases p <;> first
        | exact (clash hp (by decide) hc).elim | dsimp only [Same])
    | intro _ | split | with_reducible apply does_ite | with_reducible apply does_fst (by assumption) | dsimp only

theorem finishMig_does {pz : List Part} {s₀ : State} {m : Mig} {s : State} (h_s : Does pz s₀ s) (hp : subParts [.free,
    .out, .mem, .facets, .arb, .qps, .mirror, .groups, .grp, .prism, .fab, .xlt, .memc, .pcx, .mov, .cip, .eth, .pwr]
    pz = true) : Does pz s₀ (finishMig m s) := by
  unfold finishMig
  try dsimp only
  repeat' first
    | with_reducible assumption | with_reducible apply endMig_does | with_reducible apply goOnAll_does
    | with_reducible apply releaseAll_does | with_reducible apply retranslate_does | with_reducible apply setTile_does
    | with_reducible apply shrinkEval_does | exact subParts_of (by decide) hp | with_reducible apply does_fold
    | simp only [does_mk] | with_reducible refine moves_intro ?_ rfl ?_
    | ((with_reducible refine only_intro ?_); intro p hc; cases p <;> first
        | exact (clash hp (by decide) hc).elim | dsimp only [Same])
    | intro _ | split | with_reducible apply does_ite | with_reducible apply does_fst (by assumption) | dsimp only

theorem askMig_does {pz : List Part} {s₀ : State} {s : State} {m : Mig} (h_s : Does pz s₀ s) (hp : subParts [.xlt,
    .pcx] pz = true) : Does pz s₀ (askMig s m) := by
  unfold askMig
  try dsimp only
  repeat' first
    | with_reducible assumption | with_reducible apply modMig_does | with_reducible apply readAll_does
    | exact subParts_of (by decide) hp | with_reducible apply does_fold | simp only [does_mk]
    | with_reducible refine moves_intro ?_ rfl ?_
    | ((with_reducible refine only_intro ?_); intro p hc; cases p <;> first
        | exact (clash hp (by decide) hc).elim | dsimp only [Same])
    | intro _ | split | with_reducible apply does_ite | with_reducible apply does_fst (by assumption) | dsimp only

theorem askMigs_does {pz : List Part} {s₀ : State} {s : State} (h_s : Does pz s₀ s) (hp : subParts [.xlt, .pcx] pz =
    true) : Does pz s₀ (askMigs s) := by
  unfold askMigs
  try dsimp only
  repeat' first
    | with_reducible assumption | with_reducible apply askMig_does | exact subParts_of (by decide) hp
    | with_reducible apply does_fold | simp only [does_mk] | with_reducible refine moves_intro ?_ rfl ?_
    | ((with_reducible refine only_intro ?_); intro p hc; cases p <;> first
        | exact (clash hp (by decide) hc).elim | dsimp only [Same])
    | intro _ | split | with_reducible apply does_ite | with_reducible apply does_fst (by assumption) | dsimp only

theorem migDrained_does {pz : List Part} {s₀ : State} {f : Nat} {seg : Nat} {t : Nat} {s : State} (h_s : Does pz s₀ s)
    (hp : subParts [.free, .out, .mem, .facets, .arb, .qps, .mirror, .groups, .grp, .prism, .fab, .xlt, .memc, .pcx,
    .mov, .cip, .eth, .pwr] pz = true) : Does pz s₀ (migDrained f seg t s) := by
  unfold migDrained
  try dsimp only
  repeat' first
    | with_reducible assumption | with_reducible apply askMigs_does | with_reducible apply finishMig_does
    | with_reducible apply modMig_does | exact subParts_of (by decide) hp | with_reducible apply does_fold
    | simp only [does_mk] | with_reducible refine moves_intro ?_ rfl ?_
    | ((with_reducible refine only_intro ?_); intro p hc; cases p <;> first
        | exact (clash hp (by decide) hc).elim | dsimp only [Same])
    | intro _ | split | with_reducible apply does_ite | with_reducible apply does_fst (by assumption) | dsimp only

theorem migCopied_does {pz : List Part} {s₀ : State} {m : Mig} {bytes : Bytes} {s : State} (h_s : Does pz s₀ s) (hp :
    subParts [.mem, .facets, .xlt, .memc, .pcx] pz = true) : Does pz s₀ (migCopied m bytes s) := by
  unfold migCopied
  try dsimp only
  repeat' first
    | with_reducible assumption | with_reducible apply modMig_does | with_reducible apply postAll_does
    | exact subParts_of (by decide) hp | with_reducible apply does_fold | simp only [does_mk]
    | with_reducible refine moves_intro ?_ rfl ?_
    | ((with_reducible refine only_intro ?_); intro p hc; cases p <;> first
        | exact (clash hp (by decide) hc).elim | dsimp only [Same])
    | intro _ | split | with_reducible apply does_ite | with_reducible apply does_fst (by assumption) | dsimp only

theorem migPlaced_does {pz : List Part} {s₀ : State} {f : Nat} {seg : Nat} {t : Nat} {s : State} (h_s : Does pz s₀ s)
    (hp : subParts [.free, .out, .mem, .facets, .arb, .qps, .mirror, .groups, .grp, .prism, .fab, .xlt, .memc, .pcx,
    .mov, .cip, .eth, .pwr] pz = true) : Does pz s₀ (migPlaced f seg t s) := by
  unfold migPlaced
  try dsimp only
  repeat' first
    | with_reducible assumption | with_reducible apply finishMig_does | exact subParts_of (by decide) hp
    | with_reducible apply does_fold | simp only [does_mk] | with_reducible refine moves_intro ?_ rfl ?_
    | ((with_reducible refine only_intro ?_); intro p hc; cases p <;> first
        | exact (clash hp (by decide) hc).elim | dsimp only [Same])
    | intro _ | split | with_reducible apply does_ite | with_reducible apply does_fst (by assumption) | dsimp only

theorem migBusError_does {pz : List Part} {s₀ : State} {s : State} {m : Mig} (h_s : Does pz s₀ s) (hp : subParts
    [.free, .out, .mem, .facets, .arb, .qps, .mirror, .groups, .grp, .prism, .fab, .xlt, .memc, .pcx, .mov, .cip,
    .eth, .pwr] pz = true) : Does pz s₀ (migBusError s m) := by
  unfold migBusError
  try dsimp only
  repeat' first
    | with_reducible assumption | with_reducible apply endMig_does | with_reducible apply readsEnd_does
    | with_reducible apply releaseAll_does | with_reducible apply setTile_does | with_reducible apply voidWrites_does
    | exact subParts_of (by decide) hp | with_reducible apply does_fold | simp only [does_mk]
    | with_reducible refine moves_intro ?_ rfl ?_
    | ((with_reducible refine only_intro ?_); intro p hc; cases p <;> first
        | exact (clash hp (by decide) hc).elim | dsimp only [Same])
    | intro _ | split | with_reducible apply does_ite | with_reducible apply does_fst (by assumption) | dsimp only

theorem busError_does {pz : List Part} {s₀ : State} {port : Nat} {halfB : Bool} {kind : Nat} {addr : U64} {forced :
    Bool} {s : State} (h_s : Does pz s₀ s) (hp : subParts [.free, .out, .mem, .facets, .arb, .qps, .mirror, .groups,
    .grp, .prism, .fab, .xlt, .memc, .pcx, .mov, .cip, .eth, .agl, .err, .pwr] pz = true) : Does pz s₀ (busError port
    halfB kind addr forced s) := by
  unfold busError
  try dsimp only
  repeat' first
    | with_reducible assumption | with_reducible apply migBusError_does | with_reducible apply stopMover_does
    | exact subParts_of (by decide) hp | with_reducible apply does_fold | simp only [does_mk]
    | with_reducible refine moves_intro ?_ rfl ?_
    | ((with_reducible refine only_intro ?_); intro p hc; cases p <;> first
        | exact (clash hp (by decide) hc).elim | dsimp only [Same])
    | intro _ | split | with_reducible apply does_ite | with_reducible apply does_fst (by assumption) | dsimp only

end Sys2Proof.Machine
end

