-- ==== Sys2Proof/Laws/PortsFrame.lean ====
section
/-!
SUPPORT. What each operation of Machine/Ports.lean may change: one lemma per operation.
-/
set_option linter.unusedTactic false
set_option linter.unreachableTactic false
set_option linter.unusedSimpArgs false
set_option linter.unusedVariables false

namespace Sys2Proof.Machine

theorem wbVisible_does {pz : List Part} {s₀ : State} {f : Nat} {rq : Bool} {q : Nat} {idx : U32} {s : State} (h_s :
    Does pz s₀ s) (hp : subParts [.out, .mem, .facets, .qps, .mirror, .fab, .memc, .pcx, .cip, .eth, .pwr] pz = true)
    : Does pz s₀ (wbVisible f rq q idx s) := by
  unfold wbVisible
  try dsimp only
  repeat' first
    | with_reducible assumption | with_reducible apply modItem_does | with_reducible apply sendVisible_does
    | with_reducible apply settle_does | exact subParts_of (by decide) hp | with_reducible apply does_fold
    | simp only [does_mk] | with_reducible refine moves_intro ?_ rfl ?_
    | ((with_reducible refine only_intro ?_); intro p hc; cases p <;> first
        | exact (clash hp (by decide) hc).elim | dsimp only [Same])
    | intro _ | split | with_reducible apply does_ite | with_reducible apply does_fst (by assumption) | dsimp only

theorem recordSeen_does {pz : List Part} {s₀ : State} {f : Nat} {rq : Bool} {q : Nat} {s : State} (h_s : Does pz s₀ s)
    (hp : subParts [.mem, .facets, .memc, .pcx] pz = true) : Does pz s₀ (recordSeen f rq q s) := by
  unfold recordSeen
  try dsimp only
  repeat' first
    | with_reducible assumption | with_reducible apply modQ_does | with_reducible apply pendingEntries_does
    | exact subParts_of (by decide) hp | with_reducible apply does_fold | simp only [does_mk]
    | with_reducible refine moves_intro ?_ rfl ?_
    | ((with_reducible refine only_intro ?_); intro p hc; cases p <;> first
        | exact (clash hp (by decide) hc).elim | dsimp only [Same])
    | intro _ | split | with_reducible apply does_ite | with_reducible apply does_fst (by assumption) | dsimp only

theorem confirmed_does {pz : List Part} {s₀ : State} {s : State} {w : PlaceFor} (h_s : Does pz s₀ s) (hp : subParts
    [.free, .out, .mem, .facets, .arb, .qps, .zrt, .mirror, .groups, .grp, .prism, .fab, .xlt, .memc, .pcx, .mov,
    .cip, .eth, .pwr] pz = true) : Does pz s₀ (confirmed s w) := by
  unfold confirmed
  try dsimp only
  repeat' first
    | with_reducible assumption | with_reducible apply completeItem_does | with_reducible apply confirmRx_does
    | with_reducible apply confirmTx_does | with_reducible apply countsWritten_does
    | with_reducible apply migPlaced_does | with_reducible apply modQp_does | with_reducible apply moveConfirmed_does
    | with_reducible apply msixCheck_does | with_reducible apply rawPlaced_does | with_reducible apply recordSeen_does
    | with_reducible apply runGroup_does | with_reducible apply settle_does | with_reducible apply tryFreeQp_does
    | with_reducible apply wbVisible_does | exact subParts_of (by decide) hp | with_reducible apply does_fold
    | simp only [does_mk] | with_reducible refine moves_intro ?_ rfl ?_
    | ((with_reducible refine only_intro ?_); intro p hc; cases p <;> first
        | exact (clash hp (by decide) hc).elim | dsimp only [Same])
    | intro _ | split | with_reducible apply does_ite | with_reducible apply does_fst (by assumption) | dsimp only

theorem confirmAll_does {pz : List Part} {s₀ : State} {l : List Unconf} {s : State} (h_s : Does pz s₀ s) (hp :
    subParts [.free, .out, .mem, .facets, .arb, .qps, .zrt, .mirror, .groups, .grp, .prism, .fab, .xlt, .memc, .pcx,
    .mov, .cip, .eth, .pwr] pz = true) : Does pz s₀ (confirmAll l s) := by
  unfold confirmAll
  try dsimp only
  repeat' first
    | with_reducible assumption | with_reducible apply confirmed_does | exact subParts_of (by decide) hp
    | with_reducible apply does_fold | simp only [does_mk] | with_reducible refine moves_intro ?_ rfl ?_
    | ((with_reducible refine only_intro ?_); intro p hc; cases p <;> first
        | exact (clash hp (by decide) hc).elim | dsimp only [Same])
    | intro _ | split | with_reducible apply does_ite | with_reducible apply does_fst (by assumption) | dsimp only

theorem flushReturned_does {pz : List Part} {s₀ : State} {k : Nat} {s : State} (h_s : Does pz s₀ s) (hp : subParts
    [.free, .out, .mem, .facets, .arb, .qps, .zrt, .mirror, .groups, .grp, .prism, .fab, .xlt, .memc, .pcx, .mov,
    .cip, .eth, .pwr] pz = true) : Does pz s₀ (flushReturned k s) := by
  unfold flushReturned
  try dsimp only
  repeat' first
    | with_reducible assumption | with_reducible apply confirmAll_does | with_reducible apply flushNow_does
    | with_reducible apply modP_does | exact subParts_of (by decide) hp | with_reducible apply does_fold
    | simp only [does_mk] | with_reducible refine moves_intro ?_ rfl ?_
    | ((with_reducible refine only_intro ?_); intro p hc; cases p <;> first
        | exact (clash hp (by decide) hc).elim | dsimp only [Same])
    | intro _ | split | with_reducible apply does_ite | with_reducible apply does_fst (by assumption) | dsimp only

theorem mirrored_does {pz : List Part} {s₀ : State} {k : MirrorKey} {s : State} (h_s : Does pz s₀ s) (hp : subParts
    [.free, .out, .mem, .facets, .qps, .mirror, .fab, .xlt, .memc, .pcx, .mov, .cip, .eth, .pwr] pz = true) : Does pz
    s₀ (mirrored k s) := by
  unfold mirrored
  try dsimp only
  repeat' first
    | with_reducible assumption | with_reducible apply cipGo_does | with_reducible apply dropBursts_does
    | with_reducible apply dropFrames_does | with_reducible apply frameRecorded_does
    | with_reducible apply modChan_does | with_reducible apply modItem_does | with_reducible apply modMir_does
    | with_reducible apply modQp_does | with_reducible apply recordBursts_does
    | with_reducible apply sendMirrored_does | with_reducible apply sendOwed_does | with_reducible apply settle_does
    | exact subParts_of (by decide) hp | with_reducible apply does_fold | simp only [does_mk]
    | with_reducible refine moves_intro ?_ rfl ?_
    | ((with_reducible refine only_intro ?_); intro p hc; cases p <;> first
        | exact (clash hp (by decide) hc).elim | dsimp only [Same])
    | intro _ | split | with_reducible apply does_ite | with_reducible apply does_fst (by assumption) | dsimp only

theorem holdBack_does {pz : List Part} {s₀ : State} {k : Nat} {l : List Unconf} {s : State} (h_s : Does pz s₀ s) (hp :
    subParts [.facets, .pcx] pz = true) : Does pz s₀ (holdBack k l s) := by
  unfold holdBack
  try dsimp only
  repeat' first
    | with_reducible assumption | with_reducible apply modF_does | with_reducible apply modP_does
    | exact subParts_of (by decide) hp | with_reducible apply does_fold | simp only [does_mk]
    | with_reducible refine moves_intro ?_ rfl ?_
    | ((with_reducible refine only_intro ?_); intro p hc; cases p <;> first
        | exact (clash hp (by decide) hc).elim | dsimp only [Same])
    | intro _ | split | with_reducible apply does_ite | with_reducible apply does_fst (by assumption) | dsimp only

theorem voidPackets_does {pz : List Part} {s₀ : State} {k : Nat} {ps : List U32} {n : Nat} {s : State} (h_s : Does pz
    s₀ s) (hp : subParts [.out, .qps, .mirror, .fab, .pcx, .cip, .eth, .pwr] pz = true) : Does pz s₀ (voidPackets k ps
    n s) := by
  unfold voidPackets
  try dsimp only
  repeat' first
    | with_reducible assumption | with_reducible apply modQp_does | with_reducible apply nakHoldFor_does
    | exact subParts_of (by decide) hp | with_reducible apply does_fold | simp only [does_mk]
    | with_reducible refine moves_intro ?_ rfl ?_
    | ((with_reducible refine only_intro ?_); intro p hc; cases p <;> first
        | exact (clash hp (by decide) hc).elim | dsimp only [Same])
    | intro _ | split | with_reducible apply does_ite | with_reducible apply does_fst (by assumption) | dsimp only

theorem qpPortDown_does {pz : List Part} {s₀ : State} {k : Nat} {l : List Unconf} {s : State} {n : Nat} (h_s : Does pz
    s₀ s) (hp : subParts [.out, .mem, .facets, .qps, .zrt, .mirror, .fab, .xlt, .memc, .pcx, .cip, .eth, .pwr] pz =
    true) : Does pz s₀ (qpPortDown k l s n) := by
  unfold qpPortDown
  try dsimp only
  repeat' first
    | with_reducible assumption | with_reducible apply enterHold_does | with_reducible apply modQp_does
    | with_reducible apply tryFreeQp_does | with_reducible apply voidPackets_does
    | with_reducible apply voidWrites_does | exact subParts_of (by decide) hp | with_reducible apply does_fold
    | simp only [does_mk] | with_reducible refine moves_intro ?_ rfl ?_
    | ((with_reducible refine only_intro ?_); intro p hc; cases p <;> first
        | exact (clash hp (by decide) hc).elim | dsimp only [Same])
    | intro _ | split | with_reducible apply does_ite | with_reducible apply does_fst (by assumption) | dsimp only

theorem holdFetch_does {pz : List Part} {s₀ : State} {k : Nat} {f : Nat} {rq : Bool} {s : State} {q : Nat} (h_s : Does
    pz s₀ s) (hp : subParts [.facets] pz = true) : Does pz s₀ (holdFetch k f rq s q) := by
  unfold holdFetch
  try dsimp only
  repeat' first
    | with_reducible assumption | with_reducible apply modQ_does | exact subParts_of (by decide) hp
    | with_reducible apply does_fold | simp only [does_mk] | with_reducible refine moves_intro ?_ rfl ?_
    | ((with_reducible refine only_intro ?_); intro p hc; cases p <;> first
        | exact (clash hp (by decide) hc).elim | dsimp only [Same])
    | intro _ | split | with_reducible apply does_ite | with_reducible apply does_fst (by assumption) | dsimp only

theorem holdFetches_does {pz : List Part} {s₀ : State} {k : Nat} {f : Nat} {s : State} (h_s : Does pz s₀ s) (hp :
    subParts [.facets] pz = true) : Does pz s₀ (holdFetches k f s) := by
  unfold holdFetches
  try dsimp only
  repeat' first
    | with_reducible assumption | with_reducible apply holdFetch_does | exact subParts_of (by decide) hp
    | with_reducible apply does_fold | simp only [does_mk] | with_reducible refine moves_intro ?_ rfl ?_
    | ((with_reducible refine only_intro ?_); intro p hc; cases p <;> first
        | exact (clash hp (by decide) hc).elim | dsimp only [Same])
    | intro _ | split | with_reducible apply does_ite | with_reducible apply does_fst (by assumption) | dsimp only

theorem freeFetch_does {pz : List Part} {s₀ : State} {f : Nat} {rq : Bool} {s : State} {q : Nat} (h_s : Does pz s₀ s)
    (hp : subParts [.facets, .pcx] pz = true) : Does pz s₀ (freeFetch f rq s q) := by
  unfold freeFetch
  try dsimp only
  repeat' first
    | with_reducible assumption | with_reducible apply readSlots_does | exact subParts_of (by decide) hp
    | with_reducible apply does_fold | simp only [does_mk] | with_reducible refine moves_intro ?_ rfl ?_
    | ((with_reducible refine only_intro ?_); intro p hc; cases p <;> first
        | exact (clash hp (by decide) hc).elim | dsimp only [Same])
    | intro _ | split | with_reducible apply does_ite | with_reducible apply does_fst (by assumption) | dsimp only

theorem freeFetches_does {pz : List Part} {s₀ : State} {s : State} {f : Nat} (h_s : Does pz s₀ s) (hp : subParts
    [.facets, .pcx] pz = true) : Does pz s₀ (freeFetches s f) := by
  unfold freeFetches
  try dsimp only
  repeat' first
    | with_reducible assumption | with_reducible apply freeFetch_does | exact subParts_of (by decide) hp
    | with_reducible apply does_fold | simp only [does_mk] | with_reducible refine moves_intro ?_ rfl ?_
    | ((with_reducible refine only_intro ?_); intro p hc; cases p <;> first
        | exact (clash hp (by decide) hc).elim | dsimp only [Same])
    | intro _ | split | with_reducible apply does_ite | with_reducible apply does_fst (by assumption) | dsimp only

theorem dropCollReads_does {pz : List Part} {s₀ : State} {k : Nat} {s : State} (h_s : Does pz s₀ s) (hp : subParts
    [.groups] pz = true) : Does pz s₀ (dropCollReads k s) := by
  unfold dropCollReads
  try dsimp only
  repeat' first
    | with_reducible assumption | exact subParts_of (by decide) hp | with_reducible apply does_fold
    | simp only [does_mk] | with_reducible refine moves_intro ?_ rfl ?_
    | ((with_reducible refine only_intro ?_); intro p hc; cases p <;> first
        | exact (clash hp (by decide) hc).elim | dsimp only [Same])
    | intro _ | split | with_reducible apply does_ite | with_reducible apply does_fst (by assumption) | dsimp only

theorem parkChans_does {pz : List Part} {s₀ : State} {k : Nat} {l : List Unconf} {s : State} (h_s : Does pz s₀ s) (hp
    : subParts [.mov] pz = true) : Does pz s₀ (parkChans k l s) := by
  unfold parkChans
  try dsimp only
  repeat' first
    | with_reducible assumption | exact subParts_of (by decide) hp | with_reducible apply does_fold
    | simp only [does_mk] | with_reducible refine moves_intro ?_ rfl ?_
    | ((with_reducible refine only_intro ?_); intro p hc; cases p <;> first
        | exact (clash hp (by decide) hc).elim | dsimp only [Same])
    | intro _ | split | with_reducible apply does_ite | with_reducible apply does_fst (by assumption) | dsimp only

theorem dropAsked_does {pz : List Part} {s₀ : State} {k : Nat} {s : State} (h_s : Does pz s₀ s) (hp : subParts [.xlt,
    .eth] pz = true) : Does pz s₀ (dropAsked k s) := by
  unfold dropAsked
  try dsimp only
  repeat' first
    | with_reducible assumption | exact subParts_of (by decide) hp | with_reducible apply does_fold
    | simp only [does_mk] | with_reducible refine moves_intro ?_ rfl ?_
    | ((with_reducible refine only_intro ?_); intro p hc; cases p <;> first
        | exact (clash hp (by decide) hc).elim | dsimp only [Same])
    | intro _ | split | with_reducible apply does_ite | with_reducible apply does_fst (by assumption) | dsimp only

theorem pendMsix_does {pz : List Part} {s₀ : State} {p : Port} {s : State} (h_s : Does pz s₀ s) (hp : subParts
    [.facets] pz = true) : Does pz s₀ (pendMsix p s) := by
  unfold pendMsix
  try dsimp only
  repeat' first
    | with_reducible assumption | with_reducible apply msixWaits_does | exact subParts_of (by decide) hp
    | with_reducible apply does_fold | simp only [does_mk] | with_reducible refine moves_intro ?_ rfl ?_
    | ((with_reducible refine only_intro ?_); intro p hc; cases p <;> first
        | exact (clash hp (by decide) hc).elim | dsimp only [Same])
    | intro _ | split | with_reducible apply does_ite | with_reducible apply does_fst (by assumption) | dsimp only

theorem portDown_does {pz : List Part} {s₀ : State} {k : Nat} {s : State} (h_s : Does pz s₀ s) (hp : subParts [.free,
    .out, .mem, .facets, .arb, .qps, .zrt, .mirror, .groups, .grp, .prism, .fab, .xlt, .memc, .pcx, .mov, .cip, .eth,
    .pwr] pz = true) : Does pz s₀ (portDown k s) := by
  unfold portDown
  try dsimp only
  repeat' first
    | with_reducible assumption | with_reducible apply cmpPortError_does | with_reducible apply dropAsked_does
    | with_reducible apply dropCollReads_does | with_reducible apply holdBack_does
    | with_reducible apply holdFetches_does | with_reducible apply modP_does | with_reducible apply parkChans_does
    | with_reducible apply pendMsix_does | with_reducible apply qpPortDown_does | with_reducible apply wakeColls_does
    | exact subParts_of (by decide) hp | with_reducible apply does_fold | simp only [does_mk]
    | with_reducible refine moves_intro ?_ rfl ?_
    | ((with_reducible refine only_intro ?_); intro p hc; cases p <;> first
        | exact (clash hp (by decide) hc).elim | dsimp only [Same])
    | intro _ | split | with_reducible apply does_ite | with_reducible apply does_fst (by assumption) | dsimp only

theorem reissue_does {pz : List Part} {s₀ : State} {k : Nat} {s : State} {h : Held} (h_s : Does pz s₀ s) (hp :
    subParts [.mem, .memc, .pcx] pz = true) : Does pz s₀ (reissue k s h) := by
  unfold reissue
  try dsimp only
  repeat' first
    | with_reducible assumption | with_reducible apply issue_does | exact subParts_of (by decide) hp
    | with_reducible apply does_fold | simp only [does_mk] | with_reducible refine moves_intro ?_ rfl ?_
    | ((with_reducible refine only_intro ?_); intro p hc; cases p <;> first
        | exact (clash hp (by decide) hc).elim | dsimp only [Same])
    | intro _ | split | with_reducible apply does_ite | with_reducible apply does_fst (by assumption) | dsimp only

theorem reissueRecords_does {pz : List Part} {s₀ : State} {l : List Held} {s : State} (h_s : Does pz s₀ s) (hp :
    subParts [.mem, .facets, .memc, .pcx] pz = true) : Does pz s₀ (reissueRecords l s) := by
  unfold reissueRecords
  try dsimp only
  repeat' first
    | with_reducible assumption | with_reducible apply writeRecord_does | exact subParts_of (by decide) hp
    | with_reducible apply does_fold | simp only [does_mk] | with_reducible refine moves_intro ?_ rfl ?_
    | ((with_reducible refine only_intro ?_); intro p hc; cases p <;> first
        | exact (clash hp (by decide) hc).elim | dsimp only [Same])
    | intro _ | split | with_reducible apply does_ite | with_reducible apply does_fst (by assumption) | dsimp only

theorem clearHolds_does {pz : List Part} {s₀ : State} {k : Nat} {s : State} {n : Nat} (h_s : Does pz s₀ s) (hp :
    subParts [.out, .qps, .mirror, .fab, .pcx, .cip, .eth, .pwr] pz = true) : Does pz s₀ (clearHolds k s n) := by
  unfold clearHolds
  try dsimp only
  repeat' first
    | with_reducible assumption | with_reducible apply answer_does | with_reducible apply leaveHold_does
    | with_reducible apply modQp_does | exact subParts_of (by decide) hp | with_reducible apply does_fold
    | simp only [does_mk] | with_reducible refine moves_intro ?_ rfl ?_
    | ((with_reducible refine only_intro ?_); intro p hc; cases p <;> first
        | exact (clash hp (by decide) hc).elim | dsimp only [Same])
    | intro _ | split | with_reducible apply does_ite | with_reducible apply does_fst (by assumption) | dsimp only

theorem releaseList_does {pz : List Part} {s₀ : State} {k : Nat} {l : List Held} {s : State} (h_s : Does pz s₀ s) (hp
    : subParts [.mem, .facets, .memc, .pcx] pz = true) : Does pz s₀ (releaseList k l s) := by
  unfold releaseList
  try dsimp only
  repeat' first
    | with_reducible assumption | with_reducible apply flushNow_does | with_reducible apply reissue_does
    | with_reducible apply reissueRecords_does | exact subParts_of (by decide) hp | with_reducible apply does_fold
    | simp only [does_mk] | with_reducible refine moves_intro ?_ rfl ?_
    | ((with_reducible refine only_intro ?_); intro p hc; cases p <;> first
        | exact (clash hp (by decide) hc).elim | dsimp only [Same])
    | intro _ | split | with_reducible apply does_ite | with_reducible apply does_fst (by assumption) | dsimp only

theorem recheckRings_does {pz : List Part} {s₀ : State} {k : Nat} {s : State} {f : Nat} (h_s : Does pz s₀ s) (hp :
    subParts [.facets, .pcx] pz = true) : Does pz s₀ (recheckRings k s f) := by
  unfold recheckRings
  try dsimp only
  repeat' first
    | with_reducible assumption | with_reducible apply msixCheck_does | exact subParts_of (by decide) hp
    | with_reducible apply does_fold | simp only [does_mk] | with_reducible refine moves_intro ?_ rfl ?_
    | ((with_reducible refine only_intro ?_); intro p hc; cases p <;> first
        | exact (clash hp (by decide) hc).elim | dsimp only [Same])
    | intro _ | split | with_reducible apply does_ite | with_reducible apply does_fst (by assumption) | dsimp only

theorem afterRelease_does {pz : List Part} {s₀ : State} {k : Nat} {s : State} (h_s : Does pz s₀ s) (hp : subParts
    [.free, .out, .mem, .facets, .arb, .qps, .mirror, .groups, .grp, .prism, .fab, .xlt, .memc, .pcx, .mov, .cip,
    .eth, .pwr] pz = true) : Does pz s₀ (afterRelease k s) := by
  unfold afterRelease
  try dsimp only
  repeat' first
    | with_reducible assumption | with_reducible apply askMigs_does | with_reducible apply clearHolds_does
    | with_reducible apply freeFetches_does | with_reducible apply rawGo_does | with_reducible apply readFrame_does
    | with_reducible apply recheckRings_does | with_reducible apply settle_does | with_reducible apply wakeColls_does
    | with_reducible apply wakeMovers_does | exact subParts_of (by decide) hp | with_reducible apply does_fold
    | simp only [does_mk] | with_reducible refine moves_intro ?_ rfl ?_
    | ((with_reducible refine only_intro ?_); intro p hc; cases p <;> first
        | exact (clash hp (by decide) hc).elim | dsimp only [Same])
    | intro _ | split | with_reducible apply does_ite | with_reducible apply does_fst (by assumption) | dsimp only

theorem releaseFacet_does {pz : List Part} {s₀ : State} {f : Nat} {s : State} (h_s : Does pz s₀ s) (hp : subParts
    [.free, .out, .mem, .facets, .arb, .qps, .mirror, .groups, .grp, .prism, .fab, .xlt, .memc, .pcx, .mov, .cip,
    .eth, .pwr] pz = true) : Does pz s₀ (releaseFacet f s) := by
  unfold releaseFacet
  try dsimp only
  repeat' first
    | with_reducible assumption | with_reducible apply afterRelease_does | with_reducible apply modF_does
    | with_reducible apply releaseList_does | with_reducible apply sendPba_does | exact subParts_of (by decide) hp
    | with_reducible apply does_fold | simp only [does_mk] | with_reducible refine moves_intro ?_ rfl ?_
    | ((with_reducible refine only_intro ?_); intro p hc; cases p <;> first
        | exact (clash hp (by decide) hc).elim | dsimp only [Same])
    | intro _ | split | with_reducible apply does_ite | with_reducible apply does_fst (by assumption) | dsimp only

theorem releasePort_does {pz : List Part} {s₀ : State} {k : Nat} {s : State} (h_s : Does pz s₀ s) (hp : subParts
    [.free, .out, .mem, .facets, .arb, .qps, .mirror, .groups, .grp, .prism, .fab, .xlt, .memc, .pcx, .mov, .cip,
    .eth, .pwr] pz = true) : Does pz s₀ (releasePort k s) := by
  unfold releasePort
  try dsimp only
  repeat' first
    | with_reducible assumption | with_reducible apply afterRelease_does | with_reducible apply modP_does
    | with_reducible apply releaseList_does | exact subParts_of (by decide) hp | with_reducible apply does_fold
    | simp only [does_mk] | with_reducible refine moves_intro ?_ rfl ?_
    | ((with_reducible refine only_intro ?_); intro p hc; cases p <;> first
        | exact (clash hp (by decide) hc).elim | dsimp only [Same])
    | intro _ | split | with_reducible apply does_ite | with_reducible apply does_fst (by assumption) | dsimp only

theorem wakeUpEnd_does {pz : List Part} {s₀ : State} {s : State} (h_s : Does pz s₀ s) (hp : subParts [.out, .pwr] pz =
    true) : Does pz s₀ (wakeUpEnd s) := by
  unfold wakeUpEnd
  try dsimp only
  repeat' first
    | with_reducible assumption | with_reducible apply emit_does | exact subParts_of (by decide) hp
    | with_reducible apply does_fold | simp only [does_mk] | with_reducible refine moves_intro ?_ rfl ?_
    | ((with_reducible refine only_intro ?_); intro p hc; cases p <;> first
        | exact (clash hp (by decide) hc).elim | dsimp only [Same])
    | intro _ | split | with_reducible apply does_ite | with_reducible apply does_fst (by assumption) | dsimp only

theorem dlUp_does {pz : List Part} {s₀ : State} {k : Nat} {speed : Nat} {width : Nat} {flit : Bool} {s : State} (h_s :
    Does pz s₀ s) (hp : subParts [.out, .facets, .pcx, .pwr] pz = true) : Does pz s₀ (dlUp k speed width flit s) := by
  unfold dlUp
  try dsimp only
  repeat' first
    | with_reducible assumption | with_reducible apply modP_does | with_reducible apply wakeUpEnd_does
    | exact subParts_of (by decide) hp | with_reducible apply does_fold | simp only [does_mk]
    | with_reducible refine moves_intro ?_ rfl ?_
    | ((with_reducible refine only_intro ?_); intro p hc; cases p <;> first
        | exact (clash hp (by decide) hc).elim | dsimp only [Same])
    | intro _ | split | with_reducible apply does_ite | with_reducible apply does_fst (by assumption) | dsimp only

theorem readEpoch_does {pz : List Part} {s₀ : State} {f : Nat} {s : State} (h_s : Does pz s₀ s) (hp : subParts [.free,
    .out, .mem, .facets, .arb, .qps, .mirror, .groups, .grp, .prism, .fab, .xlt, .memc, .pcx, .mov, .cip, .eth, .pwr]
    pz = true) : Does pz s₀ (readEpoch f s) := by
  unfold readEpoch
  try dsimp only
  repeat' first
    | with_reducible assumption | with_reducible apply emit_does | with_reducible apply modF_does
    | with_reducible apply releaseFacet_does | exact subParts_of (by decide) hp | with_reducible apply does_fold
    | simp only [does_mk] | with_reducible refine moves_intro ?_ rfl ?_
    | ((with_reducible refine only_intro ?_); intro p hc; cases p <;> first
        | exact (clash hp (by decide) hc).elim | dsimp only [Same])
    | intro _ | split | with_reducible apply does_ite | with_reducible apply does_fst (by assumption) | dsimp only

theorem readPort_does {pz : List Part} {s₀ : State} {f : Nat} {p : Nat} {s : State} (h_s : Does pz s₀ s) (hp :
    subParts [.free, .out, .mem, .facets, .arb, .qps, .mirror, .groups, .grp, .prism, .fab, .xlt, .memc, .pcx, .mov,
    .cip, .eth, .pwr] pz = true) : Does pz s₀ (readPort f p s) := by
  unfold readPort
  try dsimp only
  repeat' first
    | with_reducible assumption | with_reducible apply emit_does | with_reducible apply modP_does
    | with_reducible apply releasePort_does | exact subParts_of (by decide) hp | with_reducible apply does_fold
    | simp only [does_mk] | with_reducible refine moves_intro ?_ rfl ?_
    | ((with_reducible refine only_intro ?_); intro p hc; cases p <;> first
        | exact (clash hp (by decide) hc).elim | dsimp only [Same])
    | intro _ | split | with_reducible apply does_ite | with_reducible apply does_fst (by assumption) | dsimp only

theorem readPortB_does {pz : List Part} {s₀ : State} {f : Nat} {k : Nat} {s : State} (h_s : Does pz s₀ s) (hp :
    subParts [.free, .out, .mem, .facets, .arb, .qps, .mirror, .groups, .grp, .prism, .fab, .xlt, .memc, .pcx, .mov,
    .cip, .eth, .pwr] pz = true) : Does pz s₀ (readPortB f k s) := by
  unfold readPortB
  try dsimp only
  repeat' first
    | with_reducible assumption | with_reducible apply emit_does | with_reducible apply modP_does
    | with_reducible apply releasePort_does | exact subParts_of (by decide) hp | with_reducible apply does_fold
    | simp only [does_mk] | with_reducible refine moves_intro ?_ rfl ?_
    | ((with_reducible refine only_intro ?_); intro p hc; cases p <;> first
        | exact (clash hp (by decide) hc).elim | dsimp only [Same])
    | intro _ | split | with_reducible apply does_ite | with_reducible apply does_fst (by assumption) | dsimp only

theorem busMaster_does {pz : List Part} {s₀ : State} {f : Nat} {on : Bool} {s : State} (h_s : Does pz s₀ s) (hp :
    subParts [.free, .out, .mem, .facets, .arb, .qps, .mirror, .groups, .grp, .prism, .fab, .xlt, .memc, .pcx, .mov,
    .cip, .eth, .pwr] pz = true) : Does pz s₀ (busMaster f on s) := by
  unfold busMaster
  try dsimp only
  repeat' first
    | with_reducible assumption | with_reducible apply modF_does | with_reducible apply releaseFacet_does
    | exact subParts_of (by decide) hp | with_reducible apply does_fold | simp only [does_mk]
    | with_reducible refine moves_intro ?_ rfl ?_
    | ((with_reducible refine only_intro ?_); intro p hc; cases p <;> first
        | exact (clash hp (by decide) hc).elim | dsimp only [Same])
    | intro _ | split | with_reducible apply does_ite | with_reducible apply does_fst (by assumption) | dsimp only

theorem forgetHost_does {pz : List Part} {s₀ : State} {s : State} (h_s : Does pz s₀ s) (hp : subParts [.facets, .pcx]
    pz = true) : Does pz s₀ (forgetHost s) := by
  unfold forgetHost
  try dsimp only
  repeat' first
    | with_reducible assumption | exact subParts_of (by decide) hp | with_reducible apply does_fold
    | simp only [does_mk] | with_reducible refine moves_intro ?_ rfl ?_
    | ((with_reducible refine only_intro ?_); intro p hc; cases p <;> first
        | exact (clash hp (by decide) hc).elim | dsimp only [Same])
    | intro _ | split | with_reducible apply does_ite | with_reducible apply does_fst (by assumption) | dsimp only

theorem resetBars_does {pz : List Part} {s₀ : State} {s : State} (h_s : Does pz s₀ s) (hp : subParts [.pcx] pz = true)
    : Does pz s₀ (resetBars s) := by
  unfold resetBars
  try dsimp only
  repeat' first
    | with_reducible assumption | exact subParts_of (by decide) hp | with_reducible apply does_fold
    | simp only [does_mk] | with_reducible refine moves_intro ?_ rfl ?_
    | ((with_reducible refine only_intro ?_); intro p hc; cases p <;> first
        | exact (clash hp (by decide) hc).elim | dsimp only [Same])
    | intro _ | split | with_reducible apply does_ite | with_reducible apply does_fst (by assumption) | dsimp only

theorem upstreamReset_does {pz : List Part} {s₀ : State} {s : State} (h_s : Does pz s₀ s) (hp : subParts [.free, .out,
    .mem, .facets, .arb, .qps, .zrt, .mirror, .groups, .grp, .prism, .fab, .xlt, .memc, .pcx, .mov, .cip, .eth, .pwr]
    pz = true) : Does pz s₀ (upstreamReset s) := by
  unfold upstreamReset
  try dsimp only
  repeat' first
    | with_reducible assumption | with_reducible apply forgetHost_does | with_reducible apply portDown_does
    | with_reducible apply resetBars_does | with_reducible apply retryStuck_does | exact subParts_of (by decide) hp
    | with_reducible apply does_fold | simp only [does_mk] | with_reducible refine moves_intro ?_ rfl ?_
    | ((with_reducible refine only_intro ?_); intro p hc; cases p <;> first
        | exact (clash hp (by decide) hc).elim | dsimp only [Same])
    | intro _ | split | with_reducible apply does_ite | with_reducible apply does_fst (by assumption) | dsimp only

theorem bridgeSet_does {pz : List Part} {s₀ : State} {b : Nat} {g : Bridge → Bridge} {s : State} (h_s : Does pz s₀ s)
    (hp : subParts [.pcx] pz = true) : Does pz s₀ (bridgeSet b g s) := by
  unfold bridgeSet
  try dsimp only
  repeat' first
    | with_reducible assumption | exact subParts_of (by decide) hp | with_reducible apply does_fold
    | simp only [does_mk] | with_reducible refine moves_intro ?_ rfl ?_
    | ((with_reducible refine only_intro ?_); intro p hc; cases p <;> first
        | exact (clash hp (by decide) hc).elim | dsimp only [Same])
    | intro _ | split | with_reducible apply does_ite | with_reducible apply does_fst (by assumption) | dsimp only

theorem bridgeReset_does {pz : List Part} {s₀ : State} {b : Nat} {on : Bool} {s : State} (h_s : Does pz s₀ s) (hp :
    subParts [.free, .out, .mem, .facets, .arb, .qps, .zrt, .mirror, .groups, .grp, .prism, .fab, .xlt, .memc, .pcx,
    .mov, .cip, .eth, .pwr] pz = true) : Does pz s₀ (bridgeReset b on s) := by
  unfold bridgeReset
  try dsimp only
  repeat' first
    | with_reducible assumption | with_reducible apply emit_does | with_reducible apply portDown_does
    | exact subParts_of (by decide) hp | with_reducible apply does_fold | simp only [does_mk]
    | with_reducible refine moves_intro ?_ rfl ?_
    | ((with_reducible refine only_intro ?_); intro p hc; cases p <;> first
        | exact (clash hp (by decide) hc).elim | dsimp only [Same])
    | intro _ | split | with_reducible apply does_ite | with_reducible apply does_fst (by assumption) | dsimp only

theorem bridgeWrite_does {pz : List Part} {s₀ : State} {b : Nat} {r : ConfigReg} {lo : U64} {hi : U64} {s : State} (h_s :
    Does pz s₀ s) (hp : subParts [.free, .out, .mem, .facets, .arb, .qps, .zrt, .mirror, .groups, .grp, .prism, .fab, .xlt, .memc, .pcx,
    .mov, .cip, .eth, .pwr] pz = true) :
    Does pz s₀ (bridgeWrite b r lo hi s) := by
  unfold bridgeWrite
  try dsimp only
  repeat' first
    | with_reducible assumption | with_reducible apply bridgeReset_does | with_reducible apply bridgeSet_does
    | exact subParts_of (by decide) hp | with_reducible apply does_fold
    | simp only [does_mk] | with_reducible refine moves_intro ?_ rfl ?_
    | ((with_reducible refine only_intro ?_); intro p hc; cases p <;> first
        | exact (clash hp (by decide) hc).elim | dsimp only [Same])
    | intro _ | split | with_reducible apply does_ite | with_reducible apply does_fst (by assumption) | dsimp only

theorem configWrite_does {pz : List Part} {s₀ : State} {p : ConfigPlace} {r : ConfigReg} {lo : U64} {hi : U64} {s : State}
    (h_s : Does pz s₀ s) (hp : subParts [.free, .out, .mem, .facets, .arb, .qps, .zrt, .mirror, .groups, .grp, .prism, .fab, .xlt, .memc, .pcx,
    .mov, .cip, .eth, .pwr] pz =
    true) : Does pz s₀ (configWrite p r lo hi s) := by
  unfold configWrite
  try dsimp only
  repeat' first
    | with_reducible assumption | with_reducible apply bridgeWrite_does
    | with_reducible apply does_when | exact subParts_of (by decide) hp | with_reducible apply does_fold
    | simp only [does_mk] | with_reducible refine moves_intro ?_ rfl ?_
    | ((with_reducible refine only_intro ?_); intro p hc; cases p <;> first
        | exact (clash hp (by decide) hc).elim | dsimp only [Same])
    | intro _ | split | with_reducible apply does_ite | with_reducible apply does_fst (by assumption) | dsimp only

theorem peerRequest_does {pz : List Part} {s₀ : State} {port : Nat} {halfB : Bool} {reqBus : Nat} {translated : Bool}
    {a : U64} {bus : Option Nat} {isWrite : Bool} {bytes : Bytes} {s : State} (h_s : Does pz s₀ s) (hp : subParts
    [.out, .pcx] pz = true) : Does pz s₀ (peerRequest port halfB reqBus translated a bus isWrite bytes s) := by
  unfold peerRequest
  try dsimp only
  repeat' first
    | with_reducible assumption | with_reducible apply emit_does | with_reducible apply sendTlp_does
    | exact subParts_of (by decide) hp | with_reducible apply does_fold | simp only [does_mk]
    | with_reducible refine moves_intro ?_ rfl ?_
    | ((with_reducible refine only_intro ?_); intro p hc; cases p <;> first
        | exact (clash hp (by decide) hc).elim | dsimp only [Same])
    | intro _ | split | with_reducible apply does_ite | with_reducible apply does_fst (by assumption) | dsimp only

theorem countReadError_does {pz : List Part} {s₀ : State} {port : Nat} {a : U64} {facet : Option Nat} {forced : Bool}
    {s : State} (h_s : Does pz s₀ s) (hp : subParts [.pcx, .agl, .err] pz = true) : Does pz s₀ (countReadError port a
    facet forced s) := by
  unfold countReadError
  try dsimp only
  repeat' first
    | with_reducible assumption | with_reducible apply collect_does | with_reducible apply modP_does
    | exact subParts_of (by decide) hp | with_reducible apply does_fold | simp only [does_mk]
    | with_reducible refine moves_intro ?_ rfl ?_
    | ((with_reducible refine only_intro ?_); intro p hc; cases p <;> first
        | exact (clash hp (by decide) hc).elim | dsimp only [Same])
    | intro _ | split | with_reducible apply does_ite | with_reducible apply does_fst (by assumption) | dsimp only

theorem flushFailed_does {pz : List Part} {s₀ : State} {port : Nat} {halfB : Bool} {kind : Nat} {a : U64} {s : State}
    (h_s : Does pz s₀ s) (hp : subParts [.free, .out, .mem, .facets, .arb, .qps, .zrt, .mirror, .groups, .grp, .prism,
    .fab, .xlt, .memc, .pcx, .mov, .cip, .eth, .agl, .err, .pwr] pz = true) : Does pz s₀ (flushFailed port halfB kind
    a s) := by
  unfold flushFailed
  try dsimp only
  repeat' first
    | with_reducible assumption | with_reducible apply busError_does | with_reducible apply modP_does
    | with_reducible apply portDown_does | exact subParts_of (by decide) hp | with_reducible apply does_fold
    | simp only [does_mk] | with_reducible refine moves_intro ?_ rfl ?_
    | ((with_reducible refine only_intro ?_); intro p hc; cases p <;> first
        | exact (clash hp (by decide) hc).elim | dsimp only [Same])
    | intro _ | split | with_reducible apply does_ite | with_reducible apply does_fst (by assumption) | dsimp only

theorem descReadFailed_does {pz : List Part} {s₀ : State} {f : Nat} {q : Nat} {port : Nat} {s : State} (h_s : Does pz
    s₀ s) (hp : subParts [.free, .out, .mem, .facets, .arb, .mirror, .groups, .grp, .prism, .fab, .xlt, .memc, .pcx,
    .eth, .pwr] pz = true) : Does pz s₀ (descReadFailed f q port s) := by
  unfold descReadFailed
  try dsimp only
  repeat' first
    | with_reducible assumption | with_reducible apply auxFailed_does | with_reducible apply descFails_does
    | exact subParts_of (by decide) hp | with_reducible apply does_fold | simp only [does_mk]
    | with_reducible refine moves_intro ?_ rfl ?_
    | ((with_reducible refine only_intro ?_); intro p hc; cases p <;> first
        | exact (clash hp (by decide) hc).elim | dsimp only [Same])
    | intro _ | split | with_reducible apply does_ite | with_reducible apply does_fst (by assumption) | dsimp only

theorem readFailed_does {pz : List Part} {s₀ : State} {port : Nat} {halfB : Bool} {kind : Nat} {a : U64} {what :
    ReadKind} {s : State} (h_s : Does pz s₀ s) (hp : subParts [.free, .out, .mem, .facets, .arb, .qps, .zrt, .mirror,
    .groups, .grp, .prism, .fab, .xlt, .memc, .pcx, .mov, .cip, .eth, .agl, .err, .pwr] pz = true) : Does pz s₀
    (readFailed port halfB kind a what s) := by
  unfold readFailed
  try dsimp only
  repeat' first
    | with_reducible assumption | with_reducible apply accessFail_does | with_reducible apply busError_does
    | with_reducible apply cmpPortError_does | with_reducible apply collReadError_does
    | with_reducible apply descReadFailed_does | with_reducible apply enterError_does
    | with_reducible apply failQp_does | with_reducible apply flushFailed_does
    | with_reducible apply sendReadError_does | with_reducible apply settle_does | exact subParts_of (by decide) hp
    | with_reducible apply does_fold | simp only [does_mk] | with_reducible refine moves_intro ?_ rfl ?_
    | ((with_reducible refine only_intro ?_); intro p hc; cases p <;> first
        | exact (clash hp (by decide) hc).elim | dsimp only [Same])
    | intro _ | split | with_reducible apply does_ite | with_reducible apply does_fst (by assumption) | dsimp only

theorem dropReads_does {pz : List Part} {s₀ : State} {key : Nat} {what : ReadKind} {s : State} (h_s : Does pz s₀ s)
    (hp : subParts [.pcx] pz = true) : Does pz s₀ (dropReads key what s) := by
  unfold dropReads
  try dsimp only
  repeat' first
    | with_reducible assumption | exact subParts_of (by decide) hp | with_reducible apply does_fold
    | simp only [does_mk] | with_reducible refine moves_intro ?_ rfl ?_
    | ((with_reducible refine only_intro ?_); intro p hc; cases p <;> first
        | exact (clash hp (by decide) hc).elim | dsimp only [Same])
    | intro _ | split | with_reducible apply does_ite | with_reducible apply does_fst (by assumption) | dsimp only

theorem writePend_does {pz : List Part} {s₀ : State} {f : Nat} {v : U32} {s : State} (h_s : Does pz s₀ s) (hp :
    subParts [.facets, .mov] pz = true) : Does pz s₀ (writePend f v s) := by
  unfold writePend
  try dsimp only
  repeat' first
    | with_reducible assumption | with_reducible apply modSrc_does | exact subParts_of (by decide) hp
    | with_reducible apply does_fold | simp only [does_mk] | with_reducible refine moves_intro ?_ rfl ?_
    | ((with_reducible refine only_intro ?_); intro p hc; cases p <;> first
        | exact (clash hp (by decide) hc).elim | dsimp only [Same])
    | intro _ | split | with_reducible apply does_ite | with_reducible apply does_fst (by assumption) | dsimp only

theorem destroyQueue_does {pz : List Part} {s₀ : State} {f : Nat} {rq : Bool} {q : Nat} {s : State} (h_s : Does pz s₀
    s) (hp : subParts [.mem, .facets, .mirror, .memc, .pcx, .mov] pz = true) : Does pz s₀ (destroyQueue f rq q s) :=
    by
  unfold destroyQueue
  try dsimp only
  repeat' first
    | with_reducible assumption | with_reducible apply cancelMoves_does | with_reducible apply drainQueue_does
    | with_reducible apply modQ_does | with_reducible apply settle_does | exact subParts_of (by decide) hp
    | with_reducible apply does_fold | simp only [does_mk] | with_reducible refine moves_intro ?_ rfl ?_
    | ((with_reducible refine only_intro ?_); intro p hc; cases p <;> first
        | exact (clash hp (by decide) hc).elim | dsimp only [Same])
    | intro _ | split | with_reducible apply does_ite | with_reducible apply does_fst (by assumption) | dsimp only

end Sys2Proof.Machine
end

