-- ==== Sys2Proof/Laws/FacetsFrame.lean ====
section
/-!
SUPPORT. What each operation of Machine/Facets.lean may change: one lemma per operation.
-/
set_option linter.unusedTactic false
set_option linter.unreachableTactic false
set_option linter.unusedSimpArgs false
set_option linter.unusedVariables false

namespace Sys2Proof.Machine

theorem setCap_does {pz : List Part} {s₀ : State} {f : Nat} {cap : Nat} {s : State} (h_s : Does pz s₀ s) (hp :
    subParts [.out, .facets, .arb, .fab, .eth, .pwr] pz = true) : Does pz s₀ (setCap f cap s) := by
  unfold setCap
  try dsimp only
  repeat' first
    | with_reducible assumption | with_reducible apply modF_does | with_reducible apply takeTurns_does
    | exact subParts_of (by decide) hp | with_reducible apply does_fold | simp only [does_mk]
    | with_reducible refine moves_intro ?_ rfl ?_
    | ((with_reducible refine only_intro ?_); intro p hc; cases p <;> first
        | exact (clash hp (by decide) hc).elim | dsimp only [Same])
    | intro _ | split | with_reducible apply does_ite | with_reducible apply does_fst (by assumption) | dsimp only

theorem applyRecord_does {pz : List Part} {s₀ : State} {f : Nat} {r : List U64} {s : State} (h_s : Does pz s₀ s) (hp :
    subParts [.out, .facets, .arb, .fab, .eth, .pwr] pz = true) : Does pz s₀ (applyRecord f r s) := by
  unfold applyRecord
  try dsimp only
  repeat' first
    | with_reducible assumption | with_reducible apply modF_does | with_reducible apply setCap_does
    | exact subParts_of (by decide) hp | with_reducible apply does_fold | simp only [does_mk]
    | with_reducible refine moves_intro ?_ rfl ?_
    | ((with_reducible refine only_intro ?_); intro p hc; cases p <;> first
        | exact (clash hp (by decide) hc).elim | dsimp only [Same])
    | intro _ | split | with_reducible apply does_ite | with_reducible apply does_fst (by assumption) | dsimp only

theorem facetResize_does {pz : List Part} {s₀ : State} {q : Nat} {record : List U64} {i : Item} {s : State} (h_s :
    Does pz s₀ s) (hp : subParts [.out, .mem, .facets, .arb, .mirror, .fab, .memc, .pcx, .eth, .pwr] pz = true) : Does
    pz s₀ (facetResize q record i s) := by
  unfold facetResize
  try dsimp only
  repeat' first
    | with_reducible assumption | with_reducible apply applyRecord_does | with_reducible apply completeItem_does
    | exact subParts_of (by decide) hp | with_reducible apply does_fold | simp only [does_mk]
    | with_reducible refine moves_intro ?_ rfl ?_
    | ((with_reducible refine only_intro ?_); intro p hc; cases p <;> first
        | exact (clash hp (by decide) hc).elim | dsimp only [Same])
    | intro _ | split | with_reducible apply does_ite | with_reducible apply does_fst (by assumption) | dsimp only

theorem resetBegin_does {pz : List Part} {s₀ : State} {f : Nat} {offAfter : Bool} {s : State} (h_s : Does pz s₀ s) (hp
    : subParts [.mem, .facets, .mirror, .memc, .pcx, .mov] pz = true) : Does pz s₀ (resetBegin f offAfter s) := by
  unfold resetBegin
  try dsimp only
  repeat' first
    | with_reducible assumption | with_reducible apply cancelMoves_does | with_reducible apply drainQueue_does
    | with_reducible apply modF_does | with_reducible apply modQ_does | with_reducible apply settle_does
    | exact subParts_of (by decide) hp | with_reducible apply does_fold | simp only [does_mk]
    | with_reducible refine moves_intro ?_ rfl ?_
    | ((with_reducible refine only_intro ?_); intro p hc; cases p <;> first
        | exact (clash hp (by decide) hc).elim | dsimp only [Same])
    | intro _ | split | with_reducible apply does_ite | with_reducible apply does_fst (by assumption) | dsimp only

theorem resetQps_does {pz : List Part} {s₀ : State} {f : Nat} {s : State} (h_s : Does pz s₀ s) (hp : subParts [.mem,
    .facets, .qps, .zrt, .mirror, .xlt, .memc, .pcx] pz = true) : Does pz s₀ (resetQps f s) := by
  unfold resetQps
  try dsimp only
  repeat' first
    | with_reducible assumption | with_reducible apply drainQp_does | with_reducible apply tryFreeQp_does
    | exact subParts_of (by decide) hp | with_reducible apply does_fold | simp only [does_mk]
    | with_reducible refine moves_intro ?_ rfl ?_
    | ((with_reducible refine only_intro ?_); intro p hc; cases p <;> first
        | exact (clash hp (by decide) hc).elim | dsimp only [Same])
    | intro _ | split | with_reducible apply does_ite | with_reducible apply does_fst (by assumption) | dsimp only

theorem resetRq_does {pz : List Part} {s₀ : State} {f : Nat} {s : State} {q : Nat} (h_s : Does pz s₀ s) (hp : subParts
    [.mem, .facets, .mirror, .memc, .pcx] pz = true) : Does pz s₀ (resetRq f s q) := by
  unfold resetRq
  try dsimp only
  repeat' first
    | with_reducible assumption | with_reducible apply completeRecv_does | with_reducible apply drainQueue_does
    | exact subParts_of (by decide) hp | with_reducible apply does_fold | simp only [does_mk]
    | with_reducible refine moves_intro ?_ rfl ?_
    | ((with_reducible refine only_intro ?_); intro p hc; cases p <;> first
        | exact (clash hp (by decide) hc).elim | dsimp only [Same])
    | intro _ | split | with_reducible apply does_ite | with_reducible apply does_fst (by assumption) | dsimp only

theorem resetRqs_does {pz : List Part} {s₀ : State} {f : Nat} {s : State} (h_s : Does pz s₀ s) (hp : subParts [.mem,
    .facets, .mirror, .memc, .pcx, .eth] pz = true) : Does pz s₀ (resetRqs f s) := by
  unfold resetRqs
  try dsimp only
  repeat' first
    | with_reducible assumption | with_reducible apply resetRq_does | with_reducible apply settle_does
    | exact subParts_of (by decide) hp | with_reducible apply does_fold | simp only [does_mk]
    | with_reducible refine moves_intro ?_ rfl ?_
    | ((with_reducible refine only_intro ?_); intro p hc; cases p <;> first
        | exact (clash hp (by decide) hc).elim | dsimp only [Same])
    | intro _ | split | with_reducible apply does_ite | with_reducible apply does_fst (by assumption) | dsimp only

theorem resetPage_does {pz : List Part} {s₀ : State} {f : Nat} {s : State} (h_s : Does pz s₀ s) (hp : subParts
    [.facets, .xlt] pz = true) : Does pz s₀ (resetPage f s) := by
  unfold resetPage
  try dsimp only
  repeat' first
    | with_reducible assumption | with_reducible apply dropRec_does | with_reducible apply modF_does
    | exact subParts_of (by decide) hp | with_reducible apply does_fold | simp only [does_mk]
    | with_reducible refine moves_intro ?_ rfl ?_
    | ((with_reducible refine only_intro ?_); intro p hc; cases p <;> first
        | exact (clash hp (by decide) hc).elim | dsimp only [Same])
    | intro _ | split | with_reducible apply does_ite | with_reducible apply does_fst (by assumption) | dsimp only

theorem turnOff_does {pz : List Part} {s₀ : State} {f : Nat} {s : State} (h_s : Does pz s₀ s) (hp : subParts [.facets]
    pz = true) : Does pz s₀ (turnOff f s) := by
  unfold turnOff
  try dsimp only
  repeat' first
    | with_reducible assumption | with_reducible apply modF_does | exact subParts_of (by decide) hp
    | with_reducible apply does_fold | simp only [does_mk] | with_reducible refine moves_intro ?_ rfl ?_
    | ((with_reducible refine only_intro ?_); intro p hc; cases p <;> first
        | exact (clash hp (by decide) hc).elim | dsimp only [Same])
    | intro _ | split | with_reducible apply does_ite | with_reducible apply does_fst (by assumption) | dsimp only

theorem resetEnd_does {pz : List Part} {s₀ : State} {f : Nat} {s : State} (h_s : Does pz s₀ s) (hp : subParts [.mem,
    .facets, .mirror, .memc, .pcx] pz = true) : Does pz s₀ (resetEnd f s) := by
  unfold resetEnd
  try dsimp only
  repeat' first
    | with_reducible assumption | with_reducible apply completeItem_does | with_reducible apply modF_does
    | with_reducible apply settle_does | with_reducible apply turnOff_does | exact subParts_of (by decide) hp
    | with_reducible apply does_fold | simp only [does_mk] | with_reducible refine moves_intro ?_ rfl ?_
    | ((with_reducible refine only_intro ?_); intro p hc; cases p <;> first
        | exact (clash hp (by decide) hc).elim | dsimp only [Same])
    | intro _ | split | with_reducible apply does_ite | with_reducible apply does_fst (by assumption) | dsimp only

theorem resetNext_does {pz : List Part} {s₀ : State} {f : Nat} {s : State} (h_s : Does pz s₀ s) (hp : subParts [.mem,
    .facets, .qps, .zrt, .mirror, .xlt, .memc, .pcx, .eth] pz = true) : Does pz s₀ (resetNext f s) := by
  unfold resetNext
  try dsimp only
  repeat' first
    | with_reducible assumption | with_reducible apply modF_does | with_reducible apply resetEnd_does
    | with_reducible apply resetPage_does | with_reducible apply resetQps_does | with_reducible apply resetRqs_does
    | exact subParts_of (by decide) hp | with_reducible apply does_fold | simp only [does_mk]
    | with_reducible refine moves_intro ?_ rfl ?_
    | ((with_reducible refine only_intro ?_); intro p hc; cases p <;> first
        | exact (clash hp (by decide) hc).elim | dsimp only [Same])
    | intro _ | split | with_reducible apply does_ite | with_reducible apply does_fst (by assumption) | dsimp only

theorem resetRun_does {pz : List Part} {s₀ : State} {x0 : Nat} {x1 : Nat} {x2 : State} (h_x2 : Does pz s₀ x2) (hp :
    subParts [.mem, .facets, .qps, .zrt, .mirror, .xlt, .memc, .pcx, .eth] pz = true) : Does pz s₀ (resetRun x0 x1 x2)
    := by
  induction x0 generalizing x1 x2 with
  | zero =>
    unfold resetRun
    try dsimp only
    repeat' first
      | with_reducible assumption | with_reducible apply resetNext_does | with_reducible apply resetQps_does
      | exact subParts_of (by decide) hp | with_reducible apply does_fold | simp only [does_mk]
      | with_reducible refine moves_intro ?_ rfl ?_
      | ((with_reducible refine only_intro ?_); intro p hc; cases p <;> first
          | exact (clash hp (by decide) hc).elim | dsimp only [Same])
      | intro _ | split | with_reducible apply does_ite | with_reducible apply does_fst (by assumption) | dsimp only
  | succ k ih =>
    unfold resetRun
    try dsimp only
    repeat' first
      | with_reducible assumption | with_reducible apply ih | with_reducible apply resetNext_does
      | with_reducible apply resetQps_does | exact subParts_of (by decide) hp | with_reducible apply does_fold
      | simp only [does_mk] | with_reducible refine moves_intro ?_ rfl ?_
      | ((with_reducible refine only_intro ?_); intro p hc; cases p <;> first
          | exact (clash hp (by decide) hc).elim | dsimp only [Same])
      | intro _ | split | with_reducible apply does_ite | with_reducible apply does_fst (by assumption) | dsimp only

theorem facetReset_does {pz : List Part} {s₀ : State} {f : Nat} {off : Bool} {s : State} (h_s : Does pz s₀ s) (hp :
    subParts [.mem, .facets, .mirror, .memc, .pcx, .mov] pz = true) : Does pz s₀ (facetReset f off s) := by
  unfold facetReset
  try dsimp only
  repeat' first
    | with_reducible assumption | with_reducible apply modF_does | with_reducible apply resetBegin_does
    | exact subParts_of (by decide) hp | with_reducible apply does_fold | simp only [does_mk]
    | with_reducible refine moves_intro ?_ rfl ?_
    | ((with_reducible refine only_intro ?_); intro p hc; cases p <;> first
        | exact (clash hp (by decide) hc).elim | dsimp only [Same])
    | intro _ | split | with_reducible apply does_ite | with_reducible apply does_fst (by assumption) | dsimp only

end Sys2Proof.Machine
end

