-- ==== Sys2Proof/Laws/RestoreFrame.lean ====
section
/-!
SUPPORT. What each operation of Machine/Restore.lean may change: one lemma per operation.
-/
set_option linter.unusedTactic false
set_option linter.unreachableTactic false
set_option linter.unusedSimpArgs false
set_option linter.unusedVariables false

namespace Sys2Proof.Machine

theorem settleSends_does {pz : List Part} {s₀ : State} {n : Nat} {s : State} (h_s : Does pz s₀ s) (hp : subParts
    [.mirror] pz = true) : Does pz s₀ (settleSends n s) := by
  unfold settleSends
  try dsimp only
  repeat' first
    | with_reducible assumption | with_reducible apply modMir_does | exact subParts_of (by decide) hp
    | with_reducible apply does_fold | simp only [does_mk] | with_reducible refine moves_intro ?_ rfl ?_
    | ((with_reducible refine only_intro ?_); intro p hc; cases p <;> first
        | exact (clash hp (by decide) hc).elim | dsimp only [Same])
    | intro _ | split | with_reducible apply does_ite | with_reducible apply does_fst (by assumption) | dsimp only

theorem restartLost_does {pz : List Part} {s₀ : State} {n : Nat} {s : State} (h_s : Does pz s₀ s) (hp : subParts
    [.facets] pz = true) : Does pz s₀ (restartLost n s) := by
  unfold restartLost
  try dsimp only
  repeat' first
    | with_reducible assumption | with_reducible apply modItem_does | exact subParts_of (by decide) hp
    | with_reducible apply does_fold | simp only [does_mk] | with_reducible refine moves_intro ?_ rfl ?_
    | ((with_reducible refine only_intro ?_); intro p hc; cases p <;> first
        | exact (clash hp (by decide) hc).elim | dsimp only [Same])
    | intro _ | split | with_reducible apply does_ite | with_reducible apply does_fst (by assumption) | dsimp only

theorem restoreQp_does {pz : List Part} {s₀ : State} {warm : Bool} {n : Nat} {s : State} (h_s : Does pz s₀ s) (hp :
    subParts [.out, .mem, .facets, .qps, .zrt, .mirror, .fab, .xlt, .memc, .pcx, .eth, .pwr] pz = true) : Does pz s₀
    (restoreQp warm n s) := by
  unfold restoreQp
  try dsimp only
  repeat' first
    | with_reducible assumption | with_reducible apply dropWaits_does | with_reducible apply modQp_does
    | with_reducible apply restartLost_does | with_reducible apply sendConnect_does
    | with_reducible apply settleSends_does | with_reducible apply tryFreeQp_does | exact subParts_of (by decide) hp
    | with_reducible apply does_fold | simp only [does_mk] | with_reducible refine moves_intro ?_ rfl ?_
    | ((with_reducible refine only_intro ?_); intro p hc; cases p <;> first
        | exact (clash hp (by decide) hc).elim | dsimp only [Same])
    | intro _ | split | with_reducible apply does_ite | with_reducible apply does_fst (by assumption) | dsimp only

theorem askRollback_does {pz : List Part} {s₀ : State} {gid : Nat} {s : State} (h_s : Does pz s₀ s) (hp : subParts
    [.free, .out, .mem, .facets, .arb, .mirror, .groups, .grp, .prism, .fab, .xlt, .memc, .pcx, .eth, .pwr] pz = true)
    : Does pz s₀ (askRollback gid s) := by
  unfold askRollback
  try dsimp only
  repeat' first
    | with_reducible assumption | with_reducible apply rollAll_does | with_reducible apply toAdapters_does
    | exact subParts_of (by decide) hp | with_reducible apply does_fold | simp only [does_mk]
    | with_reducible refine moves_intro ?_ rfl ?_
    | ((with_reducible refine only_intro ?_); intro p hc; cases p <;> first
        | exact (clash hp (by decide) hc).elim | dsimp only [Same])
    | intro _ | split | with_reducible apply does_ite | with_reducible apply does_fst (by assumption) | dsimp only

end Sys2Proof.Machine
end

