-- ==== Sys2Proof/Laws/InjectFrame.lean ====
section
/-!
SUPPORT. What each operation of Machine/Inject.lean may change: one lemma per operation.
-/
set_option linter.unusedTactic false
set_option linter.unreachableTactic false
set_option linter.unusedSimpArgs false
set_option linter.unusedVariables false

namespace Sys2Proof.Machine

theorem copyRows_does {pz : List Part} {s₀ : State} {s : State} (h_s : Does pz s₀ s) (hp : subParts [.memc] pz = true)
    : Does pz s₀ (copyRows s) := by
  unfold copyRows
  try dsimp only
  repeat' first
    | with_reducible assumption | exact subParts_of (by decide) hp | with_reducible apply does_fold
    | simp only [does_mk] | with_reducible refine moves_intro ?_ rfl ?_
    | ((with_reducible refine only_intro ?_); intro p hc; cases p <;> first
        | exact (clash hp (by decide) hc).elim | dsimp only [Same])
    | intro _ | split | with_reducible apply does_ite | with_reducible apply does_fst (by assumption) | dsimp only

theorem fenceChannel_does {pz : List Part} {s₀ : State} {ch : Nat} {fault : Bool} {forced : Bool} {s : State} (h_s :
    Does pz s₀ s) (hp : subParts [.out, .memc, .agl, .err] pz = true) : Does pz s₀ (fenceChannel ch fault forced s) :=
    by
  unfold fenceChannel
  try dsimp only
  repeat' first
    | with_reducible assumption | with_reducible apply collect_does | with_reducible apply fatal_does
    | with_reducible apply faultNow_does | with_reducible apply noteFence_does | exact subParts_of (by decide) hp
    | with_reducible apply does_fold | simp only [does_mk] | with_reducible refine moves_intro ?_ rfl ?_
    | ((with_reducible refine only_intro ?_); intro p hc; cases p <;> first
        | exact (clash hp (by decide) hc).elim | dsimp only [Same])
    | intro _ | split | with_reducible apply does_ite | with_reducible apply does_fst (by assumption) | dsimp only

theorem countChannel_does {pz : List Part} {s₀ : State} {ch : Nat} {s : State} (h_s : Does pz s₀ s) (hp : subParts
    [.out, .memc, .agl, .err] pz = true) : Does pz s₀ (countChannel ch s) := by
  unfold countChannel
  try dsimp only
  repeat' first
    | with_reducible assumption | with_reducible apply countWindow_does | with_reducible apply fenceChannel_does
    | exact subParts_of (by decide) hp | with_reducible apply does_fold | simp only [does_mk]
    | with_reducible refine moves_intro ?_ rfl ?_
    | ((with_reducible refine only_intro ?_); intro p hc; cases p <;> first
        | exact (clash hp (by decide) hc).elim | dsimp only [Same])
    | intro _ | split | with_reducible apply does_ite | with_reducible apply does_fst (by assumption) | dsimp only

theorem dropInjection_does {pz : List Part} {s₀ : State} {src : Nat} {unit : Nat} {s : State} (h_s : Does pz s₀ s) (hp
    : subParts [.err] pz = true) : Does pz s₀ (dropInjection src unit s) := by
  unfold dropInjection
  try dsimp only
  repeat' first
    | with_reducible assumption | exact subParts_of (by decide) hp | with_reducible apply does_fold
    | simp only [does_mk] | with_reducible refine moves_intro ?_ rfl ?_
    | ((with_reducible refine only_intro ?_); intro p hc; cases p <;> first
        | exact (clash hp (by decide) hc).elim | dsimp only [Same])
    | intro _ | split | with_reducible apply does_ite | with_reducible apply does_fst (by assumption) | dsimp only

theorem failRead_does {pz : List Part} {s₀ : State} {k : ReadKind} {h : Hurt} {s : State} (h_s : Does pz s₀ s) (hp :
    subParts [.free, .out, .mem, .facets, .arb, .qps, .zrt, .mirror, .groups, .grp, .prism, .fab, .xlt, .memc, .pcx,
    .mov, .cip, .eth, .agl, .err, .pwr] pz = true) : Does pz s₀ (failRead k h s) := by
  unfold failRead
  try dsimp only
  repeat' first
    | with_reducible assumption | with_reducible apply busError_does | with_reducible apply collect_does
    | with_reducible apply countChannel_does | with_reducible apply countReadError_does
    | with_reducible apply dropInjection_does | with_reducible apply readFailed_does
    | exact subParts_of (by decide) hp | with_reducible apply does_fold | simp only [does_mk]
    | with_reducible refine moves_intro ?_ rfl ?_
    | ((with_reducible refine only_intro ?_); intro p hc; cases p <;> first
        | exact (clash hp (by decide) hc).elim | dsimp only [Same])
    | intro _ | split | with_reducible apply does_ite | with_reducible apply does_fst (by assumption) | dsimp only

theorem readBack_does {pz : List Part} {s₀ : State} {k : ReadKind} {l : List (Nat × U64 × Nat)} {go : State → State}
    {s : State} (h_go : ∀ s, Does pz s₀ s → Does pz s₀ (go s)) (h_s : Does pz s₀ s) (hp : subParts [.free, .out, .mem,
    .facets, .arb, .qps, .zrt, .mirror, .groups, .grp, .prism, .fab, .xlt, .memc, .pcx, .mov, .cip, .eth, .agl, .err,
    .pwr] pz = true) : Does pz s₀ (readBack k l go s) := by
  unfold readBack
  try dsimp only
  repeat' first
    | with_reducible assumption | with_reducible apply failRead_does | with_reducible apply h_go
    | exact subParts_of (by decide) hp | with_reducible apply does_fold | simp only [does_mk]
    | with_reducible refine moves_intro ?_ rfl ?_
    | ((with_reducible refine only_intro ?_); intro p hc; cases p <;> first
        | exact (clash hp (by decide) hc).elim | dsimp only [Same])
    | intro _ | split | with_reducible apply does_ite | with_reducible apply does_fst (by assumption) | dsimp only

theorem coreDone_does {pz : List Part} {s₀ : State} {core : Nat} {bytes : Bytes} {s : State} (h_s : Does pz s₀ s) (hp
    : subParts [.free, .out, .mem, .facets, .arb, .qps, .zrt, .mirror, .groups, .grp, .prism, .fab, .xlt, .memc, .pcx,
    .mov, .cip, .eth, .agl, .err, .pwr] pz = true) : Does pz s₀ (coreDone core bytes s) := by
  unfold coreDone
  try dsimp only
  repeat' first
    | with_reducible assumption | with_reducible apply collect_does | with_reducible apply coreMismatch_does
    | with_reducible apply dropInjection_does | with_reducible apply jobDone_does | with_reducible apply readBack_does
    | with_reducible apply readsEnd_does | exact subParts_of (by decide) hp | with_reducible apply does_fold
    | simp only [does_mk] | with_reducible refine moves_intro ?_ rfl ?_
    | ((with_reducible refine only_intro ?_); intro p hc; cases p <;> first
        | exact (clash hp (by decide) hc).elim | dsimp only [Same])
    | intro _ | split | with_reducible apply does_ite | with_reducible apply does_fst (by assumption) | dsimp only

theorem failDesc_does {pz : List Part} {s₀ : State} {f : Nat} {react : Nat → State → State} {h : Hurt} {s : State}
    (h_react : ∀ a0 s, Does pz s₀ s → Does pz s₀ (react a0 s)) (h_s : Does pz s₀ s) (hp : subParts [.out, .memc, .pcx,
    .agl, .err] pz = true) : Does pz s₀ (failDesc f react h s) := by
  unfold failDesc
  try dsimp only
  repeat' first
    | with_reducible assumption | with_reducible apply collect_does | with_reducible apply countChannel_does
    | with_reducible apply countReadError_does | with_reducible apply dropInjection_does
    | with_reducible apply h_react | exact subParts_of (by decide) hp | with_reducible apply does_fold
    | simp only [does_mk] | with_reducible refine moves_intro ?_ rfl ?_
    | ((with_reducible refine only_intro ?_); intro p hc; cases p <;> first
        | exact (clash hp (by decide) hc).elim | dsimp only [Same])
    | intro _ | split | with_reducible apply does_ite | with_reducible apply does_fst (by assumption) | dsimp only

theorem descBack_does {pz : List Part} {s₀ : State} {f : Nat} {q : Nat} {op : Nat} {react : Nat → State → State} {go :
    State → State} {s : State} (h_react : ∀ a0 s, Does pz s₀ s → Does pz s₀ (react a0 s)) (h_go : ∀ s, Does pz s₀ s →
    Does pz s₀ (go s)) (h_s : Does pz s₀ s) (hp : subParts [.out, .memc, .pcx, .agl, .err] pz = true) : Does pz s₀
    (descBack f q op react go s) := by
  unfold descBack
  try dsimp only
  repeat' first
    | with_reducible assumption | with_reducible apply failDesc_does | with_reducible apply h_react
    | with_reducible apply h_go | exact subParts_of (by decide) hp | with_reducible apply does_fold
    | simp only [does_mk] | with_reducible refine moves_intro ?_ rfl ?_
    | ((with_reducible refine only_intro ?_); intro p hc; cases p <;> first
        | exact (clash hp (by decide) hc).elim | dsimp only [Same])
    | intro _ | split | with_reducible apply does_ite | with_reducible apply does_fst (by assumption) | dsimp only

theorem auxCommand_does {pz : List Part} {s₀ : State} {f : Nat} {q : Nat} {op : Nat} {aux : Bytes} {s : State} (h_s :
    Does pz s₀ s) (hp : subParts [.free, .out, .mem, .facets, .arb, .mirror, .groups, .grp, .prism, .fab, .xlt, .memc,
    .pcx, .eth, .agl, .err, .pwr] pz = true) : Does pz s₀ (auxCommand f q op aux s) := by
  unfold auxCommand
  try dsimp only
  repeat' first
    | with_reducible assumption | with_reducible apply auxFailed_does | with_reducible apply collCommand_does
    | with_reducible apply descBack_does | exact subParts_of (by decide) hp | with_reducible apply does_fold
    | simp only [does_mk] | with_reducible refine moves_intro ?_ rfl ?_
    | ((with_reducible refine only_intro ?_); intro p hc; cases p <;> first
        | exact (clash hp (by decide) hc).elim | dsimp only [Same])
    | intro _ | split | with_reducible apply does_ite | with_reducible apply does_fst (by assumption) | dsimp only

theorem resizeStart_does {pz : List Part} {s₀ : State} {f : Nat} {q : Nat} {record : List U64} {s : State} (h_s : Does
    pz s₀ s) (hp : subParts [.free, .out, .mem, .facets, .arb, .mirror, .fab, .xlt, .memc, .pcx, .eth, .pwr] pz =
    true) : Does pz s₀ (resizeStart f q record s) := by
  unfold resizeStart
  try dsimp only
  repeat' first
    | with_reducible assumption | with_reducible apply facetResize_does | with_reducible apply readAll_does
    | with_reducible apply startAccess_does | with_reducible apply startWith_does | exact subParts_of (by decide) hp
    | with_reducible apply does_fold | simp only [does_mk] | with_reducible refine moves_intro ?_ rfl ?_
    | ((with_reducible refine only_intro ?_); intro p hc; cases p <;> first
        | exact (clash hp (by decide) hc).elim | dsimp only [Same])
    | intro _ | split | with_reducible apply does_ite | with_reducible apply does_fst (by assumption) | dsimp only

end Sys2Proof.Machine
end

