-- ==== Sys2Proof/Laws/ErrorsFrame.lean ====
section
/-!
SUPPORT. What each operation of Machine/Errors.lean may change: one lemma per operation.
-/
set_option linter.unusedTactic false
set_option linter.unreachableTactic false
set_option linter.unusedSimpArgs false
set_option linter.unusedVariables false

namespace Sys2Proof.Machine

theorem scratchLost_does {pz : List Part} {s₀ : State} {bank : Nat} {s : State} (h_s : Does pz s₀ s) (hp : subParts
    [.free, .out, .mem, .facets, .arb, .mirror, .groups, .grp, .prism, .fab, .xlt, .memc, .pcx, .eth, .pwr] pz = true)
    : Does pz s₀ (scratchLost bank s) := by
  unfold scratchLost
  try dsimp only
  repeat' first
    | with_reducible assumption | with_reducible apply askRollback_does | exact subParts_of (by decide) hp
    | with_reducible apply does_fold | simp only [does_mk] | with_reducible refine moves_intro ?_ rfl ?_
    | ((with_reducible refine only_intro ?_); intro p hc; cases p <;> first
        | exact (clash hp (by decide) hc).elim | dsimp only [Same])
    | intro _ | split | with_reducible apply does_ite | with_reducible apply does_fst (by assumption) | dsimp only

theorem trimCtx_does {pz : List Part} {s₀ : State} {s : State} (h_s : Does pz s₀ s) (hp : subParts [.zrt] pz = true) :
    Does pz s₀ (trimCtx s) := by
  unfold trimCtx
  try dsimp only
  repeat' first
    | with_reducible assumption | exact subParts_of (by decide) hp | with_reducible apply does_fold
    | simp only [does_mk] | with_reducible refine moves_intro ?_ rfl ?_
    | ((with_reducible refine only_intro ?_); intro p hc; cases p <;> first
        | exact (clash hp (by decide) hc).elim | dsimp only [Same])
    | intro _ | split | with_reducible apply does_ite | with_reducible apply does_fst (by assumption) | dsimp only

theorem ctxBankLost_does {pz : List Part} {s₀ : State} {bank : Nat} {s : State} (h_s : Does pz s₀ s) (hp : subParts
    [.free, .out, .mem, .facets, .qps, .zrt, .mirror, .fab, .xlt, .memc, .pcx, .eth, .pwr] pz = true) : Does pz s₀
    (ctxBankLost bank s) := by
  unfold ctxBankLost
  try dsimp only
  repeat' first
    | with_reducible assumption | with_reducible apply restoreQp_does | with_reducible apply trimCtx_does
    | exact subParts_of (by decide) hp | with_reducible apply does_fold | simp only [does_mk]
    | with_reducible refine moves_intro ?_ rfl ?_
    | ((with_reducible refine only_intro ?_); intro p hc; cases p <;> first
        | exact (clash hp (by decide) hc).elim | dsimp only [Same])
    | intro _ | split | with_reducible apply does_ite | with_reducible apply does_fst (by assumption) | dsimp only

theorem fenceBank_does {pz : List Part} {s₀ : State} {bank : Nat} {forced : Bool} {s : State} (h_s : Does pz s₀ s) (hp
    : subParts [.free, .out, .mem, .facets, .arb, .qps, .zrt, .mirror, .groups, .grp, .prism, .fab, .xlt, .memc, .pcx,
    .eth, .agl, .err, .pwr] pz = true) : Does pz s₀ (fenceBank bank forced s) := by
  unfold fenceBank
  try dsimp only
  repeat' first
    | with_reducible assumption | with_reducible apply collect_does | with_reducible apply ctxBankLost_does
    | with_reducible apply noteFence_does | with_reducible apply scratchLost_does | exact subParts_of (by decide) hp
    | with_reducible apply does_fold | simp only [does_mk] | with_reducible refine moves_intro ?_ rfl ?_
    | ((with_reducible refine only_intro ?_); intro p hc; cases p <;> first
        | exact (clash hp (by decide) hc).elim | dsimp only [Same])
    | intro _ | split | with_reducible apply does_ite | with_reducible apply does_fst (by assumption) | dsimp only

theorem countBank_does {pz : List Part} {s₀ : State} {bank : Nat} {s : State} (h_s : Does pz s₀ s) (hp : subParts
    [.free, .out, .mem, .facets, .arb, .qps, .zrt, .mirror, .groups, .grp, .prism, .fab, .xlt, .memc, .pcx, .eth,
    .agl, .err, .pwr] pz = true) : Does pz s₀ (countBank bank s) := by
  unfold countBank
  try dsimp only
  repeat' first
    | with_reducible assumption | with_reducible apply countWindow_does | with_reducible apply fenceBank_does
    | exact subParts_of (by decide) hp | with_reducible apply does_fold | simp only [does_mk]
    | with_reducible refine moves_intro ?_ rfl ?_
    | ((with_reducible refine only_intro ?_); intro p hc; cases p <;> first
        | exact (clash hp (by decide) hc).elim | dsimp only [Same])
    | intro _ | split | with_reducible apply does_ite | with_reducible apply does_fst (by assumption) | dsimp only

theorem modAgent_does {pz : List Part} {s₀ : State} {a : Nat} {g : Agent → Agent} {s : State} (h_s : Does pz s₀ s) (hp
    : subParts [.boot] pz = true) : Does pz s₀ (modAgent a g s) := by
  unfold modAgent
  try dsimp only
  repeat' first
    | with_reducible assumption | exact subParts_of (by decide) hp | with_reducible apply does_fold
    | simp only [does_mk] | with_reducible refine moves_intro ?_ rfl ?_
    | ((with_reducible refine only_intro ?_); intro p hc; cases p <;> first
        | exact (clash hp (by decide) hc).elim | dsimp only [Same])
    | intro _ | split | with_reducible apply does_ite | with_reducible apply does_fst (by assumption) | dsimp only

theorem restartAgent_does {pz : List Part} {s₀ : State} {a : Nat} {c : Nat} {s : State} (h_s : Does pz s₀ s) (hp :
    subParts [.mem, .memc, .trust, .agl, .err, .boot] pz = true) : Does pz s₀ (restartAgent a c s) := by
  unfold restartAgent
  try dsimp only
  repeat' first
    | with_reducible assumption | with_reducible apply copyAgent_does | with_reducible apply extendM_does
    | with_reducible apply infoEvent_does | with_reducible apply modAgent_does | exact subParts_of (by decide) hp
    | with_reducible apply does_fold | simp only [does_mk] | with_reducible refine moves_intro ?_ rfl ?_
    | ((with_reducible refine only_intro ?_); intro p hc; cases p <;> first
        | exact (clash hp (by decide) hc).elim | dsimp only [Same])
    | intro _ | split | with_reducible apply does_ite | with_reducible apply does_fst (by assumption) | dsimp only

theorem moveAgent_does {pz : List Part} {s₀ : State} {a : Nat} {s : State} (h_s : Does pz s₀ s) (hp : subParts [.mem,
    .memc, .trust, .agl, .err, .boot] pz = true) : Does pz s₀ (moveAgent a s) := by
  unfold moveAgent
  try dsimp only
  repeat' first
    | with_reducible assumption | with_reducible apply modAgent_does | with_reducible apply restartAgent_does
    | exact subParts_of (by decide) hp | with_reducible apply does_fold | simp only [does_mk]
    | with_reducible refine moves_intro ?_ rfl ?_
    | ((with_reducible refine only_intro ?_); intro p hc; cases p <;> first
        | exact (clash hp (by decide) hc).elim | dsimp only [Same])
    | intro _ | split | with_reducible apply does_ite | with_reducible apply does_fst (by assumption) | dsimp only

theorem coreGone_does {pz : List Part} {s₀ : State} {c : Nat} {s : State} (h_s : Does pz s₀ s) (hp : subParts [.mem,
    .memc, .trust, .agl, .err, .boot] pz = true) : Does pz s₀ (coreGone c s) := by
  unfold coreGone
  try dsimp only
  repeat' first
    | with_reducible assumption | with_reducible apply moveAgent_does | with_reducible apply noteFence_does
    | exact subParts_of (by decide) hp | with_reducible apply does_fold | simp only [does_mk]
    | with_reducible refine moves_intro ?_ rfl ?_
    | ((with_reducible refine only_intro ?_); intro p hc; cases p <;> first
        | exact (clash hp (by decide) hc).elim | dsimp only [Same])
    | intro _ | split | with_reducible apply does_ite | with_reducible apply does_fst (by assumption) | dsimp only

theorem faultCore_does {pz : List Part} {s₀ : State} {c : Nat} {forced : Bool} {s : State} (h_s : Does pz s₀ s) (hp :
    subParts [.out, .mem, .memc, .trust, .agl, .err, .boot] pz = true) : Does pz s₀ (faultCore c forced s) := by
  unfold faultCore
  try dsimp only
  repeat' first
    | with_reducible assumption | with_reducible apply collect_does | with_reducible apply coreGone_does
    | with_reducible apply fatal_does | with_reducible apply faultNow_does | exact subParts_of (by decide) hp
    | with_reducible apply does_fold | simp only [does_mk] | with_reducible refine moves_intro ?_ rfl ?_
    | ((with_reducible refine only_intro ?_); intro p hc; cases p <;> first
        | exact (clash hp (by decide) hc).elim | dsimp only [Same])
    | intro _ | split | with_reducible apply does_ite | with_reducible apply does_fst (by assumption) | dsimp only

theorem unfenceCore_does {pz : List Part} {s₀ : State} {c : Nat} {s : State} (h_s : Does pz s₀ s) (hp : subParts
    [.mem, .memc, .trust, .agl, .err, .boot] pz = true) : Does pz s₀ (unfenceCore c s) := by
  unfold unfenceCore
  try dsimp only
  repeat' first
    | with_reducible assumption | with_reducible apply noteUnfence_does | with_reducible apply restartAgent_does
    | exact subParts_of (by decide) hp | with_reducible apply does_fold | simp only [does_mk]
    | with_reducible refine moves_intro ?_ rfl ?_
    | ((with_reducible refine only_intro ?_); intro p hc; cases p <;> first
        | exact (clash hp (by decide) hc).elim | dsimp only [Same])
    | intro _ | split | with_reducible apply does_ite | with_reducible apply does_fst (by assumption) | dsimp only

theorem poisonLine_does {pz : List Part} {s₀ : State} {a : Nat} {s : State} (h_s : Does pz s₀ s) (hp : subParts [.xlt,
    .memc] pz = true) : Does pz s₀ (poisonLine a s) := by
  unfold poisonLine
  try dsimp only
  repeat' first
    | with_reducible assumption | exact subParts_of (by decide) hp | with_reducible apply does_fold
    | simp only [does_mk] | with_reducible refine moves_intro ?_ rfl ?_
    | ((with_reducible refine only_intro ?_); intro p hc; cases p <;> first
        | exact (clash hp (by decide) hc).elim | dsimp only [Same])
    | intro _ | split | with_reducible apply does_ite | with_reducible apply does_fst (by assumption) | dsimp only

theorem memUe_does {pz : List Part} {s₀ : State} {ch : Nat} {info0 : U64} {facet : Option Nat} {s : State} (h_s : Does
    pz s₀ s) (hp : subParts [.free, .out, .mem, .facets, .arb, .qps, .zrt, .mirror, .groups, .grp, .prism, .fab, .xlt,
    .memc, .pcx, .mov, .cip, .eth, .agl, .err, .pwr] pz = true) : Does pz s₀ (memUe ch info0 facet s) := by
  unfold memUe
  try dsimp only
  repeat' first
    | with_reducible assumption | with_reducible apply collect_does | with_reducible apply countChannel_does
    | with_reducible apply poisonLine_does | with_reducible apply readFailed_does | exact subParts_of (by decide) hp
    | with_reducible apply does_fold | simp only [does_mk] | with_reducible refine moves_intro ?_ rfl ?_
    | ((with_reducible refine only_intro ?_); intro p hc; cases p <;> first
        | exact (clash hp (by decide) hc).elim | dsimp only [Same])
    | intro _ | split | with_reducible apply does_ite | with_reducible apply does_fst (by assumption) | dsimp only

theorem entHealth_does {pz : List Part} {s₀ : State} {forced : Bool} {s : State} (h_s : Does pz s₀ s) (hp : subParts
    [.out, .trust, .agl, .err] pz = true) : Does pz s₀ (entHealth forced s) := by
  unfold entHealth
  try dsimp only
  repeat' first
    | with_reducible assumption | with_reducible apply collect_does | with_reducible apply fatal_does
    | exact subParts_of (by decide) hp | with_reducible apply does_fold | simp only [does_mk]
    | with_reducible refine moves_intro ?_ rfl ?_
    | ((with_reducible refine only_intro ?_); intro p hc; cases p <;> first
        | exact (clash hp (by decide) hc).elim | dsimp only [Same])
    | intro _ | split | with_reducible apply does_ite | with_reducible apply does_fst (by assumption) | dsimp only

theorem waitInjection_does {pz : List Part} {s₀ : State} {src : Nat} {u : Nat} {s : State} (h_s : Does pz s₀ s) (hp :
    subParts [.err] pz = true) : Does pz s₀ (waitInjection src u s) := by
  unfold waitInjection
  try dsimp only
  repeat' first
    | with_reducible assumption | exact subParts_of (by decide) hp | with_reducible apply does_fold
    | simp only [does_mk] | with_reducible refine moves_intro ?_ rfl ?_
    | ((with_reducible refine only_intro ?_); intro p hc; cases p <;> first
        | exact (clash hp (by decide) hc).elim | dsimp only [Same])
    | intro _ | split | with_reducible apply does_ite | with_reducible apply does_fst (by assumption) | dsimp only

theorem recordOnly_does {pz : List Part} {s₀ : State} {src : Nat} {u : Nat} {forced : Bool} {info0 : U64} {facet :
    Option Nat} {s : State} (h_s : Does pz s₀ s) (hp : subParts [.agl, .err] pz = true) : Does pz s₀ (recordOnly src u
    forced info0 facet s) := by
  unfold recordOnly
  try dsimp only
  repeat' first
    | with_reducible assumption | with_reducible apply collect_does | exact subParts_of (by decide) hp
    | with_reducible apply does_fold | simp only [does_mk] | with_reducible refine moves_intro ?_ rfl ?_
    | ((with_reducible refine only_intro ?_); intro p hc; cases p <;> first
        | exact (clash hp (by decide) hc).elim | dsimp only [Same])
    | intro _ | split | with_reducible apply does_ite | with_reducible apply does_fst (by assumption) | dsimp only

theorem detectSram_does {pz : List Part} {s₀ : State} {src : Nat} {u : Nat} {forced : Bool} {info0 : U64} {s : State}
    (h_s : Does pz s₀ s) (hp : subParts [.free, .out, .mem, .facets, .arb, .qps, .zrt, .mirror, .groups, .grp, .prism,
    .fab, .xlt, .memc, .pcx, .eth, .agl, .err, .pwr] pz = true) : Does pz s₀ (detectSram src u forced info0 s) := by
  unfold detectSram
  try dsimp only
  repeat' first
    | with_reducible assumption | with_reducible apply collect_does | with_reducible apply countBank_does
    | with_reducible apply fenceBank_does | with_reducible apply recordOnly_does | with_reducible apply restoreQp_does
    | with_reducible apply scratchLost_does | exact subParts_of (by decide) hp | with_reducible apply does_fold
    | simp only [does_mk] | with_reducible refine moves_intro ?_ rfl ?_
    | ((with_reducible refine only_intro ?_); intro p hc; cases p <;> first
        | exact (clash hp (by decide) hc).elim | dsimp only [Same])
    | intro _ | split | with_reducible apply does_ite | with_reducible apply does_fst (by assumption) | dsimp only

theorem detectMem_does {pz : List Part} {s₀ : State} {src : Nat} {u : Nat} {forced : Bool} {info0 : U64} {facet :
    Option Nat} {s : State} (h_s : Does pz s₀ s) (hp : subParts [.free, .out, .mem, .facets, .arb, .qps, .zrt,
    .mirror, .groups, .grp, .prism, .fab, .xlt, .memc, .pcx, .mov, .cip, .eth, .agl, .err, .pwr] pz = true) : Does pz
    s₀ (detectMem src u forced info0 facet s) := by
  unfold detectMem
  try dsimp only
  repeat' first
    | with_reducible assumption | with_reducible apply collect_does | with_reducible apply countChannel_does
    | with_reducible apply fatal_does | with_reducible apply faultNow_does | with_reducible apply fenceChannel_does
    | with_reducible apply memUe_does | with_reducible apply recordOnly_does | with_reducible apply waitInjection_does
    | exact subParts_of (by decide) hp | with_reducible apply does_fold | simp only [does_mk]
    | with_reducible refine moves_intro ?_ rfl ?_
    | ((with_reducible refine only_intro ?_); intro p hc; cases p <;> first
        | exact (clash hp (by decide) hc).elim | dsimp only [Same])
    | intro _ | split | with_reducible apply does_ite | with_reducible apply does_fst (by assumption) | dsimp only

theorem detectPrism_does {pz : List Part} {s₀ : State} {src : Nat} {u : Nat} {forced : Bool} {s : State} (h_s : Does
    pz s₀ s) (hp : subParts [.free, .out, .mem, .facets, .arb, .mirror, .groups, .grp, .prism, .fab, .xlt, .memc,
    .pcx, .eth, .agl, .err, .pwr] pz = true) : Does pz s₀ (detectPrism src u forced s) := by
  unfold detectPrism
  try dsimp only
  repeat' first
    | with_reducible assumption | with_reducible apply faultNow_does | with_reducible apply fencePrism_does
    | with_reducible apply recordOnly_does | with_reducible apply residue_does
    | with_reducible apply waitInjection_does | with_reducible apply does_when | exact subParts_of (by decide) hp
    | with_reducible apply does_fold | simp only [does_mk] | with_reducible refine moves_intro ?_ rfl ?_
    | ((with_reducible refine only_intro ?_); intro p hc; cases p <;> first
        | exact (clash hp (by decide) hc).elim | dsimp only [Same])
    | intro _ | split | with_reducible apply does_ite | with_reducible apply does_fst (by assumption) | dsimp only

theorem detectLink_does {pz : List Part} {s₀ : State} {src : Nat} {u : Nat} {forced : Bool} {s : State} (h_s : Does pz
    s₀ s) (hp : subParts [.out, .grp, .fab, .eth, .agl, .err, .pwr] pz = true) : Does pz s₀ (detectLink src u forced
    s) := by
  unfold detectLink
  try dsimp only
  repeat' first
    | with_reducible assumption | with_reducible apply collect_does | with_reducible apply faultFenceLink_does
    | with_reducible apply faultNow_does | with_reducible apply linkDownBy_does | with_reducible apply linkTo_does
    | with_reducible apply recordOnly_does | with_reducible apply recvFlit_does
    | with_reducible apply waitInjection_does | exact subParts_of (by decide) hp | with_reducible apply does_fold
    | simp only [does_mk] | with_reducible refine moves_intro ?_ rfl ?_
    | ((with_reducible refine only_intro ?_); intro p hc; cases p <;> first
        | exact (clash hp (by decide) hc).elim | dsimp only [Same])
    | intro _ | split | with_reducible apply does_ite | with_reducible apply does_fst (by assumption) | dsimp only

theorem detectPort_does {pz : List Part} {s₀ : State} {src : Nat} {u : Nat} {forced : Bool} {info0 : U64} {facet :
    Option Nat} {s : State} (h_s : Does pz s₀ s) (hp : subParts [.free, .out, .mem, .facets, .arb, .qps, .mirror,
    .groups, .grp, .prism, .fab, .xlt, .memc, .pcx, .mov, .cip, .eth, .agl, .err, .pwr] pz = true) : Does pz s₀
    (detectPort src u forced info0 facet s) := by
  unfold detectPort
  try dsimp only
  repeat' first
    | with_reducible assumption | with_reducible apply busError_does | with_reducible apply collect_does
    | with_reducible apply countReadError_does | with_reducible apply fatal_does
    | with_reducible apply recordOnly_does | with_reducible apply waitInjection_does
    | exact subParts_of (by decide) hp | with_reducible apply does_fold | simp only [does_mk]
    | with_reducible refine moves_intro ?_ rfl ?_
    | ((with_reducible refine only_intro ?_); intro p hc; cases p <;> first
        | exact (clash hp (by decide) hc).elim | dsimp only [Same])
    | intro _ | split | with_reducible apply does_ite | with_reducible apply does_fst (by assumption) | dsimp only

theorem detectOther_does {pz : List Part} {s₀ : State} {src : Nat} {u : Nat} {forced : Bool} {info0 : U64} {facet :
    Option Nat} {s : State} (h_s : Does pz s₀ s) (hp : subParts [.free, .out, .mem, .facets, .qps, .zrt, .mirror,
    .fab, .xlt, .memc, .pcx, .cip, .trust, .eth, .agl, .err, .boot, .pwr] pz = true) : Does pz s₀ (detectOther src u
    forced info0 facet s) := by
  unfold detectOther
  try dsimp only
  repeat' first
    | with_reducible assumption | with_reducible apply collect_does | with_reducible apply coreMismatch_does
    | with_reducible apply entHealth_does | with_reducible apply fatal_does | with_reducible apply faultCore_does
    | with_reducible apply faultNow_does | with_reducible apply recordOnly_does
    | with_reducible apply waitInjection_does | exact subParts_of (by decide) hp | with_reducible apply does_fold
    | simp only [does_mk] | with_reducible refine moves_intro ?_ rfl ?_
    | ((with_reducible refine only_intro ?_); intro p hc; cases p <;> first
        | exact (clash hp (by decide) hc).elim | dsimp only [Same])
    | intro _ | split | with_reducible apply does_ite | with_reducible apply does_fst (by assumption) | dsimp only

theorem selfEvent_does {pz : List Part} {s₀ : State} {forced : Bool} {s : State} (h_s : Does pz s₀ s) (hp : subParts
    [.out, .agl, .err] pz = true) : Does pz s₀ (selfEvent forced s) := by
  unfold selfEvent
  try dsimp only
  repeat' first
    | with_reducible assumption | with_reducible apply enterUmbra_does | with_reducible apply recordRaw_does
    | exact subParts_of (by decide) hp | with_reducible apply does_fold | simp only [does_mk]
    | with_reducible refine moves_intro ?_ rfl ?_
    | ((with_reducible refine only_intro ?_); intro p hc; cases p <;> first
        | exact (clash hp (by decide) hc).elim | dsimp only [Same])
    | intro _ | split | with_reducible apply does_ite | with_reducible apply does_fst (by assumption) | dsimp only

theorem detect_does {pz : List Part} {s₀ : State} {src : Nat} {u : Nat} {info0 : U64} {facet : Option Nat} {forced :
    Bool} {s : State} (h_s : Does pz s₀ s) (hp : subParts [.free, .out, .mem, .facets, .arb, .qps, .zrt, .mirror,
    .groups, .grp, .prism, .fab, .xlt, .memc, .pcx, .mov, .cip, .trust, .eth, .agl, .err, .boot, .pwr] pz = true) :
    Does pz s₀ (detect src u info0 facet forced s) := by
  unfold detect
  try dsimp only
  repeat' first
    | with_reducible assumption | with_reducible apply detectLink_does | with_reducible apply detectMem_does
    | with_reducible apply detectOther_does | with_reducible apply detectPort_does
    | with_reducible apply detectPrism_does | with_reducible apply detectSram_does
    | with_reducible apply recordOnly_does | with_reducible apply resendLost_does
    | with_reducible apply selfEvent_does | exact subParts_of (by decide) hp | with_reducible apply does_fold
    | simp only [does_mk] | with_reducible refine moves_intro ?_ rfl ?_
    | ((with_reducible refine only_intro ?_); intro p hc; cases p <;> first
        | exact (clash hp (by decide) hc).elim | dsimp only [Same])
    | intro _ | split | with_reducible apply does_ite | with_reducible apply does_fst (by assumption) | dsimp only

theorem writeForce_does {pz : List Part} {s₀ : State} {v : U64} {s : State} (h_s : Does pz s₀ s) (hp : subParts
    [.free, .out, .mem, .facets, .arb, .qps, .zrt, .mirror, .groups, .grp, .prism, .fab, .xlt, .memc, .pcx, .mov,
    .cip, .trust, .eth, .agl, .err, .boot, .pwr] pz = true) : Does pz s₀ (writeForce v s) := by
  unfold writeForce
  try dsimp only
  repeat' first
    | with_reducible assumption | with_reducible apply detect_does | exact subParts_of (by decide) hp
    | with_reducible apply does_fold | simp only [does_mk] | with_reducible refine moves_intro ?_ rfl ?_
    | ((with_reducible refine only_intro ?_); intro p hc; cases p <;> first
        | exact (clash hp (by decide) hc).elim | dsimp only [Same])
    | intro _ | split | with_reducible apply does_ite | with_reducible apply does_fst (by assumption) | dsimp only

theorem fenceUnit_does {pz : List Part} {s₀ : State} {k : Nat} {i : Nat} {s : State} (h_s : Does pz s₀ s) (hp :
    subParts [.free, .out, .mem, .facets, .arb, .mirror, .groups, .grp, .prism, .fab, .xlt, .memc, .pcx, .trust, .eth,
    .agl, .err, .boot, .pwr] pz = true) : Does pz s₀ (fenceUnit k i s) := by
  unfold fenceUnit
  try dsimp only
  repeat' first
    | with_reducible assumption | with_reducible apply coreGone_does | with_reducible apply fenceChannel_does
    | with_reducible apply fenceLink_does | with_reducible apply fencePrism_does
    | with_reducible apply resendLost_does | exact subParts_of (by decide) hp | with_reducible apply does_fold
    | simp only [does_mk] | with_reducible refine moves_intro ?_ rfl ?_
    | ((with_reducible refine only_intro ?_); intro p hc; cases p <;> first
        | exact (clash hp (by decide) hc).elim | dsimp only [Same])
    | intro _ | split | with_reducible apply does_ite | with_reducible apply does_fst (by assumption) | dsimp only

theorem unitFence_does {pz : List Part} {s₀ : State} {q : Nat} {i : Item} {s : State} (h_s : Does pz s₀ s) (hp :
    subParts [.free, .out, .mem, .facets, .arb, .mirror, .groups, .grp, .prism, .fab, .xlt, .memc, .pcx, .trust, .eth,
    .agl, .err, .boot, .pwr] pz = true) : Does pz s₀ (unitFence q i s) := by
  unfold unitFence
  try dsimp only
  repeat' first
    | with_reducible assumption | with_reducible apply completeItem_does | with_reducible apply fenceUnit_does
    | with_reducible apply restWake_does | exact subParts_of (by decide) hp | with_reducible apply does_fold
    | simp only [does_mk] | with_reducible refine moves_intro ?_ rfl ?_
    | ((with_reducible refine only_intro ?_); intro p hc; cases p <;> first
        | exact (clash hp (by decide) hc).elim | dsimp only [Same])
    | intro _ | split | with_reducible apply does_ite | with_reducible apply does_fst (by assumption) | dsimp only

theorem unfenceUnit_does {pz : List Part} {s₀ : State} {k : Nat} {i : Nat} {s : State} (h_s : Does pz s₀ s) (hp :
    subParts [.free, .out, .mem, .facets, .arb, .mirror, .groups, .grp, .prism, .fab, .xlt, .memc, .pcx, .trust, .eth,
    .agl, .err, .boot, .pwr] pz = true) : Does pz s₀ (unfenceUnit k i s) := by
  unfold unfenceUnit
  try dsimp only
  repeat' first
    | with_reducible assumption | with_reducible apply linkTo_does | with_reducible apply noteUnfence_does
    | with_reducible apply unfenceCore_does | with_reducible apply unfencePrism_does
    | exact subParts_of (by decide) hp | with_reducible apply does_fold | simp only [does_mk]
    | with_reducible refine moves_intro ?_ rfl ?_
    | ((with_reducible refine only_intro ?_); intro p hc; cases p <;> first
        | exact (clash hp (by decide) hc).elim | dsimp only [Same])
    | intro _ | split | with_reducible apply does_ite | with_reducible apply does_fst (by assumption) | dsimp only

theorem unitUnfence_does {pz : List Part} {s₀ : State} {q : Nat} {i : Item} {s : State} (h_s : Does pz s₀ s) (hp :
    subParts [.free, .out, .mem, .facets, .arb, .mirror, .groups, .grp, .prism, .fab, .xlt, .memc, .pcx, .trust, .eth,
    .agl, .err, .boot, .pwr] pz = true) : Does pz s₀ (unitUnfence q i s) := by
  unfold unitUnfence
  try dsimp only
  repeat' first
    | with_reducible assumption | with_reducible apply completeItem_does | with_reducible apply restWake_does
    | with_reducible apply unfenceUnit_does | exact subParts_of (by decide) hp | with_reducible apply does_fold
    | simp only [does_mk] | with_reducible refine moves_intro ?_ rfl ?_
    | ((with_reducible refine only_intro ?_); intro p hc; cases p <;> first
        | exact (clash hp (by decide) hc).elim | dsimp only [Same])
    | intro _ | split | with_reducible apply does_ite | with_reducible apply does_fst (by assumption) | dsimp only

theorem channelBack_does {pz : List Part} {s₀ : State} {s : State} (h_s : Does pz s₀ s) (hp : subParts [.mem, .facets,
    .mirror, .memc, .pcx, .agl, .err] pz = true) : Does pz s₀ (channelBack s) := by
  unfold channelBack
  try dsimp only
  repeat' first
    | with_reducible assumption | with_reducible apply completeItem_does | with_reducible apply noteUnfence_does
    | with_reducible apply settle_does | exact subParts_of (by decide) hp | with_reducible apply does_fold
    | simp only [does_mk] | with_reducible refine moves_intro ?_ rfl ?_
    | ((with_reducible refine only_intro ?_); intro p hc; cases p <;> first
        | exact (clash hp (by decide) hc).elim | dsimp only [Same])
    | intro _ | split | with_reducible apply does_ite | with_reducible apply does_fst (by assumption) | dsimp only

theorem writeAglSel_does {pz : List Part} {s₀ : State} {v : U32} {s : State} (h_s : Does pz s₀ s) (hp : subParts
    [.agl] pz = true) : Does pz s₀ (writeAglSel v s) := by
  unfold writeAglSel
  try dsimp only
  repeat' first
    | with_reducible assumption | exact subParts_of (by decide) hp | with_reducible apply does_fold
    | simp only [does_mk] | with_reducible refine moves_intro ?_ rfl ?_
    | ((with_reducible refine only_intro ?_); intro p hc; cases p <;> first
        | exact (clash hp (by decide) hc).elim | dsimp only [Same])
    | intro _ | split | with_reducible apply does_ite | with_reducible apply does_fst (by assumption) | dsimp only

theorem movBusErr_does {pz : List Part} {s₀ : State} {port : Nat} {halfB : Bool} {kind : Nat} {addr : U64} {s : State}
    (h_s : Does pz s₀ s) (hp : subParts [.free, .out, .mem, .facets, .arb, .qps, .mirror, .groups, .grp, .prism, .fab,
    .xlt, .memc, .pcx, .mov, .cip, .eth, .agl, .err, .pwr] pz = true) : Does pz s₀ (movBusErr port halfB kind addr s)
    := by
  unfold movBusErr
  try dsimp only
  repeat' first
    | with_reducible assumption | with_reducible apply busError_does | with_reducible apply collect_does
    | with_reducible apply countChannel_does | with_reducible apply countReadError_does
    | exact subParts_of (by decide) hp | with_reducible apply does_fold | simp only [does_mk]
    | with_reducible refine moves_intro ?_ rfl ?_
    | ((with_reducible refine only_intro ?_); intro p hc; cases p <;> first
        | exact (clash hp (by decide) hc).elim | dsimp only [Same])
    | intro _ | split | with_reducible apply does_ite | with_reducible apply does_fst (by assumption) | dsimp only

theorem windowStore_does {pz : List Part} {s₀ : State} {a : Nat} {bs : Bytes} {s : State} (h_s : Does pz s₀ s) (hp :
    subParts [.mem, .memc] pz = true) : Does pz s₀ (windowStore a bs s) := by
  unfold windowStore
  try dsimp only
  repeat' first
    | with_reducible assumption | with_reducible apply memStore_does | exact subParts_of (by decide) hp
    | with_reducible apply does_fold | simp only [does_mk] | with_reducible refine moves_intro ?_ rfl ?_
    | ((with_reducible refine only_intro ?_); intro p hc; cases p <;> first
        | exact (clash hp (by decide) hc).elim | dsimp only [Same])
    | intro _ | split | with_reducible apply does_ite | with_reducible apply does_fst (by assumption) | dsimp only

theorem writeMsix_does {pz : List Part} {s₀ : State} {f : Nat} {off : Nat} {bs : Bytes} {s : State} (h_s : Does pz s₀
    s) (hp : subParts [.facets, .pcx] pz = true) : Does pz s₀ (writeMsix f off bs s) := by
  unfold writeMsix
  try dsimp only
  repeat' first
    | with_reducible assumption | with_reducible apply modF_does | with_reducible apply sendPba_does
    | exact subParts_of (by decide) hp | with_reducible apply does_fold | simp only [does_mk]
    | with_reducible refine moves_intro ?_ rfl ?_
    | ((with_reducible refine only_intro ?_); intro p hc; cases p <;> first
        | exact (clash hp (by decide) hc).elim | dsimp only [Same])
    | intro _ | split | with_reducible apply does_ite | with_reducible apply does_fst (by assumption) | dsimp only

theorem windowWrite_does {pz : List Part} {s₀ : State} {src : Source} {off : Nat} {bs : Bytes} {s : State} (h_s : Does
    pz s₀ s) (hp : subParts [.mem, .facets, .memc, .pcx] pz = true) : Does pz s₀ (windowWrite src off bs s) := by
  unfold windowWrite
  try dsimp only
  repeat' first
    | with_reducible assumption | with_reducible apply memStore_does | with_reducible apply windowStore_does
    | with_reducible apply writeMsix_does | exact subParts_of (by decide) hp | with_reducible apply does_fold
    | simp only [does_mk] | with_reducible refine moves_intro ?_ rfl ?_
    | ((with_reducible refine only_intro ?_); intro p hc; cases p <;> first
        | exact (clash hp (by decide) hc).elim | dsimp only [Same])
    | intro _ | split | with_reducible apply does_ite | with_reducible apply does_fst (by assumption) | dsimp only

end Sys2Proof.Machine
end

