-- ==== Sys2Proof/Laws/RegsFrame.lean ====
section
/-!
SUPPORT. What each operation of Machine/Regs.lean may change: one lemma per operation.
-/
set_option linter.unusedTactic false
set_option linter.unreachableTactic false
set_option linter.unusedSimpArgs false
set_option linter.unusedVariables false

namespace Sys2Proof.Machine

theorem fileWrite_does {pz : List Part} {s₀ : State} {off : Nat} {v : U64} {s : State} (h_s : Does pz s₀ s) (hp :
    subParts [.regs] pz = true) : Does pz s₀ (fileWrite off v s) := by
  unfold fileWrite
  try dsimp only
  repeat' first
    | with_reducible assumption | exact subParts_of (by decide) hp | with_reducible apply does_fold
    | simp only [does_mk] | with_reducible refine moves_intro ?_ rfl ?_
    | ((with_reducible refine only_intro ?_); intro p hc; cases p <;> first
        | exact (clash hp (by decide) hc).elim | dsimp only [Same])
    | intro _ | split | with_reducible apply does_ite | with_reducible apply does_fst (by assumption) | dsimp only

theorem queueCtrl_does {pz : List Part} {s₀ : State} {f : Nat} {rq : Bool} {q : Nat} {v : U64} {s : State} (h_s : Does
    pz s₀ s) (hp : subParts [.mem, .facets, .mirror, .memc, .pcx, .mov] pz = true) : Does pz s₀ (queueCtrl f rq q v s)
    := by
  unfold queueCtrl
  try dsimp only
  repeat' first
    | with_reducible assumption | with_reducible apply createQueue_does | with_reducible apply destroyQueue_does
    | with_reducible apply modQ_does | with_reducible apply settle_does | exact subParts_of (by decide) hp
    | with_reducible apply does_fold | simp only [does_mk] | with_reducible refine moves_intro ?_ rfl ?_
    | ((with_reducible refine only_intro ?_); intro p hc; cases p <;> first
        | exact (clash hp (by decide) hc).elim | dsimp only [Same])
    | intro _ | split | with_reducible apply does_ite | with_reducible apply does_fst (by assumption) | dsimp only

theorem queueWrite_does {pz : List Part} {s₀ : State} {f : Nat} {rq : Bool} {q : Nat} {o : Nat} {v : U64} {s : State}
    (h_s : Does pz s₀ s) (hp : subParts [.mem, .facets, .mirror, .memc, .pcx, .mov] pz = true) : Does pz s₀
    (queueWrite f rq q o v s) := by
  unfold queueWrite
  try dsimp only
  repeat' first
    | with_reducible assumption | with_reducible apply doorbell_does | with_reducible apply modQ_does
    | with_reducible apply queueCtrl_does | exact subParts_of (by decide) hp | with_reducible apply does_fold
    | simp only [does_mk] | with_reducible refine moves_intro ?_ rfl ?_
    | ((with_reducible refine only_intro ?_); intro p hc; cases p <;> first
        | exact (clash hp (by decide) hc).elim | dsimp only [Same])
    | intro _ | split | with_reducible apply does_ite | with_reducible apply does_fst (by assumption) | dsimp only

theorem ringWrite_does {pz : List Part} {s₀ : State} {f : Nat} {e : Nat} {o : Nat} {v : U64} {s : State} (h_s : Does
    pz s₀ s) (hp : subParts [.mem, .facets, .memc, .pcx] pz = true) : Does pz s₀ (ringWrite f e o v s) := by
  unfold ringWrite
  try dsimp only
  repeat' first
    | with_reducible assumption | with_reducible apply createRing_does | with_reducible apply destroyRing_does
    | with_reducible apply modE_does | with_reducible apply shrinkEval_does | with_reducible apply writeCons_does
    | exact subParts_of (by decide) hp | with_reducible apply does_fold | simp only [does_mk]
    | with_reducible refine moves_intro ?_ rfl ?_
    | ((with_reducible refine only_intro ?_); intro p hc; cases p <;> first
        | exact (clash hp (by decide) hc).elim | dsimp only [Same])
    | intro _ | split | with_reducible apply does_ite | with_reducible apply does_fst (by assumption) | dsimp only

theorem queWrite_does {pz : List Part} {s₀ : State} {f : Nat} {off : Nat} {v : U64} {s : State} (h_s : Does pz s₀ s)
    (hp : subParts [.mem, .facets, .mirror, .memc, .pcx, .mov] pz = true) : Does pz s₀ (queWrite f off v s) := by
  unfold queWrite
  try dsimp only
  repeat' first
    | with_reducible assumption | with_reducible apply modF_does | with_reducible apply queueWrite_does
    | with_reducible apply ringWrite_does | exact subParts_of (by decide) hp | with_reducible apply does_fold
    | simp only [does_mk] | with_reducible refine moves_intro ?_ rfl ?_
    | ((with_reducible refine only_intro ?_); intro p hc; cases p <;> first
        | exact (clash hp (by decide) hc).elim | dsimp only [Same])
    | intro _ | split | with_reducible apply does_ite | with_reducible apply does_fst (by assumption) | dsimp only

theorem zrtWrite_does {pz : List Part} {s₀ : State} {f : Nat} {off : Nat} {v : U64} {s : State} (h_s : Does pz s₀ s)
    (hp : subParts [.free, .out, .mem, .facets, .qps, .zrt, .mirror, .fab, .xlt, .memc, .pcx, .trust, .eth, .pwr] pz =
    true) : Does pz s₀ (zrtWrite f off v s) := by
  unfold zrtWrite
  try dsimp only
  repeat' first
    | with_reducible assumption | with_reducible apply connectQp_does | with_reducible apply createQp_does
    | with_reducible apply destroyQp_does | with_reducible apply modF_does | with_reducible apply qpCommand_does
    | with_reducible apply queryQp_does | exact subParts_of (by decide) hp | with_reducible apply does_fold
    | simp only [does_mk] | with_reducible refine moves_intro ?_ rfl ?_
    | ((with_reducible refine only_intro ?_); intro p hc; cases p <;> first
        | exact (clash hp (by decide) hc).elim | dsimp only [Same])
    | intro _ | split | with_reducible apply does_ite | with_reducible apply does_fst (by assumption) | dsimp only

theorem xltWrite_does {pz : List Part} {s₀ : State} {f : Nat} {off : Nat} {v : U64} {s : State} (h_s : Does pz s₀ s)
    (hp : subParts [.mem, .facets, .mirror, .xlt, .memc, .pcx] pz = true) : Does pz s₀ (xltWrite f off v s) := by
  unfold xltWrite
  try dsimp only
  repeat' first
    | with_reducible assumption | with_reducible apply modF_does | with_reducible apply segInvalidate_does
    | with_reducible apply segRead_does | with_reducible apply segWrite_does | exact subParts_of (by decide) hp
    | with_reducible apply does_fold | simp only [does_mk] | with_reducible refine moves_intro ?_ rfl ?_
    | ((with_reducible refine only_intro ?_); intro p hc; cases p <;> first
        | exact (clash hp (by decide) hc).elim | dsimp only [Same])
    | intro _ | split | with_reducible apply does_ite | with_reducible apply does_fst (by assumption) | dsimp only

theorem movWrite_does {pz : List Part} {s₀ : State} {f : Nat} {off : Nat} {v : U64} {s : State} (h_s : Does pz s₀ s)
    (hp : subParts [.free, .mem, .facets, .mirror, .xlt, .memc, .pcx, .mov] pz = true) : Does pz s₀ (movWrite f off v
    s) := by
  unfold movWrite
  try dsimp only
  repeat' first
    | with_reducible assumption | with_reducible apply modSrc_does | with_reducible apply serveReq_does
    | with_reducible apply writePend_does | exact subParts_of (by decide) hp | with_reducible apply does_fold
    | simp only [does_mk] | with_reducible refine moves_intro ?_ rfl ?_
    | ((with_reducible refine only_intro ?_); intro p hc; cases p <;> first
        | exact (clash hp (by decide) hc).elim | dsimp only [Same])
    | intro _ | split | with_reducible apply does_ite | with_reducible apply does_fst (by assumption) | dsimp only

theorem cipWrite_does {pz : List Part} {s₀ : State} {f : Nat} {off : Nat} {v : U64} {s : State} (h_s : Does pz s₀ s)
    (hp : subParts [.facets, .qps, .zrt, .mirror, .pcx, .cip] pz = true) : Does pz s₀ (cipWrite f off v s) := by
  unfold cipWrite
  try dsimp only
  repeat' first
    | with_reducible assumption | with_reducible apply cmpStart_does | with_reducible apply keyCommand_does
    | with_reducible apply modF_does | exact subParts_of (by decide) hp | with_reducible apply does_fold
    | simp only [does_mk] | with_reducible refine moves_intro ?_ rfl ?_
    | ((with_reducible refine only_intro ?_); intro p hc; cases p <;> first
        | exact (clash hp (by decide) hc).elim | dsimp only [Same])
    | intro _ | split | with_reducible apply does_ite | with_reducible apply does_fst (by assumption) | dsimp only

theorem attWrite_does {pz : List Part} {s₀ : State} {f : Nat} {off : Nat} {v : U64} {s : State} (h_s : Does pz s₀ s)
    (hp : subParts [.free, .facets, .trust] pz = true) : Does pz s₀ (attWrite f off v s) := by
  unfold attWrite
  try dsimp only
  repeat' first
    | with_reducible assumption | with_reducible apply attRequest_does | with_reducible apply modF_does
    | exact subParts_of (by decide) hp | with_reducible apply does_fold | simp only [does_mk]
    | with_reducible refine moves_intro ?_ rfl ?_
    | ((with_reducible refine only_intro ?_); intro p hc; cases p <;> first
        | exact (clash hp (by decide) hc).elim | dsimp only [Same])
    | intro _ | split | with_reducible apply does_ite | with_reducible apply does_fst (by assumption) | dsimp only

theorem facetWrite_does {pz : List Part} {s₀ : State} {f : Nat} {off : Nat} {v : U64} {s : State} (h_s : Does pz s₀ s)
    (hp : subParts [.free, .out, .mem, .facets, .qps, .zrt, .mirror, .fab, .xlt, .memc, .pcx, .mov, .cip, .trust,
    .eth, .pwr] pz = true) : Does pz s₀ (facetWrite f off v s) := by
  unfold facetWrite
  try dsimp only
  repeat' first
    | with_reducible assumption | with_reducible apply attWrite_does | with_reducible apply cipWrite_does
    | with_reducible apply movWrite_does | with_reducible apply queWrite_does | with_reducible apply xltWrite_does
    | with_reducible apply zrtWrite_does | exact subParts_of (by decide) hp | with_reducible apply does_fold
    | simp only [does_mk] | with_reducible refine moves_intro ?_ rfl ?_
    | ((with_reducible refine only_intro ?_); intro p hc; cases p <;> first
        | exact (clash hp (by decide) hc).elim | dsimp only [Same])
    | intro _ | split | with_reducible apply does_ite | with_reducible apply does_fst (by assumption) | dsimp only

theorem writeHold_does {pz : List Part} {s₀ : State} {v : U32} {s : State} (h_s : Does pz s₀ s) (hp : subParts [.out,
    .prism, .fab, .pwr] pz = true) : Does pz s₀ (writeHold v s) := by
  unfold writeHold
  try dsimp only
  repeat' first
    | with_reducible assumption | with_reducible apply noteBusy_does | with_reducible apply restWake_does
    | exact subParts_of (by decide) hp | with_reducible apply does_fold | simp only [does_mk]
    | with_reducible refine moves_intro ?_ rfl ?_
    | ((with_reducible refine only_intro ?_); intro p hc; cases p <;> first
        | exact (clash hp (by decide) hc).elim | dsimp only [Same])
    | intro _ | split | with_reducible apply does_ite | with_reducible apply does_fst (by assumption) | dsimp only

theorem writePin_does {pz : List Part} {s₀ : State} {n : Nat} {v : U64} {s : State} (h_s : Does pz s₀ s) (hp :
    subParts [.mov] pz = true) : Does pz s₀ (writePin n v s) := by
  unfold writePin
  try dsimp only
  repeat' first
    | with_reducible assumption | exact subParts_of (by decide) hp | with_reducible apply does_fold
    | simp only [does_mk] | with_reducible refine moves_intro ?_ rfl ?_
    | ((with_reducible refine only_intro ?_); intro p hc; cases p <;> first
        | exact (clash hp (by decide) hc).elim | dsimp only [Same])
    | intro _ | split | with_reducible apply does_ite | with_reducible apply does_fst (by assumption) | dsimp only

theorem writeRaw_does {pz : List Part} {s₀ : State} {v : U64} {s : State} (h_s : Does pz s₀ s) (hp : subParts [.eth]
    pz = true) : Does pz s₀ (writeRaw v s) := by
  unfold writeRaw
  try dsimp only
  repeat' first
    | with_reducible assumption | exact subParts_of (by decide) hp | with_reducible apply does_fold
    | simp only [does_mk] | with_reducible refine moves_intro ?_ rfl ?_
    | ((with_reducible refine only_intro ?_); intro p hc; cases p <;> first
        | exact (clash hp (by decide) hc).elim | dsimp only [Same])
    | intro _ | split | with_reducible apply does_ite | with_reducible apply does_fst (by assumption) | dsimp only

theorem clearLog_does {pz : List Part} {s₀ : State} {s : State} (h_s : Does pz s₀ s) (hp : subParts [.prism] pz =
    true) : Does pz s₀ (clearLog s) := by
  unfold clearLog
  try dsimp only
  repeat' first
    | with_reducible assumption | exact subParts_of (by decide) hp | with_reducible apply does_fold
    | simp only [does_mk] | with_reducible refine moves_intro ?_ rfl ?_
    | ((with_reducible refine only_intro ?_); intro p hc; cases p <;> first
        | exact (clash hp (by decide) hc).elim | dsimp only [Same])
    | intro _ | split | with_reducible apply does_ite | with_reducible apply does_fst (by assumption) | dsimp only

theorem clearErr_does {pz : List Part} {s₀ : State} {s : State} (h_s : Does pz s₀ s) (hp : subParts [.mov] pz = true)
    : Does pz s₀ (clearErr s) := by
  unfold clearErr
  try dsimp only
  repeat' first
    | with_reducible assumption | exact subParts_of (by decide) hp | with_reducible apply does_fold
    | simp only [does_mk] | with_reducible refine moves_intro ?_ rfl ?_
    | ((with_reducible refine only_intro ?_); intro p hc; cases p <;> first
        | exact (clash hp (by decide) hc).elim | dsimp only [Same])
    | intro _ | split | with_reducible apply does_ite | with_reducible apply does_fst (by assumption) | dsimp only

theorem devWrite_does {pz : List Part} {s₀ : State} {off : Nat} {v : U64} {s : State} (h_s : Does pz s₀ s) (hp :
    subParts [.free, .out, .mem, .facets, .arb, .qps, .zrt, .mirror, .groups, .grp, .prism, .fab, .xlt, .memc, .pcx,
    .mov, .cip, .trust, .eth, .agl, .err, .boot, .pwr] pz = true) : Does pz s₀ (devWrite off v s) := by
  unfold devWrite
  try dsimp only
  repeat' first
    | with_reducible assumption | with_reducible apply abortMover_does | with_reducible apply clearErr_does
    | with_reducible apply clearLog_does | with_reducible apply extendM_does | with_reducible apply linkDown_does
    | with_reducible apply resendLost_does | with_reducible apply resumeFault_does
    | with_reducible apply resumeMover_does | with_reducible apply writeAglSel_does
    | with_reducible apply writeFltArm_does | with_reducible apply writeFltCfg_does
    | with_reducible apply writeFltCons_does | with_reducible apply writeForce_does
    | with_reducible apply writeHold_does | with_reducible apply writePin_does | with_reducible apply writeRaw_does
    | with_reducible apply does_when | exact subParts_of (by decide) hp | with_reducible apply does_fold
    | simp only [does_mk] | with_reducible refine moves_intro ?_ rfl ?_
    | ((with_reducible refine only_intro ?_); intro p hc; cases p <;> first
        | exact (clash hp (by decide) hc).elim | dsimp only [Same])
    | intro _ | split | with_reducible apply does_ite | with_reducible apply does_fst (by assumption) | dsimp only

theorem writeWhole_does {pz : List Part} {s₀ : State} {f : Nat} {off : Nat} {v : U64} {s : State} (h_s : Does pz s₀ s)
    (hp : subParts [.free, .out, .mem, .regs, .facets, .arb, .qps, .zrt, .mirror, .groups, .grp, .prism, .fab, .xlt,
    .memc, .pcx, .mov, .cip, .trust, .eth, .agl, .err, .boot, .pwr] pz = true) : Does pz s₀ (writeWhole f off v s) :=
    by
  unfold writeWhole
  try dsimp only
  repeat' first
    | with_reducible assumption | with_reducible apply devWrite_does | with_reducible apply facetWrite_does
    | with_reducible apply fileWrite_does | exact subParts_of (by decide) hp | with_reducible apply does_fold
    | simp only [does_mk] | with_reducible refine moves_intro ?_ rfl ?_
    | ((with_reducible refine only_intro ?_); intro p hc; cases p <;> first
        | exact (clash hp (by decide) hc).elim | dsimp only [Same])
    | intro _ | split | with_reducible apply does_ite | with_reducible apply does_fst (by assumption) | dsimp only

theorem write32_does {pz : List Part} {s₀ : State} {f : Nat} {off : Nat} {v : U64} {s : State} (h_s : Does pz s₀ s)
    (hp : subParts [.free, .out, .mem, .regs, .facets, .arb, .qps, .zrt, .mirror, .groups, .grp, .prism, .fab, .xlt,
    .memc, .pcx, .mov, .cip, .trust, .eth, .agl, .err, .boot, .pwr] pz = true) : Does pz s₀ (write32 f off v s) := by
  unfold write32
  try dsimp only
  repeat' first
    | with_reducible assumption | with_reducible apply queWrite_does | with_reducible apply writeWhole_does
    | with_reducible apply does_when | exact subParts_of (by decide) hp | with_reducible apply does_fold
    | simp only [does_mk] | with_reducible refine moves_intro ?_ rfl ?_
    | ((with_reducible refine only_intro ?_); intro p hc; cases p <;> first
        | exact (clash hp (by decide) hc).elim | dsimp only [Same])
    | intro _ | split | with_reducible apply does_ite | with_reducible apply does_fst (by assumption) | dsimp only

theorem writeReg_does {pz : List Part} {s₀ : State} {f : Nat} {off : Nat} {width : Nat} {v : U64} {s : State} (h_s :
    Does pz s₀ s) (hp : subParts [.free, .out, .mem, .regs, .facets, .arb, .qps, .zrt, .mirror, .groups, .grp, .prism,
    .fab, .xlt, .memc, .pcx, .mov, .cip, .trust, .eth, .agl, .err, .boot, .pwr] pz = true) : Does pz s₀ (writeReg f
    off width v s) := by
  unfold writeReg
  try dsimp only
  repeat' first
    | with_reducible assumption | with_reducible apply write32_does | with_reducible apply writeWhole_does
    | with_reducible apply does_when | exact subParts_of (by decide) hp | with_reducible apply does_fold
    | simp only [does_mk] | with_reducible refine moves_intro ?_ rfl ?_
    | ((with_reducible refine only_intro ?_); intro p hc; cases p <;> first
        | exact (clash hp (by decide) hc).elim | dsimp only [Same])
    | intro _ | split | with_reducible apply does_ite | with_reducible apply does_fst (by assumption) | dsimp only

end Sys2Proof.Machine
end

