-- ==== Sys2Proof/Laws/DumpFrame.lean ====
section
/-!
SUPPORT. What each operation of Machine/Dump.lean may change: one lemma per operation.
-/
set_option linter.unusedTactic false
set_option linter.unreachableTactic false
set_option linter.unusedSimpArgs false
set_option linter.unusedVariables false

namespace Sys2Proof.Machine

theorem memClear_wf {m : List Host.Cell} (a n : Nat) (h : memWf m = true) : memWf (memClear a n m) = true := filter_wf _ h

theorem writeSection_wf {m : List Host.Cell} (b : Nat) (x : Section) (h : memWf m = true) :
    memWf (writeSection b m x) = true := by
  unfold writeSection
  generalize x.pieces = l
  have h' := memClear_wf (b + x.off) x.size h
  generalize memClear (b + x.off) x.size m = m' at h'
  induction l generalizing m' with
  | nil => exact h'
  | cons p l ih => exact ih _ (memWrite_wf _ _ h')

theorem dumpMem_wf {s : State} (h : memWf s.mem = true) : memWf (dumpMem s) = true := by
  unfold dumpMem
  refine memWrite_wf _ _ (memClear_wf _ _ ?_)
  have hm : memWf (if dumpByFirmware s then memClear (s.memc.regions.getD 3 0) 0x4000000 s.mem else s.mem) = true := by
    split
    · exact memClear_wf _ _ h
    · exact h
  generalize (if dumpByFirmware s then memClear (s.memc.regions.getD 3 0) 0x4000000 s.mem else s.mem) = m at hm
  generalize dumpSections (dumpByFirmware s) s = l
  induction l generalizing m with
  | nil => exact hm
  | cons x l ih => exact ih _ (writeSection_wf _ _ hm)

theorem does_mem {pz : List Part} {s₀ x : State} {m : List Host.Cell} {k : Nat} (h : Does pz s₀ x)
    (hp : subParts [.mem, .free] pz = true) (hm : memWf x.mem = true → memWf m = true) :
    Does pz s₀ { x with mem := m, free := k } := by
  refine does_trans h ⟨fun p hc => ?_, hm⟩
  cases p <;> first | exact (clash hp (by decide) hc).elim | dsimp only [Same]

theorem dumpWritten_does {pz : List Part} {s₀ : State} {s : State} (h_s : Does pz s₀ s)
    (hp : subParts [.free, .mem, .memc, .agl, .err] pz = true) : Does pz s₀ (dumpWritten s) := by
  unfold dumpWritten
  split
  · exact h_s
  · have h1 : ∀ n, Does pz s₀ (clearPoison (s.memc.regions.getD 3 0) n { s with mem := dumpMem s, free := s.free + 1 }) :=
      fun n => clearPoison_does (does_mem h_s (subParts_of (by decide) hp) dumpMem_wf) (subParts_of (by decide) hp)
    dsimp only
    generalize hx : clearPoison _ _ _ = x
    have h2 : Does pz s₀ x := hx ▸ h1 _
    have h3 : Does pz s₀ (infoEvent 6 0 0 0 { x with err := { x.err with dumpDone := true } }) := by
      refine infoEvent_does ?_ (subParts_of (by decide) hp)
      exact does_err h2 (subParts_of (by decide) hp)
    generalize infoEvent 6 0 0 0 { x with err := { x.err with dumpDone := true } } = y at h3 ⊢
    split
    · exact does_err h3 (subParts_of (by decide) hp)
    · exact h3

theorem hostCopyDone_does {pz : List Part} {s₀ : State} {ok : Bool} {s : State} (h_s : Does pz s₀ s) (hp : subParts
    [.out, .mem, .memc, .agl, .err] pz = true) : Does pz s₀ (hostCopyDone ok s) := by
  unfold hostCopyDone
  try dsimp only
  repeat' first
    | with_reducible assumption | with_reducible apply emit_does | with_reducible apply infoEvent_does
    | with_reducible apply memStore_does | exact subParts_of (by decide) hp | with_reducible apply does_fold
    | simp only [does_mk] | with_reducible refine moves_intro ?_ rfl ?_
    | ((with_reducible refine only_intro ?_); intro p hc; cases p <;> first
        | exact (clash hp (by decide) hc).elim | dsimp only [Same])
    | intro _ | split | with_reducible apply does_ite | with_reducible apply does_fst (by assumption) | dsimp only

end Sys2Proof.Machine
end

