-- ==== Sys2Proof/Laws/LossFrame.lean ====
section
/-!
SUPPORT. What each operation of Machine/Loss.lean may change: one lemma per operation.
-/
set_option linter.unusedTactic false
set_option linter.unreachableTactic false
set_option linter.unusedSimpArgs false
set_option linter.unusedVariables false

namespace Sys2Proof.Machine

theorem perstPins_does {pz : List Part} {s₀ : State} {high : Bool} {s : State} (h_s : Does pz s₀ s) (hp : subParts
    [.out] pz = true) : Does pz s₀ (perstPins high s) := by
  unfold perstPins
  try dsimp only
  repeat' first
    | with_reducible assumption | with_reducible apply emits_does | exact subParts_of (by decide) hp
    | with_reducible apply does_fold | simp only [does_mk] | with_reducible refine moves_intro ?_ rfl ?_
    | ((with_reducible refine only_intro ?_); intro p hc; cases p <;> first
        | exact (clash hp (by decide) hc).elim | dsimp only [Same])
    | intro _ | split | with_reducible apply does_ite | with_reducible apply does_fst (by assumption) | dsimp only

theorem resetPins_does {pz : List Part} {s₀ : State} {perst : Bool} {s : State} (h_s : Does pz s₀ s) (hp : subParts
    [.out] pz = true) : Does pz s₀ (resetPins perst s) := by
  unfold resetPins
  try dsimp only
  repeat' first
    | with_reducible assumption | with_reducible apply emit_does | with_reducible apply perstPins_does
    | exact subParts_of (by decide) hp | with_reducible apply does_fold | simp only [does_mk]
    | with_reducible refine moves_intro ?_ rfl ?_
    | ((with_reducible refine only_intro ?_); intro p hc; cases p <;> first
        | exact (clash hp (by decide) hc).elim | dsimp only [Same])
    | intro _ | split | with_reducible apply does_ite | with_reducible apply does_fst (by assumption) | dsimp only

theorem coldLoss_does {pz : List Part} {s₀ : State} {s : State} (h_s : Does pz s₀ s)
    (hp : subParts [.now, .out, .mem, .regs, .facets, .arb, .qps, .zrt, .wheel, .mirror, .groups, .grp, .prism, .fab, .xlt, .memc,
      .pcx, .mov, .cip, .trust, .eth, .agl, .err, .boot, .pwr, .thm] pz = true) :
    Does pz s₀ (coldLoss s) := by
  refine does_trans (resetPins_does (perst := true) h_s (subParts_of (by decide) hp)) ⟨fun p hc => ?_, fun _ => memWf_nil⟩
  cases p <;> first | exact (clash hp (by decide) hc).elim | rfl

theorem dumpOnly_wf {s : State} (h : memWf s.mem = true) : memWf (dumpOnly s) = true := by
  unfold dumpOnly
  dsimp only
  split
  · decide
  · exact filter_wf _ h

theorem umbraLoss_does {pz : List Part} {s₀ : State} {s : State} (h_s : Does pz s₀ s)
    (hp : subParts [.now, .out, .mem, .regs, .facets, .arb, .qps, .zrt, .wheel, .mirror, .groups, .grp, .prism, .fab, .xlt, .memc,
      .pcx, .mov, .cip, .trust, .eth, .agl, .err, .boot, .pwr, .thm] pz = true) :
    Does pz s₀ (umbraLoss s) := by
  refine does_trans h_s ⟨fun p hc => ?_, fun w => dumpOnly_wf w⟩
  have h := (coldLoss_does (does_refl pz s) hp).only p hc
  cases p <;> first | exact (clash hp (by decide) hc).elim | exact h

theorem warmLoss_does {pz : List Part} {s₀ : State} {s : State} (h_s : Does pz s₀ s) (hp : subParts [.out, .regs,
    .facets, .arb, .qps, .zrt, .wheel, .mirror, .grp, .prism, .fab, .xlt, .memc, .pcx, .mov, .cip, .trust, .eth, .agl,
    .err, .boot, .pwr, .thm] pz = true) : Does pz s₀ (warmLoss s) := by
  unfold warmLoss
  try dsimp only
  repeat' first
    | with_reducible assumption | with_reducible apply resetPins_does | exact subParts_of (by decide) hp
    | with_reducible apply does_fold | simp only [does_mk] | with_reducible refine moves_intro ?_ rfl ?_
    | ((with_reducible refine only_intro ?_); intro p hc; cases p <;> first
        | exact (clash hp (by decide) hc).elim | dsimp only [Same])
    | intro _ | split | with_reducible apply does_ite | with_reducible apply does_fst (by assumption) | dsimp only

theorem redone_does {pz : List Part} {s₀ : State} {f : Nat} {rq : Bool} {q : Nat} {s : State} {i : Item} (h_s : Does
    pz s₀ s) (hp : subParts [.mem, .facets, .mirror, .memc, .pcx] pz = true) : Does pz s₀ (redone f rq q s i) := by
  unfold redone
  try dsimp only
  repeat' first
    | with_reducible assumption | with_reducible apply mirrorIssue_does | with_reducible apply postPin_does
    | exact subParts_of (by decide) hp | with_reducible apply does_fold | simp only [does_mk]
    | with_reducible refine moves_intro ?_ rfl ?_
    | ((with_reducible refine only_intro ?_); intro p hc; cases p <;> first
        | exact (clash hp (by decide) hc).elim | dsimp only [Same])
    | intro _ | split | with_reducible apply does_ite | with_reducible apply does_fst (by assumption) | dsimp only

theorem restoreQueue_does {pz : List Part} {s₀ : State} {f : Nat} {rq : Bool} {s : State} {q : Nat} (h_s : Does pz s₀
    s) (hp : subParts [.mem, .facets, .mirror, .memc, .pcx] pz = true) : Does pz s₀ (restoreQueue f rq s q) := by
  unfold restoreQueue
  try dsimp only
  repeat' first
    | with_reducible assumption | with_reducible apply modQ_does | with_reducible apply redone_does
    | with_reducible apply writeRecord_does | exact subParts_of (by decide) hp | with_reducible apply does_fold
    | simp only [does_mk] | with_reducible refine moves_intro ?_ rfl ?_
    | ((with_reducible refine only_intro ?_); intro p hc; cases p <;> first
        | exact (clash hp (by decide) hc).elim | dsimp only [Same])
    | intro _ | split | with_reducible apply does_ite | with_reducible apply does_fst (by assumption) | dsimp only

theorem restoreFacet_does {pz : List Part} {s₀ : State} {s : State} {f : Nat} (h_s : Does pz s₀ s) (hp : subParts
    [.mem, .facets, .mirror, .memc, .pcx] pz = true) : Does pz s₀ (restoreFacet s f) := by
  unfold restoreFacet
  try dsimp only
  repeat' first
    | with_reducible assumption | with_reducible apply restoreQueue_does | exact subParts_of (by decide) hp
    | with_reducible apply does_fold | simp only [does_mk] | with_reducible refine moves_intro ?_ rfl ?_
    | ((with_reducible refine only_intro ?_); intro p hc; cases p <;> first
        | exact (clash hp (by decide) hc).elim | dsimp only [Same])
    | intro _ | split | with_reducible apply does_ite | with_reducible apply does_fst (by assumption) | dsimp only

theorem restoreGroup_does {pz : List Part} {s₀ : State} {s : State} {gid : Nat} (h_s : Does pz s₀ s) (hp : subParts
    [.free, .out, .mem, .facets, .arb, .mirror, .groups, .grp, .prism, .fab, .xlt, .memc, .pcx, .eth, .pwr] pz = true)
    : Does pz s₀ (restoreGroup s gid) := by
  unfold restoreGroup
  try dsimp only
  repeat' first
    | with_reducible assumption | with_reducible apply askRollback_does | with_reducible apply modG_does
    | exact subParts_of (by decide) hp | with_reducible apply does_fold | simp only [does_mk]
    | with_reducible refine moves_intro ?_ rfl ?_
    | ((with_reducible refine only_intro ?_); intro p hc; cases p <;> first
        | exact (clash hp (by decide) hc).elim | dsimp only [Same])
    | intro _ | split | with_reducible apply does_ite | with_reducible apply does_fst (by assumption) | dsimp only

theorem restoreAll_does {pz : List Part} {s₀ : State} {s : State} (h_s : Does pz s₀ s) (hp : subParts [.free, .out,
    .mem, .facets, .arb, .qps, .zrt, .mirror, .groups, .grp, .prism, .fab, .xlt, .memc, .pcx, .eth, .pwr] pz = true) :
    Does pz s₀ (restoreAll s) := by
  unfold restoreAll
  try dsimp only
  repeat' first
    | with_reducible assumption | with_reducible apply restoreFacet_does | with_reducible apply restoreGroup_does
    | with_reducible apply restoreQp_does | with_reducible apply settle_does | exact subParts_of (by decide) hp
    | with_reducible apply does_fold | simp only [does_mk] | with_reducible refine moves_intro ?_ rfl ?_
    | ((with_reducible refine only_intro ?_); intro p hc; cases p <;> first
        | exact (clash hp (by decide) hc).elim | dsimp only [Same])
    | intro _ | split | with_reducible apply does_ite | with_reducible apply does_fst (by assumption) | dsimp only

end Sys2Proof.Machine
end

