-- ==== Sys2Proof/Laws/ImageFrame.lean ====
section
/-!
SUPPORT. What each operation of Machine/Image.lean may change: one lemma per operation.
-/
set_option linter.unusedTactic false
set_option linter.unreachableTactic false
set_option linter.unusedSimpArgs false
set_option linter.unusedVariables false

namespace Sys2Proof.Machine

theorem layMemory_does {pz : List Part} {s₀ : State} {info : BootInfo} {m : MemSection} {s : State} (h_s : Does pz s₀
    s) (hp : subParts [.grp, .memc] pz = true) : Does pz s₀ (layMemory info m s) := by
  unfold layMemory
  try dsimp only
  repeat' first
    | with_reducible assumption | exact subParts_of (by decide) hp | with_reducible apply does_fold
    | simp only [does_mk] | with_reducible refine moves_intro ?_ rfl ?_
    | ((with_reducible refine only_intro ?_); intro p hc; cases p <;> first
        | exact (clash hp (by decide) hc).elim | dsimp only [Same])
    | intro _ | split | with_reducible apply does_ite | with_reducible apply does_fst (by assumption) | dsimp only

theorem applyFacets_does {pz : List Part} {s₀ : State} {im : Image} {s : State} (h_s : Does pz s₀ s) (hp : subParts
    [.out, .facets, .arb, .fab, .eth, .pwr] pz = true) : Does pz s₀ (applyFacets im s) := by
  unfold applyFacets
  try dsimp only
  repeat' first
    | with_reducible assumption | with_reducible apply applyRecord_does | exact subParts_of (by decide) hp
    | with_reducible apply does_fold | simp only [does_mk] | with_reducible refine moves_intro ?_ rfl ?_
    | ((with_reducible refine only_intro ?_); intro p hc; cases p <;> first
        | exact (clash hp (by decide) hc).elim | dsimp only [Same])
    | intro _ | split | with_reducible apply does_ite | with_reducible apply does_fst (by assumption) | dsimp only

theorem applyRegs_does {pz : List Part} {s₀ : State} {im : Image} {s : State} (h_s : Does pz s₀ s) (hp : subParts
    [.free, .out, .mem, .regs, .facets, .arb, .qps, .zrt, .mirror, .groups, .grp, .prism, .fab, .xlt, .memc, .pcx,
    .mov, .cip, .trust, .eth, .agl, .err, .boot, .pwr] pz = true) : Does pz s₀ (applyRegs im s) := by
  unfold applyRegs
  try dsimp only
  repeat' first
    | with_reducible assumption | with_reducible apply writeReg_does | exact subParts_of (by decide) hp
    | with_reducible apply does_fold | simp only [does_mk] | with_reducible refine moves_intro ?_ rfl ?_
    | ((with_reducible refine only_intro ?_); intro p hc; cases p <;> first
        | exact (clash hp (by decide) hc).elim | dsimp only [Same])
    | intro _ | split | with_reducible apply does_ite | with_reducible apply does_fst (by assumption) | dsimp only

theorem applyThermal_does {pz : List Part} {s₀ : State} {im : Image} {s : State} (h_s : Does pz s₀ s) (hp : subParts
    [.regs] pz = true) : Does pz s₀ (applyThermal im s) := by
  unfold applyThermal
  try dsimp only
  repeat' first
    | with_reducible assumption | with_reducible apply fileWrite_does | exact subParts_of (by decide) hp
    | with_reducible apply does_fold | simp only [does_mk] | with_reducible refine moves_intro ?_ rfl ?_
    | ((with_reducible refine only_intro ?_); intro p hc; cases p <;> first
        | exact (clash hp (by decide) hc).elim | dsimp only [Same])
    | intro _ | split | with_reducible apply does_ite | with_reducible apply does_fst (by assumption) | dsimp only

end Sys2Proof.Machine
end

