-- ==== Sys2Proof/Laws/BootFrame.lean ====
section
/-!
SUPPORT. What each operation of Machine/Boot.lean may change: one lemma per operation.
-/
set_option linter.unusedTactic false
set_option linter.unreachableTactic false
set_option linter.unusedSimpArgs false
set_option linter.unusedVariables false

namespace Sys2Proof.Machine

theorem leaveReset_does {pz : List Part} {s₀ : State} {s : State} (h_s : Does pz s₀ s) (hp : subParts [.boot] pz =
    true) : Does pz s₀ (leaveReset s) := by
  unfold leaveReset
  try dsimp only
  repeat' first
    | with_reducible assumption | exact subParts_of (by decide) hp | with_reducible apply does_fold
    | simp only [does_mk] | with_reducible refine moves_intro ?_ rfl ?_
    | ((with_reducible refine only_intro ?_); intro p hc; cases p <;> first
        | exact (clash hp (by decide) hc).elim | dsimp only [Same])
    | intro _ | split | with_reducible apply does_ite | with_reducible apply does_fst (by assumption) | dsimp only

theorem coldReset_does {pz : List Part} {s₀ : State} {s : State} (h_s : Does pz s₀ s) (hp : subParts [.now, .out,
    .mem, .regs, .facets, .arb, .qps, .zrt, .wheel, .mirror, .groups, .grp, .prism, .fab, .xlt, .memc, .pcx, .mov,
    .cip, .trust, .eth, .agl, .err, .boot, .pwr, .thm] pz = true) : Does pz s₀ (coldReset s) := by
  unfold coldReset
  try dsimp only
  repeat' first
    | with_reducible assumption | with_reducible apply coldLoss_does | with_reducible apply leaveReset_does
    | exact subParts_of (by decide) hp | with_reducible apply does_fold | simp only [does_mk]
    | with_reducible refine moves_intro ?_ rfl ?_
    | ((with_reducible refine only_intro ?_); intro p hc; cases p <;> first
        | exact (clash hp (by decide) hc).elim | dsimp only [Same])
    | intro _ | split | with_reducible apply does_ite | with_reducible apply does_fst (by assumption) | dsimp only

theorem umbraReset_does {pz : List Part} {s₀ : State} {s : State} (h_s : Does pz s₀ s) (hp : subParts [.now, .out,
    .mem, .regs, .facets, .arb, .qps, .zrt, .wheel, .mirror, .groups, .grp, .prism, .fab, .xlt, .memc, .pcx, .mov,
    .cip, .trust, .eth, .agl, .err, .boot, .pwr, .thm] pz = true) : Does pz s₀ (umbraReset s) := by
  unfold umbraReset
  try dsimp only
  repeat' first
    | with_reducible assumption | with_reducible apply leaveReset_does | with_reducible apply umbraLoss_does
    | exact subParts_of (by decide) hp | with_reducible apply does_fold | simp only [does_mk]
    | with_reducible refine moves_intro ?_ rfl ?_
    | ((with_reducible refine only_intro ?_); intro p hc; cases p <;> first
        | exact (clash hp (by decide) hc).elim | dsimp only [Same])
    | intro _ | split | with_reducible apply does_ite | with_reducible apply does_fst (by assumption) | dsimp only

theorem warmBegin_does {pz : List Part} {s₀ : State} {s : State} (h_s : Does pz s₀ s) (hp : subParts [.out, .regs,
    .facets, .arb, .qps, .zrt, .wheel, .mirror, .grp, .prism, .fab, .xlt, .memc, .pcx, .mov, .cip, .trust, .eth, .agl,
    .err, .boot, .pwr, .thm] pz = true) : Does pz s₀ (warmBegin s) := by
  unfold warmBegin
  try dsimp only
  repeat' first
    | with_reducible assumption | with_reducible apply leaveReset_does | with_reducible apply warmLoss_does
    | exact subParts_of (by decide) hp | with_reducible apply does_fold | simp only [does_mk]
    | with_reducible refine moves_intro ?_ rfl ?_
    | ((with_reducible refine only_intro ?_); intro p hc; cases p <;> first
        | exact (clash hp (by decide) hc).elim | dsimp only [Same])
    | intro _ | split | with_reducible apply does_ite | with_reducible apply does_fst (by assumption) | dsimp only

theorem warmInUmbra_does {pz : List Part} {s₀ : State} {s : State} (h_s : Does pz s₀ s) (hp : subParts [.now, .out,
    .mem, .regs, .facets, .arb, .qps, .zrt, .wheel, .mirror, .groups, .grp, .prism, .fab, .xlt, .memc, .pcx, .mov,
    .cip, .trust, .eth, .agl, .err, .boot, .pwr, .thm] pz = true) : Does pz s₀ (warmInUmbra s) := by
  unfold warmInUmbra
  try dsimp only
  repeat' first
    | with_reducible assumption | with_reducible apply umbraReset_does | exact subParts_of (by decide) hp
    | with_reducible apply does_fold | simp only [does_mk] | with_reducible refine moves_intro ?_ rfl ?_
    | ((with_reducible refine only_intro ?_); intro p hc; cases p <;> first
        | exact (clash hp (by decide) hc).elim | dsimp only [Same])
    | intro _ | split | with_reducible apply does_ite | with_reducible apply does_fst (by assumption) | dsimp only

theorem deviceResetDue_does {pz : List Part} {s₀ : State} {s : State} (h_s : Does pz s₀ s) (hp : subParts [.now, .out,
    .mem, .regs, .facets, .arb, .qps, .zrt, .wheel, .mirror, .groups, .grp, .prism, .fab, .xlt, .memc, .pcx, .mov,
    .cip, .trust, .eth, .agl, .err, .boot, .pwr, .thm] pz = true) : Does pz s₀ (deviceResetDue s) := by
  unfold deviceResetDue
  try dsimp only
  repeat' first
    | with_reducible assumption | with_reducible apply coldReset_does | with_reducible apply warmBegin_does
    | exact subParts_of (by decide) hp | with_reducible apply does_fold | simp only [does_mk]
    | with_reducible refine moves_intro ?_ rfl ?_
    | ((with_reducible refine only_intro ?_); intro p hc; cases p <;> first
        | exact (clash hp (by decide) hc).elim | dsimp only [Same])
    | intro _ | split | with_reducible apply does_ite | with_reducible apply does_fst (by assumption) | dsimp only

theorem deviceReset_does {pz : List Part} {s₀ : State} {q : Nat} {i : Item} {s : State} (h_s : Does pz s₀ s) (hp :
    subParts [.mem, .facets, .mirror, .memc, .pcx, .boot] pz = true) : Does pz s₀ (deviceReset q i s) := by
  unfold deviceReset
  try dsimp only
  repeat' first
    | with_reducible assumption | with_reducible apply completeItem_does | exact subParts_of (by decide) hp
    | with_reducible apply does_fold | simp only [does_mk] | with_reducible refine moves_intro ?_ rfl ?_
    | ((with_reducible refine only_intro ?_); intro p hc; cases p <;> first
        | exact (clash hp (by decide) hc).elim | dsimp only [Same])
    | intro _ | split | with_reducible apply does_ite | with_reducible apply does_fst (by assumption) | dsimp only

theorem flushBack_does {pz : List Part} {s₀ : State} {port : Nat} {halfB : Bool} {s : State} (h_s : Does pz s₀ s) (hp
    : subParts [.now, .free, .out, .mem, .regs, .facets, .arb, .qps, .zrt, .wheel, .mirror, .groups, .grp, .prism,
    .fab, .xlt, .memc, .pcx, .mov, .cip, .trust, .eth, .agl, .err, .boot, .pwr, .thm] pz = true) : Does pz s₀
    (flushBack port halfB s) := by
  unfold flushBack
  try dsimp only
  repeat' first
    | with_reducible assumption | with_reducible apply countReadError_does | with_reducible apply deviceResetDue_does
    | with_reducible apply dropInjection_does | with_reducible apply flushFailed_does
    | with_reducible apply flushReturned_does | exact subParts_of (by decide) hp | with_reducible apply does_fold
    | simp only [does_mk] | with_reducible refine moves_intro ?_ rfl ?_
    | ((with_reducible refine only_intro ?_); intro p hc; cases p <;> first
        | exact (clash hp (by decide) hc).elim | dsimp only [Same])
    | intro _ | split | with_reducible apply does_ite | with_reducible apply does_fst (by assumption) | dsimp only

theorem memComplete_does {pz : List Part} {s₀ : State} {s : State} (h_s : Does pz s₀ s) (hp : subParts [.now, .free,
    .out, .mem, .regs, .facets, .arb, .qps, .zrt, .wheel, .mirror, .groups, .grp, .prism, .fab, .xlt, .memc, .pcx,
    .mov, .cip, .trust, .eth, .agl, .err, .boot, .pwr, .thm] pz = true) : Does pz s₀ (memComplete s) := by
  unfold memComplete
  try dsimp only
  repeat' first
    | with_reducible assumption | with_reducible apply confirmAll_does | with_reducible apply deviceResetDue_does
    | with_reducible apply modP_does | exact subParts_of (by decide) hp | with_reducible apply does_fold
    | simp only [does_mk] | with_reducible refine moves_intro ?_ rfl ?_
    | ((with_reducible refine only_intro ?_); intro p hc; cases p <;> first
        | exact (clash hp (by decide) hc).elim | dsimp only [Same])
    | intro _ | split | with_reducible apply does_ite | with_reducible apply does_fst (by assumption) | dsimp only

theorem bootHold_does {pz : List Part} {s₀ : State} {why : Nat} {s : State} (h_s : Does pz s₀ s) (hp : subParts [.out,
    .boot] pz = true) : Does pz s₀ (bootHold why s) := by
  unfold bootHold
  try dsimp only
  repeat' first
    | with_reducible assumption | with_reducible apply emit_does | exact subParts_of (by decide) hp
    | with_reducible apply does_fold | simp only [does_mk] | with_reducible refine moves_intro ?_ rfl ?_
    | ((with_reducible refine only_intro ?_); intro p hc; cases p <;> first
        | exact (clash hp (by decide) hc).elim | dsimp only [Same])
    | intro _ | split | with_reducible apply does_ite | with_reducible apply does_fst (by assumption) | dsimp only

theorem toStage_does {pz : List Part} {s₀ : State} {n : Nat} {s : State} (h_s : Does pz s₀ s) (hp : subParts [.boot]
    pz = true) : Does pz s₀ (toStage n s) := by
  unfold toStage
  try dsimp only
  repeat' first
    | with_reducible assumption | exact subParts_of (by decide) hp | with_reducible apply does_fold
    | simp only [does_mk] | with_reducible refine moves_intro ?_ rfl ?_
    | ((with_reducible refine only_intro ?_); intro p hc; cases p <;> first
        | exact (clash hp (by decide) hc).elim | dsimp only [Same])
    | intro _ | split | with_reducible apply does_ite | with_reducible apply does_fst (by assumption) | dsimp only

theorem stage1_does {pz : List Part} {s₀ : State} {info : BootInfo} {s : State} (h_s : Does pz s₀ s) (hp : subParts
    [.trust, .agl, .err] pz = true) : Does pz s₀ (stage1 info s) := by
  unfold stage1
  try dsimp only
  repeat' first
    | with_reducible assumption | with_reducible apply collect_does | with_reducible apply extendM_does
    | exact subParts_of (by decide) hp | with_reducible apply does_fold | simp only [does_mk]
    | with_reducible refine moves_intro ?_ rfl ?_
    | ((with_reducible refine only_intro ?_); intro p hc; cases p <;> first
        | exact (clash hp (by decide) hc).elim | dsimp only [Same])
    | intro _ | split | with_reducible apply does_ite | with_reducible apply does_fst (by assumption) | dsimp only

theorem stage2_does {pz : List Part} {s₀ : State} {info : BootInfo} {s : State} (h_s : Does pz s₀ s) (hp : subParts
    [.out, .trust, .boot] pz = true) : Does pz s₀ (stage2 info s) := by
  unfold stage2
  try dsimp only
  repeat' first
    | with_reducible assumption | with_reducible apply bootHold_does | with_reducible apply extendM_does
    | with_reducible apply toStage_does | exact subParts_of (by decide) hp | with_reducible apply does_fold
    | simp only [does_mk] | with_reducible refine moves_intro ?_ rfl ?_
    | ((with_reducible refine only_intro ?_); intro p hc; cases p <;> first
        | exact (clash hp (by decide) hc).elim | dsimp only [Same])
    | intro _ | split | with_reducible apply does_ite | with_reducible apply does_fst (by assumption) | dsimp only

theorem stage3_does {pz : List Part} {s₀ : State} {s : State} (h_s : Does pz s₀ s) (hp : subParts [.out, .prism,
    .boot] pz = true) : Does pz s₀ (stage3 s) := by
  unfold stage3
  try dsimp only
  repeat' first
    | with_reducible assumption | with_reducible apply bootHold_does | with_reducible apply emit_does
    | with_reducible apply toStage_does | exact subParts_of (by decide) hp | with_reducible apply does_fold
    | simp only [does_mk] | with_reducible refine moves_intro ?_ rfl ?_
    | ((with_reducible refine only_intro ?_); intro p hc; cases p <;> first
        | exact (clash hp (by decide) hc).elim | dsimp only [Same])
    | intro _ | split | with_reducible apply does_ite | with_reducible apply does_fst (by assumption) | dsimp only

theorem stage4_does {pz : List Part} {s₀ : State} {info : BootInfo} {s : State} (h_s : Does pz s₀ s) (hp : subParts
    [.out, .grp, .memc, .boot] pz = true) : Does pz s₀ (stage4 info s) := by
  unfold stage4
  try dsimp only
  repeat' first
    | with_reducible assumption | with_reducible apply bootHold_does | with_reducible apply layMemory_does
    | with_reducible apply toStage_does | exact subParts_of (by decide) hp | with_reducible apply does_fold
    | simp only [does_mk] | with_reducible refine moves_intro ?_ rfl ?_
    | ((with_reducible refine only_intro ?_); intro p hc; cases p <;> first
        | exact (clash hp (by decide) hc).elim | dsimp only [Same])
    | intro _ | split | with_reducible apply does_ite | with_reducible apply does_fst (by assumption) | dsimp only

theorem restoreSaved_does {pz : List Part} {s₀ : State} {s : State} (h_s : Does pz s₀ s) (hp : subParts [.agl, .err,
    .pwr] pz = true) : Does pz s₀ (restoreSaved s) := by
  unfold restoreSaved
  try dsimp only
  repeat' first
    | with_reducible assumption | exact subParts_of (by decide) hp | with_reducible apply does_fold
    | simp only [does_mk] | with_reducible refine moves_intro ?_ rfl ?_
    | ((with_reducible refine only_intro ?_); intro p hc; cases p <;> first
        | exact (clash hp (by decide) hc).elim | dsimp only [Same])
    | intro _ | split | with_reducible apply does_ite | with_reducible apply does_fst (by assumption) | dsimp only

theorem stage5_does {pz : List Part} {s₀ : State} {s : State} (h_s : Does pz s₀ s) (hp : subParts [.free, .out, .mem,
    .regs, .facets, .arb, .qps, .zrt, .mirror, .groups, .grp, .prism, .fab, .xlt, .memc, .pcx, .mov, .cip, .trust,
    .eth, .agl, .err, .boot, .pwr, .thm] pz = true) : Does pz s₀ (stage5 s) := by
  unfold stage5
  try dsimp only
  repeat' first
    | with_reducible assumption | with_reducible apply applyRegs_does | with_reducible apply applyThermal_does
    | with_reducible apply collect_does | with_reducible apply entropyReady_does
    | with_reducible apply restoreSaved_does | with_reducible apply toStage_does | exact subParts_of (by decide) hp
    | with_reducible apply does_fold | simp only [does_mk] | with_reducible refine moves_intro ?_ rfl ?_
    | ((with_reducible refine only_intro ?_); intro p hc; cases p <;> first
        | exact (clash hp (by decide) hc).elim | dsimp only [Same])
    | intro _ | split | with_reducible apply does_ite | with_reducible apply does_fst (by assumption) | dsimp only

theorem linksDetect_does {pz : List Part} {s₀ : State} {s : State} (h_s : Does pz s₀ s) (hp : subParts [.fab] pz =
    true) : Does pz s₀ (linksDetect s) := by
  unfold linksDetect
  try dsimp only
  repeat' first
    | with_reducible assumption | with_reducible apply linkTo_does | exact subParts_of (by decide) hp
    | with_reducible apply does_fold | simp only [does_mk] | with_reducible refine moves_intro ?_ rfl ?_
    | ((with_reducible refine only_intro ?_); intro p hc; cases p <;> first
        | exact (clash hp (by decide) hc).elim | dsimp only [Same])
    | intro _ | split | with_reducible apply does_ite | with_reducible apply does_fst (by assumption) | dsimp only

theorem stage6_does {pz : List Part} {s₀ : State} {s : State} (h_s : Does pz s₀ s) (hp : subParts [.out, .facets,
    .arb, .fab, .pcx, .eth, .boot, .pwr] pz = true) : Does pz s₀ (stage6 s) := by
  unfold stage6
  try dsimp only
  repeat' first
    | with_reducible assumption | with_reducible apply applyFacets_does | with_reducible apply linksDetect_does
    | with_reducible apply perstPins_does | with_reducible apply toStage_does | exact subParts_of (by decide) hp
    | with_reducible apply does_fold | simp only [does_mk] | with_reducible refine moves_intro ?_ rfl ?_
    | ((with_reducible refine only_intro ?_); intro p hc; cases p <;> first
        | exact (clash hp (by decide) hc).elim | dsimp only [Same])
    | intro _ | split | with_reducible apply does_ite | with_reducible apply does_fst (by assumption) | dsimp only

theorem loadAgent_does {pz : List Part} {s₀ : State} {s : State} {e : AgentEntry} (h_s : Does pz s₀ s) (hp : subParts
    [.mem, .memc, .trust, .boot] pz = true) : Does pz s₀ (loadAgent s e) := by
  unfold loadAgent
  try dsimp only
  repeat' first
    | with_reducible assumption | with_reducible apply copyAgent_does | with_reducible apply extendM_does
    | with_reducible apply modAgent_does | exact subParts_of (by decide) hp | with_reducible apply does_fold
    | simp only [does_mk] | with_reducible refine moves_intro ?_ rfl ?_
    | ((with_reducible refine only_intro ?_); intro p hc; cases p <;> first
        | exact (clash hp (by decide) hc).elim | dsimp only [Same])
    | intro _ | split | with_reducible apply does_ite | with_reducible apply does_fst (by assumption) | dsimp only

theorem stage8_does {pz : List Part} {s₀ : State} {s : State} (h_s : Does pz s₀ s) (hp : subParts [.mem, .memc,
    .trust, .boot] pz = true) : Does pz s₀ (stage8 s) := by
  unfold stage8
  try dsimp only
  repeat' first
    | with_reducible assumption | with_reducible apply loadAgent_does | with_reducible apply toStage_does
    | exact subParts_of (by decide) hp | with_reducible apply does_fold | simp only [does_mk]
    | with_reducible refine moves_intro ?_ rfl ?_
    | ((with_reducible refine only_intro ?_); intro p hc; cases p <;> first
        | exact (clash hp (by decide) hc).elim | dsimp only [Same])
    | intro _ | split | with_reducible apply does_ite | with_reducible apply does_fst (by assumption) | dsimp only

theorem releaseDown_does {pz : List Part} {s₀ : State} {s : State} (h_s : Does pz s₀ s) (hp : subParts [.free, .out,
    .mem, .facets, .arb, .qps, .mirror, .groups, .grp, .prism, .fab, .xlt, .memc, .pcx, .mov, .cip, .eth, .pwr] pz =
    true) : Does pz s₀ (releaseDown s) := by
  unfold releaseDown
  try dsimp only
  repeat' first
    | with_reducible assumption | with_reducible apply modP_does | with_reducible apply releasePort_does
    | exact subParts_of (by decide) hp | with_reducible apply does_fold | simp only [does_mk]
    | with_reducible refine moves_intro ?_ rfl ?_
    | ((with_reducible refine only_intro ?_); intro p hc; cases p <;> first
        | exact (clash hp (by decide) hc).elim | dsimp only [Same])
    | intro _ | split | with_reducible apply does_ite | with_reducible apply does_fst (by assumption) | dsimp only

theorem stage9_does {pz : List Part} {s₀ : State} {s : State} (h_s : Does pz s₀ s) (hp : subParts [.free, .out, .mem,
    .facets, .arb, .qps, .mirror, .groups, .grp, .prism, .fab, .xlt, .memc, .pcx, .mov, .cip, .eth, .agl, .err, .boot,
    .pwr] pz = true) : Does pz s₀ (stage9 s) := by
  unfold stage9
  try dsimp only
  repeat' first
    | with_reducible assumption | with_reducible apply infoEvent_does | with_reducible apply noteBusy_does
    | with_reducible apply releaseDown_does | exact subParts_of (by decide) hp | with_reducible apply does_fold
    | simp only [does_mk] | with_reducible refine moves_intro ?_ rfl ?_
    | ((with_reducible refine only_intro ?_); intro p hc; cases p <;> first
        | exact (clash hp (by decide) hc).elim | dsimp only [Same])
    | intro _ | split | with_reducible apply does_ite | with_reducible apply does_fst (by assumption) | dsimp only

theorem stageDone_does {pz : List Part} {s₀ : State} {info : BootInfo} {s : State} (h_s : Does pz s₀ s) (hp : subParts
    [.free, .out, .mem, .regs, .facets, .arb, .qps, .zrt, .mirror, .groups, .grp, .prism, .fab, .xlt, .memc, .pcx,
    .mov, .cip, .trust, .eth, .agl, .err, .boot, .pwr, .thm] pz = true) : Does pz s₀ (stageDone info s) := by
  unfold stageDone
  try dsimp only
  repeat' first
    | with_reducible assumption | with_reducible apply restoreAll_does | with_reducible apply stage1_does
    | with_reducible apply stage2_does | with_reducible apply stage3_does | with_reducible apply stage4_does
    | with_reducible apply stage5_does | with_reducible apply stage6_does | with_reducible apply stage8_does
    | with_reducible apply stage9_does | with_reducible apply toStage_does | exact subParts_of (by decide) hp
    | with_reducible apply does_fold | simp only [does_mk] | with_reducible refine moves_intro ?_ rfl ?_
    | ((with_reducible refine only_intro ?_); intro p hc; cases p <;> first
        | exact (clash hp (by decide) hc).elim | dsimp only [Same])
    | intro _ | split | with_reducible apply does_ite | with_reducible apply does_fst (by assumption) | dsimp only

end Sys2Proof.Machine
end

