-- ==== Sys2Proof/Laws/PowerFrame.lean ====
section
/-!
SUPPORT. What each operation of Machine/Power.lean may change: one lemma per operation.
-/
set_option linter.unusedTactic false
set_option linter.unreachableTactic false
set_option linter.unusedSimpArgs false
set_option linter.unusedVariables false

namespace Sys2Proof.Machine

theorem command_does {pz : List Part} {s₀ : State} {r : Nat} {on : Bool} {s : State} (h_s : Does pz s₀ s) (hp :
    subParts [.out, .pwr] pz = true) : Does pz s₀ (command r on s) := by
  unfold command
  try dsimp only
  repeat' first
    | with_reducible assumption | with_reducible apply emit_does | exact subParts_of (by decide) hp
    | with_reducible apply does_fold | simp only [does_mk] | with_reducible refine moves_intro ?_ rfl ?_
    | ((with_reducible refine only_intro ?_); intro p hc; cases p <;> first
        | exact (clash hp (by decide) hc).elim | dsimp only [Same])
    | intro _ | split | with_reducible apply does_ite | with_reducible apply does_fst (by assumption) | dsimp only

theorem railDown_does {pz : List Part} {s₀ : State} {s : State} (h_s : Does pz s₀ s) (hp : subParts [.out, .pwr] pz =
    true) : Does pz s₀ (railDown s) := by
  unfold railDown
  try dsimp only
  repeat' first
    | with_reducible assumption | with_reducible apply command_does | exact subParts_of (by decide) hp
    | with_reducible apply does_fold | simp only [does_mk] | with_reducible refine moves_intro ?_ rfl ?_
    | ((with_reducible refine only_intro ?_); intro p hc; cases p <;> first
        | exact (clash hp (by decide) hc).elim | dsimp only [Same])
    | intro _ | split | with_reducible apply does_ite | with_reducible apply does_fst (by assumption) | dsimp only

theorem powerDown_does {pz : List Part} {s₀ : State} {s : State} (h_s : Does pz s₀ s) (hp : subParts [.out, .pwr] pz =
    true) : Does pz s₀ (powerDown s) := by
  unfold powerDown
  try dsimp only
  repeat' first
    | with_reducible assumption | with_reducible apply railDown_does | exact subParts_of (by decide) hp
    | with_reducible apply does_fold | simp only [does_mk] | with_reducible refine moves_intro ?_ rfl ?_
    | ((with_reducible refine only_intro ?_); intro p hc; cases p <;> first
        | exact (clash hp (by decide) hc).elim | dsimp only [Same])
    | intro _ | split | with_reducible apply does_ite | with_reducible apply does_fst (by assumption) | dsimp only

theorem railUp_does {pz : List Part} {s₀ : State} {s : State} (h_s : Does pz s₀ s) (hp : subParts [.out, .boot, .pwr]
    pz = true) : Does pz s₀ (railUp s) := by
  unfold railUp
  try dsimp only
  repeat' first
    | with_reducible assumption | with_reducible apply command_does | with_reducible apply leaveReset_does
    | exact subParts_of (by decide) hp | with_reducible apply does_fold | simp only [does_mk]
    | with_reducible refine moves_intro ?_ rfl ?_
    | ((with_reducible refine only_intro ?_); intro p hc; cases p <;> first
        | exact (clash hp (by decide) hc).elim | dsimp only [Same])
    | intro _ | split | with_reducible apply does_ite | with_reducible apply does_fst (by assumption) | dsimp only

theorem allOff_does {pz : List Part} {s₀ : State} {s : State} (h_s : Does pz s₀ s) (hp : subParts [.out, .pwr] pz =
    true) : Does pz s₀ (allOff s) := by
  unfold allOff
  try dsimp only
  repeat' first
    | with_reducible assumption | with_reducible apply command_does | exact subParts_of (by decide) hp
    | with_reducible apply does_fold | simp only [does_mk] | with_reducible refine moves_intro ?_ rfl ?_
    | ((with_reducible refine only_intro ?_); intro p hc; cases p <;> first
        | exact (clash hp (by decide) hc).elim | dsimp only [Same])
    | intro _ | split | with_reducible apply does_ite | with_reducible apply does_fst (by assumption) | dsimp only

theorem powerGood_does {pz : List Part} {s₀ : State} {r : Nat} {s : State} (h_s : Does pz s₀ s) (hp : subParts [.out,
    .boot, .pwr] pz = true) : Does pz s₀ (powerGood r s) := by
  unfold powerGood
  try dsimp only
  repeat' first
    | with_reducible assumption | with_reducible apply railUp_does | exact subParts_of (by decide) hp
    | with_reducible apply does_fold | simp only [does_mk] | with_reducible refine moves_intro ?_ rfl ?_
    | ((with_reducible refine only_intro ?_); intro p hc; cases p <;> first
        | exact (clash hp (by decide) hc).elim | dsimp only [Same])
    | intro _ | split | with_reducible apply does_ite | with_reducible apply does_fst (by assumption) | dsimp only

theorem allDuty_does {pz : List Part} {s₀ : State} {k : Nat} {s : State} (h_s : Does pz s₀ s) (hp : subParts [.thm] pz
    = true) : Does pz s₀ (allDuty k s) := by
  unfold allDuty
  try dsimp only
  repeat' first
    | with_reducible assumption | exact subParts_of (by decide) hp | with_reducible apply does_fold
    | simp only [does_mk] | with_reducible refine moves_intro ?_ rfl ?_
    | ((with_reducible refine only_intro ?_); intro p hc; cases p <;> first
        | exact (clash hp (by decide) hc).elim | dsimp only [Same])
    | intro _ | split | with_reducible apply does_ite | with_reducible apply does_fst (by assumption) | dsimp only

theorem railTimeout_does {pz : List Part} {s₀ : State} {r : Nat} {s : State} (h_s : Does pz s₀ s) (hp : subParts
    [.out, .boot, .pwr, .thm] pz = true) : Does pz s₀ (railTimeout r s) := by
  unfold railTimeout
  try dsimp only
  repeat' first
    | with_reducible assumption | with_reducible apply allDuty_does | with_reducible apply powerDown_does
    | exact subParts_of (by decide) hp | with_reducible apply does_fold | simp only [does_mk]
    | with_reducible refine moves_intro ?_ rfl ?_
    | ((with_reducible refine only_intro ?_); intro p hc; cases p <;> first
        | exact (clash hp (by decide) hc).elim | dsimp only [Same])
    | intro _ | split | with_reducible apply does_ite | with_reducible apply does_fst (by assumption) | dsimp only

theorem railsBegin_does {pz : List Part} {s₀ : State} {s : State} (h_s : Does pz s₀ s) (hp : subParts [.out, .boot,
    .pwr] pz = true) : Does pz s₀ (railsBegin s) := by
  unfold railsBegin
  try dsimp only
  repeat' first
    | with_reducible assumption | with_reducible apply railUp_does | exact subParts_of (by decide) hp
    | with_reducible apply does_fold | simp only [does_mk] | with_reducible refine moves_intro ?_ rfl ?_
    | ((with_reducible refine only_intro ?_); intro p hc; cases p <;> first
        | exact (clash hp (by decide) hc).elim | dsimp only [Same])
    | intro _ | split | with_reducible apply does_ite | with_reducible apply does_fst (by assumption) | dsimp only

theorem glimmerExit_does {pz : List Part} {s₀ : State} {wake : BitVec 12} {s : State} (h_s : Does pz s₀ s) (hp :
    subParts [.out, .regs, .facets, .arb, .qps, .zrt, .wheel, .mirror, .grp, .prism, .fab, .xlt, .memc, .pcx, .mov,
    .cip, .trust, .eth, .agl, .err, .boot, .pwr, .thm] pz = true) : Does pz s₀ (glimmerExit wake s) := by
  unfold glimmerExit
  try dsimp only
  repeat' first
    | with_reducible assumption | with_reducible apply emit_does | with_reducible apply railUp_does
    | with_reducible apply warmLoss_does | exact subParts_of (by decide) hp | with_reducible apply does_fold
    | simp only [does_mk] | with_reducible refine moves_intro ?_ rfl ?_
    | ((with_reducible refine only_intro ?_); intro p hc; cases p <;> first
        | exact (clash hp (by decide) hc).elim | dsimp only [Same])
    | intro _ | split | with_reducible apply does_ite | with_reducible apply does_fst (by assumption) | dsimp only

theorem porstLow_does {pz : List Part} {s₀ : State} {s : State} (h_s : Does pz s₀ s) (hp : subParts [.now, .out, .mem,
    .regs, .facets, .arb, .qps, .zrt, .wheel, .mirror, .groups, .grp, .prism, .fab, .xlt, .memc, .pcx, .mov, .cip,
    .trust, .eth, .agl, .err, .boot, .pwr, .thm] pz = true) : Does pz s₀ (porstLow s) := by
  unfold porstLow
  try dsimp only
  repeat' first
    | with_reducible assumption | with_reducible apply coldLoss_does | with_reducible apply powerDown_does
    | exact subParts_of (by decide) hp | with_reducible apply does_fold | simp only [does_mk]
    | with_reducible refine moves_intro ?_ rfl ?_
    | ((with_reducible refine only_intro ?_); intro p hc; cases p <;> first
        | exact (clash hp (by decide) hc).elim | dsimp only [Same])
    | intro _ | split | with_reducible apply does_ite | with_reducible apply does_fst (by assumption) | dsimp only

theorem porstHigh_does {pz : List Part} {s₀ : State} {s : State} (h_s : Does pz s₀ s) (hp : subParts [.out, .boot,
    .pwr] pz = true) : Does pz s₀ (porstHigh s) := by
  unfold porstHigh
  try dsimp only
  repeat' first
    | with_reducible assumption | with_reducible apply allOff_does | exact subParts_of (by decide) hp
    | with_reducible apply does_fold | simp only [does_mk] | with_reducible refine moves_intro ?_ rfl ?_
    | ((with_reducible refine only_intro ?_); intro p hc; cases p <;> first
        | exact (clash hp (by decide) hc).elim | dsimp only [Same])
    | intro _ | split | with_reducible apply does_ite | with_reducible apply does_fst (by assumption) | dsimp only

theorem pinWarm_does {pz : List Part} {s₀ : State} {s : State} (h_s : Does pz s₀ s) (hp : subParts [.now, .out, .mem,
    .regs, .facets, .arb, .qps, .zrt, .wheel, .mirror, .groups, .grp, .prism, .fab, .xlt, .memc, .pcx, .mov, .cip,
    .trust, .eth, .agl, .err, .boot, .pwr, .thm] pz = true) : Does pz s₀ (pinWarm s) := by
  unfold pinWarm
  try dsimp only
  repeat' first
    | with_reducible assumption | with_reducible apply glimmerExit_does | with_reducible apply warmBegin_does
    | with_reducible apply warmInUmbra_does | exact subParts_of (by decide) hp | with_reducible apply does_fold
    | simp only [does_mk] | with_reducible refine moves_intro ?_ rfl ?_
    | ((with_reducible refine only_intro ?_); intro p hc; cases p <;> first
        | exact (clash hp (by decide) hc).elim | dsimp only [Same])
    | intro _ | split | with_reducible apply does_ite | with_reducible apply does_fst (by assumption) | dsimp only

theorem adpLow_does {pz : List Part} {s₀ : State} {s : State} (h_s : Does pz s₀ s) (hp : subParts [.now, .out, .mem,
    .regs, .facets, .arb, .qps, .zrt, .wheel, .mirror, .groups, .grp, .prism, .fab, .xlt, .memc, .pcx, .mov, .cip,
    .trust, .eth, .agl, .err, .boot, .pwr, .thm] pz = true) : Does pz s₀ (adpLow s) := by
  unfold adpLow
  try dsimp only
  repeat' first
    | with_reducible assumption | with_reducible apply pinWarm_does | exact subParts_of (by decide) hp
    | with_reducible apply does_fold | simp only [does_mk] | with_reducible refine moves_intro ?_ rfl ?_
    | ((with_reducible refine only_intro ?_); intro p hc; cases p <;> first
        | exact (clash hp (by decide) hc).elim | dsimp only [Same])
    | intro _ | split | with_reducible apply does_ite | with_reducible apply does_fst (by assumption) | dsimp only

theorem adpHigh_does {pz : List Part} {s₀ : State} {s : State} (h_s : Does pz s₀ s) (hp : subParts [.boot] pz = true)
    : Does pz s₀ (adpHigh s) := by
  unfold adpHigh
  try dsimp only
  repeat' first
    | with_reducible assumption | exact subParts_of (by decide) hp | with_reducible apply does_fold
    | simp only [does_mk] | with_reducible refine moves_intro ?_ rfl ?_
    | ((with_reducible refine only_intro ?_); intro p hc; cases p <;> first
        | exact (clash hp (by decide) hc).elim | dsimp only [Same])
    | intro _ | split | with_reducible apply does_ite | with_reducible apply does_fst (by assumption) | dsimp only

theorem powerLoss_does {pz : List Part} {s₀ : State} {s : State} (h_s : Does pz s₀ s) (hp : subParts [.now, .out,
    .mem, .regs, .facets, .arb, .qps, .zrt, .wheel, .mirror, .groups, .grp, .prism, .fab, .xlt, .memc, .pcx, .mov,
    .cip, .trust, .eth, .agl, .err, .boot, .pwr, .thm] pz = true) : Does pz s₀ (powerLoss s) := by
  unfold powerLoss
  try dsimp only
  repeat' first
    | with_reducible assumption | with_reducible apply coldLoss_does | exact subParts_of (by decide) hp
    | with_reducible apply does_fold | simp only [does_mk] | with_reducible refine moves_intro ?_ rfl ?_
    | ((with_reducible refine only_intro ?_); intro p hc; cases p <;> first
        | exact (clash hp (by decide) hc).elim | dsimp only [Same])
    | intro _ | split | with_reducible apply does_ite | with_reducible apply does_fst (by assumption) | dsimp only

theorem restBegin_does {pz : List Part} {s₀ : State} {s : State} (h_s : Does pz s₀ s) (hp : subParts [.out, .prism,
    .fab, .pwr] pz = true) : Does pz s₀ (restBegin s) := by
  unfold restBegin
  try dsimp only
  repeat' first
    | with_reducible assumption | with_reducible apply emits_does | exact subParts_of (by decide) hp
    | with_reducible apply does_fold | simp only [does_mk] | with_reducible refine moves_intro ?_ rfl ?_
    | ((with_reducible refine only_intro ?_); intro p hc; cases p <;> first
        | exact (clash hp (by decide) hc).elim | dsimp only [Same])
    | intro _ | split | with_reducible apply does_ite | with_reducible apply does_fst (by assumption) | dsimp only

theorem restIdle_does {pz : List Part} {s₀ : State} {s : State} (h_s : Does pz s₀ s) (hp : subParts [.out, .prism,
    .fab, .pwr] pz = true) : Does pz s₀ (restIdle s) := by
  unfold restIdle
  try dsimp only
  repeat' first
    | with_reducible assumption | with_reducible apply noteBusy_does | with_reducible apply restBegin_does
    | exact subParts_of (by decide) hp | with_reducible apply does_fold | simp only [does_mk]
    | with_reducible refine moves_intro ?_ rfl ?_
    | ((with_reducible refine only_intro ?_); intro p hc; cases p <;> first
        | exact (clash hp (by decide) hc).elim | dsimp only [Same])
    | intro _ | split | with_reducible apply does_ite | with_reducible apply does_fst (by assumption) | dsimp only

theorem restStep_does {pz : List Part} {s₀ : State} {s : State} (h_s : Does pz s₀ s) (hp : subParts [.prism, .fab,
    .pwr] pz = true) : Does pz s₀ (restStep s) := by
  unfold restStep
  try dsimp only
  repeat' first
    | with_reducible assumption | exact subParts_of (by decide) hp | with_reducible apply does_fold
    | simp only [does_mk] | with_reducible refine moves_intro ?_ rfl ?_
    | ((with_reducible refine only_intro ?_); intro p hc; cases p <;> first
        | exact (clash hp (by decide) hc).elim | dsimp only [Same])
    | intro _ | split | with_reducible apply does_ite | with_reducible apply does_fst (by assumption) | dsimp only

theorem glimmerBegin_does {pz : List Part} {s₀ : State} {s : State} (h_s : Does pz s₀ s) (hp : subParts [.out, .fab,
    .boot, .pwr] pz = true) : Does pz s₀ (glimmerBegin s) := by
  unfold glimmerBegin
  try dsimp only
  repeat' first
    | with_reducible assumption | with_reducible apply powerDown_does | with_reducible apply resetPins_does
    | exact subParts_of (by decide) hp | with_reducible apply does_fold | simp only [does_mk]
    | with_reducible refine moves_intro ?_ rfl ?_
    | ((with_reducible refine only_intro ?_); intro p hc; cases p <;> first
        | exact (clash hp (by decide) hc).elim | dsimp only [Same])
    | intro _ | split | with_reducible apply does_ite | with_reducible apply does_fst (by assumption) | dsimp only

theorem glimmerIdle_does {pz : List Part} {s₀ : State} {s : State} (h_s : Does pz s₀ s) (hp : subParts [.out, .fab,
    .boot, .pwr] pz = true) : Does pz s₀ (glimmerIdle s) := by
  unfold glimmerIdle
  try dsimp only
  repeat' first
    | with_reducible assumption | with_reducible apply glimmerBegin_does | exact subParts_of (by decide) hp
    | with_reducible apply does_fold | simp only [does_mk] | with_reducible refine moves_intro ?_ rfl ?_
    | ((with_reducible refine only_intro ?_); intro p hc; cases p <;> first
        | exact (clash hp (by decide) hc).elim | dsimp only [Same])
    | intro _ | split | with_reducible apply does_ite | with_reducible apply does_fst (by assumption) | dsimp only

theorem glimmerAsleep_does {pz : List Part} {s₀ : State} {s : State} (h_s : Does pz s₀ s) (hp : subParts [.out, .regs,
    .facets, .arb, .qps, .zrt, .wheel, .mirror, .grp, .prism, .fab, .xlt, .memc, .pcx, .mov, .cip, .trust, .eth, .agl,
    .err, .boot, .pwr, .thm] pz = true) : Does pz s₀ (glimmerAsleep s) := by
  unfold glimmerAsleep
  try dsimp only
  repeat' first
    | with_reducible assumption | with_reducible apply glimmerExit_does | exact subParts_of (by decide) hp
    | with_reducible apply does_fold | simp only [does_mk] | with_reducible refine moves_intro ?_ rfl ?_
    | ((with_reducible refine only_intro ?_); intro p hc; cases p <;> first
        | exact (clash hp (by decide) hc).elim | dsimp only [Same])
    | intro _ | split | with_reducible apply does_ite | with_reducible apply does_fst (by assumption) | dsimp only

theorem latchWake_does {pz : List Part} {s₀ : State} {w : WakeKind} {s : State} (h_s : Does pz s₀ s) (hp : subParts
    [.pwr] pz = true) : Does pz s₀ (latchWake w s) := by
  unfold latchWake
  try dsimp only
  repeat' first
    | with_reducible assumption | exact subParts_of (by decide) hp | with_reducible apply does_fold
    | simp only [does_mk] | with_reducible refine moves_intro ?_ rfl ?_
    | ((with_reducible refine only_intro ?_); intro p hc; cases p <;> first
        | exact (clash hp (by decide) hc).elim | dsimp only [Same])
    | intro _ | split | with_reducible apply does_ite | with_reducible apply does_fst (by assumption) | dsimp only

theorem sampleCycle_does {pz : List Part} {s₀ : State} {r : Readings} {s : State} (h_s : Does pz s₀ s) (hp : subParts
    [.out, .regs, .facets, .arb, .qps, .zrt, .wheel, .mirror, .grp, .prism, .fab, .xlt, .memc, .pcx, .mov, .cip,
    .trust, .eth, .agl, .err, .boot, .pwr, .thm] pz = true) : Does pz s₀ (sampleCycle r s) := by
  unfold sampleCycle
  try dsimp only
  repeat' first
    | with_reducible assumption | with_reducible apply glimmerExit_does | exact subParts_of (by decide) hp
    | with_reducible apply does_fold | simp only [does_mk] | with_reducible refine moves_intro ?_ rfl ?_
    | ((with_reducible refine only_intro ?_); intro p hc; cases p <;> first
        | exact (clash hp (by decide) hc).elim | dsimp only [Same])
    | intro _ | split | with_reducible apply does_ite | with_reducible apply does_fst (by assumption) | dsimp only

theorem avsSet_does {pz : List Part} {s₀ : State} {r : Nat} {mv : Nat} {ok : Bool} {s : State} (h_s : Does pz s₀ s)
    (hp : subParts [.out, .pwr] pz = true) : Does pz s₀ (avsSet r mv ok s) := by
  unfold avsSet
  try dsimp only
  repeat' first
    | with_reducible assumption | with_reducible apply emit_does | exact subParts_of (by decide) hp
    | with_reducible apply does_fold | simp only [does_mk] | with_reducible refine moves_intro ?_ rfl ?_
    | ((with_reducible refine only_intro ?_); intro p hc; cases p <;> first
        | exact (clash hp (by decide) hc).elim | dsimp only [Same])
    | intro _ | split | with_reducible apply does_ite | with_reducible apply does_fst (by assumption) | dsimp only

theorem thermEvents_does {pz : List Part} {s₀ : State} {r : Readings} {s : State} (h_s : Does pz s₀ s) (hp : subParts
    [.out, .agl, .err] pz = true) : Does pz s₀ (thermEvents r s) := by
  unfold thermEvents
  try dsimp only
  repeat' first
    | with_reducible assumption | with_reducible apply fatal_does | exact subParts_of (by decide) hp
    | with_reducible apply does_fold | simp only [does_mk] | with_reducible refine moves_intro ?_ rfl ?_
    | ((with_reducible refine only_intro ?_); intro p hc; cases p <;> first
        | exact (clash hp (by decide) hc).elim | dsimp only [Same])
    | intro _ | split | with_reducible apply does_ite | with_reducible apply does_fst (by assumption) | dsimp only

theorem loopPeriod_does {pz : List Part} {s₀ : State} {r : Readings} {s : State} (h_s : Does pz s₀ s) (hp : subParts
    [.out, .agl, .err, .thm] pz = true) : Does pz s₀ (loopPeriod r s) := by
  unfold loopPeriod
  try dsimp only
  repeat' first
    | with_reducible assumption | with_reducible apply thermEvents_does | exact subParts_of (by decide) hp
    | with_reducible apply does_fold | simp only [does_mk] | with_reducible refine moves_intro ?_ rfl ?_
    | ((with_reducible refine only_intro ?_); intro p hc; cases p <;> first
        | exact (clash hp (by decide) hc).elim | dsimp only [Same])
    | intro _ | split | with_reducible apply does_ite | with_reducible apply does_fst (by assumption) | dsimp only

theorem wakeFrame_does {pz : List Part} {s₀ : State} {p : Nat} {b : Nat} {fcsOk : Bool} {bs : Bytes} {s : State} (h_s
    : Does pz s₀ s) (hp : subParts [.eth, .pwr] pz = true) : Does pz s₀ (wakeFrame p b fcsOk bs s) := by
  unfold wakeFrame
  try dsimp only
  repeat' first
    | with_reducible assumption | with_reducible apply latchWake_does | with_reducible apply modEth_does
    | exact subParts_of (by decide) hp | with_reducible apply does_fold | simp only [does_mk]
    | with_reducible refine moves_intro ?_ rfl ?_
    | ((with_reducible refine only_intro ?_); intro p hc; cases p <;> first
        | exact (clash hp (by decide) hc).elim | dsimp only [Same])
    | intro _ | split | with_reducible apply does_ite | with_reducible apply does_fst (by assumption) | dsimp only

theorem ethFrame_does {pz : List Part} {s₀ : State} {p : Nat} {b : Nat} {fcsOk : Bool} {far : FarBits} {bs : Bytes} {s
    : State} (h_s : Does pz s₀ s) (hp : subParts [.free, .out, .mem, .facets, .mirror, .fab, .xlt, .memc, .pcx, .eth,
    .pwr] pz = true) : Does pz s₀ (ethFrame p b fcsOk far bs s) := by
  unfold ethFrame
  try dsimp only
  repeat' first
    | with_reducible assumption | with_reducible apply rxFrame_does | with_reducible apply wakeFrame_does
    | exact subParts_of (by decide) hp | with_reducible apply does_fold | simp only [does_mk]
    | with_reducible refine moves_intro ?_ rfl ?_
    | ((with_reducible refine only_intro ?_); intro p hc; cases p <;> first
        | exact (clash hp (by decide) hc).elim | dsimp only [Same])
    | intro _ | split | with_reducible apply does_ite | with_reducible apply does_fst (by assumption) | dsimp only

end Sys2Proof.Machine
end

