-- ==== Sys2Proof/Laws/ClockFrame.lean ====
section
/-!
SUPPORT. What each operation of Machine/Clock.lean may change: one lemma per operation.
-/
set_option linter.unusedTactic false
set_option linter.unreachableTactic false
set_option linter.unusedSimpArgs false
set_option linter.unusedVariables false

namespace Sys2Proof.Machine

theorem count_does {pz : List Part} {s₀ : State} {s : State} (h_s : Does pz s₀ s) (hp : subParts [.now] pz = true) :
    Does pz s₀ (count s) := by
  unfold count
  try dsimp only
  repeat' first
    | with_reducible assumption | exact subParts_of (by decide) hp | with_reducible apply does_fold
    | simp only [does_mk] | with_reducible refine moves_intro ?_ rfl ?_
    | ((with_reducible refine only_intro ?_); intro p hc; cases p <;> first
        | exact (clash hp (by decide) hc).elim | dsimp only [Same])
    | intro _ | split | with_reducible apply does_ite | with_reducible apply does_fst (by assumption) | dsimp only

theorem tick_does {pz : List Part} {s₀ : State} {s : State} (h_s : Does pz s₀ s) (hp : subParts [.now, .out, .mem,
    .facets, .arb, .mirror, .fab, .xlt, .memc, .pcx, .eth, .boot, .pwr] pz = true) : Does pz s₀ (tick s) := by
  unfold tick
  try dsimp only
  repeat' first
    | with_reducible assumption | with_reducible apply copyRows_does | with_reducible apply count_does
    | with_reducible apply railsBegin_does | with_reducible apply segsGo_does | with_reducible apply takeTurns_does
    | with_reducible apply tickEth_does | with_reducible apply tickPcx_does | with_reducible apply does_when
    | exact subParts_of (by decide) hp | with_reducible apply does_fold | simp only [does_mk]
    | with_reducible refine moves_intro ?_ rfl ?_
    | ((with_reducible refine only_intro ?_); intro p hc; cases p <;> first
        | exact (clash hp (by decide) hc).elim | dsimp only [Same])
    | intro _ | split | with_reducible apply does_ite | with_reducible apply does_fst (by assumption) | dsimp only

end Sys2Proof.Machine
end

