-- ==== Sys2Proof/Laws/Exec.lean ====
section
/-!
SUPPORT. The operations that meanings are wrapped in, where they act and where they do not; what a descriptor that may
start satisfies; a read that returns unharmed.
-/
namespace Sys2Proof.Machine

@[simp] theorem when_true (g : State → State) (s : State) : when true g s = g s := rfl
@[simp] theorem when_false (g : State → State) (s : State) : when false g s = s := rfl

theorem live_running {g : State → State} {s : State} (h : running s = true) : live g s = .next (g s) := by
  simp [live, h]
theorem live_stopped {g : State → State} {s : State} (h : running s = false) : live g s = .next s := by
  simp [live, h]

theorem onArrival_up {g : State → State} {s : State} (h : fabricUp s = true) : onArrival g s = .next (g s) := by
  simp [onArrival, h]
theorem onArrival_down {g : State → State} {s : State} (h : fabricUp s = false) : onArrival g s = .next s := by
  simp [onArrival, h]

theorem onLink_up {n : Nat} {g : State → State} {s : State} (h : fabricUp s = true) (hl : hasLink s n = true) :
    onLink n g s = .next (resendLost (g s)) := by
  simp [onLink, h, hl]

@[simp] theorem mgmtWrite_zero (g : State → State) (s : State) : mgmtWrite 0 g s = g s := rfl
theorem mgmtWrite_ne {f : Nat} {g : State → State} {s : State} (h : f ≠ 0) : mgmtWrite f g s = s := by
  simp [mgmtWrite, h]

theorem cipCommand_on {f : Nat} {g : State → State} {s : State} (h : running s = true) (hc : hasCip s = true)
    (hf : facetOn s f = true) : cipCommand f g s = .next (g s) := by
  simp [cipCommand, live, h, hc, hf]

/-- A descriptor that may start is the next of its queue, of the command's opcode, on a running device. -/
theorem ready_cases {s : State} {f q op : Nat} {i : Item} (h : ready s f q op = some i) :
    running s = true ∧ Desc.op i.desc = op ∧ nextStart s f false q = some i := by
  unfold ready at h
  split at h
  · cases h
  · split at h
    · cases h; simp_all
    · cases h

theorem startWith_ready {f q op : Nat} {g : Item → State → State} {s : State} {i : Item}
    (h : ready s f q op = some i) : startWith f q op g s = settle f (g i (startItem f q i.idx s)) := by
  simp [startWith, h]
theorem startWith_none {f q op : Nat} {g : Item → State → State} {s : State} (h : ready s f q op = none) :
    startWith f q op g s = s := by
  simp [startWith, h]

theorem readBack_unharmed {k : ReadKind} {l : List (Nat × U64 × Nat)} {go : State → State} {s : State}
    (h : l.findSome? (hurtAt s k) = none) : readBack k l go s = go s := by
  simp [readBack, h]

theorem descBack_unharmed {f q op : Nat} {react : Nat → State → State} {go : State → State} {s : State} {i : Item}
    (h : ready s f q op = some i) (hn : descHurt s f q = none) : descBack f q op react go s = go s := by
  simp [descBack, h, hn]
theorem descBack_none {f q op : Nat} {react : Nat → State → State} {go : State → State} {s : State}
    (h : ready s f q op = none) : descBack f q op react go s = s := by
  simp [descBack, h]

end Sys2Proof.Machine
end

