-- ==== Sys2Proof/Laws/State.lean ====
section
/-!
SUPPORT. Each part of the state after each of the operations that change one part: true by unfolding.
-/
namespace Sys2Proof.Machine

@[simp] theorem emit_pending (o : Output) (s : State) : (emit o s).pending = s.pending := rfl
@[simp] theorem emit_part (o : Output) (s : State) : (emit o s).part = s.part := rfl
@[simp] theorem emit_now (o : Output) (s : State) : (emit o s).now = s.now := rfl
@[simp] theorem emit_free (o : Output) (s : State) : (emit o s).free = s.free := rfl
@[simp] theorem emit_out (o : Output) (s : State) : (emit o s).out = s.out ++ [o] := rfl
@[simp] theorem emit_mem (o : Output) (s : State) : (emit o s).mem = s.mem := rfl
@[simp] theorem emit_regs (o : Output) (s : State) : (emit o s).regs = s.regs := rfl
@[simp] theorem emit_facets (o : Output) (s : State) : (emit o s).facets = s.facets := rfl
@[simp] theorem emit_arb (o : Output) (s : State) : (emit o s).arb = s.arb := rfl
@[simp] theorem emit_qps (o : Output) (s : State) : (emit o s).qps = s.qps := rfl
@[simp] theorem emit_zrt (o : Output) (s : State) : (emit o s).zrt = s.zrt := rfl
@[simp] theorem emit_wheel (o : Output) (s : State) : (emit o s).wheel = s.wheel := rfl
@[simp] theorem emit_mirror (o : Output) (s : State) : (emit o s).mirror = s.mirror := rfl
@[simp] theorem emit_groups (o : Output) (s : State) : (emit o s).groups = s.groups := rfl
@[simp] theorem emit_grp (o : Output) (s : State) : (emit o s).grp = s.grp := rfl
@[simp] theorem emit_prism (o : Output) (s : State) : (emit o s).prism = s.prism := rfl
@[simp] theorem emit_fab (o : Output) (s : State) : (emit o s).fab = s.fab := rfl
@[simp] theorem emit_xlt (o : Output) (s : State) : (emit o s).xlt = s.xlt := rfl
@[simp] theorem emit_memc (o : Output) (s : State) : (emit o s).memc = s.memc := rfl
@[simp] theorem emit_pcx (o : Output) (s : State) : (emit o s).pcx = s.pcx := rfl
@[simp] theorem emit_mov (o : Output) (s : State) : (emit o s).mov = s.mov := rfl
@[simp] theorem emit_cip (o : Output) (s : State) : (emit o s).cip = s.cip := rfl
@[simp] theorem emit_trust (o : Output) (s : State) : (emit o s).trust = s.trust := rfl
@[simp] theorem emit_eth (o : Output) (s : State) : (emit o s).eth = s.eth := rfl
@[simp] theorem emit_agl (o : Output) (s : State) : (emit o s).agl = s.agl := rfl
@[simp] theorem emit_err (o : Output) (s : State) : (emit o s).err = s.err := rfl
@[simp] theorem emit_boot (o : Output) (s : State) : (emit o s).boot = s.boot := rfl
@[simp] theorem emit_pwr (o : Output) (s : State) : (emit o s).pwr = s.pwr := rfl
@[simp] theorem emit_thm (o : Output) (s : State) : (emit o s).thm = s.thm := rfl

@[simp] theorem emits_pending (l : List Output) (s : State) : (emits l s).pending = s.pending := rfl
@[simp] theorem emits_part (l : List Output) (s : State) : (emits l s).part = s.part := rfl
@[simp] theorem emits_now (l : List Output) (s : State) : (emits l s).now = s.now := rfl
@[simp] theorem emits_free (l : List Output) (s : State) : (emits l s).free = s.free := rfl
@[simp] theorem emits_out (l : List Output) (s : State) : (emits l s).out = s.out ++ l := rfl
@[simp] theorem emits_mem (l : List Output) (s : State) : (emits l s).mem = s.mem := rfl
@[simp] theorem emits_regs (l : List Output) (s : State) : (emits l s).regs = s.regs := rfl
@[simp] theorem emits_facets (l : List Output) (s : State) : (emits l s).facets = s.facets := rfl
@[simp] theorem emits_arb (l : List Output) (s : State) : (emits l s).arb = s.arb := rfl
@[simp] theorem emits_qps (l : List Output) (s : State) : (emits l s).qps = s.qps := rfl
@[simp] theorem emits_zrt (l : List Output) (s : State) : (emits l s).zrt = s.zrt := rfl
@[simp] theorem emits_wheel (l : List Output) (s : State) : (emits l s).wheel = s.wheel := rfl
@[simp] theorem emits_mirror (l : List Output) (s : State) : (emits l s).mirror = s.mirror := rfl
@[simp] theorem emits_groups (l : List Output) (s : State) : (emits l s).groups = s.groups := rfl
@[simp] theorem emits_grp (l : List Output) (s : State) : (emits l s).grp = s.grp := rfl
@[simp] theorem emits_prism (l : List Output) (s : State) : (emits l s).prism = s.prism := rfl
@[simp] theorem emits_fab (l : List Output) (s : State) : (emits l s).fab = s.fab := rfl
@[simp] theorem emits_xlt (l : List Output) (s : State) : (emits l s).xlt = s.xlt := rfl
@[simp] theorem emits_memc (l : List Output) (s : State) : (emits l s).memc = s.memc := rfl
@[simp] theorem emits_pcx (l : List Output) (s : State) : (emits l s).pcx = s.pcx := rfl
@[simp] theorem emits_mov (l : List Output) (s : State) : (emits l s).mov = s.mov := rfl
@[simp] theorem emits_cip (l : List Output) (s : State) : (emits l s).cip = s.cip := rfl
@[simp] theorem emits_trust (l : List Output) (s : State) : (emits l s).trust = s.trust := rfl
@[simp] theorem emits_eth (l : List Output) (s : State) : (emits l s).eth = s.eth := rfl
@[simp] theorem emits_agl (l : List Output) (s : State) : (emits l s).agl = s.agl := rfl
@[simp] theorem emits_err (l : List Output) (s : State) : (emits l s).err = s.err := rfl
@[simp] theorem emits_boot (l : List Output) (s : State) : (emits l s).boot = s.boot := rfl
@[simp] theorem emits_pwr (l : List Output) (s : State) : (emits l s).pwr = s.pwr := rfl
@[simp] theorem emits_thm (l : List Output) (s : State) : (emits l s).thm = s.thm := rfl

@[simp] theorem modF_pending (f : Nat) (g : Facet → Facet) (s : State) : (modF f g s).pending = s.pending := rfl
@[simp] theorem modF_part (f : Nat) (g : Facet → Facet) (s : State) : (modF f g s).part = s.part := rfl
@[simp] theorem modF_now (f : Nat) (g : Facet → Facet) (s : State) : (modF f g s).now = s.now := rfl
@[simp] theorem modF_free (f : Nat) (g : Facet → Facet) (s : State) : (modF f g s).free = s.free := rfl
@[simp] theorem modF_out (f : Nat) (g : Facet → Facet) (s : State) : (modF f g s).out = s.out := rfl
@[simp] theorem modF_mem (f : Nat) (g : Facet → Facet) (s : State) : (modF f g s).mem = s.mem := rfl
@[simp] theorem modF_regs (f : Nat) (g : Facet → Facet) (s : State) : (modF f g s).regs = s.regs := rfl
@[simp] theorem modF_facets (f : Nat) (g : Facet → Facet) (s : State) : (modF f g s).facets = amod {} f g s.facets := rfl
@[simp] theorem modF_arb (f : Nat) (g : Facet → Facet) (s : State) : (modF f g s).arb = s.arb := rfl
@[simp] theorem modF_qps (f : Nat) (g : Facet → Facet) (s : State) : (modF f g s).qps = s.qps := rfl
@[simp] theorem modF_zrt (f : Nat) (g : Facet → Facet) (s : State) : (modF f g s).zrt = s.zrt := rfl
@[simp] theorem modF_wheel (f : Nat) (g : Facet → Facet) (s : State) : (modF f g s).wheel = s.wheel := rfl
@[simp] theorem modF_mirror (f : Nat) (g : Facet → Facet) (s : State) : (modF f g s).mirror = s.mirror := rfl
@[simp] theorem modF_groups (f : Nat) (g : Facet → Facet) (s : State) : (modF f g s).groups = s.groups := rfl
@[simp] theorem modF_grp (f : Nat) (g : Facet → Facet) (s : State) : (modF f g s).grp = s.grp := rfl
@[simp] theorem modF_prism (f : Nat) (g : Facet → Facet) (s : State) : (modF f g s).prism = s.prism := rfl
@[simp] theorem modF_fab (f : Nat) (g : Facet → Facet) (s : State) : (modF f g s).fab = s.fab := rfl
@[simp] theorem modF_xlt (f : Nat) (g : Facet → Facet) (s : State) : (modF f g s).xlt = s.xlt := rfl
@[simp] theorem modF_memc (f : Nat) (g : Facet → Facet) (s : State) : (modF f g s).memc = s.memc := rfl
@[simp] theorem modF_pcx (f : Nat) (g : Facet → Facet) (s : State) : (modF f g s).pcx = s.pcx := rfl
@[simp] theorem modF_mov (f : Nat) (g : Facet → Facet) (s : State) : (modF f g s).mov = s.mov := rfl
@[simp] theorem modF_cip (f : Nat) (g : Facet → Facet) (s : State) : (modF f g s).cip = s.cip := rfl
@[simp] theorem modF_trust (f : Nat) (g : Facet → Facet) (s : State) : (modF f g s).trust = s.trust := rfl
@[simp] theorem modF_eth (f : Nat) (g : Facet → Facet) (s : State) : (modF f g s).eth = s.eth := rfl
@[simp] theorem modF_agl (f : Nat) (g : Facet → Facet) (s : State) : (modF f g s).agl = s.agl := rfl
@[simp] theorem modF_err (f : Nat) (g : Facet → Facet) (s : State) : (modF f g s).err = s.err := rfl
@[simp] theorem modF_boot (f : Nat) (g : Facet → Facet) (s : State) : (modF f g s).boot = s.boot := rfl
@[simp] theorem modF_pwr (f : Nat) (g : Facet → Facet) (s : State) : (modF f g s).pwr = s.pwr := rfl
@[simp] theorem modF_thm (f : Nat) (g : Facet → Facet) (s : State) : (modF f g s).thm = s.thm := rfl

@[simp] theorem modQp_pending (n : Nat) (g : Qp → Qp) (s : State) : (modQp n g s).pending = s.pending := rfl
@[simp] theorem modQp_part (n : Nat) (g : Qp → Qp) (s : State) : (modQp n g s).part = s.part := rfl
@[simp] theorem modQp_now (n : Nat) (g : Qp → Qp) (s : State) : (modQp n g s).now = s.now := rfl
@[simp] theorem modQp_free (n : Nat) (g : Qp → Qp) (s : State) : (modQp n g s).free = s.free := rfl
@[simp] theorem modQp_out (n : Nat) (g : Qp → Qp) (s : State) : (modQp n g s).out = s.out := rfl
@[simp] theorem modQp_mem (n : Nat) (g : Qp → Qp) (s : State) : (modQp n g s).mem = s.mem := rfl
@[simp] theorem modQp_regs (n : Nat) (g : Qp → Qp) (s : State) : (modQp n g s).regs = s.regs := rfl
@[simp] theorem modQp_facets (n : Nat) (g : Qp → Qp) (s : State) : (modQp n g s).facets = s.facets := rfl
@[simp] theorem modQp_arb (n : Nat) (g : Qp → Qp) (s : State) : (modQp n g s).arb = s.arb := rfl
@[simp] theorem modQp_qps (n : Nat) (g : Qp → Qp) (s : State) : (modQp n g s).qps = amod {} n g s.qps := rfl
@[simp] theorem modQp_zrt (n : Nat) (g : Qp → Qp) (s : State) : (modQp n g s).zrt = s.zrt := rfl
@[simp] theorem modQp_wheel (n : Nat) (g : Qp → Qp) (s : State) : (modQp n g s).wheel = s.wheel := rfl
@[simp] theorem modQp_mirror (n : Nat) (g : Qp → Qp) (s : State) : (modQp n g s).mirror = s.mirror := rfl
@[simp] theorem modQp_groups (n : Nat) (g : Qp → Qp) (s : State) : (modQp n g s).groups = s.groups := rfl
@[simp] theorem modQp_grp (n : Nat) (g : Qp → Qp) (s : State) : (modQp n g s).grp = s.grp := rfl
@[simp] theorem modQp_prism (n : Nat) (g : Qp → Qp) (s : State) : (modQp n g s).prism = s.prism := rfl
@[simp] theorem modQp_fab (n : Nat) (g : Qp → Qp) (s : State) : (modQp n g s).fab = s.fab := rfl
@[simp] theorem modQp_xlt (n : Nat) (g : Qp → Qp) (s : State) : (modQp n g s).xlt = s.xlt := rfl
@[simp] theorem modQp_memc (n : Nat) (g : Qp → Qp) (s : State) : (modQp n g s).memc = s.memc := rfl
@[simp] theorem modQp_pcx (n : Nat) (g : Qp → Qp) (s : State) : (modQp n g s).pcx = s.pcx := rfl
@[simp] theorem modQp_mov (n : Nat) (g : Qp → Qp) (s : State) : (modQp n g s).mov = s.mov := rfl
@[simp] theorem modQp_cip (n : Nat) (g : Qp → Qp) (s : State) : (modQp n g s).cip = s.cip := rfl
@[simp] theorem modQp_trust (n : Nat) (g : Qp → Qp) (s : State) : (modQp n g s).trust = s.trust := rfl
@[simp] theorem modQp_eth (n : Nat) (g : Qp → Qp) (s : State) : (modQp n g s).eth = s.eth := rfl
@[simp] theorem modQp_agl (n : Nat) (g : Qp → Qp) (s : State) : (modQp n g s).agl = s.agl := rfl
@[simp] theorem modQp_err (n : Nat) (g : Qp → Qp) (s : State) : (modQp n g s).err = s.err := rfl
@[simp] theorem modQp_boot (n : Nat) (g : Qp → Qp) (s : State) : (modQp n g s).boot = s.boot := rfl
@[simp] theorem modQp_pwr (n : Nat) (g : Qp → Qp) (s : State) : (modQp n g s).pwr = s.pwr := rfl
@[simp] theorem modQp_thm (n : Nat) (g : Qp → Qp) (s : State) : (modQp n g s).thm = s.thm := rfl

@[simp] theorem modG_pending (n : Nat) (g : Group → Group) (s : State) : (modG n g s).pending = s.pending := rfl
@[simp] theorem modG_part (n : Nat) (g : Group → Group) (s : State) : (modG n g s).part = s.part := rfl
@[simp] theorem modG_now (n : Nat) (g : Group → Group) (s : State) : (modG n g s).now = s.now := rfl
@[simp] theorem modG_free (n : Nat) (g : Group → Group) (s : State) : (modG n g s).free = s.free := rfl
@[simp] theorem modG_out (n : Nat) (g : Group → Group) (s : State) : (modG n g s).out = s.out := rfl
@[simp] theorem modG_mem (n : Nat) (g : Group → Group) (s : State) : (modG n g s).mem = s.mem := rfl
@[simp] theorem modG_regs (n : Nat) (g : Group → Group) (s : State) : (modG n g s).regs = s.regs := rfl
@[simp] theorem modG_facets (n : Nat) (g : Group → Group) (s : State) : (modG n g s).facets = s.facets := rfl
@[simp] theorem modG_arb (n : Nat) (g : Group → Group) (s : State) : (modG n g s).arb = s.arb := rfl
@[simp] theorem modG_qps (n : Nat) (g : Group → Group) (s : State) : (modG n g s).qps = s.qps := rfl
@[simp] theorem modG_zrt (n : Nat) (g : Group → Group) (s : State) : (modG n g s).zrt = s.zrt := rfl
@[simp] theorem modG_wheel (n : Nat) (g : Group → Group) (s : State) : (modG n g s).wheel = s.wheel := rfl
@[simp] theorem modG_mirror (n : Nat) (g : Group → Group) (s : State) : (modG n g s).mirror = s.mirror := rfl
@[simp] theorem modG_groups (n : Nat) (g : Group → Group) (s : State) : (modG n g s).groups = amod {} n g s.groups := rfl
@[simp] theorem modG_grp (n : Nat) (g : Group → Group) (s : State) : (modG n g s).grp = s.grp := rfl
@[simp] theorem modG_prism (n : Nat) (g : Group → Group) (s : State) : (modG n g s).prism = s.prism := rfl
@[simp] theorem modG_fab (n : Nat) (g : Group → Group) (s : State) : (modG n g s).fab = s.fab := rfl
@[simp] theorem modG_xlt (n : Nat) (g : Group → Group) (s : State) : (modG n g s).xlt = s.xlt := rfl
@[simp] theorem modG_memc (n : Nat) (g : Group → Group) (s : State) : (modG n g s).memc = s.memc := rfl
@[simp] theorem modG_pcx (n : Nat) (g : Group → Group) (s : State) : (modG n g s).pcx = s.pcx := rfl
@[simp] theorem modG_mov (n : Nat) (g : Group → Group) (s : State) : (modG n g s).mov = s.mov := rfl
@[simp] theorem modG_cip (n : Nat) (g : Group → Group) (s : State) : (modG n g s).cip = s.cip := rfl
@[simp] theorem modG_trust (n : Nat) (g : Group → Group) (s : State) : (modG n g s).trust = s.trust := rfl
@[simp] theorem modG_eth (n : Nat) (g : Group → Group) (s : State) : (modG n g s).eth = s.eth := rfl
@[simp] theorem modG_agl (n : Nat) (g : Group → Group) (s : State) : (modG n g s).agl = s.agl := rfl
@[simp] theorem modG_err (n : Nat) (g : Group → Group) (s : State) : (modG n g s).err = s.err := rfl
@[simp] theorem modG_boot (n : Nat) (g : Group → Group) (s : State) : (modG n g s).boot = s.boot := rfl
@[simp] theorem modG_pwr (n : Nat) (g : Group → Group) (s : State) : (modG n g s).pwr = s.pwr := rfl
@[simp] theorem modG_thm (n : Nat) (g : Group → Group) (s : State) : (modG n g s).thm = s.thm := rfl

@[simp] theorem modP_pending (k : Nat) (g : Port → Port) (s : State) : (modP k g s).pending = s.pending := rfl
@[simp] theorem modP_part (k : Nat) (g : Port → Port) (s : State) : (modP k g s).part = s.part := rfl
@[simp] theorem modP_now (k : Nat) (g : Port → Port) (s : State) : (modP k g s).now = s.now := rfl
@[simp] theorem modP_free (k : Nat) (g : Port → Port) (s : State) : (modP k g s).free = s.free := rfl
@[simp] theorem modP_out (k : Nat) (g : Port → Port) (s : State) : (modP k g s).out = s.out := rfl
@[simp] theorem modP_mem (k : Nat) (g : Port → Port) (s : State) : (modP k g s).mem = s.mem := rfl
@[simp] theorem modP_regs (k : Nat) (g : Port → Port) (s : State) : (modP k g s).regs = s.regs := rfl
@[simp] theorem modP_facets (k : Nat) (g : Port → Port) (s : State) : (modP k g s).facets = s.facets := rfl
@[simp] theorem modP_arb (k : Nat) (g : Port → Port) (s : State) : (modP k g s).arb = s.arb := rfl
@[simp] theorem modP_qps (k : Nat) (g : Port → Port) (s : State) : (modP k g s).qps = s.qps := rfl
@[simp] theorem modP_zrt (k : Nat) (g : Port → Port) (s : State) : (modP k g s).zrt = s.zrt := rfl
@[simp] theorem modP_wheel (k : Nat) (g : Port → Port) (s : State) : (modP k g s).wheel = s.wheel := rfl
@[simp] theorem modP_mirror (k : Nat) (g : Port → Port) (s : State) : (modP k g s).mirror = s.mirror := rfl
@[simp] theorem modP_groups (k : Nat) (g : Port → Port) (s : State) : (modP k g s).groups = s.groups := rfl
@[simp] theorem modP_grp (k : Nat) (g : Port → Port) (s : State) : (modP k g s).grp = s.grp := rfl
@[simp] theorem modP_prism (k : Nat) (g : Port → Port) (s : State) : (modP k g s).prism = s.prism := rfl
@[simp] theorem modP_fab (k : Nat) (g : Port → Port) (s : State) : (modP k g s).fab = s.fab := rfl
@[simp] theorem modP_xlt (k : Nat) (g : Port → Port) (s : State) : (modP k g s).xlt = s.xlt := rfl
@[simp] theorem modP_memc (k : Nat) (g : Port → Port) (s : State) : (modP k g s).memc = s.memc := rfl
@[simp] theorem modP_pcx (k : Nat) (g : Port → Port) (s : State) : (modP k g s).pcx = { s.pcx with ports := amod {} k g s.pcx.ports } := rfl
@[simp] theorem modP_mov (k : Nat) (g : Port → Port) (s : State) : (modP k g s).mov = s.mov := rfl
@[simp] theorem modP_cip (k : Nat) (g : Port → Port) (s : State) : (modP k g s).cip = s.cip := rfl
@[simp] theorem modP_trust (k : Nat) (g : Port → Port) (s : State) : (modP k g s).trust = s.trust := rfl
@[simp] theorem modP_eth (k : Nat) (g : Port → Port) (s : State) : (modP k g s).eth = s.eth := rfl
@[simp] theorem modP_agl (k : Nat) (g : Port → Port) (s : State) : (modP k g s).agl = s.agl := rfl
@[simp] theorem modP_err (k : Nat) (g : Port → Port) (s : State) : (modP k g s).err = s.err := rfl
@[simp] theorem modP_boot (k : Nat) (g : Port → Port) (s : State) : (modP k g s).boot = s.boot := rfl
@[simp] theorem modP_pwr (k : Nat) (g : Port → Port) (s : State) : (modP k g s).pwr = s.pwr := rfl
@[simp] theorem modP_thm (k : Nat) (g : Port → Port) (s : State) : (modP k g s).thm = s.thm := rfl

@[simp] theorem modL_pending (n : Nat) (g : Link → Link) (s : State) : (modL n g s).pending = s.pending := rfl
@[simp] theorem modL_part (n : Nat) (g : Link → Link) (s : State) : (modL n g s).part = s.part := rfl
@[simp] theorem modL_now (n : Nat) (g : Link → Link) (s : State) : (modL n g s).now = s.now := rfl
@[simp] theorem modL_free (n : Nat) (g : Link → Link) (s : State) : (modL n g s).free = s.free := rfl
@[simp] theorem modL_out (n : Nat) (g : Link → Link) (s : State) : (modL n g s).out = s.out := rfl
@[simp] theorem modL_mem (n : Nat) (g : Link → Link) (s : State) : (modL n g s).mem = s.mem := rfl
@[simp] theorem modL_regs (n : Nat) (g : Link → Link) (s : State) : (modL n g s).regs = s.regs := rfl
@[simp] theorem modL_facets (n : Nat) (g : Link → Link) (s : State) : (modL n g s).facets = s.facets := rfl
@[simp] theorem modL_arb (n : Nat) (g : Link → Link) (s : State) : (modL n g s).arb = s.arb := rfl
@[simp] theorem modL_qps (n : Nat) (g : Link → Link) (s : State) : (modL n g s).qps = s.qps := rfl
@[simp] theorem modL_zrt (n : Nat) (g : Link → Link) (s : State) : (modL n g s).zrt = s.zrt := rfl
@[simp] theorem modL_wheel (n : Nat) (g : Link → Link) (s : State) : (modL n g s).wheel = s.wheel := rfl
@[simp] theorem modL_mirror (n : Nat) (g : Link → Link) (s : State) : (modL n g s).mirror = s.mirror := rfl
@[simp] theorem modL_groups (n : Nat) (g : Link → Link) (s : State) : (modL n g s).groups = s.groups := rfl
@[simp] theorem modL_grp (n : Nat) (g : Link → Link) (s : State) : (modL n g s).grp = s.grp := rfl
@[simp] theorem modL_prism (n : Nat) (g : Link → Link) (s : State) : (modL n g s).prism = s.prism := rfl
@[simp] theorem modL_fab (n : Nat) (g : Link → Link) (s : State) : (modL n g s).fab = { s.fab with links := amod {} n g s.fab.links } := rfl
@[simp] theorem modL_xlt (n : Nat) (g : Link → Link) (s : State) : (modL n g s).xlt = s.xlt := rfl
@[simp] theorem modL_memc (n : Nat) (g : Link → Link) (s : State) : (modL n g s).memc = s.memc := rfl
@[simp] theorem modL_pcx (n : Nat) (g : Link → Link) (s : State) : (modL n g s).pcx = s.pcx := rfl
@[simp] theorem modL_mov (n : Nat) (g : Link → Link) (s : State) : (modL n g s).mov = s.mov := rfl
@[simp] theorem modL_cip (n : Nat) (g : Link → Link) (s : State) : (modL n g s).cip = s.cip := rfl
@[simp] theorem modL_trust (n : Nat) (g : Link → Link) (s : State) : (modL n g s).trust = s.trust := rfl
@[simp] theorem modL_eth (n : Nat) (g : Link → Link) (s : State) : (modL n g s).eth = s.eth := rfl
@[simp] theorem modL_agl (n : Nat) (g : Link → Link) (s : State) : (modL n g s).agl = s.agl := rfl
@[simp] theorem modL_err (n : Nat) (g : Link → Link) (s : State) : (modL n g s).err = s.err := rfl
@[simp] theorem modL_boot (n : Nat) (g : Link → Link) (s : State) : (modL n g s).boot = s.boot := rfl
@[simp] theorem modL_pwr (n : Nat) (g : Link → Link) (s : State) : (modL n g s).pwr = s.pwr := rfl
@[simp] theorem modL_thm (n : Nat) (g : Link → Link) (s : State) : (modL n g s).thm = s.thm := rfl

@[simp] theorem modEth_pending (p : Nat) (g : EthPort → EthPort) (s : State) : (modEth p g s).pending = s.pending := rfl
@[simp] theorem modEth_part (p : Nat) (g : EthPort → EthPort) (s : State) : (modEth p g s).part = s.part := rfl
@[simp] theorem modEth_now (p : Nat) (g : EthPort → EthPort) (s : State) : (modEth p g s).now = s.now := rfl
@[simp] theorem modEth_free (p : Nat) (g : EthPort → EthPort) (s : State) : (modEth p g s).free = s.free := rfl
@[simp] theorem modEth_out (p : Nat) (g : EthPort → EthPort) (s : State) : (modEth p g s).out = s.out := rfl
@[simp] theorem modEth_mem (p : Nat) (g : EthPort → EthPort) (s : State) : (modEth p g s).mem = s.mem := rfl
@[simp] theorem modEth_regs (p : Nat) (g : EthPort → EthPort) (s : State) : (modEth p g s).regs = s.regs := rfl
@[simp] theorem modEth_facets (p : Nat) (g : EthPort → EthPort) (s : State) : (modEth p g s).facets = s.facets := rfl
@[simp] theorem modEth_arb (p : Nat) (g : EthPort → EthPort) (s : State) : (modEth p g s).arb = s.arb := rfl
@[simp] theorem modEth_qps (p : Nat) (g : EthPort → EthPort) (s : State) : (modEth p g s).qps = s.qps := rfl
@[simp] theorem modEth_zrt (p : Nat) (g : EthPort → EthPort) (s : State) : (modEth p g s).zrt = s.zrt := rfl
@[simp] theorem modEth_wheel (p : Nat) (g : EthPort → EthPort) (s : State) : (modEth p g s).wheel = s.wheel := rfl
@[simp] theorem modEth_mirror (p : Nat) (g : EthPort → EthPort) (s : State) : (modEth p g s).mirror = s.mirror := rfl
@[simp] theorem modEth_groups (p : Nat) (g : EthPort → EthPort) (s : State) : (modEth p g s).groups = s.groups := rfl
@[simp] theorem modEth_grp (p : Nat) (g : EthPort → EthPort) (s : State) : (modEth p g s).grp = s.grp := rfl
@[simp] theorem modEth_prism (p : Nat) (g : EthPort → EthPort) (s : State) : (modEth p g s).prism = s.prism := rfl
@[simp] theorem modEth_fab (p : Nat) (g : EthPort → EthPort) (s : State) : (modEth p g s).fab = s.fab := rfl
@[simp] theorem modEth_xlt (p : Nat) (g : EthPort → EthPort) (s : State) : (modEth p g s).xlt = s.xlt := rfl
@[simp] theorem modEth_memc (p : Nat) (g : EthPort → EthPort) (s : State) : (modEth p g s).memc = s.memc := rfl
@[simp] theorem modEth_pcx (p : Nat) (g : EthPort → EthPort) (s : State) : (modEth p g s).pcx = s.pcx := rfl
@[simp] theorem modEth_mov (p : Nat) (g : EthPort → EthPort) (s : State) : (modEth p g s).mov = s.mov := rfl
@[simp] theorem modEth_cip (p : Nat) (g : EthPort → EthPort) (s : State) : (modEth p g s).cip = s.cip := rfl
@[simp] theorem modEth_trust (p : Nat) (g : EthPort → EthPort) (s : State) : (modEth p g s).trust = s.trust := rfl
@[simp] theorem modEth_eth (p : Nat) (g : EthPort → EthPort) (s : State) : (modEth p g s).eth = { s.eth with ports := amod {} p g s.eth.ports } := rfl
@[simp] theorem modEth_agl (p : Nat) (g : EthPort → EthPort) (s : State) : (modEth p g s).agl = s.agl := rfl
@[simp] theorem modEth_err (p : Nat) (g : EthPort → EthPort) (s : State) : (modEth p g s).err = s.err := rfl
@[simp] theorem modEth_boot (p : Nat) (g : EthPort → EthPort) (s : State) : (modEth p g s).boot = s.boot := rfl
@[simp] theorem modEth_pwr (p : Nat) (g : EthPort → EthPort) (s : State) : (modEth p g s).pwr = s.pwr := rfl
@[simp] theorem modEth_thm (p : Nat) (g : EthPort → EthPort) (s : State) : (modEth p g s).thm = s.thm := rfl

@[simp] theorem modMir_pending (n : Nat) (g : QpMirror → QpMirror) (s : State) : (modMir n g s).pending = s.pending := rfl
@[simp] theorem modMir_part (n : Nat) (g : QpMirror → QpMirror) (s : State) : (modMir n g s).part = s.part := rfl
@[simp] theorem modMir_now (n : Nat) (g : QpMirror → QpMirror) (s : State) : (modMir n g s).now = s.now := rfl
@[simp] theorem modMir_free (n : Nat) (g : QpMirror → QpMirror) (s : State) : (modMir n g s).free = s.free := rfl
@[simp] theorem modMir_out (n : Nat) (g : QpMirror → QpMirror) (s : State) : (modMir n g s).out = s.out := rfl
@[simp] theorem modMir_mem (n : Nat) (g : QpMirror → QpMirror) (s : State) : (modMir n g s).mem = s.mem := rfl
@[simp] theorem modMir_regs (n : Nat) (g : QpMirror → QpMirror) (s : State) : (modMir n g s).regs = s.regs := rfl
@[simp] theorem modMir_facets (n : Nat) (g : QpMirror → QpMirror) (s : State) : (modMir n g s).facets = s.facets := rfl
@[simp] theorem modMir_arb (n : Nat) (g : QpMirror → QpMirror) (s : State) : (modMir n g s).arb = s.arb := rfl
@[simp] theorem modMir_qps (n : Nat) (g : QpMirror → QpMirror) (s : State) : (modMir n g s).qps = s.qps := rfl
@[simp] theorem modMir_zrt (n : Nat) (g : QpMirror → QpMirror) (s : State) : (modMir n g s).zrt = s.zrt := rfl
@[simp] theorem modMir_wheel (n : Nat) (g : QpMirror → QpMirror) (s : State) : (modMir n g s).wheel = s.wheel := rfl
@[simp] theorem modMir_mirror (n : Nat) (g : QpMirror → QpMirror) (s : State) : (modMir n g s).mirror = { s.mirror with qps := amod {} n g s.mirror.qps } := rfl
@[simp] theorem modMir_groups (n : Nat) (g : QpMirror → QpMirror) (s : State) : (modMir n g s).groups = s.groups := rfl
@[simp] theorem modMir_grp (n : Nat) (g : QpMirror → QpMirror) (s : State) : (modMir n g s).grp = s.grp := rfl
@[simp] theorem modMir_prism (n : Nat) (g : QpMirror → QpMirror) (s : State) : (modMir n g s).prism = s.prism := rfl
@[simp] theorem modMir_fab (n : Nat) (g : QpMirror → QpMirror) (s : State) : (modMir n g s).fab = s.fab := rfl
@[simp] theorem modMir_xlt (n : Nat) (g : QpMirror → QpMirror) (s : State) : (modMir n g s).xlt = s.xlt := rfl
@[simp] theorem modMir_memc (n : Nat) (g : QpMirror → QpMirror) (s : State) : (modMir n g s).memc = s.memc := rfl
@[simp] theorem modMir_pcx (n : Nat) (g : QpMirror → QpMirror) (s : State) : (modMir n g s).pcx = s.pcx := rfl
@[simp] theorem modMir_mov (n : Nat) (g : QpMirror → QpMirror) (s : State) : (modMir n g s).mov = s.mov := rfl
@[simp] theorem modMir_cip (n : Nat) (g : QpMirror → QpMirror) (s : State) : (modMir n g s).cip = s.cip := rfl
@[simp] theorem modMir_trust (n : Nat) (g : QpMirror → QpMirror) (s : State) : (modMir n g s).trust = s.trust := rfl
@[simp] theorem modMir_eth (n : Nat) (g : QpMirror → QpMirror) (s : State) : (modMir n g s).eth = s.eth := rfl
@[simp] theorem modMir_agl (n : Nat) (g : QpMirror → QpMirror) (s : State) : (modMir n g s).agl = s.agl := rfl
@[simp] theorem modMir_err (n : Nat) (g : QpMirror → QpMirror) (s : State) : (modMir n g s).err = s.err := rfl
@[simp] theorem modMir_boot (n : Nat) (g : QpMirror → QpMirror) (s : State) : (modMir n g s).boot = s.boot := rfl
@[simp] theorem modMir_pwr (n : Nat) (g : QpMirror → QpMirror) (s : State) : (modMir n g s).pwr = s.pwr := rfl
@[simp] theorem modMir_thm (n : Nat) (g : QpMirror → QpMirror) (s : State) : (modMir n g s).thm = s.thm := rfl

@[simp] theorem modChan_pending (c : Nat) (g : Channel → Channel) (s : State) : (modChan c g s).pending = s.pending := rfl
@[simp] theorem modChan_part (c : Nat) (g : Channel → Channel) (s : State) : (modChan c g s).part = s.part := rfl
@[simp] theorem modChan_now (c : Nat) (g : Channel → Channel) (s : State) : (modChan c g s).now = s.now := rfl
@[simp] theorem modChan_free (c : Nat) (g : Channel → Channel) (s : State) : (modChan c g s).free = s.free := rfl
@[simp] theorem modChan_out (c : Nat) (g : Channel → Channel) (s : State) : (modChan c g s).out = s.out := rfl
@[simp] theorem modChan_mem (c : Nat) (g : Channel → Channel) (s : State) : (modChan c g s).mem = s.mem := rfl
@[simp] theorem modChan_regs (c : Nat) (g : Channel → Channel) (s : State) : (modChan c g s).regs = s.regs := rfl
@[simp] theorem modChan_facets (c : Nat) (g : Channel → Channel) (s : State) : (modChan c g s).facets = s.facets := rfl
@[simp] theorem modChan_arb (c : Nat) (g : Channel → Channel) (s : State) : (modChan c g s).arb = s.arb := rfl
@[simp] theorem modChan_qps (c : Nat) (g : Channel → Channel) (s : State) : (modChan c g s).qps = s.qps := rfl
@[simp] theorem modChan_zrt (c : Nat) (g : Channel → Channel) (s : State) : (modChan c g s).zrt = s.zrt := rfl
@[simp] theorem modChan_wheel (c : Nat) (g : Channel → Channel) (s : State) : (modChan c g s).wheel = s.wheel := rfl
@[simp] theorem modChan_mirror (c : Nat) (g : Channel → Channel) (s : State) : (modChan c g s).mirror = s.mirror := rfl
@[simp] theorem modChan_groups (c : Nat) (g : Channel → Channel) (s : State) : (modChan c g s).groups = s.groups := rfl
@[simp] theorem modChan_grp (c : Nat) (g : Channel → Channel) (s : State) : (modChan c g s).grp = s.grp := rfl
@[simp] theorem modChan_prism (c : Nat) (g : Channel → Channel) (s : State) : (modChan c g s).prism = s.prism := rfl
@[simp] theorem modChan_fab (c : Nat) (g : Channel → Channel) (s : State) : (modChan c g s).fab = s.fab := rfl
@[simp] theorem modChan_xlt (c : Nat) (g : Channel → Channel) (s : State) : (modChan c g s).xlt = s.xlt := rfl
@[simp] theorem modChan_memc (c : Nat) (g : Channel → Channel) (s : State) : (modChan c g s).memc = s.memc := rfl
@[simp] theorem modChan_pcx (c : Nat) (g : Channel → Channel) (s : State) : (modChan c g s).pcx = s.pcx := rfl
@[simp] theorem modChan_mov (c : Nat) (g : Channel → Channel) (s : State) : (modChan c g s).mov = { s.mov with chans := amod {} c g s.mov.chans } := rfl
@[simp] theorem modChan_cip (c : Nat) (g : Channel → Channel) (s : State) : (modChan c g s).cip = s.cip := rfl
@[simp] theorem modChan_trust (c : Nat) (g : Channel → Channel) (s : State) : (modChan c g s).trust = s.trust := rfl
@[simp] theorem modChan_eth (c : Nat) (g : Channel → Channel) (s : State) : (modChan c g s).eth = s.eth := rfl
@[simp] theorem modChan_agl (c : Nat) (g : Channel → Channel) (s : State) : (modChan c g s).agl = s.agl := rfl
@[simp] theorem modChan_err (c : Nat) (g : Channel → Channel) (s : State) : (modChan c g s).err = s.err := rfl
@[simp] theorem modChan_boot (c : Nat) (g : Channel → Channel) (s : State) : (modChan c g s).boot = s.boot := rfl
@[simp] theorem modChan_pwr (c : Nat) (g : Channel → Channel) (s : State) : (modChan c g s).pwr = s.pwr := rfl
@[simp] theorem modChan_thm (c : Nat) (g : Channel → Channel) (s : State) : (modChan c g s).thm = s.thm := rfl

@[simp] theorem modAgent_pending (a : Nat) (g : Agent → Agent) (s : State) : (modAgent a g s).pending = s.pending := rfl
@[simp] theorem modAgent_part (a : Nat) (g : Agent → Agent) (s : State) : (modAgent a g s).part = s.part := rfl
@[simp] theorem modAgent_now (a : Nat) (g : Agent → Agent) (s : State) : (modAgent a g s).now = s.now := rfl
@[simp] theorem modAgent_free (a : Nat) (g : Agent → Agent) (s : State) : (modAgent a g s).free = s.free := rfl
@[simp] theorem modAgent_out (a : Nat) (g : Agent → Agent) (s : State) : (modAgent a g s).out = s.out := rfl
@[simp] theorem modAgent_mem (a : Nat) (g : Agent → Agent) (s : State) : (modAgent a g s).mem = s.mem := rfl
@[simp] theorem modAgent_regs (a : Nat) (g : Agent → Agent) (s : State) : (modAgent a g s).regs = s.regs := rfl
@[simp] theorem modAgent_facets (a : Nat) (g : Agent → Agent) (s : State) : (modAgent a g s).facets = s.facets := rfl
@[simp] theorem modAgent_arb (a : Nat) (g : Agent → Agent) (s : State) : (modAgent a g s).arb = s.arb := rfl
@[simp] theorem modAgent_qps (a : Nat) (g : Agent → Agent) (s : State) : (modAgent a g s).qps = s.qps := rfl
@[simp] theorem modAgent_zrt (a : Nat) (g : Agent → Agent) (s : State) : (modAgent a g s).zrt = s.zrt := rfl
@[simp] theorem modAgent_wheel (a : Nat) (g : Agent → Agent) (s : State) : (modAgent a g s).wheel = s.wheel := rfl
@[simp] theorem modAgent_mirror (a : Nat) (g : Agent → Agent) (s : State) : (modAgent a g s).mirror = s.mirror := rfl
@[simp] theorem modAgent_groups (a : Nat) (g : Agent → Agent) (s : State) : (modAgent a g s).groups = s.groups := rfl
@[simp] theorem modAgent_grp (a : Nat) (g : Agent → Agent) (s : State) : (modAgent a g s).grp = s.grp := rfl
@[simp] theorem modAgent_prism (a : Nat) (g : Agent → Agent) (s : State) : (modAgent a g s).prism = s.prism := rfl
@[simp] theorem modAgent_fab (a : Nat) (g : Agent → Agent) (s : State) : (modAgent a g s).fab = s.fab := rfl
@[simp] theorem modAgent_xlt (a : Nat) (g : Agent → Agent) (s : State) : (modAgent a g s).xlt = s.xlt := rfl
@[simp] theorem modAgent_memc (a : Nat) (g : Agent → Agent) (s : State) : (modAgent a g s).memc = s.memc := rfl
@[simp] theorem modAgent_pcx (a : Nat) (g : Agent → Agent) (s : State) : (modAgent a g s).pcx = s.pcx := rfl
@[simp] theorem modAgent_mov (a : Nat) (g : Agent → Agent) (s : State) : (modAgent a g s).mov = s.mov := rfl
@[simp] theorem modAgent_cip (a : Nat) (g : Agent → Agent) (s : State) : (modAgent a g s).cip = s.cip := rfl
@[simp] theorem modAgent_trust (a : Nat) (g : Agent → Agent) (s : State) : (modAgent a g s).trust = s.trust := rfl
@[simp] theorem modAgent_eth (a : Nat) (g : Agent → Agent) (s : State) : (modAgent a g s).eth = s.eth := rfl
@[simp] theorem modAgent_agl (a : Nat) (g : Agent → Agent) (s : State) : (modAgent a g s).agl = s.agl := rfl
@[simp] theorem modAgent_err (a : Nat) (g : Agent → Agent) (s : State) : (modAgent a g s).err = s.err := rfl
@[simp] theorem modAgent_boot (a : Nat) (g : Agent → Agent) (s : State) : (modAgent a g s).boot = { s.boot with agents := amod {} a g s.boot.agents } := rfl
@[simp] theorem modAgent_pwr (a : Nat) (g : Agent → Agent) (s : State) : (modAgent a g s).pwr = s.pwr := rfl
@[simp] theorem modAgent_thm (a : Nat) (g : Agent → Agent) (s : State) : (modAgent a g s).thm = s.thm := rfl

@[simp] theorem noteBusy_pending (s : State) : (noteBusy s).pending = s.pending := rfl
@[simp] theorem noteBusy_part (s : State) : (noteBusy s).part = s.part := rfl
@[simp] theorem noteBusy_now (s : State) : (noteBusy s).now = s.now := rfl
@[simp] theorem noteBusy_free (s : State) : (noteBusy s).free = s.free := rfl
@[simp] theorem noteBusy_out (s : State) : (noteBusy s).out = s.out := rfl
@[simp] theorem noteBusy_mem (s : State) : (noteBusy s).mem = s.mem := rfl
@[simp] theorem noteBusy_regs (s : State) : (noteBusy s).regs = s.regs := rfl
@[simp] theorem noteBusy_facets (s : State) : (noteBusy s).facets = s.facets := rfl
@[simp] theorem noteBusy_arb (s : State) : (noteBusy s).arb = s.arb := rfl
@[simp] theorem noteBusy_qps (s : State) : (noteBusy s).qps = s.qps := rfl
@[simp] theorem noteBusy_zrt (s : State) : (noteBusy s).zrt = s.zrt := rfl
@[simp] theorem noteBusy_wheel (s : State) : (noteBusy s).wheel = s.wheel := rfl
@[simp] theorem noteBusy_mirror (s : State) : (noteBusy s).mirror = s.mirror := rfl
@[simp] theorem noteBusy_groups (s : State) : (noteBusy s).groups = s.groups := rfl
@[simp] theorem noteBusy_grp (s : State) : (noteBusy s).grp = s.grp := rfl
@[simp] theorem noteBusy_prism (s : State) : (noteBusy s).prism = s.prism := rfl
@[simp] theorem noteBusy_fab (s : State) : (noteBusy s).fab = s.fab := rfl
@[simp] theorem noteBusy_xlt (s : State) : (noteBusy s).xlt = s.xlt := rfl
@[simp] theorem noteBusy_memc (s : State) : (noteBusy s).memc = s.memc := rfl
@[simp] theorem noteBusy_pcx (s : State) : (noteBusy s).pcx = s.pcx := rfl
@[simp] theorem noteBusy_mov (s : State) : (noteBusy s).mov = s.mov := rfl
@[simp] theorem noteBusy_cip (s : State) : (noteBusy s).cip = s.cip := rfl
@[simp] theorem noteBusy_trust (s : State) : (noteBusy s).trust = s.trust := rfl
@[simp] theorem noteBusy_eth (s : State) : (noteBusy s).eth = s.eth := rfl
@[simp] theorem noteBusy_agl (s : State) : (noteBusy s).agl = s.agl := rfl
@[simp] theorem noteBusy_err (s : State) : (noteBusy s).err = s.err := rfl
@[simp] theorem noteBusy_boot (s : State) : (noteBusy s).boot = s.boot := rfl
@[simp] theorem noteBusy_pwr (s : State) : (noteBusy s).pwr = { s.pwr with idleAt := s.now } := rfl
@[simp] theorem noteBusy_thm (s : State) : (noteBusy s).thm = s.thm := rfl

@[simp] theorem toStage_pending (n : Nat) (s : State) : (toStage n s).pending = s.pending := rfl
@[simp] theorem toStage_part (n : Nat) (s : State) : (toStage n s).part = s.part := rfl
@[simp] theorem toStage_now (n : Nat) (s : State) : (toStage n s).now = s.now := rfl
@[simp] theorem toStage_free (n : Nat) (s : State) : (toStage n s).free = s.free := rfl
@[simp] theorem toStage_out (n : Nat) (s : State) : (toStage n s).out = s.out := rfl
@[simp] theorem toStage_mem (n : Nat) (s : State) : (toStage n s).mem = s.mem := rfl
@[simp] theorem toStage_regs (n : Nat) (s : State) : (toStage n s).regs = s.regs := rfl
@[simp] theorem toStage_facets (n : Nat) (s : State) : (toStage n s).facets = s.facets := rfl
@[simp] theorem toStage_arb (n : Nat) (s : State) : (toStage n s).arb = s.arb := rfl
@[simp] theorem toStage_qps (n : Nat) (s : State) : (toStage n s).qps = s.qps := rfl
@[simp] theorem toStage_zrt (n : Nat) (s : State) : (toStage n s).zrt = s.zrt := rfl
@[simp] theorem toStage_wheel (n : Nat) (s : State) : (toStage n s).wheel = s.wheel := rfl
@[simp] theorem toStage_mirror (n : Nat) (s : State) : (toStage n s).mirror = s.mirror := rfl
@[simp] theorem toStage_groups (n : Nat) (s : State) : (toStage n s).groups = s.groups := rfl
@[simp] theorem toStage_grp (n : Nat) (s : State) : (toStage n s).grp = s.grp := rfl
@[simp] theorem toStage_prism (n : Nat) (s : State) : (toStage n s).prism = s.prism := rfl
@[simp] theorem toStage_fab (n : Nat) (s : State) : (toStage n s).fab = s.fab := rfl
@[simp] theorem toStage_xlt (n : Nat) (s : State) : (toStage n s).xlt = s.xlt := rfl
@[simp] theorem toStage_memc (n : Nat) (s : State) : (toStage n s).memc = s.memc := rfl
@[simp] theorem toStage_pcx (n : Nat) (s : State) : (toStage n s).pcx = s.pcx := rfl
@[simp] theorem toStage_mov (n : Nat) (s : State) : (toStage n s).mov = s.mov := rfl
@[simp] theorem toStage_cip (n : Nat) (s : State) : (toStage n s).cip = s.cip := rfl
@[simp] theorem toStage_trust (n : Nat) (s : State) : (toStage n s).trust = s.trust := rfl
@[simp] theorem toStage_eth (n : Nat) (s : State) : (toStage n s).eth = s.eth := rfl
@[simp] theorem toStage_agl (n : Nat) (s : State) : (toStage n s).agl = s.agl := rfl
@[simp] theorem toStage_err (n : Nat) (s : State) : (toStage n s).err = s.err := rfl
@[simp] theorem toStage_boot (n : Nat) (s : State) : (toStage n s).boot = { s.boot with stage := n } := rfl
@[simp] theorem toStage_pwr (n : Nat) (s : State) : (toStage n s).pwr = s.pwr := rfl
@[simp] theorem toStage_thm (n : Nat) (s : State) : (toStage n s).thm = s.thm := rfl

@[simp] theorem writeAglSel_pending (v : U32) (s : State) : (writeAglSel v s).pending = s.pending := rfl
@[simp] theorem writeAglSel_part (v : U32) (s : State) : (writeAglSel v s).part = s.part := rfl
@[simp] theorem writeAglSel_now (v : U32) (s : State) : (writeAglSel v s).now = s.now := rfl
@[simp] theorem writeAglSel_free (v : U32) (s : State) : (writeAglSel v s).free = s.free := rfl
@[simp] theorem writeAglSel_out (v : U32) (s : State) : (writeAglSel v s).out = s.out := rfl
@[simp] theorem writeAglSel_mem (v : U32) (s : State) : (writeAglSel v s).mem = s.mem := rfl
@[simp] theorem writeAglSel_regs (v : U32) (s : State) : (writeAglSel v s).regs = s.regs := rfl
@[simp] theorem writeAglSel_facets (v : U32) (s : State) : (writeAglSel v s).facets = s.facets := rfl
@[simp] theorem writeAglSel_arb (v : U32) (s : State) : (writeAglSel v s).arb = s.arb := rfl
@[simp] theorem writeAglSel_qps (v : U32) (s : State) : (writeAglSel v s).qps = s.qps := rfl
@[simp] theorem writeAglSel_zrt (v : U32) (s : State) : (writeAglSel v s).zrt = s.zrt := rfl
@[simp] theorem writeAglSel_wheel (v : U32) (s : State) : (writeAglSel v s).wheel = s.wheel := rfl
@[simp] theorem writeAglSel_mirror (v : U32) (s : State) : (writeAglSel v s).mirror = s.mirror := rfl
@[simp] theorem writeAglSel_groups (v : U32) (s : State) : (writeAglSel v s).groups = s.groups := rfl
@[simp] theorem writeAglSel_grp (v : U32) (s : State) : (writeAglSel v s).grp = s.grp := rfl
@[simp] theorem writeAglSel_prism (v : U32) (s : State) : (writeAglSel v s).prism = s.prism := rfl
@[simp] theorem writeAglSel_fab (v : U32) (s : State) : (writeAglSel v s).fab = s.fab := rfl
@[simp] theorem writeAglSel_xlt (v : U32) (s : State) : (writeAglSel v s).xlt = s.xlt := rfl
@[simp] theorem writeAglSel_memc (v : U32) (s : State) : (writeAglSel v s).memc = s.memc := rfl
@[simp] theorem writeAglSel_pcx (v : U32) (s : State) : (writeAglSel v s).pcx = s.pcx := rfl
@[simp] theorem writeAglSel_mov (v : U32) (s : State) : (writeAglSel v s).mov = s.mov := rfl
@[simp] theorem writeAglSel_cip (v : U32) (s : State) : (writeAglSel v s).cip = s.cip := rfl
@[simp] theorem writeAglSel_trust (v : U32) (s : State) : (writeAglSel v s).trust = s.trust := rfl
@[simp] theorem writeAglSel_eth (v : U32) (s : State) : (writeAglSel v s).eth = s.eth := rfl
@[simp] theorem writeAglSel_agl (v : U32) (s : State) : (writeAglSel v s).agl = { s.agl with sel := v } := rfl
@[simp] theorem writeAglSel_err (v : U32) (s : State) : (writeAglSel v s).err = s.err := rfl
@[simp] theorem writeAglSel_boot (v : U32) (s : State) : (writeAglSel v s).boot = s.boot := rfl
@[simp] theorem writeAglSel_pwr (v : U32) (s : State) : (writeAglSel v s).pwr = s.pwr := rfl
@[simp] theorem writeAglSel_thm (v : U32) (s : State) : (writeAglSel v s).thm = s.thm := rfl

end Sys2Proof.Machine
end

