-- ==== Sys2Proof/Laws/Tables.lean ====
section
/-!
SUPPORT. Sparse tables: what a lookup answers after an entry is set or changed; and the accessors of facets, queues,
rings, QPs, groups, links, ports and mover channels after one of them is changed.
-/
namespace Sys2Proof.Machine

theorem agetq_aset {α : Type} (k j : Nat) (v : α) (l : Assoc α) :
    agetq j (aset k v l) = if j = k then some v else agetq j l := by
  induction l with
  | nil =>
    by_cases h : j = k
    · simp [agetq, aset, h]
    · simp [agetq, aset, h, Ne.symm h]
  | cons p r ih =>
    obtain ⟨k', v'⟩ := p
    unfold aset
    split
    · by_cases h : j = k
      · simp [agetq, h]
      · simp [agetq, h, Ne.symm h]
    · split
      · next h =>
        subst h
        by_cases h : j = k
        · simp [agetq, h]
        · simp [agetq, h, Ne.symm h]
      · by_cases h : k' = j
        · have : ¬ j = k := by omega
          simp [agetq, h, this]
        · unfold agetq at ih ⊢
          simpa [h] using ih

@[simp] theorem aget_aset {α : Type} (d : α) (k j : Nat) (v : α) (l : Assoc α) :
    aget d j (aset k v l) = if j = k then v else aget d j l := by
  have h := agetq_aset k j v l
  unfold agetq at h
  unfold aget
  rw [h]
  split <;> rfl

@[simp] theorem aget_amod {α : Type} (d : α) (k j : Nat) (g : α → α) (l : Assoc α) :
    aget d j (amod d k g l) = if j = k then g (aget d k l) else aget d j l := by
  unfold amod
  rw [aget_aset]

@[simp] theorem getF_modF (f j : Nat) (g : Facet → Facet) (s : State) :
    getF (modF f g s) j = if j = f then g (getF s f) else getF s j := aget_amod ..

@[simp] theorem getQp_modQp (n j : Nat) (g : Qp → Qp) (s : State) :
    getQp (modQp n g s) j = if j = n then g (getQp s n) else getQp s j := aget_amod ..

@[simp] theorem getG_modG (n j : Nat) (g : Group → Group) (s : State) :
    getG (modG n g s) j = if j = n then g (getG s n) else getG s j := aget_amod ..

@[simp] theorem getP_modP (n j : Nat) (g : Port → Port) (s : State) :
    getP (modP n g s) j = if j = n then g (getP s n) else getP s j := aget_amod ..

@[simp] theorem getL_modL (n j : Nat) (g : Link → Link) (s : State) :
    getL (modL n g s) j = if j = n then g (getL s n) else getL s j := aget_amod ..

@[simp] theorem getEth_modEth (n j : Nat) (g : EthPort → EthPort) (s : State) :
    getEth (modEth n g s) j = if j = n then g (getEth s n) else getEth s j := aget_amod ..

@[simp] theorem getMir_modMir (n j : Nat) (g : QpMirror → QpMirror) (s : State) :
    getMir (modMir n g s) j = if j = n then g (getMir s n) else getMir s j := aget_amod ..

@[simp] theorem getCh10_modChan (n j : Nat) (g : Channel → Channel) (s : State) :
    getCh10 (modChan n g s) j = if j = n then g (getCh10 s n) else getCh10 s j := aget_amod ..

@[simp] theorem getAgent_modAgent (n j : Nat) (g : Agent → Agent) (s : State) :
    getAgent (modAgent n g s) j = if j = n then g (getAgent s n) else getAgent s j := aget_amod ..

/-- A queue after a queue is changed. -/
theorem getQ_modQ (f j : Nat) (rq rq' : Bool) (q k : Nat) (g : Queue → Queue) (s : State) :
    getQ (modQ f rq q g s) j rq' k = if j = f ∧ rq' = rq ∧ k = q then g (getQ s f rq q) else getQ s j rq' k := by
  unfold getQ modQ
  rw [getF_modF]
  by_cases hj : j = f
  · subst hj
    cases rq <;> cases rq' <;> simp [FacetQue.mod]
  · simp [hj]

/-- An event ring after a ring is changed. -/
theorem getE_modE (f j e k : Nat) (g : EvRing → EvRing) (s : State) :
    getE (modE f e g s) j k = if j = f ∧ k = e then g (getE s f e) else getE s j k := by
  unfold getE modE
  rw [getF_modF]
  by_cases hj : j = f
  · subst hj
    simp
  · simp [hj]

end Sys2Proof.Machine
end

