-- ==== Sys2Proof/Tests/Slice0.lean ====
section
/-!
SUPPORT. Small states for the tests, a term that each operand check refuses, tests of single commands against the
spec, and for every statement with hypotheses a theorem `wit_<Statement>` that shows concrete states and operands that
meet them, clause by clause.
-/
namespace Sys2Proof.Tests
open Sys2Proof Sys2Proof.Machine

set_option Elab.async false

/-- A pinned segment of the local memory from address 0 on, with all permissions and key 7. -/
def seg5 : Seg := { valid := true, target := 5, limit := 0xFFFFFFF, lrd := true, lwr := true, rrd := true, rwr := true, pin := true, key := 7 }

/-- Facet 0 with allotments and segments 1 (pinned) and 2. -/
def facet0 : Facet := { st := .on, aSq := 8, aRq := 8, aEvr := 8, aQp := 8, xlt := { segs := [(1, seg5), (2, { seg5 with pin := false })], tilesAllot := 512, winBase := [(5, 0)], winLim := [(5, 0xFFFFFFFFFFF)] } }

/-- A running adapter, 4000 s after reset, with sixteen memory channels of 4 GiB. -/
def up : State := { State.reset with
  boot := { run := .running }, now := 1000000000000, facets := [(0, facet0)]
  trust := { ent := 1 }
  memc := { channels := 16, rate := 6400, chMib := 4096, regions := [0, 0, 0, 0, 0, 0], visible := 0x10000000, poolTiles := 1024 } }

/-- A change of facet 0 of `up`. -/
def upF (g : Facet → Facet) : State := modF 0 g up

/-- SQ 1, RQ 1 and event ring 2 of facet 0. -/
def upQ (x y : Queue) (e : EvRing) : State :=
  upF (fun z => { z with que := { z.que with sqs := [(1, x)], rqs := [(1, y)], evrs := [(2, e)] } })

/-- An active queue of 16 slots in segment 1 with event ring 2. -/
def qa : Queue := { cfg := 0x108001000000101, st := .active, progOff := 0x1000, born := true }

/-- An active event ring of 16 entries in segment 1. -/
def ea : EvRing := { cfg := 0x4000001000000001, active := true, armed := true }

/-- A descriptor from its first words. -/
def dsc (w0 : U64) (w2 w3 w4 w5 w6 w7 : U64) : Desc := ⟨w0, 0, w2, w3, w4, w5, w6, w7⟩

/-- `up` with one accepted descriptor in SQ 1. -/
def upD (d : Desc) : State := upQ { qa with pDev := 1, acc := 1, next := 1, items := [{ idx := 0, desc := d }] } qa ea

/-- An empty route header. -/
def rh0 : RouteHdr := { dst := 0, tc := 0, dl := false, dim := 0, dir := false, alt := false, altSeen := false, echoAlt := false, fixRail := false, rail := 0, toGw := false, gwPos := 0, notice := false, hops := 0, src := 0 }

/-- A packet with its ICRC. -/
def sealed (p : Packet) : Packet := { p with icrc := icrcOf p }

/-- A packet of a type with its extension header and data, from adapter 0, with its ICRC. -/
def pk (typ : BitVec 4) (e : Ext) (data : Bytes := []) (psn : U32 := 0) (qpn : BitVec 20 := 0) (ctag : U32 := 0) (msn : U32 := 0) : Packet :=
  let b : Bth := { ver := 1, typ := typ, first := true, last := true, ackreq := false, ce := false, ciph := false
                   resent := false, imm := false, lineage := 0, psn := psn, dstEp := 0, srcEp := 0, dstQpn := qpn
                   plen := BitVec.ofNat 13 data.length, ctag := ctag, msn := msn, rsv := 0 }
  sealed { rh := rh0, bth := b, ext := e, cph := none, data := data, icrc := 0 }

/-- A connected QP of facet 0 with segment 1. -/
def qn : Qp := { st := .rts, attr := 0x40000000000, segs := 1, pmtuExp := 4, winExp := 8, peerRq := true }

/-- A state with a QP 3 whose context is resident. -/
def withQp (q : Qp) (s : State) : State := { s with qps := [(3, q)], zrt := { resident := [3] } }

/-- A stream's access to tile 0 of segment 2. -/
def pieceOf (st : Sys2Proof.Stream) : Piece := { stream := st, facet := 0, seg := 2, off := 0, isWrite := true }

/-- A state whose fault record 7 holds a stream. -/
def parkS (st : Sys2Proof.Stream) (s : State) : State :=
  { s with xlt := { s.xlt with recs := [(7, { facet := 0, seg := 2, tile := 0, waiters := [pieceOf st] })] } }

/-- One started WRITE of 64 bytes at PSN 0, sent and not confirmed. -/
def qSent (op : Nat) : Qp := { qn with req := { next := 1, hi := 1, descs := [
  { q := 1, idx := 0, op := op, psn := 0, n := 1, msn := 0, len := 64, lseg := 1, loff := 0, recorded := true }] } }

/-- A WRITE, READ or SEND of 64 bytes on QP 3. -/
def trD (op : U64) : Desc := dsc op 0x1000003 64 0 0 0 0

/-- An answer with a syndrome. -/
def ans (syn : Byte) : Packet := pk 7 (.aeth 0 syn 0 0 0 0 0 0 0 0) [] 0 3

/-- A connection packet for QP 3 from QPN 4, with a reason. -/
def cm (typ : BitVec 4) (reason : Byte := 0) : Packet := pk typ (.cmeh 0 0 4 false false 4 8 0 reason 0) [] 0 3

/-- A group 5 of two members, on adapters 0 and 1. -/
def at2 : GroupAttr := { (default : GroupAttr) with gid := 5, gtag := 9, members := [0, 1] }

/-- `up` with group 5. -/
def withG (g : Group) (s : State) : State := { s with groups := [(5, g)] }

/-- A collective of group 5 at member 0. -/
def collR (op : Nat) : Coll := { op := op, csn := 0, sig := 0, chunkBytes := 4096, chunks := some 2, data := true, members := [
  { member := 0, f := 0, q := 1, idx := 0, csn := 0, desc := dsc (BitVec.ofNat 64 op) 5 0x01010000000004 0 0 0 0 }] }

/-- Group 5 with a running collective. -/
def gR (r : Coll) : Group := { st := .active, attr := at2, run := some r }

/-- A collective packet of group 5 from member 1 to member 0, with its ARG. -/
def cx (typ : BitVec 4) (sub : BitVec 4) (arg : U32 := 0) (data : Bytes := []) : Packet :=
  pk typ (.cxh 5 sub 1 0 0 false 0 0 0 0 0 arg) data 0 0 9 0

/-- `up` with a link. -/
def withL (l : Link) : State := { up with fab := { up.fab with links := [(3, l)] } }

/-- A flit kept for replay. -/
def fl0 : TxFlit := { fseq := 1, vc := 0, bytes := [] }

/-- A tile migration of tile 0 of segment 2, and the tile's mapping, in a phase. -/
def mg (isMap : Bool) (phase : Nat) : Mig :=
  { q := 1, idx := 0, isMap := isMap, facet := 0, seg := 2, tile := 0, loc := 5, addr := 0x1000000, present := true, phase := phase }

/-- A MOVE of one 4-byte element within segment 1. -/
def mvD : Desc := dsc 0x20 0x10120101 0x0010000100001 0 0x100 0 0

/-- The first 14 bytes of a broadcast frame. -/
def ethHdr (t : Bytes) : Bytes := List.replicate 6 0xFF ++ List.replicate 6 1 ++ t

/-- A frame that carries a ZRT packet of 32 bytes to port 0x1234 of address 0.0.0.0. -/
def zFrame : Bytes := ethHdr [8, 0] ++ [0x45, 0, 0, 0x3C, 0, 0, 0x40, 0, 0x40, 0x11, 0x3A, 0xB2] ++ List.replicate 8 0 ++
  [0, 0, 0x12, 0x34, 0, 0x28, 0, 0] ++ List.replicate 32 0

/-- `up` with Ethernet port 0 up, one sub-port, broadcast on and ZRT port 0x1234. -/
def upE : State := { modEth 0 (fun e => { e with up := 1 }) up with regs := [(0x500, 0x1234), (0x510, 0), (0x540, 4)] }

/-- An ETH_SEND of a template of 14 bytes and 64 bytes of payload, of one frame. -/
def sndD : Desc := dsc 0x37 0xE0 0x400101 0 0x100 0 0

/-- Readings of a cool adapter with its supplies at their nominal values. -/
def rd0 : Readings := { temps := List.replicate 7 400, levelClosed := true, rpms := List.replicate 4 5000, supplies := [1800, 1050, 500, 850] }

/-- A running packet job and a running piece of a compatibility command on core 0. -/
def coreRun (j : Job) : Assoc Core := [(0, { run := some { job := j, key := none, left := 4, since := 0 } })]

/-! ### Operand checks: the first value that each check refuses, and the last that it admits -/

/-- Each of these operands is outside its limit. -/
theorem test_refused_1 : ([
   .deviceReset 128 255, .deviceReset 127 256,
    .bootStageDone { (default : BootInfo) with channels := 12, chMib := 2048 },
    .bootStageDone { (default : BootInfo) with channels := 36, chMib := 2048 },
    .bootStageDone { (default : BootInfo) with channels := 18, chMib := 2048 },
    .bootStageDone { (default : BootInfo) with channels := 16, chMib := 1024 },
    .registerWrite { src := .agent 6, f := 0 } 65535 default default,
    .registerWrite { src := .vf 0, f := 0 } 65535 default default,
    .registerWrite { src := .vf 128, f := 0 } 65535 default default,
    .registerWrite { src := .bar, f := 128 } 65535 default default,
    .registerWrite { src := .agent 5, f := 127 } 65536 default default, .fetchReadDone 128 default 255 default,
    .fetchReadDone 127 default 256 default, .reread 128 default 255, .reread 127 default 256,
    .queSqDoorbell 128 255 default, .queSqDoorbell 127 256 default,
    .push { src := .agent 6, f := 0 } 255 4095 default default,
    .push { src := .vf 0, f := 0 } 255 4095 default default,
    .push { src := .vf 128, f := 0 } 255 4095 default default,
    .push { src := .bar, f := 128 } 255 4095 default default,
    .push { src := .agent 5, f := 127 } 256 4095 default default,
    .push { src := .agent 5, f := 127 } 255 4096 default default, .descriptorAccept 128 default 255,
    .descriptorAccept 127 default 256, .progressRecord 128 default 255, .progressRecord 127 default 256,
    .eventEntry 128 default 255, .eventEntry 127 default 256, .msixHoldExpiry 128 63, .msixHoldExpiry 127 64,
    .queEvrCons 128 63 default, .queEvrCons 127 64 default, .queEvrConsArm 128 63 default,
    .queEvrConsArm 127 64 default, .queRqDoorbell 128 255 default, .queRqDoorbell 127 256 default,
    .queueCreate 128 .evr 63, .queueCreate 127 .sq 256, .queueCreate 127 .rq 256] : List Instr).all (fun i => !i.wf) = true := by decide +kernel

/-- Each of these operands is outside its limit. -/
theorem test_refused_2 : ([
   .queueCreate 127 .evr 64, .queueDestroy 128 .evr 63, .queueDestroy 127 .sq 256, .queueDestroy 127 .rq 256,
    .queueDestroy 127 .evr 64, .queueRestart 128 .evr 63, .queueRestart 127 .sq 256, .queueRestart 127 .rq 256,
    .queueRestart 127 .evr 64, .nop 128 255, .nop 127 256, .write 128 255, .write 127 256, .read 128 255,
    .read 127 256, .send 128 255, .send 127 256, .recv 128 255, .recv 127 256, .qpCreate 128, .qpConnect 128,
    .qpDestroy 128, .qpQuery 128, .connectRetry 1048576, .contextFetchDone 1048576, .packetSend 1048576,
    .sourceReadDone (.packet 1048576 0) default, .sourceReadDone (.readResp 1048576 0) default,
    .sourceReadDone (.chunk 4096 0 0) default, .sourceReadDone (.chunk 0 65536 0) default,
    .sourceReadDone (.mover 32) default, .sourceReadDone (.frame 256) default, .flushReadCompletion 5 default,
    .resendTimeout 1048576, .rnrBackoffEnd 1048576, .nakWaitResend 1048576, .holdResend 1048576,
    .holdLimit 1048576, .ratePeriod 1048576, .groupCreate 128 255 default default default default] : List Instr).all (fun i => !i.wf) = true := by decide +kernel

/-- Each of these operands is outside its limit. -/
theorem test_refused_3 : ([
   .groupCreate 127 256 default default default default, .groupDestroy 128 255, .groupDestroy 127 256,
    .groupQuery 128 255, .groupQuery 127 256, .groupSetupResend 4096, .setupExpiry 4096, .teardownResend 4096,
    .barrier 128 255, .barrier 127 256, .allreduce 128 255, .allreduce 127 256, .reduce 128 255, .reduce 127 256,
    .reduceScatter 128 255, .reduceScatter 127 256, .broadcast 128 255, .broadcast 127 256, .allgather 128 255,
    .allgather 127 256, .gather 128 255, .gather 127 256, .scatter 128 255, .scatter 127 256, .alltoall 128 255,
    .alltoall 127 256, .gatherv 128 255 default, .gatherv 127 256 default, .alltoallv 128 255 default,
    .alltoallv 127 256 default, .expertDispatch 128 255 default, .expertDispatch 127 256 default,
    .expertCombine 128 255 default, .expertCombine 127 256 default, .confResend 4096,
    .chunkResendRequest 4096 default, .collHoldLimit 4096, .prismChunkDone 4096 default,
    .residueError 8 31 15 default, .residueError 7 32 15 default] : List Instr).all (fun i => !i.wf) = true := by decide +kernel

/-- Each of these operands is outside its limit. -/
theorem test_refused_4 : ([
   .residueError 7 31 16 default, .signalDetect 24, .detectProbe 24, .equalizationDone 24, .trainTimeout 24,
    .lockAndDeskew 24, .alignTimeout 24, .farLinkWord 24 default, .exchangeTimeout 24, .lossOfLock 24,
    .svlLnkCtrlRetrain 24, .miswireHoldEnd 24, .lpreqRequestSleep 24, .lpreqGrantSleep 24, .lpreqWake 24 default,
    .flit 24 default default default default (List.replicate 240 0),
    .flit 23 default default default default (List.replicate 241 0), .replayTimer 24, .fecWindow 24,
    .gwShunExpiry 64, .segmentWrite 128, .segmentInvalidate 128, .segmentRead 128,
    .translationMissDone (.source 1048576), .translationMissDone (.responder 1048576),
    .translationMissDone (.readResp 1048576), .translationMissDone (.coll 4096 0),
    .translationMissDone (.coll 0 65536), .translationMissDone (.mover 32), .translationMissDone (.desc 256),
    .fltResume 128 default, .fltCfgWrite 128 default, .fltCons 128 default, .fltArm 128 default,
    .tileMigrate 128 255, .tileMigrate 127 256, .tileMap 128 255, .tileMap 127 256,
    .migrationDrained 128 255 8388607, .migrationDrained 127 256 8388607] : List Instr).all (fun i => !i.wf) = true := by decide +kernel

/-- Each of these operands is outside its limit. -/
theorem test_refused_5 : ([
   .migrationDrained 127 255 8388608, .migrationCopyDone 128 255 8388607 default,
    .migrationCopyDone 127 256 8388607 default, .migrationCopyDone 127 255 8388608 default, .portDown 5 default,
    .dlUp 5 default 6 16 default, .dlUp 4 default 0 16 default, .dlUp 4 default 7 16 default,
    .dlUp 4 default 6 0 default, .dlUp 4 default 6 3 default, .pcxAttachEpoch 128, .pcxDevPort 128 4,
    .pcxDevPort 127 5, .pcxDevPortB 128 3, .pcxDevPortB 127 4, .busMasterEnable 128 default,
    .bridgeConfigWrite (.bridge 8) .busNumbers default default,
    .bridgeConfigWrite (.bridge 8) .window default default, .bridgeConfigWrite (.bridge 8) .acs default default,
    .bridgeConfigWrite (.bridge 8) .secondaryReset default default,
    .bridgeConfigWrite .pf0 (.bar 3) default default, .bridgeConfigWrite .vfs (.bar 3) default default,
    .bridgeConfigWrite .upstream .acs default default, .bridgeConfigWrite .pf0 .vfEnable default default,
    .bridgeConfigWrite (.bridge 0) (.bar 0) default default, .flr 128, .portReadError 5 default 5 default default,
    .portReadError 4 default 0 default default, .portReadError 4 default 6 default default, .flushRetry 5 default,
    .move 128 255, .move 127 256, .dmaReq 8 default, .movFacReq 128 default, .movFacPendClear 128 default,
    .movBuserr 6 default 5 default, .movBuserr 5 default 0 default, .movBuserr 5 default 6 default,
    .movDevCtrlResume 128, .movDevCtrlAbort 128] : List Instr).all (fun i => !i.wf) = true := by decide +kernel

/-- Each of these operands is outside its limit. -/
theorem test_refused_6 : ([
   .facetResize 128 255 (List.replicate 16 0), .facetResize 127 256 (List.replicate 16 0),
    .facetResize 127 255 (List.replicate 15 0), .facetReset 128 255, .facetReset 127 256, .facetResetAdvance 128,
    .cipKeyLoad 128, .cipKeyClear 128, .cipKeySwitch 128, .cipKeyQuery 128, .cbcEncrypt 128 default,
    .cbcDecrypt 128 default, .ctr 128 default, .cipherJobDone 8 default, .trustAttReport 128,
    .trustAttCertificate 128, .trustDevExtCmd 128 default, .maskRekey 8,
    .ethFrame 2 3 default default default default, .ethFrame 1 4 default default default default, .ethLinkUp 2 3,
    .ethLinkUp 1 4, .ethLinkDown 2 3, .ethLinkDown 1 4, .ethSend 128 255 default, .ethSend 127 256 default,
    .ethFrameSent 128 255 default, .ethFrameSent 127 256 default, .errorEvent 64 255 default (some 127),
    .errorEvent 63 256 default (some 127), .errorEvent 63 255 default (some 128), .errDevForce 128 default,
    .unitFence 128 255, .unitFence 127 256, .unitUnfence 128 255, .unitUnfence 127 256, .aglSel 128 default,
    .agentWatchdog 6, .agentTrap 6, .lanDevKick (some 8) default] : List Instr).all (fun i => !i.wf) = true := by decide +kernel

/-- Each of these operands is outside its limit. -/
theorem test_refused_7 : ([
   .holdActiveWrite 128 default, .wakeInput (.wakeDn 4), .wakeInput (.pattern 2),
    .sampleCycle { rd0 with temps := [] }, .sampleCycle { rd0 with rpms := [] },
    .sampleCycle { rd0 with supplies := [] }, .powerGood 8, .railTimeout 8, .railOff 8,
    .coolingPeriod { rd0 with temps := [] }, .coolingPeriod { rd0 with rpms := [] },
    .coolingPeriod { rd0 with supplies := [] }, .msixEnable 128,
    .peerRequest 5 default 255 { addr := 0, bus := some 255, translated := false } default default,
    .peerRequest 4 default 256 { addr := 0, bus := some 255, translated := false } default default,
    .peerRequest 4 default 255 { addr := 0, bus := some 256, translated := false } default default,
    .windowWrite { src := .agent 6, off := 0 } default, .windowWrite { src := .vf 0, off := 0 } default,
    .windowWrite { src := .vf 128, off := 0 } default, .windowWrite { src := .bar, off := 0x8000000 } default,
    .windowWrite { src := .vf 1, off := 0x10000 } default, .windowWrite { src := .agent 5, off := 2 ^ 64 } default] : List Instr).all (fun i => !i.wf) = true := by decide +kernel

/-- Each of these operands is at its limit. -/
theorem test_admitted_1 : ([
   .deviceReset 127 255, .bootStageDone ({ (default : BootInfo) with channels := 32, chMib := 8192 }),
    .registerWrite { src := .agent 5, f := 127 } 65535 default default, .fetchReadDone 127 default 255 default,
    .reread 127 default 255, .queSqDoorbell 127 255 default,
    .push { src := .agent 5, f := 127 } 255 4095 default default, .descriptorAccept 127 default 255,
    .progressRecord 127 default 255, .eventEntry 127 default 255, .msixHoldExpiry 127 63,
    .queEvrCons 127 63 default, .queEvrConsArm 127 63 default, .queRqDoorbell 127 255 default,
    .queueCreate 127 .evr 63, .queueDestroy 127 .evr 63, .queueRestart 127 .evr 63, .nop 127 255, .write 127 255,
    .read 127 255, .send 127 255, .recv 127 255, .qpCreate 127, .qpConnect 127, .qpDestroy 127, .qpQuery 127,
    .connectRetry 1048575, .contextFetchDone 1048575, .packetSend 1048575, .sourceReadDone (.mover 31) default,
    .flushReadCompletion 4 default, .resendTimeout 1048575, .rnrBackoffEnd 1048575, .nakWaitResend 1048575,
    .holdResend 1048575, .holdLimit 1048575, .ratePeriod 1048575,
    .groupCreate 127 255 default default default default, .groupDestroy 127 255, .groupQuery 127 255] : List Instr).all (Instr.wf) = true := by decide +kernel

/-- Each of these operands is at its limit. -/
theorem test_admitted_2 : ([
   .groupSetupResend 4095, .setupExpiry 4095, .teardownResend 4095, .barrier 127 255, .allreduce 127 255,
    .reduce 127 255, .reduceScatter 127 255, .broadcast 127 255, .allgather 127 255, .gather 127 255,
    .scatter 127 255, .alltoall 127 255, .gatherv 127 255 default, .alltoallv 127 255 default,
    .expertDispatch 127 255 default, .expertCombine 127 255 default, .confResend 4095,
    .chunkResendRequest 4095 default, .collHoldLimit 4095, .prismChunkDone 4095 default,
    .residueError 7 31 15 default, .signalDetect 23, .detectProbe 23, .equalizationDone 23, .trainTimeout 23,
    .lockAndDeskew 23, .alignTimeout 23, .farLinkWord 23 default, .exchangeTimeout 23, .lossOfLock 23,
    .svlLnkCtrlRetrain 23, .miswireHoldEnd 23, .lpreqRequestSleep 23, .lpreqGrantSleep 23, .lpreqWake 23 default,
    .flit 23 default default default default (List.replicate 240 0), .replayTimer 23, .fecWindow 23,
    .gwShunExpiry 63, .segmentWrite 127] : List Instr).all (Instr.wf) = true := by decide +kernel

/-- Each of these operands is at its limit. -/
theorem test_admitted_3 : ([
   .segmentInvalidate 127, .segmentRead 127, .translationMissDone (.mover 31), .fltResume 127 default,
    .fltCfgWrite 127 default, .fltCons 127 default, .fltArm 127 default, .tileMigrate 127 255, .tileMap 127 255,
    .migrationDrained 127 255 8388607, .migrationCopyDone 127 255 8388607 default, .portDown 4 default,
    .dlUp 4 default 6 16 default, .pcxAttachEpoch 127, .pcxDevPort 127 4, .pcxDevPortB 127 3,
    .busMasterEnable 127 default, .bridgeConfigWrite (.bridge 7) .window default default, .flr 127,
    .portReadError 4 default 5 default default, .flushRetry 4 default, .move 127 255, .dmaReq 7 default,
    .movFacReq 127 default, .movFacPendClear 127 default, .movBuserr 5 default 5 default, .movDevCtrlResume 127,
    .movDevCtrlAbort 127, .facetResize 127 255 (List.replicate 16 0), .facetReset 127 255, .facetResetAdvance 127,
    .cipKeyLoad 127, .cipKeyClear 127, .cipKeySwitch 127, .cipKeyQuery 127, .cbcEncrypt 127 default,
    .cbcDecrypt 127 default, .ctr 127 default, .cipherJobDone 7 default, .trustAttReport 127] : List Instr).all (Instr.wf) = true := by decide +kernel

/-- Each of these operands is at its limit. -/
theorem test_admitted_4 : ([
   .trustAttCertificate 127, .trustDevExtCmd 127 default, .maskRekey 7,
    .ethFrame 1 3 default default default default, .ethLinkUp 1 3, .ethLinkDown 1 3, .ethSend 127 255 default,
    .ethFrameSent 127 255 default, .errorEvent 63 255 default (some 127), .errDevForce 127 default,
    .unitFence 127 255, .unitUnfence 127 255, .aglSel 127 default, .agentWatchdog 5, .agentTrap 5,
    .lanDevKick (some 7) default, .holdActiveWrite 127 default, .wakeInput (.pattern 1), .sampleCycle rd0,
    .powerGood 7, .railTimeout 7, .railOff 7, .coolingPeriod rd0, .msixEnable 127,
    .peerRequest 4 default 255 { addr := 0, bus := some 255, translated := false } default default,
    .windowWrite { src := .agent 5, off := 2 ^ 64 - 1 } default] : List Instr).all (Instr.wf) = true := by decide +kernel


/-! ### Single commands and functions against the spec's examples -/

/-- A command's next state, for tests. -/
def after (c : Instr) (s : State) : State :=
  match exec c s with
  | .next t => t
  | _ => s

/-- Endpoint 0x0214_0A3F is on adapter 0x0014_0A3F, in pod 5 (the example of 00_scope.md). -/
theorem test_endpoint_adapter : epAdapter 0x2140A3F = 0x140A3F ∧ podOf 0x140A3F = 5 := by decide +kernel

/-- The doorbell of 02_work_queues.md's example: 224 descriptors in an SQ of 256 slots, and 20 more past the wrap. -/
theorem test_doorbell_wraps :
    (let s := upQ { qa with cfg := 0x108010000000101, head := 0xFFFFFF10, pDev := 0xFFFFFFF0 } qa ea
     let x := getQ (after (.queSqDoorbell 0 1 4) s) 0 false 1
     x.pDev = 4 ∧ x.st = .active) := by decide +kernel

/-- With one descriptor more than the slots the queue ends in ERROR with OVERFLOW at the first index beyond (R44). -/
theorem test_doorbell_overflow :
    (let x := getQ (after (.queSqDoorbell 0 1 17) (upQ qa qa ea)) 0 false 1
     x.st = .error ∧ x.errIdx = 16) := by decide +kernel

/-- SEQ_TAG and SEQ_PHASE of indices 0xFFFF_FFF0 and 2 (the example of 02_work_queues.md). -/
theorem test_sequence_tag : seqOk (dsc 0xFFF01001 0 0 0 0 0 0) 0xFFFFFFF0 ∧ seqOk (dsc 0x00020001 0 0 0 0 0 0) 2 ∧
    seqOk (dsc 0x00021001 0 0 0 0 0 0) 2 = false := by decide +kernel

/-- The profile of the rate example of 04_rates_and_arbitration.md, at a time in ns after the first ACK. -/
def rateS (ns : Nat) : State := { up with
  now := BitVec.ofNat 64 (1000000000000 + ns / 4)
  regs := [(0xC200, 0x1000000000000), (0xC208, BitVec.ofNat 64 (64 + 2 * 2 ^ 8 + 3 * 2 ^ 12 + 3 * 2 ^ 16 + 2000 * 2 ^ 20))] }

/-- The rows of that example: the cut at 0 µs, none at 2 µs, the period at 8 µs, the cut at 9.5 µs, and the periods in
stages 1 to 4 after it. -/
theorem test_rate_example :
    (let x : QpRate := { r := 100000, rt := 100000, line := 100000 }
     let a := (rateCut (rateS 0) x).1
     let b := rateStep (rateS 8000) (rateCut (rateS 2000) a).1
     let c := (rateCut (rateS 9500) b).1
     let d := rateStep (rateS 17500) c
     let e := rateStep (rateS 25500) d
     let f := rateStep (rateS 33500) e
     let g := rateStep (rateS 41500) f
     [a, (rateCut (rateS 2000) a).1, b, c, d, e, f, g].map (fun x => (x.rt.toNat, x.r.toNat)) =
       [(100000, 75000), (100000, 75000), (100000, 87500), (87500, 65625), (87500, 76562), (87500, 82031),
        (87500, 84765), (89500, 87132)]) := by decide +kernel

/-- The route entries of 05_collective_operations.md's example: 64 tokens with top-2 routing place RC at 520. -/
theorem test_received_counts_at : auxRc (dsc 0x1B 0x100000000000000 64 0 0 0 0) = 520 := by decide +kernel

/-- BF16 values of members 0 to 511 in the example of 06_prism_reduction_arithmetic.md. -/
def calib : List Val := [0x3F80, 0x3B80, 0x3B80, 0xBF80].map (decodeF (fmtOf 1)) ++
  List.replicate 496 (.num false 0 0) ++ [decodeF (fmtOf 1) 0x3300] ++ List.replicate 11 (.num false 0 0)

/-- Its native results with PLAN 0 and PLAN 1 over 512 members. -/
theorem test_native_sum : [0, 1].map (fun plan => encodeF (fmtOf 1) false false (reduceFloat 1 plan 0 calib)) =
    [0x3B80, 0x3C00] := by decide +kernel

/-- Its anchored result with WINOPT 0, headroom 10 and 32-bit words, and the words of members 0, 1, 3 and 500. -/
theorem test_anchored_sum : encodeF (fmtOf 1) false false (anchoredSum 32 10 calib) = 0x3C00 ∧
    ([0x3F80, 0x3B80, 0xBF80, 0x3300].map (fun x => wordOf 32 10 0x7F (decodeF (fmtOf 1) x))) =
      [0x00100000, 0x00001000, 0xFFF00000, 0] := by decide +kernel

/-- The send program of 07_element_programs.md. -/
def mxProg : List U64 := [0x0000003100000002, 0x0000000000000243, 0x0000000301002235, 0x0000000000203042,
  0x000000000000041B, 0x000000000000451A, 0x0000000801005531, 0x0000000000053631, 0x0000000000064719,
  0x43E0000001307840, 0x0000000000085531, 0xFFFFFF8101005533, 0x0000007F01005534, 0x0000000000053631,
  0x0000000000060019, 0x0000000300000021, 0x0000007F01005130]

/-- Its block: the largest gradient becomes 0x77, the small one 0xD0, under the scale byte 0x72; without the program the
scale byte is 0x71 and the largest is 0x7E. -/
theorem test_send_program :
    (let bs : Bytes := [0xF6, 0x3C, 0x83, 0xBA] ++ List.replicate 60 0
     programsFault 5 mxProg [] [] = none ∧
     (runStream mxProg 1 5 bs).take 3 = [0x72, 0x77, 0xD0] ∧
     (mxEncode 5 false ((elemsOf 1 bs).map (fun x => valOf x.1))).take 2 = [0x71, 0x7E]) := by decide +kernel

/-- The visible bytes of 32 channels of 8 GiB (the example of 09_translation_and_local_memory.md). -/
theorem test_visible_bytes : visibleBytes 32 8192 = 265060835328 := by decide +kernel

/-- CBC with PKCS#7 makes 48 bytes of 37, the last eleven 0x0B (the example of 12_cipher_and_trust.md). -/
theorem test_cbc_padding : cmpOutMax 1 0 37 = 48 ∧ cbcPad 0 37 = List.replicate 11 0x0B ∧
    cbcPad 1 37 = List.replicate 11 0 := by decide +kernel

/-- The export of 13_ethernet_ports.md's example makes 12 datagrams. -/
theorem test_export_frames : sendFrames (dsc 0x37 (BitVec.ofNat 64 (8 + 62 * 16 + 8952 * 2048)) (BitVec.ofNat 64 (100000 * 65536)) 0 0 0 0) = 12 := by
  decide +kernel

/-- The cooling loop of 16_power_thermal_glimmer.md's example, before period n of 1 to 4. -/
def coolS (u : U16) (i : Int) : State := { up with
  thm := { u := u, i := i, fresh := false }
  regs := [(0x200, BitVec.ofNat 64 (720 + 2048 * 2 ^ 12 + 256 * 2 ^ 28 + 1311 * 2 ^ 44 + 2 * 2 ^ 60)), (0x208, 1),
    (0x210, BitVec.ofNat 64 (20 + 100 * 2 ^ 7)), (0x230, 1)] }

/-- Its first and fourth periods: u, i and the pump's duty. -/
theorem test_cooling_period :
    (let r := { rd0 with temps := 752 :: List.replicate 6 400 }
     let f := fun (s : State) => ((after (.coolingPeriod r) s).thm.u.toNat, (after (.coolingPeriod r) s).thm.i,
       (after (.coolingPeriod r) s).thm.duties.headD 0)
     f (coolS 26214 419424) = (27525, 427616, 53) ∧ f (coolS 30147 444000) = (31458, 452192, 58)) := by decide +kernel

/-- A write of one byte through the window is read back, and writing the value an unlisted address reads as lists
nothing (R283; the form is log entry 5). -/
theorem test_window_write : memByte (after (.windowWrite ⟨.bar, 5⟩ [7]) { up with regs := [(0xF4B0, 0)] }).mem 5 = 7 ∧
    (after (.windowWrite ⟨.bar, 5⟩ [0]) { up with regs := [(0xF4B0, 0)], mem := [(5, 7)] }).mem = [] := by decide +kernel

/-- Boot ends its ten stages in order (R405): stage 0's end begins stage 1. -/
theorem test_boot_stage : (after (.bootStageDone default) State.reset).boot.stage = 1 := by decide +kernel

/-- A link leaves DETECT for TRAIN on a signal, and a timeout of TRAIN returns it to DETECT (R248). -/
theorem test_link_states : (getL (after (.signalDetect 3) (withL { st := .detect })) 3).st = .train ∧
    (getL (after (.trainTimeout 3) (withL { st := .train })) 3).st = .detect := by decide +kernel

/-- An auxiliary area that meets a poisoned line, or that a port read error meets, ends its descriptor PORT_ERROR, with
the port, 5 for local memory, in DETAIL (R286, R295). -/
theorem test_auxiliary_read_fails :
    (let d := dsc 0x1A 5 0x0101010000000000 0 0 0 0
     let s := withG { st := .active, attr := at2 } (upD d)
     let f := fun (s : State) => ((getQ s 0 false 1).items.head?.bind (fun i => i.done), (getG s 5).csn)
     f (after (.alltoallv 0 1 []) { s with memc := { s.memc with poisoned := [0] } }) = (some (statD cPORT_ERROR 5), [(0, 1)]) ∧
     f (after (.portReadError 5 false 5 0 (.desc 0 1)) s) = (some (statD cPORT_ERROR 5), [(0, 1)])) := by decide +kernel

/-! ### Witnesses: states and operands that meet the hypotheses of each statement, clause by clause -/

theorem wit_StepRunsTheCommandInFront :
    ∃ c : Instr, ∃ rest : List Instr, ∃ s : State, (s.pending = c :: rest) :=
  ⟨.fetchGrant, [.wheelSlot], { up with pending := [.fetchGrant, .wheelSlot] }, by decide +kernel⟩

theorem wit_AnIdleStepLetsACyclePass :
    ∃ s : State, (s.pending = []) :=
  ⟨up, by decide +kernel⟩

theorem wit_EveryStepKeepsTheMemoryCanonical :
    ∃ s : State, ∃ t : State, (Sound s) ∧ (step s = .next t) :=
  ⟨{ up with mem := [(5, 1)], pending := [.windowWrite ⟨.bar, 5⟩ [0]] }, _, by (unfold Sound; decide +kernel),
    rfl⟩

theorem wit_EveryCommandChangesOnlyItsParts :
    ∃ c : Instr, ∃ s : State, ∃ t : State, (exec c s = .next t) :=
  ⟨.registerWrite ⟨.bar, 0⟩ 0x100 8 0, State.reset, _, rfl⟩

theorem wit_NoCommandStopsOrTouchesTheQueue :
    ∃ c : Instr, ∃ s : State, ∃ t : State, (exec c s = .next t) :=
  ⟨.registerWrite ⟨.bar, 0⟩ 0x100 8 0, State.reset, _, rfl⟩

theorem wit_WhatChangesTheDeviceRegisters :
    (∃ c : Instr, ∃ s : State, ∃ t : State, (exec c s = .next t) ∧ (t.regs ≠ s.regs)) ∧
    (∃ a : Source, ∃ g : Nat, ∃ o : Nat, ∃ f : Nat, ∃ off : Nat, ∃ w : Nat, ∃ v : U64, ∃ s : State, ∃ t : State,
    (pageReach s a g o = some (f, off)) ∧ (f ≠ 0) ∧ (exec (.registerWrite ⟨a, g⟩ o w v) s = .next t)) ∧
    (∃ a : Source, ∃ g : Nat, ∃ o : Nat, ∃ s : State, (pageReach s a g o = none)) :=
  ⟨⟨.registerWrite ⟨.bar, 0⟩ 0x100 8 5, up, after (.registerWrite ⟨.bar, 0⟩ 0x100 8 5) up, rfl, by decide +kernel⟩,
    ⟨.vf 1, 1, 0x100, 1, 0x100, 8, 5, up, after (.registerWrite ⟨.vf 1, 1⟩ 0x100 8 5) up, by decide +kernel,
    by decide +kernel, rfl⟩,
    ⟨.vf 1, 2, 0x100, up, by decide +kernel⟩⟩

theorem wit_WhatTheFabricBringsStaysInItsParts :
    ∃ p : Packet, ∃ a : GroupAttr, ∃ c : Instr, (c ∈ ([.connect p, .accept p, .reject p, .writePacket p, .sendPacket
    p, .readReq p, .readResp p, .ack p, .nakRnr p, .nakWait p, .nakHold p, .holdClear p, .nakAccess p,
    .nakNoConn p, .cdata p, .counts p, .capacityFlag p, .anchorPass p, .cconf p, .ccommit p, .resend p, .abort
    p, .rollback p, .gone p, .held p, .setup p a, .setupOk p, .refuse p, .activate p, .activeOk p, .teardown p]
    : List Instr)) ∧ ∃ s : State, ∃ t : State, (exec c s = .next t) :=
  ⟨pk 3 .none, default, .writePacket (pk 3 .none), by (exact List.mem_of_getElem? (i := 3) rfl), State.reset, _,
    rfl⟩

theorem wit_QueueCommandsLeaveOtherFacetsAlone :
    (∃ f : Nat, ∃ g : Nat, ∃ q : Nat, ∃ rq : Bool, ∃ k : QKind, ∃ v : U32, ∃ off : Nat, ∃ len : Nat, ∃ ds : List
    Desc, ∃ c : Instr, (c ∈ ([.queSqDoorbell f q v, .queRqDoorbell f q v, .push ⟨.bar, f⟩ q off len ds,
    .descriptorAccept f rq q, .reread f rq q, .progressRecord f rq q, .eventEntry f rq q, .msixHoldExpiry f q,
    .queEvrCons f q v, .queEvrConsArm f q v, .queueCreate f k q, .queueRestart f k q, .nop f q] : List Instr)) ∧
    (g ≠ f) ∧ ∃ s : State, ∃ t : State, ((∀ w ∈ s.pcx.stuck, w.page.1 = f)) ∧ (exec c s = .next t)) ∧
    (∃ a : Source, ∃ h : Nat, ∃ p : Nat, ∃ o : Nat, ∃ f : Nat, ∃ q : Nat, ∃ off : Nat, ∃ g : Nat, ∃ len : Nat, ∃ ds :
    List Desc, ∃ s : State, ∃ t : State, (pushReach s a h p o = some (f, q, off)) ∧ (g ≠ f) ∧ ((∀ w ∈
    s.pcx.stuck, w.page.1 = f)) ∧ (exec (.push ⟨a, h⟩ p o len ds) s = .next t)) ∧
    (∃ a : Source, ∃ h : Nat, ∃ p : Nat, ∃ o : Nat, ∃ s : State, (pushReach s a h p o = none)) :=
  ⟨⟨0, 1, 1, false, .sq, 3, 0, 64, [], .queSqDoorbell 0 1 3, by decide +kernel, by decide +kernel, upQ {} {} {},
    after (.queSqDoorbell 0 1 3) (upQ {} {} {}), by decide +kernel, rfl⟩,
    ⟨.bar, 0, 1, 0x7C0, 0, 1, 0x7C0, 127, 64, [], upQ {} {} {}, after (.push ⟨.bar, 0⟩ 1 0x7C0 64 [])
    (upQ {} {} {}), by decide +kernel, by decide +kernel, by decide +kernel, rfl⟩,
    ⟨.vf 1, 0, 1, 0, up, by decide +kernel⟩⟩

theorem wit_MemoryWritesStoreTheirBytesOnly :
    (∃ off : Nat, ∃ s : State, (running s) ∧ (off < 0x4000000)) ∧
    (∃ off : Nat, ∃ bs : Bytes, ∃ s : State, ∃ t : State, ((0x4000000 ≤ off ∧ exec (.windowWrite ⟨.bar, off⟩ bs) s =
    .next t ∨ ∃ f, exec (.windowWrite ⟨.vf f, off⟩ bs) s = .next t))) ∧
    (∃ off : Nat, ∃ bs : Bytes, ∃ s : State, ∃ t : State, ((0x4000000 ≤ off ∧ exec (.windowWrite ⟨.bar, off⟩ bs) s =
    .next t ∨ ∃ f, exec (.windowWrite ⟨.vf f, off⟩ bs) s = .next t))) ∧
    (∃ f : Nat, ∃ q : Nat, ∃ rq : Bool, ∃ s : State, (running s) ∧ (recordDue s f rq q)) :=
  ⟨⟨0x3FFFFFF, up, by decide +kernel, by decide +kernel⟩,
    ⟨0x4000000, [1], up, after (.windowWrite ⟨.bar, 0x4000000⟩ [1]) up, Or.inl ⟨by decide +kernel, rfl⟩⟩,
    ⟨0, [1], up, after (.windowWrite ⟨.vf 1, 0⟩ [1]) up, Or.inr ⟨1, rfl⟩⟩,
    ⟨0, 1, false, upQ { qa with dirtyAt := some 0 } qa ea, by decide +kernel, by decide +kernel⟩⟩

theorem wit_ADeviceRegisterKeepsWhatIsWritten :
    ∃ a : Source, ∃ g : Nat, ∃ o : Nat, ∃ off : Nat, ∃ r : RegSpec, ∃ s : State, (running s) ∧ ((getF s 0).st = .on)
    ∧ (pageReach s a g o = some (0, off)) ∧ (off % 8 = 0) ∧ (regAt off = some r) ∧ (r.wide) ∧ (fileHere s off) ∧
    (facetView s 0 off = none) :=
  ⟨.bar, 0, 0x100, 0x100, ((regAt 0x100).getD default), up, by decide +kernel, by decide +kernel,
    by decide +kernel, by decide +kernel, by decide +kernel, by decide +kernel, by decide +kernel,
    by decide +kernel⟩

theorem wit_RegistersOfAnAbsentUnitReadZero :
    (∃ off : Nat, ∃ w : Nat, ∃ s : State, (hasCip s = false) ∧ (0xF800 ≤ off) ∧ (off + w ≤ 0xF900)) ∧
    (∃ off : Nat, ∃ w : Nat, ∃ s : State, (hasEth s 0 = false) ∧ (hasEth s 1 = false) ∧ (0x500 ≤ off) ∧ (off + w ≤
    0x1000)) ∧
    (∃ f : Nat, ∃ off : Nat, ∃ r : RegView, ∃ s : State, (view s f off = some r) ∧ (r.wide) ∧ (r.acc ≠ .halves)) :=
  ⟨⟨0xF8F8, 8, { up with part := .dn7216 }, by decide +kernel, by decide +kernel, by decide +kernel⟩,
    ⟨0xFF8, 8, { up with part := .dn7216 }, by decide +kernel, by decide +kernel, by decide +kernel,
    by decide +kernel⟩,
    ⟨0, 0x100, ((view up 0 0x100).getD default), up, by decide +kernel, by decide +kernel, by decide +kernel⟩⟩

theorem wit_DoorbellsMoveTheProducerIndex :
    (∃ f : Nat, ∃ q : Nat, ∃ rq : Bool, ∃ v : U32, ∃ s : State, (running s) ∧ (facetOn s f) ∧ ((getQ s f rq q).st =
    .active) ∧ ((rq = false → pageStuck s f q = false)) ∧ ∃ x, x = (getQ s f rq q) ∧ ∃ d, d = (v - x.pDev) ∧ (d
    = 0)) ∧
    (∃ f : Nat, ∃ q : Nat, ∃ rq : Bool, ∃ v : U32, ∃ s : State, (running s) ∧ (facetOn s f) ∧ ((getQ s f rq q).st =
    .active) ∧ ((rq = false → pageStuck s f q = false)) ∧ ∃ x, x = (getQ s f rq q) ∧ ∃ d, d = (v - x.pDev) ∧ (d
    ≠ 0) ∧ (0x80000000 ≤ d.toNat)) ∧
    (∃ f : Nat, ∃ q : Nat, ∃ rq : Bool, ∃ v : U32, ∃ s : State, (running s) ∧ (facetOn s f) ∧ ((getQ s f rq q).st =
    .active) ∧ ((rq = false → pageStuck s f q = false)) ∧ ∃ x, x = (getQ s f rq q) ∧ ∃ d, d = (v - x.pDev) ∧ (d
    ≠ 0) ∧ (d.toNat < 0x80000000) ∧ (x.size < (v - x.head).toNat)) ∧
    (∃ f : Nat, ∃ q : Nat, ∃ rq : Bool, ∃ v : U32, ∃ s : State, (running s) ∧ (facetOn s f) ∧ ((getQ s f rq q).st =
    .active) ∧ ((rq = false → pageStuck s f q = false)) ∧ ∃ x, x = (getQ s f rq q) ∧ ∃ d, d = (v - x.pDev) ∧ (d
    ≠ 0) ∧ (d.toNat < 0x80000000) ∧ (x.size < (v - x.head).toNat)) ∧
    (∃ f : Nat, ∃ q : Nat, ∃ rq : Bool, ∃ v : U32, ∃ s : State, (running s) ∧ (facetOn s f) ∧ ((getQ s f rq q).st =
    .active) ∧ ((rq = false → pageStuck s f q = false)) ∧ ∃ x, x = (getQ s f rq q) ∧ ∃ d, d = (v - x.pDev) ∧ (d
    ≠ 0) ∧ (d.toNat < 0x80000000) ∧ ((v - x.head).toNat ≤ x.size)) ∧
    (∃ f : Nat, ∃ q : Nat, ∃ s : State, (running s) ∧ (pageStuck s f q)) :=
  ⟨⟨0, 1, false, 0, upQ qa qa ea, by decide +kernel, by decide +kernel, by decide +kernel, by decide +kernel, _,
    rfl, _, rfl, by decide +kernel⟩,
    ⟨0, 1, true, 0x80000000, upQ qa qa ea, by decide +kernel, by decide +kernel, by decide +kernel,
    by decide +kernel, _, rfl, _, rfl, by decide +kernel, by decide +kernel⟩,
    ⟨0, 1, false, 17, upQ qa qa ea, by decide +kernel, by decide +kernel, by decide +kernel, by decide +kernel, _,
    rfl, _, rfl, by decide +kernel, by decide +kernel, by decide +kernel⟩,
    ⟨0, 1, false, 0x7FFFFFFF, upQ qa qa ea, by decide +kernel, by decide +kernel, by decide +kernel,
    by decide +kernel, _, rfl, _, rfl, by decide +kernel, by decide +kernel, by decide +kernel⟩,
    ⟨0, 1, true, 16, upQ qa qa ea, by decide +kernel, by decide +kernel, by decide +kernel, by decide +kernel, _,
    rfl, _, rfl, by decide +kernel, by decide +kernel, by decide +kernel⟩,
    ⟨0, 1, { upQ qa qa ea with pcx := { up.pcx with stuck := [.bell 0 1 3] } }, by decide +kernel,
    by decide +kernel⟩⟩

theorem wit_WritesToAnInactiveQueueHaveNoEffect :
    (∃ f : Nat, ∃ q : Nat, ∃ s : State, ((getQ s f false q).st ≠ .active) ∧ (pageStuck s f q = false)) ∧
    (∃ f : Nat, ∃ q : Nat, ∃ s : State, ((getQ s f true q).st ≠ .active)) ∧
    (∃ a : Source, ∃ g : Nat, ∃ p : Nat, ∃ o : Nat, ∃ f : Nat, ∃ q : Nat, ∃ off : Nat, ∃ s : State, (running s) ∧
    (pushReach s a g p o = some (f, q, off)) ∧ ((getF s f).st ≠ .off) ∧ (off < 0x800) ∧ (pageStuck s f q =
    false) ∧ ((getQ s f false q).st ≠ .active)) :=
  ⟨⟨0, 1, up, by decide +kernel, by decide +kernel⟩,
    ⟨0, 1, up, by decide +kernel⟩,
    ⟨.bar, 0, 1, 0x7FF, 0, 1, 0x7FF, up, by decide +kernel, by decide +kernel, by decide +kernel, by decide +kernel,
    by decide +kernel, by decide +kernel⟩⟩

theorem wit_ConsumerIndexWrites :
    (∃ f : Nat, ∃ e : Nat, ∃ v : U32, ∃ s : State, (running s) ∧ (facetOn s f) ∧ (ringOpen s f e) ∧ ∃ r, r = (getE s
    f e) ∧ ((r.prod - r.cons).toNat < (v - r.cons).toNat)) ∧
    (∃ f : Nat, ∃ e : Nat, ∃ v : U32, ∃ s : State, (running s) ∧ (facetOn s f) ∧ (ringOpen s f e) ∧ ∃ r, r = (getE s
    f e) ∧ ((v - r.cons).toNat ≤ (r.prod - r.cons).toNat)) :=
  ⟨⟨0, 2, 4, upQ {} {} { ea with prod := 3, cons := 0xFFFFFFFF }, by decide +kernel, by decide +kernel,
    by decide +kernel, _, rfl, by decide +kernel⟩,
    ⟨0, 2, 3, upQ {} {} { ea with prod := 3, cons := 0xFFFFFFFF }, by decide +kernel, by decide +kernel,
    by decide +kernel, _, rfl, by decide +kernel⟩⟩

theorem wit_CorrectableEventsAreRecordedOncePerMillisecond :
    (∃ src : Nat, ∃ cls : Nat, (src < 64) ∧ (cls < 4) ∧ (cls ≠ clsCE)) ∧
    (∃ src : Nat, ∃ cls : Nat, ∃ s : State, (src < 64) ∧ (cls < 4) ∧ ∃ recent, recent = (∃ u, agetq src s.agl.lastCe
    = some u ∧ elapsed s u (ms 1) = false) ∧ (cls = clsCE) ∧ (recent)) ∧
    (∃ src : Nat, ∃ cls : Nat, ∃ s : State, (src < 64) ∧ (cls < 4) ∧ ∃ recent, recent = (∃ u, agetq src s.agl.lastCe
    = some u ∧ elapsed s u (ms 1) = false) ∧ (cls = clsCE) ∧ (¬ recent)) :=
  ⟨⟨63, 3, by decide +kernel, by decide +kernel, by decide +kernel⟩,
    ⟨0, clsCE, { up with now := 249999, agl := { lastCe := [(0, 0)] } }, by decide +kernel, by decide +kernel, _,
    rfl, by decide +kernel, by (exact ⟨0, by decide +kernel⟩)⟩,
    ⟨0, clsCE, { up with now := 250000, agl := { lastCe := [(0, 0)] } }, by decide +kernel, by decide +kernel, _,
    rfl, by decide +kernel,
    by (rintro ⟨u, h, k⟩; have := Option.some.inj (h.symm.trans (by decide +kernel : _ = some (0 : U64))); subst this; revert k; decide +kernel)⟩⟩

theorem wit_FramesPassTheFilterByTheirMac :
    ∃ s : State, ∃ p : Nat, ∃ b : Nat, ∃ fr : Bytes, (fabricUp s) ∧ (subLive s p b) ∧ (rxHeld s p + fr.length + 4 ≤
    2097152) ∧ (at16 fr 12 ≠ 0x8808) ∧ (passesFilter s p fr = false) :=
  ⟨modEth 0 (fun e => { e with up := 1 }) up, 0, 0, List.replicate 60 1, by decide +kernel, by decide +kernel,
    by decide +kernel, by decide +kernel, by decide +kernel⟩

theorem wit_IntegerLanesWrapAndSaturate :
    (∃ w : U64, (insSat w = false)) ∧
    (∃ w : U64, (insSat w = false) ∧ (insOp w = 0x32)) ∧
    (∃ w : U64, (insSat w) ∧ (insOp w = 0x30)) ∧
    (∃ w : U64, (insSat w) ∧ (insOp w = 0x31)) ∧
    (∃ w : U64, (insSat w) ∧ (insOp w = 0x32)) ∧
    (∃ w : U64, (insOp w = 0x33)) ∧
    (∃ w : U64, (insOp w = 0x34)) ∧
    (∃ w : U64, (insOp w = 0x23)) ∧
    (∃ w : U64, (insOp w = 0x41)) ∧
    (∃ w : U64, (insOp w = 0x41)) ∧
    (∃ w : U64, (insOp w = 0x41)) :=
  ⟨⟨0, by decide +kernel⟩,
    ⟨0x32, by decide +kernel, by decide +kernel⟩,
    ⟨0x4000030, by decide +kernel, by decide +kernel⟩,
    ⟨0x4000031, by decide +kernel, by decide +kernel⟩,
    ⟨0x4000032, by decide +kernel, by decide +kernel⟩,
    ⟨0x33, by decide +kernel⟩,
    ⟨0x34, by decide +kernel⟩,
    ⟨0x23, by decide +kernel⟩,
    ⟨0x41, by decide +kernel⟩,
    ⟨0x41, by decide +kernel⟩,
    ⟨0x41, by decide +kernel⟩⟩

theorem wit_AnchoredSumsDoNotDependOnTheOrder :
    ∃ l : List Val, ∃ m : List Val, (l.Perm m) :=
  ⟨[ofInt 1, ofInt 2], [ofInt 2, ofInt 1], by decide +kernel⟩

theorem wit_HeadersReadBack :
    ∃ typ : Nat, ∃ e : Ext, (extOf typ e = true) :=
  ⟨11, .cxh 1 2 3 4 1 true 0 5 6 7 8 9, by decide +kernel⟩

theorem wit_PacketsReadBack :
    ∃ p : Packet, (extOf p.bth.typ.toNat p.ext = true) ∧ (p.bth.plen.toNat = p.data.length) ∧ (p.bth.ciph =
    p.cph.isSome) :=
  ⟨pk 3 (.reth 1 2 3 4 0 5) [1, 2], by decide +kernel, by decide +kernel, by decide +kernel⟩

theorem wit_DescriptorsArePushedFetchedAndRefetched :
    (∃ a : Source, ∃ g : Nat, ∃ p : Nat, ∃ o : Nat, ∃ f : Nat, ∃ q : Nat, ∃ off : Nat, ∃ len : Nat, ∃ descs : List
    Desc, ∃ s : State, (running s) ∧ (pushReach s a g p o = some (f, q, off)) ∧ (off < 0x800) ∧ (pageStuck s f q
    = false) ∧ (facetOn s f) ∧ ((getQ s f false q).st = .active) ∧ (pushShape off len) ∧ (((getQ s f false
    q).pDev - (getQ s f false q).head).toNat + len / 64 ≤ (getQ s f false q).size) ∧ (noRoom s f q (len / 64) =
    false) ∧ (descs.length = len / 64) ∧ ((pushGood (getQ s f false q).pDev descs).length = descs.length)) ∧
    (∃ a : Source, ∃ g : Nat, ∃ p : Nat, ∃ o : Nat, ∃ f : Nat, ∃ q : Nat, ∃ off : Nat, ∃ len : Nat, ∃ s : State,
    (running s) ∧ (pushReach s a g p o = some (f, q, off)) ∧ (off < 0x800) ∧ (pageStuck s f q = false) ∧
    (facetOn s f) ∧ ((getQ s f false q).st = .active) ∧ (pushShape off len) ∧ (((getQ s f false q).pDev - (getQ
    s f false q).head).toNat + len / 64 ≤ (getQ s f false q).size) ∧ (noRoom s f q (len / 64))) ∧
    (∃ a : Source, ∃ g : Nat, ∃ p : Nat, ∃ o : Nat, ∃ f : Nat, ∃ q : Nat, ∃ off : Nat, ∃ len : Nat, ∃ s : State,
    (running s) ∧ (pushReach s a g p o = some (f, q, off)) ∧ (off < 0x800) ∧ (pageStuck s f q = false) ∧
    (facetOn s f) ∧ ((getQ s f false q).st = .active) ∧ (pushShape off len) ∧ ((getQ s f false q).size < ((getQ
    s f false q).pDev - (getQ s f false q).head).toNat + len / 64)) ∧
    (∃ a : Source, ∃ g : Nat, ∃ p : Nat, ∃ o : Nat, ∃ f : Nat, ∃ q : Nat, ∃ off : Nat, ∃ len : Nat, ∃ s : State,
    (running s) ∧ (pushReach s a g p o = some (f, q, off)) ∧ (off < 0x800) ∧ (pageStuck s f q = false) ∧ ((getF
    s f).st ≠ .off) ∧ ((pushShape off len = false ∨ (getQ s f false q).st ≠ .active))) ∧
    (∃ a : Source, ∃ g : Nat, ∃ p : Nat, ∃ o : Nat, ∃ f : Nat, ∃ q : Nat, ∃ off : Nat, ∃ len : Nat, ∃ s : State,
    (running s) ∧ (pushReach s a g p o = some (f, q, off)) ∧ (off < 0x800) ∧ (pageStuck s f q = false) ∧ ((getF
    s f).st ≠ .off) ∧ ((pushShape off len = false ∨ (getQ s f false q).st ≠ .active))) ∧
    (∃ f : Nat, ∃ q : Nat, ∃ r : List (Nat × Nat), ∃ s : State, (running s) ∧ (s.arb.round = (f, q) :: r) ∧
    (s.arb.grants ≠ 0) ∧ (grantable s f q)) ∧
    (∃ f : Nat, ∃ q : Nat, ∃ rq : Bool, ∃ rd : Fetch, ∃ slots : List Desc, ∃ s : State, (running s) ∧ ((getQ s f rq
    q).fetch = some rd) ∧ (rd.held = false) ∧ ((fetchPlaces s f rq q).findSome? (hurtAt s (.fetch f rq q)) =
    none) ∧ ((pinPlace s f (getQ s f rq q).ringSeg (getQ s f rq q).ringOff).1 ≠ 5) ∧ (slots.length = rd.count) ∧
    ((readyRun rd.first slots).length = rd.count)) ∧
    (∃ f : Nat, ∃ q : Nat, ∃ rq : Bool, ∃ w : Reread, ∃ s : State, (running s) ∧ ((getQ s f rq q).rr = some w) ∧
    ((getQ s f rq q).st = .active) ∧ ((getQ s f rq q).fetch = none) ∧ (elapsed s (getQ s f rq q).lastRead (us
    1)) ∧ (ringReleased s f rq q)) ∧
    (∃ f : Nat, ∃ q : Nat, ∃ rq : Bool, ∃ x : Taken, ∃ s : State, (running s) ∧ (x.idx = (getQ s f rq q).acc) ∧
    ((getQ s f rq q).taken.find? (fun t => decide (t.idx = (getQ s f rq q).acc)) = some x) ∧ ((getQ s f rq q).st
    = .active) ∧ (openItems s < 524288)) :=
  ⟨⟨.bar, 0, 1, 0xC0, 0, 1, 0xC0, 64, [dsc 1 0 0 0 0 0 0], upQ qa qa ea, by decide +kernel, by decide +kernel,
    by decide +kernel, by decide +kernel, by decide +kernel, by decide +kernel, by decide +kernel,
    by decide +kernel, by decide +kernel, by decide +kernel, by decide +kernel⟩,
    ⟨.vf 1, 1, 1, 0, 1, 1, 0, 256, modF 1
    (fun z => { z with st := .on, que := { z.que with sqs := [(1, { qa with cfg := 0x108010000000101, staged := List.replicate 13 (0, dsc 1 0 0 0 0 0 0) })] } })
    up, by decide +kernel, by decide +kernel, by decide +kernel, by decide +kernel, by decide +kernel,
    by decide +kernel, by decide +kernel, by decide +kernel, by decide +kernel⟩,
    ⟨.bar, 0, 1, 0x7C0, 0, 1, 0x7C0, 64, upQ { qa with pDev := 16 } qa ea, by decide +kernel, by decide +kernel,
    by decide +kernel, by decide +kernel, by decide +kernel, by decide +kernel, by decide +kernel,
    by decide +kernel⟩,
    ⟨.bar, 0, 1, 0x20, 0, 1, 0x20, 64, upQ qa qa ea, by decide +kernel, by decide +kernel, by decide +kernel,
    by decide +kernel, by decide +kernel, by decide +kernel⟩,
    ⟨.bar, 0, 1, 0, 0, 1, 0, 64, up, by decide +kernel, by decide +kernel, by decide +kernel, by decide +kernel,
    by decide +kernel, by decide +kernel⟩,
    ⟨0, 1, [], { upQ { qa with pDev := 1 } qa ea with arb := { round := [(0, 1)], grants := 1 } },
    by decide +kernel, by decide +kernel, by decide +kernel, by decide +kernel⟩,
    ⟨0, 1, false, { first := 0, count := 1 }, [dsc 1 0 0 0 0 0 0], upF
    (fun z => { z with xlt := { segs := [(1, { seg5 with target := 0 })] }, que := { sqs := [(1, { qa with fetch := some { first := 0, count := 1 } })] } }),
    by decide +kernel, by decide +kernel, by decide +kernel, by decide +kernel, by decide +kernel,
    by decide +kernel, by decide +kernel⟩,
    ⟨0, 1, false, { first := 0, count := 1, tries := 0 }, upQ
    { qa with rr := some { first := 0, count := 1, tries := 0 } } qa ea, by decide +kernel, by decide +kernel,
    by decide +kernel, by decide +kernel, by decide +kernel, by decide +kernel⟩,
    ⟨0, 1, true, { idx := 0, desc := dsc 5 0 0 0 0 0 0, pushed := false }, upQ qa
    { qa with taken := [{ idx := 0, desc := dsc 5 0 0 0 0 0 0, pushed := false }] } ea, by decide +kernel,
    by decide +kernel, by decide +kernel, by decide +kernel, by decide +kernel⟩⟩

theorem wit_ProgressIsPublishedAndEventsAreWritten :
    (∃ f : Nat, ∃ q : Nat, ∃ rq : Bool, ∃ s : State, (running s) ∧ (recordDue s f rq q) ∧ (released s f (pinKey s f
    (getQ s f rq q).progSeg (getQ s f rq q).progOff))) ∧
    (∃ f : Nat, ∃ q : Nat, ∃ rq : Bool, ∃ s : State, (running s) ∧ (((getQ s f rq q).evOwed ∨ (getQ s f rq
    q).evErrOwed)) ∧ ((getE s f (getQ s f rq q).evr).active) ∧ ((getQ s f rq q).pubHead = (getQ s f rq q).head)
    ∧ ((getQ s f rq q).pubAcc = (getQ s f rq q).acc) ∧ ((getQ s f rq q).dirtyAt = none) ∧ (recordVisible s f rq
    q (getQ s f rq q).evr) ∧ (waiting s f (getQ s f rq q).evr = []) ∧ ((getE s f (getQ s f rq q).evr).names rq q
    (getQ s f rq q).evErrOwed = false) ∧ ((getE s f (getQ s f rq q).evr).full = false)) ∧
    (∃ f : Nat, ∃ e : Nat, ∃ n : EvNote, ∃ r : List EvNote, ∃ s : State, (running s) ∧ ((getE s f e).notes = n :: r)
    ∧ ((getE s f e).en) ∧ ((getE s f e).armed) ∧ (pinKey s f (getE s f e).ringSeg (getE s f e).ringOff = 0) ∧
    ((getE s f e).armAt.toNat ≤ n.wrote.toNat) ∧ (elapsed s n.wrote (us (getE s f e).holdUs))) ∧
    (∃ f : Nat, ∃ e : Nat, ∃ v : U32, ∃ s : State, (running s) ∧ (facetOn s f) ∧ (ringOpen s f e) ∧ ((v - (getE s f
    e).cons).toNat ≤ ((getE s f e).prod - (getE s f e).cons).toNat)) ∧
    (∃ f : Nat, ∃ e : Nat, ∃ v : U32, ∃ s : State, (running s) ∧ (facetOn s f) ∧ (ringOpen s f e) ∧ ((v - (getE s f
    e).cons).toNat ≤ ((getE s f e).prod - (getE s f e).cons).toNat)) :=
  ⟨⟨0, 1, true, upQ qa { qa with dirtyAt := some 0 } ea, by decide +kernel, by decide +kernel, by decide +kernel⟩,
    ⟨0, 1, false, upQ { qa with evOwed := true } qa ea, by decide +kernel, by decide +kernel, by decide +kernel,
    by decide +kernel, by decide +kernel, by decide +kernel, by decide +kernel, by decide +kernel,
    by decide +kernel, by decide +kernel⟩,
    ⟨0, 2, { rq := false, q := 1, err := false, wrote := 0 }, [],
    { modF 0 (fun z => { z with xlt := { segs := [(1, { seg5 with target := 0 })] } }) (upQ qa qa { ea with notes := [{ rq := false, q := 1, err := false, wrote := 0 }] }) with now := 1000000 },
    by decide +kernel, by decide +kernel, by decide +kernel, by decide +kernel, by decide +kernel,
    by decide +kernel, by decide +kernel⟩,
    ⟨0, 2, 0, upQ qa qa { ea with prod := 1, cons := 0xFFFFFFFF }, by decide +kernel, by decide +kernel,
    by decide +kernel, by decide +kernel⟩,
    ⟨0, 2, 0, upQ qa qa { ea with prod := 1, cons := 0xFFFFFFFF }, by decide +kernel, by decide +kernel,
    by decide +kernel, by decide +kernel⟩⟩

theorem wit_QueuesAreCreatedDestroyedAndRestarted :
    (∃ f : Nat, ∃ q : Nat, ∃ rq : Bool, ∃ s : State, (running s) ∧ (facetOn s f) ∧ ((getQ s f rq q).st = .disabled) ∧
    (createCode s f rq q = 0)) ∧
    (∃ f : Nat, ∃ q : Nat, ∃ rq : Bool, ∃ s : State, (running s) ∧ (facetOn s f) ∧ ((getQ s f rq q).st = .disabled) ∧
    (createCode s f rq q ≠ 0)) ∧
    (∃ f : Nat, ∃ q : Nat, ∃ rq : Bool, ∃ s : State, (running s) ∧ (facetOn s f) ∧ ((getQ s f rq q).st ≠ .disabled)) ∧
    (∃ f : Nat, ∃ e : Nat, ∃ s : State, (running s) ∧ (facetOn s f) ∧ ((getE s f e).active = false) ∧ (sizeOk (getE s
    f e).size) ∧ (e < (getF s f).aEvr) ∧ (deviceUse s .evr < 1024) ∧ (pinCheck s f (getE s f e).ringSeg (getE s
    f e).ringOff ((getE s f e).size * 16) [.lwr])) ∧
    (∃ f : Nat, ∃ e : Nat, ∃ s : State, (running s) ∧ (facetOn s f) ∧ ((getE s f e).active)) ∧
    (∃ f : Nat, ∃ q : Nat, ∃ s : State, (running s) ∧ (facetOn s f) ∧ ((getQ s f false q).st ≠ .disabled) ∧ ((getQ s
    f false q).st ≠ .draining)) ∧
    (∃ f : Nat, ∃ q : Nat, ∃ s : State, (running s) ∧ (facetOn s f) ∧ (rqInUse s f q = false)) ∧
    (∃ f : Nat, ∃ q : Nat, ∃ s : State, (running s) ∧ (facetOn s f) ∧ (rqInUse s f q) ∧ ((getQ s f true q).st ≠
    .disabled) ∧ ((getQ s f true q).st ≠ .draining)) ∧
    (∃ f : Nat, ∃ e : Nat, ∃ s : State, (running s) ∧ (facetOn s f) ∧ ((getE s f e).active) ∧ (ringNamed s f e =
    false)) ∧
    (∃ f : Nat, ∃ e : Nat, ∃ s : State, (running s) ∧ (facetOn s f) ∧ ((getE s f e).active) ∧ (ringNamed s f e)) ∧
    (∃ f : Nat, ∃ s : State, (running s) ∧ (facetOn s f)) ∧
    (∃ f : Nat, ∃ q : Nat, ∃ i : Item, ∃ s : State, (ready s f q 0x01 = some i)) :=
  ⟨⟨0, 1, true, upQ qa { cfg := 0x108001000000101, progOff := 0x1000 } ea, by decide +kernel, by decide +kernel,
    by decide +kernel, by decide +kernel⟩,
    ⟨0, 1, false, upQ { cfg := 0x108001000000100, progOff := 0x1000 } qa ea, by decide +kernel, by decide +kernel,
    by decide +kernel, by decide +kernel⟩,
    ⟨0, 1, true, upQ qa qa ea, by decide +kernel, by decide +kernel, by decide +kernel⟩,
    ⟨0, 2, upQ qa qa { ea with active := false }, by decide +kernel, by decide +kernel, by decide +kernel,
    by decide +kernel, by decide +kernel, by decide +kernel, by decide +kernel⟩,
    ⟨0, 2, upQ {} {} ea, by decide +kernel, by decide +kernel, by decide +kernel⟩,
    ⟨0, 1, upQ { qa with st := .error } qa ea, by decide +kernel, by decide +kernel, by decide +kernel,
    by decide +kernel⟩,
    ⟨0, 1, upQ qa qa ea, by decide +kernel, by decide +kernel, by decide +kernel⟩,
    ⟨0, 1, upQ qa { qa with bound := some 3 } ea, by decide +kernel, by decide +kernel, by decide +kernel,
    by decide +kernel, by decide +kernel⟩,
    ⟨0, 2, upQ {} {} ea, by decide +kernel, by decide +kernel, by decide +kernel, by decide +kernel⟩,
    ⟨0, 2, upQ qa qa ea, by decide +kernel, by decide +kernel, by decide +kernel, by decide +kernel⟩,
    ⟨0, upQ qa { qa with st := .error } ea, by decide +kernel, by decide +kernel⟩,
    ⟨0, 1, { idx := 0, desc := dsc 1 0 0 0 0 0 0 }, upD (dsc 1 0 0 0 0 0 0), by decide +kernel⟩⟩

theorem wit_TransfersStartAndReceivesArePosted :
    (∃ f : Nat, ∃ q : Nat, ∃ op : Nat, ∃ c : Instr, ((c, op) ∈ ([(.write f q, 2), (.read f q, 3), (.send f q, 4)] :
    List (Instr × Nat))) ∧ ∃ i : Item, ∃ s : State, (ready s f q op = some i) ∧ (startCheck s f i.desc = none) ∧
    (startRoom (getQp s (trQpn i.desc)) op)) ∧
    (∃ f : Nat, ∃ q : Nat, ∃ op : Nat, ∃ c : Instr, ((c, op) ∈ ([(.write f q, 2), (.read f q, 3), (.send f q, 4)] :
    List (Instr × Nat))) ∧ ∃ i : Item, ∃ s : State, (ready s f q op = some i) ∧ (startCheck s f i.desc = none) ∧
    (startRoom (getQp s (trQpn i.desc)) op)) ∧
    (∃ f : Nat, ∃ q : Nat, ∃ op : Nat, ∃ c : Instr, ((c, op) ∈ ([(.write f q, 2), (.read f q, 3), (.send f q, 4)] :
    List (Instr × Nat))) ∧ ∃ i : Item, ∃ s : State, (ready s f q op = some i) ∧ (startCheck s f i.desc = none) ∧
    (startRoom (getQp s (trQpn i.desc)) op)) ∧
    (∃ f : Nat, ∃ q : Nat, ∃ op : Nat, ∃ c : Instr, ((c, op) ∈ ([(.write f q, 2), (.read f q, 3), (.send f q, 4)] :
    List (Instr × Nat))) ∧ ∃ i : Item, ∃ s : State, (ready s f q op = some i) ∧ (startCheck s f i.desc = none) ∧
    (startRoom (getQp s (trQpn i.desc)) op = false)) ∧
    (∃ f : Nat, ∃ q : Nat, ∃ op : Nat, ∃ c : Instr, ((c, op) ∈ ([(.write f q, 2), (.read f q, 3), (.send f q, 4)] :
    List (Instr × Nat))) ∧ ∃ i : Item, ∃ s : State, (ready s f q op = some i) ∧ ∃ st : Status, (startCheck s f
    i.desc = some st)) ∧
    (∃ f : Nat, ∃ q : Nat, ∃ i : Item, ∃ s : State, (running s) ∧ (nextStart s f true q = some i)) :=
  ⟨⟨0, 1, 2, .write 0 1, by decide +kernel, { idx := 0, desc := trD 2 }, withQp qn (upD (trD 2)),
    by decide +kernel, by decide +kernel, by decide +kernel⟩,
    ⟨0, 1, 3, .read 0 1, by decide +kernel, { idx := 0, desc := trD 3 }, withQp qn (upD (trD 3)), by decide +kernel,
    by decide +kernel, by decide +kernel⟩,
    ⟨0, 1, 4, .send 0 1, by decide +kernel, { idx := 0, desc := trD 4 }, withQp qn (upD (trD 4)), by decide +kernel,
    by decide +kernel, by decide +kernel⟩,
    ⟨0, 1, 3, .read 0 1, by decide +kernel, { idx := 0, desc := trD 3 }, withQp
    { qn with req := { descs := List.replicate 8 { q := 1, idx := 0, op := 3, psn := 0, n := 1, msn := 0, len := 64, lseg := 1, loff := 0 } } }
    (upD (trD 3)), by decide +kernel, by decide +kernel, by decide +kernel⟩,
    ⟨0, 1, 4, .send 0 1, by decide +kernel, { idx := 0, desc := trD 4 }, upD (trD 4), by decide +kernel, stat
    cQP_INVALID, by decide +kernel⟩,
    ⟨0, 1, { idx := 0, desc := trD 5 }, upQ qa { qa with acc := 1, items := [{ idx := 0, desc := trD 5 }] } ea,
    by decide +kernel, by decide +kernel⟩⟩

theorem wit_QueuePairCommandsComplete :
    (∃ f : Nat, ∃ s : State, (running s) ∧ (facetOn s f) ∧ ((getF s f).zrt.busy = false) ∧ ∃ t, t = (modF f (fun y =>
    { y with zrt := { y.zrt with busy := true } }) s) ∧ (createQpCode t f = 0) ∧ (s.trust.ent = 1)) ∧
    (∃ f : Nat, ∃ s : State, (running s) ∧ (facetOn s f) ∧ ((getF s f).zrt.busy = false) ∧ ∃ t, t = (modF f (fun y =>
    { y with zrt := { y.zrt with busy := true } }) s) ∧ (createQpCode t f = 0) ∧ (s.trust.ent ≠ 1)) ∧
    (∃ f : Nat, ∃ s : State, (running s) ∧ (facetOn s f) ∧ ((getF s f).zrt.busy = false) ∧ ∃ t, t = (modF f (fun y =>
    { y with zrt := { y.zrt with busy := true } }) s) ∧ (createQpCode t f ≠ 0)) ∧
    (∃ f : Nat, ∃ n : Nat, ∃ s : State, (running s) ∧ (facetOn s f) ∧ ((getF s f).zrt.busy = false) ∧ ((getF s
    f).zrt.qpn.toNat = n) ∧ (ownsQp s f n) ∧ ((getQp s n).st = .init)) ∧
    (∃ f : Nat, ∃ n : Nat, ∃ s : State, (running s) ∧ (facetOn s f) ∧ ((getF s f).zrt.busy = false) ∧ ((getF s
    f).zrt.qpn.toNat = n) ∧ (¬ (ownsQp s f n ∧ (getQp s n).st = .init))) ∧
    (∃ f : Nat, ∃ n : Nat, ∃ s : State, (running s) ∧ ((facetOn s f ∨ (getF s f).st = .resetting)) ∧ ((getF s
    f).zrt.busy = false) ∧ ((getF s f).zrt.qpn.toNat = n) ∧ (ownsQp s f n)) ∧
    (∃ f : Nat, ∃ n : Nat, ∃ s : State, (running s) ∧ ((facetOn s f ∨ (getF s f).st = .resetting)) ∧ ((getF s
    f).zrt.busy = false) ∧ ((getF s f).zrt.qpn.toNat = n) ∧ (ownsQp s f n = false)) ∧
    (∃ f : Nat, ∃ n : Nat, ∃ s : State, (running s) ∧ ((facetOn s f ∨ (getF s f).st = .resetting)) ∧ ((getF s
    f).zrt.busy = false) ∧ ((getF s f).zrt.qpn.toNat = n) ∧ (ownsQp s f n)) ∧
    (∃ f : Nat, ∃ s : State, ((getF s f).zrt.busy = true)) :=
  ⟨⟨0, up, by decide +kernel, by decide +kernel, by decide +kernel, _, rfl, by decide +kernel, by decide +kernel⟩,
    ⟨0, { up with trust := {} }, by decide +kernel, by decide +kernel, by decide +kernel, _, rfl, by decide +kernel,
    by decide +kernel⟩,
    ⟨0, upF (fun z => { z with aQp := 0 }), by decide +kernel, by decide +kernel, by decide +kernel, _, rfl,
    by decide +kernel⟩,
    ⟨0, 3, withQp { qn with st := .init } (upF (fun z => { z with zrt := { qpn := 3 } })), by decide +kernel,
    by decide +kernel, by decide +kernel, by decide +kernel, by decide +kernel, by decide +kernel⟩,
    ⟨0, 3, withQp qn (upF (fun z => { z with zrt := { qpn := 3 } })), by decide +kernel, by decide +kernel,
    by decide +kernel, by decide +kernel, by decide +kernel⟩,
    ⟨0, 3, withQp qn (upF (fun z => { z with zrt := { qpn := 3 }, st := .resetting })), by decide +kernel,
    by decide +kernel, by decide +kernel, by decide +kernel, by decide +kernel⟩,
    ⟨0, 0, up, by decide +kernel, by decide +kernel, by decide +kernel, by decide +kernel, by decide +kernel⟩,
    ⟨0, 3, withQp qn (upF (fun z => { z with zrt := { qpn := 3 } })), by decide +kernel, by decide +kernel,
    by decide +kernel, by decide +kernel, by decide +kernel⟩,
    ⟨0, upF (fun z => { z with zrt := { qpn := 3, busy := true } }), by decide +kernel⟩⟩

theorem wit_ConnectionPacketsAreAnswered :
    (∃ n : Nat, ∃ p : Packet, ∃ s : State, ∃ psn : U32, ∃ ctag : U32, ∃ sq : BitVec 20, ∃ rq : Bool, ∃ ci : Bool, ∃
    pm : BitVec 3, ∃ wi : BitVec 4, ∃ r0 : BitVec 3, ∃ rs : Byte, ∃ r1 : BitVec 24, (Whole p) ∧ (fabricUp s) ∧
    (p.bth.dstQpn.toNat = n) ∧ (p.ext = .cmeh psn ctag sq rq ci pm wi r0 rs r1) ∧ ∃ t, t = (noteArrival
    (epAdapter p.bth.srcEp) s) ∧ ∃ q, q = (getQp t n) ∧ (isType 0 p) ∧ (q.st = .free)) ∧
    (∃ n : Nat, ∃ p : Packet, ∃ s : State, ∃ psn : U32, ∃ ctag : U32, ∃ sq : BitVec 20, ∃ rq : Bool, ∃ ci : Bool, ∃
    pm : BitVec 3, ∃ wi : BitVec 4, ∃ r0 : BitVec 3, ∃ rs : Byte, ∃ r1 : BitVec 24, (Whole p) ∧ (fabricUp s) ∧
    (p.bth.dstQpn.toNat = n) ∧ (p.ext = .cmeh psn ctag sq rq ci pm wi r0 rs r1) ∧ ∃ t, t = (noteArrival
    (epAdapter p.bth.srcEp) s) ∧ ∃ q, q = (getQp t n) ∧ (isType 0 p) ∧ (q.st ≠ .free) ∧ (restoring t = false) ∧
    (t.zrt.resident.contains n = true) ∧ (q.st ≠ .init ∧ q.st ≠ .connecting ∧ q.st ≠ .rts)) ∧
    (∃ n : Nat, ∃ p : Packet, ∃ s : State, ∃ psn : U32, ∃ ctag : U32, ∃ sq : BitVec 20, ∃ rq : Bool, ∃ ci : Bool, ∃
    pm : BitVec 3, ∃ wi : BitVec 4, ∃ r0 : BitVec 3, ∃ rs : Byte, ∃ r1 : BitVec 24, (Whole p) ∧ (fabricUp s) ∧
    (p.bth.dstQpn.toNat = n) ∧ (p.ext = .cmeh psn ctag sq rq ci pm wi r0 rs r1) ∧ ∃ t, t = (noteArrival
    (epAdapter p.bth.srcEp) s) ∧ ∃ q, q = (getQp t n) ∧ (isType 0 p) ∧ (q.st ≠ .free) ∧ (restoring t = false) ∧
    (t.zrt.resident.contains n = true) ∧ (q.st = .init ∨ q.st = .connecting ∨ q.st = .rts) ∧ ((p.bth.srcEp ≠
    q.remoteEp ∨ sq ≠ q.remoteQpn))) ∧
    (∃ n : Nat, ∃ p : Packet, ∃ s : State, ∃ psn : U32, ∃ ctag : U32, ∃ sq : BitVec 20, ∃ rq : Bool, ∃ ci : Bool, ∃
    pm : BitVec 3, ∃ wi : BitVec 4, ∃ r0 : BitVec 3, ∃ rs : Byte, ∃ r1 : BitVec 24, (Whole p) ∧ (fabricUp s) ∧
    (p.bth.dstQpn.toNat = n) ∧ (p.ext = .cmeh psn ctag sq rq ci pm wi r0 rs r1) ∧ ∃ t, t = (noteArrival
    (epAdapter p.bth.srcEp) s) ∧ ∃ q, q = (getQp t n) ∧ (isType 0 p) ∧ (q.st ≠ .free) ∧ (restoring t = false) ∧
    (t.zrt.resident.contains n = true) ∧ (q.st = .rts) ∧ (p.bth.srcEp = q.remoteEp) ∧ (sq = q.remoteQpn)) ∧
    (∃ n : Nat, ∃ p : Packet, ∃ s : State, ∃ psn : U32, ∃ ctag : U32, ∃ sq : BitVec 20, ∃ rq : Bool, ∃ ci : Bool, ∃
    pm : BitVec 3, ∃ wi : BitVec 4, ∃ r0 : BitVec 3, ∃ rs : Byte, ∃ r1 : BitVec 24, (Whole p) ∧ (fabricUp s) ∧
    (p.bth.dstQpn.toNat = n) ∧ (p.ext = .cmeh psn ctag sq rq ci pm wi r0 rs r1) ∧ ∃ t, t = (noteArrival
    (epAdapter p.bth.srcEp) s) ∧ ∃ q, q = (getQp t n) ∧ (isType 0 p) ∧ (q.st ≠ .free) ∧ (restoring t = false) ∧
    (t.zrt.resident.contains n = true) ∧ (q.st = .init ∨ q.st = .connecting) ∧ (p.bth.srcEp = q.remoteEp) ∧ (sq
    = q.remoteQpn) ∧ (ci ≠ q.cipher)) ∧
    (∃ n : Nat, ∃ p : Packet, ∃ s : State, ∃ psn : U32, ∃ ctag : U32, ∃ sq : BitVec 20, ∃ rq : Bool, ∃ ci : Bool, ∃
    pm : BitVec 3, ∃ wi : BitVec 4, ∃ r0 : BitVec 3, ∃ rs : Byte, ∃ r1 : BitVec 24, (Whole p) ∧ (fabricUp s) ∧
    (p.bth.dstQpn.toNat = n) ∧ (p.ext = .cmeh psn ctag sq rq ci pm wi r0 rs r1) ∧ ∃ t, t = (noteArrival
    (epAdapter p.bth.srcEp) s) ∧ ∃ q, q = (getQp t n) ∧ (isType 0 p) ∧ (q.st ≠ .free) ∧ (restoring t = false) ∧
    (t.zrt.resident.contains n = true) ∧ (q.st = .init ∨ q.st = .connecting) ∧ (p.bth.srcEp = q.remoteEp) ∧ (sq
    = q.remoteQpn) ∧ (ci = q.cipher)) ∧
    (∃ n : Nat, ∃ p : Packet, ∃ s : State, ∃ psn : U32, ∃ ctag : U32, ∃ sq : BitVec 20, ∃ rq : Bool, ∃ ci : Bool, ∃
    pm : BitVec 3, ∃ wi : BitVec 4, ∃ r0 : BitVec 3, ∃ rs : Byte, ∃ r1 : BitVec 24, (Whole p) ∧ (fabricUp s) ∧
    (p.bth.dstQpn.toNat = n) ∧ (p.ext = .cmeh psn ctag sq rq ci pm wi r0 rs r1) ∧ ∃ t, t = (noteArrival
    (epAdapter p.bth.srcEp) s) ∧ ∃ q, q = (getQp t n) ∧ (isType 0 p) ∧ (q.st ≠ .free) ∧ (restoring t = false) ∧
    (t.zrt.resident.contains n = true) ∧ (q.st = .init ∨ q.st = .connecting) ∧ (p.bth.srcEp = q.remoteEp) ∧ (sq
    = q.remoteQpn) ∧ (ci = q.cipher)) ∧
    (∃ n : Nat, ∃ p : Packet, ∃ s : State, ∃ psn : U32, ∃ ctag : U32, ∃ sq : BitVec 20, ∃ rq : Bool, ∃ ci : Bool, ∃
    pm : BitVec 3, ∃ wi : BitVec 4, ∃ r0 : BitVec 3, ∃ rs : Byte, ∃ r1 : BitVec 24, (Whole p) ∧ (fabricUp s) ∧
    (p.bth.dstQpn.toNat = n) ∧ (p.ext = .cmeh psn ctag sq rq ci pm wi r0 rs r1) ∧ ∃ t, t = (noteArrival
    (epAdapter p.bth.srcEp) s) ∧ ∃ q, q = (getQp t n) ∧ (restoring t = false) ∧ (t.zrt.resident.contains n =
    true) ∧ (q.st ≠ .free) ∧ (isType 1 p)) ∧
    (∃ n : Nat, ∃ p : Packet, ∃ s : State, ∃ psn : U32, ∃ ctag : U32, ∃ sq : BitVec 20, ∃ rq : Bool, ∃ ci : Bool, ∃
    pm : BitVec 3, ∃ wi : BitVec 4, ∃ r0 : BitVec 3, ∃ rs : Byte, ∃ r1 : BitVec 24, (Whole p) ∧ (fabricUp s) ∧
    (p.bth.dstQpn.toNat = n) ∧ (p.ext = .cmeh psn ctag sq rq ci pm wi r0 rs r1) ∧ ∃ t, t = (noteArrival
    (epAdapter p.bth.srcEp) s) ∧ ∃ q, q = (getQp t n) ∧ (restoring t = false) ∧ (t.zrt.resident.contains n =
    true) ∧ (q.st ≠ .free) ∧ (isType 2 p) ∧ (awaits t n p sq = false)) ∧
    (∃ n : Nat, ∃ p : Packet, ∃ s : State, ∃ psn : U32, ∃ ctag : U32, ∃ sq : BitVec 20, ∃ rq : Bool, ∃ ci : Bool, ∃
    pm : BitVec 3, ∃ wi : BitVec 4, ∃ r0 : BitVec 3, ∃ rs : Byte, ∃ r1 : BitVec 24, (Whole p) ∧ (fabricUp s) ∧
    (p.bth.dstQpn.toNat = n) ∧ (p.ext = .cmeh psn ctag sq rq ci pm wi r0 rs r1) ∧ ∃ t, t = (noteArrival
    (epAdapter p.bth.srcEp) s) ∧ ∃ q, q = (getQp t n) ∧ (restoring t = false) ∧ (t.zrt.resident.contains n =
    true) ∧ (q.st ≠ .free) ∧ (isType 2 p) ∧ (awaits t n p sq) ∧ (rs = 1)) ∧
    (∃ n : Nat, ∃ p : Packet, ∃ s : State, ∃ psn : U32, ∃ ctag : U32, ∃ sq : BitVec 20, ∃ rq : Bool, ∃ ci : Bool, ∃
    pm : BitVec 3, ∃ wi : BitVec 4, ∃ r0 : BitVec 3, ∃ rs : Byte, ∃ r1 : BitVec 24, (Whole p) ∧ (fabricUp s) ∧
    (p.bth.dstQpn.toNat = n) ∧ (p.ext = .cmeh psn ctag sq rq ci pm wi r0 rs r1) ∧ ∃ t, t = (noteArrival
    (epAdapter p.bth.srcEp) s) ∧ ∃ q, q = (getQp t n) ∧ (restoring t = false) ∧ (t.zrt.resident.contains n =
    true) ∧ (q.st ≠ .free) ∧ (isType 2 p) ∧ (awaits t n p sq) ∧ (rs ≠ 1)) ∧
    (∃ n : Nat, ∃ p : Packet, ∃ s : State, ∃ psn : U32, ∃ ctag : U32, ∃ sq : BitVec 20, ∃ rq : Bool, ∃ ci : Bool, ∃
    pm : BitVec 3, ∃ wi : BitVec 4, ∃ r0 : BitVec 3, ∃ rs : Byte, ∃ r1 : BitVec 24, (Whole p) ∧ (fabricUp s) ∧
    (p.bth.dstQpn.toNat = n) ∧ (p.ext = .cmeh psn ctag sq rq ci pm wi r0 rs r1) ∧ ∃ t, t = (noteArrival
    (epAdapter p.bth.srcEp) s) ∧ ∃ q, q = (getQp t n) ∧ (restoring t = false) ∧ (t.zrt.resident.contains n =
    true) ∧ (q.st ≠ .free) ∧ (isType 2 p) ∧ (awaits t n p sq) ∧ (rs ≠ 1)) ∧
    (∃ n : Nat, ∃ s : State, (running s) ∧ ((getQp s n).st = .connecting) ∧ (elapsed s (getQp s n).req.conAt (getQp s
    n).interval) ∧ ((getQp s n).req.conSends < 16 * ((getQp s n).retryLim + 1))) ∧
    (∃ n : Nat, ∃ s : State, (running s) ∧ ((getQp s n).st = .connecting) ∧ (elapsed s (getQp s n).req.conAt (getQp s
    n).interval) ∧ (16 * ((getQp s n).retryLim + 1) ≤ (getQp s n).req.conSends)) :=
  ⟨⟨3, cm 0, up, 0, 0, 4, false, false, 4, 8, 0, 0, 0, by (unfold Whole; decide +kernel), by decide +kernel,
    by decide +kernel, by decide +kernel, _, rfl, _, rfl, by decide +kernel, by decide +kernel⟩,
    ⟨3, cm 0, withQp { qn with st := .draining, remoteQpn := 4 } up, 0, 0, 4, false, false, 4, 8, 0, 0, 0,
    by (unfold Whole; decide +kernel), by decide +kernel, by decide +kernel, by decide +kernel, _, rfl, _, rfl,
    by decide +kernel, by decide +kernel, by decide +kernel, by decide +kernel, by decide +kernel⟩,
    ⟨3, cm 0, withQp { qn with st := .init, remoteQpn := 5 } up, 0, 0, 4, false, false, 4, 8, 0, 0, 0,
    by (unfold Whole; decide +kernel), by decide +kernel, by decide +kernel, by decide +kernel, _, rfl, _, rfl,
    by decide +kernel, by decide +kernel, by decide +kernel, by decide +kernel, by decide +kernel,
    by decide +kernel⟩,
    ⟨3, cm 0, withQp { qn with st := .rts, remoteQpn := 4, peerCtag := some 0 } up, 0, 0, 4, false, false, 4, 8, 0,
    0, 0, by (unfold Whole; decide +kernel), by decide +kernel, by decide +kernel, by decide +kernel, _, rfl, _,
    rfl, by decide +kernel, by decide +kernel, by decide +kernel, by decide +kernel, by decide +kernel,
    by decide +kernel, by decide +kernel⟩,
    ⟨3, cm 0, withQp { qn with st := .connecting, remoteQpn := 4, attr := 0x200 } up, 0, 0, 4, false, false, 4, 8,
    0, 0, 0, by (unfold Whole; decide +kernel), by decide +kernel, by decide +kernel, by decide +kernel, _, rfl,
    _, rfl, by decide +kernel, by decide +kernel, by decide +kernel, by decide +kernel, by decide +kernel,
    by decide +kernel, by decide +kernel, by decide +kernel⟩,
    ⟨3, cm 0, withQp { qn with st := .init, remoteQpn := 4 } up, 0, 0, 4, false, false, 4, 8, 0, 0, 0,
    by (unfold Whole; decide +kernel), by decide +kernel, by decide +kernel, by decide +kernel, _, rfl, _, rfl,
    by decide +kernel, by decide +kernel, by decide +kernel, by decide +kernel, by decide +kernel,
    by decide +kernel, by decide +kernel, by decide +kernel⟩,
    ⟨3, cm 0, withQp { qn with st := .connecting, remoteQpn := 4 } up, 0, 0, 4, false, false, 4, 8, 0, 0, 0,
    by (unfold Whole; decide +kernel), by decide +kernel, by decide +kernel, by decide +kernel, _, rfl, _, rfl,
    by decide +kernel, by decide +kernel, by decide +kernel, by decide +kernel, by decide +kernel,
    by decide +kernel, by decide +kernel, by decide +kernel⟩,
    ⟨3, cm 1, withQp { qn with st := .connecting, remoteQpn := 4 } up, 0, 0, 4, false, false, 4, 8, 0, 0, 0,
    by (unfold Whole; decide +kernel), by decide +kernel, by decide +kernel, by decide +kernel, _, rfl, _, rfl,
    by decide +kernel, by decide +kernel, by decide +kernel, by decide +kernel⟩,
    ⟨3, cm 2 1, withQp { qn with st := .rts, remoteQpn := 4 } up, 0, 0, 4, false, false, 4, 8, 0, 1, 0,
    by (unfold Whole; decide +kernel), by decide +kernel, by decide +kernel, by decide +kernel, _, rfl, _, rfl,
    by decide +kernel, by decide +kernel, by decide +kernel, by decide +kernel, by decide +kernel⟩,
    ⟨3, cm 2 1, withQp { qn with st := .connecting, remoteQpn := 4 } up, 0, 0, 4, false, false, 4, 8, 0, 1, 0,
    by (unfold Whole; decide +kernel), by decide +kernel, by decide +kernel, by decide +kernel, _, rfl, _, rfl,
    by decide +kernel, by decide +kernel, by decide +kernel, by decide +kernel, by decide +kernel,
    by decide +kernel⟩,
    ⟨3, cm 2 2, withQp { qn with st := .connecting, remoteQpn := 4 } up, 0, 0, 4, false, false, 4, 8, 0, 2, 0,
    by (unfold Whole; decide +kernel), by decide +kernel, by decide +kernel, by decide +kernel, _, rfl, _, rfl,
    by decide +kernel, by decide +kernel, by decide +kernel, by decide +kernel, by decide +kernel,
    by decide +kernel⟩,
    ⟨3, cm 2 3, withQp { qn with st := .connecting, remoteQpn := 4 } up, 0, 0, 4, false, false, 4, 8, 0, 3, 0,
    by (unfold Whole; decide +kernel), by decide +kernel, by decide +kernel, by decide +kernel, _, rfl, _, rfl,
    by decide +kernel, by decide +kernel, by decide +kernel, by decide +kernel, by decide +kernel,
    by decide +kernel⟩,
    ⟨3, withQp { qn with st := .connecting } up, by decide +kernel, by decide +kernel, by decide +kernel,
    by decide +kernel⟩,
    ⟨3, withQp { qn with st := .connecting, req := { conSends := 4000 } } up, by decide +kernel, by decide +kernel,
    by decide +kernel, by decide +kernel⟩⟩

theorem wit_ArrivingPacketsAreChecked :
    (∃ p : Packet, ∃ c : Instr, ∃ s : State, ((c, true) ∈ ([(.writePacket p, isType 3 p), (.sendPacket p, isType 4
    p), (.readReq p, isType 5 p), (.readResp p, isType 6 p), (.ack p, isAnswer 0 p), (.nakRnr p, isAnswer 1 p),
    (.nakWait p, isAnswer 2 p), (.nakHold p, isAnswer 3 p), (.holdClear p, isAnswer 4 p), (.nakAccess p,
    isAnswer 5 p)] : List (Instr × Bool))) ∧ (fabricUp s) ∧ (p.icrc ≠ icrcOf p)) ∧
    (∃ p : Packet, ∃ c : Instr, ∃ s : State, ((c, true) ∈ ([(.writePacket p, isType 3 p), (.sendPacket p, isType 4
    p), (.readReq p, isType 5 p), (.readResp p, isType 6 p), (.ack p, isAnswer 0 p), (.nakRnr p, isAnswer 1 p),
    (.nakWait p, isAnswer 2 p), (.nakHold p, isAnswer 3 p), (.holdClear p, isAnswer 4 p), (.nakAccess p,
    isAnswer 5 p)] : List (Instr × Bool))) ∧ (fabricUp s) ∧ (p.icrc = icrcOf p) ∧ (headerOk p = false)) ∧
    (∃ p : Packet, ∃ c : Instr, ∃ s : State, ((c, true) ∈ ([(.writePacket p, isType 3 p), (.sendPacket p, isType 4
    p), (.readReq p, isType 5 p), (.readResp p, isType 6 p), (.ack p, isAnswer 0 p), (.nakRnr p, isAnswer 1 p),
    (.nakWait p, isAnswer 2 p), (.nakHold p, isAnswer 3 p), (.holdClear p, isAnswer 4 p), (.nakAccess p,
    isAnswer 5 p)] : List (Instr × Bool))) ∧ (fabricUp s) ∧ (Whole p) ∧ ∃ t, t = (noteArrival (epAdapter
    p.bth.srcEp) s) ∧ ∃ n, n = (p.bth.dstQpn.toNat) ∧ ∃ q, q = (getQp t n) ∧ (q.st = .free)) ∧
    (∃ p : Packet, ∃ c : Instr, ∃ s : State, ((c, true) ∈ ([(.writePacket p, isType 3 p), (.sendPacket p, isType 4
    p), (.readReq p, isType 5 p), (.readResp p, isType 6 p), (.ack p, isAnswer 0 p), (.nakRnr p, isAnswer 1 p),
    (.nakWait p, isAnswer 2 p), (.nakHold p, isAnswer 3 p), (.holdClear p, isAnswer 4 p), (.nakAccess p,
    isAnswer 5 p)] : List (Instr × Bool))) ∧ (fabricUp s) ∧ (Whole p) ∧ ∃ t, t = (noteArrival (epAdapter
    p.bth.srcEp) s) ∧ ∃ n, n = (p.bth.dstQpn.toNat) ∧ ∃ q, q = (getQp t n) ∧ (q.st ≠ .free) ∧ (restoring t)) ∧
    (∃ p : Packet, ∃ c : Instr, ∃ s : State, ((c, true) ∈ ([(.writePacket p, isType 3 p), (.sendPacket p, isType 4
    p), (.readReq p, isType 5 p), (.readResp p, isType 6 p), (.ack p, isAnswer 0 p), (.nakRnr p, isAnswer 1 p),
    (.nakWait p, isAnswer 2 p), (.nakHold p, isAnswer 3 p), (.holdClear p, isAnswer 4 p), (.nakAccess p,
    isAnswer 5 p)] : List (Instr × Bool))) ∧ (fabricUp s) ∧ (Whole p) ∧ ∃ t, t = (noteArrival (epAdapter
    p.bth.srcEp) s) ∧ ∃ n, n = (p.bth.dstQpn.toNat) ∧ ∃ q, q = (getQp t n) ∧ (q.st ≠ .free) ∧ (restoring t =
    false) ∧ (t.zrt.resident.contains n = false) ∧ (missBytes t + packetLen p ≤ 524288)) ∧
    (∃ p : Packet, ∃ c : Instr, ∃ s : State, ((c, true) ∈ ([(.writePacket p, isType 3 p), (.sendPacket p, isType 4
    p), (.readReq p, isType 5 p), (.readResp p, isType 6 p), (.ack p, isAnswer 0 p), (.nakRnr p, isAnswer 1 p),
    (.nakWait p, isAnswer 2 p), (.nakHold p, isAnswer 3 p), (.holdClear p, isAnswer 4 p), (.nakAccess p,
    isAnswer 5 p)] : List (Instr × Bool))) ∧ (fabricUp s) ∧ (Whole p) ∧ ∃ t, t = (noteArrival (epAdapter
    p.bth.srcEp) s) ∧ ∃ n, n = (p.bth.dstQpn.toNat) ∧ ∃ q, q = (getQp t n) ∧ (q.st ≠ .free) ∧ (restoring t =
    false) ∧ (t.zrt.resident.contains n = false) ∧ (524288 < missBytes t + packetLen p)) ∧
    (∃ p : Packet, ∃ c : Instr, ∃ s : State, ((c, true) ∈ ([(.writePacket p, isType 3 p), (.sendPacket p, isType 4
    p), (.readReq p, isType 5 p), (.readResp p, isType 6 p), (.ack p, isAnswer 0 p), (.nakRnr p, isAnswer 1 p),
    (.nakWait p, isAnswer 2 p), (.nakHold p, isAnswer 3 p), (.holdClear p, isAnswer 4 p), (.nakAccess p,
    isAnswer 5 p)] : List (Instr × Bool))) ∧ (fabricUp s) ∧ (Whole p) ∧ ∃ t, t = (noteArrival (epAdapter
    p.bth.srcEp) s) ∧ ∃ n, n = (p.bth.dstQpn.toNat) ∧ ∃ q, q = (getQp t n) ∧ (q.st ≠ .free) ∧ (restoring t =
    false) ∧ (t.zrt.resident.contains n = true) ∧ (p.bth.ctag ≠ q.ctag ∨ q.st = .error)) ∧
    (∃ p : Packet, ∃ c : Instr, ∃ s : State, ((c, true) ∈ ([(.writePacket p, isType 3 p), (.sendPacket p, isType 4
    p), (.readReq p, isType 5 p), (.readResp p, isType 6 p), (.ack p, isAnswer 0 p), (.nakRnr p, isAnswer 1 p),
    (.nakWait p, isAnswer 2 p), (.nakHold p, isAnswer 3 p), (.holdClear p, isAnswer 4 p), (.nakAccess p,
    isAnswer 5 p)] : List (Instr × Bool))) ∧ (fabricUp s) ∧ (Whole p) ∧ ∃ t, t = (noteArrival (epAdapter
    p.bth.srcEp) s) ∧ ∃ n, n = (p.bth.dstQpn.toNat) ∧ ∃ q, q = (getQp t n) ∧ (q.st ≠ .free) ∧ (restoring t =
    false) ∧ (t.zrt.resident.contains n = true) ∧ (p.bth.ctag ≠ q.ctag ∨ q.st = .error)) ∧
    (∃ p : Packet, ∃ c : Instr, ∃ s : State, ((c, true) ∈ ([(.writePacket p, isType 3 p), (.sendPacket p, isType 4
    p), (.readReq p, isType 5 p), (.readResp p, isType 6 p), (.ack p, isAnswer 0 p), (.nakRnr p, isAnswer 1 p),
    (.nakWait p, isAnswer 2 p), (.nakHold p, isAnswer 3 p), (.holdClear p, isAnswer 4 p), (.nakAccess p,
    isAnswer 5 p)] : List (Instr × Bool))) ∧ (fabricUp s) ∧ (Whole p) ∧ ∃ t, t = (noteArrival (epAdapter
    p.bth.srcEp) s) ∧ ∃ n, n = (p.bth.dstQpn.toNat) ∧ ∃ q, q = (getQp t n) ∧ (q.st ≠ .free) ∧ (restoring t =
    false) ∧ (t.zrt.resident.contains n = true) ∧ (p.bth.ctag = q.ctag) ∧ (q.st ≠ .error) ∧ (q.connected =
    false)) ∧
    (∃ p : Packet, ∃ c : Instr, ∃ s : State, ((c, true) ∈ ([(.writePacket p, isType 3 p), (.sendPacket p, isType 4
    p), (.readReq p, isType 5 p), (.readResp p, isType 6 p), (.ack p, isAnswer 0 p), (.nakRnr p, isAnswer 1 p),
    (.nakWait p, isAnswer 2 p), (.nakHold p, isAnswer 3 p), (.holdClear p, isAnswer 4 p), (.nakAccess p,
    isAnswer 5 p)] : List (Instr × Bool))) ∧ (fabricUp s) ∧ (Whole p) ∧ ∃ t, t = (noteArrival (epAdapter
    p.bth.srcEp) s) ∧ ∃ n, n = (p.bth.dstQpn.toNat) ∧ ∃ q, q = (getQp t n) ∧ (q.st ≠ .free) ∧ (restoring t =
    false) ∧ (t.zrt.resident.contains n = true) ∧ (p.bth.ctag = q.ctag) ∧ (q.connected) ∧ (p.bth.ciph) ∧
    (q.cipher)) ∧
    (∃ p : Packet, ∃ c : Instr, ∃ s : State, ((c, true) ∈ ([(.writePacket p, isType 3 p), (.sendPacket p, isType 4
    p), (.readReq p, isType 5 p), (.readResp p, isType 6 p), (.ack p, isAnswer 0 p), (.nakRnr p, isAnswer 1 p),
    (.nakWait p, isAnswer 2 p), (.nakHold p, isAnswer 3 p), (.holdClear p, isAnswer 4 p), (.nakAccess p,
    isAnswer 5 p)] : List (Instr × Bool))) ∧ (fabricUp s) ∧ (Whole p) ∧ ∃ t, t = (noteArrival (epAdapter
    p.bth.srcEp) s) ∧ ∃ n, n = (p.bth.dstQpn.toNat) ∧ ∃ q, q = (getQp t n) ∧ (q.st ≠ .free) ∧ (restoring t =
    false) ∧ (t.zrt.resident.contains n = true) ∧ (p.bth.ctag = q.ctag) ∧ (q.connected) ∧ (p.bth.ciph ≠
    q.cipher)) :=
  ⟨⟨{ ans 0 with icrc := (ans 0).icrc + 1 }, .ack { ans 0 with icrc := (ans 0).icrc + 1 }, up,
    by (exact List.mem_of_getElem? (i := 4) rfl), by decide +kernel, by decide +kernel⟩,
    ⟨pk 3 .none, .writePacket (pk 3 .none), up, by decide +kernel, by decide +kernel, by decide +kernel,
    by decide +kernel⟩,
    ⟨pk 3 (.reth 0 7 4 1 0 0) [1, 2, 3, 4] 0 3, .writePacket (pk 3 (.reth 0 7 4 1 0 0) [1, 2, 3, 4] 0 3), up,
    by decide +kernel, by decide +kernel, by (unfold Whole; decide +kernel), _, rfl, _, rfl, _, rfl,
    by decide +kernel⟩,
    ⟨pk 3 (.reth 0 7 4 1 0 0) [1, 2, 3, 4] 0 3, .writePacket (pk 3 (.reth 0 7 4 1 0 0) [1, 2, 3, 4] 0 3),
    { withQp qn up with boot := { run := .boot, stage := 7 } }, by decide +kernel, by decide +kernel,
    by (unfold Whole; decide +kernel), _, rfl, _, rfl, _, rfl, by decide +kernel, by decide +kernel⟩,
    ⟨pk 3 (.reth 0 7 4 1 0 0) [1, 2, 3, 4] 0 3, .writePacket (pk 3 (.reth 0 7 4 1 0 0) [1, 2, 3, 4] 0 3),
    { withQp qn up with zrt := {} }, by decide +kernel, by decide +kernel, by (unfold Whole; decide +kernel), _,
    rfl, _, rfl, _, rfl, by decide +kernel, by decide +kernel, by decide +kernel, by decide +kernel⟩,
    ⟨pk 3 (.reth 0 7 4 1 0 0) [1, 2, 3, 4] 0 3, .writePacket (pk 3 (.reth 0 7 4 1 0 0) [1, 2, 3, 4] 0 3),
    { withQp qn up with zrt := { missBuf := List.replicate 129 (3, pk 3 (.reth 0 7 4096 1 0 0) (List.replicate 4096 0) 0 3) } },
    by decide +kernel, by decide +kernel, by (unfold Whole; decide +kernel), _, rfl, _, rfl, _, rfl,
    by decide +kernel, by decide +kernel, by decide +kernel, by decide +kernel⟩,
    ⟨pk 3 (.reth 0 7 4 1 0 0) [1, 2, 3, 4] 0 3, .writePacket (pk 3 (.reth 0 7 4 1 0 0) [1, 2, 3, 4] 0 3), withQp
    { qn with ctag := 1 } up, by decide +kernel, by decide +kernel, by (unfold Whole; decide +kernel), _, rfl,
    _, rfl, _, rfl, by decide +kernel, by decide +kernel, by decide +kernel, by decide +kernel⟩,
    ⟨pk 3 (.reth 0 7 4 1 0 0) [1, 2, 3, 4] 0 3, .writePacket (pk 3 (.reth 0 7 4 1 0 0) [1, 2, 3, 4] 0 3), withQp
    { qn with st := .error } up, by decide +kernel, by decide +kernel, by (unfold Whole; decide +kernel), _,
    rfl, _, rfl, _, rfl, by decide +kernel, by decide +kernel, by decide +kernel, by decide +kernel⟩,
    ⟨pk 3 (.reth 0 7 4 1 0 0) [1, 2, 3, 4] 0 3, .writePacket (pk 3 (.reth 0 7 4 1 0 0) [1, 2, 3, 4] 0 3), withQp
    { qn with st := .init } up, by decide +kernel, by decide +kernel, by (unfold Whole; decide +kernel), _, rfl,
    _, rfl, _, rfl, by decide +kernel, by decide +kernel, by decide +kernel, by decide +kernel,
    by decide +kernel, by decide +kernel⟩,
    ⟨sealed
    { (pk 3 (.reth 0 7 4 1 0 0) [1, 2, 3, 4] 0 3) with bth := { (pk 3 (.reth 0 7 4 1 0 0) [1, 2, 3, 4] 0 3).bth with ciph := true }, cph := some default },
    .writePacket
    (sealed { (pk 3 (.reth 0 7 4 1 0 0) [1, 2, 3, 4] 0 3) with bth := { (pk 3 (.reth 0 7 4 1 0 0) [1, 2, 3, 4] 0 3).bth with ciph := true }, cph := some default }),
    withQp { qn with attr := 0x40000000200 } up, by decide +kernel, by decide +kernel,
    by (unfold Whole; decide +kernel), _, rfl, _, rfl, _, rfl, by decide +kernel, by decide +kernel,
    by decide +kernel, by decide +kernel, by decide +kernel, by decide +kernel, by decide +kernel⟩,
    ⟨pk 3 (.reth 0 7 4 1 0 0) [1, 2, 3, 4] 0 3, .writePacket (pk 3 (.reth 0 7 4 1 0 0) [1, 2, 3, 4] 0 3), withQp
    { qn with attr := 0x40000000200 } up, by decide +kernel, by decide +kernel,
    by (unfold Whole; decide +kernel), _, rfl, _, rfl, _, rfl, by decide +kernel, by decide +kernel,
    by decide +kernel, by decide +kernel, by decide +kernel, by decide +kernel⟩⟩

theorem wit_DataPacketsAreTakenOncePerPsn :
    (∃ typ : Nat, ∃ n : Nat, ∃ p : Packet, ∃ c : Instr, ∃ s : State, ((typ, c) ∈ ([(3, .writePacket p), (4,
    .sendPacket p)] : List (Nat × Instr))) ∧ (Reaches n p s) ∧ (isType typ p) ∧ ∃ t, t = (atQp n p s) ∧ ∃ q, q =
    (getQp t n) ∧ ∃ d, d = ((p.bth.psn - q.rsp.e).toNat) ∧ (0x80000000 ≤ d)) ∧
    (∃ typ : Nat, ∃ n : Nat, ∃ p : Packet, ∃ c : Instr, ∃ s : State, ((typ, c) ∈ ([(3, .writePacket p), (4,
    .sendPacket p)] : List (Nat × Instr))) ∧ (Reaches n p s) ∧ (isType typ p) ∧ ∃ t, t = (atQp n p s) ∧ ∃ q, q =
    (getQp t n) ∧ ∃ d, d = ((p.bth.psn - q.rsp.e).toNat) ∧ (d < 0x80000000) ∧ ((q.win ≤ d ∨ q.rsp.held.contains
    p.bth.psn))) ∧
    (∃ typ : Nat, ∃ n : Nat, ∃ p : Packet, ∃ c : Instr, ∃ s : State, ((typ, c) ∈ ([(3, .writePacket p), (4,
    .sendPacket p)] : List (Nat × Instr))) ∧ (Reaches n p s) ∧ (isType typ p) ∧ ∃ t, t = (atQp n p s) ∧ ∃ q, q =
    (getQp t n) ∧ ∃ d, d = ((p.bth.psn - q.rsp.e).toNat) ∧ (d < 0x80000000) ∧ ((q.win ≤ d ∨ q.rsp.held.contains
    p.bth.psn))) ∧
    (∃ typ : Nat, ∃ n : Nat, ∃ p : Packet, ∃ c : Instr, ∃ s : State, ((typ, c) ∈ ([(3, .writePacket p), (4,
    .sendPacket p)] : List (Nat × Instr))) ∧ (Reaches n p s) ∧ (isType typ p) ∧ ∃ t, t = (atQp n p s) ∧ ∃ q, q =
    (getQp t n) ∧ ∃ d, d = ((p.bth.psn - q.rsp.e).toNat) ∧ (d < 0x80000000) ∧ (d < q.win) ∧ (q.rsp.held.contains
    p.bth.psn = false) ∧ (typ = 4) ∧ (q.rqEn = false)) ∧
    (∃ typ : Nat, ∃ n : Nat, ∃ p : Packet, ∃ c : Instr, ∃ s : State, ((typ, c) ∈ ([(3, .writePacket p), (4,
    .sendPacket p)] : List (Nat × Instr))) ∧ (Reaches n p s) ∧ (isType typ p) ∧ ∃ t, t = (atQp n p s) ∧ ∃ q, q =
    (getQp t n) ∧ ∃ d, d = ((p.bth.psn - q.rsp.e).toNat) ∧ (d < 0x80000000) ∧ (d < q.win) ∧ (q.rsp.held.contains
    p.bth.psn = false) ∧ (typ = 4) ∧ (q.rqEn) ∧ (notReady t q p)) ∧
    (∃ typ : Nat, ∃ n : Nat, ∃ p : Packet, ∃ c : Instr, ∃ s : State, ((typ, c) ∈ ([(3, .writePacket p), (4,
    .sendPacket p)] : List (Nat × Instr))) ∧ (Reaches n p s) ∧ (isType typ p) ∧ ∃ t, t = (atQp n p s) ∧ ∃ q, q =
    (getQp t n) ∧ ∃ d, d = ((p.bth.psn - q.rsp.e).toNat) ∧ (d < 0x80000000) ∧ (d < q.win) ∧ (q.rsp.held.contains
    p.bth.psn = false) ∧ ((typ = 4 → q.rqEn ∧ notReady t q p = false)) ∧ (needsStream q t p) ∧ (parkedStream t
    (.responder n))) ∧
    (∃ typ : Nat, ∃ n : Nat, ∃ p : Packet, ∃ c : Instr, ∃ s : State, ((typ, c) ∈ ([(3, .writePacket p), (4,
    .sendPacket p)] : List (Nat × Instr))) ∧ (Reaches n p s) ∧ (isType typ p) ∧ ∃ t, t = (atQp n p s) ∧ ∃ q, q =
    (getQp t n) ∧ ∃ d, d = ((p.bth.psn - q.rsp.e).toNat) ∧ (d < 0x80000000) ∧ (d < q.win) ∧ (q.rsp.held.contains
    p.bth.psn = false) ∧ ((typ = 4 → q.rqEn ∧ notReady t q p = false)) ∧ (¬ (needsStream q t p ∧ parkedStream t
    (.responder n)))) ∧
    (∃ typ : Nat, ∃ n : Nat, ∃ p : Packet, ∃ c : Instr, ∃ s : State, ((typ, c) ∈ ([(3, .writePacket p), (4,
    .sendPacket p)] : List (Nat × Instr))) ∧ (Reaches n p s) ∧ (isType typ p) ∧ ∃ t, t = (atQp n p s) ∧ ∃ q, q =
    (getQp t n) ∧ ∃ d, d = ((p.bth.psn - q.rsp.e).toNat) ∧ (d < 0x80000000) ∧ (d < q.win) ∧ (q.rsp.held.contains
    p.bth.psn = false) ∧ ((typ = 4 → q.rqEn ∧ notReady t q p = false)) ∧ (¬ (needsStream q t p ∧ parkedStream t
    (.responder n)))) ∧
    (∃ n : Nat, ∃ p : Packet, ∃ s : State, ∃ roff : U64, ∃ rkey : U32, ∃ len : U32, ∃ rseg : Byte, ∃ rsv : BitVec 24,
    ∃ ro : U32, (Reaches n p s) ∧ (isType 5 p) ∧ (p.ext = .reth roff rkey len rseg rsv ro) ∧ ∃ t, t = (atQp n p
    s) ∧ ∃ q, q = (getQp t n) ∧ ∃ d, d = ((p.bth.psn - q.rsp.e).toNat) ∧ ∃ k, k = (ceilDiv len.toNat q.pmtu) ∧
    ((q.win < k ∨ (d < 0x80000000 ∧ (q.win < d + k ∨ q.rsp.held.contains p.bth.psn))))) ∧
    (∃ n : Nat, ∃ p : Packet, ∃ s : State, ∃ roff : U64, ∃ rkey : U32, ∃ len : U32, ∃ rseg : Byte, ∃ rsv : BitVec 24,
    ∃ ro : U32, (Reaches n p s) ∧ (isType 5 p) ∧ (p.ext = .reth roff rkey len rseg rsv ro) ∧ ∃ t, t = (atQp n p
    s) ∧ ∃ q, q = (getQp t n) ∧ ∃ d, d = ((p.bth.psn - q.rsp.e).toNat) ∧ ∃ k, k = (ceilDiv len.toNat q.pmtu) ∧
    ((q.win < k ∨ (d < 0x80000000 ∧ (q.win < d + k ∨ q.rsp.held.contains p.bth.psn))))) ∧
    (∃ n : Nat, ∃ p : Packet, ∃ s : State, ∃ roff : U64, ∃ rkey : U32, ∃ len : U32, ∃ rseg : Byte, ∃ rsv : BitVec 24,
    ∃ ro : U32, (Reaches n p s) ∧ (isType 5 p) ∧ (p.ext = .reth roff rkey len rseg rsv ro) ∧ ∃ t, t = (atQp n p
    s) ∧ ∃ q, q = (getQp t n) ∧ ∃ d, d = ((p.bth.psn - q.rsp.e).toNat) ∧ ∃ k, k = (ceilDiv len.toNat q.pmtu) ∧
    (k ≤ q.win) ∧ ((0x80000000 ≤ d ∨ (d + k ≤ q.win ∧ q.rsp.held.contains p.bth.psn = false))) ∧ (parkedStream t
    (.responder n))) ∧
    (∃ n : Nat, ∃ p : Packet, ∃ s : State, ∃ roff : U64, ∃ rkey : U32, ∃ len : U32, ∃ rseg : Byte, ∃ rsv : BitVec 24,
    ∃ ro : U32, (Reaches n p s) ∧ (isType 5 p) ∧ (p.ext = .reth roff rkey len rseg rsv ro) ∧ ∃ t, t = (atQp n p
    s) ∧ ∃ q, q = (getQp t n) ∧ ∃ d, d = ((p.bth.psn - q.rsp.e).toNat) ∧ ∃ k, k = (ceilDiv len.toNat q.pmtu) ∧
    (k ≤ q.win) ∧ ((0x80000000 ≤ d ∨ (d + k ≤ q.win ∧ q.rsp.held.contains p.bth.psn = false))) ∧ (parkedStream t
    (.responder n) = false) ∧ (readAllowed t q p = false)) ∧
    (∃ n : Nat, ∃ p : Packet, ∃ s : State, ∃ roff : U64, ∃ rkey : U32, ∃ len : U32, ∃ rseg : Byte, ∃ rsv : BitVec 24,
    ∃ ro : U32, (Reaches n p s) ∧ (isType 5 p) ∧ (p.ext = .reth roff rkey len rseg rsv ro) ∧ ∃ t, t = (atQp n p
    s) ∧ ∃ q, q = (getQp t n) ∧ ∃ d, d = ((p.bth.psn - q.rsp.e).toNat) ∧ ∃ k, k = (ceilDiv len.toNat q.pmtu) ∧
    (k ≤ q.win) ∧ ((0x80000000 ≤ d ∨ (d + k ≤ q.win ∧ q.rsp.held.contains p.bth.psn = false))) ∧ (parkedStream t
    (.responder n) = false) ∧ (readAllowed t q p) ∧ (0x80000000 ≤ d)) ∧
    (∃ n : Nat, ∃ p : Packet, ∃ s : State, ∃ roff : U64, ∃ rkey : U32, ∃ len : U32, ∃ rseg : Byte, ∃ rsv : BitVec 24,
    ∃ ro : U32, (Reaches n p s) ∧ (isType 5 p) ∧ (p.ext = .reth roff rkey len rseg rsv ro) ∧ ∃ t, t = (atQp n p
    s) ∧ ∃ q, q = (getQp t n) ∧ ∃ d, d = ((p.bth.psn - q.rsp.e).toNat) ∧ ∃ k, k = (ceilDiv len.toNat q.pmtu) ∧
    (k ≤ q.win) ∧ ((0x80000000 ≤ d ∨ (d + k ≤ q.win ∧ q.rsp.held.contains p.bth.psn = false))) ∧ (parkedStream t
    (.responder n) = false) ∧ (readAllowed t q p) ∧ (d < 0x80000000)) ∧
    (∃ n : Nat, ∃ p : Packet, ∃ s : State, (Reaches n p s) ∧ (isType 6 p) ∧ ∃ t, t = (atQp n p s) ∧ ∃ q, q = (getQp t
    n) ∧ ∃ due, due = (isReadPsn q p.bth.psn && psnBefore p.bth.psn q.req.hi && !confirmedTx q p.bth.psn &&     
      !q.req.placing.contains p.bth.psn) ∧ (due = false)) ∧
    (∃ n : Nat, ∃ p : Packet, ∃ s : State, (Reaches n p s) ∧ (isType 6 p) ∧ ∃ t, t = (atQp n p s) ∧ ∃ q, q = (getQp t
    n) ∧ ∃ due, due = (isReadPsn q p.bth.psn && psnBefore p.bth.psn q.req.hi && !confirmedTx q p.bth.psn &&     
      !q.req.placing.contains p.bth.psn) ∧ (due) ∧ (parkedStream t (.readResp n))) ∧
    (∃ n : Nat, ∃ p : Packet, ∃ s : State, (Reaches n p s) ∧ (isType 6 p) ∧ ∃ t, t = (atQp n p s) ∧ ∃ q, q = (getQp t
    n) ∧ ∃ due, due = (isReadPsn q p.bth.psn && psnBefore p.bth.psn q.req.hi && !confirmedTx q p.bth.psn &&     
      !q.req.placing.contains p.bth.psn) ∧ (due) ∧ (parkedStream t (.readResp n) = false)) :=
  ⟨⟨3, 3, pk 3 (.reth 0 7 4 1 0 0) [1, 2, 3, 4] 0x80000000 3, .writePacket
    (pk 3 (.reth 0 7 4 1 0 0) [1, 2, 3, 4] 0x80000000 3), withQp qn up, by decide +kernel,
    by (unfold Reaches Whole; decide +kernel), by decide +kernel, _, rfl, _, rfl, _, rfl, by decide +kernel⟩,
    ⟨3, 3, pk 3 (.reth 0 7 4 1 0 0) [1, 2, 3, 4] 1024 3, .writePacket
    (pk 3 (.reth 0 7 4 1 0 0) [1, 2, 3, 4] 1024 3), withQp qn up, by decide +kernel,
    by (unfold Reaches Whole; decide +kernel), by decide +kernel, _, rfl, _, rfl, _, rfl, by decide +kernel,
    by decide +kernel⟩,
    ⟨4, 3, pk 4 (.seth 0 4 0 0) [1, 2, 3, 4] 0 3, .sendPacket (pk 4 (.seth 0 4 0 0) [1, 2, 3, 4] 0 3), withQp
    { qn with rsp := { held := [0] } } up, by decide +kernel, by (unfold Reaches Whole; decide +kernel),
    by decide +kernel, _, rfl, _, rfl, _, rfl, by decide +kernel, by decide +kernel⟩,
    ⟨4, 3, pk 4 (.seth 0 4 0 0) [1, 2, 3, 4] 0 3, .sendPacket (pk 4 (.seth 0 4 0 0) [1, 2, 3, 4] 0 3), withQp qn up,
    by decide +kernel, by (unfold Reaches Whole; decide +kernel), by decide +kernel, _, rfl, _, rfl, _, rfl,
    by decide +kernel, by decide +kernel, by decide +kernel, by decide +kernel, by decide +kernel⟩,
    ⟨4, 3, pk 4 (.seth 0 4 0 0) [1, 2, 3, 4] 0 3, .sendPacket (pk 4 (.seth 0 4 0 0) [1, 2, 3, 4] 0 3), withQp
    { qn with attr := 0x40000000101 } (upQ qa qa ea), by decide +kernel,
    by (unfold Reaches Whole; decide +kernel), by decide +kernel, _, rfl, _, rfl, _, rfl, by decide +kernel,
    by decide +kernel, by decide +kernel, by decide +kernel, by decide +kernel, by decide +kernel⟩,
    ⟨3, 3, pk 3 (.reth 0 7 4 1 0 0) [1, 2, 3, 4] 0 3, .writePacket (pk 3 (.reth 0 7 4 1 0 0) [1, 2, 3, 4] 0 3),
    parkS (.responder 3) (withQp qn up), by decide +kernel, by (unfold Reaches Whole; decide +kernel),
    by decide +kernel, _, rfl, _, rfl, _, rfl, by decide +kernel, by decide +kernel, by decide +kernel,
    by decide +kernel, by decide +kernel, by decide +kernel⟩,
    ⟨3, 3, pk 3 (.reth 0 7 4 1 0 0) [1, 2, 3, 4] 1023 3, .writePacket
    (pk 3 (.reth 0 7 4 1 0 0) [1, 2, 3, 4] 1023 3), withQp qn up, by decide +kernel,
    by (unfold Reaches Whole; decide +kernel), by decide +kernel, _, rfl, _, rfl, _, rfl, by decide +kernel,
    by decide +kernel, by decide +kernel, by decide +kernel, by decide +kernel⟩,
    ⟨4, 3, pk 4 (.seth 0 4 0 0) [1, 2, 3, 4] 0 3, .sendPacket (pk 4 (.seth 0 4 0 0) [1, 2, 3, 4] 0 3), withQp
    { qn with attr := 0x40000000101 } (upQ qa { qa with acc := 1 } ea), by decide +kernel,
    by (unfold Reaches Whole; decide +kernel), by decide +kernel, _, rfl, _, rfl, _, rfl, by decide +kernel,
    by decide +kernel, by decide +kernel, by decide +kernel, by decide +kernel⟩,
    ⟨3, pk 5 (.reth 0 7 4097 1 0 0) [] 1023 3, withQp qn up, 0, 7, 4097, 1, 0, 0,
    by (unfold Reaches Whole; decide +kernel), by decide +kernel, by decide +kernel, _, rfl, _, rfl, _, rfl, _,
    rfl, by decide +kernel⟩,
    ⟨3, pk 5 (.reth 0 7 4 1 0 0) [] 0 3, withQp { qn with rsp := { held := [0] } } up, 0, 7, 4, 1, 0, 0,
    by (unfold Reaches Whole; decide +kernel), by decide +kernel, by decide +kernel, _, rfl, _, rfl, _, rfl, _,
    rfl, by decide +kernel⟩,
    ⟨3, pk 5 (.reth 0 7 4 1 0 0) [] 1023 3, parkS (.responder 3) (withQp qn up), 0, 7, 4, 1, 0, 0,
    by (unfold Reaches Whole; decide +kernel), by decide +kernel, by decide +kernel, _, rfl, _, rfl, _, rfl, _,
    rfl, by decide +kernel, by decide +kernel, by decide +kernel⟩,
    ⟨3, pk 5 (.reth 0 7 4 2 0 0) [] 0 3, withQp qn up, 0, 7, 4, 2, 0, 0, by (unfold Reaches Whole; decide +kernel),
    by decide +kernel, by decide +kernel, _, rfl, _, rfl, _, rfl, _, rfl, by decide +kernel, by decide +kernel,
    by decide +kernel, by decide +kernel⟩,
    ⟨3, pk 5 (.reth 0 7 4 1 0 0) [] 0x80000000 3, withQp qn up, 0, 7, 4, 1, 0, 0,
    by (unfold Reaches Whole; decide +kernel), by decide +kernel, by decide +kernel, _, rfl, _, rfl, _, rfl, _,
    rfl, by decide +kernel, by decide +kernel, by decide +kernel, by decide +kernel, by decide +kernel⟩,
    ⟨3, pk 5 (.reth 0 7 4 1 0 0) [] 1023 3, withQp qn up, 0, 7, 4, 1, 0, 0,
    by (unfold Reaches Whole; decide +kernel), by decide +kernel, by decide +kernel, _, rfl, _, rfl, _, rfl, _,
    rfl, by decide +kernel, by decide +kernel, by decide +kernel, by decide +kernel, by decide +kernel⟩,
    ⟨3, pk 6 (.rrh 0 0) [1] 0 3, withQp qn up, by (unfold Reaches Whole; decide +kernel), by decide +kernel, _, rfl,
    _, rfl, _, rfl, by decide +kernel⟩,
    ⟨3, pk 6 (.rrh 0 0) [1] 0 3, parkS (.readResp 3) (withQp (qSent 3) up),
    by (unfold Reaches Whole; decide +kernel), by decide +kernel, _, rfl, _, rfl, _, rfl, by decide +kernel,
    by decide +kernel⟩,
    ⟨3, pk 6 (.rrh 0 0) [1] 0 3, withQp (qSent 3) up, by (unfold Reaches Whole; decide +kernel), by decide +kernel,
    _, rfl, _, rfl, _, rfl, by decide +kernel, by decide +kernel⟩⟩

theorem wit_AnswersAreTakenBySyndrome :
    (∃ n : Nat, ∃ p : Packet, ∃ s : State, (Reaches n p s) ∧ (isAnswer 0 p)) ∧
    (∃ n : Nat, ∃ p : Packet, ∃ s : State, (Reaches n p s) ∧ ((getQp (afterAnswer n p s) n).connected) ∧ (isAnswer 1
    p)) ∧
    (∃ n : Nat, ∃ p : Packet, ∃ s : State, (Reaches n p s) ∧ ((getQp (afterAnswer n p s) n).connected) ∧ (isAnswer 2
    p)) ∧
    (∃ n : Nat, ∃ p : Packet, ∃ s : State, (Reaches n p s) ∧ ((getQp (afterAnswer n p s) n).connected) ∧ (isAnswer 3
    p)) ∧
    (∃ n : Nat, ∃ p : Packet, ∃ s : State, (Reaches n p s) ∧ ((getQp (afterAnswer n p s) n).connected) ∧ (isAnswer 4
    p)) ∧
    (∃ n : Nat, ∃ p : Packet, ∃ s : State, (Reaches n p s) ∧ ((getQp (afterAnswer n p s) n).connected) ∧ (isAnswer 5
    p)) ∧
    (∃ p : Packet, ∃ s : State, (Whole p) ∧ (fabricUp s) ∧ (isAnswer 6 p) ∧ ∃ t, t = (noteArrival (epAdapter
    p.bth.srcEp) s) ∧ ∃ n : Nat, (noConnQp t p = some n) ∧ (p.bth.ciph = false) ∧ ((getQp t n).connected)) ∧
    (∃ p : Packet, ∃ s : State, (Whole p) ∧ (fabricUp s) ∧ (isAnswer 6 p) ∧ ∃ t, t = (noteArrival (epAdapter
    p.bth.srcEp) s) ∧ (noConnQp t p = none)) :=
  ⟨⟨3, ans 0, withQp (qSent 2) up, by (unfold Reaches Whole; decide +kernel), by decide +kernel⟩,
    ⟨3, ans 1, withQp (qSent 2) up, by (unfold Reaches Whole; decide +kernel), by decide +kernel, by decide +kernel⟩,
    ⟨3, ans 2, withQp (qSent 2) up, by (unfold Reaches Whole; decide +kernel), by decide +kernel, by decide +kernel⟩,
    ⟨3, ans 3, withQp (qSent 2) up, by (unfold Reaches Whole; decide +kernel), by decide +kernel, by decide +kernel⟩,
    ⟨3, ans 4, withQp (qSent 2) up, by (unfold Reaches Whole; decide +kernel), by decide +kernel, by decide +kernel⟩,
    ⟨3, ans 5, withQp (qSent 2) up, by (unfold Reaches Whole; decide +kernel), by decide +kernel, by decide +kernel⟩,
    ⟨ans 6, withQp { qSent 2 with remoteQpn := 3, peerCtag := some 0 } up, by (unfold Whole; decide +kernel),
    by decide +kernel, by decide +kernel, _, rfl, 3, by decide +kernel, by decide +kernel, by decide +kernel⟩,
    ⟨ans 6, up, by (unfold Whole; decide +kernel), by decide +kernel, by decide +kernel, _, rfl, by decide +kernel⟩⟩

theorem wit_ContextsSendTurnsAndSourceReadsComplete :
    (∃ n : Nat, ∃ s : State, (fabricUp s) ∧ (s.zrt.fetching.contains n)) ∧
    (∃ n : Nat, ∃ s : State, (running s) ∧ (hasTurn s n) ∧ ∃ p : U32, ∃ re : Bool, (nextTurn s n = some (.req p re))) ∧
    (∃ n : Nat, ∃ s : State, (running s) ∧ (hasTurn s n) ∧ (nextTurn s n = some .resp)) ∧
    (∃ n : Nat, ∃ s : State, (hasTurn s n = false)) ∧
    (∃ w : ReadFor, ∃ s : State, (running s) ∧ ((readPlacesOf s w).findSome? (hurtAt s (kindOf w)) = none) ∧ ∃ n :
    Nat, ∃ psn : U32, ∃ x : Pull, ∃ d : QDesc, (w = .packet n psn) ∧ ((getQp s n).req.pulls.find? (fun x =>
    x.psn = psn) = some x) ∧ (descAt (getQp s n) psn = some d) ∧ (d.recorded)) ∧
    (∃ w : ReadFor, ∃ s : State, (running s) ∧ ((readPlacesOf s w).findSome? (hurtAt s (kindOf w)) = none) ∧ ∃ n :
    Nat, ∃ psn : U32, ∃ x : Pull, ∃ r : RespOne, (w = .readResp n psn) ∧ ((getQp s n).rsp.pulls.find? (fun x =>
    x.psn = psn) = some x) ∧ ((getQp s n).rsp.sent.find? (fun r => r.psn = psn) = some r)) ∧
    (∃ w : ReadFor, ∃ s : State, (running s) ∧ ((readPlacesOf s w).findSome? (hurtAt s (kindOf w)) = none) ∧ ∃ g :
    Nat, ∃ m : Nat, ∃ c : Nat, (w = .chunk g m c)) ∧
    (∃ w : ReadFor, ∃ s : State, (running s) ∧ ((readPlacesOf s w).findSome? (hurtAt s (kindOf w)) = none) ∧ ∃ c :
    Nat, ∃ l : List (Nat × U64 × Nat), (w = .mover c) ∧ ((getCh10 s c).reading = some l)) ∧
    (∃ w : ReadFor, ∃ s : State, (running s) ∧ ((readPlacesOf s w).findSome? (hurtAt s (kindOf w)) = none) ∧ ∃ q :
    Nat, (w = .frame q)) ∧
    (∃ p : Nat, ∃ h : Bool, ∃ s : State, (running s) ∧ (((getP s (portKey p h)).flushing = false ∨ injected s 0x1D p
    = false))) ∧
    (∃ p : Nat, ∃ h : Bool, ∃ s : State, (running s) ∧ ((getP s (portKey p h)).flushing) ∧ (injected s 0x1D p)) ∧
    (∃ s : State, (running s)) ∧
    (∃ k : MirrorKey, ∃ s : State, (running s) ∧ (s.mirror.pendDone.contains k)) :=
  ⟨⟨3, { up with zrt := { fetching := [3] } }, by decide +kernel, by decide +kernel⟩,
    ⟨3, withQp
    { qSent 2 with req := { (qSent 2).req with hi := 0 }, rate := { credit := 10000, r := 1000, line := 1000 } }
    up, by decide +kernel, by decide +kernel, 0, false, by decide +kernel⟩,
    ⟨3, withQp
    { qn with rate := { credit := 10000, r := 1000, line := 1000 }, rsp := { resp := [{ psn := 0, seg := 1, off := 0, len := 4, msgOff := 0, msn := 0, first := true, last := true }] } }
    up, by decide +kernel, by decide +kernel, by decide +kernel⟩,
    ⟨3, withQp qn up, by decide +kernel⟩,
    ⟨.packet 3 0, withQp
    { qSent 2 with req := { (qSent 2).req with pulls := [{ psn := 0, resent := false, places := [(5, 0, 64)] }] } }
    up, by decide +kernel, by decide +kernel, 3, 0, { psn := 0, resent := false, places := [(5, 0, 64)] },
    (qSent 2).req.descs.headD
    { q := 1, idx := 0, op := 2, psn := 0, n := 1, msn := 0, len := 64, lseg := 1, loff := 0 },
    by decide +kernel, by decide +kernel, by decide +kernel, by decide +kernel⟩,
    ⟨.readResp 3 0, withQp
    { qn with rsp := { pulls := [{ psn := 0, resent := false, places := [(5, 0, 4)] }], sent := [{ psn := 0, seg := 1, off := 0, len := 4, msgOff := 0, msn := 0, first := true, last := true }] } }
    up, by decide +kernel, by decide +kernel, 3, 0, { psn := 0, resent := false, places := [(5, 0, 4)] },
    { psn := 0, seg := 1, off := 0, len := 4, msgOff := 0, msn := 0, first := true, last := true },
    by decide +kernel, by decide +kernel, by decide +kernel⟩,
    ⟨.chunk 5 0 0, up, by decide +kernel, by decide +kernel, 5, 0, 0, by decide +kernel⟩,
    ⟨.mover 0, { up with mov := { chans := [(0, { st := .run, desc := some mvD, reading := some [(0, 0, 1)] })] } },
    by decide +kernel, by decide +kernel, 0, [(0, 0, 1)], by decide +kernel, by decide +kernel⟩,
    ⟨.frame 1, up, by decide +kernel, by decide +kernel, 1, by decide +kernel⟩,
    ⟨0, false, up, by decide +kernel, by decide +kernel⟩,
    ⟨1, false,
    { up with pcx := { ports := [(1, { up := true, flushing := true })] }, err := { injections := [(0x1D, 1)] } },
    by decide +kernel, by decide +kernel, by decide +kernel⟩,
    ⟨up, by decide +kernel⟩,
    ⟨.qpE 3, { up with mirror := { pendDone := [.qpE 3] } }, by decide +kernel, by decide +kernel⟩⟩

theorem wit_TransportTimersActWhenTheirIntervalIsOver :
    (∃ n : Nat, ∃ s : State, (running s) ∧ ((getQp s n).st = .rts) ∧ ((getQp s n).inFlight) ∧ (elapsed s (getQp s
    n).req.timer (getQp s n).interval) ∧ ((getQp s n).retryLim ≤ (getQp s n).req.timeouts)) ∧
    (∃ n : Nat, ∃ s : State, (running s) ∧ ((getQp s n).st = .rts) ∧ ((getQp s n).inFlight) ∧ (elapsed s (getQp s
    n).req.timer (getQp s n).interval) ∧ ((getQp s n).req.timeouts < (getQp s n).retryLim)) ∧
    (∃ s : State, (running s)) ∧
    (∃ s : State, (running s)) ∧
    (∃ n : Nat, ∃ s : State, (running s) ∧ ((getQp s n).st = .hold) ∧ ((getQp s n).holdWhy ≠ 4) ∧ ((getQp s n).req.hi
    ≠ (getQp s n).req.ack) ∧ (elapsed s (getQp s n).req.holdSent (if (getQp s n).holdWhy = 3 then ms 1 else
    (getQp s n).interval))) ∧
    (∃ n : Nat, ∃ s : State, (running s) ∧ ((getQp s n).st = .hold) ∧ (((getQp s n).holdWhy = 1 ∨ (getQp s n).holdWhy
    = 2)) ∧ (elapsed s (getQp s n).req.holdAt (getQp s n).holdLimit)) ∧
    (∃ n : Nat, ∃ s : State, (running s) ∧ ((getQp s n).connected) ∧ (ccEn s (getQp s n).rate.profile) ∧ (elapsed s
    (getQp s n).rate.tInc (ratePeriod s (getQp s n).rate.profile))) ∧
    (∃ s : State, (running s) ∧ ((s.wheel + 1) * 16 ≤ s.now.toNat)) ∧
    (∃ n : Nat, ∃ s : State, (elapsed s (getQp s n).req.timer (getQp s n).interval = false)) ∧
    (∃ n : Nat, ∃ s : State, (elapsed s (getQp s n).req.holdSent (if (getQp s n).holdWhy = 3 then ms 1 else (getQp s
    n).interval) = false)) ∧
    (∃ n : Nat, ∃ s : State, (elapsed s (getQp s n).req.holdAt (getQp s n).holdLimit = false)) ∧
    (∃ n : Nat, ∃ s : State, (elapsed s (getQp s n).rate.tInc (ratePeriod s (getQp s n).rate.profile) = false)) :=
  ⟨⟨3, withQp { qSent 2 with req := { (qSent 2).req with timeouts := 7 } } up, by decide +kernel,
    by decide +kernel, by decide +kernel, by decide +kernel, by decide +kernel⟩,
    ⟨3, withQp { qSent 2 with attr := 0x40003800000 } up, by decide +kernel, by decide +kernel, by decide +kernel,
    by decide +kernel, by decide +kernel⟩,
    ⟨withQp { qSent 2 with req := { (qSent 2).req with rnr := [(0, 0, 0)] } } up, by decide +kernel⟩,
    ⟨withQp { qSent 2 with req := { (qSent 2).req with waitAt := [(0, 0)] } } up, by decide +kernel⟩,
    ⟨3, withQp { qSent 2 with st := .hold, holdWhy := 3 } up, by decide +kernel, by decide +kernel,
    by decide +kernel, by decide +kernel, by decide +kernel⟩,
    ⟨3, withQp { qSent 2 with st := .hold, holdWhy := 2 } up, by decide +kernel, by decide +kernel,
    by decide +kernel, by decide +kernel⟩,
    ⟨3, withQp qn { up with regs := [(0xC200, 0x1000000000000)] }, by decide +kernel, by decide +kernel,
    by decide +kernel, by decide +kernel⟩,
    ⟨up, by decide +kernel, by decide +kernel⟩,
    ⟨3, withQp { qSent 2 with req := { (qSent 2).req with timer := 1000000000000 } } up, by decide +kernel⟩,
    ⟨3, withQp { qSent 2 with req := { (qSent 2).req with holdSent := 1000000000000 } } up, by decide +kernel⟩,
    ⟨3, withQp { qSent 2 with req := { (qSent 2).req with holdAt := 1000000000000 } } up, by decide +kernel⟩,
    ⟨3, withQp { qSent 2 with rate := { tInc := 1000000000000 } } up, by decide +kernel⟩⟩

theorem wit_GroupCommandsComplete :
    (∃ f : Nat, ∃ q : Nat, ∃ i : Item, ∃ st : Status, ∃ s : State, (ready s f q 0x30 = some i) ∧ (descHurt s f q =
    none) ∧ (createRefused s i.desc) ∧ (createCheck s i.desc (createAttr i.desc 0 [] [] [] []) = some st)) ∧
    (∃ f : Nat, ∃ q : Nat, ∃ ms : List U64, ∃ sd : List U64, ∃ rd : List U64, ∃ rc : List U64, ∃ i : Item, ∃ s :
    State, (ready s f q 0x30 = some i) ∧ (descHurt s f q = none) ∧ (createRefused s i.desc = false) ∧
    (streamBusy s (.desc q) = false) ∧ ∃ r, r = (transRanges (.desc q) 0 false (createSpans i.desc) s) ∧ ∃ x, x
    = (createRead r.1 i.desc (Config.entropy s.free) ms sd rd rc) ∧ (placesReleased s 0 r.2.places) ∧ (r.2.full)
    ∧ ∃ st : Status, (createCheck r.1 i.desc x = some st)) ∧
    (∃ f : Nat, ∃ q : Nat, ∃ ms : List U64, ∃ sd : List U64, ∃ rd : List U64, ∃ rc : List U64, ∃ i : Item, ∃ s :
    State, (ready s f q 0x30 = some i) ∧ (descHurt s f q = none) ∧ (createRefused s i.desc = false) ∧
    (streamBusy s (.desc q) = false) ∧ ∃ r, r = (transRanges (.desc q) 0 false (createSpans i.desc) s) ∧ ∃ x, x
    = (createRead r.1 i.desc (Config.entropy s.free) ms sd rd rc) ∧ ∃ busy, busy = (r.1.grp.cmds.any (fun c =>
    !c.destroy && decide (c.attr.gid = x.gid))) ∧ (placesReleased s 0 r.2.places) ∧ (r.2.full) ∧ (createCheck
    r.1 i.desc x = none) ∧ (busy)) ∧
    (∃ f : Nat, ∃ q : Nat, ∃ ms : List U64, ∃ sd : List U64, ∃ rd : List U64, ∃ rc : List U64, ∃ i : Item, ∃ s :
    State, (ready s f q 0x30 = some i) ∧ (descHurt s f q = none) ∧ (createRefused s i.desc = false) ∧
    (streamBusy s (.desc q) = false) ∧ ∃ r, r = (transRanges (.desc q) 0 false (createSpans i.desc) s) ∧ ∃ x, x
    = (createRead r.1 i.desc (Config.entropy s.free) ms sd rd rc) ∧ ∃ busy, busy = (r.1.grp.cmds.any (fun c =>
    !c.destroy && decide (c.attr.gid = x.gid))) ∧ (placesReleased s 0 r.2.places) ∧ (r.2.full) ∧ (createCheck
    r.1 i.desc x = none) ∧ (busy = false) ∧ (r.1.trust.ent = 1)) ∧
    (∃ f : Nat, ∃ q : Nat, ∃ i : Item, ∃ s : State, (ready s f q 0x31 = some i) ∧ ∃ gid, gid = (fld i.desc.w2 11 0) ∧
    ((getG s gid).st ≠ .free)) ∧
    (∃ f : Nat, ∃ q : Nat, ∃ i : Item, ∃ s : State, (ready s f q 0x31 = some i) ∧ ∃ gid, gid = (fld i.desc.w2 11 0) ∧
    ((getG s gid).st = .free)) ∧
    (∃ f : Nat, ∃ q : Nat, ∃ i : Item, ∃ s : State, (ready s f q 0x32 = some i) ∧ (i.desc.w4.toNat % 64 ≠ 0)) ∧
    (∃ f : Nat, ∃ q : Nat, ∃ i : Item, ∃ s : State, (ready s f q 0x32 = some i) ∧ ∃ seg, seg = (fld i.desc.w3 7 0) ∧
    (i.desc.w4.toNat % 64 = 0) ∧ (rangeCheck s 0 seg i.desc.w4 64 .lwr none = false)) ∧
    (∃ f : Nat, ∃ q : Nat, ∃ i : Item, ∃ s : State, (ready s f q 0x32 = some i) ∧ ∃ seg, seg = (fld i.desc.w3 7 0) ∧
    ∃ r, r = (transRanges (.desc q) 0 true [(seg, i.desc.w4, 64)] s) ∧ (i.desc.w4.toNat % 64 = 0) ∧ (rangeCheck
    s 0 seg i.desc.w4 64 .lwr none) ∧ (streamBusy s (.desc q) = false) ∧ (placesReleased s 0 r.2.places) ∧
    (r.2.full)) ∧
    (∃ gid : Nat, ∃ c : GroupCmd, ∃ s : State, (running s) ∧ (s.grp.cmds.filter (fun c => !c.destroy && decide
    (c.attr.gid = gid)) = [c]) ∧ (elapsed s c.start (ms 100))) ∧
    (∃ gid : Nat, ∃ c : GroupCmd, ∃ s : State, (running s) ∧ (s.grp.cmds.filter (fun c => !c.destroy && decide
    (c.attr.gid = gid)) = [c]) ∧ (elapsed s c.start (ms 100) = false) ∧ (elapsed s c.sent (ms 1))) ∧
    (∃ gid : Nat, ∃ c : GroupCmd, ∃ s : State, (running s) ∧ (s.grp.cmds.filter (fun c => !c.destroy && decide
    (c.attr.gid = gid)) = [c]) ∧ (elapsed s c.start (ms 100) = false) ∧ (elapsed s c.sent (ms 1) = false)) ∧
    (∃ gid : Nat, ∃ s : State, (running s) ∧ ((getG s gid).st = .setup)) ∧
    (∃ gid : Nat, ∃ c : GroupCmd, ∃ s : State, (running s) ∧ (s.grp.cmds.filter (fun c => c.destroy && decide
    (c.attr.gid = gid)) = [c]) ∧ (elapsed s c.start (ms 100))) ∧
    (∃ gid : Nat, ∃ c : GroupCmd, ∃ s : State, (running s) ∧ (s.grp.cmds.filter (fun c => c.destroy && decide
    (c.attr.gid = gid)) = [c]) ∧ (elapsed s c.start (ms 100) = false) ∧ (elapsed s c.sent (ms 1))) ∧
    (∃ gid : Nat, ∃ c : GroupCmd, ∃ s : State, (running s) ∧ (s.grp.cmds.filter (fun c => c.destroy && decide
    (c.attr.gid = gid)) = [c]) ∧ (elapsed s c.start (ms 100) = false) ∧ (elapsed s c.sent (ms 1) = false)) :=
  ⟨⟨0, 1, { idx := 0, desc := dsc 0x30 0x10005 9 0 0 0 0 }, stat cACCESS_DENIED, upD (dsc 0x30 0x10005 9 0 0 0 0),
    by decide +kernel, by decide +kernel, by decide +kernel, by decide +kernel⟩,
    ⟨0, 1, [0, 0], [], [], [], { idx := 0, desc := dsc 0x30 0x10005 1 0 0 0 0 }, upD (dsc 0x30 0x10005 1 0 0 0 0),
    by decide +kernel, by decide +kernel, by decide +kernel, by decide +kernel, _, rfl, _, rfl,
    by decide +kernel, by decide +kernel, stat cBAD_FIELD, by decide +kernel⟩,
    ⟨0, 1, [0, 1], [], [], [], { idx := 0, desc := dsc 0x30 0x10005 1 0 0 0 0 },
    { upD (dsc 0x30 0x10005 1 0 0 0 0) with mem := [(8, 1)], grp := { cmds := [{ destroy := false, q := 2, idx := 0, attr := at2, adapters := [], all := [], start := 0, sent := 0 }] } },
    by decide +kernel, by decide +kernel, by decide +kernel, by decide +kernel, _, rfl, _, rfl, _, rfl,
    by decide +kernel, by decide +kernel, by decide +kernel, by decide +kernel⟩,
    ⟨0, 1, [0, 1], [], [], [], { idx := 0, desc := dsc 0x30 0x10005 1 0 0 0 0 },
    { upD (dsc 0x30 0x10005 1 0 0 0 0) with mem := [(8, 1)] }, by decide +kernel, by decide +kernel,
    by decide +kernel, by decide +kernel, _, rfl, _, rfl, _, rfl, by decide +kernel, by decide +kernel,
    by decide +kernel, by decide +kernel, by decide +kernel⟩,
    ⟨0, 1, { idx := 0, desc := dsc 0x31 5 0 0 0 0 0 }, withG { st := .active, attr := at2 }
    (upD (dsc 0x31 5 0 0 0 0 0)), by decide +kernel, _, rfl, by decide +kernel⟩,
    ⟨0, 1, { idx := 0, desc := dsc 0x31 5 0 0 0 0 0 }, upD (dsc 0x31 5 0 0 0 0 0), by decide +kernel, _, rfl,
    by decide +kernel⟩,
    ⟨0, 1, { idx := 0, desc := dsc 0x32 5 1 32 0 0 0 }, upD (dsc 0x32 5 1 32 0 0 0), by decide +kernel,
    by decide +kernel⟩,
    ⟨0, 1, { idx := 0, desc := dsc 0x32 5 9 64 0 0 0 }, upD (dsc 0x32 5 9 64 0 0 0), by decide +kernel, _, rfl,
    by decide +kernel, by decide +kernel⟩,
    ⟨0, 1, { idx := 0, desc := dsc 0x32 5 1 64 0 0 0 }, upD (dsc 0x32 5 1 64 0 0 0), by decide +kernel, _, rfl, _,
    rfl, by decide +kernel, by decide +kernel, by decide +kernel, by decide +kernel, by decide +kernel⟩,
    ⟨5, { destroy := false, q := 1, idx := 0, attr := at2, adapters := [], all := [], start := 0, sent := 0 },
    { up with now := 25000000, grp := { cmds := [{ destroy := false, q := 1, idx := 0, attr := at2, adapters := [], all := [], start := 0, sent := 0 }] } },
    by decide +kernel, by decide +kernel, by decide +kernel⟩,
    ⟨5, { destroy := false, q := 1, idx := 0, attr := at2, adapters := [], all := [], start := 0, sent := 0 },
    { up with now := 24999999, grp := { cmds := [{ destroy := false, q := 1, idx := 0, attr := at2, adapters := [], all := [], start := 0, sent := 0 }] } },
    by decide +kernel, by decide +kernel, by decide +kernel, by decide +kernel⟩,
    ⟨5, { destroy := false, q := 1, idx := 0, attr := at2, adapters := [], all := [], start := 0, sent := 0 },
    { up with now := 249999, grp := { cmds := [{ destroy := false, q := 1, idx := 0, attr := at2, adapters := [], all := [], start := 0, sent := 0 }] } },
    by decide +kernel, by decide +kernel, by decide +kernel, by decide +kernel⟩,
    ⟨5, withG { st := .setup } up, by decide +kernel, by decide +kernel⟩,
    ⟨5, { destroy := true, q := 1, idx := 0, attr := at2, adapters := [], all := [], start := 0, sent := 0 },
    { up with now := 25000000, grp := { cmds := [{ destroy := true, q := 1, idx := 0, attr := at2, adapters := [], all := [], start := 0, sent := 0 }] } },
    by decide +kernel, by decide +kernel, by decide +kernel⟩,
    ⟨5, { destroy := true, q := 1, idx := 0, attr := at2, adapters := [], all := [], start := 0, sent := 0 },
    { up with now := 24999999, grp := { cmds := [{ destroy := true, q := 1, idx := 0, attr := at2, adapters := [], all := [], start := 0, sent := 0 }] } },
    by decide +kernel, by decide +kernel, by decide +kernel, by decide +kernel⟩,
    ⟨5, { destroy := true, q := 1, idx := 0, attr := at2, adapters := [], all := [], start := 0, sent := 0 },
    { up with now := 249999, grp := { cmds := [{ destroy := true, q := 1, idx := 0, attr := at2, adapters := [], all := [], start := 0, sent := 0 }] } },
    by decide +kernel, by decide +kernel, by decide +kernel, by decide +kernel⟩⟩

theorem wit_CollectiveDescriptorsTakeTheirPlace :
    (∃ f : Nat, ∃ q : Nat, ∃ aux : Bytes, ∃ c : Instr, ∃ op : Nat, ∃ bs : Bytes, ((c, op, bs) ∈ ([(.barrier f q,
    0x10, []), (.allreduce f q, 0x11, []), (.reduce f q, 0x12, []), (.reduceScatter f q, 0x13, []), (.broadcast
    f q, 0x14, []), (.allgather f q, 0x15, []), (.gather f q, 0x16, []), (.scatter f q, 0x17, []), (.alltoall f
    q, 0x18, []), (.gatherv f q aux, 0x19, aux), (.alltoallv f q aux, 0x1A, aux), (.expertDispatch f q aux,
    0x1B, aux), (.expertCombine f q aux, 0x1C, aux)] : List (Instr × Nat × Bytes))) ∧ ∃ i : Item, ∃ s : State,
    (ready s f q op = some i) ∧ ∃ h : Hurt, (0x19 ≤ op) ∧ (descHurt s f q = some h)) ∧
    (∃ f : Nat, ∃ q : Nat, ∃ aux : Bytes, ∃ c : Instr, ∃ op : Nat, ∃ bs : Bytes, ((c, op, bs) ∈ ([(.barrier f q,
    0x10, []), (.allreduce f q, 0x11, []), (.reduce f q, 0x12, []), (.reduceScatter f q, 0x13, []), (.broadcast
    f q, 0x14, []), (.allgather f q, 0x15, []), (.gather f q, 0x16, []), (.scatter f q, 0x17, []), (.alltoall f
    q, 0x18, []), (.gatherv f q aux, 0x19, aux), (.alltoallv f q aux, 0x1A, aux), (.expertDispatch f q aux,
    0x1B, aux), (.expertCombine f q aux, 0x1C, aux)] : List (Instr × Nat × Bytes))) ∧ ∃ i : Item, ∃ s : State,
    (ready s f q op = some i) ∧ ∃ t, t = (restWake s) ∧ ∃ gid, gid = (cGid i.desc) ∧ ∃ g, g = (getG t gid) ∧
    ((0x19 ≤ op → descHurt s f q = none)) ∧ (g.st = .broken)) ∧
    (∃ f : Nat, ∃ q : Nat, ∃ aux : Bytes, ∃ c : Instr, ∃ op : Nat, ∃ bs : Bytes, ((c, op, bs) ∈ ([(.barrier f q,
    0x10, []), (.allreduce f q, 0x11, []), (.reduce f q, 0x12, []), (.reduceScatter f q, 0x13, []), (.broadcast
    f q, 0x14, []), (.allgather f q, 0x15, []), (.gather f q, 0x16, []), (.scatter f q, 0x17, []), (.alltoall f
    q, 0x18, []), (.gatherv f q aux, 0x19, aux), (.alltoallv f q aux, 0x1A, aux), (.expertDispatch f q aux,
    0x1B, aux), (.expertCombine f q aux, 0x1C, aux)] : List (Instr × Nat × Bytes))) ∧ ∃ i : Item, ∃ s : State,
    (ready s f q op = some i) ∧ ∃ t, t = (restWake s) ∧ ∃ gid, gid = (cGid i.desc) ∧ ∃ g, g = (getG t gid) ∧
    ((0x19 ≤ op → descHurt s f q = none)) ∧ (g.st ≠ .broken) ∧ (g.st ≠ .active)) ∧
    (∃ f : Nat, ∃ q : Nat, ∃ aux : Bytes, ∃ c : Instr, ∃ op : Nat, ∃ bs : Bytes, ((c, op, bs) ∈ ([(.barrier f q,
    0x10, []), (.allreduce f q, 0x11, []), (.reduce f q, 0x12, []), (.reduceScatter f q, 0x13, []), (.broadcast
    f q, 0x14, []), (.allgather f q, 0x15, []), (.gather f q, 0x16, []), (.scatter f q, 0x17, []), (.alltoall f
    q, 0x18, []), (.gatherv f q aux, 0x19, aux), (.alltoallv f q aux, 0x1A, aux), (.expertDispatch f q aux,
    0x1B, aux), (.expertCombine f q aux, 0x1C, aux)] : List (Instr × Nat × Bytes))) ∧ ∃ i : Item, ∃ s : State,
    (ready s f q op = some i) ∧ ∃ t, t = (restWake s) ∧ ∃ gid, gid = (cGid i.desc) ∧ ∃ m, m = (cMember i.desc) ∧
    ∃ g, g = (getG t gid) ∧ ∃ mine, mine = (isLocal t g.attr m && decide (memFacet (attrMember g.attr m) = f)) ∧
    ((0x19 ≤ op → descHurt s f q = none)) ∧ (g.st = .active) ∧ (mine = false)) ∧
    (∃ f : Nat, ∃ q : Nat, ∃ aux : Bytes, ∃ c : Instr, ∃ op : Nat, ∃ bs : Bytes, ((c, op, bs) ∈ ([(.barrier f q,
    0x10, []), (.allreduce f q, 0x11, []), (.reduce f q, 0x12, []), (.reduceScatter f q, 0x13, []), (.broadcast
    f q, 0x14, []), (.allgather f q, 0x15, []), (.gather f q, 0x16, []), (.scatter f q, 0x17, []), (.alltoall f
    q, 0x18, []), (.gatherv f q aux, 0x19, aux), (.alltoallv f q aux, 0x1A, aux), (.expertDispatch f q aux,
    0x1B, aux), (.expertCombine f q aux, 0x1C, aux)] : List (Instr × Nat × Bytes))) ∧ ∃ i : Item, ∃ s : State,
    (ready s f q op = some i) ∧ ∃ t, t = (restWake s) ∧ ∃ gid, gid = (cGid i.desc) ∧ ∃ m, m = (cMember i.desc) ∧
    ∃ g, g = (getG t gid) ∧ ∃ mine, mine = (isLocal t g.attr m && decide (memFacet (attrMember g.attr m) = f)) ∧
    ∃ r, r = (startChecks f q i.idx (aget 0 m g.csn) g.attr i.desc bs t) ∧ ((0x19 ≤ op → descHurt s f q = none))
    ∧ (g.st = .active) ∧ (mine) ∧ (r.2 = .wait)) ∧
    (∃ f : Nat, ∃ q : Nat, ∃ aux : Bytes, ∃ c : Instr, ∃ op : Nat, ∃ bs : Bytes, ((c, op, bs) ∈ ([(.barrier f q,
    0x10, []), (.allreduce f q, 0x11, []), (.reduce f q, 0x12, []), (.reduceScatter f q, 0x13, []), (.broadcast
    f q, 0x14, []), (.allgather f q, 0x15, []), (.gather f q, 0x16, []), (.scatter f q, 0x17, []), (.alltoall f
    q, 0x18, []), (.gatherv f q aux, 0x19, aux), (.alltoallv f q aux, 0x1A, aux), (.expertDispatch f q aux,
    0x1B, aux), (.expertCombine f q aux, 0x1C, aux)] : List (Instr × Nat × Bytes))) ∧ ∃ i : Item, ∃ s : State,
    (ready s f q op = some i) ∧ ∃ t, t = (restWake s) ∧ ∃ gid, gid = (cGid i.desc) ∧ ∃ m, m = (cMember i.desc) ∧
    ∃ g, g = (getG t gid) ∧ ∃ mine, mine = (isLocal t g.attr m && decide (memFacet (attrMember g.attr m) = f)) ∧
    ∃ r, r = (startChecks f q i.idx (aget 0 m g.csn) g.attr i.desc bs t) ∧ ((0x19 ≤ op → descHurt s f q = none))
    ∧ ∃ st : Status, (g.st = .active) ∧ (mine) ∧ (r.2 = .bad st)) ∧
    (∃ f : Nat, ∃ q : Nat, ∃ aux : Bytes, ∃ c : Instr, ∃ op : Nat, ∃ bs : Bytes, ((c, op, bs) ∈ ([(.barrier f q,
    0x10, []), (.allreduce f q, 0x11, []), (.reduce f q, 0x12, []), (.reduceScatter f q, 0x13, []), (.broadcast
    f q, 0x14, []), (.allgather f q, 0x15, []), (.gather f q, 0x16, []), (.scatter f q, 0x17, []), (.alltoall f
    q, 0x18, []), (.gatherv f q aux, 0x19, aux), (.alltoallv f q aux, 0x1A, aux), (.expertDispatch f q aux,
    0x1B, aux), (.expertCombine f q aux, 0x1C, aux)] : List (Instr × Nat × Bytes))) ∧ ∃ i : Item, ∃ s : State,
    (ready s f q op = some i) ∧ ∃ t, t = (restWake s) ∧ ∃ gid, gid = (cGid i.desc) ∧ ∃ m, m = (cMember i.desc) ∧
    ∃ g, g = (getG t gid) ∧ ∃ mine, mine = (isLocal t g.attr m && decide (memFacet (attrMember g.attr m) = f)) ∧
    ∃ r, r = (startChecks f q i.idx (aget 0 m g.csn) g.attr i.desc bs t) ∧ ((0x19 ≤ op → descHurt s f q = none))
    ∧ ∃ x : CollMember, ∃ b : Aborted, (g.st = .active) ∧ (mine) ∧ (r.2 = .good x) ∧ (g.aborts.find? (fun b =>
    decide (b.csn = aget 0 m g.csn)) = some b)) ∧
    (∃ f : Nat, ∃ q : Nat, ∃ aux : Bytes, ∃ c : Instr, ∃ op : Nat, ∃ bs : Bytes, ((c, op, bs) ∈ ([(.barrier f q,
    0x10, []), (.allreduce f q, 0x11, []), (.reduce f q, 0x12, []), (.reduceScatter f q, 0x13, []), (.broadcast
    f q, 0x14, []), (.allgather f q, 0x15, []), (.gather f q, 0x16, []), (.scatter f q, 0x17, []), (.alltoall f
    q, 0x18, []), (.gatherv f q aux, 0x19, aux), (.alltoallv f q aux, 0x1A, aux), (.expertDispatch f q aux,
    0x1B, aux), (.expertCombine f q aux, 0x1C, aux)] : List (Instr × Nat × Bytes))) ∧ ∃ i : Item, ∃ s : State,
    (ready s f q op = some i) ∧ ∃ t, t = (restWake s) ∧ ∃ gid, gid = (cGid i.desc) ∧ ∃ m, m = (cMember i.desc) ∧
    ∃ g, g = (getG t gid) ∧ ∃ mine, mine = (isLocal t g.attr m && decide (memFacet (attrMember g.attr m) = f)) ∧
    ∃ r, r = (startChecks f q i.idx (aget 0 m g.csn) g.attr i.desc bs t) ∧ ((0x19 ≤ op → descHurt s f q = none))
    ∧ ∃ x : CollMember, (g.st = .active) ∧ (mine) ∧ (r.2 = .good x) ∧ (g.aborts.find? (fun b => decide (b.csn =
    aget 0 m g.csn)) = none)) ∧
    (∃ f : Nat, ∃ q : Nat, ∃ aux : Bytes, ∃ c : Instr, ∃ op : Nat, ∃ bs : Bytes, ((c, op, bs) ∈ ([(.barrier f q,
    0x10, []), (.allreduce f q, 0x11, []), (.reduce f q, 0x12, []), (.reduceScatter f q, 0x13, []), (.broadcast
    f q, 0x14, []), (.allgather f q, 0x15, []), (.gather f q, 0x16, []), (.scatter f q, 0x17, []), (.alltoall f
    q, 0x18, []), (.gatherv f q aux, 0x19, aux), (.alltoallv f q aux, 0x1A, aux), (.expertDispatch f q aux,
    0x1B, aux), (.expertCombine f q aux, 0x1C, aux)] : List (Instr × Nat × Bytes))) ∧ ∃ i : Item, ∃ s : State,
    (ready s f q op = some i) ∧ ∃ t, t = (restWake s) ∧ ∃ gid, gid = (cGid i.desc) ∧ ∃ m, m = (cMember i.desc) ∧
    ∃ g, g = (getG t gid) ∧ ∃ mine, mine = (isLocal t g.attr m && decide (memFacet (attrMember g.attr m) = f)) ∧
    ∃ r, r = (startChecks f q i.idx (aget 0 m g.csn) g.attr i.desc bs t) ∧ ((0x19 ≤ op → descHurt s f q = none))
    ∧ ∃ x : CollMember, (g.st = .active) ∧ (mine) ∧ (r.2 = .good x) ∧ (g.aborts.find? (fun b => decide (b.csn =
    aget 0 m g.csn)) = none)) :=
  ⟨⟨0, 1, [], .alltoallv 0 1 [], 0x1A, [], by decide +kernel,
    { idx := 0, desc := dsc 0x1A 5 0x0101010000000000 0 0 0 0 },
    { withG { st := .active, attr := at2 } (upD (dsc 0x1A 5 0x0101010000000000 0 0 0 0)) with memc := { up.memc with poisoned := [0] } },
    by decide +kernel, .line 0 0 false, by decide +kernel, by decide +kernel⟩,
    ⟨0, 1, [], .allreduce 0 1, 0x11, [], by decide +kernel,
    { idx := 0, desc := dsc 0x11 5 0x01010000000004 0 0 0 0 }, withG { st := .broken, attr := at2 }
    (upD (dsc 0x11 5 0x01010000000004 0 0 0 0)), by decide +kernel, _, rfl, _, rfl, _, rfl, by decide +kernel,
    by decide +kernel⟩,
    ⟨0, 1, [], .allreduce 0 1, 0x11, [], by decide +kernel,
    { idx := 0, desc := dsc 0x11 5 0x01010000000004 0 0 0 0 }, withG { st := .setup, attr := at2 }
    (upD (dsc 0x11 5 0x01010000000004 0 0 0 0)), by decide +kernel, _, rfl, _, rfl, _, rfl, by decide +kernel,
    by decide +kernel, by decide +kernel⟩,
    ⟨0, 1, [], .allreduce 0 1, 0x11, [], by decide +kernel,
    { idx := 0, desc := dsc 0x11 5 0x01010000000004 0 0 0 0 }, withG
    { st := .active, attr := { at2 with members := [1, 2] } } (upD (dsc 0x11 5 0x01010000000004 0 0 0 0)),
    by decide +kernel, _, rfl, _, rfl, _, rfl, _, rfl, _, rfl, by decide +kernel, by decide +kernel,
    by decide +kernel⟩,
    ⟨0, 1, [], .alltoallv 0 1 [], 0x1A, [], by decide +kernel,
    { idx := 0, desc := dsc 0x1A 5 0x0201010000000000 0 0 0 0 }, withG { st := .active, attr := at2 }
    (upD (dsc 0x1A 5 0x0201010000000000 0 0 0 0)), by decide +kernel, _, rfl, _, rfl, _, rfl, _, rfl, _, rfl, _,
    rfl, by decide +kernel, by decide +kernel, by decide +kernel, by decide +kernel⟩,
    ⟨0, 1, [], .allreduce 0 1, 0x11, [], by decide +kernel,
    { idx := 0, desc := dsc 0x11 5 0x09010000000004 0 0 0 0 }, withG { st := .active, attr := at2 }
    (upD (dsc 0x11 5 0x09010000000004 0 0 0 0)), by decide +kernel, _, rfl, _, rfl, _, rfl, _, rfl, _, rfl, _,
    rfl, by decide +kernel, stat cACCESS_DENIED, by decide +kernel, by decide +kernel, by decide +kernel⟩,
    ⟨0, 1, [], .allreduce 0 1, 0x11, [], by decide +kernel,
    { idx := 0, desc := dsc 0x11 5 0x01010000000004 0 0 0 0 }, withG
    { st := .active, attr := at2, aborts := [{ csn := 0, reason := 2, member := 0, st := stat 5 }] }
    (upD (dsc 0x11 5 0x01010000000004 0 0 0 0)), by decide +kernel, _, rfl, _, rfl, _, rfl, _, rfl, _, rfl, _,
    rfl, by decide +kernel,
    { member := 0, f := 0, q := 1, idx := 0, csn := 0, desc := dsc 0x11 5 0x01010000000004 0 0 0 0, blks := [{ dst := none, len := 4, mem := 0 }] },
    { csn := 0, reason := 2, member := 0, st := stat 5 }, by decide +kernel, by decide +kernel,
    by decide +kernel, by decide +kernel⟩,
    ⟨0, 1, [], .allreduce 0 1, 0x11, [], by decide +kernel,
    { idx := 0, desc := dsc 0x11 5 0x01010000000004 0 0 0 0 }, withG { st := .active, attr := at2 }
    (upD (dsc 0x11 5 0x01010000000004 0 0 0 0)), by decide +kernel, _, rfl, _, rfl, _, rfl, _, rfl, _, rfl, _,
    rfl, by decide +kernel,
    { member := 0, f := 0, q := 1, idx := 0, csn := 0, desc := dsc 0x11 5 0x01010000000004 0 0 0 0, blks := [{ dst := none, len := 4, mem := 0 }] },
    by decide +kernel, by decide +kernel, by decide +kernel, by decide +kernel⟩,
    ⟨0, 1, List.replicate 16 0, .alltoallv 0 1 (List.replicate 16 0), 0x1A, List.replicate 16 0, by decide +kernel,
    { idx := 0, desc := dsc 0x1A 5 0x0101010000000000 0 0 0 0 }, withG { st := .active, attr := at2 }
    (upD (dsc 0x1A 5 0x0101010000000000 0 0 0 0)), by decide +kernel, _, rfl, _, rfl, _, rfl, _, rfl, _, rfl, _,
    rfl, by decide +kernel,
    { member := 0, f := 0, q := 1, idx := 0, csn := 0, desc := dsc 0x1A 5 0x0101010000000000 0 0 0 0, aux := List.replicate 16 0, blks := [{ dst := some 0, len := 0, mem := 0 }, { dst := some 1, len := 0, mem := 0 }] },
    by decide +kernel, by decide +kernel, by decide +kernel, by decide +kernel⟩⟩

theorem wit_CollectivePacketsAreChecked :
    (∃ p : Packet, ∃ c : Instr, ∃ s : State, ((c, true) ∈ ([(.cdata p, isColl 8 0 p), (.counts p, isColl 8 1 p),
    (.capacityFlag p, isColl 8 2 p), (.anchorPass p, isColl 8 3 p), (.cconf p, isColl 9 0 p), (.ccommit p,
    isColl 10 0 p), (.resend p, isColl 11 0 p), (.abort p, isColl 11 1 p), (.rollback p, isColl 11 2 p), (.held
    p, isColl 11 4 p), (.activate p, isColl 11 8 p), (.teardown p, isColl 11 10 p)] : List (Instr × Bool))) ∧
    (fabricUp s) ∧ (p.icrc ≠ icrcOf p)) ∧
    (∃ p : Packet, ∃ c : Instr, ∃ s : State, ((c, true) ∈ ([(.cdata p, isColl 8 0 p), (.counts p, isColl 8 1 p),
    (.capacityFlag p, isColl 8 2 p), (.anchorPass p, isColl 8 3 p), (.cconf p, isColl 9 0 p), (.ccommit p,
    isColl 10 0 p), (.resend p, isColl 11 0 p), (.abort p, isColl 11 1 p), (.rollback p, isColl 11 2 p), (.held
    p, isColl 11 4 p), (.activate p, isColl 11 8 p), (.teardown p, isColl 11 10 p)] : List (Instr × Bool))) ∧
    (fabricUp s) ∧ (p.icrc = icrcOf p) ∧ (headerOk p = false)) ∧
    (∃ p : Packet, ∃ c : Instr, ∃ s : State, ((c, true) ∈ ([(.cdata p, isColl 8 0 p), (.counts p, isColl 8 1 p),
    (.capacityFlag p, isColl 8 2 p), (.anchorPass p, isColl 8 3 p), (.cconf p, isColl 9 0 p), (.ccommit p,
    isColl 10 0 p), (.resend p, isColl 11 0 p), (.abort p, isColl 11 1 p), (.rollback p, isColl 11 2 p), (.held
    p, isColl 11 4 p), (.activate p, isColl 11 8 p), (.teardown p, isColl 11 10 p)] : List (Instr × Bool))) ∧
    (fabricUp s) ∧ (Whole p) ∧ (restoring (heard p s))) ∧
    (∃ p : Packet, ∃ c : Instr, ∃ s : State, ((c, true) ∈ ([(.cdata p, isColl 8 0 p), (.counts p, isColl 8 1 p),
    (.capacityFlag p, isColl 8 2 p), (.anchorPass p, isColl 8 3 p), (.cconf p, isColl 9 0 p), (.ccommit p,
    isColl 10 0 p), (.resend p, isColl 11 0 p), (.abort p, isColl 11 1 p), (.rollback p, isColl 11 2 p), (.held
    p, isColl 11 4 p), (.activate p, isColl 11 8 p), (.teardown p, isColl 11 10 p)] : List (Instr × Bool))) ∧
    (fabricUp s) ∧ (Whole p) ∧ (restoring (heard p s) = false) ∧ (((getG (heard p s) (gidOf p.ext)).st = .free ∨
    (getG (heard p s) (gidOf p.ext)).attr.gtag ≠ p.bth.ctag))) ∧
    (∃ gid : Nat, ∃ p : Packet, ∃ c : Instr, ∃ s : State, ((c, true) ∈ ([(.cdata p, isColl 8 0 p), (.counts p, isColl
    8 1 p), (.capacityFlag p, isColl 8 2 p), (.anchorPass p, isColl 8 3 p), (.ccommit p, isColl 10 0 p),
    (.rollback p, isColl 11 2 p), (.held p, isColl 11 4 p)] : List (Instr × Bool))) ∧ (ToGroup gid p s) ∧
    ((getRun (heard p s) gid).map (fun r => r.csn) ≠ some p.bth.msn)) ∧
    (∃ gid : Nat, ∃ p : Packet, ∃ s : State, (ToGroup gid p s) ∧ ((getRun (heard p s) gid).map (fun r => r.csn) ≠
    some p.bth.msn) ∧ (isColl 11 0 p)) ∧
    (∃ gid : Nat, ∃ p : Packet, ∃ s : State, (ToGroup gid p s) ∧ ((getRun (heard p s) gid).map (fun r => r.csn) ≠
    some p.bth.msn) ∧ (isColl 9 0 p)) ∧
    (∃ gid : Nat, ∃ r : Coll, ∃ p : Packet, ∃ s : State, (ToGroup gid p s) ∧ (getRun (heard p s) gid = some r) ∧
    (r.csn = p.bth.msn) ∧ (sigOf p.ext ≠ r.sig) ∧ ∃ c : Instr, ((c, true) ∈ ([(.cdata p, isColl 8 0 p), (.counts
    p, isColl 8 1 p), (.capacityFlag p, isColl 8 2 p), (.anchorPass p, isColl 8 3 p)] : List (Instr × Bool)))) ∧
    (∃ gid : Nat, ∃ r : Coll, ∃ p : Packet, ∃ s : State, (ToGroup gid p s) ∧ (getRun (heard p s) gid = some r) ∧
    (r.csn = p.bth.msn) ∧ (sigOf p.ext ≠ r.sig) ∧ (isColl 9 0 p)) :=
  ⟨⟨{ cx 8 0 with icrc := (cx 8 0).icrc + 1 }, .cdata { cx 8 0 with icrc := (cx 8 0).icrc + 1 }, up,
    by decide +kernel, by decide +kernel, by decide +kernel⟩,
    ⟨sealed { cx 11 4 with bth := { (cx 11 4).bth with rsv := 1 } }, .held
    (sealed { cx 11 4 with bth := { (cx 11 4).bth with rsv := 1 } }), up, by decide +kernel, by decide +kernel,
    by decide +kernel, by decide +kernel⟩,
    ⟨cx 9 0, .cconf (cx 9 0), { up with boot := { run := .boot, stage := 7 } }, by decide +kernel,
    by decide +kernel, by (unfold Whole; decide +kernel), by decide +kernel⟩,
    ⟨cx 8 0, .cdata (cx 8 0), up, by decide +kernel, by decide +kernel, by (unfold Whole; decide +kernel),
    by decide +kernel, by decide +kernel⟩,
    ⟨5, cx 11 2, .rollback (cx 11 2), withG { st := .active, attr := at2 } up, by decide +kernel,
    by (unfold ToGroup Whole; decide +kernel), by decide +kernel⟩,
    ⟨5, cx 11 0, withG { st := .active, attr := at2 } up, by (unfold ToGroup Whole; decide +kernel),
    by decide +kernel, by decide +kernel⟩,
    ⟨5, cx 9 0, withG { st := .active, attr := at2 } up, by (unfold ToGroup Whole; decide +kernel),
    by decide +kernel, by decide +kernel⟩,
    ⟨5, { collR 0x11 with sig := 1 }, cx 8 3, withG (gR { collR 0x11 with sig := 1 }) up,
    by (unfold ToGroup Whole; decide +kernel), by decide +kernel, by decide +kernel, by decide +kernel,
    .anchorPass (cx 8 3), by decide +kernel⟩,
    ⟨5, { collR 0x11 with sig := 1 }, cx 9 0, withG (gR { collR 0x11 with sig := 1 }) up,
    by (unfold ToGroup Whole; decide +kernel), by decide +kernel, by decide +kernel, by decide +kernel,
    by decide +kernel⟩⟩

theorem wit_CollectiveDataPacketsAreTaken :
    (∃ gid : Nat, ∃ r : Coll, ∃ p : Packet, ∃ s : State, (ToRun gid r p s) ∧ (isColl 8 0 p)) ∧
    (∃ gid : Nat, ∃ r : Coll, ∃ p : Packet, ∃ s : State, (ToRun gid r p s) ∧ (isColl 8 3 p)) ∧
    (∃ gid : Nat, ∃ r : Coll, ∃ p : Packet, ∃ s : State, (ToRun gid r p s) ∧ ∃ u, u = (seeAlt gid p (heard p s)) ∧ ∃
    a, a = ((getG u gid).attr) ∧ (isColl 8 1 p) ∧ (isVar r.op) ∧ (isLocal u a (dstMemberOf p.ext))) ∧
    (∃ gid : Nat, ∃ r : Coll, ∃ p : Packet, ∃ s : State, (ToRun gid r p s) ∧ ∃ u, u = (seeAlt gid p (heard p s)) ∧ ∃
    a, a = ((getG u gid).attr) ∧ (isColl 8 1 p) ∧ ((isVar r.op && isLocal u a (dstMemberOf p.ext)) = false)) ∧
    (∃ gid : Nat, ∃ r : Coll, ∃ p : Packet, ∃ s : State, (ToRun gid r p s) ∧ ∃ u, u = (seeAlt gid p (heard p s)) ∧ ∃
    a, a = ((getG u gid).attr) ∧ (isColl 8 2 p) ∧ (isVar r.op) ∧ (srcMemberOf p.ext < attrN a)) ∧
    (∃ gid : Nat, ∃ r : Coll, ∃ p : Packet, ∃ s : State, (ToRun gid r p s) ∧ ∃ u, u = (seeAlt gid p (heard p s)) ∧ ∃
    a, a = ((getG u gid).attr) ∧ (isColl 8 2 p) ∧ ((isVar r.op = false ∨ attrN a ≤ srcMemberOf p.ext))) ∧
    (∃ gid : Nat, ∃ r : Coll, ∃ p : Packet, ∃ s : State, (ToRun gid r p s) ∧ (isColl 9 0 p) ∧ ∃ y, y = (fromAdapter
    (heard p s) gid p) ∧ ∃ old : Nat, (agetq y r.childConf = some old) ∧ (argOf p.ext ≤ old)) ∧
    (∃ gid : Nat, ∃ r : Coll, ∃ p : Packet, ∃ s : State, (ToRun gid r p s) ∧ (isColl 9 0 p) ∧ ∃ y, y = (fromAdapter
    (heard p s) gid p) ∧ ((∀ old, agetq y r.childConf = some old → old < argOf p.ext))) ∧
    (∃ gid : Nat, ∃ r : Coll, ∃ p : Packet, ∃ s : State, (ToGroup gid p s) ∧ (getRun (heard p s) gid = some r) ∧
    (r.csn = p.bth.msn) ∧ (isColl 10 0 p)) :=
  ⟨⟨5, collR 0x11, cx 8 0 0 [1, 2], withG (gR (collR 0x11)) up, by (unfold ToRun ToGroup Whole; decide +kernel),
    by decide +kernel⟩,
    ⟨5, collR 0x11, cx 8 3 0 [1], withG { gR (collR 0x11) with attr := { at2 with mode := true } } up,
    by (unfold ToRun ToGroup Whole; decide +kernel), by decide +kernel⟩,
    ⟨5, collR 0x1A, cx 8 1 0 (List.replicate 16 0), withG (gR (collR 0x1A)) up,
    by (unfold ToRun ToGroup Whole; decide +kernel), _, rfl, _, rfl, by decide +kernel, by decide +kernel,
    by decide +kernel⟩,
    ⟨5, collR 0x11, cx 8 1 0 (List.replicate 16 0), withG (gR (collR 0x11)) up,
    by (unfold ToRun ToGroup Whole; decide +kernel), _, rfl, _, rfl, by decide +kernel, by decide +kernel⟩,
    ⟨5, collR 0x1B, cx 8 2 0 [1], withG (gR (collR 0x1B)) up, by (unfold ToRun ToGroup Whole; decide +kernel), _,
    rfl, _, rfl, by decide +kernel, by decide +kernel, by decide +kernel⟩,
    ⟨5, collR 0x11, cx 8 2 0 [1], withG (gR (collR 0x11)) up, by (unfold ToRun ToGroup Whole; decide +kernel), _,
    rfl, _, rfl, by decide +kernel, by decide +kernel⟩,
    ⟨5, { collR 0x11 with childConf := [(1, 1)] }, cx 9 0 1, withG (gR { collR 0x11 with childConf := [(1, 1)] })
    up, by (unfold ToRun ToGroup Whole; decide +kernel), by decide +kernel, _, rfl, 1, by decide +kernel,
    by decide +kernel⟩,
    ⟨5, { collR 0x11 with childConf := [(1, 1)] }, cx 9 0 2, withG (gR { collR 0x11 with childConf := [(1, 1)] })
    up, by (unfold ToRun ToGroup Whole; decide +kernel), by decide +kernel, _, rfl,
    by (intro old h; have := Option.some.inj (h.symm.trans (by decide +kernel : _ = some 1)); subst this; decide +kernel)⟩,
    ⟨5, collR 0x11, cx 10 0 2, withG (gR (collR 0x11)) up, by (unfold ToGroup Whole; decide +kernel),
    by decide +kernel, by decide +kernel, by decide +kernel⟩⟩

theorem wit_CollectiveRecoveryPacketsAct :
    (∃ gid : Nat, ∃ r : Coll, ∃ p : Packet, ∃ s : State, (ToGroup gid p s) ∧ (getRun (heard p s) gid = some r) ∧
    (r.csn = p.bth.msn) ∧ (isColl 11 0 p) ∧ (argOf p.ext < r.commit)) ∧
    (∃ gid : Nat, ∃ r : Coll, ∃ p : Packet, ∃ s : State, (ToGroup gid p s) ∧ (getRun (heard p s) gid = some r) ∧
    (r.csn = p.bth.msn) ∧ (isColl 11 0 p) ∧ (r.commit ≤ argOf p.ext) ∧ ((isVar r.op && decide (argOf p.ext = 0))
    = false)) ∧
    (∃ gid : Nat, ∃ r : Coll, ∃ p : Packet, ∃ s : State, (ToGroup gid p s) ∧ (getRun (heard p s) gid = some r) ∧
    (r.csn = p.bth.msn) ∧ (isColl 11 0 p) ∧ (r.commit = 0) ∧ (isVar r.op) ∧ (argOf p.ext = 0)) ∧
    (∃ gid : Nat, ∃ p : Packet, ∃ s : State, (ToGroup gid p s) ∧ (isColl 11 1 p) ∧ (argOf p.ext = 1 ∨ argOf p.ext =
    2)) ∧
    (∃ gid : Nat, ∃ p : Packet, ∃ s : State, (ToGroup gid p s) ∧ (isColl 11 1 p) ∧ (argOf p.ext = 1 ∨ argOf p.ext =
    2)) ∧
    (∃ gid : Nat, ∃ p : Packet, ∃ s : State, (ToGroup gid p s) ∧ (isColl 11 1 p) ∧ (argOf p.ext = 3 ∨ argOf p.ext =
    4)) ∧
    (∃ gid : Nat, ∃ p : Packet, ∃ s : State, (ToGroup gid p s) ∧ (isColl 11 1 p) ∧ (argOf p.ext = 3 ∨ argOf p.ext =
    4)) ∧
    (∃ gid : Nat, ∃ p : Packet, ∃ s : State, (ToGroup gid p s) ∧ (isColl 11 1 p) ∧ (argOf p.ext = 0 ∨ 5 ≤ argOf
    p.ext)) ∧
    (∃ gid : Nat, ∃ p : Packet, ∃ s : State, (ToGroup gid p s) ∧ (isColl 11 1 p) ∧ (argOf p.ext = 0 ∨ 5 ≤ argOf
    p.ext)) ∧
    (∃ gid : Nat, ∃ r : Coll, ∃ p : Packet, ∃ s : State, (ToGroup gid p s) ∧ (getRun (heard p s) gid = some r) ∧
    (r.csn = p.bth.msn) ∧ (isColl 11 2 p)) ∧
    (∃ gid : Nat, ∃ r : Coll, ∃ p : Packet, ∃ s : State, (ToGroup gid p s) ∧ (getRun (heard p s) gid = some r) ∧
    (r.csn = p.bth.msn) ∧ (isColl 11 4 p)) :=
  ⟨⟨5, { collR 0x11 with commit := 1 }, cx 11 0 0, withG (gR { collR 0x11 with commit := 1 }) up,
    by (unfold ToGroup Whole; decide +kernel), by decide +kernel, by decide +kernel, by decide +kernel,
    by decide +kernel⟩,
    ⟨5, { collR 0x1A with commit := 1 }, cx 11 0 1, withG (gR { collR 0x1A with commit := 1 }) up,
    by (unfold ToGroup Whole; decide +kernel), by decide +kernel, by decide +kernel, by decide +kernel,
    by decide +kernel, by decide +kernel⟩,
    ⟨5, collR 0x1A, cx 11 0 0, withG (gR (collR 0x1A)) up, by (unfold ToGroup Whole; decide +kernel),
    by decide +kernel, by decide +kernel, by decide +kernel, by decide +kernel, by decide +kernel,
    by decide +kernel⟩,
    ⟨5, cx 11 1 2, withG (gR (collR 0x11)) up, by (unfold ToGroup Whole; decide +kernel), by decide +kernel,
    by decide +kernel⟩,
    ⟨5, cx 11 1 1, withG (gR (collR 0x11)) up, by (unfold ToGroup Whole; decide +kernel), by decide +kernel,
    by decide +kernel⟩,
    ⟨5, cx 11 1 3, withG (gR (collR 0x11)) up, by (unfold ToGroup Whole; decide +kernel), by decide +kernel,
    by decide +kernel⟩,
    ⟨5, cx 11 1 4, withG (gR (collR 0x11)) up, by (unfold ToGroup Whole; decide +kernel), by decide +kernel,
    by decide +kernel⟩,
    ⟨5, cx 11 1 0, withG (gR (collR 0x11)) up, by (unfold ToGroup Whole; decide +kernel), by decide +kernel,
    by decide +kernel⟩,
    ⟨5, cx 11 1 5, withG (gR (collR 0x11)) up, by (unfold ToGroup Whole; decide +kernel), by decide +kernel,
    by decide +kernel⟩,
    ⟨5, collR 0x11, cx 11 2, withG (gR (collR 0x11)) up, by (unfold ToGroup Whole; decide +kernel),
    by decide +kernel, by decide +kernel, by decide +kernel⟩,
    ⟨5, collR 0x11, cx 11 4, withG (gR (collR 0x11)) up, by (unfold ToGroup Whole; decide +kernel),
    by decide +kernel, by decide +kernel, by decide +kernel⟩⟩

theorem wit_GroupPacketsSetUpAndRelease :
    (∃ p : Packet, ∃ s : State, (Whole p) ∧ (fabricUp s) ∧ (isColl 11 3 p) ∧ (restoring (heard p s) = false) ∧ ∃ u, u
    = (heard p s) ∧ ∃ gid, gid = (gidOf p.ext) ∧ ∃ y, y = ((epAdapter p.bth.srcEp).toNat) ∧ ∃ v, v = (match
    cmdFor u true gid p.bth.ctag with | some c => answered c y u | none => u) ∧ ∃ mine, mine = (decide ((getG v
    gid).st = .active ∧ (getG v gid).attr.gtag = p.bth.ctag ∧ y ≠ me v ∧        y ∈ adaptersOf (getG v
    gid).attr)) ∧ (mine)) ∧
    (∃ p : Packet, ∃ s : State, (Whole p) ∧ (fabricUp s) ∧ (isColl 11 3 p) ∧ (restoring (heard p s) = false) ∧ ∃ u, u
    = (heard p s) ∧ ∃ gid, gid = (gidOf p.ext) ∧ ∃ y, y = ((epAdapter p.bth.srcEp).toNat) ∧ ∃ v, v = (match
    cmdFor u true gid p.bth.ctag with | some c => answered c y u | none => u) ∧ ∃ mine, mine = (decide ((getG v
    gid).st = .active ∧ (getG v gid).attr.gtag = p.bth.ctag ∧ y ≠ me v ∧        y ∈ adaptersOf (getG v
    gid).attr)) ∧ (mine = false)) ∧
    (∃ a : GroupAttr, ∃ p : Packet, ∃ s : State, (Whole p) ∧ (fabricUp s) ∧ (isColl 11 5 p) ∧ (gidOf p.ext = a.gid) ∧
    (restoring (heard p s) = false) ∧ ∃ u, u = (heard p s) ∧ ∃ g, g = (getG u a.gid) ∧ ∃ again, again = (decide
    ((g.st = .setup ∨ g.st = .active) ∧ g.attr = a)) ∧ (again)) ∧
    (∃ a : GroupAttr, ∃ p : Packet, ∃ s : State, (Whole p) ∧ (fabricUp s) ∧ (isColl 11 5 p) ∧ (gidOf p.ext = a.gid) ∧
    (restoring (heard p s) = false) ∧ ∃ u, u = (heard p s) ∧ ∃ g, g = (getG u a.gid) ∧ ∃ again, again = (decide
    ((g.st = .setup ∨ g.st = .active) ∧ g.attr = a)) ∧ (again = false) ∧ (setupCode u a = 0)) ∧
    (∃ a : GroupAttr, ∃ p : Packet, ∃ s : State, (Whole p) ∧ (fabricUp s) ∧ (isColl 11 5 p) ∧ (gidOf p.ext = a.gid) ∧
    (restoring (heard p s) = false) ∧ ∃ u, u = (heard p s) ∧ ∃ g, g = (getG u a.gid) ∧ ∃ again, again = (decide
    ((g.st = .setup ∨ g.st = .active) ∧ g.attr = a)) ∧ (again = false) ∧ (setupCode u a ≠ 0)) ∧
    (∃ c : GroupCmd, ∃ p : Packet, ∃ s : State, (Whole p) ∧ (fabricUp s) ∧ (cmdFor (heard p s) false (gidOf p.ext)
    p.bth.ctag = some c) ∧ (isColl 11 6 p)) ∧
    (∃ c : GroupCmd, ∃ p : Packet, ∃ s : State, (Whole p) ∧ (fabricUp s) ∧ (cmdFor (heard p s) false (gidOf p.ext)
    p.bth.ctag = some c) ∧ (isColl 11 6 p)) ∧
    (∃ c : GroupCmd, ∃ p : Packet, ∃ s : State, (Whole p) ∧ (fabricUp s) ∧ (cmdFor (heard p s) false (gidOf p.ext)
    p.bth.ctag = some c) ∧ (isColl 11 7 p)) ∧
    (∃ c : GroupCmd, ∃ p : Packet, ∃ s : State, (Whole p) ∧ (fabricUp s) ∧ (cmdFor (heard p s) false (gidOf p.ext)
    p.bth.ctag = some c) ∧ (isColl 11 9 p)) ∧
    (∃ p : Packet, ∃ c : Instr, ∃ s : State, ((c, true) ∈ ([(.setupOk p, isColl 11 6 p), (.refuse p, isColl 11 7 p),
    (.activeOk p, isColl 11 9 p)] : List (Instr × Bool))) ∧ (Whole p) ∧ (fabricUp s) ∧ (cmdFor (heard p s) false
    (gidOf p.ext) p.bth.ctag = none) ∧ (restoring (heard p s) = false)) ∧
    (∃ gid : Nat, ∃ p : Packet, ∃ s : State, (ToGroup gid p s) ∧ (isColl 11 8 p) ∧ ∃ g, g = (getG (heard p s) gid) ∧
    (g.st = .setup ∨ g.st = .active)) ∧
    (∃ gid : Nat, ∃ p : Packet, ∃ s : State, (ToGroup gid p s) ∧ (isColl 11 8 p) ∧ ∃ g, g = (getG (heard p s) gid) ∧
    (g.st = .setup ∨ g.st = .active)) ∧
    (∃ gid : Nat, ∃ p : Packet, ∃ s : State, (ToGroup gid p s) ∧ (isColl 11 8 p) ∧ ∃ g, g = (getG (heard p s) gid) ∧
    (g.st ≠ .setup) ∧ (g.st ≠ .active)) ∧
    (∃ gid : Nat, ∃ p : Packet, ∃ s : State, (ToGroup gid p s) ∧ (isColl 11 10 p)) :=
  ⟨⟨sealed { cx 11 3 with bth := { (cx 11 3).bth with srcEp := 1 } }, withG { st := .active, attr := at2 } up,
    by (unfold Whole; decide +kernel), by decide +kernel, by decide +kernel, by decide +kernel, _, rfl, _, rfl,
    _, rfl, _, rfl, _, rfl, by decide +kernel⟩,
    ⟨cx 11 3, withG { st := .active, attr := at2 } up, by (unfold Whole; decide +kernel), by decide +kernel,
    by decide +kernel, by decide +kernel, _, rfl, _, rfl, _, rfl, _, rfl, _, rfl, by decide +kernel⟩,
    ⟨at2, cx 11 5, withG { st := .setup, attr := at2 } up, by (unfold Whole; decide +kernel), by decide +kernel,
    by decide +kernel, by decide +kernel, by decide +kernel, _, rfl, _, rfl, _, rfl, by decide +kernel⟩,
    ⟨at2, cx 11 5,
    { up with grp := { poolKib := 100000 }, boot := { run := .running, image := { (default : Image) with plans := [{ id := 1, levels := 1, pods := 1, ringX := 0xFFFF, ringZ := 0xFFFF, sched := [] }] } } },
    by (unfold Whole; decide +kernel), by decide +kernel, by decide +kernel, by decide +kernel,
    by decide +kernel, _, rfl, _, rfl, _, rfl, by decide +kernel, by decide +kernel⟩,
    ⟨at2, cx 11 5, up, by (unfold Whole; decide +kernel), by decide +kernel, by decide +kernel, by decide +kernel,
    by decide +kernel, _, rfl, _, rfl, _, rfl, by decide +kernel, by decide +kernel⟩,
    
    ⟨{ destroy := false, q := 1, idx := 0, attr := at2, adapters := [0, 1], all := [0, 1], start := 0, sent := 0, activating := false },
    cx 11 6,
    { up with grp := { cmds := [{ destroy := false, q := 1, idx := 0, attr := at2, adapters := [0, 1], all := [0, 1], start := 0, sent := 0, activating := false }] } },
    by (unfold Whole; decide +kernel), by decide +kernel, by decide +kernel, by decide +kernel⟩,
    
    ⟨{ destroy := false, q := 1, idx := 0, attr := at2, adapters := [0, 1], all := [0, 1], start := 0, sent := 0, activating := true },
    cx 11 6,
    { up with grp := { cmds := [{ destroy := false, q := 1, idx := 0, attr := at2, adapters := [0, 1], all := [0, 1], start := 0, sent := 0, activating := true }] } },
    by (unfold Whole; decide +kernel), by decide +kernel, by decide +kernel, by decide +kernel⟩,
    
    ⟨{ destroy := false, q := 1, idx := 0, attr := at2, adapters := [0, 1], all := [0, 1], start := 0, sent := 0, activating := false },
    cx 11 7,
    { up with grp := { cmds := [{ destroy := false, q := 1, idx := 0, attr := at2, adapters := [0, 1], all := [0, 1], start := 0, sent := 0, activating := false }] } },
    by (unfold Whole; decide +kernel), by decide +kernel, by decide +kernel, by decide +kernel⟩,
    
    ⟨{ destroy := false, q := 1, idx := 0, attr := at2, adapters := [0, 1], all := [0, 1], start := 0, sent := 0, activating := true },
    cx 11 9,
    { up with grp := { cmds := [{ destroy := false, q := 1, idx := 0, attr := at2, adapters := [0, 1], all := [0, 1], start := 0, sent := 0, activating := true }] } },
    by (unfold Whole; decide +kernel), by decide +kernel, by decide +kernel, by decide +kernel⟩,
    ⟨cx 11 7, .refuse (cx 11 7), up, by decide +kernel, by (unfold Whole; decide +kernel), by decide +kernel,
    by decide +kernel, by decide +kernel⟩,
    ⟨5, cx 11 8, withG { st := .setup, attr := at2 } up, by (unfold ToGroup Whole; decide +kernel),
    by decide +kernel, _, rfl, by decide +kernel⟩,
    ⟨5, cx 11 8, withG { st := .active, attr := at2 } up, by (unfold ToGroup Whole; decide +kernel),
    by decide +kernel, _, rfl, by decide +kernel⟩,
    ⟨5, cx 11 8, withG { st := .broken, attr := at2 } up, by (unfold ToGroup Whole; decide +kernel),
    by decide +kernel, _, rfl, by decide +kernel, by decide +kernel⟩,
    ⟨5, cx 11 10, withG { st := .active, attr := at2 } up, by (unfold ToGroup Whole; decide +kernel),
    by decide +kernel⟩⟩

theorem wit_CollectiveTimersAndPrismClustersAct :
    (∃ gid : Nat, ∃ r : Coll, ∃ s : State, (running s) ∧ (getRun s gid = some r)) ∧
    (∃ gid : Nat, ∃ c : Nat, ∃ r : Coll, ∃ s : State, (running s) ∧ (getRun s gid = some r) ∧ (r.data) ∧ (c ∈
    openChunks r)) ∧
    (∃ gid : Nat, ∃ r : Coll, ∃ s : State, (running s) ∧ (getRun s gid = some r) ∧ (r.data = false)) ∧
    (∃ gid : Nat, ∃ r : Coll, ∃ s : State, (running s) ∧ ((getG s gid).run = some r) ∧ (isRoot s (getG s gid).attr)) ∧
    (∃ gid : Nat, ∃ r : Coll, ∃ s : State, (running s) ∧ ((getG s gid).run = some r) ∧ (isRoot s (getG s gid).attr =
    false)) ∧
    (∃ gid : Nat, ∃ c : Nat, ∃ k : Nat, ∃ r : Coll, ∃ s : State, (running s) ∧ (getRun s gid = some r) ∧ ((getCh r
    c).cluster = some k) ∧ ((0x10, k) ∉ s.err.injections)) ∧
    (∃ gid : Nat, ∃ c : Nat, ∃ k : Nat, ∃ r : Coll, ∃ s : State, (running s) ∧ (getRun s gid = some r) ∧ ((getCh r
    c).cluster = some k) ∧ ((0x10, k) ∈ s.err.injections)) ∧
    (∃ k : Nat, ∃ lane : Nat, ∃ slice : Nat, ∃ other : Bool, ∃ x : Nat × Nat, ∃ s : State, (running s) ∧ (struckChunk
    s k = some x) ∧ ∃ v, v = (countRun k x { s with free := s.free + 1 }) ∧ ∃ n, n = (aget 0 k s.prism.winCnt +
    1) ∧ ∃ t, t = (collect 0x10 clsUC k false (BitVec.ofNat 64 (x.1 + x.2 * 2 ^ 32)) (lane + slice * 2 ^ 5) 2
            (some (chargeFacet v (getG v x.1).attr)) { v with prism := { v.prism with
              resCnt := amod 0 k (fun c => c + 1) v.prism.resCnt, winCnt := aset k n v.prism.winCnt
              log := resLog k lane slice other x, logAt := some v.now } }) ∧ (n ≤ regf t 0xD404 7 0)) ∧
    (∃ k : Nat, ∃ lane : Nat, ∃ slice : Nat, ∃ other : Bool, ∃ x : Nat × Nat, ∃ s : State, (running s) ∧ (struckChunk
    s k = some x) ∧ ∃ v, v = (countRun k x { s with free := s.free + 1 }) ∧ ∃ n, n = (aget 0 k s.prism.winCnt +
    1) ∧ ∃ t, t = (collect 0x10 clsUC k false (BitVec.ofNat 64 (x.1 + x.2 * 2 ^ 32)) (lane + slice * 2 ^ 5) 2
            (some (chargeFacet v (getG v x.1).attr)) { v with prism := { v.prism with
              resCnt := amod 0 k (fun c => c + 1) v.prism.resCnt, winCnt := aset k n v.prism.winCnt
              log := resLog k lane slice other x, logAt := some v.now } }) ∧ (regf t 0xD404 7 0 < n)) ∧
    (∃ k : Nat, ∃ s : State, (struckChunk s k = none)) ∧
    (∃ s : State, (awake s)) ∧
    (∃ s : State, (running s) ∧ (s.prism.powering)) :=
  ⟨⟨5, { collR 0x11 with conf := 1 }, withG (gR { collR 0x11 with conf := 1 }) up, by decide +kernel,
    by decide +kernel⟩,
    ⟨5, 1, { collR 0x11 with bufs := 2 }, withG (gR { collR 0x11 with bufs := 2 }) up, by decide +kernel,
    by decide +kernel, by decide +kernel, by decide +kernel⟩,
    ⟨5, { collR 0x1A with data := false }, withG (gR { collR 0x1A with data := false }) up, by decide +kernel,
    by decide +kernel, by decide +kernel⟩,
    ⟨5, collR 0x11, withG (gR (collR 0x11)) up, by decide +kernel, by decide +kernel, by decide +kernel⟩,
    ⟨5, collR 0x11, withG { gR (collR 0x11) with attr := { at2 with members := [1, 0] } } up, by decide +kernel,
    by decide +kernel, by decide +kernel⟩,
    ⟨5, 0, 3, { collR 0x11 with state := [(0, { cluster := some 3 })] }, withG
    (gR { collR 0x11 with state := [(0, { cluster := some 3 })] }) up, by decide +kernel, by decide +kernel,
    by decide +kernel, by decide +kernel⟩,
    ⟨5, 0, 3, { collR 0x11 with state := [(0, { cluster := some 3 })] }, withG
    (gR { collR 0x11 with state := [(0, { cluster := some 3 })] })
    { up with err := { injections := [(0x10, 3)] } }, by decide +kernel, by decide +kernel, by decide +kernel,
    by decide +kernel⟩,
    ⟨3, 31, 15, true, (5, 0), withG (gR { collR 0x11 with state := [(0, { cluster := some 3 })] })
    { up with regs := [(0xD404, 1)] }, by decide +kernel, by decide +kernel, _, rfl, _, rfl, _, rfl,
    by decide +kernel⟩,
    ⟨3, 0, 0, false, (5, 0), withG (gR { collR 0x11 with state := [(0, { cluster := some 3 })] })
    { up with regs := [(0xD404, 1)], prism := { winCnt := [(3, 1)] } }, by decide +kernel, by decide +kernel, _,
    rfl, _, rfl, _, rfl, by decide +kernel⟩,
    ⟨3, up, by decide +kernel⟩,
    ⟨up, by decide +kernel⟩,
    ⟨{ up with prism := { powering := true } }, by decide +kernel, by decide +kernel⟩⟩

theorem wit_LinkTrainingMovesThroughItsStates :
    (∃ n : Nat, ∃ s : State, (fabricUp s) ∧ (hasLink s n) ∧ ((getL s n).st = .detect)) ∧
    (∃ n : Nat, ∃ s : State, (fabricUp s) ∧ (hasLink s n) ∧ ((getL s n).st = .detect)) ∧
    (∃ n : Nat, ∃ s : State, (fabricUp s) ∧ (hasLink s n) ∧ ((getL s n).st = .detect)) ∧
    (∃ n : Nat, ∃ s : State, (fabricUp s) ∧ (hasLink s n) ∧ ((getL s n).st = .train)) ∧
    (∃ n : Nat, ∃ s : State, (fabricUp s) ∧ (hasLink s n) ∧ ((getL s n).st = .train)) ∧
    (∃ n : Nat, ∃ s : State, (fabricUp s) ∧ (hasLink s n) ∧ ((getL s n).st = .align ∨ (getL s n).st = .retrain)) ∧
    (∃ n : Nat, ∃ s : State, (fabricUp s) ∧ (hasLink s n) ∧ ((getL s n).st = .align ∨ (getL s n).st = .retrain)) ∧
    (∃ n : Nat, ∃ s : State, (fabricUp s) ∧ (hasLink s n) ∧ ((getL s n).st = .align ∨ (getL s n).st = .retrain)) ∧
    (∃ n : Nat, ∃ s : State, (fabricUp s) ∧ (hasLink s n) ∧ ((getL s n).st = .align ∨ (getL s n).st = .retrain)) ∧
    (∃ n : Nat, ∃ s : State, (fabricUp s) ∧ (hasLink s n) ∧ ((getL s n).st = .exchange)) ∧
    (∃ n : Nat, ∃ s : State, (fabricUp s) ∧ (hasLink s n) ∧ ((getL s n).st = .miswired)) ∧
    (∃ n : Nat, ∃ s : State, ∃ c : Instr, (c ∈ ([.lossOfLock n, .svlLnkCtrlRetrain n] : List Instr)) ∧ (fabricUp s) ∧
    (hasLink s n) ∧ ((getL s n).st = .active)) ∧
    (∃ n : Nat, ∃ s : State, ∃ c : Instr, (c ∈ ([.lossOfLock n, .svlLnkCtrlRetrain n] : List Instr)) ∧ (fabricUp s) ∧
    (hasLink s n) ∧ ((getL s n).st = .active)) ∧
    (∃ n : Nat, ∃ s : State, ∃ c : Instr, ∃ l : List LState, ((c, l) ∈ ([(.signalDetect n, [.detect]), (.detectProbe
    n, [.detect]), (.equalizationDone n, [.train]), (.trainTimeout n, [.train]), (.lockAndDeskew n, [.align,
    .retrain]), (.alignTimeout n, [.align, .retrain]), (.exchangeTimeout n, [.exchange]), (.lossOfLock n,
    [.active]), (.svlLnkCtrlRetrain n, [.active]), (.miswireHoldEnd n, [.miswired])] : List (Instr × List
    LState))) ∧ (fabricUp s) ∧ (hasLink s n) ∧ ((getL s n).st ∉ l)) ∧
    (∃ n : Nat, ∃ s : State, ∃ c : Instr, ∃ l : List LState, ((c, l) ∈ ([(.signalDetect n, [.detect]), (.detectProbe
    n, [.detect]), (.equalizationDone n, [.train]), (.trainTimeout n, [.train]), (.lockAndDeskew n, [.align,
    .retrain]), (.alignTimeout n, [.align, .retrain]), (.exchangeTimeout n, [.exchange]), (.lossOfLock n,
    [.active]), (.svlLnkCtrlRetrain n, [.active]), (.miswireHoldEnd n, [.miswired])] : List (Instr × List
    LState))) ∧ (fabricUp s) ∧ (hasLink s n) ∧ ((getL s n).st ∉ l)) ∧
    (∃ n : Nat, ∃ s : State, ∃ c : Instr, ∃ l : List LState, ((c, l) ∈ ([(.signalDetect n, [.detect]), (.detectProbe
    n, [.detect]), (.equalizationDone n, [.train]), (.trainTimeout n, [.train]), (.lockAndDeskew n, [.align,
    .retrain]), (.alignTimeout n, [.align, .retrain]), (.exchangeTimeout n, [.exchange]), (.lossOfLock n,
    [.active]), (.svlLnkCtrlRetrain n, [.active]), (.miswireHoldEnd n, [.miswired])] : List (Instr × List
    LState))) ∧ (fabricUp s) ∧ (hasLink s n) ∧ ((getL s n).st ∉ l)) ∧
    (∃ n : Nat, ∃ s : State, ∃ c : Instr, ∃ l : List LState, ((c, l) ∈ ([(.signalDetect n, [.detect]), (.detectProbe
    n, [.detect]), (.equalizationDone n, [.train]), (.trainTimeout n, [.train]), (.lockAndDeskew n, [.align,
    .retrain]), (.alignTimeout n, [.align, .retrain]), (.exchangeTimeout n, [.exchange]), (.lossOfLock n,
    [.active]), (.svlLnkCtrlRetrain n, [.active]), (.miswireHoldEnd n, [.miswired])] : List (Instr × List
    LState))) ∧ (fabricUp s) ∧ (hasLink s n) ∧ ((getL s n).st ∉ l)) ∧
    (∃ n : Nat, ∃ s : State, ∃ c : Instr, ∃ l : List LState, ((c, l) ∈ ([(.signalDetect n, [.detect]), (.detectProbe
    n, [.detect]), (.equalizationDone n, [.train]), (.trainTimeout n, [.train]), (.lockAndDeskew n, [.align,
    .retrain]), (.alignTimeout n, [.align, .retrain]), (.exchangeTimeout n, [.exchange]), (.lossOfLock n,
    [.active]), (.svlLnkCtrlRetrain n, [.active]), (.miswireHoldEnd n, [.miswired])] : List (Instr × List
    LState))) ∧ (fabricUp s) ∧ (hasLink s n) ∧ ((getL s n).st ∉ l)) ∧
    (∃ n : Nat, ∃ lw : BitVec 40, ∃ s : State, (fabricUp s) ∧ (hasLink s n) ∧ ((getL s n).st = .exchange) ∧ ∃ t, t =
    (modL n (fun l => { l with far := BitVec.ofNat 32 (fld lw 35 6 + 2 ^ 30), lwAt := s.now }) s) ∧ (farPasses t
    n lw = false)) ∧
    (∃ n : Nat, ∃ lw : BitVec 40, ∃ s : State, (fabricUp s) ∧ (hasLink s n) ∧ ((getL s n).st = .exchange) ∧ ∃ t, t =
    (modL n (fun l => { l with far := BitVec.ofNat 32 (fld lw 35 6 + 2 ^ 30), lwAt := s.now }) s) ∧ (farPasses t
    n lw) ∧ (fld lw 3 0 = 4 ∨ fld lw 3 0 = 5)) ∧
    (∃ n : Nat, ∃ lw : BitVec 40, ∃ s : State, (fabricUp s) ∧ (hasLink s n) ∧ ((getL s n).st = .exchange) ∧ ∃ t, t =
    (modL n (fun l => { l with far := BitVec.ofNat 32 (fld lw 35 6 + 2 ^ 30), lwAt := s.now }) s) ∧ (farPasses t
    n lw) ∧ (fld lw 3 0 = 4 ∨ fld lw 3 0 = 5)) ∧
    (∃ n : Nat, ∃ lw : BitVec 40, ∃ s : State, (fabricUp s) ∧ (hasLink s n) ∧ ((getL s n).st = .exchange) ∧ ∃ t, t =
    (modL n (fun l => { l with far := BitVec.ofNat 32 (fld lw 35 6 + 2 ^ 30), lwAt := s.now }) s) ∧ (farPasses t
    n lw) ∧ (fld lw 3 0 ≠ 4) ∧ (fld lw 3 0 ≠ 5)) ∧
    (∃ n : Nat, ∃ lw : BitVec 40, ∃ s : State, (fabricUp s) ∧ (hasLink s n) ∧ ((getL s n).st = .active) ∧ (fld lw 3 0
    = 5)) ∧
    (∃ n : Nat, ∃ lw : BitVec 40, ∃ s : State, (fabricUp s) ∧ (hasLink s n) ∧ ((getL s n).st = .active) ∧ (fld lw 3 0
    ≠ 5)) ∧
    (∃ n : Nat, ∃ lw : BitVec 40, ∃ s : State, (fabricUp s) ∧ (hasLink s n) ∧ ((getL s n).st = .active) ∧ (fld lw 3 0
    ≠ 5)) ∧
    (∃ n : Nat, ∃ s : State, (fabricUp s) ∧ (hasLink s n) ∧ ((getL s n).st ≠ .exchange) ∧ ((getL s n).st ≠ .active)) :=
  ⟨⟨3, withL { st := .detect }, by decide +kernel, by decide +kernel, by decide +kernel⟩,
    ⟨3, withL { st := .detect }, by decide +kernel, by decide +kernel, by decide +kernel⟩,
    ⟨3, { withL { st := .detect, since := 1 } with now := 250000 }, by decide +kernel, by decide +kernel,
    by decide +kernel⟩,
    ⟨3, withL { st := .train }, by decide +kernel, by decide +kernel, by decide +kernel⟩,
    ⟨3, withL { st := .train }, by decide +kernel, by decide +kernel, by decide +kernel⟩,
    ⟨3, withL { st := .align }, by decide +kernel, by decide +kernel, by decide +kernel⟩,
    ⟨23, { up with fab := { links := [(23, { st := .retrain })] } }, by decide +kernel, by decide +kernel,
    by decide +kernel⟩,
    ⟨3, withL { st := .retrain }, by decide +kernel, by decide +kernel, by decide +kernel⟩,
    ⟨3, withL { st := .align }, by decide +kernel, by decide +kernel, by decide +kernel⟩,
    ⟨3, withL { st := .exchange }, by decide +kernel, by decide +kernel, by decide +kernel⟩,
    ⟨3, withL { st := .miswired }, by decide +kernel, by decide +kernel, by decide +kernel⟩,
    ⟨3, withL { st := .active }, .lossOfLock 3, by decide +kernel, by decide +kernel, by decide +kernel,
    by decide +kernel⟩,
    ⟨0, { up with fab := { links := [(0, { st := .active })] } }, .svlLnkCtrlRetrain 0, by decide +kernel,
    by decide +kernel, by decide +kernel, by decide +kernel⟩,
    ⟨3, withL { st := .train }, .signalDetect 3, [.detect], by decide +kernel, by decide +kernel, by decide +kernel,
    by decide +kernel⟩,
    ⟨3, withL { st := .active }, .lockAndDeskew 3, [.align, .retrain], by decide +kernel, by decide +kernel,
    by decide +kernel, by decide +kernel⟩,
    ⟨3, withL { st := .active }, .exchangeTimeout 3, [.exchange], by decide +kernel, by decide +kernel,
    by decide +kernel, by decide +kernel⟩,
    ⟨3, withL { st := .detect }, .miswireHoldEnd 3, [.miswired], by decide +kernel, by decide +kernel,
    by decide +kernel, by decide +kernel⟩,
    ⟨3, withL { st := .sleep }, .lossOfLock 3, [.active], by decide +kernel, by decide +kernel, by decide +kernel,
    by decide +kernel⟩,
    ⟨3, 0xFFFFFFFFFF, withL { st := .exchange }, by decide +kernel, by decide +kernel, by decide +kernel, _, rfl,
    by decide +kernel⟩,
    ⟨0, 0x40000004, { up with fab := { links := [(0, { st := .exchange })] } }, by decide +kernel,
    by decide +kernel, by decide +kernel, _, rfl, by decide +kernel, by decide +kernel⟩,
    ⟨0, 0x40000005, { up with fab := { links := [(0, { st := .exchange })] } }, by decide +kernel,
    by decide +kernel, by decide +kernel, _, rfl, by decide +kernel, by decide +kernel⟩,
    ⟨0, 0x40000003, { up with fab := { links := [(0, { st := .exchange })] } }, by decide +kernel,
    by decide +kernel, by decide +kernel, _, rfl, by decide +kernel, by decide +kernel, by decide +kernel⟩,
    ⟨3, 5, withL { st := .active }, by decide +kernel, by decide +kernel, by decide +kernel, by decide +kernel⟩,
    ⟨3, 4, withL { st := .active }, by decide +kernel, by decide +kernel, by decide +kernel, by decide +kernel⟩,
    ⟨3, 4, withL { st := .active, farUp := true }, by decide +kernel, by decide +kernel, by decide +kernel,
    by decide +kernel⟩,
    ⟨3, withL { st := .train }, by decide +kernel, by decide +kernel, by decide +kernel, by decide +kernel⟩⟩

theorem wit_LinksSleepCarryFlitsAndReplay :
    (∃ n : Nat, ∃ s : State, (fabricUp s) ∧ (hasLink s n) ∧ ((getL s n).st = .active) ∧ ∃ none_, none_ = ((getL s
    n).tx.q.pkts = [] ∧ ∀ v, v < 8 → aget [] v (getL s n).tx.ready = []) ∧ (none_)) ∧
    (∃ n : Nat, ∃ s : State, (fabricUp s) ∧ (hasLink s n) ∧ ((getL s n).st = .active) ∧ ∃ none_, none_ = ((getL s
    n).tx.q.pkts = [] ∧ ∀ v, v < 8 → aget [] v (getL s n).tx.ready = []) ∧ (¬ none_)) ∧
    (∃ n : Nat, ∃ s : State, (fabricUp s) ∧ (hasLink s n) ∧ ((getL s n).st = .active)) ∧
    (∃ n : Nat, ∃ s : State, (fabricUp s) ∧ (hasLink s n) ∧ ((getL s n).st = .active)) ∧
    (∃ n : Nat, ∃ s : State, (fabricUp s) ∧ (hasLink s n) ∧ ((getL s n).st = .sleep)) ∧
    (∃ n : Nat, ∃ s : State, (fabricUp s) ∧ (linkLive s n) ∧ ((0x14, n) ∉ s.err.injections)) ∧
    (∃ n : Nat, ∃ s : State, (fabricUp s) ∧ (linkLive s n) ∧ ((0x14, n) ∈ s.err.injections)) ∧
    (∃ n : Nat, ∃ f : TxFlit, ∃ r : List TxFlit, ∃ s : State, (fabricUp s) ∧ (linkLive s n) ∧ (hopRetry s) ∧ ((getL s
    n).tx.unacked = f :: r) ∧ (elapsed s (getL s n).tx.timer (64 * 2 ^ regf s 0xE008 13 10)) ∧ ((getL s
    n).tx.replays < max 1 (regf s 0xE008 17 14))) ∧
    (∃ n : Nat, ∃ f : TxFlit, ∃ r : List TxFlit, ∃ s : State, (fabricUp s) ∧ (linkLive s n) ∧ (hopRetry s) ∧ ((getL s
    n).tx.unacked = f :: r) ∧ (elapsed s (getL s n).tx.timer (64 * 2 ^ regf s 0xE008 13 10)) ∧ (max 1 (regf s
    0xE008 17 14) ≤ (getL s n).tx.replays)) ∧
    (∃ n : Nat, ∃ s : State, (fabricUp s) ∧ (hasLink s n)) :=
  ⟨⟨3, withL { st := .active }, by decide +kernel, by decide +kernel, by decide +kernel, _, rfl, by decide +kernel⟩,
    ⟨3, withL
    { st := .active, tx := { q := { pkts := [{ vc := 0, group := 0, rail := 0, charge := 1, lineage := 0, rh := rh0, bytes := [1] }] } } },
    by decide +kernel, by decide +kernel, by decide +kernel, _, rfl, by decide +kernel⟩,
    ⟨3, withL { st := .active, asked := true }, by decide +kernel, by decide +kernel, by decide +kernel⟩,
    ⟨3, withL { st := .active }, by decide +kernel, by decide +kernel, by decide +kernel⟩,
    ⟨3, withL { st := .sleep }, by decide +kernel, by decide +kernel, by decide +kernel⟩,
    ⟨3, withL { st := .active }, by decide +kernel, by decide +kernel, by decide +kernel⟩,
    ⟨3, { withL { st := .active } with err := { injections := [(0x14, 3)] } }, by decide +kernel, by decide +kernel,
    by decide +kernel⟩,
    ⟨3, fl0, [],
    { withL { st := .active, tx := { unacked := [fl0], replays := 7 } } with regs := [(0xE000, 0x1FFF000000000)] },
    by decide +kernel, by decide +kernel, by decide +kernel, by decide +kernel, by decide +kernel,
    by decide +kernel⟩,
    ⟨3, fl0, [],
    { withL { st := .active, tx := { unacked := [fl0], replays := 8 } } with regs := [(0xE000, 0x1FFF000000000)] },
    by decide +kernel, by decide +kernel, by decide +kernel, by decide +kernel, by decide +kernel,
    by decide +kernel⟩,
    ⟨3, withL { st := .active }, by decide +kernel, by decide +kernel⟩⟩

theorem wit_FabricNoticesAct :
    (∃ m : Notice, ∃ s : State, (fabricUp s) ∧ ∃ d, d = (fld m.w0 5 4) ∧ ∃ c, c = (fld m.w0 9 6) ∧ (fld m.w0 3 0 = 2)
    ∧ (d < 3) ∧ (c < ringSize s d)) ∧
    (∃ m : Notice, ∃ s : State, (fabricUp s) ∧ ∃ d, d = (fld m.w0 5 4) ∧ ∃ c, c = (fld m.w0 9 6) ∧ (fld m.w0 3 0 ≠ 2
    ∨ 3 ≤ d ∨ ringSize s d ≤ c)) ∧
    (∃ m : Notice, ∃ s : State, (fabricUp s) ∧ ∃ d, d = (fld m.w0 5 4) ∧ ∃ c, c = (fld m.w0 9 6) ∧ (fld m.w0 3 0 ≠ 2
    ∨ 3 ≤ d ∨ ringSize s d ≤ c)) ∧
    (∃ m : Notice, ∃ s : State, (fabricUp s) ∧ ∃ d, d = (fld m.w0 5 4) ∧ ∃ c, c = (fld m.w0 9 6) ∧ (fld m.w0 3 0 ≠ 2
    ∨ 3 ≤ d ∨ ringSize s d ≤ c)) ∧
    (∃ s : State, (fabricUp s) ∧ (elapsed s s.fab.refreshAt (ms 1))) ∧
    (∃ s : State, (fabricUp s) ∧ (elapsed s s.fab.refreshAt (ms 1) = false)) ∧
    (∃ m : Notice, ∃ s : State, (fabricUp s) ∧ (fld m.w0 3 0 ≠ 1)) ∧
    (∃ m : Notice, ∃ s : State, (fabricUp s) ∧ ∃ pod, pod = (podOf (cut 24 m.w1 13)) ∧ ∃ e, e = (reg s (0xE200 + 8 *
    pod)) ∧ ∃ spare, spare = (bit m.w1 12 ∧ bit e 25 ∧ bit e 24 ∧ fld e 11 0 = fld m.w1 11 0) ∧ (fld m.w0 3 0 =
    1) ∧ (¬ spare)) ∧
    (∃ m : Notice, ∃ s : State, (fabricUp s) ∧ ∃ pod, pod = (podOf (cut 24 m.w1 13)) ∧ ∃ e, e = (reg s (0xE200 + 8 *
    pod)) ∧ ∃ spare, spare = (bit m.w1 12 ∧ bit e 25 ∧ bit e 24 ∧ fld e 11 0 = fld m.w1 11 0) ∧ (fld m.w0 3 0 =
    1) ∧ (spare)) ∧
    (∃ pod : Nat, ∃ t : U64, ∃ s : State, (agetq pod s.fab.shun = some t)) ∧
    (∃ pod : Nat, ∃ t : U64, ∃ s : State, (agetq pod s.fab.shun = some t)) :=
  ⟨⟨{ rh := rh0, w0 := 2, w1 := 0 }, up, by decide +kernel, _, rfl, _, rfl, by decide +kernel, by decide +kernel,
    by decide +kernel⟩,
    ⟨{ rh := rh0, w0 := 0x32, w1 := 0 }, up, by decide +kernel, _, rfl, _, rfl, by decide +kernel⟩,
    ⟨{ rh := rh0, w0 := 3, w1 := 0 }, up, by decide +kernel, _, rfl, _, rfl, by decide +kernel⟩,
    ⟨{ rh := rh0, w0 := 0x3C2, w1 := 0 }, up, by decide +kernel, _, rfl, _, rfl, by decide +kernel⟩,
    ⟨up, by decide +kernel, by decide +kernel⟩,
    ⟨{ up with fab := { refreshAt := 999999750001 } }, by decide +kernel, by decide +kernel⟩,
    ⟨{ rh := rh0, w0 := 2, w1 := 0 }, up, by decide +kernel, by decide +kernel⟩,
    ⟨{ rh := rh0, w0 := 1, w1 := 0 }, up, by decide +kernel, _, rfl, _, rfl, _, rfl, by decide +kernel,
    by decide +kernel⟩,
    ⟨{ rh := rh0, w0 := 1, w1 := 0x1000 }, { up with regs := [(0xE200, 0x3000000)] }, by decide +kernel, _, rfl, _,
    rfl, _, rfl, by decide +kernel, by decide +kernel⟩,
    ⟨0, 0, { up with now := 25000000, fab := { shun := [(0, 0)] } }, by decide +kernel⟩,
    ⟨63, 1, { up with now := 25000000, fab := { shun := [(63, 1)] } }, by decide +kernel⟩⟩

theorem wit_SegmentCommandsComplete :
    (∃ f : Nat, ∃ s : State, (running s) ∧ (segIdle s f) ∧ ∃ x, x = ((getF s f).xlt) ∧ (segBad s f x)) ∧
    (∃ f : Nat, ∃ s : State, (running s) ∧ (segIdle s f) ∧ ∃ x, x = ((getF s f).xlt) ∧ (segBad s f x)) ∧
    (∃ f : Nat, ∃ s : State, (running s) ∧ (segIdle s f) ∧ ∃ x, x = ((getF s f).xlt) ∧ ∃ n, n = (x.num.toNat) ∧
    (segBad s f x = false) ∧ (segInUse s f n)) ∧
    (∃ f : Nat, ∃ s : State, (running s) ∧ (segIdle s f) ∧ ∃ x, x = ((getF s f).xlt) ∧ ∃ n, n = (x.num.toNat) ∧ ∃
    fits, fits = (tilesUsed s f + segTiles (segOf x) ≤ x.tilesAllot.toNat + segTiles (getSeg s f n)) ∧ (segBad s
    f x = false) ∧ (segInUse s f n = false) ∧ (¬ fits)) ∧
    (∃ f : Nat, ∃ s : State, (running s) ∧ (segIdle s f) ∧ ∃ x, x = ((getF s f).xlt) ∧ ∃ n, n = (x.num.toNat) ∧ ∃
    fits, fits = (tilesUsed s f + segTiles (segOf x) ≤ x.tilesAllot.toNat + segTiles (getSeg s f n)) ∧ (segBad s
    f x = false) ∧ (segInUse s f n = false) ∧ (fits) ∧ (segQuiet s f n)) ∧
    (∃ f : Nat, ∃ s : State, (running s) ∧ (segIdle s f) ∧ ∃ x, x = ((getF s f).xlt) ∧ ∃ n, n = (x.num.toNat) ∧ ∃
    fits, fits = (tilesUsed s f + segTiles (segOf x) ≤ x.tilesAllot.toNat + segTiles (getSeg s f n)) ∧ (segBad s
    f x = false) ∧ (segInUse s f n = false) ∧ (fits) ∧ (segQuiet s f n = false)) ∧
    (∃ f : Nat, ∃ s : State, (running s) ∧ (segIdle s f) ∧ ∃ x, x = ((getF s f).xlt) ∧ ∃ n, n = (x.num.toNat) ∧
    (segInUse s f n)) ∧
    (∃ f : Nat, ∃ s : State, (running s) ∧ (segIdle s f) ∧ ∃ x, x = ((getF s f).xlt) ∧ ∃ n, n = (x.num.toNat) ∧
    (segInUse s f n = false) ∧ ((getSeg s f n).valid) ∧ (segQuiet s f n)) ∧
    (∃ f : Nat, ∃ s : State, (running s) ∧ (segIdle s f) ∧ ∃ x, x = ((getF s f).xlt) ∧ ∃ n, n = (x.num.toNat) ∧
    (segInUse s f n = false) ∧ ((getSeg s f n).valid) ∧ (segQuiet s f n = false)) ∧
    (∃ f : Nat, ∃ s : State, (running s) ∧ (segIdle s f) ∧ ∃ x, x = ((getF s f).xlt) ∧ ∃ n, n = (x.num.toNat) ∧
    (segInUse s f n = false) ∧ ((getSeg s f n).valid = false)) ∧
    (∃ f : Nat, ∃ s : State, (running s) ∧ (segIdle s f)) ∧
    (∃ f : Nat, ∃ s : State, (segIdle s f = false)) ∧
    (∃ f : Nat, ∃ s : State, (segIdle s f = false)) :=
  ⟨⟨0, upF (fun z => { z with xlt := { z.xlt with num := 255, attr := 0x3E, base := 0, limit := 0xFFFFF } }),
    by decide +kernel, by decide +kernel, _, rfl, by decide +kernel⟩,
    ⟨0, upF (fun z => { z with xlt := { z.xlt with num := 3, attr := 5, base := 0xFFFFFFFFFFFFFFFF, limit := 1 } }),
    by decide +kernel, by decide +kernel, _, rfl, by decide +kernel⟩,
    ⟨0, modF 0 (fun z => { z with xlt := { z.xlt with num := 1, attr := 5 } }) (upQ qa qa ea), by decide +kernel,
    by decide +kernel, _, rfl, _, rfl, by decide +kernel, by decide +kernel⟩,
    ⟨0, upF (fun z => { z with xlt := { z.xlt with num := 3, attr := 5, limit := 0xFFFFFFFFFF } }),
    by decide +kernel, by decide +kernel, _, rfl, _, rfl, _, rfl, by decide +kernel, by decide +kernel,
    by decide +kernel⟩,
    ⟨0, upF (fun z => { z with xlt := { z.xlt with num := 3, attr := 5, limit := 0xFFFFF } }), by decide +kernel,
    by decide +kernel, _, rfl, _, rfl, _, rfl, by decide +kernel, by decide +kernel, by decide +kernel,
    by decide +kernel⟩,
    ⟨0,
    { upF (fun z => { z with xlt := { z.xlt with num := 2, attr := 5, limit := 0xFFFFF } }) with pcx := { ports := [(5, { unconf := [{ what := .mover 0 0, write := { target := 5, addr := 0x100, bytes := [1] } }] })] } },
    by decide +kernel, by decide +kernel, _, rfl, _, rfl, _, rfl, by decide +kernel, by decide +kernel,
    by decide +kernel, by decide +kernel⟩,
    ⟨0, modF 0 (fun z => { z with xlt := { z.xlt with num := 1, attr := 5 } }) (upQ qa qa ea), by decide +kernel,
    by decide +kernel, _, rfl, _, rfl, by decide +kernel⟩,
    ⟨0, upF (fun z => { z with xlt := { z.xlt with num := 2 } }), by decide +kernel, by decide +kernel, _, rfl, _,
    rfl, by decide +kernel, by decide +kernel, by decide +kernel⟩,
    ⟨0,
    { upF (fun z => { z with xlt := { z.xlt with num := 2 } }) with pcx := { ports := [(5, { unconf := [{ what := .mover 0 0, write := { target := 5, addr := 0x100, bytes := [1] } }] })] } },
    by decide +kernel, by decide +kernel, _, rfl, _, rfl, by decide +kernel, by decide +kernel,
    by decide +kernel⟩,
    ⟨0, upF (fun z => { z with xlt := { z.xlt with num := 9 } }), by decide +kernel, by decide +kernel, _, rfl, _,
    rfl, by decide +kernel, by decide +kernel⟩,
    ⟨0, upF (fun z => { z with xlt := { z.xlt with num := 2 } }), by decide +kernel, by decide +kernel⟩,
    ⟨0, upF (fun z => { z with xlt := { z.xlt with busy := 1 } }), by decide +kernel⟩,
    ⟨63, up, by decide +kernel⟩⟩

theorem wit_FaultQueueCommandsComplete :
    (∃ st : Stream, ∃ m : Miss, ∃ s : State, (running s) ∧ (s.xlt.misses.find? (fun m => decide (m.piece.stream = st)
    && m.flying) = some m)) ∧
    (∃ p : Piece, ∃ r : List Piece, ∃ s : State, (running s) ∧ (s.xlt.heldFaults = p :: r) ∧ (canRaise s)) ∧
    (∃ s : State, (canRaise s = false)) ∧
    (∃ v : U32, ∃ r : FltRec, ∃ s : State, (running s) ∧ (agetq (fld v 11 0) s.xlt.recs = some r) ∧ ((recGen s (fld v
    11 0)).toNat = fld v 30 12) ∧ (bit v 31 = false)) ∧
    (∃ v : U32, ∃ r : FltRec, ∃ s : State, (running s) ∧ (agetq (fld v 11 0) s.xlt.recs = some r) ∧ ((recGen s (fld v
    11 0)).toNat = fld v 30 12) ∧ (bit v 31)) ∧
    (∃ v : U32, ∃ r : FltRec, ∃ s : State, (running s) ∧ (agetq (fld v 11 0) s.xlt.recs = some r) ∧ ((recGen s (fld v
    11 0)).toNat ≠ fld v 30 12)) ∧
    (∃ v : U32, ∃ s : State, (agetq (fld v 11 0) s.xlt.recs = none)) ∧
    (∃ s : State, (running s)) ∧
    (∃ s : State, (running s)) ∧
    (∃ s : State, (running s)) ∧
    (∃ s : State, (running s)) ∧
    (∃ s : State, (running s)) ∧
    (∃ f : Nat, (f ≠ 0)) :=
  ⟨⟨.source 3,
    { piece := { stream := .source 3, facet := 0, seg := 2, off := 0, isWrite := false }, flying := true },
    { up with xlt := { misses := [{ piece := { stream := .source 3, facet := 0, seg := 2, off := 0, isWrite := false }, flying := true }] } },
    by decide +kernel, by decide +kernel⟩,
    ⟨{ stream := .source 3, facet := 0, seg := 2, off := 0, isWrite := false }, [],
    { up with xlt := { fltCfg := 0x100001, tiles := [(0x1000000, { present := false })], heldFaults := [{ stream := .source 3, facet := 0, seg := 2, off := 0, isWrite := false }] } },
    by decide +kernel, by decide +kernel,
    by (simp only [canRaise, Bool.and_eq_true]; refine ⟨⟨by decide +kernel, by decide +kernel⟩, ?_⟩; rfl)⟩,
    ⟨up, by decide +kernel⟩,
    ⟨7, { facet := 0, seg := 2, tile := 0, waiters := [pieceOf (.source 3)] }, parkS (.source 3) up,
    by decide +kernel, by decide +kernel, by decide +kernel, by decide +kernel⟩,
    ⟨0x80000007, { facet := 0, seg := 2, tile := 0, waiters := [pieceOf (.source 3)] }, parkS (.source 3) up,
    by decide +kernel, by decide +kernel, by decide +kernel, by decide +kernel⟩,
    ⟨0x1007, { facet := 0, seg := 2, tile := 0, waiters := [pieceOf (.source 3)] }, parkS (.source 3) up,
    by decide +kernel, by decide +kernel, by decide +kernel⟩,
    ⟨7, up, by decide +kernel⟩,
    ⟨up, by decide +kernel⟩,
    ⟨{ up with xlt := { fltProd := 1 } }, by decide +kernel⟩,
    ⟨{ up with xlt := { fltProd := 1 } }, by decide +kernel⟩,
    ⟨up, by decide +kernel⟩,
    ⟨up, by decide +kernel⟩,
    ⟨63, by decide +kernel⟩⟩

theorem wit_TileMigrationsRunToTheirEnd :
    (∃ f : Nat, ∃ q : Nat, ∃ op : Nat, ∃ isMap : Bool, ∃ c : Instr, ((c, op, isMap) ∈ ([(.tileMigrate f q, 0x33,
    false), (.tileMap f q, 0x34, true)] : List (Instr × Nat × Bool))) ∧ ∃ i : Item, ∃ s : State, (ready s f q op
    = some i) ∧ ∃ t, t = (startItem f q i.idx s) ∧ ∃ m, m = (migOf q isMap i) ∧ (migBad t m = false)) ∧
    (∃ f : Nat, ∃ q : Nat, ∃ op : Nat, ∃ isMap : Bool, ∃ c : Instr, ((c, op, isMap) ∈ ([(.tileMigrate f q, 0x33,
    false), (.tileMap f q, 0x34, true)] : List (Instr × Nat × Bool))) ∧ ∃ i : Item, ∃ s : State, (ready s f q op
    = some i) ∧ ∃ t, t = (startItem f q i.idx s) ∧ ∃ m, m = (migOf q isMap i) ∧ (migBad t m = false)) ∧
    (∃ f : Nat, ∃ q : Nat, ∃ op : Nat, ∃ isMap : Bool, ∃ c : Instr, ((c, op, isMap) ∈ ([(.tileMigrate f q, 0x33,
    false), (.tileMap f q, 0x34, true)] : List (Instr × Nat × Bool))) ∧ ∃ i : Item, ∃ s : State, (ready s f q op
    = some i) ∧ ∃ t, t = (startItem f q i.idx s) ∧ ∃ m, m = (migOf q isMap i) ∧ (migBad t m)) ∧
    (∃ f : Nat, ∃ q : Nat, ∃ op : Nat, ∃ isMap : Bool, ∃ c : Instr, ((c, op, isMap) ∈ ([(.tileMigrate f q, 0x33,
    false), (.tileMap f q, 0x34, true)] : List (Instr × Nat × Bool))) ∧ ∃ i : Item, ∃ s : State, (ready s f q op
    = some i) ∧ ∃ t, t = (startItem f q i.idx s) ∧ ∃ m, m = (migOf q isMap i) ∧ (migBad t m)) ∧
    (∃ m : Mig, ∃ s : State, (running s) ∧ (leastBy Mig.seq (s.xlt.migs.filter (fun m => decide (m.phase = 0))) =
    some m) ∧ ∃ run, run = (s.xlt.migs.filter (fun x => decide (1 ≤ x.phase))) ∧ ∃ full, full = (run.any
    (Mig.same m) || decide (8 ≤ (run.filter (fun x => !x.isMap)).length)) ∧ (full)) ∧
    (∃ m : Mig, ∃ s : State, (running s) ∧ (leastBy Mig.seq (s.xlt.migs.filter (fun m => decide (m.phase = 0))) =
    some m) ∧ ∃ run, run = (s.xlt.migs.filter (fun x => decide (1 ≤ x.phase))) ∧ ∃ full, full = (run.any
    (Mig.same m) || decide (8 ≤ (run.filter (fun x => !x.isMap)).length)) ∧ (full = false) ∧ (migBad s m)) ∧
    (∃ m : Mig, ∃ s : State, (running s) ∧ (leastBy Mig.seq (s.xlt.migs.filter (fun m => decide (m.phase = 0))) =
    some m) ∧ ∃ run, run = (s.xlt.migs.filter (fun x => decide (1 ≤ x.phase))) ∧ ∃ full, full = (run.any
    (Mig.same m) || decide (8 ≤ (run.filter (fun x => !x.isMap)).length)) ∧ ∃ x, x = (getTile s m.facet m.seg
    m.tile) ∧ ∃ there, there = (!m.isMap && decide (x.loc = m.loc ∧ x.addr = m.addr)) ∧ (full = false) ∧ (migBad
    s m = false) ∧ (there)) ∧
    (∃ m : Mig, ∃ s : State, (running s) ∧ (leastBy Mig.seq (s.xlt.migs.filter (fun m => decide (m.phase = 0))) =
    some m) ∧ ∃ run, run = (s.xlt.migs.filter (fun x => decide (1 ≤ x.phase))) ∧ ∃ full, full = (run.any
    (Mig.same m) || decide (8 ≤ (run.filter (fun x => !x.isMap)).length)) ∧ ∃ x, x = (getTile s m.facet m.seg
    m.tile) ∧ ∃ there, there = (!m.isMap && decide (x.loc = m.loc ∧ x.addr = m.addr)) ∧ (full = false) ∧ (migBad
    s m = false) ∧ (there = false)) ∧
    (∃ m : Mig, ∃ s : State, (running s) ∧ (leastBy Mig.seq (s.xlt.migs.filter (fun m => decide (m.phase = 0))) =
    some m) ∧ ∃ run, run = (s.xlt.migs.filter (fun x => decide (1 ≤ x.phase))) ∧ ∃ full, full = (run.any
    (Mig.same m) || decide (8 ≤ (run.filter (fun x => !x.isMap)).length)) ∧ ∃ x, x = (getTile s m.facet m.seg
    m.tile) ∧ ∃ there, there = (!m.isMap && decide (x.loc = m.loc ∧ x.addr = m.addr)) ∧ (full = false) ∧ (migBad
    s m = false) ∧ (there = false)) ∧
    (∃ f : Nat, ∃ g : Nat, ∃ t : Nat, ∃ m : Mig, ∃ s : State, (running s) ∧ (migIn s f g t 2 = some m) ∧ (drained s
    (getTile s f g t) = false)) ∧
    (∃ f : Nat, ∃ g : Nat, ∃ t : Nat, ∃ m : Mig, ∃ s : State, (running s) ∧ (migIn s f g t 2 = some m) ∧ (drained s
    (getTile s f g t)) ∧ (m.isMap)) ∧
    (∃ f : Nat, ∃ g : Nat, ∃ t : Nat, ∃ m : Mig, ∃ s : State, (running s) ∧ (migIn s f g t 2 = some m) ∧ (drained s
    (getTile s f g t)) ∧ (m.isMap = false) ∧ (s.mov.stopped ∨ freeChan s 24 8 = none)) ∧
    (∃ f : Nat, ∃ g : Nat, ∃ t : Nat, ∃ m : Mig, ∃ s : State, (running s) ∧ (migIn s f g t 2 = some m) ∧ ∃ c : Nat,
    (drained s (getTile s f g t)) ∧ (m.isMap = false) ∧ (s.mov.stopped = false) ∧ (freeChan s 24 8 = some c)) ∧
    (∃ f : Nat, ∃ g : Nat, ∃ t : Nat, ∃ m : Mig, ∃ s : State, (running s) ∧ (migIn s f g t 4 = some m) ∧ ∃ u, u =
    (readsEnd (.mig f g t) s) ∧ ∃ hurt, hurt = ((migSource s m).findSome? (hurtAt u (.moverRead m.ch))) ∧
    (m.asked) ∧ (hurt = none)) ∧
    (∃ f : Nat, ∃ g : Nat, ∃ t : Nat, ∃ m : Mig, ∃ s : State, (running s) ∧ (migIn s f g t 4 = some m) ∧ ∃ u, u =
    (readsEnd (.mig f g t) s) ∧ ∃ hurt, hurt = ((migSource s m).findSome? (hurtAt u (.moverRead m.ch))) ∧ ∃ h :
    Hurt, (m.asked) ∧ (hurt = some h)) ∧
    (∃ f : Nat, ∃ g : Nat, ∃ t : Nat, ∃ m : Mig, ∃ s : State, (running s) ∧ (migIn s f g t 4 = some m) ∧ (m.asked =
    false)) ∧
    (∃ s : State, (running s) ∧ (s.memc.copying)) ∧
    (∃ q : Nat, ∃ idx : U32, ∃ ch : Nat, ∃ s : State, (running s) ∧ (s.memc.unfencing = some (q, idx)) ∧
    (s.memc.fenced = some ch)) :=
  ⟨⟨0, 1, 0x33, false, .tileMigrate 0 1, by decide +kernel,
    { idx := 0, desc := dsc 0x33 0x28000000200 0x1000000 0 0 0 0 }, upD
    (dsc 0x33 0x28000000200 0x1000000 0 0 0 0), by decide +kernel, _, rfl, _, rfl, by decide +kernel⟩,
    ⟨0, 1, 0x34, true, .tileMap 0 1, by decide +kernel,
    { idx := 0, desc := dsc 0x34 0x28000000200 0x1000000 0 0 0 0 }, upD
    (dsc 0x34 0x28000000200 0x1000000 0 0 0 0), by decide +kernel, _, rfl, _, rfl, by decide +kernel⟩,
    ⟨0, 1, 0x33, false, .tileMigrate 0 1, by decide +kernel,
    { idx := 0, desc := dsc 0x33 0x28000000900 0x1000000 0 0 0 0 }, upD
    (dsc 0x33 0x28000000900 0x1000000 0 0 0 0), by decide +kernel, _, rfl, _, rfl, by decide +kernel⟩,
    ⟨0, 1, 0x34, true, .tileMap 0 1, by decide +kernel,
    { idx := 0, desc := dsc 0x34 0x28000000900 0x1000000 0 0 0 0 }, upD
    (dsc 0x34 0x28000000900 0x1000000 0 0 0 0), by decide +kernel, _, rfl, _, rfl, by decide +kernel⟩,
    ⟨mg true 0, { up with xlt := { migs := [mg true 0, mg false 2] } }, by decide +kernel, by decide +kernel, _,
    rfl, _, rfl, by decide +kernel⟩,
    ⟨{ mg false 0 with loc := 6 }, { up with xlt := { migs := [{ mg false 0 with loc := 6 }] } }, by decide +kernel,
    by decide +kernel, _, rfl, _, rfl, by decide +kernel, by decide +kernel⟩,
    ⟨{ mg false 0 with addr := 0 }, { up with xlt := { migs := [{ mg false 0 with addr := 0 }] } },
    by decide +kernel, by decide +kernel, _, rfl, _, rfl, _, rfl, _, rfl, by decide +kernel, by decide +kernel,
    by decide +kernel⟩,
    ⟨mg true 0, { up with xlt := { migs := [mg true 0] } }, by decide +kernel, by decide +kernel, _, rfl, _, rfl, _,
    rfl, _, rfl, by decide +kernel, by decide +kernel, by decide +kernel⟩,
    ⟨mg false 0, { up with xlt := { migs := [mg false 0] } }, by decide +kernel, by decide +kernel, _, rfl, _, rfl,
    _, rfl, _, rfl, by decide +kernel, by decide +kernel, by decide +kernel⟩,
    ⟨0, 2, 0, mg false 2,
    { up with xlt := { migs := [mg false 2] }, pcx := { ports := [(5, { unconf := [{ what := .mover 0 0, write := { target := 5, addr := 0x100, bytes := [1] } }] })] } },
    by decide +kernel, by decide +kernel, by decide +kernel⟩,
    ⟨0, 2, 0, mg true 2, { up with xlt := { migs := [mg true 2] } }, by decide +kernel, by decide +kernel,
    by decide +kernel, by decide +kernel⟩,
    ⟨0, 2, 0, mg false 2, { up with xlt := { migs := [mg false 2] }, mov := { stopped := true } },
    by decide +kernel, by decide +kernel, by decide +kernel, by decide +kernel, by decide +kernel⟩,
    ⟨0, 2, 0, mg false 2, { up with xlt := { migs := [mg false 2] } }, by decide +kernel, by decide +kernel, 24,
    by decide +kernel, by decide +kernel, by decide +kernel, by decide +kernel⟩,
    ⟨0, 3, 0, { mg false 4 with asked := true, seg := 3 },
    { upF (fun z => { z with xlt := { z.xlt with segs := [(3, { seg5 with pin := false, limit := 15 })] } }) with xlt := { migs := [{ mg false 4 with asked := true, seg := 3 }] } },
    by decide +kernel, by decide +kernel, _, rfl, _, rfl, by decide +kernel, by decide +kernel⟩,
    ⟨0, 2, 0, { mg false 4 with asked := true },
    { up with xlt := { migs := [{ mg false 4 with asked := true }] }, memc := { up.memc with poisoned := [0] } },
    by decide +kernel, by decide +kernel, _, rfl, _, rfl, .line 0 0 false, by decide +kernel, by decide +kernel⟩,
    ⟨0, 2, 0, mg false 4, { up with xlt := { migs := [mg false 4] } }, by decide +kernel, by decide +kernel,
    by decide +kernel⟩,
    ⟨{ up with memc := { up.memc with copying := true } }, by decide +kernel, by decide +kernel⟩,
    ⟨1, 0, 3, { up with memc := { up.memc with fenced := some 3, unfencing := some (1, 0) } }, by decide +kernel,
    by decide +kernel, by decide +kernel⟩⟩

theorem wit_PortsGoDownComeUpAndReleaseWork :
    (∃ p : Nat, ∃ h : Bool, ∃ s : State, ((h = false ∨ bifurcated s p)) ∧ ∃ k, k = (portKey p h) ∧ ((getP s k).up)) ∧
    (∃ p : Nat, ∃ h : Bool, ∃ s : State, ((h = false ∨ bifurcated s p)) ∧ ∃ k, k = (portKey p h) ∧ ((getP s k).up)) ∧
    (∃ p : Nat, ∃ h : Bool, ∃ s : State, ((h = false ∨ bifurcated s p)) ∧ ∃ k, k = (portKey p h) ∧ (k ≠ 0) ∧ ((getP s
    k).up = false)) ∧
    (∃ p : Nat, ∃ h : Bool, ∃ s : State, ((h = false ∨ bifurcated s p)) ∧ ∃ k, k = (portKey p h) ∧ (k ≠ 0) ∧ ((getP s
    k).up = false)) ∧
    (∃ p : Nat, ∃ s : State, (bifurcated s p = false)) ∧
    (∃ s : State, ((getP s 0).up = false)) ∧
    (∃ p : Nat, ∃ h : Bool, ∃ s : State, ((getP s (portKey p h)).up)) ∧
    (∃ p : Nat, ∃ h : Bool, ∃ s : State, ((getP s (portKey p h)).up)) ∧
    (∃ p : Nat, ∃ h : Bool, ∃ s : State, ((getP s (portKey p h)).up = false)) ∧
    (∃ f : Nat, ∃ s : State, (running s) ∧ ((getF s f).st ≠ .off)) ∧
    (∃ f : Nat, ∃ s : State, (running s) ∧ ((getF s f).st = .off)) ∧
    (∃ p : Nat, ∃ s : State, (running s) ∧ (1 ≤ p) ∧ (p ≤ 4)) ∧
    (∃ p : Nat, ∃ s : State, (running s) ∧ (1 ≤ p) ∧ (p ≤ 4)) ∧
    (∃ k : Nat, ∃ s : State, (running s) ∧ (k < 4) ∧ (bifurcated s (k + 1))) ∧
    (∃ f : Nat, ∃ s : State, (running s) ∧ (f ≠ 0)) ∧
    (∃ s : State, (running s)) ∧
    (∃ s : State, (running s)) ∧
    (∃ s : State, (running s)) :=
  ⟨⟨4, false, modP 4 (fun p => { p with up := true }) (up), by decide +kernel, _, rfl, by decide +kernel⟩,
    ⟨4, true, modP 8 (fun p => { p with up := true }) ({ up with regs := [(0xF480, 0x10)] }), by decide +kernel, _,
    rfl, by decide +kernel⟩,
    ⟨4, false, up, by decide +kernel, _, rfl, by decide +kernel, by decide +kernel⟩,
    ⟨4, true, { up with regs := [(0xF480, 0x10)] }, by decide +kernel, _, rfl, by decide +kernel, by decide +kernel⟩,
    ⟨4, up, by decide +kernel⟩,
    ⟨up, by decide +kernel⟩,
    ⟨4, false, modP 4 (fun p => { p with up := true }) (up), by decide +kernel⟩,
    ⟨0, false, modP 0 (fun p => { p with up := true }) (up), by decide +kernel⟩,
    ⟨4, false, up, by decide +kernel⟩,
    ⟨0, up, by decide +kernel, by decide +kernel⟩,
    ⟨63, up, by decide +kernel, by decide +kernel⟩,
    ⟨1, up, by decide +kernel, by decide +kernel, by decide +kernel⟩,
    ⟨4, up, by decide +kernel, by decide +kernel, by decide +kernel⟩,
    ⟨3, { up with regs := [(0xF480, 0x10)] }, by decide +kernel, by decide +kernel, by decide +kernel⟩,
    ⟨1, up, by decide +kernel, by decide +kernel⟩,
    ⟨up, by decide +kernel⟩,
    ⟨up, by decide +kernel⟩,
    ⟨up, by decide +kernel⟩⟩

theorem wit_TheSwitchForwardsAndTheWindowWrites :
    (∃ b : Nat, ∃ s : State, (b ∈ bridgesHere s)) ∧
    (∃ b : Nat, ∃ s : State, (b ∈ bridgesHere s)) ∧
    (∃ b : Nat, ∃ s : State, (b ∉ bridgesHere s)) ∧
    (∃ p : Nat, ∃ bus : Nat, ∃ h : Bool, ∃ tr : Bool, ∃ a : U64, ∃ b : Option Nat, ∃ s : State, ((getP s (portKey p
    h)).up) ∧ (forwards s) ∧ ∃ x, x = (acsTarget s p h bus tr (peerTarget s p a b)) ∧ ∃ p' : Nat, ∃ h' : Bool,
    (x = .out p' h') ∧ ((p', h') ≠ (p, h)) ∧ ((getP s (portKey p' h')).up)) ∧
    (∃ p : Nat, ∃ bus : Nat, ∃ h : Bool, ∃ tr : Bool, ∃ a : U64, ∃ b : Option Nat, ∃ s : State, ((getP s (portKey p
    h)).up) ∧ (forwards s) ∧ ∃ x, x = (acsTarget s p h bus tr (peerTarget s p a b)) ∧ ∃ p' : Nat, ∃ h' : Bool,
    (x = .out p' h') ∧ ((p', h') ≠ (p, h)) ∧ ((getP s (portKey p' h')).up)) ∧
    (∃ p : Nat, ∃ bus : Nat, ∃ h : Bool, ∃ tr : Bool, ∃ a : U64, ∃ b : Option Nat, ∃ s : State, ((getP s (portKey p
    h)).up) ∧ (forwards s) ∧ ∃ x, x = (acsTarget s p h bus tr (peerTarget s p a b)) ∧ ∃ p' : Nat, ∃ h' : Bool,
    (x = .out p' h') ∧ ((p', h') ≠ (p, h)) ∧ ((getP s (portKey p' h')).up)) ∧
    (∃ p : Nat, ∃ bus : Nat, ∃ h : Bool, ∃ tr : Bool, ∃ a : U64, ∃ b : Option Nat, ∃ s : State, ((getP s (portKey p
    h)).up) ∧ (forwards s) ∧ ∃ x, x = (acsTarget s p h bus tr (peerTarget s p a b)) ∧ ∃ p' : Nat, ∃ h' : Bool,
    (x = .out p' h') ∧ ((p', h') = (p, h) ∨ (getP s (portKey p' h')).up = false)) ∧
    (∃ p : Nat, ∃ bus : Nat, ∃ h : Bool, ∃ tr : Bool, ∃ a : U64, ∃ b : Option Nat, ∃ s : State, ((getP s (portKey p
    h)).up) ∧ (forwards s) ∧ ∃ x, x = (acsTarget s p h bus tr (peerTarget s p a b)) ∧ ∃ p' : Nat, ∃ h' : Bool,
    (x = .out p' h') ∧ ((p', h') = (p, h) ∨ (getP s (portKey p' h')).up = false)) ∧
    (∃ p : Nat, ∃ bus : Nat, ∃ h : Bool, ∃ tr : Bool, ∃ a : U64, ∃ b : Option Nat, ∃ s : State, ((getP s (portKey p
    h)).up) ∧ (forwards s) ∧ ∃ x, x = (acsTarget s p h bus tr (peerTarget s p a b)) ∧ (x = .endpoint)) ∧
    (∃ p : Nat, ∃ bus : Nat, ∃ h : Bool, ∃ tr : Bool, ∃ a : U64, ∃ b : Option Nat, ∃ s : State, ((getP s (portKey p
    h)).up) ∧ (forwards s) ∧ ∃ x, x = (acsTarget s p h bus tr (peerTarget s p a b)) ∧ (x = .none)) ∧
    (∃ p : Nat, ∃ h : Bool, ∃ s : State, ((getP s (portKey p h)).up = false ∨ forwards s = false)) ∧
    (∃ off : Nat, ∃ bs : Bytes, ∃ s : State, (running s) ∧ ∃ x : Nat × Byte, ∃ r : List (Nat × Byte), (off <
    0x4000000) ∧ (windowBytes s ((reg s 0xF4B0).toNat + off) bs = x :: r)) ∧
    (∃ off : Nat, ∃ bs : Bytes, ∃ s : State, (running s) ∧ ∃ x : Nat × Byte, ∃ r : List (Nat × Byte), (off <
    0x4000000) ∧ (windowBytes s ((reg s 0xF4B0).toNat + off) bs = x :: r)) ∧
    (∃ off : Nat, ∃ bs : Bytes, ∃ s : State, (running s) ∧ (off < 0x4000000) ∧ (windowBytes s ((reg s 0xF4B0).toNat +
    off) bs = [])) ∧
    (∃ off : Nat, ∃ s : State, (running s) ∧ (0x4000000 ≤ off)) ∧
    (∃ s : State, (running s)) ∧
    (∃ off : Nat, ∃ s : State, (running s) ∧ ∃ a : Nat, ∃ o : Nat, (agentReach s a off = some (.own o))) ∧
    (∃ off : Nat, ∃ s : State, (running s) ∧ ∃ a : Nat, ((∀ o, agentReach s a off ≠ some (.own o)))) ∧
    (∃ p : Nat, ∃ h : Bool, ∃ k : Nat, ∃ w : ReadKind, ∃ s : State, (running s) ∧ (mayFail s p h k w)) ∧
    (∃ p : Nat, ∃ h : Bool, ∃ k : Nat, ∃ w : ReadKind, ∃ s : State, (running s) ∧ (mayFail s p h k w = false)) ∧
    (∃ p : Nat, ∃ h : Bool, ∃ t : U64, ∃ s : State, (running s) ∧ ((getP s (portKey p h)).flushFailAt = some t)) ∧
    (∃ r : ConfigReg, (r ≠ .busNumbers) ∧ (r ≠ .window)) ∧
    (∃ r : ConfigReg, ((∀ k, r ≠ .bar k))) ∧
    (∃ r : ConfigReg, ((∀ k, r ≠ .bar k)) ∧ (r ≠ .vfEnable)) :=
  ⟨⟨6, up, by decide +kernel⟩,
    ⟨7, { up with regs := [(0xF480, 0x10)] }, by decide +kernel⟩,
    ⟨7, up, by decide +kernel⟩,
    ⟨1, 0, false, false, 0x2000, none,
    { up with pcx := { ports := [(0, { up := true }), (1, { up := true }), (2, { up := true })], bridges := [(0, { lo := 0x1000, hi := 0x1FFF }), (2, { lo := 0x2000, hi := 0x2FFF }), (4, { lo := 0x3000, hi := 0x3FFF })], bars := [0x800000, 0, 0] } },
    by decide +kernel, by decide +kernel, _, rfl, 2, false, by decide +kernel, by decide +kernel,
    by decide +kernel⟩,
    ⟨1, 0, false, false, 0x9000, none,
    { up with pcx := { ports := [(0, { up := true }), (1, { up := true }), (2, { up := true })], bridges := [(0, { lo := 0x1000, hi := 0x1FFF }), (2, { lo := 0x2000, hi := 0x2FFF }), (4, { lo := 0x3000, hi := 0x3FFF })], bars := [0x800000, 0, 0] } },
    by decide +kernel, by decide +kernel, _, rfl, 0, false, by decide +kernel, by decide +kernel,
    by decide +kernel⟩,
    ⟨0, 0, false, false, 0x1FFF, none,
    { up with pcx := { ports := [(0, { up := true }), (1, { up := true }), (2, { up := true })], bridges := [(0, { lo := 0x1000, hi := 0x1FFF }), (2, { lo := 0x2000, hi := 0x2FFF }), (4, { lo := 0x3000, hi := 0x3FFF })], bars := [0x800000, 0, 0] } },
    by decide +kernel, by decide +kernel, _, rfl, 1, false, by decide +kernel, by decide +kernel,
    by decide +kernel⟩,
    ⟨1, 0, false, false, 0x3000, none,
    { up with pcx := { ports := [(0, { up := true }), (1, { up := true }), (2, { up := true })], bridges := [(0, { lo := 0x1000, hi := 0x1FFF }), (2, { lo := 0x2000, hi := 0x2FFF }), (4, { lo := 0x3000, hi := 0x3FFF })], bars := [0x800000, 0, 0] } },
    by decide +kernel, by decide +kernel, _, rfl, 3, false, by decide +kernel, by decide +kernel⟩,
    ⟨0, 0, false, false, 0x3000, none,
    { up with pcx := { ports := [(0, { up := true }), (1, { up := true }), (2, { up := true })], bridges := [(0, { lo := 0x1000, hi := 0x1FFF }), (2, { lo := 0x2000, hi := 0x2FFF }), (4, { lo := 0x3000, hi := 0x3FFF })], bars := [0x800000, 0, 0] } },
    by decide +kernel, by decide +kernel, _, rfl, 3, false, by decide +kernel, by decide +kernel⟩,
    ⟨1, 0, false, false, 0x800000, none,
    { up with pcx := { ports := [(0, { up := true }), (1, { up := true }), (2, { up := true })], bridges := [(0, { lo := 0x1000, hi := 0x1FFF }), (2, { lo := 0x2000, hi := 0x2FFF }), (4, { lo := 0x3000, hi := 0x3FFF })], bars := [0x800000, 0, 0] } },
    by decide +kernel, by decide +kernel, _, rfl, by decide +kernel⟩,
    ⟨0, 0, false, false, 0x9000, none,
    { up with pcx := { ports := [(0, { up := true }), (1, { up := true }), (2, { up := true })], bridges := [(0, { lo := 0x1000, hi := 0x1FFF }), (2, { lo := 0x2000, hi := 0x2FFF }), (4, { lo := 0x3000, hi := 0x3FFF })], bars := [0x800000, 0, 0] } },
    by decide +kernel, by decide +kernel, _, rfl, by decide +kernel⟩,
    ⟨3, false,
    { up with pcx := { ports := [(0, { up := true }), (1, { up := true }), (2, { up := true })], bridges := [(0, { lo := 0x1000, hi := 0x1FFF }), (2, { lo := 0x2000, hi := 0x2FFF }), (4, { lo := 0x3000, hi := 0x3FFF })], bars := [0x800000, 0, 0] } },
    by decide +kernel⟩,
    ⟨0, [7],
    { up with memc := { up.memc with regions := [0, 0, 0, 0, 0, 0x1000], visible := 0x2000 }, regs := [(0xF4B0, 0x1000)] },
    by decide +kernel, (0x1000, 7), [], by decide +kernel, by decide +kernel⟩,
    ⟨0, [6, 7],
    { up with memc := { up.memc with regions := [0, 0, 0, 0, 0, 0x1000], visible := 0x2000 }, regs := [(0xF4B0, 0xFFF)] },
    by decide +kernel, (0x1000, 7), [], by decide +kernel, by decide +kernel⟩,
    ⟨0, [7],
    { up with memc := { up.memc with regions := [0, 0, 0, 0, 0, 0x1000], visible := 0x2000 }, regs := [(0xF4B0, 0x2000)] },
    by decide +kernel, by decide +kernel, by decide +kernel⟩,
    ⟨0x4000000, up, by decide +kernel, by decide +kernel⟩,
    ⟨up, by decide +kernel⟩,
    ⟨0x80000000,
    { up with boot := { up.boot with agents := [(0, { st := 1, entry := { (default : AgentEntry) with memMib := 1 } })] } },
    by decide +kernel, 0, 0, by decide +kernel⟩,
    ⟨0x80100000,
    { up with boot := { up.boot with agents := [(0, { st := 1, entry := { (default : AgentEntry) with memMib := 1 } })] } },
    by decide +kernel, 0, by (intro o; rw [show agentReach _ _ _ = none by decide +kernel]; simp)⟩,
    ⟨1, false, 0, .desc 0 1, up, by decide +kernel, by decide +kernel⟩,
    ⟨1, false, 4, .source 3 0, up, by decide +kernel, by decide +kernel⟩,
    ⟨1, false, 0, modP 1 (fun p => { p with flushFailAt := some 0 }) up, by decide +kernel, by decide +kernel⟩,
    ⟨.acs, by decide +kernel, by decide +kernel⟩,
    ⟨.vfEnable, by (intro k; simp)⟩,
    ⟨.window, by (intro k; simp), by decide +kernel⟩⟩

theorem wit_MoverCommandsComplete :
    (∃ f : Nat, ∃ q : Nat, ∃ i : Item, ∃ s : State, (ready s f q 0x20 = some i) ∧ ∃ t, t = (startItem f q i.idx s) ∧
    (moveCheck t f i.desc = none)) ∧
    (∃ f : Nat, ∃ q : Nat, ∃ i : Item, ∃ s : State, (ready s f q 0x20 = some i) ∧ ∃ t, t = (startItem f q i.idx s) ∧
    ∃ st : Status, (moveCheck t f i.desc = some st)) ∧
    (∃ w : MoveWait, ∃ c : Nat, ∃ s : State, (running s) ∧ (s.mov.stopped = false) ∧ (nextMove s = some w) ∧
    (freeChan s 0 24 = some c)) ∧
    (∃ s : State, (s.mov.stopped ∨ nextMove s = none ∨ freeChan s 0 24 = none)) ∧
    (∃ s : State, (s.mov.stopped ∨ nextMove s = none ∨ freeChan s 0 24 = none)) ∧
    (∃ n : Nat, ∃ rising : Bool, ∃ s : State, (running s) ∧ ∃ pin : DmaPin, pin = (aget {} n s.mov.pins) ∧ (n < 8) ∧
    (pin.en) ∧ (rising = !pin.falling)) ∧
    (∃ n : Nat, ∃ rising : Bool, ∃ s : State, (running s) ∧ ∃ pin : DmaPin, pin = (aget {} n s.mov.pins) ∧ (n < 8) ∧
    (pin.en) ∧ (rising = !pin.falling)) ∧
    (∃ n : Nat, ∃ rising : Bool, ∃ s : State, (running s) ∧ ∃ pin : DmaPin, pin = (aget {} n s.mov.pins) ∧ (8 ≤ n ∨
    pin.en = false ∨ rising = pin.falling)) ∧
    (∃ n : Nat, ∃ rising : Bool, ∃ s : State, (running s) ∧ ∃ pin : DmaPin, pin = (aget {} n s.mov.pins) ∧ (8 ≤ n ∨
    pin.en = false ∨ rising = pin.falling)) ∧
    (∃ n : Nat, ∃ rising : Bool, ∃ s : State, (running s) ∧ ∃ pin : DmaPin, pin = (aget {} n s.mov.pins) ∧ (8 ≤ n ∨
    pin.en = false ∨ rising = pin.falling)) ∧
    (∃ f : Nat, ∃ s : State, (running s) ∧ (facetOn s f)) ∧
    (∃ f : Nat, ∃ s : State, (running s) ∧ (facetOn s f)) ∧
    (∃ s : State, (running s)) ∧
    (∃ s : State, (running s)) ∧
    (∃ s : State, (running s) ∧ (s.mov.stopped) ∧ (s.mov.errAt ≠ some s.now) ∧ (errorNow s = none)) ∧
    (∃ s : State, (running s) ∧ (s.mov.stopped)) ∧
    (∃ f : Nat, ∃ s : State, (f ≠ 0 ∨ s.mov.stopped = false)) ∧
    (∃ f : Nat, ∃ s : State, (f ≠ 0 ∨ s.mov.stopped = false)) :=
  ⟨⟨0, 1, { idx := 0, desc := mvD }, upD mvD, by decide +kernel, _, rfl, by decide +kernel⟩,
    ⟨0, 1, { idx := 0, desc := dsc 0x20 0 0 0 0 0 0 }, upD (dsc 0x20 0 0 0 0 0 0), by decide +kernel, _, rfl, stOk,
    by decide +kernel⟩,
    ⟨{ f := 0, q := 1, idx := 0, desc := mvD }, 0,
    { up with mov := { waiting := [{ f := 0, q := 1, idx := 0, desc := mvD }] } }, by decide +kernel,
    by decide +kernel, by decide +kernel, by decide +kernel⟩,
    ⟨up, by decide +kernel⟩,
    ⟨{ up with mov := { stopped := true } }, by decide +kernel⟩,
    ⟨7, true, { up with mov := { pins := [(7, { en := true })] } }, by decide +kernel, _, rfl, by decide +kernel,
    by decide +kernel, by decide +kernel⟩,
    ⟨0, false, { up with mov := { pins := [(0, { en := true, falling := true })] } }, by decide +kernel, _, rfl,
    by decide +kernel, by decide +kernel, by decide +kernel⟩,
    ⟨8, true, up, by decide +kernel, _, rfl, by decide +kernel⟩,
    ⟨7, true, up, by decide +kernel, _, rfl, by decide +kernel⟩,
    ⟨7, false, { up with mov := { pins := [(7, { en := true })] } }, by decide +kernel, _, rfl, by decide +kernel⟩,
    ⟨0, up, by decide +kernel, by decide +kernel⟩,
    ⟨0, up, by decide +kernel, by decide +kernel⟩,
    ⟨up, by decide +kernel⟩,
    ⟨up, by decide +kernel⟩,
    ⟨{ up with mov := { stopped := true } }, by decide +kernel, by decide +kernel, by decide +kernel,
    by decide +kernel⟩,
    ⟨{ up with mov := { stopped := true } }, by decide +kernel, by decide +kernel⟩,
    ⟨1, up, by decide +kernel⟩,
    ⟨0, up, by decide +kernel⟩⟩

theorem wit_FacetCommandsComplete :
    (∃ f : Nat, ∃ q : Nat, ∃ i : Item, ∃ s : State, (ready s f q 0x35 = some i) ∧ (descHurt s f q = none) ∧ ∃ seg,
    seg = (fld i.desc.w3 7 0) ∧ (rangeCheck s 0 seg i.desc.w4 128 .lrd none = false)) ∧
    (∃ f : Nat, ∃ q : Nat, ∃ rec : List U64, ∃ i : Item, ∃ s : State, (ready s f q 0x35 = some i) ∧ (descHurt s f q =
    none) ∧ ∃ seg, seg = (fld i.desc.w3 7 0) ∧ ∃ g, g = (fld i.desc.w2 6 0) ∧ ∃ r, r = (transRanges (.desc q) 0
    false (resizeSpan i.desc) s) ∧ ∃ x, x = (readAll none 0 r.2.fresh r.1) ∧ ∃ t, t = (startItem f q i.idx x) ∧
    ∃ w, w = (wordsAt t 0 seg i.desc.w4 16 rec) ∧ (rangeCheck s 0 seg i.desc.w4 128 .lrd none) ∧ (streamBusy s
    (.desc q) = false) ∧ (placesReleased s 0 r.2.places) ∧ (r.2.full) ∧ (ready x f q 0x35 = some i) ∧
    (rangeCheck t 0 seg i.desc.w4 128 .lrd none) ∧ (resizeCheck t g w = none)) ∧
    (∃ f : Nat, ∃ q : Nat, ∃ rec : List U64, ∃ i : Item, ∃ s : State, (ready s f q 0x35 = some i) ∧ (descHurt s f q =
    none) ∧ ∃ seg, seg = (fld i.desc.w3 7 0) ∧ ∃ g, g = (fld i.desc.w2 6 0) ∧ ∃ r, r = (transRanges (.desc q) 0
    false (resizeSpan i.desc) s) ∧ ∃ x, x = (readAll none 0 r.2.fresh r.1) ∧ ∃ t, t = (startItem f q i.idx x) ∧
    ∃ w, w = (wordsAt t 0 seg i.desc.w4 16 rec) ∧ (rangeCheck s 0 seg i.desc.w4 128 .lrd none) ∧ (streamBusy s
    (.desc q) = false) ∧ (placesReleased s 0 r.2.places) ∧ (r.2.full) ∧ (ready x f q 0x35 = some i) ∧
    (rangeCheck t 0 seg i.desc.w4 128 .lrd none) ∧ ∃ st : Status, (resizeCheck t g w = some st)) ∧
    (∃ f : Nat, ∃ q : Nat, ∃ i : Item, ∃ s : State, (ready s f q 0x36 = some i) ∧ ∃ g, g = (fld i.desc.w2 6 0) ∧ (g =
    0)) ∧
    (∃ f : Nat, ∃ q : Nat, ∃ i : Item, ∃ s : State, (ready s f q 0x36 = some i) ∧ ∃ g, g = (fld i.desc.w2 6 0) ∧ ∃ t,
    t = (startItem f q i.idx s) ∧ (g ≠ 0) ∧ ((getF t g).st = .off)) ∧
    (∃ f : Nat, ∃ q : Nat, ∃ i : Item, ∃ s : State, (ready s f q 0x36 = some i) ∧ ∃ g, g = (fld i.desc.w2 6 0) ∧ ∃ t,
    t = (startItem f q i.idx s) ∧ (g ≠ 0) ∧ ((getF t g).st = .on)) ∧
    (∃ f : Nat, ∃ q : Nat, ∃ i : Item, ∃ s : State, (ready s f q 0x36 = some i) ∧ ∃ g, g = (fld i.desc.w2 6 0) ∧ ∃ t,
    t = (startItem f q i.idx s) ∧ (g ≠ 0) ∧ ((getF t g).st = .on)) ∧
    (∃ f : Nat, ∃ q : Nat, ∃ i : Item, ∃ s : State, (ready s f q 0x36 = some i) ∧ ∃ g, g = (fld i.desc.w2 6 0) ∧ ∃ t,
    t = (startItem f q i.idx s) ∧ (g ≠ 0) ∧ ((getF t g).st = .resetting)) ∧
    (∃ f : Nat, ∃ q : Nat, ∃ i : Item, ∃ s : State, (ready s f q 0x36 = some i) ∧ ∃ g, g = (fld i.desc.w2 6 0) ∧ ∃ t,
    t = (startItem f q i.idx s) ∧ (g ≠ 0) ∧ ((getF t g).st = .resetting)) ∧
    (∃ f : Nat, ∃ s : State, (running s) ∧ ((getF s f).st = .resetting) ∧ (resetStepEnded s f)) ∧
    (∃ f : Nat, ∃ s : State, (running s) ∧ ((getF s f).st = .resetting) ∧ (resetStepEnded s f)) ∧
    (∃ f : Nat, ∃ s : State, (running s) ∧ ((getF s f).st = .resetting) ∧ (resetStepEnded s f = false)) ∧
    (∃ f : Nat, ∃ s : State, (running s) ∧ ((getF s f).st = .resetting) ∧ (resetStepEnded s f = false)) ∧
    (∃ f : Nat, ∃ s : State, (running s) ∧ ((getF s f).st ≠ .resetting)) ∧
    (∃ s : State, (running s)) ∧
    (∃ s : State, (running s)) ∧
    (∃ s : State, (running s)) :=
  ⟨⟨0, 1, { idx := 0, desc := dsc 0x35 1 9 0x1000 0 0 0 }, upD (dsc 0x35 1 9 0x1000 0 0 0), by decide +kernel,
    by decide +kernel, _, rfl, by decide +kernel⟩,
    ⟨0, 1, List.replicate 16 0, { idx := 0, desc := dsc 0x35 1 1 0x1000 0 0 0 },
    { upD (dsc 0x35 1 1 0x1000 0 0 0) with mem := [(0x1051, 0xF0), (0x1052, 0xFF), (0x1053, 0xFF), (0x1054, 0xFF), (0x1055, 0xFF), (0x1056, 0xFF), (0x1057, 0xFF)] },
    by decide +kernel, by decide +kernel, _, rfl, _, rfl, _, rfl, _, rfl, _, rfl, _, rfl, by decide +kernel,
    by decide +kernel, by decide +kernel, by decide +kernel, by decide +kernel, by decide +kernel,
    by decide +kernel⟩,
    ⟨0, 1, List.replicate 16 0, { idx := 0, desc := dsc 0x35 1 1 0x1000 0 0 0 },
    { upD (dsc 0x35 1 1 0x1000 0 0 0) with mem := [(0x1000, 1), (0x1001, 1)] }, by decide +kernel,
    by decide +kernel, _, rfl, _, rfl, _, rfl, _, rfl, _, rfl, _, rfl, by decide +kernel, by decide +kernel,
    by decide +kernel, by decide +kernel, by decide +kernel, by decide +kernel, statD cBAD_FIELD 1024,
    by decide +kernel⟩,
    ⟨0, 1, { idx := 0, desc := dsc 0x36 0 0 0 0 0 0 }, upD (dsc 0x36 0 0 0 0 0 0), by decide +kernel, _, rfl,
    by decide +kernel⟩,
    ⟨0, 1, { idx := 0, desc := dsc 0x36 1 0 0 0 0 0 }, upD (dsc 0x36 1 0 0 0 0 0), by decide +kernel, _, rfl, _,
    rfl, by decide +kernel, by decide +kernel⟩,
    ⟨0, 1, { idx := 0, desc := dsc 0x36 1 0 0 0 0 0 }, modF 1 (fun z => { z with st := .on })
    (upD (dsc 0x36 1 0 0 0 0 0)), by decide +kernel, _, rfl, _, rfl, by decide +kernel, by decide +kernel⟩,
    ⟨0, 1, { idx := 0, desc := dsc 0x36 0xFF 0 0 0 0 0 }, modF 127 (fun z => { z with st := .on })
    (upD (dsc 0x36 0xFF 0 0 0 0 0)), by decide +kernel, _, rfl, _, rfl, by decide +kernel, by decide +kernel⟩,
    ⟨0, 1, { idx := 0, desc := dsc 0x36 1 0 0 0 0 0 }, modF 1 (fun z => { z with st := .resetting })
    (upD (dsc 0x36 1 0 0 0 0 0)), by decide +kernel, _, rfl, _, rfl, by decide +kernel, by decide +kernel⟩,
    ⟨0, 1, { idx := 0, desc := dsc 0x36 0xFF 0 0 0 0 0 }, modF 127 (fun z => { z with st := .resetting })
    (upD (dsc 0x36 0xFF 0 0 0 0 0)), by decide +kernel, _, rfl, _, rfl, by decide +kernel, by decide +kernel⟩,
    ⟨1, modF 1 (fun z => { z with st := .resetting, rstep := 2 }) up, by decide +kernel, by decide +kernel,
    by decide +kernel⟩,
    ⟨1, modF 1 (fun z => { z with st := .resetting, rstep := 6 }) up, by decide +kernel, by decide +kernel,
    by decide +kernel⟩,
    ⟨1, modF 1 (fun z => { z with st := .resetting, rstep := 2, que := { z.que with sqs := [(1, qa)] } }) up,
    by decide +kernel, by decide +kernel, by decide +kernel⟩,
    ⟨1, withQp { qn with facet := 1 } (modF 1 (fun z => { z with st := .resetting, rstep := 3 }) up),
    by decide +kernel, by decide +kernel, by decide +kernel⟩,
    ⟨0, up, by decide +kernel, by decide +kernel⟩,
    ⟨up, by decide +kernel⟩,
    ⟨up, by decide +kernel⟩,
    ⟨modF 1 (fun z => { z with st := .on }) up, by decide +kernel⟩⟩

theorem wit_KeyCommandsSetSwitchAndQuery :
    (∃ f : Nat, ∃ s : State, (running s) ∧ (hasCip s) ∧ (facetOn s f) ∧ ((getF s f).cip.keyOp = 0) ∧ (keyAway s f =
    false) ∧ ∃ x, x = ((getF s f).cip) ∧ (ktKind x = 2) ∧ (slotUsed x = false)) ∧
    (∃ f : Nat, ∃ s : State, (running s) ∧ (hasCip s) ∧ (facetOn s f) ∧ ((getF s f).cip.keyOp = 0) ∧ (keyAway s f =
    false) ∧ ∃ x, x = ((getF s f).cip) ∧ (ktKind x = 2) ∧ (slotUsed x = false)) ∧
    (∃ f : Nat, ∃ s : State, (running s) ∧ (hasCip s) ∧ (facetOn s f) ∧ ((getF s f).cip.keyOp = 0) ∧ (keyAway s f =
    false) ∧ ∃ x, x = ((getF s f).cip) ∧ (ktKind x = 2) ∧ (slotUsed x)) ∧
    (∃ f : Nat, ∃ s : State, (running s) ∧ (hasCip s) ∧ (facetOn s f) ∧ ((getF s f).cip.keyOp = 0) ∧ (keyAway s f =
    false) ∧ ∃ x, x = ((getF s f).cip) ∧ ∃ r, r = (keyQpReason s f x) ∧ (ktKind x = 1) ∧ (r ≠ 0)) ∧
    (∃ f : Nat, ∃ s : State, (running s) ∧ (hasCip s) ∧ (facetOn s f) ∧ ((getF s f).cip.keyOp = 0) ∧ (keyAway s f =
    false) ∧ ∃ x, x = ((getF s f).cip) ∧ ∃ r, r = (keyQpReason s f x) ∧ (ktKind x = 1) ∧ (r ≠ 0)) ∧
    (∃ f : Nat, ∃ s : State, (running s) ∧ (hasCip s) ∧ (facetOn s f) ∧ ((getF s f).cip.keyOp = 0) ∧ (keyAway s f =
    false) ∧ ∃ x, x = ((getF s f).cip) ∧ ∃ r, r = (keyQpReason s f x) ∧ (ktKind x = 1) ∧ (r ≠ 0)) ∧
    (∃ f : Nat, ∃ s : State, (running s) ∧ (hasCip s) ∧ (facetOn s f) ∧ ((getF s f).cip.keyOp = 0) ∧ (keyAway s f =
    false) ∧ ∃ x, x = ((getF s f).cip) ∧ ∃ r, r = (keyQpReason s f x) ∧ (ktKind x = 1) ∧ (r = 0)) ∧
    (∃ f : Nat, ∃ s : State, (running s) ∧ (hasCip s) ∧ (facetOn s f) ∧ ((getF s f).cip.keyOp = 0) ∧ (keyAway s f =
    false) ∧ ∃ x, x = ((getF s f).cip) ∧ ∃ r, r = (keyQpReason s f x) ∧ (ktKind x = 1) ∧ (r = 0)) ∧
    (∃ f : Nat, ∃ s : State, (running s) ∧ (hasCip s) ∧ (facetOn s f) ∧ ((getF s f).cip.keyOp = 0) ∧ (keyAway s f =
    false) ∧ ∃ x, x = ((getF s f).cip) ∧ ∃ r, r = (keyQpReason s f x) ∧ (ktKind x = 1) ∧ (r = 0)) ∧
    (∃ f : Nat, ∃ s : State, (running s) ∧ (hasCip s) ∧ (facetOn s f) ∧ ((getF s f).cip.keyOp = 0) ∧ (keyAway s f =
    false) ∧ ∃ x, x = ((getF s f).cip) ∧ (ktKind x ≠ 1)) ∧
    (∃ f : Nat, ∃ s : State, (running s) ∧ (hasCip s) ∧ (facetOn s f) ∧ ((getF s f).cip.keyOp = 0) ∧ (keyAway s f =
    false) ∧ ∃ x, x = ((getF s f).cip) ∧ (ktKind x ≠ 1) ∧ (ktKind x ≠ 2)) ∧
    (∃ f : Nat, ∃ s : State, (running s) ∧ (hasCip s) ∧ (facetOn s f) ∧ ((getF s f).cip.keyOp = 0) ∧ (keyAway s f =
    false) ∧ ∃ x, x = ((getF s f).cip) ∧ (ktKind x ≠ 1) ∧ (ktKind x ≠ 2)) ∧
    (∃ f : Nat, ∃ s : State, (running s) ∧ (hasCip s) ∧ (facetOn s f) ∧ ((getF s f).cip.keyOp = 0) ∧ (keyAway s f =
    false) ∧ ∃ x, x = ((getF s f).cip) ∧ ∃ n, n = (ktQpn x) ∧ (ktKind x = 1) ∧ ((getQp s n).st = .free ∨ (getQp
    s n).facet ≠ f)) ∧
    (∃ f : Nat, ∃ s : State, (running s) ∧ (hasCip s) ∧ (facetOn s f) ∧ ((getF s f).cip.keyOp = 0) ∧ (keyAway s f =
    false) ∧ ∃ x, x = ((getF s f).cip) ∧ ∃ n, n = (ktQpn x) ∧ (ktKind x = 1) ∧ ((getQp s n).st = .free ∨ (getQp
    s n).facet ≠ f)) ∧
    (∃ f : Nat, ∃ s : State, (running s) ∧ (hasCip s) ∧ (facetOn s f) ∧ ((getF s f).cip.keyOp = 0) ∧ (keyAway s f =
    false) ∧ ∃ x, x = ((getF s f).cip) ∧ ∃ n, n = (ktQpn x) ∧ (ktKind x = 2 ∨ (ktKind x = 1 ∧ (getQp s n).st ≠
    .free ∧ (getQp s n).facet = f))) ∧
    (∃ f : Nat, ∃ s : State, (running s) ∧ (hasCip s) ∧ (facetOn s f) ∧ ((getF s f).cip.keyOp = 0) ∧ (keyAway s f =
    false) ∧ ∃ x, x = ((getF s f).cip) ∧ ∃ n, n = (ktQpn x) ∧ (ktKind x = 2 ∨ (ktKind x = 1 ∧ (getQp s n).st ≠
    .free ∧ (getQp s n).facet = f))) ∧
    (∃ f : Nat, ∃ op : Nat, ∃ c : Instr, ∃ s : State, ((c, op) ∈ ([(.cipKeyLoad f, 1), (.cipKeyClear f, 2),
    (.cipKeySwitch f, 3), (.cipKeyQuery f, 4)] : List (Instr × Nat))) ∧ ((getF s f).cip.keyOp ≠ 0)) ∧
    (∃ f : Nat, ∃ op : Nat, ∃ c : Instr, ∃ s : State, ((c, op) ∈ ([(.cipKeyLoad f, 1), (.cipKeyClear f, 2),
    (.cipKeySwitch f, 3), (.cipKeyQuery f, 4)] : List (Instr × Nat))) ∧ ((getF s f).cip.keyOp ≠ 0)) ∧
    (∃ f : Nat, ∃ op : Nat, ∃ c : Instr, ∃ s : State, ((c, op) ∈ ([(.cipKeyLoad f, 1), (.cipKeyClear f, 2),
    (.cipKeySwitch f, 3), (.cipKeyQuery f, 4)] : List (Instr × Nat))) ∧ ((getF s f).cip.keyOp ≠ 0)) ∧
    (∃ f : Nat, ∃ op : Nat, ∃ c : Instr, ∃ s : State, ((c, op) ∈ ([(.cipKeyLoad f, 1), (.cipKeyClear f, 2),
    (.cipKeySwitch f, 3), (.cipKeyQuery f, 4)] : List (Instr × Nat))) ∧ ((getF s f).cip.keyOp ≠ 0)) ∧
    (∃ f : Nat, ∃ op : Nat, ∃ c : Instr, ∃ s : State, ((c, op) ∈ ([(.cipKeyLoad f, 1), (.cipKeyClear f, 2),
    (.cipKeySwitch f, 3), (.cipKeyQuery f, 4)] : List (Instr × Nat))) ∧ (running s) ∧ (hasCip s) ∧ (facetOn s f)
    ∧ ((getF s f).cip.keyOp = 0) ∧ (keyAway s f)) ∧
    (∃ f : Nat, ∃ op : Nat, ∃ c : Instr, ∃ s : State, ((c, op) ∈ ([(.cipKeyLoad f, 1), (.cipKeyClear f, 2),
    (.cipKeySwitch f, 3), (.cipKeyQuery f, 4)] : List (Instr × Nat))) ∧ (running s) ∧ (hasCip s) ∧ (facetOn s f)
    ∧ ((getF s f).cip.keyOp = 0) ∧ (keyAway s f)) ∧
    (∃ f : Nat, ∃ op : Nat, ∃ c : Instr, ∃ s : State, ((c, op) ∈ ([(.cipKeyLoad f, 1), (.cipKeyClear f, 2),
    (.cipKeySwitch f, 3), (.cipKeyQuery f, 4)] : List (Instr × Nat))) ∧ (running s) ∧ (hasCip s) ∧ (facetOn s f)
    ∧ ((getF s f).cip.keyOp = 0) ∧ (keyAway s f)) ∧
    (∃ f : Nat, ∃ op : Nat, ∃ c : Instr, ∃ s : State, ((c, op) ∈ ([(.cipKeyLoad f, 1), (.cipKeyClear f, 2),
    (.cipKeySwitch f, 3), (.cipKeyQuery f, 4)] : List (Instr × Nat))) ∧ (running s) ∧ (hasCip s) ∧ (facetOn s f)
    ∧ ((getF s f).cip.keyOp = 0) ∧ (keyAway s f)) :=
  ⟨⟨0, upF (fun z => { z with cip := { target := 2 } }), by decide +kernel, by decide +kernel, by decide +kernel,
    by decide +kernel, by decide +kernel, _, rfl, by decide +kernel, by decide +kernel⟩,
    ⟨0, upF (fun z => { z with cip := { target := 0x3000002 } }), by decide +kernel, by decide +kernel,
    by decide +kernel, by decide +kernel, by decide +kernel, _, rfl, by decide +kernel, by decide +kernel⟩,
    ⟨0, upF
    (fun z => { z with cip := { target := 0x3000002, run := some { op := 1, pad := 0, slot := 3, len := 16 } } }),
    by decide +kernel, by decide +kernel, by decide +kernel, by decide +kernel, by decide +kernel, _, rfl,
    by decide +kernel, by decide +kernel⟩,
    ⟨0, upF (fun z => { z with cip := { target := 13 } }), by decide +kernel, by decide +kernel, by decide +kernel,
    by decide +kernel, by decide +kernel, _, rfl, _, rfl, by decide +kernel, by decide +kernel⟩,
    ⟨0, withQp qn (upF (fun z => { z with cip := { target := 13 } })), by decide +kernel, by decide +kernel,
    by decide +kernel, by decide +kernel, by decide +kernel, _, rfl, _, rfl, by decide +kernel,
    by decide +kernel⟩,
    ⟨0, withQp { qn with attr := 0x200, st := .error } (upF (fun z => { z with cip := { target := 13 } })),
    by decide +kernel, by decide +kernel, by decide +kernel, by decide +kernel, by decide +kernel, _, rfl, _,
    rfl, by decide +kernel, by decide +kernel⟩,
    ⟨0, withQp { qn with attr := 0x200 } (upF (fun z => { z with cip := { target := 13 } })), by decide +kernel,
    by decide +kernel, by decide +kernel, by decide +kernel, by decide +kernel, _, rfl, _, rfl,
    by decide +kernel, by decide +kernel⟩,
    ⟨0, withQp { qn with attr := 0x200 } (upF (fun z => { z with cip := { target := 0x400000D } })),
    by decide +kernel, by decide +kernel, by decide +kernel, by decide +kernel, by decide +kernel, _, rfl, _,
    rfl, by decide +kernel, by decide +kernel⟩,
    ⟨0, withQp { qn with attr := 0x200, cip := { tx0 := some ⟨false, 0, 0⟩ } }
    (upF (fun z => { z with cip := { target := 0x400000D } })), by decide +kernel, by decide +kernel,
    by decide +kernel, by decide +kernel, by decide +kernel, _, rfl, _, rfl, by decide +kernel,
    by decide +kernel⟩,
    ⟨0, upF (fun z => { z with cip := { target := 2 } }), by decide +kernel, by decide +kernel, by decide +kernel,
    by decide +kernel, by decide +kernel, _, rfl, by decide +kernel⟩,
    ⟨0, upF (fun z => { z with cip := { target := 0 } }), by decide +kernel, by decide +kernel, by decide +kernel,
    by decide +kernel, by decide +kernel, _, rfl, by decide +kernel, by decide +kernel⟩,
    ⟨0, upF (fun z => { z with cip := { target := 3 } }), by decide +kernel, by decide +kernel, by decide +kernel,
    by decide +kernel, by decide +kernel, _, rfl, by decide +kernel, by decide +kernel⟩,
    ⟨0, upF (fun z => { z with cip := { target := 13 } }), by decide +kernel, by decide +kernel, by decide +kernel,
    by decide +kernel, by decide +kernel, _, rfl, _, rfl, by decide +kernel, by decide +kernel⟩,
    ⟨0, withQp { qn with facet := 1 } (upF (fun z => { z with cip := { target := 13 } })), by decide +kernel,
    by decide +kernel, by decide +kernel, by decide +kernel, by decide +kernel, _, rfl, _, rfl,
    by decide +kernel, by decide +kernel⟩,
    ⟨0, upF (fun z => { z with cip := { target := 2 } }), by decide +kernel, by decide +kernel, by decide +kernel,
    by decide +kernel, by decide +kernel, _, rfl, _, rfl, by decide +kernel⟩,
    ⟨0, withQp { qn with attr := 0x200 } (upF (fun z => { z with cip := { target := 13 } })), by decide +kernel,
    by decide +kernel, by decide +kernel, by decide +kernel, by decide +kernel, _, rfl, _, rfl,
    by decide +kernel⟩,
    ⟨0, 1, .cipKeyLoad 0, upF (fun z => { z with cip := { keyOp := 1 } }), by decide +kernel, by decide +kernel⟩,
    ⟨0, 2, .cipKeyClear 0, upF (fun z => { z with cip := { keyOp := 1 } }), by decide +kernel, by decide +kernel⟩,
    ⟨0, 3, .cipKeySwitch 0, upF (fun z => { z with cip := { keyOp := 1 } }), by decide +kernel, by decide +kernel⟩,
    ⟨0, 4, .cipKeyQuery 0, upF (fun z => { z with cip := { keyOp := 1 } }), by decide +kernel, by decide +kernel⟩,
    ⟨0, 1, .cipKeyLoad 0,
    { withQp { qn with attr := 0x200 } (upF (fun z => { z with cip := { target := 13 } })) with zrt := {} },
    by decide +kernel, by decide +kernel, by decide +kernel, by decide +kernel, by decide +kernel,
    by decide +kernel⟩,
    ⟨0, 2, .cipKeyClear 0,
    { withQp { qn with attr := 0x200 } (upF (fun z => { z with cip := { target := 13 } })) with zrt := {} },
    by decide +kernel, by decide +kernel, by decide +kernel, by decide +kernel, by decide +kernel,
    by decide +kernel⟩,
    ⟨0, 3, .cipKeySwitch 0,
    { withQp { qn with attr := 0x200 } (upF (fun z => { z with cip := { target := 13 } })) with zrt := {} },
    by decide +kernel, by decide +kernel, by decide +kernel, by decide +kernel, by decide +kernel,
    by decide +kernel⟩,
    ⟨0, 4, .cipKeyQuery 0,
    { withQp { qn with attr := 0x200 } (upF (fun z => { z with cip := { target := 13 } })) with zrt := {} },
    by decide +kernel, by decide +kernel, by decide +kernel, by decide +kernel, by decide +kernel,
    by decide +kernel⟩⟩

theorem wit_CompatibilityCommandsBeginAndJobsEnd :
    (∃ f : Nat, ∃ op : Nat, ∃ v : U32, ∃ c : Instr, ∃ s : State, ((c, op) ∈ [(Instr.cbcEncrypt f v, 1),
    (Instr.cbcDecrypt f v, 2), (Instr.ctr f v, 3)]) ∧ (running s) ∧ (hasCip s) ∧ (facetOn s f) ∧ ∃ x, x = ((getF
    s f).cip) ∧ (x.cmpBusy)) ∧
    (∃ f : Nat, ∃ op : Nat, ∃ v : U32, ∃ c : Instr, ∃ s : State, ((c, op) ∈ [(Instr.cbcEncrypt f v, 1),
    (Instr.cbcDecrypt f v, 2), (Instr.ctr f v, 3)]) ∧ (running s) ∧ (hasCip s) ∧ (facetOn s f) ∧ ∃ x, x = ((getF
    s f).cip) ∧ (x.cmpBusy)) ∧
    (∃ f : Nat, ∃ op : Nat, ∃ v : U32, ∃ c : Instr, ∃ s : State, ((c, op) ∈ [(Instr.cbcEncrypt f v, 1),
    (Instr.cbcDecrypt f v, 2), (Instr.ctr f v, 3)]) ∧ (running s) ∧ (hasCip s) ∧ (facetOn s f) ∧ ∃ x, x = ((getF
    s f).cip) ∧ (x.cmpBusy)) ∧
    (∃ f : Nat, ∃ op : Nat, ∃ v : U32, ∃ c : Instr, ∃ s : State, ((c, op) ∈ [(Instr.cbcEncrypt f v, 1),
    (Instr.cbcDecrypt f v, 2), (Instr.ctr f v, 3)]) ∧ (running s) ∧ (hasCip s) ∧ (facetOn s f) ∧ ∃ x, x = ((getF
    s f).cip) ∧ (x.cmpBusy = false)) ∧
    (∃ f : Nat, ∃ op : Nat, ∃ v : U32, ∃ c : Instr, ∃ s : State, ((c, op) ∈ [(Instr.cbcEncrypt f v, 1),
    (Instr.cbcDecrypt f v, 2), (Instr.ctr f v, 3)]) ∧ (running s) ∧ (hasCip s) ∧ (facetOn s f) ∧ ∃ x, x = ((getF
    s f).cip) ∧ (x.cmpBusy = false)) ∧
    (∃ f : Nat, ∃ op : Nat, ∃ v : U32, ∃ c : Instr, ∃ s : State, ((c, op) ∈ [(Instr.cbcEncrypt f v, 1),
    (Instr.cbcDecrypt f v, 2), (Instr.ctr f v, 3)]) ∧ (running s) ∧ (hasCip s) ∧ (facetOn s f) ∧ ∃ x, x = ((getF
    s f).cip) ∧ (x.cmpBusy = false)) ∧
    (∃ f : Nat, ∃ op : Nat, ∃ v : U32, ∃ c : Instr, ∃ s : State, ((c, op) ∈ [(Instr.cbcEncrypt f v, 1),
    (Instr.cbcDecrypt f v, 2), (Instr.ctr f v, 3)]) ∧ (running s) ∧ (hasCip s) ∧ (facetOn s f) ∧ ∃ x, x = ((getF
    s f).cip) ∧ (x.cmpBusy = false)) ∧
    (∃ f : Nat, ∃ op : Nat, ∃ v : U32, ∃ c : Instr, ∃ s : State, ((c, op) ∈ [(Instr.cbcEncrypt f v, 1),
    (Instr.cbcDecrypt f v, 2), (Instr.ctr f v, 3)]) ∧ (running s) ∧ (hasCip s) ∧ (facetOn s f) ∧ ∃ x, x = ((getF
    s f).cip) ∧ (x.cmpBusy = false)) ∧
    (∃ f : Nat, ∃ op : Nat, ∃ v : U32, ∃ c : Instr, ∃ s : State, ((c, op) ∈ [(Instr.cbcEncrypt f v, 1),
    (Instr.cbcDecrypt f v, 2), (Instr.ctr f v, 3)]) ∧ (running s) ∧ (hasCip s) ∧ (facetOn s f) ∧ ∃ x, x = ((getF
    s f).cip) ∧ (x.cmpBusy = false)) ∧
    (∃ f : Nat, ∃ op : Nat, ∃ v : U32, ∃ c : Instr, ∃ s : State, ((c, op) ∈ [(Instr.cbcEncrypt f v, 1),
    (Instr.cbcDecrypt f v, 2), (Instr.ctr f v, 3)]) ∧ (running s) ∧ (hasCip s) ∧ (facetOn s f) ∧ ∃ x, x = ((getF
    s f).cip) ∧ (x.cmpBusy = false)) ∧
    (∃ f : Nat, ∃ op : Nat, ∃ v : U32, ∃ c : Instr, ∃ s : State, ((c, op) ∈ [(Instr.cbcEncrypt f v, 1),
    (Instr.cbcDecrypt f v, 2), (Instr.ctr f v, 3)]) ∧ (running s) ∧ (hasCip s) ∧ (facetOn s f) ∧ ∃ x, x = ((getF
    s f).cip) ∧ (x.cmpBusy = false)) ∧
    (∃ f : Nat, ∃ op : Nat, ∃ v : U32, ∃ c : Instr, ∃ s : State, ((c, op) ∈ [(Instr.cbcEncrypt f v, 1),
    (Instr.cbcDecrypt f v, 2), (Instr.ctr f v, 3)]) ∧ (running s) ∧ (hasCip s) ∧ (facetOn s f) ∧ ∃ x, x = ((getF
    s f).cip) ∧ (x.cmpBusy = false)) ∧
    (∃ core : Nat, ∃ r : Run, ∃ s : State, (running s) ∧ (s.trust.ent = 1) ∧ ((aget {} core s.cip.cores : Core).run =
    some r) ∧ ((0x28, core) ∈ s.err.injections)) ∧
    (∃ core : Nat, ∃ r : Run, ∃ s : State, (running s) ∧ (s.trust.ent = 1) ∧ ((aget {} core s.cip.cores : Core).run =
    some r) ∧ ∃ id : Nat, ∃ n : Nat, ∃ b : Bool, ∃ tx : Bool, ∃ p : Packet, ((0x28, core) ∉ s.err.injections) ∧
    (r.job = .packet id n b tx p)) ∧
    (∃ core : Nat, ∃ r : Run, ∃ s : State, (running s) ∧ (s.trust.ent = 1) ∧ ((aget {} core s.cip.cores : Core).run =
    some r) ∧ ∃ f : Nat, ((0x28, core) ∉ s.err.injections) ∧ (r.job = .piece f) ∧ ∃ u, u = (readsEnd (.cipher f)
    s) ∧ ∃ hurt, hurt = ((piecePlaces s f).findSome? (hurtAt u (.cipher f))) ∧ (hurt = none)) ∧
    (∃ core : Nat, ∃ r : Run, ∃ s : State, (running s) ∧ (s.trust.ent = 1) ∧ ((aget {} core s.cip.cores : Core).run =
    some r) ∧ ∃ f : Nat, ((0x28, core) ∉ s.err.injections) ∧ (r.job = .piece f) ∧ ∃ u, u = (readsEnd (.cipher f)
    s) ∧ ∃ hurt, hurt = ((piecePlaces s f).findSome? (hurtAt u (.cipher f))) ∧ ∃ h : Hurt, (hurt = some h)) ∧
    (∃ core : Nat, ∃ s : State, (s.trust.ent ≠ 1 ∨ (aget {} core s.cip.cores : Core).run = none)) ∧
    (∃ core : Nat, ∃ s : State, (s.trust.ent ≠ 1 ∨ (aget {} core s.cip.cores : Core).run = none)) :=
  ⟨⟨0, 1, 0, .cbcEncrypt 0 0, upF (fun z => { z with cip := { cmpBusy := true } }), by decide +kernel,
    by decide +kernel, by decide +kernel, by decide +kernel, _, rfl, by decide +kernel⟩,
    ⟨0, 2, 0, .cbcDecrypt 0 0, upF (fun z => { z with cip := { cmpBusy := true } }), by decide +kernel,
    by decide +kernel, by decide +kernel, by decide +kernel, _, rfl, by decide +kernel⟩,
    ⟨0, 3, 0, .ctr 0 0, upF (fun z => { z with cip := { cmpBusy := true } }), by decide +kernel, by decide +kernel,
    by decide +kernel, by decide +kernel, _, rfl, by decide +kernel⟩,
    ⟨0, 1, 0, .cbcEncrypt 0 0, upF (fun z => { z with cip := { cmpSegs := 0x101 } }), by decide +kernel,
    by decide +kernel, by decide +kernel, by decide +kernel, _, rfl, by decide +kernel⟩,
    ⟨0, 1, 12, .cbcEncrypt 0 12, upF
    (fun z => { z with cip := { slots := [(0, ⟨false, 0, 0⟩)], cmpSegs := 0x101 } }), by decide +kernel,
    by decide +kernel, by decide +kernel, by decide +kernel, _, rfl, by decide +kernel⟩,
    ⟨0, 2, 0, .cbcDecrypt 0 0, upF (fun z => { z with cip := { slots := [(0, ⟨false, 0, 0⟩)], cmpSegs := 0x101 } }),
    by decide +kernel, by decide +kernel, by decide +kernel, by decide +kernel, _, rfl, by decide +kernel⟩,
    ⟨0, 3, 0, .ctr 0 0, upF (fun z => { z with cip := { slots := [(0, ⟨false, 0, 0⟩)], cmpSegs := 0x102 } }),
    by decide +kernel, by decide +kernel, by decide +kernel, by decide +kernel, _, rfl, by decide +kernel⟩,
    ⟨0, 3, 0, .ctr 0 0, upF
    (fun z => { z with cip := { slots := [(0, ⟨false, 0, 0⟩)], cmpSegs := 0x101, cmpLen := 16, cmpSoff := 0xFFFFFFF } }),
    by decide +kernel, by decide +kernel, by decide +kernel, by decide +kernel, _, rfl, by decide +kernel⟩,
    ⟨0, 3, 0, .ctr 0 0, upF (fun z => { z with cip := { slots := [(0, ⟨false, 0, 0⟩)], cmpSegs := 0x101 } }),
    by decide +kernel, by decide +kernel, by decide +kernel, by decide +kernel, _, rfl, by decide +kernel⟩,
    ⟨0, 1, 0, .cbcEncrypt 0 0, upF
    (fun z => { z with cip := { slots := [(0, ⟨false, 0, 0⟩)], cmpSegs := 0x101, cmpLen := 16 } }),
    by decide +kernel, by decide +kernel, by decide +kernel, by decide +kernel, _, rfl, by decide +kernel⟩,
    ⟨0, 2, 0, .cbcDecrypt 0 0, upF
    (fun z => { z with cip := { slots := [(0, ⟨false, 0, 0⟩)], cmpSegs := 0x101, cmpLen := 16 } }),
    by decide +kernel, by decide +kernel, by decide +kernel, by decide +kernel, _, rfl, by decide +kernel⟩,
    ⟨0, 3, 0, .ctr 0 0, upF
    (fun z => { z with cip := { slots := [(0, ⟨false, 0, 0⟩)], cmpSegs := 0x101, cmpLen := 16 } }),
    by decide +kernel, by decide +kernel, by decide +kernel, by decide +kernel, _, rfl, by decide +kernel⟩,
    ⟨0, { job := .packet 1 3 false true (ans 0), key := none, left := 4, since := 0 },
    { up with cip := { cores := coreRun (.packet 1 3 false true (ans 0)) }, err := { injections := [(0x28, 0)] } },
    by decide +kernel, by decide +kernel, by decide +kernel, by decide +kernel⟩,
    ⟨0, { job := .packet 1 3 false true (ans 0), key := none, left := 4, since := 0 },
    { up with cip := { cores := coreRun (.packet 1 3 false true (ans 0)) } }, by decide +kernel,
    by decide +kernel, by decide +kernel, 1, 3, false, true, ans 0, by decide +kernel, by decide +kernel⟩,
    ⟨0, { job := .piece 0, key := none, left := 4, since := 0 },
    { upF (fun z => { z with cip := { cmpSegs := 0x101, cmpLen := 16, run := some { op := 1, pad := 0, slot := 0, len := 16 } } }) with cip := { cores := coreRun (.piece 0) } },
    by decide +kernel, by decide +kernel, by decide +kernel, 0, by decide +kernel, by decide +kernel, _, rfl, _,
    rfl, by decide +kernel⟩,
    ⟨0, { job := .piece 0, key := none, left := 4, since := 0 },
    { upF (fun z => { z with cip := { cmpSegs := 0x101, cmpLen := 16, run := some { op := 1, pad := 0, slot := 0, len := 16 } } }) with cip := { cores := coreRun (.piece 0) }, memc := { up.memc with poisoned := [0] } },
    by decide +kernel, by decide +kernel, by decide +kernel, 0, by decide +kernel, by decide +kernel, _, rfl, _,
    rfl, .line 0 0 false, by decide +kernel⟩,
    ⟨0, up, by decide +kernel⟩,
    ⟨0, { up with trust := {} }, by decide +kernel⟩⟩

theorem wit_TrustCommandsComplete :
    (∃ f : Nat, ∃ cert : Bool, ∃ c : Instr, ∃ s : State, ((c, cert) ∈ [(Instr.trustAttReport f, false),
    (Instr.trustAttCertificate f, true)]) ∧ (running s) ∧ (facetOn s f) ∧ ∃ x, x = ((getF s f).att) ∧ (x.busy)) ∧
    (∃ f : Nat, ∃ cert : Bool, ∃ c : Instr, ∃ s : State, ((c, cert) ∈ [(Instr.trustAttReport f, false),
    (Instr.trustAttCertificate f, true)]) ∧ (running s) ∧ (facetOn s f) ∧ ∃ x, x = ((getF s f).att) ∧ (x.busy)) ∧
    (∃ f : Nat, ∃ cert : Bool, ∃ c : Instr, ∃ s : State, ((c, cert) ∈ [(Instr.trustAttReport f, false),
    (Instr.trustAttCertificate f, true)]) ∧ (running s) ∧ (facetOn s f) ∧ ∃ x, x = ((getF s f).att) ∧ ∃ g, g =
    (getSeg s f x.seg.toNat) ∧ ∃ seg, seg = (g.valid && g.pin && g.lwr) ∧ (x.busy = false) ∧ (seg = false)) ∧
    (∃ f : Nat, ∃ cert : Bool, ∃ c : Instr, ∃ s : State, ((c, cert) ∈ [(Instr.trustAttReport f, false),
    (Instr.trustAttCertificate f, true)]) ∧ (running s) ∧ (facetOn s f) ∧ ∃ x, x = ((getF s f).att) ∧ ∃ g, g =
    (getSeg s f x.seg.toNat) ∧ ∃ seg, seg = (g.valid && g.pin && g.lwr) ∧ (x.busy = false) ∧ (seg = false)) ∧
    (∃ f : Nat, ∃ cert : Bool, ∃ c : Instr, ∃ s : State, ((c, cert) ∈ [(Instr.trustAttReport f, false),
    (Instr.trustAttCertificate f, true)]) ∧ (running s) ∧ (facetOn s f) ∧ ∃ x, x = ((getF s f).att) ∧ ∃ g, g =
    (getSeg s f x.seg.toNat) ∧ ∃ seg, seg = (g.valid && g.pin && g.lwr) ∧ ∃ ok, ok = (rangeCheck s f x.seg.toNat
    x.doff (if cert then 3200 else 2048) .lwr none) ∧ (x.busy = false) ∧ (seg) ∧ (ok = false)) ∧
    (∃ f : Nat, ∃ cert : Bool, ∃ c : Instr, ∃ s : State, ((c, cert) ∈ [(Instr.trustAttReport f, false),
    (Instr.trustAttCertificate f, true)]) ∧ (running s) ∧ (facetOn s f) ∧ ∃ x, x = ((getF s f).att) ∧ ∃ g, g =
    (getSeg s f x.seg.toNat) ∧ ∃ seg, seg = (g.valid && g.pin && g.lwr) ∧ ∃ ok, ok = (rangeCheck s f x.seg.toNat
    x.doff (if cert then 3200 else 2048) .lwr none) ∧ (x.busy = false) ∧ (seg) ∧ (ok = false)) ∧
    (∃ f : Nat, ∃ cert : Bool, ∃ c : Instr, ∃ s : State, ((c, cert) ∈ [(Instr.trustAttReport f, false),
    (Instr.trustAttCertificate f, true)]) ∧ (running s) ∧ (facetOn s f) ∧ ∃ x, x = ((getF s f).att) ∧ ∃ g, g =
    (getSeg s f x.seg.toNat) ∧ ∃ seg, seg = (g.valid && g.pin && g.lwr) ∧ ∃ ok, ok = (rangeCheck s f x.seg.toNat
    x.doff (if cert then 3200 else 2048) .lwr none) ∧ (x.busy = false) ∧ (seg) ∧ (ok)) ∧
    (∃ f : Nat, ∃ cert : Bool, ∃ c : Instr, ∃ s : State, ((c, cert) ∈ [(Instr.trustAttReport f, false),
    (Instr.trustAttCertificate f, true)]) ∧ (running s) ∧ (facetOn s f) ∧ ∃ x, x = ((getF s f).att) ∧ ∃ g, g =
    (getSeg s f x.seg.toNat) ∧ ∃ seg, seg = (g.valid && g.pin && g.lwr) ∧ ∃ ok, ok = (rangeCheck s f x.seg.toNat
    x.doff (if cert then 3200 else 2048) .lwr none) ∧ (x.busy = false) ∧ (seg) ∧ (ok)) ∧
    (∃ r : AttReq, ∃ l : List AttReq, ∃ s : State, (running s) ∧ (s.trust.reqs = r :: l)) ∧
    (∃ r : AttReq, ∃ l : List AttReq, ∃ s : State, (running s) ∧ (s.trust.reqs = r :: l)) ∧
    (∃ v : U32, ∃ s : State, (running s) ∧ (4 ≤ fld v 2 0)) ∧
    (∃ v : U32, ∃ s : State, (running s) ∧ (4 ≤ fld v 2 0)) ∧
    (∃ f : Nat, ∃ v : U32, (f ≠ 0 ∨ fld v 2 0 < 4)) ∧
    (∃ f : Nat, ∃ v : U32, (f ≠ 0 ∨ fld v 2 0 < 4)) ∧
    (∃ s : State, (awake s) ∧ (s.boot.run = .running ∨ s.boot.run = .boot ∨ s.boot.run = .hold) ∧ (s.trust.ent ≠ 1) ∧
    (s.trust.ent ≠ 3)) ∧
    (∃ s : State, (awake s) ∧ (s.boot.run = .running ∨ s.boot.run = .boot ∨ s.boot.run = .hold) ∧ (s.trust.ent ≠ 1) ∧
    (s.trust.ent ≠ 3)) ∧
    (∃ s : State, (awake s) ∧ (s.boot.run = .running ∨ s.boot.run = .boot ∨ s.boot.run = .hold) ∧ (s.trust.ent = 1 ∨
    s.trust.ent = 3)) ∧
    (∃ s : State, (awake s) ∧ (s.boot.run = .running ∨ s.boot.run = .boot ∨ s.boot.run = .hold) ∧ (s.trust.ent = 1 ∨
    s.trust.ent = 3)) ∧
    (∃ s : State, (s.trust.ent = 1)) ∧
    (∃ s : State, (s.trust.ent = 1)) ∧
    (∃ core : Nat, ∃ s : State, (s.trust.ent = 1) ∧ (hasCip s) ∧ (core < 8)) ∧
    (∃ core : Nat, ∃ s : State, (s.trust.ent ≠ 1 ∨ hasCip s = false ∨ 8 ≤ core)) ∧
    (∃ core : Nat, ∃ s : State, (s.trust.ent ≠ 1 ∨ hasCip s = false ∨ 8 ≤ core)) :=
  ⟨⟨0, false, .trustAttReport 0, upF (fun z => { z with att := { busy := true } }), by decide +kernel,
    by decide +kernel, by decide +kernel, _, rfl, by decide +kernel⟩,
    ⟨0, true, .trustAttCertificate 0, upF (fun z => { z with att := { busy := true } }), by decide +kernel,
    by decide +kernel, by decide +kernel, _, rfl, by decide +kernel⟩,
    ⟨0, false, .trustAttReport 0, upF (fun z => { z with att := { seg := 2 } }), by decide +kernel,
    by decide +kernel, by decide +kernel, _, rfl, _, rfl, _, rfl, by decide +kernel, by decide +kernel⟩,
    ⟨0, true, .trustAttCertificate 0, upF (fun z => { z with att := { seg := 2 } }), by decide +kernel,
    by decide +kernel, by decide +kernel, _, rfl, _, rfl, _, rfl, by decide +kernel, by decide +kernel⟩,
    ⟨0, false, .trustAttReport 0, upF (fun z => { z with att := { seg := 1, doff := 0xFFFFFFF } }),
    by decide +kernel, by decide +kernel, by decide +kernel, _, rfl, _, rfl, _, rfl, _, rfl, by decide +kernel,
    by decide +kernel, by decide +kernel⟩,
    ⟨0, true, .trustAttCertificate 0, upF (fun z => { z with att := { seg := 1, doff := 0xFFFFFFF } }),
    by decide +kernel, by decide +kernel, by decide +kernel, _, rfl, _, rfl, _, rfl, _, rfl, by decide +kernel,
    by decide +kernel, by decide +kernel⟩,
    ⟨0, false, .trustAttReport 0, upF (fun z => { z with att := { seg := 1 } }), by decide +kernel,
    by decide +kernel, by decide +kernel, _, rfl, _, rfl, _, rfl, _, rfl, by decide +kernel, by decide +kernel,
    by decide +kernel⟩,
    ⟨0, true, .trustAttCertificate 0, upF (fun z => { z with att := { seg := 1 } }), by decide +kernel,
    by decide +kernel, by decide +kernel, _, rfl, _, rfl, _, rfl, _, rfl, by decide +kernel, by decide +kernel,
    by decide +kernel⟩,
    ⟨{ f := 0, cert := false, meas := [], at_ := 0 }, [],
    { upF (fun z => { z with att := { busy := true, seg := 1 } }) with trust := { ent := 1, reqs := [{ f := 0, cert := false, meas := [], at_ := 0 }] } },
    by decide +kernel, by decide +kernel⟩,
    ⟨{ f := 0, cert := true, meas := [], at_ := 0 }, [],
    { upF (fun z => { z with att := { busy := true, seg := 1 } }) with trust := { ent := 1, reqs := [{ f := 0, cert := true, meas := [], at_ := 0 }] } },
    by decide +kernel, by decide +kernel⟩,
    ⟨4, up, by decide +kernel, by decide +kernel⟩,
    ⟨7, { up with trust := { ent := 1, reqs := [{ f := 0, cert := false, meas := [], at_ := 1000000000000 }] } },
    by decide +kernel, by decide +kernel⟩,
    ⟨1, 4, by decide +kernel⟩,
    ⟨0, 3, by decide +kernel⟩,
    ⟨{ up with trust := { ent := 0 } }, by decide +kernel, by decide +kernel, by decide +kernel, by decide +kernel⟩,
    ⟨{ State.reset with boot := { run := .boot }, trust := { ent := 2 } }, by decide +kernel, by decide +kernel,
    by decide +kernel, by decide +kernel⟩,
    ⟨up, by decide +kernel, by decide +kernel, by decide +kernel⟩,
    ⟨{ up with trust := { ent := 3 } }, by decide +kernel, by decide +kernel, by decide +kernel⟩,
    ⟨up, by decide +kernel⟩,
    ⟨{ up with now := 65535, trust := { ent := 1, drbgCount := 65536 } }, by decide +kernel⟩,
    ⟨7, up, by decide +kernel, by decide +kernel, by decide +kernel⟩,
    ⟨8, up, by decide +kernel⟩,
    ⟨0, { up with trust := { ent := 2 } }, by decide +kernel⟩⟩

theorem wit_EthernetCommandsComplete :
    (∃ s : State, (fabricUp s)) ∧
    (∃ s : State, (fabricUp s)) ∧
    (∃ p : Nat, ∃ b : Nat, ∃ s : State, (bit (getEth s p).up b)) ∧
    (∃ p : Nat, ∃ b : Nat, ∃ s : State, (bit (getEth s p).up b = false)) ∧
    (∃ p : Nat, ∃ b : Nat, ∃ bs : Bytes, ∃ s : State, (fabricUp s) ∧ (subLive s p b) ∧ ∃ t, t = (modEth p (fun e => {
    e with rxFrames := e.rxFrames + 1 }) s) ∧ ∃ room, room = (decide (rxHeld t p + bs.length + 4 ≤ 2097152)) ∧
    (room = false)) ∧
    (∃ p : Nat, ∃ b : Nat, ∃ ok : Bool, ∃ bs : Bytes, ∃ s : State, (fabricUp s) ∧ (subLive s p b) ∧ ∃ t, t = (modEth
    p (fun e => { e with rxFrames := e.rxFrames + 1 }) s) ∧ ∃ room, room = (decide (rxHeld t p + bs.length + 4 ≤
    2097152)) ∧ (room) ∧ (ok = false)) ∧
    (∃ p : Nat, ∃ b : Nat, ∃ ok : Bool, ∃ bs : Bytes, ∃ s : State, (fabricUp s) ∧ (subLive s p b) ∧ ∃ t, t = (modEth
    p (fun e => { e with rxFrames := e.rxFrames + 1 }) s) ∧ ∃ room, room = (decide (rxHeld t p + bs.length + 4 ≤
    2097152)) ∧ (room) ∧ (ok) ∧ (at16 bs 12 = 0x8808)) ∧
    (∃ p : Nat, ∃ b : Nat, ∃ ok : Bool, ∃ bs : Bytes, ∃ s : State, (fabricUp s) ∧ (subLive s p b) ∧ ∃ t, t = (modEth
    p (fun e => { e with rxFrames := e.rxFrames + 1 }) s) ∧ ∃ room, room = (decide (rxHeld t p + bs.length + 4 ≤
    2097152)) ∧ ∃ good, good = (room && ok && decide (at16 bs 12 ≠ 0x8808)) ∧ ∃ taken, taken = (good &&
    passesFilter t p bs && vlanOk t p bs) ∧ (good) ∧ (taken = false)) ∧
    (∃ p : Nat, ∃ b : Nat, ∃ ok : Bool, ∃ bs : Bytes, ∃ s : State, (fabricUp s) ∧ (subLive s p b) ∧ ∃ t, t = (modEth
    p (fun e => { e with rxFrames := e.rxFrames + 1 }) s) ∧ ∃ room, room = (decide (rxHeld t p + bs.length + 4 ≤
    2097152)) ∧ ∃ good, good = (room && ok && decide (at16 bs 12 ≠ 0x8808)) ∧ ∃ taken, taken = (good &&
    passesFilter t p bs && vlanOk t p bs) ∧ (taken) ∧ (ipLen bs = none ∨ isZrtFrame t bs = false)) ∧
    (∃ p : Nat, ∃ b : Nat, ∃ ok : Bool, ∃ bs : Bytes, ∃ s : State, (fabricUp s) ∧ (subLive s p b) ∧ ∃ t, t = (modEth
    p (fun e => { e with rxFrames := e.rxFrames + 1 }) s) ∧ ∃ room, room = (decide (rxHeld t p + bs.length + 4 ≤
    2097152)) ∧ ∃ good, good = (room && ok && decide (at16 bs 12 ≠ 0x8808)) ∧ ∃ taken, taken = (good &&
    passesFilter t p bs && vlanOk t p bs) ∧ ∃ n, (taken) ∧ (ipLen bs = some n) ∧ (isZrtFrame t bs)) ∧
    (∃ p : Nat, ∃ b : Nat, ∃ ok : Bool, ∃ bs : Bytes, ∃ s : State, (fabricUp s = false) ∧ ∃ wakes, wakes = ((s.pwr.st
    = .glimmer ∨ s.pwr.st = .glimmerEntry) ∧ b = 0 ∧ ok ∧ wakeEn s p ∧ wakeMatch s p bs) ∧ (wakes)) ∧
    (∃ p : Nat, ∃ b : Nat, ∃ ok : Bool, ∃ bs : Bytes, ∃ s : State, (fabricUp s = false) ∧ ∃ wakes, wakes = ((s.pwr.st
    = .glimmer ∨ s.pwr.st = .glimmerEntry) ∧ b = 0 ∧ ok ∧ wakeEn s p ∧ wakeMatch s p bs) ∧ (¬ wakes)) ∧
    (∃ p : Nat, ∃ b : Nat, ∃ ok : Bool, ∃ bs : Bytes, ∃ s : State, (fabricUp s = false) ∧ ∃ wakes, wakes = ((s.pwr.st
    = .glimmer ∨ s.pwr.st = .glimmerEntry) ∧ b = 0 ∧ ok ∧ wakeEn s p ∧ wakeMatch s p bs) ∧ (¬ wakes)) ∧
    (∃ p : Nat, ∃ b : Nat, ∃ ok : Bool, ∃ bs : Bytes, ∃ s : State, (fabricUp s = false) ∧ ∃ wakes, wakes = ((s.pwr.st
    = .glimmer ∨ s.pwr.st = .glimmerEntry) ∧ b = 0 ∧ ok ∧ wakeEn s p ∧ wakeMatch s p bs) ∧ (¬ wakes)) ∧
    (∃ p : Nat, ∃ b : Nat, ∃ s : State, (fabricUp s) ∧ (subLive s p b = false)) ∧
    (∃ f : Nat, ∃ q : Nat, ∃ hb : Bytes, ∃ i : Item, ∃ s : State, (ready s f q 0x37 = some i) ∧ ∃ d, d = (i.desc) ∧ ∃
    st, (refusedEarly s d) ∧ (sendCheck s d hb = some st)) ∧
    (∃ f : Nat, ∃ q : Nat, ∃ i : Item, ∃ s : State, (ready s f q 0x37 = some i) ∧ ∃ d, d = (i.desc) ∧ (refusedEarly s
    d = false) ∧ ((s.eth.sends.any (fun x => decide (x.q = q))))) ∧
    (∃ f : Nat, ∃ q : Nat, ∃ hb : Bytes, ∃ i : Item, ∃ s : State, (ready s f q 0x37 = some i) ∧ ∃ d, d = (i.desc) ∧
    (refusedEarly s d = false) ∧ ((s.eth.sends.any (fun x => decide (x.q = q))) = false) ∧ (streamBusy s (.desc
    q) = false) ∧ ∃ r, r = (transRanges (.desc q) 0 false [(esHseg d, d.w4, esHlen d)] s) ∧ ∃ h, h = (templateOf
    r.1 d hb) ∧ (placesReleased s 0 r.2.places) ∧ (r.2.full) ∧ ∃ st, (sendCheck r.1 d h = some st)) ∧
    (∃ f : Nat, ∃ q : Nat, ∃ hb : Bytes, ∃ i : Item, ∃ s : State, (ready s f q 0x37 = some i) ∧ ∃ d, d = (i.desc) ∧
    (refusedEarly s d = false) ∧ ((s.eth.sends.any (fun x => decide (x.q = q))) = false) ∧ (streamBusy s (.desc
    q) = false) ∧ ∃ r, r = (transRanges (.desc q) 0 false [(esHseg d, d.w4, esHlen d)] s) ∧ ∃ h, h = (templateOf
    r.1 d hb) ∧ (placesReleased s 0 r.2.places) ∧ (r.2.full) ∧ (sendCheck r.1 d h = none)) ∧
    (∃ f : Nat, ∃ q : Nat, ∃ hb : Bytes, ∃ i : Item, ∃ s : State, (ready s f q 0x37 = some i) ∧ ∃ d, d = (i.desc) ∧
    (refusedEarly s d = false) ∧ ((s.eth.sends.any (fun x => decide (x.q = q))) = false) ∧ (streamBusy s (.desc
    q) = false) ∧ ∃ r, r = (transRanges (.desc q) 0 false [(esHseg d, d.w4, esHlen d)] s) ∧ ∃ h, h = (templateOf
    r.1 d hb) ∧ (placesReleased s 0 r.2.places) ∧ (r.2.full) ∧ (sendCheck r.1 d h = none)) ∧
    (∃ q : Nat, ∃ p : Nat, ∃ b : Nat, ∃ idx : U32, ∃ x : OutPkt, ∃ s : State, (running s) ∧ (leavingOf s (q, idx) =
    some (p, b)) ∧ (agetq b (getEth s p).leaving = some x)) ∧
    (∃ q : Nat, ∃ p : Nat, ∃ b : Nat, ∃ idx : U32, ∃ x : OutPkt, ∃ s : State, (running s) ∧ (leavingOf s (q, idx) =
    some (p, b)) ∧ (agetq b (getEth s p).leaving = some x)) ∧
    (∃ q : Nat, ∃ p : Nat, ∃ b : Nat, ∃ idx : U32, ∃ x : OutPkt, ∃ s : State, (running s) ∧ (leavingOf s (q, idx) =
    some (p, b)) ∧ (agetq b (getEth s p).leaving = some x)) ∧
    (∃ f : Nat, ∃ q : Nat, ∃ idx : U32, ∃ s : State, (f ≠ 0 ∨ leavingOf s (q, idx) = none)) ∧
    (∃ f : Nat, ∃ q : Nat, ∃ idx : U32, ∃ s : State, (f ≠ 0 ∨ leavingOf s (q, idx) = none)) :=
  ⟨⟨up, by decide +kernel⟩,
    ⟨up, by decide +kernel⟩,
    ⟨0, 3, modEth 0 (fun e => { e with up := 8 }) up, by decide +kernel⟩,
    ⟨0, 0, modEth 0 (fun e => { e with up := 8 }) up, by decide +kernel⟩,
    ⟨0, 0, List.replicate 2097149 0, upE, by decide +kernel, by decide +kernel, _, rfl, _, rfl,
    by (rw [List.length_replicate]; decide +kernel)⟩,
    ⟨0, 0, false, ethHdr [8, 6] ++ List.replicate 42 0, upE, by decide +kernel, by decide +kernel, _, rfl, _, rfl,
    by decide +kernel, by decide +kernel⟩,
    ⟨0, 0, true, ethHdr [0x88, 8] ++ List.replicate 46 0, upE, by decide +kernel, by decide +kernel, _, rfl, _, rfl,
    by decide +kernel, by decide +kernel, by decide +kernel⟩,
    ⟨0, 0, true, List.replicate 60 0, upE, by decide +kernel, by decide +kernel, _, rfl, _, rfl, _, rfl, _, rfl,
    by decide +kernel, by decide +kernel⟩,
    ⟨0, 0, true, ethHdr [8, 6] ++ List.replicate 42 0, upE, by decide +kernel, by decide +kernel, _, rfl, _, rfl, _,
    rfl, _, rfl, by decide +kernel, by decide +kernel⟩,
    ⟨0, 0, true, zFrame, upE, by decide +kernel, by decide +kernel, _, rfl, _, rfl, _, rfl, _, rfl, 20,
    by decide +kernel, by decide +kernel, by decide +kernel⟩,
    ⟨0, 0, true, List.replicate 60 0,
    { up with pwr := { st := .glimmer }, regs := [(0x590, 1), (0x598, 0x81), (0x5A0, 0)] }, by decide +kernel,
    _, rfl, by decide +kernel⟩,
    ⟨0, 0, true, List.replicate 60 1,
    { up with pwr := { st := .glimmer }, regs := [(0x590, 1), (0x598, 0x81), (0x5A0, 0)] }, by decide +kernel,
    _, rfl, by decide +kernel⟩,
    ⟨0, 0, false, List.replicate 60 0,
    { up with pwr := { st := .glimmer }, regs := [(0x590, 1), (0x598, 0x81), (0x5A0, 0)] }, by decide +kernel,
    _, rfl, by decide +kernel⟩,
    ⟨0, 0, true, List.replicate 60 0, State.reset, by decide +kernel, _, rfl, by decide +kernel⟩,
    ⟨0, 0, up, by decide +kernel, by decide +kernel⟩,
    ⟨0, 1, List.replicate 14 0, { idx := 0, desc := dsc 0x37 0xC0 0x400101 0 0x100 0 0 }, upD
    (dsc 0x37 0xC0 0x400101 0 0x100 0 0), by decide +kernel, _, rfl, stat cBAD_FIELD, by decide +kernel,
    by decide +kernel⟩,
    ⟨0, 1, { idx := 0, desc := sndD },
    { upD sndD with eth := { sends := [{ q := 1, idx := 0, desc := sndD, header := List.replicate 14 0, frames := 1 }] } },
    by decide +kernel, _, rfl, by decide +kernel, by decide +kernel⟩,
    ⟨0, 1, List.replicate 14 0, { idx := 0, desc := dsc 0x37 0x8E8 0x400101 0 0x100 0 0 }, upD
    (dsc 0x37 0x8E8 0x400101 0 0x100 0 0), by decide +kernel, _, rfl, by decide +kernel, by decide +kernel,
    by decide +kernel, _, rfl, _, rfl, by decide +kernel, by decide +kernel, stat cBAD_FIELD, by decide +kernel⟩,
    ⟨0, 1, List.replicate 14 0, { idx := 0, desc := sndD }, upD sndD, by decide +kernel, _, rfl, by decide +kernel,
    by decide +kernel, by decide +kernel, _, rfl, _, rfl, by decide +kernel, by decide +kernel,
    by decide +kernel⟩,
    ⟨0, 1, List.replicate 14 0, { idx := 0, desc := sndD },
    { upD sndD with mirror := { frames := [(0x100000000, 1)] } }, by decide +kernel, _, rfl, by decide +kernel,
    by decide +kernel, by decide +kernel, _, rfl, _, rfl, by decide +kernel, by decide +kernel,
    by decide +kernel⟩,
    ⟨1, 0, 0, 0,
    { vc := 0, group := 0, rail := 0, charge := 1, lineage := 0, rh := rh0, bytes := [1], plain := some (1, 0) },
    { modEth 0 (fun e => { e with leaving := [(0, { vc := 0, group := 0, rail := 0, charge := 1, lineage := 0, rh := rh0, bytes := [1], plain := some (1, 0) })] }) upE with eth := { (modEth 0 (fun e => { e with leaving := [(0, { vc := 0, group := 0, rail := 0, charge := 1, lineage := 0, rh := rh0, bytes := [1], plain := some (1, 0) })] }) upE).eth with sends := [] } },
    by decide +kernel, by decide +kernel, by decide +kernel⟩,
    ⟨1, 0, 0, 0,
    { vc := 0, group := 0, rail := 0, charge := 1, lineage := 0, rh := rh0, bytes := [1], plain := some (1, 0) },
    { modEth 0 (fun e => { e with leaving := [(0, { vc := 0, group := 0, rail := 0, charge := 1, lineage := 0, rh := rh0, bytes := [1], plain := some (1, 0) })] }) upE with eth := { (modEth 0 (fun e => { e with leaving := [(0, { vc := 0, group := 0, rail := 0, charge := 1, lineage := 0, rh := rh0, bytes := [1], plain := some (1, 0) })] }) upE).eth with sends := [{ q := 1, idx := 0, desc := sndD, header := List.replicate 14 0, frames := 1, recorded := 1, formed := 1 }] } },
    by decide +kernel, by decide +kernel, by decide +kernel⟩,
    ⟨1, 0, 0, 0,
    { vc := 0, group := 0, rail := 0, charge := 1, lineage := 0, rh := rh0, bytes := [1], plain := some (1, 0) },
    { modEth 0 (fun e => { e with leaving := [(0, { vc := 0, group := 0, rail := 0, charge := 1, lineage := 0, rh := rh0, bytes := [1], plain := some (1, 0) })] }) upE with eth := { (modEth 0 (fun e => { e with leaving := [(0, { vc := 0, group := 0, rail := 0, charge := 1, lineage := 0, rh := rh0, bytes := [1], plain := some (1, 0) })] }) upE).eth with sends := [{ q := 1, idx := 0, desc := sndD, header := List.replicate 14 0, frames := 2, recorded := 1, formed := 1 }] } },
    by decide +kernel, by decide +kernel, by decide +kernel⟩,
    ⟨0, 1, 0, up, by decide +kernel⟩,
    ⟨1, 1, 0, up, by decide +kernel⟩⟩

theorem wit_DetectionsAndFencesComplete :
    (∃ src : Nat, ∃ u : Nat, ∃ a : U64, ∃ s : State, (collectorRuns s) ∧ (s.err.mode ≠ .umbra) ∧ (unitOk s src u) ∧ ∃
    act : Nat, ∃ i : U64, ((src, act, i) ∈ ([(0x01, 1, 0), (0x08, 0, a), (0x1C, 0, a)] : List (Nat × Nat ×
    U64)))) ∧
    (∃ src : Nat, ∃ u : Nat, ∃ a : U64, ∃ s : State, (collectorRuns s) ∧ (s.err.mode ≠ .umbra) ∧ (unitOk s src u) ∧ ∃
    act : Nat, ∃ i : U64, ((src, act, i) ∈ ([(0x01, 1, 0), (0x08, 0, a), (0x1C, 0, a)] : List (Nat × Nat ×
    U64)))) ∧
    (∃ src : Nat, ∃ u : Nat, ∃ a : U64, ∃ s : State, (collectorRuns s) ∧ (s.err.mode ≠ .umbra) ∧ (unitOk s src u) ∧ ∃
    act : Nat, ∃ i : U64, ((src, act, i) ∈ ([(0x01, 1, 0), (0x08, 0, a), (0x1C, 0, a)] : List (Nat × Nat ×
    U64)))) ∧
    (∃ src : Nat, ∃ u : Nat, ∃ s : State, (collectorRuns s) ∧ (s.err.mode ≠ .umbra) ∧ (unitOk s src u) ∧ (src = 0x09)) ∧
    (∃ src : Nat, ∃ u : Nat, ∃ s : State, (collectorRuns s) ∧ (s.err.mode ≠ .umbra) ∧ (unitOk s src u) ∧ (src = 0x0A)) ∧
    (∃ src : Nat, ∃ u : Nat, ∃ s : State, (collectorRuns s) ∧ (s.err.mode ≠ .umbra) ∧ (unitOk s src u) ∧ (src = 0x0A)) ∧
    (∃ src : Nat, ∃ u : Nat, ∃ a : U64, ∃ s : State, (collectorRuns s) ∧ (s.err.mode ≠ .umbra) ∧ (unitOk s src u) ∧ ∃
    i : U64, ((src, i) ∈ ([(0x0B, a), (0x1E, a), (0x31, 0), (0x32, 0)] : List (Nat × U64)))) ∧
    (∃ src : Nat, ∃ u : Nat, ∃ a : U64, ∃ s : State, (collectorRuns s) ∧ (s.err.mode ≠ .umbra) ∧ (unitOk s src u) ∧ ∃
    i : U64, ((src, i) ∈ ([(0x0B, a), (0x1E, a), (0x31, 0), (0x32, 0)] : List (Nat × U64)))) ∧
    (∃ src : Nat, ∃ u : Nat, ∃ a : U64, ∃ s : State, (collectorRuns s) ∧ (s.err.mode ≠ .umbra) ∧ (unitOk s src u) ∧ ∃
    i : U64, ((src, i) ∈ ([(0x0B, a), (0x1E, a), (0x31, 0), (0x32, 0)] : List (Nat × U64)))) ∧
    (∃ src : Nat, ∃ u : Nat, ∃ a : U64, ∃ s : State, (collectorRuns s) ∧ (s.err.mode ≠ .umbra) ∧ (unitOk s src u) ∧ ∃
    i : U64, ((src, i) ∈ ([(0x0B, a), (0x1E, a), (0x31, 0), (0x32, 0)] : List (Nat × U64)))) ∧
    (∃ src : Nat, ∃ u : Nat, ∃ s : State, (collectorRuns s) ∧ (s.err.mode ≠ .umbra) ∧ (unitOk s src u) ∧ (src = 0x24)) ∧
    (∃ src : Nat, ∃ u : Nat, ∃ s : State, (collectorRuns s) ∧ (s.err.mode ≠ .umbra) ∧ (unitOk s src u) ∧ (src = 0x24)) ∧
    (∃ src : Nat, ∃ u : Nat, ∃ s : State, (collectorRuns s) ∧ (src ≠ 0x3F) ∧ (noUnit src = false) ∧ (unitOk s src u =
    false)) ∧
    (∃ src : Nat, ∃ u : Nat, ∃ s : State, (collectorRuns s) ∧ (src ≠ 0x3F) ∧ (noUnit src = false) ∧ (unitOk s src u =
    false)) ∧
    (∃ src : Nat, ∃ u : Nat, ∃ s : State, (collectorRuns s) ∧ (src ≠ 0x3F) ∧ (noUnit src = false) ∧ (unitOk s src u)
    ∧ (s.err.mode = .umbra)) ∧
    (∃ s : State, (collectorRuns s) ∧ (s.err.mode ≠ .umbra)) ∧
    (∃ s : State, (collectorRuns s) ∧ (s.err.mode = .umbra)) ∧
    (∃ f : Nat, ∃ s : State, (running s) ∧ (f = 0) ∧ (bit (reg s 0xFC20) 0)) ∧
    (∃ f : Nat, ∃ s : State, (running s) ∧ (f ≠ 0 ∨ bit (reg s 0xFC20) 0 = false)) ∧
    (∃ f : Nat, ∃ s : State, (running s) ∧ (f ≠ 0 ∨ bit (reg s 0xFC20) 0 = false)) ∧
    (∃ f : Nat, ∃ q : Nat, ∃ op : Nat, ∃ c : Instr, ∃ b : Bool, ∃ i : Item, ∃ s : State, ((c, op, b) ∈ ([(.unitFence
    f q, 0x38, true), (.unitUnfence f q, 0x39, false)] : List (Instr × Nat × Bool))) ∧ (ready s f q op = some i)
    ∧ ∃ k, k = (fenceKind i.desc) ∧ ∃ u, u = (fenceIdx i.desc) ∧ (kindCount k ≤ u)) ∧
    (∃ f : Nat, ∃ q : Nat, ∃ op : Nat, ∃ c : Instr, ∃ b : Bool, ∃ i : Item, ∃ s : State, ((c, op, b) ∈ ([(.unitFence
    f q, 0x38, true), (.unitUnfence f q, 0x39, false)] : List (Instr × Nat × Bool))) ∧ (ready s f q op = some i)
    ∧ ∃ k, k = (fenceKind i.desc) ∧ ∃ u, u = (fenceIdx i.desc) ∧ (kindCount k ≤ u)) ∧
    (∃ f : Nat, ∃ q : Nat, ∃ op : Nat, ∃ c : Instr, ∃ b : Bool, ∃ i : Item, ∃ s : State, ((c, op, b) ∈ ([(.unitFence
    f q, 0x38, true), (.unitUnfence f q, 0x39, false)] : List (Instr × Nat × Bool))) ∧ (ready s f q op = some i)
    ∧ ∃ k, k = (fenceKind i.desc) ∧ ∃ u, u = (fenceIdx i.desc) ∧ (kindCount k ≤ u)) ∧
    (∃ f : Nat, ∃ q : Nat, ∃ op : Nat, ∃ c : Instr, ∃ b : Bool, ∃ i : Item, ∃ s : State, ((c, op, b) ∈ ([(.unitFence
    f q, 0x38, true), (.unitUnfence f q, 0x39, false)] : List (Instr × Nat × Bool))) ∧ (ready s f q op = some i)
    ∧ ∃ k, k = (fenceKind i.desc) ∧ ∃ u, u = (fenceIdx i.desc) ∧ (kindCount k ≤ u)) ∧
    (∃ f : Nat, ∃ q : Nat, ∃ op : Nat, ∃ c : Instr, ∃ b : Bool, ∃ i : Item, ∃ s : State, ((c, op, b) ∈ ([(.unitFence
    f q, 0x38, true), (.unitUnfence f q, 0x39, false)] : List (Instr × Nat × Bool))) ∧ (ready s f q op = some i)
    ∧ ∃ t, t = (startItem f q i.idx s) ∧ ∃ k, k = (fenceKind i.desc) ∧ ∃ u, u = (fenceIdx i.desc) ∧ (u <
    kindCount k) ∧ (kindHas t k u = false)) ∧
    (∃ f : Nat, ∃ q : Nat, ∃ op : Nat, ∃ c : Instr, ∃ b : Bool, ∃ i : Item, ∃ s : State, ((c, op, b) ∈ ([(.unitFence
    f q, 0x38, true), (.unitUnfence f q, 0x39, false)] : List (Instr × Nat × Bool))) ∧ (ready s f q op = some i)
    ∧ ∃ t, t = (startItem f q i.idx s) ∧ ∃ k, k = (fenceKind i.desc) ∧ ∃ u, u = (fenceIdx i.desc) ∧ (u <
    kindCount k) ∧ (kindHas t k u = false)) ∧
    (∃ f : Nat, ∃ q : Nat, ∃ op : Nat, ∃ c : Instr, ∃ b : Bool, ∃ i : Item, ∃ s : State, ((c, op, b) ∈ ([(.unitFence
    f q, 0x38, true), (.unitUnfence f q, 0x39, false)] : List (Instr × Nat × Bool))) ∧ (ready s f q op = some i)
    ∧ ∃ t, t = (startItem f q i.idx s) ∧ ∃ k, k = (fenceKind i.desc) ∧ ∃ u, u = (fenceIdx i.desc) ∧ (u <
    kindCount k) ∧ (kindHas t k u) ∧ (kindFenced t k u = b)) ∧
    (∃ f : Nat, ∃ q : Nat, ∃ op : Nat, ∃ c : Instr, ∃ b : Bool, ∃ i : Item, ∃ s : State, ((c, op, b) ∈ ([(.unitFence
    f q, 0x38, true), (.unitUnfence f q, 0x39, false)] : List (Instr × Nat × Bool))) ∧ (ready s f q op = some i)
    ∧ ∃ t, t = (startItem f q i.idx s) ∧ ∃ k, k = (fenceKind i.desc) ∧ ∃ u, u = (fenceIdx i.desc) ∧ (u <
    kindCount k) ∧ (kindHas t k u) ∧ (kindFenced t k u = b)) ∧
    (∃ f : Nat, ∃ q : Nat, ∃ op : Nat, ∃ c : Instr, ∃ b : Bool, ∃ i : Item, ∃ s : State, ((c, op, b) ∈ ([(.unitFence
    f q, 0x38, true), (.unitUnfence f q, 0x39, false)] : List (Instr × Nat × Bool))) ∧ (ready s f q op = some i)
    ∧ ∃ t, t = (startItem f q i.idx s) ∧ ∃ k, k = (fenceKind i.desc) ∧ ∃ u, u = (fenceIdx i.desc) ∧ (fenceEarly
    t k u b = none) ∧ (b)) ∧
    (∃ f : Nat, ∃ q : Nat, ∃ op : Nat, ∃ c : Instr, ∃ b : Bool, ∃ i : Item, ∃ s : State, ((c, op, b) ∈ ([(.unitFence
    f q, 0x38, true), (.unitUnfence f q, 0x39, false)] : List (Instr × Nat × Bool))) ∧ (ready s f q op = some i)
    ∧ ∃ t, t = (startItem f q i.idx s) ∧ ∃ k, k = (fenceKind i.desc) ∧ ∃ u, u = (fenceIdx i.desc) ∧ (fenceEarly
    t k u b = none) ∧ (b)) ∧
    (∃ f : Nat, ∃ q : Nat, ∃ op : Nat, ∃ c : Instr, ∃ b : Bool, ∃ i : Item, ∃ s : State, ((c, op, b) ∈ ([(.unitFence
    f q, 0x38, true), (.unitUnfence f q, 0x39, false)] : List (Instr × Nat × Bool))) ∧ (ready s f q op = some i)
    ∧ ∃ t, t = (startItem f q i.idx s) ∧ ∃ k, k = (fenceKind i.desc) ∧ ∃ u, u = (fenceIdx i.desc) ∧ (fenceEarly
    t k u b = none) ∧ (b)) ∧
    (∃ f : Nat, ∃ q : Nat, ∃ op : Nat, ∃ c : Instr, ∃ b : Bool, ∃ i : Item, ∃ s : State, ((c, op, b) ∈ ([(.unitFence
    f q, 0x38, true), (.unitUnfence f q, 0x39, false)] : List (Instr × Nat × Bool))) ∧ (ready s f q op = some i)
    ∧ ∃ t, t = (startItem f q i.idx s) ∧ ∃ k, k = (fenceKind i.desc) ∧ ∃ u, u = (fenceIdx i.desc) ∧ (fenceEarly
    t k u b = none) ∧ (b = false) ∧ (k ≠ 4)) ∧
    (∃ f : Nat, ∃ q : Nat, ∃ op : Nat, ∃ c : Instr, ∃ b : Bool, ∃ i : Item, ∃ s : State, ((c, op, b) ∈ ([(.unitFence
    f q, 0x38, true), (.unitUnfence f q, 0x39, false)] : List (Instr × Nat × Bool))) ∧ (ready s f q op = some i)
    ∧ ∃ t, t = (startItem f q i.idx s) ∧ ∃ k, k = (fenceKind i.desc) ∧ ∃ u, u = (fenceIdx i.desc) ∧ (fenceEarly
    t k u b = none) ∧ (b = false) ∧ (k = 4)) ∧
    (∃ f : Nat, ∃ q : Nat, ∃ op : Nat, ∃ c : Instr, ∃ b : Bool, ∃ i : Item, ∃ s : State, ((c, op, b) ∈ ([(.unitFence
    f q, 0x38, true), (.unitUnfence f q, 0x39, false)] : List (Instr × Nat × Bool))) ∧ (ready s f q op = some i)
    ∧ ∃ t, t = (startItem f q i.idx s) ∧ ∃ k, k = (fenceKind i.desc) ∧ ∃ u, u = (fenceIdx i.desc) ∧ (fenceEarly
    t k u b = none) ∧ (b = false) ∧ (k = 4)) ∧
    (∃ s : State, (collectorRuns s)) ∧
    (∃ s : State, (collectorRuns s)) :=
  ⟨⟨0x01, 96, 0x40, up, by decide +kernel, by decide +kernel, by decide +kernel, 1, 0, by decide +kernel⟩,
    ⟨0x08, 0, 0x40, up, by decide +kernel, by decide +kernel, by decide +kernel, 0, 64, by decide +kernel⟩,
    ⟨0x1C, 4, 0x40, up, by decide +kernel, by decide +kernel, by decide +kernel, 0, 64, by decide +kernel⟩,
    ⟨0x09, 15, up, by decide +kernel, by decide +kernel, by decide +kernel, by decide +kernel⟩,
    ⟨0x0A, 0, up, by decide +kernel, by decide +kernel, by decide +kernel, by decide +kernel⟩,
    ⟨0x0A, 0, up, by decide +kernel, by decide +kernel, by decide +kernel, by decide +kernel⟩,
    ⟨0x0B, 0, 0x40, up, by decide +kernel, by decide +kernel, by decide +kernel, 64, by decide +kernel⟩,
    ⟨0x1E, 0, 0x40, up, by decide +kernel, by decide +kernel, by decide +kernel, 64, by decide +kernel⟩,
    ⟨0x31, 7, 0x40, up, by decide +kernel, by decide +kernel, by decide +kernel, 0, by decide +kernel⟩,
    ⟨0x32, 6, 0x40, up, by decide +kernel, by decide +kernel, by decide +kernel, 0, by decide +kernel⟩,
    ⟨0x24, 7, up, by decide +kernel, by decide +kernel, by decide +kernel, by decide +kernel⟩,
    ⟨0x24, 7, { up with err := { lan := 0x80 } }, by decide +kernel, by decide +kernel, by decide +kernel,
    by decide +kernel⟩,
    ⟨0x24, 8, up, by decide +kernel, by decide +kernel, by decide +kernel, by decide +kernel⟩,
    ⟨0x09, 16, up, by decide +kernel, by decide +kernel, by decide +kernel, by decide +kernel⟩,
    ⟨0x24, 7, { up with err := { mode := .umbra } }, by decide +kernel, by decide +kernel, by decide +kernel,
    by decide +kernel, by decide +kernel⟩,
    ⟨up, by decide +kernel, by decide +kernel⟩,
    ⟨{ up with err := { mode := .umbra } }, by decide +kernel, by decide +kernel⟩,
    ⟨0, { up with regs := [(0xFC20, 1)] }, by decide +kernel, by decide +kernel, by decide +kernel⟩,
    ⟨0, up, by decide +kernel, by decide +kernel⟩,
    ⟨1, { up with regs := [(0xFC20, 1)] }, by decide +kernel, by decide +kernel⟩,
    ⟨0, 1, 0x38, .unitFence 0 1, true, { idx := 0, desc := dsc 0x38 0 0 0 0 0 0 }, upD (dsc 0x38 0 0 0 0 0 0),
    by decide +kernel, by decide +kernel, _, rfl, _, rfl, by decide +kernel⟩,
    ⟨0, 1, 0x38, .unitFence 0 1, true, { idx := 0, desc := dsc 0x38 0x41 0 0 0 0 0 }, upD (dsc 0x38 0x41 0 0 0 0 0),
    by decide +kernel, by decide +kernel, _, rfl, _, rfl, by decide +kernel⟩,
    ⟨0, 1, 0x39, .unitUnfence 0 1, false, { idx := 0, desc := dsc 0x39 0 0 0 0 0 0 }, upD (dsc 0x39 0 0 0 0 0 0),
    by decide +kernel, by decide +kernel, _, rfl, _, rfl, by decide +kernel⟩,
    ⟨0, 1, 0x39, .unitUnfence 0 1, false, { idx := 0, desc := dsc 0x39 0x41 0 0 0 0 0 }, upD
    (dsc 0x39 0x41 0 0 0 0 0), by decide +kernel, by decide +kernel, _, rfl, _, rfl, by decide +kernel⟩,
    ⟨0, 1, 0x38, .unitFence 0 1, true, { idx := 0, desc := dsc 0x38 0x84 0 0 0 0 0 }, upD (dsc 0x38 0x84 0 0 0 0 0),
    by decide +kernel, by decide +kernel, _, rfl, _, rfl, _, rfl, by decide +kernel, by decide +kernel⟩,
    ⟨0, 1, 0x39, .unitUnfence 0 1, false, { idx := 0, desc := dsc 0x39 0x84 0 0 0 0 0 }, upD
    (dsc 0x39 0x84 0 0 0 0 0), by decide +kernel, by decide +kernel, _, rfl, _, rfl, _, rfl, by decide +kernel,
    by decide +kernel⟩,
    ⟨0, 1, 0x38, .unitFence 0 1, true, { idx := 0, desc := dsc 0x38 1 0 0 0 0 0 },
    { upD (dsc 0x38 1 0 0 0 0 0) with prism := { fenced := 1 } }, by decide +kernel, by decide +kernel, _, rfl,
    _, rfl, _, rfl, by decide +kernel, by decide +kernel, by decide +kernel⟩,
    ⟨0, 1, 0x39, .unitUnfence 0 1, false, { idx := 0, desc := dsc 0x39 1 0 0 0 0 0 }, upD (dsc 0x39 1 0 0 0 0 0),
    by decide +kernel, by decide +kernel, _, rfl, _, rfl, _, rfl, by decide +kernel, by decide +kernel,
    by decide +kernel⟩,
    ⟨0, 1, 0x38, .unitFence 0 1, true, { idx := 0, desc := dsc 0x38 1 0 0 0 0 0 }, upD (dsc 0x38 1 0 0 0 0 0),
    by decide +kernel, by decide +kernel, _, rfl, _, rfl, _, rfl, by decide +kernel, by decide +kernel⟩,
    ⟨0, 1, 0x38, .unitFence 0 1, true, { idx := 0, desc := dsc 0x38 0xA 0 0 0 0 0 },
    { upD (dsc 0x38 0xA 0 0 0 0 0) with err := { lan := 1 } }, by decide +kernel, by decide +kernel, _, rfl, _,
    rfl, _, rfl, by decide +kernel, by decide +kernel⟩,
    ⟨0, 1, 0x38, .unitFence 0 1, true, { idx := 0, desc := dsc 0x38 4 0 0 0 0 0 },
    { upD (dsc 0x38 4 0 0 0 0 0) with memc := { up.memc with fenced := some 1 } }, by decide +kernel,
    by decide +kernel, _, rfl, _, rfl, _, rfl, by decide +kernel, by decide +kernel⟩,
    ⟨0, 1, 0x39, .unitUnfence 0 1, false, { idx := 0, desc := dsc 0x39 1 0 0 0 0 0 },
    { upD (dsc 0x39 1 0 0 0 0 0) with prism := { fenced := 1 } }, by decide +kernel, by decide +kernel, _, rfl,
    _, rfl, _, rfl, by decide +kernel, by decide +kernel, by decide +kernel⟩,
    ⟨0, 1, 0x39, .unitUnfence 0 1, false, { idx := 0, desc := dsc 0x39 4 0 0 0 0 0 },
    { upD (dsc 0x39 4 0 0 0 0 0) with memc := { up.memc with fenced := some 0 } }, by decide +kernel,
    by decide +kernel, _, rfl, _, rfl, _, rfl, by decide +kernel, by decide +kernel, by decide +kernel⟩,
    ⟨0, 1, 0x39, .unitUnfence 0 1, false, { idx := 0, desc := dsc 0x39 4 0 0 0 0 0 },
    { modQ 0 true 1 (fun x => { x with acc := 1 }) (upD (dsc 0x39 4 0 0 0 0 0)) with memc := { up.memc with fenced := some 0 } },
    by decide +kernel, by decide +kernel, _, rfl, _, rfl, _, rfl, by decide +kernel, by decide +kernel,
    by decide +kernel⟩,
    ⟨up, by decide +kernel⟩,
    ⟨{ up with err := { winAt := 1000000000000 } }, by decide +kernel⟩⟩

theorem wit_DumpAgentsAndSelectionComplete :
    (∃ s : State, (s.cip.scan = false) ∧ (s.err.mode = .umbra) ∧ (s.err.dumpDone = false) ∧ (s.memc.regions ≠ [])) ∧
    (∃ s : State, (s.err.mode ≠ .umbra ∨ s.err.dumpDone ∨ s.memc.regions = [])) ∧
    (∃ s : State, (s.err.mode ≠ .umbra ∨ s.err.dumpDone ∨ s.memc.regions = [])) ∧
    (∃ s : State, (s.err.mode ≠ .umbra ∨ s.err.dumpDone ∨ s.memc.regions = [])) ∧
    (∃ s : State, (s.cip.scan = false) ∧ (s.err.mode = .umbra) ∧ (s.err.copying)) ∧
    (∃ s : State, (s.err.mode ≠ .umbra ∨ s.err.copying = false)) ∧
    (∃ s : State, (s.err.mode ≠ .umbra ∨ s.err.copying = false)) ∧
    (∃ s : State, (running s)) ∧
    (∃ s : State, (running s)) ∧
    (∃ a : Nat, ∃ s : State, (running s) ∧ ((getAgent s a).st = 1)) ∧
    (∃ a : Nat, ∃ s : State, (running s) ∧ ((getAgent s a).st = 1)) ∧
    (∃ a : Nat, ∃ s : State, ((getAgent s a).st ≠ 1)) ∧
    (∃ s : State, (running s)) ∧
    (∃ s : State, (running s)) :=
  ⟨⟨{ up with err := { mode := .umbra }, memc := { regions := [0] } }, by decide +kernel, by decide +kernel,
    by decide +kernel, by decide +kernel⟩,
    ⟨up, by decide +kernel⟩,
    ⟨{ up with err := { mode := .umbra, dumpDone := true } }, by decide +kernel⟩,
    ⟨{ up with err := { mode := .umbra }, memc := {} }, by decide +kernel⟩,
    ⟨{ up with err := { mode := .umbra, copying := true } }, by decide +kernel, by decide +kernel,
    by decide +kernel⟩,
    ⟨up, by decide +kernel⟩,
    ⟨{ up with err := { mode := .umbra } }, by decide +kernel⟩,
    ⟨up, by decide +kernel⟩,
    ⟨up, by decide +kernel⟩,
    ⟨5,
    { up with boot := { run := .running, agents := [(5, { st := 1, entry := { (default : AgentEntry) with wdogMs := 10 } })] } },
    by decide +kernel, by decide +kernel⟩,
    ⟨5, { up with boot := { run := .running, agents := [(5, { st := 1 })] } }, by decide +kernel, by decide +kernel⟩,
    ⟨5, up, by decide +kernel⟩,
    
    ⟨{ up with boot := { run := .running, agents := [(5, { st := 1, entry := { (default : AgentEntry) with wdogMs := 10 } })] } },
    by decide +kernel⟩,
    
    ⟨{ up with boot := { run := .running, agents := [(5, { st := 1, entry := { (default : AgentEntry) with wdogMs := 10 } })] } },
    by decide +kernel⟩⟩

theorem wit_ResetsAndBootStagesComplete :
    (∃ n : Nat, (n < 5)) ∧
    (∃ n : Nat, (n < 5)) ∧
    (∃ n : Nat, ∃ s : State, (5 ≤ n) ∧ (s.boot.run ≠ .off) ∧ (s.boot.run ≠ .porst)) ∧
    (∃ n : Nat, ∃ s : State, (5 ≤ n) ∧ (s.boot.run ≠ .off) ∧ (s.boot.run ≠ .porst)) ∧
    (∃ n : Nat, ∃ s : State, (5 ≤ n) ∧ (s.boot.run = .off ∨ s.boot.run = .porst)) ∧
    (∃ n : Nat, ∃ s : State, (5 ≤ n) ∧ (s.boot.run = .off ∨ s.boot.run = .porst)) ∧
    (∃ n : Nat, ∃ s : State, (5 ≤ n) ∧ (s.boot.run = .porst)) ∧
    (∃ n : Nat, ∃ s : State, (5 ≤ n) ∧ (s.boot.run ≠ .porst)) ∧
    (∃ n : Nat, ∃ s : State, (5 ≤ n) ∧ (s.boot.adpLow = false) ∧ (s.boot.run ≠ .off) ∧ (takesWarm s = false)) ∧
    (∃ n : Nat, ∃ s : State, (5 ≤ n) ∧ (s.boot.adpLow = false) ∧ (s.boot.run ≠ .off) ∧ (takesWarm s = false)) ∧
    (∃ n : Nat, ∃ s : State, (5 ≤ n) ∧ (s.boot.adpLow = false) ∧ (s.boot.run ≠ .off) ∧ (takesWarm s) ∧ (s.err.mode ≠
    .umbra) ∧ (s.pwr.st ≠ .glimmer) ∧ (s.pwr.st ≠ .glimmerEntry)) ∧
    (∃ n : Nat, ∃ s : State, (5 ≤ n) ∧ (s.boot.adpLow = false) ∧ (s.boot.run ≠ .off) ∧ (takesWarm s) ∧ (s.err.mode ≠
    .umbra) ∧ (s.pwr.st ≠ .glimmer) ∧ (s.pwr.st ≠ .glimmerEntry)) ∧
    (∃ n : Nat, ∃ s : State, (5 ≤ n) ∧ (s.boot.adpLow = false) ∧ (s.boot.run ≠ .off) ∧ (takesWarm s) ∧ (s.err.mode ≠
    .umbra) ∧ (s.pwr.st = .glimmerEntry)) ∧
    (∃ n : Nat, ∃ s : State, (5 ≤ n) ∧ (s.boot.adpLow = false) ∧ (s.boot.run ≠ .off) ∧ (takesWarm s) ∧ (s.err.mode ≠
    .umbra) ∧ (s.pwr.st = .glimmer)) ∧
    (∃ n : Nat, ∃ s : State, (5 ≤ n) ∧ (s.boot.adpLow = false) ∧ (s.boot.run ≠ .off) ∧ (takesWarm s) ∧ (s.err.mode =
    .umbra) ∧ (s.err.dumpDone)) ∧
    (∃ n : Nat, ∃ s : State, (5 ≤ n) ∧ (s.boot.adpLow = false) ∧ (s.boot.run ≠ .off) ∧ (takesWarm s) ∧ (s.err.mode =
    .umbra) ∧ (s.err.dumpDone = false) ∧ (s.boot.heldWarm = none)) ∧
    (∃ n : Nat, ∃ s : State, (5 ≤ n) ∧ (s.boot.adpLow ∨ s.boot.run = .off)) ∧
    (∃ n : Nat, ∃ s : State, (5 ≤ n) ∧ (s.boot.adpLow ∨ s.boot.run = .off)) ∧
    (∃ n : Nat, (5 ≤ n)) ∧
    (∃ n : Nat, (5 ≤ n)) ∧
    (∃ s : State, (s.boot.run = .off)) ∧
    (∃ v : Variant, ∃ s : State, (s.boot.run ≠ .off ∨ v ≠ s.part)) ∧
    (∃ v : Variant, ∃ s : State, (s.boot.run ≠ .off ∨ v ≠ s.part)) ∧
    (∃ v : Variant, ∃ s : State, (s.boot.run ≠ .off ∨ v ≠ s.part)) ∧
    (∃ f : Nat, ∃ q : Nat, ∃ i : Item, ∃ s : State, (ready s f q 0x3A = some i) ∧ ∃ k, k = (fld i.desc.w2 1 0) ∧ (k =
    0 ∨ k = 3)) ∧
    (∃ f : Nat, ∃ q : Nat, ∃ i : Item, ∃ s : State, (ready s f q 0x3A = some i) ∧ ∃ k, k = (fld i.desc.w2 1 0) ∧ (k =
    0 ∨ k = 3)) ∧
    (∃ f : Nat, ∃ q : Nat, ∃ i : Item, ∃ s : State, (ready s f q 0x3A = some i) ∧ ∃ k, k = (fld i.desc.w2 1 0) ∧ ∃ t,
    t = (startItem f q i.idx s) ∧ ∃ u, u = (completeItem 0 q i.idx stOk t) ∧ (k = 1 ∨ k = 2) ∧ (u.boot.resetWait
    = none)) ∧
    (∃ f : Nat, ∃ q : Nat, ∃ i : Item, ∃ s : State, (ready s f q 0x3A = some i) ∧ ∃ k, k = (fld i.desc.w2 1 0) ∧ ∃ t,
    t = (startItem f q i.idx s) ∧ ∃ u, u = (completeItem 0 q i.idx stOk t) ∧ (k = 1 ∨ k = 2) ∧ (u.boot.resetWait
    = none)) ∧
    (∃ f : Nat, ∃ q : Nat, ∃ i : Item, ∃ s : State, (ready s f q 0x3A = some i) ∧ ∃ k, k = (fld i.desc.w2 1 0) ∧ ∃ t,
    t = (startItem f q i.idx s) ∧ ∃ u, u = (completeItem 0 q i.idx stOk t) ∧ (k = 1 ∨ k = 2) ∧ (u.boot.resetWait
    ≠ none)) ∧
    (∃ t : U64, ∃ s : State, (s.boot.heldWarm = some t) ∧ (s.err.mode = .umbra) ∧ (s.err.dumpDone ∨ elapsed s t (ms
    100))) ∧
    (∃ t : U64, ∃ s : State, (s.boot.heldWarm = some t) ∧ (s.err.mode = .umbra) ∧ (s.err.dumpDone ∨ elapsed s t (ms
    100))) ∧
    (∃ t : U64, ∃ s : State, (s.boot.heldWarm = some t) ∧ (s.err.dumpDone = false) ∧ (elapsed s t (ms 100) = false)) ∧
    (∃ s : State, (s.boot.run = .boot) ∧ (awake s) ∧ (s.boot.stage = 0)) ∧
    (∃ s : State, (s.boot.run = .boot) ∧ (awake s) ∧ (s.boot.stage = 1)) ∧
    (∃ s : State, (s.boot.run = .boot) ∧ (awake s) ∧ (s.boot.stage = 1)) ∧
    (∃ info : BootInfo, ∃ s : State, (s.boot.run = .boot) ∧ (awake s) ∧ (s.boot.stage = 2) ∧ ((chooseBank s info).1 ≠
    none)) ∧
    (∃ info : BootInfo, ∃ s : State, (s.boot.run = .boot) ∧ (awake s) ∧ (s.boot.stage = 2) ∧ ((chooseBank s info).1 ≠
    none)) ∧
    (∃ info : BootInfo, ∃ s : State, (s.boot.run = .boot) ∧ (awake s) ∧ (s.boot.stage = 2) ∧ ((chooseBank s info).1 =
    none)) ∧
    (∃ s : State, (s.boot.run = .boot) ∧ (awake s) ∧ (s.boot.stage = 3) ∧ ((coreFenced s 0 ∧ coreFenced s 1))) ∧
    (∃ s : State, (s.boot.run = .boot) ∧ (awake s) ∧ (s.boot.stage = 3) ∧ (¬ (coreFenced s 0 ∧ coreFenced s 1))) ∧
    (∃ s : State, (s.boot.run = .boot) ∧ (awake s) ∧ (s.boot.stage = 3) ∧ (¬ (coreFenced s 0 ∧ coreFenced s 1))) ∧
    (∃ info : BootInfo, ∃ s : State, (s.boot.run = .boot) ∧ (awake s) ∧ (s.boot.stage = 4) ∧ (info.trained)) ∧
    (∃ info : BootInfo, ∃ s : State, (s.boot.run = .boot) ∧ (awake s) ∧ (s.boot.stage = 4) ∧ (info.trained = false)) ∧
    (∃ s : State, (s.boot.run = .boot) ∧ (awake s) ∧ (s.boot.stage = 5)) ∧
    (∃ s : State, (s.boot.run = .boot) ∧ (awake s) ∧ (s.boot.stage = 6)) ∧
    (∃ s : State, (s.boot.run = .boot) ∧ (awake s) ∧ (s.boot.stage = 7)) ∧
    (∃ s : State, (s.boot.run = .boot) ∧ (awake s) ∧ (s.boot.stage = 8)) ∧
    (∃ s : State, (s.boot.run = .boot) ∧ (awake s) ∧ (s.boot.stage = 9)) :=
  ⟨⟨4, by decide +kernel⟩,
    ⟨0, by decide +kernel⟩,
    ⟨5, up, by decide +kernel, by decide +kernel, by decide +kernel⟩,
    ⟨5, { up with boot := { run := .rails }, pwr := { seqDown := some 3 } }, by decide +kernel, by decide +kernel,
    by decide +kernel⟩,
    ⟨5, { up with boot := { run := .off } }, by decide +kernel, by decide +kernel⟩,
    ⟨5, { up with boot := { run := .porst } }, by decide +kernel, by decide +kernel⟩,
    ⟨5, { up with boot := { run := .porst } }, by decide +kernel, by decide +kernel⟩,
    ⟨5, up, by decide +kernel, by decide +kernel⟩,
    ⟨5, { up with boot := { run := .porst } }, by decide +kernel, by decide +kernel, by decide +kernel,
    by decide +kernel⟩,
    ⟨5, { up with boot := { run := .rails } }, by decide +kernel, by decide +kernel, by decide +kernel,
    by decide +kernel⟩,
    ⟨5, up, by decide +kernel, by decide +kernel, by decide +kernel, by decide +kernel, by decide +kernel,
    by decide +kernel, by decide +kernel⟩,
    ⟨5, State.reset, by decide +kernel, by decide +kernel, by decide +kernel, by decide +kernel, by decide +kernel,
    by decide +kernel, by decide +kernel⟩,
    ⟨5, { up with pwr := { st := .glimmerEntry } }, by decide +kernel, by decide +kernel, by decide +kernel,
    by decide +kernel, by decide +kernel, by decide +kernel⟩,
    ⟨5, { up with pwr := { st := .glimmer } }, by decide +kernel, by decide +kernel, by decide +kernel,
    by decide +kernel, by decide +kernel, by decide +kernel⟩,
    ⟨5, { up with err := { mode := .umbra, dumpDone := true } }, by decide +kernel, by decide +kernel,
    by decide +kernel, by decide +kernel, by decide +kernel, by decide +kernel⟩,
    ⟨5, { up with err := { mode := .umbra } }, by decide +kernel, by decide +kernel, by decide +kernel,
    by decide +kernel, by decide +kernel, by decide +kernel, by decide +kernel⟩,
    ⟨5, { up with boot := { run := .off } }, by decide +kernel, by decide +kernel⟩,
    ⟨5, { up with boot := { run := .running, adpLow := true } }, by decide +kernel, by decide +kernel⟩,
    ⟨5, by decide +kernel⟩,
    ⟨5, by decide +kernel⟩,
    ⟨{ up with boot := { run := .off } }, by decide +kernel⟩,
    ⟨.dn7216, up, by decide +kernel⟩,
    ⟨up.part, up, by decide +kernel⟩,
    ⟨.dn7232, { up with part := .dn7216, boot := { run := .off } }, by decide +kernel⟩,
    ⟨0, 1, { idx := 0, desc := dsc 0x3A 0 0 0 0 0 0 }, upD (dsc 0x3A 0 0 0 0 0 0), by decide +kernel, _, rfl,
    by decide +kernel⟩,
    ⟨0, 1, { idx := 0, desc := dsc 0x3A 3 0 0 0 0 0 }, upD (dsc 0x3A 3 0 0 0 0 0), by decide +kernel, _, rfl,
    by decide +kernel⟩,
    ⟨0, 1, { idx := 0, desc := dsc 0x3A 1 0 0 0 0 0 }, upD (dsc 0x3A 1 0 0 0 0 0), by decide +kernel, _, rfl, _,
    rfl, _, rfl, by decide +kernel, by decide +kernel⟩,
    ⟨0, 1, { idx := 0, desc := dsc 0x3A 2 0 0 0 0 0 }, upD (dsc 0x3A 2 0 0 0 0 0), by decide +kernel, _, rfl, _,
    rfl, _, rfl, by decide +kernel, by decide +kernel⟩,
    ⟨0, 1, { idx := 0, desc := dsc 0x3A 2 0 0 0 0 0 },
    { upD (dsc 0x3A 2 0 0 0 0 0) with boot := { run := .running, resetWait := some (2, 0, false) } },
    by decide +kernel, _, rfl, _, rfl, _, rfl, by decide +kernel, by decide +kernel⟩,
    ⟨0,
    { up with now := 25000000, err := { mode := .umbra, dumpDone := false }, boot := { run := .running, heldWarm := some 0 } },
    by decide +kernel, by decide +kernel, by decide +kernel⟩,
    ⟨0,
    { up with now := 1, err := { mode := .umbra, dumpDone := true }, boot := { run := .running, heldWarm := some 0 } },
    by decide +kernel, by decide +kernel, by decide +kernel⟩,
    ⟨0,
    { up with now := 24999999, err := { mode := .umbra, dumpDone := false }, boot := { run := .running, heldWarm := some 0 } },
    by decide +kernel, by decide +kernel, by decide +kernel⟩,
    ⟨{ up with boot := { stage := 0 } }, by decide +kernel, by decide +kernel, by decide +kernel⟩,
    ⟨{ up with boot := { stage := 1 } }, by decide +kernel, by decide +kernel, by decide +kernel⟩,
    ⟨{ up with boot := { stage := 1 } }, by decide +kernel, by decide +kernel, by decide +kernel⟩,
    
    ⟨{ (default : BootInfo) with bankA := { headerOk := true, ownerSigOk := true, fwSigOk := true, sectionsOk := true, image := { (default : Image) with mem := { rate := 6400, mirror := 64, tilepool := 0, spill := 0, lantern := 0 }, facets := { (default : FacetEntry) with on := true, record := List.replicate 10 0 ++ [0xFFFFFFFFFFFFF000] ++ List.replicate 5 0 } :: List.replicate 127 default, thermal := List.replicate 14 0 } }, channels := 16, chMib := 2048 },
    { up with boot := { stage := 2 } }, by decide +kernel, by decide +kernel, by decide +kernel,
    by decide +kernel⟩,
    
    ⟨{ (default : BootInfo) with bankB := { headerOk := true, ownerSigOk := true, fwSigOk := true, sectionsOk := true, image := { (default : Image) with mem := { rate := 6400, mirror := 64, tilepool := 0, spill := 0, lantern := 0 }, facets := { (default : FacetEntry) with on := true, record := List.replicate 10 0 ++ [0xFFFFFFFFFFFFF000] ++ List.replicate 5 0 } :: List.replicate 127 default, thermal := List.replicate 14 0 } }, channels := 16, chMib := 2048 },
    { up with boot := { stage := 2 } }, by decide +kernel, by decide +kernel, by decide +kernel,
    by decide +kernel⟩,
    ⟨default, { up with boot := { stage := 2 } }, by decide +kernel, by decide +kernel, by decide +kernel,
    by decide +kernel⟩,
    ⟨{ up with boot := { stage := 3 }, err := { lan := 3 } }, by decide +kernel, by decide +kernel,
    by decide +kernel, by decide +kernel⟩,
    ⟨{ up with boot := { stage := 3 } }, by decide +kernel, by decide +kernel, by decide +kernel, by decide +kernel⟩,
    ⟨{ up with boot := { stage := 3 }, err := { lan := 1 } }, by decide +kernel, by decide +kernel,
    by decide +kernel, by decide +kernel⟩,
    ⟨{ (default : BootInfo) with trained := true }, { up with boot := { stage := 4 } }, by decide +kernel,
    by decide +kernel, by decide +kernel, by decide +kernel⟩,
    ⟨default, { up with boot := { stage := 4 } }, by decide +kernel, by decide +kernel, by decide +kernel,
    by decide +kernel⟩,
    ⟨{ up with boot := { stage := 5 } }, by decide +kernel, by decide +kernel, by decide +kernel⟩,
    ⟨{ up with boot := { stage := 6 } }, by decide +kernel, by decide +kernel, by decide +kernel⟩,
    ⟨{ up with boot := { stage := 7 } }, by decide +kernel, by decide +kernel, by decide +kernel⟩,
    ⟨{ up with boot := { stage := 8 } }, by decide +kernel, by decide +kernel, by decide +kernel⟩,
    ⟨{ up with boot := { stage := 9 } }, by decide +kernel, by decide +kernel, by decide +kernel⟩⟩

theorem wit_RegisterWritesComplete :
    (∃ a : Source, ∃ g : Nat, ∃ o : Nat, ∃ f : Nat, ∃ off : Nat, ∃ v : U64, ∃ s : State, (running s) ∧ (pageReach s a
    g o = some (f, off)) ∧ ∃ r : RegView, (off % 4 = 0) ∧ (view s f off = some r) ∧ (r.wide = false) ∧ (takes s
    f off (v &&& 0xFFFFFFFF))) ∧
    (∃ a : Source, ∃ g : Nat, ∃ o : Nat, ∃ f : Nat, ∃ off : Nat, ∃ v : U64, ∃ s : State, (running s) ∧ (pageReach s a
    g o = some (f, off)) ∧ ∃ r : RegView, (off % 8 = 0) ∧ (view s f off = some r) ∧ (r.wide) ∧ (takes s f off v)) ∧
    (∃ a : Source, ∃ g : Nat, ∃ o : Nat, ∃ f : Nat, ∃ off : Nat, ∃ v : U64, ∃ s : State, (running s) ∧ (pageReach s a
    g o = some (f, off)) ∧ ∃ r : RegView, (off % 8 = 0) ∧ (view s f off = some r) ∧ (r.wide) ∧ (r.acc ≠ .one) ∧
    (off ≠ 0xD430) ∧ (takes s f off (v &&& 0xFFFFFFFF))) ∧
    (∃ a : Source, ∃ g : Nat, ∃ o : Nat, ∃ f : Nat, ∃ off : Nat, ∃ v : U64, ∃ s : State, (running s) ∧ (pageReach s a
    g o = some (f, off)) ∧ ∃ r : RegView, (off % 8 = 4) ∧ (view s f off = none) ∧ (view s f (off - 4) = some r)
    ∧ (r.wide) ∧ (r.acc ≠ .one) ∧ (off ≠ 0xD434) ∧ (takes s f (off - 4) (v &&& 0xFFFFFFFF))) ∧
    (∃ a : Source, ∃ g : Nat, ∃ o : Nat, ∃ f : Nat, ∃ off : Nat, ∃ s : State, (running s) ∧ (pageReach s a g o = some
    (f, off)) ∧ (off % 8 = 0) ∧ ((∀ r, view s f off = some r → r.wide = false))) ∧
    (∃ a : Source, ∃ g : Nat, ∃ o : Nat, ∃ f : Nat, ∃ off : Nat, ∃ s : State, (running s) ∧ (pageReach s a g o = some
    (f, off)) ∧ ∃ w : Nat, (¬ (w = 4 ∧ off % 4 = 0)) ∧ (¬ (w = 8 ∧ off % 8 = 0))) ∧
    (∃ a : Source, ∃ g : Nat, ∃ o : Nat, ∃ f : Nat, ∃ off : Nat, ∃ s : State, (running s) ∧ (pageReach s a g o = some
    (f, off)) ∧ ∃ w : Nat, (¬ (w = 4 ∧ off % 4 = 0)) ∧ (¬ (w = 8 ∧ off % 8 = 0))) ∧
    (∃ a : Source, ∃ g : Nat, ∃ o : Nat, ∃ f : Nat, ∃ off : Nat, ∃ s : State, (running s) ∧ (pageReach s a g o = some
    (f, off)) ∧ ∃ w : Nat, (¬ (w = 4 ∧ off % 4 = 0)) ∧ (¬ (w = 8 ∧ off % 8 = 0))) ∧
    (∃ a : Source, ∃ g : Nat, ∃ o : Nat, ∃ s : State, (pageReach s a g o = none)) ∧
    (∃ a : Source, ∃ g : Nat, ∃ o : Nat, ∃ s : State, (pageReach s a g o = none)) ∧
    (∃ v : U32, ∃ s : State, (running s) ∧ (bit v 0) ∧ (s.pwr.holdActive = false)) ∧
    (∃ v : U32, ∃ s : State, (running s) ∧ (bit v 0 = false) ∧ (s.pwr.holdActive)) ∧
    (∃ v : U32, ∃ s : State, (running s) ∧ (bit v 0 = s.pwr.holdActive)) ∧
    (∃ v : U32, ∃ s : State, (running s) ∧ (bit v 0 = s.pwr.holdActive)) ∧
    (∃ f : Nat, (f ≠ 0)) :=
  ⟨⟨.bar, 0, 0xE4CC, 0, 0xE4CC, 5, up, by decide +kernel, by decide +kernel, ((view up 0 0xE4CC).getD default),
    by decide +kernel, by decide +kernel, by decide +kernel, by decide +kernel⟩,
    ⟨.bar, 0, 0x100, 0, 0x100, 5, up, by decide +kernel, by decide +kernel, ((view up 0 0x100).getD default),
    by decide +kernel, by decide +kernel, by decide +kernel, by decide +kernel⟩,
    ⟨.bar, 0, 0xC200, 0, 0xC200, 5, up, by decide +kernel, by decide +kernel, ((view up 0 0xC200).getD default),
    by decide +kernel, by decide +kernel, by decide +kernel, by decide +kernel, by decide +kernel,
    by decide +kernel⟩,
    ⟨.bar, 0, 0xC204, 0, 0xC204, 5, up, by decide +kernel, by decide +kernel, ((view up 0 0xC200).getD default),
    by decide +kernel, by decide +kernel, by decide +kernel, by decide +kernel, by decide +kernel,
    by decide +kernel, by decide +kernel⟩,
    ⟨(.vf 1), 1, 0x100, 1, 0x100, up, by decide +kernel, by decide +kernel, by decide +kernel,
    by (intro r h; exact absurd h (by have : view up 1 0x100 = none := rfl; simp [this]))⟩,
    ⟨.bar, 0, 0x104, 0, 0x104, up, by decide +kernel, by decide +kernel, 8, by decide +kernel, by decide +kernel⟩,
    ⟨.bar, 0, 0x102, 0, 0x102, up, by decide +kernel, by decide +kernel, 4, by decide +kernel, by decide +kernel⟩,
    ⟨.bar, 0, 0x100, 0, 0x100, up, by decide +kernel, by decide +kernel, 2, by decide +kernel, by decide +kernel⟩,
    ⟨(.vf 1), 0, 0x100, up, by decide +kernel⟩,
    ⟨(.agent 1), 0, 0x100, up, by decide +kernel⟩,
    ⟨1, up, by decide +kernel, by decide +kernel, by decide +kernel⟩,
    ⟨0, { up with pwr := { holdActive := true } }, by decide +kernel, by decide +kernel, by decide +kernel⟩,
    ⟨1, { up with pwr := { holdActive := true } }, by decide +kernel, by decide +kernel⟩,
    ⟨0, up, by decide +kernel, by decide +kernel⟩,
    ⟨1, by decide +kernel⟩⟩

theorem wit_RestAndGlimmerCommandsComplete :
    (∃ s : State, (running s) ∧ (s.pwr.st = .active) ∧ (mayRest s) ∧ (elapsed s s.pwr.idleAt (us (2 ^ regf s 0x100 5
    2)))) ∧
    (∃ s : State, (running s) ∧ (s.pwr.st = .active) ∧ (mayRest s) ∧ (elapsed s s.pwr.idleAt (us (2 ^ regf s 0x100 5
    2)) = false)) ∧
    (∃ s : State, (running s) ∧ (s.pwr.st = .active) ∧ (mayRest s = false)) ∧
    (∃ s : State, (running s) ∧ (s.pwr.st = .restEntry)) ∧
    (∃ s : State, (running s) ∧ (s.pwr.st = .restEntry)) ∧
    (∃ s : State, (s.boot.run = .running) ∧ (awake s) ∧ (s.pwr.st = .rest) ∧ (elapsed s s.pwr.entryAt (ms (2 ^ regf s
    0x100 9 6))) ∧ (mayGlimmer s)) ∧
    (∃ s : State, (s.boot.run = .running) ∧ (awake s) ∧ (s.pwr.st = .rest) ∧ (elapsed s s.pwr.entryAt (ms (2 ^ regf s
    0x100 9 6))) ∧ (mayGlimmer s = false)) ∧
    (∃ s : State, (s.pwr.st = .glimmerEntry) ∧ (s.pwr.seqDown = none) ∧ (s.boot.warmAfter)) ∧
    (∃ s : State, (s.pwr.st = .glimmerEntry) ∧ (s.pwr.seqDown = none) ∧ (s.boot.warmAfter = false) ∧ (s.pwr.latch ≠
    0)) ∧
    (∃ s : State, (s.pwr.st = .glimmerEntry) ∧ (s.pwr.seqDown = none) ∧ (s.boot.warmAfter = false) ∧ (s.pwr.latch =
    0)) ∧
    (∃ w : WakeKind, (w.wf)) ∧
    (∃ w : WakeKind, (w.wf)) ∧
    (∃ w : WakeKind, (w.wf)) ∧
    (∃ w : WakeKind, (w.wf)) ∧
    (∃ s : State, (s.pwr.st = .glimmer) ∧ ∃ due, due = (s.pwr.latch ≠ 0 ∨ elapsed s s.pwr.sampleAt (ms (samplePeriod
    s))) ∧ (due)) ∧
    (∃ s : State, (s.pwr.st = .glimmer) ∧ ∃ due, due = (s.pwr.latch ≠ 0 ∨ elapsed s s.pwr.sampleAt (ms (samplePeriod
    s))) ∧ (due)) ∧
    (∃ s : State, (s.pwr.st = .glimmer) ∧ ∃ due, due = (s.pwr.latch ≠ 0 ∨ elapsed s s.pwr.sampleAt (ms (samplePeriod
    s))) ∧ (due)) ∧
    (∃ s : State, (s.pwr.st = .glimmer) ∧ ∃ due, due = (s.pwr.latch ≠ 0 ∨ elapsed s s.pwr.sampleAt (ms (samplePeriod
    s))) ∧ (¬ due)) ∧
    (∃ t : U64, ∃ s : State, (s.pwr.wakeUp = some t)) ∧
    (∃ t : U64, ∃ s : State, (s.pwr.wakeUp = some t)) :=
  ⟨⟨{ up with regs := [(0x100, 1)] }, by decide +kernel, by decide +kernel, by decide +kernel, by decide +kernel⟩,
    ⟨{ up with regs := [(0x100, 1)], pwr := { idleAt := 1000000000000 } }, by decide +kernel, by decide +kernel,
    by decide +kernel, by decide +kernel⟩,
    ⟨{ up with regs := [(0x100, 0)] }, by decide +kernel, by decide +kernel, by decide +kernel⟩,
    
    ⟨{ up with pwr := { st := .restEntry, asked := [3], entryAt := 999999997500 }, fab := { links := [(3, { st := .active })] } },
    by decide +kernel, by decide +kernel⟩,
    
    ⟨{ up with pwr := { st := .restEntry, asked := [3], entryAt := 999999997501 }, fab := { links := [(3, { st := .active })] } },
    by decide +kernel, by decide +kernel⟩,
    ⟨{ up with pwr := { st := .rest }, regs := [(0x100, 3)], thm := { temps := [] } }, by decide +kernel,
    by decide +kernel, by decide +kernel, by decide +kernel, by decide +kernel⟩,
    ⟨{ up with pwr := { st := .rest }, regs := [(0x100, 1)] }, by decide +kernel, by decide +kernel,
    by decide +kernel, by decide +kernel, by decide +kernel⟩,
    ⟨{ up with pwr := { st := .glimmerEntry }, boot := { run := .running, warmAfter := true } }, by decide +kernel,
    by decide +kernel, by decide +kernel⟩,
    ⟨{ up with pwr := { st := .glimmerEntry, latch := 1 }, boot := { run := .running } }, by decide +kernel,
    by decide +kernel, by decide +kernel, by decide +kernel⟩,
    ⟨{ up with pwr := { st := .glimmerEntry }, boot := { run := .running } }, by decide +kernel, by decide +kernel,
    by decide +kernel, by decide +kernel⟩,
    ⟨.wakeDn 3, by decide +kernel⟩,
    ⟨.perstUp, by decide +kernel⟩,
    ⟨.pattern 1, by decide +kernel⟩,
    ⟨.perstUp, by decide +kernel⟩,
    ⟨{ up with pwr := { st := .glimmer } }, by decide +kernel, _, rfl, by decide +kernel⟩,
    ⟨{ up with pwr := { st := .glimmer } }, by decide +kernel, _, rfl, by decide +kernel⟩,
    ⟨{ up with pwr := { st := .glimmer, latch := 1, sampleAt := 1000000000000 } }, by decide +kernel, _, rfl,
    by decide +kernel⟩,
    ⟨{ up with pwr := { st := .glimmer, sampleAt := 1000000000000 } }, by decide +kernel, _, rfl, by decide +kernel⟩,
    ⟨0, { up with now := 250000000, pwr := { wakeUp := some 0 } }, by decide +kernel⟩,
    ⟨0, { up with now := 249999999, pwr := { wakeUp := some 0 } }, by decide +kernel⟩⟩

theorem wit_RailAndCoolingCommandsComplete :
    (∃ r : Nat, ∃ s : State, (railAwaits s r)) ∧
    (∃ r : Nat, ∃ s : State, (railAwaits s r)) ∧
    (∃ r : Nat, ∃ s : State, (railAwaits s r)) ∧
    (∃ r : Nat, ∃ s : State, (railAwaits s r = false)) ∧
    (∃ r : Nat, ∃ s : State, (railAwaits s r = false)) ∧
    (∃ s : State, (s.boot.run = .retryWait) ∧ (s.pwr.seqDown = none)) ∧
    (∃ s : State, (s.boot.run = .retryWait) ∧ (s.pwr.seqDown = none)) ∧
    (∃ s : State, (stage5Past s) ∧ (bit (reg s 0x100) 10) ∧ (elapsed s s.pwr.avsAt (ms 10))) ∧
    (∃ s : State, (stage5Past s) ∧ (bit (reg s 0x100) 10) ∧ (elapsed s s.pwr.avsAt (ms 10))) ∧
    (∃ s : State, (stage5Past s) ∧ (bit (reg s 0x100) 10) ∧ (elapsed s s.pwr.avsAt (ms 10))) ∧
    (∃ s : State, (stage5Past s) ∧ (bit (reg s 0x100) 10) ∧ (elapsed s s.pwr.avsAt (ms 10))) ∧
    (∃ s : State, (stage5Past s = false ∨ bit (reg s 0x100) 10 = false ∨ elapsed s s.pwr.avsAt (ms 10) = false)) ∧
    (∃ s : State, (stage5Past s = false ∨ bit (reg s 0x100) 10 = false ∨ elapsed s s.pwr.avsAt (ms 10) = false)) ∧
    (∃ s : State, (stage5Past s) ∧ (elapsed s s.thm.at_ (ms (25 * 2 ^ regf s 0x200 63 60)))) ∧
    (∃ s : State, (stage5Past s) ∧ (elapsed s s.thm.at_ (ms (25 * 2 ^ regf s 0x200 63 60)))) ∧
    (∃ s : State, (stage5Past s = false ∨ elapsed s s.thm.at_ (ms (25 * 2 ^ regf s 0x200 63 60)) = false)) ∧
    (∃ s : State, (stage5Past s = false ∨ elapsed s s.thm.at_ (ms (25 * 2 ^ regf s 0x200 63 60)) = false)) :=
  ⟨⟨7, { up with boot := { run := .rails }, pwr := { railOn := 0x80 } }, by decide +kernel⟩,
    ⟨7, { up with boot := { run := .rails }, pwr := { railOn := 0x80 } }, by decide +kernel⟩,
    ⟨7, { up with boot := { run := .rails }, pwr := { railOn := 0x80, railAt := 1000000000000 } },
    by decide +kernel⟩,
    ⟨7, { up with boot := { run := .rails }, pwr := { railOn := 0x80, railPg := 0x80 } }, by decide +kernel⟩,
    ⟨8, up, by decide +kernel⟩,
    ⟨{ up with boot := { run := .retryWait } }, by decide +kernel, by decide +kernel⟩,
    ⟨{ up with boot := { run := .retryWait }, pwr := { entryAt := 1000000000000 } }, by decide +kernel,
    by decide +kernel⟩,
    ⟨{ up with regs := [(0x100, 0x400)] }, by decide +kernel, by decide +kernel, by decide +kernel⟩,
    ⟨{ up with regs := [(0x100, 0x400)] }, by decide +kernel, by decide +kernel, by decide +kernel⟩,
    ⟨{ up with regs := [(0x100, 0x400)] }, by decide +kernel, by decide +kernel, by decide +kernel⟩,
    ⟨{ up with regs := [(0x100, 0x400)] }, by decide +kernel, by decide +kernel, by decide +kernel⟩,
    ⟨up, by decide +kernel⟩,
    ⟨{ { up with regs := [(0x100, 0x400)] } with pwr := { avsAt := 1000000000000 } }, by decide +kernel⟩,
    ⟨up, by decide +kernel, by decide +kernel⟩,
    ⟨{ up with thm := { fresh := false }, regs := [(0x208, 1), (0x230, 1)] }, by decide +kernel, by decide +kernel⟩,
    ⟨State.reset, by decide +kernel⟩,
    ⟨{ up with thm := { at_ := 1000000000000 } }, by decide +kernel⟩⟩

end Sys2Proof.Tests
end

section
namespace Sys2Proof.Machine

/-! ### The frame of every command (R18, R65, R105, R139, R250, R275, R312, R333, R379, R393, R403, R428)

Machine/Laws gives the frame of every operation; here the frame goes through the wrappers that commands are made of,
and then to each command. -/

/-- The outcome is a next state, reached from `s` within the parts `ps`. -/
def Answers (ps : List Part) (s : State) (o : Host.Outcome State Fault Refusal) : Prop := ∃ t, o = .next t ∧ Does ps s t

/-- What agrees with the state before on every part but the listed ones, and on memory. -/
theorem does_of_only {ps : List Part} {s t : State} (h : Only ps s t) (hm : t.mem = s.mem) : Does ps s t :=
  ⟨h, fun w => hm ▸ w⟩

section
variable {ps : List Part} {s : State}

theorem answers_next {t : State} (h : Does ps s t) : Answers ps s (.next t) := ⟨t, rfl, h⟩

/-- A command under a condition: it acts, or it has no effect. -/
theorem answers_when {c : Bool} {g : State → State} (h : Does ps s (g s)) : Answers ps s (.next (when c g s)) :=
  answers_next (by unfold when; exact does_ite h (does_refl ps s))

theorem answers_live {g : State → State} (h : Does ps s (g s)) : Answers ps s (live g s) := answers_when h

theorem answers_onArrival {g : State → State} (h : Does ps s (g s)) : Answers ps s (onArrival g s) := answers_when h

theorem answers_cipCommand {f : Nat} {g : State → State} (h : Does ps s (g s)) : Answers ps s (cipCommand f g s) :=
  answers_live (does_ite h (does_refl ps s))

/-- A command of a link, after which chunks whose packets were lost are sent again (R175). -/
theorem answers_onLink {n : Nat} {g : State → State} (h : Does ps s (g s))
    (hp : subParts [.out, .facets, .arb, .groups, .grp, .fab, .eth, .pwr] ps = true) : Answers ps s (onLink n g s) :=
  answers_when (resendLost_does h hp)

/-- An arriving packet of its command's kind. -/
theorem answers_arrival {mine : Packet → Bool} {go : Packet → State → State} {p : Packet}
    (h : ∀ p t, Does ps s t → Does ps s (go p t)) (hp : subParts [.qps, .zrt, .fab] ps = true) :
    Answers ps s (onArrival (arriveAs mine go p) s) :=
  answers_onArrival (arriveAs_does h (does_refl ps s) hp)

/-- A packet of a group. -/
theorem answers_collPkt {typ sub : Nat} {go : Nat → Packet → State → State} {p : Packet}
    (h : ∀ g p t, Does ps s t → Does ps s (go g p t))
    (hp : subParts [.out, .facets, .arb, .qps, .zrt, .prism, .fab, .eth, .pwr] ps = true) :
    Answers ps s (collPkt typ sub go p s) :=
  answers_arrival (fun _ _ hs => inGroup_does h (restWake_does hs (subParts_of rfl hp)) (subParts_of rfl hp)) (subParts_of rfl hp)
end

/-- An operation under a condition, and one of two operations. -/
theorem does_act {ps : List Part} {s t : State} {c : Bool} {g : State → State} (h : Does ps s (g t)) (ht : Does ps s t) :
    Does ps s (when c g t) := does_ite h ht
theorem does_pick {ps : List Part} {s t : State} {c : Prop} [Decidable c] {g g' : State → State} (h : Does ps s (g t))
    (h' : Does ps s (g' t)) : Does ps s ((if c then g else g') t) := by split <;> assumption

/-- A few parts of `x` replaced, memory not among them. -/
theorem does_update {ps qs : List Part} {s x t : State} (h : Does ps s x) (ht : Only qs x t) (hm : t.mem = x.mem)
    (hp : subParts qs ps = true) : Does ps s t :=
  does_trans h (does_mono (does_of_only ht hm) hp)

/-! Replacing one part changes no other. -/

theorem only_mirror {s : State} {x} : Only [.mirror] s { s with mirror := x } := by
  intro p hp
  cases p
  case mirror => simp at hp
  all_goals rfl

theorem only_prism {s : State} {x} : Only [.prism] s { s with prism := x } := by
  intro p hp
  cases p
  case prism => simp at hp
  all_goals rfl

theorem only_fab {s : State} {x} : Only [.fab] s { s with fab := x } := by
  intro p hp
  cases p
  case fab => simp at hp
  all_goals rfl

theorem only_memc {s : State} {x} : Only [.memc] s { s with memc := x } := by
  intro p hp
  cases p
  case memc => simp at hp
  all_goals rfl

theorem only_mov {s : State} {x} : Only [.mov] s { s with mov := x } := by
  intro p hp
  cases p
  case mov => simp at hp
  all_goals rfl

theorem only_trust {s : State} {x} : Only [.trust] s { s with trust := x } := by
  intro p hp
  cases p
  case trust => simp at hp
  all_goals rfl

theorem only_cip {s : State} {x} : Only [.cip] s { s with cip := x } := by
  intro p hp
  cases p
  case cip => simp at hp
  all_goals rfl

theorem only_boot {s : State} {x} : Only [.boot] s { s with boot := x } := by
  intro p hp
  cases p
  case boot => simp at hp
  all_goals rfl

theorem only_pwr {s : State} {x} : Only [.pwr] s { s with pwr := x } := by
  intro p hp
  cases p
  case pwr => simp at hp
  all_goals rfl

theorem only_now_boot {s : State} {x y} : Only [.now, .boot] s { s with now := x, boot := y } := by
  intro p hp
  cases p
  case now | boot => simp at hp
  all_goals rfl

theorem only_facets_cip_trust {s : State} {x y z} :
    Only [.facets, .cip, .trust] s { s with facets := x, cip := y, trust := z } := by
  intro p hp
  cases p
  case facets | cip | trust => simp at hp
  all_goals rfl

/-- Every command answers a next state, which differs from the state before at most in the command's own parts, and
keeps the memory's canonical form. -/
theorem exec_answers (c : Instr) (s : State) : Answers (touches c) s (exec c s) := by
  have h := does_refl (touches c) s
  cases c with
  | porstN _ _ => exact answers_when (does_pick (porstLow_does h rfl) (porstHigh_does h rfl))
  | adpRstN _ _ => exact answers_when (does_pick (adpLow_does h rfl) (adpHigh_does h rfl))
  | powerLoss => exact answers_next (powerLoss_does h rfl)
  | umbraResetHoldEnd => exact answers_next (by split; exacts [does_act (umbraReset_does h rfl) h, h])
  | deviceReset _ _ => exact answers_live (startWith_does (fun _ _ h => deviceReset_does h rfl) h rfl)
  | bootStageDone _ => exact answers_when (stageDone_does h rfl)
  | registerWrite _ _ _ _ => exact answers_live (by split; exacts [writeReg_does h rfl, h])
  | fetchGrant => exact answers_live (arbitrate_does h rfl)
  | fetchReadDone _ _ _ _ =>
    exact answers_live (readBack_does (fun _ h => fetchDone_does h rfl) (readsEnd_does h rfl) rfl)
  | reread _ _ _ => exact answers_live (rereadSlot_does h rfl)
  | queSqDoorbell _ _ _ => exact answers_live (sqDoorbell_does h rfl)
  | push _ _ _ _ _ => exact answers_live (by split; exacts [pushInto_does h rfl, h])
  | descriptorAccept _ _ _ => exact answers_live (acceptNext_does h rfl)
  | progressRecord _ _ _ => exact answers_live (does_act (writeRecord_does h rfl) h)
  | eventEntry _ _ _ => exact answers_live (eventEntry_does h rfl)
  | msixHoldExpiry _ _ => exact answers_live (msixCheck_does h rfl)
  | queEvrCons _ _ _ => exact answers_live (does_act (writeCons_does h rfl) h)
  | queEvrConsArm _ _ _ => exact answers_live (does_act (writeCons_does h rfl) h)
  | queRqDoorbell _ _ _ => exact answers_live (doorbell_does h rfl)
  | queueCreate _ k _ =>
    exact answers_live (does_act (by
      cases k
      · exact settle_does (createQueue_does h rfl) rfl
      · exact settle_does (createQueue_does h rfl) rfl
      · exact createRing_does h rfl) h)
  | queueDestroy _ k _ =>
    exact answers_live (does_act (by
      cases k
      · exact destroyQueue_does h rfl
      · exact destroyQueue_does h rfl
      · exact shrinkEval_does (destroyRing_does h rfl) rfl) h)
  | queueRestart _ _ _ => exact answers_live (does_act (settle_does (modQ_does h rfl) rfl) h)
  | nop _ _ => exact answers_next (startWith_does (fun _ _ h => completeItem_does h rfl) h rfl)
  | write _ _ => exact answers_live (startTransfer_does h rfl)
  | read _ _ => exact answers_live (startTransfer_does h rfl)
  | send _ _ => exact answers_live (startTransfer_does h rfl)
  | recv _ _ => exact answers_live (postRecv_does h rfl)
  | qpCreate _ => exact answers_live (qpCommand_does (fun _ _ h => createQp_does h rfl) h rfl)
  | qpConnect _ => exact answers_live (qpCommand_does (fun _ _ h => connectQp_does h rfl) h rfl)
  | qpDestroy _ => exact answers_live (qpCommand_does (fun _ _ h => destroyQp_does h rfl) h rfl)
  | qpQuery _ => exact answers_live (qpCommand_does (fun _ _ h => queryQp_does h rfl) h rfl)
  | connect _ => exact answers_arrival (fun _ _ h => onConnect_does h rfl) rfl
  | accept _ => exact answers_arrival (fun _ _ h => onCm_does (fun _ _ _ h => takeAccept_does h rfl) h rfl) rfl
  | reject _ => exact answers_arrival (fun _ _ h => onCm_does (fun _ _ _ h => takeReject_does h rfl) h rfl) rfl
  | connectRetry _ => exact answers_live (does_act (connectAgain_does h rfl) h)
  | writePacket _ => exact answers_arrival (fun _ _ h => toQp_does h rfl) rfl
  | sendPacket _ => exact answers_arrival (fun _ _ h => toQp_does h rfl) rfl
  | readReq _ => exact answers_arrival (fun _ _ h => toQp_does h rfl) rfl
  | readResp _ => exact answers_arrival (fun _ _ h => toQp_does h rfl) rfl
  | ack _ => exact answers_arrival (fun _ _ h => toQp_does h rfl) rfl
  | nakRnr _ => exact answers_arrival (fun _ _ h => toQp_does h rfl) rfl
  | nakWait _ => exact answers_arrival (fun _ _ h => toQp_does h rfl) rfl
  | nakHold _ => exact answers_arrival (fun _ _ h => toQp_does h rfl) rfl
  | holdClear _ => exact answers_arrival (fun _ _ h => toQp_does h rfl) rfl
  | nakAccess _ => exact answers_arrival (fun _ _ h => toQp_does h rfl) rfl
  | nakNoConn _ => exact answers_arrival (fun _ _ h => toNoConn_does h rfl) rfl
  | contextFetchDone _ => exact answers_onArrival (keysGo_does (contextDone_does h rfl) rfl)
  | packetSend _ => exact answers_live (packetSend_does h rfl)
  | sourceReadDone w _ =>
    exact answers_live (readBack_does (fun _ h => by
      cases w
      · exact packetRead_does h rfl
      · exact respRead_does h rfl
      · exact chunkRead_does h rfl
      · exact moveRead_does h rfl
      · exact framePayload_does h rfl) (readsEnd_does h rfl) rfl)
  | flushReadCompletion _ _ => exact answers_live (flushBack_does h rfl)
  | memWriteComplete => exact answers_live (memComplete_does h rfl)
  | mirrorWriteDone _ => exact answers_live (does_ite (mirrored_does (does_update h only_mirror rfl rfl) rfl) h)
  | resendTimeout _ => exact answers_live (resendTimeout_does h rfl)
  | rnrBackoffEnd _ => exact answers_live (rnrEnd_does h rfl)
  | nakWaitResend _ => exact answers_live (waitResend_does h rfl)
  | holdResend _ => exact answers_live (holdResend_does h rfl)
  | holdLimit _ => exact answers_live (holdLimitEnd_does h rfl)
  | ratePeriod _ => exact answers_live (does_act (modQp_does h rfl) h)
  | wheelSlot => exact answers_live (wheelStep_does h rfl)
  | groupCreate _ _ _ _ _ _ =>
    exact answers_live (descBack_does (fun _ _ h => descFails_does h rfl) (fun _ h => groupCreate_does h rfl) h rfl)
  | groupDestroy _ _ => exact answers_live (startWith_does (fun _ _ h => groupDestroy_does h rfl) h rfl)
  | groupQuery _ _ => exact answers_live (groupQuery_does h rfl)
  | groupSetupResend _ => exact answers_live (does_fold h (fun _ _ h => createLate_does h rfl))
  | setupExpiry _ => exact answers_live (does_act (releaseGroup_does h rfl) h)
  | teardownResend _ => exact answers_live (does_fold h (fun _ _ h => destroyLate_does h rfl))
  | barrier _ _ => exact answers_live (collCommand_does h rfl)
  | allreduce _ _ => exact answers_live (collCommand_does h rfl)
  | reduce _ _ => exact answers_live (collCommand_does h rfl)
  | reduceScatter _ _ => exact answers_live (collCommand_does h rfl)
  | broadcast _ _ => exact answers_live (collCommand_does h rfl)
  | allgather _ _ => exact answers_live (collCommand_does h rfl)
  | gather _ _ => exact answers_live (collCommand_does h rfl)
  | scatter _ _ => exact answers_live (collCommand_does h rfl)
  | alltoall _ _ => exact answers_live (collCommand_does h rfl)
  | gatherv _ _ _ => exact answers_live (auxCommand_does h rfl)
  | alltoallv _ _ _ => exact answers_live (auxCommand_does h rfl)
  | expertDispatch _ _ _ => exact answers_live (auxCommand_does h rfl)
  | expertCombine _ _ _ => exact answers_live (auxCommand_does h rfl)
  | cdata _ => exact answers_collPkt (fun _ _ _ h => onData_does h rfl) rfl
  | counts _ => exact answers_collPkt (fun _ _ _ h => onCounts_does h rfl) rfl
  | capacityFlag _ => exact answers_collPkt (fun _ _ _ h => onFlag_does h rfl) rfl
  | anchorPass _ => exact answers_collPkt (fun _ _ _ h => onAnchor_does h rfl) rfl
  | cconf _ => exact answers_collPkt (fun _ _ _ h => runGroup_does (onConf_does h rfl) rfl) rfl
  | ccommit _ => exact answers_collPkt (fun _ _ _ h => onCommit_does h rfl) rfl
  | resend _ => exact answers_collPkt (fun _ _ _ h => onResend_does h rfl) rfl
  | abort _ => exact answers_collPkt (fun _ _ _ h => onAbort_does h rfl) rfl
  | rollback _ => exact answers_collPkt (fun _ _ _ h => onRollback_does h rfl) rfl
  | gone _ => exact answers_arrival (fun _ _ h => does_ite h (onGone_does (restWake_does h rfl) rfl)) rfl
  | held _ => exact answers_collPkt (fun _ _ _ h => onHeld_does h rfl) rfl
  | setup _ _ => exact answers_arrival (fun _ _ h => does_ite h (onSetup_does (restWake_does h rfl) rfl)) rfl
  | setupOk _ =>
    exact answers_arrival (fun _ _ h =>
      onAnswer_does (fun _ _ _ h => does_ite h (answered_does h rfl)) h rfl) rfl
  | refuse _ => exact answers_arrival (fun _ _ h => onAnswer_does (fun _ _ _ h => failCreate_does h rfl) h rfl) rfl
  | activate _ => exact answers_collPkt (fun _ _ _ h => onActivate_does h rfl) rfl
  | activeOk _ =>
    exact answers_arrival (fun _ _ h =>
      onAnswer_does (fun _ _ _ h => does_ite (answered_does h rfl) h) h rfl) rfl
  | teardown _ => exact answers_collPkt (fun _ _ _ h => onTeardown_does h rfl) rfl
  | confResend _ => exact answers_live (by split; exacts [does_act (sendConf_does h rfl) h, h])
  | chunkResendRequest _ _ =>
    exact answers_live (by
      split
      · exact does_ite (does_act (askCounts_does h rfl) h) (does_act (askChunk_does h rfl) h)
      · exact h)
  | collHoldLimit _ =>
    exact answers_live (by
      dsimp only
      split
      · exact does_ite (does_act (breakGroup_does (sendAbort_does h rfl) rfl) h) (does_act (breakGroup_does h rfl) h)
      · exact h)
  | prismChunkDone _ _ => exact answers_live (chunkDone_does h rfl)
  | residueError _ _ _ _ => exact answers_live (residue_does h rfl)
  | residueWindow => exact answers_when (does_update h only_prism rfl rfl)
  | signalDetect _ => exact answers_onLink (fromState_does (fun _ h => linkTo_does h rfl) h rfl) rfl
  | detectProbe _ => exact answers_onLink (fromState_does (fun _ h => does_act (linkTo_does h rfl) h) h rfl) rfl
  | equalizationDone _ => exact answers_onLink (fromState_does (fun _ h => linkTo_does h rfl) h rfl) rfl
  | trainTimeout _ => exact answers_onLink (fromState_does (fun _ h => does_act (linkTo_does h rfl) h) h rfl) rfl
  | lockAndDeskew _ =>
    exact answers_onLink (fromState_does (fun _ h => emit_does (modL_does (linkTo_does h rfl) rfl) rfl)
      h rfl) rfl
  | alignTimeout _ => exact answers_onLink (fromState_does (fun _ h => does_act (linkDetect_does h rfl) h) h rfl) rfl
  | farLinkWord _ _ => exact answers_onLink (farWord_does h rfl) rfl
  | exchangeTimeout _ => exact answers_onLink (fromState_does (fun _ h => does_act (linkDetect_does h rfl) h) h rfl) rfl
  | lossOfLock _ => exact answers_onLink (linkDown_does h rfl) rfl
  | svlLnkCtrlRetrain _ => exact answers_onLink (linkDown_does h rfl) rfl
  | miswireHoldEnd _ =>
    exact answers_onLink (fromState_does
      (fun _ h => does_act (linkTo_does (does_update h only_fab rfl rfl) rfl) h) h rfl) rfl
  | lpreqRequestSleep _ =>
    exact answers_onLink (fromState_does
      (fun _ h => does_act (maySleep_does (emit_does (modL_does h rfl) rfl) rfl) h) h rfl) rfl
  | lpreqGrantSleep _ =>
    exact answers_onLink (fromState_does
      (fun _ h => does_act (maySleep_does (modL_does h rfl) rfl) h) h rfl) rfl
  | lpreqWake _ _ =>
    exact answers_onLink (fromState_does
      (fun _ h => does_ite (wakeLink_does h rfl) (linkTo_does h rfl)) h rfl) rfl
  | flit _ _ _ _ _ _ => exact answers_onLink (does_act (onFlit_does h rfl) h) rfl
  | replayTimer _ => exact answers_onLink (does_act (replay_does h rfl) h) rfl
  | fecWindow _ => exact answers_onLink (does_act (modL_does h rfl) h) rfl
  | ring _ => exact answers_when (takeRing_does h rfl)
  | ringRefresh => exact answers_when (refreshRings_does h rfl)
  | noroute _ => exact answers_when (takeNoroute_does h rfl)
  | gwShunExpiry _ => exact answers_next (by split; exacts [does_act (does_update h only_fab rfl rfl) h, h])
  | segmentWrite _ => exact answers_live (does_act (segWrite_does h rfl) h)
  | segmentInvalidate _ => exact answers_live (does_act (segInvalidate_does h rfl) h)
  | segmentRead _ => exact answers_live (does_act (segRead_does h rfl) h)
  | translationMissDone _ => exact answers_live (missDone_does h rfl)
  | faultReraise => exact answers_live (does_act (reraise_does h rfl) h)
  | fltResume _ _ => exact answers_live (mgmtWrite_does (fun _ h => resumeFault_does h rfl) h rfl)
  | fltCfgWrite _ _ => exact answers_live (mgmtWrite_does (fun _ h => writeFltCfg_does h rfl) h rfl)
  | fltCons _ _ => exact answers_live (mgmtWrite_does (fun _ h => writeFltCons_does h rfl) h rfl)
  | fltArm _ _ => exact answers_live (mgmtWrite_does (fun _ h => writeFltArm_does h rfl) h rfl)
  | tileMigrate _ _ => exact answers_live (startMig_does h rfl)
  | tileMap _ _ => exact answers_live (startMig_does h rfl)
  | migrationBegin => exact answers_live (beginMig_does h rfl)
  | migrationDrained _ _ _ => exact answers_live (migDrained_does h rfl)
  | migrationCopyDone _ _ _ _ =>
    exact answers_live (by
      split
      · exact h
      · exact does_ite (readBack_does (fun _ h => migCopied_does h rfl) (readsEnd_does h rfl) rfl) h)
  | channelCopyDone => exact answers_live (does_act (does_update h only_memc rfl rfl) h)
  | portDown _ _ => exact answers_next (portDown_does h rfl)
  | dlUp _ _ _ _ _ => exact answers_when (dlUp_does h rfl)
  | pcxAttachEpoch _ => exact answers_live (readEpoch_does h rfl)
  | pcxDevPort _ _ => exact answers_live (readPort_does h rfl)
  | pcxDevPortB _ _ => exact answers_live (readPortB_does h rfl)
  | busMasterEnable _ _ => exact answers_live (busMaster_does h rfl)
  | upstreamReset => exact answers_next (upstreamReset_does h rfl)
  | bridgeConfigWrite _ _ _ _ => exact answers_next (configWrite_does h rfl)
  | flr f =>
    exact answers_next (by
      have hb := does_ite (c := f = 0) (resetBars_does (modF_does (f := f) (g := Facet.resetFunction) h rfl) rfl)
        (modF_does (f := f) (g := Facet.resetFunction) h rfl)
      exact does_act (facetReset_does hb rfl) hb)
  | portReadError _ _ _ _ _ =>
    exact answers_live (does_act (dropReads_does (readFailed_does (countReadError_does h rfl) rfl) rfl) h)
  | flushRetry _ _ =>
    exact answers_live (by
      split
      · exact does_ite (flushNow_does (modP_does h rfl) rfl) h
      · exact h)
  | move _ _ =>
    exact answers_live (startWith_does (fun _ _ h => by
      split
      · exact completeItem_does h rfl
      · exact does_update h only_mov rfl rfl) h rfl)
  | moveChannelGrant => exact answers_live (grantMove_does h rfl)
  | dmaReq _ _ => exact answers_live (does_ite (serveReq_does (modSrc_does h rfl) rfl) h)
  | movFacReq _ _ => exact answers_live (does_act (serveReq_does (modSrc_does h rfl) rfl) h)
  | movFacPendClear _ _ => exact answers_live (does_act (writePend_does h rfl) h)
  | movBuserr _ _ _ _ => exact answers_live (movBusErr_does h rfl)
  | movDevCtrlResume _ => exact answers_live (mgmtWrite_does (fun _ h => resumeMover_does h rfl) h rfl)
  | movDevCtrlAbort _ => exact answers_live (mgmtWrite_does (fun _ h => abortMover_does h rfl) h rfl)
  | facetResize _ _ _ =>
    exact answers_live (descBack_does (fun _ _ h => descFails_does h rfl) (fun _ h => resizeStart_does h rfl) h rfl)
  | facetReset _ _ =>
    exact answers_live (startWith_does (fun _ _ h => does_ite (completeItem_does h rfl)
      (does_ite (completeItem_does h rfl) (modF_does (facetReset_does h rfl) rfl))) h rfl)
  | facetResetAdvance _ => exact answers_live (resetRun_does h rfl)
  | cipKeyLoad _ => exact answers_cipCommand (keyCommand_does h rfl)
  | cipKeyClear _ => exact answers_cipCommand (keyCommand_does h rfl)
  | cipKeySwitch _ => exact answers_cipCommand (keyCommand_does h rfl)
  | cipKeyQuery _ => exact answers_cipCommand (keyCommand_does h rfl)
  | cbcEncrypt _ _ => exact answers_cipCommand (cmpStart_does h rfl)
  | cbcDecrypt _ _ => exact answers_cipCommand (cmpStart_does h rfl)
  | ctr _ _ => exact answers_cipCommand (cmpStart_does h rfl)
  | cipherJobDone _ _ => exact answers_live (does_act (coreDone_does h rfl) h)
  | trustAttReport _ => exact answers_live (does_act (attRequest_does h rfl) h)
  | trustAttCertificate _ => exact answers_live (does_act (attRequest_does h rfl) h)
  | reportSigned => exact answers_live (reportDone_does h rfl)
  | trustDevExtCmd _ _ => exact answers_live (does_act (extendM_does h rfl) h)
  | entropyReady => exact answers_when (entropyReady_does h rfl)
  | drbgReseed => exact answers_when (does_update h only_trust rfl rfl)
  | maskRekey _ => exact answers_when (drew_does (does_update h only_cip rfl rfl) rfl)
  | ethFrame _ _ _ _ _ _ => exact answers_next (ethFrame_does h rfl)
  | ethLinkUp _ _ => exact answers_when (ethUp_does h rfl)
  | ethLinkDown _ _ => exact answers_next (ethDown_does h rfl)
  | ethSend _ _ _ => exact answers_live (ethSend_does h rfl)
  | ethFrameSent _ _ _ => exact answers_live (does_act (frameSent_does h rfl) h)
  | errorEvent _ _ _ _ => exact answers_when (detect_does h rfl)
  | self => exact answers_when (selfEvent_does h rfl)
  | errDevForce _ _ => exact answers_live (mgmtWrite_does (fun _ h => writeForce_does h rfl) h rfl)
  | unitFence _ _ => exact answers_live (startWith_does (fun _ _ h => unitFence_does h rfl) h rfl)
  | unitUnfence _ _ => exact answers_live (startWith_does (fun _ _ h => unitUnfence_does h rfl) h rfl)
  | fenceWindow => exact answers_when (does_err h rfl)
  | dumpWritten => exact answers_when (dumpWritten_does h rfl)
  | hostCopyDone _ => exact answers_when (hostCopyDone_does h rfl)
  | aglSel _ _ => exact answers_live (mgmtWrite_does (fun _ h => writeAglSel_does h rfl) h rfl)
  | agentWatchdog _ => exact answers_live (does_act (restartAgent_does h rfl) h)
  | agentTrap _ => exact answers_live (does_act (restartAgent_does h rfl) h)
  | lanDevKick _ _ => exact answers_live (by split; exacts [h, does_act (does_update h only_boot rfl rfl) h])
  | restIdle => exact answers_live (restIdle_does h rfl)
  | restEntryStep => exact answers_live (restStep_does h rfl)
  | holdActiveWrite _ _ => exact answers_live (mgmtWrite_does (fun _ h => writeHold_does h rfl) h rfl)
  | glimmerIdle => exact answers_when (glimmerIdle_does h rfl)
  | glimmerEntryDone => exact answers_next (glimmerAsleep_does h rfl)
  | wakeInput _ => exact answers_when (latchWake_does h rfl)
  | sampleCycle _ => exact answers_next (sampleCycle_does h rfl)
  | wakeUpTimeout => exact answers_next (by split; exacts [does_act (wakeUpEnd_does h rfl) h, h])
  | powerGood _ => exact answers_next (powerGood_does h rfl)
  | railTimeout _ => exact answers_next (railTimeout_does h rfl)
  | railOff _ => exact answers_when (railDown_does (does_update h only_pwr rfl rfl) rfl)
  | avsTrim _ _ _ _ => exact answers_when (avsSet_does (avsSet_does (does_update h only_pwr rfl rfl) rfl) rfl)
  | coolingPeriod _ => exact answers_when (loopPeriod_does h rfl)
  | powerOn _ => exact answers_when (does_update h only_now_boot rfl rfl)
  | railSequenceRetry => exact answers_when (railUp_does (does_update h only_boot rfl rfl) rfl)
  | prismPowerUp => exact answers_live (does_act (wakeColls_does (does_update h only_prism rfl rfl) rfl) h)
  | channelUnfenceCopyDone => exact answers_live (channelBack_does h rfl)
  | scanTestEntry => exact answers_next (does_update h only_facets_cip_trust rfl rfl)
  | msixEnable _ => exact answers_live (sendPba_does (modF_does h rfl) rfl)
  | peerRequest _ _ _ _ _ _ => exact answers_next (peerRequest_does h rfl)
  | windowWrite _ _ => exact answers_live (windowWrite_does h rfl)

/-- Settles O5: every command answers within its parts. -/
theorem everyCommandChangesOnlyItsParts : Obligations.EveryCommandChangesOnlyItsParts := by
  intro c s t h
  obtain ⟨u, hu, hd⟩ := exec_answers c s
  rw [hu] at h
  cases h
  exact hd.only

/-- What no command's parts hold. -/
theorem pending_not_touched (c : Instr) : Part.pending ∉ touches c := by
  cases c <;> simp [touches]

theorem part_not_touched (c : Instr) : Part.part ∉ touches c := by
  cases c <;> simp [touches]

end Sys2Proof.Machine
end

section
namespace Sys2Proof.Machine

/-- Settles O6: the waiting commands and the part are in no command's parts. -/
theorem noCommandStopsOrTouchesTheQueue : Obligations.NoCommandStopsOrTouchesTheQueue := by
  refine ⟨fun c s => ?_, fun c s t h => everyCommandChangesOnlyItsParts c s t h .part (part_not_touched c)⟩
  obtain ⟨t, ht, hd⟩ := exec_answers c s
  exact ⟨t, ht, hd.only .pending (pending_not_touched c)⟩

/-! ### A register write through a facet's page (R18, R320, R418) -/

/-- What a write of a register that every facet's page has may change. -/
def facetParts : List Part :=
  [.free, .out, .mem, .facets, .qps, .zrt, .mirror, .fab, .xlt, .memc, .pcx, .mov, .cip, .trust, .eth, .pwr]

section
variable {ps : List Part} {s₀ s : State} {f off : Nat} {v : U64}

theorem writeWhole_does_facet (hf : f ≠ 0) (h : Does ps s₀ s) (hp : subParts facetParts ps = true) :
    Does ps s₀ (writeWhole f off v s) := by
  unfold writeWhole
  rw [if_neg hf]
  exact does_ite (facetWrite_does h hp) h

theorem write32_does_facet (hf : f ≠ 0) (h : Does ps s₀ s) (hp : subParts facetParts ps = true) :
    Does ps s₀ (write32 f off v s) := by
  have hw : ∀ o w c, Does ps s₀ (when c (writeWhole f o w) s) := fun o w c => does_act (writeWhole_does_facet hf h hp) h
  unfold write32
  dsimp only
  split
  · exact does_ite (hw ..) (does_ite h (hw ..))
  · exact does_ite (hw ..) h
  · exact does_ite (does_act (queWrite_does h (subParts_of rfl hp)) h) h

theorem writeReg_does_facet {w : Nat} (hf : f ≠ 0) (h : Does ps s₀ s) (hp : subParts facetParts ps = true) :
    Does ps s₀ (writeReg f off w v s) := by
  have h2 : Does ps s₀ (write32 f (off + 4) (v >>> 32) (write32 f off v s)) :=
    write32_does_facet hf (write32_does_facet hf h hp) hp
  unfold writeReg
  refine does_ite (write32_does_facet hf h hp) (does_ite ?_ h)
  split
  · exact does_ite (does_act (writeWhole_does_facet hf h hp) h) h2
  · exact h2
end

section
variable {a : Source} {g o w : Nat} {v : U64} {s : State}

/-- A write that reaches no facet's page has no effect. -/
theorem registerWrite_nowhere (h : pageReach s a g o = none) : exec (.registerWrite ⟨a, g⟩ o w v) s = .next s := by
  show live _ s = _
  simp [live, when, h]

/-- A write that reaches an offset of facet f's page is a write of the register there, while the device runs. -/
theorem registerWrite_reaching {f off : Nat} (h : pageReach s a g o = some (f, off)) :
    exec (.registerWrite ⟨a, g⟩ o w v) s = .next (when (running s) (writeReg f off w v) s) := by
  show live _ s = _
  simp [live, when, h]

/-- A write that reaches another facet's page than the management facet's. -/
theorem registerWrite_only_facet {f off : Nat} {t : State} (h : pageReach s a g o = some (f, off)) (hf : f ≠ 0)
    (ht : exec (.registerWrite ⟨a, g⟩ o w v) s = .next t) : Only facetParts s t := by
  rw [registerWrite_reaching h] at ht
  cases ht
  exact (does_act (writeReg_does_facet hf (does_refl facetParts s) rfl) (does_refl facetParts s)).only
end

/-- The commands whose parts hold the device registers. -/
theorem regs_touched {c : Instr} (h : Part.regs ∈ touches c) :
    (∃ p o w v, c = .registerWrite p o w v) ∨ (∃ i, c = .bootStageDone i) ∨
    (∃ l n, c = .adpRstN l n) ∨ (∃ l n, c = .porstN l n) ∨ c = .powerLoss ∨ c = .umbraResetHoldEnd ∨
    c = .glimmerEntryDone ∨ (∃ r, c = .sampleCycle r) ∨ (∃ p h, c = .flushReadCompletion p h) ∨
    c = .memWriteComplete := by
  cases c <;> simp [touches] at h ⊢

/-- Settles O7: by the parts of every command, and those of a register write by the page that it reaches. -/
theorem whatChangesTheDeviceRegisters : Obligations.WhatChangesTheDeviceRegisters := by
  refine ⟨fun c s t h hr => ?_, fun a g o f off w v s t hp hf h => ?_, fun a g o w v s h => registerWrite_nowhere h⟩
  · by_cases hc : Part.regs ∈ touches c
    · obtain ⟨⟨a, g⟩, o, w, v, rfl⟩ | hc := regs_touched hc
      · refine .inl ⟨a, g, o, w, v, ?_⟩
        cases hp : pageReach s a g o with
        | none => rw [registerWrite_nowhere hp] at h; cases h; exact absurd rfl hr
        | some x =>
          obtain ⟨f, off⟩ := x
          by_cases hf : f = 0
          · exact ⟨off, rfl, by rw [hf]⟩
          · exact absurd (registerWrite_only_facet hp hf h .regs (by decide)) hr
      · exact .inr hc
    · exact absurd (everyCommandChangesOnlyItsParts c s t h .regs hc) hr
  · intro p hk
    refine registerWrite_only_facet hp hf h p fun hm => ?_
    cases p <;> simp [facetParts] at hk hm

end Sys2Proof.Machine
end

section
namespace Sys2Proof.Machine

/-- Settles O3: by evaluation of the reset state; its tables of registers, queues, QPs and groups list nothing. -/
theorem resetLeavesABootingAdapter : Obligations.ResetLeavesABootingAdapter := by
  have hf : ∀ f, f ≠ 0 → getF State.reset f = {} := fun f h => by
    have h0 : ¬ 0 = f := fun e => h e.symm
    simp [getF, aget, State.reset, h0]
  have hq : ∀ f, (getF State.reset f).que = {} := fun f => by
    by_cases h : f = 0
    · rw [h]; rfl
    · rw [hf f h]
  refine ⟨rfl, rfl, rfl, rfl, rfl, rfl, rfl, fun off => rfl, by decide, fun f rq q => ?_, fun n => rfl, fun g => rfl,
    rfl, fun f h => by rw [hf f h]⟩
  unfold getQ
  rw [hq]
  cases rq <;> rfl

end Sys2Proof.Machine
end

section
namespace Sys2Proof.Machine

/-! ### Registers of an absent unit (R2, R9, R19) -/

/-- On a part without a cipher engine no register shows in the cipher blocks of any facet's page. -/
theorem view_absent_cip {s : State} {f off : Nat} (h : hasCip s = false) (hlo : 0xF800 ≤ off) (hhi : off < 0xF900) :
    view s f off = none := by
  have hfacet : facetView s f off = none := by
    unfold facetView
    simp only [h]
    repeat rw [if_neg (by omega)]
    split
    · rfl
    · rw [if_neg (by omega)]
  have hfile : fileHere s off = false := by
    unfold fileHere
    rw [if_neg (by omega), if_neg (by omega), if_pos (by omega), h]
  have hdev : devView s off = none := by
    unfold devView
    simp only [h]
    repeat rw [if_neg (by omega)]
    rw [if_pos (by omega)]
    rfl
  unfold view
  rw [hfacet, hfile, hdev]
  split <;> rfl

/-- On a part without Ethernet no offset of the Ethernet blocks has its unit. -/
theorem ethHere_absent {s : State} {off : Nat} (h0 : hasEth s 0 = false) (h1 : hasEth s 1 = false) :
    ethHere s off = false := by
  unfold ethHere
  split
  · have hp : (off - 0x540) / 0x100 = 0 ∨ (off - 0x540) / 0x100 = 1 := by omega
    rcases hp with hp | hp <;> rw [hp] <;> assumption
  · rw [h0, h1]; rfl

/-- On a part without Ethernet no register shows in the Ethernet blocks of the management facet's page. -/
theorem view_absent_eth {s : State} {off : Nat} (h0 : hasEth s 0 = false) (h1 : hasEth s 1 = false)
    (hlo : 0x500 ≤ off) (hhi : off < 0x1000) : view s 0 off = none := by
  have hfacet : facetView s 0 off = none := by
    unfold facetView
    repeat rw [if_neg (by omega)]
  have hfile : fileHere s off = false := by
    unfold fileHere
    rw [if_pos (by omega), ethHere_absent h0 h1]
  have hdev : devView s off = none := by
    unfold devView
    rw [if_neg (by omega), if_neg (by omega), if_pos (by omega), ethHere_absent h0 h1]
    rfl
  unfold view
  rw [hfacet, hfile, hdev]
  rfl

section
variable {s : State} {f lo hi off w : Nat} {v : U64}

theorem read32_hidden (h : view s f off = none) (h4 : off % 8 = 4 → view s f (off - 4) = none) : read32 s f off = 0 := by
  unfold read32
  rw [h]
  by_cases h8 : off % 8 = 4
  · simp [h4 h8]
  · cases view s f (off - 4) <;> simp [h8]

theorem write32_hidden (h : view s f off = none) (h4 : off % 8 = 4 → view s f (off - 4) = none)
    (hc : isCtrl off = false) : write32 f off v s = s := by
  unfold write32
  rw [h]
  by_cases h8 : off % 8 = 4
  · simp [h4 h8, hc]
  · cases view s f (off - 4) <;> simp [h8, hc]

/-- An access to an aligned block of offsets without a register that shows reads zero. -/
theorem readReg_hidden (h : ∀ o, lo ≤ o → o < hi → view s f o = none) (ha : lo % 8 = 0) (hlo : lo ≤ off)
    (hhi : off + w ≤ hi) : readReg s f off w = 0 := by
  have h32 : ∀ o, lo ≤ o → o < hi → read32 s f o = 0 := fun o h1 h2 =>
    read32_hidden (h o h1 h2) fun h8 => h (o - 4) (by omega) (by omega)
  unfold readReg
  split
  · rw [h32 off hlo (by omega)]; rfl
  · split
    · rw [h off hlo (by omega), h32 off hlo (by omega), h32 (off + 4) (by omega) (by omega)]; rfl
    · rfl

/-- A write to an aligned block of offsets without a register that shows, outside the QUE area, changes nothing. -/
theorem writeReg_hidden (h : ∀ o, lo ≤ o → o < hi → view s f o = none) (ha : lo % 8 = 0)
    (hq : hi ≤ 0x1000 ∨ 0xA000 ≤ lo) (hlo : lo ≤ off) (hhi : off + w ≤ hi) : writeReg f off w v s = s := by
  have h32 : ∀ o v, lo ≤ o → o < hi → write32 f o v s = s := fun o v h1 h2 =>
    write32_hidden (h o h1 h2) (fun h8 => h (o - 4) (by omega) (by omega))
      (by unfold isCtrl; simp only [Bool.or_eq_false_iff, decide_eq_false_iff_not]; omega)
  unfold writeReg
  split
  · exact h32 off v hlo (by omega)
  · split
    · rw [h off hlo (by omega)]
      show write32 f (off + 4) (v >>> 32) (write32 f off v s) = s
      rw [h32 off v hlo (by omega), h32 (off + 4) _ (by omega) (by omega)]
    · rfl

theorem registerWrite_hidden {a : Source} {g o : Nat} (hr : pageReach s a g o = some (f, off))
    (hw : writeReg f off w v s = s) : exec (.registerWrite ⟨a, g⟩ o w v) s = .next s := by
  rw [registerWrite_reaching hr, when, hw, ite_self]
end

/-- Settles O12: no register shows where the unit is absent, so reads answer zero and writes find nothing. -/
theorem registersOfAnAbsentUnitReadZero : Obligations.RegistersOfAnAbsentUnitReadZero := by
  refine ⟨fun a g o f off w v s hc hlo hhi => ?_, fun a g o off w v s h0 h1 hlo hhi => ?_,
    fun f off r s hv hw ha => ?_⟩
  · have h : ∀ o, 0xF800 ≤ o → o < 0xF900 → view s f o = none := fun o => view_absent_cip hc
    exact ⟨readReg_hidden h (by decide) hlo hhi,
      fun hr => registerWrite_hidden hr (writeReg_hidden h (by decide) (.inr (by decide)) hlo hhi)⟩
  · have h : ∀ o, 0x500 ≤ o → o < 0x1000 → view s 0 o = none := fun o => view_absent_eth h0 h1
    exact ⟨readReg_hidden h (by decide) hlo hhi,
      fun hr => registerWrite_hidden hr (writeReg_hidden h (by decide) (.inl (by decide)) hlo hhi)⟩
  · have h32 : read32 s f off = 0 := by
      unfold read32
      rw [hv]
      simp [hw, ha]
    unfold readReg
    simp [h32]

end Sys2Proof.Machine
end

section
namespace Sys2Proof.Machine

/-! ### Writes of whole registers (R18, R19, R420) -/

section
variable {s : State} {f off : Nat} {v : U64} {r : RegView}

theorem writeReg_eight_wide (ha : off % 8 = 0) (hv : view s f off = some r) (hw : r.wide = true)
    (ht : takes s f off v = true) : writeReg f off 8 v s = writeWhole f off v s := by
  simp [writeReg, ha, hv, hw, ht, when]

/-- A 4-byte write of a 32-bit register. -/
theorem write32_narrow (hv : view s f off = some r) (hw : r.wide = false) (ht : takes s f off (v &&& 0xFFFFFFFF) = true) :
    write32 f off v s = writeWhole f off (v &&& 0xFFFFFFFF) s := by
  unfold write32
  dsimp only
  rw [hv]
  exact (if_pos (by rw [hw]; rfl)).trans (by rw [ht, when_true])

/-- A 4-byte write of the lower half of a 64-bit register keeps its upper half. -/
theorem write32_lower (hv : view s f off = some r) (hw : r.wide = true) (hacc : r.acc ≠ .one) (hlog : off ≠ 0xD430)
    (ht : takes s f off (v &&& 0xFFFFFFFF) = true) :
    write32 f off v s = writeWhole f off ((r.val &&& 0xFFFFFFFF00000000) ||| (v &&& 0xFFFFFFFF)) s := by
  unfold write32
  dsimp only
  rw [hv]
  refine (if_neg (by rw [hw]; decide)).trans ((if_neg hacc).trans ?_)
  rw [ht, when_true, if_neg hlog]

/-- A 4-byte write of the upper half of a 64-bit register keeps its lower half. -/
theorem write32_upper (hv : view s f off = none) (hlow : view s f (off - 4) = some r) (ha : off % 8 = 4)
    (hw : r.wide = true) (hacc : r.acc ≠ .one) (hlog : off ≠ 0xD434)
    (ht : takes s f (off - 4) (v &&& 0xFFFFFFFF) = true) :
    write32 f off v s =
      writeWhole f (off - 4) ((r.val &&& 0xFFFFFFFF) ||| ((v &&& 0xFFFFFFFF) <<< 32)) s := by
  unfold write32
  dsimp only
  rw [hv, hlow]
  refine (if_pos ⟨hw, hacc, ha⟩).trans ?_
  rw [ht, when_true, if_neg hlog]
  rfl

theorem writeReg_four (ha : off % 4 = 0) : writeReg f off 4 v s = write32 f off v s := by
  simp [writeReg, ha]
end

section
variable {a : Source} {g o w f off : Nat} {v : U64} {s u : State}

theorem registerWrite_running (hr : running s = true) (hp : pageReach s a g o = some (f, off))
    (hw : writeReg f off w v s = u) : exec (.registerWrite ⟨a, g⟩ o w v) s = .next u := by
  rw [registerWrite_reaching hp, hr, ← hw, when_true]
end

/-- Settles O57: by the cases of the access's width and of what shows at its offset. -/
theorem registerWritesComplete : Obligations.RegisterWritesComplete := by
  refine ⟨fun a g o f off v s hr hp => ⟨fun r ha hv hw ht => ?_, fun r ha hv hw ht => ?_, fun r ha hv hw hacc hlog ht => ?_,
    fun r ha hv hlow hw hacc hlog ht => ?_, fun ha hn => ?_, fun w h4 h8 => ?_⟩, fun a g o w v s h => registerWrite_nowhere h,
    fun v s hr hb hh => ?_, fun v s hr hb hh => ?_, fun v s hr hb => ?_, fun f v s hf => ?_⟩
  · exact registerWrite_running hr hp ((writeReg_four ha).trans (write32_narrow hv hw ht))
  · exact registerWrite_running hr hp (writeReg_eight_wide ha hv hw ht)
  · exact registerWrite_running hr hp ((writeReg_four (by omega)).trans (write32_lower hv hw hacc hlog ht))
  · exact registerWrite_running hr hp ((writeReg_four (by omega)).trans (write32_upper hv hlow ha hw hacc hlog ht))
  · refine registerWrite_running hr hp ?_
    cases hv : view s f off with
    | none => simp [writeReg, ha, hv]
    | some r => simp [writeReg, ha, hv, hn r hv]
  · exact registerWrite_running hr hp (by rw [writeReg, if_neg h4, if_neg h8])
  · show live (mgmtWrite 0 (writeHold v)) s = _
    rw [live_running hr]
    simp [writeHold, hb, hh]
  · show live (mgmtWrite 0 (writeHold v)) s = _
    rw [live_running hr]
    simp [writeHold, hb, hh]
  · show live (mgmtWrite 0 (writeHold v)) s = _
    rw [live_running hr]
    cases hh : s.pwr.holdActive <;> simp [writeHold, hb, hh] <;> rw [← hh]
  · show Host.Outcome.next (if running s then mgmtWrite f (writeHold v) s else s) = _
    rw [mgmtWrite_ne hf, ite_self]

end Sys2Proof.Machine
end

section
namespace Sys2Proof.Machine

/-! ### The register file (R18, R420) -/

/-- What a register of the file holds after a write: a locked RWL register keeps its value. -/
theorem reg_fileWrite {s : State} {off : Nat} {v : U64} {r : RegSpec} (h : regAt off = some r) (o : Nat) :
    reg (fileWrite off v s) o = if o = off then
      (if r.rwl = true ∧ s.boot.locked = true then reg s off else v &&& BitVec.ofNat 64 r.mask) else reg s o := by
  unfold fileWrite
  rw [h]
  dsimp only
  by_cases hl : r.rwl = true ∧ s.boot.locked = true
  · rw [if_pos (by rw [hl.1, hl.2]; rfl), if_pos hl]
    split
    · next ho => rw [ho]
    · rfl
  · rw [if_neg (by rwa [Bool.and_eq_true]), if_neg hl]
    unfold reg
    rw [aget_aset]

/-- A write of the register file changes the register file alone. -/
theorem fileWrite_eq (off : Nat) (v : U64) (s : State) : ∃ x, fileWrite off v s = { s with regs := x } := by
  unfold fileWrite
  split
  · exact ⟨_, rfl⟩
  · split
    · exact ⟨_, rfl⟩
    · exact ⟨_, rfl⟩

/-- A register of the file shows its value in the management facet's page. -/
theorem view_file {s : State} {off : Nat} {r : RegSpec} (hr : regAt off = some r) (hh : fileHere s off = true)
    (hv : facetView s 0 off = none) : view s 0 off = some { val := reg s off, wide := r.wide, acc := r.acc } := by
  simp [view, hv, hh, fileView, hr]

/-- The management facet's page shows every offset while the device runs and the facet is ON. -/
theorem shown_running {s : State} {off : Nat} (hr : running s = true) (hon : (getF s 0).st = .on) :
    shown s 0 off = true := by
  have hm : s.err.mode ≠ .umbra ∧ s.boot.run ≠ .hold := by
    simp only [running, awake, Bool.and_eq_true, Bool.or_eq_true, decide_eq_true_eq] at hr
    obtain ⟨hrun, ⟨⟨hmode, _⟩, _⟩, _⟩ := hr
    exact ⟨hmode, fun hh => by simp [hh] at hrun⟩
  simp [shown, hm, hr, hon]

/-- Settles O11: the write reaches the register file, whose register then shows. -/
theorem aDeviceRegisterKeepsWhatIsWritten : Obligations.ADeviceRegisterKeepsWhatIsWritten := by
  intro a g o off v r s hrun hon hp ha hr hw hh hv
  dsimp only
  have hsee := view_file hr hh hv
  have htakes : takes s 0 off v = true := by simp [takes, hon]
  have hwrite : writeWhole 0 off v s = fileWrite off v s := by simp [writeWhole, hv, hr]
  refine ⟨fileWrite off v s,
    registerWrite_running hrun hp ((writeReg_eight_wide ha hsee hw htakes).trans hwrite), reg_fileWrite hr, ?_⟩
  have hval := reg_fileWrite (s := s) (v := v) hr off
  rw [if_pos rfl] at hval
  obtain ⟨x, hx⟩ := fileWrite_eq off v s
  rw [← hval, hx]
  have ht := view_file (s := { s with regs := x }) hr hh hv
  have hs : shown { s with regs := x } 0 off = true := shown_running hrun hon
  simp [readReg, ha, ht, hs, hw]

end Sys2Proof.Machine
end

section
namespace Sys2Proof.Machine

/-! ### The QP command block (R87 to R91, R126) -/

section
variable {f : Nat} {late : Bool} {g : Nat → State → State} {s : State}

/-- A command of an idle block begins in a facet that takes it. -/
theorem qpCommand_idle (hf : facetOn s f = true ∨ late = true ∧ (getF s f).st = .resetting)
    (hb : (getF s f).zrt.busy = false) :
    qpCommand f late g s =
      g (getF s f).zrt.qpn.toNat (modF f (fun y => { y with zrt := { y.zrt with busy := true } }) s) := by
  unfold qpCommand
  refine if_neg ?_
  rcases hf with hf | ⟨hl, hf⟩
  · simp [hf, hb]
  · simp [hl, hf, hb]

theorem qpCommand_busy (hb : (getF s f).zrt.busy = true) : qpCommand f late g s = s := by
  unfold qpCommand
  exact if_pos (by simp [hb])
end

section
variable {f n : Nat} {s : State}

theorem createQp_fails (hc : createQpCode s f ≠ 0) :
    createQp f s = modF f (fun x => { x with zrt := { x.zrt with
      busy := false, waiting := false, state := 0, holdWhy := 0, result := BitVec.ofNat 16 (createQpCode s f) } }) s :=
  if_pos hc

theorem createQp_waits (hc : createQpCode s f = 0) (he : s.trust.ent ≠ 1) :
    createQp f s = modF f (fun x => { x with zrt := { x.zrt with busy := true, waiting := true } }) s :=
  (if_neg (not_not_intro hc)).trans (if_pos he)

theorem createQp_makes (hc : createQpCode s f = 0) (he : s.trust.ent = 1) : createQp f s = makeQp f s :=
  (if_neg (not_not_intro hc)).trans (if_neg (not_not_intro he))

theorem connectQp_init (ho : ownsQp s f n = true) (hi : (getQp s n).st = .init) :
    connectQp f n s = sendConnect n (modF f (fun x => { x with zrt := { x.zrt with conn := some n } })
      (modQp n (fun q => { q with st := .connecting, req := { q.req with conSends := 0 } }) s)) := by
  simp [connectQp, ho, hi]

theorem connectQp_bad (h : ¬ (ownsQp s f n = true ∧ (getQp s n).st = .init)) :
    connectQp f n s = endQpc f n cBAD_STATE s := by
  unfold connectQp
  exact if_neg (by simpa using h)

theorem destroyQp_owned (ho : ownsQp s f n = true) :
    destroyQp f n s = tryFreeQp n (endQpc f n 0 (drainQp f n s)) := by
  simp [destroyQp, ho]

theorem destroyQp_other (ho : ownsQp s f n = false) : destroyQp f n s = endQpc f n cBAD_STATE s := by
  simp [destroyQp, ho]

theorem queryQp_other (ho : ownsQp s f n = false) : queryQp f n s = endQpc f n cBAD_STATE s := by
  simp [queryQp, ho]
end

/-- Settles O26: by the block's state, and then the cases of each command. -/
theorem queuePairCommandsComplete : Obligations.QueuePairCommandsComplete := by
  refine ⟨fun f s hr hf hb => ?_, fun f n s hr hf hb hn => ?_, fun f n s hr hf hb hn => ?_,
    fun f n s hr hf hb hn ho => ?_, fun f s hb => ?_⟩
  · have hx : exec (.qpCreate f) s = .next (createQp f (modF f (fun y => { y with zrt := { y.zrt with busy := true } }) s)) :=
      (live_running hr).trans (congrArg _ (qpCommand_idle (.inl hf) hb))
    exact ⟨fun hc he => hx.trans (congrArg _ (createQp_makes hc he)),
      fun hc he => hx.trans (congrArg _ (createQp_waits hc he)), fun hc => hx.trans (congrArg _ (createQp_fails hc))⟩
  · have hx : exec (.qpConnect f) s =
        .next (connectQp f n (modF f (fun y => { y with zrt := { y.zrt with busy := true } }) s)) :=
      (live_running hr).trans (congrArg _ (hn ▸ qpCommand_idle (.inl hf) hb))
    exact ⟨fun ho hi => hx.trans (congrArg _ (connectQp_init ho hi)), fun h => hx.trans (congrArg _ (connectQp_bad h))⟩
  · have hx : ∀ g, live (qpCommand f true g) s =
        .next (g n (modF f (fun y => { y with zrt := { y.zrt with busy := true } }) s)) := fun g =>
      (live_running hr).trans (congrArg _ (hn ▸ qpCommand_idle (hf.imp_right fun h => ⟨rfl, h⟩) hb))
    exact ⟨fun ho => (hx (destroyQp f)).trans (congrArg _ (destroyQp_owned ho)), fun ho =>
      ⟨(hx (destroyQp f)).trans (congrArg _ (destroyQp_other ho)), (hx (queryQp f)).trans (congrArg _ (queryQp_other ho))⟩⟩
  · refine ⟨_, (live_running hr).trans (congrArg _
      (hn ▸ qpCommand_idle (hf.imp_right fun h => ⟨rfl, h⟩) hb)), ?_⟩
    have ho' : ownsQp (modF f (fun y => { y with zrt := { y.zrt with busy := true } }) s) f n = true := ho
    rw [queryQp, ho']
    simp [endQpc, getQp]
  · have hx : ∀ late g, live (qpCommand f late g) s = .next s := fun late g => by
      rw [live, when, qpCommand_busy hb, ite_self]
    exact ⟨hx .., hx .., hx .., hx ..⟩

end Sys2Proof.Machine
end

section
namespace Sys2Proof.Machine

/-! ### Packets that meet the transport (R90, R99, R347) -/

section
variable {p : Packet} {s : State}

/-- A whole packet of its command's kind, while the fabric runs, is taken after its arrival is noted. -/
theorem arrival_whole {mine : Packet → Bool} {go : Packet → State → State} (hw : Whole p) (hf : fabricUp s = true)
    (hm : mine p = true) :
    onArrival (arriveAs mine go p) s = .next (go p (noteArrival (epAdapter p.bth.srcEp) s)) := by
  obtain ⟨hi, hh⟩ := hw
  rw [onArrival_up hf]
  simp [arriveAs, ← hi, hh, hm]

/-- A packet whose context is resident goes on at once, outside a warm reset's restoration. -/
theorem withContext_resident {n : Nat} {go : State → State} (hr : restoring s = false)
    (hn : s.zrt.resident.contains n = true) : withContext n p go s = go (makeCtx n s) := by
  unfold withContext
  rw [if_neg (by rw [hr]; decide), if_pos hn]

theorem hasCip_makeCtx_noteArrival {n : Nat} {a : BitVec 24} : hasCip (makeCtx n (noteArrival a s)) = hasCip s := by
  have hpart : (noteArrival a s).part = s.part :=
    (noteArrival_does (pz := [.qps, .zrt, .fab]) (does_refl _ s) rfl).only .part (by decide)
  show hasCip (noteArrival a s) = hasCip s
  simp only [hasCip, hpart]
end

/-! ### CONNECT, ACCEPT and REJECT (R89 to R91) -/

section
variable {n : Nat} {p : Packet} {s : State} {psn ctag : U32} {sq : BitVec 20} {rq ci : Bool} {pm : BitVec 3}
  {wi : BitVec 4} {r0 : BitVec 3} {rs : Byte} {r1 : BitVec 24}
variable (he : p.ext = .cmeh psn ctag sq rq ci pm wi r0 rs r1)
include he

theorem freeQpn_connect (ht : isType 0 p = true) : freeQpn p s = inject (rejectPacket s p 0 ctag sq 1) s := by
  have h0 : p.bth.typ = 0 := BitVec.eq_of_toNat_eq (of_decide_eq_true ht)
  simp only [freeQpn, he]
  rw [if_pos h0]

theorem takeConnect_notReady (h : (getQp s n).st ≠ .init ∧ (getQp s n).st ≠ .connecting ∧ (getQp s n).st ≠ .rts) :
    takeConnect n p s = inject (rejectPacket s p 0 ctag sq 1) s := by
  simp only [takeConnect, he]
  rw [if_pos h]

theorem takeConnect_otherPeer (h : (getQp s n).st = .init ∨ (getQp s n).st = .connecting ∨ (getQp s n).st = .rts)
    (hp : p.bth.srcEp ≠ (getQp s n).remoteEp ∨ sq ≠ (getQp s n).remoteQpn) :
    takeConnect n p s = inject (rejectPacket s p 0 ctag sq 2) s := by
  simp only [takeConnect, he]
  rw [if_neg (by tauto), if_pos hp]

theorem takeConnect_rts (h : (getQp s n).st = .rts) (hp : p.bth.srcEp = (getQp s n).remoteEp)
    (hq : sq = (getQp s n).remoteQpn) :
    takeConnect n p s = if (getQp s n).peerCtag = some ctag then sendAccept n s else s := by
  simp only [takeConnect, he]
  rw [if_neg (by tauto), if_neg (by tauto), if_pos h]

theorem takeConnect_otherCipher (h : (getQp s n).st = .init ∨ (getQp s n).st = .connecting)
    (hp : p.bth.srcEp = (getQp s n).remoteEp) (hq : sq = (getQp s n).remoteQpn) (hc : ci ≠ (getQp s n).cipher) :
    takeConnect n p s = inject (rejectPacket s p 0 ctag sq (if ci = true ∧ hasCip s = false then 3 else 2)) s := by
  have hr : (getQp s n).st ≠ .rts := by rcases h with h | h <;> rw [h] <;> decide
  simp only [takeConnect, he]
  rw [if_neg (by tauto), if_neg (by tauto), if_neg hr, if_pos hc]
  simp

theorem takeConnect_matches (h : (getQp s n).st = .init ∨ (getQp s n).st = .connecting)
    (hp : p.bth.srcEp = (getQp s n).remoteEp) (hq : sq = (getQp s n).remoteQpn) (hc : ci = (getQp s n).cipher) :
    takeConnect n p s = sendAccept n (if (getQp s n).st = .init
      then enterRts n (recordPeer n psn ctag rq pm.toNat wi.toNat s) else recordPeer n psn ctag rq pm.toNat wi.toNat s) := by
  have hr : (getQp s n).st ≠ .rts := by rcases h with h | h <;> rw [h] <;> decide
  simp only [takeConnect, he]
  rw [if_neg (by tauto), if_neg (by tauto), if_neg hr, if_neg (not_not_intro hc)]

theorem takeAccept_cmeh : takeAccept n p s = if awaits s n p sq = true then
    endConnect n 0 (enterRts n (recordPeer n psn ctag rq pm.toNat wi.toNat s)) else s := by
  simp only [takeAccept, he]

theorem takeReject_unawaited (ha : awaits s n p sq = false) : takeReject n p s = s := by
  simp [takeReject, he, ha]

theorem takeReject_notReady (ha : awaits s n p sq = true) (hr : rs = 1) : takeReject n p s = connectAgain n s := by
  subst hr
  simp [takeReject, he, ha]

theorem takeReject_fails (ha : awaits s n p sq = true) (hr : rs ≠ 1) :
    takeReject n p s = connectFail n (if rs = 3 then cUNIT_ABSENT else cCONNECT_REJECTED) s := by
  have h1 : rs.toNat ≠ 1 := fun h => hr (BitVec.eq_of_toNat_eq h)
  simp only [takeReject, he, ha, Bool.not_true, Bool.false_eq_true, if_false]
  by_cases h3 : rs = 3
  · subst h3
    rfl
  · have h3' : rs.toNat ≠ 3 := fun h => h3 (BitVec.eq_of_toNat_eq h)
    rw [if_neg h3]
    split
    · contradiction
    · contradiction
    · rfl
end

section
variable {n : Nat} {p : Packet} {s : State}

/-- A CONNECT, ACCEPT or REJECT that reaches a QP whose context is resident. -/
theorem onConnect_resident (hn : p.bth.dstQpn.toNat = n) (hq : (getQp s n).st ≠ .free) (hr : restoring s = false)
    (hc : s.zrt.resident.contains n = true) : onConnect p s = takeConnect n p (makeCtx n s) := by
  subst hn
  exact (if_neg hq).trans (withContext_resident hr hc)

theorem onCm_resident {go : Nat → Packet → State → State} (hn : p.bth.dstQpn.toNat = n) (hq : (getQp s n).st ≠ .free)
    (hr : restoring s = false) (hc : s.zrt.resident.contains n = true) : onCm go p s = go n p (makeCtx n s) := by
  subst hn
  exact (if_neg hq).trans (withContext_resident hr hc)
end

/-- Settles O27: by what the packet meets, and then the cases of each packet. -/
theorem connectionPacketsAreAnswered : Obligations.ConnectionPacketsAreAnswered := by
  refine ⟨fun n p s psn ctag sq rq ci pm wi r0 rs r1 hw hf hn he => ?_,
    fun n p s psn ctag sq rq ci pm wi r0 rs r1 hw hf hn he => ?_, fun n s hr hq hi => ?_⟩
  · intro t u q ht
    have hx : exec (.connect p) s = .next (onConnect p t) := arrival_whole hw hf ht
    refine ⟨fun hq => ?_, fun hq hr hc => ?_⟩
    · have h0 : onConnect p t = freeQpn p t := if_pos (hn.symm ▸ hq)
      rw [hx, h0, freeQpn_connect he ht]
    · have hy : exec (.connect p) s = .next (takeConnect n p u) :=
        hx.trans (congrArg _ (onConnect_resident hn hq hr hc))
      have hcip : hasCip u = hasCip s := hasCip_makeCtx_noteArrival
      refine ⟨fun h => ?_, fun h hp => ?_, fun h hp hs => ?_, fun h hp hs hci => ?_, fun h hp hs hci => ?_⟩
      · exact hy.trans (congrArg _ (takeConnect_notReady he h))
      · exact hy.trans (congrArg _ (takeConnect_otherPeer he h hp))
      · exact hy.trans (congrArg _ (takeConnect_rts he h hp hs))
      · rw [← hcip]
        exact hy.trans (congrArg _ (takeConnect_otherCipher he h hp hs hci))
      · exact hy.trans (congrArg _ (takeConnect_matches he h hp hs hci))
  · intro t u q hr hc hq
    have hx : ∀ k go, isType k p = true →
        onArrival (arriveAs (isType k) (onCm go) p) s = .next (go n p u) := fun k go hk =>
      (arrival_whole hw hf hk).trans (congrArg _ (onCm_resident hn hq hr hc))
    refine ⟨fun hk => ?_, fun hk ha => ?_, fun hk ha h1 => ?_, fun hk ha h1 => ?_⟩
    · exact (hx 1 takeAccept hk).trans (congrArg _ (takeAccept_cmeh he))
    · exact (hx 2 takeReject hk).trans (congrArg _ (takeReject_unawaited he ha))
    · exact (hx 2 takeReject hk).trans (congrArg _ (takeReject_notReady he ha h1))
    · exact (hx 2 takeReject hk).trans (congrArg _ (takeReject_fails he ha h1))
  · have hx : exec (.connectRetry n) s = .next (connectAgain n s) := by
      refine (live_running hr).trans ?_
      rw [hq, hi]
      rfl
    refine ⟨fun h => ?_, fun h => ?_⟩
    · exact hx.trans (congrArg _ (if_pos h))
    · exact hx.trans (congrArg _ (if_neg (Nat.not_lt.mpr h)))

end Sys2Proof.Machine
end

section
namespace Sys2Proof.Machine

/-! ### Descriptors that may start (R60, R454) -/

/-- A command of a descriptor that may start runs it on the state with the descriptor started, and its queue settles. -/
theorem live_startWith {f q op : Nat} {g : Item → State → State} {s t : State} {i : Item}
    (h : ready s f q op = some i) (hg : g i (startItem f q i.idx s) = t) :
    live (startWith f q op g) s = .next (settle f t) := by
  rw [live_running (ready_cases h).1, startWith_ready h, hg]

/-! ### The mover (R307 to R317) -/

section
variable {s : State}

theorem grantMove_takes {w : MoveWait} {c : Nat} (hs : s.mov.stopped = false) (hw : nextMove s = some w)
    (hc : freeChan s 0 24 = some c) :
    grantMove s = moveGo c (modChan c (fun _ => restartAt w.desc
        (ceilDiv (w.mirrored * (mvBurst w.desc * mvSw w.desc)) (mvDw w.desc))
        { st := .run, f := w.f, q := w.q, idx := w.idx, desc := some w.desc, bursts := w.mirrored
          mirrored := w.mirrored, tookAt := w.tookAt })
      (if mvPace w.desc = 0 then { s with mov := { s.mov with waiting := s.mov.waiting.erase w } }
       else modSrc w.f (mvPace w.desc) (fun r => { r with bound := some c })
         { s with mov := { s.mov with waiting := s.mov.waiting.erase w } })) := by
  unfold grantMove
  rw [if_neg (by rw [hs]; decide), hw, hc]

theorem grantMove_none (h : s.mov.stopped = true ∨ nextMove s = none ∨ freeChan s 0 24 = none) : grantMove s = s := by
  unfold grantMove
  split
  · rfl
  · next hs =>
    rcases h with h | h | h
    · exact absurd h hs
    · rw [h]
    · rw [h]
      cases nextMove s <;> rfl

theorem resumeMover_restarts (hs : s.mov.stopped = true) (ha : s.mov.errAt ≠ some s.now) (hn : errorNow s = none) :
    resumeMover s = wakeMovers ((List.range 32).foldl (fun s c => modChan c (fun x => { x with
      st := if x.desc = none then .idle else .run }) s)
      { s with mov := { s.mov with stopped := false, later := 0, last := none } }) := by
  unfold resumeMover
  rw [if_neg (by simp [hs, ha]), hn]

theorem resumeMover_going (hs : s.mov.stopped = false) : resumeMover s = s :=
  if_pos (by simp [hs])

theorem abortMover_going (hs : s.mov.stopped = false) : abortMover s = s :=
  if_pos (by simp [hs])

theorem abortMover_ends (hs : s.mov.stopped = true) :
    abortMover s =
      (let t := (List.range 32).foldl (fun s c => if (getCh10 s c).desc = none then s
         else endMove c (stat cMOVE_BUSERR) (dropWaits (.mover c) s))
         { s with mov := { s.mov with stopped := false, later := 0, last := none } }
       { t with mov := { t.mov with chans := amap (fun _ x => { x with st := .idle }) t.mov.chans } }) := by
  unfold abortMover
  rw [if_neg (by simp [hs])]

/-- A command of a register of the management facet alone, which does nothing in another facet. -/
theorem live_mgmtWrite_idle {f : Nat} {g : State → State} (h : f ≠ 0 ∨ g s = s) :
    live (mgmtWrite f g) s = .next s := by
  have hm : mgmtWrite f g s = s := by
    rcases h with h | h
    · exact mgmtWrite_ne h
    · unfold mgmtWrite when
      rw [h, ite_self]
  unfold live when
  rw [hm, ite_self]
end

/-- Settles O48: by the cases of each command of the mover. -/
theorem moverCommandsComplete : Obligations.MoverCommandsComplete := by
  refine ⟨fun f q i s h => ⟨fun hc => ?_, fun st hc => ?_⟩, fun w c s hr hs hw hc => ?_, fun s h => ?_,
    fun n rising s hr => ⟨fun h8 he hd => ?_, fun h => ?_⟩, fun f v s hr hf => ⟨fun hb => ?_, fun hb => ?_, ?_⟩,
    fun p h k a s hr => ⟨fun hp => ?_, ?_⟩, fun s hr hs ha hn => ?_, fun s hr hs => ?_, fun f s h => ⟨?_, ?_⟩⟩
  · exact live_startWith h (by rw [hc])
  · exact live_startWith h (by rw [hc])
  · exact (live_running hr).trans (congrArg _ (grantMove_takes hs hw hc))
  · show live grantMove s = _
    unfold live when
    rw [grantMove_none h, ite_self]
  · exact (live_running hr).trans (congrArg _ (if_pos ⟨h8, he, hd⟩))
  · refine (live_running hr).trans (congrArg _ (if_neg ?_))
    rintro ⟨h8, he, hd⟩
    rcases h with h | h | h
    · omega
    · rw [h] at he
      cases he
    · rw [hd] at h
      exact Bool.not_ne_self _ h
  · refine (live_running hr).trans (congrArg _ ?_)
    rw [hf, hb]
    rfl
  · refine (live_running hr).trans (congrArg _ ?_)
    rw [hb, Bool.and_false, when_false]
  · refine (live_running hr).trans (congrArg _ ?_)
    rw [hf, when_true]
    rfl
  · exact (live_running hr).trans (congrArg _ (if_neg hp))
  · exact (live_running hr).trans (congrArg _ (if_pos rfl))
  · exact (live_running hr).trans (congrArg _ (resumeMover_restarts hs ha hn))
  · exact (live_running hr).trans (congrArg _ (abortMover_ends hs))
  · exact live_mgmtWrite_idle (h.imp_right resumeMover_going)
  · exact live_mgmtWrite_idle (h.imp_right abortMover_going)

end Sys2Proof.Machine
end

section
namespace Sys2Proof.Machine

/-! ### Group commands (R155 to R158) -/

/-- An access of a descriptor that nothing holds up goes on with what the translation gives. -/
theorem startAccess_full {q : Nat} {wr : Bool} {l : List (Nat × U64 × Nat)} {go : Trans → State → State} {s : State}
    (hb : streamBusy s (.desc q) = false)
    (hp : placesReleased s 0 (transRanges (.desc q) 0 wr l s).2.places = true)
    (hf : (transRanges (.desc q) 0 wr l s).2.full = true) :
    startAccess q wr l go s = go (transRanges (.desc q) 0 wr l s).2 (transRanges (.desc q) 0 wr l s).1 := by
  unfold startAccess
  rw [if_neg (by rw [hb]; decide)]
  dsimp only
  rw [if_neg (by rw [hp]; decide), if_pos hf]

section
variable {f q : Nat} {i : Item} {x : GroupAttr} {t : Trans} {back s : State}

theorem groupCreated_refused {st : Status} (hc : createCheck s i.desc x = some st) :
    groupCreated f q i x t back s =
      settle f (completeItem f q i.idx st (startItem f q i.idx (readAll none 0 t.fresh s))) := by
  unfold groupCreated
  rw [hc]

theorem groupCreated_busy (hc : createCheck s i.desc x = none)
    (hb : s.grp.cmds.any (fun c => !c.destroy && decide (c.attr.gid = x.gid)) = true) :
    groupCreated f q i x t back s =
      settle f (completeItem f q i.idx (stat cGRP_BUSY) (startItem f q i.idx (readAll none 0 t.fresh s))) := by
  unfold groupCreated
  rw [hc]
  exact if_pos hb

theorem groupCreated_sends (hc : createCheck s i.desc x = none)
    (hb : s.grp.cmds.any (fun c => !c.destroy && decide (c.attr.gid = x.gid)) = false) (he : s.trust.ent = 1) :
    groupCreated f q i x t back s =
      (let c : GroupCmd := { destroy := false, q := q, idx := i.idx, attr := x, adapters := adaptersOf x
                             all := adaptersOf x, start := s.now, sent := s.now }
       let u := readAll none 0 t.fresh (startItem f q i.idx s)
       settle f (sendPhase c (adaptersOf x) (drew 1 { u with grp := { u.grp with cmds := u.grp.cmds ++ [c] } }))) := by
  unfold groupCreated
  rw [hc]
  exact (if_neg (by rw [hb]; decide)).trans (if_neg (not_not_intro he))
end

section
variable {f q : Nat} {ms sd rd rc : List U64} {i : Item} {s : State}

/-- GROUP_CREATE reaches its own operation, where the read that it makes as it starts would not fail. -/
theorem groupCreate_unharmed (h : ready s f q 0x30 = some i) (hn : descHurt s f q = none) :
    exec (.groupCreate f q ms sd rd rc) s = .next (groupCreate f q ms sd rd rc s) :=
  (live_running (ready_cases h).1).trans (congrArg _ (descBack_unharmed h hn))

theorem groupCreate_refused (h : ready s f q 0x30 = some i) (hr : createRefused s i.desc = true) :
    groupCreate f q ms sd rd rc s = groupCreated f q i (createAttr i.desc 0 [] [] [] []) {} s s := by
  unfold groupCreate
  rw [h]
  exact if_pos hr

theorem groupCreate_reads (h : ready s f q 0x30 = some i) (hr : createRefused s i.desc = false) :
    groupCreate f q ms sd rd rc s = startAccess q false (createSpans i.desc) (fun t x =>
      groupCreated f q i (createRead x i.desc (Config.entropy s.free) ms sd rd rc) t s x) s := by
  unfold groupCreate
  rw [h]
  exact if_neg (by rw [hr]; decide)

theorem groupDestroy_here (h : (getG s (fld i.desc.w2 11 0)).st ≠ .free) :
    groupDestroy f q i s =
      (let a := (getG s (fld i.desc.w2 11 0)).attr
       let c : GroupCmd := { destroy := true, q := q, idx := i.idx, attr := a, adapters := adaptersOf a
                             all := adaptersOf a, start := s.now, sent := s.now }
       sendPhase c (adaptersOf a) (tearDown (fld i.desc.w2 11 0) { s with grp := { s.grp with cmds := s.grp.cmds ++ [c] } })) :=
  if_neg h

theorem groupDestroy_free (h : (getG s (fld i.desc.w2 11 0)).st = .free) :
    groupDestroy f q i s = completeItem f q i.idx (stat cGRP_STATE) s := if_pos h

theorem groupQuery_misaligned (h : ready s f q 0x32 = some i) (ha : i.desc.w4.toNat % 64 ≠ 0) :
    groupQuery f q s = settle f (completeItem f q i.idx (stat cBAD_FIELD) (startItem f q i.idx s)) := by
  unfold groupQuery
  rw [h]
  exact if_pos ha

theorem groupQuery_denied (h : ready s f q 0x32 = some i) (ha : i.desc.w4.toNat % 64 = 0)
    (hr : rangeCheck s 0 (fld i.desc.w3 7 0) i.desc.w4 64 .lwr none = false) :
    groupQuery f q s = settle f (completeItem f q i.idx (stat cACCESS_DENIED) (startItem f q i.idx s)) := by
  unfold groupQuery
  rw [h]
  exact (if_neg (not_not_intro ha)).trans (if_pos (by rw [hr]; rfl))

theorem groupQuery_writes (h : ready s f q 0x32 = some i) (ha : i.desc.w4.toNat % 64 = 0)
    (hr : rangeCheck s 0 (fld i.desc.w3 7 0) i.desc.w4 64 .lwr none = true) :
    groupQuery f q s = startAccess q true [(fld i.desc.w3 7 0, i.desc.w4, 64)] (fun t x =>
      settle f (postAll 0 (.after f q i.idx) (t.writes (wordBytes (groupRecord (getG x (fld i.desc.w2 11 0)))))
        (startItem f q i.idx x))) s := by
  unfold groupQuery
  rw [h]
  exact (if_neg (not_not_intro ha)).trans (if_neg (by rw [hr]; decide))
end

/-- A fold over the only command that a filter finds. -/
theorem foldl_filter_single {g : State → GroupCmd → State} {p : GroupCmd → Bool} {c : GroupCmd} {s t : State}
    (h : s.grp.cmds.filter p = [c]) (hg : g s c = t) : (s.grp.cmds.filter p).foldl g s = t := by
  rw [h]
  exact hg

/-- Settles O33: by the cases of each command of a group. -/
theorem groupCommandsComplete : Obligations.GroupCommandsComplete := by
  refine ⟨fun f q ms sd rd rc i st s h hn hr hc => ?_, fun f q ms sd rd rc i s h hn hr hb => ?_, fun f q i s h => ⟨fun hg => ?_, fun hg => ?_⟩,
    fun f q i s h => ⟨fun ha => ?_, fun ha hr => ?_, fun ha hr hb hp hf => ?_⟩, fun gid c s hr hc => ⟨fun hl => ?_, fun hl hs => ?_, fun hl hs => ?_⟩,
    fun gid s hr hg => ?_, fun gid c s hr hc => ⟨fun hl => ?_, fun hl hs => ?_, fun hl hs => ?_⟩⟩
  · exact (groupCreate_unharmed h hn).trans (congrArg _ ((groupCreate_refused h hr).trans (groupCreated_refused hc)))
  · intro r x t busy ends hp hf
    have hx : exec (.groupCreate f q ms sd rd rc) s = .next (groupCreated f q i x r.2 s r.1) :=
      (groupCreate_unharmed h hn).trans (congrArg _ ((groupCreate_reads h hr).trans (startAccess_full hb hp hf)))
    exact ⟨fun st hc => hx.trans (congrArg _ (groupCreated_refused hc)),
      fun hc hbusy => hx.trans (congrArg _ (groupCreated_busy hc hbusy)),
      fun hc hbusy he => hx.trans (congrArg _ (groupCreated_sends hc hbusy he))⟩
  · exact live_startWith h (groupDestroy_here hg)
  · exact live_startWith h (groupDestroy_free hg)
  · exact (live_running (ready_cases h).1).trans (congrArg _ (groupQuery_misaligned h ha))
  · exact (live_running (ready_cases h).1).trans (congrArg _ (groupQuery_denied h ha hr))
  · exact (live_running (ready_cases h).1).trans
      (congrArg _ ((groupQuery_writes h ha hr).trans (startAccess_full hb hp hf)))
  · exact (live_running hr).trans (congrArg _ (foldl_filter_single hc (if_pos hl)))
  · exact (live_running hr).trans (congrArg _ (foldl_filter_single hc ((if_neg (by rw [hl]; decide)).trans (if_pos hs))))
  · exact (live_running hr).trans
      (congrArg _ (foldl_filter_single hc ((if_neg (by rw [hl]; decide)).trans (if_neg (by rw [hs]; decide)))))
  · refine (live_running hr).trans (congrArg _ ?_)
    rw [hg]
    rfl
  · exact (live_running hr).trans (congrArg _ (foldl_filter_single hc (if_pos hl)))
  · exact (live_running hr).trans (congrArg _ (foldl_filter_single hc ((if_neg (by rw [hl]; decide)).trans (if_pos hs))))
  · exact (live_running hr).trans
      (congrArg _ (foldl_filter_single hc ((if_neg (by rw [hl]; decide)).trans (if_neg (by rw [hs]; decide)))))

end Sys2Proof.Machine
end

section
namespace Sys2Proof.Machine

/-! ### The trust unit and the entropy source (R341, R351 to R359) -/

/-- A request of the trust unit that is refused with a code; its REASON is a free value. -/
def attRefused (f code : Nat) (s : State) : State :=
  modF f (fun y => { y with att := { y.att with
    result := BitVec.ofNat 16 code, reason := BitVec.ofNat 4 (Config.freeByte s.free).toNat } }) { s with free := s.free + 1 }

section
variable {f : Nat} {cert : Bool} {s : State}

theorem attRequest_busy (hb : (getF s f).att.busy = true) : attRequest f cert s = s := if_pos hb

theorem attRequest_badSegment (hb : (getF s f).att.busy = false)
    (hs : ((getSeg s f (getF s f).att.seg.toNat).valid && (getSeg s f (getF s f).att.seg.toNat).pin &&
      (getSeg s f (getF s f).att.seg.toNat).lwr) = false) :
    attRequest f cert s = attRefused f cBAD_FIELD s :=
  (if_neg (by rw [hb]; decide)).trans (if_pos (by rw [hs]; rfl))

theorem attRequest_denied (hb : (getF s f).att.busy = false)
    (hs : ((getSeg s f (getF s f).att.seg.toNat).valid && (getSeg s f (getF s f).att.seg.toNat).pin &&
      (getSeg s f (getF s f).att.seg.toNat).lwr) = true)
    (hr : rangeCheck s f (getF s f).att.seg.toNat (getF s f).att.doff (if cert then 3200 else 2048) .lwr none = false) :
    attRequest f cert s = attRefused f cACCESS_DENIED s :=
  (if_neg (by rw [hb]; decide)).trans ((if_neg (by rw [hs]; decide)).trans (if_pos (by rw [hr]; rfl)))

theorem attRequest_waits (hb : (getF s f).att.busy = false)
    (hs : ((getSeg s f (getF s f).att.seg.toNat).valid && (getSeg s f (getF s f).att.seg.toNat).pin &&
      (getSeg s f (getF s f).att.seg.toNat).lwr) = true)
    (hr : rangeCheck s f (getF s f).att.seg.toNat (getF s f).att.doff (if cert then 3200 else 2048) .lwr none = true) :
    attRequest f cert s = modF f (fun y => { y with att := { y.att with busy := true } }) { s with trust := { s.trust with
      reqs := s.trust.reqs ++ [{ f := f, cert := cert, meas := if s.trust.reqs = [] then measNow s else []
                                 at_ := s.now }] } } :=
  (if_neg (by rw [hb]; decide)).trans ((if_neg (by rw [hs]; decide)).trans (if_neg (by rw [hr]; decide)))
end

/-- The requests behind the one that ends: the next takes its measurements (R359). -/
def attNext (s : State) : List AttReq → List AttReq
  | [] => []
  | y :: m => { y with meas := measNow s, at_ := s.now } :: m

/-- The oldest request ends, its bytes written to its range. -/
theorem reportDone_oldest {r : AttReq} {l : List AttReq} {s : State} (h : s.trust.reqs = r :: l) :
    reportDone s = modF r.f (fun y => { y with att := { y.att with busy := false, reason := 0, result := 0 } })
      (postPin r.f (getF s r.f).att.seg.toNat (getF s r.f).att.doff .other
        (if r.cert then certificate s else reportBytes s r)
        { s with free := s.free + 1, trust := { s.trust with reqs := attNext s l } }) := by
  unfold reportDone
  rw [h]
  cases l <;> rfl

theorem entropyReady_ready {s : State} (h : s.trust.ent = 1 ∨ s.trust.ent = 3) : entropyReady s = s := if_pos h

theorem entropyReady_starts {s : State} (h1 : s.trust.ent ≠ 1) (h3 : s.trust.ent ≠ 3) :
    entropyReady s =
      (let t := { s with trust := { s.trust with ent := 1, drbgCount := 0, drbgAt := s.now } }
       let u := if s.cip.wrapKey = none ∧ hasCip s = true then
           drew 1 { t with cip := { t.cip with wrapKey := some (Config.entropyKey s.free) } } else t
       schedule ((waitingCreates u).foldl (fun s f => createQp f s) u)) := by
  have hcip : ∀ x, hasCip { s with trust := x } = hasCip s := fun _ => rfl
  unfold entropyReady
  rw [if_neg (by tauto)]
  simp only [Bool.and_eq_true, Option.isNone_iff_eq_none, hcip]

/-- Settles O52: by the cases of each command of the trust unit. -/
theorem trustCommandsComplete : Obligations.TrustCommandsComplete := by
  refine ⟨fun f cert c s hm hr hf => ?_, fun r l s hr h => ?_, fun v s hr hv => ?_, fun f v s h => ?_,
    fun s ha hb => ⟨fun h1 h3 => ?_, fun h => ?_⟩, fun s h => ?_, fun core s h1 hc h8 => ?_, fun core s h => ?_,
    fun s => ⟨_, rfl, rfl, rfl, rfl, fun x hx => ?_⟩⟩
  · have hx : exec c s = .next (attRequest f cert s) := by
      have hl : ∀ b, live (fun s => when (facetOn s f) (attRequest f b) s) s = .next (attRequest f b s) := fun b => by
        rw [live_running hr, hf, when_true]
      simp only [List.mem_cons, Prod.mk.injEq, List.not_mem_nil, or_false] at hm
      rcases hm with ⟨rfl, rfl⟩ | ⟨rfl, rfl⟩
      · exact hl false
      · exact hl true
    exact ⟨fun hb => hx.trans (congrArg _ (attRequest_busy hb)),
      fun hb hs => hx.trans (congrArg _ (attRequest_badSegment hb hs)),
      fun hb hs ho => hx.trans (congrArg _ (attRequest_denied hb hs ho)),
      fun hb hs ho => hx.trans (congrArg _ (attRequest_waits hb hs ho))⟩
  · refine ((live_running hr).trans (congrArg _ (reportDone_oldest h))).trans ?_
    cases l <;> rfl
  · refine (live_running hr).trans (congrArg _ ?_)
    rw [decide_eq_true ⟨rfl, hv⟩, when_true]
    rfl
  · have hn : ¬ (f = 0 ∧ 4 ≤ fld v 2 0) := by omega
    show Host.Outcome.next (if running s then when (decide (f = 0 ∧ 4 ≤ fld v 2 0)) _ s else s) = _
    rw [decide_eq_false hn, when_false, ite_self]
  · have hx : exec .entropyReady s = .next (entropyReady s) := by
      show Host.Outcome.next (when (awake s && decide _) entropyReady s) = _
      rw [ha, decide_eq_true hb]
      rfl
    exact hx.trans (congrArg _ (entropyReady_starts h1 h3))
  · show Host.Outcome.next (when _ entropyReady s) = _
    unfold when
    rw [entropyReady_ready h, ite_self]
  · show Host.Outcome.next (when (decide (s.trust.ent = 1) && _) _ s) = _
    simp [h, when]
  · show Host.Outcome.next (when (decide (s.trust.ent = 1) && hasCip s && decide (core < 8)) _ s) = _
    rw [decide_eq_true h1, hc, decide_eq_true h8]
    rfl
  · have hn : (decide (s.trust.ent = 1) && hasCip s && decide (core < 8)) = false := by
      rcases h with h | h | h
      · rw [decide_eq_false h]
        rfl
      · rw [h, Bool.and_false]
        rfl
      · rw [decide_eq_false (Nat.not_lt.mpr h), Bool.and_false]
    show Host.Outcome.next (when (decide (s.trust.ent = 1) && hasCip s && decide (core < 8)) _ s) = _
    rw [hn, when_false]
  · obtain ⟨y, _, rfl⟩ := List.mem_map.mp hx
    rfl

end Sys2Proof.Machine
end

section
namespace Sys2Proof.Machine

/-! ### Ethernet (R361 to R376) -/

section
variable {p b : Nat} {ok : Bool} {far : FarBits} {bs : Bytes} {s : State}

/-- The state in which an arriving frame of port `p` is counted. -/
def frameCounted (p : Nat) (s : State) : State := modEth p (fun e => { e with rxFrames := e.rxFrames + 1 }) s

/-- The receive buffer of port `p` has room for the frame `bs`, which is counted (R370). -/
def hasRoom (p : Nat) (bs : Bytes) (s : State) : Prop := rxHeld (frameCounted p s) p + bs.length + 4 ≤ 2097152

theorem rxFrame_full (h : subLive s p b = true) (hr : ¬ hasRoom p bs s) :
    rxFrame p b ok far bs s = modEth p (fun e => { e with rxFull := e.rxFull + 1 }) (frameCounted p s) :=
  (if_neg (by rw [h]; decide)).trans (if_pos (Nat.not_le.mp hr))

theorem rxFrame_badFcs (h : subLive s p b = true) (hr : hasRoom p bs s) :
    rxFrame p b false far bs s = modEth p (fun e => { e with rxBad := e.rxBad + 1 }) (frameCounted p s) :=
  (if_neg (by rw [h]; decide)).trans ((if_neg (Nat.not_lt.mpr hr)).trans (if_pos rfl))

theorem rxFrame_pause (h : subLive s p b = true) (hr : hasRoom p bs s) (hb : at16 bs 12 = 0x8808) :
    rxFrame p b true far bs s = modEth p (fun e => { e with rxPause := e.rxPause + 1 }) (frameCounted p s) :=
  (if_neg (by rw [h]; decide)).trans
    ((if_neg (Nat.not_lt.mpr hr)).trans ((if_neg (by decide)).trans (if_pos hb)))

theorem rxFrame_dropped (h : subLive s p b = true) (hr : hasRoom p bs s) (hb : at16 bs 12 ≠ 0x8808)
    (ha : (passesFilter (frameCounted p s) p bs && vlanOk (frameCounted p s) p bs) = false) :
    rxFrame p b true far bs s = modEth p (fun e => { e with rxDrop := e.rxDrop + 1 }) (frameCounted p s) :=
  (if_neg (by rw [h]; decide)).trans ((if_neg (Nat.not_lt.mpr hr)).trans
    ((if_neg (by decide)).trans ((if_neg hb).trans (if_pos (by rw [← Bool.not_and]; exact congrArg not ha)))))

/-- A frame that passes every test of R370 goes by its IP header. -/
theorem rxFrame_passed (h : subLive s p b = true) (hr : hasRoom p bs s) (hb : at16 bs 12 ≠ 0x8808)
    (ha : (passesFilter (frameCounted p s) p bs && vlanOk (frameCounted p s) p bs) = true) :
    rxFrame p b true far bs s =
      (ipLen bs).elim (toRaw p b bs (frameCounted p s)) fun n =>
        if !isZrtFrame (frameCounted p s) bs then toRaw p b bs (frameCounted p s)
        else if zrtBad bs n then modEth p (fun e => { e with rxBad := e.rxBad + 1 }) (frameCounted p s)
        else enterPod p b n far bs (frameCounted p s) := by
  have hn : ¬ (!passesFilter (frameCounted p s) p bs || !vlanOk (frameCounted p s) p bs) = true := by
    rw [← Bool.not_and, ha]
    decide
  refine (if_neg (by rw [h]; decide)).trans ((if_neg (Nat.not_lt.mpr hr)).trans
    ((if_neg (by decide)).trans ((if_neg hb).trans ((if_neg hn).trans ?_))))
  cases ipLen bs <;> rfl

theorem rxFrame_dead (h : subLive s p b = false) : rxFrame p b ok far bs s = s := if_pos (by rw [h]; rfl)

theorem ethFrame_up (h : fabricUp s = true) : ethFrame p b ok far bs s = rxFrame p b ok far bs s := if_pos h

theorem ethFrame_down (h : fabricUp s = false) : ethFrame p b ok far bs s = wakeFrame p b ok bs s :=
  if_neg (by rw [h]; decide)
end

section
variable {f q : Nat} {hb : Bytes} {i : Item} {t : Trans} {s : State}

theorem ethStart_refused {st : Status} (hc : sendCheck s i.desc hb = some st) :
    ethStart f q i hb t s =
      settle f (completeItem f q i.idx st (startItem f q i.idx (readAll none 0 t.fresh s))) := by
  unfold ethStart
  dsimp only
  rw [hc]

/-- The record of an ETH_SEND that starts, whose first `n` frames are recorded. -/
def sendStarting (q : Nat) (i : Item) (hb : Bytes) (n : Nat) : EthSend :=
  { q := q, idx := i.idx, desc := i.desc, header := hb, frames := sendFrames i.desc
    recorded := n, formed := n, gone := n }

theorem ethStart_starts (hc : sendCheck s i.desc hb = none) :
    ethStart f q i hb t s =
      (let n := aget 0 (frameKey q i.idx) s.mirror.frames
       let u := startItem f q i.idx (readAll none 0 t.fresh
         { s with eth := { s.eth with sends := s.eth.sends ++ [sendStarting q i hb n] } })
       if sendFrames i.desc ≤ n then endSend (sendStarting q i hb n) stOk u else recordFrame q u) := by
  unfold ethStart
  dsimp only
  rw [hc]
  rfl

theorem ethSend_refused (h : ready s f q 0x37 = some i) (hr : refusedEarly s i.desc = true) :
    ethSend f q hb s = ethStart f q i hb {} s := by
  unfold ethSend
  rw [h]
  exact if_pos hr

theorem ethSend_waits (h : ready s f q 0x37 = some i) (hr : refusedEarly s i.desc = false)
    (hs : s.eth.sends.any (fun x => decide (x.q = q)) = true) : ethSend f q hb s = s := by
  unfold ethSend
  rw [h]
  exact (if_neg (by rw [hr]; decide)).trans (if_pos hs)

theorem ethSend_reads (h : ready s f q 0x37 = some i) (hr : refusedEarly s i.desc = false)
    (hs : s.eth.sends.any (fun x => decide (x.q = q)) = false) :
    ethSend f q hb s = startAccess q false [(esHseg i.desc, i.desc.w4, esHlen i.desc)]
      (fun t x => ethStart f q i (templateOf x i.desc hb) t x) s := by
  unfold ethSend
  rw [h]
  exact (if_neg (by rw [hr]; decide)).trans (if_neg (by rw [hs]; decide))

theorem frameSent_leaving {k : Nat × U32} {p b : Nat} {x : OutPkt} (h : leavingOf s k = some (p, b))
    (hx : agetq b (getEth s p).leaving = some x) :
    frameSent k s = frameGone k (sendFrame p b ⟨false, false, false⟩ x.bytes
      (modEth p (fun e => { e with leaving := adel b e.leaving }) s)) := by
  unfold frameSent
  rw [h]
  dsimp only
  rw [hx]

theorem frameSent_none {k : Nat × U32} (h : leavingOf s k = none) : frameSent k s = s := by
  unfold frameSent
  rw [h]
end

/-- Settles O53: by the cases of each command of Ethernet. -/
theorem ethernetCommandsComplete : Obligations.EthernetCommandsComplete := by
  refine ⟨fun p b s hf => ?_, fun p b s => ⟨fun hu => ?_, fun hu => ?_⟩, fun p b ok fx alt bs s hf hl => ?_,
    fun p b ok fx alt bs s hf => ⟨fun hw => ?_, fun hw => ?_⟩, fun p b ok fx alt bs s hf hl => ?_,
    fun f q hb i s h => ⟨fun st hr hc => ?_, fun hr hs => ?_, fun hr hs hbusy => ?_⟩,
    fun q p b idx x s hr hl hx => ?_, fun f q idx s h => ?_⟩
  · show Host.Outcome.next (when (fabricUp s) (ethUp p b) s) = _
    rw [hf, when_true, ethUp]
  · exact congrArg _ (if_pos hu)
  · exact congrArg _ (if_neg (by rw [hu]; decide))
  · intro t room good taken
    have hx : exec (.ethFrame p b ok fx alt bs) s = .next (rxFrame p b ok ⟨alt.altSeen, alt.echoAlt, fx⟩ bs s) :=
      congrArg _ (ethFrame_up hf)
    have hroom : room = true ↔ hasRoom p bs s := decide_eq_true_iff
    have hgood : good = true ↔ (hasRoom p bs s ∧ ok = true) ∧ at16 bs 12 ≠ 0x8808 := by
      simp only [good, Bool.and_eq_true, hroom, decide_eq_true_iff]
    have htaken : taken = (good && (passesFilter t p bs && vlanOk t p bs)) := Bool.and_assoc ..
    refine ⟨fun hr => ?_, fun hr hk => ?_, fun hr hk hb => ?_, fun hg ha => ?_, fun ht hz => ?_, fun n ht hn hz => ?_⟩
    · exact hx.trans (congrArg _ (rxFrame_full hl (fun hh => Bool.false_ne_true (hr.symm.trans (hroom.mpr hh)))))
    · subst hk
      exact hx.trans (congrArg _ (rxFrame_badFcs hl (hroom.mp hr)))
    · subst hk
      exact hx.trans (congrArg _ (rxFrame_pause hl (hroom.mp hr) hb))
    · rw [htaken, hg, Bool.true_and] at ha
      obtain ⟨⟨hr, rfl⟩, hb⟩ := hgood.mp hg
      exact hx.trans (congrArg _ (rxFrame_dropped hl hr hb ha))
    · obtain ⟨hg, ha⟩ := (Bool.and_eq_true _ _).mp (htaken.symm.trans ht)
      obtain ⟨⟨hr, rfl⟩, hb⟩ := hgood.mp hg
      refine hx.trans (congrArg _ ((rxFrame_passed hl hr hb ha).trans ?_))
      rcases hz with hz | hz
      · rw [hz]
        rfl
      · cases ipLen bs with
        | none => rfl
        | some n => exact if_pos (congrArg not hz)
    · obtain ⟨hg, ha⟩ := (Bool.and_eq_true _ _).mp (htaken.symm.trans ht)
      obtain ⟨⟨hr, rfl⟩, hb⟩ := hgood.mp hg
      refine hx.trans (congrArg _ ((rxFrame_passed hl hr hb ha).trans ?_))
      rw [hn]
      exact if_neg (fun hh => Bool.false_ne_true ((congrArg not hz).symm.trans hh))
  · exact congrArg _ ((ethFrame_down hf).trans (if_pos hw))
  · exact congrArg _ ((ethFrame_down hf).trans (if_neg hw))
  · exact congrArg _ ((ethFrame_up hf).trans (rxFrame_dead hl))
  · exact (live_running (ready_cases h).1).trans (congrArg _ ((ethSend_refused h hr).trans (ethStart_refused hc)))
  · exact (live_running (ready_cases h).1).trans (congrArg _ (ethSend_waits h hr hs))
  · intro r hh n x t hp hfull
    have hx : exec (.ethSend f q hb) s = .next (ethStart f q i hh r.2 r.1) :=
      (live_running (ready_cases h).1).trans (congrArg _ ((ethSend_reads h hr hs).trans (startAccess_full hbusy hp hfull)))
    exact ⟨fun st hc => hx.trans (congrArg _ (ethStart_refused hc)), fun hc => hx.trans (congrArg _ (ethStart_starts hc))⟩
  · refine (live_running hr).trans (congrArg _ ((frameSent_leaving hl hx).trans ?_))
    rfl
  · have hn : when (decide (f = 0)) (frameSent (q, idx)) s = s := by
      rcases h with h | h
      · rw [decide_eq_false h, when_false]
      · unfold when
        rw [frameSent_none h, ite_self]
    show Host.Outcome.next (if running s then when (decide (f = 0)) (frameSent (q, idx)) s else s) = _
    rw [hn, ite_self]

end Sys2Proof.Machine
end

section
namespace Sys2Proof.Machine

/-! ### An idle cycle (R22, R23) -/

/-- After its count an idle cycle neither counts again nor takes a command. -/
theorem tick_does_after_count (s : State) :
    Does [.out, .mem, .facets, .arb, .mirror, .fab, .xlt, .memc, .pcx, .eth, .boot, .pwr] (count s) (tick s) := by
  have hrows := does_when (c := awake s) (does_refl [.out, .mem, .facets, .arb, .mirror, .fab, .xlt, .memc, .pcx, .eth,
    .boot, .pwr] (count s)) fun _ h => segsGo_does (copyRows_does h rfl) rfl
  exact railsBegin_does (tickPcx_does (does_when hrows fun _ h => tickEth_does (takeTurns_does h rfl) rfl) rfl) rfl

/-- Settles O2: the count is all that an idle cycle does to the local counter. -/
theorem anIdleStepLetsACyclePass : Obligations.AnIdleStepLetsACyclePass := by
  intro s hp
  have hstep : step s = .next (tick s) := by
    unfold step
    rw [hp]
  have hnow : (tick s).now = (count s).now := (tick_does_after_count s).only .now (by decide)
  have hpending : (tick s).pending = s.pending := (tick_does_after_count s).only .pending (by decide)
  exact ⟨tick s, hstep, hpending.trans hp, hnow⟩

end Sys2Proof.Machine
end

section
namespace Sys2Proof.Machine

/-! ### Turns, source reads and confirmations (R85, R86, R102, R105, R110, R140) -/

section
variable {s : State} {n : Nat}

theorem contextDone_fetched (h : s.zrt.fetching.contains n = true) :
    contextDone n s = tryFreeQp n ((s.zrt.missBuf.filter (fun x => x.1 = n)).foldl
      (fun s x => if (getQp s n).st = .free then freeQpn x.2 s else goOnPacket n x.2 s)
      (makeCtx n { s with zrt := { s.zrt with
        missBuf := s.zrt.missBuf.filter (fun x => x.1 ≠ n)
        fetching := s.zrt.fetching.filter (fun x => x ≠ n) } })) :=
  if_neg (by rw [h]; decide)

theorem packetSend_req {p : U32} {re : Bool} (ht : hasTurn s n = true) (hn : nextTurn s n = some (.req p re)) :
    packetSend n s = takeTurns (sendNext n p re (makeCtx n s)) := by
  unfold packetSend
  rw [if_neg (by rw [ht]; decide), hn]

theorem packetSend_resp (ht : hasTurn s n = true) (hn : nextTurn s n = some .resp) :
    packetSend n s = takeTurns (respNext n (makeCtx n s)) := by
  unfold packetSend
  rw [if_neg (by rw [ht]; decide), hn]

theorem packetSend_outOfTurn (ht : hasTurn s n = false) : packetSend n s = s :=
  if_pos (by rw [ht]; rfl)

/-- A command with no effect on the state has none either where the device does not run. -/
theorem live_idle {g : State → State} (h : g s = s) : live g s = .next s := by
  unfold live when
  rw [h, ite_self]

/-- The end of a read leaves no trace in what hurts the places that it read. -/
theorem hurtAt_readsEnd (np : NpFor) (k : ReadKind) : hurtAt (readsEnd np s) k = hurtAt s k := rfl

/-- A source read that comes back unharmed goes on to what it serves. -/
theorem live_readBack_unharmed {w : ReadFor} {go : State → State} {t : State} (hr : running s = true)
    (hh : (readPlacesOf s w).findSome? (hurtAt s (kindOf w)) = none) (hg : go (readsEnd (.source w) s) = t) :
    live (fun s => readBack (kindOf w) (readPlacesOf s w) go (readsEnd (.source w) s)) s = .next t := by
  rw [live_running hr, readBack_unharmed (by rw [hurtAt_readsEnd]; exact hh), hg]

theorem packetRead_recorded {psn : U32} {bs : Bytes} {x : Pull} {d : QDesc}
    (hx : (getQp s n).req.pulls.find? (fun x => x.psn = psn) = some x) (hd : descAt (getQp s n) psn = some d)
    (hrec : d.recorded = true) :
    packetRead n psn bs s =
      (let t := modQp n (fun q => { q with req := { q.req with pulls := q.req.pulls.erase x } }) s
       tryFreeQp n (sendQp n (dataPacket t (getQp s n) d psn x.resent (gather x.places bs s.mem)) t)) := by
  unfold packetRead
  dsimp only
  rw [hx]
  dsimp only
  rw [hd]
  exact if_neg (by rw [hrec]; decide)

theorem respRead_owed {psn : U32} {bs : Bytes} {x : Pull} {r : RespOne}
    (hx : (getQp s n).rsp.pulls.find? (fun x => x.psn = psn) = some x)
    (hr : (getQp s n).rsp.sent.find? (fun r => r.psn = psn) = some r) :
    respRead n psn bs s =
      (let t := modBusy n (fun q => { q with rsp := { q.rsp with
         pulls := q.rsp.pulls.erase x, sent := q.rsp.sent.erase r } }) s
       tryFreeQp n (confirmRx n [psn] (sendQp n (respPacket t (getQp s n) r (gather x.places bs s.mem)) t))) := by
  unfold respRead
  dsimp only
  rw [hx, hr]
  rfl

theorem moveRead_reading {c : Nat} {bs : Bytes} {l : List (Nat × U64 × Nat)} (h : (getCh10 s c).reading = some l) :
    moveRead c bs s = moveGo c (modChan c (fun x => { x with
      reading := none, ks := x.ks + 1, skip := 0, hold := x.hold ++ (gather l bs s.mem).drop x.skip }) s) := by
  unfold moveRead
  dsimp only
  rw [h]

theorem flushBack_returns {p : Nat} {h : Bool}
    (hf : (getP s (portKey p h)).flushing = false ∨ injected s 0x1D p = false) :
    flushBack p h s = deviceResetDue (flushReturned (portKey p h) s) :=
  if_neg (by rcases hf with hf | hf <;> simp [hf])

theorem flushBack_injected {p : Nat} {h : Bool} (hf : (getP s (portKey p h)).flushing = true)
    (hi : injected s 0x1D p = true) :
    flushBack p h s = flushFailed p h (anyKind s) 0
      (countReadError p 0 none true (dropInjection 0x1D p { s with free := s.free + 1 })) :=
  if_pos (by rw [hf, hi]; rfl)
end

/-- Settles O31: by the cases of each command. -/
theorem contextsSendTurnsAndSourceReadsComplete : Obligations.ContextsSendTurnsAndSourceReadsComplete := by
  refine ⟨fun n s hu hf => ?_, fun n s hr ht => ⟨fun p re hn => ?_, fun hn => ?_⟩, fun n s ht => ?_,
    fun w bs s hr hh => ⟨?_, ?_, ?_, ?_, ?_⟩,
    fun p h s hr => ⟨fun hf => ?_, fun hf hi => ?_⟩, fun s hr => ?_, fun k s hr hk => ?_⟩
  · exact (onArrival_up hu).trans (congrArg (fun t => Host.Outcome.next (keysGo n t)) (contextDone_fetched hf))
  · exact (live_running hr).trans (congrArg _ (packetSend_req ht hn))
  · exact (live_running hr).trans (congrArg _ (packetSend_resp ht hn))
  · exact live_idle (packetSend_outOfTurn ht)
  · rintro n psn x d rfl hx hd hrec
    exact live_readBack_unharmed hr hh (packetRead_recorded hx hd hrec)
  · rintro n psn x r rfl hx hs
    exact live_readBack_unharmed hr hh (respRead_owed hx hs)
  · rintro g m c rfl
    exact live_readBack_unharmed hr hh rfl
  · rintro c l rfl hl
    exact live_readBack_unharmed hr hh (moveRead_reading hl)
  · rintro q rfl
    exact live_readBack_unharmed hr hh rfl
  · exact (live_running hr).trans (congrArg _ (flushBack_returns hf))
  · exact (live_running hr).trans (congrArg _ (flushBack_injected hf hi))
  · exact live_running hr
  · exact (live_running hr).trans (congrArg _ (if_pos hk))

end Sys2Proof.Machine
end

section
namespace Sys2Proof.Machine

/-! ### The timers of the transport (R22, R112, R113, R116, R117, R131, R138) -/

section
variable {s : State} {n : Nat}

/-- Two changes of a QP that agree on the QP as it is are one. -/
theorem modQp_congr {g g' : Qp → Qp} (h : g (getQp s n) = g' (getQp s n)) : modQp n g s = modQp n g' s :=
  congrArg (fun q => { s with qps := aset n q s.qps }) h

/-- Congestion changes the rate of a QP, not what it has sent. -/
theorem getQp_congest_req : (getQp (congest n s) n).req = (getQp s n).req := by
  have hq : (congest n s).qps = (modQp n (fun q => { q with rate := (rateCut s (getQp s n).rate).1 }) s).qps := by
    unfold congest
    dsimp only
    split <;> rfl
  unfold getQp
  rw [hq, modQp_qps, aget_amod, if_pos rfl]

/-- What a QP that has timed out becomes before it resends or holds. -/
def timedOut (n : Nat) (s : State) : State :=
  congest n (modQp n (fun q => { q with req := { q.req with timeouts := q.req.timeouts + 1, timer := s.now } }) s)

theorem getQp_timedOut_req : (getQp (timedOut n s) n).req =
    { (getQp s n).req with timeouts := (getQp s n).req.timeouts + 1, timer := s.now } :=
  getQp_congest_req.trans (congrArg Qp.req ((getQp_modQp ..).trans (if_pos rfl)))

/-- What a QP resends from ACK_PSN: all of its packets in flight but READ requests that are confirmed. -/
def unconfirmed (q : Qp) : List U32 :=
  (psnRange q.req.ack q.req.hi).filter (fun p => !(isReadPsn q p && confirmedTx q p))

/-- A timeout leaves what is to be resent as it was. -/
theorem unconfirmed_timedOut : unconfirmed (getQp (timedOut n s) n) = unconfirmed (getQp s n) := by
  unfold unconfirmed isReadPsn confirmedTx descAt
  rw [getQp_timedOut_req]

theorem resendTimeout_due (hst : (getQp s n).st = .rts) (hfl : (getQp s n).inFlight = true)
    (he : elapsed s (getQp s n).req.timer (getQp s n).interval = true) :
    resendTimeout n s = if (getQp s n).req.timeouts + 1 < (getQp s n).retryLim + 1 then
        modQp n (fun q => { q with req := { q.req with resend := unconfirmed q, lone := [] } }) (timedOut n s)
      else enterHold n 1 (timedOut n s) :=
  if_pos (by rw [hst, hfl, he]; rfl)

theorem resendTimeout_early (he : elapsed s (getQp s n).req.timer (getQp s n).interval = false) :
    resendTimeout n s = s :=
  if_neg (by rw [he, Bool.and_false]; decide)

theorem holdResend_early
    (he : elapsed s (getQp s n).req.holdSent (if (getQp s n).holdWhy = 3 then ms 1 else (getQp s n).interval) = false) :
    holdResend n s = s :=
  if_neg (by rw [he, Bool.and_false]; decide)

theorem holdLimitEnd_early (he : elapsed s (getQp s n).req.holdAt (getQp s n).holdLimit = false) :
    holdLimitEnd n s = s :=
  if_neg (by rw [he, Bool.and_false]; decide)
end

/-- Settles O32: by the cases of each timer; a timeout leaves what is to be resent as it was. -/
theorem transportTimersActWhenTheirIntervalIsOver : Obligations.TransportTimersActWhenTheirIntervalIsOver := by
  refine ⟨fun n s hr hst hfl he => ⟨fun hl => ?_, fun hl => ?_⟩, fun n s hr => ?_, fun n s hr => ?_,
    fun n s hr hst hw hhi he => ?_, fun n s hr hst hw he => ?_, fun n s hr hc hcc he => ?_, fun s hr hw => ?_,
    fun n s => ⟨fun he => ?_, fun he => ?_, fun he => ?_, fun he => ?_⟩⟩
  · exact (live_running hr).trans (congrArg _ ((resendTimeout_due hst hfl he).trans (if_neg (by omega))))
  · refine (live_running hr).trans (congrArg _ ((resendTimeout_due hst hfl he).trans ((if_pos (by omega)).trans ?_)))
    exact modQp_congr (by rw [unconfirmed_timedOut]; rfl)
  · exact live_running hr
  · exact live_running hr
  · exact (live_running hr).trans (congrArg _ (if_pos (by rw [he, decide_eq_true hw, decide_eq_true hhi, hst]; rfl)))
  · exact (live_running hr).trans (congrArg _ (if_pos (by rw [he, decide_eq_true hw, hst]; rfl)))
  · exact (live_running hr).trans (congrArg _ (if_pos (by rw [hc, hcc, he]; rfl)))
  · exact (live_running hr).trans (congrArg _ (if_pos hw))
  · exact live_idle (resendTimeout_early he)
  · exact live_idle (holdResend_early he)
  · exact live_idle (holdLimitEnd_early he)
  · exact live_idle (if_neg (by rw [he, Bool.and_false]; decide))

end Sys2Proof.Machine
end

section
namespace Sys2Proof.Machine

/-! ### PCIe ports that come up and go down (R289, R292, R298 to R305) -/

section
variable {s : State}

theorem portDown_down {k : Nat} (h : (getP s k).up = false) : portDown k s = s :=
  if_pos (by rw [h]; rfl)

theorem portDown_up {k : Nat} (h : (getP s k).up = true) :
    portDown k s =
      (let l := (getP s k).unconf
       let a := parkChans k l (dropCollReads k (modP k (fun p => { p with
         up := false, speed := 0, width := 0, flit := false, flushing := false, flushFails := 0, flushFailAt := none
         unconf := [], egress := [], drr := {}, budget := 0, reads := [] }) (pendMsix (getP s k) s)))
       let d := (a.facets.map Prod.fst).foldl (fun s f => holdFetches k f s) (holdBack k l a)
       let e := dropAsked k ((d.qps.map Prod.fst).foldl (qpPortDown k l) d)
       wakeColls ((e.facets.map Prod.fst).foldl (fun s f => if cmpOnPort s f k then cmpPortError f s else s) e)) :=
  if_neg (by rw [h]; decide)

/-- DL_Up of a port or of a half B that exists. -/
theorem execDlUp_present {p sp w : Nat} {h fl : Bool} (hb : h = false ∨ bifurcated s p = true) :
    exec (.dlUp p h sp w fl) s = .next (dlUp (portKey p h) sp w fl s) :=
  congrArg Host.Outcome.next (if_pos (by rcases hb with hb | hb <;> simp [hb]))

/-- DL_Up of a half B that does not exist. -/
theorem execDlUp_absent {p sp w : Nat} {fl : Bool} (hb : bifurcated s p = false) :
    exec (.dlUp p true sp w fl) s = .next s :=
  congrArg Host.Outcome.next (if_neg (by simp [hb]))

section
variable {k sp w : Nat} {fl : Bool}

theorem dlUp_up (h : (getP s k).up = true) : dlUp k sp w fl s = s := if_pos h

/-- A port after DL_Up, at a width that its configuration allows. -/
def Port.broughtUp (sp w : Nat) (fl : Bool) (x : Port) : Port :=
  { x with
    up := true, speed := sp, width := w, flit := fl || decide (sp = 6), epoch := x.epoch + 1, epochRead := false }

theorem dlUp_downstream (hk : k ≠ 0) (h : (getP s k).up = false) :
    dlUp k sp w fl s = modP k (Port.broughtUp sp (min w (maxWidth s k)) fl) s := by
  unfold dlUp
  rw [if_neg (by rw [h]; decide)]
  dsimp only
  rw [if_neg hk, if_neg hk]
  rfl

/-- A facet that must read PCX_ATTACH_EPOCH again. -/
def Facet.epochUnread (x : Facet) : Facet := { x with pcx := { x.pcx with epochRead := false } }

/-- The upstream port comes up: WAKE_UP_N rises, and every facet must read the epoch again. -/
theorem dlUp_upstream (h : (getP s 0).up = false) :
    dlUp 0 sp w fl s =
      (let t := modP 0 (Port.broughtUp sp (min w (maxWidth (wakeUpEnd s) 0)) fl) (wakeUpEnd s)
       { t with
         pcx := { t.pcx with attachEpoch := t.pcx.attachEpoch + 1 }
         facets := amap (fun _ x => x.epochUnread) t.facets }) :=
  if_neg (by rw [h]; decide)
end

theorem wakeUpEnd_pcx : (wakeUpEnd s).pcx = s.pcx := by
  unfold wakeUpEnd
  split <;> rfl

theorem wakeUpEnd_wakeUp : (wakeUpEnd s).pwr.wakeUp = none := by
  unfold wakeUpEnd
  split
  · rfl
  · next h => exact Option.not_isSome_iff_eq_none.mp h

/-- What every change of an entry has, every entry of a table whose entries are all changed has. -/
theorem forall_mem_amap {α : Type} {g : Nat → α → α} {l : Assoc α} {P : α → Prop} (h : ∀ k y, P (g k y)) :
    ∀ x, x ∈ amap g l → P x.2 := by
  intro x hx
  obtain ⟨y, -, rfl⟩ := List.mem_map.mp hx
  exact h y.1 y.2

theorem readEpoch_shown {f : Nat} (h : (getF s f).st ≠ .off) :
    readEpoch f s = releaseFacet f (emit (.readValue f 0xF400 (BitVec.ofNat 64 s.pcx.attachEpoch.toNat))
      (modF f (fun x => { x with pcx := { x.pcx with epochRead := true } }) s)) := if_neg h

theorem readPort_downstream {p : Nat} (h1 : 1 ≤ p) (h4 : p ≤ 4) :
    readPort 0 p s = releasePort p (modP p (fun x => { x with epochRead := true })
      (emit (.readValue 0 (0xF488 + 8 * p) (portValue s p)) s)) := by
  unfold readPort
  rw [if_neg (by decide)]
  exact if_pos ⟨h1, h4⟩

theorem readPortB_present {k : Nat} (hk : k < 4) (hb : bifurcated s (k + 1) = true) :
    readPortB 0 k s = releasePort (5 + k) (modP (5 + k) (fun x => { x with epochRead := true })
      (emit (.readValue 0 (0xF4E0 + 8 * k) (portBValue s k)) s)) := by
  unfold readPortB
  rw [if_neg (by decide)]
  exact if_pos ⟨hk, hb⟩

/-- Which bridges exist is in the device registers. -/
theorem bridgesHere_congr {t : State} (h : t.regs = s.regs) : bridgesHere t = bridgesHere s := by
  unfold bridgesHere bifurcated reg
  rw [h]

/-- The state of an upstream reset before LIVE is set. -/
def functionsReset (s : State) : State :=
  let t := retryStuck (forgetHost (portDown 0 s))
  resetBars { t with facets := amap (fun _ x => x.resetFunction) t.facets }

theorem upstreamReset_eq : upstreamReset s =
    { functionsReset s with pcx := { (functionsReset s).pcx with
        up := {}, live := BitVec.ofNat 8 (ofBits (bridgesHere s)) } } := by
  have hregs : (upstreamReset s).regs = s.regs :=
    everyCommandChangesOnlyItsParts .upstreamReset s _ rfl .regs (by decide)
  have hb : bridgesHere (functionsReset s) = bridgesHere s := bridgesHere_congr hregs
  rw [← hb]
  rfl
end

/-- Settles O46: by the cases of each command; an upstream reset leaves the registers that say which bridges exist. -/
theorem portsGoDownComeUpAndReleaseWork : Obligations.PortsGoDownComeUpAndReleaseWork := by
  refine ⟨fun p h sp w fl s hb => ⟨fun hu => ?_, fun hk hu => ?_⟩, fun p sp w fl s hb => ?_, fun sp w fl s hu => ?_,
    fun p h s hu => ?_, fun p h s hu => ?_, fun f s hr => ⟨fun hf => ?_, fun hf => ?_⟩, fun p s hr h1 h4 => ?_,
    fun k s hr hk hb => ?_, fun f p s hr hf => ⟨?_, ?_⟩, fun f on s hr => ?_, fun f s hr => ?_, fun s => ?_⟩
  · exact (execDlUp_present hb).trans (congrArg _ (dlUp_up hu))
  · exact (execDlUp_present hb).trans (congrArg _ (dlUp_downstream hk hu))
  · exact execDlUp_absent hb
  · refine ⟨_, (execDlUp_present (.inl rfl)).trans (congrArg _ (dlUp_upstream hu)), ?_, ?_, ?_, ?_, wakeUpEnd_wakeUp⟩
    · exact congrArg Port.up ((getP_modP ..).trans (if_pos rfl))
    · exact congrArg Port.speed ((getP_modP ..).trans (if_pos rfl))
    · exact congrArg (fun x => x.attachEpoch + 1) wakeUpEnd_pcx
    · exact forall_mem_amap (g := fun _ => Facet.epochUnread) (P := fun (x : Facet) => x.pcx.epochRead = false)
        fun _ _ => rfl
  · exact congrArg Host.Outcome.next (portDown_up hu)
  · exact congrArg Host.Outcome.next (portDown_down hu)
  · exact (live_running hr).trans (congrArg _ (readEpoch_shown hf))
  · exact (live_running hr).trans (congrArg _ (if_pos hf))
  · exact (live_running hr).trans (congrArg _ (readPort_downstream h1 h4))
  · exact (live_running hr).trans (congrArg _ (readPortB_present hk hb))
  · exact (live_running hr).trans (congrArg _ (if_pos hf))
  · exact (live_running hr).trans (congrArg _ (if_pos hf))
  · exact live_running hr
  · exact live_running hr
  · refine ⟨_, congrArg Host.Outcome.next upstreamReset_eq, ?_, rfl, rfl, rfl, rfl, rfl⟩
    exact forall_mem_amap (g := fun _ => Facet.resetFunction) (P := fun (x : Facet) => x.pcx.bme = false ∧
      x.pcx.msixOn = false) fun _ _ => ⟨rfl, rfl⟩

end Sys2Proof.Machine
end

section
namespace Sys2Proof.Machine

/-! ### The reset pins and the boot stages (R402 to R411, R450) -/

section
variable {s : State} {n : Nat} {low : Bool}

/-- A level of a reset pin that is held for 5 samples is taken, and a shorter one is not. -/
theorem execPorstN_taken (h : 5 ≤ n) :
    exec (.porstN low n) s = .next ((if low then porstLow else porstHigh) s) :=
  congrArg Host.Outcome.next (if_pos (decide_eq_true h))

theorem execPorstN_short (h : n < 5) : exec (.porstN low n) s = .next s :=
  congrArg Host.Outcome.next (if_neg (by simp [h]))

theorem execAdpRstN_taken (h : 5 ≤ n) : exec (.adpRstN low n) s = .next ((if low then adpLow else adpHigh) s) :=
  congrArg Host.Outcome.next (if_pos (decide_eq_true h))

theorem execAdpRstN_short (h : n < 5) : exec (.adpRstN low n) s = .next s :=
  congrArg Host.Outcome.next (if_neg (by simp [h]))

/-- ADP_RST_N low is noted, and a device that takes a warm reset takes the pin's. -/
theorem execAdpRstN_low {t : State} (h5 : 5 ≤ n) (hlow : s.boot.adpLow = false) (hoff : s.boot.run ≠ .off)
    (ht : when (takesWarm s) pinWarm { s with boot := { s.boot with adpLow := true } } = t) :
    exec (.adpRstN true n) s = .next t :=
  (execAdpRstN_taken h5).trans (congrArg _ ((if_neg (by simp [hlow, hoff])).trans ht))

theorem execAdpRstN_low_warm {t : State} (h5 : 5 ≤ n) (hlow : s.boot.adpLow = false) (hoff : s.boot.run ≠ .off)
    (hw : takesWarm s = true) (ht : pinWarm { s with boot := { s.boot with adpLow := true } } = t) :
    exec (.adpRstN true n) s = .next t :=
  execAdpRstN_low h5 hlow hoff ((if_pos hw).trans ht)

theorem pinWarm_active (hm : s.err.mode ≠ .umbra) (hg : s.pwr.st ≠ .glimmer) (he : s.pwr.st ≠ .glimmerEntry) :
    pinWarm s = leaveReset (warmLoss s) := by
  unfold pinWarm
  rw [if_neg hm]
  cases hst : s.pwr.st with
  | glimmer => exact absurd hst hg
  | glimmerEntry => exact absurd hst he
  | active => rfl
  | restEntry => rfl
  | rest => rfl

theorem pinWarm_glimmerEntry (hm : s.err.mode ≠ .umbra) (he : s.pwr.st = .glimmerEntry) :
    pinWarm s = { s with boot := { s.boot with warmAfter := true } } := by
  unfold pinWarm
  rw [if_neg hm, he]

theorem pinWarm_glimmer (hm : s.err.mode ≠ .umbra) (hg : s.pwr.st = .glimmer) : pinWarm s = glimmerExit 0 s := by
  unfold pinWarm
  rw [if_neg hm, hg]

theorem pinWarm_dumped (hm : s.err.mode = .umbra) (hd : s.err.dumpDone = true) :
    pinWarm s = leaveReset (umbraLoss s) :=
  (if_pos hm).trans (if_pos hd)

theorem pinWarm_held (hm : s.err.mode = .umbra) (hd : s.err.dumpDone = false) (hh : s.boot.heldWarm = none) :
    pinWarm s = { s with boot := { s.boot with heldWarm := some s.now } } :=
  (if_pos hm).trans ((if_neg (by simp [hd])).trans (if_neg (by simp [hh])))

theorem deviceReset_badKind {q : Nat} {i : Item} (h : fld i.desc.w2 1 0 = 0 ∨ fld i.desc.w2 1 0 = 3) :
    deviceReset q i s = completeItem 0 q i.idx (stat cBAD_FIELD) s := if_pos h

/-- A DEVICE_RESET of KIND 1 or 2 completes, and the reset waits for its record, unless one waits already. -/
theorem deviceReset_kind {q : Nat} {i : Item} (h : fld i.desc.w2 1 0 = 1 ∨ fld i.desc.w2 1 0 = 2) :
    deviceReset q i s =
      (let u := completeItem 0 q i.idx stOk s
       if u.boot.resetWait.isSome then u
       else { u with boot := { u.boot with resetWait := some (q, i.idx, decide (fld i.desc.w2 1 0 = 2)) } }) :=
  if_neg (by omega)

/-- A reset that is held in Umbra runs once the dump is done or 100 ms have passed. -/
theorem execUmbraResetHoldEnd_held {t : U64} (h : s.boot.heldWarm = some t) :
    exec .umbraResetHoldEnd s = .next (when (decide (s.err.mode = Mode.umbra) && holdOver s t) umbraReset s) := by
  show execUmbraResetHoldEnd s = _
  unfold execUmbraResetHoldEnd
  rw [h]

theorem execBootStageDone_booting {info : BootInfo} {t : State} (hb : s.boot.run = .boot) (ha : awake s = true)
    (ht : stageDone info s = t) : exec (.bootStageDone info) s = .next t :=
  congrArg Host.Outcome.next ((if_pos (by rw [hb, ha]; rfl)).trans ht)

/-- A measurement does not touch the boot's own record. -/
theorem extendM_boot (k : Nat) (d : BitVec 512) (s : State) : (extendM k d s).boot = s.boot :=
  (extendM_does (does_refl [.trust] s) rfl).only .boot (by decide)

/-- What stage 2 records of the bank that it chose. -/
theorem stage2_chosen {info : BootInfo} {isB : Bool} (h : (chooseBank s info).1 = some isB) :
    let t := stage2 info s
    t.boot.stage = 3 ∧ t.boot.run = s.boot.run ∧ t.boot.bankB = isB ∧
      t.boot.image = (if isB then info.bankB else info.bankA).image := by
  unfold stage2
  dsimp only
  rw [h]
  refine ⟨rfl, ?_, rfl, rfl⟩
  show (extendM 2 _ (extendM 0 _ _)).boot.run = _
  rw [extendM_boot, extendM_boot]

theorem stage2_none {info : BootInfo} (h : (chooseBank s info).1 = none) :
    (stage2 info s).boot.run = .hold ∧ (stage2 info s).boot.holdWhy = 1 := by
  unfold stage2
  dsimp only
  rw [h]
  exact ⟨rfl, rfl⟩

theorem stage3_fenced (h : coreFenced s 0 = true ∧ coreFenced s 1 = true) : stage3 s = bootHold 3 s :=
  if_pos (by rw [h.1, h.2]; rfl)

theorem stage3_starts (h : ¬ (coreFenced s 0 = true ∧ coreFenced s 1 = true)) :
    stage3 s = toStage 4 (emit (.pin "NVM_FREE" true) { s with
      boot := { s.boot with nvmFree := true }, prism := { s.prism with ucode := s.boot.image.ucodeVer } }) :=
  if_neg (by rw [Bool.and_eq_true]; exact h)

theorem stage4_trained {info : BootInfo} (h : info.trained = true) :
    stage4 info s = toStage 5 (layMemory info s.boot.image.mem s) := if_pos h

theorem stage4_untrained {info : BootInfo} (h : info.trained = false) : stage4 info s = bootHold 2 s :=
  if_neg (by rw [h]; decide)
end

/-- Settles O56: by the cases of each pin, reset and stage. -/
theorem resetsAndBootStagesComplete : Obligations.ResetsAndBootStagesComplete := by
  refine ⟨fun n low s h => ⟨execPorstN_short h, execAdpRstN_short h⟩, fun n s h5 ho hp => ?_, fun n s h5 h => ?_,
    fun n s h5 h => ?_, fun n s h5 h => ?_, fun n s h5 hl ho => ⟨fun hw => ?_, fun hw hm hg he => ?_,
      fun hw hm he => ?_, fun hw hm hg => ?_, fun hw hm hd => ?_, fun hw hm hd hh => ?_⟩,
    fun n s h5 h => ?_, fun n s h5 => ?_, fun s => rfl, fun s h => ?_, fun v s h => ?_,
    fun f q i s h => ⟨fun hk => ?_, fun hk hn => ?_, fun hk hn => ?_⟩, fun t s hh hm ho => ?_,
    fun t s hh hd he => ?_, fun info s hb ha => ?_⟩
  · exact (execPorstN_taken h5).trans (congrArg _ (if_neg (not_or.mpr ⟨ho, hp⟩)))
  · exact (execPorstN_taken h5).trans (congrArg _ (if_pos h))
  · exact (execPorstN_taken h5).trans (congrArg _ (if_pos h))
  · exact (execPorstN_taken h5).trans (congrArg _ (if_neg h))
  · exact execAdpRstN_low h5 hl ho (if_neg (by rw [hw]; decide))
  · exact execAdpRstN_low_warm h5 hl ho hw (pinWarm_active hm hg he)
  · exact execAdpRstN_low_warm h5 hl ho hw (pinWarm_glimmerEntry hm he)
  · exact execAdpRstN_low_warm h5 hl ho hw (pinWarm_glimmer hm hg)
  · exact execAdpRstN_low_warm h5 hl ho hw (pinWarm_dumped hm hd)
  · exact execAdpRstN_low_warm h5 hl ho hw (pinWarm_held hm hd hh)
  · exact (execAdpRstN_taken h5).trans (congrArg _ (if_pos h))
  · exact execAdpRstN_taken h5
  · exact congrArg Host.Outcome.next (if_pos (decide_eq_true ⟨h, rfl⟩))
  · exact congrArg Host.Outcome.next (if_neg (by rw [decide_eq_true_iff]; tauto))
  · exact live_startWith h (deviceReset_badKind hk)
  · exact live_startWith h ((deviceReset_kind hk).trans (if_neg (by simp [hn])))
  · exact live_startWith h ((deviceReset_kind hk).trans (if_pos (Option.isSome_iff_ne_none.mpr hn)))
  · refine (execUmbraResetHoldEnd_held hh).trans (congrArg _ (if_pos ?_))
    rw [decide_eq_true hm, Bool.true_and]
    exact (Bool.or_eq_true ..).mpr ho
  · refine (execUmbraResetHoldEnd_held hh).trans (congrArg _ (if_neg ?_))
    simp [holdOver, hd, he]
  · have hends : ∀ {t}, stageDone info s = t → exec (.bootStageDone info) s = .next t :=
      execBootStageDone_booting hb ha
    refine ⟨fun h => ?_, fun h => ?_, fun h hc => ?_, fun h hc => ?_, fun h hf => ?_, fun h hf => ?_, fun h ht => ?_,
      fun h ht => ?_, fun h => ?_, fun h => ?_, fun h => ?_, fun h => ?_, fun h => ?_⟩
    · exact hends (by simp only [stageDone, h])
    · exact hends (by simp only [stageDone, h])
    · obtain ⟨isB, hc⟩ := Option.ne_none_iff_exists'.mp hc
      obtain ⟨hstage, hrun, hbank, himage⟩ := stage2_chosen hc
      exact ⟨stage2 info s, hends (by simp only [stageDone, h]), hstage, hrun.trans hb, by rw [hc, hbank],
        by rw [himage, hbank]⟩
    · exact ⟨stage2 info s, hends (by simp only [stageDone, h]), stage2_none hc⟩
    · exact hends (by simp only [stageDone, h, stage3_fenced hf])
    · exact hends (by simp only [stageDone, h, stage3_starts hf])
    · exact hends (by simp only [stageDone, h, stage4_trained ht])
    · exact hends (by simp only [stageDone, h, stage4_untrained ht])
    · exact hends (by simp only [stageDone, h])
    · exact hends (by simp only [stageDone, h])
    · exact hends (by simp only [stageDone, h])
    · exact ⟨stage8 s, hends (by simp only [stageDone, h]), rfl, rfl⟩
    · exact hends (by simp only [stageDone, h])

end Sys2Proof.Machine
end

section
namespace Sys2Proof.Machine

/-! ### Doorbells and pushes (R44, R50 to R56) -/

section
variable {f q : Nat} {rq : Bool} {v : U32} {s : State}

theorem doorbell_inactive (h : (getQ s f rq q).st ≠ .active) : doorbell f rq q v s = s :=
  if_pos (by rw [decide_eq_false h, Bool.and_false]; rfl)

theorem doorbell_repeated (h : v - (getQ s f rq q).pDev = 0) : doorbell f rq q v s = s :=
  (congrArg _ (if_pos (sub_eq_zero.mp h))).trans (ite_self s)

/-- A doorbell of another value than P_dev, of an ACTIVE queue of an ON facet. -/
theorem doorbell_advancing (hf : facetOn s f = true) (ha : (getQ s f rq q).st = .active)
    (hd : v - (getQ s f rq q).pDev ≠ 0) :
    doorbell f rq q v s =
      if 0x80000000 ≤ (v - (getQ s f rq q).pDev).toNat then
        modF f (fun y => { y with que := { y.que with staleDb := y.que.staleDb + 1 } }) s
      else if (getQ s f rq q).size < (v - (getQ s f rq q).head).toNat then
        settleQueues f (enterError f rq q cOVERFLOW
          ((getQ s f rq q).head + BitVec.ofNat 32 (getQ s f rq q).size) s)
      else if rq then rqFetch f q (modQ f rq q (fun x => { x with pDev := v }) s)
      else modQ f rq q (fun x => { x with pDev := v }) s :=
  (if_neg (by rw [hf, ha]; decide)).trans (if_neg fun h => hd (sub_eq_zero.mpr h))

/-- A doorbell of an SQ whose push page holds no earlier write back acts at once. -/
theorem sqDoorbell_free (hs : pageStuck s f q = false) : sqDoorbell f q v s = doorbell f false q v s :=
  if_neg (by rw [StuckWrite.page, hs]; decide)

/-- A doorbell behind a write that its push page holds back waits with it (R54, R55). -/
theorem sqDoorbell_behind (hs : pageStuck s f q = true) : sqDoorbell f q v s = stick (.bell f q v) s := if_pos hs

/-- The doorbell of an SQ or RQ, with no earlier write held back in front of an SQ's. -/
theorem execDoorbell_free (hr : running s = true) (hs : rq = false → pageStuck s f q = false) :
    exec (if rq then .queRqDoorbell f q v else .queSqDoorbell f q v) s = .next (doorbell f rq q v s) := by
  cases rq
  case false => exact (live_running hr).trans (congrArg _ (sqDoorbell_free (hs rfl)))
  case true => exact live_running hr
end

/-- Settles O13: by the cases of v − P_dev. -/
theorem doorbellsMoveTheProducerIndex : Obligations.DoorbellsMoveTheProducerIndex := by
  refine ⟨fun f q rq v s hr hf ha hs => ?_, fun f q v s hr hs => ?_⟩
  · have hx := execDoorbell_free (v := v) hr hs
    refine ⟨fun hd => ?_, fun hd hst => ?_, fun hd hst ho => ?_, fun hd hst ho => ?_⟩
    · exact hx.trans (congrArg _ (doorbell_repeated hd))
    · rw [hx, doorbell_advancing hf ha hd, if_pos hst]
    · rw [hx, doorbell_advancing hf ha hd, if_neg (by omega), if_pos ho]
    · rw [hx, doorbell_advancing hf ha hd, if_neg (by omega), if_neg (by omega)]
  · exact (live_running hr).trans (congrArg _ (sqDoorbell_behind hs))

section
variable {a : Source} {g p o f q off len : Nat} {ds : List Desc} {s : State}

/-- A push that reaches no facet's page changes nothing. -/
theorem push_nowhere (h : pushReach s a g p o = none) : exec (.push ⟨a, g⟩ p o len ds) s = .next s :=
  live_idle (by dsimp only; rw [h])

/-- A push that reaches a push page is a write there, while the device runs. -/
theorem push_reaching (h : pushReach s a g p o = some (f, q, off)) :
    exec (.push ⟨a, g⟩ p o len ds) s = .next (when (running s) (pushInto f q off len ds) s) := by
  show live _ s = _
  simp [live, when, h]

/-- A write into a window of a push page that holds no earlier write back, and that need not wait itself. -/
theorem push_window (hr : running s = true) (hp : pushReach s a g p o = some (f, q, off)) (hf : (getF s f).st ≠ .off)
    (ho : off < 0x800) (hs : pageStuck s f q = false) (hw : mustWait s f q off len = false) :
    exec (.push ⟨a, g⟩ p o len ds) s = .next (windowPush f q off len ds s) := by
  have htry : tryStuck s (.push f q off len ds) = windowPush f q off len ds s :=
    (if_neg (by rw [StuckWrite.page, hs]; decide)).trans (if_neg (by rw [hw]; decide))
  rw [push_reaching hp, hr, when_true, pushInto, if_neg hf, if_pos ho, htry]

/-- A write into a window of a push page for which the staging pool has no room waits at the port (R55). -/
theorem push_waits (hr : running s = true) (hp : pushReach s a g p o = some (f, q, off)) (hf : (getF s f).st ≠ .off)
    (ho : off < 0x800) (hs : pageStuck s f q = false) (hw : mustWait s f q off len = true) :
    exec (.push ⟨a, g⟩ p o len ds) s = .next (stick (.push f q off len ds) s) := by
  have htry : tryStuck s (.push f q off len ds) = stick (.push f q off len ds) s :=
    (if_neg (by rw [StuckWrite.page, hs]; decide)).trans (if_pos hw)
  rw [push_reaching hp, hr, when_true, pushInto, if_neg hf, if_pos ho, htry]

/-- A misshapen push, or one of a queue that is not ACTIVE, never waits. -/
theorem mustWait_discarded (h : pushShape off len = false ∨ (getQ s f false q).st ≠ .active) :
    mustWait s f q off len = false := by
  unfold mustWait
  rcases h with h | h <;> simp [h]

/-- One that is beyond the queue's size never waits. -/
theorem mustWait_overflowing
    (hn : (getQ s f false q).size < ((getQ s f false q).pDev - (getQ s f false q).head).toNat + len / 64) :
    mustWait s f q off len = false := by
  unfold mustWait
  dsimp only
  rw [decide_eq_false (Nat.not_le.mpr hn), Bool.and_false]
  rfl

theorem windowPush_discarded (h : pushShape off len = false ∨ (getQ s f false q).st ≠ .active) :
    windowPush f q off len ds s = discardPush f s :=
  if_pos (by rcases h with h | h <;> simp [h])

/-- Such a push is discarded and counted (R56). -/
theorem push_discarded (hr : running s = true) (hp : pushReach s a g p o = some (f, q, off)) (hf : (getF s f).st ≠ .off)
    (ho : off < 0x800) (hs : pageStuck s f q = false)
    (h : pushShape off len = false ∨ (getQ s f false q).st ≠ .active) :
    exec (.push ⟨a, g⟩ p o len ds) s = .next (discardPush f s) :=
  (push_window hr hp hf ho hs (mustWait_discarded h)).trans (congrArg _ (windowPush_discarded h))

theorem facetOn_not_off (hf : facetOn s f = true) : (getF s f).st ≠ .off := by
  rw [of_decide_eq_true hf]
  decide

section
variable (hf : facetOn s f = true) (ha : (getQ s f false q).st = .active) (hp : pushShape off len = true)
include hf ha hp

/-- A well-formed push of an ACTIVE queue waits where it is within the queue's size and the pool has no room. -/
theorem mustWait_fitting
    (hn : ((getQ s f false q).pDev - (getQ s f false q).head).toNat + len / 64 ≤ (getQ s f false q).size) :
    mustWait s f q off len = noRoom s f q (len / 64) := by
  unfold mustWait
  dsimp only
  rw [hp, hf, decide_eq_true ha, decide_eq_true hn]
  rfl

theorem windowPush_overflowing
    (hn : (getQ s f false q).size < ((getQ s f false q).pDev - (getQ s f false q).head).toNat + len / 64) :
    windowPush f q off len ds s = settleQueues f (enterError f false q cOVERFLOW
      ((getQ s f false q).head + BitVec.ofNat 32 (getQ s f false q).size) s) :=
  (if_neg (by rw [hf, ha, hp]; decide)).trans (if_pos hn)

/-- A push of descriptors that all match their indices stages them. -/
theorem windowPush_matching
    (hn : ((getQ s f false q).pDev - (getQ s f false q).head).toNat + len / 64 ≤ (getQ s f false q).size)
    (hl : ds.length = len / 64) (hg : (pushGood (getQ s f false q).pDev ds).length = ds.length) :
    windowPush f q off len ds s = modQ f false q (fun x => { x with
      pDev := (getQ s f false q).pDev + BitVec.ofNat 32 (len / 64)
      staged := x.staged ++ pushGood (getQ s f false q).pDev ds }) s := by
  have htake : (ds ++ List.replicate (len / 64) default).take (len / 64) = ds := by rw [← hl, List.take_left]
  refine (if_neg (by rw [hf, ha, hp]; decide)).trans ((if_neg (by omega)).trans ?_)
  unfold takePush
  dsimp only
  rw [htake, hg, hl]
  exact if_neg (lt_irrefl _)
end
end

/-- Settles O14: an inactive queue takes neither a doorbell nor a push. -/
theorem writesToAnInactiveQueueHaveNoEffect : Obligations.WritesToAnInactiveQueueHaveNoEffect :=
  ⟨fun _ _ _ _ h hs => live_idle ((sqDoorbell_free hs).trans (doorbell_inactive h)),
    fun _ _ _ _ h => live_idle (doorbell_inactive h),
    fun _ _ _ _ _ _ _ _ _ _ hr hp hf ho hs h => push_discarded hr hp hf ho hs (.inr h)⟩

end Sys2Proof.Machine
end

section
namespace Sys2Proof.Machine

/-! ### Taking, re-reading and accepting descriptors (R57 to R59, R72) -/

section
variable {f q : Nat} {rq : Bool} {s : State}

/-- The arbiter grants the member that it visits while grants are left and something is there to take. -/
theorem arbitrate_grants {n : Nat} {r : List (Nat × Nat)} (h : s.arb.round = (f, q) :: r) (hg : s.arb.grants ≠ 0)
    (hq : grantable s f q = true) :
    arbitrate (n + 1) s = grant f q { s with arb := { s.arb with grants := s.arb.grants - 1 } } := by
  unfold arbitrate
  rw [h]
  exact if_neg (by rw [decide_eq_false hg, hq]; decide)

/-- A fetch read that returns every slot ready takes them all and leaves no wait. -/
theorem fetchDone_ready {rd : Fetch} {slots : List Desc} (hrd : (getQ s f rq q).fetch = some rd)
    (hh : rd.held = false) (h5 : (pinPlace s f (getQ s f rq q).ringSeg (getQ s f rq q).ringOff).1 ≠ 5)
    (hl : slots.length = rd.count) (hready : (readyRun rd.first slots).length = rd.count) :
    fetchDone f rq q slots s =
      (let t := modQ f rq q (fun x => { x with
         fetch := none, taken := x.taken ++ readyRun rd.first slots, rr := none }) s
       if rq then rqFetch f q t else t) := by
  have hfetch : (getQ s f rq q).fetch.filter (fun r => !r.held) = some rd := by
    rw [hrd, Option.filter_some, if_pos (by rw [hh]; rfl)]
  have htake : (slots ++ List.replicate rd.count default).take rd.count = slots := by rw [← hl, List.take_left]
  unfold fetchDone
  dsimp only
  rw [hfetch]
  dsimp only
  rw [if_neg h5, htake, hready, if_neg (fun h => lt_irrefl _ h.1), if_pos rfl]

/-- A read of slots that comes back unharmed goes on to what it fetched. -/
theorem fetchReadDone_unharmed {slots : List Desc} {t : State} (hr : running s = true)
    (hh : (fetchPlaces s f rq q).findSome? (hurtAt s (.fetch f rq q)) = none)
    (ht : fetchDone f rq q slots (readsEnd (.fetch f rq q) s) = t) :
    exec (.fetchReadDone f rq q slots) s = .next t :=
  (live_running hr).trans (congrArg _ ((readBack_unharmed (by rw [hurtAt_readsEnd]; exact hh)).trans ht))

/-- A wait for a re-read issues the read 1 us after the last one and counts it. -/
theorem rereadSlot_due {w : Reread} (hw : (getQ s f rq q).rr = some w) (ha : (getQ s f rq q).st = .active)
    (hn : (getQ s f rq q).fetch = none) (he : elapsed s (getQ s f rq q).lastRead (us 1) = true)
    (hp : ringReleased s f rq q = true) :
    rereadSlot f rq q s = readSlots f rq q w.first w.count
      (modF f (fun y => { y with que := { y.que with refetch := y.que.refetch + 1 } })
        (modQ f rq q (fun x => { x with rr := some { w with tries := w.tries + 1 } }) s)) := by
  unfold rereadSlot
  dsimp only
  rw [hw]
  exact if_pos ⟨ha, hn, he, hp⟩

/-- The taken descriptor at the accepted index is accepted. -/
theorem acceptNext_taken {x : Taken}
    (hx : (getQ s f rq q).taken.find? (fun t => decide (t.idx = (getQ s f rq q).acc)) = some x)
    (ha : (getQ s f rq q).st = .active) (hn : openItems s < 524288) :
    acceptNext f rq q s = settle f (modQ f rq q (fun y => Queue.changed s.now { y with
      taken := y.taken.erase x, acc := y.acc + 1
      items := y.items ++ [{ idx := x.idx, desc := x.desc, seq := s.arb.accepted }] })
      { s with arb := { s.arb with accepted := s.arb.accepted + 1 } }) := by
  unfold acceptNext
  dsimp only
  rw [hx]
  exact if_neg (by rw [ha]; simp [hn])
end

/-- Settles O22: by the cases of a push, and the operation of each other command. -/
theorem descriptorsArePushedFetchedAndRefetched : Obligations.DescriptorsArePushedFetchedAndRefetched := by
  refine ⟨fun a g p o f q off len descs s hr hp ho hs => ⟨fun hf ha hsh hn => ⟨fun hroom hl hg => ?_, fun hroom => ?_⟩,
      fun hf ha hsh hn => ?_, fun hf h => ?_⟩, fun f q r s hr h hg hq => ?_,
    fun f q rq rd slots s hr hrd hh hn h5 hl hready => ?_, fun f q rq w s hr hw ha hn he hp => ?_,
    fun f q rq x s hr _ hx ha hn => ?_⟩
  · refine (push_window hr hp (facetOn_not_off hf) ho hs ?_).trans (congrArg _ (windowPush_matching hf ha hsh hn hl hg))
    rw [mustWait_fitting hf ha hsh hn, hroom]
  · exact push_waits hr hp (facetOn_not_off hf) ho hs ((mustWait_fitting hf ha hsh hn).trans hroom)
  · exact (push_window hr hp (facetOn_not_off hf) ho hs (mustWait_overflowing hn)).trans
      (congrArg _ (windowPush_overflowing hf ha hsh hn))
  · exact push_discarded hr hp hf ho hs h
  · exact (live_running hr).trans (congrArg _ (arbitrate_grants h hg hq))
  · exact fetchReadDone_unharmed hr hn (fetchDone_ready hrd hh h5 hl hready)
  · exact (live_running hr).trans (congrArg _ (rereadSlot_due hw ha hn he hp))
  · exact (live_running hr).trans (congrArg _ (acceptNext_taken hx ha hn))

end Sys2Proof.Machine
end

section
namespace Sys2Proof.Machine

/-! ### Event rings (R73 to R79) -/

section
variable {f e : Nat} {v : U32} {arm : Bool} {s : State}

/-- A ring after a consumer write of `v` that takes effect, before what follows from it (R78). -/
def consumed (f e : Nat) (v : U32) (arm : Bool) (s : State) : State :=
  modE f e (fun r => { r with
    cons := v, notes := r.notes.drop (v - r.cons).toNat
    armed := r.armed || arm, armAt := if arm then s.now else r.armAt }) s

theorem writeCons_beyond (h : ((getE s f e).prod - (getE s f e).cons).toNat < (v - (getE s f e).cons).toNat) :
    writeCons f e v arm s = s := if_pos h

theorem writeCons_within (h : (v - (getE s f e).cons).toNat ≤ ((getE s f e).prod - (getE s f e).cons).toNat) :
    writeCons f e v arm s = msixCheck f e (pendingEntries f e (consumed f e v arm s)) := if_neg (Nat.not_lt.mpr h)

/-- A write of a consumer register of a ring that shows in the facet's page (R78, R82). -/
theorem execCons_open (hr : running s = true) (hf : facetOn s f = true) (ho : ringOpen s f e = true) :
    exec (if arm then .queEvrConsArm f e v else .queEvrCons f e v) s = .next (writeCons f e v arm s) := by
  have hc : (facetOn s f && ringOpen s f e) = true := by rw [hf, ho]; rfl
  cases arm
  all_goals exact (live_running hr).trans (congrArg _ (if_pos hc))

/-- Two changes of a ring that agree on the ring as it is are one. -/
theorem modE_congr {g g' : EvRing → EvRing} (h : g (getE s f e) = g' (getE s f e)) : modE f e g s = modE f e g' s :=
  congrArg (fun r => modF f (fun x => { x with que := { x.que with evrs := aset e r x.que.evrs } }) s) h
end

/-- Settles O15: by the two sides of the entries written. -/
theorem consumerIndexWrites : Obligations.ConsumerIndexWrites := by
  intro f e v arm s hr hf ho
  refine ⟨fun h => (execCons_open hr hf ho).trans (congrArg _ (writeCons_beyond h)),
    fun h => ⟨consumed f e v arm s, (execCons_open hr hf ho).trans (congrArg _ (writeCons_within h)), ?_⟩⟩
  refine ⟨?_, ?_, ?_, fun g hg => (getF_modF ..).trans (if_neg hg)⟩
  all_goals rw [consumed, getE_modE, if_pos ⟨rfl, rfl⟩]

section
variable {f q e : Nat} {rq : Bool} {s : State}

/-- A record whose port is released is posted with A and H as they are now (R67, R68). -/
theorem writeRecord_released (h : released s f (pinKey s f (getQ s f rq q).progSeg (getQ s f rq q).progOff) = true) :
    writeRecord f rq q s = postPin f (getQ s f rq q).progSeg (getQ s f rq q).progOff (.record f rq q)
      (toLE 4 (getQ s f rq q).acc.toNat ++ toLE 4 (getQ s f rq q).head.toNat)
      (modQ f rq q (fun x => { x with pubAcc := x.acc, pubHead := x.head, dirtyAt := none, recFlight := true }) s) :=
  if_pos h

/-- A queue that owes an event writes it once its last record shows its A and H, where no queue waits for the ring, no
unconsumed entry leads to it, and the ring has space (R73, R74, R76, R77). -/
theorem eventEntry_writes (ho : (getQ s f rq q).evOwed = true ∨ (getQ s f rq q).evErrOwed = true)
    (ha : (getE s f (getQ s f rq q).evr).active = true) (hh : (getQ s f rq q).pubHead = (getQ s f rq q).head)
    (hc : (getQ s f rq q).pubAcc = (getQ s f rq q).acc) (hd : (getQ s f rq q).dirtyAt = none)
    (hv : recordVisible s f rq q (getQ s f rq q).evr = true) (hw : waiting s f (getQ s f rq q).evr = [])
    (hn : (getE s f (getQ s f rq q).evr).names rq q (getQ s f rq q).evErrOwed = false)
    (hs : (getE s f (getQ s f rq q).evr).full = false) :
    eventEntry f rq q s = writeEntry f (getQ s f rq q).evr rq q (getQ s f rq q).evErrOwed false
      (modQ f rq q (fun x => { x with evOwed := false, evErrOwed := false }) s) := by
  have howed : ((getQ s f rq q).evOwed || (getQ s f rq q).evErrOwed) = true := (Bool.or_eq_true ..).mpr ho
  refine (if_neg ?_).trans ((if_neg (by rw [hn]; decide)).trans (if_neg (by rw [hs]; decide)))
  rw [howed, ha, hh, hc, hd, hv, hw]
  simp

/-- An armed ring whose oldest entry has waited out the hold, counted from its writing, sends its vector and disarms. -/
theorem msixCheck_holdOver {n : EvNote} {r : List EvNote} (hn : (getE s f e).notes = n :: r)
    (hen : (getE s f e).en = true) (harm : (getE s f e).armed = true)
    (hk : pinKey s f (getE s f e).ringSeg (getE s f e).ringOff = 0) (ht : (getE s f e).armAt.toNat ≤ n.wrote.toNat)
    (he : elapsed s n.wrote (us (getE s f e).holdUs) = true) :
    msixCheck f e s = sendMsix f (getE s f e).vec (modE f e (fun x => { x with armed := false }) s) := by
  unfold msixCheck
  dsimp only
  rw [hn]
  dsimp only
  rw [if_neg (Nat.not_lt.mpr ht), he, hen, harm, decide_eq_true hk, Bool.or_true]
  rfl
end

/-- Settles O23: by the operation of each command. -/
theorem progressIsPublishedAndEventsAreWritten : Obligations.ProgressIsPublishedAndEventsAreWritten := by
  refine ⟨fun f q rq s hr hd hp => ?_, fun f q rq s hr ho ha hh hc hd hv hw hn hs => ?_,
    fun f e n r s hr hn hen harm hk ht he => ?_, fun f e v s hr hf ho h => ?_, fun f e v s hr hf ho h => ?_⟩
  · exact (live_running hr).trans (congrArg _ ((if_pos hd).trans (writeRecord_released hp)))
  · exact (live_running hr).trans (congrArg _ (eventEntry_writes ho ha hh hc hd hv hw hn hs))
  · exact (live_running hr).trans (congrArg _ (msixCheck_holdOver hn hen harm hk ht he))
  · refine (execCons_open (arm := false) hr hf ho).trans (congrArg _ ((writeCons_within h).trans ?_))
    exact congrArg (fun t => msixCheck f e (pendingEntries f e t)) (modE_congr (by simp))
  · refine (execCons_open (arm := true) hr hf ho).trans (congrArg _ ((writeCons_within h).trans ?_))
    exact congrArg (fun t => msixCheck f e (pendingEntries f e t)) (modE_congr (by simp))

end Sys2Proof.Machine
end

section
namespace Sys2Proof.Machine

/-! ### Creating, destroying and restarting queues (R80, R81, R96) -/

section
variable {f q e : Nat} {rq : Bool} {s : State}

/-- CREATE of an SQ or RQ in an ON facet. -/
theorem execQueueCreate_queue {t : State} (hr : running s = true) (hf : facetOn s f = true)
    (ht : createQueue f rq q s = t) :
    exec (.queueCreate f (if rq then .rq else .sq) q) s = .next (settle f t) := by
  subst ht
  cases rq
  all_goals exact (live_running hr).trans (congrArg _ (if_pos hf))

theorem createQueue_passes (hd : (getQ s f rq q).st = .disabled) (hc : createCode s f rq q = 0) :
    createQueue f rq q s = modQ f rq q (fun x => {
      ringOff := x.ringOff, progOff := x.progOff, cfg := x.cfg, start := x.start, st := .active, pDev := x.start
      acc := x.start, head := x.start, pubAcc := x.start, pubHead := x.start, next := x.start, born := true }) s :=
  (if_neg (not_not_intro hd)).trans (if_pos hc)

theorem createQueue_fails (hd : (getQ s f rq q).st = .disabled) (hc : createCode s f rq q ≠ 0) :
    createQueue f rq q s = modQ f rq q (fun x => { x with err := BitVec.ofNat 16 (createCode s f rq q) }) s :=
  (if_neg (not_not_intro hd)).trans (if_neg hc)

theorem createQueue_open (hd : (getQ s f rq q).st ≠ .disabled) : createQueue f rq q s = s := if_pos hd

theorem createRing_open (ha : (getE s f e).active = true) : createRing f e s = s := if_pos ha

theorem createRing_passes (ha : (getE s f e).active = false) (hz : sizeOk (getE s f e).size = true)
    (hn : e < (getF s f).aEvr) (hu : deviceUse s .evr < 1024)
    (hp : pinCheck s f (getE s f e).ringSeg (getE s f e).ringOff ((getE s f e).size * 16) [.lwr] = true) :
    createRing f e s = modE f e (fun r => { r with
      active := true, prod := r.start, cons := r.start, notes := [], armed := false, err := 0 }) s := by
  refine (if_neg (by rw [ha]; decide)).trans (if_pos ?_)
  rw [if_neg (by rw [hz]; decide), if_neg (by omega), if_pos hp]

/-- CREATE of an event ring in an ON facet. -/
theorem execQueueCreate_ring {t : State} (hr : running s = true) (hf : facetOn s f = true)
    (ht : createRing f e s = t) : exec (.queueCreate f .evr e) s = .next t :=
  (live_running hr).trans (congrArg _ ((if_pos hf).trans ht))

/-- DESTROY of an SQ that is ACTIVE, in ERROR or RESTARTING. -/
theorem destroyQueue_open (hd : (getQ s f false q).st ≠ .disabled) (hn : (getQ s f false q).st ≠ .draining) :
    destroyQueue f false q s = settle f (cancelMoves f q (drainQueue f false q s)) :=
  congrArg (settle f) (if_neg (by simp [hd, hn]))

theorem destroyQueue_unheld (h : rqInUse s f q = false) :
    destroyQueue f true q s = settle f (drainQueue f true q s) :=
  if_neg (by rw [h]; decide)

theorem destroyQueue_held (h : rqInUse s f q = true) :
    destroyQueue f true q s = modQ f true q (fun x =>
      if x.st = .disabled ∨ x.st = .draining then x else { x with err := BitVec.ofNat 16 cIN_USE }) s :=
  if_pos (by rw [h]; rfl)

theorem destroyRing_unnamed (ha : (getE s f e).active = true) (h : ringNamed s f e = false) :
    destroyRing f e s = modE f e (fun r => { r with active := false, notes := [], armed := false, err := 0 }) s :=
  (if_neg (by rw [ha]; decide)).trans (if_neg (by rw [h]; decide))

theorem destroyRing_named (ha : (getE s f e).active = true) (h : ringNamed s f e = true) :
    destroyRing f e s = modE f e (fun r => { r with err := BitVec.ofNat 16 cIN_USE }) s :=
  (if_neg (by rw [ha]; decide)).trans (if_pos h)

/-- DESTROY of an SQ or RQ in an ON facet. -/
theorem execQueueDestroy_queue {t : State} (hr : running s = true) (hf : facetOn s f = true)
    (ht : destroyQueue f rq q s = t) : exec (.queueDestroy f (if rq then .rq else .sq) q) s = .next t := by
  subst ht
  cases rq
  all_goals exact (live_running hr).trans (congrArg _ (if_pos hf))

/-- DESTROY of an event ring in an ON facet. -/
theorem execQueueDestroy_ring {t : State} (hr : running s = true) (hf : facetOn s f = true)
    (ht : destroyRing f e s = t) : exec (.queueDestroy f .evr e) s = .next (shrinkEval f t) := by
  subst ht
  exact (live_running hr).trans (congrArg _ (if_pos hf))

/-- RESTART of an SQ or RQ in an ON facet. -/
theorem execQueueRestart_queue (hr : running s = true) (hf : facetOn s f = true) :
    exec (.queueRestart f (if rq then .rq else .sq) q) s =
      .next (settle f (modQ f rq q (fun x => if x.st = .error then { x with st := .restarting } else x) s)) := by
  cases rq
  all_goals exact (live_running hr).trans (congrArg _ (if_pos (by rw [hf]; rfl)))
end

/-- Settles O24: by the kind and state of the queue or ring. -/
theorem queuesAreCreatedDestroyedAndRestarted : Obligations.QueuesAreCreatedDestroyedAndRestarted := by
  refine ⟨fun f q rq s hr hf hd => ⟨fun hc => ?_, fun hc => ?_⟩, fun f q rq s hr hf hd => ?_,
    fun f e s hr hf ha hz hn hu hp => ?_, fun f e s hr hf ha => ?_, fun f q s hr hf hd hn => ?_,
    fun f q s hr hf h => ?_, fun f q s hr hf h _ _ => ?_, fun f e s hr hf ha h => ?_, fun f e s hr hf ha h => ?_,
    fun f q rq s hr hf => execQueueRestart_queue hr hf, fun f q i s h => ?_⟩
  · exact execQueueCreate_queue hr hf (createQueue_passes hd hc)
  · exact execQueueCreate_queue hr hf (createQueue_fails hd hc)
  · exact execQueueCreate_queue hr hf (createQueue_open hd)
  · exact execQueueCreate_ring hr hf (createRing_passes ha hz hn hu hp)
  · exact execQueueCreate_ring hr hf (createRing_open ha)
  · exact execQueueDestroy_queue (rq := false) hr hf (destroyQueue_open hd hn)
  · exact execQueueDestroy_queue (rq := true) hr hf (destroyQueue_unheld h)
  · exact execQueueDestroy_queue (rq := true) hr hf (destroyQueue_held h)
  · exact execQueueDestroy_ring hr hf (destroyRing_unnamed ha h)
  · exact execQueueDestroy_ring hr hf (destroyRing_named ha h)
  · exact congrArg _ (startWith_ready h)

end Sys2Proof.Machine
end

section
namespace Sys2Proof.Machine

/-! ### Transfers that start and receives that are posted (R93 to R96, R111, R454) -/

section
variable {f q op : Nat} {i : Item} {s : State}

theorem startTransfer_starts (h : ready s f q op = some i) (hc : startCheck s f i.desc = none)
    (hr : startRoom (getQp s (trQpn i.desc)) op = true) :
    startTransfer f q op s = settle f (takePsns f q i.idx.toNat i.desc (startItem f q i.idx s)) := by
  simp [startTransfer, h, hc, hr]

theorem startTransfer_waits (h : ready s f q op = some i) (hc : startCheck s f i.desc = none)
    (hr : startRoom (getQp s (trQpn i.desc)) op = false) : startTransfer f q op s = s := by
  simp [startTransfer, h, hc, hr]

theorem startTransfer_ends {st : Status} (h : ready s f q op = some i) (hc : startCheck s f i.desc = some st) :
    startTransfer f q op s = settle f (completeItem f q i.idx st (startItem f q i.idx s)) := by
  simp [startTransfer, h, hc]

theorem postRecv_next (h : nextStart s f true q = some i) :
    postRecv f q s = settle f (modItem f true q i.idx (fun i => { i with started := true }) s) := by
  simp [postRecv, h]

/-- WRITE, READ and SEND are the start of a transfer of their opcode. -/
theorem exec_transfer {c : Instr}
    (h : (c, op) ∈ ([(.write f q, 2), (.read f q, 3), (.send f q, 4)] : List (Instr × Nat))) :
    exec c s = live (startTransfer f q op) s := by
  simp only [List.mem_cons, List.not_mem_nil, or_false, Prod.mk.injEq] at h
  rcases h with ⟨rfl, rfl⟩ | ⟨rfl, rfl⟩ | ⟨rfl, rfl⟩
  all_goals rfl
end

/-- Settles O25: by the answer of the start checks and the room of the QP. -/
theorem transfersStartAndReceivesArePosted : Obligations.TransfersStartAndReceivesArePosted := by
  refine ⟨fun f q op c hc i s h => ?_, fun f q i s hr h => (live_running hr).trans (congrArg _ (postRecv_next h))⟩
  have hx := (exec_transfer (s := s) hc).trans (live_running (ready_cases h).1)
  exact ⟨fun hk hr => hx.trans (congrArg _ (startTransfer_starts h hk hr)),
    fun hk hr => hx.trans (congrArg _ (startTransfer_waits h hk hr)),
    fun st hk => hx.trans (congrArg _ (startTransfer_ends h hk))⟩

end Sys2Proof.Machine
end

section
namespace Sys2Proof.Machine

/-! ### Bytes of the BAR4 window and of progress records (R67, R68, R293, R302) -/

/-- Bytes stored at consecutive addresses, as the list that pairs them with their addresses gives them. -/
theorem memByte_memWrite_cells {l : List (Nat × Byte)} {a : Nat} (h : l.map Prod.fst = List.range' a l.length)
    (m : List Host.Cell) (c : Nat) :
    memByte (memWrite a (l.map Prod.snd) m) c =
      ((l.find? (fun x => decide (x.1 = c))).map Prod.snd).getD (memByte m c) := by
  induction l generalizing a m with
  | nil => rfl
  | cons x r ih =>
    rw [List.map_cons, List.length_cons, List.range'_succ, List.cons.injEq] at h
    obtain ⟨hx, hr⟩ := h
    rw [List.map_cons, memWrite, ih hr, memByte_memSet]
    by_cases hc : c = a
    · have hnone : r.find? (fun y => decide (y.1 = c)) = none := by
        refine List.find?_eq_none.mpr fun y hy => ?_
        have hmem : y.1 ∈ List.range' (a + 1) r.length := hr ▸ List.mem_map_of_mem hy
        have := (List.mem_range'_1.mp hmem).1
        rw [decide_eq_true_iff]
        omega
      rw [hnone, List.find?_cons_of_pos (by simp [hx, hc]), if_pos hc]
      rfl
    · rw [List.find?_cons_of_neg (by simp [hx, Ne.symm hc]), if_neg hc]

section
variable {s : State}

/-- The bytes that the window admits lie at consecutive addresses. -/
theorem windowBytes_addrs (a : Nat) (bs : Bytes) :
    (windowBytes s a bs).map Prod.fst =
      List.Ico (max a (s.memc.regions.getD 5 0)) (min (a + bs.length) s.memc.visible) := by
  have hall : (bs.zipIdx.map (fun (b, i) => (a + i, b))).map Prod.fst = List.Ico a (a + bs.length) := by
    rw [List.map_map]
    calc bs.zipIdx.map (fun p => a + p.2)
        = (bs.zipIdx.map Prod.snd).map (a + ·) := by rw [List.map_map]; rfl
      _ = List.Ico a (a + bs.length) := by
          rw [List.zipIdx_map_snd, List.map_add_range', List.Ico, Nat.add_zero, Nat.add_sub_cancel_left]
  unfold windowBytes
  rw [← List.Ico.filter_le, ← List.Ico.filter_lt, ← hall, List.filter_filter, List.filter_map (f := Prod.fst)]
  simp [Function.comp_def, Bool.decide_and]

/-- A byte after a window write: what the write puts there, where the window admits it. -/
theorem memByte_windowStore (a : Nat) (bs : Bytes) (c : Nat) :
    memByte (windowStore a bs s).mem c =
      (((windowBytes s a bs).find? (fun x => decide (x.1 = c))).map Prod.snd).getD (memByte s.mem c) := by
  have haddr := windowBytes_addrs (s := s) a bs
  unfold windowStore
  generalize windowBytes s a bs = l at haddr ⊢
  cases l with
  | nil => rfl
  | cons x r =>
    have hlen := congrArg List.length haddr
    rw [List.length_map, List.Ico.length] at hlen
    rw [List.Ico, ← hlen] at haddr
    have hx : x.1 = _ := (List.cons.inj haddr).1
    exact memByte_memWrite_cells (hx ▸ haddr) s.mem c

theorem writeMsix_mem (f off : Nat) (bs : Bytes) : (writeMsix f off bs s).mem = s.mem :=
  (writeMsix_does (does_refl [.facets, .pcx] s) rfl).only .mem (by decide)

/-- A write of the MSI-X area, by either path. -/
theorem windowWrite_msix_mem {w : WindowAccess} {bs : Bytes} {t : State}
    (hw : (∃ f, w.src = .vf f) ∨ w.src = .bar ∧ 0x4000000 ≤ w.off) (ht : exec (.windowWrite w bs) s = .next t) :
    t.mem = s.mem := by
  have hm : (windowWrite w.src w.off bs s).mem = s.mem := by
    rcases hw with ⟨f, hf⟩ | ⟨hb, ho⟩
    · rw [hf]
      exact writeMsix_mem ..
    · rw [hb, windowWrite, if_neg (Nat.not_lt.mpr ho)]
      exact writeMsix_mem ..
  cases ht
  show (if running s then _ else _ : State).mem = _
  split
  · exact hm
  · rfl

/-! What a write of the device into LPDDR5X stores, and that one behind a port stores nothing. -/

theorem issue_mem {k : Nat} {what : PlaceFor} {w : PWrite} :
    (issue k what w s).mem = if w.target = 5 then memWrite w.addr.toNat w.bytes s.mem else s.mem := by
  unfold issue
  dsimp only
  split
  · rfl
  · split <;> rfl

theorem flushNow_mem {k : Nat} : (flushNow k s).mem = s.mem :=
  (flushNow_does (does_refl [.pcx] s) rfl).only .mem (by decide)

theorem hold_mem {f k : Nat} {h : Held} : (hold f k h s).mem = s.mem :=
  (hold_does (does_refl [.facets, .pcx] s) rfl).only .mem (by decide)

/-- LPDDR5X is always released to the device. -/
theorem released_local {f : Nat} {a : U64} : released s f (keyFor s 5 a) = true := rfl

theorem postOne_mem {f target : Nat} {what : PlaceFor} {a : U64} {bs : Bytes} :
    (postOne f what target a bs s).mem = if target = 5 then memWrite a.toNat bs s.mem else s.mem := by
  unfold postOne
  dsimp only
  split
  · rw [flushNow_mem, issue_mem]
  · next hr =>
    rw [hold_mem, if_neg]
    rintro rfl
    exact hr released_local

/-- A write into LPDDR5X changes no queue. -/
theorem getQ_postOne_local {f g q : Nat} {rq : Bool} {what : PlaceFor} {a : U64} {bs : Bytes} :
    getQ (postOne f what 5 a bs s) g rq q = getQ s g rq q := rfl

/-- The place of a pinned range does not depend on the queues. -/
theorem pinPlace_modQ {f q g seg : Nat} {rq : Bool} {h : Queue → Queue} {off : U64} :
    pinPlace (modQ f rq q h s) g seg off = pinPlace s g seg off := by
  have hseg : getSeg (modQ f rq q h s) g seg = getSeg s g seg := by
    unfold getSeg modQ
    rw [getF_modF]
    split
    · next e => rw [e]
    · rfl
  unfold pinPlace
  rw [hseg]

section
variable {f q : Nat} {rq : Bool}

/-- The place of a queue's progress record. -/
def recordPlace (s : State) (f : Nat) (rq : Bool) (q : Nat) : Nat × U64 :=
  pinPlace s f (getQ s f rq q).progSeg (getQ s f rq q).progOff

theorem recordReleased_local (h : (recordPlace s f rq q).1 = 5) :
    released s f (pinKey s f (getQ s f rq q).progSeg (getQ s f rq q).progOff) = true := by
  show released s f (keyFor s (recordPlace s f rq q).1 _) = true
  rw [h]
  exact released_local

/-- A record is stored in LPDDR5X, or on its way to a port. -/
theorem writeRecord_mem : (writeRecord f rq q s).mem =
    if (recordPlace s f rq q).1 = 5 then
      memWrite (recordPlace s f rq q).2.toNat
        (toLE 4 (getQ s f rq q).acc.toNat ++ toLE 4 (getQ s f rq q).head.toNat) s.mem
    else s.mem := by
  by_cases hr : released s f (pinKey s f (getQ s f rq q).progSeg (getQ s f rq q).progOff) = true
  · rw [writeRecord_released hr, postPin, pinPlace_modQ]
    exact postOne_mem
  · have h5 : ¬ (recordPlace s f rq q).1 = 5 := fun h => hr (recordReleased_local h)
    rw [if_neg h5]
    refine (congrArg State.mem (if_neg hr)).trans ?_
    rw [apply_ite State.mem, hold_mem, ite_self]

/-- A record stored in LPDDR5X publishes A and H. -/
theorem writeRecord_local_published (h : (recordPlace s f rq q).1 = 5) :
    (getQ (writeRecord f rq q s) f rq q).pubAcc = (getQ s f rq q).acc ∧
      (getQ (writeRecord f rq q s) f rq q).pubHead = (getQ s f rq q).head := by
  rw [writeRecord_released (recordReleased_local h), postPin, pinPlace_modQ]
  unfold recordPlace at h
  dsimp only
  rw [h, getQ_postOne_local, getQ_modQ, if_pos ⟨rfl, rfl, rfl⟩]
  exact ⟨rfl, rfl⟩
end
end

/-- Settles O10: by the addresses of the bytes that the window admits, and by the place of the record. -/
theorem memoryWritesStoreTheirBytesOnly : Obligations.MemoryWritesStoreTheirBytesOnly := by
  refine ⟨fun off bs s hr ho => ⟨_, live_running hr, fun a => ?_⟩, fun off bs s t h => ?_, fun f q rq s hr hd => ?_⟩
  · have hw : windowWrite .bar off bs s = windowStore ((reg s 0xF4B0).toNat + off) bs s := if_pos ho
    rw [hw, memByte_windowStore]
    split
    all_goals next h => rw [h]; rfl
  · rcases h with ⟨ho, h⟩ | ⟨f, h⟩
    · exact windowWrite_msix_mem (.inr ⟨rfl, ho⟩) h
    · exact windowWrite_msix_mem (.inl ⟨f, rfl⟩) h
  · refine ⟨_, (live_running hr).trans (congrArg _ (if_pos hd)), fun h5 => ?_, fun h5 => ?_⟩
    · have hm := writeRecord_mem.trans (if_pos h5)
      have hlen : (toLE 4 (getQ s f rq q).acc.toNat ++ toLE 4 (getQ s f rq q).head.toNat).length = 8 := rfl
      refine ⟨fun i hi => ?_, fun b hb => ?_, writeRecord_local_published h5⟩
      · rw [hm, memByte_memWrite, hlen]
        exact (if_pos ⟨Nat.le_add_right .., Nat.add_lt_add_left hi _⟩).trans
          (congrArg (List.getD _ · 0) (Nat.add_sub_cancel_left ..))
      · rw [hm, memByte_memWrite, hlen]
        exact if_neg (by unfold recordPlace; omega)
    · exact writeRecord_mem.trans (if_neg h5)

end Sys2Proof.Machine
end

section
namespace Sys2Proof.Machine

/-! ### The queue work of one facet (R51, R52, R55, R56, R59, R68, R76, R78, R80)

What the queues of facet f do leaves every other facet as it was, as long as the writes held up at the ports are all of
f's push pages; and it holds up none of another facet. -/

/-- The writes held up at the ports are all of facet f's push pages (R55). -/
def HoldsUpOnly (f : Nat) (s : State) : Prop := ∀ w ∈ s.pcx.stuck, w.page.1 = f

/-- `t` comes from `s` by work of facet f alone. -/
def Own (f : Nat) (s t : State) : Prop :=
  HoldsUpOnly f s → HoldsUpOnly f t ∧ ∀ g, g ≠ f → getF t g = getF s g

section
variable {f : Nat} {s t u : State}

theorem own_refl : Own f s s := fun h => ⟨h, fun _ _ => rfl⟩

theorem own_trans (h : Own f s t) (h' : Own f t u) : Own f s u := fun hs =>
  have ⟨ht, h1⟩ := h hs
  have ⟨hu, h2⟩ := h' ht
  ⟨hu, fun g hg => (h2 g hg).trans (h1 g hg)⟩

theorem own_ite {c : Prop} [Decidable c] (ht : Own f s t) (hu : Own f s u) : Own f s (if c then t else u) := by
  split <;> assumption

theorem own_foldl {α : Type} {g : State → α → State} {l : List α} (h : ∀ x ∈ l, ∀ s, Own f s (g s x)) :
    Own f s (l.foldl g s) := by
  induction l generalizing s with
  | nil => exact own_refl
  | cons x l ih =>
    exact own_trans (h x (List.mem_cons_self ..) s) (ih fun y hy => h y (List.mem_cons_of_mem _ hy))

/-- Work that changes no facet and no write that is held up. -/
theorem own_of_eq (hf : t.facets = s.facets) (hp : t.pcx.stuck = s.pcx.stuck) : Own f s t := fun h =>
  ⟨fun w hw => h w (hp ▸ hw), fun g _ => by unfold getF; rw [hf]⟩

theorem own_modF {h : Facet → Facet} : Own f s (modF f h s) := fun hs =>
  ⟨hs, fun _ hg => (getF_modF ..).trans (if_neg hg)⟩

theorem own_modQ {q : Nat} {rq : Bool} {h : Queue → Queue} : Own f s (modQ f rq q h s) := own_modF

theorem own_modE {e : Nat} {h : EvRing → EvRing} : Own f s (modE f e h s) := own_modF

theorem own_modP {k : Nat} {h : Port → Port} : Own f s (modP k h s) := own_of_eq rfl rfl

/-! Writes, reads, messages and Mirror records of the facet. -/

theorem own_sendTlp {k cls len : Nat} {out : Output} {np : Option NpFor} {posted ro : Bool} :
    Own f s (sendTlp k cls len out np posted ro s) := own_modP

theorem own_memStore {a : Nat} {bs : Bytes} : Own f s (memStore a bs s) := own_of_eq rfl rfl

theorem own_arb {x : Arb} : Own f s { s with arb := x } := own_of_eq rfl rfl

theorem own_issue {k : Nat} {what : PlaceFor} {w : PWrite} : Own f s (issue k what w s) :=
  own_trans (own_ite own_memStore (own_ite own_refl own_sendTlp)) own_modP

theorem own_flushNow {k : Nat} : Own f s (flushNow k s) := own_ite own_refl (own_trans own_modP own_sendTlp)

theorem own_hold {k : Nat} {h : Held} : Own f s (hold f k h s) := own_ite own_modF own_modP

theorem own_postOne {what : PlaceFor} {target : Nat} {a : U64} {bs : Bytes} :
    Own f s (postOne f what target a bs s) := own_ite (own_trans own_issue own_flushNow) own_hold

theorem own_postPin {seg : Nat} {off : U64} {what : PlaceFor} {bs : Bytes} : Own f s (postPin f seg off what bs s) :=
  own_postOne

theorem own_readOut {np : Option NpFor} {g target len : Nat} {a : U64} : Own f s (readOut np g target a len s) :=
  own_ite own_refl own_sendTlp

theorem own_sendMsix {vec : Nat} : Own f s (sendMsix f vec s) := own_ite own_sendTlp own_modF

theorem own_mirrorIssue {k : MirrorKey} : Own f s (mirrorIssue k s) := own_ite own_refl (own_of_eq rfl rfl)

/-! Event rings. -/

theorem own_msixCheck {e : Nat} : Own f s (msixCheck f e s) := by
  unfold msixCheck
  dsimp only
  split
  · exact own_refl
  · exact own_ite (own_trans own_modE own_sendMsix) own_refl

theorem own_writeEntry {e q : Nat} {rq err fromPending : Bool} : Own f s (writeEntry f e rq q err fromPending s) :=
  own_trans own_postPin (own_trans own_modE own_msixCheck)

theorem own_pendingOne {e q : Nat} {rq : Bool} : Own f s (pendingOne f e rq q s) :=
  own_trans own_modQ (own_ite own_refl own_writeEntry)

theorem own_pendingRun {e : Nat} {l : List (Bool × Nat)} : Own f s (pendingRun f e l s) := by
  induction l generalizing s with
  | nil => exact own_refl
  | cons x l ih => exact own_ite own_refl (own_trans own_pendingOne ih)

theorem own_eventEntry {q : Nat} {rq : Bool} : Own f s (eventEntry f rq q s) :=
  own_ite own_refl (own_trans own_modQ (own_ite own_refl (own_ite own_modQ own_writeEntry)))

theorem own_writeCons {e : Nat} {v : U32} {arm : Bool} : Own f s (writeCons f e v arm s) :=
  own_ite own_refl (own_trans own_modE (own_trans own_pendingRun own_msixCheck))

theorem own_writeRecord {q : Nat} {rq : Bool} : Own f s (writeRecord f rq q s) :=
  own_ite (own_trans own_modQ own_postPin) (own_ite own_refl own_hold)

/-! Fetching, completion and start checks. -/

theorem own_readSlots {q count : Nat} {rq : Bool} {first : U32} : Own f s (readSlots f rq q first count s) :=
  own_trans (own_foldl fun _ _ _ => own_readOut) own_modQ

theorem own_rqFetch {q : Nat} : Own f s (rqFetch f q s) := own_ite (own_trans own_readSlots own_modQ) own_refl

theorem own_rereadSlot {q : Nat} {rq : Bool} : Own f s (rereadSlot f rq q s) := by
  unfold rereadSlot
  dsimp only
  split
  · exact own_refl
  · exact own_ite (own_trans own_modQ (own_trans own_modF own_readSlots)) own_refl

theorem own_countDone {d : Desc} {st : Status} : Own f s (countDone f d st s) :=
  own_ite own_modF (own_ite own_modF own_refl)

theorem own_completeItem {q : Nat} {idx : U32} {st : Status} : Own f s (completeItem f q idx st s) := by
  unfold completeItem
  split
  · exact own_refl
  · exact own_ite own_refl (own_trans (own_trans own_modQ (own_trans own_mirrorIssue own_countDone))
      (own_ite (own_trans own_modQ own_postPin) own_refl))

theorem own_completeRecv {q : Nat} {idx : U32} {st : Status} {r : RecvResult} :
    Own f s (completeRecv f q idx st r s) := by
  unfold completeRecv
  split
  · exact own_refl
  · exact own_ite own_refl (own_trans own_modQ (own_trans own_mirrorIssue own_postPin))

theorem own_advance {q : Nat} {rq : Bool} : Own f s (advance f rq s q) :=
  own_trans own_modQ (own_ite own_rqFetch own_refl)

theorem own_rejectStarts {n q : Nat} {rq : Bool} : Own f s (rejectStarts n f rq q s) := by
  induction n generalizing s with
  | zero => exact own_refl
  | succ n ih =>
    unfold rejectStarts
    split
    · exact own_refl
    · split
      · exact own_trans (own_ite own_completeRecv own_completeItem) ih
      · exact own_ite (own_trans own_completeItem ih) own_refl

theorem own_shrinkEval : Own f s (shrinkEval f s) := own_ite own_modF own_refl

theorem own_settleQueues : Own f s (settleQueues f s) :=
  own_trans (own_foldl fun _ _ _ => own_advance) (own_trans (own_foldl fun _ _ _ => own_advance)
    (own_trans (own_foldl fun _ _ _ => own_rejectStarts) (own_trans (own_foldl fun _ _ _ => own_rejectStarts)
      own_shrinkEval)))

/-! Doorbells, pushes, and the held-up writes that act once there is room. -/

theorem own_doorbell {q : Nat} {rq : Bool} {v : U32} : Own f s (doorbell f rq q v s) :=
  own_ite own_refl (own_ite own_refl (own_ite own_modF (own_ite (own_trans own_modQ own_settleQueues)
    (own_trans own_modQ (own_ite own_rqFetch own_refl)))))

theorem own_takePush {q n : Nat} {ds : List Desc} : Own f s (takePush f q n ds s) :=
  own_trans own_modQ (own_ite (own_trans own_modQ own_settleQueues) own_refl)

theorem own_windowPush {q off len : Nat} {ds : List Desc} : Own f s (windowPush f q off len ds s) :=
  own_ite own_modF (own_ite (own_trans own_modQ own_settleQueues) own_takePush)

theorem own_stick {w : StuckWrite} (hw : w.page.1 = f) : Own f s (stick w s) := fun h =>
  ⟨fun x hx => (List.mem_append.mp hx).elim (h x) fun hx => List.mem_singleton.mp hx ▸ hw, fun _ _ => rfl⟩

theorem own_tryStuck {w : StuckWrite} (hw : w.page.1 = f) : Own f s (tryStuck s w) := by
  refine own_ite (own_stick hw) ?_
  cases w with
  | push g q off len ds =>
    obtain rfl : g = f := hw
    exact own_ite (own_stick rfl) own_windowPush
  | bell g q v =>
    obtain rfl : g = f := hw
    exact own_doorbell

/-- The writes that are held up are all of facet f, and so is what they do. -/
theorem own_retryStuck : Own f s (retryStuck s) := fun h =>
  have hnone : HoldsUpOnly f { s with pcx := { s.pcx with stuck := [] } } := fun _ hw => (List.not_mem_nil hw).elim
  own_foldl (fun w hw _ => own_tryStuck (h w hw)) hnone

theorem own_settle : Own f s (settle f s) := own_trans own_settleQueues own_retryStuck

theorem own_sqDoorbell {q : Nat} {v : U32} : Own f s (sqDoorbell f q v s) := own_tryStuck (w := .bell f q v) rfl

theorem own_pushInto {q off len : Nat} {ds : List Desc} : Own f s (pushInto f q off len ds s) :=
  own_ite own_refl (own_ite (own_tryStuck (w := .push f q off len ds) rfl) (own_ite own_sqDoorbell own_refl))

theorem own_acceptNext {q : Nat} {rq : Bool} : Own f s (acceptNext f rq q s) := by
  unfold acceptNext
  dsimp only
  split
  · exact own_refl
  · exact own_ite own_refl (own_trans own_arb (own_trans own_modQ own_settle))

theorem own_startWith {q op : Nat} {g : Item → State → State} (h : ∀ i s, Own f s (g i s)) :
    Own f s (startWith f q op g s) := by
  unfold startWith
  split
  · exact own_trans own_modQ (own_trans (h _ _) own_settle)
  · exact own_refl

/-! Creating. -/

theorem own_createQueue {q : Nat} {rq : Bool} : Own f s (createQueue f rq q s) :=
  own_ite own_refl (own_ite own_modQ own_modQ)

theorem own_createRing {e : Nat} : Own f s (createRing f e s) := own_ite own_refl (own_ite own_modE own_modE)

theorem own_when {c : Bool} {g : State → State} (h : Own f s (g s)) : Own f s (when c g s) := own_ite h own_refl

/-- A push that reaches a push page of facet f is f's own work, whoever makes it. -/
theorem own_push {a : Source} {h p o q off len : Nat} {ds : List Desc} (hp : pushReach s a h p o = some (f, q, off))
    (ht : exec (.push ⟨a, h⟩ p o len ds) s = .next t) : Own f s t := by
  rw [push_reaching hp] at ht
  cases ht
  exact own_when own_pushInto

/-- What a queue command does while the device runs, it does as its facet's own work. -/
theorem own_live {g : State → State} (h : Own f s (g s)) (ht : live g s = .next t) : Own f s t := by
  cases ht
  exact own_when h

/-- The queue commands of facet f. -/
theorem own_queueCommand {q off len : Nat} {rq : Bool} {k : QKind} {v : U32} {ds : List Desc} {c : Instr}
    (hc : c ∈ ([.queSqDoorbell f q v, .queRqDoorbell f q v, .push ⟨.bar, f⟩ q off len ds, .descriptorAccept f rq q,
      .reread f rq q, .progressRecord f rq q, .eventEntry f rq q, .msixHoldExpiry f q, .queEvrCons f q v,
      .queEvrConsArm f q v, .queueCreate f k q, .queueRestart f k q, .nop f q] : List Instr))
    (ht : exec c s = .next t) : Own f s t := by
  simp only [List.mem_cons, List.not_mem_nil, or_false] at hc
  rcases hc with rfl | rfl | rfl | rfl | rfl | rfl | rfl | rfl | rfl | rfl | rfl | rfl | rfl
  · exact own_live own_sqDoorbell ht
  · exact own_live own_doorbell ht
  · exact own_push rfl ht
  · exact own_live own_acceptNext ht
  · exact own_live own_rereadSlot ht
  · exact own_live (own_when own_writeRecord) ht
  · exact own_live own_eventEntry ht
  · exact own_live own_msixCheck ht
  · exact own_live (own_when own_writeCons) ht
  · exact own_live (own_when own_writeCons) ht
  · refine own_live (own_when ?_) ht
    cases k
    case sq | rq => exact own_trans own_createQueue own_settle
    case evr => exact own_createRing
  · exact own_live (own_when (own_trans own_modQ own_settle)) ht
  · cases ht
    exact own_startWith fun _ _ => own_completeItem
end

/-- Settles O9: each of the commands is work of its own facet. -/
theorem queueCommandsLeaveOtherFacetsAlone : Obligations.QueueCommandsLeaveOtherFacetsAlone :=
  ⟨fun _ g _ _ _ _ _ _ _ _ hc hg _ _ hs ht => (own_queueCommand hc ht hs).2 g hg,
    fun _ _ _ _ _ _ _ g _ _ _ _ hp hg hs ht => (own_push hp ht hs).2 g hg,
    fun _ _ _ _ _ _ _ h => push_nowhere h⟩

end Sys2Proof.Machine
end

section
namespace Sys2Proof.Machine

/-! ### Headers as words (R15, R97, R234) -/

theorem b2n_lt (b : Bool) : b2n b < 2 := by cases b <;> decide

section
variable {n lo x : Nat}

/-- What stands above bit `lo` of a word, cut to n bits that the word has. -/
theorem word_field (hn : lo + n ≤ 64) : (BitVec.ofNat 64 x).toNat / 2 ^ lo % 2 ^ n = x / 2 ^ lo % 2 ^ n := by
  have hp : (2 : Nat) ^ 64 = 2 ^ lo * 2 ^ (64 - lo) := by rw [← pow_add]; congr 1; omega
  rw [BitVec.toNat_ofNat, hp, Nat.mod_mul_right_div_self, Nat.mod_mod_of_dvd _ (pow_dvd_pow 2 (by omega))]

/-- The highest summand reads back at its place. -/
theorem top_field {a v : Nat} (ha : a < 2 ^ lo) (hv : v < 2 ^ n) : (a + v * 2 ^ lo) / 2 ^ lo % 2 ^ n = v := by
  rw [Nat.add_mul_div_right _ _ (by positivity), Nat.div_eq_of_lt ha, Nat.zero_add, Nat.mod_eq_of_lt hv]

/-- A word that is a sum of fields reads back each field at its place; that it stands there is arithmetic. -/
theorem cut_word {v : BitVec n} (hn : lo + n ≤ 64 := by decide) (h : x / 2 ^ lo % 2 ^ n = v.toNat := by omega) :
    cut n (BitVec.ofNat 64 x) lo = v := by
  apply BitVec.eq_of_toNat_eq
  rw [cut, BitVec.toNat_ofNat, word_field hn, h]

theorem bit_word {b : Bool} (hn : lo + 1 ≤ 64 := by decide) (h : x / 2 ^ lo % 2 ^ 1 = b2n b := by omega) :
    bit (BitVec.ofNat 64 x) lo = b := by
  have hf := word_field (x := x) hn
  rw [h] at hf
  rw [bit, Nat.testBit_eq_decide_div_mod_eq]
  cases b <;> simp_all [b2n]

theorem fld_word {hi : Nat} (hl : lo ≤ hi + 1 := by decide) (hn : hi < 64 := by decide) :
    fld (BitVec.ofNat 64 x) hi lo = x / 2 ^ lo % 2 ^ (hi + 1 - lo) := by
  rw [fld, Nat.shiftRight_eq_div_pow, word_field (by omega)]
end

theorem unpackRh_packRh (r : RouteHdr) : unpackRh (packRh r) = r := by
  obtain ⟨dst, tc, dl, dim, dir, alt, altSeen, echoAlt, fixRail, rail, toGw, gwPos, notice, hops, src⟩ := r
  have := b2n_lt dl; have := b2n_lt dir; have := b2n_lt alt; have := b2n_lt altSeen
  have := b2n_lt echoAlt; have := b2n_lt fixRail; have := b2n_lt toGw; have := b2n_lt notice
  simp only [unpackRh, packRh, flag, List.getD_cons_zero, List.getD_cons_succ, RouteHdr.mk.injEq]
  exact ⟨cut_word, cut_word, bit_word, cut_word, bit_word, bit_word, bit_word, bit_word, bit_word, cut_word, bit_word,
    cut_word, bit_word, cut_word, cut_word⟩

theorem unpackBth_packBth (b : Bth) : unpackBth (packBth b) = b := by
  obtain ⟨ver, typ, first, last, ackreq, ce, ciph, resent, imm, lineage, psn, dstEp, srcEp, dstQpn, plen, ctag, msn,
    rsv⟩ := b
  have := b2n_lt first; have := b2n_lt last; have := b2n_lt ackreq; have := b2n_lt ce
  have := b2n_lt ciph; have := b2n_lt resent; have := b2n_lt imm
  simp only [unpackBth, packBth, flag, List.getD_cons_zero, List.getD_cons_succ, Bth.mk.injEq]
  refine ⟨cut_word, cut_word, bit_word, bit_word, bit_word, bit_word, bit_word, bit_word, bit_word, cut_word,
    cut_word (h := top_field (by omega) psn.isLt), cut_word, cut_word, cut_word, cut_word, cut_word, cut_word,
    BitVec.eq_of_toNat_eq ?_⟩
  rw [BitVec.toNat_ofNat, fld_word, fld_word, fld_word, fld_word, fld_word, fld_word]
  omega

/-- A type above the transport's is none of its types. -/
theorem not_transport {typ : Nat} (h : 8 ≤ typ) :
    ¬ typ < 3 ∧ ¬ (typ = 3 ∨ typ = 5) ∧ typ ≠ 4 ∧ typ ≠ 6 ∧ typ ≠ 7 := by omega

/-- The words of an extension header, under the packet types that carry it, spell it again and are as many as its type
says. -/
theorem unpackExt_packExt {typ : Nat} {e : Ext} (h : extOf typ e = true) :
    unpackExt typ (packExt e) = e ∧ (packExt e).length = extWords typ := by
  cases e <;> simp only [extOf, decide_eq_true_eq] at h
  case reth roff rkey msgLen rseg rsv readOff =>
    have h3 : ¬ typ < 3 := by omega
    simp only [unpackExt, packExt, extWords, if_neg h3, if_pos h, Ext.reth.injEq, List.getD_cons_zero,
      List.getD_cons_succ]
    exact ⟨⟨trivial, cut_word, cut_word, cut_word, cut_word, cut_word⟩, rfl⟩
  case seth msgOff msgLen ssn immv =>
    subst h
    exact ⟨(Ext.seth.injEq ..).mpr ⟨cut_word, cut_word, cut_word, cut_word⟩, rfl⟩
  case rrh msgOff rsv =>
    subst h
    exact ⟨(Ext.rrh.injEq ..).mpr ⟨cut_word, cut_word⟩, rfl⟩
  case aeth ackPsn syndrome ceEcho rsv0 scomp truncMap rsv1 sack nakPsn rsv2 =>
    subst h
    exact ⟨(Ext.aeth.injEq ..).mpr ⟨cut_word, cut_word, cut_word, cut_word, cut_word, cut_word, cut_word, rfl, cut_word,
      cut_word⟩, rfl⟩
  case cmeh initPsn ownCtag srcQpn rqEn cipher pmtuExp winExp rsv0 reason rsv1 =>
    have := b2n_lt rqEn; have := b2n_lt cipher
    simp only [unpackExt, packExt, extWords, flag, if_pos h, Ext.cmeh.injEq, List.getD_cons_zero, List.getD_cons_succ]
    exact ⟨⟨cut_word, cut_word, cut_word, bit_word, bit_word, cut_word, cut_word, cut_word, cut_word, cut_word⟩, rfl⟩
  case cxh gid sub srcMember dstMember level broken rsv chunk sig pkt step arg =>
    have := b2n_lt broken
    obtain ⟨h8, h12⟩ := h
    obtain ⟨h3, h5, h4, h6, h7⟩ := not_transport h8
    simp only [unpackExt, packExt, extWords, flag, if_neg h3, if_neg h5, if_neg h4, if_neg h6, if_neg h7, if_pos h12,
      Ext.cxh.injEq, List.getD_cons_zero, List.getD_cons_succ]
    exact ⟨⟨cut_word, cut_word, cut_word, cut_word, cut_word, bit_word, cut_word, cut_word, cut_word, cut_word,
      cut_word, cut_word⟩, rfl⟩
  case none =>
    obtain ⟨h3, h5, h4, h6, h7⟩ := not_transport (typ := typ) (by omega)
    have h12 : ¬ typ < 12 := by omega
    simp only [unpackExt, packExt, extWords, if_neg h3, if_neg h5, if_neg h4, if_neg h6, if_neg h7, if_neg h12]
    exact ⟨trivial, rfl⟩

/-- Settles O20: each header's fields stand at places of their own in its words. -/
theorem headersReadBack : Obligations.HeadersReadBack :=
  ⟨unpackBth_packBth, unpackRh_packRh, fun _ _ => unpackExt_packExt⟩

end Sys2Proof.Machine
end

section
namespace Sys2Proof.Machine

/-! ### Bytes of words and packets (R15, R97, R344) -/

@[simp] theorem toLE_length (n v : Nat) : (toLE n v).length = n := by
  induction n generalizing v with
  | zero => rfl
  | succ n ih => simp [toLE, ih]

@[simp] theorem toBE_length (n v : Nat) : (toBE n v).length = n := by simp [toBE]

theorem ofLE_toLE (n v : Nat) : ofLE (toLE n v) = v % 256 ^ n := by
  induction n generalizing v with
  | zero => simp [toLE, ofLE, Nat.mod_one]
  | succ n ih =>
    rw [toLE, ofLE, ih, BitVec.toNat_ofNat, Nat.pow_succ' (m := 256)]
    exact Nat.mod_mul.symm

/-- A vector of n bytes is spelled by its bytes, in either order. -/
theorem ofNat_ofLE_toLE {n w : Nat} (v : BitVec w) (h : w = 8 * n) : BitVec.ofNat w (ofLE (toLE n v.toNat)) = v := by
  have hp : 256 ^ n = 2 ^ w := by rw [h, pow_mul]; rfl
  rw [ofLE_toLE, hp, Nat.mod_eq_of_lt v.isLt, BitVec.ofNat_toNat, BitVec.setWidth_eq]

theorem ofNat_ofBE_toBE {n w : Nat} (v : BitVec w) (h : w = 8 * n) : BitVec.ofNat w (ofBE (toBE n v.toNat)) = v := by
  rw [ofBE, toBE, List.reverse_reverse, ofNat_ofLE_toLE v h]

@[simp] theorem wordBytes_length (l : List U64) : (wordBytes l).length = 8 * l.length := by
  induction l with
  | nil => rfl
  | cons w l ih =>
    rw [wordBytes, List.flatMap_cons, List.length_append, toLE_length, ← wordBytes, ih, List.length_cons]
    omega

theorem wordBytes_append (l m : List U64) : wordBytes (l ++ m) = wordBytes l ++ wordBytes m := List.flatMap_append

/-- The bytes of words, cut into eights, are those of each word; `fuel` is enough for all of them. -/
theorem chop_wordBytes {l : List U64} {fuel : Nat} (h : l.length ≤ fuel) :
    chop 8 fuel (wordBytes l) = l.map (fun w => toLE 8 w.toNat) := by
  induction l generalizing fuel with
  | nil => cases fuel <;> rfl
  | cons w l ih =>
    obtain _ | k := fuel
    · exact absurd h (Nat.not_succ_le_zero _)
    have hw : wordBytes (w :: l) = toLE 8 w.toNat ++ wordBytes l := rfl
    have hc : ∀ b : Bytes, chop 8 (k + 1) (toLE 8 w.toNat ++ b) =
        (toLE 8 w.toNat ++ b).take 8 :: chop 8 k ((toLE 8 w.toNat ++ b).drop 8) := fun _ => rfl
    rw [hw, hc, List.take_left' (toLE_length ..), List.drop_left' (toLE_length ..),
      ih (Nat.le_of_succ_le_succ h), List.map_cons]

theorem bytesWords_wordBytes (l : List U64) : bytesWords (wordBytes l) = l := by
  rw [bytesWords, chunksOf, chop_wordBytes (by rw [wordBytes_length]; omega), List.map_map]
  exact List.map_id'' (fun w : U64 => ofNat_ofLE_toLE (n := 8) w rfl) l

/-- What follows a packet's base and extension header. -/
def afterHeaders (p : Packet) : Bytes := cphBytes p ++ (p.data ++ (tagBytes p ++ toLE 4 p.icrc.toNat))

theorem packetBytes_eq (p : Packet) :
    packetBytes p = wordBytes (packBth p.bth) ++ (wordBytes (packExt p.ext) ++ afterHeaders p) := by
  simp only [packetBytes, afterHeaders, wordBytes_append, List.append_assoc]

section
variable {p : Packet}

theorem packBth_bytes_length (b : Bth) : (wordBytes (packBth b)).length = 32 := wordBytes_length _

theorem bthOf_packetBytes : bthOf (packetBytes p) = p.bth := by
  rw [bthOf, packetBytes_eq, List.take_left' (packBth_bytes_length _), bytesWords_wordBytes, unpackBth_packBth]

theorem packetBytes_drop_bth : (packetBytes p).drop 32 = wordBytes (packExt p.ext) ++ afterHeaders p := by
  rw [packetBytes_eq, List.drop_left' (packBth_bytes_length _)]

variable (h : extOf p.bth.typ.toNat p.ext = true)
include h

theorem packExt_bytes_length : (wordBytes (packExt p.ext)).length = 8 * extWords p.bth.typ.toNat := by
  rw [wordBytes_length, (unpackExt_packExt h).2]

theorem unpackExt_packetBytes : unpackExt p.bth.typ.toNat
    (bytesWords (((packetBytes p).drop 32).take (8 * extWords p.bth.typ.toNat))) = p.ext := by
  rw [packetBytes_drop_bth, List.take_left' (packExt_bytes_length h), bytesWords_wordBytes, (unpackExt_packExt h).1]

theorem packetBytes_drop_headers : (packetBytes p).drop (32 + 8 * extWords p.bth.typ.toNat) = afterHeaders p := by
  rw [← List.drop_drop, packetBytes_drop_bth, List.drop_left' (packExt_bytes_length h)]

theorem packetBytes_length : (packetBytes p).length = packetLen p := by
  have hb : (packBth p.bth).length = 4 := rfl
  rw [packetBytes_eq, List.length_append, List.length_append, packExt_bytes_length h, wordBytes_length, hb, packetLen,
    afterHeaders, cphBytes, tagBytes]
  cases p.cph <;> simp <;> omega
end

/-- The cipher header reads back from its word and its tag. -/
theorem cph_packCph (c : Cph) : cut 63 (packCph c) 0 = c.cseq ∧ bit (packCph c) 63 = c.kphase := by
  have := b2n_lt c.kphase
  rw [packCph, flag]
  exact ⟨cut_word, bit_word⟩

/-- The parts of what follows the headers of a packet with a cipher header, in their order. -/
theorem afterHeaders_ciphered {p : Packet} {c : Cph} (h : p.cph = some c) :
    (afterHeaders p).take 8 = toLE 8 (packCph c).toNat ∧ ((afterHeaders p).drop 8).take p.data.length = p.data ∧
    ((afterHeaders p).drop (8 + p.data.length)).take 16 = toBE 16 c.tag.toNat ∧
    ((afterHeaders p).drop (24 + p.data.length)).take 4 = toLE 4 p.icrc.toNat := by
  have ha : afterHeaders p = toLE 8 (packCph c).toNat ++ (p.data ++ (toBE 16 c.tag.toNat ++ toLE 4 p.icrc.toNat)) := by
    rw [afterHeaders, cphBytes, tagBytes, h]
  have h8 : (afterHeaders p).drop 8 = p.data ++ (toBE 16 c.tag.toNat ++ toLE 4 p.icrc.toNat) := by
    rw [ha, List.drop_left' (toLE_length ..)]
  have hd : (afterHeaders p).drop (8 + p.data.length) = toBE 16 c.tag.toNat ++ toLE 4 p.icrc.toNat := by
    rw [← List.drop_drop, h8, List.drop_left]
  have ht : (afterHeaders p).drop (24 + p.data.length) = toLE 4 p.icrc.toNat := by
    rw [show 24 + p.data.length = (8 + p.data.length) + 16 by omega, ← List.drop_drop, hd,
      List.drop_left' (toBE_length ..)]
  refine ⟨?_, ?_, ?_, ?_⟩
  · rw [ha, List.take_left' (toLE_length ..)]
  · rw [h8, List.take_left]
  · rw [hd, List.take_left' (toBE_length ..)]
  · rw [ht, List.take_of_length_le (toLE_length ..).le]

theorem afterHeaders_plain {p : Packet} (h : p.cph = none) : (afterHeaders p).take p.data.length = p.data ∧
    ((afterHeaders p).drop p.data.length).take 4 = toLE 4 p.icrc.toNat := by
  have ha : afterHeaders p = p.data ++ toLE 4 p.icrc.toNat := by
    rw [afterHeaders, cphBytes, tagBytes, h]
    rfl
  rw [ha, List.take_left, List.drop_left, List.take_of_length_le (toLE_length ..).le]
  exact ⟨rfl, rfl⟩

/-- Settles O21: each part of a packet's bytes begins where the lengths of the parts before it say. -/
theorem packetsReadBack : Obligations.PacketsReadBack := by
  intro p he hl hc
  refine ⟨?_, packetBytes_length he⟩
  rw [parsePacket, bthOf_packetBytes, unpackExt_packetBytes he, packetBytes_drop_headers he, hl, hc]
  obtain ⟨rh, b, e, cph, data, icrc⟩ := p
  have hi : BitVec.ofNat 32 (ofLE (toLE 4 icrc.toNat)) = icrc := ofNat_ofLE_toLE icrc rfl
  cases cph with
  | none =>
    obtain ⟨hd, ht⟩ := afterHeaders_plain (p := ⟨rh, b, e, none, data, icrc⟩) rfl
    simp only [Option.isSome_none, Bool.false_eq_true, if_false, hd, ht, hi]
  | some c =>
    obtain ⟨h8, hd, hg, ht⟩ := afterHeaders_ciphered (p := ⟨rh, b, e, some c, data, icrc⟩) rfl
    obtain ⟨hs, hk⟩ := cph_packCph c
    have hw : BitVec.ofNat 64 (ofLE (toLE 8 (packCph c).toNat)) = packCph c := ofNat_ofLE_toLE _ rfl
    have hb : BitVec.ofNat 128 (ofBE (toBE 16 c.tag.toNat)) = c.tag := ofNat_ofBE_toBE _ rfl
    simp only [Option.isSome_some, if_true, h8, hd, hg, ht, hi, hw, hs, hk, hb]

end Sys2Proof.Machine
end

section
namespace Sys2Proof.Machine

/-! ### What the fabric may change (R92, R112, R119, R173, R181) -/

/-- The commands that bring a packet of the transport or of a collective have none of these parts. -/
theorem not_touched_of_fabric {p : Packet} {a : GroupAttr} {c : Instr}
    (hc : c ∈ ([.connect p, .accept p, .reject p, .writePacket p, .sendPacket p, .readReq p, .readResp p, .ack p,
      .nakRnr p, .nakWait p, .nakHold p, .holdClear p, .nakAccess p, .nakNoConn p, .cdata p, .counts p, .capacityFlag p,
      .anchorPass p, .cconf p, .ccommit p, .resend p, .abort p, .rollback p, .gone p, .held p, .setup p a, .setupOk p,
      .refuse p, .activate p, .activeOk p, .teardown p] : List Instr)) :
    ∀ x ∈ [Part.part, .now, .regs, .wheel, .mov, .trust, .agl, .err, .boot, .thm], x ∉ touches c := by
  fin_cases hc <;> (simp only [touches]; decide)

/-- Settles O8: by the parts of each of the commands. -/
theorem whatTheFabricBringsStaysInItsParts : Obligations.WhatTheFabricBringsStaysInItsParts :=
  fun _ _ c hc s t ht x hx => everyCommandChangesOnlyItsParts c s t ht x (not_touched_of_fabric hc x hx)

end Sys2Proof.Machine
end

section
namespace Sys2Proof.Machine

/-! ### What every packet of a connection meets (R85, R86, R92, R99, R122, R333, R347) -/

section
variable {p : Packet} {s : State} {n : Nat}

theorem arriveAs_badIcrc {mine : Packet → Bool} {go : Packet → State → State} (h : p.icrc ≠ icrcOf p) :
    arriveAs mine go p s = { s with zrt := { s.zrt with icrc := s.zrt.icrc + 1 } } := if_pos h

theorem arriveAs_badHeader {mine : Packet → Bool} {go : Packet → State → State} (hi : p.icrc = icrcOf p)
    (hh : headerOk p = false) : arriveAs mine go p s = { s with zrt := { s.zrt with badHdr := s.zrt.badHdr + 1 } } :=
  (if_neg (not_not_intro hi)).trans (if_pos (by rw [hh]; rfl))

/-- A header that passes carries its type's extension header. -/
theorem extOf_of_headerOk (h : headerOk p = true) : extOf p.bth.typ.toNat p.ext = true := by
  simp only [headerOk, Bool.and_eq_true] at h
  tauto

/-- Only an ACK packet has a SYNDROME. -/
theorem typ_of_syndrome {k : Nat} (h : headerOk p = true) (hs : syndromeOf p.ext = some k) : p.bth.typ.toNat = 7 := by
  have he := extOf_of_headerOk h
  cases hx : p.ext <;> rw [hx] at he hs
  case aeth => exact of_decide_eq_true he
  all_goals cases hs

theorem isAnswer_iff {k : Nat} : isAnswer k p = true ↔ p.bth.typ.toNat = 7 ∧ syndromeOf p.ext = some k := by
  simp only [isAnswer, isType, Bool.and_eq_true, decide_eq_true_eq]

/-- The ten commands bring a packet of their kind, no NAK_NO_CONN among them, to its QP. -/
theorem exec_toQp {c : Instr}
    (hc : (c, true) ∈ ([(.writePacket p, isType 3 p), (.sendPacket p, isType 4 p), (.readReq p, isType 5 p),
      (.readResp p, isType 6 p), (.ack p, isAnswer 0 p), (.nakRnr p, isAnswer 1 p), (.nakWait p, isAnswer 2 p),
      (.nakHold p, isAnswer 3 p), (.holdClear p, isAnswer 4 p), (.nakAccess p, isAnswer 5 p)] : List (Instr × Bool))) :
    ∃ mine : Packet → Bool, mine p = true ∧ (∀ s, exec c s = onArrival (arriveAs mine toQp p) s) ∧
      (headerOk p = true → syndromeOf p.ext ≠ some 6) := by
  have data : ∀ k, k ≠ 7 → isType k p = true → headerOk p = true → syndromeOf p.ext ≠ some 6 := fun k hk ht hh hs =>
    hk ((of_decide_eq_true ht).symm.trans (typ_of_syndrome hh hs))
  have ans : ∀ k, k ≠ 6 → isAnswer k p = true → headerOk p = true → syndromeOf p.ext ≠ some 6 := fun k hk ht _ hs =>
    hk (Option.some.inj ((isAnswer_iff.mp ht).2.symm.trans hs))
  simp only [List.mem_cons, List.not_mem_nil, or_false, Prod.mk.injEq, eq_comm (a := true)] at hc
  rcases hc with ⟨rfl, h⟩ | ⟨rfl, h⟩ | ⟨rfl, h⟩ | ⟨rfl, h⟩ | ⟨rfl, h⟩ | ⟨rfl, h⟩ | ⟨rfl, h⟩ | ⟨rfl, h⟩ | ⟨rfl, h⟩ |
    ⟨rfl, h⟩
  · exact ⟨isType 3, h, fun _ => rfl, data 3 (by decide) h⟩
  · exact ⟨isType 4, h, fun _ => rfl, data 4 (by decide) h⟩
  · exact ⟨isType 5, h, fun _ => rfl, data 5 (by decide) h⟩
  · exact ⟨isType 6, h, fun _ => rfl, data 6 (by decide) h⟩
  · exact ⟨isAnswer 0, h, fun _ => rfl, ans 0 (by decide) h⟩
  · exact ⟨isAnswer 1, h, fun _ => rfl, ans 1 (by decide) h⟩
  · exact ⟨isAnswer 2, h, fun _ => rfl, ans 2 (by decide) h⟩
  · exact ⟨isAnswer 3, h, fun _ => rfl, ans 3 (by decide) h⟩
  · exact ⟨isAnswer 4, h, fun _ => rfl, ans 4 (by decide) h⟩
  · exact ⟨isAnswer 5, h, fun _ => rfl, ans 5 (by decide) h⟩

theorem toQp_free (h : (getQp s p.bth.dstQpn.toNat).st = .free) : toQp p s = refuse p s := if_pos h

theorem toQp_existing (h : (getQp s p.bth.dstQpn.toNat).st ≠ .free) :
    toQp p s = withContext p.bth.dstQpn.toNat p (rxChecks p.bth.dstQpn.toNat p) s := if_neg h

theorem withContext_restoring {go : State → State} (h : restoring s = true) :
    withContext n p go s = nakWaitFor n p s := if_pos h

section
variable {go : State → State} (hr : restoring s = false) (hn : s.zrt.resident.contains n = false)
include hr hn

theorem withContext_buffers (hb : missBytes s + packetLen p ≤ 524288) : withContext n p go s =
    { s with zrt := { s.zrt with
    missBuf := s.zrt.missBuf ++ [(n, p)]
    fetching := if s.zrt.fetching.contains n then s.zrt.fetching else s.zrt.fetching ++ [n] } } := by
  unfold withContext
  rw [if_neg (by rw [hr]; decide), if_neg (by rw [hn]; decide), if_neg (Nat.not_lt.mpr hb)]

theorem withContext_full (hb : 524288 < missBytes s + packetLen p) : withContext n p go s = nakWaitFor n p
    (if canWait s n p then { s with zrt := { s.zrt with missFull := s.zrt.missFull + 1 } } else s) := by
  unfold withContext
  rw [if_neg (by rw [hr]; decide), if_neg (by rw [hn]; decide), if_pos hb]
end

theorem rxChecks_refuses (h : p.bth.ctag ≠ (getQp s n).ctag ∨ (getQp s n).st = .error) : rxChecks n p s = refuse p s :=
  if_pos h

/-- A QP that is connected is in no ERROR. -/
theorem connected_not_error {q : Qp} (h : q.connected = true) : q.st ≠ .error := by
  intro he
  simp [Qp.connected, he] at h

section
variable (ht : p.bth.ctag = (getQp s n).ctag)
include ht

theorem rxChecks_unconnected (he : (getQp s n).st ≠ .error) (hc : (getQp s n).connected = false) :
    rxChecks n p s = s :=
  (if_neg (by tauto)).trans (if_pos (by rw [hc]; rfl))

theorem rxChecks_connected (hc : (getQp s n).connected = true) : rxChecks n p s = rxAuth n p s := by
  have he := connected_not_error hc
  exact (if_neg (by tauto)).trans (if_neg (by rw [hc]; decide))
end

theorem rxAuth_ciphered (hp : p.bth.ciph = true) (hq : (getQp s n).cipher = true) :
    rxAuth n p s = toEngine n false p s := (if_pos hp).trans (if_pos hq)

theorem rxAuth_mismatch (hp : p.bth.ciph ≠ (getQp s n).cipher) (hs : syndromeOf p.ext ≠ some 6) :
    rxAuth n p s = authFail n s := by
  unfold rxAuth
  cases hc : p.bth.ciph <;> cases hq : (getQp s n).cipher <;> simp_all

/-- A packet in the clear is taken by a QP without CIPHER, and so is a NAK_NO_CONN by any. -/
theorem rxAuth_clear (hp : p.bth.ciph = false) (h : (getQp s n).cipher = false ∨ syndromeOf p.ext = some 6) :
    rxAuth n p s = rxTake n p s := by
  refine (if_neg (by rw [hp]; decide)).trans (if_neg ?_)
  rcases h with h | h <;> simp [h]
end

/-- Settles O28: by what the checks meet, in their order. -/
theorem arrivingPacketsAreChecked : Obligations.ArrivingPacketsAreChecked := by
  intro p c s hc hf
  obtain ⟨mine, hm, hx, hs⟩ := exec_toQp hc
  have up : exec c s = .next (arriveAs mine toQp p s) := (hx s).trans (onArrival_up hf)
  refine ⟨fun hi => up.trans (congrArg _ (arriveAs_badIcrc hi)),
    fun hi hh => up.trans (congrArg _ (arriveAs_badHeader hi hh)), fun hw => ?_⟩
  intro t n u q
  have whole : exec c s = .next (toQp p t) := (hx s).trans (arrival_whole hw hf hm)
  have here : q.st ≠ .free → exec c s = .next (withContext n p (rxChecks n p) t) := fun hq =>
    whole.trans (congrArg _ (toQp_existing hq))
  refine ⟨fun hq => whole.trans (congrArg _ (toQp_free hq)),
    fun hq hr => (here hq).trans (congrArg _ (withContext_restoring hr)),
    fun hq hr hn => ⟨fun hb => (here hq).trans (congrArg _ (withContext_buffers hr hn hb)),
      fun hb => (here hq).trans (congrArg _ (withContext_full hr hn hb))⟩, fun hq hr hn => ?_⟩
  have checks : exec c s = .next (rxChecks n p u) := (here hq).trans (congrArg _ (withContext_resident hr hn))
  have auth : p.bth.ctag = q.ctag → q.connected → exec c s = .next (rxAuth n p u) := fun ht hc =>
    checks.trans (congrArg _ (rxChecks_connected (s := u) ht hc))
  exact ⟨fun h => checks.trans (congrArg _ (rxChecks_refuses (s := u) h)),
    fun ht he hc => checks.trans (congrArg _ (rxChecks_unconnected (s := u) ht he hc)),
    fun ht hc hp hq => (auth ht hc).trans (congrArg _ (rxAuth_ciphered (s := u) hp hq)),
    fun ht hc hp => (auth ht hc).trans (congrArg _ (rxAuth_mismatch (s := u) hp (hs hw.2)))⟩

end Sys2Proof.Machine
end

section
namespace Sys2Proof.Machine

/-! ### Data packets that reach their QP (R98, R101, R102, R104, R110, R269, R457) -/

section
variable {p : Packet} {s : State} {n : Nat}

/-- A packet that reaches its QP is taken there. -/
theorem reaches_taken {mine : Packet → Bool} (h : Reaches n p s) (hm : mine p = true) :
    onArrival (arriveAs mine toQp p) s = .next (rxTake n p (atQp n p s)) := by
  obtain ⟨hw, hf, rfl, hp, hr, hn, hc, ht, hq⟩ := h
  have hfree : (getQp (noteArrival (epAdapter p.bth.srcEp) s) p.bth.dstQpn.toNat).st ≠ .free := fun he => by
    simp [Qp.connected, he] at hc
  have checks : rxChecks _ p (atQp p.bth.dstQpn.toNat p s) = rxTake _ p (atQp p.bth.dstQpn.toNat p s) :=
    (rxChecks_connected (s := atQp _ p s) ht hc).trans (rxAuth_clear (s := atQp _ p s) hp (.inl hq))
  rw [arrival_whole hw hf hm, toQp_existing hfree, withContext_resident hr hn]
  exact congrArg _ checks

theorem connected_atQp (h : Reaches n p s) : (getQp (atQp n p s) n).connected = true := by
  obtain ⟨-, -, -, -, -, -, hc, -⟩ := h
  exact hc

section
variable (hc : (getQp s n).connected = true)
include hc

theorem rxTake_packet (ht : p.bth.typ.toNat = 3 ∨ p.bth.typ.toNat = 4) : rxTake n p s = onPacket n p s := by
  rcases ht with ht | ht <;> simp [rxTake, connected_not_error hc, hc, ht]

theorem rxTake_readReq (ht : p.bth.typ.toNat = 5) : rxTake n p s = onReadReq n p s := by
  simp [rxTake, connected_not_error hc, hc, ht]

theorem rxTake_readResp (ht : p.bth.typ.toNat = 6) : rxTake n p s = onReadResp n p s := by
  simp [rxTake, connected_not_error hc, hc, ht]

theorem rxTake_answer (ht : p.bth.typ.toNat = 7) : rxTake n p s = takeAeth n p s := by
  simp [rxTake, connected_not_error hc, hc, ht]
end

/-! WRITE and SEND packets, by the distance `d` of the PSN from E: behind it, not in the window or held, and new. -/

section
variable {d : Nat} (hd : (p.bth.psn - (getQp s n).rsp.e).toNat = d)
include hd

theorem onPacket_behind (h : 0x80000000 ≤ d) : onPacket n p s = answer n 0 0 (countDup n s) := if_pos (hd ▸ h)

variable (hb : d < 0x80000000)
include hb

theorem onPacket_untaken (h : (getQp s n).win ≤ d ∨ (getQp s n).rsp.held.contains p.bth.psn = true) :
    onPacket n p s = countDup n s := by
  subst hd
  refine (if_neg (Nat.not_le.mpr hb)).trans ?_
  split
  · rfl
  · next hw => exact if_pos (h.resolve_left hw)

variable (hw : d < (getQp s n).win) (hh : (getQp s n).rsp.held.contains p.bth.psn = false)
include hw hh

/-- A packet with a new PSN in the window. -/
theorem onPacket_new : onPacket n p s =
    if p.bth.typ.toNat = 4 ∧ !(getQp s n).rqEn then accessFail n p.bth.psn s
    else if p.bth.typ.toNat = 4 ∧ notReady s (getQp s n) p then answer n 1 p.bth.psn
      (modF (getQp s n).facet (fun f => { f with zrt := { f.zrt with rnrSent := f.zrt.rnrSent + 1 } }) s)
    else if needsStream (getQp s n) s p && parkedStream s (.responder n) then parkDiscard s
    else if p.bth.typ.toNat = 4 then placeSend n p (takePacket n p s) else placeWrite n p (takePacket n p s) := by
  subst hd
  exact (if_neg (Nat.not_le.mpr hb)).trans ((if_neg (Nat.not_le.mpr hw)).trans (if_neg (by rw [hh]; decide)))

theorem onPacket_noRq (h4 : p.bth.typ.toNat = 4) (hq : (getQp s n).rqEn = false) :
    onPacket n p s = accessFail n p.bth.psn s :=
  (onPacket_new hd hb hw hh).trans (if_pos ⟨h4, by rw [hq]; rfl⟩)

theorem onPacket_notReady (h4 : p.bth.typ.toNat = 4) (hq : (getQp s n).rqEn = true)
    (hr : notReady s (getQp s n) p = true) : onPacket n p s = answer n 1 p.bth.psn
      (modF (getQp s n).facet (fun f => { f with zrt := { f.zrt with rnrSent := f.zrt.rnrSent + 1 } }) s) :=
  (onPacket_new hd hb hw hh).trans ((if_neg (by simp [hq])).trans (if_pos ⟨h4, hr⟩))

/-- A packet whose slot is ready, if it is a SEND, is taken unless it needs a stream that is parked. -/
theorem onPacket_ready (h : p.bth.typ.toNat = 4 → (getQp s n).rqEn = true ∧ notReady s (getQp s n) p = false) :
    onPacket n p s = if needsStream (getQp s n) s p && parkedStream s (.responder n) then parkDiscard s
      else if p.bth.typ.toNat = 4 then placeSend n p (takePacket n p s) else placeWrite n p (takePacket n p s) := by
  refine (onPacket_new hd hb hw hh).trans ((if_neg ?_).trans (if_neg ?_))
  · rintro ⟨h4, hq⟩
    simp [(h h4).1] at hq
  · rintro ⟨h4, hr⟩
    simp [(h h4).2] at hr
end

/-! READ_REQs, by the distance `d` and the number `k` of PSNs that are asked for. -/

section
variable {roff : U64} {rkey len : U32} {rseg : Byte} {rsv : BitVec 24} {ro : U32} {d k : Nat}
variable (he : p.ext = .reth roff rkey len rseg rsv ro) (hd : (p.bth.psn - (getQp s n).rsp.e).toNat = d)
  (hk : ceilDiv len.toNat (getQp s n).pmtu = k)
include he hd hk

theorem onReadReq_untaken (h : (getQp s n).win < k ∨ (d < 0x80000000 ∧ ((getQp s n).win < d + k ∨
    (getQp s n).rsp.held.contains p.bth.psn = true))) : onReadReq n p s = countDup n s := by
  simp only [onReadReq, he, hd, hk]
  rcases h with hw | ⟨hb, hw | hh⟩
  · exact if_pos (by simp [hw])
  · exact if_pos (by simp [hb, hw])
  · split
    · rfl
    · exact if_pos (by rw [hh, decide_eq_false (Nat.not_le.mpr hb)]; rfl)

/-- A READ_REQ within the window, or behind E, that is not held. -/
theorem onReadReq_taken (hw : k ≤ (getQp s n).win) (h : 0x80000000 ≤ d ∨ (d + k ≤ (getQp s n).win ∧
    (getQp s n).rsp.held.contains p.bth.psn = false)) :
    onReadReq n p s =
      if parkedStream s (.responder n) then parkDiscard s
      else if !readAllowed s (getQp s n) p then accessFail n p.bth.psn s
      else if decide (0x80000000 ≤ d) then
        serveRead n p (modQp n (fun q => { q with rsp := { q.rsp with ce := ceCount p q.rsp.ce } }) s)
      else serveReached n (modQp n (fun q => { q with rsp := { q.rsp with reads := q.rsp.reads ++ [p] } })
        (takePacket n p s)) := by
  simp only [onReadReq, he, hd, hk]
  refine (if_neg ?_).trans (if_neg ?_)
  · rcases h with hb | ⟨hd, -⟩
    · simp [hw, hb]
    · simp [hw, hd]
  · rcases h with hb | ⟨-, hh⟩
    · simp [hb]
    · rw [hh, Bool.and_false]
      decide
end

/-! READ_RESPs. -/

/-- A READ_RESP is awaited: a PSN of a READ that was sent and is neither confirmed nor being placed. -/
def respDue (q : Qp) (psn : U32) : Bool :=
  isReadPsn q psn && psnBefore psn q.req.hi && !confirmedTx q psn && !q.req.placing.contains psn

theorem not_respDue (q : Qp) (psn : U32) :
    (!isReadPsn q psn || !psnBefore psn q.req.hi || confirmedTx q psn || q.req.placing.contains psn) =
      !respDue q psn := by
  simp only [respDue, Bool.not_and, Bool.not_not]

theorem onReadResp_unawaited (h : respDue (getQp s n) p.bth.psn = false) : onReadResp n p s = countDup n s :=
  if_pos ((not_respDue ..).trans (by rw [h]; rfl))

theorem onReadResp_due (h : respDue (getQp s n) p.bth.psn = true) : onReadResp n p s =
    if parkedStream s (.readResp n) then parkDiscard s else placeResp n p
      (modQp n (fun q => { q with req := { q.req with placing := q.req.placing ++ [p.bth.psn] } }) s) :=
  if_neg (by rw [not_respDue, h]; decide)
end

/-- Settles O29: by where the PSN lies, and then the checks in their order. -/
theorem dataPacketsAreTakenOncePerPsn : Obligations.DataPacketsAreTakenOncePerPsn := by
  refine ⟨fun typ n p c s hc h hk => ?_, fun n p s roff rkey len rseg rsv ro h hk he => ?_, fun n p s h hk => ?_⟩
  · intro t q d
    have ht : p.bth.typ.toNat = typ := of_decide_eq_true hk
    have hx : exec c s = .next (onPacket n p t) := by
      simp only [List.mem_cons, List.not_mem_nil, or_false, Prod.mk.injEq] at hc
      rcases hc with ⟨rfl, rfl⟩ | ⟨rfl, rfl⟩
      · exact (reaches_taken h hk).trans (congrArg _ (rxTake_packet (connected_atQp h) (.inl ht)))
      · exact (reaches_taken h hk).trans (congrArg _ (rxTake_packet (connected_atQp h) (.inr ht)))
    subst ht
    exact ⟨fun hb => hx.trans (congrArg _ (onPacket_behind rfl hb)),
      fun hb hu => hx.trans (congrArg _ (onPacket_untaken rfl hb hu)), fun hb hw hh =>
      ⟨fun h4 hq => hx.trans (congrArg _ (onPacket_noRq rfl hb hw hh h4 hq)),
        fun h4 hq hr => hx.trans (congrArg _ (onPacket_notReady rfl hb hw hh h4 hq hr)),
        fun hr hs hp => hx.trans (congrArg _ ((onPacket_ready rfl hb hw hh hr).trans (if_pos (by rw [hs, hp]; rfl)))),
        fun hr hs => hx.trans (congrArg _ ((onPacket_ready rfl hb hw hh hr).trans (if_neg (by simpa using hs))))⟩⟩
  · intro t q d k
    have hx : exec (.readReq p) s = .next (onReadReq n p t) :=
      (reaches_taken h hk).trans (congrArg _ (rxTake_readReq (connected_atQp h) (of_decide_eq_true hk)))
    refine ⟨fun hu => hx.trans (congrArg _ (onReadReq_untaken he rfl rfl hu)), fun hw hd => ?_⟩
    rw [hx, onReadReq_taken he rfl rfl hw hd]
    refine ⟨fun hp => congrArg _ (if_pos hp), fun hp ha => congrArg _ ?_, fun hp ha hb => congrArg _ ?_,
      fun hp ha hb => congrArg _ ?_⟩
    · rw [if_neg (by rw [hp]; decide), if_pos (by rw [ha]; rfl)]
    · rw [if_neg (by rw [hp]; decide), if_neg (by rw [ha]; decide), if_pos (decide_eq_true hb)]
    · rw [if_neg (by rw [hp]; decide), if_neg (by rw [ha]; decide),
        if_neg (fun hbehind => Nat.not_le.mpr hb (of_decide_eq_true hbehind))]
  · intro t q due
    have hx : exec (.readResp p) s = .next (onReadResp n p t) :=
      (reaches_taken h hk).trans (congrArg _ (rxTake_readResp (connected_atQp h) (of_decide_eq_true hk)))
    exact ⟨fun hd => hx.trans (congrArg _ (onReadResp_unawaited hd)),
      fun hd hp => hx.trans (congrArg _ ((onReadResp_due hd).trans (if_pos hp))),
      fun hd hp => hx.trans (congrArg _ ((onReadResp_due hd).trans (if_neg (by rw [hp]; decide))))⟩

end Sys2Proof.Machine
end

section
namespace Sys2Proof.Machine

/-! ### Answers that reach their QP (R91, R92, R112, R113, R116, R117, R456) -/

section
variable {p : Packet} {s : State} {n : Nat}

/-- Only an AETH holds a SYNDROME. -/
theorem aeth_of_syndrome {e : Ext} {k : Nat} (h : syndromeOf e = some k) :
    ∃ a y c r sc tr r' sk np r'', e = .aeth a y c r sc tr r' sk np r'' ∧ y.toNat = k := by
  cases e
  case aeth a y c r sc tr r' sk np r'' => exact ⟨a, y, c, r, sc, tr, r', sk, np, r'', rfl, Option.some.inj h⟩
  all_goals cases h

/-- What a SYNDROME but that of NAK_NO_CONN does at its requester, once the answer has confirmed what it reports. -/
def syndromeActs (n : Nat) (nakPsn : U32) (k : Nat) (s : State) : State :=
  match k with
  | 1 => takeRnr n nakPsn s
  | 2 => takeWait n nakPsn s
  | 3 => enterHold n 3 s
  | 4 => leaveHold n s
  | 5 => takeAccess n nakPsn s
  | _ => s

/-- An answer that a connected QP takes confirms what it reports, and acts if the QP is then still connected. -/
theorem takeAeth_acts {k : Nat} (hs : syndromeOf p.ext = some k) (h6 : k ≠ 6)
    (hc : (getQp (atQp n p s) n).connected = true) : takeAeth n p (atQp n p s) =
      if (getQp (afterAnswer n p s) n).connected then syndromeActs n (nakPsnOf p) k (afterAnswer n p s)
      else afterAnswer n p s := by
  obtain ⟨a, y, c, r, sc, tr, r', sk, np, r'', he, rfl⟩ := aeth_of_syndrome hs
  simp only [takeAeth, afterAnswer, nakPsnOf, he, hc, if_neg h6, Bool.not_true, Bool.false_eq_true, if_false]
  cases (getQp (takeAnswer n a c sc tr sk (p.rh.altSeen || p.rh.echoAlt) (atQp n p s)) n).connected with
  | false => rfl
  | true => rfl

/-- A NAK_NO_CONN that a connected QP takes fails it. -/
theorem takeAeth_noConn (hs : syndromeOf p.ext = some 6) (hc : (getQp s n).connected = true) :
    takeAeth n p s = failQp n (fun _ => stat cREMOTE_LOST) s := by
  obtain ⟨a, y, c, r, sc, tr, r', sk, np, r'', he, h6⟩ := aeth_of_syndrome hs
  simp [takeAeth, he, hc, h6]

/-- An answer that reaches its QP. -/
theorem answer_taken {k : Nat} (h : Reaches n p s) (hk : isAnswer k p = true) (h6 : k ≠ 6) :
    onArrival (arriveAs (isAnswer k) toQp p) s = .next
      (if (getQp (afterAnswer n p s) n).connected then syndromeActs n (nakPsnOf p) k (afterAnswer n p s)
      else afterAnswer n p s) := by
  have hc := connected_atQp h
  obtain ⟨ht, hs⟩ := isAnswer_iff.mp hk
  rw [reaches_taken h hk, rxTake_answer hc ht, takeAeth_acts hs h6 hc]

theorem toNoConn_unmatched (h : noConnQp s p = none) : toNoConn p s = s := by simp only [toNoConn, h]

theorem toNoConn_matched (h : noConnQp s p = some n) : toNoConn p s = rxAuth n p s := by simp only [toNoConn, h]
end

/-- Settles O30: by the SYNDROME, after the answer has confirmed what it reports. -/
theorem answersAreTakenBySyndrome : Obligations.AnswersAreTakenBySyndrome := by
  refine ⟨fun n p s h hk => (answer_taken h hk (by decide)).trans (congrArg _ (ite_self _)), fun n p s h hc => ?_,
    fun p s hw hf hk => ?_⟩
  · have acts : ∀ k, k ≠ 6 → isAnswer k p = true → onArrival (arriveAs (isAnswer k) toQp p) s =
        .next (syndromeActs n (nakPsnOf p) k (afterAnswer n p s)) := fun k h6 hk =>
      (answer_taken h hk h6).trans (congrArg _ (if_pos hc))
    exact ⟨acts 1 (by decide), acts 2 (by decide), acts 3 (by decide), acts 4 (by decide), acts 5 (by decide)⟩
  · intro t
    have hx : exec (.nakNoConn p) s = .next (toNoConn p t) := arrival_whole hw hf hk
    refine ⟨fun n hn hp hc => ?_, fun hn => hx.trans (congrArg _ (toNoConn_unmatched hn))⟩
    obtain ⟨ht, hs⟩ := isAnswer_iff.mp hk
    rw [hx, toNoConn_matched hn, rxAuth_clear hp (.inr hs), rxTake_answer hc ht, takeAeth_noConn hs hc]

end Sys2Proof.Machine
end

section
namespace Sys2Proof.Machine

/-! ### What every packet of a group meets (R99, R122, R161, R181, R347) -/

section
variable {p : Packet} {s : State} {gid : Nat} {go : Nat → Packet → State → State}

theorem inGroup_restoring (h : restoring s = true) : inGroup go p s = s := if_pos h

theorem inGroup_other (hr : restoring s = false)
    (h : (getG s (gidOf p.ext)).st = .free ∨ (getG s (gidOf p.ext)).attr.gtag ≠ p.bth.ctag) :
    inGroup go p s = sendGone p s := (if_neg (by rw [hr]; decide)).trans (if_pos h)

theorem inGroup_member (hr : restoring s = false) (hf : (getG s (gidOf p.ext)).st ≠ .free)
    (ht : (getG s (gidOf p.ext)).attr.gtag = p.bth.ctag) : inGroup go p s = go (gidOf p.ext) p s :=
  (if_neg (by rw [hr]; decide)).trans (if_neg (by tauto))

/-- A whole packet of its command's kind, while the fabric runs, is taken by its group after Rest has ended. -/
theorem collPkt_whole {typ sub : Nat} (hw : Whole p) (hf : fabricUp s = true) (hk : isColl typ sub p = true) :
    collPkt typ sub go p s = .next (inGroup go p (heard p s)) := arrival_whole hw hf hk

/-- A packet that reaches a group of this adapter. -/
theorem collPkt_toGroup {typ sub : Nat} (h : ToGroup gid p s) (hk : isColl typ sub p = true) :
    collPkt typ sub go p s = .next (go gid p (heard p s)) := by
  obtain ⟨hw, hf, rfl, hr, hst, ht⟩ := h
  rw [collPkt_whole hw hf hk, inGroup_member hr hst ht]

/-- The commands that bring a packet to a member of its group. -/
theorem exec_collPkt {c : Instr}
    (hc : (c, true) ∈ ([(.cdata p, isColl 8 0 p), (.counts p, isColl 8 1 p), (.capacityFlag p, isColl 8 2 p),
      (.anchorPass p, isColl 8 3 p), (.cconf p, isColl 9 0 p), (.ccommit p, isColl 10 0 p), (.resend p, isColl 11 0 p),
      (.abort p, isColl 11 1 p), (.rollback p, isColl 11 2 p), (.held p, isColl 11 4 p), (.activate p, isColl 11 8 p),
      (.teardown p, isColl 11 10 p)] : List (Instr × Bool))) :
    ∃ typ sub go, isColl typ sub p = true ∧ ∀ s, exec c s = collPkt typ sub go p s := by
  simp only [List.mem_cons, List.not_mem_nil, or_false, Prod.mk.injEq, eq_comm (a := true)] at hc
  rcases hc with ⟨rfl, h⟩ | ⟨rfl, h⟩ | ⟨rfl, h⟩ | ⟨rfl, h⟩ | ⟨rfl, h⟩ | ⟨rfl, h⟩ | ⟨rfl, h⟩ | ⟨rfl, h⟩ | ⟨rfl, h⟩ |
    ⟨rfl, h⟩ | ⟨rfl, h⟩ | ⟨rfl, h⟩
  all_goals exact ⟨_, _, _, h, fun _ => rfl⟩

theorem csn_other {r : Coll} (h : (getRun s gid).map (fun r => r.csn) ≠ some p.bth.msn) (hr : getRun s gid = some r) :
    r.csn ≠ p.bth.msn := fun he => h (by rw [hr, Option.map_some, he])

section
variable {check : Bool} {act : Coll → State → State}

/-- A packet of another collective than the running one has no further effect. -/
theorem ofRun_other (h : (getRun s gid).map (fun r => r.csn) ≠ some p.bth.msn) : ofRun check act gid p s = s := by
  unfold ofRun
  cases hr : getRun s gid with
  | none => rfl
  | some r => exact if_pos (csn_other h hr)

/-- A packet of the running collective with another signature ends it as mismatched. -/
theorem ofRun_mismatch {r : Coll} (hr : getRun s gid = some r) (hc : r.csn = p.bth.msn) (hs : sigOf p.ext ≠ r.sig) :
    ofRun true act gid p s =
      runGroup gid (mismatch gid { s with grp := { s.grp with sigFail := s.grp.sigFail + 1 } }) := by
  unfold ofRun
  rw [hr]
  exact (if_neg (not_not_intro hc)).trans (if_pos (by rw [decide_eq_true hs]; rfl))
end

theorem onResend_ended (h : (getRun s gid).map (fun r => r.csn) ≠ some p.bth.msn) :
    onResend gid p s = answerEnded gid none p s := by
  unfold onResend
  cases hr : getRun s gid with
  | none => rfl
  | some r => exact if_pos (csn_other h hr)

theorem onConf_ended (h : (getRun s gid).map (fun r => r.csn) ≠ some p.bth.msn) :
    onConf gid p s = answerEnded gid (some (argOf p.ext)) p s := by
  unfold onConf
  cases hr : getRun s gid with
  | none => rfl
  | some r => exact if_pos (csn_other h hr)

theorem onConf_mismatch {r : Coll} (hr : getRun s gid = some r) (hc : r.csn = p.bth.msn) (hs : sigOf p.ext ≠ r.sig) :
    onConf gid p s = runGroup gid (mismatch gid { s with grp := { s.grp with sigFail := s.grp.sigFail + 1 } }) := by
  unfold onConf
  rw [hr]
  exact (if_neg (not_not_intro hc)).trans (ofRun_mismatch hr hc hs)
end

/-- Settles O35: by what the checks meet, in their order. -/
theorem collectivePacketsAreChecked : Obligations.CollectivePacketsAreChecked := by
  refine ⟨fun p c s hc hf => ?_, fun gid p c s hc h ho => ?_, fun gid p s h ho => ⟨fun hk => ?_, fun hk => ?_⟩,
    fun gid r p s h hr hn hs => ?_⟩
  · obtain ⟨typ, sub, go, hk, hx⟩ := exec_collPkt hc
    have up := (hx s).trans (onArrival_up hf)
    have whole : Whole p → exec c s = .next (inGroup go p (heard p s)) := fun hw =>
      (hx s).trans (collPkt_whole hw hf hk)
    exact ⟨fun hi => up.trans (congrArg _ (arriveAs_badIcrc hi)),
      fun hi hh => up.trans (congrArg _ (arriveAs_badHeader hi hh)),
      fun hw hr => (whole hw).trans (congrArg _ (inGroup_restoring hr)),
      fun hw hr hg => (whole hw).trans (congrArg _ (inGroup_other hr hg))⟩
  · simp only [List.mem_cons, List.not_mem_nil, or_false, Prod.mk.injEq, eq_comm (a := true)] at hc
    rcases hc with ⟨rfl, hk⟩ | ⟨rfl, hk⟩ | ⟨rfl, hk⟩ | ⟨rfl, hk⟩ | ⟨rfl, hk⟩ | ⟨rfl, hk⟩ | ⟨rfl, hk⟩
    all_goals exact (collPkt_toGroup h hk).trans (congrArg _ (ofRun_other ho))
  · exact (collPkt_toGroup h hk).trans (congrArg _ (onResend_ended ho))
  · exact (collPkt_toGroup h hk).trans (congrArg _ (congrArg (runGroup gid) (onConf_ended ho)))
  · refine ⟨fun c hc => ?_, fun hk => ?_⟩
    · simp only [List.mem_cons, List.not_mem_nil, or_false, Prod.mk.injEq, eq_comm (a := true)] at hc
      rcases hc with ⟨rfl, hk⟩ | ⟨rfl, hk⟩ | ⟨rfl, hk⟩ | ⟨rfl, hk⟩
      all_goals exact (collPkt_toGroup h hk).trans (congrArg _ (ofRun_mismatch hr hn hs))
    · exact (collPkt_toGroup h hk).trans (congrArg _ (congrArg (runGroup gid) (onConf_mismatch hr hn hs)))

end Sys2Proof.Machine
end

section
namespace Sys2Proof.Machine

/-! ### Key commands (R85, R337, R338, R360) -/

section
variable {f op : Nat} {k : Option Key} {x : FacetCip} {s : State}

theorem keyCommand_busy (h : (getF s f).cip.keyOp ≠ 0) : keyCommand f op s = s := if_pos h

theorem keyCommand_runs (h : (getF s f).cip.keyOp = 0) (ha : keyAway s f = false) :
    keyCommand f op s = keyRun f op s := (if_neg (not_not_intro h)).trans (if_pos (by rw [ha]; rfl))

theorem keyCommand_waits (h : (getF s f).cip.keyOp = 0) (ha : keyAway s f = true) :
    keyCommand f op s = modF f (fun x => { x with cip := { x.cip with keyOp := op } }) { s with zrt := { s.zrt with
      fetching := if s.zrt.fetching.contains (ktQpn (getF s f).cip) then s.zrt.fetching
        else s.zrt.fetching ++ [ktQpn (getF s f).cip] } } :=
  (if_neg (not_not_intro h)).trans (if_neg (by rw [ha]; decide))

/-- A command of the cipher engine that would change nothing has no effect, on whatever part and facet. -/
theorem cipCommand_same {g : State → State} (h : g s = s) : cipCommand f g s = .next s := by
  simp only [cipCommand, live, when, h, ite_self]

/-- A change of the facet's key slots, with which its command ends. -/
def endSlots (f : Nat) (g : Assoc Key → Assoc Key) (s : State) : State :=
  keyEnd f 0 0 (modF f (fun y => { y with cip := { y.cip with slots := g y.cip.slots } }) s)

/-- The key of the target QP's phase set or erased, with which its command ends, and work that waited for it goes on. -/
def endQpKey (f : Nat) (x : FacetCip) (k : Option Key) (s : State) : State :=
  cipGo (ktQpn x) (keyEnd f 0 0 (modQp (ktQpn x) (fun q => { q with cip := setQpKey x k q.cip }) s))

variable (hx : (getF s f).cip = x)
include hx

/-! LOAD and CLEAR. -/

theorem keySet_load_slot {k : Key} (hk : ktKind x = 2) (hu : slotUsed x = false) :
    keySet f (some k) s = endSlots f (aset (ktSlot x) k) s := by
  subst hx
  exact (if_pos hk).trans (if_neg (by rw [hu]; decide))

theorem keySet_clear_slot (hk : ktKind x = 2) (hu : slotUsed x = false) :
    keySet f none s = endSlots f (adel (ktSlot x)) s := by
  subst hx
  exact (if_pos hk).trans (if_neg (by rw [hu]; decide))

theorem keySet_slot_used (hk : ktKind x = 2) (hu : slotUsed x = true) : keySet f k s = keyEnd f cIN_USE 7 s := by
  subst hx
  exact (if_pos hk).trans (if_pos hu)

theorem keySet_qp (hk : ktKind x = 1) : keySet f k s =
    if keyQpReason s f x ≠ 0 then keyEnd f cBAD_FIELD (keyQpReason s f x) s
    else if k.isSome ∧ ¬ ktLong x then keyEnd f cBAD_FIELD 6 s
    else if keyCurrent s x then keyEnd f cBAD_FIELD 4 s
    else endQpKey f x k s := by
  subst hx
  exact (if_neg (by rw [hk]; decide)).trans (if_pos hk)

theorem keySet_load_qp {k : Key} (hk : ktKind x = 1) (hr : keyQpReason s f x = 0) : keySet f (some k) s =
    if ktLong x = false then keyEnd f cBAD_FIELD 6 s
    else if keyCurrent s x then keyEnd f cBAD_FIELD 4 s
    else endQpKey f x (some k) s := by
  rw [keySet_qp hx hk, if_neg (not_not_intro hr)]
  simp only [Option.isSome_some, true_and, Bool.not_eq_true]

theorem keySet_clear_qp (hk : ktKind x = 1) (hr : keyQpReason s f x = 0) : keySet f none s =
    if keyCurrent s x then keyEnd f cBAD_FIELD 4 s else endQpKey f x none s := by
  rw [keySet_qp hx hk, if_neg (not_not_intro hr)]
  exact if_neg (by simp)

theorem keySet_bad_qp (hk : ktKind x = 1) (hr : keyQpReason s f x ≠ 0) :
    keySet f k s = keyEnd f cBAD_FIELD (keyQpReason s f x) s := (keySet_qp hx hk).trans (if_pos hr)

theorem keySet_no_target (h1 : ktKind x ≠ 1) (h2 : ktKind x ≠ 2) : keySet f k s = keyEnd f cBAD_FIELD 1 s := by
  subst hx
  exact (if_neg h2).trans (if_neg h1)

/-! SWITCH. -/

theorem keySwitch_no_qp (h1 : ktKind x ≠ 1) : keySwitch f s = keyEnd f cBAD_FIELD 1 s := by
  subst hx
  exact if_pos h1

theorem keySwitch_qp (hk : ktKind x = 1) : keySwitch f s =
    if keyQpReason s f x ≠ 0 then keyEnd f cBAD_FIELD (keyQpReason s f x) s
    else if ((getQp s (ktQpn x)).cip.keyOf true (ktPhase x)).isNone then keyEnd f cBAD_FIELD 5 s
    else cipGo (ktQpn x) (keyEnd f 0 0 (newPhase (ktQpn x) (ktPhase x) s)) := by
  subst hx
  exact if_neg (not_not_intro hk)

/-! QUERY. -/

theorem keyQuery_no_target (h : ktKind x ≠ 1 ∧ ktKind x ≠ 2 ∨
    ktKind x = 1 ∧ ((getQp s (ktQpn x)).st = .free ∨ (getQp s (ktQpn x)).facet ≠ f)) :
    keyQuery f s = keyEnd f cBAD_FIELD 1 s := by
  subst hx
  exact if_pos h

theorem keyQuery_shows (h : ktKind x = 2 ∨
    (ktKind x = 1 ∧ (getQp s (ktQpn x)).st ≠ .free ∧ (getQp s (ktQpn x)).facet = f)) :
    keyQuery f s = (let c := if ktKind x = 1 then (getQp s (ktQpn x)).cip else {}
      keyEnd f 0 0 (modF f (fun y => { y with cip := { y.cip with
        info := BitVec.ofNat 64 (b2n c.tx0.isSome + b2n c.tx1.isSome * 2 + b2n c.rx0.isSome * 4 + b2n c.rx1.isSome * 8 +
          b2n c.phase * 16 + ofBits (x.slots.map Prod.fst) * 256) } }) s)) := by
  subst hx
  refine if_neg ?_
  rcases h with h | ⟨hk, hq, hf⟩
  · simp [h]
  · simp [hk, hq, hf]
end

/-- Settles O50: by the kind of the target, and then the checks of each command in their order. -/
theorem keyCommandsSetSwitchAndQuery : Obligations.KeyCommandsSetSwitchAndQuery := by
  refine ⟨fun f s hr hc hf hb ha => ?_, fun f op c s hop => ?_⟩
  · intro x n r bad set slots
    have runs : ∀ op, cipCommand f (keyCommand f op) s = .next (keyRun f op s) := fun op =>
      (cipCommand_on hr hc hf).trans (congrArg _ (keyCommand_runs hb ha))
    have load : exec (.cipKeyLoad f) s = .next (keySet f (some (keyOfRegs x)) s) := runs 1
    have clear : exec (.cipKeyClear f) s = .next (keySet f none s) := runs 2
    have switch : exec (.cipKeySwitch f) s = .next (keySwitch f s) := runs 3
    have query : exec (.cipKeyQuery f) s = .next (keyQuery f s) := runs 4
    rw [load, clear, switch, query]
    refine ⟨fun hk hu => ⟨congrArg _ (keySet_load_slot rfl hk hu), congrArg _ (keySet_clear_slot rfl hk hu)⟩,
      fun hk hu => ⟨congrArg _ (keySet_slot_used rfl hk hu), congrArg _ (keySet_slot_used rfl hk hu)⟩,
      fun hk hq => ⟨congrArg _ (keySet_bad_qp rfl hk hq), congrArg _ (keySet_bad_qp rfl hk hq),
        congrArg _ ((keySwitch_qp rfl hk).trans (if_pos hq))⟩,
      fun hk hq => ⟨congrArg _ (keySet_load_qp rfl hk hq), congrArg _ (keySet_clear_qp rfl hk hq),
        congrArg _ ((keySwitch_qp rfl hk).trans (if_neg (not_not_intro hq)))⟩,
      fun h1 => congrArg _ (keySwitch_no_qp rfl h1),
      fun h1 h2 => ⟨congrArg _ (keySet_no_target rfl h1 h2), congrArg _ (keySet_no_target rfl h1 h2),
        congrArg _ (keyQuery_no_target rfl (.inl ⟨h1, h2⟩))⟩,
      fun hk hq => congrArg _ (keyQuery_no_target rfl (.inr ⟨hk, hq⟩)), fun h => congrArg _ (keyQuery_shows rfl h)⟩
  · have hx : exec c s = cipCommand f (keyCommand f op) s := by
      simp only [List.mem_cons, List.not_mem_nil, or_false, Prod.mk.injEq] at hop
      rcases hop with ⟨rfl, rfl⟩ | ⟨rfl, rfl⟩ | ⟨rfl, rfl⟩ | ⟨rfl, rfl⟩
      all_goals rfl
    rw [hx]
    exact ⟨fun hb => cipCommand_same (keyCommand_busy hb),
      fun hr hc hf hb ha => (cipCommand_on hr hc hf).trans (congrArg _ (keyCommand_waits hb ha))⟩

end Sys2Proof.Machine
end

section
namespace Sys2Proof.Machine

/-! ### Collective descriptors (R158 to R161, R163, R295) -/

/-- What the outcome of a member's start checks does to its descriptor `i` of SQ q and to its group, `g` before them
(R160, R161). -/
def startedActs (f q : Nat) (i : Item) (g : Group) : State × Started → State
  | (s, .wait) => s
  | (s, .bad st) => settle f (failMember (cGid i.desc) (cMember i.desc) (aget 0 (cMember i.desc) g.csn)
      (takeCsn (cGid i.desc) (cMember i.desc) (completeItem f q i.idx st (startItem f q i.idx s))))
  | (s, .good x) =>
    let s := takeCsn (cGid i.desc) (cMember i.desc) (startItem f q i.idx s)
    match g.aborts.find? (fun b => decide (b.csn = aget 0 (cMember i.desc) g.csn)) with
    | some b => settle f (completeItem f q i.idx b.st s)
    | none => settle f (runGroup (cGid i.desc) (modG (cGid i.desc) (fun g => { g with waiting := g.waiting ++ [x] }) s))

section
variable {f q : Nat} {i : Item} {g : Group} {r : State × Started}

theorem startedActs_wait (h : r.2 = .wait) : startedActs f q i g r = r.1 := by
  obtain ⟨s, x⟩ := r
  cases h
  rfl

theorem startedActs_bad {st : Status} (h : r.2 = .bad st) : startedActs f q i g r =
    settle f (failMember (cGid i.desc) (cMember i.desc) (aget 0 (cMember i.desc) g.csn)
      (takeCsn (cGid i.desc) (cMember i.desc) (completeItem f q i.idx st (startItem f q i.idx r.1)))) := by
  obtain ⟨s, x⟩ := r
  cases h
  rfl

theorem startedActs_aborted {x : CollMember} {b : Aborted} (h : r.2 = .good x)
    (hb : g.aborts.find? (fun b => decide (b.csn = aget 0 (cMember i.desc) g.csn)) = some b) : startedActs f q i g r =
    settle f (completeItem f q i.idx b.st (takeCsn (cGid i.desc) (cMember i.desc) (startItem f q i.idx r.1))) := by
  obtain ⟨s, x⟩ := r
  cases h
  simp only [startedActs, hb]

theorem startedActs_joins {x : CollMember} (h : r.2 = .good x)
    (hb : g.aborts.find? (fun b => decide (b.csn = aget 0 (cMember i.desc) g.csn)) = none) : startedActs f q i g r =
    settle f (runGroup (cGid i.desc) (modG (cGid i.desc) (fun g => { g with waiting := g.waiting ++ [x] })
      (takeCsn (cGid i.desc) (cMember i.desc) (startItem f q i.idx r.1)))) := by
  obtain ⟨s, x⟩ := r
  cases h
  simp only [startedActs, hb]
end

section
variable {f q op : Nat} {aux : Bytes} {i : Item} {s : State}

theorem collCommand_broken (h : ready s f q op = some i)
    (hg : (getG (restWake s) (cGid i.desc)).st = .broken) : collCommand f q op aux s =
      settle f (completeItem f q i.idx (stat cCOLL_MEMBER_LOST) (startItem f q i.idx (restWake s))) := by
  unfold collCommand
  rw [h]
  exact if_pos hg

theorem collCommand_inactive (h : ready s f q op = some i)
    (hb : (getG (restWake s) (cGid i.desc)).st ≠ .broken) (ha : (getG (restWake s) (cGid i.desc)).st ≠ .active) :
    collCommand f q op aux s =
      settle f (completeItem f q i.idx (stat cGROUP_INVALID) (startItem f q i.idx (restWake s))) := by
  unfold collCommand
  rw [h]
  exact (if_neg hb).trans (if_pos ha)

/-- The member of the descriptor is on this adapter and of the descriptor's facet (R160). -/
def memberHere (f : Nat) (d : Desc) (s : State) : Bool :=
  isLocal s (getG s (cGid d)).attr (cMember d) && decide (memFacet (attrMember (getG s (cGid d)).attr (cMember d)) = f)

theorem not_memberHere (f : Nat) (d : Desc) (s : State) :
    (!isLocal s (getG s (cGid d)).attr (cMember d) ||
      decide (memFacet (attrMember (getG s (cGid d)).attr (cMember d)) ≠ f)) = !memberHere f d s := by
  simp only [memberHere, Bool.not_and, decide_not]

/-- A descriptor of an ACTIVE group: its member is not here, or its start checks say what it does. -/
theorem collCommand_active (h : ready s f q op = some i) (ha : (getG (restWake s) (cGid i.desc)).st = .active) :
    collCommand f q op aux s =
      if memberHere f i.desc (restWake s) then
        startedActs f q i (getG (restWake s) (cGid i.desc)) (startChecks f q i.idx
          (aget 0 (cMember i.desc) (getG (restWake s) (cGid i.desc)).csn) (getG (restWake s) (cGid i.desc)).attr
          i.desc aux (restWake s))
      else settle f (completeItem f q i.idx (stat cNOT_MEMBER) (startItem f q i.idx (restWake s))) := by
  unfold collCommand
  rw [h]
  dsimp only
  rw [if_neg (by rw [ha]; decide), if_neg (not_not_intro ha), not_memberHere]
  cases memberHere f i.desc (restWake s) with
  | false => rfl
  | true => rfl

/-- The 13 commands of collective descriptors: those from GATHERV on read an auxiliary area first (R159, R163). -/
theorem exec_collective {bs : Bytes} {c : Instr}
    (hc : (c, op, bs) ∈ ([(.barrier f q, 0x10, []), (.allreduce f q, 0x11, []), (.reduce f q, 0x12, []),
      (.reduceScatter f q, 0x13, []), (.broadcast f q, 0x14, []), (.allgather f q, 0x15, []), (.gather f q, 0x16, []),
      (.scatter f q, 0x17, []), (.alltoall f q, 0x18, []), (.gatherv f q aux, 0x19, aux), (.alltoallv f q aux, 0x1A, aux),
      (.expertDispatch f q aux, 0x1B, aux), (.expertCombine f q aux, 0x1C, aux)] : List (Instr × Nat × Bytes))) (s : State) :
    op < 0x19 ∧ exec c s = live (collCommand f q op bs) s ∨ 0x19 ≤ op ∧ exec c s = live (auxCommand f q op bs) s := by
  simp only [List.mem_cons, List.not_mem_nil, or_false, Prod.mk.injEq] at hc
  rcases hc with ⟨rfl, rfl, rfl⟩ | ⟨rfl, rfl, rfl⟩ | ⟨rfl, rfl, rfl⟩ | ⟨rfl, rfl, rfl⟩ | ⟨rfl, rfl, rfl⟩ |
    ⟨rfl, rfl, rfl⟩ | ⟨rfl, rfl, rfl⟩ | ⟨rfl, rfl, rfl⟩ | ⟨rfl, rfl, rfl⟩ | ⟨rfl, rfl, rfl⟩ | ⟨rfl, rfl, rfl⟩ |
    ⟨rfl, rfl, rfl⟩ | ⟨rfl, rfl, rfl⟩
  iterate 9 exact .inl ⟨by decide, rfl⟩
  all_goals exact .inr ⟨by decide, rfl⟩

theorem auxCommand_hurt {x : Hurt} (h : ready s f q op = some i) (hx : descHurt s f q = some x) :
    auxCommand f q op aux s = failDesc f (auxFailed f q op) x s := by
  simp only [auxCommand, descBack, h, hx]
end

/-- Settles O34: by the read of the auxiliary area, the group's state, the member, and what the start checks say. -/
theorem collectiveDescriptorsTakeTheirPlace : Obligations.CollectiveDescriptorsTakeTheirPlace := by
  intro f q aux c op bs hc i s h t gid m g mine r ends
  have hrun := (ready_cases h).1
  refine ⟨fun x ho hx => ?_, fun hn => ?_⟩
  · obtain ⟨hlt, -⟩ | ⟨-, hexec⟩ := exec_collective hc s
    · omega
    · exact hexec.trans ((live_running hrun).trans (congrArg _ (auxCommand_hurt h hx)))
  · have hexec : exec c s = .next (collCommand f q op bs s) := by
      obtain ⟨-, hexec⟩ | ⟨ho, hexec⟩ := exec_collective hc s
      · exact hexec.trans (live_running hrun)
      · exact hexec.trans ((live_running hrun).trans (congrArg _ (descBack_unharmed h (hn ho))))
    have hstart : g.st = .active → mine = true → exec c s = .next (startedActs f q i g r) := fun ha hm =>
      hexec.trans (congrArg _ ((collCommand_active h ha).trans (if_pos hm)))
    exact ⟨fun hb => hexec.trans (congrArg _ (collCommand_broken h hb)),
      fun hb ha => hexec.trans (congrArg _ (collCommand_inactive h hb ha)),
      fun ha hm => hexec.trans (congrArg _ ((collCommand_active h ha).trans (if_neg (ne_true_of_eq_false hm)))),
      fun ha hm hw => (hstart ha hm).trans (congrArg _ (startedActs_wait hw)),
      fun st ha hm hb => (hstart ha hm).trans (congrArg _ (startedActs_bad hb)),
      fun x b ha hm hx hb => (hstart ha hm).trans (congrArg _ (startedActs_aborted hx hb)),
      fun x ha hm hx hb => (hstart ha hm).trans (congrArg _ (startedActs_joins hx hb))⟩

end Sys2Proof.Machine
end

section
namespace Sys2Proof.Machine

/-! ### Packets of the running collective (R161, R165, R173 to R178) -/

section
variable {p : Packet} {s : State} {gid : Nat} {r : Coll}

/-- A packet of the running collective is taken and the collective goes on; its signature agrees where it is checked. -/
theorem ofRun_taken {check : Bool} {act : Coll → State → State} (hr : getRun s gid = some r) (hc : r.csn = p.bth.msn)
    (hs : check = true → sigOf p.ext = r.sig) :
    ofRun check act gid p s = runGroup gid (act r (seeAlt gid p s)) := by
  unfold ofRun
  rw [hr]
  refine (if_neg (not_not_intro hc)).trans (if_neg fun h => ?_)
  obtain ⟨hcheck, hne⟩ := Bool.and_eq_true_iff.1 h
  exact of_decide_eq_true hne (hs hcheck)

/-- A packet of the running collective, with its signature, that does `t` by the meaning of its kind. -/
theorem toRun_taken {act : Coll → State → State} {t : State} (h : ToRun gid r p s)
    (ha : act r (seeAlt gid p (heard p s)) = t) : ofRun true act gid p (heard p s) = runGroup gid t := by
  obtain ⟨-, hr, hc, hs⟩ := h
  rw [ofRun_taken hr hc fun _ => hs, ha]

section
variable (hr : getRun s gid = some r) (hc : r.csn = p.bth.msn)
include hr hc

/-- A repeated CONF is answered by COMMIT (R173). -/
theorem onConf_repeated {old : Nat} (hs : sigOf p.ext = r.sig) (ho : agetq (fromAdapter s gid p) r.childConf = some old)
    (hle : argOf p.ext ≤ old) :
    onConf gid p s = runGroup gid (sendCommit gid [fromAdapter s gid p]
      (modRun gid (fun r => { r with degraded := r.degraded || brokenOf p.ext }) (seeAlt gid p s))) := by
  unfold onConf
  rw [hr]
  refine (if_neg (not_not_intro hc)).trans ((ofRun_taken hr hc fun _ => hs).trans (congrArg _ ?_))
  dsimp only
  rw [ho]
  exact if_pos hle

/-- Any other CONF advances the child's index (R173). -/
theorem onConf_advances (hs : sigOf p.ext = r.sig)
    (ho : ∀ old, agetq (fromAdapter s gid p) r.childConf = some old → old < argOf p.ext) :
    onConf gid p s = runGroup gid (modRun gid (fun r => { r with
      childConf := aset (fromAdapter s gid p) (argOf p.ext) r.childConf })
      (modRun gid (fun r => { r with degraded := r.degraded || brokenOf p.ext }) (seeAlt gid p s))) := by
  unfold onConf
  rw [hr]
  refine (if_neg (not_not_intro hc)).trans ((ofRun_taken hr hc fun _ => hs).trans (congrArg _ ?_))
  dsimp only
  cases hy : agetq (fromAdapter s gid p) r.childConf with
  | none => rfl
  | some old => exact if_neg (not_le.2 (ho old hy))

/-- A RESEND for a chunk that is committed here is stale (R176). -/
theorem onResend_committed (hn : argOf p.ext < r.commit) : onResend gid p s = s := by
  unfold onResend
  rw [hr]
  exact (if_neg (not_not_intro hc)).trans (if_pos hn)

/-- A RESEND for any other chunk sends it again (R175). -/
theorem onResend_open (hn : r.commit ≤ argOf p.ext) (hv : (isVar r.op && decide (argOf p.ext = 0)) = false) :
    onResend gid p s = resendChunk gid (argOf p.ext) (some (fromAdapter s gid p)) s := by
  unfold onResend
  rw [hr]
  exact (if_neg (not_not_intro hc)).trans ((if_neg (not_lt.2 hn)).trans
    (congrArg (resendChunk gid _ _) (if_neg (ne_true_of_eq_false hv))))

/-- With chunk 0 of a kind with variable counts go the counts and the flags of the members here (R175). -/
theorem onResend_first (hn : r.commit = 0) (hv : isVar r.op = true) (h0 : argOf p.ext = 0) :
    onResend gid p s =
      (let y := fromAdapter s gid p
       let v := r.members.foldl (fun s m => sendCounts gid (some y) m s) s
       resendChunk gid 0 (some y) ((r.flags.filter (fun x => isLocal v (getG v gid).attr x.1)).foldl
         (fun s x => sendFlag gid (some y) r.csn r.sig x.1 x.2 s) v)) := by
  unfold onResend
  rw [hr]
  refine (if_neg (not_not_intro hc)).trans ((if_neg (by omega)).trans ?_)
  rw [h0, hv]
  rfl
end

theorem onAbort_ends (h : argOf p.ext = 1 ∨ argOf p.ext = 2) : onAbort gid p s =
    runGroup gid (abortHere gid { csn := p.bth.msn, reason := argOf p.ext, member := srcMemberOf p.ext
                                  st := reasonStatus (argOf p.ext) (srcMemberOf p.ext) } s) := if_pos h

theorem onAbort_breaks (h : argOf p.ext = 3 ∨ argOf p.ext = 4) : onAbort gid p s = breakGroup gid (argOf p.ext) s :=
  (if_neg (by omega)).trans (if_pos h)

theorem onAbort_other (h : argOf p.ext = 0 ∨ 5 ≤ argOf p.ext) : onAbort gid p s = s :=
  (if_neg (by omega)).trans (if_neg (by omega))
end

/-- Settles O36: by the packet's kind, for a packet of the running collective with its signature. -/
theorem collectiveDataPacketsAreTaken : Obligations.CollectiveDataPacketsAreTaken := by
  refine ⟨fun gid r p s h => ⟨fun hk => ?_, fun hk => ?_, fun hk hv hl => ?_, fun hk hv => ?_, fun hk hv hl => ?_,
      fun hk hv => ?_⟩, fun gid r p s h hk => ?_, fun gid r p s h hr hc hk => ?_⟩
  · exact (collPkt_toGroup h.1 hk).trans (congrArg _ (toRun_taken h rfl))
  · exact (collPkt_toGroup h.1 hk).trans (congrArg _ (toRun_taken h rfl))
  · exact (collPkt_toGroup h.1 hk).trans (congrArg _ (toRun_taken h (if_pos (by rw [hv, hl]; rfl))))
  · exact (collPkt_toGroup h.1 hk).trans (congrArg _ (toRun_taken h (if_neg (ne_true_of_eq_false hv))))
  · exact (collPkt_toGroup h.1 hk).trans (congrArg _ (toRun_taken h (if_pos (by rw [hv, decide_eq_true hl]; rfl))))
  · refine (collPkt_toGroup h.1 hk).trans (congrArg _ (toRun_taken h (if_neg ?_)))
    rcases hv with hv | hl
    · simp [hv]
    · simp [hl]
  · obtain ⟨hg, hr, hc, hs⟩ := h
    exact ⟨fun old ho hle => (collPkt_toGroup hg hk).trans
        (congrArg _ (congrArg _ (onConf_repeated hr hc hs ho hle))),
      fun ho => (collPkt_toGroup hg hk).trans (congrArg _ (congrArg _ (onConf_advances hr hc hs ho)))⟩
  · exact (collPkt_toGroup h hk).trans (congrArg _ (ofRun_taken hr hc nofun))

/-- Settles O37: by what a RESEND asks for, an ABORT's reason, and the packet's kind. -/
theorem collectiveRecoveryPacketsAct : Obligations.CollectiveRecoveryPacketsAct := by
  refine ⟨fun gid r p s h hr hc hk => ⟨fun hn => ?_, fun hn hv => ?_, fun hn hv h0 => ?_⟩,
    fun gid p s h hk => ⟨fun ha => ?_, fun ha => ?_, fun ha => ?_⟩, fun gid r p s h hr hc => ⟨fun hk => ?_, fun hk => ?_⟩⟩
  · exact (collPkt_toGroup h hk).trans (congrArg _ (onResend_committed hr hc hn))
  · exact (collPkt_toGroup h hk).trans (congrArg _ (onResend_open hr hc hn hv))
  · exact (collPkt_toGroup h hk).trans (congrArg _ (onResend_first hr hc hn hv h0))
  · exact (collPkt_toGroup h hk).trans (congrArg _ (onAbort_ends ha))
  · exact (collPkt_toGroup h hk).trans (congrArg _ (onAbort_breaks ha))
  · exact (collPkt_toGroup h hk).trans (congrArg _ (onAbort_other ha))
  · exact (collPkt_toGroup h hk).trans (congrArg _ (ofRun_taken hr hc nofun))
  · exact (collPkt_toGroup h hk).trans (congrArg _ (ofRun_taken hr hc nofun))

end Sys2Proof.Machine
end

section
namespace Sys2Proof.Machine

/-! ### Set-up and release of a group (R155, R157, R158, R181) -/

section
variable {p : Packet} {s : State}

/-- What a packet is heard with changes nothing of the restoration after a warm reset. -/
theorem restoring_heard : restoring (heard p s) = restoring (noteArrival (epAdapter p.bth.srcEp) s) := by
  have hboot : (heard p s).boot = (noteArrival (epAdapter p.bth.srcEp) s).boot :=
    (restWake_does (pz := [.out, .prism, .fab, .pwr]) (does_refl _ _) rfl).only .boot (by decide)
  simp only [restoring, hboot]

/-- A whole GONE, outside the restoration (R157, R158). -/
theorem gone_taken (hw : Whole p) (hf : fabricUp s = true) (hk : isColl 11 3 p = true)
    (hr : restoring (heard p s) = false) : exec (.gone p) s = .next (onGone p (heard p s)) :=
  (arrival_whole hw hf hk).trans (congrArg _ (if_neg (by rw [← restoring_heard, hr]; decide)))

/-- A whole SETUP with the attributes that it carries, outside the restoration (R155, R158). -/
theorem setup_taken {a : GroupAttr} (hw : Whole p) (hf : fabricUp s = true) (hk : isColl 11 5 p = true)
    (hg : gidOf p.ext = a.gid) (hr : restoring (heard p s) = false) :
    exec (.setup p a) s = .next (onSetup a p (heard p s)) :=
  (arrival_whole hw hf hk).trans (congrArg _ (if_neg (by rw [← restoring_heard, hr, hg]; simp)))

section
variable {go : GroupCmd → Nat → State → State}

/-- An answer that the creating command `c` waits for. -/
theorem onAnswer_waited {c : GroupCmd} (hc : cmdFor (restWake s) false (gidOf p.ext) p.bth.ctag = some c) :
    onAnswer go p s = go c (epAdapter p.bth.srcEp).toNat (restWake s) := by
  simp only [onAnswer, hc]

/-- An answer that no creating command waits for (R181). -/
theorem onAnswer_unawaited (hc : cmdFor (restWake s) false (gidOf p.ext) p.bth.ctag = none)
    (hr : restoring (restWake s) = false) : onAnswer go p s =
      if (getG (restWake s) (gidOf p.ext)).st = .free ∨ (getG (restWake s) (gidOf p.ext)).attr.gtag ≠ p.bth.ctag then
        sendGone p (restWake s)
      else restWake s := by
  simp only [onAnswer, hc]
  exact if_neg (by rw [hr]; decide)

/-- The commands that bring an answer to a creating command. -/
theorem exec_answer {c : Instr} (hc : (c, true) ∈ ([(.setupOk p, isColl 11 6 p), (.refuse p, isColl 11 7 p),
    (.activeOk p, isColl 11 9 p)] : List (Instr × Bool))) (hw : Whole p) (hf : fabricUp s = true) :
    ∃ go, exec c s = .next (onAnswer go p (noteArrival (epAdapter p.bth.srcEp) s)) := by
  simp only [List.mem_cons, List.not_mem_nil, or_false, Prod.mk.injEq, eq_comm (a := true)] at hc
  rcases hc with ⟨rfl, hk⟩ | ⟨rfl, hk⟩ | ⟨rfl, hk⟩
  all_goals exact ⟨_, arrival_whole hw hf hk⟩
end

section
variable {a : GroupAttr}

theorem onSetup_again (h : ((getG s a.gid).st = .setup ∨ (getG s a.gid).st = .active) ∧ (getG s a.gid).attr = a) :
    onSetup a p s = toEndpoint a p.bth.srcEp { typ := 11, sub := 6 } s := if_pos h

theorem onSetup_reserves (h : ¬ (((getG s a.gid).st = .setup ∨ (getG s a.gid).st = .active) ∧ (getG s a.gid).attr = a))
    (hc : setupCode s a = 0) :
    onSetup a p s = toEndpoint a p.bth.srcEp { typ := 11, sub := 6 } (reserveGroup a s) := (if_neg h).trans (if_pos hc)

theorem onSetup_refused (h : ¬ (((getG s a.gid).st = .setup ∨ (getG s a.gid).st = .active) ∧ (getG s a.gid).attr = a))
    (hc : setupCode s a ≠ 0) :
    onSetup a p s = toEndpoint a p.bth.srcEp { typ := 11, sub := 7, arg := setupCode s a } s :=
  (if_neg h).trans (if_neg hc)
end

section
variable {gid : Nat}

theorem onActivate_reserved (h : (getG s gid).st = .setup ∨ (getG s gid).st = .active) : onActivate gid p s =
    toEndpoint (getG s gid).attr p.bth.srcEp { typ := 11, sub := 9 } (modG gid (fun g => { g with st := .active }) s) :=
  if_pos h

theorem onActivate_other (hs : (getG s gid).st ≠ .setup) (ha : (getG s gid).st ≠ .active) : onActivate gid p s = s :=
  if_neg (not_or_intro hs ha)
end
end

/-- Settles O38: by the packet's kind, and whether a creating command waits for an answer. -/
theorem groupPacketsSetUpAndRelease : Obligations.GroupPacketsSetUpAndRelease := by
  refine ⟨fun p s hw hf hk hr => ⟨fun hm => ?_, fun hm => ?_⟩,
    fun a p s hw hf hk hg hr => ⟨fun ha => ?_, fun ha hc => ?_, fun ha hc => ?_⟩,
    fun c p s hw hf hc => ⟨fun hk => ?_, fun hk => ?_, fun hk => ?_⟩, fun p c s hc hw hf hn hr => ?_,
    fun gid p s h hk => ⟨fun hg => ?_, fun hs ha => ?_⟩, fun gid p s h hk => collPkt_toGroup h hk⟩
  · exact (gone_taken hw hf hk hr).trans (congrArg _ (if_pos (of_decide_eq_true hm)))
  · exact (gone_taken hw hf hk hr).trans (congrArg _ (if_neg (of_decide_eq_false hm)))
  · exact (setup_taken hw hf hk hg hr).trans (congrArg _ (onSetup_again (of_decide_eq_true ha)))
  · exact (setup_taken hw hf hk hg hr).trans (congrArg _ (onSetup_reserves (of_decide_eq_false ha) hc))
  · exact (setup_taken hw hf hk hg hr).trans (congrArg _ (onSetup_refused (of_decide_eq_false ha) hc))
  · exact (arrival_whole hw hf hk).trans (congrArg _ (onAnswer_waited hc))
  · exact (arrival_whole hw hf hk).trans (congrArg _ (onAnswer_waited hc))
  · exact (arrival_whole hw hf hk).trans (congrArg _ (onAnswer_waited hc))
  · obtain ⟨go, hx⟩ := exec_answer hc hw hf
    exact hx.trans (congrArg _ (onAnswer_unawaited hn hr))
  · exact (collPkt_toGroup h hk).trans (congrArg _ (onActivate_reserved hg))
  · exact (collPkt_toGroup h hk).trans (congrArg _ (onActivate_other hs ha))

end Sys2Proof.Machine
end

section
namespace Sys2Proof.Machine

/-! ### Timers of collectives and the Prism clusters (R173 to R177, R205, R206, R394, R424) -/

/-- A guarded effect, with the guard as a proposition. -/
theorem when_iff {c : Bool} {P : Prop} [Decidable P] (h : c = true ↔ P) (g : State → State) (s : State) :
    when c g s = if P then g s else s := if_congr h rfl rfl

section
variable {gid c k : Nat} {r : Coll} {s : State}

theorem confResend_running (hr : running s = true) (hg : getRun s gid = some r) : exec (.confResend gid) s =
    .next (if r.commit < r.conf ∧ elapsed s r.tConf (rqInterval s) = true then sendConf gid s else s) := by
  refine (live_running hr).trans (congrArg _ ?_)
  rw [hg]
  exact when_iff (by simp) _ s

theorem chunkResendRequest_open (hr : running s = true) (hg : getRun s gid = some r) (hd : r.data = true)
    (hc : c ∈ openChunks r) : exec (.chunkResendRequest gid c) s =
    .next (if elapsed s (getCh r c).progress (rqInterval s) then askChunk gid c (owing s (getG s gid) r c) s else s) := by
  refine (live_running hr).trans (congrArg _ ?_)
  rw [hg]
  exact (if_neg (by rw [hd]; decide)).trans (when_iff (by simp [hc]) _ s)

theorem chunkResendRequest_counts (hr : running s = true) (hg : getRun s gid = some r) (hd : r.data = false) :
    exec (.chunkResendRequest gid 0) s =
      .next (if elapsed s r.tCommit (rqInterval s) then askCounts gid s else s) := by
  refine (live_running hr).trans (congrArg _ ?_)
  rw [hg]
  exact (if_pos (by rw [hd]; rfl)).trans (when_iff (by simp) _ s)

theorem collHoldLimit_root (hr : running s = true) (hg : (getG s gid).run = some r)
    (hroot : isRoot s (getG s gid).attr = true) : exec (.collHoldLimit gid) s =
    .next (if r.heldBy = [] ∧ elapsed s r.tCommit (ms (2 ^ (getG s gid).attr.holdExp)) = true then
      breakGroup gid 3 (sendAbort gid r.csn 3 (ownLow s (getG s gid).attr) s) else s) := by
  refine (live_running hr).trans (congrArg _ ?_)
  dsimp only
  rw [hg]
  exact (if_pos hroot).trans (when_iff (by simp) _ s)

theorem collHoldLimit_member (hr : running s = true) (hg : (getG s gid).run = some r)
    (hroot : isRoot s (getG s gid).attr = false) : exec (.collHoldLimit gid) s =
    .next (if elapsed s r.tCommit (2 * ms (2 ^ (getG s gid).attr.holdExp)) then breakGroup gid 3 s else s) := by
  refine (live_running hr).trans (congrArg _ ?_)
  dsimp only
  rw [hg]
  exact if_neg (ne_true_of_eq_false hroot)

/-- A cluster has finished its work for a chunk: the work counts, or an injected residue error strikes (R174, R394). -/
theorem chunkDone_held (hg : getRun s gid = some r) (hk : (getCh r c).cluster = some k) : chunkDone gid c s =
    if (0x10, k) ∈ s.err.injections then
      residue k 0 0 false true { s with err := { s.err with injections := s.err.injections.erase (0x10, k) } }
    else runGroup gid (modCh gid c (fun x => { x with cluster := none }) (clusterWork gid c k s)) := by
  simp only [chunkDone, hg, hk, List.contains_iff_mem]
end

section
variable {k lane slice : Nat} {other forced : Bool} {s : State}

theorem residue_idle (h : struckChunk s k = none) : residue k lane slice other forced s = s := by
  simp only [residue, h]

/-- A residue error that strikes chunk `x` counts and logs; the cluster is fenced above its limit, and else the chunk is
computed again (R205). -/
theorem residue_struck {x : Nat × Nat} (h : struckChunk s k = some x) : residue k lane slice other forced s =
    (let v := countRun k x { s with free := s.free + 1 }
     let n := aget 0 k s.prism.winCnt + 1
     let t := collect 0x10 clsUC k forced (BitVec.ofNat 64 (x.1 + x.2 * 2 ^ 32)) (lane + slice * 2 ^ 5) 2
       (some (chargeFacet v (getG v x.1).attr)) { v with prism := { v.prism with
         resCnt := amod 0 k (fun c => c + 1) v.prism.resCnt, winCnt := aset k n v.prism.winCnt
         log := resLog k lane slice other x, logAt := some v.now } }
     if regf t 0xD404 7 0 < n then fencePrism k true forced t else runGroup x.1 (recomputeChunk k t x)) := by
  unfold residue
  rw [h]
  rfl
end

/-- Settles O39: by each timer's interval, and what strikes a cluster. -/
theorem collectiveTimersAndPrismClustersAct : Obligations.CollectiveTimersAndPrismClustersAct := by
  refine ⟨fun gid r s => confResend_running, fun gid c r s => chunkResendRequest_open,
    fun gid r s => chunkResendRequest_counts, fun gid r s => collHoldLimit_root, fun gid r s => collHoldLimit_member,
    fun gid c k r s hr hg hk => ⟨fun hi => ?_, fun hi => ?_⟩, fun k lane slice other x s hr hs => ⟨fun hn => ?_, fun hn => ?_⟩,
    fun k lane slice other s hs => ?_, fun s ha => ?_, fun s hr hp => ?_⟩
  · exact (live_running hr).trans (congrArg _ ((chunkDone_held hg hk).trans (if_neg hi)))
  · exact (live_running hr).trans (congrArg _ ((chunkDone_held hg hk).trans (if_pos hi)))
  · exact (live_running hr).trans (congrArg _ ((residue_struck hs).trans (if_neg (not_lt.2 hn))))
  · exact (live_running hr).trans (congrArg _ ((residue_struck hs).trans (if_pos hn)))
  · exact live_idle (residue_idle hs)
  · exact congrArg _ (when_iff (by simp [ha]) _ s)
  · exact (live_running hr).trans (congrArg _ (if_pos hp))

end Sys2Proof.Machine
end

section
namespace Sys2Proof.Machine

/-! ### Anchored sums in any order and grouping (R196, R198)

Both combinations of words, addition modulo 2^f and the union of flags, are associative and commutative, and the word 0
leaves a combined word as it is. -/

theorem addWords_assoc (f anc a b c : Nat) :
    addWords f anc (addWords f anc a b) c = addWords f anc a (addWords f anc b c) := by
  by_cases h : anc = 255
  · simp only [addWords, if_pos h, Nat.lor_assoc]
  · simp only [addWords, if_neg h, Nat.mod_add_mod, Nat.add_mod_mod, Nat.add_assoc]

theorem addWords_comm (f anc a b : Nat) : addWords f anc a b = addWords f anc b a := by
  simp only [addWords, Nat.lor_comm a b, Nat.add_comm a b]

theorem addWords_zero_zero (f anc : Nat) : addWords f anc 0 0 = 0 := by
  simp [addWords]

/-- Further words combined onto a word: the word combined with their own combination. -/
theorem foldl_addWords (f anc a b : Nat) (ws : List Nat) :
    ws.foldl (addWords f anc) (addWords f anc a b) = addWords f anc a (ws.foldl (addWords f anc) b) :=
  have : Std.Associative (addWords f anc) := ⟨addWords_assoc f anc⟩
  List.foldl_assoc

/-- A word alone may exceed its f bits, but a combined one is within them, so that adding 0 leaves it as it is. -/
theorem foldl_addWords_add_zero (f anc : Nat) (ws : List Nat) :
    addWords f anc (ws.foldl (addWords f anc) 0) 0 = ws.foldl (addWords f anc) 0 := by
  rw [addWords_comm, ← foldl_addWords, addWords_zero_zero]

/-- Two groups of words, each combined by itself, combine to what all of them combine to (R198). -/
theorem foldl_addWords_append (f anc : Nat) (us ws : List Nat) : (us ++ ws).foldl (addWords f anc) 0 =
    addWords f anc (us.foldl (addWords f anc) 0) (ws.foldl (addWords f anc) 0) := by
  rw [List.foldl_append, ← foldl_addWords, foldl_addWords_add_zero]

theorem foldl_addWords_perm {us ws : List Nat} (f anc : Nat) (p : us.Perm ws) :
    us.foldl (addWords f anc) 0 = ws.foldl (addWords f anc) 0 :=
  have : Std.Associative (addWords f anc) := ⟨addWords_assoc f anc⟩
  have : Std.Commutative (addWords f anc) := ⟨addWords_comm f anc⟩
  p.foldl_eq 0

/-- The anchor is a maximum and the word a combination of words, and neither depends on the order (R196). -/
theorem anchoredSum_perm {l m : List Val} (f h : Nat) (p : l.Perm m) : anchoredSum f h l = anchoredSum f h m := by
  have anchors : (l.map anchorByte).foldl max 0 = (m.map anchorByte).foldl max 0 := (p.map _).foldl_eq 0
  simp only [anchoredSum, anchors, foldl_addWords_perm f _ (p.map _)]

/-- Settles O19: words combine associatively and commutatively, and anchors by their maximum. -/
theorem anchoredSumsDoNotDependOnTheOrder : Obligations.AnchoredSumsDoNotDependOnTheOrder := by
  refine ⟨fun f h l m p => anchoredSum_perm f h p, fun f h anc l m => ?_⟩
  dsimp only
  rw [List.map_append, foldl_addWords_append]

end Sys2Proof.Machine
end

section
namespace Sys2Proof.Machine

/-! ### Integer, logic and shift lanes (R220, R221, R223)

A lane is a natural number in the model; read as `BitVec 32` its operations are the word's own, `sint32` and `pat32`
being the two directions between a pattern and its INT32 value. -/

@[simp] theorem sint32_toNat (a : BitVec 32) : sint32 a.toNat = a.toInt := by
  have := a.isLt
  simp only [sint32, BitVec.toInt_eq_toNat_cond]
  split <;> split <;> omega

theorem pat32_eq_toNat_ofInt (n : Int) : pat32 n = (BitVec.ofInt 32 n).toNat :=
  (BitVec.toNat_ofInt n).symm

/-- The pattern of a value that an INT32 holds reads back as the value. -/
theorem toInt_ofNat_pat32 {n : Int} (lo : -2 ^ 31 ≤ n) (hi : n < 2 ^ 31) : (BitVec.ofNat 32 (pat32 n)).toInt = n := by
  rw [pat32_eq_toNat_ofInt, BitVec.ofNat_toNat, BitVec.setWidth_eq]
  exact BitVec.toInt_ofInt_eq_self (by decide) lo hi

theorem intResult_wraps (n : Int) : intResult false n = (BitVec.ofInt 32 n).toNat :=
  pat32_eq_toNat_ofInt n

theorem toInt_intResult_saturates (n : Int) :
    (BitVec.ofNat 32 (intResult true n)).toInt = max (-2 ^ 31) (min (2 ^ 31 - 1) n) :=
  toInt_ofNat_pat32 (le_max_left ..) (max_lt (by decide) (min_lt_of_left_lt (by decide)))

/-- An arithmetic shift right is the floor of the INT32 value's quotient, which an INT32 holds. -/
theorem pat32_toInt_div_two_pow (a : BitVec 32) (k : Nat) : pat32 (a.toInt / 2 ^ k) = (a.sshiftRight k).toNat := by
  rw [pat32_eq_toNat_ofInt, BitVec.sshiftRight_eq, Int.shiftRight_eq_div_pow, Nat.cast_pow, Nat.cast_ofNat]

section
variable {w : U64} (a b : BitVec 32) (c : Nat)

theorem laneOp_iadd (op : insOp w = 0x30) :
    laneOp w a.toNat b.toNat c = intResult (insSat w) (a.toInt + b.toInt) := by
  simp only [laneOp, op, sint32_toNat]

theorem laneOp_isub (op : insOp w = 0x31) :
    laneOp w a.toNat b.toNat c = intResult (insSat w) (a.toInt - b.toInt) := by
  simp only [laneOp, op, sint32_toNat]

theorem laneOp_imul (op : insOp w = 0x32) :
    laneOp w a.toNat b.toNat c = intResult (insSat w) (a.toInt * b.toInt) := by
  simp only [laneOp, op, sint32_toNat]

/-- Without SAT the three exact results are reduced modulo 2^32, which is the word's own arithmetic. -/
theorem laneOp_arith_wraps (sat : insSat w = false) :
    (insOp w = 0x30 → laneOp w a.toNat b.toNat c = (a + b).toNat) ∧
    (insOp w = 0x31 → laneOp w a.toNat b.toNat c = (a - b).toNat) ∧
    (insOp w = 0x32 → laneOp w a.toNat b.toNat c = (a * b).toNat) := by
  refine ⟨fun op => ?iadd, fun op => ?isub, fun op => ?imul⟩
  case iadd => rw [laneOp_iadd a b c op, sat, intResult_wraps, BitVec.ofInt_add, BitVec.ofInt_toInt, BitVec.ofInt_toInt]
  case isub =>
    rw [laneOp_isub a b c op, sat, intResult_wraps, Int.sub_eq_add_neg, BitVec.ofInt_add, BitVec.ofInt_neg,
      BitVec.ofInt_toInt, BitVec.ofInt_toInt, BitVec.sub_eq_add_neg]
  case imul => rw [laneOp_imul a b c op, sat, intResult_wraps, BitVec.ofInt_mul, BitVec.ofInt_toInt, BitVec.ofInt_toInt]

theorem laneOp_arith_saturates (sat : insSat w = true) :
    (insOp w = 0x30 → (BitVec.ofNat 32 (laneOp w a.toNat b.toNat c)).toInt =
      max (-2 ^ 31) (min (2 ^ 31 - 1) (a.toInt + b.toInt))) ∧
    (insOp w = 0x31 → (BitVec.ofNat 32 (laneOp w a.toNat b.toNat c)).toInt =
      max (-2 ^ 31) (min (2 ^ 31 - 1) (a.toInt - b.toInt))) ∧
    (insOp w = 0x32 → (BitVec.ofNat 32 (laneOp w a.toNat b.toNat c)).toInt =
      max (-2 ^ 31) (min (2 ^ 31 - 1) (a.toInt * b.toInt))) := by
  refine ⟨fun op => ?iadd, fun op => ?isub, fun op => ?imul⟩
  case iadd => rw [laneOp_iadd a b c op, sat, toInt_intResult_saturates]
  case isub => rw [laneOp_isub a b c op, sat, toInt_intResult_saturates]
  case imul => rw [laneOp_imul a b c op, sat, toInt_intResult_saturates]

theorem toInt_laneOp_imax (op : insOp w = 0x33) :
    (BitVec.ofNat 32 (laneOp w a.toNat b.toNat c)).toInt = max a.toInt b.toInt := by
  simp only [laneOp, op, sint32_toNat]
  split
  case isTrue h => rw [BitVec.ofNat_toNat, BitVec.setWidth_eq, max_eq_right h.le]
  case isFalse h => rw [BitVec.ofNat_toNat, BitVec.setWidth_eq, max_eq_left (not_lt.mp h)]

theorem toInt_laneOp_imin (op : insOp w = 0x34) :
    (BitVec.ofNat 32 (laneOp w a.toNat b.toNat c)).toInt = min a.toInt b.toInt := by
  simp only [laneOp, op, sint32_toNat]
  split
  case isTrue h => rw [BitVec.ofNat_toNat, BitVec.setWidth_eq, min_eq_right h.le]
  case isFalse h => rw [BitVec.ofNat_toNat, BitVec.setWidth_eq, min_eq_left (not_lt.mp h)]

theorem laneOp_i2f (op : insOp w = 0x23) :
    laneOp w a.toNat b.toNat c = encodeF fp32 (insRz w) false (ofInt a.toInt) := by
  simp only [laneOp, op, sint32_toNat]

theorem laneOp_icmp (op : insOp w = 0x41) :
    laneOp w a.toNat b.toNat c = if icond (insVc w) a.toNat b.toNat then 0xFFFFFFFF else 0 := by
  simp only [laneOp, op, mask32]

/-- The conditions 0 to 5 of ICMP compare INT32 values (R223). -/
theorem laneOp_icmp_signed (op : insOp w = 0x41) :
    (insVc w = 0 → laneOp w a.toNat b.toNat c = if a = b then 0xFFFFFFFF else 0) ∧
    (insVc w = 1 → laneOp w a.toNat b.toNat c = if a.slt b then 0xFFFFFFFF else 0) ∧
    (insVc w = 2 → laneOp w a.toNat b.toNat c = if a.sle b then 0xFFFFFFFF else 0) ∧
    (insVc w = 3 → laneOp w a.toNat b.toNat c = if b.slt a then 0xFFFFFFFF else 0) ∧
    (insVc w = 4 → laneOp w a.toNat b.toNat c = if b.sle a then 0xFFFFFFFF else 0) ∧
    (insVc w = 5 → laneOp w a.toNat b.toNat c = if a ≠ b then 0xFFFFFFFF else 0) := by
  rw [laneOp_icmp a b c op]
  refine ⟨fun vc => ?eq, fun vc => ?lt, fun vc => ?le, fun vc => ?gt, fun vc => ?ge, fun vc => ?ne⟩ <;>
    rw [vc]
  case eq => simp only [icond, sint32_toNat, BitVec.toInt_inj, decide_eq_true_eq]
  case ne => simp only [icond, sint32_toNat, ne_eq, BitVec.toInt_inj, decide_eq_true_eq]
  case lt | gt => simp only [icond, sint32_toNat, BitVec.slt_eq_decide]
  case le | ge => simp only [icond, sint32_toNat, BitVec.sle_eq_decide]

theorem laneOp_logic :
    (insOp w = 0x35 → laneOp w a.toNat b.toNat c = (a &&& b).toNat) ∧
    (insOp w = 0x36 → laneOp w a.toNat b.toNat c = (a ||| b).toNat) ∧
    (insOp w = 0x37 → laneOp w a.toNat b.toNat c = (a ^^^ b).toNat) := by
  refine ⟨fun op => ?and, fun op => ?or, fun op => ?xor⟩
  case and => simp only [laneOp, op, BitVec.toNat_and]
  case or => simp only [laneOp, op, BitVec.toNat_or]
  case xor => simp only [laneOp, op, BitVec.toNat_xor]

/-- The count of a shift is bits [4:0] of operand B. -/
theorem laneOp_shift :
    (insOp w = 0x38 → laneOp w a.toNat b.toNat c = (a <<< (b.toNat % 32)).toNat) ∧
    (insOp w = 0x39 → laneOp w a.toNat b.toNat c = (a >>> (b.toNat % 32)).toNat) ∧
    (insOp w = 0x3A → laneOp w a.toNat b.toNat c = (a.sshiftRight (b.toNat % 32)).toNat) := by
  refine ⟨fun op => ?shl, fun op => ?shr, fun op => ?sra⟩
  case shl => simp only [laneOp, op, BitVec.toNat_shiftLeft, Nat.shiftLeft_eq]
  case shr => simp only [laneOp, op, BitVec.toNat_ushiftRight, Nat.shiftRight_eq_div_pow]
  case sra => simp only [laneOp, op, sint32_toNat, pat32_toInt_div_two_pow]

end

/-- Settles O18: each instruction's lane is the 32-bit word's own operation, or its exact result saturated. -/
theorem integerLanesWrapAndSaturate : Obligations.IntegerLanesWrapAndSaturate := by
  intro w a b c
  obtain ⟨and, or, xor⟩ := laneOp_logic (w := w) a b c
  exact ⟨laneOp_arith_wraps a b c, laneOp_arith_saturates a b c, toInt_laneOp_imax a b c, toInt_laneOp_imin a b c,
    laneOp_i2f a b c, laneOp_icmp_signed a b c, and, or, xor, laneOp_shift a b c⟩

end Sys2Proof.Machine
end

section
namespace Sys2Proof.Machine

/-! ### Training of a link (R229, R231, R248 to R250) -/

section
variable {n : Nat} {l : List LState} {g : State → State} {s : State}

theorem fromState_in (h : (getL s n).st ∈ l) : fromState n l g s = g s :=
  if_pos (List.contains_iff_mem.2 h)

theorem fromState_out (h : (getL s n).st ∉ l) : fromState n l g s = s :=
  if_neg (mt List.contains_iff_mem.1 h)

/-- A command of a present link that is in one of the states the command acts in. -/
theorem onLink_in (hf : fabricUp s = true) (hl : hasLink s n = true) (h : (getL s n).st ∈ l) :
    onLink n (fromState n l g) s = .next (resendLost (g s)) := by
  rw [onLink_up hf hl, fromState_in h]

/-- The same for a command that acts in one state alone. -/
theorem onLink_at {a : LState} (hf : fabricUp s = true) (hl : hasLink s n = true) (h : (getL s n).st = a) :
    onLink n (fromState n [a] g) s = .next (resendLost (g s)) := onLink_in hf hl (List.mem_singleton.2 h)

theorem linkDown_active (h : (getL s n).st = .active) : linkDown n s =
    svlDownEvent n false (linkLeave n .retrain (modL n (fun l => { l with down := l.down + 1 }) s)) :=
  if_neg (not_not_intro h)

theorem linkDown_other (h : (getL s n).st ≠ .active) : linkDown n s = s := if_pos h

theorem linkDown_fromState (n : Nat) : linkDown n = fromState n [.active] (linkDown n) := by
  funext s
  by_cases h : (getL s n).st = .active
  · exact (fromState_in (List.mem_singleton.2 h)).symm
  · exact (linkDown_other h).trans (fromState_out (mt List.mem_singleton.1 h)).symm

/-- Each command of the training acts in its own states only. -/
theorem exec_training {c : Instr} (h : (c, l) ∈ ([(.signalDetect n, [.detect]), (.detectProbe n, [.detect]),
    (.equalizationDone n, [.train]), (.trainTimeout n, [.train]), (.lockAndDeskew n, [.align, .retrain]),
    (.alignTimeout n, [.align, .retrain]), (.exchangeTimeout n, [.exchange]), (.lossOfLock n, [.active]),
    (.svlLnkCtrlRetrain n, [.active]), (.miswireHoldEnd n, [.miswired])] : List (Instr × List LState))) :
    ∃ g, ∀ s, exec c s = onLink n (fromState n l g) s := by
  simp only [List.mem_cons, List.not_mem_nil, or_false, Prod.mk.injEq] at h
  rcases h with ⟨rfl, rfl⟩ | ⟨rfl, rfl⟩ | ⟨rfl, rfl⟩ | ⟨rfl, rfl⟩ | ⟨rfl, rfl⟩ | ⟨rfl, rfl⟩ | ⟨rfl, rfl⟩ |
    ⟨rfl, rfl⟩ | ⟨rfl, rfl⟩ | ⟨rfl, rfl⟩
  iterate 7 exact ⟨_, fun s => rfl⟩
  iterate 2 exact ⟨linkDown n, fun s => congrArg (onLink n · s) (linkDown_fromState n)⟩
  exact ⟨_, fun s => rfl⟩

section
variable {lw : BitVec 40}

/-- A far word in EXCHANGE is noted, and then its checks and the far LSTATE say where the link goes (R248, R249). -/
theorem farWord_exchange (h : (getL s n).st = .exchange) : farWord n lw s =
    (let t := modL n (fun l => { l with far := BitVec.ofNat 32 (fld lw 35 6 + 2 ^ 30), lwAt := s.now }) s
     if !farPasses t n lw then collect 0x16 clsUC n false 0 0 0 none
       (linkTo n .miswired { t with fab := { t.fab with miswire := t.fab.miswire ||| BitVec.ofNat 24 (2 ^ n) } })
     else if fld lw 3 0 = 4 ∨ fld lw 3 0 = 5 then activate n (decide (fld lw 3 0 = 5)) t
     else t) := by
  simp only [farWord, h]

theorem farWord_active (h : (getL s n).st = .active) : farWord n lw s =
    if fld lw 3 0 = 5 then modL n (fun l => { l with farUp := true }) s
    else if (getL s n).farUp ∨ fld lw 3 0 ≠ 4 then linkDown n s
    else s := by
  simp only [farWord, h]

theorem farWord_other (he : (getL s n).st ≠ .exchange) (ha : (getL s n).st ≠ .active) : farWord n lw s = s := by
  unfold farWord
  split
  · contradiction
  · contradiction
  · rfl

theorem farLinkWord_up (hf : fabricUp s = true) (hl : hasLink s n = true) :
    exec (.farLinkWord n lw) s = .next (resendLost (farWord n lw s)) := onLink_up hf hl
end
end

/-- Settles O40: by the states that each command acts in, and what a far word shows. -/
theorem linkTrainingMovesThroughItsStates : Obligations.LinkTrainingMovesThroughItsStates := by
  refine ⟨fun n s hf hl => ⟨onLink_at hf hl, onLink_at hf hl, onLink_at hf hl, onLink_at hf hl,
      fun h => onLink_in hf hl (List.mem_pair.2 h), fun h => onLink_in hf hl (List.mem_pair.2 h),
      onLink_at hf hl, onLink_at hf hl⟩,
    fun n s c hc hf hl ha => ?_, fun n s c l hc hf hl ho => ?_,
    fun n lw s hf hl he => ⟨fun hp => ?_, fun hp h45 => ?_, fun hp h4 h5 => ?_⟩,
    fun n lw s hf hl ha => ⟨fun h5 => ?_, fun h5 => ?_⟩, fun n lw s hf hl he ha => ?_⟩
  · rw [← linkDown_active ha]
    rcases List.mem_pair.1 hc with rfl | rfl
    · exact onLink_up hf hl
    · exact onLink_up hf hl
  · obtain ⟨g, hx⟩ := exec_training hc
    rw [hx, onLink_up hf hl, fromState_out ho]
  · rw [farLinkWord_up hf hl, farWord_exchange he]
    exact congrArg _ (congrArg _ (if_pos (by rw [hp]; rfl)))
  · rw [farLinkWord_up hf hl, farWord_exchange he]
    exact congrArg _ (congrArg _ ((if_neg (by rw [hp]; decide)).trans (if_pos h45)))
  · rw [farLinkWord_up hf hl, farWord_exchange he]
    exact congrArg _ (congrArg _ ((if_neg (by rw [hp]; decide)).trans (if_neg (not_or_intro h4 h5))))
  · rw [farLinkWord_up hf hl, farWord_active ha, if_pos h5]
  · rw [farLinkWord_up hf hl, farWord_active ha, if_neg h5]
  · rw [farLinkWord_up hf hl, farWord_other he ha]

end Sys2Proof.Machine
end

section
namespace Sys2Proof.Machine

/-! ### Sleep, flits and replay (R231, R232, R245, R247, R248, R394, R426, R427) -/

theorem linkLive_iff {s : State} {n : Nat} :
    linkLive s n = true ↔ hasLink s n = true ∧ (getL s n).st = .active := by
  simp [linkLive]

section
variable {n : Nat} {s : State}

/-- Nothing is queued toward the link on any VC, as the request to sleep asks it (R427). -/
theorem nothingQueued_iff (l : Link) :
    (decide (l.tx.q.pkts = []) && (List.range 8).all (fun v => decide (aget [] v l.tx.ready = []))) = true ↔
      l.tx.q.pkts = [] ∧ ∀ v, v < 8 → aget [] v l.tx.ready = [] := by
  simp

/-- A wake, sent or received, reaches a link that sleeps (R248). -/
theorem lpreqWake_sleep {sent : Bool} (hf : fabricUp s = true) (hl : hasLink s n = true) (h : (getL s n).st = .sleep) :
    exec (.lpreqWake n sent) s = .next (resendLost (if sent then wakeLink n s else linkTo n .align s)) :=
  onLink_at hf hl h

theorem wakeLink_sleep (h : (getL s n).st = .sleep) : wakeLink n s =
    emit (linkWord s 3 3 n) (modL n (fun l => { l with st := .align, since := s.now }) s) := if_pos h

theorem flit_live {unc corr : Nat} {x : BitVec 96} {fc : U32} {bs : Bytes} (hf : fabricUp s = true)
    (hl : linkLive s n = true) :
    exec (.flit n unc corr x fc bs) s = .next (resendLost (onFlit n unc corr (fc ++ x) bs s)) :=
  (onLink_up hf (linkLive_iff.1 hl).1).trans (congrArg _ (congrArg _ (if_pos hl)))

section
variable {unc corr : Nat} {ctrl : BitVec 128} {bs : Bytes}

theorem onFlit_clean (h : (0x14, n) ∉ s.err.injections) :
    onFlit n unc corr ctrl bs s = recvFlit n unc corr false ctrl bs s :=
  if_neg (mt List.contains_iff_mem.1 h)

/-- An injected uncorrectable codeword strikes one flit (R394). -/
theorem onFlit_struck (h : (0x14, n) ∈ s.err.injections) : onFlit n unc corr ctrl bs s =
    recvFlit n (max 1 unc) corr true ctrl bs { s with
      err := { s.err with injections := s.err.injections.erase (0x14, n) } } :=
  if_pos (List.contains_iff_mem.2 h)
end

section
variable {f : TxFlit} {r : List TxFlit}

/-- The replay timer of a live link that owes an acknowledgement, once its interval has passed (R245). -/
theorem replayTimer_due (hf : fabricUp s = true) (hl : linkLive s n = true) (hr : hopRetry s = true)
    (hu : (getL s n).tx.unacked = f :: r) (ht : elapsed s (getL s n).tx.timer (64 * 2 ^ regf s 0xE008 13 10) = true) :
    exec (.replayTimer n) s = .next (resendLost (replay n s)) :=
  (onLink_up hf (linkLive_iff.1 hl).1).trans (congrArg _ (congrArg _ (if_pos (by simp [hl, hr, hu, ht]))))

/-- Unacknowledged flits are replayed, up to REPLAY_LIM times without progress (R245). -/
theorem replay_unacked (hu : (getL s n).tx.unacked = f :: r) : replay n s =
    if max 1 (regf s 0xE008 17 14) ≤ (getL s n).tx.replays then linkDown n s
    else replayFlits n true (f :: r) (modL n (fun l => { l with
      replay := l.replay + 1
      tx := { l.tx with
        replays := l.tx.replays + 1, replayFrom := some f.fseq, timer := s.now } }) s) := by
  simp only [replay, hu]
end
end

/-- Settles O41: by the link's state, what is queued, what is injected, and how often flits were replayed. -/
theorem linksSleepCarryFlitsAndReplay : Obligations.LinksSleepCarryFlitsAndReplay := by
  refine ⟨fun n s hf hl ha => ⟨fun hq => ?_, fun hq => ?_⟩, fun n s hf hl ha => ?_, fun n s hf hl hs => ⟨?_, ?_⟩,
    fun n unc corr x fc bs s hf hl => ⟨fun hi => ?_, fun hi => ?_⟩,
    fun n f r s hf hl hr hu ht => ⟨fun hn => ?_, fun hn => ?_⟩, fun n s hf hl => onLink_up hf hl⟩
  · exact (onLink_at hf hl ha).trans (congrArg _ (congrArg _ (if_pos ((nothingQueued_iff _).2 hq))))
  · exact (onLink_at hf hl ha).trans (congrArg _ (congrArg _ (if_neg (mt (nothingQueued_iff _).1 hq))))
  · exact onLink_at hf hl ha
  · rw [lpreqWake_sleep hf hl hs, if_pos rfl, wakeLink_sleep hs]
  · exact lpreqWake_sleep hf hl hs
  · rw [flit_live hf hl, onFlit_clean hi]
  · rw [flit_live hf hl, onFlit_struck hi]
  · rw [replayTimer_due hf hl hr hu ht, replay_unacked hu, if_neg (not_le.2 hn)]
  · rw [replayTimer_due hf hl hr hu ht, replay_unacked hu, if_pos hn]

end Sys2Proof.Machine
end

section
namespace Sys2Proof.Machine

/-! ### RING and NOROUTE notices and the gateway shun (R252, R255) -/

section
variable {m : Notice} {s : State}

theorem ring_up (hf : fabricUp s = true) : exec (.ring m) s = .next (takeRing m s) := congrArg _ (if_pos hf)
theorem ringRefresh_up (hf : fabricUp s = true) : exec .ringRefresh s = .next (refreshRings s) := congrArg _ (if_pos hf)
theorem noroute_up (hf : fabricUp s = true) : exec (.noroute m) s = .next (takeNoroute m s) := congrArg _ (if_pos hf)

theorem takeRing_foreign
    (h : fld m.w0 3 0 ≠ 2 ∨ 3 ≤ fld m.w0 5 4 ∨ ringSize s (fld m.w0 5 4) ≤ fld m.w0 9 6) : takeRing m s = s := if_pos h

/-- After 1 ms every dimension of more than one adapter is told (R252). -/
theorem refreshRings_due (h : elapsed s s.fab.refreshAt (ms 1) = true) : refreshRings s =
    ([0, 1, 2].filter (fun d => decide (2 ≤ ringSize s d))).foldl originate
      { s with fab := { s.fab with refreshAt := s.now } } := by
  simp only [refreshRings, h, Bool.true_or, Bool.and_true, if_true]

/-- Before that only a dimension whose own hops have changed is (R252). -/
theorem refreshRings_early (h : elapsed s s.fab.refreshAt (ms 1) = false) : refreshRings s =
    ([0, 1, 2].filter (fun d => decide (2 ≤ ringSize s d) &&
      decide (aget (false, false) d s.fab.told ≠ ownHops s d))).foldl originate s := by
  simp only [refreshRings, h, Bool.false_or, Bool.false_eq_true, if_false]

theorem takeNoroute_foreign (h : fld m.w0 3 0 ≠ 1) : takeNoroute m s = s := if_pos h

/-- A NOROUTE shuns its gateway where the pod's table lets GW1 stand in for it (R255). -/
theorem takeNoroute_own (h : fld m.w0 3 0 = 1) : takeNoroute m s =
    (let pod := podOf (cut 24 m.w1 13)
     let e := reg s (0xE200 + 8 * pod)
     if bit m.w1 12 ∧ bit e 25 ∧ bit e 24 ∧ fld e 11 0 = fld m.w1 11 0 then
       { s with fab := { s.fab with shun := aset pod s.now s.fab.shun } }
     else unreachable (cut 24 m.w1 13) s) :=
  (if_neg (not_not_intro h)).trans (if_congr (by simp [and_assoc]) rfl rfl)

theorem gwShunExpiry_shunned {pod : Nat} {t : U64} (h : agetq pod s.fab.shun = some t) :
    exec (.gwShunExpiry pod) s = .next (if elapsed s t (ms 100) then
      { s with fab := { s.fab with shun := adel pod s.fab.shun } } else s) := by
  refine congrArg Host.Outcome.next ?_
  rw [h]
  rfl
end

/-- Settles O42: by the notice's kind, dimension and coordinate, and by each interval. -/
theorem fabricNoticesAct : Obligations.FabricNoticesAct := by
  refine ⟨fun m s hf => ⟨fun hk hd hc => ?_, fun h => ?_⟩, fun s hf => ⟨fun h => ?_, fun h => ?_⟩,
    fun m s hf => ⟨fun h => ?_, fun h hn => ?_, fun h hs => ?_⟩, fun pod t s => gwShunExpiry_shunned⟩
  · exact (ring_up hf).trans (congrArg _ (if_neg (by simp [hk, hd, hc])))
  · rw [ring_up hf, takeRing_foreign h]
  · rw [ringRefresh_up hf, refreshRings_due h]
  · rw [ringRefresh_up hf, refreshRings_early h]
  · rw [noroute_up hf, takeNoroute_foreign h]
  · exact (noroute_up hf).trans (congrArg _ ((takeNoroute_own h).trans (if_neg hn)))
  · exact (noroute_up hf).trans (congrArg _ ((takeNoroute_own h).trans (if_pos hs)))

end Sys2Proof.Machine
end


section
namespace Sys2Proof.Machine

/-! ### The memory's canonical form (R283, R286) -/

section
variable {s t : State}

theorem tick_sound (h : Sound s) : Sound (tick s) := (tick_does_after_count s).wf h

/-- What a command answers has the canonical form where the state before has it. -/
theorem exec_sound {c : Instr} (h : Sound s) (ht : exec c s = .next t) : Sound t := by
  obtain ⟨u, hu, hd⟩ := exec_answers c s
  rw [hu] at ht
  cases ht
  exact hd.wf h
end

/-- Settles O4: an idle cycle and every command keep the form. -/
theorem everyStepKeepsTheMemoryCanonical : Obligations.EveryStepKeepsTheMemoryCanonical := by
  intro s t h ht
  unfold step at ht
  split at ht
  · cases ht
    exact tick_sound h
  · next c rest _ => exact exec_sound (s := { s with pending := rest }) h ht

end Sys2Proof.Machine
end

section
namespace Sys2Proof.Machine

/-! ### Segment commands (R259, R260, R264, R288) -/

section
variable {s : State} {f : Nat}

/-- A segment command acts on a running device whose facet is ON and has none BUSY. -/
theorem segCommand_idle {g : State → State} {t : State} (hr : running s = true) (hi : segIdle s f = true) (ht : g s = t) :
    live (fun s => when (segIdle s f) g s) s = .next t :=
  (live_running hr).trans (congrArg _ ((if_pos hi).trans ht))

theorem segCommand_busy {g : State → State} (hi : segIdle s f = false) :
    live (fun s => when (segIdle s f) g s) s = .next s :=
  live_idle (if_neg (by rw [hi]; decide))

section
variable {n op : Nat} {g : FacetXlt → FacetXlt}

theorem segEffect_quiet (h : segQuiet s f n = true) : segEffect f n op g s =
    settle f (segResult f 0 (dropTiles f n (modF f (fun y => { y with xlt := g y.xlt }) s))) := if_pos h

theorem segEffect_busy (h : segQuiet s f n = false) :
    segEffect f n op g s = modF f (fun y => { y with xlt := { y.xlt with busy := op } }) s := if_neg (by rw [h]; decide)
end

/-- The tiles of the entry that the registers spell fit the facet's allotment (R260). -/
def segFits (s : State) (f : Nat) : Prop :=
  let x := (getF s f).xlt
  tilesUsed s f + segTiles (segOf x) ≤ x.tilesAllot.toNat + segTiles (getSeg s f x.num.toNat)

theorem segWrite_badField (hb : segBad s f (getF s f).xlt = true) : segWrite f s = segResult f cBAD_FIELD s := if_pos hb

theorem segWrite_inUse (hb : segBad s f (getF s f).xlt = false) (hu : segInUse s f (getF s f).xlt.num.toNat = true) :
    segWrite f s = segResult f cIN_USE s :=
  (if_neg (by rw [hb]; decide)).trans (if_pos hu)

theorem segWrite_noResource (hb : segBad s f (getF s f).xlt = false)
    (hu : segInUse s f (getF s f).xlt.num.toNat = false) (hf : ¬ segFits s f) :
    segWrite f s = segResult f cNO_RESOURCE s :=
  (if_neg (by rw [hb]; decide)).trans ((if_neg (by rw [hu]; decide)).trans (if_pos (not_le.1 hf)))

/-- A WRITE that passes its checks replaces the entry. -/
theorem segWrite_effect (hb : segBad s f (getF s f).xlt = false)
    (hu : segInUse s f (getF s f).xlt.num.toNat = false) (hf : segFits s f) :
    segWrite f s = segEffect f (getF s f).xlt.num.toNat 1 (fun y => { y with
      segs := aset (getF s f).xlt.num.toNat (segOf (getF s f).xlt) y.segs }) s :=
  (if_neg (by rw [hb]; decide)).trans ((if_neg (by rw [hu]; decide)).trans (if_neg (not_lt.2 hf)))

theorem segInvalidate_inUse (hu : segInUse s f (getF s f).xlt.num.toNat = true) :
    segInvalidate f s = segResult f cIN_USE s := if_pos hu

/-- An INVALIDATE of a valid entry clears VALID. -/
theorem segInvalidate_valid (hu : segInUse s f (getF s f).xlt.num.toNat = false)
    (hv : (getSeg s f (getF s f).xlt.num.toNat).valid = true) :
    segInvalidate f s = segEffect f (getF s f).xlt.num.toNat 2 (fun y => { y with
      segs := amod {} (getF s f).xlt.num.toNat (fun g => { g with valid := false }) y.segs }) s :=
  (if_neg (by rw [hu]; decide)).trans (if_pos hv)

theorem segInvalidate_invalid (hu : segInUse s f (getF s f).xlt.num.toNat = false)
    (hv : (getSeg s f (getF s f).xlt.num.toNat).valid = false) : segInvalidate f s = segResult f 0 s :=
  (if_neg (by rw [hu]; decide)).trans (if_neg (by rw [hv]; decide))

/-! ATTR, as READ loads it from an entry. -/

/-- A bit of a number cut to a word; that it stands there is arithmetic. -/
theorem bit_ofNat {w x i : Nat} {b : Bool} (h : x % 2 ^ w / 2 ^ i % 2 = b2n b) : bit (BitVec.ofNat w x) i = b := by
  rw [bit, BitVec.toNat_ofNat, Nat.testBit_eq_decide_div_mod_eq, h]
  cases b <;> rfl

/-- ATTR of entry g, whose segment migrates or not. -/
def segAttr (g : Seg) (mig : Bool) : BitVec 10 :=
  BitVec.ofNat 10 (g.target.toNat + b2n g.lrd * 8 + b2n g.lwr * 16 + b2n g.rrd * 32 + b2n g.rwr * 64 +
    b2n g.pin * 128 + b2n g.valid * 256 + b2n mig * 512)

theorem segAttr_fields (g : Seg) (mig : Bool) :
    fld (segAttr g mig) 2 0 = g.target.toNat ∧ bit (segAttr g mig) 3 = g.lrd ∧ bit (segAttr g mig) 4 = g.lwr ∧
      bit (segAttr g mig) 5 = g.rrd ∧ bit (segAttr g mig) 6 = g.rwr ∧ bit (segAttr g mig) 7 = g.pin ∧
      bit (segAttr g mig) 8 = g.valid := by
  obtain ⟨valid, target, base, limit, lrd, lwr, rrd, rwr, pin, key⟩ := g
  have := target.isLt
  have := b2n_lt lrd; have := b2n_lt lwr; have := b2n_lt rrd; have := b2n_lt rwr
  have := b2n_lt pin; have := b2n_lt valid; have := b2n_lt mig
  refine ⟨?_, bit_ofNat ?_, bit_ofNat ?_, bit_ofNat ?_, bit_ofNat ?_, bit_ofNat ?_, bit_ofNat ?_⟩
  · rw [fld, segAttr, BitVec.toNat_ofNat, Nat.shiftRight_eq_div_pow]
    dsimp only
    omega
  all_goals
    dsimp only
    omega

/-- READ loads the registers from the entry and leaves KEY and the entries (R260). -/
theorem getF_segRead : ∃ mig, (getF (segRead f s) f).xlt = { (getF s f).xlt with
    attr := segAttr (getSeg s f (getF s f).xlt.num.toNat) mig
    base := (getSeg s f (getF s f).xlt.num.toNat).base
    limit := (getSeg s f (getF s f).xlt.num.toNat).limit
    result := 0, busy := 0 } := by
  refine ⟨s.xlt.migs.any (fun m => decide (m.facet = f ∧ m.seg = (getF s f).xlt.num.toNat ∧ 1 ≤ m.phase)), ?_⟩
  unfold segRead segResult
  rw [getF_modF, if_pos rfl, getF_modF, if_pos rfl]
  rfl
end

/-- Settles O43: by the checks of each command in their order, and whether the old entry's pieces have finished. -/
theorem segmentCommandsComplete : Obligations.SegmentCommandsComplete := by
  refine ⟨fun f s hr hi => ⟨fun hb => ?_, fun hb hu => ?_, fun hb hu hf => ?_, fun hb hu hf hq => ?_,
      fun hb hu hf hq => ?_, fun hu => ?_, fun hu hv hq => ?_, fun hu hv hq => ?_, fun hu hv => ?_⟩,
    fun f s hr hi => ⟨segRead f s, segCommand_idle hr hi rfl, ?_⟩,
    fun f s hi => ⟨segCommand_busy hi, segCommand_busy hi, segCommand_busy hi⟩⟩
  · exact segCommand_idle hr hi (segWrite_badField hb)
  · exact segCommand_idle hr hi (segWrite_inUse hb hu)
  · exact segCommand_idle hr hi (segWrite_noResource hb hu hf)
  · exact segCommand_idle hr hi ((segWrite_effect hb hu hf).trans (segEffect_quiet hq))
  · exact segCommand_idle hr hi ((segWrite_effect hb hu hf).trans (segEffect_busy hq))
  · exact segCommand_idle hr hi (segInvalidate_inUse hu)
  · exact segCommand_idle hr hi ((segInvalidate_valid hu hv).trans (segEffect_quiet hq))
  · exact segCommand_idle hr hi ((segInvalidate_valid hu hv).trans (segEffect_busy hq))
  · exact segCommand_idle hr hi (segInvalidate_invalid hu hv)
  · obtain ⟨mig, hx⟩ := getF_segRead (s := s) (f := f)
    obtain ⟨htarget, hlrd, hlwr, hrrd, hrwr, hpin, hvalid⟩ := segAttr_fields (getSeg s f (getF s f).xlt.num.toNat) mig
    rw [hx]
    exact ⟨rfl, rfl, rfl, rfl, htarget, hlrd, hlwr, hrrd, hrwr, hpin, hvalid, rfl, rfl⟩

end Sys2Proof.Machine
end

section
namespace Sys2Proof.Machine

/-! ### Misses and the fault queue (R263, R268, R271 to R274, R288) -/

section
variable {s : State}

/-- A command of a register of the management facet alone, on a running device. -/
theorem live_mgmtWrite {g : State → State} {t : State} (hr : running s = true) (ht : g s = t) :
    live (mgmtWrite 0 g) s = .next t := by
  rw [live_running hr, mgmtWrite_zero, ht]

theorem missDone_flying {st : Stream} {m : Miss}
    (h : s.xlt.misses.find? (fun m => decide (m.piece.stream = st) && m.flying) = some m) :
    missDone st s = goOn st (makeResident (tileKey m.piece.facet m.piece.seg (Piece.tile m.piece))
      (grantMiss { s with xlt := { s.xlt with
        misses := s.xlt.misses.filter (fun x => decide (x.piece.stream ≠ st)) } })) := by
  unfold missDone
  rw [h]

/-- The first of the held faults, while it can be raised, is parked, released or raised (R273). -/
theorem reraise_cons {p : Piece} {r : List Piece} (h : s.xlt.heldFaults = p :: r) (hc : canRaise s = true) :
    reraise (p :: r) s =
      (let t := { s with xlt := { s.xlt with heldFaults := r } }
       let x := getTile s p.facet p.seg (Piece.tile p)
       reraise r (if x.migrating then parkOnMig p t else if x.present then goOn p.stream t else raiseFaults p [p] t)) := by
  have herase : s.xlt.heldFaults.erase p = r := by rw [h, List.erase_cons_head]
  rw [reraise, herase]
  dsimp only
  split
  · rfl
  · split
    · rfl
    · rw [hc, Bool.or_true, if_pos rfl]

section
variable {v : U32} {r : FltRec} (hk : agetq (fld v 11 0) s.xlt.recs = some r)
include hk

theorem resumeFault_otherTag (hg : (recGen s (fld v 11 0)).toNat ≠ fld v 30 12) : resumeFault v s = s := by
  unfold resumeFault
  dsimp only
  rw [hk]
  exact if_pos hg

theorem resumeFault_resumes (hg : (recGen s (fld v 11 0)).toNat = fld v 30 12) (hb : bit v 31 = false) :
    resumeFault v s = goOnAll r.waiters (retranslate r.waiters (dropRec (fld v 11 0) s)) := by
  unfold resumeFault
  dsimp only
  rw [hk]
  exact (if_neg (not_not_intro hg)).trans (if_neg (by rw [hb]; decide))

theorem resumeFault_aborts (hg : (recGen s (fld v 11 0)).toNat = fld v 30 12) (hb : bit v 31 = true) :
    resumeFault v s =
      r.waiters.foldl (fun s p => abortPiece p (clearBegun p.stream s)) (dropRec (fld v 11 0) s) := by
  unfold resumeFault
  dsimp only
  rw [hk]
  exact (if_neg (not_not_intro hg)).trans (if_pos hb)
end

theorem resumeFault_closed {v : U32} (hk : agetq (fld v 11 0) s.xlt.recs = none) : resumeFault v s = s := by
  unfold resumeFault
  dsimp only
  rw [hk]
end

/-- Settles O44: by the miss that is fetched, what can be raised, and the record that the tag names. -/
theorem faultQueueCommandsComplete : Obligations.FaultQueueCommandsComplete := by
  refine ⟨fun st m s hr hm => ?_, fun p r s hr hp hc => ?_, fun s hc => ?_,
    fun v r s hr hk => ⟨fun hg hb => ?_, fun hg hb => ?_, fun hg => ?_⟩, fun v s hk => ?_,
    fun v s hr => live_mgmtWrite hr rfl, fun v s hr => live_mgmtWrite hr rfl, fun v s hr => live_mgmtWrite hr rfl,
    fun f v w s hf => ⟨?_, ?_, ?_, ?_⟩⟩
  · exact (live_running hr).trans (congrArg _ (missDone_flying hm))
  · refine (live_running hr).trans (congrArg _ ((if_pos hc).trans ?_))
    rw [hp]
    exact reraise_cons hp hc
  · exact live_idle (if_neg (by rw [hc]; decide))
  · exact live_mgmtWrite hr (resumeFault_resumes hk hg hb)
  · exact live_mgmtWrite hr (resumeFault_aborts hk hg hb)
  · exact live_mgmtWrite_idle (.inr (resumeFault_otherTag hk hg))
  · exact live_mgmtWrite_idle (.inr (resumeFault_closed hk))
  all_goals exact live_mgmtWrite_idle (.inl hf)

end Sys2Proof.Machine
end

section
namespace Sys2Proof.Machine

/-! ### Migration and remapping of tiles (R278 to R281, R286, R307, R313, R387) -/

section
variable {s : State} {m : Mig}

section
variable {f q op : Nat} {isMap : Bool} {i : Item}

/-- The command of a descriptor that starts: queued if it passes its checks (R278). -/
def migStarted (f q : Nat) (isMap : Bool) (i : Item) (t : State) : State :=
  if migBad t (migOf q isMap i) then completeItem f q i.idx (stat cBAD_FIELD) t
  else { t with xlt := { t.xlt with migs := t.xlt.migs ++ [migOf q isMap i] } }

theorem startMig_ready (h : ready s f q op = some i) :
    startMig f q op isMap s = settle f (migStarted f q isMap i (startItem f q i.idx s)) := startWith_ready h

/-- A TILE_MIGRATE or TILE_MAP descriptor that may start. -/
theorem exec_startMig {c : Instr}
    (hc : (c, op, isMap) ∈ ([(.tileMigrate f q, 0x33, false), (.tileMap f q, 0x34, true)] : List (Instr × Nat × Bool)))
    (h : ready s f q op = some i) :
    exec c s = .next (settle f (migStarted f q isMap i (startItem f q i.idx s))) := by
  rcases List.mem_pair.1 hc with hc | hc
  all_goals
    cases hc
    exact (live_running (ready_cases h).1).trans (congrArg _ (startMig_ready h))
end

/-- The command that begins: the one accepted first of those that wait (R279). -/
def nextMig (s : State) : Option Mig := leastBy Mig.seq (s.xlt.migs.filter (fun m => decide (m.phase = 0)))

/-- It has to wait: for one of the same tile, or because eight copies run (R278). -/
def migWaits (s : State) (m : Mig) : Bool :=
  let run := s.xlt.migs.filter (fun x => decide (1 ≤ x.phase))
  run.any (Mig.same m) || decide (8 ≤ (run.filter (fun x => !x.isMap)).length)

/-- The tile is at the place that a migration takes it to. -/
def migThere (s : State) (m : Mig) : Bool :=
  let x := getTile s m.facet m.seg m.tile
  !m.isMap && decide (x.loc = m.loc ∧ x.addr = m.addr)

section
variable (hm : nextMig s = some m)
include hm

theorem beginMig_next : beginMig s =
    if migWaits s m then s
    else if migBad s m then endMig m (stat cBAD_FIELD) s
    else if migThere s m then endMig m stOk s
    else modMig m (fun m => { m with phase := 2 })
      (setTile m.facet m.seg m.tile { getTile s m.facet m.seg m.tile with migrating := true } s) := by
  unfold nextMig at hm
  unfold beginMig
  rw [hm]
  refine if_congr Iff.rfl rfl (if_congr Iff.rfl rfl (if_congr ?_ rfl rfl))
  simp [migThere]

theorem beginMig_waits (hw : migWaits s m = true) : beginMig s = s :=
  (beginMig_next hm).trans (if_pos hw)

section
variable (hw : migWaits s m = false)
include hw

theorem beginMig_bad (hb : migBad s m = true) : beginMig s = endMig m (stat cBAD_FIELD) s := by
  rw [beginMig_next hm, hw, hb]
  rfl

theorem beginMig_there (hb : migBad s m = false) (ht : migThere s m = true) : beginMig s = endMig m stOk s := by
  rw [beginMig_next hm, hw, hb, ht]
  rfl

theorem beginMig_begins (hb : migBad s m = false) (ht : migThere s m = false) : beginMig s =
    modMig m (fun m => { m with phase := 2 })
      (setTile m.facet m.seg m.tile { getTile s m.facet m.seg m.tile with migrating := true } s) := by
  rw [beginMig_next hm, hw, hb, ht]
  rfl
end
end

section
variable {f g t : Nat}

section
variable (hm : migIn s f g t 2 = some m)
include hm

theorem migDrained_undrained (hd : drained s (getTile s f g t) = false) : migDrained f g t s = s := by
  unfold migDrained
  rw [hm]
  exact if_pos (by rw [hd]; rfl)

section
variable (hd : drained s (getTile s f g t) = true)
include hd

theorem migDrained_map (hi : m.isMap = true) : migDrained f g t s = finishMig m s := by
  unfold migDrained
  rw [hm]
  exact (if_neg (by rw [hd]; decide)).trans (if_pos hi)

/-- A migration whose tile is drained takes a channel where one is free and the mover runs (R307, R313). -/
theorem migDrained_copy (hi : m.isMap = false) : migDrained f g t s =
    if s.mov.stopped then s
    else match freeChan s 24 8 with
      | some c => askMigs (modMig m (fun m => { m with phase := 4, ch := c }) s)
      | none => s := by
  unfold migDrained
  rw [hm]
  exact (if_neg (by rw [hd]; decide)).trans (if_neg (by rw [hi]; decide))

theorem migDrained_waits (hi : m.isMap = false) (h : s.mov.stopped = true ∨ freeChan s 24 8 = none) :
    migDrained f g t s = s := by
  rw [migDrained_copy hm hd hi]
  rcases h with h | h
  · exact if_pos h
  · rw [h]
    exact ite_self _

theorem migDrained_asks {c : Nat} (hi : m.isMap = false) (hs : s.mov.stopped = false) (hc : freeChan s 24 8 = some c) :
    migDrained f g t s = askMigs (modMig m (fun m => { m with phase := 4, ch := c }) s) := by
  rw [migDrained_copy hm hd hi, hs, hc]
  rfl
end
end

/-- The read of a copy returns: unharmed, failed, or never asked for (R279, R281). -/
theorem exec_migrationCopyDone {bs : Bytes} (hr : running s = true) (hm : migIn s f g t 4 = some m) :
    exec (.migrationCopyDone f g t bs) s = .next
      (if m.asked then readBack (.moverRead m.ch) (migSource s m) (migCopied m bs) (readsEnd (.mig f g t) s) else s) := by
  refine (live_running hr).trans ?_
  rw [hm]
end

theorem readBack_hurt {k : ReadKind} {l : List (Nat × U64 × Nat)} {go : State → State} {h : Hurt}
    (hl : l.findSome? (hurtAt s k) = some h) : readBack k l go s = failRead k h s := by
  unfold readBack
  rw [hl]

theorem channelBack_unfencing {q ch : Nat} {idx : U32} (hu : s.memc.unfencing = some (q, idx))
    (hf : s.memc.fenced = some ch) : channelBack s =
      settle 0 (completeItem 0 q idx stOk (noteUnfence 0x0C ch
        { s with memc := { s.memc with fenced := none, copying := false, copyRow := 0, unfencing := none } })) := by
  unfold channelBack
  rw [hu, hf]
end

/-- Settles O45: by the checks of each command, and what the migration waits for. -/
theorem tileMigrationsRunToTheirEnd : Obligations.TileMigrationsRunToTheirEnd := by
  refine ⟨fun f q op isMap c hc i s h => ⟨fun hb => ?_, fun hb => ?_⟩,
    fun m s hr hm => ⟨fun hw => ?_, fun hw hb => ?_, fun hw hb ht => ?_, fun hw hb ht => ?_⟩,
    fun f g t m s hr hm => ⟨fun hd => ?_, fun hd hi => ?_, fun hd hi h => ?_, fun c hd hi hs hc => ?_⟩,
    fun f g t bs m s hr hm => ⟨fun ha hn => ?_, fun h ha hh => ?_, fun ha => ?_⟩, fun s hr hc => ?_,
    fun q idx ch s hr hu hf => ?_⟩
  · rw [exec_startMig hc h]
    exact congrArg _ (congrArg _ (if_neg (by rw [hb]; decide)))
  · rw [exec_startMig hc h]
    exact congrArg _ (congrArg _ (if_pos hb))
  · exact (live_running hr).trans (congrArg _ (beginMig_waits hm hw))
  · exact (live_running hr).trans (congrArg _ (beginMig_bad hm hw hb))
  · exact (live_running hr).trans (congrArg _ (beginMig_there hm hw hb ht))
  · exact (live_running hr).trans (congrArg _ (beginMig_begins hm hw hb ht))
  · exact (live_running hr).trans (congrArg _ (migDrained_undrained hm hd))
  · exact (live_running hr).trans (congrArg _ (migDrained_map hm hd hi))
  · exact (live_running hr).trans (congrArg _ (migDrained_waits hm hd hi h))
  · exact (live_running hr).trans (congrArg _ (migDrained_asks hm hd hi hs hc))
  · rw [exec_migrationCopyDone hr hm, if_pos ha, readBack_unharmed hn]
    rfl
  · rw [exec_migrationCopyDone hr hm, if_pos ha, readBack_hurt hh]
  · rw [exec_migrationCopyDone hr hm, if_neg (by rw [ha]; decide)]
  · exact (live_running hr).trans (congrArg _ (if_pos hc))
  · exact (live_running hr).trans (congrArg _ (channelBack_unfencing hu hf))

end Sys2Proof.Machine
end

section
namespace Sys2Proof.Machine

/-! ### The switch, the windows and failed reads (R286, R290 to R299, R418) -/

section
variable {s : State} {b : Nat} {r : ConfigReg} {lo hi : U64}

/-- A configuration write of a bridge that exists. -/
theorem bridgeConfigWrite_present (hb : b ∈ bridgesHere s) :
    exec (.bridgeConfigWrite (.bridge b) r lo hi) s = .next (bridgeWrite b r lo hi s) :=
  congrArg Host.Outcome.next (if_pos (List.contains_iff_mem.2 hb))

theorem bridgeConfigWrite_absent (hb : b ∉ bridgesHere s) :
    exec (.bridgeConfigWrite (.bridge b) r lo hi) s = .next s :=
  congrArg Host.Outcome.next (if_neg (mt List.contains_iff_mem.1 hb))

/-- A register that a bridge does not hold is not written. -/
theorem bridgeConfigWrite_unheld (h : bridgeWrite b r lo hi s = s) :
    exec (.bridgeConfigWrite (.bridge b) r lo hi) s = .next s := by
  by_cases hb : b ∈ bridgesHere s
  · rw [bridgeConfigWrite_present hb, h]
  · exact bridgeConfigWrite_absent hb

section
variable {p bus : Nat} {h tr w : Bool} {a : U64} {n : Option Nat} {bs : Bytes}

/-- The port is down, or the switch does not forward. -/
theorem peerRequest_unforwarded (hs : (getP s (portKey p h)).up = false ∨ forwards s = false) :
    peerRequest p h bus tr a n w bs s = s := by
  refine if_pos ?_
  rcases hs with hs | hs
  · rw [hs]
    rfl
  · rw [hs]
    exact Bool.or_true _

section
variable (hu : (getP s (portKey p h)).up = true) (hf : forwards s = true)
include hu hf

theorem peerRequest_endpoint (hx : acsTarget s p h bus tr (peerTarget s p a n) = .endpoint) :
    peerRequest p h bus tr a n w bs s = s := by
  unfold peerRequest
  rw [if_neg (by rw [hu, hf]; decide), hx]

theorem peerRequest_nowhere (hx : acsTarget s p h bus tr (peerTarget s p a n) = .none) :
    peerRequest p h bus tr a n w bs s = emit (.unsupported p) s := by
  unfold peerRequest
  rw [if_neg (by rw [hu, hf]; decide), hx]

section
variable {p' : Nat} {h' : Bool} (hx : acsTarget s p h bus tr (peerTarget s p a n) = .out p' h')
include hx

theorem peerRequest_leaves (hne : (p', h') ≠ (p, h)) (hup : (getP s (portKey p' h')).up = true) :
    peerRequest p h bus tr a n w bs s =
      sendTlp (portKey p' h') 0 bs.length (.peer p' h' a w bs) none w false s := by
  unfold peerRequest
  rw [if_neg (by rw [hu, hf]; decide), hx]
  exact if_neg (not_or_intro hne (not_not_intro hup))

theorem peerRequest_unsupported (hn : (p', h') = (p, h) ∨ (getP s (portKey p' h')).up = false) :
    peerRequest p h bus tr a n w bs s = emit (.unsupported p) s := by
  unfold peerRequest
  rw [if_neg (by rw [hu, hf]; decide), hx]
  exact if_pos (hn.imp_right Bool.eq_false_iff.1)
end
end
end

section
variable {off c : Nat} {bs : Bytes}

theorem windowWrite_bar (h : off < 0x4000000) :
    windowWrite .bar off bs s = windowStore ((reg s 0xF4B0).toNat + off) bs s := if_pos h

theorem windowWrite_barMsix (h : 0x4000000 ≤ off) :
    windowWrite .bar off bs s = writeMsix 0 (off - 0x4000000) bs s := if_neg (not_lt.2 h)

theorem windowStore_admitted {x : Nat × Byte} {l : List (Nat × Byte)} (h : windowBytes s c bs = x :: l) :
    windowStore c bs s = memStore x.1 ((x :: l).map Prod.snd) s := by
  unfold windowStore
  rw [h]

theorem windowStore_unadmitted (h : windowBytes s c bs = []) : windowStore c bs s = s := by
  unfold windowStore
  rw [h]

theorem windowWrite_agentOwn {o : Nat} (h : agentReach s c off = some (.own o)) :
    windowWrite (.agent c) off bs s = memStore (agentBase s c + o) bs s := by
  unfold windowWrite
  dsimp only
  rw [h]

theorem windowWrite_agentElsewhere (h : ∀ o, agentReach s c off ≠ some (.own o)) :
    windowWrite (.agent c) off bs s = s := by
  unfold windowWrite
  dsimp only
  split
  · next o ho => exact absurd ho (h o)
  · rfl
end

theorem flushRetry_failed {p : Nat} {h : Bool} {t : U64} (hr : running s = true)
    (ht : (getP s (portKey p h)).flushFailAt = some t) :
    exec (.flushRetry p h) s = .next (if elapsed s t (us 1) then flushNow (portKey p h)
      (modP (portKey p h) (fun p => { p with flushFailAt := none }) s) else s) := by
  refine (live_running hr).trans ?_
  rw [ht]
end

/-- Settles O47: by the place and register of a write, the target of a request, and the window of a write. -/
theorem theSwitchForwardsAndTheWindowWrites : Obligations.TheSwitchForwardsAndTheWindowWrites := by
  refine ⟨fun b lo hi s => ⟨fun hb => ⟨?_, ?_, ?_, ?_⟩, fun r hb => ?_⟩,
    fun k lo hi s => ⟨rfl, rfl, rfl, rfl, rfl, fun b => ⟨?_, ?_⟩⟩,
    fun p bus h tr w a n bs s hu hf => ⟨fun p' h' hx => ⟨fun hne hup => ?_, fun hn => ?_⟩, fun hx => ?_, fun hx => ?_⟩,
    fun p bus h tr w a n bs s hs => ?_,
    fun off bs s hr => ⟨fun x l ho hw => ?_, fun ho hw => ?_, fun ho => ?_, fun f => ?_, fun a o ha => ?_, fun a ha => ?_⟩,
    fun p h k a w s hr => ⟨fun hf => ?_, fun hf => ?_⟩, fun p h t s hr ht => flushRetry_failed hr ht,
    fun r lo hi s hb hw => ?_, fun r lo hi s hb => ?_, fun r lo hi s hb hv => ?_⟩
  · exact bridgeConfigWrite_present hb
  · exact bridgeConfigWrite_present hb
  · exact bridgeConfigWrite_present hb
  · exact bridgeConfigWrite_present hb
  · exact bridgeConfigWrite_absent hb
  · exact bridgeConfigWrite_unheld rfl
  · exact bridgeConfigWrite_unheld rfl
  · exact congrArg _ (peerRequest_leaves hu hf hx hne hup)
  · exact congrArg _ (peerRequest_unsupported hu hf hx hn)
  · exact congrArg _ (peerRequest_endpoint hu hf hx)
  · exact congrArg _ (peerRequest_nowhere hu hf hx)
  · exact congrArg _ (peerRequest_unforwarded hs)
  · exact (live_running hr).trans (congrArg _ ((windowWrite_bar ho).trans (windowStore_admitted hw)))
  · exact (live_running hr).trans (congrArg _ ((windowWrite_bar ho).trans (windowStore_unadmitted hw)))
  · exact (live_running hr).trans (congrArg _ (windowWrite_barMsix ho))
  · exact live_running hr
  · exact (live_running hr).trans (congrArg _ (windowWrite_agentOwn ha))
  · exact (live_running hr).trans (congrArg _ (windowWrite_agentElsewhere ha))
  · exact (live_running hr).trans (congrArg _ (if_pos hf))
  · exact live_idle (if_neg (by rw [hf]; decide))
  · cases r with
    | busNumbers => exact absurd rfl hb
    | window => exact absurd rfl hw
    | _ => rfl
  · cases r with
    | bar k => exact absurd rfl (hb k)
    | _ => rfl
  · cases r with
    | bar k => exact absurd rfl (hb k)
    | vfEnable => exact absurd rfl hv
    | _ => rfl

end Sys2Proof.Machine
end

section
namespace Sys2Proof.Machine

/-! ### Detections and the fence commands (R286, R379 to R395) -/

section
variable {s : State}

theorem errorEvent_collected {src u : Nat} {a : U64} {fo : Option Nat} (hc : collectorRuns s = true) :
    exec (.errorEvent src u a fo) s = .next (detect src u a fo false s) := congrArg Host.Outcome.next (if_pos hc)

theorem self_collected (hc : collectorRuns s = true) : exec .self s = .next (selfEvent false s) :=
  congrArg Host.Outcome.next (if_pos hc)

section
variable {src u : Nat} {a : U64} {fo : Option Nat} {forced : Bool} (h3 : src ≠ 0x3F) (hn : noUnit src = false)
include h3 hn

theorem detect_absent (hu : unitOk s src u = false) : detect src u a fo forced s = s := by
  unfold detect
  rw [hn]
  exact (if_neg h3).trans (if_pos (by rw [if_neg Bool.false_ne_true, hu]; rfl))

section
variable (hu : unitOk s src u = true)
include hu

/-- In Umbra a detection is recorded only (R381). -/
theorem detect_umbra (hm : s.err.mode = .umbra) : detect src u a fo forced s = recordOnly src u forced a fo s := by
  unfold detect
  rw [hn]
  exact (if_neg h3).trans ((if_neg (by rw [if_neg Bool.false_ne_true, hu]; decide)).trans (if_pos hm))

/-- Outside Umbra the source's area reacts (R382). -/
theorem detect_reacts (hm : s.err.mode ≠ .umbra) : detect src u a fo forced s =
    if src ≤ 0x05 then detectSram src u forced a s
    else if src ≤ 0x0C then detectMem src u forced a fo s
    else if src ≤ 0x11 then detectPrism src u forced s
    else if src ≤ 0x17 then resendLost (detectLink src u forced s)
    else if 0x1C ≤ src ∧ src ≤ 0x20 then detectPort src u forced a fo s
    else detectOther src u forced a fo s := by
  unfold detect
  rw [hn]
  exact (if_neg h3).trans ((if_neg (by rw [if_neg Bool.false_ne_true, hu]; decide)).trans (if_neg hm))
end
end

theorem writeForce_enabled {v : U64} (h : bit (reg s 0xFC20) 0 = true) : writeForce v s =
    (setBits 64 v.toNat).foldl (fun s src => detect src (regf s 0xFC28 7 0) 0 none true s) s := if_pos h

theorem writeForce_disabled {v : U64} (h : bit (reg s 0xFC20) 0 = false) : writeForce v s = s :=
  if_neg (by rw [h]; decide)

/-! The fence commands: a unit that does not exist, is absent, or is already as asked ends them early. -/

section
variable {k u : Nat} {b : Bool}

theorem fenceEarly_unnumbered (h : kindCount k ≤ u) : fenceEarly s k u b = some (statD cBAD_FIELD 1) := if_pos h

theorem fenceEarly_absent (h : u < kindCount k) (hh : kindHas s k u = false) :
    fenceEarly s k u b = some (stat cUNIT_ABSENT) :=
  (if_neg (not_le.2 h)).trans (if_pos (by rw [hh]; rfl))

theorem fenceEarly_already (h : u < kindCount k) (hh : kindHas s k u = true) (hf : kindFenced s k u = b) :
    fenceEarly s k u b = some stOk :=
  (if_neg (not_le.2 h)).trans ((if_neg (by rw [hh]; decide)).trans (if_pos (by rw [hf, decide_eq_true rfl]; rfl)))
end

section
variable {q : Nat} {i : Item}

theorem unitFence_early {st : Status} (h : fenceEarly s (fenceKind i.desc) (fenceIdx i.desc) true = some st) :
    unitFence q i s = completeItem 0 q i.idx st s := by
  unfold unitFence
  dsimp only
  rw [h]

theorem unitUnfence_early {st : Status} (h : fenceEarly s (fenceKind i.desc) (fenceIdx i.desc) false = some st) :
    unitUnfence q i s = completeItem 0 q i.idx st s := by
  unfold unitUnfence
  dsimp only
  rw [h]

theorem unitFence_asked (h : fenceEarly s (fenceKind i.desc) (fenceIdx i.desc) true = none) :
    unitFence q i s =
      if fenceReason s (fenceKind i.desc) (fenceIdx i.desc) = 0 then
        completeItem 0 q i.idx stOk (fenceUnit (fenceKind i.desc) (fenceIdx i.desc) (restWake s))
      else completeItem 0 q i.idx (statD cBAD_FIELD (fenceReason s (fenceKind i.desc) (fenceIdx i.desc))) s := by
  unfold unitFence
  dsimp only
  rw [h]
  exact ite_not ..

theorem unitUnfence_unit (h : fenceEarly s (fenceKind i.desc) (fenceIdx i.desc) false = none)
    (hk : fenceKind i.desc ≠ 4) : unitUnfence q i s =
      completeItem 0 q i.idx stOk (unfenceUnit (fenceKind i.desc) (fenceIdx i.desc) (restWake s)) := by
  unfold unitUnfence
  dsimp only
  rw [h]
  exact if_neg hk

/-- A channel's unfence waits for the copy back of its relocated rows (R387). -/
theorem unitUnfence_channel (h : fenceEarly s (fenceKind i.desc) (fenceIdx i.desc) false = none)
    (hk : fenceKind i.desc = 4) : unitUnfence q i s =
      if deviceBusy s q then completeItem 0 q i.idx (statD cBAD_FIELD 3) s
      else { restWake s with memc := { (restWake s).memc with unfencing := some (q, i.idx) } } := by
  unfold unitUnfence
  dsimp only
  rw [h]
  exact if_pos hk
end

section
variable {f q op : Nat} {c : Instr} {b : Bool} {i : Item}
  (hc : (c, op, b) ∈ ([(.unitFence f q, 0x38, true), (.unitUnfence f q, 0x39, false)] : List (Instr × Nat × Bool)))
  (h : ready s f q op = some i)
include hc h

/-- A fence or unfence command that may start. -/
theorem exec_fenceCommand : exec c s = .next (settle f
    ((if b then unitFence q i else unitUnfence q i) (startItem f q i.idx s))) := by
  rcases List.mem_pair.1 hc with hc | hc
  · cases hc
    exact live_startWith h rfl
  · cases hc
    exact live_startWith h rfl

theorem exec_fenceCommand_early {st : Status}
    (he : fenceEarly (startItem f q i.idx s) (fenceKind i.desc) (fenceIdx i.desc) b = some st) :
    exec c s = .next (settle f (completeItem 0 q i.idx st (startItem f q i.idx s))) := by
  rw [exec_fenceCommand hc h]
  cases b with
  | true => exact congrArg _ (congrArg _ (unitFence_early he))
  | false => exact congrArg _ (congrArg _ (unitUnfence_early he))
end
end

/-- Settles O54: by the source and the device's mode, and what stands against a fence or an unfence. -/
theorem detectionsAndFencesComplete : Obligations.DetectionsAndFencesComplete := by
  refine ⟨fun src u a fo s hc hm hu => ⟨fun act i hs => ?_, fun hs => ?_, fun hs => ?_, fun i hs => ?_, fun hs => ?_⟩,
    fun src u a fo s hc h3 hn => ⟨fun hu => ?_, fun hu hm => ?_⟩, fun s hc hm => ?_, fun s hc hm => ?_,
    fun f v s hr => ⟨fun hf he => ?_, fun h => ?_⟩,
    fun f q op c b i s hc h => ⟨fun hk => ?_, fun hk hh => ?_, fun hk hh hf => ?_, fun he hb => ?_,
      fun he hb hk => ?_, fun he hb hk => ?_⟩,
    fun s hc => ?_⟩
  · simp only [List.mem_cons, List.not_mem_nil, or_false, Prod.mk.injEq] at hs
    obtain ⟨rfl, rfl, rfl⟩ | ⟨rfl, rfl, rfl⟩ | ⟨rfl, rfl, rfl⟩ := hs
    all_goals exact (errorEvent_collected hc).trans (congrArg _ (detect_reacts (by decide) rfl hu hm))
  · subst hs
    exact (errorEvent_collected hc).trans (congrArg _ (detect_reacts (by decide) rfl hu hm))
  · subst hs
    exact (errorEvent_collected hc).trans (congrArg _ (detect_reacts (by decide) rfl hu hm))
  · simp only [List.mem_cons, List.not_mem_nil, or_false, Prod.mk.injEq] at hs
    obtain ⟨rfl, rfl⟩ | ⟨rfl, rfl⟩ | ⟨rfl, rfl⟩ | ⟨rfl, rfl⟩ := hs
    all_goals exact (errorEvent_collected hc).trans (congrArg _ (detect_reacts (by decide) rfl hu hm))
  · subst hs
    exact (errorEvent_collected hc).trans (congrArg _ (detect_reacts (by decide) rfl hu hm))
  · rw [errorEvent_collected hc, detect_absent h3 hn hu]
  · rw [errorEvent_collected hc, detect_umbra h3 hn hu hm]
  · exact (self_collected hc).trans (congrArg _ (if_neg hm))
  · exact (self_collected hc).trans (congrArg _ (if_pos hm))
  · subst hf
    exact (live_running hr).trans (congrArg _ (writeForce_enabled he))
  · exact live_mgmtWrite_idle (h.imp_right writeForce_disabled)
  · exact exec_fenceCommand_early hc h (fenceEarly_unnumbered hk)
  · exact exec_fenceCommand_early hc h (fenceEarly_absent hk hh)
  · exact exec_fenceCommand_early hc h (fenceEarly_already hk hh hf)
  · subst hb
    refine (exec_fenceCommand hc h).trans (congrArg _ ?_)
    rw [if_pos rfl, unitFence_asked he, apply_ite (settle f)]
  · subst hb
    exact (exec_fenceCommand hc h).trans (congrArg _ (congrArg _ (unitUnfence_unit he hk)))
  · subst hb
    refine (exec_fenceCommand hc h).trans (congrArg _ ?_)
    rw [if_neg Bool.false_ne_true, unitUnfence_channel he hk, apply_ite (settle f)]
  · refine congrArg Host.Outcome.next ?_
    unfold when
    rw [hc, Bool.true_and]

end Sys2Proof.Machine
end

section
namespace Sys2Proof.Machine

/-! ### The facet commands (R298, R318, R319, R323, R327) -/

section
variable {f q : Nat} {s : State}

/-- A queue's change leaves the segments of every facet. -/
theorem getSeg_modQ {rq : Bool} {g : Queue → Queue} (j n : Nat) : getSeg (modQ f rq q g s) j n = getSeg s j n := by
  unfold getSeg modQ
  rw [getF_modF]
  split
  · next h => rw [h]
  · rfl

/-- The start of a descriptor leaves the segments, so that a range that passed, or failed, does so still. -/
theorem rangeCheck_startItem {idx : U32} (j seg : Nat) (off : U64) (len : Nat) (k : Acc) (rkey : Option U32) :
    rangeCheck (startItem f q idx s) j seg off len k rkey = rangeCheck s j seg off len k rkey := by
  unfold rangeCheck startItem modItem
  rw [getSeg_modQ]

/-! FACET_RESIZE: its read, and what its record gives. -/

section
variable {rec : List U64} {i : Item}

theorem facetResize_denied (hr : rangeCheck s 0 (fld i.desc.w3 7 0) i.desc.w4 128 .lrd none = false) :
    facetResize q rec i s = completeItem 0 q i.idx (statD cACCESS_DENIED 0) s := by
  unfold facetResize
  rw [if_pos (by rw [hr]; rfl)]

section
variable (hr : rangeCheck s 0 (fld i.desc.w3 7 0) i.desc.w4 128 .lrd none = true)
include hr

theorem facetResize_refused {st : Status} (hc : resizeCheck s (fld i.desc.w2 6 0)
      (wordsAt s 0 (fld i.desc.w3 7 0) i.desc.w4 16 rec) = some st) :
    facetResize q rec i s = completeItem 0 q i.idx st s := by
  unfold facetResize
  dsimp only
  rw [if_neg (by rw [hr]; decide), hc]

theorem facetResize_applies (hc : resizeCheck s (fld i.desc.w2 6 0)
      (wordsAt s 0 (fld i.desc.w3 7 0) i.desc.w4 16 rec) = none) :
    facetResize q rec i s =
      (let v := applyRecord (fld i.desc.w2 6 0) (wordsAt s 0 (fld i.desc.w3 7 0) i.desc.w4 16 rec) s
       completeItem 0 q i.idx (if (getF v (fld i.desc.w2 6 0)).shrink then stat cSHRINK_PENDING else stOk) v) := by
  unfold facetResize
  dsimp only
  rw [if_neg (by rw [hr]; decide), hc]
end

section
variable (h : ready s f q 0x35 = some i)
include h

theorem exec_facetResize (hn : descHurt s f q = none) :
    exec (.facetResize f q rec) s = .next (resizeStart f q rec s) :=
  (live_running (ready_cases h).1).trans (congrArg _ (descBack_unharmed h hn))

theorem resizeStart_denied (hr : rangeCheck s 0 (fld i.desc.w3 7 0) i.desc.w4 128 .lrd none = false) :
    resizeStart f q rec s = startWith f q 0x35 (facetResize q rec) s := by
  unfold resizeStart
  rw [h]
  exact if_pos (by rw [hr]; rfl)

theorem resizeStart_reads (hr : rangeCheck s 0 (fld i.desc.w3 7 0) i.desc.w4 128 .lrd none = true) :
    resizeStart f q rec s = startAccess q false (resizeSpan i.desc)
      (fun t x => startWith f q 0x35 (facetResize q rec) (readAll none 0 t.fresh x)) s := by
  unfold resizeStart
  rw [h]
  exact if_neg (by rw [hr]; decide)
end
end

/-! FACET_RESET and FACET_RESET_ADVANCE: by the facet's state, and whether its waiting step has ended. -/

theorem facetReset_on {off : Bool} (h : (getF s f).st = .on) : facetReset f off s = resetBegin f off s := by
  unfold facetReset
  rw [h]

theorem facetReset_resetting {off : Bool} (h : (getF s f).st = .resetting) :
    facetReset f off s = if off then modF f (fun x => { x with offAfter := true }) s else s := by
  unfold facetReset
  rw [h]

/-- A reset that turns nothing OFF acts on a facet that is ON, and only there. -/
theorem facetReset_false : facetReset f false s = if (getF s f).st = .on then resetBegin f false s else s := by
  unfold facetReset
  cases (getF s f).st <;> rfl

theorem resetRun_goes {n : Nat} (h : (getF s f).st = .resetting) (he : resetStepEnded s f = true) :
    resetRun (n + 1) f s = resetRun n f (resetNext f s) := if_pos ⟨h, he⟩

theorem resetRun_waits {n : Nat} (h : (getF s f).st = .resetting) (he : resetStepEnded s f = false) :
    resetRun (n + 1) f s = if (getF s f).rstep = 3 then resetQps f s else s := by
  refine (if_neg (by rw [he]; simp)).trans ?_
  simp only [h, true_and]

theorem resetRun_idle {n : Nat} (h : (getF s f).st ≠ .resetting) : resetRun (n + 1) f s = s :=
  (if_neg fun hf => h hf.1).trans (if_neg fun hf => h hf.1)
end

/-- What an FLR resets at once: the function's enables, and for facet 0 PF0's base addresses and VF Enable (R298, R319).
That Enable Relaxed Ordering returns to 1 is assumption log entry 70, and the zeros of the others are entry 77. -/
def functionReset (f : Nat) (s : State) : State :=
  let t := modF f Facet.resetFunction s
  if f = 0 then resetBars t else t

theorem getF_functionReset_st (f : Nat) (s : State) : (getF (functionReset f s) f).st = (getF s f).st := by
  have ht : (getF (modF f Facet.resetFunction s) f).st = (getF s f).st := by
    rw [getF_modF, if_pos rfl]
    rfl
  unfold functionReset
  split
  · exact ht
  · exact ht

theorem running_functionReset (f : Nat) (s : State) : running (functionReset f s) = running s := by
  unfold functionReset
  split <;> rfl

theorem exec_flr {f : Nat} {s : State} (hr : running s = true) : exec (.flr f) s =
    .next (if (getF s f).st = .on then resetBegin f false (functionReset f s) else functionReset f s) := by
  have hx : exec (.flr f) s = live (facetReset f false) (functionReset f s) := rfl
  rw [hx, live_running ((running_functionReset f s).trans hr), facetReset_false, getF_functionReset_st]

/-- Settles O49: by what FACET_RESIZE's record gives, and the facet's state. -/
theorem facetCommandsComplete : Obligations.FacetCommandsComplete := by
  refine ⟨fun f q rec i s h hn => ⟨fun hr => ?_, fun hr hb hp hf hx ht => ?_⟩,
    fun f q i s h => ⟨fun hg => ?_, fun hg hs => ?_, fun hg hs => ?_, fun hg hs => ?_⟩,
    fun f s hr hs => ⟨fun he => ?_, fun he => ?_⟩, fun f s hr hs => ?_, fun f s hr => exec_flr hr⟩
  · rw [exec_facetResize h hn, resizeStart_denied h hr, startWith_ready h,
      facetResize_denied ((rangeCheck_startItem ..).trans hr)]
  · have reads : exec (.facetResize f q rec) s = .next (settle f (facetResize q rec i (startItem f q i.idx
        (readAll none 0 (transRanges (.desc q) 0 false (resizeSpan i.desc) s).2.fresh
          (transRanges (.desc q) 0 false (resizeSpan i.desc) s).1)))) := by
      rw [exec_facetResize h hn, resizeStart_reads h hr, startAccess_full hb hp hf, startWith_ready hx]
    exact ⟨fun hc => reads.trans (congrArg _ (congrArg _ (facetResize_applies ht hc))),
      fun st hc => reads.trans (congrArg _ (congrArg _ (facetResize_refused ht hc)))⟩
  · exact live_startWith h (if_pos hg)
  · exact live_startWith h ((if_neg hg).trans (if_pos hs))
  · exact live_startWith h ((if_neg hg).trans ((if_neg (by rw [hs]; decide)).trans
      (congrArg _ (facetReset_on hs))))
  · exact live_startWith h ((if_neg hg).trans ((if_neg (by rw [hs]; decide)).trans
      (congrArg _ (facetReset_resetting hs))))
  · exact (live_running hr).trans (congrArg _ (resetRun_goes hs he))
  · exact (live_running hr).trans (congrArg _ (resetRun_waits hs he))
  · exact (live_running hr).trans (congrArg _ (resetRun_idle hs))

end Sys2Proof.Machine
end

section
namespace Sys2Proof.Machine

/-! ### Compatibility commands and the cores' jobs (R333 to R336, R347 to R350, R386)

A port that is not released as a command begins, a segment that is not valid, and the destination check of a PKCS#7
decryption are as assumption log entry 29 reads them. -/

theorem cmpStart_busy {f op : Nat} {v : U32} {s : State} (hb : (getF s f).cip.cmpBusy = true) :
    cmpStart f op v s = s := if_pos hb

/-- Core `core` goes on with its suspended job, or with none (R335). -/
def resumeCore (core : Nat) (s : State) : State :=
  { s with cip := { s.cip with
    cores := aset core ((aget {} core s.cip.cores : Core).resumed s.now) s.cip.cores } }

section
variable {core : Nat} {bs : Bytes} {s : State}

theorem injected_iff {src unit : Nat} : injected s src unit = true ↔ (src, unit) ∈ s.err.injections :=
  List.contains_iff_mem

theorem coreDone_none (hn : (aget {} core s.cip.cores : Core).run = none) : coreDone core bs s = s := by
  unfold coreDone
  rw [hn]

/-- A job's end has no effect while the entropy source gives no output, or where the core runs none (R352). -/
theorem cipherJobDone_idle (h : s.trust.ent ≠ 1 ∨ (aget {} core s.cip.cores : Core).run = none) :
    exec (.cipherJobDone core bs) s = .next s := by
  refine live_idle ?_
  rcases h with he | hn
  · rw [decide_eq_false he, when_false]
  · unfold when
    rw [coreDone_none hn, ite_self]

section
variable {r : Run} (hrun : (aget {} core s.cip.cores : Core).run = some r)
include hrun

theorem jobDone_ends (he : s.trust.ent = 1) : jobDone core bs s = schedule (match r.job with
    | .packet id n _ tx p => packetDone id n tx p r.key (resumeCore core s)
    | .piece f => pieceDone f r.key bs (resumeCore core s)) := by
  unfold jobDone
  rw [if_neg (not_not_intro he)]
  dsimp only
  rw [hrun]
  rfl

theorem coreDone_injected (hi : (0x28, core) ∈ s.err.injections) :
    coreDone core bs s = coreMismatch core
      (collect 0x28 clsUC core true 0 0 (match r.job with | .piece _ => 2 | _ => 0) none (dropInjection 0x28 core s)) := by
  unfold coreDone
  rw [hrun]
  exact if_pos (injected_iff.2 hi)

section
variable (hi : (0x28, core) ∉ s.err.injections)
include hi

theorem coreDone_packet {id n : Nat} {b tx : Bool} {p : Packet} (hj : r.job = .packet id n b tx p) :
    coreDone core bs s = jobDone core bs s := by
  unfold coreDone
  rw [hrun]
  dsimp only
  rw [if_neg (mt injected_iff.1 hi), hj]

theorem coreDone_piece {f : Nat} (hj : r.job = .piece f) :
    coreDone core bs s = readBack (.cipher f) (piecePlaces s f) (jobDone core bs) (readsEnd (.cipher f) s) := by
  unfold coreDone
  rw [hrun]
  dsimp only
  rw [if_neg (mt injected_iff.1 hi), hj]
end
end

theorem exec_cipherJobDone (hr : running s = true) (he : s.trust.ent = 1) :
    exec (.cipherJobDone core bs) s = .next (coreDone core bs s) :=
  (live_running hr).trans (congrArg _ (if_pos (decide_eq_true he)))
end

/-- Settles O51: by the checks of a command in their order, and what the core's job was. -/
theorem compatibilityCommandsBeginAndJobsEnd : Obligations.CompatibilityCommandsBeginAndJobsEnd := by
  refine ⟨fun f op v c s hop hr hc hf => ?_, fun core bs r s hr he hrun => ⟨fun hi => ?_, fun id n b tx p hi hj => ?_,
    fun f hi hj => ⟨fun hh => ?_, fun h hh => ?_⟩⟩, fun core bs s h => cipherJobDone_idle h⟩
  · intro x len out no slot pad lenOk pins ranges empty
    have runs : exec c s = .next (cmpStart f op v s) := by
      simp only [List.mem_cons, List.not_mem_nil, or_false, Prod.mk.injEq] at hop
      rcases hop with ⟨rfl, rfl⟩ | ⟨rfl, rfl⟩ | ⟨rfl, rfl⟩
      all_goals exact cipCommand_on hr hc hf
    have slot_iff : (agetq (fld v 5 4) x.slots).isNone = true ↔ slot = false := by simp [slot]
    have pad_iff : (op ≠ 3 ∧ fld v 3 2 = 3) ↔ pad = false := by simp [pad]
    have len_iff : cmpLenBad op (fld v 3 2) len = true ↔ lenOk = false := by simp [lenOk]
    have pins_iff : (!hasPin s f (fld x.cmpSegs 7 0) || !hasPin s f (fld x.cmpSegs 15 8)) = true ↔ pins = false := by
      rw [← Bool.not_and, Bool.not_eq_true']
    have ranges_iff : (!rangeCheck s f (fld x.cmpSegs 7 0) x.cmpSoff len .lrd none ||
        !rangeCheck s f (fld x.cmpSegs 15 8) x.cmpDoff out .lwr none) = true ↔ ranges = false := by
      rw [← Bool.not_and, Bool.not_eq_true']
    have empty_iff : (len = 0 ∧ out = 0) ↔ empty = true := decide_eq_true_iff.symm
    refine ⟨fun hb => runs.trans (congrArg _ (cmpStart_busy hb)), fun hb => runs.trans (congrArg _ ?_)⟩
    exact (if_neg (by rw [hb]; decide)).trans (if_congr slot_iff rfl (if_congr pad_iff rfl (if_congr len_iff rfl
      (if_congr pins_iff rfl (if_congr ranges_iff rfl (if_congr empty_iff rfl rfl))))))
  · exact (exec_cipherJobDone hr he).trans (congrArg _ (coreDone_injected hrun hi))
  · rw [exec_cipherJobDone hr he, coreDone_packet hrun hi hj, jobDone_ends hrun he, hj]
    rfl
  · rw [exec_cipherJobDone hr he, coreDone_piece hrun hi hj, readBack_unharmed hh,
      jobDone_ends (s := readsEnd (.cipher f) s) hrun he, hj]
    rfl
  · rw [exec_cipherJobDone hr he, coreDone_piece hrun hi hj, readBack_hurt hh]

end Sys2Proof.Machine
end

section
namespace Sys2Proof.Machine

/-! ### The filter of a port (R370, R371)

The receive buffer's fill is a sum over the table of ports, and a change of a port whose entry stands behind one of a
greater key lists the port a second time. In a state with such a table the count of an arriving frame (assumption log
entry 33) doubles what the port's queues hold, and the frame no longer finds the room that it had: it counts in RX_FULL
and never reaches the filter. The keys of an `Assoc` are meant to rise, but its type is a plain list's, and the
statement speaks of every state. -/

/-- A frame without room is discarded before any other test of R370. -/
theorem exec_ethFrame_full {p b : Nat} {ok fx : Bool} {alt : AltBits} {bs : Bytes} {s : State}
    (hf : fabricUp s = true) (hl : subLive s p b = true) (hr : ¬ hasRoom p bs s) :
    exec (.ethFrame p b ok fx alt bs) s =
      .next (modEth p (fun e => { e with rxFull := e.rxFull + 1 }) (frameCounted p s)) :=
  congrArg _ ((ethFrame_up hf).trans (rxFrame_full hl hr))

/-- A sub-port's queue of one packet, `held`, that came by port 0. -/
def queueHolding (held : Bytes) : OutQ :=
  { pkts := [{ vc := 0, group := 6, rail := 0, charge := 0, lineage := 0, rh := default, bytes := held }] }

/-- The running adapter with sub-port 0 of port 0 live and `held` queued there, the entry of port 1 before that of
port 0. -/
def portsMisordered (held : Bytes) : State :=
  { State.reset with
    boot := { run := .running }
    eth := { ports := [(1, {}), (0, { up := 1, queues := [(0, queueHolding held)] })] } }

theorem rxHeld_portsMisordered (held : Bytes) : rxHeld (portsMisordered held) 0 = held.length :=
  Nat.zero_add held.length

theorem rxHeld_frameCounted_portsMisordered (held : Bytes) :
    rxHeld (frameCounted 0 (portsMisordered held)) 0 = held.length + held.length :=
  congrArg (· + held.length) (Nat.zero_add held.length)

/-- The buffer of port 0 half full. -/
def halfFull : State := portsMisordered (List.replicate 1048576 0)

/-- A frame to 01:01:01:01:01:01, which no filter entry of `halfFull` names. -/
def strangersFrame : Bytes := List.replicate 60 1

theorem halfFull_room : rxHeld halfFull 0 + strangersFrame.length + 4 ≤ 2097152 := by
  rw [halfFull, strangersFrame, rxHeld_portsMisordered, List.length_replicate, List.length_replicate]
  decide

theorem not_hasRoom_halfFull : ¬ hasRoom 0 strangersFrame halfFull := by
  rw [hasRoom, halfFull, strangersFrame, rxHeld_frameCounted_portsMisordered, List.length_replicate,
    List.length_replicate]
  decide

theorem halfFull_fabricUp : fabricUp halfFull = true := by decide +kernel

theorem halfFull_subLive : subLive halfFull 0 0 = true := by decide +kernel

/-- Refutes O17: where port 1 is listed before port 0, a frame that the filter refuses counts in RX_FULL. -/
theorem not_framesPassTheFilterByTheirMac : ¬ Obligations.FramesPassTheFilterByTheirMac := by
  rintro ⟨-, drops, -⟩
  have dropped := drops halfFull 0 0 false default strangersFrame halfFull_fabricUp halfFull_subLive halfFull_room
    (by decide +kernel) (by decide +kernel)
  have full := exec_ethFrame_full (ok := true) (fx := false) (alt := default) halfFull_fabricUp halfFull_subLive
    not_hasRoom_halfFull
  have same := congrArg (fun t => (getEth t 0).rxFull) (Host.Outcome.next.inj (full.symm.trans dropped))
  simp only [frameCounted, getEth_modEth, if_true] at same
  exact absurd same (by decide +kernel)

end Sys2Proof.Machine
end

section
namespace Sys2Proof.Machine

/-! ### The queue of waiting commands (log entry 4) -/

/-- Settles O1: a queue with a command in front takes step's second branch. -/
theorem stepRunsTheCommandInFront : Obligations.StepRunsTheCommandInFront := by
  intro c rest s h
  unfold step
  rw [h]

end Sys2Proof.Machine
end

section
namespace Sys2Proof.Machine

/-! ### Which events are recorded (R380, R396) -/

/-- R380's condition against a record: an event of the source was recorded in the preceding 1 ms. -/
def recordedLately (s : State) (src : Nat) : Prop :=
  ∃ u, agetq src s.agl.lastCe = some u ∧ elapsed s u (ms 1) = false

theorem suppressed_iff {s : State} {src cls : Nat} :
    suppressed s src cls = true ↔ cls = clsCE ∧ recordedLately s src := by
  unfold suppressed recordedLately
  cases agetq src s.agl.lastCe <;> simp

/-- REPEAT stands above SEQ, the source, the class and FORCED in word 1. -/
theorem aglWords_repeat {now : U64} {seq : U32} {src cls unit : Nat} {forced again : Bool} {info0 : U64}
    {info1 act : Nat} {fo : Option Nat} (hs : src < 64) (hc : cls < 4) :
    bit (aglWords now seq src cls unit forced again info0 info1 act fo).w1 41 = again := by
  have hseq := seq.isLt
  have hforced : b2n forced ≤ 1 := by cases forced <;> decide
  have hagain : b2n again ≤ 1 := by cases again <;> decide
  exact bit_word

/-- A detection counts for its source before it is recorded (R379). -/
def counted (src : Nat) (s : State) : State :=
  { s with err := { s.err with cnt := amod 0 src (fun c => c + 1) s.err.cnt } }

section
variable {src cls unit : Nat} {forced : Bool} {a : U64} {b act : Nat} {fo : Option Nat} {s : State}

theorem collect_eq_recordEvent : collect src cls unit forced a b act fo s =
    recordEvent src cls unit forced a b (if s.err.mode = .umbra then 8 else act) fo (counted src s) := rfl

theorem recordedLately_counted : recordedLately (counted src s) src ↔ recordedLately s src := Iff.rfl

/-- The ring ends with the event that entered it last, however many older ones it drops. -/
theorem recordRaw_getLast {again : Bool} :
    (recordRaw src cls unit forced again a b act fo s).agl.events.getLast? =
      some (s.agl.next, aglWords s.now s.agl.next src cls unit forced again a b act fo) := by
  simp [recordRaw, List.getLast?_drop]

theorem recordRaw_records {again : Bool} (hs : src < 64) (hc : cls < 4) :
    ∃ e, (recordRaw src cls unit forced again a b act fo s).agl.events.getLast? = some (s.agl.next, e) ∧
      bit e.w1 41 = again :=
  ⟨_, recordRaw_getLast, aglWords_repeat hs hc⟩

theorem recordEvent_suppressed (hc : cls = clsCE) (hr : recordedLately s src) :
    recordEvent src cls unit forced a b act fo s =
      { s with agl := { s.agl with
          suppressed := s.agl.suppressed + 1
          supp := if s.agl.supp.contains src then s.agl.supp else s.agl.supp ++ [src] } } :=
  if_pos (suppressed_iff.2 ⟨hc, hr⟩)

theorem recordEvent_correctable (hc : cls = clsCE) (hr : ¬ recordedLately s src) :
    recordEvent src cls unit forced a b act fo s =
      (let t := recordRaw src cls unit forced (s.agl.supp.contains src) a b act fo s
       { t with agl := { t.agl with
           lastCe := aset src s.now t.agl.lastCe, supp := t.agl.supp.filter (fun x => x ≠ src) } }) :=
  (if_neg (fun h => hr (suppressed_iff.1 h).2)).trans (if_pos hc)

theorem recordEvent_other (hc : cls ≠ clsCE) :
    recordEvent src cls unit forced a b act fo s = recordRaw src cls unit forced false a b act fo s :=
  (if_neg (fun h => hc (suppressed_iff.1 h).1)).trans (if_neg hc)
end

/-- Settles O16: by the class, and for a CE event by whether its source was recorded lately. -/
theorem correctableEventsAreRecordedOncePerMillisecond :
    Obligations.CorrectableEventsAreRecordedOncePerMillisecond := by
  intro src cls unit forced a b act fo s hsrc hcls
  refine ⟨fun hc => ?_, fun hc hr => ?_, fun hc hr => ?_⟩
  · rw [collect_eq_recordEvent, recordEvent_other hc]
    exact ⟨rfl, rfl, recordRaw_records hsrc hcls⟩
  · rw [collect_eq_recordEvent, recordEvent_suppressed hc (recordedLately_counted.2 hr)]
    refine ⟨rfl, rfl, rfl, ?_, rfl⟩
    dsimp only
    split
    · next h => exact List.contains_iff_mem.1 h
    · exact List.mem_append_right _ (List.mem_singleton_self src)
  · rw [collect_eq_recordEvent, recordEvent_correctable hc (mt recordedLately_counted.1 hr)]
    refine ⟨rfl, rfl, by simp, by simp [agetq_aset, counted], ?_⟩
    dsimp only
    rw [← List.contains_eq_mem]
    exact recordRaw_records (s := counted src s) hsrc hcls

end Sys2Proof.Machine
end

section
namespace Sys2Proof.Machine

/-! ### The dump, its host copy, and the agents (R388, R397 to R400, R417 to R419) -/

/-- A guarded operation that would change nothing changes nothing under any guard. -/
theorem when_idle {c : Bool} {g : State → State} {s : State} (h : g s = s) : when c g s = s := by
  unfold when
  rw [h, ite_self]

theorem infoEvent_mem (subtype unit action : Nat) (info0 : U64) (s : State) :
    (infoEvent subtype unit action info0 s).mem = s.mem :=
  (infoEvent_does (does_refl [.agl, .err] s) rfl).only .mem (by decide)

theorem infoEvent_out (subtype unit action : Nat) (info0 : U64) (s : State) :
    (infoEvent subtype unit action info0 s).out = s.out :=
  (infoEvent_does (does_refl [.agl, .err] s) rfl).only .out (by decide)

/-- An INFO event counts its source and changes nothing else of the collector's own record. -/
theorem infoEvent_err (subtype unit action : Nat) (info0 : U64) (s : State) :
    (infoEvent subtype unit action info0 s).err =
      { s.err with cnt := amod 0 0x38 (fun c => c + 1) s.err.cnt } := by
  rw [infoEvent, collect_eq_recordEvent, recordEvent_other (by decide)]
  rfl

theorem clearPoison_mem (a n : Nat) (s : State) : (clearPoison a n s).mem = s.mem := rfl

theorem memStore_mem (a : Nat) (bs : Bytes) (s : State) : (memStore a bs s).mem = memWrite a bs s.mem := rfl

section
variable {s : State}

/-- Memory `m`, whose `n` bytes of the dump region were written, and the dump's INFO event; whether it is copied to the
host is still open. -/
def dumpStored (m : List Host.Cell) (n : Nat) (s : State) : State :=
  let t := clearPoison (s.memc.regions.getD 3 0) n { s with mem := m, free := s.free + 1 }
  infoEvent 6 0 0 0 { t with err := { t.err with dumpDone := true } }

theorem dumpStored_mem (m : List Host.Cell) (n : Nat) : (dumpStored m n s).mem = m := infoEvent_mem ..

theorem dumpStored_dumpDone (m : List Host.Cell) (n : Nat) : (dumpStored m n s).err.dumpDone = true := by
  rw [dumpStored, infoEvent_err]

/-- Where ERR_DEV_DUMP_CFG.EN is 1, the host copy of a dump that lies in memory begins or is refused (R400). -/
def copyAsked (s : State) : State :=
  if bit (reg s 0xFC38) 8 then
    { s with err := { s.err with copying := hostCopyOk s, hostFail := !hostCopyOk s } }
  else s

theorem copyAsked_mem : (copyAsked s).mem = s.mem := by
  unfold copyAsked
  split <;> rfl

theorem copyAsked_dumpDone : (copyAsked s).err.dumpDone = s.err.dumpDone := by
  unfold copyAsked
  split <;> rfl

theorem dumpWritten_stores (hm : s.err.mode = .umbra) (hd : s.err.dumpDone = false) (hr : s.memc.regions ≠ []) :
    dumpWritten s =
      copyAsked (dumpStored (dumpMem s) (if dumpByFirmware s then 0x4000000 else 0x50000) s) :=
  if_neg (by simp [hm, hd, hr])

theorem dumpWritten_dumps (hm : s.err.mode = .umbra) (hd : s.err.dumpDone = false) (hr : s.memc.regions ≠ []) :
    (dumpWritten s).err.dumpDone = true ∧ (dumpWritten s).mem = dumpMem s := by
  rw [dumpWritten_stores hm hd hr, copyAsked_dumpDone, copyAsked_mem]
  exact ⟨dumpStored_dumpDone .., dumpStored_mem ..⟩

/-- What the host copy leaves where it does not reach the host (R400). -/
def copyFailed (s : State) : State := { s with err := { s.err with copying := false, hostFail := true } }

/-- What the host copy leaves where its bytes reached their place (R400). -/
def copyPlaced (s : State) : State :=
  let w := pinPlace s 0 (regf s 0xFC38 7 0) (reg s 0xFC40)
  let bs := memRead s.mem (s.memc.regions.getD 3 0) hostCopyLen
  let s := { s with err := { s.err with copying := false } }
  let s := if w.1 = 5 then memStore w.2.toNat bs s
    else emit (.pwrite { target := w.1, halfB := toHalfB s w.1 w.2, facet := 0, addr := w.2, bytes := bs }) s
  infoEvent 7 0 0 0 { s with err := { s.err with hostDone := true } }

theorem hostCopyDone_idle {ok : Bool} (h : s.err.mode ≠ .umbra ∨ s.err.copying = false) : hostCopyDone ok s = s :=
  if_pos (h.imp_right ne_true_of_eq_false)

section
variable (hm : s.err.mode = .umbra) (hc : s.err.copying = true)
include hm hc

theorem hostCopyDone_failed {ok : Bool} (h : (ok && hostCopyOk s) = false) : hostCopyDone ok s = copyFailed s :=
  (if_neg (by simp [hm, hc])).trans (if_neg (ne_true_of_eq_false h))

theorem hostCopyDone_placed (h : hostCopyOk s = true) : hostCopyDone true s = copyPlaced s :=
  (if_neg (by simp [hm, hc])).trans (if_pos h)
end

theorem copyPlaced_err : (copyPlaced s).err.hostDone = true ∧ (copyPlaced s).err.copying = false := by
  unfold copyPlaced
  dsimp only
  rw [infoEvent_err]
  refine ⟨rfl, ?_⟩
  split <;> rfl

theorem copyPlaced_local (h : (pinPlace s 0 (regf s 0xFC38 7 0) (reg s 0xFC40)).1 = 5) :
    (copyPlaced s).mem = memWrite (pinPlace s 0 (regf s 0xFC38 7 0) (reg s 0xFC40)).2.toNat
      (memRead s.mem (s.memc.regions.getD 3 0) hostCopyLen) s.mem := by
  unfold copyPlaced
  dsimp only
  rw [infoEvent_mem, if_pos h, memStore_mem]

theorem copyPlaced_remote (h : (pinPlace s 0 (regf s 0xFC38 7 0) (reg s 0xFC40)).1 ≠ 5) :
    (copyPlaced s).out = s.out ++ [.pwrite (
      let w := pinPlace s 0 (regf s 0xFC38 7 0) (reg s 0xFC40)
      { target := w.1, halfB := toHalfB s w.1 w.2, facet := 0, addr := w.2
        bytes := memRead s.mem (s.memc.regions.getD 3 0) hostCopyLen })] := by
  unfold copyPlaced
  dsimp only
  rw [infoEvent_out, if_neg h]
  rfl

section
variable {a : Nat}

theorem agentTrap_running (hr : running s = true) (ha : (getAgent s a).st = 1) :
    exec (.agentTrap a) s = .next (restartAgent a (getAgent s a).core s) :=
  (live_running hr).trans (congrArg _ (if_pos (decide_eq_true ha)))

theorem agentWatchdog_running (hr : running s = true) (ha : (getAgent s a).st = 1) : exec (.agentWatchdog a) s =
    .next (if (getAgent s a).entry.wdogMs ≠ 0 ∧ elapsed s (getAgent s a).kickAt (ms (getAgent s a).entry.wdogMs) then
      restartAgent a (getAgent s a).core s else s) :=
  (live_running hr).trans (congrArg _ (when_iff (by simp [ha]) _ s))

theorem agentTrap_idle (ha : (getAgent s a).st ≠ 1) : exec (.agentTrap a) s = .next s :=
  live_idle (if_neg (mt of_decide_eq_true ha))

theorem agentWatchdog_idle (ha : (getAgent s a).st ≠ 1) : exec (.agentWatchdog a) s = .next s :=
  live_idle (if_neg (fun h => ha (of_decide_eq_true (Bool.and_eq_true_iff.1 h).1).1))
end
end

/-- Settles O55: by the state of the dump and of its copy, and by whether the agent runs. -/
theorem dumpAgentsAndSelectionComplete : Obligations.DumpAgentsAndSelectionComplete := by
  refine ⟨fun s hscan hm hd hr => ?_, fun s h => ?_, fun s hscan hm hc => ?_, fun ok s h => ?_, fun f v s hr => ?_,
    fun a s hr ha => ⟨agentTrap_running hr ha, agentWatchdog_running hr ha⟩,
    fun a s ha => ⟨agentTrap_idle ha, agentWatchdog_idle ha⟩, fun c v s hr => live_running hr,
    fun v s => live_idle rfl⟩
  · exact ⟨dumpWritten s, congrArg Host.Outcome.next (if_pos (by rw [hscan]; rfl)), dumpWritten_dumps hm hd hr⟩
  · exact congrArg Host.Outcome.next (when_idle (if_pos h))
  · have hx : ∀ ok, exec (.hostCopyDone ok) s = .next (hostCopyDone ok s) := fun ok =>
      congrArg Host.Outcome.next (if_pos (by rw [hscan]; rfl))
    refine ⟨?_, fun ho => ?_, fun ho => ?_⟩
    · exact (hx false).trans (congrArg _ (hostCopyDone_failed hm hc rfl))
    · exact (hx true).trans (congrArg _ (hostCopyDone_failed hm hc ho))
    · obtain ⟨hdone, hcopying⟩ := copyPlaced_err (s := s)
      refine ⟨copyPlaced s, (hx true).trans (congrArg _ (hostCopyDone_placed hm hc ho)), hdone, hcopying,
        copyPlaced_local, fun h => ?_⟩
      rw [copyPlaced_remote h]
      exact List.mem_append_right _ (List.mem_singleton_self _)
  · exact congrArg Host.Outcome.next (when_idle (hostCopyDone_idle h))
  · exact (live_running hr).trans (congrArg _ (if_congr decide_eq_true_iff rfl rfl))

end Sys2Proof.Machine
end

section
namespace Sys2Proof.Machine

/-! ### Rest and Glimmer (R424 to R433) -/

section
variable {s : State}

theorem restIdle_unfit (ha : s.pwr.st = .active) (hm : mayRest s = false) : restIdle s = noteBusy s :=
  (if_neg (not_not.2 ha)).trans (if_pos (by rw [hm]; rfl))

theorem restIdle_fit (ha : s.pwr.st = .active) (hm : mayRest s = true) : restIdle s =
    if elapsed s s.pwr.idleAt (us (2 ^ regf s 0x100 5 2)) then restBegin s else s :=
  (if_neg (not_not.2 ha)).trans (if_neg (by rw [hm]; decide))

/-- What Rest entry's first steps do, with the links that are asked for sleep named by membership (R427). -/
theorem restBegin_asks : restBegin s =
    (let l := (List.range 24).filter (linkLive s)
     let t := emits (l.map (linkWord s 5 1)) s
     { t with
       fab := { t.fab with links := amap (fun n x => if n ∈ l then { x with asked := true } else x) t.fab.links }
       pwr := { t.pwr with st := .restEntry, entryAt := t.now, asked := l }
       prism := { t.prism with assigning := false } }) := by
  simp only [restBegin, List.contains_iff_mem]

theorem restStep_entering (h : s.pwr.st = .restEntry) : restStep s =
    if allAnswered s = true ∨ elapsed s s.pwr.entryAt (us 10) = true then { s with
      fab := { s.fab with
        links := amap (fun _ l => if l.asked && !l.granted then { l with asked := false } else l) s.fab.links }
      pwr := { s.pwr with st := .rest, entryAt := s.now, asked := [], rests := s.pwr.rests + 1 }
      prism := { s.prism with powered := false } } else s :=
  if_congr (and_iff_right h) rfl rfl

theorem exec_glimmerIdle (hb : s.boot.run = .running) (ha : awake s = true) :
    exec .glimmerIdle s = .next (glimmerIdle s) :=
  congrArg Host.Outcome.next (if_pos (by rw [hb, ha]; rfl))

/-- At the end of the interval in Rest, R429 is looked at. -/
theorem glimmerIdle_due (hr : s.pwr.st = .rest)
    (he : elapsed s s.pwr.entryAt (ms (2 ^ regf s 0x100 9 6)) = true) : glimmerIdle s =
      if mayGlimmer s then glimmerBegin s else { s with pwr := { s.pwr with entryAt := s.now } } :=
  if_neg (not_or.2 ⟨not_not.2 hr, ne_false_of_eq_true he⟩)

/-- The last rail of Glimmer entry is off. -/
theorem glimmerAsleep_entered (hg : s.pwr.st = .glimmerEntry) (hd : s.pwr.seqDown = none) : glimmerAsleep s =
    if s.boot.warmAfter then glimmerExit 0 s
    else if s.pwr.latch ≠ 0 then glimmerExit (s.pwr.latch ||| 0x800) s
    else { s with
      pwr := { s.pwr with st := .glimmer, sampleAt := s.now }, thm := { s.thm with duties := glimDuties s } } :=
  if_neg (by simp [hg, hd])

theorem sampleCycle_due {r : Readings} (hg : s.pwr.st = .glimmer)
    (hd : s.pwr.latch ≠ 0 ∨ elapsed s s.pwr.sampleAt (ms (samplePeriod s)) = true) : sampleCycle r s =
      if sample s r = 0 then { s with pwr := { s.pwr with sampleAt := s.now } } else glimmerExit (sample s r) s :=
  if_pos ⟨hg, hd⟩

theorem wakeUpTimeout_asserted {t : U64} (h : s.pwr.wakeUp = some t) :
    exec .wakeUpTimeout s = .next (if elapsed s t (ms 1000) then wakeUpEnd s else s) := by
  show execWakeUpTimeout s = _
  unfold execWakeUpTimeout
  rw [h]
  rfl
end

/-- Settles O58: by the power state, and the condition of each command. -/
theorem restAndGlimmerCommandsComplete : Obligations.RestAndGlimmerCommandsComplete := by
  refine ⟨fun s hr ha => ⟨fun hm he => ?_, fun hm he => ?_, fun hm => ?_⟩,
    fun s hr h => (live_running hr).trans (congrArg _ (restStep_entering h)),
    fun s hb hw hr he => ⟨fun hm => ?_, fun hm => ?_⟩,
    fun s hg hd => ⟨fun hw => ?_, fun hw hl => ?_, fun hw hl => ?_⟩,
    fun w s hw => congrArg Host.Outcome.next (if_pos hw),
    fun r s hg => ⟨fun hd => congrArg Host.Outcome.next (sampleCycle_due hg hd),
      fun hd => congrArg Host.Outcome.next (if_neg fun h => hd h.2)⟩,
    fun t s => wakeUpTimeout_asserted⟩
  · exact (live_running hr).trans (congrArg _ ((restIdle_fit ha hm).trans ((if_pos he).trans restBegin_asks)))
  · exact live_idle ((restIdle_fit ha hm).trans (if_neg (ne_true_of_eq_false he)))
  · exact (live_running hr).trans (congrArg _ (restIdle_unfit ha hm))
  · exact (exec_glimmerIdle hb hw).trans (congrArg _ ((glimmerIdle_due hr he).trans (if_pos hm)))
  · exact (exec_glimmerIdle hb hw).trans
      (congrArg _ ((glimmerIdle_due hr he).trans (if_neg (ne_true_of_eq_false hm))))
  · exact congrArg Host.Outcome.next ((glimmerAsleep_entered hg hd).trans (if_pos hw))
  · exact congrArg Host.Outcome.next
      ((glimmerAsleep_entered hg hd).trans ((if_neg (ne_true_of_eq_false hw)).trans (if_pos hl)))
  · exact congrArg Host.Outcome.next
      ((glimmerAsleep_entered hg hd).trans ((if_neg (ne_true_of_eq_false hw)).trans (if_neg (not_not.2 hl))))

end Sys2Proof.Machine
end

section
namespace Sys2Proof.Machine

/-! ### Rails, AVS and cooling (R436 to R440) -/

section
variable {r : Nat} {s : State}

theorem railTimeout_awaited (h : railAwaits s r = true) : railTimeout r s =
    if elapsed s s.pwr.railAt (ms 10) then
      powerDown (allDuty 100 { s with
        boot := { s.boot with run := .retryWait }, pwr := { s.pwr with entryAt := s.now } })
    else s :=
  if_congr (by rw [h, Bool.true_and]) rfl rfl

theorem railTimeout_unawaited (h : railAwaits s r = false) : railTimeout r s = s := if_neg (by simp [h])

/-- AVS sets VDD_CORE and then VDD_SRAM, each only if its transaction succeeds (R438). -/
def avsTrimmed (vcore vsram : Nat) (coreOk sramOk : Bool) (s : State) : State :=
  avsSet 1 (avsStep 750 850 vsram) sramOk (avsSet 2 (avsStep 700 800 vcore) coreOk
    { s with pwr := { s.pwr with avsAt := s.now } })

section
variable {c m : Nat} {a b : Bool}

theorem avsTrim_due (h5 : stage5Past s = true) (he : bit (reg s 0x100) 10 = true)
    (ht : elapsed s s.pwr.avsAt (ms 10) = true) : exec (.avsTrim c m a b) s = .next (avsTrimmed c m a b s) :=
  congrArg Host.Outcome.next (if_pos (by rw [h5, he, ht]; rfl))

theorem avsTrim_idle (h : stage5Past s = false ∨ bit (reg s 0x100) 10 = false ∨
    elapsed s s.pwr.avsAt (ms 10) = false) : exec (.avsTrim c m a b) s = .next s :=
  congrArg Host.Outcome.next (if_neg (by rcases h with h | h | h <;> simp [h]))
end

/-- The integrator and output of one period: full in the first and without an ok diode, else the loop's (R439). -/
def loopOutput (s : State) (r : Readings) : U16 × Int :=
  if s.thm.fresh then (0xFFFF, 1048560)
  else (loopInput s r).elim (0xFFFF, s.thm.i) fun x => loopNext s x (levelLow s r)

theorem loopOutput_fresh {r : Readings} (h : s.thm.fresh = true) : loopOutput s r = (0xFFFF, 1048560) := if_pos h

theorem loopOutput_input {r : Readings} {x : Int} (h : s.thm.fresh = false) (hx : loopInput s r = some x) :
    loopOutput s r = loopNext s x (levelLow s r) :=
  (if_neg (ne_true_of_eq_false h)).trans (by rw [hx]; rfl)

theorem loopOutput_blind {r : Readings} (h : s.thm.fresh = false) (hx : loopInput s r = none) :
    loopOutput s r = (0xFFFF, s.thm.i) :=
  (if_neg (ne_true_of_eq_false h)).trans (by rw [hx]; rfl)

/-- A period of the loop: what it sets before the temperatures above their limits are reported (R439, R440). -/
theorem loopPeriod_sets (r : Readings) (s : State) : ∃ t, loopPeriod r s = thermEvents r t ∧ t.thm.at_ = s.now ∧
    t.thm.fresh = false ∧ (t.thm.u, t.thm.i) = loopOutput s r ∧ t.thm.duties = (List.range 4).map fun k =>
      if levelLow s r then percent (regf s (0x210 + 8 * k) 27 21) else dutyOf s t.thm.u k := by
  unfold loopPeriod loopOutput
  cases hx : loopInput s r with
  | none => exact ⟨_, rfl, rfl, rfl, rfl, rfl⟩
  | some x => exact ⟨_, rfl, rfl, rfl, rfl, rfl⟩

theorem coolingPeriod_due {r : Readings} (h5 : stage5Past s = true)
    (ht : elapsed s s.thm.at_ (ms (25 * 2 ^ regf s 0x200 63 60)) = true) :
    exec (.coolingPeriod r) s = .next (loopPeriod r s) :=
  congrArg Host.Outcome.next (if_pos (by rw [h5, ht]; rfl))

theorem coolingPeriod_idle {r : Readings} (h : stage5Past s = false ∨
    elapsed s s.thm.at_ (ms (25 * 2 ^ regf s 0x200 63 60)) = false) : exec (.coolingPeriod r) s = .next s :=
  congrArg Host.Outcome.next (if_neg (by rcases h with h | h <;> simp [h]))
end

/-- Settles O59: by the rail that is awaited, each interval, and what the loop reads. -/
theorem railAndCoolingCommandsComplete : Obligations.RailAndCoolingCommandsComplete := by
  refine ⟨fun r s => ⟨fun h => congrArg Host.Outcome.next (if_pos h),
      fun h => congrArg Host.Outcome.next (railTimeout_awaited h), fun h =>
      ⟨congrArg Host.Outcome.next (if_neg (ne_true_of_eq_false h)),
        congrArg Host.Outcome.next (railTimeout_unawaited h)⟩⟩,
    fun s hb hd => congrArg Host.Outcome.next (when_iff (by simp [hb, hd]) _ s),
    fun r s => congrArg Host.Outcome.next (when_iff decide_eq_true_iff _ s),
    fun c m s h5 he ht => ⟨avsTrimmed c m true true s, avsTrim_due h5 he ht, rfl, rfl, rfl⟩,
    fun c m s h5 he ht => avsTrim_due h5 he ht, fun c m a b s h => avsTrim_idle h, fun r s h5 ht => ?_,
    fun r s h => coolingPeriod_idle h⟩
  obtain ⟨t, hp, hat, hfresh, hout, hduties⟩ := loopPeriod_sets r s
  refine ⟨t, (coolingPeriod_due h5 ht).trans (congrArg _ hp), hat, hfresh, fun hf => ?_, fun x hf hx => ?_,
    fun hf hx => ?_, fun hl => ?_, fun hl => ?_⟩
  · exact Prod.mk.inj (hout.trans (loopOutput_fresh hf))
  · exact hout.trans (loopOutput_input hf hx)
  · exact Prod.mk.inj (hout.trans (loopOutput_blind hf hx))
  · simpa only [hl, Bool.false_eq_true, if_false] using hduties
  · simpa only [hl, if_true] using hduties

end Sys2Proof.Machine
end
